-- ==== Sys2Proof/Word.lean ====
section
/-!
DEFINITION. The word types of the machine (00 R6, 02 R32, R39, R43, R50).
-/
namespace Sys2Proof

/-- A byte of memory or of a typed buffer (00 R6). -/
abbrev Byte := BitVec 8

/-- A general register, an address or a system register (02 R50). -/
abbrev Word := BitVec 64

/-- A command register (02 R39, R50). -/
abbrev QWord := BitVec 128

/-- A core's number in the mesh: y × 32 + x (01 R16). -/
abbrev CoreId := Nat

end Sys2Proof
end

