-- ==== Sys2Proof/Config.lean ====
section
/-!
DEFINITION. What an implementation or a party outside the device fixes and the manual does not: free values, and the
keys and digests that a device is made with (13 R390, R392). Each constant is opaque: nothing can be proved of its
value, so a claim holds for every value.
-/
namespace Sys2Proof.Config

/-- A free value: State.freeCtr is the argument, and each use advances it (log 6). -/
opaque freeValue : Nat → Nat

/-- Which set of an L1 a line lies in, and which set of the MMU's second level a page (03 R67, R68; log 75). -/
opaque lineSet : Nat → Nat
opaque pageSet : Nat → Nat

/-- Which of the 64 sets of its home slice a tile line lies in (05 R145; log 80). -/
opaque sliceSet : Nat → Nat → Nat → Nat

/-- The device certificate chain rooted in the maker's certificate (13 R392; log 40). -/
opaque certificateChain : List Byte

/-- Root key digest held in fuses (13 R390). -/
opaque fusedRootDigest : List Byte

/-- The anti-rollback count held in fuses (13 R390). -/
opaque fusedVersion : Nat

/-- The per-device secret fused at manufacture (13 R392). -/
opaque fusedSecret : List Byte

/-- The digest of the boot ROM (13 R392). -/
opaque bootRomDigest : List Byte

/-- The session key that an SPDM key exchange derives from the requester's share (13 R392; log 40). -/
opaque sessionKey : List Byte → Nat → List Byte

/-- The proof that a FINISH has to give for a session key (13 R392; log 40). -/
opaque finishProof : List Byte → List Byte

/-- The IDE keys that a session key gives the ports (13 R392; log 40). -/
opaque ideKeys : List Byte → List Byte

end Sys2Proof.Config
end

