-- ==== Sys2Proof/Syntax.lean ====
section
/-!
DEFINITION. The syntax of the machine's steps: the scalar words of 02 R36, the stream commands of 02 R42, the node
operations of 02 R46 and the events that spec/opcode_table.json lists beside them. One constructor a row, and one more
for the stream command `subs` (05 R164), whose table name the scalar SUBS holds.
-/
namespace Sys2Proof

/-- The fields of a stream command but for its opcode (02 R39). -/
structure Cmd where
  /-- bit 121: on completion, add the byte count to the pail -/
  p : Bool
  /-- bit 120: the command's activity is attributed to the tagged events -/
  e : Bool
  cflags : BitVec 8
  waitA : BitVec 8
  waitB : BitVec 8
  hA : BitVec 6
  hB : BitVec 6
  portA : BitVec 6
  portB : BitVec 6
  pail : BitVec 8
  operand : BitVec 64
  deriving DecidableEq, Repr, Inhabited

/-- A rectangle of cores (01 R27, 04 R96). -/
structure Rect where
  x : Nat
  y : Nat
  w : Nat
  h : Nat
  deriving DecidableEq, Repr, Inhabited

/-- A unit that stops at a halt and writes a stop record: record n of a core block or of a die block (13 R350). -/
inductive UnitRef where
  | core (k : CoreId) (record : Fin 16)
  | die (d : Nat) (record : Fin 2)
  deriving DecidableEq, Repr

/-- A directed link of a folded ring: the ring's axis and direction, its row or column, and the absolute positions it
joins (12 R321, R322). Every view of the rings uses the same links (12 R323). -/
structure RingLink where
  meridian : Bool
  clockwise : Bool
  line : Nat
  src : Nat
  dst : Nat
  deriving DecidableEq, Repr, Inhabited

/-- What a lease is taken for (04 R123, 05 R174). -/
inductive LeaseRequest where
  | point (tag idx : Nat)
  | task (seq : Nat)
  | command (k : CoreId) (id : Nat)
  deriving DecidableEq, Repr

/-- What a scale-out frame carries (12 R334): a message, a boundary token of a linked launch, or a dispatcher update. -/
inductive FrameKind where
  | message | boundary | update
  deriving DecidableEq, Repr, Inhabited

/-- A scale-out frame between the ports of one plane (12 R335): the peer package, its number, what it carries and to which core, and
the EtherType. A token or update names a launch's tag, an index and a height. -/
structure Frame where
  peer : Nat
  num : Nat
  dst : CoreId
  channel : Nat
  words : List Word
  kind : FrameKind
  ether : Nat
  deriving DecidableEq, Repr, Inhabited

/-- The kinds of unit that have spares (01 R18, 13 R388). -/
inductive SpareKind where
  | coreSite | column | bank | slice | pseudoRow | lane
  deriving DecidableEq, Repr

/-- A unit that runs a firmware image (13 R390): the management core of a cluster, or the base die of a stack. -/
inductive FirmwareUnit where
  | management (cl : Nat)
  | baseDie (stack : Nat)
  deriving DecidableEq, Repr

/-- A firmware image as the boot ROM meets it (13 R390): the unit it is for, its bytes, its Ed448 signature and the key of that, and
its security version. -/
structure FirmwareImage where
  target : FirmwareUnit
  bytes : List Byte
  signature : List Byte
  key : List Byte
  version : Nat
  deriving DecidableEq, Repr

/-- The clock registers that firmware loads for one cluster (14 R427). -/
structure ClusterLoad where
  cl : Nat
  clkdef : Word
  vfloor : Word
  pcoef : Word
  deriving DecidableEq, Repr

/-- What bring-up loads (13 R391, 14 R427): registers of clusters, the partitions with their power share, the cap in W (01 R26), the
spares in use, which CXL ports are trained (01 R15), the EtherType of the scale-out ports (12 R335), and, on HXD4-P48, the minimum
coolant flow that the builder's cold plate needs from a cap on, in 0.1 L/min, caps rising (01 R30); none on HXD4-M48. -/
structure BringUp where
  clusters : List ClusterLoad
  parts : List (Rect × Word)
  cap : Nat
  flows : Option (List (Nat × Nat))
  spares : List (CoreId × Word)
  port0 : Bool
  port1 : Bool
  ether : Nat
  deriving DecidableEq, Repr

/-- A page of a context as the host's IOMMU gives it (03 R67): its first virtual address, its size in bytes, where it
lies and its permissions. -/
structure PageGrant where
  va : Nat
  size : Nat
  onHost : Bool
  pa : Nat
  r : Bool
  w : Bool
  x : Bool
  deriving DecidableEq, Repr, Inhabited

/-- What firmware sets when it creates a context (13 R391). -/
structure ContextParams where
  id : Nat
  part : Nat
  priv : Bool
  port : Bool
  tok : BitVec 4
  pasid : Nat
  hold : BitVec 16
  stopBase : Nat
  undoBase : Nat
  undoSize : Nat
  pailVa : Word
  pailPa : Nat
  msgWin : Word
  versionArea : Nat
  podSize : Nat
  podIndex : Nat
  quotas : List Word
  pages : List PageGrant
  /-- handler table, 32 bytes an entry (04 R111) -/
  handlers : List (List Byte)
  /-- tensor descriptors, 288 bytes each (05 R138) -/
  tensors : List (List Byte)
  /-- atlas entries: tensor, plate, entry (05 R141) -/
  atlas : List (Nat × Nat × BitVec 128)
  /-- the launch block that the driver names (04 R136) -/
  start : Word
  deriving DecidableEq, Repr

/-- A PCIe AtomicOp of the host (11 R309, R320): 0 FetchAdd, 1 Swap, 2 CAS; other operations and 128 bits are answered
Unsupported Request. -/
structure AtomicOpReq where
  op : Nat
  bytes : Nat
  addr : Nat
  operand : Word
  compare : Word
  deriving DecidableEq, Repr

/-- A host access to device memory (11 R320) or to its own memory: an empty list of bytes reads. -/
structure HostAccess where
  onHost : Bool
  addr : Nat
  len : Nat
  bytes : List Byte
  deriving DecidableEq, Repr

/-- The steps of the machine, one constructor for each row of spec/opcode_table.json. -/
inductive Instr where
  /-- R73. Writes the 64-bit wrapped sum of g[a] and g[b] to g[d]. -/
  | add (d : Fin 32) (a : Fin 32) (b : Fin 32)
  /-- R73. Writes the 64-bit wrapped difference g[a] minus g[b] to g[d]. -/
  | sub (d : Fin 32) (a : Fin 32) (b : Fin 32)
  /-- R73. Writes the bitwise AND of g[a] and g[b] to g[d]. -/
  | and (d : Fin 32) (a : Fin 32) (b : Fin 32)
  /-- R73. Writes the bitwise OR of g[a] and g[b] to g[d]. -/
  | or (d : Fin 32) (a : Fin 32) (b : Fin 32)
  /-- R73. Writes the bitwise XOR of g[a] and g[b] to g[d]. -/
  | xor (d : Fin 32) (a : Fin 32) (b : Fin 32)
  /-- R73. Writes g[a] AND NOT g[b] to g[d]. -/
  | andn (d : Fin 32) (a : Fin 32) (b : Fin 32)
  /-- R73. Shifts g[a] left by g[b][5:0] and keeps the low 64 bits. -/
  | shl (d : Fin 32) (a : Fin 32) (b : Fin 32)
  /-- R73. Shifts g[a] right logically by g[b][5:0]. -/
  | shr (d : Fin 32) (a : Fin 32) (b : Fin 32)
  /-- R73. Shifts g[a] right arithmetically by g[b][5:0]. -/
  | sra (d : Fin 32) (a : Fin 32) (b : Fin 32)
  /-- R73. Writes the low 64 bits of the product of g[a] and g[b]. -/
  | mul (d : Fin 32) (a : Fin 32) (b : Fin 32)
  /-- R73. Writes the high 64 bits of the signed product. -/
  | mulh (d : Fin 32) (a : Fin 32) (b : Fin 32)
  /-- R73. Writes the high 64 bits of the unsigned product. -/
  | mulhu (d : Fin 32) (a : Fin 32) (b : Fin 32)
  /-- R74. Writes the signed truncated quotient, with fixed results for division by zero and overflow. -/
  | div (d : Fin 32) (a : Fin 32) (b : Fin 32)
  /-- R74. Writes the unsigned quotient, all ones on division by zero. -/
  | divu (d : Fin 32) (a : Fin 32) (b : Fin 32)
  /-- R74. Writes the signed remainder, with fixed results for division by zero and overflow. -/
  | rem (d : Fin 32) (a : Fin 32) (b : Fin 32)
  /-- R74. Writes the unsigned remainder, g[a] on division by zero. -/
  | remu (d : Fin 32) (a : Fin 32) (b : Fin 32)
  /-- R73. Writes the signed smaller of g[a] and g[b]. -/
  | min (d : Fin 32) (a : Fin 32) (b : Fin 32)
  /-- R73. Writes the signed larger of g[a] and g[b]. -/
  | max (d : Fin 32) (a : Fin 32) (b : Fin 32)
  /-- R73. Writes the unsigned smaller of g[a] and g[b]. -/
  | minu (d : Fin 32) (a : Fin 32) (b : Fin 32)
  /-- R73. Writes the unsigned larger of g[a] and g[b]. -/
  | maxu (d : Fin 32) (a : Fin 32) (b : Fin 32)
  /-- R73. Writes the signed sum clamped to the 64-bit range. -/
  | adds (d : Fin 32) (a : Fin 32) (b : Fin 32)
  /-- R73. Writes the signed difference clamped to the 64-bit range. -/
  | subs (d : Fin 32) (a : Fin 32) (b : Fin 32)
  /-- R73. Writes the count of leading zero bits of g[a]. -/
  | clz (d : Fin 32) (a : Fin 32)
  /-- R73. Writes the count of trailing zero bits of g[a]. -/
  | ctz (d : Fin 32) (a : Fin 32)
  /-- R73. Writes the count of one bits of g[a]. -/
  | popc (d : Fin 32) (a : Fin 32)
  /-- R73. Sign-extends g[a][7:0] into g[d]. -/
  | sxtB (d : Fin 32) (a : Fin 32)
  /-- R73. Sign-extends g[a][15:0] into g[d]. -/
  | sxtH (d : Fin 32) (a : Fin 32)
  /-- R73. Sign-extends g[a][31:0] into g[d]. -/
  | sxtW (d : Fin 32) (a : Fin 32)
  /-- R73. Zero-extends g[a][7:0] into g[d]. -/
  | zxtB (d : Fin 32) (a : Fin 32)
  /-- R73. Zero-extends g[a][15:0] into g[d]. -/
  | zxtH (d : Fin 32) (a : Fin 32)
  /-- R73. Zero-extends g[a][31:0] into g[d]. -/
  | zxtW (d : Fin 32) (a : Fin 32)
  /-- R75. Adds the sign-extended 16-bit immediate to g[a]. -/
  | addi (d : Fin 32) (a : Fin 32) (i : BitVec 16)
  /-- R75. ANDs g[a] with the zero-extended immediate. -/
  | andi (d : Fin 32) (a : Fin 32) (i : BitVec 16)
  /-- R75. ORs g[a] with the zero-extended immediate. -/
  | ori (d : Fin 32) (a : Fin 32) (i : BitVec 16)
  /-- R75. XORs g[a] with the zero-extended immediate. -/
  | xori (d : Fin 32) (a : Fin 32) (i : BitVec 16)
  /-- R75. Shifts g[a] left by an immediate amount. -/
  | shlImmediate (d : Fin 32) (a : Fin 32) (n : BitVec 6)
  /-- R75. Shifts g[a] right logically by an immediate amount. -/
  | shrImmediate (d : Fin 32) (a : Fin 32) (n : BitVec 6)
  /-- R75. Shifts g[a] right arithmetically by an immediate amount. -/
  | sraImmediate (d : Fin 32) (a : Fin 32) (n : BitVec 6)
  /-- R75. Writes the sign-extended immediate times 65,536 to g[d]. -/
  | lhi (d : Fin 32) (i : BitVec 16)
  /-- R76. Writes g[a] plus g[b] scaled by 2^s. -/
  | lea (d : Fin 32) (a : Fin 32) (b : Fin 32) (s : BitVec 3)
  /-- R76. Linearises packed coordinates over packed extents. -/
  | lin (d : Fin 32) (a : Fin 32) (b : Fin 32)
  /-- R76. Replaces coordinate field i of g[a] with g[b][15:0]. -/
  | pk (d : Fin 32) (a : Fin 32) (b : Fin 32) (i : BitVec 2)
  /-- R76. Extracts coordinate field i of g[a]. -/
  | xk (d : Fin 32) (a : Fin 32) (i : BitVec 2)
  /-- R77. Sets a predicate to g[a] equal to g[b]. -/
  | cmpEq (p : Fin 8) (a : Fin 32) (b : Fin 32)
  /-- R77. Sets a predicate to g[a] not equal to g[b]. -/
  | cmpNe (p : Fin 8) (a : Fin 32) (b : Fin 32)
  /-- R77. Sets a predicate to signed g[a] less than g[b]. -/
  | cmpLt (p : Fin 8) (a : Fin 32) (b : Fin 32)
  /-- R77. Sets a predicate to signed g[a] at least g[b]. -/
  | cmpGe (p : Fin 8) (a : Fin 32) (b : Fin 32)
  /-- R77. Sets a predicate to unsigned g[a] less than g[b]. -/
  | cmpLtu (p : Fin 8) (a : Fin 32) (b : Fin 32)
  /-- R77. Sets a predicate to unsigned g[a] at least g[b]. -/
  | cmpGeu (p : Fin 8) (a : Fin 32) (b : Fin 32)
  /-- R77. Sets a predicate to g[a] equal to a signed 13-bit immediate. -/
  | cmpiEq (a : Fin 32) (p : Fin 8) (i : BitVec 13)
  /-- R77. Sets a predicate to g[a] not equal to the immediate. -/
  | cmpiNe (a : Fin 32) (p : Fin 8) (i : BitVec 13)
  /-- R77. Sets a predicate to signed g[a] less than the immediate. -/
  | cmpiLt (a : Fin 32) (p : Fin 8) (i : BitVec 13)
  /-- R77. Sets a predicate to signed g[a] at least the immediate. -/
  | cmpiGe (a : Fin 32) (p : Fin 8) (i : BitVec 13)
  /-- R77. Sets a predicate to unsigned g[a] less than the immediate. -/
  | cmpiLtu (a : Fin 32) (p : Fin 8) (i : BitVec 13)
  /-- R77. Sets a predicate to unsigned g[a] at least the immediate. -/
  | cmpiGeu (a : Fin 32) (p : Fin 8) (i : BitVec 13)
  /-- R78. Writes g[a] when predicate k is true, else g[b]. -/
  | sel (d : Fin 32) (a : Fin 32) (b : Fin 32) (k : Fin 8)
  /-- R78. Writes g[a] when predicate k is false, else g[b]. -/
  | selN (d : Fin 32) (a : Fin 32) (b : Fin 32) (k : Fin 8)
  /-- R79. ANDs two predicates. -/
  | pand (d : Fin 8) (a : Fin 8) (b : Fin 8)
  /-- R79. ORs two predicates. -/
  | por (d : Fin 8) (a : Fin 8) (b : Fin 8)
  /-- R79. XORs two predicates. -/
  | pxor (d : Fin 8) (a : Fin 8) (b : Fin 8)
  /-- R79. ANDs a predicate with the negation of another. -/
  | pandn (d : Fin 8) (a : Fin 8) (b : Fin 8)
  /-- R79. ORs a predicate with the negation of another. -/
  | porn (d : Fin 8) (a : Fin 8) (b : Fin 8)
  /-- R79. Copies p0-p7 into the low bits of a general register. -/
  | ptog (d : Fin 32)
  /-- R79. Loads p1-p7 from bits 1-7 of a general register. -/
  | gtop (a : Fin 32)
  /-- R80. Branches to PC plus the word offset when the predicate is true. -/
  | brt (p : Fin 8) (o : BitVec 22)
  /-- R80. Branches when the predicate is false; p0 with sense 0 is illegal. -/
  | brn (p : Fin 8) (o : BitVec 22)
  /-- R80. Branches unconditionally through pred p0 and sense 1. -/
  | br (o : BitVec 22)
  /-- R80. Calls when the predicate is true, saving PC plus 4 in g31. -/
  | callt (p : Fin 8) (o : BitVec 22)
  /-- R80. Calls when the predicate is false, saving PC plus 4 in g31. -/
  | calln (p : Fin 8) (o : BitVec 22)
  /-- R80. Calls unconditionally, saving PC plus 4 in g31. -/
  | call (o : BitVec 22)
  /-- R81. Jumps to g[a] after the canonical and alignment checks. -/
  | jr (a : Fin 32)
  /-- R81. Jumps to g[a] and links PC plus 4 into g[d]. -/
  | jrl (d : Fin 32) (a : Fin 32)
  /-- R82. Starts a hardware loop over the following body, or skips the body for a zero count. -/
  | loop (a : Fin 32) (l : BitVec 16)
  /-- R83. Publishes the store buffer, releases messages and reservations, and frees the firing context. -/
  | done
  /-- R83. Moves the firing context behind the ready contexts. -/
  | yield
  /-- R83. Discards the instruction L1, fetched words and the buffer read cache of the core. -/
  | isync
  /-- R84. Loads a sign-extended byte from linear memory. -/
  | ldB (d : Fin 32) (a : Fin 32) (i : BitVec 16)
  /-- R84. Loads a zero-extended byte from linear memory. -/
  | ldBz (d : Fin 32) (a : Fin 32) (i : BitVec 16)
  /-- R84. Loads a sign-extended halfword. -/
  | ldH (d : Fin 32) (a : Fin 32) (i : BitVec 16)
  /-- R84. Loads a zero-extended halfword. -/
  | ldHz (d : Fin 32) (a : Fin 32) (i : BitVec 16)
  /-- R84. Loads a sign-extended word. -/
  | ldW (d : Fin 32) (a : Fin 32) (i : BitVec 16)
  /-- R84. Loads a zero-extended word. -/
  | ldWz (d : Fin 32) (a : Fin 32) (i : BitVec 16)
  /-- R84. Loads a doubleword. -/
  | ldD (d : Fin 32) (a : Fin 32) (i : BitVec 16)
  /-- R84. Loads from g[a] plus a scaled index register, with the size in fn. -/
  | ldx (d : Fin 32) (a : Fin 32) (b : Fin 32) (s : BitVec 3) (z : BitVec 3)
  /-- R85. Stores a byte into the store buffer. -/
  | stB (d : Fin 32) (a : Fin 32) (i : BitVec 16)
  /-- R85. Stores a halfword into the store buffer. -/
  | stH (d : Fin 32) (a : Fin 32) (i : BitVec 16)
  /-- R85. Stores a word into the store buffer. -/
  | stW (d : Fin 32) (a : Fin 32) (i : BitVec 16)
  /-- R85. Stores a doubleword into the store buffer. -/
  | stD (d : Fin 32) (a : Fin 32) (i : BitVec 16)
  /-- R85. Stores to g[a] plus a scaled index register, with the size in fn. -/
  | stx (d : Fin 32) (a : Fin 32) (b : Fin 32) (s : BitVec 3) (z : BitVec 2)
  /-- R86. Starts a fill of a data L1 line and never traps or blocks. -/
  | pref (a : Fin 32) (i : BitVec 16)
  /-- R88. Reads half a typed-buffer granule without waiting or changing its bit. -/
  | ldb (d : Fin 32) (a : Fin 32) (x : BitVec 2) (o : BitVec 12)
  /-- R88. Waits for a full granule, reads it and empties it. -/
  | ldbFe (d : Fin 32) (a : Fin 32) (x : BitVec 2) (o : BitVec 12)
  /-- R88. Waits for a full granule and reads it, leaving it full. -/
  | ldbPk (d : Fin 32) (a : Fin 32) (x : BitVec 2) (o : BitVec 12)
  /-- R88. Reads a granule half and returns its full-empty bit in p7. -/
  | ldbNb (d : Fin 32) (a : Fin 32) (x : BitVec 2) (o : BitVec 12)
  /-- R88. Writes half a granule of A or C and sets it full. -/
  | stb (d : Fin 32) (a : Fin 32) (x : BitVec 2) (o : BitVec 12)
  /-- R88. Waits while the granule is full, then writes it and sets it full. -/
  | stbFe (d : Fin 32) (a : Fin 32) (x : BitVec 2) (o : BitVec 12)
  /-- R90. Copies a 64-byte group into the buffer read cache. -/
  | bpf (a : Fin 32) (x : BitVec 2) (o : BitVec 12)
  /-- R88. Plain typed-buffer read at g[a] plus g[b]. -/
  | ldbx (d : Fin 32) (a : Fin 32) (b : Fin 32) (x : BitVec 2)
  /-- R88. Consuming typed-buffer read at g[a] plus g[b]. -/
  | ldbxFe (d : Fin 32) (a : Fin 32) (b : Fin 32) (x : BitVec 2)
  /-- R88. Peeking typed-buffer read at g[a] plus g[b]. -/
  | ldbxPk (d : Fin 32) (a : Fin 32) (b : Fin 32) (x : BitVec 2)
  /-- R88. Non-blocking typed-buffer read at g[a] plus g[b]. -/
  | ldbxNb (d : Fin 32) (a : Fin 32) (b : Fin 32) (x : BitVec 2)
  /-- R88. Plain typed-buffer write at g[a] plus g[b]. -/
  | stbx (d : Fin 32) (a : Fin 32) (b : Fin 32) (x : BitVec 2)
  /-- R88. Typed-buffer write at g[a] plus g[b] that waits while full. -/
  | stbxFe (d : Fin 32) (a : Fin 32) (b : Fin 32) (x : BitVec 2)
  /-- R283. Opens a fibre from a pointer entry pair and reads its first coordinate. -/
  | fibOpen (d : Fin 16) (a : Fin 32) (b : Fin 32)
  /-- R283. Opens a fibre from explicit pos and end. -/
  | fibSet (d : Fin 16) (a : Fin 32) (b : Fin 32)
  /-- R283. Advances a fibre by one entry. -/
  | fibAdv (d : Fin 16)
  /-- R283. Advances a fibre to the first coordinate not below a target. -/
  | fibSeek (d : Fin 16) (a : Fin 32)
  /-- R283. Sets a predicate when the fibre has ended. -/
  | fibEnd (d : Fin 8) (a : Fin 16)
  /-- R283. Reads cur, pos or end of a fibre into a general register. -/
  | fibGet (d : Fin 32) (a : Fin 16) (b : Fin 32)
  /-- R283. Puts a fibre register into the closed state. -/
  | fibClose (d : Fin 16)
  /-- R285. Writes both halves of an indirect-stream register. -/
  | jsxSet (d : Fin 8) (a : Fin 32) (b : Fin 32)
  /-- R285. Reads one half of an indirect-stream register. -/
  | jsxGet (d : Fin 32) (a : Fin 8) (b : Fin 32)
  /-- R308. Atomically adds and returns the old value. -/
  | amoAdd (d : Fin 32) (a : Fin 32) (b : Fin 32) (s : Bool)
  /-- R308. Atomically ANDs and returns the old value. -/
  | amoAnd (d : Fin 32) (a : Fin 32) (b : Fin 32) (s : Bool)
  /-- R308. Atomically ORs and returns the old value. -/
  | amoOr (d : Fin 32) (a : Fin 32) (b : Fin 32) (s : Bool)
  /-- R308. Atomically XORs and returns the old value. -/
  | amoXor (d : Fin 32) (a : Fin 32) (b : Fin 32) (s : Bool)
  /-- R308. Atomic signed minimum returning the old value. -/
  | amoMin (d : Fin 32) (a : Fin 32) (b : Fin 32) (s : Bool)
  /-- R308. Atomic signed maximum returning the old value. -/
  | amoMax (d : Fin 32) (a : Fin 32) (b : Fin 32) (s : Bool)
  /-- R308. Atomic unsigned minimum returning the old value. -/
  | amoMinu (d : Fin 32) (a : Fin 32) (b : Fin 32) (s : Bool)
  /-- R308. Atomic unsigned maximum returning the old value. -/
  | amoMaxu (d : Fin 32) (a : Fin 32) (b : Fin 32) (s : Bool)
  /-- R308. Atomic swap returning the old value. -/
  | amoSwap (d : Fin 32) (a : Fin 32) (b : Fin 32) (s : Bool)
  /-- R311. Atomic fp32 add on a word, returning the old value and adding flags to sy.aflags. -/
  | amoFadd (d : Fin 32) (a : Fin 32) (b : Fin 32)
  /-- R310. Non-returning atomic add queued at the L1. -/
  | amonAdd (a : Fin 32) (b : Fin 32) (s : Bool)
  /-- R310. Non-returning atomic AND. -/
  | amonAnd (a : Fin 32) (b : Fin 32) (s : Bool)
  /-- R310. Non-returning atomic OR. -/
  | amonOr (a : Fin 32) (b : Fin 32) (s : Bool)
  /-- R310. Non-returning atomic XOR. -/
  | amonXor (a : Fin 32) (b : Fin 32) (s : Bool)
  /-- R310. Non-returning atomic signed minimum. -/
  | amonMin (a : Fin 32) (b : Fin 32) (s : Bool)
  /-- R310. Non-returning atomic signed maximum. -/
  | amonMax (a : Fin 32) (b : Fin 32) (s : Bool)
  /-- R310. Non-returning atomic unsigned minimum. -/
  | amonMinu (a : Fin 32) (b : Fin 32) (s : Bool)
  /-- R310. Non-returning atomic unsigned maximum. -/
  | amonMaxu (a : Fin 32) (b : Fin 32) (s : Bool)
  /-- R310. Non-returning atomic swap. -/
  | amonSwap (a : Fin 32) (b : Fin 32) (s : Bool)
  /-- R312. Non-returning atomic fp32 add whose flags go to sy.nflags. -/
  | amonFadd (a : Fin 32) (b : Fin 32)
  /-- R310. A queued amon is performed at the L1, or its later translation failure is reported to the mailbox. -/
  | amonPerform (k : CoreId)
  /-- R308. Compare-and-swap that writes when memory equals g[d] and sets p7. -/
  | cas (d : Fin 32) (a : Fin 32) (b : Fin 32) (s : Bool)
  /-- R306. Publishes, waits for the firing's commands, commits its versions and relatches. -/
  | phase
  /-- R306. Publication point that blocks until performed. -/
  | fence
  /-- R306. Fence that also waits for every command the firing issued. -/
  | fenceC
  /-- R306. Fence that releases the firing's held host stores to the host. -/
  | fenceX
  /-- R313. Watches up to four lines and blocks until one is written. -/
  | wait (d : Fin 32) (a : Fin 32) (n : BitVec 2)
  /-- R313. Watches up to four lines with a V-cycle time limit in g[b]. -/
  | waitLimited (d : Fin 32) (a : Fin 32) (b : Fin 32) (n : BitVec 2)
  /-- R313. The time limit of a wait passes and the wait returns 4. -/
  | waitLimitExpiry (k : CoreId) (c : Nat)
  /-- R316. Publication point, then sets a pail's target and arms it. -/
  | pailArm (a : Fin 32) (i : BitVec 8)
  /-- R316. Blocks until a pail's gen changes or it fails. -/
  | pailWait (d : Fin 32) (a : Fin 32) (i : BitVec 8)
  /-- R316. Reads a pail's gen and count and its failed state into p7. -/
  | pailRd (d : Fin 32) (i : BitVec 8)
  /-- R128. Appends a word to the firing's message for a destination channel. -/
  | send (c : Fin 32) (a : Fin 32) (b : Fin 32)
  /-- R130. Takes one further word from the firing's input queue without blocking. -/
  | recv (d : Fin 32) (c : Fin 32)
  /-- R131. Writes the firing's sequence number. -/
  | pointSeq (d : Fin 32)
  /-- R131. Writes the contour height of a cross-section entry. -/
  | pointHt (d : Fin 32) (a : Fin 32)
  /-- R132. Copies a task record and hands it to the task scheduler. -/
  | spawn (d : Fin 32) (a : Fin 32)
  /-- R133. Sets the mask bit of a handler entry on the issuing core. -/
  | mask (a : Fin 32)
  /-- R133. Clears the mask bit of a handler entry on the issuing core. -/
  | unmask (a : Fin 32)
  /-- R93. Checks, publishes and enqueues the command in a q register. -/
  | cmd (q : Fin 16)
  /-- R93. Issues a command and blocks until it completes or fails. -/
  | cmdw (q : Fin 16)
  /-- R92. Loads 16 bytes into a q register. -/
  | qld (q : Fin 16) (g : Fin 32) (o : BitVec 16)
  /-- R92. Stores a q register through the store buffer. -/
  | qst (q : Fin 16) (g : Fin 32) (o : BitVec 16)
  /-- R92. Inserts a bit field of g[a] into a q register. -/
  | qins (q : Fin 16) (g : Fin 32) (l : BitVec 7) (w : BitVec 6)
  /-- R95. Consumer releases n slots of a handle. -/
  | advC (h : Fin 64) (n : BitVec 8)
  /-- R95. Producer fills n slots of a handle. -/
  | advP (h : Fin 64) (n : BitVec 8)
  /-- R95. Blocks until a handle has at least n filled slots. -/
  | hwaitC (h : Fin 64) (n : BitVec 8)
  /-- R95. Blocks until a handle has at least n free slots. -/
  | hwaitP (h : Fin 64) (n : BitVec 8)
  /-- R382. Reads a system register after the view check. -/
  | mfsy (d : Fin 32) (s : BitVec 12)
  /-- R382. Writes a system register after the view check, for registers with no behaviour of their own. -/
  | mtsy (a : Fin 32) (s : BitVec 12)
  /-- R383. Raises cause 0x12 with a code and halts the context. -/
  | trap (c : BitVec 12)
  /-- R384. Completes and raises the halt with cause 0x13. -/
  | ebrk
  /-- R385. Blocks the firing context until a queue word, a command completion or a timeout. -/
  | idle
  /-- R385. 65,536 V-cycles pass and a blocked idle completes. -/
  | idleTimeout (k : CoreId) (c : Nat)
  /-- R415. Sets the firing's hint to compute. -/
  | hintCompute
  /-- R415. Sets the firing's hint to memory. -/
  | hintMemory
  /-- R415. Sets the firing's hint to wait. -/
  | hintWait
  /-- R150. A write to a handle descriptor binds or unbinds it, resetting its counts and pointers. -/
  | syHdWrite (h : Fin 64) (v : Word)
  /-- R380. Writing 1 to sy.datum.req requests a datum. -/
  | syDatumReqWrite (x : Nat)
  /-- R410. Writing a positive rem clears drn and ends a drain when every drained class is refilled. -/
  | syQuotaWrite (x : Nat) (n : Fin 8) (v : Word)
  /-- R406. A write selects an event and, going from disabled to enabled, clears the counter. -/
  | syEvselWrite (k : CoreId) (n : Fin 4) (v : Word)
  /-- R396. A write of the default set changes the cluster's request. -/
  | syClkdefWrite (cl : Nat) (v : Word)
  /-- R62. A blocked firing context's condition is met and it becomes ready to resume its instruction. -/
  | firingContextWake (k : CoreId) (c : Nat)
  /-- R63. A context's issue count reaches 256 while others are ready and it moves behind them. -/
  | quantumExpiry (k : CoreId)
  /-- R115. An eligible handler entry is selected, its words moved and a firing context started. -/
  | firingSelection (k : CoreId)
  /-- R346. A unit reached by the halt stops within its bound and writes its stop record. -/
  | unitStop (u : UnitRef)
  /-- R34. Issue of a word that is no instruction (reserved opcode, fn, sfn or sysno, or a nonzero must-be-zero field) ends the
  firing with cause 0x01. -/
  | illegalInstruction (w : BitVec 32)
  /-- R67. A fetch from a page not executable, after one retranslation, or with no translation, ends the firing with cause 0x06 or
  0x05 at the fetch. -/
  | instructionFetchFault (cause : Nat)
  /-- R162. Delivers an affine, generator or buffer pattern to an input port. -/
  | ldAff (c : Cmd)
  /-- R162. Delivers a tile walk to an input port. -/
  | ldTile (c : Cmd)
  /-- R162. Writes tokens from an output port into an affine, generator or buffer pattern. -/
  | stAff (c : Cmd)
  /-- R162. Writes tokens from an output port in tile-walk order. -/
  | stTile (c : Cmd)
  /-- R163. Copies and pins tile lines from the L2 into handle slots. -/
  | tfetch (c : Cmd)
  /-- R164. Pushes a tensor rectangle's tiles into handle slots (the stream command `subs`, opcode 0x06; the table gives the name
  SUBS to R73). -/
  | streamSubs (c : Cmd)
  /-- R165. Asks storers to write slots back as new tile versions. -/
  | pull (c : Cmd)
  /-- R166. Gathers indexed rows of a tensor into slots. -/
  | gath (c : Cmd)
  /-- R166. Scatters rows from slots to indexed rows as new versions. -/
  | scat (c : Cmd)
  /-- R167. Reads a copy descriptor and moves bytes between linear, tensor and handle operands. -/
  | copy (c : Cmd)
  /-- R168. Writes a pattern into A or C and sets granules full or empty. -/
  | fill (c : Cmd)
  /-- R169. Checks and loads a configuration image into a non-current configuration context. -/
  | cfgLd (c : Cmd)
  /-- R170. Once earlier commands, old firings and the fabric are empty, switches the current configuration context. -/
  | cfgSw (c : Cmd)
  /-- R171. Places a BOUND token on an input port's stream. -/
  | bound (c : Cmd)
  /-- R171. Places an EOR, EOK or PRED token on an input port's stream. -/
  | kick (c : Cmd)
  /-- R172. Completes once earlier commands are done and the fabric is empty. -/
  | barr (c : Cmd)
  /-- R173. Changes the owner of a range of A or C banks. -/
  | bank (c : Cmd)
  /-- R174. Widens the firing's lease to the plates of a rectangle. -/
  | lease (c : Cmd)
  /-- R175. Checks and applies a list of atlas edits through one re-latch change. -/
  | relatch (c : Cmd)
  /-- R176. Brings current tile versions of a rectangle into their home slices. -/
  | streamPref (c : Cmd)
  /-- R253. Loads a weight plane from slots or memory, aligning and summing weights. -/
  | wld (c : Cmd)
  /-- R260. Runs one pass of M row tags through a weight plane. -/
  | mrun (c : Cmd)
  /-- R270. Runs one half of a twin pass over N = 512. -/
  | trun (c : Cmd)
  /-- R271. The two halves of a twin run meet on the side link and are checked for agreement. -/
  | twinRendezvous (k : CoreId)
  /-- R266. Loads rows of the quantisation group table. -/
  | szld (c : Cmd)
  /-- R276. Writes held sums and the pass count to C, optionally clearing them. -/
  | spill (c : Cmd)
  /-- R276. Restores held sums and the pass count from C after checking records. -/
  | rest (c : Cmd)
  /-- R287. Streams the elements chosen by an index array to an input port. -/
  | fopen (c : Cmd)
  /-- R289. Ends the latest unfinished fopen on a port. -/
  | fclose (c : Cmd)
  /-- R291. Intersects fibres of two compressed matrices and writes matches. -/
  | isect (c : Cmd)
  /-- R292. Shares rows among parts by weight and writes the boundaries. -/
  | eqpart (c : Cmd)
  /-- R295. Binds C banks to a hash accumulator site. -/
  | hset (c : Cmd)
  /-- R295. Releases a hash accumulator's bank binding, zeroing the banks. -/
  | hsetR (c : Cmd)
  /-- R338. Copies a buffer range to another core of the inset over the rings. -/
  | rsend (c : Cmd)
  /-- R340. Broadcasts the root's range to every member of an inset. -/
  | icollBcast (c : Cmd)
  /-- R340. Combines every member's range into the root's destination. -/
  | icollReduce (c : Cmd)
  /-- R340. Combines every member's range into every destination. -/
  | icollAllred (c : Cmd)
  /-- R340. Gathers every member's range into every destination. -/
  | icollGather (c : Cmd)
  /-- R134. Reads and checks a launch block, installs its contour and elects its leader. -/
  | lnch (c : Cmd)
  /-- R99. The leader's package compares every copy of a pod launch and accepts or fails them. -/
  | podLaunchCompare (x : Nat) (tag : Nat) (copies : List (List Byte))
  /-- R135. Completes when the launch of a tag has retired. -/
  | lsync (c : Cmd)
  /-- R135. Completes when the launch of a tag next commits a datum. -/
  | lsyncD (c : Cmd)
  /-- R152. A command in the scoreboard starts once its waits and ordering allow. -/
  | commandStart (k : CoreId) (id : Nat)
  /-- R153. A command's reads and writes are all performed and it completes. -/
  | commandComplete (k : CoreId) (id : Nat)
  /-- R155. A command fails after issue, fails its pail and raises the halt line. -/
  | commandFailure (k : CoreId) (id : Nat) (reason : Nat)
  /-- R143. An atlas-cache miss completes its walk or fails with 0x23. -/
  | atlasWalk (die : Nat) (tensor plate : Nat)
  /-- R157. A re-latch token leaves an address generator once its old-entry accesses finish. -/
  | relatchToken (k : CoreId) (site : Nat)
  /-- R144. Firmware maps, migrates or changes atlas entries under the re-latch protocol. -/
  | firmwareAtlasChange (x : Nat) (tensor plate : Nat) (e : BitVec 128)
  /-- R149. At the end of each 65,536 V-cycle window ports add their counts to the heat table. -/
  | heatWindow (k : CoreId) (port : Nat)
  /-- R105. A fireable point with lease and queue room is delivered to its actor's ch0 queue. -/
  | pointDelivery (x tag idx : Nat)
  /-- R103. A point whose firing, commands and tasks are done retires and raises its height. -/
  | pointRetirement (x fid : Nat)
  /-- R104. A rise of H reaches another die's copy or a linked launch's dispatcher. -/
  | heightCopyUpdate (x tag die idx : Nat)
  /-- R118. The task scheduler places a queued task on a core's ch1 queue. -/
  | taskPlacement (x seq : Nat) (k : CoreId)
  /-- R122. A task whose firing, commands and spawned tasks are done retires. -/
  | taskRetirement (x fid : Nat)
  /-- R123. The scheduler obtains a lease on every plate a point or task needs. -/
  | leaseGrant (x : Nat) (w : LeaseRequest)
  /-- R331. A destination receives a control packet asking room for a message and reserves it. -/
  | roomRequest (k : CoreId)
  /-- R331. The grant arrives and the waiting message is injected. -/
  | roomGrant (k : CoreId) (dst : CoreId) (ch : Nat)
  /-- R331. All flits of a message have arrived and its words join the queue in one step. -/
  | messageArrival (k : CoreId)
  /-- R324. A flit arrives at the next ring stop. -/
  | flitHop (l : RingLink)
  /-- R328. A stop starts the next packet on a free output once its reservation is made. -/
  | packetArbitration (l : RingLink)
  /-- R326. A buffer slot returns to the sending stop's free-slot count after 2 plus theta N-cycles. -/
  | slotReturn (l : RingLink) (escape : Bool)
  /-- R335. A port receives a numbered frame and acknowledges it. -/
  | scaleOutFrameReceive (die : Nat) (f : Frame)
  /-- R335. An acknowledgement for a sent frame arrives. -/
  | scaleOutFrameAck (die peer num : Nat)
  /-- R335. An unacknowledged frame is sent again, or halts after the sixteenth sending. -/
  | scaleOutRetransmit (die peer num : Nat)
  /-- R178. A beat becomes available at the head of a link FIFO. -/
  | beatArrival (k : CoreId) (site inp : Nat)
  /-- R245. A KILL word reaches the producer of the named number. -/
  | killReceive (k : CoreId) (site inp : Nat)
  /-- R192. Online carry-free addition step of a lane. -/
  | nodeAdd (k : CoreId) (site lane : Nat)
  /-- R192. Online subtraction step of a lane. -/
  | nodeSub (k : CoreId) (site lane : Nat)
  /-- R193. Online multiplication step of a lane. -/
  | nodeMul (k : CoreId) (site lane : Nat)
  /-- R193. Online multiply-add step of a lane. -/
  | nodeMad (k : CoreId) (site lane : Nat)
  /-- R193. Online division step with divisor normalisation. -/
  | nodeDiv (k : CoreId) (site lane : Nat)
  /-- R193. Online square-root step. -/
  | nodeSqrt (k : CoreId) (site lane : Nat)
  /-- R197. Negates each digit of a number. -/
  | nodeNeg (k : CoreId) (site lane : Nat)
  /-- R197. Passes the absolute value of a number. -/
  | nodeAbs (k : CoreId) (site lane : Nat)
  /-- R197. Passes a number with its exponent shifted by k. -/
  | nodeShf (k : CoreId) (site lane : Nat)
  /-- R193. Online minimum step. -/
  | nodeMin (k : CoreId) (site lane : Nat)
  /-- R193. Online maximum step. -/
  | nodeMax (k : CoreId) (site lane : Nat)
  /-- R196. Online power-of-two step. -/
  | nodeExp2 (k : CoreId) (site lane : Nat)
  /-- R193. Online base-2 logarithm step. -/
  | nodeLog2 (k : CoreId) (site lane : Nat)
  /-- R193. Online reciprocal square-root step. -/
  | nodeRsqrt (k : CoreId) (site lane : Nat)
  /-- R199. Merges items of two inputs onto main. -/
  | nodeMerge (k : CoreId) (site lane : Nat)
  /-- R200. Sends each item to main or aux. -/
  | nodeSplit (k : CoreId) (site lane : Nat)
  /-- R201. Copies each token to every branch. -/
  | nodeFork (k : CoreId) (site lane : Nat)
  /-- R202. Passes a round of items from two or three inputs in step. -/
  | nodeJoin (k : CoreId) (site lane : Nat)
  /-- R203. Sends PRED tokens from a pattern. -/
  | nodePsrc (k : CoreId) (site lane : Nat)
  /-- R204. Sends NULL tokens, then optionally EOR. -/
  | nodeNsrc (k : CoreId) (site lane : Nat)
  /-- R205. Sends each token k V-cycles after it arrives. -/
  | nodeDly (k : CoreId) (site lane : Nat)
  /-- R206. On a tick emits the index, last-flag and pass-end tokens and advances the count. -/
  | nodeCnt (k : CoreId) (site lane : Nat)
  /-- R208. Sequential controller issuing one permit per done. -/
  | nodeSeqc (k : CoreId) (site lane : Nat)
  /-- R208. Pipelined controller with up to W permits outstanding. -/
  | nodePipc (k : CoreId) (site lane : Nat)
  /-- R208. Streaming controller issuing permits without limit. -/
  | nodeStrc (k : CoreId) (site lane : Nat)
  /-- R240. Decides a comparison from leading digits and emits PRED, optionally killing operands. -/
  | nodeCmp (k : CoreId) (site lane : Nat)
  /-- R241. Rectifies a number, killing it once found negative. -/
  | nodeRect (k : CoreId) (site lane : Nat)
  /-- R242. Passes the larger or smaller operand and kills the other. -/
  | nodeMaxk (k : CoreId) (site lane : Nat)
  /-- R243. Passes a number meeting a threshold or sends a stand-in. -/
  | nodeThrk (k : CoreId) (site lane : Nat)
  /-- R244. Passes the item of in1 or in2 chosen by a PRED. -/
  | nodeSel (k : CoreId) (site lane : Nat)
  /-- R217. Converts a word into a digit-stream number. -/
  | nodeW2d (k : CoreId) (site lane : Nat)
  /-- R220. Rounds a digit stream into a word, handling overflow by mode. -/
  | nodeD2w (k : CoreId) (site lane : Nat)
  /-- R225. Dequantises an integer with its group's scale and zero point. -/
  | nodeDqg (k : CoreId) (site lane : Nat)
  /-- R227. Block-aligns a closed group of floating words and sends them. -/
  | nodeFalign (k : CoreId) (site lane : Nat)
  /-- R256. Feeds activation digits into a row of the array. -/
  | nodeFeed (k : CoreId) (site lane : Nat)
  /-- R259. Adds numbers into a sum and releases it every c EOKs. -/
  | nodeAcc (k : CoreId) (site lane : Nat)
  /-- R294. Applies a key-value update to the staged row. -/
  | nodeHacc (k : CoreId) (site lane : Nat)
  /-- R294. At a row token the staged row is emitted in key order, or reported overflowed. -/
  | haccRowCommit (k : CoreId) (site lane : Nat)
  /-- R230. Passes tokens and counts them for the skim network. -/
  | nodeSkc (k : CoreId) (site lane : Nat)
  /-- R231. Sums STATs and, at a root, writes a round to an output port. -/
  | nodeSka (k : CoreId) (site lane : Nat)
  /-- R229. A skim node sends its n-th STAT once its counts and the lines' STATs are present. -/
  | skimStatSend (k : CoreId) (site : Nat)
  /-- R160. Affine address generator produces element positions for its port. -/
  | nodeAgaf (k : CoreId) (site lane : Nat)
  /-- R160. Indexed address generator produces positions from index words. -/
  | nodeAgin (k : CoreId) (site lane : Nat)
  /-- R263. A row tag's digits begin entering the array once its record and result slot are ready. -/
  | rowTagEntry (k : CoreId)
  /-- R264. A row tag is compared and its words written to C or released to the tap. -/
  | rowTagCompletion (k : CoreId)
  /-- R353. Once a core's records are written, it writes its report to its mailbox slot. -/
  | mailboxReport (k : CoreId)
  /-- R110. A die stops answering on the halt network and the halt rises with 0x58. -/
  | dieFailure (die : Nat)
  /-- R348. Firmware requests a halt with reason 0x61. -/
  | firmwareHaltRequest (part : Nat)
  /-- R356. Firmware lowers the halt and units continue, replaying eligible origin firings. -/
  | resume (x : Nat)
  /-- R365. The context returns to its last committed datum. -/
  | rollback (x : Nat)
  /-- R359. Firmware saves a halted context with its stop area and live versions. -/
  | haltSave (x : Nat)
  /-- R355. Firmware destroys the context and hands the stop area to the driver. -/
  | contextEnd (x : Nat)
  /-- R362. A datum pulse crosses the partition and ends running phases at the cut. -/
  | datumCut (x : Nat)
  /-- R362. Once pre-cut commands complete, the datum commits and releases held output. -/
  | datumCommit (x : Nat)
  /-- R361. Held external output has waited the hold time and a datum is triggered. -/
  | datumHoldExpiry (x : Nat)
  /-- R354. Firmware sends a one-word management message on ch31. -/
  | managementMessage (k : CoreId) (w : Word)
  /-- R370. Firmware pre-empts a context and each live launch is killed, checkpointed or drained. -/
  | preemption (x newcomer : Nat)
  /-- R372. Once nothing is in flight, the context's state is saved. -/
  | switchSave (x : Nat)
  /-- R373. A saved context is reloaded onto its partition, optionally withdrawing checkpointed launches. -/
  | contextRestore (x : Nat) (withdraw : List Nat)
  /-- R391. Firmware creates a context, commits datum 0 and starts its first launch. -/
  | contextCreate (c : ContextParams)
  /-- R386. Firmware changes a partition's rectangle, guards and halt line. -/
  | partitionChange (part : Nat) (r : Rect)
  /-- R388. Firmware substitutes spare units between a save and a restore. -/
  | substitution (part : Nat) (u : SpareKind) (k : CoreId) (index : Nat)
  /-- R421. Firmware writes back and invalidates the partition's caches and slices. -/
  | clean (part : Nat)
  /-- R423. Firmware runs a launch over several passes, counting events and comparing write sets. -/
  | measuredReplayRequest (req : List Byte)
  /-- R389. Power-on or CXL reset returns registers to reset and ends every context. -/
  | powerOnReset
  /-- R390. The boot ROM verifies firmware images or enters recovery. -/
  | boot (imgs : List FirmwareImage)
  /-- R391. Firmware trains HBM and links, brings up rails and presents CXL. -/
  | bringUp (b : BringUp)
  /-- R392. Answers the SPDM GET_VERSION request. -/
  | getVersion
  /-- R392. Answers the SPDM GET_CAPABILITIES request. -/
  | getCapabilities
  /-- R392. Answers the SPDM NEGOTIATE_ALGORITHMS request. -/
  | negotiateAlgorithms (ed448 shake256 : Bool)
  /-- R392. Answers the SPDM GET_DIGESTS request. -/
  | getDigests
  /-- R392. Answers the SPDM GET_CERTIFICATE request. -/
  | getCertificate (offset len : Nat)
  /-- R392. Answers the SPDM CHALLENGE request with an Ed448 signature. -/
  | challenge (nonce : List Byte)
  /-- R392. Returns SHAKE256 measurements of images and fuse state. -/
  | getMeasurements (nonce : List Byte)
  /-- R392. Starts an SPDM session key exchange. -/
  | keyExchange (share : List Byte)
  /-- R392. Completes an SPDM session and programs IDE keys. -/
  | finish (proof : List Byte)
  /-- R392. Updates the keys of an SPDM session. -/
  | keyUpdate
  /-- R392. Ends an SPDM session. -/
  | endSession
  /-- R392. Any other SPDM request is answered with UnsupportedRequest. -/
  | unsupportedSpdmRequest (code : Byte)
  /-- R309. A host PCIe AtomicOp on device memory executes at the line's home slice. -/
  | hostAtomicop (r : AtomicOpReq)
  /-- R320. A host CXL.mem access to device memory is performed in aligned 8-byte pieces. -/
  | hostMemoryAccess (r : HostAccess)
  /-- R298. A CXL.cache snoop from the host is answered. -/
  | hostSnoop (line : Nat) (own : Bool)
  /-- R319. A host ATS invalidation completes once MMUs drop the translation and its accesses are performed. -/
  | atsInvalidation (x : Nat) (vpn size : Nat)
  /-- R123. The host answers a page request and waiting leases are re-examined. -/
  | priResponse (x : Nat) (p : PageGrant)
  /-- R397. At a multiple of 50 ticks after a change, the arbiter grants, refuses or picks the least-power set. -/
  | arbiterEvaluation (cl : Nat)
  /-- R401. Every 20 ticks the rail moves 5 mV or each domain moves 100 MHz toward the target. -/
  | transitionStep (cl : Nat)
  /-- R407. Rail current above the threshold starts delaying slot returns. -/
  | throttleStart (cl : Nat)
  /-- R407. 1,000 ticks after current falls below the threshold, throttling ends. -/
  | throttleEnd (cl : Nat)
  /-- R408. Every 1,000 ticks the running context's quota classes are charged. -/
  | quotaCharge (cl : Nat)
  /-- R412. At multiples of the sample interval each counter's increase is latched. -/
  | eventSample (cl : Nat)
  /-- R30. A junction reaching 95 C lowers the cap by 200 W each second until below 92 C. -/
  | junction95 (celsius : List Nat)
  /-- R30. A junction at 105 C or low flow raises every halt line and asserts THERM_OFF. -/
  | thermalStop (celsius : List Nat) (flow : Nat)
  deriving DecidableEq, Repr

end Sys2Proof
end

