-- ==== Sys2Proof/WellFormed.lean ====
section
/-!
DEFINITION. Which instructions have an encoding (02 R34, R37, R41, R42): the checks on operands that the types of
Syntax.lean do not make. Events have no encoding and no check.
-/
namespace Sys2Proof

/-- The numbers of the system register map (13 R377, 14 R405). -/
def sysnoNamed (n : Nat) : Bool :=
  n ≤ 3 || (0x008 ≤ n && n ≤ 0x00A) || (0x020 ≤ n && n ≤ 0x025) || (0x040 ≤ n && n ≤ 0x048) ||
    (0x04C ≤ n && n ≤ 0x05F) || (0x100 ≤ n && n ≤ 0x13F)

/-- Bit n of a command's flags (02 R39). -/
def Cmd.flag (c : Cmd) (n : Nat) : Bool := c.cflags.getLsbD n

/-- The op of a collective stands in operand bits [63:61] (12 R339). -/
def Cmd.icollOp (c : Cmd) : Nat := c.operand.toNat / 2 ^ 61

/-- The operands that an instruction may hold so that a word of the spec's encoding stands for it. -/
def Instr.wf : Instr → Bool
  | .brt p _ => p ≠ 0
  | .brn p _ => p ≠ 0
  | .callt p _ => p ≠ 0
  | .calln p _ => p ≠ 0
  | .loop _ l => l ≠ 0
  | .ldb _ _ x _ => x ≠ 3
  | .ldbFe _ _ x _ => x ≠ 3
  | .ldbPk _ _ x _ => x ≠ 3
  | .ldbNb _ _ x _ => x ≠ 3
  | .stb _ _ x _ => x = 1 || x = 2
  | .stbFe _ _ x _ => x = 1 || x = 2
  | .bpf _ x _ => x ≠ 3
  | .ldbx _ _ _ x => x ≠ 3
  | .ldbxFe _ _ _ x => x ≠ 3
  | .ldbxPk _ _ _ x => x ≠ 3
  | .ldbxNb _ _ _ x => x ≠ 3
  | .stbx _ _ _ x => x = 1 || x = 2
  | .stbxFe _ _ _ x => x = 1 || x = 2
  | .ldx _ _ _ _ z => z ≠ 7
  | .fibGet _ _ b => b.val ≤ 2
  | .jsxGet _ _ b => b.val ≤ 1
  | .wait _ a n => a ≠ 0 && a.val + n.toNat ≤ 31
  | .waitLimited _ a _ n => a ≠ 0 && a.val + n.toNat ≤ 31
  | .qins _ _ l w => l.toNat + (w.toNat + 1) ≤ 128
  | .advC _ n => n ≠ 0
  | .advP _ n => n ≠ 0
  | .hwaitC _ n => n ≠ 0
  | .hwaitP _ n => n ≠ 0
  | .mfsy _ s => sysnoNamed s.toNat
  | .mtsy _ s => sysnoNamed s.toNat
  | .hset c => !c.flag 0
  | .hsetR c => c.flag 0
  | .lsync c => !c.flag 0
  | .lsyncD c => c.flag 0
  | .icollBcast c => c.icollOp = 0
  | .icollReduce c => c.icollOp = 1
  | .icollAllred c => c.icollOp = 2
  | .icollGather c => c.icollOp = 3
  | _ => true

end Sys2Proof
end

