-- ==== Sys2Proof/Decode.lean ====
section
/-!
DEFINITION. Words and instructions: the decoder of scalar words (02 R32 to R38 and the tables of the owning chapters), of
stream commands (02 R39, R42) and of node words (02 R43), and after it the encoder written from the same tables.
The fields are read by division and remainder of the word as a number; bit 0 is the least significant (00 R6).
-/
namespace Sys2Proof

/-! ## Field readers (02 R32) -/

/-- A field that names one of n registers. -/
def fieldReg (n : Nat) [NeZero n] (w lo : Nat) : Fin n := Fin.ofNat n (w / 2 ^ lo)

/-- A field of n bits read as bits. -/
def fieldBits (n w lo : Nat) : BitVec n := BitVec.ofNat n (w / 2 ^ lo)

/-- Field d of formats A, I and S. -/
def rd (w : Nat) : Fin 32 := fieldReg 32 w 21
/-- Field a of formats A, I and S. -/
def ra (w : Nat) : Fin 32 := fieldReg 32 w 16
/-- Field b of format A. -/
def rb (w : Nat) : Fin 32 := fieldReg 32 w 11
/-- Field imm16 of format I. -/
def imm16 (w : Nat) : BitVec 16 := fieldBits 16 w 0
/-- Field fn of format A as a number. -/
def fnOf (w : Nat) : Nat := w % 2 ^ 11
/-- Field d as a number. -/
def dNum (w : Nat) : Nat := w / 2 ^ 21 % 32
/-- Field a as a number. -/
def aNum (w : Nat) : Nat := w / 2 ^ 16 % 32
/-- Field b as a number. -/
def bNum (w : Nat) : Nat := w / 2 ^ 11 % 32

/-- An instruction whose required-zero fields are zero, else none (02 R33, R34). -/
def need (c : Bool) (i : Instr) : Option Instr := if c then some i else none

/-- A decoded instruction if its operands are ones the spec allows (02 R34, R37). -/
def checked (i : Instr) : Option Instr := need i.wf i

/-! ## Scalar words -/

/-- Major opcode 0x01 (03 R73). -/
def decodeAlu (w : Nat) : Option Instr :=
  let d := rd w; let a := ra w; let b := rb w
  let z (i : Instr) := need (bNum w = 0) i
  match fnOf w with
  | 0x000 => some (.add d a b)
  | 0x001 => some (.sub d a b)
  | 0x002 => some (.and d a b)
  | 0x003 => some (.or d a b)
  | 0x004 => some (.xor d a b)
  | 0x005 => some (.andn d a b)
  | 0x006 => some (.shl d a b)
  | 0x007 => some (.shr d a b)
  | 0x008 => some (.sra d a b)
  | 0x009 => some (.mul d a b)
  | 0x00A => some (.mulh d a b)
  | 0x00B => some (.mulhu d a b)
  | 0x00C => some (.div d a b)
  | 0x00D => some (.divu d a b)
  | 0x00E => some (.rem d a b)
  | 0x00F => some (.remu d a b)
  | 0x010 => some (.min d a b)
  | 0x011 => some (.max d a b)
  | 0x012 => some (.minu d a b)
  | 0x013 => some (.maxu d a b)
  | 0x014 => some (.adds d a b)
  | 0x015 => some (.subs d a b)
  | 0x016 => z (.clz d a)
  | 0x017 => z (.ctz d a)
  | 0x018 => z (.popc d a)
  | 0x019 => z (.sxtB d a)
  | 0x01A => z (.sxtH d a)
  | 0x01B => z (.sxtW d a)
  | 0x01C => z (.zxtB d a)
  | 0x01D => z (.zxtH d a)
  | 0x01E => z (.zxtW d a)
  | _ => none

/-- Major opcode 0x06 (02 R37, 03 R75). -/
def decodeShi (w : Nat) : Option Instr :=
  let n := fieldBits 6 w 0
  match w % 2 ^ 16 / 2 ^ 6 with
  | 0 => some (.shlImmediate (rd w) (ra w) n)
  | 1 => some (.shrImmediate (rd w) (ra w) n)
  | 2 => some (.sraImmediate (rd w) (ra w) n)
  | _ => none

/-- Major opcode 0x08 (03 R76). -/
def decodeAddr (w : Nat) : Option Instr :=
  let d := rd w; let a := ra w; let b := rb w
  match fnOf w / 2 ^ 8 with
  | 0 => need (fnOf w < 8) (.lea d a b (fieldBits 3 w 0))
  | 1 => need (fnOf w = 0x100) (.lin d a b)
  | 2 => need (fnOf w < 0x204) (.pk d a b (fieldBits 2 w 0))
  | 3 => need (fnOf w < 0x304 && bNum w = 0) (.xk d a (fieldBits 2 w 0))
  | _ => none

/-- Major opcode 0x09 (03 R77). -/
def decodeCmp (w : Nat) : Option Instr :=
  let p := fieldReg 8 w 21; let a := ra w; let b := rb w
  let z (i : Instr) := need (dNum w < 8) i
  match fnOf w with
  | 0 => z (.cmpEq p a b)
  | 1 => z (.cmpNe p a b)
  | 2 => z (.cmpLt p a b)
  | 3 => z (.cmpGe p a b)
  | 4 => z (.cmpLtu p a b)
  | 5 => z (.cmpGeu p a b)
  | _ => none

/-- Major opcode 0x0A (02 R37, 03 R77). -/
def decodeCmpi (w : Nat) : Option Instr :=
  let p := fieldReg 8 w 13; let a := ra w; let i := fieldBits 13 w 0
  match dNum w with
  | 0 => some (.cmpiEq a p i)
  | 4 => some (.cmpiNe a p i)
  | 8 => some (.cmpiLt a p i)
  | 12 => some (.cmpiGe a p i)
  | 16 => some (.cmpiLtu a p i)
  | 20 => some (.cmpiGeu a p i)
  | _ => none

/-- Major opcode 0x0B (03 R78). -/
def decodeSel (w : Nat) : Option Instr :=
  let k := fieldReg 8 w 0
  match fnOf w / 2 ^ 3 with
  | 0 => some (.selN (rd w) (ra w) (rb w) k)
  | 1 => some (.sel (rd w) (ra w) (rb w) k)
  | _ => none

/-- Major opcode 0x0C (03 R79). -/
def decodePl (w : Nat) : Option Instr :=
  let d := fieldReg 8 w 21; let a := fieldReg 8 w 16; let b := fieldReg 8 w 11
  let z (i : Instr) := need (dNum w < 8 && aNum w < 8 && bNum w < 8) i
  match fnOf w with
  | 0 => z (.pand d a b)
  | 1 => z (.por d a b)
  | 2 => z (.pxor d a b)
  | 3 => z (.pandn d a b)
  | 4 => z (.porn d a b)
  | 6 => need (aNum w = 0 && bNum w = 0) (.ptog (rd w))
  | 7 => need (dNum w = 0 && bNum w = 0) (.gtop (ra w))
  | _ => none

/-- Major opcode 0x10 (02 R34, R38, 03 R80). -/
def decodeBr (w : Nat) : Option Instr :=
  let p := fieldReg 8 w 23; let o := fieldBits 22 w 0
  if w / 2 ^ 22 % 2 = 1 then some (if p = 0 then .br o else .brt p o)
  else need (p ≠ 0) (.brn p o)

/-- Major opcode 0x11 (02 R34, R38, 03 R80). -/
def decodeCall (w : Nat) : Option Instr :=
  let p := fieldReg 8 w 23; let o := fieldBits 22 w 0
  if w / 2 ^ 22 % 2 = 1 then some (if p = 0 then .call o else .callt p o)
  else need (p ≠ 0) (.calln p o)

/-- Major opcode 0x12 (03 R81). -/
def decodeJr (w : Nat) : Option Instr :=
  match fnOf w with
  | 0 => need (dNum w = 0 && bNum w = 0) (.jr (ra w))
  | 1 => need (bNum w = 0) (.jrl (rd w) (ra w))
  | _ => none

/-- Major opcode 0x14 (03 R83). -/
def decodeCtl (w : Nat) : Option Instr :=
  match w % 2 ^ 26 with
  | 0 => some .done
  | 1 => some .yield
  | 2 => some .isync
  | _ => none

/-- Major opcode 0x28 (02 R37, 03 R88). -/
def decodeLdb (w : Nat) : Option Instr :=
  let d := rd w; let a := ra w; let x := fieldBits 2 w 14; let o := fieldBits 12 w 0
  match w / 2 ^ 12 % 4 with
  | 0 => checked (.ldb d a x o)
  | 1 => checked (.ldbFe d a x o)
  | 2 => checked (.ldbPk d a x o)
  | _ => checked (.ldbNb d a x o)

/-- Major opcode 0x29 (02 R37, 03 R88). -/
def decodeStb (w : Nat) : Option Instr :=
  let d := rd w; let a := ra w; let x := fieldBits 2 w 14; let o := fieldBits 12 w 0
  match w / 2 ^ 12 % 4 with
  | 0 => checked (.stb d a x o)
  | 1 => checked (.stbFe d a x o)
  | _ => none

/-- Major opcode 0x2B (03 R87, R88). -/
def decodeLdbx (w : Nat) : Option Instr :=
  let d := rd w; let a := ra w; let b := rb w; let x := fieldBits 2 w 0
  match fnOf w / 4 with
  | 0 => checked (.ldbx d a b x)
  | 1 => checked (.ldbxFe d a b x)
  | 2 => checked (.ldbxPk d a b x)
  | 3 => checked (.ldbxNb d a b x)
  | _ => none

/-- Major opcode 0x2C (03 R87, R88). -/
def decodeStbx (w : Nat) : Option Instr :=
  let d := rd w; let a := ra w; let b := rb w; let x := fieldBits 2 w 0
  match fnOf w / 4 with
  | 0 => checked (.stbx d a b x)
  | 1 => checked (.stbxFe d a b x)
  | _ => none

/-- Major opcode 0x2D (10 R283). -/
def decodeFib (w : Nat) : Option Instr :=
  let fd := fieldReg 16 w 21; let fa := fieldReg 16 w 16
  match fnOf w with
  | 0 => need (dNum w < 16) (.fibOpen fd (ra w) (rb w))
  | 1 => need (dNum w < 16) (.fibSet fd (ra w) (rb w))
  | 2 => need (dNum w < 16 && aNum w = 0 && bNum w = 0) (.fibAdv fd)
  | 3 => need (dNum w < 16 && bNum w = 0) (.fibSeek fd (ra w))
  | 4 => need (dNum w < 8 && aNum w < 16 && bNum w = 0) (.fibEnd (fieldReg 8 w 21) fa)
  | 5 => if aNum w < 16 then checked (.fibGet (rd w) fa (rb w)) else none
  | 6 => need (dNum w < 16 && aNum w = 0 && bNum w = 0) (.fibClose fd)
  | _ => none

/-- Major opcode 0x2E (10 R285). -/
def decodeJsx (w : Nat) : Option Instr :=
  match fnOf w with
  | 0 => need (dNum w < 8) (.jsxSet (fieldReg 8 w 21) (ra w) (rb w))
  | 1 => if aNum w < 8 then checked (.jsxGet (rd w) (fieldReg 8 w 16) (rb w)) else none
  | _ => none

/-- The size bit of an atomic: false 4 bytes, true 8 bytes (11 R307). -/
def sizeBit (w lo : Nat) : Bool := w / 2 ^ lo % 2 = 1

/-- Major opcode 0x30 (11 R307). -/
def decodeAmo (w : Nat) : Option Instr :=
  let d := rd w; let a := ra w; let b := rb w; let s := sizeBit w 4
  if fnOf w / 32 ≠ 0 then none else
  match fnOf w % 16 with
  | 0 => some (.amoAdd d a b s)
  | 1 => some (.amoAnd d a b s)
  | 2 => some (.amoOr d a b s)
  | 3 => some (.amoXor d a b s)
  | 4 => some (.amoMin d a b s)
  | 5 => some (.amoMax d a b s)
  | 6 => some (.amoMinu d a b s)
  | 7 => some (.amoMaxu d a b s)
  | 8 => some (.amoSwap d a b s)
  | 9 => need (!s) (.amoFadd d a b)
  | _ => none

/-- Major opcode 0x31 (11 R307). -/
def decodeAmon (w : Nat) : Option Instr :=
  let a := ra w; let b := rb w; let s := sizeBit w 4
  if fnOf w / 32 ≠ 0 || dNum w ≠ 0 then none else
  match fnOf w % 16 with
  | 0 => some (.amonAdd a b s)
  | 1 => some (.amonAnd a b s)
  | 2 => some (.amonOr a b s)
  | 3 => some (.amonXor a b s)
  | 4 => some (.amonMin a b s)
  | 5 => some (.amonMax a b s)
  | 6 => some (.amonMinu a b s)
  | 7 => some (.amonMaxu a b s)
  | 8 => some (.amonSwap a b s)
  | 9 => need (!s) (.amonFadd a b)
  | _ => none

/-- Major opcode 0x33 (11 R306). -/
def decodeSync (w : Nat) : Option Instr :=
  match w % 2 ^ 26 with
  | 0 => some .phase
  | 1 => some .fence
  | 2 => some .fenceC
  | 3 => some .fenceX
  | _ => none

/-- Major opcode 0x34 (11 R313). -/
def decodeWait (w : Nat) : Option Instr :=
  let n := fieldBits 2 w 0
  match fnOf w / 4 with
  | 0 => if bNum w = 0 then checked (.wait (rd w) (ra w) n) else none
  | 1 => checked (.waitLimited (rd w) (ra w) (rb w) n)
  | _ => none

/-- Major opcode 0x35 (11 R316). -/
def decodePail (w : Nat) : Option Instr :=
  let i := fieldBits 8 w 3
  if bNum w ≠ 0 then none else
  match fnOf w % 8 with
  | 0 => need (dNum w = 0) (.pailArm (ra w) i)
  | 1 => some (.pailWait (rd w) (ra w) i)
  | 2 => need (aNum w = 0) (.pailRd (rd w) i)
  | _ => none

/-- Major opcode 0x36 (04 R126). -/
def decodeMsg (w : Nat) : Option Instr :=
  match fnOf w with
  | 0 => some (.send (rd w) (ra w) (rb w))
  | 1 => need (bNum w = 0) (.recv (rd w) (ra w))
  | 2 => need (aNum w = 0 && bNum w = 0) (.pointSeq (rd w))
  | 3 => need (bNum w = 0) (.pointHt (rd w) (ra w))
  | 4 => need (bNum w = 0) (.spawn (rd w) (ra w))
  | 5 => need (dNum w = 0 && bNum w = 0) (.mask (ra w))
  | 6 => need (dNum w = 0 && bNum w = 0) (.unmask (ra w))
  | _ => none

/-- Major opcode 0x3D (02 R37, 03 R95). -/
def decodeHnd (w : Nat) : Option Instr :=
  let h := fieldReg 64 w 16; let n := fieldBits 8 w 0
  if w / 2 ^ 22 % 16 ≠ 0 then none else
  match w % 2 ^ 16 / 2 ^ 8 with
  | 0x00 => checked (.advC h n)
  | 0x40 => checked (.advP h n)
  | 0x80 => checked (.hwaitC h n)
  | 0xC0 => checked (.hwaitP h n)
  | _ => none

/-- Major opcode 0x3E (02 R37, 13 R382, 14 R415). -/
def decodeSys (w : Nat) : Option Instr :=
  let s := fieldBits 12 w 4
  match w % 16 with
  | 0 => if aNum w = 0 then checked (.mfsy (rd w) s) else none
  | 1 => if dNum w = 0 then checked (.mtsy (ra w) s) else none
  | 2 => need (dNum w = 0 && aNum w = 0) (.trap s)
  | 3 => need (w % 2 ^ 26 = 3) .ebrk
  | 4 => need (w % 2 ^ 26 = 4) .idle
  | 5 =>
    match w % 2 ^ 26 / 16 with
    | 0 => some .hintCompute
    | 1 => some .hintMemory
    | 2 => some .hintWait
    | _ => none
  | _ => none

/-- A scalar word, by its major opcode (02 R36). Every word that R34 makes illegal gives none. -/
def decodeScalar (w : Nat) : Option Instr :=
  let d := rd w; let a := ra w; let b := rb w; let i := imm16 w
  let q := fieldReg 16 w 22
  match w / 2 ^ 26 with
  | 0x01 => decodeAlu w
  | 0x02 => some (.addi d a i)
  | 0x03 => some (.andi d a i)
  | 0x04 => some (.ori d a i)
  | 0x05 => some (.xori d a i)
  | 0x06 => decodeShi w
  | 0x07 => need (aNum w = 0) (.lhi d i)
  | 0x08 => decodeAddr w
  | 0x09 => decodeCmp w
  | 0x0A => decodeCmpi w
  | 0x0B => decodeSel w
  | 0x0C => decodePl w
  | 0x10 => decodeBr w
  | 0x11 => decodeCall w
  | 0x12 => decodeJr w
  | 0x13 => if dNum w = 0 then checked (.loop a i) else none
  | 0x14 => decodeCtl w
  | 0x18 => some (.ldB d a i)
  | 0x19 => some (.ldBz d a i)
  | 0x1A => some (.ldH d a i)
  | 0x1B => some (.ldHz d a i)
  | 0x1C => some (.ldW d a i)
  | 0x1D => some (.ldWz d a i)
  | 0x1E => some (.ldD d a i)
  | 0x1F => if fnOf w < 64 then checked (.ldx d a b (fieldBits 3 w 3) (fieldBits 3 w 0)) else none
  | 0x20 => some (.stB d a i)
  | 0x21 => some (.stH d a i)
  | 0x22 => some (.stW d a i)
  | 0x23 => some (.stD d a i)
  | 0x24 => need (fnOf w < 32) (.stx d a b (fieldBits 3 w 2) (fieldBits 2 w 0))
  | 0x25 => need (dNum w = 0) (.pref a i)
  | 0x28 => decodeLdb w
  | 0x29 => decodeStb w
  | 0x2A => if dNum w = 0 && w / 2 ^ 12 % 4 = 0 then checked (.bpf a (fieldBits 2 w 14) (fieldBits 12 w 0)) else none
  | 0x2B => decodeLdbx w
  | 0x2C => decodeStbx w
  | 0x2D => decodeFib w
  | 0x2E => decodeJsx w
  | 0x30 => decodeAmo w
  | 0x31 => decodeAmon w
  | 0x32 => need (fnOf w < 2) (.cas d a b (sizeBit w 0))
  | 0x33 => decodeSync w
  | 0x34 => decodeWait w
  | 0x35 => decodePail w
  | 0x36 => decodeMsg w
  | 0x38 => need (w % 2 ^ 22 = 0) (.cmd q)
  | 0x39 => need (w % 2 ^ 22 = 0) (.cmdw q)
  | 0x3A => need (w / 2 ^ 21 % 2 = 0) (.qld q a i)
  | 0x3B => need (w / 2 ^ 21 % 2 = 0) (.qst q a i)
  | 0x3C =>
    if w / 2 ^ 21 % 2 = 0 && w % 8 = 0 then checked (.qins q a (fieldBits 7 w 9) (fieldBits 6 w 3)) else none
  | 0x3D => decodeHnd w
  | 0x3E => decodeSys w
  | _ => none

/-! ## Stream commands (02 R39, R42) -/

/-- The fields of a 128-bit command. -/
def cmdFields (w : Nat) : Cmd where
  p := w / 2 ^ 121 % 2 = 1
  e := w / 2 ^ 120 % 2 = 1
  cflags := fieldBits 8 w 112
  waitA := fieldBits 8 w 104
  waitB := fieldBits 8 w 96
  hA := fieldBits 6 w 90
  hB := fieldBits 6 w 84
  portA := fieldBits 6 w 78
  portB := fieldBits 6 w 72
  pail := fieldBits 8 w 64
  operand := fieldBits 64 w 0

/-- A stream command by its opcode. None: the opcode is reserved (02 R42), or a collective's op field is (12 R339). -/
def decodeCommand (w : Nat) : Option Instr :=
  let c := cmdFields w
  match w / 2 ^ 122 with
  | 0x01 => some (.ldAff c)
  | 0x02 => some (.ldTile c)
  | 0x03 => some (.stAff c)
  | 0x04 => some (.stTile c)
  | 0x05 => some (.tfetch c)
  | 0x06 => some (.streamSubs c)
  | 0x07 => some (.pull c)
  | 0x08 => some (.gath c)
  | 0x09 => some (.scat c)
  | 0x0A => some (.copy c)
  | 0x0B => some (.fill c)
  | 0x10 => some (.cfgLd c)
  | 0x11 => some (.cfgSw c)
  | 0x12 => some (.bound c)
  | 0x13 => some (.kick c)
  | 0x14 => some (.barr c)
  | 0x15 => some (.bank c)
  | 0x18 => some (.wld c)
  | 0x19 => some (.mrun c)
  | 0x1A => some (.trun c)
  | 0x1B => some (.szld c)
  | 0x1C => some (.spill c)
  | 0x1D => some (.rest c)
  | 0x20 => some (.fopen c)
  | 0x21 => some (.fclose c)
  | 0x22 => some (.isect c)
  | 0x23 => some (.eqpart c)
  | 0x24 => some (if c.flag 0 then .hsetR c else .hset c)
  | 0x28 => some (.rsend c)
  | 0x29 =>
    match c.icollOp with
    | 0 => some (.icollBcast c)
    | 1 => some (.icollReduce c)
    | 2 => some (.icollAllred c)
    | 3 => some (.icollGather c)
    | _ => none
  | 0x30 => some (.lease c)
  | 0x31 => some (.relatch c)
  | 0x32 => some (.streamPref c)
  | 0x38 => some (.lnch c)
  | 0x39 => some (if c.flag 0 then .lsyncD c else .lsync c)
  | _ => none

/-! ## Node words (02 R43) -/

/-- The fields of a node word. -/
structure NodeWord where
  op : BitVec 8
  pin : BitVec 2
  sense : Bool
  lanes : BitVec 4
  var : Bool
  in0 : BitVec 4
  in1 : BitVec 4
  in2 : BitVec 4
  omain : BitVec 4
  owhey : BitVec 4
  oaux : BitVec 4
  param : BitVec 24
  deriving DecidableEq, Repr, Inhabited

/-- The node word that 64 bits hold; every word has fields, and configuration load checks them (02 R49). -/
def decodeNode (w : Nat) : NodeWord where
  op := fieldBits 8 w 56
  pin := fieldBits 2 w 54
  sense := w / 2 ^ 53 % 2 = 1
  lanes := fieldBits 4 w 49
  var := w / 2 ^ 48 % 2 = 1
  in0 := fieldBits 4 w 44
  in1 := fieldBits 4 w 40
  in2 := fieldBits 4 w 36
  omain := fieldBits 4 w 32
  owhey := fieldBits 4 w 28
  oaux := fieldBits 4 w 24
  param := fieldBits 24 w 0

/-- The 64 bits of a node word. -/
def encodeNode (n : NodeWord) : Nat :=
  n.op.toNat * 2 ^ 56 + n.pin.toNat * 2 ^ 54 + n.sense.toNat * 2 ^ 53 + n.lanes.toNat * 2 ^ 49 + n.var.toNat * 2 ^ 48 +
    n.in0.toNat * 2 ^ 44 + n.in1.toNat * 2 ^ 40 + n.in2.toNat * 2 ^ 36 + n.omain.toNat * 2 ^ 32 +
    n.owhey.toNat * 2 ^ 28 + n.oaux.toNat * 2 ^ 24 + n.param.toNat

/-! ## The decoder over bytes -/

/-- Why bytes do not decode: too few of them, or a word that R34 makes illegal, or a command opcode that R42 reserves. -/
inductive Reject where
  | tooShort
  | illegalWord (w : Nat)
  | reservedCommand (w : Nat)
  deriving DecidableEq, Repr

/-- The number that little-endian bytes hold (00 R6). -/
def leNat : List Byte → Nat
  | [] => 0
  | b :: bs => b.toNat + 256 * leNat bs

/-- The n little-endian bytes of a number (00 R6). -/
def leBytes : Nat → Nat → List Byte
  | 0, _ => []
  | n + 1, v => BitVec.ofNat 8 v :: leBytes n (v / 256)

/-- One scalar word from bytes, and the bytes after it (02 R32). -/
def decode : List Byte → Except Reject (Instr × List Byte)
  | b0 :: b1 :: b2 :: b3 :: rest =>
    let w := leNat [b0, b1, b2, b3]
    match decodeScalar w with
    | some i => .ok (i, rest)
    | none => .error (.illegalWord w)
  | _ => .error .tooShort

/-- One stream command from its sixteen bytes (02 R39). -/
def decodeCmdBytes (bs : List Byte) : Except Reject Instr :=
  if bs.length < 16 then .error .tooShort
  else match decodeCommand (leNat (bs.take 16)) with
    | some i => .ok i
    | none => .error (.reservedCommand (leNat (bs.take 16)))

/-- The instruction that the decoder reads from an instruction of nbits bits numbered as the opcode table numbers them:
32 bits are a scalar word, 128 a stream command; the bytes are laid out little-endian, the first word lowest (00 R6). -/
def decodeTableWord (nbits w : Nat) : Option Instr :=
  if nbits = 128 then (decodeCmdBytes (leBytes 16 w)).toOption
  else if nbits ≤ 32 then (decode (leBytes 4 w)).toOption.map Prod.fst
  else none

/-! ## The encoder -/

/-- The fields of a command at their places, with its opcode (02 R39). -/
def cmdWord (op : Nat) (c : Cmd) : Nat :=
  op * 2 ^ 122 + c.p.toNat * 2 ^ 121 + c.e.toNat * 2 ^ 120 + c.cflags.toNat * 2 ^ 112 + c.waitA.toNat * 2 ^ 104 +
    c.waitB.toNat * 2 ^ 96 + c.hA.toNat * 2 ^ 90 + c.hB.toNat * 2 ^ 84 + c.portA.toNat * 2 ^ 78 +
    c.portB.toNat * 2 ^ 72 + c.pail.toNat * 2 ^ 64 + c.operand.toNat

/-- A stream command's opcode and fields (02 R42); none for what is no stream command. -/
def Instr.asCmd : Instr → Option (Nat × Cmd)
  | .ldAff c => some (0x01, c)
  | .ldTile c => some (0x02, c)
  | .stAff c => some (0x03, c)
  | .stTile c => some (0x04, c)
  | .tfetch c => some (0x05, c)
  | .streamSubs c => some (0x06, c)
  | .pull c => some (0x07, c)
  | .gath c => some (0x08, c)
  | .scat c => some (0x09, c)
  | .copy c => some (0x0A, c)
  | .fill c => some (0x0B, c)
  | .cfgLd c => some (0x10, c)
  | .cfgSw c => some (0x11, c)
  | .bound c => some (0x12, c)
  | .kick c => some (0x13, c)
  | .barr c => some (0x14, c)
  | .bank c => some (0x15, c)
  | .wld c => some (0x18, c)
  | .mrun c => some (0x19, c)
  | .trun c => some (0x1A, c)
  | .szld c => some (0x1B, c)
  | .spill c => some (0x1C, c)
  | .rest c => some (0x1D, c)
  | .fopen c => some (0x20, c)
  | .fclose c => some (0x21, c)
  | .isect c => some (0x22, c)
  | .eqpart c => some (0x23, c)
  | .hset c => some (0x24, c)
  | .hsetR c => some (0x24, c)
  | .rsend c => some (0x28, c)
  | .icollBcast c => some (0x29, c)
  | .icollReduce c => some (0x29, c)
  | .icollAllred c => some (0x29, c)
  | .icollGather c => some (0x29, c)
  | .lease c => some (0x30, c)
  | .relatch c => some (0x31, c)
  | .streamPref c => some (0x32, c)
  | .lnch c => some (0x38, c)
  | .lsync c => some (0x39, c)
  | .lsyncD c => some (0x39, c)
  | _ => none

/-- The 128 bits of a stream command; none for what is no stream command. -/
def encodeCommand (i : Instr) : Option Nat := i.asCmd.map fun x => cmdWord x.1 x.2

/-- A word of format A, I or S: its fixed bits and its fields d, a, b and what stands below them (02 R32). -/
def packA (m d a b low : Nat) : Nat := m + 2097152 * d + 65536 * a + 2048 * b + low

/-- A word of format B: its fixed bits with the sense, pred and offset (02 R32). -/
def packB (m p o : Nat) : Nat := m + 8388608 * p + o

/-- A word of format Q: its fixed bits, q, the handle or register, and arg16 (02 R32). -/
def packQ (m q h low : Nat) : Nat := m + 4194304 * q + 65536 * h + low

/-- The word of a scalar instruction, from the encoding tables (02 R32 to R37); none for what is no scalar word. -/
def encodeScalar : Instr → Option Nat
  | .add d a b => some (packA 0x4000000 d.val a.val b.val 0)
  | .sub d a b => some (packA 0x4000001 d.val a.val b.val 0)
  | .and d a b => some (packA 0x4000002 d.val a.val b.val 0)
  | .or d a b => some (packA 0x4000003 d.val a.val b.val 0)
  | .xor d a b => some (packA 0x4000004 d.val a.val b.val 0)
  | .andn d a b => some (packA 0x4000005 d.val a.val b.val 0)
  | .shl d a b => some (packA 0x4000006 d.val a.val b.val 0)
  | .shr d a b => some (packA 0x4000007 d.val a.val b.val 0)
  | .sra d a b => some (packA 0x4000008 d.val a.val b.val 0)
  | .mul d a b => some (packA 0x4000009 d.val a.val b.val 0)
  | .mulh d a b => some (packA 0x400000a d.val a.val b.val 0)
  | .mulhu d a b => some (packA 0x400000b d.val a.val b.val 0)
  | .div d a b => some (packA 0x400000c d.val a.val b.val 0)
  | .divu d a b => some (packA 0x400000d d.val a.val b.val 0)
  | .rem d a b => some (packA 0x400000e d.val a.val b.val 0)
  | .remu d a b => some (packA 0x400000f d.val a.val b.val 0)
  | .min d a b => some (packA 0x4000010 d.val a.val b.val 0)
  | .max d a b => some (packA 0x4000011 d.val a.val b.val 0)
  | .minu d a b => some (packA 0x4000012 d.val a.val b.val 0)
  | .maxu d a b => some (packA 0x4000013 d.val a.val b.val 0)
  | .adds d a b => some (packA 0x4000014 d.val a.val b.val 0)
  | .subs d a b => some (packA 0x4000015 d.val a.val b.val 0)
  | .clz d a => some (packA 0x4000016 d.val a.val 0 0)
  | .ctz d a => some (packA 0x4000017 d.val a.val 0 0)
  | .popc d a => some (packA 0x4000018 d.val a.val 0 0)
  | .sxtB d a => some (packA 0x4000019 d.val a.val 0 0)
  | .sxtH d a => some (packA 0x400001a d.val a.val 0 0)
  | .sxtW d a => some (packA 0x400001b d.val a.val 0 0)
  | .zxtB d a => some (packA 0x400001c d.val a.val 0 0)
  | .zxtH d a => some (packA 0x400001d d.val a.val 0 0)
  | .zxtW d a => some (packA 0x400001e d.val a.val 0 0)
  | .addi d a i => some (packA 0x8000000 d.val a.val 0 i.toNat)
  | .andi d a i => some (packA 0xc000000 d.val a.val 0 i.toNat)
  | .ori d a i => some (packA 0x10000000 d.val a.val 0 i.toNat)
  | .xori d a i => some (packA 0x14000000 d.val a.val 0 i.toNat)
  | .shlImmediate d a n => some (packA 0x18000000 d.val a.val 0 n.toNat)
  | .shrImmediate d a n => some (packA 0x18000040 d.val a.val 0 n.toNat)
  | .sraImmediate d a n => some (packA 0x18000080 d.val a.val 0 n.toNat)
  | .lhi d i => some (packA 0x1c000000 d.val 0 0 i.toNat)
  | .lea d a b s => some (packA 0x20000000 d.val a.val b.val s.toNat)
  | .lin d a b => some (packA 0x20000100 d.val a.val b.val 0)
  | .pk d a b i => some (packA 0x20000200 d.val a.val b.val i.toNat)
  | .xk d a i => some (packA 0x20000300 d.val a.val 0 i.toNat)
  | .cmpEq p a b => some (packA 0x24000000 p.val a.val b.val 0)
  | .cmpNe p a b => some (packA 0x24000001 p.val a.val b.val 0)
  | .cmpLt p a b => some (packA 0x24000002 p.val a.val b.val 0)
  | .cmpGe p a b => some (packA 0x24000003 p.val a.val b.val 0)
  | .cmpLtu p a b => some (packA 0x24000004 p.val a.val b.val 0)
  | .cmpGeu p a b => some (packA 0x24000005 p.val a.val b.val 0)
  | .cmpiEq a p i => some (packA 0x28000000 0 a.val 0 (8192 * p.val + i.toNat))
  | .cmpiNe a p i => some (packA 0x28800000 0 a.val 0 (8192 * p.val + i.toNat))
  | .cmpiLt a p i => some (packA 0x29000000 0 a.val 0 (8192 * p.val + i.toNat))
  | .cmpiGe a p i => some (packA 0x29800000 0 a.val 0 (8192 * p.val + i.toNat))
  | .cmpiLtu a p i => some (packA 0x2a000000 0 a.val 0 (8192 * p.val + i.toNat))
  | .cmpiGeu a p i => some (packA 0x2a800000 0 a.val 0 (8192 * p.val + i.toNat))
  | .sel d a b k => some (packA 0x2c000008 d.val a.val b.val k.val)
  | .selN d a b k => some (packA 0x2c000000 d.val a.val b.val k.val)
  | .pand d a b => some (packA 0x30000000 d.val a.val b.val 0)
  | .por d a b => some (packA 0x30000001 d.val a.val b.val 0)
  | .pxor d a b => some (packA 0x30000002 d.val a.val b.val 0)
  | .pandn d a b => some (packA 0x30000003 d.val a.val b.val 0)
  | .porn d a b => some (packA 0x30000004 d.val a.val b.val 0)
  | .ptog d => some (packA 0x30000006 d.val 0 0 0)
  | .gtop a => some (packA 0x30000007 0 a.val 0 0)
  | .brt p o => some (packB 0x40400000 p.val o.toNat)
  | .brn p o => some (packB 0x40000000 p.val o.toNat)
  | .br o => some (packA 0x40400000 0 0 0 o.toNat)
  | .callt p o => some (packB 0x44400000 p.val o.toNat)
  | .calln p o => some (packB 0x44000000 p.val o.toNat)
  | .call o => some (packA 0x44400000 0 0 0 o.toNat)
  | .jr a => some (packA 0x48000000 0 a.val 0 0)
  | .jrl d a => some (packA 0x48000001 d.val a.val 0 0)
  | .loop a l => some (packA 0x4c000000 0 a.val 0 l.toNat)
  | .done => some (packA 0x50000000 0 0 0 0)
  | .yield => some (packA 0x50000001 0 0 0 0)
  | .isync => some (packA 0x50000002 0 0 0 0)
  | .ldB d a i => some (packA 0x60000000 d.val a.val 0 i.toNat)
  | .ldBz d a i => some (packA 0x64000000 d.val a.val 0 i.toNat)
  | .ldH d a i => some (packA 0x68000000 d.val a.val 0 i.toNat)
  | .ldHz d a i => some (packA 0x6c000000 d.val a.val 0 i.toNat)
  | .ldW d a i => some (packA 0x70000000 d.val a.val 0 i.toNat)
  | .ldWz d a i => some (packA 0x74000000 d.val a.val 0 i.toNat)
  | .ldD d a i => some (packA 0x78000000 d.val a.val 0 i.toNat)
  | .ldx d a b s z => some (packA 0x7c000000 d.val a.val b.val (8 * s.toNat + z.toNat))
  | .stB d a i => some (packA 0x80000000 d.val a.val 0 i.toNat)
  | .stH d a i => some (packA 0x84000000 d.val a.val 0 i.toNat)
  | .stW d a i => some (packA 0x88000000 d.val a.val 0 i.toNat)
  | .stD d a i => some (packA 0x8c000000 d.val a.val 0 i.toNat)
  | .stx d a b s z => some (packA 0x90000000 d.val a.val b.val (4 * s.toNat + z.toNat))
  | .pref a i => some (packA 0x94000000 0 a.val 0 i.toNat)
  | .ldb d a x o => some (packA 0xa0000000 d.val a.val 0 (16384 * x.toNat + o.toNat))
  | .ldbFe d a x o => some (packA 0xa0001000 d.val a.val 0 (16384 * x.toNat + o.toNat))
  | .ldbPk d a x o => some (packA 0xa0002000 d.val a.val 0 (16384 * x.toNat + o.toNat))
  | .ldbNb d a x o => some (packA 0xa0003000 d.val a.val 0 (16384 * x.toNat + o.toNat))
  | .stb d a x o => some (packA 0xa4000000 d.val a.val 0 (16384 * x.toNat + o.toNat))
  | .stbFe d a x o => some (packA 0xa4001000 d.val a.val 0 (16384 * x.toNat + o.toNat))
  | .bpf a x o => some (packA 0xa8000000 0 a.val 0 (16384 * x.toNat + o.toNat))
  | .ldbx d a b x => some (packA 0xac000000 d.val a.val b.val x.toNat)
  | .ldbxFe d a b x => some (packA 0xac000004 d.val a.val b.val x.toNat)
  | .ldbxPk d a b x => some (packA 0xac000008 d.val a.val b.val x.toNat)
  | .ldbxNb d a b x => some (packA 0xac00000c d.val a.val b.val x.toNat)
  | .stbx d a b x => some (packA 0xb0000000 d.val a.val b.val x.toNat)
  | .stbxFe d a b x => some (packA 0xb0000004 d.val a.val b.val x.toNat)
  | .fibOpen d a b => some (packA 0xb4000000 d.val a.val b.val 0)
  | .fibSet d a b => some (packA 0xb4000001 d.val a.val b.val 0)
  | .fibAdv d => some (packA 0xb4000002 d.val 0 0 0)
  | .fibSeek d a => some (packA 0xb4000003 d.val a.val 0 0)
  | .fibEnd d a => some (packA 0xb4000004 d.val a.val 0 0)
  | .fibGet d a b => some (packA 0xb4000005 d.val a.val b.val 0)
  | .fibClose d => some (packA 0xb4000006 d.val 0 0 0)
  | .jsxSet d a b => some (packA 0xb8000000 d.val a.val b.val 0)
  | .jsxGet d a b => some (packA 0xb8000001 d.val a.val b.val 0)
  | .amoAdd d a b s => some (packA 0xc0000000 d.val a.val b.val (16 * s.toNat))
  | .amoAnd d a b s => some (packA 0xc0000001 d.val a.val b.val (16 * s.toNat))
  | .amoOr d a b s => some (packA 0xc0000002 d.val a.val b.val (16 * s.toNat))
  | .amoXor d a b s => some (packA 0xc0000003 d.val a.val b.val (16 * s.toNat))
  | .amoMin d a b s => some (packA 0xc0000004 d.val a.val b.val (16 * s.toNat))
  | .amoMax d a b s => some (packA 0xc0000005 d.val a.val b.val (16 * s.toNat))
  | .amoMinu d a b s => some (packA 0xc0000006 d.val a.val b.val (16 * s.toNat))
  | .amoMaxu d a b s => some (packA 0xc0000007 d.val a.val b.val (16 * s.toNat))
  | .amoSwap d a b s => some (packA 0xc0000008 d.val a.val b.val (16 * s.toNat))
  | .amoFadd d a b => some (packA 0xc0000009 d.val a.val b.val 0)
  | .amonAdd a b s => some (packA 0xc4000000 0 a.val b.val (16 * s.toNat))
  | .amonAnd a b s => some (packA 0xc4000001 0 a.val b.val (16 * s.toNat))
  | .amonOr a b s => some (packA 0xc4000002 0 a.val b.val (16 * s.toNat))
  | .amonXor a b s => some (packA 0xc4000003 0 a.val b.val (16 * s.toNat))
  | .amonMin a b s => some (packA 0xc4000004 0 a.val b.val (16 * s.toNat))
  | .amonMax a b s => some (packA 0xc4000005 0 a.val b.val (16 * s.toNat))
  | .amonMinu a b s => some (packA 0xc4000006 0 a.val b.val (16 * s.toNat))
  | .amonMaxu a b s => some (packA 0xc4000007 0 a.val b.val (16 * s.toNat))
  | .amonSwap a b s => some (packA 0xc4000008 0 a.val b.val (16 * s.toNat))
  | .amonFadd a b => some (packA 0xc4000009 0 a.val b.val 0)
  | .cas d a b s => some (packA 0xc8000000 d.val a.val b.val s.toNat)
  | .phase => some (packA 0xcc000000 0 0 0 0)
  | .fence => some (packA 0xcc000001 0 0 0 0)
  | .fenceC => some (packA 0xcc000002 0 0 0 0)
  | .fenceX => some (packA 0xcc000003 0 0 0 0)
  | .wait d a n => some (packA 0xd0000000 d.val a.val 0 n.toNat)
  | .waitLimited d a b n => some (packA 0xd0000004 d.val a.val b.val n.toNat)
  | .pailArm a i => some (packA 0xd4000000 0 a.val 0 (8 * i.toNat))
  | .pailWait d a i => some (packA 0xd4000001 d.val a.val 0 (8 * i.toNat))
  | .pailRd d i => some (packA 0xd4000002 d.val 0 0 (8 * i.toNat))
  | .send c a b => some (packA 0xd8000000 c.val a.val b.val 0)
  | .recv d c => some (packA 0xd8000001 d.val c.val 0 0)
  | .pointSeq d => some (packA 0xd8000002 d.val 0 0 0)
  | .pointHt d a => some (packA 0xd8000003 d.val a.val 0 0)
  | .spawn d a => some (packA 0xd8000004 d.val a.val 0 0)
  | .mask a => some (packA 0xd8000005 0 a.val 0 0)
  | .unmask a => some (packA 0xd8000006 0 a.val 0 0)
  | .cmd q => some (packQ 0xe0000000 q.val 0 0)
  | .cmdw q => some (packQ 0xe4000000 q.val 0 0)
  | .qld q g o => some (packQ 0xe8000000 q.val g.val o.toNat)
  | .qst q g o => some (packQ 0xec000000 q.val g.val o.toNat)
  | .qins q g l w => some (packQ 0xf0000000 q.val g.val (512 * l.toNat + 8 * w.toNat))
  | .advC h n => some (packA 0xf4000000 0 h.val 0 n.toNat)
  | .advP h n => some (packA 0xf4004000 0 h.val 0 n.toNat)
  | .hwaitC h n => some (packA 0xf4008000 0 h.val 0 n.toNat)
  | .hwaitP h n => some (packA 0xf400c000 0 h.val 0 n.toNat)
  | .mfsy d s => some (packA 0xf8000000 d.val 0 0 (16 * s.toNat))
  | .mtsy a s => some (packA 0xf8000001 0 a.val 0 (16 * s.toNat))
  | .trap c => some (packA 0xf8000002 0 0 0 (16 * c.toNat))
  | .ebrk => some (packA 0xf8000003 0 0 0 0)
  | .idle => some (packA 0xf8000004 0 0 0 0)
  | .hintCompute => some (packA 0xf8000005 0 0 0 0)
  | .hintMemory => some (packA 0xf8000015 0 0 0 0)
  | .hintWait => some (packA 0xf8000025 0 0 0 0)
  | _ => none

/-- The bytes of an instruction as memory holds them (00 R6); none for an event, which has no encoding. -/
def encode (i : Instr) : Option (List Byte) :=
  match encodeScalar i with
  | some w => some (leBytes 4 w)
  | none => (encodeCommand i).map (leBytes 16)

end Sys2Proof
end

