-- ==== Sys2Proof/Machine/State.lean ====
section
/-!
DEFINITION. The state of one package, as plain data: every piece of state that INVENTORY.md lists, the reasons a step can
stop, and the state after reset (13 R389). Sparse tables are lists of pairs; a core, cluster or die that is not listed
is as reset leaves it.
-/
namespace Sys2Proof.Machine

/-! ## Memory -/

/-- Bytes by address in one canonical form: addresses strictly rising and no byte equal to what an unlisted address
reads as (Memory.unlisted). -/
abbrev Memory := List Host.Cell

/-- A physical location: in the package's stacks or in host memory (05 R142, 11 R298). -/
structure Loc where
  onHost : Bool
  addr : Nat
  deriving DecidableEq, Repr, Inhabited

/-- 64 bytes that stores have put into a line, each absent or present (03 R69). -/
structure Line where
  onHost : Bool
  /-- physical address divided by 64 -/
  num : Nat
  bytes : List (Nat × Byte)
  deriving DecidableEq, Repr, Inhabited

/-! ## Firing contexts (03 R61) -/

/-- What a blocked firing context waits for (03 R62). -/
inductive WaitFor where
  /-- the publication in progress (11 R303) -/
  | publication
  /-- a page to translate a linear address (03 R67) -/
  | translation (va : Nat)
  /-- a line to be in the data L1, owned alone when excl is set (03 R62, 11 R309) -/
  | line (l : Loc) (excl : Bool)
  /-- a line to be in the instruction L1 (03 R62) -/
  | code (l : Loc)
  /-- a granule to be full, for the word that is served when it is (03 R88, R89) -/
  | full (buf granule : Nat) (consume : Bool) (word : Instr)
  /-- a granule to be empty (03 R88) -/
  | empty (buf granule : Nat)
  /-- n filled slots, or free slots when producer is set (03 R95) -/
  | handle (h : Nat) (producer : Bool) (n : Nat)
  /-- room in the command queue (03 R93) -/
  | queueRoom
  /-- the command of a cmdw (03 R93) -/
  | command (id : Nat)
  /-- every command of the firing (11 R306) -/
  | commands
  /-- the queued atomics of the firing on a line (11 R310) -/
  | atomics (l : Loc)
  /-- a written line among the lines it watches, or the limit (11 R313) -/
  | watched (limited : Bool) (ls : List Loc)
  /-- a pail to flip or fail (11 R316) -/
  | pail (i gen : Nat)
  /-- a word, a completion or 65,536 V-cycles (13 R385) -/
  | idle
  /-- room in the undo log (13 R364) -/
  | undoRoom
  deriving DecidableEq, Repr

/-- The four states of a firing context (03 R62); a context that a halt has stopped keeps its status beside the stop. -/
inductive FcStatus where
  | free
  | ready
  | running
  | blocked (w : WaitFor)
  deriving DecidableEq, Repr

/-- A loop in progress (03 R82). -/
structure LoopEntry where
  first : Word
  past : Word
  n : Nat
  deriving DecidableEq, Repr

/-- A fibre register (10 R280). -/
structure Fibre where
  cur : BitVec 32
  pos : BitVec 32
  last : BitVec 32
  base : BitVec 19
  deriving DecidableEq, Repr, Inhabited

/-- The sticky flags of fp32 atomics (11 R312). -/
structure FpFlags where
  nv : Bool
  ov : Bool
  uf : Bool
  nx : Bool
  deriving DecidableEq, Repr, Inhabited

/-- A hint of 14 R415. -/
inductive Hint where
  | compute | memory | wait
  deriving DecidableEq, Repr

/-- A firing context (03 R61). Entry 0 of g and of p is storage that nothing reads: g0 reads zero and p0 reads true (02 R35). -/
structure FiringCtx where
  status : FcStatus
  pc : Word
  g : Vector Word 32
  p : Vector Bool 8
  q : Vector QWord 16
  f : Vector Fibre 16
  j : Vector QWord 8
  loops : List LoopEntry
  /-- the store buffer, oldest line first (03 R69) -/
  sb : List Line
  /-- lines of a publication not yet visible (11 R303) -/
  pub : List Line
  /-- instructions issued while another context was ready (03 R63) -/
  issued : Nat
  /-- the firing it runs, a key of its address space's firings -/
  fid : Nat
  /-- lines the firing has loaded, and whether another agent has written or the cache dropped each since (11 R313) -/
  watch : List (Loc × Bool)
  /-- the same for lines that a wait in progress watches and the firing has not loaded (11 R313) -/
  waits : List (Loc × Bool)
  /-- the command that a `cmdw` in progress has issued (03 R93) -/
  waitCmd : Option Nat
  /-- what a blocked word waits for has come about: the limit of a wait (11 R313) or the end of an idle (13 R385) -/
  expired : Bool
  /-- granules, by buffer and number, on which the word in progress has had its turn (03 R89) -/
  turns : List (Nat × Nat)
  /-- the command of the `cmd` or `cmdw` in progress has been found without fault (03 R93) -/
  checked : Bool
  /-- the word in progress as fetch gave it (13 R352) -/
  fetched : Option (BitVec 32)
  /-- the word in progress has been blocked and resumed (03 R62) -/
  woken : Bool
  aflags : FpFlags
  hint : Option Hint
  /-- serial of the firing's latest hint (14 R415) -/
  hintSerial : Nat
  /-- the g registers at firing start that a record reports: g2 (13 R352) -/
  g2start : Word
  /-- order in which the context blocked (03 R89) -/
  blockedAt : Nat
  /-- a halt has stopped the context (13 R346) -/
  stopped : Bool
  /-- the lower 8 bytes that the `qld` at the pc has read ahead of its upper ones: their location and they (03 R71) -/
  half : Option (Loc × List Byte)
  deriving DecidableEq, Repr

/-! ## Commands (05 R152, R153) -/

/-- Where a command stands on its path. -/
inductive CmdStage where
  | queued | scoreboard | running | performed | failed (reason : Nat)
  deriving DecidableEq, Repr

/-- A command in flight: its copy, its issuer and its progress. -/
structure CmdEntry where
  id : Nat
  word : QWord
  fid : Nat
  /-- configuration context current when its firing was selected (05 R158) -/
  cx : Nat
  /-- the j register value attached to fopen (10 R286), or the descriptor a copy has read (05 R167) -/
  attached : Nat
  stage : CmdStage
  /-- units of work done -/
  pos : Nat
  /-- bytes or items counted for the pail -/
  count : Nat
  /-- issued before the cut of the pending datum (13 R362) -/
  beforeCut : Bool
  /-- an fclose has asked this fopen to finish (10 R289), after so many elements -/
  closing : Bool
  stopAt : Nat
  /-- bytes that a copy has read ahead of its writes (05 R167) -/
  buf : List Byte
  deriving DecidableEq, Repr

/-- An atomic without result that waits at the L1 (11 R310). -/
structure AmonReq where
  fid : Nat
  fc : Nat
  va : Word
  operand : Word
  op : Nat
  double : Bool
  word : BitVec 32
  deriving DecidableEq, Repr

/-! ## The fabric (02 R43 to R48, 06) -/

/-- A configuration image as it is resident (02 R44): node words by site, routes, counters, generator programs. -/
structure Image where
  source : Loc
  sourceVa : Word
  length : Nat
  nodes : List (Nat × NodeWord)
  routes : List Nat
  counters : List (Nat × Nat)
  programs : List (Nat × List Nat)
  ipmask : Nat
  opmask : Nat
  deriving DecidableEq, Repr

/-- A beat (06 R179) or word beat (07 R214): kind, lane mask, null mask and payload. -/
structure Beat where
  kind : Nat
  mask : BitVec 4
  nulls : BitVec 4
  payload : Nat
  deriving DecidableEq, Repr, Inhabited

/-- A token of one lane (06 R179 to R181, 07 R214). -/
inductive Token where
  /-- HEAD: tag 0 finite, 1 zero, 2 infinity, 3 NaN; sign of zero; exponent -/
  | head (tag : Nat) (sz : Bool) (e : Int)
  | digit (d : Int)
  | fin
  | eor
  | eok
  | bound (v : Nat)
  | pred (b : Bool)
  | null
  | word (w : BitVec 32)
  deriving DecidableEq, Repr

/-- A directed link at its receiving end: beats on the wire, on a link from another clock domain those in the FIFO of 16 between the
domains (14 R403), the FIFO of 8 beats, KILL words on the reverse wire, and
per lane the numbers taken, the one in progress, its tag and its digits so far, and the numbers that a KILL has named, counted
from 0 (06 R178 to R182, 07 R214, 08 R248). -/
structure Link where
  wire : List Beat
  fifo : List Beat
  kills : List (BitVec 16)
  heads : List Nat
  current : List (Option (Nat × Nat))
  killed : List (List Nat)
  deriving DecidableEq, Repr, Inhabited

/-- An operand number as a lane holds it (06 R184): what its HEAD said, its digits so far, and whether END was taken. -/
structure Operand where
  tag : Nat
  sz : Bool
  e : Int
  digits : List Int
  ended : Bool
  /-- killed: its tokens are discarded up to END -/
  discard : Bool
  deriving DecidableEq, Repr, Inhabited

/-- A sum as an accumulator holds it (09 R258). -/
inductive Sum where
  | nan (top : Option Int)
  | inf (neg : Bool) (top : Option Int)
  /-- value m × 2^x; the window top once set -/
  | finite (m : Int) (x : Int) (top : Option Int)
  deriving DecidableEq, Repr

/-- A number being produced on one output of a lane: HEADs sent so far and whether a number is open there. -/
structure OutState where
  heads : Nat
  isOpen : Bool
  deriving DecidableEq, Repr, Inhabited

/-- What one lane of one node holds. Each opcode uses the fields its rules name. -/
structure LaneState where
  /-- operands of the step in progress, by input -/
  ops : List (Option Operand)
  /-- digits of the result sent, first to last -/
  sent : List Int
  /-- the result's exponent once HEAD was sent -/
  eo : Option Int
  /-- a step is in progress -/
  busy : Bool
  /-- tokens to send, with the output they leave by: 0 main, 1 whey, 2 aux, 3 to 6 a fork's branches -/
  out : List (Nat × Token)
  outs : List OutState
  /-- merge, split: the input or output due next; psrc: the pattern bit; sel: the input passed -/
  turn : Nat
  /-- cnt: index, trip count, pending bound, stopped; controllers: issued, taken -/
  index : Nat
  trip : Nat
  pending : Option Nat
  stopped : Bool
  issued : Nat
  taken : Nat
  inRun : Bool
  /-- acc: sum and EOKs -/
  sum : Sum
  eoks : Nat
  /-- hacc: staged keys, overflow, updates counted, rows ended; falign and dqg: items of the group -/
  stage : List (Nat × Sum)
  overflow : Bool
  updates : Nat
  rows : Nat
  group : List (Option (BitVec 32))
  scale : BitVec 32
  zero : Int
  left : Nat
  rowEnd : Option Token
  /-- dly: tokens held, and in order the turns that each has been held for -/
  held : List Token
  /-- merge: the inputs at which items wait, in the order their first tokens arrived -/
  order : List Nat
  deriving DecidableEq, Repr

/-- The four skim counts (07 R228). -/
structure SkimCounts where
  sat : Nat
  nan : Nat
  kill : Nat
  null : Nat
  deriving DecidableEq, Repr, Inhabited

/-- The skim state of one node: per lane the counts since its last EOK, and those of tiles that it has ended and other lanes have
not; counts of ended tiles not sent, and STATs received by side (07 R228, R229). -/
structure SkimNode where
  now : List SkimCounts
  past : List (List SkimCounts)
  ended : List SkimCounts
  inbox : List (Nat × SkimCounts)
  deriving DecidableEq, Repr, Inhabited

/-- One node site: its lanes and its skim state. -/
structure NodeState where
  lanes : List LaneState
  skim : SkimNode
  deriving DecidableEq, Repr

/-- The fabric of a core (01 R20): links by receiving site and side, nodes by site, tokens that output ports have
received, generator latches (05 R156) and hash bindings (10 R295). -/
structure Fabric where
  links : List ((Nat × Nat) × Link)
  nodes : List (Nat × NodeState)
  ports : List (Nat × Link)
  /-- address generators: site, the atlas epoch latched -/
  latches : List (Nat × Nat)
  /-- hash bindings: site, row base, first bank, banks -/
  hashes : List (Nat × Nat × Nat × Nat)
  deriving DecidableEq, Repr

/-! ## The matrix array (09) -/

/-- The states of a weight plane (09 R252). -/
inductive PlaneStage where
  | empty | loading | loaded
  deriving DecidableEq, Repr

/-- An atlas entry (05 R141). -/
structure AtlasEntry where
  base : Nat
  res : Nat
  ver : Nat
  rd : Bool
  wr : Bool
  frame : Nat
  deriving DecidableEq, Repr, Inhabited

/-- A weight plane: words by row and column, group exponents by group and column when floating, checksum weights by row, and its
source: the `wld` command, the plate's version, the latch that the tiles were read at and the plates' entries. -/
structure Plane where
  stage : PlaneStage
  /-- (row, column) to a 12-bit weight; unlisted entries are 0 -/
  words : List ((Nat × Nat) × Int)
  floating : Bool
  /-- (group, column) to Ew -/
  exps : List ((Nat × Nat) × Int)
  checks : List Nat
  source : QWord
  version : Nat
  latch : Nat
  entries : List (Nat × AtlasEntry)
  deriving DecidableEq, Repr

/-- A row tag in the array (09 R262, R263): its number, the digits of each row, classes by row (0 finite, 1 NaN, 2 +∞, 3 -∞), the
exponents of 32-row groups and its row of the group table; the digits that it takes (Dr), how many have entered, the rows whose
feeder has sent the next one, whether it has taken its last digit, and the gated columns, each with the digits that its cells
take (08 R247). -/
structure RowTag where
  m : Nat
  digits : List (List Int)
  classes : List Nat
  exps : List Int
  scales : List (BitVec 32)
  size : Nat
  got : Nat
  fed : List Nat
  full : Bool
  gates : List (Nat × Nat)
  deriving DecidableEq, Repr

/-- A matrix run in progress (09 R260, R263, R270). -/
structure Run where
  cmd : Nat
  word : QWord
  twin : Bool
  right : Bool
  /-- row tags of the run, and the pass that it is -/
  m : Nat
  pass : Nat
  /-- the next row tag to enter, and the next to complete -/
  entered : Nat
  completed : Nat
  inflight : List RowTag
  /-- record offsets within the current hA and hB slots -/
  aRec : Nat
  bRec : Nat
  /-- the halves of a twin have met -/
  met : Bool
  deriving DecidableEq, Repr

/-- The array of a core (09 R252, R258, R264, R266). -/
structure MArray where
  planes : List Plane
  /-- held sums by slot and column; a slot that is not listed is empty -/
  sums : List ((Nat × Nat) × Sum)
  passes : Nat
  /-- group table: (row, entry) to scale and zero point -/
  table : List ((Nat × Nat) × BitVec 32)
  tableSource : Word
  tableRows : Nat
  run : Option Run
  /-- the cut tag of a halted run (09 R272) -/
  cut : Option Nat
  deriving DecidableEq, Repr

/-! ## Rings (12) -/

/-- The packet classes (12 R325). -/
inductive PacketClass where
  | message | bulk | collective | control
  deriving DecidableEq, Repr

/-- A packet: its class, its flits, its route and what it carries (12 R325, R330). -/
structure Packet where
  cls : PacketClass
  flits : Nat
  src : CoreId
  dst : CoreId
  /-- direction wanted: 0 fewer hops, 1 clockwise, 2 counterclockwise (12 R337) -/
  dir : Nat
  /-- the folded segments: parallel from x of width w, meridian from y of height h -/
  seg : Rect
  /-- channel of a message; buffer of a bulk piece; log2 width and height of a collective's inset, times 64 and 8, with its number
  times 64 (log 59) -/
  chan : Nat
  addr : Nat
  bytes : List Byte
  /-- command and firing it belongs to, and the issuing core -/
  cmd : Nat
  /-- 0 data, 1 room asked, 2 room granted, 3 acknowledgement, 4 a message on its way to a port; of a collective's piece, its
  command's E -/
  note : Nat
  deriving DecidableEq, Repr

/-- A packet that a stop's input holds, or that is on its way there: its channel, its virtual channel, its flits arrived and gone
on, whether its next packet start has been made, the input it comes from (none: its own core), and when its head arrived. -/
structure Transit where
  pkt : Packet
  escape : Bool
  vc1 : Bool
  arrived : Nat
  gone : Nat
  started : Bool
  from_ : Option RingLink
  serial : Nat
  deriving DecidableEq, Repr

/-- The input of a stop at the end of a link, with the sender's free-slot counts (12 R326). -/
structure StopInput where
  held : List Transit
  poolFree : Nat
  escapeFree : Nat
  poolOwed : Nat
  escapeOwed : Nat
  /-- packets of kinds 1 to 4 sent in a row on this link (12 R328) -/
  streak : Nat
  deriving DecidableEq, Repr

/-! ## Channels, messages, selection (04 R111 to R117) -/

/-- A handler entry (04 R111). -/
structure Handler where
  entry : Word
  stateBase : Word
  valid : Bool
  masked : Bool
  pri : Nat
  inCh : Nat
  rate : Nat
  outs : List (Nat × Nat)
  deriving DecidableEq, Repr, Inhabited

/-- A message in construction or on its way (04 R129). -/
structure Message where
  dst : CoreId
  package : Nat
  remote : Bool
  chan : Nat
  words : List Word
  src : CoreId
  /-- its stop has asked the destination for room (12 R331) -/
  asked : Bool
  deriving DecidableEq, Repr, Inhabited

/-- A point or a task or words that wait in a ch0 or ch1 queue: the entry's key, the words, and what they stand for. -/
structure QueueItem where
  cx : Nat
  entry : Nat
  words : List Word
  tag : Nat
  idx : Nat
  seq : Nat
  isTask : Bool
  deriving DecidableEq, Repr, Inhabited

/-! ## A core -/

/-- A handle descriptor with its counts and pointers (05 R150, R151). -/
structure Handle where
  v : Bool
  buf : Nat
  slots : Nat
  size : Nat
  base : Nat
  fill : Nat
  free : Nat
  /-- producer and consumer slot pointers -/
  prod : Nat
  cons : Nat
  deriving DecidableEq, Repr, Inhabited

/-- An event counter (14 R406). -/
structure EventCounter where
  tag : Bool
  en : Bool
  ev : Nat
  count : Nat
  sampled : Nat
  smp : Nat
  /-- the context that configured it, and whether the partition runs that one (14 R412) -/
  owner : Nat
  live : Bool
  deriving DecidableEq, Repr, Inhabited

/-- A core (01 R20 to R22). -/
structure Core where
  fcs : Vector FiringCtx 8
  /-- number of the context that issues -/
  run : Fin 8
  /-- order in which contexts blocked so far -/
  blockSerial : Nat
  bufW : Memory
  bufA : Memory
  bufC : Memory
  fullW : List Nat
  fullA : List Nat
  fullC : List Nat
  ownA : List (Nat × Nat)
  ownC : List (Nat × Nat)
  handles : List (Nat × Handle)
  bcache : List (Nat × Nat)
  /-- lines in the data L1, and whether the core owns each alone (03 R68, 11 R309) -/
  l1 : List (Loc × Bool)
  il1 : List (Loc × List Byte)
  /-- translations of the first level, at most 64, and of the second, at most 8 in each of 128 sets (03 R67) -/
  mmu : List PageGrant
  mmu2 : List PageGrant
  /-- the command path: queue, then scoreboard and running commands, oldest first -/
  cmds : List CmdEntry
  nextCmd : Nat
  amons : List AmonReq
  images : List (Nat × Image)
  /-- current configuration context -/
  cx : Nat
  fabric : Fabric
  array : MArray
  stops : List (RingLink × StopInput)
  /-- packets the core has to inject, oldest first -/
  inject : List Packet
  outbound : List Message
  /-- heads that have arrived at the core's stops -/
  ringSerial : Nat
  /-- words reserved in the channel queues for messages on their way (12 R331) -/
  reserved : List (Nat × Nat)
  chans : List (Nat × List Word)
  points : List QueueItem
  /-- mask bits that differ from the table: (configuration context, entry, masked) -/
  masks : List ((Nat × Nat) × Bool)
  /-- selections made, and the eligible entries of the current configuration context, the longest eligible first (04 R114) -/
  selections : Nat
  eligible : List Nat
  nflags : FpFlags
  guard : Nat
  soft : List (Nat × Nat)
  spare : Word
  msgWin : Word
  /-- where the region of the message windows lies in device memory, by page of 4 KiB (04 R115, 13 R379) -/
  winPages : List Nat
  counters : Vector EventCounter 4
  /-- collective counters by log2 width and log2 height (12 R343) -/
  colls : List ((Nat × Nat) × Nat)
  /-- the core's contributions to collectives in progress: (log2 width, log2 height, number), its command, the operand, and the
  bytes read (12 R340) -/
  collParts : List ((Nat × Nat × Nat) × Nat × Nat × List Byte)
  /-- bytes of other members' contributions that have arrived: collective and member (12 R325) -/
  collIn : List (((Nat × Nat × Nat) × CoreId) × Nat)
  reported : Bool
  /-- units whose record of the standing halt is written -/
  records : List Nat
  /-- units that detected a fault before they stopped: record and code (13 R349) -/
  origins : List (Nat × Nat)
  /-- a plate that a memory port met a failure at for another unit: tensor, plate, port and reason (13 R426) -/
  portFault : Option (Nat × Nat × Nat × Nat)
  /-- the array command whose failure record 9 is to carry (13 R426) -/
  arrayFault : Option QWord
  /-- elements that input ports delivered in the window, by port, tensor and plate (05 R149) -/
  heat : List ((Nat × Nat × Nat) × Nat)
  deriving DecidableEq, Repr

/-! ## Clusters, dies, partitions -/

/-- A mailbox slot (13 R353, 14 R398): its bytes as numbers. -/
structure Mailbox where
  halt : Nat
  mask : Nat
  code : Nat
  valid : Bool
  overflow : Bool
  dieOrigin : Bool
  addr : Nat
  deriving DecidableEq, Repr, Inhabited

/-- The power slot of a cluster (14 R398). -/
structure PowerSlot where
  request : Nat
  granted : Nat
  est : Nat
  reason : Nat
  valid : Bool
  overflow : Bool
  deriving DecidableEq, Repr, Inhabited

/-- A ratio set in units of 100 MHz (14 R393). -/
structure RatioSet where
  m : Nat
  v : Nat
  n : Nat
  d : Nat
  deriving DecidableEq, Repr, Inhabited

/-- A cluster: clocks, rail, registers, mailbox (01 R17, 14 R405, R406). -/
structure Cluster where
  timer : Nat
  mv : Nat
  seq : Nat
  set : RatioSet
  target : Option RatioSet
  /-- the reason of the grant that the transition carries out, and the grant to take up after it (14 R402, R404) -/
  grantWhy : Nat
  next : Option (RatioSet × Nat)
  /-- tick of the evaluation or of the transition's latest step -/
  phaseAt : Nat
  reason : Nat
  req : Nat
  clkdef : Nat
  vfloor : Nat
  pcoef : Word
  loaded : Nat
  firstGrant : Bool
  /-- tick of the first change that the next evaluation has to consider (14 R397) -/
  changedAt : Option Nat
  throttleAmp : Nat
  throttleTheta : Nat
  throttled : Bool
  sample : Nat
  /-- tick of the latest sample -/
  sampledAt : Nat
  /-- energy of the ticks since the last charge and what that charge left over, in units of 10^-12 µJ (14 R408) -/
  quotaRest : Nat
  /-- hints executed on the cluster's cores so far (14 R415) -/
  hintCount : Nat
  slots : List Mailbox
  power : PowerSlot
  /-- the junction sensor (01 R30) -/
  celsius : Nat
  deriving DecidableEq, Repr

/-- A task known to a scheduler (04 R118 to R122). -/
structure TaskRec where
  /-- the context -/
  x : Nat
  seq : Nat
  bytes : List Byte
  tag : Nat
  parent : Nat
  coords : Word
  idx : Nat
  /-- not yet placed; holding its lease; started -/
  queued : Bool
  leased : Bool
  started : Bool
  deriving DecidableEq, Repr

/-- A die: its dispatcher's copies of heights, its task scheduler, its heat table and its port. -/
structure Die where
  alive : Bool
  /-- copies of heights: context, launch tag, cross-section index (04 R104) -/
  copies : List ((Nat × Nat × Nat) × Nat)
  tasks : List TaskRec
  heat : List ((Nat × Nat) × (Nat × Nat))
  /-- frames: per peer, numbers sent and received, and those not acknowledged with their sendings -/
  sentNum : List (Nat × Nat)
  recvNum : List (Nat × Nat)
  /-- frames not acknowledged, with their sendings and their context -/
  unacked : List (Frame × Nat × Nat)
  /-- local blocks of sequence numbers: context, next number and how many are left (04 R109) -/
  seqs : List (Nat × Nat × Nat)
  /-- faults detected by the die's units and records written, by partition and record (13 R349, R350) -/
  origins : List ((Nat × Nat) × Nat)
  records : List (Nat × Nat)
  deriving DecidableEq, Repr

/-- A partition (01 R27, 13 R345). -/
structure Partition where
  id : Nat
  rect : Rect
  ctx : Option Nat
  halt : Bool
  haltNum : Nat
  thermal : Bool
  pshare : Word
  /-- what each cluster's ratio set was, and whether it was in transition, when the standing halt arrived (13 R347) -/
  haltClocks : List (Nat × RatioSet × Bool)
  deriving DecidableEq, Repr

/-! ## Contexts -/

/-- A tensor descriptor (05 R138). -/
structure Tensor where
  id : Nat
  fmt : Nat
  layout : Nat
  rotary : Bool
  rows : Nat
  cols : Nat
  plates : Nat
  theta : List Nat
  /-- the device address of the atlas, which firmware writes (05 R138, R144) -/
  atlas : Nat
  deriving DecidableEq, Repr

/-- A key of a tile: tensor, tile row, tile column. -/
abbrev TileKey := Nat × Nat × Nat

/-- A version of a tile that has been current (05 R146): the epoch at which it became so, its number, of which tags hold the low 3
bits, its 1,024 bytes, and whether it stands in the version area. -/
structure TileVersion where
  since : Nat
  ver : Nat
  data : List Byte
  spilled : Bool
  deriving DecidableEq, Repr

/-- A pin on a tile line (05 R147): the slot that holds the line, and the latch through which its version is read; none: the version
that the firing is writing. -/
structure Pin where
  tile : TileKey
  k : CoreId
  h : Nat
  slot : Nat
  fid : Nat
  latch : Option Nat
  deriving DecidableEq, Repr

/-- A line of the L2 (05 R145): its home slice, and its tag: context, tile and version number. Tensor 0 is linear memory, whose
64-byte rows are valid one by one. -/
structure L2Line where
  slice : Nat
  x : Nat
  tile : TileKey
  ver : Nat
  rows : List Nat
  deriving DecidableEq, Repr

/-- An atlas change under way (05 R157): the `relatch` that made it as its core and command, its firing, the changed plates, its
epoch, the frames it released, and the generators that its token has yet to leave. -/
structure AtlasChange where
  owner : Option (CoreId × Nat)
  fid : Nat
  plates : List (Nat × Nat)
  epoch : Nat
  frames : List Nat
  tokens : List (CoreId × Nat)
  deriving DecidableEq, Repr

/-- Where a firing comes from (13 R379). -/
inductive FiringKind where
  | point | task | message
  deriving DecidableEq, Repr

/-- A firing (03 R61, 04 R115, R116, R299): its origin, its latch, its lease, the phase's writes and what it holds. -/
structure Firing where
  id : Nat
  kind : FiringKind
  tag : Nat
  idx : Nat
  coords : Word
  seq : Nat
  k : CoreId
  fc : Nat
  cx : Nat
  entry : Nat
  words : List Word
  /-- epoch of the latch (05 R156), and the epoch at the start (05 R157) -/
  latch : Nat
  born : Nat
  /-- plates leased: tensor and plate -/
  lease : List (Nat × Nat)
  /-- versions of the phase in progress: tile, number and bytes (05 R146) -/
  writes : List (TileKey × Nat × List Byte)
  /-- messages being built, and reservations left: channel and words -/
  msgs : List Message
  resv : List (Nat × Nat)
  touched : Bool
  committed : Bool
  /-- `done` completed -/
  ended : Bool
  /-- ended with a stop record: cause -/
  cause : Option Nat
  retired : Bool
  startHeights : List Nat
  /-- words that `recv` took from a message channel (04 R130) -/
  taken : List Word
  /-- collectives that it has issued: inset size and number (12 R343) -/
  colls : List ((Nat × Nat) × Nat)
  deriving DecidableEq, Repr

/-- Work that a replay gives back to its queue (13 R356): a point, a task, or words of a core's entry. -/
inductive Replayed where
  | point (tag idx : Nat)
  | task (seq : Nat)
  | message (k : CoreId) (entry : Nat)
  deriving DecidableEq, Repr

/-- A launch block's fields (04 R96). -/
structure Block where
  addr : Word
  ndim : Nat
  sweep : Nat
  nvec : Nat
  rules : Nat
  tag : Nat
  linktag : Nat
  sheet : Rect
  actor : Nat
  cfg : Nat
  quota : Nat
  extents : List Nat
  vectors : List (List Int)
  xplace : Nat
  yplace : Nat
  xdiv : Nat
  ydiv : Nat
  fps : List (List Int)
  resume : Bool
  pod : Bool
  clock : Nat
  cost : Nat
  datum : Nat
  save : Word
  resumeAt : Word
  deriving DecidableEq, Repr

/-- A live launch (04 R101, R107, R109). -/
structure Launch where
  block : Block
  heights : List Nat
  /-- points delivered and not retired, and points whose lease is granted, by index -/
  delivered : List Nat
  leased : List Nat
  leader : Nat
  /-- the datum multiple last reached -/
  datums : Nat
  retiredSince : Nat
  /-- the leader's package in the pod; its die is leader -/
  leaderAt : Nat
  /-- the heights with which it began, at acceptance or after a rollback: a copy without a rise since then has them -/
  start : List Nat
  /-- its number among the launches that its context has accepted: a tag returns, a number does not (04 R135) -/
  serial : Nat
  deriving DecidableEq, Repr

/-- An undo entry (13 R364): a line's bytes, or an atlas entry, as at the cut, with the edits that `relatch` has made since. -/
inductive Undo where
  | line (num : Nat) (bytes : List Byte)
  | atlas (tensor plate : Nat) (e : AtlasEntry) (ops : List Nat)
  deriving DecidableEq, Repr

/-- What a core adds to a datum (13 R363). -/
structure CoreCut where
  k : CoreId
  masks : List ((Nat × Nat) × Bool)
  chans : List (Nat × List Word)
  outbound : List Message
  cx : Nat
  images : List (Nat × Image)
  nflags : FpFlags
  colls : List ((Nat × Nat) × Nat)
  deriving DecidableEq, Repr

/-- A datum: what R363 lists. The versions current at the cut are those of its epoch. -/
structure Datum where
  epoch : Nat
  launches : List Launch
  counter : Nat
  pails : List Byte
  cores : List CoreCut
  /-- the retired launches that it images (13 R361) -/
  images : List Launch
  /-- a trigger that a halt leaves held asked for it (13 R362) -/
  held : Bool
  /-- frames released before the cut (16 R419) -/
  released : List Nat
  /-- the datum of a pre-emption's checkpoint (13 R371) -/
  checkpoint : Bool
  deriving DecidableEq, Repr

/-- A store held for commit: a line of host memory and its bytes, and the firing that made it (11 R305). -/
structure HeldStore where
  line : Line
  fid : Nat
  /-- made before the cut of the pending datum (13 R366) -/
  cut : Bool
  deriving DecidableEq, Repr

/-- What a switch save or a halt save keeps of a core (13 R359, R372). -/
structure CoreSave where
  k : CoreId
  core : Core
  deriving DecidableEq, Repr

/-- A context (04, 05, 13 R378, R391). -/
structure Context where
  id : Nat
  part : Nat
  priv : Bool
  imm : Bool
  port : Bool
  tok : Nat
  pasid : Nat
  pailVa : Word
  pailPa : Nat
  stopBase : Nat
  undoBase : Nat
  undoSize : Nat
  versionArea : Nat
  podSize : Nat
  podIndex : Nat
  hold : Nat
  gen : Nat
  pend : Bool
  req : Bool
  quotas : List Word
  drained : List Nat
  pages : List PageGrant
  handlers : List Handler
  tensors : List Tensor
  atlas : List ((Nat × Nat) × AtlasEntry)
  /-- entries that changed: (tensor, plate), the epoch until which the old entry held, and it (05 R156) -/
  oldAtlas : List ((Nat × Nat) × Nat × AtlasEntry)
  epoch : Nat
  tiles : List (TileKey × List TileVersion)
  /-- versions of tiles whose plates a `relatch` gave other frames: the epoch of that, the tile, and what it had, which stays live
  until the next commit (13 R363, 16 R418) -/
  shelf : List (Nat × TileKey × List TileVersion)
  pins : List Pin
  firings : List (Nat × Firing)
  nextFid : Nat
  launches : List Launch
  /-- retired launches that the next datum's cut images (13 R361) -/
  retiring : List Launch
  /-- launches accepted so far -/
  nextLaunch : Nat
  counter : Nat
  held : List HeldStore
  heldMsgs : List Message
  undo : List Undo
  /-- undo entries and held messages that stand before the cut of the pending datum -/
  undoMark : Nat
  msgMark : Nat
  datum : Option Datum
  pending : Option Datum
  /-- a datum is wanted (13 R361, R362) -/
  wantDatum : Bool
  saved : List CoreSave
  haltSaved : Bool
  /-- causes and reasons of the halt in which it was saved (13 R355, R387) -/
  haltCodes : List Nat
  /-- the launches the checkpoint's datum imaged (15 R416) -/
  withdrawable : List Nat
  /-- a pre-emption has chosen a checkpoint, whose datum is not cut yet (13 R371) -/
  checkpoint : Bool
  /-- launches, by number, that the last pre-emption chose to kill or to drain (15 R416) -/
  barred : List Nat
  /-- pre-emption under way: choices are applied and delivery is held (13 R371) -/
  preempted : Bool
  /-- atlas changes under way (05 R157) -/
  changes : List AtlasChange
  /-- frames released since the last commit, as residency × 2^40 + frame (16 R419) -/
  released : List Nat
  /-- launches copies that wait for the pod's comparison: tag and block bytes (04 R99) -/
  podWaits : List (Nat × List Byte)
  /-- plates that firmware has added to the lease of work to be replayed (13 R356) -/
  widened : List (Replayed × (Nat × Nat))
  startBlock : Word
  /-- undo entries that stand in the undo log's memory, from the oldest on (13 R364) -/
  undoDone : Nat
  /-- the pending datum's contents stand in the staging area (13 R362) -/
  staged : Bool
  /-- a drain of the context has begun (14 R409) -/
  draining : Bool
  /-- the die of this package whose dispatcher holds the index counter, where the pod's first package is this one (04 R109) -/
  holder : Nat
  deriving DecidableEq, Repr

/-! ## The package -/

/-- The boot stages (13 R390, R391). -/
inductive BootStage where
  | off | recovery | verified | up
  deriving DecidableEq, Repr

/-- What leaves the device on CXL, MCTP or a pin: answers and notices, newest last. -/
inductive Notice where
  | spdm (code : Nat) (body : List Byte)
  | hostData (bytes : List Byte)
  | unsupportedRequest
  | thermalStop
  | thermOff
  | contextEnded (id : Nat) (imm : Bool)
  /-- a module refused: context, table (0 handlers, 1 tensors, 2 the first launch), entry, and field or reason (04 R112) -/
  | contextRefused (id table entry field : Nat)
  | pageRequest (ctx va : Nat)
  /-- a snoop of a host line is answered: the device held it or not (11 R298) -/
  | snoopAnswer (line : Nat) (held : Bool)
  | absentPlate (ctx tensor plate : Nat)
  | report (bytes : List Byte)
  /-- a cluster with a unit that no spare replaces (13 R388) -/
  | noSpare (cluster : Nat)
  /-- what a privileged read of a system register of a core gave (13 R375) -/
  | register (k : CoreId) (n v : Nat)
  deriving DecidableEq, Repr

/-- The SPDM session (13 R392). -/
structure Spdm where
  version : Bool
  algorithms : Bool
  exchanging : Bool
  session : Bool
  key : List Byte
  updates : Nat
  deriving DecidableEq, Repr, Inhabited

/-- The measured-replay service (17 R423). -/
structure Replay where
  ctx : Nat
  k : CoreId
  passes : Nat
  retries : Nat
  block : Word
  report : Word
  sel : List Nat
  /-- pass and attempts in it -/
  pass : Nat
  attempt : Nat
  stage : Nat
  counts : List (List Nat)
  sets : List (List (Nat × List Byte) × List (TileKey × List Byte))
  mis : List Bool
  codes : List Nat
  attempts : List Nat
  deriving DecidableEq, Repr

/-- A management core (00 R2, 01 R17): its registers, pc and mode, the fields of mstatus (mpp: machine mode), the machine-level
registers, the reservation of an LR with its bytes, and its memory (log 94). -/
structure RvCore where
  x : Vector Word 32
  pc : Word
  machine : Bool
  mie : Bool
  mpie : Bool
  mpp : Bool
  mprv : Bool
  tw : Bool
  mtvec : Word
  mscratch : Word
  mepc : Word
  mcause : Word
  mtval : Word
  /-- the register mie -/
  enabled : Word
  /-- mcountinhibit -/
  inhibit : Word
  mcycle : Word
  minstret : Word
  reserved : Option (Nat × Nat)
  mem : Memory
  deriving DecidableEq, Repr

/-- Which agent moves next (log 2): a core issues a word, an event happens with a core in view, a line of a publication becomes
visible, a core drops a line of its L1s or a page of its MMU or reads the lower half of a `qld` ahead (03 R71), an error of the
hardware strikes (13 R387), the next piece of a host access is performed (11 R320), the current version of a tile goes back to its
frame (05 R146), firmware acknowledges a slot of a cluster's mailbox, the power slot being number 8 (13 R353, 14 R398), or a
management core, for itself or the driver, writes or reads a system register of a core (13 R375), a request comes on MCTP over
CXL.io or the sideband bus (13 R392), or a management core runs an instruction (00 R2). -/
inductive Act where
  | issue (k : CoreId)
  | event (k : CoreId) (i : Instr)
  | drain (k : CoreId) (c n : Nat)
  | evict (k : CoreId) (l : Loc)
  | evictCode (k : CoreId) (l : Loc)
  | evictPage (k : CoreId) (va : Nat)
  | halfLoad (k : CoreId)
  | uncorrectable (k : CoreId) (c : Nat)
  | dieError (d r : Nat)
  | corrected (k : CoreId) (n : Nat)
  | hostPiece
  | writeBack (x : Nat) (tile : TileKey)
  | acknowledge (cl n : Nat)
  | mctp (io : Bool) (i : Instr)
  | privWrite (k : CoreId) (n : Nat) (v : Word)
  | privRead (k : CoreId) (n : Nat)
  | manage (cl : Nat)
  deriving DecidableEq, Repr

/-- One entry of the agenda: ticks of clusters that pass first, then who acts. -/
structure Slot where
  elapsed : List (Nat × Nat)
  act : Act
  deriving DecidableEq, Repr

/-- Why a step stops with a fault: an access to device memory beyond the package's 768 GiB (01 R14). -/
inductive Fault where
  /-- Raised by an access whose physical address lies beyond the stacks. Safe: the model stops where no memory is. -/
  | noSuchMemory (addr : Nat)
  deriving DecidableEq, Repr

/-- Why a step is refused. -/
inductive Refusal where
  /-- Raised by exec for an instruction that has no meaning yet, by its mnemonic. Safe: nothing is claimed of it. -/
  | notModelled (mnemonic : String)
  deriving DecidableEq, Repr

/-- The state of the package. -/
structure State where
  /-- the core that acts -/
  now : CoreId
  agenda : List Slot
  freeCtr : Nat
  cores : List (Nat × Core)
  clusters : List (Nat × Cluster)
  dies : List (Nat × Die)
  parts : List Partition
  ctxs : List (Nat × Context)
  hbm : Memory
  hostMem : Memory
  cap : Nat
  /-- a junction has reached 95 degrees and not every one has read below 92 since (01 R30) -/
  hot : Bool
  /-- the minimum coolant flow from a cap on, in 0.1 L/min, that the builder's cold plate needs; none on HXD4-M48 (01 R29, R30) -/
  flows : Option (List (Nat × Nat))
  /-- which of the two CXL ports are trained (01 R15) -/
  port0 : Bool
  port1 : Bool
  /-- the EtherType of the scale-out ports (12 R335) -/
  etherType : Nat
  boot : BootStage
  measured : List (List Byte)
  /-- the digest of the first image of this boot (13 R392) -/
  firstDigest : List Byte
  spdm : Spdm
  /-- the SPDM request at hand came over CXL.io, else over the sideband bus (13 R390, R392) -/
  viaIo : Bool
  ideKeys : List Byte
  notices : List Notice
  replay : Option Replay
  /-- substitutions in force: core, kind, index (13 R388) -/
  spares : List (CoreId × SpareKind × Nat)
  /-- management words that wait for room in a ch31 queue, oldest first (04 R113) -/
  mgmt : List (CoreId × Word)
  /-- host accesses in progress, with the bytes read so far or written (11 R320) -/
  hostWork : List (HostAccess × List Byte)
  /-- lines of the L2, the most recently used first (05 R145) -/
  l2 : List L2Line
  /-- device lines whose bytes stand in a cache alone, by number, with the 64 bytes that the stacks hold beneath them (03 R68, 13
R389) -/
  beneath : List (Nat × List Byte)
  /-- the management cores, by cluster (00 R2) -/
  managers : List (Nat × RvCore)
  deriving DecidableEq, Repr

/-! ## Reset (13 R389) -/

/-- Values of the registers of a firing context after reset: the manual gives none (log 1). -/
def FiringCtx.reset : FiringCtx where
  status := .free
  pc := 0
  g := Vector.replicate 32 0
  p := Vector.replicate 8 false
  q := Vector.replicate 16 0
  f := Vector.replicate 16 ⟨0, 0, 0, 0⟩
  j := Vector.replicate 8 0
  loops := []
  sb := []
  pub := []
  issued := 0
  fid := 0
  watch := []
  waits := []
  waitCmd := none
  expired := false
  woken := false
  aflags := ⟨false, false, false, false⟩
  hint := none
  hintSerial := 0
  g2start := 0
  blockedAt := 0
  stopped := false
  half := none
  turns := []
  checked := false
  fetched := none

/-- A plane after reset (09 R252). -/
def Plane.reset : Plane := ⟨.empty, [], false, [], [], 0, 0, 0, []⟩

/-- The array after reset (09 R252, R264, R266). -/
def MArray.reset : MArray := ⟨[Plane.reset, Plane.reset], [], 0, [], 0, 0, none, none⟩

/-- The fabric after reset. -/
def Fabric.reset : Fabric := ⟨[], [], [], [], []⟩

/-- A core after reset. -/
def Core.reset : Core where
  fcs := Vector.replicate 8 FiringCtx.reset
  run := 0
  blockSerial := 0
  bufW := []
  bufA := []
  bufC := []
  fullW := []
  fullA := []
  fullC := []
  ownA := []
  ownC := []
  handles := []
  bcache := []
  l1 := []
  il1 := []
  mmu := []
  mmu2 := []
  cmds := []
  nextCmd := 0
  amons := []
  images := []
  cx := 0
  fabric := Fabric.reset
  array := MArray.reset
  stops := []
  inject := []
  outbound := []
  ringSerial := 0
  reserved := []
  chans := []
  points := []
  masks := []
  selections := 0
  eligible := []
  nflags := ⟨false, false, false, false⟩
  guard := 0
  soft := []
  spare := 0
  msgWin := 0
  winPages := []
  counters := Vector.replicate 4 ⟨false, false, 0, 0, 0, 0, 0, false⟩
  colls := []
  collParts := []
  collIn := []
  reported := false
  records := []
  origins := []
  portFault := none
  arrayFault := none
  heat := []

/-- A cluster after reset: the boot set (4, 4, 4, 4) at 700 mV, sample interval 1,000 (14 R406, R427). -/
def Cluster.reset : Cluster where
  timer := 0
  mv := 700
  seq := 0
  set := ⟨4, 4, 4, 4⟩
  target := none
  grantWhy := 0
  next := none
  phaseAt := 0
  reason := 0
  req := 0
  clkdef := 0
  vfloor := 0
  pcoef := 0
  loaded := 0
  firstGrant := false
  changedAt := none
  throttleAmp := 0
  throttleTheta := 0
  throttled := false
  sample := 1000
  sampledAt := 0
  quotaRest := 0
  hintCount := 0
  slots := List.replicate 8 ⟨0, 0, 0, false, false, false, 0⟩
  power := ⟨0, 0, 0, 0, false, false⟩
  celsius := 0

/-- A die after reset. -/
def Die.reset : Die := ⟨true, [], [], [], [], [], [], [], [], []⟩

/-- The package after power-on or a CXL reset (13 R389): no context exists, and no core runs a firing. -/
def State.reset : State where
  now := 0
  agenda := []
  freeCtr := 0
  cores := []
  clusters := []
  dies := []
  parts := []
  ctxs := []
  hbm := []
  hostMem := []
  cap := 0
  hot := false
  flows := none
  port0 := false
  port1 := false
  etherType := 0
  boot := .off
  measured := []
  firstDigest := []
  viaIo := false
  spdm := ⟨false, false, false, false, [], 0⟩
  ideKeys := []
  notices := []
  replay := none
  spares := []
  mgmt := []
  hostWork := []
  l2 := []
  beneath := []
  managers := []

end Sys2Proof.Machine
end

