-- ==== Sys2Proof/Machine/Ops.lean ====
section
/-!
DEFINITION. The named operations over memory, registers and firing contexts that every meaning uses: reading and writing
one byte, the registers of the running context (02 R35), the advance of its pc with the loop test (03 R82), blocking and
switching (03 R62), translation (03 R67), publication (03 R69), and ending a firing with a stop record (03 R72, 13 R350).
-/
namespace Sys2Proof.Machine

/-! ## Memory -/

/-- What an address that no entry lists reads as: memory that nothing has written (log 5). -/
def Memory.unlisted : Byte := 0

/-- One byte. -/
def Memory.get : Memory → Nat → Byte
  | [], _ => Memory.unlisted
  | (b, v) :: m, a => if b = a then v else Memory.get m a

/-- Write one byte, keeping the canonical form. -/
def Memory.put : Memory → Nat → Byte → Memory
  | [], a, v => if v = Memory.unlisted then [] else [(a, v)]
  | (b, w) :: m, a, v =>
    if a < b then (if v = Memory.unlisted then (b, w) :: m else (a, v) :: (b, w) :: m)
    else if a = b then (if v = Memory.unlisted then m else (a, v) :: m)
    else (b, w) :: Memory.put m a v

/-- Entries rise strictly from above lo, and none equals what an unlisted address reads as. -/
def Memory.wfFrom : Nat → Memory → Bool
  | _, [] => true
  | lo, (a, v) :: m => lo ≤ a && v ≠ Memory.unlisted && Memory.wfFrom (a + 1) m

/-- The canonical form. -/
def Memory.wf (m : Memory) : Bool := Memory.wfFrom 0 m

/-- n bytes from an address, lowest first. -/
def Memory.bytes (m : Memory) (a n : Nat) : List Byte := (upto n).map fun i => m.get (a + i)

/-- Write bytes from an address up. -/
def Memory.putBytes : Memory → Nat → List Byte → Memory
  | m, _, [] => m
  | m, a, b :: bs => (m.put a b).putBytes (a + 1) bs

/-- The package's stacks hold 768 GiB (01 R14): 16 of 48 GiB. -/
def hbmSize : Nat := 824633720832

/-- The 64-byte line that holds a location. -/
def Loc.line (l : Loc) : Loc := ⟨l.onHost, l.addr / 64⟩

/-- A location some bytes further. -/
def Loc.plus (l : Loc) (n : Nat) : Loc := ⟨l.onHost, l.addr + n⟩

/-- A location exists: host memory, or inside the stacks (01 R14). -/
def Loc.here (l : Loc) : Bool := l.onHost || l.addr < hbmSize

/-! ## Tables of the package -/

/-- A core. -/
def State.core (s : State) (k : CoreId) : Core := (look s.cores k).getD Core.reset

/-- Replace a core. -/
def State.setCore (s : State) (k : CoreId) (c : Core) : State := { s with cores := put s.cores k c }

/-- Change a core. -/
def State.modCore (s : State) (k : CoreId) (f : Core → Core) : State := s.setCore k (f (s.core k))

/-- The core that acts. -/
def State.cur (s : State) : Core := s.core s.now

/-- Change every core that differs from reset. -/
def State.mapCores (s : State) (f : CoreId → Core → Core) : State :=
  { s with cores := s.cores.map fun e => (e.1, f e.1 e.2) }

/-- Change every die that differs from reset. -/
def State.mapDies (s : State) (f : Nat → Die → Die) : State := { s with dies := s.dies.map fun e => (e.1, f e.1 e.2) }

/-- A cluster. -/
def State.cluster (s : State) (n : Nat) : Cluster := (look s.clusters n).getD Cluster.reset

/-- Change a cluster. -/
def State.modCluster (s : State) (n : Nat) (f : Cluster → Cluster) : State :=
  { s with clusters := put s.clusters n (f (s.cluster n)) }

/-- A die. -/
def State.die (s : State) (n : Nat) : Die := (look s.dies n).getD Die.reset

/-- Change a die. -/
def State.modDie (s : State) (n : Nat) (f : Die → Die) : State := { s with dies := put s.dies n (f (s.die n)) }

/-- A context as it would stand before firmware creates it. -/
def Context.blank : Context where
  id := 0
  part := 0
  priv := false
  imm := false
  port := false
  tok := 0
  pasid := 0
  pailVa := 0
  pailPa := 0
  stopBase := 0
  undoBase := 0
  undoSize := 0
  versionArea := 0
  podSize := 1
  podIndex := 0
  hold := 0
  gen := 0
  pend := false
  req := false
  quotas := List.replicate 8 0
  drained := []
  pages := []
  handlers := []
  tensors := []
  atlas := []
  oldAtlas := []
  epoch := 0
  tiles := []
  shelf := []
  pins := []
  firings := []
  nextFid := 1
  launches := []
  retiring := []
  nextLaunch := 0
  counter := 0
  held := []
  heldMsgs := []
  undo := []
  undoMark := 0
  msgMark := 0
  datum := none
  pending := none
  wantDatum := false
  saved := []
  haltSaved := false
  haltCodes := []
  withdrawable := []
  checkpoint := false
  barred := []
  preempted := false
  changes := []
  released := []
  podWaits := []
  widened := []
  startBlock := 0
  undoDone := 0
  staged := false
  draining := false
  holder := 0

/-- A context. -/
def State.ctx (s : State) (x : Nat) : Context := (look s.ctxs x).getD Context.blank

/-- Change a context. -/
def State.modCtx (s : State) (x : Nat) (f : Context → Context) : State := { s with ctxs := put s.ctxs x (f (s.ctx x)) }

/-- A rectangle holds a core. -/
def rectHas (r : Rect) (k : CoreId) : Bool :=
  r.x ≤ k % 32 && k % 32 < r.x + r.w && r.y ≤ k / 32 && k / 32 < r.y + r.h

/-- The cores of a rectangle in row-major order (13 R350). -/
def rectCores (r : Rect) : List CoreId := (upto (r.w * r.h)).map fun i => (r.y + i / r.w) * 32 + r.x + i % r.w

/-- The partition that holds a core (01 R27). -/
def State.partOf (s : State) (k : CoreId) : Option Partition := s.parts.find? fun p => rectHas p.rect k

/-- A partition by its number. -/
def State.part (s : State) (n : Nat) : Option Partition := s.parts.find? fun p => p.id = n

/-- Change a partition. -/
def State.modPart (s : State) (n : Nat) (f : Partition → Partition) : State :=
  { s with parts := s.parts.map fun p => if p.id = n then f p else p }

/-- The context that runs on a core's partition; 0 where none does. -/
def State.cxId (s : State) (k : CoreId) : Nat := ((s.partOf k).bind fun p => p.ctx).getD 0

/-- The partition of a context. -/
def State.ctxPart (s : State) (x : Nat) : Option Partition := s.parts.find? fun p => p.ctx = some x

/-- The cluster of a core (01 R16). -/
def clusterOf (k : CoreId) : Nat := k / 32 / 2 * 8 + k % 32 / 4

/-- The first core of a cluster (01 R16, R17). -/
def clusterCore (cl : Nat) : CoreId := cl / 8 * 2 * 32 + cl % 8 * 4

/-- The die of a core (01 R16). -/
def dieOf (k : CoreId) : Nat := k / 32 / 8 * 8 + k % 32 / 4

/-- Dies that hold cores of a rectangle. -/
def rectDies (r : Rect) : List Nat := ((rectCores r).map dieOf).eraseDups

/-- A core's number within its die (01 R16). -/
def coreInDie (k : CoreId) : Nat := k / 32 % 8 * 4 + k % 4

/-! ## Free values -/

/-- The next free value (log 6) and the state after it. -/
def State.free (s : State) : Nat × State := (Config.freeValue s.freeCtr, { s with freeCtr := s.freeCtr + 1 })

/-! ## Firing contexts and registers -/

/-- A firing context of a core. -/
def Core.fc (c : Core) (n : Fin 8) : FiringCtx := c.fcs.get n

/-- Replace a firing context. -/
def Core.setFc (c : Core) (n : Fin 8) (f : FiringCtx) : Core := { c with fcs := c.fcs.set n f }

/-- The running context of the core that acts. -/
def State.fc (s : State) : FiringCtx := s.cur.fc s.cur.run

/-- Replace the running context. -/
def State.setFc (s : State) (f : FiringCtx) : State := s.setCore s.now (s.cur.setFc s.cur.run f)

/-- The pc of the running context. -/
def State.pc (s : State) : Word := s.fc.pc

/-- A general register; g0 reads zero (02 R35). -/
def State.g (s : State) (r : Fin 32) : Word := if r = 0 then 0 else s.fc.g.get r

/-- Write a general register; a write of g0 is discarded (02 R35). -/
def State.setG (s : State) (r : Fin 32) (v : Word) : State :=
  if r = 0 then s else s.setFc { s.fc with g := s.fc.g.set r v }

/-- A predicate; p0 reads true (02 R35). -/
def State.p (s : State) (r : Fin 8) : Bool := if r = 0 then true else s.fc.p.get r

/-- Write a predicate; a write of p0 is discarded (02 R35). -/
def State.setP (s : State) (r : Fin 8) (v : Bool) : State :=
  if r = 0 then s else s.setFc { s.fc with p := s.fc.p.set r v }

/-- A command register. -/
def State.q (s : State) (r : Fin 16) : QWord := s.fc.q.get r

/-- Write a command register. -/
def State.setQ (s : State) (r : Fin 16) (v : QWord) : State := s.setFc { s.fc with q := s.fc.q.set r v }

/-- The key of the running firing in its context. -/
def State.fid (s : State) : Nat := s.fc.fid

/-- The context of the core that acts. -/
def State.x (s : State) : Nat := s.cxId s.now

/-! ## Firings -/

/-- The firing that a key without an entry stands for. -/
def Firing.blank : Firing where
  id := 0
  kind := .message
  tag := 0
  idx := 0
  coords := 0
  seq := 0
  k := 0
  fc := 0
  cx := 0
  entry := 0
  words := []
  latch := 0
  born := 0
  lease := []
  writes := []
  msgs := []
  resv := []
  touched := false
  committed := false
  ended := false
  cause := none
  retired := false
  startHeights := []
  taken := []
  colls := []

/-- A firing of a context. -/
def Context.firing (c : Context) (f : Nat) : Firing := (look c.firings f).getD Firing.blank

/-- Change a firing of a context; one that is not listed stays so. -/
def Context.modFiring (c : Context) (f : Nat) (u : Firing → Firing) : Context :=
  { c with firings := c.firings.map fun e => if e.1 = f then (e.1, u e.2) else e }

/-- The running firing. -/
def State.firing (s : State) : Firing := (s.ctx s.x).firing s.fid

/-- Change a firing of a context; without that context nothing changes. -/
def State.modFiring (s : State) (x f : Nat) (u : Firing → Firing) : State :=
  if (look s.ctxs x).isSome then s.modCtx x fun c => c.modFiring f u else s

/-! ## Advance (03 R82) -/

/-- The loop test after a word at addr: taken holds the target of a taken `br` or `jr`. The innermost loop stands first. -/
def loopTest (addr : Word) (taken : Option Word) : List LoopEntry → Word → List LoopEntry × Word
  | [], pc => ([], pc)
  | l :: r, pc =>
    match taken with
    | some t =>
      if l.first ≤ addr && addr < l.past && !(l.first ≤ t && t < l.past) then loopTest addr taken r pc else (l :: r, pc)
    | none =>
      if addr = l.past - 4 then
        (if 1 < l.n then ({ l with n := l.n - 1 } :: r, l.first) else loopTest addr taken r pc)
      else (l :: r, pc)

/-- Put the running context at a pc with its loops, the instruction in progress being complete. -/
def FiringCtx.go (f : FiringCtx) (x : List LoopEntry × Word) : FiringCtx :=
  { f with pc := x.2, loops := x.1, woken := false, expired := false, half := none, turns := [], checked := false, fetched := none }

/-- The word completes and the next one follows, unless a loop ends here (03 R82). -/
def State.advance (s : State) : State := s.setFc (s.fc.go (loopTest s.pc none s.fc.loops (s.pc + 4)))

/-- The word completes with PC = t, a word that is no branch of 03 R82: `call` and `jrl` never pop a loop, and a skipped
loop body is tested as a word that takes no control flow (log 8). -/
def State.advanceTo (s : State) (t : Word) : State := s.setFc (s.fc.go (loopTest s.pc none s.fc.loops t))

/-- The word completes with PC = t: a taken `br` or `jr` (03 R82). -/
def State.branch (s : State) (t : Word) : State := s.setFc (s.fc.go (loopTest s.pc (some t) s.fc.loops t))

/-- The word completes with PC = t: a taken `call` or `jrl` (03 R82). -/
def State.linkTo (s : State) (t : Word) : State := s.setFc (s.fc.go (s.fc.loops, t))

/-! ## Event counters (14 R413) -/

/-- A counter counts n of event ev while the partition runs the context that configured it (14 R412). With the tag set it counts
only activity of tagged commands, events 0x0A to 0x10. -/
def EventCounter.add (e : EventCounter) (ev n : Nat) (tagged : Bool) : EventCounter :=
  if e.en && e.live && e.ev = ev && (!e.tag || (tagged && 0x0A ≤ ev && ev ≤ 0x10)) then
    { e with count := (e.count + n) % 2 ^ 48 } else e

/-- A core counts n of event ev. -/
def Core.event (c : Core) (ev n : Nat) (tagged : Bool) : Core :=
  { c with counters := c.counters.map fun e => e.add ev n tagged }

/-! ## Blocking and switching (03 R62) -/

/-- A context that may issue when its turn comes. -/
def FiringCtx.isReady (f : FiringCtx) : Bool := f.status = .ready && !f.stopped

/-- The next ready context in the order n + 1, n + 2, … modulo 8. -/
def Core.nextReady (c : Core) (n : Fin 8) : Option (Fin 8) :=
  ((List.finRange 8).map fun i => n + i + 1).find? fun m => (c.fc m).isReady

/-- The next ready context becomes the running one, if there is one: a firing-context switch (event 0x08). -/
def Core.switch (c : Core) : Core :=
  match c.nextReady c.run with
  | none => c
  | some m => { (c.setFc m { c.fc m with status := .running, issued := 0 }).event 0x08 1 false with run := m }

/-- The running context is blocked and the next ready context issues. The instruction has performed nothing, a half that it has read
ahead included. -/
def Core.block (c : Core) (w : WaitFor) : Core :=
  let f := c.fc c.run
  { c.setFc c.run { f with status := .blocked w, blockedAt := c.blockSerial, woken := false, half := none } with
    blockSerial := c.blockSerial + 1 }.switch

/-- The running context of the core that acts is blocked. -/
def State.block (s : State) (w : WaitFor) : State := s.modCore s.now fun c => c.block w

/-- A context becomes ready; it runs at once when no other context of the core is running. One that a halt has stopped as it ran
stays the running one (13 R346, R356). -/
def Core.ready (c : Core) (n : Fin 8) : Core :=
  let c' := c.setFc n { c.fc n with status := .ready, woken := true }
  if (c.fc c.run).status = .running then c' else { c' with run := n - 1 }.switch

/-! ## Writes that become visible -/

/-- What another agent's write does to the lines a context watches (11 R313). -/
def FiringCtx.noteWrite (f : FiringCtx) (l : Loc) : FiringCtx :=
  let note (e : Loc × Bool) : Loc × Bool := if e.1 = l then (l, true) else e
  { f with watch := f.watch.map note, waits := f.waits.map note }

/-- What a write to a line does at one core (11 R298, R309): copies of other cores leave their L1s, and every context but
the writer's notes it. -/
def Core.noteWrite (c : Core) (l : Loc) (writer : Option (Fin 8)) : Core :=
  { c with
    fcs := c.fcs.mapIdx fun n f => if writer.map Fin.val = some n then f else f.noteWrite l
    l1 := if writer.isSome then c.l1 else c.l1.filter fun e => e.1 ≠ l }

/-- A write to a line by a context of a core, or by another agent: the host, a command, an engine (none). -/
def State.noteWrite (s : State) (l : Loc) (writer : Option (CoreId × Fin 8)) : State :=
  s.mapCores fun k c => c.noteWrite l (writer.bind fun w => if w.1 = k then some w.2 else none)

/-- A write to a host line that only the agents of one context see, until a commit or a `fence.x` releases it (11 R298, R305): own.
The release itself is a write to every other agent: own clear. -/
def State.noteHeld (s : State) (x : Nat) (own : Bool) (l : Loc) (writer : Option (CoreId × Fin 8)) : State :=
  s.mapCores fun k c =>
    if (s.cxId k = x) = own then c.noteWrite l (writer.bind fun w => if w.1 = k then some w.2 else none) else c

/-- A byte of physical memory. -/
def State.byte (s : State) (l : Loc) : Byte := if l.onHost then s.hostMem.get l.addr else s.hbm.get l.addr

/-- Write a byte of physical memory. -/
def State.setByte (s : State) (l : Loc) (v : Byte) : State :=
  if l.onHost then { s with hostMem := s.hostMem.put l.addr v } else { s with hbm := s.hbm.put l.addr v }

/-- Write bytes from a location up. -/
def State.setBytes (s : State) : Loc → List Byte → State
  | _, [] => s
  | l, b :: bs => (s.setByte l b).setBytes (l.plus 1) bs

/-- Bytes from a location up. -/
def State.bytesAt (s : State) (l : Loc) (n : Nat) : List Byte := (upto n).map fun i => s.byte (l.plus i)

/-- The undo log's room, in entries of 128 bytes (13 R364, R380). -/
def Context.undoRoom (c : Context) : Nat := (c.undoSize + 1) * 512

/-- A line of device memory already has an undo entry since the cut. -/
def Context.undone (c : Context) (num : Nat) : Bool :=
  (c.undo.drop c.undoMark).any fun u => match u with
    | .line m _ => m = num
    | .atlas _ _ _ _ => false

/-- A write to this line needs an entry that the log has no room for (13 R364). -/
def Context.undoFull (c : Context) (l : Loc) : Bool :=
  !l.onHost && !c.undone l.addr && c.undo.length ≥ c.undoRoom

/-- A context's first write to a device line since the cut takes an entry with the line as it stands (13 R364); the log at
three quarters of its size asks for a datum (13 R361). Line addresses count 64 bytes. -/
def State.logUndo (s : State) (x : Nat) (l : Loc) : State :=
  if l.onHost || (s.ctx x).undone l.addr || (look s.ctxs x).isNone then s
  else s.modCtx x fun c =>
    let u := c.undo ++ [Undo.line l.addr (s.bytesAt ⟨false, l.addr * 64⟩ 64)]
    { c with undo := u, wantDatum := c.wantDatum || 4 * u.length ≥ 3 * c.undoRoom }

/-- A device line stands in a cache that writes back: an L1 that owns it alone, or its home slice (03 R68, 05 R145). l counts 64
bytes. -/
def State.cached (s : State) (l : Loc) : Bool :=
  !l.onHost && ((s.cores.any fun e => look e.2.l1 l = some true) ||
    s.l2.any fun e => e.tile = (0, l.addr / 16, 0) && e.rows.contains (l.addr % 16))

/-- A device line is about to be written in a cache: the stacks keep what they hold until it is written back (03 R68). -/
def State.shade (s : State) (l : Loc) : State :=
  if s.cached l && (look s.beneath l.addr).isNone then
    { s with beneath := put s.beneath l.addr (s.bytesAt ⟨false, l.addr * 64⟩ 64) } else s

/-- Lines that no cache holds any more have been written back to the stacks (03 R68). -/
def State.writtenBack (s : State) : State := { s with beneath := s.beneath.filter fun e => s.cached ⟨false, e.1⟩ }

/-- Bytes that a context's agent writes to one device or host line become visible at one instant (11 R298). -/
def State.writeLine (s : State) (x : Nat) (writer : Option (CoreId × Fin 8)) (l : Loc) (bs : List (Nat × Byte)) : State :=
  let s := (s.logUndo x l).shade l
  let s := bs.foldl (fun t b => t.setByte ⟨l.onHost, l.addr * 64 + b.1⟩ b.2) s
  s.noteWrite l writer

/-! ## Translation (03 R66, R67) -/

/-- Bits [63:57] equal bit 56 (03 R66). -/
def canonical (a : Word) : Bool := (a.sshiftRight 56).toNat = 0 || (a.sshiftRight 56) = BitVec.allOnes 64

/-- What an access does. -/
inductive AccessKind where
  | load | store | fetch
  deriving DecidableEq, Repr

/-- The page sizes that the MMU supports are 4 KiB, 2 MiB and 1 GiB (03 R67); a page lies at a multiple of its size (log 70). -/
def pageSound (p : PageGrant) : Bool :=
  [4096, 2097152, 1073741824].contains p.size && p.va % p.size = 0 && p.pa % p.size = 0

/-- The page of an address. -/
def pageOf (ps : List PageGrant) (va : Nat) : Option PageGrant := ps.find? fun p => p.va ≤ va && va < p.va + p.size

/-- A page allows an access. -/
def pageAllows (p : PageGrant) : AccessKind → Bool
  | .load => p.r
  | .store => p.w
  | .fetch => p.x

/-- The location of an address in its page. -/
def pageLoc (p : PageGrant) (va : Nat) : Loc := ⟨p.onHost, p.pa + (va - p.va)⟩

/-- What translation gives: a location; a miss, which blocks; a stop, cause 0x05; a refusal, cause 0x06; or a location
that no memory is behind (01 R14). -/
inductive Trans where
  | ok (l : Loc)
  | miss
  | stop
  | perm
  | nowhere (a : Nat)
  deriving DecidableEq, Repr

/-- A location as translation gives it. -/
def transTo (l : Loc) : Trans := if l.here then .ok l else .nowhere l.addr

/-- Read-only to a context's stores whatever its pages say: the pail area (11 R314). -/
def Context.pailHas (c : Context) (va : Nat) : Bool := c.pailVa.toNat ≤ va && va < c.pailVa.toNat + 4096

/-- Read-only to a context's stores: a message window of the core (04 R115, 13 R379). -/
def Core.windowHas (c : Core) (va : Nat) : Bool := c.msgWin.toNat ≤ va && va < c.msgWin.toNat + 16384

/-- Addresses of a context that no store of it may reach: its pail area, and the windows of all its cores (04 R115). -/
def State.shut (s : State) (x va : Nat) : Bool :=
  (s.ctx x).pailHas va || s.cores.any fun e => s.cxId e.1 = x && e.2.windowHas va

/-- The cached translations of a core, first level first (03 R67). -/
def Core.cachedPage (c : Core) (va : Nat) : Option PageGrant := match pageOf c.mmu va with
  | some p => some p
  | none => pageOf c.mmu2 va

/-- The MMU's translation of an address (03 R67). A cached page that refuses the access is translated once more. A load from a page
without read permission is refused as a store to a read-only one is, with cause 0x06 (log 71). -/
def State.translate (s : State) (va : Nat) (kind : AccessKind) : Trans :=
  let c := s.ctx s.x
  if kind = .store && s.shut s.x va then .perm else
  match s.cur.cachedPage va with
  | some p =>
    if pageAllows p kind then transTo (pageLoc p va)
    else match pageOf c.pages va with
      | some p' => if pageAllows p' kind then transTo (pageLoc p' va) else .perm
      | none => .stop
  | none => if s.fc.woken && (pageOf c.pages va).isNone then .stop else .miss

/-! ## The caches (03 R67, R68) -/

/-- A list with room for one more among its members that a test picks: the member that a free value names leaves it where there are
max of them (log 75). -/
def makeRoom {α : Type} [DecidableEq α] (l : List α) (same : α → Bool) (max r : Nat) : List α × Option α :=
  let s := l.filter same
  if s.length < max then (l, none)
  else match s[r % s.length]? with
    | some v => (l.erase v, some v)
    | none => (l, none)

/-- A page enters both levels of an MMU: 64 entries fully associative, and 1,024 in sets of 8 (03 R67). -/
def Core.cachePage (c : Core) (p : PageGrant) (r : Nat) : Core :=
  let set (q : PageGrant) : Nat := Config.pageSet (q.va / q.size) % 128
  let rest (l : List PageGrant) : List PageGrant := l.filter fun q => !(q.va < p.va + p.size && p.va < q.va + q.size)
  { c with
    mmu := p :: (makeRoom (rest c.mmu) (fun _ => true) 64 r).1
    mmu2 := p :: (makeRoom (rest c.mmu2) (fun q => set q = set p) 8 (Config.freeValue r)).1 }

/-- A translation comes to a core. -/
def State.cachePage (s : State) (k : CoreId) (p : PageGrant) : State :=
  { s.modCore k fun c => c.cachePage p (Config.freeValue s.freeCtr) with freeCtr := s.freeCtr + 1 }

/-- The set of an L1's 128 that a line lies in. -/
def setOfLine (l : Loc) : Nat := Config.lineSet l.addr % 128

/-- A line enters the data L1, owned alone or shared: 64 KiB in sets of 8 (03 R68). A line that makes room leaves the L1, which a
`wait` may note (11 R313). -/
def Core.cacheLine (c : Core) (l : Loc) (excl : Bool) (r : Nat) : Core :=
  if (look c.l1 l).isSome then { c with l1 := put c.l1 l excl }
  else
    let m := makeRoom c.l1 (fun e => setOfLine e.1 = setOfLine l) 8 r
    let c := { c with l1 := put m.1 l excl }
    match m.2 with
    | some v => { c with fcs := c.fcs.map fun f => f.noteWrite v.1 }
    | none => c

/-- A line comes to a core's data L1 to be shared: a core that owned it alone shares it from now on (11 R309). -/
def State.shareLine (s : State) (k : CoreId) (l : Loc) : State :=
  let s := s.mapCores fun _ c => if look c.l1 l = some true then { c with l1 := put c.l1 l false } else c
  { s.modCore k fun c => c.cacheLine l false (Config.freeValue s.freeCtr) with freeCtr := s.freeCtr + 1 }

/-- A line comes to a core's data L1 alone: the copies of all others are recalled (11 R309). -/
def State.ownLine (s : State) (k : CoreId) (l : Loc) : State :=
  let s := s.mapCores fun j c => if j = k then c else { c with l1 := unput c.l1 l }
  { s.modCore k fun c => c.cacheLine l true (Config.freeValue s.freeCtr) with freeCtr := s.freeCtr + 1 }

/-- A line enters the instruction L1 with the bytes given: 32 KiB in sets of 4 (03 R68). -/
def Core.cacheCode (c : Core) (l : Loc) (bs : List Byte) (r : Nat) : Core :=
  { c with il1 := put (if (look c.il1 l).isSome then c.il1 else (makeRoom c.il1 (fun e => setOfLine e.1 = setOfLine l) 4 r).1) l bs }

/-- The location of an address by a context's pages alone. -/
def Context.pageTranslate (c : Context) (va : Nat) (kind : AccessKind) : Trans :=
  match pageOf c.pages va with
  | some p => if pageAllows p kind then transTo (pageLoc p va) else .perm
  | none => .stop

/-- The location of an address as an engine, which waits for its translation, finds it (05 R155): none is reason 0x21 and
a refusal reason 0x22. -/
def State.engineTranslate (s : State) (x va : Nat) (kind : AccessKind) : Trans :=
  if kind = .store && s.shut x va then .perm else (s.ctx x).pageTranslate va kind

/-! ## The store buffer and loads (03 R69, 11 R303, R305) -/

/-- The byte that the newest line of a list holds for a location. -/
def lineByte : List Line → Loc → Option Byte
  | [], _ => none
  | n :: r, l =>
    match lineByte r l with
    | some b => some b
    | none => if n.onHost = l.onHost && n.num = l.addr / 64 then look n.bytes (l.addr % 64) else none

/-- The byte that agents of a context see: held stores of the context come ahead of host memory (11 R298, R305). -/
def State.seenByte (s : State) (x : Nat) (l : Loc) : Byte :=
  if l.onHost then (lineByte ((s.ctx x).held.map fun h => h.line) l).getD (s.byte l) else s.byte l

/-- The byte that a firing's load returns: its own store buffer first (03 R69). -/
def State.loadByte (s : State) (l : Loc) : Byte :=
  match lineByte s.fc.sb l with
  | some b => b
  | none => (lineByte s.fc.pub l).getD (s.seenByte s.x l)

/-- n bytes that a firing's load returns. -/
def State.loadBytes (s : State) (l : Loc) (n : Nat) : List Byte := (upto n).map fun i => s.loadByte (l.plus i)

/-- n bytes that an engine of a context reads. -/
def State.seenBytes (s : State) (x : Nat) (l : Loc) (n : Nat) : List Byte := (upto n).map fun i => s.seenByte x (l.plus i)

/-- A line of code comes to a core's instruction L1 as it stands now (11 R318). -/
def State.cacheCode (s : State) (k : CoreId) (l : Loc) : State :=
  let bs := s.seenBytes (s.cxId k) ⟨l.onHost, l.addr * 64⟩ 64
  { s.modCore k fun c => c.cacheCode l bs (Config.freeValue s.freeCtr) with freeCtr := s.freeCtr + 1 }

/-- Put bytes into a line. -/
def Line.putBytes (n : Line) (off : Nat) (bs : List Byte) : Line :=
  { n with bytes := (bs.zipIdx).foldl (fun a b => put a (off + b.2) b.1) n.bytes }

/-- A store buffer holds a line. -/
def hasLine (sb : List Line) (l : Loc) : Bool := sb.any fun n => n.onHost = l.onHost && n.num = l.addr / 64

/-- Bytes of one line enter a store buffer and merge (03 R69). -/
def sbPut (sb : List Line) (l : Loc) (bs : List Byte) : List Line :=
  if hasLine sb l then sb.map fun n => if n.onHost = l.onHost && n.num = l.addr / 64 then n.putBytes (l.addr % 64) bs else n
  else sb ++ [(⟨l.onHost, l.addr / 64, []⟩ : Line).putBytes (l.addr % 64) bs]

/-- A store would need a 17th line (03 R69). -/
def sbFull (sb : List Line) (l : Loc) : Bool := !hasLine sb l && sb.length ≥ 16

/-- The L1 still has an atomic of a firing to perform (11 R310). -/
def Core.queuedAtomic (c : Core) (fid : Nat) : Bool := c.amons.any fun a => a.fid = fid

/-- A publication point performs its effect once everything the firing stored is visible (03 R69, 11 R303); until then the
buffer's lines stand in the publication and the context is blocked. The firing's queued atomics belong to it (11 R310). -/
def State.publishThen (s : State) (k : State → Res) : Res :=
  if s.fc.sb = [] && s.fc.pub = [] && !s.cur.queuedAtomic s.fid then k s
  else .next ((s.setFc { s.fc with sb := [], pub := s.fc.pub ++ s.fc.sb }).block .publication)

/-- A line of a publication becomes visible: in device memory at once, in host memory to the context's agents until a
commit releases it (11 R303, R305). The firing is touched (13 R351). -/
def State.showLine (s : State) (k : CoreId) (c : Fin 8) (n : Line) : State :=
  let x := s.cxId k
  let fid := ((s.core k).fc c).fid
  let s := s.modFiring x fid fun f => { f with touched := true }
  if n.onHost then
    (s.modCtx x fun cx => { cx with held := cx.held ++ [⟨n, fid, false⟩] }).noteHeld x true ⟨true, n.num⟩ (some (k, c))
  else s.writeLine x (some (k, c)) ⟨false, n.num⟩ n.bytes

/-- A line of a firing's load has been read: the watch of 11 R313 starts anew. -/
def FiringCtx.watchLine (f : FiringCtx) (l : Loc) : FiringCtx := { f with watch := put f.watch l false }

/-! ## Stop records and the halt (13 R345 to R353) -/

/-- A ratio set in the layout of a launch block's clock field (14 R393). -/
def RatioSet.pack (r : RatioSet) : Nat := r.m + r.v * 256 + r.n * 65536 + r.d * 16777216

/-- Where a core's number i record lies: base + 1,024 × i + 64 × r (13 R350). -/
def State.recordLoc (s : State) (k : CoreId) (r : Nat) : Loc :=
  match s.partOf k with
  | some p => ⟨false, (s.ctx (p.ctx.getD 0)).stopBase + 1024 * ((k / 32 - p.rect.y) * p.rect.w + (k % 32 - p.rect.x)) + 64 * r⟩
  | none => ⟨false, 0⟩

/-- A record's header in a halt of a partition (13 R351): the ratio set and the transition as they stood when the halt arrived (13
R347). -/
def State.recordHeadOf (s : State) (p : Option Partition) (k : CoreId) (kind flags code unit : Nat) : List Byte :=
  let h := (p.map fun p => p.haltNum).getD 0
  let at_ := (p.bind fun p => look p.haltClocks (clusterOf k)).getD (Cluster.reset.set, false)
  leBytes 1 kind ++ leBytes 1 (flags + bit at_.2 * 8) ++ leBytes 2 code ++ leBytes 1 (k % 32) ++ leBytes 1 (k / 32) ++
    leBytes 1 unit ++ leBytes 1 h ++ leBytes 4 at_.1.pack ++ leBytes 4 (s.cluster (clusterOf k)).timer

/-- The header of a record of a core, whose partition halts. -/
def State.recordHead (s : State) (k : CoreId) (kind flags code unit : Nat) : List Byte :=
  s.recordHeadOf (s.partOf k) k kind flags code unit

/-- A core's record r is written: header, then 48 bytes of its kind. -/
def State.writeRecord (s : State) (k : CoreId) (r : Nat) (bytes : List Byte) : State :=
  (s.setBytes (s.recordLoc k r) (bytes.take 64)).modCore k fun c => { c with records := insertNat c.records r }

/-- The kind field of sy.fire and of records: 0 point, 1 task, 2 message (13 R379). -/
def FiringKind.code : FiringKind → Nat
  | .point => 0
  | .task => 1
  | .message => 2

/-- A firing context can go on under 13 R356 from the cause in its record: one that another unit's halt stopped and one at an `ebrk`
continue, and one that is not touched is replayed after cause 0x05 or 0x0F, or after cause 0x0B or 0x11 on a failure 0x21 or
0x2F. -/
def fcGoesOn (cause detail : Nat) (touched : Bool) : Bool := match cause with
  | 0x00 => true
  | 0x13 => true
  | 0x05 => !touched
  | 0x0F => !touched
  | 0x0B => !touched && (detail = 0x21 || detail = 0x2F)
  | 0x11 => true
  | _ => false

/-- A cause whose record holds an address: an effective one, or the word of the tensor and tile of cause 0x0F (13 R352). -/
def causeHasAddr (cause : Nat) : Bool := (0x02 ≤ cause && cause ≤ 0x08) || cause = 0x0F

/-- Bytes of the record of firing context n of core k (13 R352). origin: it detected its cause before it stopped. -/
def State.fcRecord (s : State) (k : CoreId) (n : Fin 8) (cause : Nat) (origin : Bool) (word : Nat) (addr : Word) (detail : Nat) :
    List Byte :=
  let f := (s.core k).fc n
  let r := (s.ctx (s.cxId k)).firing f.fid
  let idle := f.status = .free
  let flags := bit origin + bit idle * 2 + bit (!idle && !r.ended && fcGoesOn cause detail r.touched) * 4 + bit r.touched * 32 + bit r.committed * 64
  s.recordHead k 1 flags cause n.val ++
    (if idle then leBytes 24 0 ++ leBytes 24 0 else
      leBytes 8 r.seq ++ leBytes 8 f.pc.toNat ++ leBytes 4 word ++ leBytes 2 r.tag ++ leBytes 1 r.entry ++
        leBytes 1 (r.cx + r.kind.code * 8) ++ leBytes 8 (if causeHasAddr cause then addr.toNat else 0) ++ leBytes 8 f.g2start.toNat ++
        leBytes 4 detail ++ leBytes 4 0)

/-- A halt abandons the pending datum of its context, whose triggers stay held but for a request of firmware, and stops its
pre-emption (13 R362, R371). -/
def Context.haltHere (c : Context) : Context := match c.pending with
  | none => { c with preempted := false, wantDatum := c.wantDatum || c.checkpoint, checkpoint := false }
  | some d => { c with
      preempted := false, checkpoint := false, pending := none, retiring := d.images ++ c.retiring, pend := false, req := false, undoMark := 0, msgMark := 0
      wantDatum := c.wantDatum || d.held || c.checkpoint }

/-- A die has nothing more of a partition's halt. -/
def Die.forgetHalt (d : Die) (part : Nat) : Die :=
  { d with origins := d.origins.filter fun o => o.1.1 ≠ part, records := d.records.filter fun r => r.1 ≠ part }

/-- The halt line of a core's partition rises (13 R345); a new halt takes the next number and opens new records.
Event counters stop (17 R420). -/
def State.raiseHalt (s : State) (k : CoreId) : State :=
  match s.partOf k with
  | none => s
  | some p =>
    if p.halt then s
    else
      let clocks := (s.clusters.filter fun e => (rectDies p.rect).contains (dieOf (clusterCore e.1))).map fun e => (e.1, e.2.set, e.2.target.isSome)
      let s := s.modPart p.id fun q => { q with halt := true, haltNum := q.haltNum + 1, haltClocks := clocks }
      let s := match p.ctx with
        | some x => if (look s.ctxs x).isSome then s.modCtx x Context.haltHere else s
        | none => s
      let fresh (c : Core) : Core := { c with
        records := [], origins := [], portFault := none, arrayFault := none, reported := false
        counters := c.counters.map fun e => { e with live := false } }
      (s.mapCores fun j c => if rectHas p.rect j then fresh c else c).mapDies fun _ d => d.forgetHalt p.id

/-- The stopping word, for a record (13 R352): as fetch gave it, or, of a context that stops before it fetches, as fetch would read
it: through the core's MMU and instruction L1. -/
def State.wordAtPc (s : State) (k : CoreId) (n : Fin 8) : Nat :=
  let c := s.core k
  let pc := (c.fc n).pc.toNat
  match (c.fc n).fetched with
  | some w => w.toNat
  | none => match (c.cachedPage pc).or (pageOf (s.ctx (s.cxId k)).pages pc) with
    | some p => match look c.il1 (pageLoc p pc).line with
      | some bs => leNat ((bs.drop ((pageLoc p pc).addr % 64)).take 4)
      | none => leNat (s.seenBytes (s.cxId k) (pageLoc p pc) 4)
    | none => 0

/-- What the end of a firing with a stop record takes with it (04 R117, R123, R125, 05 R147): messages, reservations, lease,
pins and versions that are not current. -/
def Context.dropFiring (c : Context) (fid cause : Nat) : Context :=
  let f := c.firing fid
  let c := c.modFiring fid fun f =>
    { f with ended := true, cause := some cause, msgs := [], resv := [], lease := [], writes := [] }
  { c with
    pins := c.pins.filter fun p => p.fid ≠ fid
    launches := c.launches.map fun l =>
      if f.kind = .point && l.block.tag = f.tag then { l with leased := l.leased.erase f.idx } else l }

/-- Tasks that a firing spawned and that have not started are discarded (04 R117), and a task's own lease ends with its firing. -/
def State.dropTasks (s : State) (x fid : Nat) : State :=
  let f := (s.ctx x).firing fid
  let child (t : TaskRec) : Bool := t.x = x && t.parent = fid && !t.started
  let gone := s.dies.flatMap fun e => (e.2.tasks.filter child).map fun t => t.seq
  let s := s.mapDies fun _ d => { d with
    tasks := (d.tasks.filter fun t => !child t).map fun t =>
      if f.kind = .task && t.x = x && t.seq = f.seq then { t with leased := false } else t }
  s.mapCores fun k c =>
    if s.cxId k = x then { c with points := c.points.filter fun i => !(i.isTask && gone.contains i.seq) } else c

/-- A context stops for good: its buffer, its watch and its hint end with the firing. -/
def FiringCtx.endHere (f : FiringCtx) : FiringCtx :=
  { f with
    status := .ready, stopped := true, sb := [], pub := [], watch := [], waits := [], waitCmd := none, hint := none, half := none
    turns := [], checked := false }

/-- TAKING AN EXCEPTION, by the firing of context n of core k (03 R72). The firing ends at its word, which has no effect:
the pc stays, the store buffer is discarded, the stop record is written with the cause, and the halt line of the partition
rises (13 R345). The origin flag is set where the firing detected the cause itself (13 R349). -/
def State.raiseAt (s : State) (k : CoreId) (n : Fin 8) (cause : Nat) (origin : Bool) (addr : Word) (detail : Nat) : State :=
  let s := s.raiseHalt k
  let s := s.writeRecord k n.val (s.fcRecord k n cause origin (s.wordAtPc k n) addr detail)
  let x := s.cxId k
  let fid := ((s.core k).fc n).fid
  let s := s.modCore k fun c =>
    let c := if origin then { c with origins := put c.origins n.val cause } else c
    let c := c.setFc n (c.fc n).endHere
    if c.run = n then c.switch else c
  let s := if (look s.ctxs x).isSome then s.modCtx x fun c => c.dropFiring fid cause else s
  s.dropTasks x fid

/-- The running word raises a cause. -/
def State.raise (s : State) (cause : Nat) (addr : Word) (detail : Nat) : State :=
  s.raiseAt s.now s.cur.run cause true addr detail

/-- The firing of context n of core k ends on another unit's failed command (03 R94, 13 R349): the record has no origin flag and
carries the command's reason. The context stops in place: firmware replays its firing, or lets it go on (13 R356; log 31). -/
def State.quietAt (s : State) (k : CoreId) (n : Fin 8) (cause detail : Nat) : State :=
  let s := s.raiseHalt k
  let s := s.writeRecord k n.val (s.fcRecord k n cause false (s.wordAtPc k n) 0 detail)
  s.modCore k fun c =>
    let c := c.setFc n { c.fc n with status := .ready, stopped := true }
    if c.run = n then c.switch else c

/-- The running word ends on another unit's failed command. -/
def State.raiseQuiet (s : State) (cause detail : Nat) : State := s.quietAt s.now s.cur.run cause detail

/-- RETURNING FROM AN EXCEPTION: a stopped firing context goes on where it stands, or one word further after an `ebrk`
(13 R356). -/
def FiringCtx.resumeAt (f : FiringCtx) (pc : Word) : FiringCtx := { f with stopped := false, pc := pc }

/-! ## One access (03 R85) -/

/-- Translate an address and go on with its location: a miss blocks, a stop or a refusal raises its cause. -/
def State.withLoc (s : State) (va : Word) (kind : AccessKind) (k : Loc → Res) : Res :=
  match s.translate va.toNat kind with
  | .ok l => k l
  | .miss => .next (s.block (.translation va.toNat))
  | .stop => .next ({ s with notices := s.notices ++ [Notice.pageRequest s.x va.toNat] }.raise 0x05 va 0)
  | .perm => .next (s.raise 0x06 va 0)
  | .nowhere a => .fault (.noSuchMemory a)

/-- The checks of 03 R85 on an effective address, in its order: canonical, aligned, translated. -/
def State.access (s : State) (va : Word) (align : Nat) (kind : AccessKind) (k : Loc → Res) : Res :=
  if !canonical va then .next (s.raise 0x04 va 0)
  else if va.toNat % align ≠ 0 then .next (s.raise 0x02 va 0)
  else s.withLoc va kind k

/-- The checks on the address of a `qld` or `qst` (03 R92), whose description fixes no order, so that the lowest cause is reported
(03 R72): aligned, canonical, translated. -/
def State.accessQ (s : State) (va : Word) (kind : AccessKind) (k : Loc → Res) : Res :=
  if va.toNat % 16 ≠ 0 then .next (s.raise 0x02 va 0)
  else if !canonical va then .next (s.raise 0x04 va 0)
  else s.withLoc va kind k

/-- An atomic of a firing of a core on a line waits at the L1 (11 R310). -/
def State.atomicOn (s : State) (k : CoreId) (fid : Nat) (l : Loc) : Bool :=
  (s.core k).amons.any fun a => a.fid = fid && match s.engineTranslate (s.cxId k) a.va.toNat .store with
    | .ok m => m.line = l
    | _ => false

/-- A load of bytes at a location: queued atomics of the firing on its line come first (11 R310), and the line must be in the L1 (03
R62, R68), though the firing's store buffer holds all its bytes (log 107). -/
def State.loadAt (s : State) (l : Loc) (k : State → Res) : Res :=
  if s.atomicOn s.now s.fid l.line then .next (s.block (.atomics l.line))
  else if (s.cur.l1.any fun e => e.1 = l.line) then k (s.setFc (s.fc.watchLine l.line))
  else .next ((s.modCore s.now fun c => c.event 0x09 1 false).block (.line l.line false))

/-- A load of n bytes (03 R85). -/
def State.loadThen (s : State) (va : Word) (align n : Nat) (k : State → List Byte → Res) : Res :=
  s.access va align .load fun l => s.loadAt l fun t => k t (s.loadBytes l n)

/-- Bytes enter the store buffer; one that would need a 17th line is published first (03 R69). -/
def State.storeAt (s : State) (l : Loc) (bs : List Byte) (k : State → Res) : Res :=
  if sbFull s.fc.sb l then
    .next ((s.setFc { s.fc with sb := [], pub := s.fc.pub ++ s.fc.sb }).block .publication)
  else k (s.setFc { s.fc with sb := sbPut s.fc.sb l bs })

/-- A store of bytes enters the store buffer (03 R69). -/
def State.storeThen (s : State) (va : Word) (align : Nat) (bs : List Byte) (k : State → Res) : Res :=
  s.access va align .store fun l => s.storeAt l bs k

end Sys2Proof.Machine
end

