-- ==== Sys2Proof/Machine/Flags.lean ====
section
/-!
DEFINITION. The machine's flags: predicates that compares and results set (03 R77 to R79), and the sticky flags of fp32
atomics (11 R312).
-/
namespace Sys2Proof.Machine

/-- The six conditions of a compare (03 R77). -/
inductive Cond where
  | eq | ne | lt | ge | ltu | geu
  deriving DecidableEq, Repr

/-- A relation of two words: lt and ge read them signed, ltu and geu unsigned (03 R77). -/
def Cond.holds (c : Cond) (a b : Word) : Bool :=
  match c with
  | .eq => a = b
  | .ne => a ≠ b
  | .lt => a.toInt < b.toInt
  | .ge => b.toInt ≤ a.toInt
  | .ltu => a.toNat < b.toNat
  | .geu => b.toNat ≤ a.toNat

/-- Flags added to sticky ones (11 R312). -/
def FpFlags.or (a b : FpFlags) : FpFlags := ⟨a.nv || b.nv, a.ov || b.ov, a.uf || b.uf, a.nx || b.nx⟩

/-- The layout of sy.aflags and sy.nflags (11 R312). -/
def FpFlags.pack (a : FpFlags) : Nat := bit a.nv * 8 + bit a.ov * 4 + bit a.uf * 2 + bit a.nx

/-- A write of sy.aflags or sy.nflags clears the flags it writes 0 to; it sets none (11 R312: "A flag is set by an atomic
and cleared only by an mtsy that writes 0 to it"; log 9). -/
def FpFlags.written (a : FpFlags) (v : Nat) : FpFlags :=
  ⟨a.nv && bitOf v 3, a.ov && bitOf v 2, a.uf && bitOf v 1, a.nx && bitOf v 0⟩

/-- The predicates as a number, p0 in bit 0 (03 R79). -/
def State.predWord (s : State) : Nat :=
  bit (s.p 0) + bit (s.p 1) * 2 + bit (s.p 2) * 4 + bit (s.p 3) * 8 + bit (s.p 4) * 16 + bit (s.p 5) * 32 +
    bit (s.p 6) * 64 + bit (s.p 7) * 128

end Sys2Proof.Machine
end

