-- ==== Sys2Proof/Machine/Operands.lean ====
section
/-!
DEFINITION. The operand forms of scalar words: immediates, shift amounts, packed coordinates, linear addresses (03 R84,
R85) and typed-buffer addresses (03 R87), with the buffers themselves (01 R22).
-/
namespace Sys2Proof.Machine

/-- A 16-bit immediate, sign-extended (03 R75). -/
def sext16 (i : BitVec 16) : Word := i.signExtend 64

/-- The address g[a] + SignExtend(imm16) (03 R84). -/
def State.eaImm (s : State) (a : Fin 32) (i : BitVec 16) : Word := s.g a + sext16 i

/-- The address g[a] + g[b] × 2^sc (03 R84). -/
def State.eaIndex (s : State) (a b : Fin 32) (sc : BitVec 3) : Word := s.g a + (s.g b <<< sc.toNat)

/-- The exact sum of two registers, read as addresses (03 R87, 00 R11; log 73). -/
def State.eaSum (s : State) (a b : Fin 32) : Nat := (s.g a).toNat + (s.g b).toNat

/-- The address of `qld` and `qst`: g[a] + 16 × SignExtend(arg16) (03 R92). -/
def State.eaQ (s : State) (a : Fin 32) (o : BitVec 16) : Word := s.g a + 16 * sext16 o

/-- Coordinate field i of a packed word (03 R76). -/
def coord (v : Word) (i : Nat) : Nat := v.toNat / 2 ^ (16 * i) % 65536

/-- An extent field, 1 where it is 0 (03 R76). -/
def extent (v : Word) (i : Nat) : Nat := if coord v i = 0 then 1 else coord v i

/-- A word of bytes, zero-extended (03 R84). -/
def zextBytes (bs : List Byte) : Word := BitVec.ofNat 64 (leNat bs)

/-- A word of bytes, sign-extended (03 R84). -/
def sextBytes (bs : List Byte) : Word := wordOfInt (signed (8 * bs.length) (leNat bs))

/-! ## Typed buffers (01 R22) -/

/-- The three typed buffers. -/
inductive Buf where
  | w | a | c
  deriving DecidableEq, Repr

/-- The buffer that a two-bit field names: 0 W, 1 A, 2 C; 3 is reserved (03 R87). -/
def Buf.of (x : Nat) : Option Buf := match x with
  | 0 => some .w
  | 1 => some .a
  | 2 => some .c
  | _ => none

/-- A buffer's number (05 R150). -/
def Buf.num : Buf → Nat
  | .w => 0
  | .a => 1
  | .c => 2

/-- A buffer's size in bytes (01 R22). -/
def Buf.size : Buf → Nat
  | .w => 1048576
  | .a => 524288
  | .c => 524288

/-- A buffer's bytes. -/
def Core.buf (c : Core) : Buf → Memory
  | .w => c.bufW
  | .a => c.bufA
  | .c => c.bufC

/-- A buffer's full granules. -/
def Core.fullOf (c : Core) : Buf → List Nat
  | .w => c.fullW
  | .a => c.fullA
  | .c => c.fullC

/-- Replace a buffer's bytes. -/
def Core.setBuf (c : Core) (b : Buf) (m : Memory) : Core := match b with
  | .w => { c with bufW := m }
  | .a => { c with bufA := m }
  | .c => { c with bufC := m }

/-- Replace a buffer's set of full granules. -/
def Core.setFullOf (c : Core) (b : Buf) (l : List Nat) : Core := match b with
  | .w => { c with fullW := l }
  | .a => { c with fullA := l }
  | .c => { c with fullC := l }

/-- The full-empty bit of a 16-byte granule (01 R22). -/
def Core.full (c : Core) (b : Buf) (g : Nat) : Bool := (c.fullOf b).contains g

/-- Set a granule's bit. -/
def Core.setFull (c : Core) (b : Buf) (g : Nat) (v : Bool) : Core :=
  c.setFullOf b (if v then insertNat (c.fullOf b) g else (c.fullOf b).filter fun x => x ≠ g)

/-- n bytes of a buffer. -/
def Core.bufBytes (c : Core) (b : Buf) (a n : Nat) : List Byte := (c.buf b).bytes a n

/-- A write to a buffer leaves the read cache of 03 R90 without the 64-byte groups it meets. -/
def Core.putBuf (c : Core) (b : Buf) (a : Nat) (bs : List Byte) : Core :=
  let c := c.setBuf b ((c.buf b).putBytes a bs)
  { c with bcache := c.bcache.filter fun e => !(e.1 = b.num && a / 64 ≤ e.2 && e.2 ≤ (a + bs.length - 1) / 64) }

/-- Set every granule that n bytes from a touch. -/
def Core.setFullRange (c : Core) (b : Buf) (a n : Nat) (v : Bool) : Core :=
  (upto ((a + n + 15) / 16 - a / 16)).foldl (fun c i => c.setFull b (a / 16 + i) v) c

/-- The owner of the bank of an address, when it is not open (05 R158); W has no owners. -/
def Core.owner (c : Core) (b : Buf) (a : Nat) : Option Nat := match b with
  | .w => none
  | .a => look c.ownA (a / 4096)
  | .c => look c.ownC (a / 4096)

/-- A bank stands open to a configuration context: it has no owner or that one (05 R158). -/
def Core.bankOpen (c : Core) (b : Buf) (a cx : Nat) : Bool := match c.owner b a with
  | none => true
  | some o => o = cx

/-- What an address of a typed-buffer access meets (03 R87, R72, 05 R158): cause 0x02, cause 0x07, or the buffer and the
byte. The lower cause is tested first. -/
inductive BufAddr where
  | misaligned | range | ok (b : Buf) (a : Nat)
  deriving DecidableEq, Repr

/-- A typed-buffer address: a multiple of 8, below the buffer's size, in a bank that the core's current configuration
context may reach. -/
def Core.bufAddr (c : Core) (x : Nat) (ea : Nat) : BufAddr :=
  if ea % 8 ≠ 0 then .misaligned
  else match Buf.of x with
    | none => .range
    | some b =>
      if ea < b.size && c.bankOpen b ea c.cx then .ok b ea else .range

/-- The address g[a] + 8 × offset of a typed-buffer access: exact, for no slice cuts it (03 R87, 00 R11; log 73). -/
def State.eaBuf (s : State) (a : Fin 32) (o : BitVec 12) : Nat := (s.g a).toNat + 8 * o.toNat

end Sys2Proof.Machine
end

