-- ==== Sys2Proof/Machine/Alu.lean ====
section
/-!
DEFINITION. Integer arithmetic, immediates, addresses, compares, selection and predicate logic (03 R73 to R79).
-/
namespace Sys2Proof.Machine

/-! ## Results (03 R73, R74) -/

/-- A word whose result goes to g[d]; the next word follows. -/
def State.result (s : State) (d : Fin 32) (v : Word) : State := (s.setG d v).advance

/-- A word whose result goes to p[d]. -/
def State.resultP (s : State) (d : Fin 8) (v : Bool) : State := (s.setP d v).advance

/-- The shift amount g[b][5:0] (03 R73). -/
def shamt (b : Word) : Nat := b.toNat % 64

/-- Signed truncated quotient; by zero all ones; -2^63 by -1 wraps to -2^63 (03 R74). -/
def divS (a b : Word) : Word := if b = 0 then BitVec.allOnes 64 else wordOfInt (a.toInt.tdiv b.toInt)

/-- Unsigned quotient; by zero all ones (03 R74). -/
def divU (a b : Word) : Word := if b = 0 then BitVec.allOnes 64 else BitVec.ofNat 64 (a.toNat / b.toNat)

/-- Signed remainder g[a] - g[b] × Trunc(g[a] / g[b]); by zero g[a]; -2^63 by -1 gives 0 (03 R74). -/
def remS (a b : Word) : Word := if b = 0 then a else wordOfInt (a.toInt - b.toInt * a.toInt.tdiv b.toInt)

/-- Unsigned remainder; by zero g[a] (03 R74). -/
def remU (a b : Word) : Word := if b = 0 then a else BitVec.ofNat 64 (a.toNat % b.toNat)

/-- A sum or difference clamped to the signed 64-bit range (03 R73). -/
def clampWord (v : Int) : Word := wordOfInt (clampInt (-9223372036854775808) 9223372036854775807 v)

/-- Leading zero bits of a word (03 R73). -/
def clzWord (a : Word) : Nat := 64 - bitLen a.toNat

/-- Trailing zero bits of a word, 64 for zero (03 R73). -/
def ctzWord (a : Word) : Nat := ((upto 64).takeWhile fun i => !a.getLsbD i).length

/-- One bits of a word (03 R73). -/
def popcWord (a : Word) : Nat := ((upto 64).filter fun i => a.getLsbD i).length

/-- The linear index of packed coordinates over packed extents (03 R76). -/
def linWord (c e : Word) : Nat :=
  coord c 0 + extent e 0 * (coord c 1 + extent e 1 * (coord c 2 + extent e 2 * coord c 3))

/-- A packed word with coordinate field i replaced (03 R76). -/
def pkWord (a b : Word) (i : Nat) : Word :=
  BitVec.ofNat 64 (a.toNat - coord a i * 2 ^ (16 * i) + coord b 0 * 2 ^ (16 * i))

/-! ## Major opcode 0x01 (03 R73) -/

/-- `add: the wrapped sum` (03 R73). -/
def execAdd (d a b : Fin 32) (s : State) : Res := .next (s.result d (s.g a + s.g b))

/-- `sub: the wrapped difference` (03 R73). -/
def execSub (d a b : Fin 32) (s : State) : Res := .next (s.result d (s.g a - s.g b))

/-- `and` (03 R73). -/
def execAnd (d a b : Fin 32) (s : State) : Res := .next (s.result d (s.g a &&& s.g b))

/-- `or` (03 R73). -/
def execOr (d a b : Fin 32) (s : State) : Res := .next (s.result d (s.g a ||| s.g b))

/-- `xor` (03 R73). -/
def execXor (d a b : Fin 32) (s : State) : Res := .next (s.result d (s.g a ^^^ s.g b))

/-- `andn: g[a] AND NOT g[b]` (03 R73). -/
def execAndn (d a b : Fin 32) (s : State) : Res := .next (s.result d (s.g a &&& ~~~(s.g b)))

/-- `shl by g[b][5:0]` (03 R73). -/
def execShl (d a b : Fin 32) (s : State) : Res := .next (s.result d (s.g a <<< shamt (s.g b)))

/-- `shr by g[b][5:0], logical` (03 R73). -/
def execShr (d a b : Fin 32) (s : State) : Res := .next (s.result d (s.g a >>> shamt (s.g b)))

/-- `sra by g[b][5:0], arithmetic` (03 R73). -/
def execSra (d a b : Fin 32) (s : State) : Res := .next (s.result d ((s.g a).sshiftRight (shamt (s.g b))))

/-- `mul: the low 64 bits of the product` (03 R73). -/
def execMul (d a b : Fin 32) (s : State) : Res := .next (s.result d (s.g a * s.g b))

/-- `mulh: bits [127:64] of the signed product` (03 R73). -/
def execMulh (d a b : Fin 32) (s : State) : Res := .next (s.result d (wordOfInt ((s.g a).toInt * (s.g b).toInt / 18446744073709551616)))

/-- `mulhu: bits [127:64] of the unsigned product` (03 R73). -/
def execMulhu (d a b : Fin 32) (s : State) : Res := .next (s.result d (BitVec.ofNat 64 ((s.g a).toNat * (s.g b).toNat / 18446744073709551616)))

/-- `div, R74` (03 R73). -/
def execDiv (d a b : Fin 32) (s : State) : Res := .next (s.result d (divS (s.g a) (s.g b)))

/-- `divu, R74` (03 R73). -/
def execDivu (d a b : Fin 32) (s : State) : Res := .next (s.result d (divU (s.g a) (s.g b)))

/-- `rem, R74` (03 R73). -/
def execRem (d a b : Fin 32) (s : State) : Res := .next (s.result d (remS (s.g a) (s.g b)))

/-- `remu, R74` (03 R73). -/
def execRemu (d a b : Fin 32) (s : State) : Res := .next (s.result d (remU (s.g a) (s.g b)))

/-- `min: the signed smaller` (03 R73). -/
def execMin (d a b : Fin 32) (s : State) : Res := .next (s.result d (if (s.g a).toInt ≤ (s.g b).toInt then s.g a else s.g b))

/-- `max: the signed larger` (03 R73). -/
def execMax (d a b : Fin 32) (s : State) : Res := .next (s.result d (if (s.g a).toInt ≤ (s.g b).toInt then s.g b else s.g a))

/-- `minu: the unsigned smaller` (03 R73). -/
def execMinu (d a b : Fin 32) (s : State) : Res := .next (s.result d (if (s.g a).toNat ≤ (s.g b).toNat then s.g a else s.g b))

/-- `maxu: the unsigned larger` (03 R73). -/
def execMaxu (d a b : Fin 32) (s : State) : Res := .next (s.result d (if (s.g a).toNat ≤ (s.g b).toNat then s.g b else s.g a))

/-- `adds: the signed sum clamped` (03 R73). -/
def execAdds (d a b : Fin 32) (s : State) : Res := .next (s.result d (clampWord ((s.g a).toInt + (s.g b).toInt)))

/-- `subs: the signed difference clamped` (03 R73). -/
def execSubs (d a b : Fin 32) (s : State) : Res := .next (s.result d (clampWord ((s.g a).toInt - (s.g b).toInt)))

/-- `clz` (03 R73). -/
def execClz (d a : Fin 32) (s : State) : Res := .next (s.result d (BitVec.ofNat 64 (clzWord (s.g a))))

/-- `ctz` (03 R73). -/
def execCtz (d a : Fin 32) (s : State) : Res := .next (s.result d (BitVec.ofNat 64 (ctzWord (s.g a))))

/-- `popc` (03 R73). -/
def execPopc (d a : Fin 32) (s : State) : Res := .next (s.result d (BitVec.ofNat 64 (popcWord (s.g a))))

/-- `sxt.b` (03 R73). -/
def execSxtB (d a : Fin 32) (s : State) : Res := .next (s.result d (((s.g a).setWidth 8).signExtend 64))

/-- `sxt.h` (03 R73). -/
def execSxtH (d a : Fin 32) (s : State) : Res := .next (s.result d (((s.g a).setWidth 16).signExtend 64))

/-- `sxt.w` (03 R73). -/
def execSxtW (d a : Fin 32) (s : State) : Res := .next (s.result d (((s.g a).setWidth 32).signExtend 64))

/-- `zxt.b` (03 R73). -/
def execZxtB (d a : Fin 32) (s : State) : Res := .next (s.result d (((s.g a).setWidth 8).setWidth 64))

/-- `zxt.h` (03 R73). -/
def execZxtH (d a : Fin 32) (s : State) : Res := .next (s.result d (((s.g a).setWidth 16).setWidth 64))

/-- `zxt.w` (03 R73). -/
def execZxtW (d a : Fin 32) (s : State) : Res := .next (s.result d (((s.g a).setWidth 32).setWidth 64))

/-! ## Immediates (03 R75) -/

/-- `addi: g[a] + SignExtend(imm16)` (03 R75). -/
def execAddi (d a : Fin 32) (i : BitVec 16) (s : State) : Res := .next (s.result d (s.g a + sext16 i))

/-- `andi, zero-extended` (03 R75). -/
def execAndi (d a : Fin 32) (i : BitVec 16) (s : State) : Res := .next (s.result d (s.g a &&& i.setWidth 64))

/-- `ori, zero-extended` (03 R75). -/
def execOri (d a : Fin 32) (i : BitVec 16) (s : State) : Res := .next (s.result d (s.g a ||| i.setWidth 64))

/-- `xori, zero-extended` (03 R75). -/
def execXori (d a : Fin 32) (i : BitVec 16) (s : State) : Res := .next (s.result d (s.g a ^^^ i.setWidth 64))

/-- `shl by an immediate` (03 R75). -/
def execShlImmediate (d a : Fin 32) (n : BitVec 6) (s : State) : Res := .next (s.result d (s.g a <<< n.toNat))

/-- `shr by an immediate` (03 R75). -/
def execShrImmediate (d a : Fin 32) (n : BitVec 6) (s : State) : Res := .next (s.result d (s.g a >>> n.toNat))

/-- `sra by an immediate` (03 R75). -/
def execSraImmediate (d a : Fin 32) (n : BitVec 6) (s : State) : Res := .next (s.result d ((s.g a).sshiftRight n.toNat))

/-- `lhi`: SignExtend(imm16) × 65,536 (03 R75). -/
def execLhi (d : Fin 32) (i : BitVec 16) (s : State) : Res := .next (s.result d (sext16 i <<< 16))

/-! ## Addresses and coordinates (03 R76) -/

/-- `lea`: g[a] + g[b] × 2^sc (03 R76). -/
def execLea (d a b : Fin 32) (sc : BitVec 3) (s : State) : Res := .next (s.result d (s.eaIndex a b sc))

/-- `lin` (03 R76). -/
def execLin (d a b : Fin 32) (s : State) : Res := .next (s.result d (BitVec.ofNat 64 (linWord (s.g a) (s.g b))))

/-- `pk`: field i of g[a] becomes g[b][15:0] (03 R76). -/
def execPk (d a b : Fin 32) (i : BitVec 2) (s : State) : Res := .next (s.result d (pkWord (s.g a) (s.g b) i.toNat))

/-- `xk`: field i of g[a], zero-extended (03 R76). -/
def execXk (d a : Fin 32) (i : BitVec 2) (s : State) : Res := .next (s.result d (BitVec.ofNat 64 (coord (s.g a) i.toNat)))

/-! ## Compares (03 R77) -/

/-- `cmp.eq` (03 R77). -/
def execCmpEq (p : Fin 8) (a b : Fin 32) (s : State) : Res := .next (s.resultP p (Cond.eq.holds (s.g a) (s.g b)))

/-- `cmp.ne` (03 R77). -/
def execCmpNe (p : Fin 8) (a b : Fin 32) (s : State) : Res := .next (s.resultP p (Cond.ne.holds (s.g a) (s.g b)))

/-- `cmp.lt` (03 R77). -/
def execCmpLt (p : Fin 8) (a b : Fin 32) (s : State) : Res := .next (s.resultP p (Cond.lt.holds (s.g a) (s.g b)))

/-- `cmp.ge` (03 R77). -/
def execCmpGe (p : Fin 8) (a b : Fin 32) (s : State) : Res := .next (s.resultP p (Cond.ge.holds (s.g a) (s.g b)))

/-- `cmp.ltu` (03 R77). -/
def execCmpLtu (p : Fin 8) (a b : Fin 32) (s : State) : Res := .next (s.resultP p (Cond.ltu.holds (s.g a) (s.g b)))

/-- `cmp.geu` (03 R77). -/
def execCmpGeu (p : Fin 8) (a b : Fin 32) (s : State) : Res := .next (s.resultP p (Cond.geu.holds (s.g a) (s.g b)))

/-- The immediate of `cmpi`, sign-extended from 13 bits (03 R77). -/
def sext13 (i : BitVec 13) : Word := i.signExtend 64

/-- `cmpi.eq` (03 R77). -/
def execCmpiEq (a : Fin 32) (p : Fin 8) (i : BitVec 13) (s : State) : Res :=
  .next (s.resultP p (Cond.eq.holds (s.g a) (sext13 i)))

/-- `cmpi.ne` (03 R77). -/
def execCmpiNe (a : Fin 32) (p : Fin 8) (i : BitVec 13) (s : State) : Res :=
  .next (s.resultP p (Cond.ne.holds (s.g a) (sext13 i)))

/-- `cmpi.lt` (03 R77). -/
def execCmpiLt (a : Fin 32) (p : Fin 8) (i : BitVec 13) (s : State) : Res :=
  .next (s.resultP p (Cond.lt.holds (s.g a) (sext13 i)))

/-- `cmpi.ge` (03 R77). -/
def execCmpiGe (a : Fin 32) (p : Fin 8) (i : BitVec 13) (s : State) : Res :=
  .next (s.resultP p (Cond.ge.holds (s.g a) (sext13 i)))

/-- `cmpi.ltu` (03 R77). -/
def execCmpiLtu (a : Fin 32) (p : Fin 8) (i : BitVec 13) (s : State) : Res :=
  .next (s.resultP p (Cond.ltu.holds (s.g a) (sext13 i)))

/-- `cmpi.geu` (03 R77). -/
def execCmpiGeu (a : Fin 32) (p : Fin 8) (i : BitVec 13) (s : State) : Res :=
  .next (s.resultP p (Cond.geu.holds (s.g a) (sext13 i)))

/-! ## Selection and predicates (03 R78, R79) -/

/-- `sel`: g[a] where p[k] is true, else g[b] (03 R78). -/
def execSel (d a b : Fin 32) (k : Fin 8) (s : State) : Res := .next (s.result d (if s.p k then s.g a else s.g b))

/-- `sel.n`: g[a] where p[k] is false, else g[b] (03 R78). -/
def execSelN (d a b : Fin 32) (k : Fin 8) (s : State) : Res := .next (s.result d (if s.p k then s.g b else s.g a))

/-- `pand` (03 R79). -/
def execPand (d a b : Fin 8) (s : State) : Res := .next (s.resultP d (s.p a && s.p b))

/-- `por` (03 R79). -/
def execPor (d a b : Fin 8) (s : State) : Res := .next (s.resultP d (s.p a || s.p b))

/-- `pxor` (03 R79). -/
def execPxor (d a b : Fin 8) (s : State) : Res := .next (s.resultP d (s.p a != s.p b))

/-- `pandn` (03 R79). -/
def execPandn (d a b : Fin 8) (s : State) : Res := .next (s.resultP d (s.p a && !s.p b))

/-- `porn` (03 R79). -/
def execPorn (d a b : Fin 8) (s : State) : Res := .next (s.resultP d (s.p a || !s.p b))

/-- `ptog`: p7 to p0 into the low bits of g[d] (03 R79). -/
def execPtog (d : Fin 32) (s : State) : Res := .next (s.result d (BitVec.ofNat 64 s.predWord))

/-- p1 to p7 from bits 1 to 7 of a word (03 R79). -/
def State.setPreds (s : State) (v : Word) : State :=
  s.setFc { s.fc with p := s.fc.p.mapIdx fun i b => if i = 0 then b else v.getLsbD i }

/-- `gtop`: p1 to p7 from g[a][1] to g[a][7] (03 R79). -/
def execGtop (a : Fin 32) (s : State) : Res := .next (s.setPreds (s.g a)).advance

end Sys2Proof.Machine
end

