-- ==== Sys2Proof/Machine/Float.lean ====
section
/-!
DEFINITION. Words in memory as numbers: the floating and integer formats (07 R210 to R212), exact sums and products of
them, rounding to nearest even (07 R220), the fp32 atomic sum (11 R311) and the rotary stage (05 R148).
-/
namespace Sys2Proof.Machine

/-! ## Formats (07 R210, R211) -/

/-- A floating format: widths of exponent and fraction, and whether all ones in the exponent mean infinity and NaN. -/
structure FloatFmt where
  ebits : Nat
  fbits : Nat
  ieee : Bool
  deriving DecidableEq, Repr

/-- binary32 -/
def fp32 : FloatFmt := ⟨8, 23, true⟩

/-- The floating formats by the codes of 05 R138. -/
def FloatFmt.of : Nat → Option FloatFmt
  | 0 => some fp32
  | 1 => some ⟨5, 10, true⟩
  | 2 => some ⟨8, 7, true⟩
  | 3 => some ⟨4, 3, false⟩
  | 4 => some ⟨5, 2, true⟩
  | _ => none

/-- Bits of an element by format code (05 R138, 07 R210, R211). -/
def fmtBits : Nat → Nat
  | 0 => 32
  | 1 => 16
  | 2 => 16
  | 3 => 8
  | 4 => 8
  | 5 => 32
  | 6 => 16
  | 7 => 8
  | 8 => 4
  | 9 => 8
  | _ => 8

/-- A format code that names a format (05 R138). -/
def fmtKnown (f : Nat) : Bool := f ≤ 9

/-- The precision p (07 R210). -/
def FloatFmt.prec (f : FloatFmt) : Nat := f.fbits + 1

/-- The bias. -/
def FloatFmt.bias (f : FloatFmt) : Int := 2 ^ (f.ebits - 1) - 1

/-- The exponent of the smallest normal number. -/
def FloatFmt.emin (f : FloatFmt) : Int := 1 - f.bias

/-- The sign bit's place. -/
def FloatFmt.signAt (f : FloatFmt) : Nat := f.ebits + f.fbits

/-- The default NaN (07 R212). -/
def FloatFmt.nan (f : FloatFmt) : Nat :=
  if f.ieee then (2 ^ f.ebits - 1) * 2 ^ f.fbits + 2 ^ (f.fbits - 1) else 2 ^ f.signAt - 1

/-- The infinity of a sign; e4m3 has none and writes its NaN of that sign (07 R212, R221). -/
def FloatFmt.inf (f : FloatFmt) (neg : Bool) : Nat :=
  bit neg * 2 ^ f.signAt + (if f.ieee then (2 ^ f.ebits - 1) * 2 ^ f.fbits else 2 ^ f.signAt - 1)

/-- Exponent of the last place of the largest finite number, and its significand (07 R210). -/
def FloatFmt.top (f : FloatFmt) : Int × Nat :=
  if f.ieee then (f.bias - f.fbits, 2 ^ f.prec - 1) else (f.bias + 1 - f.fbits, 2 ^ f.prec - 2)

/-- A number as words stand for it: NaN, an infinity, or sign, significand and exponent of its last place. -/
inductive Fl where
  | nan
  | inf (neg : Bool)
  | fin (neg : Bool) (m : Nat) (e : Int)
  deriving DecidableEq, Repr

/-- The value of a floating word (07 R210). -/
def unpackFl (f : FloatFmt) (w : Nat) : Fl :=
  let neg := bitOf w f.signAt
  let e := bitsOf w (f.signAt - 1) f.fbits
  let frac := w % 2 ^ f.fbits
  if e = 2 ^ f.ebits - 1 && f.ieee then (if frac = 0 then .inf neg else .nan)
  else if e = 2 ^ f.ebits - 1 && frac = 2 ^ f.fbits - 1 then .nan
  else if e = 0 then .fin neg frac (f.emin - f.fbits)
  else .fin neg (2 ^ f.fbits + frac) ((e : Int) - f.bias - f.fbits)

/-- The signed value of an integer word (07 R211). -/
def unpackInt (fmt w : Nat) : Int := if fmt = 9 then (w % 256 : Nat) else signed (fmtBits fmt) w

/-! ## Exact numbers and rounding -/

/-- A quotient by 2^k rounded to nearest, ties to even. -/
def rneShift (m k : Nat) : Nat :=
  let q := m / 2 ^ k
  let r := m % 2 ^ k
  if 2 ^ k < 2 * r || (2 * r = 2 ^ k && q % 2 = 1) then q + 1 else q

/-- A quotient rounded to nearest, ties to even. -/
def rneDiv (m d : Nat) : Nat :=
  let q := m / d
  let r := m % d
  if d < 2 * r || (2 * r = d && q % 2 = 1) then q + 1 else q

/-- m × 2^e rounded to the format without an upper limit: significand below 2^p and exponent of its last place (07
R220). -/
def roundFmt (f : FloatFmt) (m : Nat) (e : Int) : Nat × Int :=
  if m = 0 then (0, f.emin - f.fbits)
  else
    let q := max ((bitLen m : Int) + e - f.prec) (f.emin - f.fbits)
    if q ≤ e then (m * 2 ^ (e - q).toNat, q)
    else
      let r := rneShift m (q - e).toNat
      if r = 2 ^ f.prec then (2 ^ (f.prec - 1), q + 1) else (r, q)

/-- A rounded number lies within the largest finite one (07 R220). -/
def fitsFmt (f : FloatFmt) (r : Nat × Int) : Bool :=
  r.1 = 0 || r.2 < f.top.1 || (r.2 = f.top.1 && r.1 ≤ f.top.2)

/-- The word of a rounded number that fits (07 R210). -/
def packFl (f : FloatFmt) (neg : Bool) (r : Nat × Int) : Nat :=
  bit neg * 2 ^ f.signAt +
    (if r.1 < 2 ^ f.fbits then r.1 else (r.2 + f.fbits + f.bias).toNat * 2 ^ f.fbits + (r.1 - 2 ^ f.fbits))

/-- The largest finite number of a sign. -/
def FloatFmt.maxWord (f : FloatFmt) (neg : Bool) : Nat := packFl f neg (f.top.2, f.top.1)

/-- Rounded to a word, an overflow to infinity (05 R148). -/
def roundFl (f : FloatFmt) : Fl → Nat
  | .nan => f.nan
  | .inf neg => f.inf neg
  | .fin neg m e =>
    let r := roundFmt f m e
    if fitsFmt f r then packFl f neg r else f.inf neg

/-- A number as an integer times a power of two; NaN and infinities have none. -/
def Fl.exact : Fl → Option (Int × Int)
  | .fin neg m e => some (if neg then -(m : Int) else m, e)
  | _ => none

/-- The sum of m × 2^e and n × 2^g, exact. -/
def dyAdd (a b : Int × Int) : Int × Int :=
  if a.2 ≤ b.2 then (a.1 + b.1 * 2 ^ (b.2 - a.2).toNat, a.2) else (a.1 * 2 ^ (a.2 - b.2).toNat + b.1, b.2)

/-- The order of two exact numbers. -/
def dyLt (a b : Int × Int) : Bool := (dyAdd a (-b.1, b.2)).1 < 0

/-- An exact number as a number without a sign of zero. -/
def Fl.ofExact (a : Int × Int) : Fl := .fin (a.1 < 0) a.1.natAbs a.2

/-- IEEE 754 multiplication without rounding. -/
def Fl.mul : Fl → Fl → Fl
  | .nan, _ => .nan
  | _, .nan => .nan
  | .inf a, .inf b => .inf (a != b)
  | .inf a, .fin b m _ => if m = 0 then .nan else .inf (a != b)
  | .fin a m _, .inf b => if m = 0 then .nan else .inf (a != b)
  | .fin a m e, .fin b n g => .fin (a != b) (m * n) (e + g)

/-- IEEE 754 addition without rounding: an exact zero is +0 unless both terms are -0. -/
def Fl.add : Fl → Fl → Fl
  | .nan, _ => .nan
  | _, .nan => .nan
  | .inf a, .inf b => if a = b then .inf a else .nan
  | .inf a, .fin _ _ _ => .inf a
  | .fin _ _ _, .inf b => .inf b
  | .fin a m e, .fin b n g =>
    let x := dyAdd (if a then -(m : Int) else m, e) (if b then -(n : Int) else n, g)
    if x.1 = 0 then .fin (a && b && m = 0 && n = 0) 0 x.2 else Fl.ofExact x

/-- The negation of a number. -/
def Fl.neg : Fl → Fl
  | .nan => .nan
  | .inf a => .inf (!a)
  | .fin a m e => .fin (!a) m e

/-! ## The fp32 atomic sum (11 R311) -/

/-- m + v in binary32, rounded to nearest even, with the flags it raises. -/
def faddWord (m v : Nat) : Nat × FpFlags :=
  let a := unpackFl fp32 m
  let b := unpackFl fp32 v
  if a = .nan || b = .nan then (0x7FC00000, ⟨true, false, false, false⟩)
  else match a.add b with
    | .nan => (0x7FC00000, ⟨true, false, false, false⟩)
    | .inf neg => (fp32.inf neg, ⟨false, false, false, false⟩)
    | .fin neg n e =>
      let r := roundFmt fp32 n e
      if fitsFmt fp32 r then
        let same := (dyAdd (n, e) (-(r.1 : Int), r.2)).1 = 0
        (packFl fp32 neg r, ⟨false, false, false, !same⟩)
      else (fp32.inf neg, ⟨false, true, false, true⟩)

/-! ## The rotary stage (05 R148) -/

/-- 2π × 2^200, rounded down (log 12). -/
def twoPi : Nat := 10096689509235987743946820282484873672429286842977325943070736

/-- Terms of the cosine and sine series from term n on, in units of 2^-200: fuel, n, and x^n / n! so far (log 12). -/
def trigTerms (x : Nat) : Nat → Nat → Nat → Int × Int
  | 0, _, _ => (0, 0)
  | fuel + 1, n, t =>
    let rest := trigTerms x fuel (n + 1) (t * x / 2 ^ 200 / (n + 1))
    match n % 4 with
    | 0 => (rest.1 + t, rest.2)
    | 1 => (rest.1, rest.2 + t)
    | 2 => (rest.1 - t, rest.2)
    | _ => (rest.1, rest.2 - t)

/-- Cosine and sine of r / 2^32 of a turn below a quarter turn, in units of 2^-200. -/
def trigQuarter (r : Nat) : Int × Int :=
  if r = 0 then (2 ^ 200, 0) else trigTerms (twoPi * r / 2 ^ 32) 60 0 (2 ^ 200)

/-- RoundNearestEven32 of the cosine and sine of a / 2^32 of a turn (05 R148). -/
def cosSin (a : Nat) : Fl × Fl :=
  let t := trigQuarter (a % 2 ^ 30)
  let cs := match a / 2 ^ 30 % 4 with
    | 0 => t
    | 1 => (-t.2, t.1)
    | 2 => (-t.1, -t.2)
    | _ => (t.2, -t.1)
  let r (v : Int) : Fl := unpackFl fp32 (roundFl fp32 (.fin (v < 0) v.natAbs (-200)))
  (r cs.1, r cs.2)

/-- A pair of elements rotated by angle a, in a floating format (05 R148). -/
def rotatePair (f : FloatFmt) (a x y : Nat) : Nat × Nat :=
  let cs := cosSin a
  let x := unpackFl f x
  let y := unpackFl f y
  let once (v : Fl) : Nat := roundFl f (unpackFl fp32 (roundFl fp32 v))
  (once ((x.mul cs.1).add (y.mul cs.2).neg), once ((x.mul cs.2).add (y.mul cs.1)))

end Sys2Proof.Machine
end

