-- ==== Sys2Proof/Machine/Tensor.lean ====
section
/-!
DEFINITION. Tensor memory: tiles, plates and frames (05 R138 to R144), versions and the commit of a phase (05 R146, 11 R299
to R302), the lease check (04 R124) and the elements of tiles with their rotation (05 R148).
-/
namespace Sys2Proof.Machine

/-! ## Geometry (05 R138 to R140) -/

/-- Columns in a tile: 64 bytes of elements (02 R40). -/
def tileWidth (fmt : Nat) : Nat := 512 / fmtBits fmt

/-- Tile rows TR. -/
def Tensor.tr (t : Tensor) : Nat := ceilDiv t.rows 16

/-- Tile columns TC. -/
def Tensor.tc (t : Tensor) : Nat := ceilDiv t.cols (tileWidth t.fmt)

/-- The number of a tile under the tensor's layout (05 R139). -/
def Tensor.tileNum (t : Tensor) (r c : Nat) : Nat := match t.layout with
  | 0 => r * t.tc + c
  | 1 => c * t.tr + r
  | _ => r * t.tc + Nat.xor c (r % 8)

/-- A tile lies in the tensor. -/
def Tensor.hasTile (t : Tensor) (r c : Nat) : Bool := r < t.tr && c < t.tc

/-- The plate of a tile (05 R139). -/
def Tensor.plateOf (t : Tensor) (r c : Nat) : Nat := t.tileNum r c / 64

/-- The tensor of an identifier. -/
def Context.tensor (c : Context) (id : Nat) : Option Tensor := c.tensors.find? fun t => t.id = id

/-- An atlas entry that nothing has written: absent (05 R141). -/
def AtlasEntry.reset : AtlasEntry := ⟨0, 17, 0, false, false, 0⟩

/-- The entry of a plate now. -/
def Context.entryNow (c : Context) (t p : Nat) : AtlasEntry := (look c.atlas (t, p)).getD AtlasEntry.reset

/-- The entry of a plate as a latch at an epoch sees it (05 R156): the old entry of the earliest change after it. -/
def Context.entryAt (c : Context) (t p latch : Nat) : AtlasEntry :=
  let later := (c.oldAtlas.filter fun e => e.1 = (t, p) && latch < e.2.1).map fun e => e.2
  match later with
  | [] => c.entryNow t p
  | e :: r => (r.foldl (fun b x => if x.1 < b.1 then x else b) e).2

/-- Bytes of one stack (01 R14). -/
def stackSize : Nat := 51539607552

/-- The die that carries a stack: stack dx stands on die (dx, 0), stack 8 + dx on die (dx, 3) (01 R14). -/
def stackDie (n : Nat) : Nat := if n < 8 then n else 24 + (n - 8)

/-- The stack of a die; the dies of the middle rows carry none (01 R14). -/
def dieStack (d : Nat) : Option Nat := if d < 8 then some d else if 24 ≤ d && d < 32 then some (d - 16) else none

/-- The stack that holds a byte of device memory. -/
def stackOf (a : Nat) : Nat := a / stackSize

/-- Where a plate's line begins (05 R142): in its stack, whose bytes begin at stack × 48 GiB (log 11), or at a virtual
address of the context. -/
inductive FrameAt where
  | at (l : Loc)
  | none
  | nowhere (a : Nat)
  deriving DecidableEq, Repr

/-- The location of a line of a plate. -/
def Context.frameLine (c : Context) (e : AtlasEntry) (line : Nat) : FrameAt :=
  let off := e.frame * 65536 + line * 1024
  if e.res ≤ 15 then (if off < stackSize then .at ⟨false, e.res * stackSize + off⟩ else .nowhere off)
  else match c.pageTranslate off .load with
    | .ok l => .at l
    | .nowhere a => .nowhere a
    | _ => .none

/-! ## Padding (05 R140) -/

/-- Bits of a tile row that lie in the tensor. -/
def Tensor.rowBits (t : Tensor) (r c i : Nat) : Nat :=
  if t.rows ≤ 16 * r + i then 0 else min (tileWidth t.fmt) (t.cols - c * tileWidth t.fmt) * fmtBits t.fmt

/-- Byte b of a tile line, with b's padding taken from another byte. -/
def Tensor.maskByte (t : Tensor) (r c b : Nat) (v pad : Byte) : Byte :=
  let n := t.rowBits r c (b / 64)
  let at8 := 8 * (b % 64)
  if at8 + 8 ≤ n then v
  else if n ≤ at8 then pad
  else (v &&& 0x0F) ||| (pad &&& 0xF0)

/-- A line's bytes with padding reading 0 (05 R140). -/
def Tensor.mask (t : Tensor) (r c : Nat) (bs : List Byte) : List Byte :=
  bs.mapIdx fun b v => t.maskByte r c b v 0

/-! ## Versions (05 R146) -/

/-- The version of a tile that was current at an epoch; none: the frame's contents. -/
def versionAt (h : List TileVersion) (epoch : Nat) : Option TileVersion :=
  h.foldl (fun b v => if v.since ≤ epoch && (match b with
    | some w => w.since ≤ v.since
    | none => true) then some v else b) none

/-- What a tensor access can meet: a failure reason with the plate it met (05 R155), a plate outside the lease (04 R124),
a tile that cannot take another version yet (05 R146), or an address with no memory. -/
inductive TErr where
  | fail (reason tensor plate : Nat)
  | lease (tensor row col : Nat)
  | hold
  | nowhere (a : Nat)
  deriving DecidableEq, Repr

/-- A line of a tile as memory holds its frame. -/
def State.frameBytes (s : State) (x : Nat) (e : AtlasEntry) (t p line : Nat) : Except TErr (List Byte) :=
  match (s.ctx x).frameLine e line with
  | .at l => .ok (s.seenBytes x l 1024)
  | .none => .error (.fail 0x21 t p)
  | .nowhere a => .error (.nowhere a)

/-- The tile of a key as a latch sees it, without any lease check. -/
def State.tileAt (s : State) (x : Nat) (t : Tensor) (r c latch : Nat) : Except TErr (List Byte) :=
  let cx := s.ctx x
  let p := t.plateOf r c
  let e := cx.entryAt t.id p latch
  match versionAt ((look cx.tiles (t.id, r, c)).getD []) latch with
  | some v => .ok v.data
  | none => s.frameBytes x e t.id p (t.tileNum r c % 64)

/-- The plate may be reached by a firing: it is leased (04 R124). The failure after the firing's end is reason 0x2F. -/
def Firing.leaseCheck (f : Firing) (t : Tensor) (row col : Nat) : Option TErr :=
  let p := t.plateOf row col
  if f.lease.contains (t.id, p) then none
  else if f.ended then some (.fail 0x2F t.id p) else some (.lease t.id row col)

/-- A walk's result for an entry: it fails on a plate that the tensor has not, a reserved residency or an absent plate
(05 R143). -/
def walkFails (t : Tensor) (p : Nat) (e : AtlasEntry) : Bool := t.plates ≤ p || 17 ≤ e.res

/-- A tile line as a firing and its commands read it: the firing's writes of the phase, else its latch (11 R302); padding
reads 0, and a tile outside the tensor is padding (05 R140). -/
def State.readTile (s : State) (x fid : Nat) (t : Tensor) (row col : Nat) : Except TErr (List Byte) :=
  let c := s.ctx x
  let f := c.firing fid
  if !t.hasTile row col then .ok (List.replicate 1024 0)
  else match f.leaseCheck t row col with
    | some e => .error e
    | none =>
      let p := t.plateOf row col
      let e := c.entryAt t.id p f.latch
      if walkFails t p e then .error (.fail 0x23 t.id p)
      else if !e.rd then .error (.fail 0x22 t.id p)
      else match look f.writes (t.id, row, col) with
        | some w => .ok (t.mask row col w.2)
        | none => match s.tileAt x t row col f.latch with
          | .ok bs => .ok (t.mask row col bs)
          | .error r => .error r

/-- Epochs that live latches stand at: firings not retired and the datums (05 R146, 13 R363). -/
def Context.latches (c : Context) : List Nat :=
  (c.firings.filter fun e => !e.2.retired).map (fun e => e.2.latch) ++
    (match c.datum with
    | some d => [d.epoch]
    | none => []) ++
    match c.pending with
    | some d => [d.epoch]
    | none => []

/-- Latches of the address generators of a context's cores (05 R156). -/
def State.genLatches (s : State) (x : Nat) : List Nat :=
  s.cores.flatMap fun e => if s.cxId e.1 = x then e.2.fabric.latches.map fun l => l.2 else []

/-- Epochs at which versions of a tile are read: by the latches, and through pins on the tile (05 R146, R147). -/
def Context.readers (c : Context) (k : TileKey) : List Nat := c.latches ++ (c.pins.filter fun p => p.tile = k).filterMap fun p => p.latch

/-- Versions that stay live: the newest, and those a latch or a pin reads (05 R146, R147). -/
def liveVersions (h : List TileVersion) (readers : List Nat) (now : Nat) : List TileVersion :=
  h.filter fun v => versionAt h now = some v || readers.any fun e => versionAt h e = some v

/-- A firing that started before an atlas change and whose lease holds one of its plates counts as latched on an old entry, whatever
it has done since (05 R157 step 4). -/
def AtlasChange.latched (r : AtlasChange) (f : Firing) : Bool := !f.retired && f.born < r.epoch && f.lease.any fun p => r.plates.contains p

/-- A firing latched on an old entry holds a change back, the issuing firing excepted (05 R157 step 4). -/
def AtlasChange.holds (r : AtlasChange) (fid : Nat) (f : Firing) : Bool := fid ≠ r.fid && r.latched f

/-- An atlas change still waits for a token or for a firing latched on an old entry (05 R157 step 4). -/
def Context.changeOpen (c : Context) (r : AtlasChange) : Bool := r.tokens ≠ [] || c.firings.any fun e => r.holds e.1 e.2

/-- Versions that nothing reads any more are released; a change that no `relatch` waits for is over once it is complete. -/
def State.trim (s : State) (x : Nat) : State :=
  let keep := (s.ctx x).latches ++ s.genLatches x
  s.modCtx x fun c => { c with
    tiles := c.tiles.map fun e => (e.1, liveVersions e.2 (c.readers e.1) c.epoch)
    oldAtlas := c.oldAtlas.filter fun e => keep.any fun l => l < e.2.1
    changes := c.changes.filter fun r => r.owner.isSome || c.changeOpen r }

/-- The frame of a tile's plate holds a live version: the current one, or one that a latch or a pin reads (05 R146). -/
def Context.frameLive (c : Context) (k : TileKey) : Bool :=
  let h := (look c.tiles k).getD []
  h = [] || (c.readers k).any fun e => versionAt h e = none

/-- The versions of a tile's history that are live (05 R146). -/
def Context.liveHere (c : Context) (k : TileKey) : List TileVersion := liveVersions ((look c.tiles k).getD []) (c.readers k) c.epoch

/-- Live versions of a tile: those of its history, the frame's, and uncommitted ones (05 R146). -/
def Context.liveCount (c : Context) (k : TileKey) : Nat :=
  (c.liveHere k).length + bit (c.frameLive k) + (c.firings.filter fun e => (look e.2.writes k).isSome).length

/-- The number that the version in the frame of a tile's plate has: the plate's ver (05 R141, R146). -/
def Context.frameVer (c : Context) (k : TileKey) : Nat := match c.tensor k.1 with
  | some t => (c.entryNow k.1 (t.plateOf k.2.1 k.2.2)).ver
  | none => 0

/-- The number of a new version: one above the newest live one, which has the greatest (05 R146). A tag holds it modulo 8. -/
def Context.nextVer (c : Context) (k : TileKey) : Nat :=
  let live := (c.liveHere k).map (fun v => v.ver) ++ (c.firings.filterMap fun e => look e.2.writes k).map fun w => w.1
  (if c.frameLive k then c.frameVer k :: live else live).foldl max 0 + 1

/-- A firing's write to a tile: a new version that starts as a copy of the tile in the writer's latch (11 R301), changed by
u; padding keeps its bytes (05 R140), and a write outside the tensor is discarded. -/
def State.writeTile (s : State) (x fid : Nat) (t : Tensor) (row col : Nat) (u : List Byte → List Byte) : Except TErr State :=
  let c := s.ctx x
  let f := c.firing fid
  if !t.hasTile row col then .ok s
  else match f.leaseCheck t row col with
    | some e => .error e
    | none =>
      let p := t.plateOf row col
      let e := c.entryAt t.id p f.latch
      if walkFails t p e then .error (.fail 0x23 t.id p)
      else if !e.wr && !(c.entryNow t.id p).wr then .error (.fail 0x22 t.id p)
      else
        let key := (t.id, row, col)
        let new (n : Nat) (old : List Byte) : State :=
          let bs := (u old).mapIdx fun b v => t.maskByte row col b v (nth old b 0)
          s.modFiring x fid fun g => { g with writes := put g.writes key (n, bs) }
        match look f.writes key with
        | some w => .ok (new w.1 w.2)
        | none =>
          if 8 ≤ c.liveCount key then .error .hold
          else match s.tileAt x t row col f.latch with
            | .ok old => .ok (new (c.nextVer key) old)
            | .error r => .error r

/-- Versions become current in one step (11 R300), and the pins on them read them at that epoch. fid: their writer. -/
def Context.makeCurrent (c : Context) (fid : Nat) (ws : List (TileKey × Nat × List Byte)) : Context :=
  if ws = [] then c
  else
    let e := c.epoch + 1
    let tiles := ws.foldl (fun ts w => put ts w.1 ((look ts w.1).getD [] ++ [⟨e, w.2.1, w.2.2, false⟩])) c.tiles
    let pins := c.pins.map fun p =>
      if p.fid = fid && p.latch.isNone && (look ws p.tile).isSome then { p with latch := some e } else p
    { c with epoch := e, tiles := tiles, pins := pins }

/-- A firing's phase ends: its versions become current, and the firing is touched where there were any (11 R300, 13
R351). -/
def Context.endPhase (c : Context) (fid : Nat) : Context :=
  let ws := (c.firing fid).writes
  (c.makeCurrent fid ws).modFiring fid fun f => { f with writes := [], touched := f.touched || !ws.isEmpty }

/-- The firing latches afresh (11 R302). -/
def Context.relatch (c : Context) (fid : Nat) : Context := c.modFiring fid fun f => { f with latch := c.epoch }

/-! ## Rectangles (02 R40) -/

/-- A T-layout operand. -/
structure TRect where
  tensor : Nat
  rows : Nat
  cols : Nat
  row0 : Nat
  col0 : Nat
  deriving DecidableEq, Repr

/-- The rectangle of a T-layout word: extents in tiles and the origin tile (02 R40). -/
def TRect.of (w : Nat) : TRect :=
  ⟨bitsOf w 63 48, bitsOf w 47 42 + 1, bitsOf w 41 36 + 1, bitsOf w 35 18, bitsOf w 17 0⟩

/-- Tiles of a rectangle in tile-walk order: by tile rows, then by tile columns (05 R162). -/
def TRect.walk (r : TRect) (n : Nat) : Nat × Nat := (r.row0 + n / r.cols, r.col0 + n % r.cols)

/-- Tiles of a rectangle. -/
def TRect.count (r : TRect) : Nat := r.rows * r.cols

/-- Tiles of a rectangle that lie in the tensor. -/
def TRect.tiles (r : TRect) (t : Tensor) : List (Nat × Nat) :=
  ((upto r.count).map r.walk).filter fun k => t.hasTile k.1 k.2

/-- Plates that meet a rectangle. -/
def TRect.plates (r : TRect) (t : Tensor) : List (Nat × Nat) :=
  ((r.tiles t).map fun k => (t.id, t.plateOf k.1 k.2)).eraseDups

/-- Two rectangles share a tile. -/
def TRect.meets (a b : TRect) : Bool :=
  a.tensor = b.tensor && a.tensor ≠ 0 && a.row0 < b.row0 + b.rows && b.row0 < a.row0 + a.rows &&
    a.col0 < b.col0 + b.cols && b.col0 < a.col0 + a.cols

/-! ## Elements -/

/-- Element n of bytes of a format, the lower nibble first (00 R6). -/
def elemOf (fmt : Nat) (bs : List Byte) (n : Nat) : Nat :=
  if fmt = 8 then (nth bs (n / 2) 0).toNat / 16 ^ (n % 2) % 16
  else
    let k := fmtBits fmt / 8
    leNat ((bs.drop (n * k)).take k)

/-- Bytes with element n replaced. -/
def setElem (fmt : Nat) (bs : List Byte) (n v : Nat) : List Byte :=
  if fmt = 8 then updNth bs (n / 2) fun b =>
    if n % 2 = 0 then BitVec.ofNat 8 (b.toNat / 16 * 16 + v % 16) else BitVec.ofNat 8 (b.toNat % 16 + v % 16 * 16)
  else
    let k := fmtBits fmt / 8
    bs.take (n * k) ++ leBytes k v ++ bs.drop (n * k + k)

/-- The angle of a pair: (base + r) × theta (05 R148). -/
def Tensor.angle (t : Tensor) (base row pair : Nat) : Nat :=
  let p := (base + row % (1024 / t.tc)) % 2 ^ 32
  p * nth t.theta (pair % 64) 0 % 2 ^ 32

/-- A tile line after the rotary stage (05 R148). -/
def Tensor.rotate (t : Tensor) (base row col : Nat) (bs : List Byte) : List Byte :=
  match (if t.rotary then FloatFmt.of t.fmt else none) with
  | none => bs
  | some f =>
    let w := tileWidth t.fmt
    (upto (16 * (w / 2))).foldl (fun out n =>
      let i := n / (w / 2)
      let j := 2 * (n % (w / 2))
      let e := i * w + j
      let r := rotatePair f (t.angle base (16 * row + i) ((col * w + j) / 2)) (elemOf t.fmt bs e) (elemOf t.fmt bs (e + 1))
      setElem t.fmt (setElem t.fmt out e r.1) (e + 1) r.2) bs

/-- A tile line as ports, buffers and gathers receive it: read by the firing, then rotated, padding still reading 0 (05
R148). -/
def State.fetchTile (s : State) (x fid : Nat) (t : Tensor) (row col : Nat) : Except TErr (List Byte) :=
  match s.readTile x fid t row col with
  | .error e => .error e
  | .ok bs =>
    if t.rotary && t.hasTile row col then
      let c := s.ctx x
      let e := c.entryAt t.id (t.plateOf row col) (c.firing fid).latch
      .ok (t.mask row col (t.rotate e.base row col bs))
    else .ok bs

/-- One element of a tensor as a port receives it; outside the tensor's tiles it is 0 (05 R140). -/
def State.fetchElem (s : State) (x fid : Nat) (t : Tensor) (row col : Int) : Except TErr Nat :=
  let w := tileWidth t.fmt
  if row < 0 || col < 0 then .ok 0
  else
    let r := row.toNat
    let c := col.toNat
    match s.fetchTile x fid t (r / 16) (c / w) with
    | .ok bs => .ok (elemOf t.fmt bs (r % 16 * w + c % w))
    | .error e => .error e

/-- Store one element; outside the tensor's tiles it is discarded (05 R140). -/
def State.storeElem (s : State) (x fid : Nat) (t : Tensor) (row col : Int) (v : Nat) : Except TErr State :=
  let w := tileWidth t.fmt
  if row < 0 || col < 0 then .ok s
  else
    let r := row.toNat
    let c := col.toNat
    s.writeTile x fid t (r / 16) (c / w) fun bs => setElem t.fmt bs (r % 16 * w + c % w) v

end Sys2Proof.Machine
end

