-- ==== Sys2Proof/Machine/Lines.lean ====
section
/-!
DEFINITION. The tile-tagged L2 (01 R16, R23, 05 R145 to R147): home slices, the lines that stand in them, and the ways in which a
line leaves. What a version holds stands with its context; the L2 says which lines are near.
-/
namespace Sys2Proof.Machine

/-! ## Home slices (01 R16, 05 R145) -/

/-- The number of home slice j of a core: 256 to a die, 8 to a core (01 R16). -/
def homeSlice (k : CoreId) (j : Nat) : Nat := 256 * dieOf k + 8 * coreInDie k + j

/-- Core n of a rectangle in row-major order. -/
def rectCore (r : Rect) (n : Nat) : CoreId := (r.y + n / r.w) * 32 + r.x + n % r.w

/-- The hash of a tile (05 R145). -/
def tileHash (k : TileKey) : Nat := (k.1 * 0x9E3779B1 + k.2.1 * 0x85EBCA77 + k.2.2 * 0xC2B2AE3D) % 2 ^ 32

/-- The home slice of a tile among the cores of a partition (05 R145). -/
def homeOf (r : Rect) (k : TileKey) : Nat :=
  let n := tileHash k % (8 * (r.w * r.h))
  homeSlice (rectCore r (n / 8)) (n % 8)

/-- The tile of a line of linear memory: tensor 0 (05 R145). -/
def linearTile (l : Loc) : TileKey := (0, l.addr / 1024, 0)

/-- The set of its home slice that a tile lies in: 768 KiB of 12 ways are 64 sets (01 R23; log 80). -/
def setOfTile (k : TileKey) : Nat := Config.sliceSet k.1 k.2.1 k.2.2 % 64

/-- Two lines compete for the ways of one set. -/
def L2Line.mates (a b : L2Line) : Bool := a.slice = b.slice && setOfTile a.tile = setOfTile b.tile

/-! ## Which version a line is -/

/-- The tag of a version: 3 bits of its number (05 R145). -/
def verTag (n : Nat) : Nat := n % 8

/-- The number of the version that a pin holds. -/
def Context.pinVer (c : Context) (p : Pin) : Nat := match p.latch with
  | none => ((look (c.firing p.fid).writes p.tile).map fun w => w.1).getD (c.frameVer p.tile)
  | some e => ((versionAt ((look c.tiles p.tile).getD []) e).map fun v => v.ver).getD (c.frameVer p.tile)

/-- A pin stands on a line (05 R147). -/
def State.pinned (s : State) (l : L2Line) : Bool := (s.ctx l.x).pins.any fun p => p.tile = l.tile && verTag ((s.ctx l.x).pinVer p) = l.ver

/-- The number of a tile's current version. -/
def Context.currentVer (c : Context) (k : TileKey) : Nat :=
  ((versionAt ((look c.tiles k).getD []) c.epoch).map fun v => v.ver).getD (c.frameVer k)

/-- A line holds a live version that is not current: an older one that is read, or one that is being written. -/
def State.latched (s : State) (l : L2Line) : Bool :=
  let c := s.ctx l.x
  l.ver ≠ verTag (c.currentVer l.tile) && (((look c.tiles l.tile).getD []).any (fun v => verTag v.ver = l.ver) ||
    (c.firings.any fun e => ((look e.2.writes l.tile).map fun w => verTag w.1) = some l.ver) ||
    (c.frameLive l.tile && verTag (c.frameVer l.tile) = l.ver))

/-- A line holds a version that its firing has not committed: it stays. -/
def State.unfinished (s : State) (l : L2Line) : Bool :=
  (s.ctx l.x).firings.any fun e => ((look e.2.writes l.tile).map fun w => verTag w.1) = some l.ver

/-! ## Spills and write-backs (05 R146) -/

/-- A tile lies in a plate. -/
def Context.inPlate (c : Context) (p : Nat × Nat) (k : TileKey) : Bool := k.1 = p.1 && match c.tensor k.1 with
  | some t => t.plateOf k.2.1 k.2.2 = p.2
  | none => false

/-- The live versions of a tile but for the current one stand in the version area (05 R146; log 80). -/
def Context.spillOlder (c : Context) (k : TileKey) : Context :=
  let h := (look c.tiles k).getD []
  { c with tiles := put c.tiles k (h.map fun v => if versionAt h c.epoch = some v then v else { v with spilled := true }) }

/-- The current version of a tile goes back to its plate's frame, older live versions being spilled first: the frame's own contents
among them, where a latch or a pin still reads those (05 R146). -/
def State.writeBack (s : State) (x : Nat) (k : TileKey) : State :=
  let c := s.ctx x
  let h := (look c.tiles k).getD []
  match versionAt h c.epoch, c.tensor k.1 with
  | some v, some t =>
    let e := c.entryNow k.1 (t.plateOf k.2.1 k.2.2)
    match c.frameLine e (t.tileNum k.2.1 k.2.2 % 64) with
    | .at l =>
      let old : TileVersion := ⟨0, e.ver, s.seenBytes x l 1024, true⟩
      let s := s.modCtx x fun c =>
        let c := if c.frameLive k then { c with tiles := put c.tiles k (old :: h) } else c
        c.spillOlder k
      let s := s.setBytes l v.data
      (upto 16).foldl (fun t i => t.noteWrite ⟨l.onHost, l.addr / 64 + i⟩ none) s
    | _ => s
  | _, _ => s

/-- The current versions of a plate's tiles go back to its frame. -/
def State.writeBackPlate (s : State) (x : Nat) (p : Nat × Nat) : State :=
  ((s.ctx x).tiles.filter fun e => (s.ctx x).inPlate p e.1).foldl (fun t e => t.writeBack x e.1) s

/-- A line leaves the L2: a current version goes back to its frame, an older live one to the version area (05 R146). -/
def State.evictTile (s : State) (l : L2Line) : State :=
  let t := { s with l2 := s.l2.erase l }
  if l.tile.1 = 0 then t
  else if l.ver = verTag ((s.ctx l.x).currentVer l.tile) then t.writeBack l.x l.tile
  else if s.latched l then t.modCtx l.x fun c => { c with
    tiles := put c.tiles l.tile (((look c.tiles l.tile).getD []).map fun v => if verTag v.ver = l.ver then { v with spilled := true } else v) }
  else t

/-! ## Lines come and stay (05 R145) -/

/-- The line that makes room in a full set: the least recently used that no pin holds and that is no latched version; where there is
none, the least recently used older version, which spills (05 R145, R146). -/
def State.victim (s : State) (mates : List L2Line) : Option L2Line :=
  let old := mates.reverse.filter fun e => !s.pinned e && !s.unfinished e
  match old.find? fun e => !s.latched e with
  | some v => some v
  | none => old.head?

/-- A line of the L2 is used: it becomes the most recently used of its set, and comes into it where it was not (05 R145). rows: what
of a linear line is valid from here. -/
def State.touchL2 (s : State) (x : Nat) (k : TileKey) (ver : Nat) (rows : List Nat) : State :=
  match s.ctxPart x with
  | none => s
  | some p =>
    let sl := homeOf p.rect k
    match s.l2.find? fun e => e.slice = sl && e.x = x && e.tile = k && e.ver = ver with
    | some e => { s with l2 := { e with rows := rows.foldl insertNat e.rows } :: s.l2.erase e }
    | none =>
      let n : L2Line := ⟨sl, x, k, ver, rows⟩
      let mates := s.l2.filter fun e => n.mates e
      if mates.length < 12 then { s with l2 := n :: s.l2 }
      else match s.victim mates with
        | some v =>
          let s := s.evictTile v
          { s with l2 := n :: s.l2 }
        | none => s

/-- A line of device memory passes through its home slice on its way to or from an L1 or an engine: l counts 64 bytes (05 R145). -/
def State.touchLine (s : State) (x : Nat) (l : Loc) : State :=
  if l.onHost then s else s.touchL2 x (0, l.addr / 16, 0) 0 [l.addr % 16]

/-- The lines of a range of linear addresses pass through their home slices. -/
def State.touchRange (s : State) (x va n : Nat) : State :=
  (upto ((va % 64 + n + 63) / 64)).foldl (fun t i => match t.engineTranslate x (va / 64 * 64 + 64 * i) .load with
    | .ok l => t.touchLine x l.line
    | _ => t) s

/-- The number of the version of a tile that a firing reads (11 R302). -/
def Context.readVer (c : Context) (fid : Nat) (k : TileKey) : Nat :=
  let f := c.firing fid
  match look f.writes k with
  | some w => w.1
  | none => ((versionAt ((look c.tiles k).getD []) f.latch).map fun v => v.ver).getD (c.frameVer k)

/-- A tile line as an access of a firing's command reaches it in its home slice: one that is not there is filled, which counts event
0x0E where it comes from HBM (14 R413). tagged: the command's E. -/
def State.touchTile (s : State) (x fid : Nat) (t : Tensor) (row col : Nat) (tagged : Bool) : State :=
  if !t.hasTile row col || t.id = 0 then s
  else
    let c := s.ctx x
    let k : TileKey := (t.id, row, col)
    let v := verTag (c.readVer fid k)
    let near := s.l2.any fun e => e.x = x && e.tile = k && e.ver = v
    let fresh := (look (c.firing fid).writes k).isSome
    let u := if near || fresh || 15 < (c.entryAt t.id (t.plateOf row col) (c.firing fid).latch).res then s
      else s.modCore s.now fun k => k.event 0x0E 1 tagged
    u.touchL2 x k v []

/-- Lines of a set that pins hold, apart from one (05 R147). -/
def State.pinnedMates (s : State) (l : L2Line) : List (TileKey × Nat) :=
  let c := s.ctx l.x
  let r := ((s.ctxPart l.x).map fun p => p.rect).getD ⟨0, 0, 1, 1⟩
  let held := (c.pins.map fun p => (p.tile, verTag (c.pinVer p))).eraseDups
  held.filter fun e => e ≠ (l.tile, l.ver) && l.mates ⟨homeOf r e.1, l.x, e.1, e.2, []⟩

/-- A pin may be put on the line of a tile that a firing reads: no more than 8 of the 12 ways of its set are pinned (05 R147). -/
def State.mayPin (s : State) (x fid : Nat) (k : TileKey) : Bool :=
  let r := ((s.ctxPart x).map fun p => p.rect).getD ⟨0, 0, 1, 1⟩
  (s.pinnedMates ⟨homeOf r k, x, k, verTag ((s.ctx x).readVer fid k), []⟩).length < 8

/-- The consumer of the acting core's handle releases slots: the pins on them end (05 R147). -/
def State.releaseSlots (s : State) (h : Nat) (slots : List Nat) : State :=
  if (look s.ctxs s.x).isNone then s
  else s.modCtx s.x fun c => { c with pins := c.pins.filter fun p => !(p.k = s.now && p.h = h && slots.contains p.slot) }

/-- The latch through which a pin of a firing reads its tile: none while the firing is writing it. -/
def Context.pinLatch (c : Context) (fid : Nat) (k : TileKey) : Option Nat :=
  if (look (c.firing fid).writes k).isSome then none else some (c.firing fid).latch

end Sys2Proof.Machine
end

