-- ==== Sys2Proof/Machine/LoadStore.lean ====
section
/-!
DEFINITION. Linear loads and stores (03 R84 to R86), command registers (03 R92) and typed-buffer access (03 R87 to R90).
-/
namespace Sys2Proof.Machine

/-! ## Linear loads (03 R84) -/

/-- A load of n naturally aligned bytes into g[d] (03 R85). -/
def State.loadTo (s : State) (d : Fin 32) (ea : Word) (n : Nat) (ext : List Byte → Word) : Res :=
  s.loadThen ea n n fun t bs => .next ((t.setG d (ext bs)).advance)

/-- `ld.b` (03 R84). -/
def execLdB (d a : Fin 32) (i : BitVec 16) (s : State) : Res := s.loadTo d (s.eaImm a i) 1 sextBytes

/-- `ld.bz` (03 R84). -/
def execLdBz (d a : Fin 32) (i : BitVec 16) (s : State) : Res := s.loadTo d (s.eaImm a i) 1 zextBytes

/-- `ld.h` (03 R84). -/
def execLdH (d a : Fin 32) (i : BitVec 16) (s : State) : Res := s.loadTo d (s.eaImm a i) 2 sextBytes

/-- `ld.hz` (03 R84). -/
def execLdHz (d a : Fin 32) (i : BitVec 16) (s : State) : Res := s.loadTo d (s.eaImm a i) 2 zextBytes

/-- `ld.w` (03 R84). -/
def execLdW (d a : Fin 32) (i : BitVec 16) (s : State) : Res := s.loadTo d (s.eaImm a i) 4 sextBytes

/-- `ld.wz` (03 R84). -/
def execLdWz (d a : Fin 32) (i : BitVec 16) (s : State) : Res := s.loadTo d (s.eaImm a i) 4 zextBytes

/-- `ld.d` (03 R84). -/
def execLdD (d a : Fin 32) (i : BitVec 16) (s : State) : Res := s.loadTo d (s.eaImm a i) 8 zextBytes

/-- The size in bytes of a size field of `ldx` (03 R84). -/
def ldxSize (z : BitVec 3) : Nat := match z.toNat with
  | 0 => 1
  | 1 => 1
  | 2 => 2
  | 3 => 2
  | 4 => 4
  | 5 => 4
  | _ => 8

/-- The extension of a size field of `ldx`: odd sizes below 6 extend with zeros (03 R84). -/
def ldxExt (z : BitVec 3) (bs : List Byte) : Word :=
  if z.toNat = 0 || z.toNat = 2 || z.toNat = 4 then sextBytes bs else zextBytes bs

/-- `ldx` (03 R84). -/
def execLdx (d a b : Fin 32) (sc z : BitVec 3) (s : State) : Res :=
  s.loadTo d (s.eaIndex a b sc) (ldxSize z) (ldxExt z)

/-! ## Linear stores (03 R85) -/

/-- A store of the low n bytes of g[d], naturally aligned (03 R85). -/
def State.storeFrom (s : State) (d : Fin 32) (ea : Word) (n : Nat) : Res :=
  s.storeThen ea n (leBytes n (s.g d).toNat) fun t => .next t.advance

/-- `st.b` (03 R85). -/
def execStB (d a : Fin 32) (i : BitVec 16) (s : State) : Res := s.storeFrom d (s.eaImm a i) 1

/-- `st.h` (03 R85). -/
def execStH (d a : Fin 32) (i : BitVec 16) (s : State) : Res := s.storeFrom d (s.eaImm a i) 2

/-- `st.w` (03 R85). -/
def execStW (d a : Fin 32) (i : BitVec 16) (s : State) : Res := s.storeFrom d (s.eaImm a i) 4

/-- `st.d` (03 R85). -/
def execStD (d a : Fin 32) (i : BitVec 16) (s : State) : Res := s.storeFrom d (s.eaImm a i) 8

/-- `stx` (03 R85). -/
def execStx (d a b : Fin 32) (sc : BitVec 3) (z : BitVec 2) (s : State) : Res :=
  s.storeFrom d (s.eaIndex a b sc) (2 ^ z.toNat)

/-- The state after a fill of the line of an address into the data L1; a line already there stays as it is (03 R68). -/
def State.fillLine (s : State) (l : Loc) : State :=
  if (s.cur.l1.any fun e => e.1 = l.line) then s else (s.shareLine s.now l.line).touchLine s.x l.line

/-- `pref`: fills the line; it never traps and never blocks, and an address that cannot be read is dropped (03 R86). A
translation that the MMU does not hold is fetched on the way. -/
def execPref (a : Fin 32) (i : BitVec 16) (s : State) : Res :=
  let ea := s.eaImm a i
  if !canonical ea then .next s.advance
  else match pageOf (s.ctx s.x).pages ea.toNat with
    | some p =>
      let l := pageLoc p ea.toNat
      if p.r && l.here then .next (s.fillLine l).advance else .next s.advance
    | none => .next s.advance

/-! ## Command registers (03 R92) -/

/-- The lower 8 bytes of a `qld`: those that it has read ahead at this location, else those that stand there now (03 R71). -/
def State.lowerHalf (s : State) (l : Loc) : List Byte := match s.fc.half with
  | some (m, bs) => if m = l then bs else s.loadBytes l 8
  | none => s.loadBytes l 8

/-- `qld`: 16 bytes, two 8-byte halves with the lower first (03 R71, R92). The lower half may have been read in an earlier step. -/
def execQld (q : Fin 16) (g : Fin 32) (o : BitVec 16) (s : State) : Res :=
  s.accessQ (s.eaQ g o) .load fun l => s.loadAt l fun t =>
    .next (t.setQ q (BitVec.ofNat 128 (leNat (s.lowerHalf l ++ s.loadBytes (l.plus 8) 8)))).advance

/-- `qst`: 16 bytes through the store buffer (03 R71, R92). -/
def execQst (q : Fin 16) (g : Fin 32) (o : BitVec 16) (s : State) : Res :=
  s.accessQ (s.eaQ g o) .store fun l => s.storeAt l (leBytes 16 (s.q q).toNat) fun t => .next t.advance

/-- Bits [lo + w - 1 : lo] of q replaced by the low w bits of v (03 R92). -/
def insertBits (q : QWord) (v : Word) (lo w : Nat) : QWord :=
  let mask : QWord := BitVec.ofNat 128 ((2 ^ w - 1) * 2 ^ lo)
  (q &&& ~~~mask) ||| (BitVec.ofNat 128 (v.toNat % 2 ^ w * 2 ^ lo))

/-- `qins`: the width is w + 1 as the word encodes it; lo + width above 128 raises cause 0x01 (03 R92). -/
def execQins (q : Fin 16) (g : Fin 32) (l : BitVec 7) (w : BitVec 6) (s : State) : Res :=
  if l.toNat + (w.toNat + 1) ≤ 128 then
    .next (s.setQ q (insertBits (s.q q) (s.g g) l.toNat (w.toNat + 1))).advance
  else .next (s.raise 0x01 0 0)

/-! ## Typed buffers (03 R87 to R90) -/

/-- The qualifiers of a typed-buffer read (03 R88). -/
inductive Qual where
  | plain | consume | peek | noBlock
  deriving DecidableEq, Repr

/-- A read that hits an entry of the buffer read cache makes it the most recently used (03 R90). The list stands most
recent first. -/
def Core.touchCache (c : Core) (b : Buf) (a : Nat) : Core :=
  if c.bcache.contains (b.num, a / 64) then
    { c with bcache := (b.num, a / 64) :: c.bcache.filter fun e => e ≠ (b.num, a / 64) } else c

/-- An address check that goes on with the buffer and byte, or raises its cause (03 R87). -/
def State.bufThen (s : State) (x : Nat) (ea : Nat) (k : Buf → Nat → Res) : Res :=
  match s.cur.bufAddr x ea with
  | .misaligned => .next (s.raise 0x02 (BitVec.ofNat 64 ea) 0)
  | .range => .next (s.raise 0x07 (BitVec.ofNat 64 ea) 0)
  | .ok b a => k b a

/-- Another context of the core is blocked on a granule: it is served before a newcomer (03 R89). -/
def Core.awaited (c : Core) (b : Buf) (g : Nat) : Bool :=
  (List.finRange 8).any fun n => n ≠ c.run && match (c.fc n).status with
    | .blocked (.full b' g' _ _) => b' = b.num && g' = g
    | _ => false

/-- A word that waits on a granule may go on: the bit is full, and the word has had its turn there or finds no context
waiting before it (03 R88, R89). -/
def State.mayRead (s : State) (b : Buf) (g : Nat) : Bool := s.cur.full b g && (s.fc.turns.contains (b.num, g) || !s.cur.awaited b g)

/-- A read of half a granule (03 R88); only a plain read, or one of a full granule, reads the read cache (03 R90). A consume or a
peek of an empty granule blocks, having performed nothing; i is the word itself, which is served in its turn. -/
def State.readHalf (s : State) (d : Fin 32) (x : Nat) (ea : Nat) (q : Qual) (i : Instr) : Res :=
  s.bufThen x ea fun b a =>
    let full := s.cur.full b (a / 16)
    let v := zextBytes (s.cur.bufBytes b a 8)
    let t := (s.modCore s.now fun c => if q = .plain || full then c.touchCache b a else c).setG d v
    match q with
    | .plain => .next t.advance
    | .noBlock => .next (t.setP 7 full).advance
    | .peek => if s.mayRead b (a / 16) then .next t.advance else .next (s.block (.full b.num (a / 16) false i))
    | .consume =>
      if s.mayRead b (a / 16) then .next (t.modCore s.now fun c => c.setFull b (a / 16) false).advance
      else .next (s.block (.full b.num (a / 16) true i))

/-- A write of half a granule of A or C (03 R88). With wait set a full granule blocks. The control core never writes W
(03 R91). -/
def State.writeHalf (s : State) (d : Fin 32) (x : Nat) (ea : Nat) (wait : Bool) : Res :=
  s.bufThen x ea fun b a =>
    if b = .w then .next (s.raise 0x07 (BitVec.ofNat 64 ea) 0)
    else if wait && s.cur.full b (a / 16) then .next (s.block (.empty b.num (a / 16)))
    else .next (s.modCore s.now fun c => (c.putBuf b a (leBytes 8 (s.g d).toNat)).setFull b (a / 16) true).advance

/-- `ldb` plain (03 R88). -/
def execLdb (d a : Fin 32) (x : BitVec 2) (o : BitVec 12) (s : State) : Res :=
  s.readHalf d x.toNat (s.eaBuf a o) .plain (.ldb d a x o)

/-- `ldb` consume (03 R88). -/
def execLdbFe (d a : Fin 32) (x : BitVec 2) (o : BitVec 12) (s : State) : Res :=
  s.readHalf d x.toNat (s.eaBuf a o) .consume (.ldbFe d a x o)

/-- `ldb` peek (03 R88). -/
def execLdbPk (d a : Fin 32) (x : BitVec 2) (o : BitVec 12) (s : State) : Res :=
  s.readHalf d x.toNat (s.eaBuf a o) .peek (.ldbPk d a x o)

/-- `ldb` noBlock (03 R88). -/
def execLdbNb (d a : Fin 32) (x : BitVec 2) (o : BitVec 12) (s : State) : Res :=
  s.readHalf d x.toNat (s.eaBuf a o) .noBlock (.ldbNb d a x o)

/-- `ldbx` plain, at g[a] + g[b] (03 R87, R88). -/
def execLdbx (d a b : Fin 32) (x : BitVec 2) (s : State) : Res :=
  s.readHalf d x.toNat (s.eaSum a b) .plain (.ldbx d a b x)

/-- `ldbx` consume, at g[a] + g[b] (03 R87, R88). -/
def execLdbxFe (d a b : Fin 32) (x : BitVec 2) (s : State) : Res :=
  s.readHalf d x.toNat (s.eaSum a b) .consume (.ldbxFe d a b x)

/-- `ldbx` peek, at g[a] + g[b] (03 R87, R88). -/
def execLdbxPk (d a b : Fin 32) (x : BitVec 2) (s : State) : Res :=
  s.readHalf d x.toNat (s.eaSum a b) .peek (.ldbxPk d a b x)

/-- `ldbx` noBlock, at g[a] + g[b] (03 R87, R88). -/
def execLdbxNb (d a b : Fin 32) (x : BitVec 2) (s : State) : Res :=
  s.readHalf d x.toNat (s.eaSum a b) .noBlock (.ldbxNb d a b x)

/-- `stb` (03 R88). -/
def execStb (d a : Fin 32) (x : BitVec 2) (o : BitVec 12) (s : State) : Res :=
  s.writeHalf d x.toNat (s.eaBuf a o) false

/-- `stbx`, at g[a] + g[b] (03 R87, R88). -/
def execStbx (d a b : Fin 32) (x : BitVec 2) (s : State) : Res :=
  s.writeHalf d x.toNat (s.eaSum a b) false

/-- `stb.fe` (03 R88). -/
def execStbFe (d a : Fin 32) (x : BitVec 2) (o : BitVec 12) (s : State) : Res :=
  s.writeHalf d x.toNat (s.eaBuf a o) true

/-- `stbx.fe`, at g[a] + g[b] (03 R87, R88). -/
def execStbxFe (d a b : Fin 32) (x : BitVec 2) (s : State) : Res :=
  s.writeHalf d x.toNat (s.eaSum a b) true

/-- `bpf` fills or refreshes an entry of the read cache of four; an address out of range or misaligned does nothing
(03 R90). -/
def execBpf (a : Fin 32) (x : BitVec 2) (o : BitVec 12) (s : State) : Res :=
  let ea := s.eaBuf a o
  match Buf.of x.toNat with
  | none => .next s.advance
  | some b =>
    if ea % 8 ≠ 0 || b.size ≤ ea then .next s.advance
    else
      let e := (b.num, ea / 64)
      .next (s.modCore s.now fun c => { c with bcache := (e :: c.bcache.filter fun y => y ≠ e).take 4 }).advance

end Sys2Proof.Machine
end

