-- ==== Sys2Proof/Machine/Fibre.lean ====
section
/-!
DEFINITION. Fibre registers and indirect-stream registers (10 R280 to R285).
-/
namespace Sys2Proof.Machine

/-- The closed state (10 R280). -/
def Fibre.closed : Fibre := ⟨BitVec.allOnes 32, 0, 0, 0⟩

/-- A fibre register. -/
def State.f (s : State) (r : Fin 16) : Fibre := s.fc.f.get r

/-- Write a fibre register. -/
def State.setF (s : State) (r : Fin 16) (v : Fibre) : State := s.setFc { s.fc with f := s.fc.f.set r v }

/-- What reading a 32-bit word of A gives a `fib` form: its value, a granule to wait for, or cause 0x07 (10 R281). -/
inductive FibRead (α : Type) where
  | ok (v : α)
  | wait (granule : Nat)
  | range (a : Nat)
  deriving DecidableEq, Repr

/-- Go on with what was read. -/
def FibRead.bind {α β : Type} (r : FibRead α) (k : α → FibRead β) : FibRead β := match r with
  | .ok v => k v
  | .wait g => .wait g
  | .range a => .range a

/-- One 32-bit word of A, read as `ldb.pk` reads its granule, under bank ownership (10 R281, 05 R158). -/
def State.readA32 (s : State) (a : Nat) : FibRead Nat :=
  if Buf.size .a ≤ a || !s.cur.bankOpen .a a s.cur.cx then .range a
  else if s.mayRead .a (a / 16) then .ok (leNat (s.cur.bufBytes .a a 4))
  else .wait (a / 16)

/-- ReadCur: the coordinate at pos, or all ones at the end (10 R283). -/
def State.readCur (s : State) (f : Fibre) : FibRead Fibre :=
  if f.pos = f.last then .ok { f with cur := BitVec.allOnes 32 }
  else (s.readA32 (f.base.toNat + 4 * f.pos.toNat)).bind fun v => .ok { f with cur := BitVec.ofNat 32 v }

/-- A form whose reads gave a fibre writes it; one that must wait blocks, having performed nothing (10 R281). -/
def State.fibThen (s : State) (d : Fin 16) (r : FibRead Fibre) (i : Instr) : Res := match r with
  | .ok f => .next (s.setF d f).advance
  | .wait g => .next (s.block (.full 1 g false i))
  | .range a => .next (s.raise 0x07 (BitVec.ofNat 64 a) 0)

/-- Open a fibre on base cb from lo to hi, or raise cause 0x10 (10 R282, R283). -/
def State.fibStart (s : State) (d : Fin 16) (cb lo hi : Nat) (i : Instr) : Res :=
  if hi < lo || 0x80000 < cb + 4 * hi then .next (s.raise 0x10 0 0)
  else s.fibThen d (s.readCur ⟨0, BitVec.ofNat 32 lo, BitVec.ofNat 32 hi, BitVec.ofNat 19 cb⟩) i

/-- `fib.open` (10 R283). -/
def execFibOpen (d : Fin 16) (a b : Fin 32) (s : State) : Res :=
  let cb := (s.g a).toNat
  let pe := (s.g b).toNat
  if cb % 4 ≠ 0 then .next (s.raise 0x02 (s.g a) 0)
  else if pe % 4 ≠ 0 then .next (s.raise 0x02 (s.g b) 0)
  else if 0x80000 ≤ cb then .next (s.raise 0x07 (s.g a) 0)
  else if 0x80000 < pe + 8 then .next (s.raise 0x07 (s.g b) 0)
  else match (s.readA32 pe).bind fun lo => (s.readA32 (pe + 4)).bind fun hi => .ok (lo, hi) with
    | .ok x => s.fibStart d cb x.1 x.2 (.fibOpen d a b)
    | .wait g => .next (s.block (.full 1 g false (.fibOpen d a b)))
    | .range n => .next (s.raise 0x07 (BitVec.ofNat 64 n) 0)

/-- `fib.set` (10 R283). -/
def execFibSet (d : Fin 16) (a b : Fin 32) (s : State) : Res :=
  let cb := (s.g a).toNat
  if cb % 4 ≠ 0 then .next (s.raise 0x02 (s.g a) 0)
  else if 0x80000 ≤ cb then .next (s.raise 0x07 (s.g a) 0)
  else s.fibStart d cb ((s.g b).toNat % 4294967296) ((s.g b).toNat / 4294967296) (.fibSet d a b)

/-- One advance of a fibre; on an ended one nothing changes and nothing is read (10 R283). -/
def State.fibNext (s : State) (f : Fibre) : FibRead Fibre :=
  if f.pos.toNat < f.last.toNat then s.readCur { f with pos := f.pos + 1 } else .ok f

/-- `fib.adv` (10 R283). -/
def execFibAdv (d : Fin 16) (s : State) : Res := s.fibThen d (s.fibNext (s.f d)) (.fibAdv d)

/-- The loop of `fib.seek`, with as many turns as the fibre has entries left (10 R283). -/
def State.fibSeekLoop (s : State) (target : Nat) : Nat → Fibre → FibRead Fibre
  | 0, f => .ok f
  | n + 1, f =>
    if f.pos.toNat < f.last.toNat && f.cur.toNat < target then
      (s.readCur { f with pos := f.pos + 1 }).bind fun f' => s.fibSeekLoop target n f'
    else .ok f

/-- `fib.seek` (10 R283): the upper half of the target must be zero. -/
def execFibSeek (d : Fin 16) (a : Fin 32) (s : State) : Res :=
  if 4294967296 ≤ (s.g a).toNat then .next (s.raise 0x01 0 0)
  else
    let f := s.f d
    s.fibThen d (s.fibSeekLoop (s.g a).toNat (f.last.toNat - f.pos.toNat) f) (.fibSeek d a)

/-- `fib.end` (10 R283). -/
def execFibEnd (d : Fin 8) (a : Fin 16) (s : State) : Res :=
  .next ((s.setP d ((s.f a).pos = (s.f a).last)).advance)

/-- `fib.get`: cur, pos or end; other selectors are reserved (10 R283, 02 R34). -/
def execFibGet (d : Fin 32) (a : Fin 16) (b : Fin 32) (s : State) : Res :=
  let f := s.f a
  if b = 0 then .next (s.setG d (f.cur.setWidth 64)).advance
  else if b = 1 then .next (s.setG d (f.pos.setWidth 64)).advance
  else if b = 2 then .next (s.setG d (f.last.setWidth 64)).advance
  else .next (s.raise 0x01 0 0)

/-- `fib.close` (10 R283). -/
def execFibClose (d : Fin 16) (s : State) : Res := .next (s.setF d Fibre.closed).advance

/-- An indirect-stream register. -/
def State.j (s : State) (r : Fin 8) : QWord := s.fc.j.get r

/-- `jsx.set` (10 R285). -/
def execJsxSet (d : Fin 8) (a b : Fin 32) (s : State) : Res :=
  .next (s.setFc { s.fc with j := s.fc.j.set d (s.g a ++ s.g b) }).advance

/-- `jsx.get`: the low or the high half; other selectors are reserved (10 R285, 02 R34). -/
def execJsxGet (d : Fin 32) (a : Fin 8) (b : Fin 32) (s : State) : Res :=
  if b = 0 then .next (s.setG d ((s.j a).setWidth 64)).advance
  else if b = 1 then .next (s.setG d ((s.j a >>> 64).setWidth 64)).advance
  else .next (s.raise 0x01 0 0)

end Sys2Proof.Machine
end

