-- ==== Sys2Proof/Machine/Control.lean ====
section
/-!
DEFINITION. Control flow: branches, calls, jumps, the hardware loop, `done`, `yield`, `isync` (03 R80 to R83), and the two
events of firing contexts, waking and the end of a quantum, as far as no other unit takes part (03 R63).
-/
namespace Sys2Proof.Machine

/-- The target of a format-B word: PC + 4 × SignExtend(offset22) (02 R38). -/
def State.target (s : State) (o : BitVec 22) : Word := s.pc + 4 * o.signExtend 64

/-- A branch that is taken or not (03 R80). -/
def State.branchIf (s : State) (c : Bool) (o : BitVec 22) : State := if c then s.branch (s.target o) else s.advance

/-- A call that is taken or not: g31 = PC + 4 (03 R80). -/
def State.callIf (s : State) (c : Bool) (o : BitVec 22) : State :=
  if c then (s.setG 31 (s.pc + 4)).linkTo (s.target o) else s.advance

/-- `brt` (03 R80). -/
def execBrt (p : Fin 8) (o : BitVec 22) (s : State) : Res := .next (s.branchIf (s.p p) o)

/-- `brn` (03 R80). -/
def execBrn (p : Fin 8) (o : BitVec 22) (s : State) : Res := .next (s.branchIf (!s.p p) o)

/-- `br` (03 R80). -/
def execBr (o : BitVec 22) (s : State) : Res := .next (s.branch (s.target o))

/-- `callt` (03 R80). -/
def execCallt (p : Fin 8) (o : BitVec 22) (s : State) : Res := .next (s.callIf (s.p p) o)

/-- `calln` (03 R80). -/
def execCalln (p : Fin 8) (o : BitVec 22) (s : State) : Res := .next (s.callIf (!s.p p) o)

/-- `call` (03 R80). -/
def execCall (o : BitVec 22) (s : State) : Res := .next ((s.setG 31 (s.pc + 4)).linkTo (s.target o))

/-- The target checks of 03 R81: cause 0x04, then cause 0x03. -/
def State.jumpThen (s : State) (t : Word) (r : State) : State :=
  if !canonical t then s.raise 0x04 t 0 else if t.toNat % 4 ≠ 0 then s.raise 0x03 t 0 else r

/-- `jr` (03 R81). -/
def execJr (a : Fin 32) (s : State) : Res := .next (s.jumpThen (s.g a) (s.branch (s.g a)))

/-- `jrl`: the target is read before g[d] is written (03 R81). -/
def execJrl (d a : Fin 32) (s : State) : Res :=
  .next (s.jumpThen (s.g a) ((s.setG d (s.pc + 4)).linkTo (s.g a)))

/-- `loop` (03 R82). -/
def execLoop (a : Fin 32) (l : BitVec 16) (s : State) : Res :=
  let start := s.pc + 4
  let past := start + 4 * l.setWidth 64
  if s.g a = 0 then .next (s.advanceTo past)
  else if 2 ≤ s.fc.loops.length then .next (s.raise 0x09 0 0)
  else .next (s.setFc (s.fc.go (⟨start, past, (s.g a).toNat⟩ :: s.fc.loops, start)))

/-- Commands of a firing that are not complete: queued, in the scoreboard, running, performed but not complete, or failed
(05 R152, R153). -/
def Core.cmdsOf (c : Core) (fid : Nat) : List CmdEntry := c.cmds.filter fun e => e.fid = fid

/-- The end of a firing's pins once it is done and its commands are complete (05 R147); for a message-channel firing, its
versions then become current and its lease ends (04 R123, 03 R83; log 10). A firing that is discarded has cause 0. -/
def State.settle (s : State) (k : CoreId) (fid : Nat) : State :=
  let x := s.cxId k
  let f := (s.ctx x).firing fid
  if f.ended && (s.core k).cmdsOf fid = [] && (look s.ctxs x).isSome then
    s.modCtx x fun c =>
      let c := { c with pins := c.pins.filter fun p => p.fid ≠ fid }
      if f.cause.isSome then c.modFiring fid fun g => { g with lease := [], writes := [], retired := f.cause = some 0 }
      else if f.kind = .message then
        (c.endPhase fid).modFiring fid fun g => { g with lease := [], retired := true }
      else c
  else s

/-- `done` once everything is published (03 R83, 04 R117): messages are released, local ones to the outbound queue of the
core and those to other packages to the context's held output (04 R129), reservations return, and the context is free. -/
def State.finishFiring (s : State) : State :=
  let k := s.now
  let fid := s.fid
  let x := s.x
  let f := s.firing
  let near := f.msgs.filter fun m => !m.remote
  let far := f.msgs.filter fun m => m.remote
  let s := s.modFiring x fid fun g =>
    { g with ended := true, msgs := [], resv := [], touched := g.touched || !f.msgs.isEmpty }
  let s := if far.isEmpty then s else s.modCtx x fun c => { c with heldMsgs := c.heldMsgs ++ far }
  let s := s.modCore k fun c =>
    let c := { c with outbound := c.outbound ++ near }
    let c := c.setFc c.run { c.fc c.run with
      status := .free, sb := [], pub := [], loops := [], watch := [], waits := [], waitCmd := none, hint := none, woken := false, expired := false,
      turns := [], checked := false, fetched := none }
    c.switch
  s.settle k fid

/-- `done` (03 R83). -/
def execDone (s : State) : Res := s.publishThen fun s => .next s.finishFiring

/-- The running context goes behind the ready contexts (03 R63); with no other ready context it goes on. -/
def Core.yieldRun (c : Core) : Core :=
  let c' := c.setFc c.run { c.fc c.run with status := .ready, issued := 0, half := none }
  match c'.nextReady c.run with
  | none => c
  | some m => if m = c.run then c else c'.switch

/-- `yield` (03 R83). -/
def execYield (s : State) : Res := .next (s.advance.modCore s.now fun c => c.yieldRun)

/-- `isync`: the instruction L1, fetched words and the buffer read cache are discarded (03 R83). -/
def execIsync (s : State) : Res := .next (s.modCore s.now fun c => { c with il1 := [], bcache := [] }).advance

/-- QUANTUM_EXPIRY: a context that has issued 256 words while others were ready moves behind them (03 R63). -/
def execQuantumExpiry (k : CoreId) (s : State) : Res :=
  let c := s.core k
  if (c.fc c.run).status = .running && (c.fc c.run).issued ≥ 256 then .next (s.modCore k fun c => c.yieldRun) else .next s

/-- ILLEGAL_INSTRUCTION: the word at the pc is no instruction (02 R34, 03 R72): cause 0x01. -/
def execIllegalInstruction (_w : BitVec 32) (s : State) : Res := .next (s.raise 0x01 0 0)

/-- INSTRUCTION_FETCH_FAULT: cause 0x05, which the host's page request follows, or 0x06 at the fetch (03 R67). A fetch makes no
check of its own of a pc that is not canonical (log 95). -/
def execInstructionFetchFault (cause : Nat) (s : State) : Res :=
  if cause = 0x05 then .next ({ s with notices := s.notices ++ [Notice.pageRequest s.x s.pc.toNat] }.raise 0x05 s.pc 0)
  else .next (s.raise 0x06 s.pc 0)

end Sys2Proof.Machine
end

