-- ==== Sys2Proof/Machine/Sync.lean ====
section
/-!
DEFINITION. Atomics, the sync forms, waits and pails (11 R306 to R317).
-/
namespace Sys2Proof.Machine

/-! ## Atomics (11 R307 to R312) -/

/-- The operations of 11 R307 but for fadd. -/
inductive AmoOp where
  | add | and | or | xor | min | max | minu | maxu | swap | fadd
  deriving DecidableEq, Repr

/-- The op field of an operation (11 R307). -/
def AmoOp.num : AmoOp → Nat
  | .add => 0
  | .and => 1
  | .or => 2
  | .xor => 3
  | .min => 4
  | .max => 5
  | .minu => 6
  | .maxu => 7
  | .swap => 8
  | .fadd => 9

/-- The operation of an op field. -/
def AmoOp.of : Nat → AmoOp
  | 0 => .add
  | 1 => .and
  | 2 => .or
  | 3 => .xor
  | 4 => .min
  | 5 => .max
  | 6 => .minu
  | 7 => .maxu
  | 8 => .swap
  | _ => .fadd

/-- The new memory value of n bits from old m and operand v (11 R307). -/
def AmoOp.apply (o : AmoOp) (n m v : Nat) : Nat := match o with
  | .add => (m + v) % 2 ^ n
  | .and => Nat.land m v
  | .or => Nat.lor m v
  | .xor => Nat.xor m v
  | .min => if signed n m ≤ signed n v then m else v
  | .max => if signed n m ≤ signed n v then v else m
  | .minu => if m ≤ v then m else v
  | .maxu => if m ≤ v then v else m
  | .swap => v
  | .fadd => (faddWord m v).1

/-- Bytes of an atomic's size bit. -/
def amoBytes (double : Bool) : Nat := if double then 8 else 4

/-- The result of an atomic: sign-extended, but for fadd (11 R308). -/
def amoExtend (o : AmoOp) (double : Bool) (bs : List Byte) : Word :=
  if double || o = .fadd then zextBytes bs else sextBytes bs

/-- Bytes of a location leave the held stores of a context, whose value an atomic has read and replaces (log 13). -/
def Context.overtake (c : Context) (l : Loc) (n : Nat) : Context :=
  { c with held := (c.held.map fun h =>
      if h.line.num = l.addr / 64 then { h with line := { h.line with bytes := h.line.bytes.filter fun b =>
        !(l.addr % 64 ≤ b.1 && b.1 < l.addr % 64 + n) } } else h).filter fun h => h.line.bytes ≠ [] }

/-- An atomic's write is performed at its line: a write of the context, at once even on host memory, where it is an immediate
external write that no held store of the context covers afterwards (11 R305, 13 R364, R368; log 13). The writer is the firing
context. -/
def State.amoWrite (s : State) (k : CoreId) (c : Fin 8) (fid : Nat) (l : Loc) (bs : List Byte) (returns : Bool) : State :=
  let x := s.cxId k
  let s := s.writeLine x (some (k, c)) l.line (bs.mapIdx fun i b => (l.addr % 64 + i, b))
  let s := s.modFiring x fid fun f => { f with touched := true, committed := f.committed || returns || l.onHost }
  let s := if l.onHost && (look s.ctxs x).isSome then s.modCtx x fun cx => { cx.overtake l bs.length with imm := true } else s
  s.modCore k fun c => c.event 0x14 1 false

/-- The steps before an atomic's read-modify-write (11 R308): canonical, aligned, translated for a store; the publication;
the line owned alone. -/
def State.atomicThen (s : State) (ea : Word) (n : Nat) (k : State → Loc → Res) : Res :=
  s.access ea n .store fun l =>
    s.publishThen fun s =>
      if (s.ctx s.x).undoFull l.line then .next (s.block .undoRoom)
      else if s.cur.l1.any fun e => e.1 = l.line && e.2 then k s l
      else .next (s.block (.line l.line true))

/-- A returning atomic (11 R308): one indivisible read-modify-write; held stores of the context are read first, and its write takes
their place (log 13). -/
def State.amo (s : State) (o : AmoOp) (d a b : Fin 32) (double : Bool) : Res :=
  let n := amoBytes double
  s.atomicThen (s.g a) n fun s l =>
    let old := s.seenBytes s.x l n
    let v := (s.g b).toNat % 2 ^ (8 * n)
    let new := leBytes n (o.apply (8 * n) (leNat old) v)
    let t := s.amoWrite s.now s.cur.run s.fid l new true
    let t := if o = .fadd then t.setFc { t.fc with aflags := t.fc.aflags.or (faddWord (leNat old) v).2 } else t
    .next (t.setG d (amoExtend o double old)).advance

/-- A queued atomic (11 R310): it is queued at the L1 after its publication and the firing goes on. -/
def State.amon (s : State) (o : AmoOp) (a b : Fin 32) (double : Bool) (word : Nat) : Res :=
  let n := amoBytes double
  s.access (s.g a) n .store fun _ =>
    s.publishThen fun s =>
      let r : AmonReq := ⟨s.fid, s.cur.run.val, s.g a, s.g b, o.num, double, BitVec.ofNat 32 word⟩
      .next (s.modCore s.now fun c => { c with amons := c.amons ++ [r] }).advance

/-- `amo.add` (11 R307, R308). -/
def execAmoAdd (d a b : Fin 32) (z : Bool) (s : State) : Res := s.amo .add d a b z

/-- `amo.and` (11 R307, R308). -/
def execAmoAnd (d a b : Fin 32) (z : Bool) (s : State) : Res := s.amo .and d a b z

/-- `amo.or` (11 R307, R308). -/
def execAmoOr (d a b : Fin 32) (z : Bool) (s : State) : Res := s.amo .or d a b z

/-- `amo.xor` (11 R307, R308). -/
def execAmoXor (d a b : Fin 32) (z : Bool) (s : State) : Res := s.amo .xor d a b z

/-- `amo.min` (11 R307, R308). -/
def execAmoMin (d a b : Fin 32) (z : Bool) (s : State) : Res := s.amo .min d a b z

/-- `amo.max` (11 R307, R308). -/
def execAmoMax (d a b : Fin 32) (z : Bool) (s : State) : Res := s.amo .max d a b z

/-- `amo.minu` (11 R307, R308). -/
def execAmoMinu (d a b : Fin 32) (z : Bool) (s : State) : Res := s.amo .minu d a b z

/-- `amo.maxu` (11 R307, R308). -/
def execAmoMaxu (d a b : Fin 32) (z : Bool) (s : State) : Res := s.amo .maxu d a b z

/-- `amo.swap` (11 R307, R308). -/
def execAmoSwap (d a b : Fin 32) (z : Bool) (s : State) : Res := s.amo .swap d a b z

/-- `amo.fadd.w` (11 R311): its flags go to sy.aflags (11 R312). -/
def execAmoFadd (d a b : Fin 32) (s : State) : Res := s.amo .fadd d a b false

/-- `amon.add` (11 R310). -/
def execAmonAdd (a b : Fin 32) (z : Bool) (s : State) : Res :=
  s.amon .add a b z ((encodeScalar (.amonAdd a b z)).getD 0)

/-- `amon.and` (11 R310). -/
def execAmonAnd (a b : Fin 32) (z : Bool) (s : State) : Res :=
  s.amon .and a b z ((encodeScalar (.amonAnd a b z)).getD 0)

/-- `amon.or` (11 R310). -/
def execAmonOr (a b : Fin 32) (z : Bool) (s : State) : Res :=
  s.amon .or a b z ((encodeScalar (.amonOr a b z)).getD 0)

/-- `amon.xor` (11 R310). -/
def execAmonXor (a b : Fin 32) (z : Bool) (s : State) : Res :=
  s.amon .xor a b z ((encodeScalar (.amonXor a b z)).getD 0)

/-- `amon.min` (11 R310). -/
def execAmonMin (a b : Fin 32) (z : Bool) (s : State) : Res :=
  s.amon .min a b z ((encodeScalar (.amonMin a b z)).getD 0)

/-- `amon.max` (11 R310). -/
def execAmonMax (a b : Fin 32) (z : Bool) (s : State) : Res :=
  s.amon .max a b z ((encodeScalar (.amonMax a b z)).getD 0)

/-- `amon.minu` (11 R310). -/
def execAmonMinu (a b : Fin 32) (z : Bool) (s : State) : Res :=
  s.amon .minu a b z ((encodeScalar (.amonMinu a b z)).getD 0)

/-- `amon.maxu` (11 R310). -/
def execAmonMaxu (a b : Fin 32) (z : Bool) (s : State) : Res :=
  s.amon .maxu a b z ((encodeScalar (.amonMaxu a b z)).getD 0)

/-- `amon.swap` (11 R310). -/
def execAmonSwap (a b : Fin 32) (z : Bool) (s : State) : Res :=
  s.amon .swap a b z ((encodeScalar (.amonSwap a b z)).getD 0)

/-- `amon.fadd.w` (11 R310, R311). -/
def execAmonFadd (a b : Fin 32) (s : State) : Res :=
  s.amon .fadd a b false ((encodeScalar (.amonFadd a b)).getD 0)

/-- `cas` (11 R308): memory equal to g[d] takes g[b], and p7 says whether it did. -/
def execCas (d a b : Fin 32) (z : Bool) (s : State) : Res :=
  let n := amoBytes z
  s.atomicThen (s.g a) n fun s l =>
    let old := s.seenBytes s.x l n
    let hit := leNat old = (s.g d).toNat % 2 ^ (8 * n)
    let t :=
      if hit then s.amoWrite s.now s.cur.run s.fid l (leBytes n (s.g b).toNat) true
      else (s.modFiring s.x s.fid fun f => { f with touched := true, committed := true }).modCore s.now fun c =>
        c.event 0x14 1 false
    let t := if l.onHost && (look t.ctxs t.x).isSome then t.modCtx t.x fun cx => { cx with imm := true } else t
    .next ((t.setP 7 hit).setG d (amoExtend .add z old)).advance

/-! ## The sync forms (11 R306) -/

/-- The reason of the first failed command of a firing. -/
def Core.failedCmd (c : Core) (fid : Nat) : Option Nat :=
  (c.cmdsOf fid).findSome? fun e => match e.stage with
    | .failed r => some r
    | _ => none

/-- Publish, then wait for every command of the firing; a failed one raises cause 0x0B (11 R306, 03 R94). -/
def State.commandsThen (s : State) (k : State → Res) : Res :=
  s.publishThen fun s =>
    match s.cur.failedCmd s.fid with
    | some r => .next (s.raiseQuiet 0x0B r)
    | none => if s.cur.cmdsOf s.fid = [] then k s else .next (s.block .commands)

/-- `phase` (11 R306): the phase's versions become current in one step and the firing latches afresh. -/
def execPhase (s : State) : Res :=
  s.commandsThen fun s =>
    let x := s.x
    let fid := s.fid
    if (look s.ctxs x).isSome then
      .next ((s.modCtx x fun c => (c.endPhase fid).relatch fid).trim x).advance
    else .next s.advance

/-- `fence` (11 R306). -/
def execFence (s : State) : Res := s.publishThen fun s => .next s.advance

/-- `fence.c` (11 R306). -/
def execFenceC (s : State) : Res := s.commandsThen fun s => .next s.advance

/-- Held stores that a test picks are released to the host, oldest first (11 R305, 13 R366): to agents outside their context each is
a write of its line. -/
def State.releaseHeld (s : State) (x : Nat) (pick : HeldStore → Bool) : State :=
  let out := (s.ctx x).held.filter pick
  let s := s.modCtx x fun c => { c with held := c.held.filter fun h => !pick h }
  out.foldl (fun t h =>
    (h.line.bytes.foldl (fun u b => u.setByte ⟨true, h.line.num * 64 + b.1⟩ b.2) t).noteHeld x false ⟨true, h.line.num⟩ none) s

/-- `fence.x` (11 R306): the firing's held stores reach the host, an immediate external write (13 R368). -/
def execFenceX (s : State) : Res :=
  s.publishThen fun s =>
    let x := s.x
    let fid := s.fid
    if (s.ctx x).held.any fun h => h.fid = fid then
      let t := s.releaseHeld x fun h => h.fid = fid
      let t := t.modCtx x fun c => { c with imm := true }
      .next (t.modFiring x fid fun f => { f with committed := true }).advance
    else .next s.advance

/-! ## Waiting on addresses (11 R313) -/

/-- The checks of `wait` on its addresses, in order: canonical, then translation for a load. -/
def State.waitLines (s : State) : List Word → List Loc → (List Loc → Res) → Res
  | [], acc, k => k acc.reverse
  | a :: r, acc, k =>
    if !canonical a then .next (s.raise 0x04 a 0)
    else s.withLoc a .load fun l => s.waitLines r (l.line :: acc) k

/-- A line that this wait watches has been written by another agent, or dropped, since it was last loaded or since the
wait. -/
def FiringCtx.seen (f : FiringCtx) (l : Loc) : Bool := match look f.watch l with
  | some b => b
  | none => (look f.waits l).getD false

/-- `wait` with or without a limit in V-cycles: it returns the lowest line written, or 4 when the limit passed first. -/
def State.waitOn (s : State) (d a : Fin 32) (n : Nat) (limit : Option Word) : Res :=
  if a = 0 || 31 < a.val + n then .next (s.raise 0x01 0 0)
  else
    s.waitLines ((upto (n + 1)).map fun i => s.g (a + Fin.ofNat 32 i)) [] fun ls =>
      let f := s.fc
      let fresh := ls.filter fun l => (look f.watch l).isNone && (look f.waits l).isNone
      let s := s.setFc { f with waits := f.waits ++ fresh.eraseDups.map fun l => (l, false) }
      s.publishThen fun s =>
        let finish (v : Nat) : Res := .next ((s.setFc { s.fc with waits := [] }).setG d (BitVec.ofNat 64 v)).advance
        match (if s.fc.expired then none else ls.findIdx? fun l => s.fc.seen l) with
        | some i => finish i
        | none =>
          if s.fc.expired || limit = some 0 then finish 4
          else .next (s.block (.watched limit.isSome ls))

/-- `wait gd, ga, n` (11 R313). -/
def execWait (d a : Fin 32) (n : BitVec 2) (s : State) : Res := s.waitOn d a n.toNat none

/-- `wait gd, ga, n, gb` (11 R313). -/
def execWaitLimited (d a b : Fin 32) (n : BitVec 2) (s : State) : Res := s.waitOn d a n.toNat (some (s.g b))

/-- Lines that a limited `wait` of a context watches while its publication is not performed yet: those of its addresses. -/
def State.limitedLines (s : State) (k : CoreId) (f : FiringCtx) : Option (List Loc) := match (f.fetched.bind fun w => decodeScalar w.toNat) with
  | some (.waitLimited _ a _ n) => some ((upto (n.toNat + 1)).filterMap fun i =>
      let va := (f.g.get (a + Fin.ofNat 32 i)).toNat
      (pageOf (s.ctx (s.cxId k)).pages va).map fun p => (pageLoc p va).line)
  | _ => none

/-- WAIT_LIMIT_EXPIRY: the limit of a blocked wait passes before a watched line is written, in its publication or after it (11
R313). -/
def execWaitLimitExpiry (k : CoreId) (c : Nat) (s : State) : Res :=
  let n := Fin.ofNat 8 c
  let f := (s.core k).fc n
  match f.status with
  | .blocked (.watched true ls) =>
    if f.stopped || ls.any f.seen then .next s else .next (s.modCore k fun c => c.setFc n { f with expired := true })
  | .blocked .publication => match s.limitedLines k f with
    | some ls => if f.stopped || ls.any f.seen then .next s else .next (s.modCore k fun c => c.setFc n { f with expired := true })
    | none => .next s
  | _ => .next s

/-! ## Pails (11 R314 to R317) -/

/-- Where pail i lies (11 R314). -/
def Context.pailLoc (c : Context) (i : Nat) : Loc := ⟨false, c.pailPa + 16 * i⟩

/-- A pail as its 16 bytes say (11 R314). -/
structure Pail where
  count : Nat
  target : Nat
  gen : Nat
  state : Nat
  reason : Nat
  deriving DecidableEq, Repr

/-- Read a pail. -/
def State.pail (s : State) (x i : Nat) : Pail :=
  let l := (s.ctx x).pailLoc i
  let w (o n : Nat) : Nat := leNat (s.bytesAt (l.plus o) n)
  ⟨w 0 4, w 4 4, w 8 4, w 12 1, w 13 1⟩

/-- Write a pail in one step at its home slice; every context that watches its line notes it. -/
def State.setPail (s : State) (x i : Nat) (p : Pail) : State :=
  let l := (s.ctx x).pailLoc i
  let bs := leBytes 4 p.count ++ leBytes 4 p.target ++ leBytes 4 p.gen ++ leBytes 1 p.state ++ leBytes 1 p.reason
  (s.setBytes l bs).noteWrite l.line none

/-- Flips of an add: one for each target reached (11 R315). -/
def Pail.add (p : Pail) (c : Nat) : Pail :=
  if p.state = 2 then p
  else
    let n := p.count + c
    if p.target = 0 then { p with count := n % 2 ^ 32 }
    else { p with count := n % p.target % 2 ^ 32, gen := (p.gen + n / p.target) % 2 ^ 32 }

/-- `pail.arm` (11 R316). -/
def execPailArm (a : Fin 32) (i : BitVec 8) (s : State) : Res :=
  s.publishThen fun s =>
    let p := s.pail s.x i.toNat
    let q : Pail := { p with target := (s.g a).toNat % 2 ^ 32, count := 0, state := 1, reason := 0 }
    .next (s.setPail s.x i.toNat q).advance

/-- `pail.wait` (11 R316): a failed pail raises cause 0x11, whose detail is the pail's index (13 R352; log 14). -/
def execPailWait (d a : Fin 32) (i : BitVec 8) (s : State) : Res :=
  let p := s.pail s.x i.toNat
  let want := (s.g a).toNat % 2 ^ 32
  if p.state = 2 then .next (s.raiseQuiet 0x11 i.toNat)
  else if p.gen ≠ want then .next (s.setG d (BitVec.ofNat 64 p.gen)).advance
  else .next (s.block (.pail i.toNat want))

/-- `pail.rd` (11 R316). -/
def execPailRd (d : Fin 32) (i : BitVec 8) (s : State) : Res :=
  let p := s.pail s.x i.toNat
  .next ((s.setP 7 (p.state = 2)).setG d (BitVec.ofNat 64 (p.gen * 2 ^ 32 + p.count))).advance

end Sys2Proof.Machine
end

