-- ==== Sys2Proof/Machine/Message.lean ====
section
/-!
DEFINITION. The message instructions (04 R126 to R133): `send`, `recv`, `point.seq`, `point.ht`, `spawn`, `mask` and
`unmask`.
-/
namespace Sys2Proof.Machine

/-- A handler entry that nothing has installed. -/
def Handler.blank : Handler := ⟨0, 0, false, false, 0, 0, 0, []⟩

/-- Entry n of a context's handler table (04 R112). -/
def Context.handler (c : Context) (n : Nat) : Handler := nth c.handlers n Handler.blank

/-- The mask bit of an entry in a configuration context of a core (04 R112, R133). -/
def State.masked (s : State) (k : CoreId) (cx n : Nat) : Bool :=
  (look (s.core k).masks (cx, n)).getD ((s.ctx (s.cxId k)).handler n).masked

/-! ## Messages -/

/-- DestValid (04 R128): a core of the context's partition, or a package of the pod group. -/
def State.destValid (s : State) (dst : Nat) : Bool :=
  let p := s.ctxPart s.x
  dst < 2 ^ 17 &&
    (if bitOf dst 16 then 2 ≤ (s.ctx s.x).podSize && bitsOf dst 15 10 < (s.ctx s.x).podSize
     else bitsOf dst 15 10 = 0 && match p with
       | some p => rectHas p.rect (bitsOf dst 9 5 * 32 + bitsOf dst 4 0)
       | none => false)

/-- Words reserved on a channel that the firing has left (04 R114, R128). -/
def Firing.reserved (f : Firing) (ch : Nat) : Nat := (look f.resv ch).getD 0

/-- One word less is reserved. -/
def Firing.spend (f : Firing) (ch : Nat) : Firing := { f with resv := put f.resv ch (f.reserved ch - 1) }

/-- Append a word to the message for a destination channel, beginning it at the first `send` (04 R128, R129). -/
def appendWord (ms : List Message) (k : CoreId) (dst ch : Nat) (w : Word) : List Message :=
  let goesTo (m : Message) : Bool :=
    m.dst = bitsOf dst 9 0 && m.package = bitsOf dst 15 10 && m.remote = bitOf dst 16 && m.chan = ch
  if ms.any goesTo then ms.map fun m => if goesTo m then { m with words := m.words ++ [w] } else m
  else ms ++ [⟨bitsOf dst 9 0, bitsOf dst 15 10, bitOf dst 16, ch, [w], k, false⟩]

/-- `send` (04 R128). -/
def execSend (c a b : Fin 32) (s : State) : Res :=
  let ch := c.val
  let dst := (s.g a).toNat
  if ch < 2 || 29 < ch then .next (s.raise 0x0D 0 0)
  else if !s.destValid dst then .next (s.raise 0x0D 0 0)
  else if s.firing.reserved ch = 0 then .next (s.raise 0x0C 0 0)
  else s.publishThen fun s =>
    .next (s.modFiring s.x s.fid fun f => { f.spend ch with msgs := appendWord f.msgs s.now dst ch (s.g b) }).advance

/-- The first word of a list that waits for an entry of a ch0 or ch1 queue, taken out: a record loses its first word and
leaves the queue with its last (04 R130). -/
def takeWord (is : List QueueItem) (cx entry : Nat) : Option (Word × List QueueItem) :=
  match is with
  | [] => none
  | i :: r =>
    if i.cx = cx && i.entry = entry then
      match i.words with
      | [] => none
      | w :: [] => some (w, r)
      | w :: ws => some (w, { i with words := ws } :: r)
    else (takeWord r cx entry).map fun x => (x.1, i :: x.2)

/-- `recv` (04 R130). -/
def execRecv (d c : Fin 32) (s : State) : Res :=
  let f := s.firing
  let ch := ((s.ctx s.x).handler f.entry).inCh
  if c.val ≠ ch then .next (s.raise 0x0D 0 0)
  else if ch ≤ 1 then
    match takeWord s.cur.points f.cx f.entry with
    | some (w, r) => .next (((s.modCore s.now fun c => { c with points := r }).setG d w).setP 7 true).advance
    | none => .next ((s.setG d 0).setP 7 false).advance
  else
    match (look s.cur.chans ch).getD [] with
    | w :: r =>
      let s := (s.modCore s.now fun c => { c with chans := put c.chans ch r }).modFiring s.x s.fid fun g => { g with taken := g.taken ++ [w] }
      .next ((s.setG d w).setP 7 true).advance
    | [] => .next ((s.setG d 0).setP 7 false).advance

/-! ## Points and tasks -/

/-- `point.seq`; 0 for a message-channel firing (04 R131). -/
def execPointSeq (d : Fin 32) (s : State) : Res :=
  .next (s.setG d (if s.firing.kind = .message then 0 else BitVec.ofNat 64 s.firing.seq)).advance

/-- A live launch of a tag. -/
def Context.launch (c : Context) (tag : Nat) : Option Launch := c.launches.find? fun l => l.block.tag = tag

/-- Dimensions of the cross-section, in increasing order (04 R97). -/
def Block.dims (b : Block) : List Nat := (upto b.ndim).filter fun k => k ≠ b.sweep

/-- The sweep extent es (04 R101). -/
def Block.es (b : Block) : Nat := nth b.extents b.sweep 0

/-- The size X of the cross-section (04 R97). -/
def Block.cross (b : Block) : Nat := b.dims.foldl (fun p k => p * nth b.extents k 1) 1

/-- The cross-section index of coordinates; none outside the bounds (04 R97). -/
def Block.indexOf (b : Block) (co : Nat → Int) : Option Nat :=
  (b.dims.foldl (fun (a : Option (Nat × Nat)) k => match a with
    | none => none
    | some (i, w) =>
      let e := nth b.extents k 1
      if co k < 0 || (e : Int) ≤ co k then none else some (i + w * (co k).toNat, w * e)) (some (0, 1))).map fun x => x.1

/-- `point.ht`: a value from the height at the firing's start to the current one (04 R131); which is free (log 6). -/
def execPointHt (d a : Fin 32) (s : State) : Res :=
  let f := s.firing
  let none64 : Res := .next (s.setG d (BitVec.allOnes 64)).advance
  match (s.ctx s.x).launch f.tag with
  | none => none64
  | some l =>
    match (if f.kind = .message then none else l.block.indexOf fun k => (coord (s.g a) k : Int)) with
    | none => none64
    | some i =>
      let now := nth l.heights i 0
      let old := min (nth f.startHeights i 0) now
      let (r, t) := s.free
      .next (t.setG d (BitVec.ofNat 64 (old + r % (now - old + 1)))).advance

/-- A task record's fields (04 R119). -/
structure TaskFields where
  entry : Nat
  cx : Nat
  pri : Nat
  ix : Nat
  iy : Nat
  lw : Nat
  lh : Nat
  reads : List TRect
  writes : List TRect
  deriving DecidableEq, Repr

/-- Bytes of a record as its fields. -/
def taskFields (bs : List Byte) : TaskFields :=
  let at1 (o : Nat) : Nat := (nth bs o 0).toNat
  let rect (o : Nat) : TRect := TRect.of (leNat ((bs.drop o).take 8))
  ⟨at1 0 % 32, at1 1 % 8, bitsOf (at1 1) 5 4, at1 2, at1 3, at1 4 % 8, bitsOf (at1 4) 6 4,
    (upto (at1 5 % 8)).map fun i => rect (0x10 + 8 * i), (upto (bitsOf (at1 5) 6 4)).map fun i => rect (0x30 + 8 * i)⟩

/-- A rectangle names a tensor of the context and lies within its tiles (04 R119). -/
def Context.rectIn (c : Context) (r : TRect) : Bool := match c.tensor r.tensor with
  | some t => r.row0 + r.rows ≤ t.tr && r.col0 + r.cols ≤ t.tc
  | none => false

/-- A record keeps 04 R119 for a launch's sheet, and its entry is valid on ch1 with rate 8. -/
def Context.recordValid (c : Context) (sheet : Rect) (bs : List Byte) : Bool :=
  let at1 (o : Nat) : Nat := (nth bs o 0).toNat
  let t := taskFields bs
  let zeroFrom (o n : Nat) : Bool := ((bs.drop o).take n).all fun b => b = 0
  let h := c.handler t.entry
  at1 0 < 32 && Nat.land (at1 1) 0xC8 = 0 && Nat.land (at1 4) 0x88 = 0 && Nat.land (at1 5) 0xC8 = 0 &&
    bitsOf (at1 5) 2 0 ≤ 4 && bitsOf (at1 5) 6 4 ≤ 2 &&
    t.ix % 2 ^ t.lw = 0 && t.iy % 2 ^ t.lh = 0 && t.ix + 2 ^ t.lw ≤ sheet.w && t.iy + 2 ^ t.lh ≤ sheet.h &&
    zeroFrom (0x10 + 8 * t.reads.length) (8 * (4 - t.reads.length)) &&
    zeroFrom (0x30 + 8 * t.writes.length) (8 * (2 - t.writes.length)) &&
    t.reads.all c.rectIn && t.writes.all c.rectIn && h.valid && h.inCh = 1 && h.rate = 8

/-- The counter holder hands out n numbers (04 R109). In a pod other packages may have taken blocks before; how many is free (log
76). -/
def State.takeNumbers (s : State) (x n : Nat) : Nat × State :=
  let c := s.ctx x
  let first := c.counter + if c.podSize ≤ 1 then 0 else 64 * Config.freeValue s.freeCtr
  (first, { s.modCtx x fun y => { y with counter := first + n } with freeCtr := s.freeCtr + 1 })

/-- A sequence number at a die (04 R109): the counter holder's own comes from the counter, and another die's from its local block of
64, which the holder renews. -/
def State.nextSeq (s : State) (x die : Nat) : Nat × State :=
  if (s.ctx x).podIndex = 0 && (s.ctx x).holder = die then s.takeNumbers x 1
  else match look (s.die die).seqs x with
  | some (n, left + 1) => (n, s.modDie die fun d => { d with seqs := put d.seqs x (n + 1, left) })
  | _ =>
    let t := s.takeNumbers x 64
    (t.1, t.2.modDie die fun d => { d with seqs := put d.seqs x (t.1 + 1, 63) })

/-- `spawn` (04 R132): the record is read through the store buffer and the L1, checked, and copied to the queue of the die
that holds its inset's origin core (04 R120). -/
def execSpawn (d a : Fin 32) (s : State) : Res :=
  s.loadThen (s.g a) 64 64 fun s bs =>
    let f := s.firing
    let c := s.ctx s.x
    match (if f.kind = .message then none else c.launch f.tag) with
    | none => .next (s.raise 0x0E 0 0)
    | some l =>
      let sheet := l.block.sheet
      if !c.recordValid sheet bs then .next (s.raise 0x0E 0 0)
      else if f.reserved 1 = 0 then .next (s.raise 0x0C 0 0)
      else s.publishThen fun s =>
        let t := taskFields bs
        let origin := (sheet.y + t.iy) * 32 + sheet.x + t.ix
        let x := s.x
        let fid := s.fid
        let s := s.modFiring x fid fun g => g.spend 1
        let (seq, s) := s.nextSeq x (dieOf s.now)
        let r : TaskRec := ⟨x, seq, bs, f.tag, fid, f.coords, f.idx, true, false, false⟩
        let s := s.modDie (dieOf origin) fun d => { d with tasks := d.tasks ++ [r] }
        .next (s.setG d (BitVec.ofNat 64 seq)).advance

/-- `mask` and `unmask` (04 R133). -/
def State.setMask (s : State) (a : Fin 32) (v : Bool) : Res :=
  let n := (s.g a).toNat
  let e := n % 32
  let cx := bitsOf n 10 8
  if n ≠ e + cx * 256 || !((s.ctx s.x).handler e).valid then .next (s.raise 0x0D 0 0)
  else .next (s.modCore s.now fun c => { c with masks := put c.masks (cx, e) v }).advance

/-- `mask` (04 R133). -/
def execMask (a : Fin 32) (s : State) : Res := s.setMask a true

/-- `unmask` (04 R133). -/
def execUnmask (a : Fin 32) (s : State) : Res := s.setMask a false

end Sys2Proof.Machine
end

