-- ==== Sys2Proof/Machine/CmdIssue.lean ====
section
/-!
DEFINITION. Stream commands at issue: what each uses (05 R161 and the tables of 09, 10, 12 and 04), the checks that raise
cause 0x0A (02 R41, 05 R154), and `cmd` and `cmdw` (03 R93).
-/
namespace Sys2Proof.Machine

/-! ## Handles (05 R150, R151) -/

/-- A handle that nothing has bound. -/
def Handle.unbound : Handle := ⟨false, 0, 0, 0, 0, 0, 0, 0, 0⟩

/-- Handle h of a core. -/
def Core.handle (c : Core) (h : Nat) : Handle := (look c.handles h).getD Handle.unbound

/-- Replace a handle. -/
def Core.setHandle (c : Core) (h : Nat) (v : Handle) : Core := { c with handles := put c.handles h v }

/-- The slot count S. -/
def Handle.count (h : Handle) : Nat := h.slots + 1

/-- The slot size in bytes. -/
def Handle.bytes (h : Handle) : Nat := (h.size + 1) * 64

/-- The first byte of slot n. -/
def Handle.slotAt (h : Handle) (n : Nat) : Nat := h.base * 64 + n * h.bytes

/-- The producer fills one slot (05 R151). -/
def Handle.produce (h : Handle) (n : Nat) : Handle :=
  { h with fill := h.fill + n, free := h.free - n, prod := (h.prod + n) % h.count }

/-- The consumer releases one slot (05 R151). -/
def Handle.consume (h : Handle) (n : Nat) : Handle :=
  { h with fill := h.fill - n, free := h.free + n, cons := (h.cons + n) % h.count }

/-! ## Opcodes and their names -/

/-- The command of a 128-bit word, for the words whose opcode is assigned (02 R42). -/
def cmdInstr (w : QWord) : Option Instr := decodeCommand w.toNat

/-- The fields of a 128-bit word. -/
def cmdOf (w : QWord) : Cmd := cmdFields w.toNat

/-- The opcode of a 128-bit word (02 R39). -/
def opOf (w : QWord) : Nat := w.toNat / 2 ^ 122

/-- The image of the current configuration context. -/
def Core.image (c : Core) : Option Image := look c.images c.cx

/-- The node word of a site in an image; an unlisted site is off. -/
def Image.node (i : Image) (site : Nat) : NodeWord := (look i.nodes site).getD (decodeNode 0)

/-- The node word of a site in the current configuration. -/
def Core.node (c : Core) (site : Nat) : NodeWord := match c.image with
  | some i => i.node site
  | none => decodeNode 0

/-- A port is bound in the current configuration (02 R44). -/
def Core.portBound (c : Core) (port : Nat) : Bool := match c.image with
  | some i => if port < 32 then bitOf i.ipmask port else bitOf i.opmask (port - 32)
  | none => false

/-- The address generator that drives a port in the current configuration (05 R159). -/
def Core.generator (c : Core) (port : Nat) : Option Nat := match c.image with
  | some i => (i.nodes.find? fun e =>
      (e.2.op.toNat = 0x32 || e.2.op.toNat = 0x33) && e.2.param.toNat % 64 = port).map fun e => e.1
  | none => none

/-! ## What a command uses -/

/-- The layouts of 02 R40. -/
inductive Layout where
  | t | l | x
  deriving DecidableEq, Repr

/-- What a command uses: its layout, the alignment of an L operand, the cflags bits, the operand bits it leaves zero, the
roles on hA and hB with the buffers allowed (producer or not; 0 W, 1 A, 2 C), the slot sizes refused, and the port's
direction (output or not). -/
structure CmdUse where
  layout : Layout
  align : Nat
  cmask : Nat
  zeros : Nat
  hA : Option (Bool × List Nat)
  hB : Option (Bool × List Nat)
  unit : Nat
  port : Option Bool
  deriving DecidableEq, Repr

/-- Bits [hi:lo] as a mask. -/
def maskOf (hi lo : Nat) : Nat := 2 ^ (hi + 1) - 2 ^ lo

/-- A command that uses no handle and no port. -/
def plainUse (lay : Layout) (align cmask zeros : Nat) : CmdUse := ⟨lay, align, cmask, zeros, none, none, 1, none⟩

/-- A column of the array that a run of width n uses: its accumulator lane enabled and its dest not 0 (09 R260): the
column with its dest and c. -/
def Core.usedCols (c : Core) (n : Nat) : List (Nat × Nat × Nat) :=
  (upto n).filterMap fun col =>
    let w := c.node (320 + col / 4)
    let dest := bitsOf w.param.toNat 13 12
    if w.op.toNat = 0x20 && w.lanes.getLsbD (col % 4) && dest ≠ 0 then some (col, dest, bitsOf w.param.toNat 11 6 + 1) else none

/-- The width N of a run (09 R260). -/
def runWidth (c : Cmd) : Nat := bitsOf c.operand.toNat 47 40 + 1

/-- A run writes words to C (09 R260). -/
def Core.writesC (k : Core) (c : Cmd) : Bool := (k.usedCols (runWidth c)).any fun u => u.2.1 = 1

/-- What a command uses on a core (05 R161, 09 R253, R260, R266, R270, R276, 10 R286, R290, R292, R295, 12 R337, R339, 04
R134, R135); none for what is no command. -/
def Core.use (k : Core) (i : Instr) : Option CmdUse :=
  let all := maskOf 63 0
  let bufferMode (c : Cmd) (cmask : Nat) (out : Bool) : CmdUse :=
    if c.flag 2 then ⟨.x, 1, cmask, maskOf 59 32, some (out, [1, 2]), none, 1, some out⟩
    else ⟨.t, 1, cmask, 0, none, none, 1, some out⟩
  match i with
  | .ldAff c => some (bufferMode c 0x0F false)
  | .ldTile c => some (bufferMode c 0x0E false)
  | .stAff c => some (bufferMode c 0x07 true)
  | .stTile c => some (bufferMode c 0x06 true)
  | .tfetch _ => some ⟨.t, 1, 0, 0, some (true, [1, 0]), none, 1024, none⟩
  | .streamSubs _ => some ⟨.t, 1, 0xFF, 0, some (true, [1, 0]), none, 1024, none⟩
  | .pull _ => some ⟨.t, 1, 0, 0, some (false, [2]), none, 1024, none⟩
  | .gath _ => some ⟨.x, 1, 0, maskOf 29 18, some (true, [1, 0]), some (false, [1]), 1, none⟩
  | .scat _ => some ⟨.x, 1, 0, maskOf 29 18, some (false, [1, 2]), some (false, [1]), 1, none⟩
  | .copy _ => some ⟨.l, 32, 0, 0, some (true, []), some (false, []), 1, none⟩
  | .fill _ => some (plainUse .x 1 1 0)
  | .cfgLd _ => some (plainUse .l 64 7 0)
  | .cfgSw _ => some (plainUse .x 1 7 all)
  | .bound _ => some ⟨.x, 1, 0, maskOf 63 48, none, none, 1, some false⟩
  | .kick _ => some ⟨.x, 1, 3, all, none, none, 1, some false⟩
  | .barr _ => some (plainUse .x 1 0 all)
  | .bank _ => some (plainUse .x 1 0 (maskOf 63 32 + maskOf 29 23 + maskOf 15 15 + maskOf 7 4))
  | .lease _ => some (plainUse .t 1 1 0)
  | .relatch _ => some (plainUse .l 16 0x3F 0)
  | .streamPref _ => some (plainUse .t 1 0 0)
  | .wld c => some ⟨.t, 1, 3, 0, if c.flag 1 then none else some (false, [0]), none, 1024, none⟩
  | .mrun c =>
    some ⟨.x, 1, if c.flag 2 then 0x1F else 7, maskOf 15 0 + (if c.flag 1 then maskOf 39 24 else 0), some (false, [1]),
      if k.writesC c then some (true, [2]) else none, 1, if c.flag 1 then some true else none⟩
  | .trun c =>
    some ⟨.x, 1, (if c.flag 2 then 0x3D else 0x25) + (if c.flag 5 then 0 else 2),
      maskOf 15 0 + (if c.flag 1 then maskOf 39 24 else 0), if c.flag 5 then none else some (false, [1]),
      if k.writesC c then some (true, [2]) else none, 1, if c.flag 1 then some true else none⟩
  | .szld _ => some (plainUse .l 64 0x3F 0)
  | .spill _ => some (plainUse .x 1 0x7F (maskOf 63 19))
  | .rest _ => some (plainUse .x 1 0x3F (maskOf 63 19))
  | .fopen _ => some ⟨.x, 1, 0x3F, all, none, none, 1, some false⟩
  | .fclose _ => some ⟨.x, 1, 0, all, none, none, 1, some false⟩
  | .isect _ => some (plainUse .l 64 0 0)
  | .eqpart _ => some (plainUse .x 1 0 (maskOf 39 38))
  | .hset _ => some (plainUse .x 1 1 (maskOf 27 23 + maskOf 15 15 + maskOf 7 0))
  | .hsetR _ => some (plainUse .x 1 1 (maskOf 27 23 + maskOf 22 0))
  | .rsend _ => some (plainUse .x 1 3 (maskOf 25 16))
  | .icollBcast _ => some (plainUse .x 1 0 (maskOf 60 59 + maskOf 4 0))
  | .icollReduce _ => some (plainUse .x 1 0 (maskOf 4 0))
  | .icollAllred _ => some (plainUse .x 1 0 (maskOf 20 11 + maskOf 4 0))
  | .icollGather _ => some (plainUse .x 1 0 (maskOf 60 59 + maskOf 20 11 + maskOf 4 0))
  | .lnch _ => some (plainUse .l 1 0 0)
  | .lsync _ => some (plainUse .x 1 1 (maskOf 63 16))
  | .lsyncD _ => some (plainUse .x 1 1 (maskOf 63 16))
  | _ => none

/-! ## The checks of 05 R154 beyond the fields -/

/-- The inset of a given size that holds a core, within the sheet of the firing's launch (12 R337). -/
def insetOf (sheet : Rect) (k : CoreId) (lw lh : Nat) : Option Rect :=
  let x := k % 32
  let y := k / 32
  if 5 < lw || 5 < lh || !rectHas sheet k then none
  else
    let w := 2 ^ lw
    let h := 2 ^ lh
    let r : Rect := ⟨sheet.x + (x - sheet.x) / w * w, sheet.y + (y - sheet.y) / h * h, w, h⟩
    if r.x + w ≤ sheet.x + sheet.w && r.y + h ≤ sheet.y + sheet.h then some r else none

/-- The sheet of a firing's launch; none for a firing without one. -/
def Context.sheetOf (c : Context) (f : Firing) : Option Rect :=
  if f.kind = .message then none else (c.launch f.tag).map fun l => l.block.sheet

/-- Banks that bytes of a buffer meet, all open to a configuration context (05 R158). -/
def Core.banksOpen (c : Core) (b : Buf) (a n cx : Nat) : Bool :=
  (upto ((a + n + 4095) / 4096 - a / 4096)).all fun i => c.bankOpen b ((a / 4096 + i) * 4096) cx

/-- A buffer by the single bit of 12 R337 and R339: 0 A, 1 C. -/
def acBuf (b : Bool) : Buf := if b then .c else .a

/-- Floating formats that the array takes, and its integer ones (09 R253, R260). -/
def arrayFmt (f : Nat) : Bool := [1, 2, 3, 4, 7, 8, 9].contains f

/-- Bytes of n elements, rounded up to 64 (09 R261). -/
def strideOf (n fmt : Nat) : Nat := ceilDiv (n * fmtBits fmt) 512 * 64

/-- Two ranges of bytes overlap. -/
def overlap (a n b m : Nat) : Bool := a < b + m && b < a + n

/-- The checks on a run's own fields (09 R260, R270). -/
def Core.runLimits (k : Core) (c : Cmd) : List Nat :=
  let o := c.operand.toNat
  let afmt := bitsOf o 63 60
  let cfmt := bitsOf o 59 56
  let used := k.usedCols (runWidth c)
  let bad19 := !arrayFmt afmt || !([0, 1, 2, 5].contains cfmt) || bitsOf c.cflags.toNat 4 3 = 3 ||
    (c.flag 2 && (FloatFmt.of afmt).isSome) || (64 < bitsOf o 39 24 && used.any fun u => 1 < u.2.2)
  let a := k.handle c.hA.toNat
  let b := k.handle c.hB.toNat
  let bad17 := (!c.flag 5 && a.v && a.bytes < strideOf (bitsOf o 55 48 + 1) afmt) ||
    (k.writesC c && b.v && b.bytes < strideOf (runWidth c) cfmt)
  (if bad19 then [0x19] else []) ++ (if bad17 then [0x17] else [])

/-- The descriptor of a copy, which the program may not change before the copy completes (05 R167), makes a handle its source, or
its destination: what tells handle 0 from none (log 81). -/
def State.copyNames (s : State) (va : Nat) (src : Bool) : Bool :=
  match s.engineTranslate s.x (va + 20) .load with
  | .ok l => (if src then 1 else 4) * 2 = (s.seenByte s.x l).toNat &&& (if src then 3 else 12)
  | _ => false

/-- Reasons of a command's own limits: those of its chapter (05 R161 to R175, 09, 10, 12). -/
def State.ownReasons (s : State) (i : Instr) (word : QWord) (cmdw : Bool) (jv : QWord) : List Nat :=
  let k := s.cur
  let x := s.ctx s.x
  let f := s.firing
  let c := cmdOf word
  let o := c.operand.toNat
  let when_ (b : Bool) (r : Nat) : List Nat := if b then [r] else []
  let bufLoad : List Nat := when_ (c.flag 1 && c.flag 2) 0x12 ++
    when_ (c.flag 2 && (!fmtKnown (bitsOf o 63 60) || o % 2 ^ 32 = 0)) 0x19 ++
    when_ (c.flag 1 && (k.generator c.portA.toNat).isNone) 0x14
  let rows : List Nat := match x.tensor (bitsOf o 63 48) with
    | none => [0x15]
    | some t => when_ (t.tc ≤ o % 2 ^ 18) 0x15
  match i with
  | .ldAff _ => bufLoad
  | .ldTile _ => bufLoad
  | .stAff _ => bufLoad
  | .stTile _ => bufLoad
  | .gath _ => rows
  | .scat _ => rows
  | .copy _ =>
    let owned (h : Nat) (src : Bool) : Bool :=
      let d := k.handle h
      (h ≠ 0 || s.copyNames o src) && d.v && match Buf.of d.buf with
        | some b => !k.banksOpen b (d.base * 64) (d.count * d.bytes) f.cx
        | none => false
    when_ (owned c.hA.toNat false || owned c.hB.toNat true) 0x18
  | .fill _ =>
    let a := o % 2 ^ 20
    let n := (bitsOf o 29 20 + 1) * 64
    match bitsOf o 31 30 with
    | 1 => when_ (a % 64 ≠ 0 || Buf.size .a < a + n) 0x19 ++ when_ (!k.banksOpen .a a n f.cx) 0x18
    | 2 => when_ (a % 64 ≠ 0 || Buf.size .c < a + n) 0x19 ++ when_ (!k.banksOpen .c a n f.cx) 0x18
    | _ => [0x17]
  | .cfgLd _ => when_ (c.cflags.toNat % 8 = k.cx) 0x1A
  | .cfgSw _ =>
    let t := c.cflags.toNat % 8
    let coming := k.cmds.any fun e => opOf e.word = 0x10 && (cmdOf e.word).cflags.toNat % 8 = t &&
      (match e.stage with
        | .failed _ => false
        | _ => true)
    when_ (cmdw || ((look k.images t).isNone && !coming)) 0x1A
  | .bank _ =>
    let first := bitsOf o 22 16
    let n := bitsOf o 14 8 + 1
    let own := o % 16
    match bitsOf o 31 30 with
    | 1 => when_ (128 < first + n || (8 ≤ own && own ≤ 14)) 0x19 ++ when_ (!k.banksOpen .a (first * 4096) (n * 4096) f.cx) 0x18
    | 2 => when_ (128 < first + n || (8 ≤ own && own ≤ 14)) 0x19 ++ when_ (!k.banksOpen .c (first * 4096) (n * 4096) f.cx) 0x18
    | _ => [0x19]
  | .wld _ => match x.tensor (bitsOf o 63 48) with
    | none => []
    | some t => when_ (!arrayFmt t.fmt || 15 < bitsOf o 47 42 || 256 < tileWidth t.fmt * (bitsOf o 41 36 + 1)) 0x19
  | .mrun _ => k.runLimits c
  | .trun _ =>
    let mate := Nat.xor (s.now % 32) 1 + s.now / 32 * 32
    let inSheet := match x.sheetOf f with
      | some r => rectHas r mate
      | none => false
    k.runLimits c ++ when_ (c.flag 5 ≠ (s.now % 2 = 1) || !inSheet) 0x19
  | .spill _ => when_ (o % 64 ≠ 0 || Buf.size .c < o + 64 + 2048 * (c.cflags.toNat % 64 + 1)) 0x19 ++
      when_ (!k.banksOpen .c o (64 + 2048 * (c.cflags.toNat % 64 + 1)) f.cx) 0x18
  | .rest _ => when_ (o % 64 ≠ 0 || Buf.size .c < o + 64 + 2048 * (c.cflags.toNat % 64 + 1)) 0x19 ++
      when_ (!k.banksOpen .c o (64 + 2048 * (c.cflags.toNat % 64 + 1)) f.cx) 0x18
  | .fopen _ =>
    let v := jv.toNat
    let tid := bitsOf v 127 112
    let fmt := bitsOf v 76 73
    when_ (bitsOf v 41 25 ≠ 0 || (tid = 0 && !fmtKnown fmt) || (tid ≠ 0 && (fmt ≠ 0 || bitsOf v 72 54 ≠ 0))) 0x19 ++
      when_ (tid ≠ 0 && (x.tensor tid).isNone) 0x15 ++
      when_ (0x80000 < bitsOf v 111 93 + 4 * (bitsOf v 92 77 + 1) || bitsOf v 111 93 % 4 ≠ 0 || (tid = 0 && 0x80000 ≤ bitsOf v 72 54) ||
        4095 < bitsOf v 53 42 || (tid = 0 && bitsOf v 24 0 ≠ 0)) 0x19
  | .eqpart _ =>
    let ptr := o % 2 ^ 19
    let out := bitsOf o 37 19
    let nIn := 4 * (bitsOf o 63 48 + 2)
    let nOut := 4 * (bitsOf o 47 40 + 2)
    when_ (ptr % 4 ≠ 0 || out % 4 ≠ 0 || 0x80000 < ptr + nIn || 0x80000 < out + nOut || overlap ptr nIn out nOut) 0x19 ++
      when_ (!k.banksOpen .a ptr nIn f.cx || !k.banksOpen .a out nOut f.cx) 0x18
  | .hset _ =>
    let site := 216 + bitsOf o 31 28
    let first := bitsOf o 22 16
    let n := bitsOf o 14 8 + 1
    let w := k.node site
    let mine := (look k.fabric.hashes site).map fun h => h.2
    let ok (b : Nat) : Bool := k.bankOpen .c (b * 4096) f.cx || match mine with
      | some (f0, n0) => f0 ≤ b && b < f0 + n0
      | none => false
    when_ (w.op.toNat ≠ 0x21 || 3 * (256 * n) / 4 < bitsOf w.param.toNat 17 6 + 1 || 128 < first + n) 0x19 ++
      when_ (!(upto n).all fun j => ok (first + j)) 0x18
  | .hsetR _ => when_ ((k.node (216 + bitsOf o 31 28)).op.toNat ≠ 0x21) 0x19
  | .rsend _ =>
    let n := (bitsOf o 63 54 + 1) * 64
    let src := bitsOf o 52 40 * 64
    let dst := bitsOf o 38 26 * 64
    let bad := match (x.sheetOf f).bind fun r => insetOf r s.now (bitsOf o 15 13) (bitsOf o 12 10) with
      | none => true
      | some r => r.w ≤ bitsOf o 9 5 || r.h ≤ o % 32
    when_ (c.cflags.toNat % 4 = 3) 0x12 ++ when_ (bad || 0x80000 < src + n || 0x80000 < dst + n) 0x19 ++
      when_ (!k.banksOpen (acBuf (bitOf o 53)) src n f.cx) 0x18
  | .icollBcast _ => collective s c
  | .icollReduce _ => collective s c
  | .icollAllred _ => collective s c
  | .icollGather _ => collective s c
  | _ => []
where
  /-- The limits of a collective (12 R339). -/
  collective (s : State) (c : Cmd) : List Nat :=
    let o := c.operand.toNat
    let n := (bitsOf o 57 48 + 1) * 64
    let src := bitsOf o 46 34 * 64
    let dst := bitsOf o 33 21 * 64
    let b := acBuf (bitOf o 47)
    let inset := ((s.ctx s.x).sheetOf s.firing).bind fun r => insetOf r s.now (bitsOf o 10 8) (bitsOf o 7 5)
    let members := match inset with
      | none => 1
      | some r => r.w * r.h
    let total := if c.icollOp = 3 then n * members else n
    (if 4 ≤ c.icollOp || inset.isNone || bitsOf o 60 59 = 3 || members ≤ bitsOf o 20 11 || 0x80000 < src + n || 0x80000 < dst + total
      then [0x19] else []) ++
      (if s.cur.banksOpen b src n s.firing.cx && s.cur.banksOpen b dst total s.firing.cx then [] else [0x18])

/-- The reasons of one handle field: unused but nonzero, or unbound, in another buffer, of a refused slot size, with a wait above S,
or meeting a bank of another owner (05 R154). A command that streams through a port is under no owner here: its accesses wait (05
R158). The handles of a copy are checked when its descriptor is read, but for their waits and banks (05 R167). -/
def Core.handleReasons (k : Core) (role : Option (Bool × List Nat)) (unit : Nat) (h wait cx : Nat) (isCopy port : Bool) :
    List Nat :=
  match role with
  | none => if h ≠ 0 || wait ≠ 0 then [0x12] else []
  | some (_, bufs) =>
    if isCopy then (if (k.handle h).v && (k.handle h).count < wait then [0x17] else [])
    else
      let d := k.handle h
      (if !d.v || !bufs.contains d.buf || d.bytes % unit ≠ 0 || d.count < wait then [0x17] else []) ++
        match Buf.of d.buf with
        | some b => if d.v && !port && !k.banksOpen b (d.base * 64) (d.count * d.bytes) cx then [0x18] else []
        | none => []

/-- The command whose checks a word has: its own, or, for a reserved op of `icoll`, those of a collective (12 R339). -/
def checkedAs (word : QWord) : Option Instr := match cmdInstr word with
  | some i => some i
  | none => if opOf word = 0x29 then some (.icollReduce (cmdOf word)) else none

/-- The reason of a command fault at issue: the first of 05 R154's table that applies (02 R41). -/
def State.cmdFault (s : State) (word : QWord) (cmdw : Bool) (jv : QWord) : Option Nat :=
  let k := s.cur
  let x := s.ctx s.x
  let f := s.firing
  match checkedAs word with
  | none => some 0x11
  | some i =>
    match k.use i with
    | none => some 0x11
    | some u =>
      let c := cmdOf word
      let o := c.operand.toNat
      let isCopy := match i with
        | .copy _ => true
        | _ => false
      let port := 1 ≤ opOf word && opOf word ≤ 4
      let rs :=
        (if Nat.land c.cflags.toNat (255 - u.cmask) ≠ 0 || c.portB ≠ 0 || (u.port.isNone && c.portA ≠ 0) ||
            (u.layout = .x && Nat.land o u.zeros ≠ 0) then [0x12] else []) ++
        (if !c.p && c.pail ≠ 0 then [0x13] else []) ++
        (match u.port with
          | some out => if (32 ≤ c.portA.toNat) ≠ out || !k.portBound c.portA.toNat then [0x14] else []
          | none => []) ++
        (if u.layout = .t then match x.tensor (bitsOf o 63 48) with
          | none => [0x15]
          | some t => if t.hasTile (bitsOf o 35 18) (bitsOf o 17 0) then [] else [0x15]
        else []) ++
        (if u.layout = .l && (!canonical c.operand || o % u.align ≠ 0) then [0x16] else []) ++
        k.handleReasons u.hA u.unit c.hA.toNat c.waitA.toNat f.cx isCopy port ++
        k.handleReasons u.hB u.unit c.hB.toNat c.waitB.toNat f.cx isCopy port ++ s.ownReasons i word cmdw jv
      match rs with
      | [] => none
      | r :: l => some (l.foldl min r)

/-! ## `cmd` and `cmdw` (03 R93) -/

/-- Commands in the queue (03 R93). -/
def Core.queued (c : Core) : List CmdEntry := c.cmds.filter fun e => e.stage = .queued

/-- What is attached to a command at issue: the j register of an `fopen` (10 R286), the collective's number (12 R343), 1 to a run
that writes to C (09 R260), and to an `lsync` whether its launch is live (04 R135), with the launch's number above. -/
def Core.attach (k : Core) (i : Instr) (jv : QWord) : Nat := match i with
  | .fopen _ => jv.toNat
  | .mrun c => bit (k.writesC c)
  | .trun c => bit (k.writesC c)
  | .icollBcast c => (look k.colls (bitsOf c.operand.toNat 10 8, bitsOf c.operand.toNat 7 5)).getD 0
  | .icollReduce c => (look k.colls (bitsOf c.operand.toNat 10 8, bitsOf c.operand.toNat 7 5)).getD 0
  | .icollAllred c => (look k.colls (bitsOf c.operand.toNat 10 8, bitsOf c.operand.toNat 7 5)).getD 0
  | .icollGather c => (look k.colls (bitsOf c.operand.toNat 10 8, bitsOf c.operand.toNat 7 5)).getD 0
  | .lsync _ => jv.toNat % 2 ^ 64
  | .lsyncD _ => jv.toNat % 2 ^ 64
  | _ => 0

/-- A command enters the queue with its copy (03 R93); the collective counters rise at an `icoll` (12 R343). -/
def Core.enqueue (k : Core) (fid cx : Nat) (w : QWord) (jv : QWord) : Core :=
  let a := match cmdInstr w with
    | some i => k.attach i jv
    | none => 0
  let o := (cmdOf w).operand.toNat
  let key := (bitsOf o 10 8, bitsOf o 7 5)
  let colls := if opOf w = 0x29 then put k.colls key ((look k.colls key).getD 0 + 1) else k.colls
  let pos := if opOf w = 0x39 then jv.toNat / 2 ^ 64 else 0
  let e : CmdEntry := ⟨k.nextCmd, w, fid, cx, a, .queued, pos, 0, false, false, 0, []⟩
  let k' : Core := { k with cmds := k.cmds ++ [e], nextCmd := k.nextCmd + 1, colls := colls }
  k'.event 0x15 1 false

/-- Issue the command of q (03 R93): the fault, for which a word that has passed it and waits is not tested again, publication, room
in the queue of 32, entry. -/
def State.issueCmd (s : State) (q : Fin 16) (cmdw : Bool) (k : State → Nat → Res) : Res :=
  let w := s.q q
  let live := (s.ctx s.x).launch ((cmdOf w).operand.toNat % 65536)
  let jv : QWord := if opOf w = 0x39 then BitVec.ofNat 128 ((live.map fun l => 1 + l.serial * 2 ^ 64).getD 0) else s.fc.j.get (Fin.ofNat 8 (cmdOf w).cflags.toNat)
  match (if s.fc.checked then none else s.cmdFault w cmdw jv) with
  | some r => .next (s.raise 0x0A 0 r)
  | none =>
    (s.setFc { s.fc with checked := true }).publishThen fun s =>
      if 32 ≤ s.cur.queued.length then .next (s.block .queueRoom)
      else
        let o := (cmdOf w).operand.toNat
        let key := (bitsOf o 10 8, bitsOf o 7 5)
        let n := (look s.cur.colls key).getD 0
        let t := if opOf w = 0x29 then s.modFiring s.x s.fid fun f => { f with colls := f.colls ++ [(key, n)] } else s
        k (t.modCore s.now fun c => c.enqueue s.fid s.firing.cx w jv) s.cur.nextCmd

/-- `cmd` (03 R93). -/
def execCmd (q : Fin 16) (s : State) : Res := s.issueCmd q false fun s _ => .next s.advance

/-- `cmdw` (03 R93): it issues its command, blocks until the command completes, and a failure raises cause 0x0B (03 R94,
R72). -/
def execCmdw (q : Fin 16) (s : State) : Res :=
  match s.fc.waitCmd with
  | none => s.issueCmd q true fun s id => .next ((s.setFc { s.fc with waitCmd := some id }).block (.command id))
  | some id =>
    match s.cur.cmds.find? fun e => e.id = id with
    | none => .next (s.setFc { s.fc with waitCmd := none }).advance
    | some e => match e.stage with
      | .failed r => .next (s.raiseQuiet 0x0B r)
      | _ => .next (s.block (.command id))

end Sys2Proof.Machine
end

