-- ==== Sys2Proof/Machine/Sys.lean ====
section
/-!
DEFINITION. Circular-buffer handles (03 R95, 05 R150), the system registers (13 R375 to R382, 14 R405, R406), `trap`, `ebrk`,
`idle` (13 R383 to R385) and `hint` (14 R415).
-/
namespace Sys2Proof.Machine

/-! ## Handles (03 R95) -/

/-- The count checks of 03 R95 with cause 0x08: the handle is bound and n is at most S. -/
def State.handleThen (s : State) (h : Fin 64) (n : BitVec 8) (k : Handle → Res) : Res :=
  let d := s.cur.handle h.val
  if !d.v || d.count < n.toNat then .next (s.raise 0x08 0 0) else k d

/-- `adv.c`: the consumer releases n slots (03 R95), with the pins on them (05 R147). -/
def execAdvC (h : Fin 64) (n : BitVec 8) (s : State) : Res :=
  s.handleThen h n fun d =>
    if d.fill < n.toNat then .next (s.raise 0x08 0 0)
    else
      let t := s.releaseSlots h.val ((upto n.toNat).map fun i => (d.cons + i) % d.count)
      .next (t.modCore s.now fun c => c.setHandle h.val (d.consume n.toNat)).advance

/-- `adv.p`: the producer fills n slots (03 R95). -/
def execAdvP (h : Fin 64) (n : BitVec 8) (s : State) : Res :=
  s.handleThen h n fun d =>
    if d.free < n.toNat then .next (s.raise 0x08 0 0)
    else .next (s.modCore s.now fun c => c.setHandle h.val (d.produce n.toNat)).advance

/-- `hwait.c`: until n slots are filled (03 R95). -/
def execHwaitC (h : Fin 64) (n : BitVec 8) (s : State) : Res :=
  s.handleThen h n fun d =>
    if n.toNat ≤ d.fill then .next s.advance else .next (s.block (.handle h.val false n.toNat))

/-- `hwait.p`: until n slots are free (03 R95). -/
def execHwaitP (h : Fin 64) (n : BitVec 8) (s : State) : Res :=
  s.handleThen h n fun d =>
    if n.toNat ≤ d.free then .next s.advance else .next (s.block (.handle h.val true n.toNat))

/-- The kinds of a copy's operands, once its descriptor is attached (05 R167): source and destination. The descriptor's 32
bytes stand above bit 0 of attached, and bit 256 says that it has been read. -/
def copyKinds (attached : Nat) : Nat × Nat := (bitsOf attached 161 160, bitsOf attached 163 162)

/-- The roles that a command plays on hA and on hB, producer or not (05 R151, R161). -/
def Core.roleAB (k : Core) (e : CmdEntry) : Option Bool × Option Bool :=
  let (src, dst) := copyKinds e.attached
  let toC : Option Bool := if e.attached = 1 then some true else none
  match cmdInstr e.word with
  | none => (none, none)
  | some (.copy _) => (if dst = 2 then some true else none, if src = 2 then some false else none)
  | some (.mrun _) => (some false, toC)
  | some (.trun c) => (if c.flag 5 then none else some false, toC)
  | some i => match k.use i with
    | none => (none, none)
    | some u => (u.hA.map fun r => r.1, u.hB.map fun r => r.1)

/-- Handles that a command uses with their roles (05 R151, R161). -/
def Core.roles (k : Core) (e : CmdEntry) : List (Nat × Bool) :=
  let c := cmdOf e.word
  let r := k.roleAB e
  (match r.1 with
    | some p => [(c.hA.toNat, p)]
    | none => []) ++
  match r.2 with
    | some p => [(c.hB.toNat, p)]
    | none => []

/-- A copy has yet to read its descriptor: its roles are still unknown. -/
def CmdEntry.unreadCopy (e : CmdEntry) : Bool := opOf e.word = 0x0A && !bitOf e.attached 256

/-- A copy that has not read its descriptor as it would with the one that memory holds, which its program must not change (05
R167). -/
def State.asRead (s : State) (e : CmdEntry) : CmdEntry :=
  if !e.unreadCopy then e
  else
    let bs := (upto 32).map fun i => match s.engineTranslate s.x ((cmdOf e.word).operand.toNat + i) .load with
      | .ok l => s.seenByte s.x l
      | _ => 0
    { e with attached := leNat bs + 2 ^ 256 }

/-- A command of the acting core queued or running names a handle (05 R150): by the role it plays on it, or, of a copy whose
descriptor is unread, by a field that is not 0. -/
def State.handleBusy (s : State) (h : Nat) : Bool :=
  s.cur.cmds.any fun e => ((s.cur.roles (s.asRead e)).any fun r => r.1 = h) ||
    (e.unreadCopy && h ≠ 0 && ((cmdOf e.word).hA.toNat = h || (cmdOf e.word).hB.toNat = h))

/-- The value of sy.hd (05 R150); fill and free read 0 while unbound. -/
def Handle.pack (h : Handle) : Nat :=
  bit h.v * 2 ^ 63 + h.buf * 2 ^ 61 + h.slots * 2 ^ 48 + h.size * 2 ^ 36 +
    (if h.v then h.fill * 2 ^ 27 + h.free * 2 ^ 18 else 0) + h.base

/-- A write of sy.hd: the handle bound or unbound, or none where it raises cause 0x08 (05 R150). -/
def State.bindHandle (s : State) (h : Nat) (v : Nat) : Option Handle :=
  let slots := bitsOf v 55 48
  let d : Handle := ⟨bitOf v 63, bitsOf v 62 61, slots, bitsOf v 47 36, bitsOf v 13 0, 0, if bitOf v 63 then slots + 1 else 0, 0, 0⟩
  if s.handleBusy h then none
  else if !d.v then some d
  else match Buf.of d.buf with
    | none => none
    | some b => if b.size < d.base * 64 + d.count * d.bytes then none else some d

/-! ## System registers: values -/

/-- A set in the layout of 14 R393 as its fields. -/
def RatioSet.ofWord (v : Nat) : RatioSet := ⟨v % 256, v / 256 % 256, v / 65536 % 256, v / 16777216 % 256⟩

/-- Every field lies from 4 to its domain's ceiling (14 R393). -/
def RatioSet.legal (r : RatioSet) : Bool :=
  4 ≤ r.m && r.m ≤ 20 && 4 ≤ r.v && r.v ≤ 24 && 4 ≤ r.n && r.n ≤ 20 && 4 ≤ r.d && r.d ≤ 16

/-- sy.coord (01 R19). -/
def coordWord (k : CoreId) : Nat :=
  clusterOf k * 2 ^ 25 + k / 32 / 8 * 2 ^ 23 + k % 32 / 4 * 2 ^ 20 + k / 32 * 2 ^ 5 + k % 32

/-- sy.ctx (13 R378). -/
def ctxWord (c : Context) (r : Rect) : Nat :=
  (r.h - 1) % 32 * 2 ^ 47 + (r.w - 1) % 32 * 2 ^ 42 + r.y * 2 ^ 37 + r.x * 2 ^ 32 + c.tok % 16 * 2 ^ 20 + bit c.port * 2 ^ 18 +
    bit c.imm * 2 ^ 17 + bit c.priv * 2 ^ 16 + c.id

/-- sy.fire (13 R379). -/
def fireWord (f : Firing) (n : Nat) : Nat :=
  (if f.kind = .message then 0 else f.tag * 2 ^ 48) + f.kind.code * 2 ^ 30 + f.cx * 2 ^ 24 + f.entry * 2 ^ 16 + n

/-- The fill of the undo log in 64ths (13 R380). -/
def Context.undoFill (c : Context) : Nat := min 63 (c.undo.length * 64 / c.undoRoom)

/-- sy.datum (13 R380). -/
def datumWord (c : Context) : Nat :=
  c.hold * 2 ^ 48 + c.gen % 65536 * 2 ^ 16 + bit c.pend * 128 + bit c.req * 64 + c.undoFill

/-- sy.clkgrant (14 R406). -/
def grantWord (c : Cluster) : Nat := c.mv * 2 ^ 52 + c.seq % 256 * 2 ^ 40 + bit c.target.isSome * 2 ^ 32 + c.set.pack

/-- sy.soft (13 R381): field n, from bank errors up, stands at bit 8n. -/
def softWord (c : Core) : Nat := ((upto 6).map fun n => (look c.soft n).getD 0 * 2 ^ (8 * n)).sum

/-- The value that a read of a system register returns (13 R377, 14 R405); none for a number that names none. -/
def State.sysRead (s : State) (n : Nat) : Option Nat :=
  let k := s.cur
  let c := s.ctx s.x
  let cl := s.cluster (clusterOf s.now)
  let part := s.partOf s.now
  let r := (part.map fun p => p.rect).getD ⟨0, 0, 0, 0⟩
  let ev (i : Nat) : EventCounter := k.counters.get (Fin.ofNat 4 i)
  match n with
  | 0x000 => some (coordWord s.now)
  | 0x001 => some (ctxWord c r)
  | 0x002 => some (fireWord s.firing k.run.val)
  | 0x003 => some (((k.msgWin + BitVec.ofNat 64 (2048 * k.run.val)).toNat / 2048) * 2048)
  | 0x008 => some s.fc.aflags.pack
  | 0x009 => some k.nflags.pack
  | 0x00A => some (bitsOf c.pailVa.toNat 56 12 * 4096)
  | 0x020 => some (bitsOf c.stopBase 56 16 * 65536)
  | 0x021 => some (datumWord c)
  | 0x022 => some (bitsOf c.undoBase 56 16 * 65536 + c.undoSize % 65536)
  | 0x023 => some (k.guard % 2 ^ 32)
  | 0x024 => some (softWord k)
  | 0x025 => some (k.spare.toNat % 2 ^ 32)
  | 0x040 => some (grantWord cl)
  | 0x041 => some (cl.reason * 2 ^ 56 + cl.req)
  | 0x042 => some cl.clkdef
  | 0x043 => some cl.vfloor
  | 0x044 => some (((part.map fun p => p.pshare.toNat).getD 0) % 65536)
  | 0x045 => some cl.pcoef.toNat
  | 0x046 => some (cl.throttleAmp * 65536 + cl.throttleTheta)
  | 0x047 => some cl.timer
  | 0x048 => some cl.sample
  | _ =>
    if 0x04C ≤ n && n ≤ 0x04F then some (bit (ev (n - 0x04C)).tag * 512 + bit (ev (n - 0x04C)).en * 256 + (ev (n - 0x04C)).ev)
    else if 0x050 ≤ n && n ≤ 0x053 then some (ev (n - 0x050)).count
    else if 0x054 ≤ n && n ≤ 0x057 then some (ev (n - 0x054)).smp
    else if 0x058 ≤ n && n ≤ 0x05F then
      let q := (nth c.quotas (n - 0x058) 0).toNat
      some (bit (bitOf q 63) * 2 ^ 63 + bit (c.drained.contains (n - 0x058)) * 2 ^ 62 + q % 2 ^ 48)
    else if 0x100 ≤ n && n ≤ 0x13F then some (k.handle (n - 0x100)).pack
    else none

/-! ## System registers: writes -/

/-- Registers that hold P fields, which the unprivileged view does not read (00 R8, 13 R376). -/
def sysHidden (n : Nat) : Bool := [0x020, 0x022, 0x023, 0x024, 0x044, 0x045, 0x046].contains n

/-- Registers that hold a P or PW field, which the unprivileged view does not write (13 R376). -/
def sysGuarded (n : Nat) : Bool :=
  sysHidden n || [0x001, 0x00A, 0x021, 0x042, 0x043, 0x048].contains n || (0x04C ≤ n && n ≤ 0x04F) || (0x058 ≤ n && n ≤ 0x05F)

/-- A change that the arbiter has to consider at the first multiple of 50 ticks after it (14 R397): an earlier one that waits for
its evaluation keeps its tick, but for a cluster that is not evaluated yet (14 R427). -/
def Cluster.mark (c : Cluster) : Cluster :=
  { c with changedAt := some (if c.loaded = 15 then c.changedAt.getD c.timer else c.timer) }

/-- A write of register n of sy.clkdef, sy.vfloor, sy.pcoef and sy.pshare has been done on a cluster (14 R397, R427): the register
is loaded, and the arbiter has a change to consider where the write loads it or gives it another value. -/
def Cluster.changed (c : Cluster) (n : Nat) (differs : Bool) : Cluster :=
  if differs || !bitOf c.loaded n then { c.mark with loaded := Nat.lor c.loaded (2 ^ n) } else c

/-- A write of sy.clkdef: illegal fields leave it (14 R406). -/
def Cluster.writeClkdef (c : Cluster) (v : Nat) : Cluster :=
  if (RatioSet.ofWord v).legal then { c with clkdef := v % 2 ^ 32 }.changed 0 (c.clkdef ≠ v % 2 ^ 32) else c

/-- A write of sy.vfloor: values outside its range leave it (14 R406). -/
def Cluster.writeVfloor (c : Cluster) (v : Nat) : Cluster :=
  if 580 ≤ v && v ≤ 980 then { c with vfloor := v }.changed 1 (c.vfloor ≠ v) else c

/-- A write of sy.pcoef (14 R406). -/
def Cluster.writePcoef (c : Cluster) (w : Word) : Cluster := { c with pcoef := w }.changed 2 (c.pcoef ≠ w)

/-- A write of sy.evsel under context x (14 R406, R412): a reserved event is written as 0, and enabling clears the counter. It
counts where a context runs, unless a halt line stands (17 R420). -/
def EventCounter.select (e : EventCounter) (x v : Nat) (halted : Bool) : EventCounter :=
  let ev := v % 256
  let en := bitOf v 8
  { e with
    tag := bitOf v 9, en := en, owner := x, live := x ≠ 0 && !halted, ev := if 0x01 ≤ ev && ev ≤ 0x15 then ev else 0
    count := if en && !e.en then 0 else e.count
    sampled := if en && !e.en then 0 else e.sampled }

/-- The remaining energy of a class, in µJ (14 R406). -/
def quotaRem (q : Word) : Int := signed 48 q.toNat

/-- A write of sy.quota: def and rem are stored; a defined class whose rem is written zero or negative drains (14 R409; log 96), and
a drain ends when every drained class has a positive rem (14 R406, R410). -/
def Context.writeQuota (c : Context) (n : Nat) (v : Word) : Context :=
  let q := updNth c.quotas n fun _ => v &&& 0x8000FFFFFFFFFFFF#64
  let spent := bitOf v.toNat 63 && quotaRem v ≤ 0 && !c.drained.contains n
  let drained := if spent then c.drained ++ [n] else c.drained
  let ended := drained.all fun d => 0 < quotaRem (nth q d 0)
  { c with quotas := q, drained := if ended then [] else drained, draining := c.draining && !ended }

/-- A write of sy.datum (13 R380): the hold time, and a request where bit 6 is 1. -/
def Context.writeDatum (c : Context) (v : Nat) : Context :=
  { c with hold := bitsOf v 63 48, req := c.req || bitOf v 6 }

/-- A write of sy.soft clears the fields it writes 0 to (13 R381; log 17). -/
def Core.writeSoft (c : Core) (v : Nat) : Core :=
  { c with soft := c.soft.filter fun e => v / 2 ^ (8 * e.1) % 256 ≠ 0 }

/-- A write of a register that the caller may write: fields it may not write and reserved fields are ignored (13 R376, R382).
Handles are written by 05 R150. -/
def State.sysWrite (s : State) (n : Nat) (w : Word) : State :=
  let v := w.toNat
  let x := s.x
  let cl := clusterOf s.now
  let ctxOp (f : Context → Context) : State := if (look s.ctxs x).isSome then s.modCtx x f else s
  match n with
  | 0x001 => ctxOp fun c => { c with tok := bitsOf v 23 20 }
  | 0x008 => s.setFc { s.fc with aflags := s.fc.aflags.written v }
  | 0x009 => s.modCore s.now fun c => { c with nflags := c.nflags.written v }
  | 0x00A =>
    let a := bitsOf v 56 12 * 4096 + (if bitOf v 56 then 2 ^ 64 - 2 ^ 57 else 0)
    ctxOp fun c => { c with
      pailVa := BitVec.ofNat 64 a
      pailPa := match (pageOf c.pages a).filter fun p => !p.onHost with
        | some p => (pageLoc p a).addr
        | none => c.pailPa }
  | 0x020 => ctxOp fun c => { c with stopBase := bitsOf v 56 16 * 65536 }
  | 0x021 => ctxOp fun c => c.writeDatum v
  | 0x022 => ctxOp fun c => { c with undoBase := bitsOf v 56 16 * 65536, undoSize := v % 65536 }
  | 0x023 => s.modCore s.now fun c => { c with guard := v % 2 ^ 32 }
  | 0x024 => s.modCore s.now fun c => c.writeSoft v
  | 0x042 => s.modCluster cl fun c => c.writeClkdef v
  | 0x043 => s.modCluster cl fun c => c.writeVfloor (v % 4096)
  | 0x044 => match s.partOf s.now with
    | none => s
    | some p =>
      let s := s.modPart p.id fun q => { q with pshare := BitVec.ofNat 64 (v % 65536) }
      ((rectCores p.rect).map clusterOf).eraseDups.foldl (fun t c => t.modCluster c fun d => d.changed 3 (p.pshare.toNat ≠ v % 65536)) s
  | 0x045 => s.modCluster cl fun c => c.writePcoef w
  | 0x046 => s.modCluster cl fun c => { c with throttleAmp := bitsOf v 31 16, throttleTheta := v % 16 }
  | 0x048 => s.modCluster cl fun c => { c with sample := v % 65536 }
  | _ =>
    if 0x04C ≤ n && n ≤ 0x04F then
      s.modCore s.now fun c => { c with counters := c.counters.mapIdx fun i e => if i = n - 0x04C then e.select x v ((s.partOf s.now).any fun p => p.halt) else e }
    else if 0x058 ≤ n && n ≤ 0x05F then ctxOp fun c => c.writeQuota (n - 0x058) w
    else s

/-- The caller's view: the firing's context is privileged or not (13 R375). -/
def State.privileged (s : State) : Bool := (s.ctx s.x).priv

/-- `mfsy` (13 R382): a register of the other view raises cause 0x14 (13 R376); a number that names none is no instruction
(13 R377). -/
def execMfsy (d : Fin 32) (r : BitVec 12) (s : State) : Res :=
  match s.sysRead r.toNat with
  | none => .next (s.raise 0x01 0 0)
  | some v =>
    if sysHidden r.toNat && !s.privileged then .next (s.raise 0x14 0 0)
    else .next (s.setG d (BitVec.ofNat 64 v)).advance

/-- `mtsy` (13 R382). -/
def execMtsy (a : Fin 32) (r : BitVec 12) (s : State) : Res :=
  let n := r.toNat
  if !sysnoNamed n then .next (s.raise 0x01 0 0)
  else if sysGuarded n && !s.privileged then .next (s.raise 0x14 0 0)
  else if 0x100 ≤ n then
    match s.bindHandle (n - 0x100) (s.g a).toNat with
    | none => .next (s.raise 0x08 0 0)
    | some h => .next (s.modCore s.now fun c => c.setHandle (n - 0x100) h).advance
  else .next (s.sysWrite n (s.g a)).advance

/-- A management core, for itself or the driver, writes a register of a core in the privileged view (13 R375, R376): a handle as 05
R150 lets it, and any other register as an `mtsy` would. -/
def State.privWrite (s : State) (n : Nat) (w : Word) : State :=
  if !sysnoNamed n then s
  else if 0x100 ≤ n then match s.bindHandle (n - 0x100) w.toNat with
    | none => s
    | some h => s.modCore s.now fun c => c.setHandle (n - 0x100) h
  else s.sysWrite n w

/-- A management core, for itself or the driver, reads a register of a core in the privileged view (13 R375). -/
def State.privRead (s : State) (n : Nat) : State := match s.sysRead n with
  | some v => { s with notices := s.notices ++ [Notice.register s.now n v] }
  | none => s

/-- SY_HD_WRITE: a write of a handle descriptor of the core that acts, refused as cause 0x08 would leave it (05 R150). -/
def execSyHdWrite (h : Fin 64) (v : Word) (s : State) : Res :=
  match s.bindHandle h.val v.toNat with
  | none => .next s
  | some d => .next (s.modCore s.now fun c => c.setHandle h.val d)

/-- SY_DATUM_REQ_WRITE: writing 1 to sy.datum.req requests a datum (13 R380). -/
def execSyDatumReqWrite (x : Nat) (s : State) : Res :=
  if (look s.ctxs x).isSome then .next (s.modCtx x fun c => { c with req := true }) else .next s

/-- SY_QUOTA_WRITE (14 R406, R410). -/
def execSyQuotaWrite (x : Nat) (n : Fin 8) (v : Word) (s : State) : Res :=
  if (look s.ctxs x).isSome then .next (s.modCtx x fun c => c.writeQuota n.val v) else .next s

/-- SY_EVSEL_WRITE (14 R406). -/
def execSyEvselWrite (k : CoreId) (n : Fin 4) (v : Word) (s : State) : Res :=
  let halt := (s.partOf k).any fun p => p.halt
  .next (s.modCore k fun c => { c with
    counters := c.counters.mapIdx fun i e => if i = n.val then e.select (s.cxId k) v.toNat halt else e })

/-- SY_CLKDEF_WRITE (14 R396, R406). -/
def execSyClkdefWrite (cl : Nat) (v : Word) (s : State) : Res := .next (s.modCluster cl fun c => c.writeClkdef v.toNat)

/-! ## System instructions (13 R383 to R385) -/

/-- `trap` (13 R383). -/
def execTrap (c : BitVec 12) (s : State) : Res := .next (s.raise 0x12 0 c.toNat)

/-- `ebrk` completes and then raises the halt with cause 0x13; its record holds the address of the `ebrk`, and the context
keeps its registers (13 R384). -/
def execEbrk (s : State) : Res :=
  let k := s.now
  let n := s.cur.run
  let s := s.raiseHalt k
  let s := s.writeRecord k n.val (s.fcRecord k n 0x13 true (s.wordAtPc k n) 0 0)
  let s := s.advance
  .next (s.modCore k fun c =>
    let c := { c with origins := put c.origins n.val 0x13 }
    (c.setFc n { c.fc n with status := .ready, stopped := true }).switch)

/-- `idle` blocks until a word enters a queue, a command of the firing completes, or 65,536 V-cycles pass (13 R385). -/
def execIdle (s : State) : Res := if s.fc.expired then .next s.advance else .next (s.block .idle)

/-- Contexts that a blocked `idle` holds go on: all of a core's, or those of one firing (13 R385). -/
def Core.endIdle (c : Core) (fid : Option Nat) : Core :=
  { c with fcs := c.fcs.map fun f =>
      if f.status = .blocked .idle && (match fid with
        | none => true
        | some i => f.fid = i) then { f with expired := true } else f }

/-- IDLE_TIMEOUT: 65,536 V-cycles pass (13 R385). -/
def execIdleTimeout (k : CoreId) (c : Nat) (s : State) : Res :=
  let n := Fin.ofNat 8 c
  let f := (s.core k).fc n
  if f.status = .blocked .idle && !f.stopped then .next (s.modCore k fun d => d.setFc n { f with expired := true }) else .next s

/-- `hint` sets the firing's hint and counts event 0x13 (14 R415). -/
def State.hint (s : State) (h : Hint) : Res :=
  let cl := clusterOf s.now
  let n := (s.cluster cl).hintCount + 1
  let s := s.modCluster cl fun c => { c with hintCount := n }
  let s := s.modCore s.now fun c => c.event 0x13 1 false
  .next (s.setFc { s.fc with hint := some h, hintSerial := n }).advance

/-- `hint compute` (14 R415). -/
def execHintCompute (s : State) : Res := s.hint .compute

/-- `hint memory` (14 R415). -/
def execHintMemory (s : State) : Res := s.hint .memory

/-- `hint wait` (14 R415). -/
def execHintWait (s : State) : Res := s.hint .wait

end Sys2Proof.Machine
end

