-- ==== Sys2Proof/Machine/Unit.lean ====
section
/-!
DEFINITION. Units other than firing contexts, when they fail: the record of the unit (13 R350 to R352, R426), the pail and the
halt line (03 R94, 05 R155, 11 R315), and the queued atomics of the L1 (11 R310).
-/
namespace Sys2Proof.Machine

/-! ## Commands of a core -/

/-- A command in flight by its number. -/
def Core.cmdEntry (c : Core) (id : Nat) : Option CmdEntry := c.cmds.find? fun e => e.id = id

/-- Change a command. -/
def Core.modCmd (c : Core) (id : Nat) (f : CmdEntry → CmdEntry) : Core :=
  { c with cmds := c.cmds.map fun e => if e.id = id then f e else e }

/-- The number of the core record of the unit that runs a command, by opcode (13 R426). -/
def unitOf (op : Nat) : Nat :=
  if [0x0A, 0x0B, 0x22, 0x23, 0x24].contains op then 11
  else if op = 0x05 then 12
  else if 0x18 ≤ op && op ≤ 0x1D then 9
  else if op = 0x28 || op = 0x29 then 13
  else if (0x10 ≤ op && op ≤ 0x15) || op = 0x38 || op = 0x39 then 14
  else 15

/-- The kind of a core record (13 R351). -/
def recordKind (r : Nat) : Nat := if r < 8 then 1 else r - 6

/-- A command's place among the core's commands in flight. -/
def Core.queuePos (c : Core) (id : Nat) : Nat := (c.cmds.findIdx? fun e => e.id = id).getD 0

/-- A command's copy, the bytes it has moved and its place: bytes 0x10 to 0x3F of records 11 and 12 (13 R352). -/
def Core.engineBody (c : Core) (e : CmdEntry) : List Byte :=
  leBytes 16 e.word.toNat ++ leBytes 4 e.count ++ leBytes 1 (c.queuePos e.id) ++ leBytes 27 0

/-- A packet carries data of a command. -/
def Packet.isOf (p : Packet) (id : Nat) : Bool := (p.cls = .bulk || p.cls = .collective) && p.cmd = id

/-- Fields of an `rsend`'s or `icoll`'s record: the offset of its first piece not sent (12 R333). -/
def Core.ringBody (c : Core) (e : CmdEntry) : List Byte :=
  let o := (cmdOf e.word).operand.toNat
  let base := if opOf e.word = 0x28 then bitsOf o 38 26 * 64 else 0
  let left := (c.inject.filter fun p => p.isOf e.id).map fun p => p.addr - base
  let next := if e.pos = 0 then 0
    else match left with
      | [] => ((if opOf e.word = 0x28 then bitsOf o 63 54 else bitsOf o 57 48) + 1) * 64
      | a :: r => r.foldl min a
  leBytes 16 e.word.toNat ++ leBytes 4 next ++ leBytes 28 0

/-- Bytes 0x10 to 0x3F of record 14, with 16 bytes that it copies (13 R352). -/
def Core.pathBody (c : Core) (copy : List Byte) : List Byte :=
  let faulted := (upto 8).any fun n => look c.origins n = some 0x0A
  leBytes 1 (c.cmds.filter fun e => e.stage = .queued).length ++ leBytes 1 (c.cmds.filter fun e => e.stage ≠ .queued).length ++
    leBytes 1 (if faulted then c.queued.length else 0) ++ leBytes 13 0 ++ copy ++ leBytes 16 0

/-- Bytes 0x10 to 0x3F of record 15: the tensor, the plate and the memory port (13 R352). -/
def portBody (via : Option (Nat × Nat × Nat)) (reason : Nat) : List Byte := match via with
  | none => leBytes 48 0
  | some (t, p, port) =>
    leBytes 2 t ++ leBytes 2 0 ++ leBytes 4 p ++ leBytes 1 (if [0x22, 0x23, 0x24].contains reason then port else 0) ++ leBytes 39 0

/-- Bytes 0x10 to 0x3F of record 9 (13 R352). -/
def Core.arrayBody (c : Core) (place : Nat) : List Byte :=
  let a := c.array
  let plane (n : Nat) : Plane := nth a.planes n Plane.reset
  let run (f : Run → Nat) : Nat := (a.run.map f).getD 0
  leBytes 2 (a.cut.getD (run fun r => r.completed)) ++ leBytes 1 a.passes ++
    leBytes 1 (bit ((plane 0).stage = .loaded) + bit ((plane 1).stage = .loaded) * 2) ++
    leBytes 2 (run fun r => r.aRec) ++ leBytes 2 (run fun r => r.bRec) ++ leBytes 8 (plane 0).source.toNat ++
    leBytes 8 (plane 1).source.toNat ++ leBytes 1 ((plane 0).version % 8 + (plane 1).version % 8 * 8) ++ leBytes 1 place ++ leBytes 6 0 ++
    leBytes 8 (bitsOf a.tableSource.toNat 56 6 * 64 + (a.tableRows - 1) % 64) ++ leBytes 8 0

/-- The code and flags that a record has: origin, idle, resumable and others as the caller gives them. -/
def State.unitRecord (s : State) (k : CoreId) (r flags code : Nat) (body : List Byte) : List Byte :=
  s.recordHead k (recordKind r) flags code 0 ++ body

/-- A count of sy.soft goes up, to 255 at most (13 R381). n: 0 bank, 1 core, 2 fifo, 3 chk, 4 l2, 5 unc. -/
def Core.countError (c : Core) (n : Nat) : Core := { c with soft := put c.soft n (min 255 ((look c.soft n).getD 0 + 1)) }

/-- Units that continue from their stop under 13 R356. -/
def flagResumable : Nat := 4

/-- A unit of a core detects a fault before it stops: the halt line rises, and its record holds the reason with the origin
flag (13 R345, R349, R426). A unit whose record is written has stopped and detects nothing. -/
def State.unitFault (s : State) (k : CoreId) (r code flags : Nat) (body : List Byte) : State :=
  let s := s.raiseHalt k
  if (s.core k).records.contains r then s
  else (s.writeRecord k r (s.unitRecord k r (1 + flags) code body)).modCore k fun c => { c with origins := put c.origins r code }

/-- The array detects a fault before it stops: the halt line rises, and the fault stands for its record and, where a command met it,
the command for the record's continuation (13 R426). It then stops at its cut as at any halt (09 R272, R273). -/
def State.arrayFault (s : State) (k : CoreId) (code : Nat) (word : QWord) : State :=
  let s := s.raiseHalt k
  if (s.core k).records.contains 9 || (look (s.core k).origins 9).isSome then s
  else s.modCore k fun c => { c with origins := put c.origins 9 code, arrayFault := some word }

/-- A failed command's pail takes the failed state (11 R315). -/
def State.failPail (s : State) (x i reason : Nat) : State := s.setPail x i { s.pail x i with state := 2, reason := reason }

/-- The firings of a core that meet a command's failure as it is recorded (03 R94): the one blocked on it in a `cmdw`, and its
issuer where that waits for its commands in a `phase` or `fence.c`, end with cause 0x0B. -/
def State.failWaiters (s : State) (k : CoreId) (e : CmdEntry) (reason : Nat) : State :=
  (List.finRange 8).foldl (fun t n =>
    let f := (t.core k).fc n
    let meets : Bool := !f.stopped && match f.status with
      | .blocked (.command id) => id = e.id
      | .blocked .commands => f.fid = e.fid
      | _ => false
    if meets then t.quietAt k n 0x0B reason else t) s

/-- The unit that ran a failed command detects the failure (13 R349, R426). The array goes on to its cut, and its two records are
written when it has stopped (09 R272); any other unit stops and records at once. -/
def State.recordFailure (s : State) (k : CoreId) (e : CmdEntry) (reason : Nat) (via : Option (Nat × Nat × Nat)) : State :=
  let c := s.core k
  match unitOf (opOf e.word) with
  | 9 => s.arrayFault k reason e.word
  | 13 => s.unitFault k 13 reason (if opOf e.word = 0x29 then 0 else flagResumable) (c.ringBody e)
  | 14 => s.unitFault k 14 reason flagResumable (c.pathBody (leBytes 16 e.word.toNat))
  | 15 => s.unitFault k 15 reason flagResumable (portBody via reason)
  | r => s.unitFault k r reason flagResumable (c.engineBody e)

/-- A command fails after issue (03 R94, 05 R155, 13 R426): the halt line rises, the unit that ran it records the reason, its pail
fails, a memory port that met it for another unit holds the place for its own record, and the firings that wait on the command end
with cause 0x0B. It writes nothing more. -/
def State.failCommand (s : State) (k : CoreId) (e : CmdEntry) (reason : Nat) (via : Option (Nat × Nat × Nat)) : State :=
  let cmd := cmdOf e.word
  let s := s.recordFailure k e reason via
  let s := match via with
    | some (t, p, port) => if unitOf (opOf e.word) = 15 then s
        else s.modCore k fun c => { c with portFault := some (c.portFault.getD (t, p, port, reason)) }
    | none => s
  let s := if cmd.p && (look s.ctxs (s.cxId k)).isSome then s.failPail (s.cxId k) cmd.pail.toNat reason else s
  let s := s.modCore k fun c => c.modCmd e.id fun e => { e with stage := .failed reason }
  s.failWaiters k e reason

/-! ## Queued atomics (11 R310) -/

/-- AMON_PERFORM: the oldest queued atomic of a core is performed at its L1, which owns the line alone for it (11 R308); its
fp32 flags go to sy.nflags (11 R312). One whose address no longer translates is reported as a command failure without a
pail, and stands where it is until firmware acts. It waits while the undo log has no room (13 R364). -/
def execAmonPerform (k : CoreId) (s : State) : Res :=
  match (if (s.core k).records.contains 14 then [] else (s.core k).amons) with
  | [] => .next s
  | a :: r =>
    let x := s.cxId k
    let n := amoBytes a.double
    let rest (t : State) : State := t.modCore k fun c => { c with amons := r }
    let fail (reason : Nat) : Res :=
      let copy := leBytes 8 a.va.toNat ++ leBytes 4 a.word.toNat ++ leBytes 4 0
      .next (s.unitFault k 14 reason flagResumable ((s.core k).pathBody copy))
    match s.engineTranslate x a.va.toNat .store with
    | .ok l =>
      if (s.ctx x).undoFull l.line then .next s
      else
        let old := leNat (s.seenBytes x l n)
        let v := a.operand.toNat % 2 ^ (8 * n)
        let o := AmoOp.of a.op
        let s := rest s
        let s := s.ownLine k l.line
        let s := s.amoWrite k (Fin.ofNat 8 a.fc) a.fid l (leBytes n (o.apply (8 * n) old v)) false
        .next (if o = .fadd then s.modCore k fun c => { c with nflags := c.nflags.or (faddWord old v).2 } else s)
    | .nowhere a => .fault (.noSuchMemory a)
    | .perm => fail 0x22
    | _ => fail 0x21

end Sys2Proof.Machine
end

