-- ==== Sys2Proof/Machine/Wake.lean ====
section
/-!
DEFINITION. Blocked firing contexts going on: FIRING_CONTEXT_WAKE (03 R62), with the service of granule waiters in order
(03 R89), and the fetch of a word (03 R67, R68).
-/
namespace Sys2Proof.Machine

/-! ## Granule waiters (03 R89) -/

/-- A context that blocked earlier on the same granule, and that a waiter has to let go first: any earlier one before a
consume, an earlier consume before a peek. -/
def Core.goesFirst (c : Core) (n : Fin 8) (buf g : Nat) (consume : Bool) : Bool :=
  (List.finRange 8).any fun m =>
    m ≠ n && !(c.fc m).stopped && (c.fc m).blockedAt < (c.fc n).blockedAt && match (c.fc m).status with
      | .blocked (.full b h q _) => b = buf && h = g && (consume || q)
      | _ => false

/-- The meaning of a word that can wait on a granule. -/
def serveWord (i : Instr) (s : State) : Res := match i with
  | .ldbFe d a x o => execLdbFe d a x o s
  | .ldbPk d a x o => execLdbPk d a x o s
  | .ldbxFe d a b x => execLdbxFe d a b x s
  | .ldbxPk d a b x => execLdbxPk d a b x s
  | .fibOpen d a b => execFibOpen d a b s
  | .fibSet d a b => execFibSet d a b s
  | .fibAdv d => execFibAdv d s
  | .fibSeek d a => execFibSeek d a s
  | _ => .next s

/-- A context keeps its place among the waiters on a granule and takes no part in issue. -/
def FiringCtx.aside (f : FiringCtx) : FiringCtx := match f.status with
  | .blocked _ => f
  | _ => { f with status := .free }

/-- A waiter's word is performed in its turn on a granule, as one step toward every other agent on the buffer (03 R88): the
context's word runs alone, and the context is then ready, or blocked on a further granule behind those that wait there. -/
def State.serve (s : State) (k : CoreId) (n : Fin 8) (at_ : Nat × Nat) (i : Instr) : Res :=
  let c := s.core k
  let alone : Core := { c with
    run := n
    fcs := c.fcs.mapIdx fun m f => if m = n.val then { f with status := .running, turns := f.turns ++ [at_] } else f.aside }
  let was := s.now
  match serveWord i { s.setCore k alone with now := k } with
  | .next t =>
    let d := t.core k
    let f := d.fc n
    let f := if f.status = .running then { f with status := FcStatus.ready } else f
    let e : Core := { d with fcs := c.fcs.set n f, run := c.run }
    let e := if (e.fc e.run).status = .running then e else ({ e with run := n - 1 } : Core).switch
    .next { t.setCore k e with now := was }
  | o => o

/-! ## FIRING_CONTEXT_WAKE (03 R62) -/

/-- What a blocked context waits for has come about. A miss is answered whenever its answer comes. -/
def State.wakes (s : State) (k : CoreId) (n : Fin 8) (w : WaitFor) : Bool :=
  let c := s.core k
  let f := c.fc n
  let x := s.cxId k
  match w with
  | .publication => f.pub = [] && !c.queuedAtomic f.fid
  | .translation _ => true
  | .line _ _ => true
  | .code _ => true
  | .full b g q _ => (match Buf.of b with
      | some b' => c.full b' g
      | none => false) && !c.goesFirst n b g q
  | .empty b g => (match Buf.of b with
      | some b' => !c.full b' g
      | none => true)
  | .handle h producer m => m ≤ (if producer then (c.handle h).free else (c.handle h).fill) || !(c.handle h).v
  | .queueRoom => c.queued.length < 32
  | .command id => match c.cmdEntry id with
      | none => true
      | some e => (match e.stage with
        | .failed _ => true
        | _ => false)
  | .commands => c.cmdsOf f.fid = [] || (c.failedCmd f.fid).isSome
  | .atomics l => !s.atomicOn k f.fid l
  | .watched _ ls => ls.any f.seen || f.expired
  | .pail i gen => (s.pail x i).gen ≠ gen || (s.pail x i).state = 2
  | .idle => f.expired
  | .undoRoom => (s.ctx x).undo.length < (s.ctx x).undoRoom

/-- What the answer to a miss brings: a page to the MMU, a line to an L1 (03 R67, R68, 11 R309). -/
def State.answer (s : State) (k : CoreId) (w : WaitFor) : State := match w with
  | .translation va => match pageOf (s.ctx (s.cxId k)).pages va with
    | some p => s.cachePage k p
    | none => s
  | .line l true => (s.ownLine k l).touchLine (s.cxId k) l
  | .line l false => (s.shareLine k l).touchLine (s.cxId k) l
  | .code l => (s.cacheCode k l).touchLine (s.cxId k) l
  | _ => s

/-- A wait was of the fetch, so that its word has not yet issued: a line of code, or a page at the pc that has come. -/
def State.fetchWait (s : State) (k : CoreId) (f : FiringCtx) (w : WaitFor) : Bool := match w with
  | .code _ => true
  | .translation va => va = f.pc.toNat && (pageOf (s.ctx (s.cxId k)).pages va).isSome
  | _ => false

/-- FIRING_CONTEXT_WAKE: a blocked context whose condition is met becomes ready and resumes at its blocking word (03 R62). A
`pail.wait` that observes the failed state ends its firing there with cause 0x11 (03 R94, 11 R316; log 14). A
word that waits on a granule is performed in the same step (03 R88, R89). -/
def execFiringContextWake (k : CoreId) (c : Nat) (s : State) : Res :=
  let n := Fin.ofNat 8 c
  let f := (s.core k).fc n
  match f.status with
  | .blocked w =>
    if f.stopped || !s.wakes k n w then .next s
    else match w with
      | .full b g _ i => s.serve k n (b, g) i
      | .pail i _ =>
        if (s.pail (s.cxId k) i).state = 2 then .next (s.quietAt k n 0x11 i) else .next (s.modCore k fun d => d.ready n)
      | _ => .next ((s.answer k w).modCore k fun d =>
          let d := d.ready n
          if s.fetchWait k f w then d.setFc n { d.fc n with woken := false } else d)
  | _ => .next s

/-! ## Fetch (03 R67, R68) -/

/-- What the fetch at the pc meets. -/
inductive Fetched where
  | word (w : BitVec 32)
  | page
  | code (l : Loc)
  | refused (cause : Nat)
  | nowhere (a : Nat)
  deriving DecidableEq, Repr

/-- The fetch of the running context's word: through the MMU and the instruction L1 (03 R67, R68). Fetched code is what the
line held when it came (11 R318). -/
def State.fetch (s : State) : Fetched :=
  match s.translate s.pc.toNat .fetch with
  | .ok l => match look s.cur.il1 l.line with
    | some bs => .word (BitVec.ofNat 32 (leNat ((bs.drop (l.addr % 64)).take 4)))
    | none => .code l.line
  | .miss => .page
  | .stop => .refused 0x05
  | .perm => .refused 0x06
  | .nowhere a => .nowhere a

/-- The running context's next word is a `qld`, and its lower 8 bytes are read now, in a step of their own (03 R71). -/
def State.halfLoad (s : State) : State :=
  match s.fetch with
  | .word w => match decodeScalar w.toNat with
    | some (.qld _ g o) =>
      let va := s.eaQ g o
      if s.fc.status ≠ .running || s.fc.stopped || va.toNat % 16 ≠ 0 || !canonical va || s.fc.half.isSome then s
      else match s.translate va.toNat .load with
        | .ok l =>
          if s.atomicOn s.now s.fid l.line || !(s.cur.l1.any fun e => e.1 = l.line) then s
          else s.setFc { s.fc.watchLine l.line with half := some (l, s.loadBytes l 8) }
        | _ => s
    | _ => s
  | _ => s

/-- The word in progress is what fetch gives now (13 R352). -/
def State.noteFetch (s : State) : State := match s.fetch with
  | .word w => s.setFc { s.fc with fetched := some w }
  | _ => s

/-- A word issues: event 0x06, and the count of 03 R63 while another context is ready. A word that resumes after a block counts in
neither again: it issued when it blocked, and it completes as if it had never waited (03 R62; log 74). -/
def State.issue (s : State) : State :=
  let s := s.noteFetch
  let c := s.cur
  let f := s.fc
  if f.woken then s
  else
    let s := s.modCore s.now fun c => c.event 0x06 1 false
    if (c.nextReady c.run).any fun m => m ≠ c.run then s.setFc { s.fc with issued := f.issued + 1 } else s

end Sys2Proof.Machine
end

