-- ==== Sys2Proof/Machine/Contour.lean ====
section
/-!
DEFINITION. Launches: points, placement, footprints and leases, and which point is fireable (04 R97 to R105, R119 to R123).
-/
namespace Sys2Proof.Machine

/-! ## Points (04 R97, R98) -/

/-- The cross-section coordinates of an index, with the sweep coordinate: p0 to p3, 0 beyond ndim (04 R97). -/
def Block.coords (b : Block) (idx sw : Nat) : List Nat :=
  let r := b.dims.foldl (fun (a : List (Nat × Nat) × Nat) k =>
    let e := nth b.extents k 1
    (a.1 ++ [(k, a.2 % e)], a.2 / e)) ([], idx)
  (upto 4).map fun k => if k = b.sweep && k < b.ndim then sw else (look r.1 k).getD 0

/-- Coordinates packed as in g2 (03 R76, 04 R116). -/
def packCoords (l : List Nat) : Word :=
  BitVec.ofNat 64 (l.foldr (fun c w => w * 65536 + c % 65536) 0)

/-- Column of the sheet, and the row over all packages of the pod (04 R98, R99). -/
def Block.placeRow (b : Block) (co : List Nat) (pods : Nat) : Nat :=
  if b.yplace ≥ 128 then 0 else nth co (b.yplace % 4) 0 / b.ydiv % (b.sheet.h * if b.pod then pods else 1)

/-- The package of a pod that a point runs on; 0 for a launch of one package (04 R99). -/
def Block.packageOf (b : Block) (co : List Nat) (pods : Nat) : Nat := b.placeRow co pods / b.sheet.h

/-- A point runs on this package: one of a pod launch that R99 places here, and every one of another launch, whose package is the
one that issued it (04 R98, R99). -/
def Context.placedHere (c : Context) (b : Block) (co : List Nat) : Bool := !b.pod || b.packageOf co c.podSize = c.podIndex

/-- The core of a point (04 R98). -/
def Block.coreOf (b : Block) (co : List Nat) (pods : Nat) : CoreId :=
  let jx := if b.xplace ≥ 128 then 0 else nth co (b.xplace % 4) 0 / b.xdiv % b.sheet.w
  (b.sheet.y + b.placeRow co pods % b.sheet.h) * 32 + b.sheet.x + jx

/-! ## Footprints and leases (04 R100, R123) -/

/-- Tile rectangle of element rows [r, r + n) and columns [c, c + m), clipped to a tensor; its plates. -/
def Tensor.platesOf (t : Tensor) (r n c m : Int) : List (Nat × Nat) :=
  let r0 := max r 0
  let r1 := min (r + n) t.rows
  let c0 := max c 0
  let c1 := min (c + m) t.cols
  if r1 ≤ r0 || c1 ≤ c0 then []
  else
    let w := tileWidth t.fmt
    let tr0 := r0.toNat / 16
    let tr1 := (r1.toNat - 1) / 16
    let tc0 := c0.toNat / w
    let tc1 := (c1.toNat - 1) / w
    ((upto (tr1 + 1 - tr0)).flatMap fun i => (upto (tc1 + 1 - tc0)).map fun j =>
      (t.id, t.plateOf (tr0 + i) (tc0 + j))).eraseDups

/-- Plates of one footprint entry at a point: an entry's numbers stand in the order of 04 R100. -/
def Context.fpPlates (c : Context) (co : List Nat) (fp : List Int) : List (Nat × Nat) :=
  let n (i : Nat) : Int := nth fp i 0
  let p (i : Nat) : Int := (nth co i 0 : Nat)
  let row := n 6 + (upto 4).foldl (fun a i => a + n (2 + i) * p i) 0
  let col := n 11 + (upto 4).foldl (fun a i => a + n (7 + i) * p i) 0
  match c.tensor (n 0).toNat with
  | none => []
  | some t => t.platesOf row (n 12) col (n 13)

/-- Plates that firmware has added to the lease of work to be replayed. -/
def Context.extraPlates (c : Context) (r : Replayed) : List (Nat × Nat) :=
  (c.widened.filter fun w => w.1 = r).map fun w => w.2

/-- Plates that a point needs (04 R123). -/
def Context.pointPlates (c : Context) (b : Block) (co : List Nat) : List (Nat × Nat) :=
  (b.fps.flatMap fun fp => c.fpPlates co fp).eraseDups

/-- Plates that a task needs (04 R119, R123). -/
def Context.taskPlates (c : Context) (bs : List Byte) : List (Nat × Nat) :=
  let t := taskFields bs
  ((t.reads ++ t.writes).flatMap fun r => match c.tensor r.tensor with
    | some t => r.plates t
    | none => []).eraseDups

/-- The plates of the lease of a launch's next point at an index, those that firmware has added with them (04 R123, 13 R356). -/
def Context.pointLease (c : Context) (l : Launch) (idx : Nat) : List (Nat × Nat) :=
  c.pointPlates l.block (l.block.coords idx (nth l.heights idx 0)) ++ c.extraPlates (.point l.block.tag idx)

/-- The plates of a task's lease. -/
def Context.taskLease (c : Context) (t : TaskRec) : List (Nat × Nat) := c.taskPlates t.bytes ++ c.extraPlates (.task t.seq)

/-- A plate can be leased: resident in a stack, or in host memory with its pages present; an absent plate waits (04
R123). -/
def Context.leasable (c : Context) (p : Nat × Nat) : Bool :=
  let e := c.entryNow p.1 p.2
  if e.res ≤ 15 then true
  else if e.res = 16 then (upto 16).all fun i => (pageOf c.pages (e.frame * 65536 + 4096 * i)).isSome
  else false

/-! ## Fireable points (04 R102, R104) -/

/-- The die of this package whose dispatcher holds a launch's entry; none where another package holds it (04 R104). -/
def Context.entryDie (c : Context) (b : Block) (idx : Nat) : Option Nat :=
  let co := b.coords idx 0
  if c.placedHere b co then some (dieOf (b.coreOf co c.podSize)) else none

/-- A height of a launch as a die knows it: its own entry, or its copy, which begins as the launch does (04 R101, R104). -/
def State.heightAt (s : State) (x die idx : Nat) (l : Launch) : Nat :=
  if (s.ctx x).entryDie l.block idx = some die then nth l.heights idx 0
  else min ((look (s.die die).copies (x, l.block.tag, idx)).getD (nth l.start idx 0)) (nth l.heights idx 0)

/-- A predecessor of a point counts as done (04 R102). rule: 1 LINKED; the die is the one whose dispatcher asks. -/
def State.predDone (s : State) (x : Nat) (l : Launch) (co : List Nat) (sw : Nat) (v : List Int) (linked : Bool) (die : Nat) : Bool :=
  let b := l.block
  let c := s.ctx x
  let at_ (k : Nat) : Int := ((nth co k 0 : Nat) : Int) - nth v k 0
  match b.indexOf at_ with
  | none => true
  | some j =>
    let ps : Int := (sw : Int) - nth v b.sweep 0
    if 0 ≤ ps then ps + 1 ≤ (s.heightAt x die j l : Int)
    else if !linked then true
    else match c.launch b.linktag with
      | none => true
      | some m =>
        let e : Int := m.block.es + ps
        e < 0 || e + 1 ≤ (s.heightAt x die j m : Int)

/-- Point (c, s) is fireable (04 R102). -/
def State.fireable (s : State) (x : Nat) (l : Launch) (idx : Nat) : Bool :=
  let b := l.block
  let sw := nth l.heights idx 0
  let co := b.coords idx 0
  let die := dieOf (b.coreOf co (s.ctx x).podSize)
  sw < b.es && idx < b.cross && (s.ctx x).placedHere b co && !l.delivered.contains idx &&
    (upto b.nvec).all fun v => s.predDone x l co sw (nth b.vectors v []) (bitOf b.rules v) die

/-! ## Launches in a context -/

/-- Change a live launch. -/
def Context.modLaunch (c : Context) (tag : Nat) (f : Launch → Launch) : Context :=
  { c with launches := c.launches.map fun l => if l.block.tag = tag then f l else l }

/-- The tasks that the schedulers hold for a context. -/
def State.tasksOf (s : State) (x : Nat) : List TaskRec := s.dies.flatMap fun d => d.2.tasks.filter fun t => t.x = x

/-- The minimum of a contour (04 R107). -/
def Launch.floor (l : Launch) : Nat := match l.heights with
  | [] => 0
  | h :: r => r.foldl min h

/-- Points not yet retired (13 R370). -/
def Launch.remaining (l : Launch) : Nat := (l.heights.map fun h => l.block.es - h).sum

end Sys2Proof.Machine
end

