-- ==== Sys2Proof/Machine/Select.lean ====
section
/-!
DEFINITION. Selection: which handler entries are eligible and which is selected, and the start of a firing (04 R113 to R116,
03 R61).
-/
namespace Sys2Proof.Machine

/-! ## Eligibility (04 R114) -/

/-- Words that wait for entry n of a configuration context of a core (04 R113). -/
def State.countOf (s : State) (k : CoreId) (cx n : Nat) : Nat :=
  let c := s.core k
  let ch := ((s.ctx (s.cxId k)).handler n).inCh
  if ch ≤ 1 then ((c.points.filter fun i => i.cx = cx && i.entry = n).map fun i => i.words.length).sum
  else ((look c.chans ch).getD []).length

/-- Firings that occupy a core's contexts. -/
def State.firingsOn (s : State) (k : CoreId) : List Firing :=
  let c := s.core k
  (((List.finRange 8).map fun n => c.fc n).filter fun f => f.status ≠ .free).map fun f => (s.ctx (s.cxId k)).firing f.fid

/-- Words of an outbound queue of a channel that nothing holds; a queue has 64 (log 18). -/
def State.outRoom (s : State) (k : CoreId) (ch : Nat) : Nat :=
  let held := ((s.core k).outbound.filter fun m => m.chan = ch).map fun m => m.words.length
  let building := (s.firingsOn k).map fun f =>
    f.reserved ch + ((f.msgs.filter fun m => m.chan = ch).map fun m => m.words.length).sum
  64 - (held.sum + building.sum)

/-- Entries of a die's dependence table that nothing holds (04 R114, R120): tasks spawned on the die and reservations. -/
def State.taskRoom (s : State) (die : Nat) : Nat :=
  let tasks := s.dies.flatMap fun e => e.2.tasks.filter fun t => dieOf ((s.ctx t.x).firing t.parent).k = die
  let resv := s.cores.map fun e => if dieOf e.1 = die then ((s.firingsOn e.1).map fun f => f.reserved 1).sum else 0
  4096 - (tasks.length + resv.sum)

/-- The contexts that a firing can start in: the free ones (04 R114). -/
def Core.freeFcs (c : Core) : List (Fin 8) := (List.finRange 8).filter fun n => (c.fc n).status = .free

/-- An entry of the current configuration context is eligible (04 R114). -/
def State.eligibleNow (s : State) (k : CoreId) (n : Nat) : Bool :=
  let c := s.core k
  let h := (s.ctx (s.cxId k)).handler n
  h.valid && !s.masked k c.cx n && h.rate ≤ s.countOf k c.cx n && !c.freeFcs.isEmpty &&
    h.outs.all fun o => o.2 ≤ (if o.1 = 1 then s.taskRoom (dieOf k) else s.outRoom k o.1)

/-- The eligible entries after a step: those that stay keep their order, and new ones follow by number (04 R114). -/
def State.refreshCore (s : State) (k : CoreId) (c : Core) : Core :=
  let now := (upto (s.ctx (s.cxId k)).handlers.length).filter fun n => s.eligibleNow k n
  let kept := (c.eligible.filter fun n => now.contains n).eraseDups
  { c with eligible := kept ++ now.filter fun n => !kept.contains n }

/-! ## Words that enter a channel queue (04 R113) -/

/-- Words of a channel's queue that nothing holds: a queue has 64 (04 R113). -/
def Core.chanRoom (c : Core) (ch : Nat) : Nat := 64 - (((look c.chans ch).getD []).length + (look c.reserved ch).getD 0)

/-- Words join a channel's queue in one step (04 R129); a blocked `idle` goes on (13 R385). -/
def Core.addWords (c : Core) (ch : Nat) (ws : List Word) : Core :=
  ({ c with chans := put c.chans ch ((look c.chans ch).getD [] ++ ws) } : Core).endIdle none

/-- The entry that takes an input channel, if one is valid. -/
def Context.entryOn (c : Context) (ch : Nat) : Bool := c.handlers.any fun h => h.valid && h.inCh = ch

/-- A management word that waits reaches ch31 of its core; without a valid entry there it is discarded (13 R354), and while the
queue is full, or an earlier word of the core waits, it stays (04 R113). -/
def State.deliverMgmt (s : State) (e : CoreId × Word) : State :=
  if !(s.ctx (s.cxId e.1)).entryOn 31 then s
  else if (s.core e.1).chanRoom 31 = 0 || s.mgmt.any fun w => w.1 = e.1 then { s with mgmt := s.mgmt ++ [e] }
  else s.modCore e.1 fun c => c.addWords 31 [e.2]

/-- Every management word that waits is tried again, oldest first. -/
def State.tryMgmt (s : State) : State := s.mgmt.foldl State.deliverMgmt { s with mgmt := [] }

/-- Firmware sends a word to ch31 of a core: it waits for its place and is not lost (04 R113, 13 R354). -/
def State.manage (s : State) (k : CoreId) (w : Word) : State := State.tryMgmt { s with mgmt := s.mgmt ++ [(k, w)] }

/-- What every core's selection sees after a step, once the words that wait for room have found it. -/
def State.reselect (s : State) : State :=
  let s := s.tryMgmt
  s.mapCores fun k c => s.refreshCore k c

/-! ## The start of a firing (03 R61, 04 R115, R116) -/

/-- One of the values that the registers of a core's contexts still hold (03 R61; log 19): the one that a free value picks. -/
def pickOne {α : Type} (l : List α) (d : α) (r : Nat) : α := nth l (r % l.length) d

/-- A context's registers at firing start: each holds a value left on the core, free among them (03 R61; log 19). The free
values used are numbers r, r + 1, … -/
def Core.staleRegs (c : Core) (f : FiringCtx) (r : Nat) : FiringCtx :=
  let fcs := (List.finRange 8).map fun n => c.fc n
  let gs := fcs.flatMap fun x => x.g.toList.drop 1
  let ps := fcs.flatMap fun x => x.p.toList.drop 1
  let qs := fcs.flatMap fun x => x.q.toList
  let fs := fcs.flatMap fun x => x.f.toList
  let js := fcs.flatMap fun x => x.j.toList
  { f with
    g := Vector.ofFn fun i => pickOne gs 0 (Config.freeValue (r + i.val))
    p := Vector.ofFn fun i => pickOne ps false (Config.freeValue (r + 32 + i.val))
    q := Vector.ofFn fun i => pickOne qs 0 (Config.freeValue (r + 40 + i.val))
    f := Vector.ofFn fun i => pickOne fs Fibre.closed (Config.freeValue (r + 56 + i.val))
    j := Vector.ofFn fun i => pickOne js 0 (Config.freeValue (r + 72 + i.val)) }

/-- n words taken from the items that wait for an entry, with the first item that gave one. -/
def takeWords : Nat → List QueueItem → Nat → Nat → List Word × List QueueItem
  | 0, is, _, _ => ([], is)
  | n + 1, is, cx, entry =>
    match takeWord is cx entry with
    | none => ([], is)
    | some (w, r) =>
      let t := takeWords n r cx entry
      (w :: t.1, t.2)

/-- The message window of a context of a core (13 R379). -/
def Core.window (c : Core) (n : Fin 8) : Word := c.msgWin + BitVec.ofNat 64 (2048 * n.val)

/-- Where a byte of the window region of a core lies: in the page of its address, or, where the host has withdrawn that, at the
place that firmware gave the region (04 R115, 13 R379). -/
def State.windowLoc (s : State) (k : CoreId) (va : Nat) : Loc := match pageOf (s.ctx (s.cxId k)).pages va with
  | some p => pageLoc p va
  | none =>
    let off := va - (s.core k).msgWin.toNat
    ⟨false, nth (s.core k).winPages (off / 4096) 0 + off % 4096⟩

/-- Words of a message window stand in its memory (04 R115). -/
def State.putWindow (s : State) (k : CoreId) (n : Fin 8) (ws : List Word) : State :=
  let va := ((s.core k).window n).toNat
  (ws.zipIdx).foldl (fun t w =>
    let l := t.windowLoc k (va + 8 * w.2)
    (t.setBytes l (leBytes 8 w.1.toNat)).noteWrite l.line none) s

/-- A firing starts in context n of core k (03 R61, 04 R116): its registers but for g1 and g2 hold values left on the core,
its stack and buffer are empty, and sy.aflags reads 0 (11 R312). -/
def State.startFiring (s : State) (k : CoreId) (n : Fin 8) (entry : Word) (r : Firing) : State :=
  let s := s.putWindow k n r.words
  let x := s.cxId k
  let fid := (s.ctx x).nextFid
  let g2 : Word := if r.kind = .message then 0 else r.coords
  let r := { r with id := fid, k := k, fc := n.val, latch := (s.ctx x).epoch, born := (s.ctx x).epoch }
  let s := s.modCtx x fun c => { c with firings := c.firings ++ [(fid, r)], nextFid := fid + 1 }
  let start (c : Core) : FiringCtx :=
    let f := c.staleRegs (c.fc n) s.freeCtr
    { f with
      status := .ready, pc := entry, g := (f.g.set 1 (c.window n)).set 2 g2
      loops := [], sb := [], pub := [], issued := 0, fid := fid, watch := [], waits := [], waitCmd := none
      expired := false, woken := false, half := none, turns := [], checked := false, fetched := none, aflags := ⟨false, false, false, false⟩, hint := none, g2start := g2, stopped := false }
  let s := s.modCore k fun c =>
    let d := (c.setFc n (start c)).ready n
    d.setFc n { d.fc n with woken := false }
  { s with freeCtr := s.freeCtr + 80 }

/-- The entry that the next selection takes (04 R114): the longest eligible one by turns, else the one of highest priority. -/
def State.selected (s : State) (k : CoreId) : Option Nat :=
  let c := s.core k
  let h (n : Nat) : Nat := ((s.ctx (s.cxId k)).handler n).pri
  if c.selections % 2 = 0 then c.eligible.head?
  else c.eligible.foldl (fun b n => match b with
    | none => some n
    | some m => if h m < h n then some n else some m) none

/-- The words that entry n consumes, the item that a point or task came with, and the core without them (04 R115). -/
def State.consumeWords (s : State) (k : CoreId) (n : Nat) : List Word × Option QueueItem × Core :=
  let c := s.core k
  let h := (s.ctx (s.cxId k)).handler n
  if h.inCh ≤ 1 then
    let t := takeWords h.rate c.points c.cx n
    (t.1, c.points.find? fun i => i.cx = c.cx && i.entry = n, { c with points := t.2 })
  else
    let ws := (look c.chans h.inCh).getD []
    (ws.take h.rate, none, { c with chans := put c.chans h.inCh (ws.drop h.rate) })

/-- The firing of a selected entry: a point, a task, or a message (04 R116, R123, 13 R379). -/
def State.firingOf (s : State) (k : CoreId) (n : Nat) (ws : List Word) (item : Option QueueItem) : Firing :=
  let x := s.ctx (s.cxId k)
  let h := x.handler n
  let base : Firing := { Firing.blank with cx := (s.core k).cx, entry := n, words := ws, resv := h.outs }
  let heights (tag : Nat) : List Nat := ((x.launch tag).map fun l => l.heights).getD []
  match item with
  | none => { base with lease := x.extraPlates (.message k n) }
  | some i =>
    if i.isTask then
      match (s.dies.flatMap fun e => e.2.tasks).find? fun t => t.x = s.cxId k && t.seq = i.seq with
      | some t => { base with
          kind := .task, tag := t.tag, idx := t.idx, coords := t.coords, seq := i.seq
          lease := (x.taskPlates t.bytes ++ x.extraPlates (.task i.seq)).eraseDups, startHeights := heights t.tag }
      | none => { base with kind := .task, tag := i.tag, idx := i.idx, seq := i.seq, startHeights := heights i.tag }
    else
      let lease := match x.launch i.tag with
        | some l => x.pointPlates l.block (l.block.coords i.idx (nth l.heights i.idx 0))
        | none => []
      { base with
        kind := .point, tag := i.tag, idx := i.idx, coords := nth i.words 0 0, seq := i.seq
        lease := (lease ++ x.extraPlates (.point i.tag i.idx)).eraseDups, startHeights := heights i.tag }

/-- Selection goes on at a core: its halt line is low (13 R346), and no quota class of its context is drained (14 R409). -/
def State.selecting (s : State) (k : CoreId) : Bool :=
  !(s.partOf k).any (fun p => p.halt) && (s.ctx (s.cxId k)).drained.isEmpty

/-- FIRING_SELECTION: an eligible entry is selected; its words move to the message window of a free context, reservations
are made, and the firing starts (04 R114 to R116). Which free context takes it is open (log 20). -/
def execFiringSelection (k : CoreId) (s : State) : Res :=
  let fs := if s.selecting k then (s.core k).freeFcs else []
  match s.selected k, fs with
  | some n, f0 :: _ =>
    let (r, s) := s.free
    let fc := nth fs (r % fs.length) f0
    let (ws, item, c) := s.consumeWords k n
    let x := s.cxId k
    let h := (s.ctx x).handler n
    let firing := s.firingOf k n ws item
    let s := s.setCore k { c with selections := c.selections + 1, eligible := (c.eligible.filter fun m => m ≠ n) }
    let s := if item.isNone && (look s.ctxs x).isSome then
        s.modCtx x fun c => { c with widened := c.widened.filter fun w => w.1 ≠ .message k n } else s
    let s := if firing.kind = .task then s.mapDies fun _ d =>
      { d with tasks := d.tasks.map fun t => if t.x = x && t.seq = firing.seq then { t with started := true } else t } else s
    .next (s.startFiring k fc h.entry firing)
  | _, _ => .next s

end Sys2Proof.Machine
end

