-- ==== Sys2Proof/Machine/Time.lean ====
section
/-!
DEFINITION. What passing time does by itself (14 R394, R395, R408, R411, R413), what caches drop by themselves, and the steps
that a core takes when no word issues.
-/
namespace Sys2Proof.Machine

/-- V(set) in mV (14 R394). -/
def RatioSet.volts (r : RatioSet) : Nat := 500 + 20 * max (max r.m r.v) (max r.n r.d)

/-- Est(set) in units of 10^-7 mW: the coefficients of sy.pcoef times the set, times V(set)^2 (14 R395). -/
def estOf (pcoef : Word) (r : RatioSet) : Nat :=
  let c := pcoef.toNat
  (c % 65536 * r.m + c / 65536 % 65536 * r.v + c / 4294967296 % 65536 * r.n + c / 281474976710656 % 65536 * r.d) * r.volts ^ 2

/-- A context of the core is blocked and none is ready, a state apart from running (event 0x07 of 14 R413, 03 R62). -/
def Core.waiting (c : Core) : Bool :=
  (c.fcs.toList.any fun f => match f.status with
    | .blocked _ => true
    | _ => false) && !(c.fcs.toList.any fun f => f.status = .ready)

/-- A core counts the cycles of t ticks of 10 ns: a domain at n × 100 MHz has n cycles a tick (14 R393, R411, R413). -/
def Core.cycles (c : Core) (r : RatioSet) (t : Nat) : Core :=
  let c := (((c.event 0x01 (t * r.m) false).event 0x02 (t * r.v) false).event 0x03 (t * r.n) false).event 0x04 (t * r.d) false
  if c.waiting then c.event 0x07 (t * r.v) false else c

/-- The most that a counter of an event whose cycles the model leaves out can count in t ticks (14 R413): at most one a cycle, and
with its tag set none while no tagged command is in flight. -/
def Core.stallBound (c : Core) (r : RatioSet) (t : Nat) (e : EventCounter) : Nat :=
  if !e.en || !e.live || (e.tag && !c.cmds.any fun d => (cmdOf d.word).e) then 0
  else match e.ev with
    | 0x0A => t * r.v
    | 0x0B => t * r.v
    | 0x0D => t * r.d
    | _ => 0

/-- Events 0x0A, 0x0B and 0x0D of t ticks: counts that hang on cycles are free up to their bound (log 24). -/
def Core.stalls (c : Core) (r : RatioSet) (t n : Nat) : Core :=
  { c with counters := c.counters.mapIdx fun i e =>
      { e with count := (e.count + Config.freeValue (n + i) % (c.stallBound r t e + 1)) % 2 ^ 48 } }

/-- The stall counts of a cluster's cores. -/
def State.stalls (s : State) (cl : Nat) (r : RatioSet) (t : Nat) : State :=
  { s.mapCores (fun k c => if clusterOf k = cl then c.stalls r t (s.freeCtr + 4 * k) else c) with freeCtr := s.freeCtr + 4096 }

/-- t ticks of a cluster's reference pass: its timer, the energy of 14 R408, and its cores' cycle counts. -/
def State.tick (s : State) (cl t : Nat) : State :=
  let r := (s.cluster cl).set
  let s := s.stalls cl r t
  let s := s.modCluster cl fun c => { c with
    timer := (c.timer + t) % 2 ^ 64, quotaRest := c.quotaRest + t * estOf c.pcoef c.set }
  s.mapCores fun k c => if clusterOf k = cl then c.cycles r t else c

/-- A data L1 drops a line; a wait that watches it may return (11 R313). -/
def State.evict (s : State) (k : CoreId) (l : Loc) : State :=
  s.modCore k fun c =>
    if (look c.l1 l).isSome then { c with l1 := unput c.l1 l, fcs := c.fcs.map fun f => f.noteWrite l } else c

/-- An instruction L1 drops a line. -/
def State.evictCode (s : State) (k : CoreId) (l : Loc) : State := s.modCore k fun c => { c with il1 := unput c.il1 l }

/-- An MMU drops a page. -/
def State.evictPage (s : State) (k : CoreId) (va : Nat) : State :=
  s.modCore k fun c => { c with mmu := c.mmu.filter fun p => p.va ≠ va, mmu2 := c.mmu2.filter fun p => p.va ≠ va }

/-- Line i of a publication in progress becomes visible (11 R303): any line of it may be next. A line of device memory comes to the
data L1, which writes it back later (03 R68). While the undo log is full every publication waits (13 R364). -/
def State.drainLine (s : State) (k : CoreId) (n : Fin 8) (i : Nat) : State :=
  let f := (s.core k).fc n
  match f.pub[i]? with
  | none => s
  | some l =>
    if f.stopped || (s.ctx (s.cxId k)).undo.length ≥ (s.ctx (s.cxId k)).undoRoom then s
    else
      let s := s.modCore k fun c => c.setFc n { f with pub := f.pub.eraseIdx i }
      let s := if l.onHost then s else (s.ownLine k ⟨false, l.num⟩).touchLine (s.cxId k) ⟨false, l.num⟩
      s.showLine k n l

/-- A halt stands on a core's partition. -/
def State.halted (s : State) (k : CoreId) : Bool := match s.partOf k with
  | some p => p.halt
  | none => false

/-- What a core does next of itself when its running context issues nothing (log 2). -/
inductive Chore where
  | drain (n : Fin 8)
  | wake (n : Fin 8)
  | atomic
  | select
  | host
  | none
  deriving DecidableEq, Repr

/-- The chore of a core: first a line of a publication, then a context to wake, then a queued atomic, then a selection, then
the next piece of a host access. -/
def State.chore (s : State) (k : CoreId) : Chore :=
  let c := s.core k
  match (List.finRange 8).find? fun n => (c.fc n).pub ≠ [] && !(c.fc n).stopped with
  | some n => .drain n
  | none =>
    match (List.finRange 8).find? fun n => !(c.fc n).stopped && match (c.fc n).status with
        | .blocked w => s.wakes k n w
        | _ => false with
    | some n => .wake n
    | none => if c.amons ≠ [] then .atomic else if c.eligible ≠ [] && !c.freeFcs.isEmpty && s.selecting k then .select
      else if s.hostWork ≠ [] then .host else .none

/-- The running context's turn is over: it has issued 256 words beside ready ones (03 R63). -/
def State.quantumOver (s : State) : Bool :=
  256 ≤ s.fc.issued && (s.cur.nextReady s.cur.run).any fun m => m ≠ s.cur.run

/-- An event that may happen of itself: no scalar word, which only a firing issues, and no failed fetch. -/
def ofItself (i : Instr) : Bool :=
  (encodeScalar i).isNone && match i with
    | .illegalInstruction _ => false
    | .instructionFetchFault _ => false
    | _ => true

/-! ## A word placed where the next step fetches -/

/-- The page that covers a pc for the placing of a word: its 4 KiB, readable and executable. -/
def codePage (pc : Nat) : PageGrant :=
  ⟨pc / 4096 * 4096, 4096, false, pc / 4096 * 4096 % 549755813888, true, true, true⟩

/-- The acting core runs a firing of a context, with an executable page at its pc: what a fetch needs. -/
def State.running (s : State) : State :=
  let pc := s.pc.toNat
  let s := match s.partOf s.now with
    | some p => s.modPart p.id fun q => { q with halt := false }
    | none =>
      let c : Context := { Context.blank with id := 1, part := 1, nextFid := 2, pages := [codePage pc], firings := [(1, Firing.blank)] }
      { s with parts := s.parts ++ [(⟨1, ⟨0, 0, 32, 32⟩, some 1, false, 0, false, 0, []⟩ : Partition)], ctxs := put s.ctxs 1 c }
  let s := match s.translate pc .fetch with
    | .ok _ => s
    | _ => s.modCore s.now fun c => { c with mmu := codePage pc :: c.mmu }
  let f := s.fc
  let s := if f.status = .running && !f.stopped then s
    else s.setFc { f with status := .running, stopped := false, fid := if f.status = FcStatus.free then 1 else f.fid }
  s.setFc { s.fc with issued := 0 }

/-- Bytes where the acting core fetches: in memory and in the line that its instruction L1 holds. -/
def State.placeCode (s : State) (bs : List Byte) : State :=
  match s.translate s.pc.toNat .fetch with
  | .ok l =>
    let s := s.setBytes l bs
    s.modCore s.now fun c => { c with il1 := put c.il1 l.line (s.bytesAt ⟨l.onHost, l.addr / 64 * 64⟩ 64) }
  | _ => s

end Sys2Proof.Machine
end

