-- ==== Sys2Proof/Machine/Command.lean ====
section
/-!
DEFINITION. The command path: entry to the scoreboard, start, the orders of handles and ports, slots, memory as engines reach
it, and completion (05 R151 to R153, R167).
-/
namespace Sys2Proof.Machine

/-! ## Linear memory as an engine reaches it -/

/-- One byte at a linear address; no translation is reason 0x21, a refusal 0x22 (05 R155). -/
def State.engineByte (s : State) (x va : Nat) : Except TErr Byte :=
  match s.engineTranslate x va .load with
  | .ok l => .ok (s.seenByte x l)
  | .perm => .error (.fail 0x22 0 0)
  | .nowhere a => .error (.nowhere a)
  | _ => .error (.fail 0x21 0 0)

/-- n bytes from a linear address. -/
def State.engineRead (s : State) (x va : Nat) : Nat → Except TErr (List Byte)
  | 0 => .ok []
  | n + 1 => match s.engineByte x va with
    | .error e => .error e
    | .ok b => match s.engineRead x (va + 1) n with
      | .error e => .error e
      | .ok bs => .ok (b :: bs)

/-- Bytes of one 64-byte line written at a linear address by a command (05 R153): a device line takes its undo entry (13
R364) and waits for room; a host line's bytes are held for commit as the context's stores are (11 R305, 13 R364; log 22). -/
def State.engineWrite (s : State) (x fid va : Nat) (bs : List Byte) : Except TErr State :=
  match s.engineTranslate x va .store with
  | .ok l =>
    let at_ := bs.mapIdx fun i b => (l.addr % 64 + i, b)
    if l.onHost then
      .ok ((s.modCtx x fun c => { c with held := c.held ++ [⟨⟨true, l.addr / 64, at_⟩, fid, false⟩] }).noteHeld x true l.line none)
    else if (s.ctx x).undoFull l.line then .error .hold
    else .ok (s.writeLine x none l.line at_)
  | .perm => .error (.fail 0x22 0 0)
  | .nowhere a => .error (.nowhere a)
  | _ => .error (.fail 0x21 0 0)

/-! ## Commands at work -/

/-- Commands before one on its core that are still at work: neither performed nor failed. -/
def Core.earlier (c : Core) (id : Nat) : List CmdEntry :=
  (c.cmds.takeWhile fun e => e.id ≠ id).filter fun e => match e.stage with
    | .performed => false
    | .failed _ => false
    | _ => true

/-- The unit of a command has stopped at a halt: its record is written (13 R346, R350). -/
def Core.unitStopped (c : Core) (op : Nat) : Bool := c.records.contains (unitOf op)

/-- The acting core's oldest running command with this opcode and these fields goes on by one unit of work. With none, or with
its unit stopped, nothing happens. -/
def State.withCmd (s : State) (op : Nat) (c : Cmd) (f : CmdEntry → Res) : Res :=
  match s.cur.cmds.find? fun e => e.stage = .running && e.word.toNat = cmdWord op c with
  | none => .next s
  | some e => if s.cur.unitStopped op then .next s else f e

/-- Change the acting core's command. -/
def State.modCmd (s : State) (id : Nat) (f : CmdEntry → CmdEntry) : State := s.modCore s.now fun c => c.modCmd id f

/-- A command has done one more unit of work and counts n more. -/
def State.cmdMoves (s : State) (id n : Nat) : State := s.modCmd id fun e => { e with pos := e.pos + 1, count := e.count + n }

/-- A command has performed everything; its count for the pail. -/
def State.cmdDone (s : State) (id count : Nat) : State :=
  s.modCmd id fun e => { e with stage := .performed, count := count }

/-- What an access of a command that went wrong comes to: a failure (05 R155), the end of its firing with cause 0x0F and the
tile's T-layout word unless its context has stopped (04 R124, 13 R349, R352), or a wait. port: the memory port used (05 R143). -/
def State.cmdError (s : State) (e : CmdEntry) (port : Nat) : TErr → Res
  | .fail r t p => .next (s.failCommand s.now e r (if t = 0 then none else some (t, p, port)))
  | .lease t row col =>
    let f := (s.ctx s.x).firing e.fid
    if s.cur.records.contains f.fc then .next s
    else .next (s.raiseAt s.now (Fin.ofNat 8 f.fc) 0x0F true (BitVec.ofNat 64 (t * 2 ^ 48 + row * 2 ^ 18 + col)) 0)
  | .hold => .next s
  | .nowhere a => .fault (.noSuchMemory a)

/-- Go on with the value of an access, or end as it went wrong. -/
def State.tryCmd {α : Type} (s : State) (e : CmdEntry) (port : Nat) (r : Except TErr α) (k : α → Res) : Res :=
  match r with
  | .ok v => k v
  | .error x => s.cmdError e port x

/-! ## Handles: roles and slots (05 R151, R152) -/

/-- A command's turn on a handle in a role: no earlier command at work has it in that role (05 R152). -/
def Core.handleTurn (c : Core) (id h : Nat) (producer : Bool) : Bool :=
  !(c.earlier id).any fun e => (c.roles e).contains (h, producer)

/-- A producer's next slot is free and its turn has come. -/
def Core.mayFill (c : Core) (id h : Nat) : Bool := c.handleTurn id h true && 0 < (c.handle h).free

/-- A consumer's next slot is filled and its turn has come. -/
def Core.mayDrain (c : Core) (id h : Nat) : Bool := c.handleTurn id h false && 0 < (c.handle h).fill

/-- The buffer of a handle. -/
def Handle.buffer (h : Handle) : Buf := (Buf.of h.buf).getD .a

/-- Write bytes at an offset of the producer's slot, and set their granules full after the data (05 R151). -/
def Core.fillSlot (c : Core) (h off : Nat) (bs : List Byte) : Core :=
  let d := c.handle h
  let a := d.slotAt d.prod + off
  (c.putBuf d.buffer a bs).setFullRange d.buffer a bs.length true

/-- The producer's slot is complete: its other granules become full, then the counts change (05 R151). -/
def Core.endFill (c : Core) (h : Nat) : Core :=
  let d := c.handle h
  (c.setFullRange d.buffer (d.slotAt d.prod) d.bytes true).setHandle h (d.produce 1)

/-- Bytes at an offset of the consumer's slot. -/
def Core.slotBytes (c : Core) (h off n : Nat) : List Byte :=
  let d := c.handle h
  c.bufBytes d.buffer (d.slotAt d.cons + off) n

/-- The consumer has read n bytes at an offset of its slot: their granules become empty (05 R151). -/
def Core.drainSlot (c : Core) (h off n : Nat) : Core :=
  let d := c.handle h
  c.setFullRange d.buffer (d.slotAt d.cons + off) n false

/-- The consumer is done with its slot: its other granules become empty, then the counts change (05 R151). -/
def Core.endDrain (c : Core) (h : Nat) : Core :=
  let d := c.handle h
  (c.setFullRange d.buffer (d.slotAt d.cons) d.bytes false).setHandle h (d.consume 1)

/-- The acting core's consumer releases its slot, with the pins on it. -/
def State.endDrain (s : State) (h : Nat) : State :=
  let slot := (s.cur.handle h).cons
  (s.releaseSlots h [slot]).modCore s.now fun c => c.endDrain h

/-! ## Ports -/

/-- The port that a command's stream uses; a run uses it where its results go to the tap (09 R260). -/
def portOf (e : CmdEntry) : Option Nat :=
  let op := opOf e.word
  let c := cmdOf e.word
  if (1 ≤ op && op ≤ 4) || op = 0x12 || op = 0x13 || op = 0x20 then some c.portA.toNat
  else if (op = 0x19 || op = 0x1A) && c.flag 1 then some c.portA.toNat
  else none

/-- A command's turn on its port (05 R152). -/
def Core.portTurn (c : Core) (e : CmdEntry) : Bool := !(c.earlier e.id).any fun d => (portOf d).isSome && portOf d = portOf e

/-! ## Copy descriptors (05 R167) -/

/-- A copy descriptor's fields. -/
structure CopyDesc where
  src : Nat
  dst : Nat
  length : Nat
  srcKind : Nat
  dstKind : Nat
  deriving DecidableEq, Repr

/-- The fields of 32 bytes as a number. -/
def CopyDesc.of (v : Nat) : CopyDesc :=
  ⟨v % 2 ^ 64, bitsOf v 127 64, bitsOf v 159 128, bitsOf v 161 160, bitsOf v 163 162⟩

/-- A descriptor breaks 05 R167 for one of its operands. src: this is the source. -/
def State.copyOperandBad (s : State) (c : Cmd) (d : CopyDesc) (src : Bool) : Bool :=
  let v := if src then d.src else d.dst
  let h := if src then c.hB.toNat else c.hA.toNat
  let hd := s.cur.handle h
  match (if src then d.srcKind else d.dstKind) with
  | 0 => !canonical (BitVec.ofNat 64 v) || v % 64 ≠ 0 || h ≠ 0
  | 1 => h ≠ 0 || d.length ≠ 1024 * (TRect.of v).count || match (s.ctx s.x).tensor (TRect.of v).tensor with
    | none => true
    | some t => !t.hasTile (TRect.of v).row0 (TRect.of v).col0
  | 2 => v ≠ 0 || !hd.v
  | _ => true

/-- A descriptor breaks 05 R167. -/
def State.copyBad (s : State) (c : Cmd) (v : Nat) : Bool :=
  let d := CopyDesc.of v
  d.length = 0 || d.length % 64 ≠ 0 || bitsOf v 167 164 ≠ 0 || bitsOf v 255 168 ≠ 0 || s.copyOperandBad c d true || s.copyOperandBad c d false

/-! ## COMMAND_START (05 R152) -/

/-- Commands in the port scoreboard, running or ended and not yet complete. -/
def Core.scoreboard (c : Core) : List CmdEntry := c.cmds.filter fun e => e.stage ≠ .queued

/-- A wait on a handle is met: filled slots for a consumer, free ones for a producer (02 R39). -/
def Core.waitMet (c : Core) (role : Option Bool) (h n : Nat) : Bool := match role with
  | none => true
  | some true => n ≤ (c.handle h).free
  | some false => n ≤ (c.handle h).fill

/-- The waits of a command are met. -/
def Core.waitsMet (c : Core) (e : CmdEntry) : Bool :=
  let d := cmdOf e.word
  let r := c.roleAB e
  c.waitMet r.1 d.hA.toNat d.waitA.toNat && c.waitMet r.2 d.hB.toNat d.waitB.toNat

/-- An earlier `barr` or `cfg.sw` has not completed (05 R170, R172). -/
def Core.fenced (c : Core) (id : Nat) : Bool :=
  (c.cmds.takeWhile fun e => e.id ≠ id).any fun e => opOf e.word = 0x14 || opOf e.word = 0x11

/-- COMMAND_START. The oldest command of the queue enters a scoreboard of 16, where a copy reads its descriptor; a command in
the scoreboard starts once its waits are met and no earlier `barr` or `cfg.sw` is in the way (05 R152, R167). -/
def execCommandStart (k : CoreId) (id : Nat) (s : State) : Res :=
  let s0 := s
  let s := { s with now := k }
  match s.cur.cmdEntry id with
  | none => .next s0
  | some e =>
    if s.cur.records.contains 14 then .next s0
    else match e.stage with
      | .queued =>
        if (s.cur.queued.head?.map fun q => q.id) ≠ some id || 16 ≤ s.cur.scoreboard.length then .next s0
        else
          let t := s.modCmd id fun d => { d with stage := .scoreboard }
          if opOf e.word ≠ 0x0A then .next t
          else
            let c := cmdOf e.word
            t.tryCmd e 0 (t.engineRead t.x c.operand.toNat 32) fun bs =>
              let t := t.touchRange t.x c.operand.toNat 32
              let v := leNat bs
              if t.copyBad c v then .next (t.failCommand k e 0x25 none)
              else .next (t.modCmd id fun d => { d with attached := v + 2 ^ 256 })
      | .scoreboard =>
        if s.cur.waitsMet e && !s.cur.fenced id then .next (s.modCmd id fun d => { d with stage := .running }) else .next s0
      | _ => .next s0

/-! ## COMMAND_COMPLETE (05 R153) -/

/-- COMMAND_COMPLETE: a command that has performed everything completes, unless a halt has stopped its unit (13 R346); its count is
added to its pail in one step (05 R153, 11 R315). A blocked `idle` of its firing goes on (13 R385), and what waited for the firing's
last command follows. -/
def execCommandComplete (k : CoreId) (id : Nat) (s : State) : Res :=
  match (s.core k).cmdEntry id with
  | none => .next s
  | some e =>
    if e.stage ≠ .performed || (s.core k).unitStopped (opOf e.word) then .next s
    else
      let c := cmdOf e.word
      let x := s.cxId k
      let s := s.modCore k fun c => ({ c with cmds := c.cmds.filter fun d => d.id ≠ id } : Core).endIdle (some e.fid)
      let s := if c.p && (look s.ctxs x).isSome then s.setPail x c.pail.toNat ((s.pail x c.pail.toNat).add e.count) else s
      .next (s.settle k e.fid)

end Sys2Proof.Machine
end

