-- ==== Sys2Proof/Machine/Fabric.lean ====
section
/-!
DEFINITION. The fabric of a core: routes (02 R47, R48), beats and lanes (06 R178 to R182), the sending of tokens (06 R190),
faults (06 R183), BEAT_ARRIVAL and when the fabric is empty (05 R172).
-/
namespace Sys2Proof.Machine

/-! ## Routes (02 R47, R48). Sides: 0 N, 1 E, 2 S, 3 W; input selects 1 to 4 name the same sides. -/

/-- The neighbour of a grid site. -/
def neighbour (site d : Nat) : Option Nat :=
  let r := site / 16
  let c := site % 16
  if 256 ≤ site then none
  else match d with
    | 0 => if 0 < r then some (site - 16) else none
    | 1 => if c < 15 then some (site + 1) else none
    | 2 => if r < 15 then some (site + 16) else none
    | _ => if 0 < c then some (site - 1) else none

/-- The opposite side. -/
def opposite (d : Nat) : Nat := (d + 2) % 4

/-- A direction mask names a side: bit 3 is north (02 R43). -/
def maskHas (m : BitVec 4) (d : Nat) : Bool := m.getLsbD (3 - d)

/-- The kind of a route word. -/
def routeKind (r : Nat) : Nat := bitsOf r 63 60

/-- The port of a route word. -/
def routePort (r : Nat) : Nat := bitsOf r 59 55

/-- The site of a route word. -/
def routeSite (r : Nat) : Nat := bitsOf r 54 46

/-- The side of a route word, or the entry side of a pass segment. -/
def routeSide (r : Nat) : Nat := bitsOf r 45 44

/-- The exit side of a pass segment. -/
def routeExit (r : Nat) : Nat := bitsOf r 43 42

/-- The route of a kind at a site and side. -/
def Image.routeAt (i : Image) (kind site side : Nat) : Option Nat :=
  i.routes.find? fun r => routeKind r = kind && routeSite r = site && routeSide r = side

/-- Where a stream ends: a node input, by its side, an output port, or nowhere. -/
inductive Dest where
  | node (site side : Nat)
  | port (n : Nat)
  | none
  deriving DecidableEq, Repr

/-- Where the stream that a site drives toward a side ends; pass segments carry it on (02 R47). A site carries at most two
segments, so 1,024 crossings suffice. -/
def Image.follow (i : Image) : Nat → Nat → Nat → Dest
  | 0, _, _ => .none
  | n + 1, site, d =>
    match i.routeAt 2 site d with
    | some r => .port (routePort r)
    | none => match neighbour site d with
      | none => .none
      | some nb => match i.routeAt 3 nb (opposite d) with
        | some r => i.follow n nb (routeExit r)
        | none => .node nb (opposite d)

/-- Where a stream that enters a site from a side ends: a pass segment carries it on, or it reaches the node. -/
def Image.entering (i : Image) (site side : Nat) : Dest := match i.routeAt 3 site side with
  | some p => i.follow 1024 site (routeExit p)
  | none => .node site side

/-- Where the stream of an input port ends. -/
def Image.portDest (i : Image) (port : Nat) : Dest :=
  match i.routes.find? fun r => routeKind r = 1 && routePort r = port with
  | none => .none
  | some r => i.entering (routeSite r) (routeSide r)

/-- What drives a node input: an input port, or an output of a site: 0 main, 1 whey, 2 aux, 3 + side of a fork. -/
inductive Source where
  | port (n : Nat)
  | node (site x : Nat)
  | none
  deriving DecidableEq, Repr

/-- The output of a node that drives a side. -/
def outputToward (w : NodeWord) (d : Nat) : Option Nat :=
  if maskHas w.omain d then some (if w.op.toNat = 0x2A then 3 + d else 0)
  else if maskHas w.owhey d then some 1
  else if maskHas w.oaux d then some 2
  else none

/-- The array accumulator that releases to the tap of a group (09 R251). -/
def Image.tapNode (i : Image) (t : Nat) : Option Nat :=
  ((upto 4).map fun n => 320 + 4 * t + n).find? fun n => (i.node n).op.toNat = 0x20 && bitsOf (i.node n).param.toNat 13 12 = 2

/-- What drives the link that enters a site from a side. -/
def Image.driver (i : Image) : Nat → Nat → Nat → Source
  | 0, _, _ => .none
  | n + 1, site, d =>
    match i.routeAt 1 site d with
    | some r => .port (routePort r)
    | none => match neighbour site d with
      | none => if 240 ≤ site && site < 256 && d = 2 then ((i.tapNode (site - 240)).map fun n => .node n 0).getD .none else .none
      | some nb =>
        match i.routes.find? fun r => routeKind r = 3 && routeSite r = nb && routeExit r = opposite d with
        | some r => i.driver n nb (routeSide r)
        | none => match outputToward (i.node nb) (opposite d) with
          | some x => .node nb x
          | none => .none

/-! ## Beats and tokens (06 R179 to R181, 07 R214) -/

/-- The kind of a token's beat. -/
def Token.kind : Token → Nat
  | .head _ _ _ => 0x1
  | .digit _ => 0x2
  | .fin => 0x3
  | .eor => 0x4
  | .eok => 0x5
  | .bound _ => 0x6
  | .pred _ => 0x7
  | .null => 0x8
  | .word _ => 0xA

/-- A HEAD field (06 R180). -/
def headField (tag : Nat) (sz : Bool) (e : Int) : Nat := tag * 2048 + bit sz * 1024 + unsigned 10 e

/-- What a token adds to the payload for its lane. -/
def Token.payload (t : Token) (l : Nat) : Nat := match t with
  | .head tag sz e => headField tag sz e * 2 ^ (16 * l)
  | .digit d => (if d = 1 then 2 else if d = -1 then 1 else 0) * 2 ^ (2 * l)
  | .pred b => bit b * 2 ^ l
  | .word w => w.toNat * 2 ^ (32 * l)
  | .bound v => v
  | _ => 0

/-- A token travels in a WORD beat on a word link: a word, or the NULL in its null mask. -/
def Token.inWord : Token → Bool
  | .word _ => true
  | _ => false

/-- Tokens that may share a beat: one kind, and on a word link a NULL with words (06 R179, 07 R214). -/
def sameBeat (a b : Token) (words : Bool) : Bool :=
  a.kind = b.kind || (words && (a = .null || a.inWord) && (b = .null || b.inWord))

/-- The beat of lanes' tokens, which share it. words: the link is a word link. -/
def beatOf (ts : List (Nat × Token)) (words : Bool) : Beat :=
  let mask := ts.foldl (fun m t => m ||| BitVec.ofNat 4 (2 ^ t.1)) 0#4
  let nulls := ts.foldl (fun m t => if t.2 = .null then m ||| BitVec.ofNat 4 (2 ^ t.1) else m) 0#4
  let isWord := words && ts.any fun t => t.2 = .null || t.2.inWord
  match ts with
  | (_, .bound v) :: _ => ⟨0x6, 0xF#4, 0#4, v⟩
  | (_, t) :: _ => ⟨if isWord then 0xA else t.kind, mask, if isWord then nulls else 0#4, (ts.map fun t => t.2.payload t.1).sum⟩
  | [] => ⟨0, 0#4, 0#4, 0⟩

/-- The token of a lane in a beat. -/
def Beat.token (b : Beat) (l : Nat) : Token :=
  let p := b.payload
  match b.kind with
  | 0x1 =>
    let h := p / 2 ^ (16 * l) % 65536
    .head (bitsOf h 14 11) (bitOf h 10) (signed 10 h)
  | 0x2 => .digit (match p / 2 ^ (2 * l) % 4 with
      | 2 => 1
      | 1 => -1
      | _ => 0)
  | 0x3 => .fin
  | 0x4 => .eor
  | 0x5 => .eok
  | 0x6 => .bound (p % 2 ^ 48)
  | 0x7 => .pred (bitOf p l)
  | 0xA => if b.nulls.getLsbD l then .null else .word (BitVec.ofNat 32 (p / 2 ^ (32 * l)))
  | _ => .null

/-! ## Links -/

/-- A link that nothing has crossed. -/
def Link.blank : Link := ⟨[], [], [], List.replicate 4 0, List.replicate 4 none, List.replicate 4 []⟩

/-- A link by its receiving site and side (5: the node's own main output). -/
def Fabric.link (f : Fabric) (site side : Nat) : Link := (look f.links (site, side)).getD Link.blank

/-- Replace a link. -/
def Fabric.setLink (f : Fabric) (site side : Nat) (l : Link) : Fabric := { f with links := put f.links (site, side) l }

/-- The link to an output port. -/
def Fabric.port (f : Fabric) (n : Nat) : Link := (look f.ports n).getD Link.blank

/-- Replace the link to an output port. -/
def Fabric.setPort (f : Fabric) (n : Nat) (l : Link) : Fabric := { f with ports := put f.ports n l }

/-- A link has room for a beat: its FIFO holds 8, those on the wire included (06 R178). -/
def Link.room (l : Link) : Bool := l.wire.length + l.fifo.length < 8

/-- The token that a lane finds next. -/
def Link.head (l : Link) (lane : Nat) : Option Token :=
  (l.fifo.find? fun b => b.mask.getLsbD lane).map fun b => b.token lane

/-- The first beat that concerns a lane has that lane taken. -/
def takeBeat (lane : Nat) : List Beat → List Beat
  | [] => []
  | b :: r =>
    if b.mask.getLsbD lane then { b with mask := b.mask &&& ~~~(BitVec.ofNat 4 (2 ^ lane)) } :: r else b :: takeBeat lane r

/-- Beats whose lanes have all been taken leave the head of the FIFO. -/
def dropTaken : List Beat → List Beat
  | [] => []
  | b :: r => if b.mask = 0 then dropTaken r else b :: r

/-- The number that a lane is receiving, after one more token: its tag and its digits so far (06 R181). -/
def Token.after : Token → Option (Nat × Nat) → Option (Nat × Nat)
  | .head tag _ _, _ => some (tag, 0)
  | .digit _, c => c.map fun p => (p.1, p.2 + 1)
  | .fin, _ => none
  | _, c => c

/-- A lane takes its next token: a HEAD, or an item of a word beat, counts as the next number (06 R181, 07 R214). -/
def Link.take (l : Link) (lane : Nat) : Link := match l.fifo.find? fun b => b.mask.getLsbD lane with
  | none => l
  | some b => { l with
      fifo := dropTaken (takeBeat lane l.fifo)
      heads := if b.kind = 0x1 || b.kind = 0xA then updNth l.heads lane fun n => n + 1 else l.heads
      current := updNth l.current lane (b.token lane).after }

/-- A KILL word names one number of one lane, by its ordinal (06 R182). -/
def killWord (lane n : Nat) : BitVec 16 := BitVec.ofNat 16 (2 ^ lane + n % 8 * 2 ^ (4 + 3 * lane))

/-- A KILL joins the last KILL word that waits on its wire, where that word names no number of its lane; else it is a word of its
own (08 R248). -/
def shareWord : List (BitVec 16) → BitVec 16 → List (BitVec 16)
  | [], w => [w]
  | [x], w => if (x &&& w).extractLsb' 0 4 = 0 then [x ||| w] else [x, w]
  | x :: r, w => x :: shareWord r w

/-- A KILL for the number that a lane of a link is receiving, or for the one ago numbers before it, where a HEAD was taken and
at most one for each number (06 R182, 08 R248). KILLs of several lanes that wait together travel in one word (log 100). -/
def Link.kill (l : Link) (lane ago : Nat) : Link :=
  let n := nth l.heads lane 0 - 1 - ago
  if nth l.heads lane 0 ≤ ago || (nth l.killed lane []).contains n then l
  else { l with kills := shareWord l.kills (killWord lane n), killed := updNth l.killed lane fun ns => ns ++ [n] }

/-! ## Nodes and lanes -/

/-- A lane that has done nothing since its configuration became current. -/
def LaneState.blank : LaneState where
  ops := [none, none, none]
  sent := []
  eo := none
  busy := false
  out := []
  outs := List.replicate 7 ⟨0, false⟩
  turn := 0
  index := 0
  trip := 0
  pending := none
  stopped := false
  issued := 0
  taken := 0
  inRun := false
  sum := .finite 0 0 none
  eoks := 0
  stage := []
  overflow := false
  updates := 0
  rows := 0
  group := []
  scale := 0
  zero := 0
  left := 0
  rowEnd := none
  held := []
  order := []

/-- Skim state of a node that has counted nothing. -/
def SkimNode.blank : SkimNode := ⟨List.replicate 4 ⟨0, 0, 0, 0⟩, List.replicate 4 [], [], []⟩

/-- A node that has done nothing; a counter starts with its trip count (06 R206). -/
def Image.freshNode (i : Image) (site : Nat) : NodeState :=
  let t := (look i.counters.reverse site).getD 0
  ⟨List.replicate 4 { LaneState.blank with trip := t }, SkimNode.blank⟩

/-- The state of a node of the current configuration. -/
def Core.nodeState (c : Core) (site : Nat) : NodeState := match look c.fabric.nodes site with
  | some n => n
  | none => match c.image with
    | some i => i.freshNode site
    | none => ⟨List.replicate 4 LaneState.blank, SkimNode.blank⟩

/-- Replace the state of a node. -/
def Core.setNode (c : Core) (site : Nat) (n : NodeState) : Core :=
  { c with fabric := { c.fabric with nodes := put c.fabric.nodes site n } }

/-- A lane of a node. -/
def NodeState.lane (n : NodeState) (l : Nat) : LaneState := nth n.lanes l LaneState.blank

/-- Replace a lane. -/
def NodeState.setLane (n : NodeState) (l : Nat) (v : LaneState) : NodeState := { n with lanes := updNth n.lanes l fun _ => v }

/-- Change a lane of a node of a core. -/
def Core.modLane (c : Core) (site l : Nat) (f : LaneState → LaneState) : Core :=
  let n := c.nodeState site
  c.setNode site (n.setLane l (f (n.lane l)))

/-- Lane l is enabled. -/
def laneOn (w : NodeWord) (l : Nat) : Bool := w.lanes.getLsbD l

/-- Enabled lanes. -/
def lanesOn (w : NodeWord) : List Nat := (upto 4).filter fun l => laneOn w l

/-- The input select of input i (02 R43). -/
def selectOf (w : NodeWord) (i : Nat) : Nat := match i with
  | 0 => w.in0.toNat
  | 1 => w.in1.toNat
  | _ => w.in2.toNat

/-- The link key of input i of a site: its side, or 4 for the node's own main output. -/
def inputSide (w : NodeWord) (i : Nat) : Nat := selectOf w i - 1

/-- The token that a lane finds at input i. -/
def Core.headAt (c : Core) (site : Nat) (w : NodeWord) (i l : Nat) : Option Token :=
  if selectOf w i = 0 then none else (c.fabric.link site (inputSide w i)).head l

/-- Input i gives up its next token for a lane. -/
def Core.takeAt (c : Core) (site : Nat) (w : NodeWord) (l i : Nat) : Core :=
  let s := inputSide w i
  { c with fabric := c.fabric.setLink site s ((c.fabric.link site s).take l) }

/-- A KILL goes up input i for an item that a lane took before its last ones (08 R248). -/
def Core.killAgo (c : Core) (site : Nat) (w : NodeWord) (l i ago : Nat) : Core :=
  let s := inputSide w i
  { c with fabric := c.fabric.setLink site s ((c.fabric.link site s).kill l ago) }

/-- A KILL goes up input i for the number that a lane is receiving, unless its END stands at the head (08 R248). -/
def Core.killAt (c : Core) (site : Nat) (w : NodeWord) (l i : Nat) : Core :=
  let s := inputSide w i
  if (c.fabric.link site s).head l = some .fin then c else { c with fabric := c.fabric.setLink site s ((c.fabric.link site s).kill l 0) }

/-! ## Sending (06 R178, R190) -/

/-- An output that carries words: the main outputs of d2w and of a root ska (07 R213). -/
def wordOutput (w : NodeWord) (x : Nat) : Bool := x = 0 && (w.op.toNat = 0x19 || w.op.toNat = 0x31)

/-- The side that an output of a node drives. -/
def outputSide (w : NodeWord) (x : Nat) : Option Nat :=
  if 3 ≤ x then (if maskHas w.omain (x - 3) then some (x - 3) else none)
  else
    let m := if x = 0 then w.omain else if x = 1 then w.owhey else w.oaux
    (upto 4).find? fun d => maskHas m d

/-- Where an output goes; an array accumulator releases to its group's tap (09 R251). -/
def Core.outDest (c : Core) (site : Nat) (w : NodeWord) (x : Nat) : Dest :=
  match c.image, outputSide w x with
  | some i, some d => i.follow 1024 site d
  | some i, none => if 320 ≤ site && x = 0 && bitsOf w.param.toNat 13 12 = 2 then i.entering (240 + (site - 320) / 4) 2 else .none
  | _, _ => .none

/-- Entries of the FIFO between two clock domains (14 R403). -/
def crossDepth : Nat := 16

/-- A link that enters a site from a side comes from another clock domain: its beats come from an input port, of the memory's, or
from an array accumulator's tap (00 R7, 14 R403). -/
def Image.crosses (i : Image) (site side : Nat) : Bool := side < 4 && match i.driver 1024 site side with
  | .port _ => true
  | .node n _ => 320 ≤ n
  | .none => false

/-- A producer may send a beat on a link: within the fabric there is a free slot of its FIFO (06 R178); from another domain, of the
FIFO between them, which the beats on the wire are in (14 R403; log 109). -/
def Core.linkRoom (c : Core) (site side : Nat) : Bool :=
  let l := c.fabric.link site side
  if c.image.any fun i => i.crosses site side then l.wire.length < crossDepth else l.room

/-- A producer may send a beat to an output port, through the FIFO to the memory's domain (14 R403). -/
def Core.portFree (c : Core) (n : Nat) : Bool := (c.fabric.port n).fifo.length < crossDepth

/-- The node's main output is fed back to an input of its own (02 R43). -/
def fedBack (w : NodeWord) : Bool := w.in0.toNat = 5 || w.in1.toNat = 5 || w.in2.toNat = 5

/-- An output has room for a beat. -/
def Core.outRoom (c : Core) (site : Nat) (w : NodeWord) (x : Nat) : Bool :=
  (match c.outDest site w x with
  | .node s d => c.linkRoom s d
  | .port n => c.portFree n
  | .none => true) && (x ≠ 0 || !fedBack w || (c.fabric.link site 4).room)

/-- A beat is sent toward a destination. -/
def Core.sendTo (c : Core) (d : Dest) (b : Beat) : Core := match d with
  | .node s side =>
    let l := c.fabric.link s side
    { c with fabric := c.fabric.setLink s side { l with wire := l.wire ++ [b] } }
  | .port n =>
    let l := c.fabric.port n
    { c with fabric := c.fabric.setPort n { l with fifo := l.fifo ++ [b] } }
  | .none => c

/-- The first token of a lane that waits for an output. -/
def LaneState.nextOut (l : LaneState) (x : Nat) : Option Token := (l.out.find? fun t => t.1 = x).map fun t => t.2

/-- A lane's first token for an output has been sent; on a word link a NULL counts among the ordinals (06 R181, 07 R214). -/
def LaneState.sentOut (l : LaneState) (x : Nat) (words : Bool) : LaneState :=
  match l.nextOut x with
  | none => l
  | some t =>
    let upd (o : OutState) : OutState := match t with
      | .head _ _ _ => ⟨(o.heads + 1) % 8, true⟩
      | .fin => ⟨o.heads, false⟩
      | .word _ => ⟨(o.heads + 1) % 8, false⟩
      | .null => if words then ⟨(o.heads + 1) % 8, false⟩ else o
      | _ => o
    { l with out := l.out.eraseP fun t => t.1 = x, outs := updNth l.outs x upd }

/-- The lanes of the next beat of a d2w's main output: every enabled lane has an item ready or holds a row token, and items
leave before row tokens (07 R223). -/
def wordLanes (ts : List (Nat × Token)) (lanes : Nat) : List (Nat × Token) :=
  if ts.length < lanes then []
  else
    let items := ts.filter fun t => t.2 ≠ .eor && t.2 ≠ .eok
    if items = [] then ts else items

/-- Every enabled lane holds the same BOUND next: lanes take the BOUNDs of an input in their order, so it is the same where the
input is; a merge keeps the input of a lane's last item in the lane's index (06 R190, R199). -/
def boundHeld (w : NodeWord) (n : NodeState) (ts : List (Nat × Token)) : Bool :=
  ts.length = (lanesOn w).length &&
    (w.op.toNat ≠ 0x28 || ts.all fun t => (n.lane t.1).index = (n.lane ((lanesOn w).headD 0)).index)

/-- The lanes whose next token leaves with the next beat of an output: those that share the lowest waiting lane's kind, and for
a BOUND every enabled lane or none (06 R190). -/
def beatLanes (w : NodeWord) (n : NodeState) (x : Nat) : List (Nat × Token) :=
  let ts := (lanesOn w).filterMap fun l => ((n.lane l).nextOut x).map fun t => (l, t)
  let rows := ts.filter fun t => t.2 = .eor || t.2 = .eok
  let ts := if w.op.toNat = 0x19 && x = 1 && rows.length < (lanesOn w).length then ts.filter fun t => t.2 ≠ .eor && t.2 ≠ .eok else ts
  if w.op.toNat = 0x19 && x = 0 then wordLanes ts (lanesOn w).length
  else match ts.filter fun t => t.2.kind ≠ 0x6 with
  | (_, t) :: _ => ts.filter fun u => sameBeat t u.2 (wordOutput w x)
  | [] => if boundHeld w n ts then ts else []

/-- Skim counts added, each saturating at 65,535 (07 R228). -/
def SkimCounts.add (a b : SkimCounts) : SkimCounts :=
  ⟨min 65535 (a.sat + b.sat), min 65535 (a.nan + b.nan), min 65535 (a.kill + b.kill), min 65535 (a.null + b.null)⟩

/-- A lane of a skim node counts. -/
def SkimNode.count (k : SkimNode) (l : Nat) (a : SkimCounts) : SkimNode := { k with now := updNth k.now l fun n => n.add a }

/-- The lanes of some have sent an EOK on main: each ends its tile, and the node's tile ends once every enabled lane has ended
it, with the sum of their counts (07 R228). -/
def SkimNode.eok (k : SkimNode) (on ls : List Nat) : SkimNode :=
  let k : SkimNode := { k with
    past := ls.foldl (fun p l => updNth p l fun q => q ++ [nth k.now l ⟨0, 0, 0, 0⟩]) k.past
    now := ls.foldl (fun n l => updNth n l fun _ => ⟨0, 0, 0, 0⟩) k.now }
  if on.all fun l => nth k.past l [] ≠ [] then
    { k with
      ended := k.ended ++ [on.foldl (fun a l => a.add ((nth k.past l []).headD ⟨0, 0, 0, 0⟩)) ⟨0, 0, 0, 0⟩]
      past := on.foldl (fun p l => updNth p l fun q => q.drop 1) k.past }
  else k

/-- The side toward which a site's STATs travel (02 R47, 07 R229). -/
def Core.skimSide (c : Core) (site : Nat) : Option Nat :=
  c.image.bind fun i => (i.routes.find? fun r => routeKind r = 4 && routeSite r = site).map routeSide

/-- A node that is a converter (07 R213). -/
def converter (w : NodeWord) : Bool := 0x18 ≤ w.op.toNat && w.op.toNat ≤ 0x1B

/-- Lanes whose EOK leaves by an output that is main. -/
def eokLanes (x : Nat) (ts : List (Nat × Token)) : List Nat := (ts.filter fun t => x = 0 && t.2 = .eok).map fun t => t.1

/-- The done of a converter for the lanes that send an EOK on main: PRED 1 on aux (07 R216). -/
def Core.sendDone (c : Core) (site : Nat) (ls : List Nat) : Core :=
  let w := c.node site
  if ls = [] || !converter w then c else c.sendTo (c.outDest site w 2) (beatOf (ls.map fun l => (l, .pred true)) false)

/-- Lanes' tokens leave by an output as one beat. An EOK on main ends the lanes' tile, and a converter's done leaves with it; a
node without a skim line keeps no ended tile (07 R216, R228, R229). -/
def Core.sendBeat (c : Core) (site x : Nat) (ts : List (Nat × Token)) : Core :=
  let w := c.node site
  let n := c.nodeState site
  let b := beatOf ts (wordOutput w x)
  let eoks := eokLanes x ts
  let sk := if eoks = [] then n.skim else n.skim.eok (lanesOn w) eoks
  let sk := if (c.skimSide site).isSome then sk else { sk with ended := [] }
  let c := c.sendTo (c.outDest site w x) b
  let c := if x = 0 && fedBack w then c.sendTo (.node site 4) b else c
  let c := c.sendDone site eoks
  c.setNode site { ts.foldl (fun n t => n.setLane t.1 ((n.lane t.1).sentOut x (wordOutput w x))) n with skim := sk }

/-- An output sends one beat, if there is one and there is room for it, and for a converter's done with it (log 101). -/
def Core.flush (c : Core) (site : Nat) (x : Nat) : Core :=
  let w := c.node site
  match beatLanes w (c.nodeState site) x with
  | [] => c
  | ts =>
    let done := eokLanes x ts ≠ [] && converter w
    if c.outRoom site w x && (!done || c.outRoom site w 2) then c.sendBeat site x ts else c

/-- Two lanes' next tokens share a beat on every output that both wait on. -/
def LaneState.joins (a b : LaneState) : Bool := (upto 7).all fun x => match a.nextOut x, b.nextOut x with
  | some s, some t => s.kind = t.kind
  | _, _ => true

/-- The lanes of a fork whose tokens leave next: those that share the kinds of the lowest waiting lane's leave with them, a BOUND
leaves once every enabled lane holds it (06 R190, R201). -/
def forkLanes (w : NodeWord) (n : NodeState) : List Nat :=
  let ls := (lanesOn w).filter fun l => (n.lane l).out ≠ []
  let bounds := ls.filter fun l => (n.lane l).out.all fun t => t.2.kind = 0x6
  match ls.filter fun l => !bounds.contains l with
  | [] => if bounds.length = (lanesOn w).length then bounds else []
  | rest => rest.foldl (fun r l => if r.all fun m => (n.lane m).joins (n.lane l) then r ++ [l] else r) []

/-- A fork's tokens leave on every branch at once, when every branch has room (06 R201). -/
def Core.flushFork (c : Core) (site : Nat) : Core :=
  let w := c.node site
  let n := c.nodeState site
  let ls := forkLanes w n
  let on (x : Nat) : List (Nat × Token) := ls.filterMap fun l => ((n.lane l).nextOut x).map fun t => (l, t)
  let xs := (upto 7).filter fun x => on x ≠ []
  if xs.all fun x => c.outRoom site w x then xs.foldl (fun c x => c.sendBeat site x (on x)) c else c

/-- Every output of a node sends at most one beat. -/
def Core.flushAll (c : Core) (site : Nat) : Core :=
  if (c.node site).op.toNat = 0x2A then c.flushFork site else (upto 7).foldl (fun c x => c.flush site x) c

/-! ## Faults (06 R183) -/

/-- Bytes 0x10 to 0x3F of the fabric's record (13 R352). -/
def fabricBody (site lane input sel cx payload kind : Nat) : List Byte :=
  leBytes 2 site ++ leBytes 1 lane ++ leBytes 1 (input + sel * 4) ++ leBytes 1 cx ++ leBytes 3 0 ++ leBytes 8 payload ++
    leBytes 1 kind ++ leBytes 31 0

/-- A fault at input i of a node: the halt line rises, and the fabric's record names the site, the lane, the input and the
beat (06 R183). -/
def State.fabricFault (s : State) (k : CoreId) (site lane i reason : Nat) (b : Option Beat) : State :=
  let c := s.core k
  let p := (b.map fun b => (b.payload, b.kind)).getD (0, 0)
  s.unitFault k 8 reason 0 (fabricBody site lane i (selectOf (c.node site) i) c.cx p.1 p.2)

/-! ## One turn of a lane -/

/-- What a lane's turn does: its new state, the inputs that give up a token, the inputs whose number it kills, a fault with
its input, and what it adds to the node's skim counts. -/
structure Turn where
  lane : LaneState
  takes : List Nat
  kills : List Nat
  fault : Option (Nat × Nat)
  skim : SkimCounts

/-- A turn that only changes the lane. -/
def Turn.of (l : LaneState) : Turn := ⟨l, [], [], none, ⟨0, 0, 0, 0⟩⟩

/-- A turn that raises a fault at an input. -/
def Turn.bad (l : LaneState) (reason i : Nat) : Turn := { Turn.of l with fault := some (reason, i) }

/-- A turn that also takes a token from inputs. -/
def Turn.taking (t : Turn) (is : List Nat) : Turn := { t with takes := is ++ t.takes }

/-- Tokens that wait to be sent. -/
def LaneState.emit (l : LaneState) (ts : List (Nat × Token)) : LaneState := { l with out := l.out ++ ts }

/-- What a lane of a node sees: its word, by input its heads and the number it is receiving, and whether each output has room and
whether no lane waits on it. -/
structure View where
  w : NodeWord
  h : List (Option Token)
  current : List (Option (Nat × Nat))
  room : List Bool
  idle : List Bool

/-- The head at input i. -/
def View.head (v : View) (i : Nat) : Option Token := nth v.h i none

/-- No lane of a node waits to send on an output; one that holds a BOUND waits for the others, and hinders none (06 R190). -/
def outIdle (w : NodeWord) (n : NodeState) (x : Nat) : Bool :=
  (lanesOn w).all fun l => match (n.lane l).nextOut x with
    | none => true
    | some t => t.kind = 0x6

/-- A core's view for a lane of a site. -/
def Core.view (c : Core) (site l : Nat) : View :=
  let w := c.node site
  let number (i : Nat) : Option (Nat × Nat) := if selectOf w i = 0 then none else nth (c.fabric.link site (inputSide w i)).current l none
  ⟨w, (upto 3).map fun i => c.headAt site w i l, (upto 3).map number, (upto 7).map fun x => c.outRoom site w x,
    (upto 7).map fun x => outIdle w (c.nodeState site) x⟩

/-- A token is in the grammar of 06 R181, given the number that is being received. -/
def Token.fits (t : Token) (c : Option (Nat × Nat)) : Bool := match t, c with
  | .digit _, some (tag, n) => tag = 0 && n < 64
  | .digit _, none => false
  | .fin, _ => c.isSome
  | .word _, _ => false
  | _, _ => c.isNone

/-- A token at input i is in the grammar. -/
def View.fits (v : View) (i : Nat) (t : Token) : Bool := t.fits (nth v.current i none)

/-- A turn takes effect on its node and its links; what it counts is counted though it raises a fault (07 R221). -/
def State.applyTurn (s : State) (k : CoreId) (site l : Nat) (t : Turn) : State :=
  let s := s.modCore k fun c =>
    let n := c.nodeState site
    if t.skim = ⟨0, 0, 0, 0⟩ then c else c.setNode site { n with skim := n.skim.count l t.skim }
  match t.fault with
  | some (reason, i) =>
    let c := s.core k
    let w := c.node site
    let b := (c.fabric.link site (inputSide w i)).fifo.find? fun b => b.mask.getLsbD l
    s.fabricFault k site l i reason b
  | none =>
    s.modCore k fun c =>
      let w := c.node site
      let c := t.takes.foldl (fun c i => c.takeAt site w l i) c
      let c := t.kills.foldl (fun c i => c.killAt site w l i) c
      c.modLane site l fun _ => t.lane

/-! ## BEAT_ARRIVAL (06 R178, R183) -/

/-- Inputs that take words (07 R213). -/
def wordInput (op n : Nat) : Bool := (n = 0 && (op = 0x18 || op = 0x1A || op = 0x1B)) || (n = 1 && op = 0x1A)

/-- The lanes that a beat concerns. -/
def Beat.lanes (b : Beat) : List Nat := (upto 4).filter fun l => b.mask.getLsbD l

/-- The payload bits of each lane in a beat of a kind (06 R179, 07 R214). -/
def laneBits (kind : Nat) : Nat := match kind with
  | 0x1 => 16
  | 0x2 => 2
  | 0x7 => 1
  | 0xA => 32
  | _ => 0

/-- A lane's payload field in a beat. -/
def Beat.field (b : Beat) (l : Nat) : Nat := b.payload / 2 ^ (laneBits b.kind * l) % 2 ^ laneBits b.kind

/-- A HEAD field keeps to 06 R180. -/
def headHolds (h : Nat) : Bool :=
  let tag := bitsOf h 14 11
  !bitOf h 15 && tag < 4 && (tag = 0 || bitsOf h 9 0 = 0) && (tag ≠ 3 || !bitOf h 10)

/-- Nothing stands in a beat's payload beside its own fields: the lanes of the mask, or a BOUND's value. -/
def Beat.unusedZero (b : Beat) : Bool :=
  if b.kind = 0x6 then b.payload < 2 ^ 48 else b.payload = (b.lanes.map fun l => b.field l * 2 ^ (laneBits b.kind * l)).sum

/-- The kind, the mask and the payload of a beat are those of a digit link (06 R179, R180) or a word link (07 R214). -/
def Beat.formed (b : Beat) (words : Bool) : Bool :=
  (if words then [0x4, 0x5, 0x6, 0x7, 0xA].contains b.kind else 1 ≤ b.kind && b.kind ≤ 8) &&
    b.mask ≠ 0 && (b.kind ≠ 0x6 || b.mask = 0xF) && b.unusedZero &&
    (!words || (b.nulls &&& ~~~b.mask = 0 && (b.kind = 0xA || b.nulls = 0) && (b.lanes.all fun l => !b.nulls.getLsbD l || b.field l = 0)))

/-- A beat breaks the rules of its link, a word link or not: the reason and the lane (06 R183, 07 R214). Where it breaks several,
0x41 stands before 0x42 and 0x42 before 0x44, and a fault of the whole beat names lane 0 (log 102). -/
def Beat.broken (b : Beat) (w : NodeWord) (words : Bool) : Option (Nat × Nat) :=
  let bad := b.lanes.find? fun l => !words && b.kind = 0x2 && b.field l = 3
  let tag := b.lanes.find? fun l => !words && b.kind = 0x1 && !headHolds (b.field l)
  let off := b.lanes.find? fun l => b.kind ≠ 0x6 && !laneOn w l
  match bad, tag, off with
  | some l, _, _ => some (0x41, l)
  | _, some l, _ => some (0x42, l)
  | _, _, off => if !b.formed words then some (0x42, 0) else off.map fun l => (0x44, l)

/-- A merge remembers the order in which items arrived at its inputs (06 R199). -/
def Core.noteOrder (c : Core) (site inp : Nat) (mask : BitVec 4) : Core :=
  (upto 4).foldl (fun c l =>
    if mask.getLsbD l then c.modLane site l fun n => { n with order := n.order ++ [inp] } else c) c

/-- BEAT_ARRIVAL: the oldest beat on the wire to input inp of a site enters its FIFO of 8, once it has a free slot; a bad beat is a
fault (06 R183). A BOUND concerns the enabled lanes. -/
def execBeatArrival (k : CoreId) (site inp : Nat) (s : State) : Res :=
  let c := s.core k
  let w := c.node site
  let side := inputSide w inp
  let l := c.fabric.link site side
  if c.records.contains 8 || 3 ≤ inp || selectOf w inp = 0 || 8 ≤ l.fifo.length then .next s
  else match l.wire with
    | [] => .next s
    | b :: r =>
      match b.broken w (wordInput w.op.toNat inp) with
      | some (reason, lane) => .next (s.fabricFault k site lane inp reason (some b))
      | none =>
        let b := if b.kind = 0x6 then { b with mask := w.lanes } else b
        let c := { c with fabric := c.fabric.setLink site side { l with wire := r, fifo := l.fifo ++ [b] } }
        .next (s.setCore k (if w.op.toNat = 0x28 && w.var && b.kind ≠ 0x2 && b.kind ≠ 0x3 then c.noteOrder site inp b.mask else c))

/-! ## Emptiness (05 R172) -/

/-- Opcodes whose pending value is a token taken and not yet used, or one still to send: the PRED of a step of an arithmetic or
compare node, the index of an agin, the EOR of a root ska. A counter's and a controller's BOUND is state between items. -/
def keepsToken (op : Nat) : Bool := (0x01 ≤ op && op ≤ 0x0E) || (0x10 ≤ op && op ≤ 0x14) || op = 0x31 || op = 0x33

/-- A lane of a node holds a token, or a number partly received or sent. -/
def LaneState.holds (l : LaneState) (op : Nat) : Bool :=
  l.out ≠ [] || l.busy || l.ops.any (fun o => o.isSome) || l.held ≠ [] || l.rowEnd.isSome || l.group ≠ [] ||
    (l.outs.any fun o => o.isOpen) || (keepsToken op && l.pending.isSome)

/-- The links of a fabric are empty: no beat on a link, no KILL on a reverse wire. -/
def Fabric.quiet (f : Fabric) : Bool :=
  (f.links.all fun l => l.2.wire = [] && l.2.fifo = [] && l.2.kills = []) && f.ports.all fun p => p.2.fifo = [] && p.2.wire = []

/-- The fabric of a core is empty: nothing on its links, no token or part of a number in a node (05 R172). -/
def Core.fabricEmpty (c : Core) : Bool :=
  c.fabric.quiet && c.fabric.nodes.all fun n => n.2.lanes.all fun l => !l.holds (c.node n.1).op.toNat

end Sys2Proof.Machine
end

