-- ==== Sys2Proof/Machine/Online.lean ====
section
/-!
DEFINITION. The arithmetic nodes 0x01 to 0x0E: the step of a lane (06 R187 to R189), classes (06 R195), normalisation (06 R194)
and the selection of digits (06 R192, R193, R196, R197).
-/
namespace Sys2Proof.Machine

/-! ## Operands as a lane holds them -/

/-- The operand that a HEAD begins. -/
def Operand.start (tag : Nat) (sz : Bool) (e : Int) (discard : Bool) : Operand := ⟨tag, sz, e, [], false, discard⟩

/-- A number goes on with a token: none for a token out of the grammar of 06 R181, else the operand, or none once a discarded
number has ended. -/
def Operand.feed (o : Operand) : Token → Option (Option Operand)
  | .digit d => if o.tag ≠ 0 || 64 ≤ o.digits.length then none else some (some { o with digits := o.digits ++ [d] })
  | .fin => some (if o.discard then none else some { o with ended := true })
  | _ => none

/-- An integer from its binary digits, the first of most weight. -/
def digitsInt (ds : List Int) : Int := ds.foldl (fun a d => 2 * a + d) 0

/-- The digits through index n are held, or the END. -/
def Operand.has (o : Operand) (n : Int) : Bool := o.ended || n < o.digits.length

/-- The value of the digits through index n: m × 2^x. -/
def Operand.prefixVal (o : Operand) (n : Int) : Int × Int :=
  let ds := o.digits.take (n + 1).toNat
  (digitsInt ds, o.e - ds.length)

/-- Digit i, 0 outside the operand's digits. -/
def Operand.digitAt (o : Operand) (i : Int) : Int := if i < 0 then 0 else nth o.digits i.toNat 0

/-- The whole value of the digits held. -/
def Operand.value (o : Operand) : Int × Int := o.prefixVal o.digits.length

/-- Whether a number is negative, once it is known (06 R195). -/
def Operand.neg (o : Operand) : Option Bool :=
  if o.tag ≠ 0 then some o.sz
  else match o.digits.find? fun d => d ≠ 0 with
    | some d => some (d < 0)
    | none => if o.ended then some o.sz else none

/-- Whether a number is zero, once it is known. -/
def Operand.zero (o : Operand) : Option Bool :=
  if o.tag ≠ 0 then some (o.tag = 1)
  else if o.digits.any fun d => d ≠ 0 then some false
  else if o.ended then some true
  else none

/-- A number is an infinity. -/
def Operand.isInf (o : Operand) : Bool := o.tag = 2

/-! ## A lane's step (06 R188, R189) -/

/-- What a lane takes from its inputs for the numbers it is receiving: at most one token from each. -/
structure Absorbed where
  ops : List (Option Operand)
  takes : List Nat
  fault : Option (Nat × Nat)

/-- Numbers in progress go on with the tokens at their inputs, at the inputs that may go on. -/
def absorbAt (may : Nat → Bool) (v : View) (ops : List (Option Operand)) : Absorbed :=
  (upto 3).foldl (fun a i =>
    match nth ops i none, v.head i with
    | some o, some t =>
      if o.ended || !may i then { a with ops := a.ops ++ [some o] }
      else match o.feed t with
        | some r => { a with ops := a.ops ++ [r], takes := a.takes ++ [i] }
        | none => { a with ops := a.ops ++ [some o], fault := some (0x43, i) }
    | o, _ => { a with ops := a.ops ++ [o] }) ⟨[], [], none⟩

/-- Numbers in progress go on with the tokens at their inputs. -/
def absorb (v : View) (ops : List (Option Operand)) : Absorbed := absorbAt (fun _ => true) v ops

/-- What a lane does while it has tokens to send: an arithmetic node, and d2w, holds the operand digits that come (06 R198),
another node waits. -/
def waitTurn (v : View) (l : LaneState) : Turn :=
  let op := v.w.op.toNat
  if (0x01 ≤ op && op ≤ 0x0E) || op = 0x19 then
    let a := absorb v l.ops
    match a.fault with
    | some (r, i) => Turn.bad l r i
    | none => (Turn.of { l with ops := a.ops }).taking a.takes
  else Turn.of l

/-- A lane's turn of a node event: tokens that wait leave first; a lane with none left to send acts on its heads, one with some
left does what wait says. The event is of the opcode that the site holds, on an enabled lane, while the fabric has not stopped. -/
def State.nodeTurn (s : State) (k : CoreId) (site l : Nat) (op : Nat) (act : View → LaneState → Turn)
    (wait : View → LaneState → Turn := waitTurn) : Res :=
  let c := s.core k
  let w := c.node site
  if w.op.toNat ≠ op || !laneOn w l || 4 ≤ l || c.records.contains 8 then .next s
  else
    let s := s.modCore k fun c => c.flushAll site
    let c := s.core k
    let n := (c.nodeState site).lane l
    .next (s.applyTurn k site l ((if n.out = [] then act else wait) (c.view site l) n))

/-- The predicate of a step: none while it has not been taken. -/
def predOf (w : NodeWord) (l : LaneState) : Option Bool := if w.pin = 0 then some w.sense else l.pending.map fun b => b = 1

/-- A lane without a step in progress, at the beginning of one (06 R188): operand inputs, and what a step that computes
nothing emits. One token or one round of row tokens is taken in a turn. Row tokens out of step name the first input that holds
one (log 102); a step that computes nothing kills each operand number, of a cmp with kill 0 too (log 104). -/
def beginStep (ins : List Nat) (nulls : List (Nat × Token)) (v : View) (l : LaneState) : Turn :=
  let pinned : Option Nat := if v.w.pin = 0 then none else some (v.w.pin.toNat - 1)
  let lone := pinned.filter fun i => !ins.contains i
  let bad := ins.find? fun i => match v.head i with
    | some (.digit _) => true
    | some .fin => true
    | some (.word _) => true
    | some (.pred _) => pinned ≠ some i || l.pending.isSome
    | _ => false
  let badLone := lone.filter fun i => l.pending.isNone && match v.head i with
    | some (.pred _) => false
    | none => false
    | _ => true
  let boundIn := ins.find? fun i => match v.head i with
    | some (.bound _) => true
    | _ => false
  let row := ins.find? fun i => v.head i = some .eor || v.head i = some .eok
  match bad, badLone, boundIn with
  | some i, _, _ => Turn.bad l 0x43 i
  | _, some i, _ => Turn.bad l 0x43 i
  | _, _, some i => match i, v.head i with
    | 0, some t => (Turn.of (l.emit [(0, t)])).taking [0]
    | _, _ => (Turn.of l).taking [i]
  | none, none, none =>
    if ins.any fun i => (v.head i).isNone then Turn.of l
    else match row with
      | some i =>
        if l.pending.isNone && ins.all fun j => v.head j = v.head i then
          (Turn.of (l.emit ((v.head i).toList.map fun t => (0, t)))).taking ins
        else Turn.bad l 0x46 i
      | none => match pinned, l.pending with
        | some i, none => match v.head i with
          | some (.pred b) => (Turn.of { l with pending := some (bit b) }).taking [i]
          | none => Turn.of l
          | _ => Turn.bad l 0x43 i
        | _, _ =>
          let off := predOf v.w l ≠ some v.w.sense || ins.any fun i => v.head i = some .null
          let op (i : Nat) : Option Operand := match v.head i with
            | some (.head tag sz e) => if ins.contains i then some (Operand.start tag sz e off) else none
            | _ => none
          let l : LaneState := { l with ops := (upto 3).map op, pending := none, eo := none, sent := [], index := 0 }
          if off then { (Turn.of (l.emit nulls)).taking ins with kills := ins.filter fun i => (op i).isSome }
          else (Turn.of { l with busy := true }).taking ins

/-- A lane ends the number it produces with tokens: operands that have not ended are killed and discarded (06 R189, R195). -/
def LaneState.finish (l : LaneState) (ts : List (Nat × Token)) : Turn :=
  let rest := l.ops.map fun o => o.bind fun o => if o.ended then none else some { o with discard := true }
  let t := Turn.of ({ l with ops := rest, busy := false, eo := none, sent := [], index := 0 }.emit ts)
  { t with kills := (upto 3).filter fun i => ((nth l.ops i none).filter fun o => !o.ended && !o.discard).isSome }

/-- A lane that is not at the beginning of a step takes what its inputs hold for it, then goes on. -/
def runStep (ins : List Nat) (nulls : List (Nat × Token)) (go : View → LaneState → Turn) (v : View) (l : LaneState) : Turn :=
  if !l.busy && l.ops.all fun o => o.isNone then beginStep ins nulls v l
  else
    let a := absorb v l.ops
    let l : LaneState := { l with ops := a.ops }
    match a.fault with
    | some (r, i) => Turn.bad l r i
    | none => (if l.busy then go v l else Turn.of l).taking a.takes

/-! ## Results -/

/-- The class of a result (06 R195): not yet known, NaN, infinity, zero sent at HEAD, or digits. -/
inductive ResultClass where
  | wait
  | nan
  | inf (neg : Bool)
  | zero (neg : Bool)
  | digits
  deriving DecidableEq, Repr

/-- What an arithmetic opcode is: its inputs, the class of its result, the exponent and the zero sign of a finite result,
digit j after digits that stand for z × 2^(eo - j) (none: not enough digits held), whether z × 2^(eo - j) is the exact result
of ended operands, and whether it passes the operand's own digits on. -/
structure NodeOp where
  inputs : Nat
  cls : List Operand → ResultClass
  eo : List Operand → Option Int
  sz : List Operand → Bool
  pick : List Operand → Int → Nat → Int → Option Int
  exact : List Operand → Int → Nat → Int → Bool
  passes : Bool

/-- A number without digits: HEAD and END together. -/
def shortNumber (tag : Nat) (sz : Bool) : List (Nat × Token) := [(0, .head tag sz 0), (0, .fin)]

/-- The digit limit of a node (06 R185, R187). -/
def digitLimit (w : NodeWord) : Nat := bitsOf w.param.toNat 5 0 + 1

/-- An arithmetic node's lane goes on (06 R185, R186, R193, R195): it decides the class, drops leading zeros while the exponent
is above 511, sends HEAD, then one digit a turn. -/
def compute (o : NodeOp) (v : View) (l : LaneState) : Turn :=
  let os := l.ops.filterMap id
  let ended := os.all fun p => p.ended
  match l.eo with
  | none => match o.cls os with
    | .wait => Turn.of l
    | .nan => l.finish (shortNumber 3 false)
    | .inf n => l.finish (shortNumber 2 n)
    | .zero n => l.finish (shortNumber 1 n)
    | .digits => match o.eo os with
      | none => Turn.of l
      | some e =>
        let cur := e - l.index
        if cur < -512 then l.finish (shortNumber 1 (o.sz os))
        else if cur ≤ 511 then Turn.of ({ l with eo := some e }.emit [(0, .head 0 (o.sz os) cur)])
        else if ended && o.exact os e l.index 0 then l.finish (shortNumber 1 (o.sz os))
        else match o.pick os e l.index 0 with
          | none => Turn.of l
          | some 0 => Turn.of { l with index := l.index + 1 }
          | some d => l.finish (shortNumber 2 (d < 0))
  | some e =>
    let z := digitsInt l.sent
    if digitLimit v.w ≤ l.sent.length then l.finish [(0, .fin)]
    else if ended && (o.passes || 0 < l.index) && o.exact os e l.index z then l.finish [(0, .fin)]
    else match o.pick os e l.index z with
      | none => Turn.of l
      | some d => Turn.of ({ l with index := l.index + 1, sent := l.sent ++ [d] }.emit [(0, .digit d)])

/-- The turn of a lane of an arithmetic node. -/
def arithTurn (o : NodeOp) : View → LaneState → Turn := runStep (upto o.inputs) [(0, .null)] (compute o)

/-! ## Digit selection -/

/-- Digit by thresholds (06 R193): ge t x says that the result is at least t × 2^x. Z is z × 2^(eo - j), u is 2^(eo - 1 - j). -/
def pickBy (ge : Int → Int → Bool) (eo : Int) (j : Nat) (z : Int) : Int :=
  if ge (4 * z + 1) (eo - 2 - j) then 1 else if ge (4 * z - 1) (eo - 2 - j) then 0 else -1

/-- m × 2^x is at least n × 2^y. -/
def dyGe (a b : Int × Int) : Bool := !dyLt a b

/-- Two exact numbers are equal. -/
def dyEq (a b : Int × Int) : Bool := (dyAdd a (-b.1, b.2)).1 = 0

/-- Operand i. -/
def opAt (os : List Operand) (i : Nat) : Operand := nth os i (Operand.start 1 false 0 false)

/-- The larger exponent of two operands. -/
def emaxOf (os : List Operand) : Int := max (opAt os 0).e (opAt os 1).e

/-- Any operand is NaN. -/
def anyNan (os : List Operand) : Bool := os.any fun o => o.tag = 3

/-! ### add and sub (06 R192) -/

/-- Split of Pair(i), given Pair(i + 1). -/
def splitPair (p q : Int) : Int × Int :=
  if p = 2 then (1, 0)
  else if p = -2 then (-1, 0)
  else if p = 1 then (if 0 ≤ q then (1, -1) else (0, 1))
  else if p = -1 then (if 0 ≤ q then (0, -1) else (-1, 1))
  else (0, 0)

/-- Carry-free addition of a and b, b negated for sub. -/
def addOp (sub : Bool) : NodeOp where
  inputs := 2
  cls os :=
    let a := opAt os 0
    let b := opAt os 1
    let bs := b.sz != sub
    if anyNan os then .nan
    else if a.isInf && b.isInf && a.sz != bs then .nan
    else if a.isInf then .inf a.sz
    else if b.isInf then .inf bs
    else if a.tag = 1 && b.tag = 1 then .zero (a.sz && bs)
    else .digits
  eo os := some (emaxOf os + 1)
  sz os := (opAt os 0).sz && ((opAt os 1).sz != sub)
  pick os _ j _ :=
    let m := emaxOf os
    let at_ (o : Operand) (i : Int) : Int := o.digitAt (i + o.e - m)
    let pair (i : Int) : Int := at_ (opAt os 0) i + (if sub then -at_ (opAt os 1) i else at_ (opAt os 1) i)
    let split (i : Int) : Int × Int := splitPair (pair i) (pair (i + 1))
    if os.all fun o => o.has (j + 1 + o.e - m) then
      some ((if j = 0 then 0 else (split ((j : Int) - 1)).2) + (split j).1)
    else none
  exact os eo j z :=
    let b := (opAt os 1).value
    dyEq (dyAdd (opAt os 0).value (if sub then -b.1 else b.1, b.2)) (z, eo - j)
  passes := false

/-! ### mul and mad -/

/-- The class of a product (06 R195). -/
def productClass (a b : Operand) : ResultClass :=
  let times (x : Operand) : ResultClass := match x.zero, a.neg, b.neg with
    | some true, _, _ => .nan
    | some false, some p, some q => .inf (p != q)
    | _, _, _ => .wait
  if a.tag = 3 || b.tag = 3 then .nan
  else if a.isInf then times b
  else if b.isInf then times a
  else if a.tag = 1 || b.tag = 1 then .zero (a.sz != b.sz)
  else .digits

/-- The product of two prefixes. -/
def dyMul (a b : Int × Int) : Int × Int := (a.1 * b.1, a.2 + b.2)

/-- a × b. -/
def mulOp : NodeOp where
  inputs := 2
  cls os := productClass (opAt os 0) (opAt os 1)
  eo os := some ((opAt os 0).e + (opAt os 1).e + 1)
  sz os := (opAt os 0).sz != (opAt os 1).sz
  pick os eo j z :=
    if os.all fun o => o.has (j + 2) then
      let f := dyMul ((opAt os 0).prefixVal (j + 2)) ((opAt os 1).prefixVal (j + 2))
      some (pickBy (fun t x => dyGe f (t, x)) eo j z)
    else none
  exact os eo j z := dyEq (dyMul (opAt os 0).value (opAt os 1).value) (z, eo - j)
  passes := false

/-- a × b + c. -/
def madOp : NodeOp where
  inputs := 3
  cls os :=
    let c := opAt os 2
    if anyNan os then .nan
    else match productClass (opAt os 0) (opAt os 1) with
      | .inf n => if c.isInf && c.sz != n then .nan else .inf n
      | .zero n => if c.isInf then .inf c.sz else if c.tag = 1 then .zero (n && c.sz) else .digits
      | .digits => if c.isInf then .inf c.sz else .digits
      | r => r
  eo os := some (max ((opAt os 0).e + (opAt os 1).e) (opAt os 2).e + 2)
  sz os := ((opAt os 0).sz != (opAt os 1).sz) && (opAt os 2).sz
  pick os eo j z :=
    let a := opAt os 0
    let b := opAt os 1
    let c := opAt os 2
    let n := j + 3 + a.e + b.e - eo
    let m := j + 3 + c.e - eo
    if a.has n && b.has n && c.has m then
      let f := dyAdd (dyMul (a.prefixVal n) (b.prefixVal n)) (c.prefixVal m)
      some (pickBy (fun t x => dyGe f (t, x)) eo j z)
    else none
  exact os eo j z := dyEq (dyAdd (dyMul (opAt os 0).value (opAt os 1).value) (opAt os 2).value) (z, eo - j)
  passes := false

/-! ### Normalisation (06 R194) -/

/-- An operand as normalisation leaves it: more digits are needed, zero, or its exponent and digits. -/
inductive Normal where
  | wait
  | zero
  | num (e : Int) (ds : List Int)
  deriving DecidableEq, Repr

/-- A first digit that is not 0, with the digits after it. -/
def normalFrom (ended : Bool) (d : Int) : Int → List Int → Normal
  | e, [] => if ended then .num e [d] else .wait
  | e, x :: r => if x = -d then normalFrom ended d (e - 1) r else .num e (d :: x :: r)

/-- Leading zeros and pairs of opposite digits go. -/
def normalise (ended : Bool) : Int → List Int → Normal
  | _, [] => if ended then .zero else .wait
  | e, 0 :: r => normalise ended (e - 1) r
  | e, d :: r => normalFrom ended d e r

/-- An operand normalised. -/
def Operand.normal (o : Operand) : Normal := normalise o.ended o.e o.digits

/-- The normalised operand as an operand, where it is a number. -/
def Operand.normalOp (o : Operand) : Option Operand := match o.normal with
  | .num e ds => some { o with e := e, digits := ds }
  | _ => none

/-- Classes of a normalised unary operand: negative is NaN, else zero as z says, +∞ as i says. -/
def unaryClass (o : Operand) (z i : ResultClass) : ResultClass :=
  if o.tag = 3 then .nan
  else if o.tag = 2 then (if o.sz then .nan else i)
  else match o.zero, o.neg with
    | some true, _ => z
    | some false, some true => .nan
    | some false, some false => .digits
    | _, _ => .wait

/-- A unary opcode over the normalised operand, by the prefix through index j + d: ge and eq compare the result with t × 2^x. -/
def normalPick (os : List Operand) (d : Nat) (ge : Int × Int → Int → Int → Bool) (eo : Int) (j : Nat) (z : Int) : Option Int :=
  (opAt os 0).normalOp.bind fun a =>
    if a.has (j + d) then some (pickBy (ge (a.prefixVal (j + d))) eo j z) else none

/-! ### div, sqrt, rsqrt -/

/-- a / b is at least t × 2^x, b not zero. -/
def quotGe (a b : Int × Int) (t x : Int) : Bool :=
  let p := dyMul b (t, x)
  if 0 < b.1 then dyGe a p else dyGe p a

/-- a / b. -/
def divOp : NodeOp where
  inputs := 2
  cls os :=
    let a := opAt os 0
    let b := opAt os 1
    let sign (k : Bool → ResultClass) : ResultClass := match a.neg, b.neg with
      | some p, some q => k (p != q)
      | _, _ => .wait
    if anyNan os then .nan
    else if a.isInf && b.isInf then .nan
    else if a.isInf then sign .inf
    else if b.isInf then .zero (a.sz != b.sz)
    else match b.zero with
      | none => .wait
      | some true => match a.zero with
        | none => .wait
        | some true => .nan
        | some false => match a.neg with
          | some p => .inf (p != b.sz)
          | none => .wait
      | some false => if a.tag = 1 then (match b.neg with
          | some q => .zero (a.sz != q)
          | none => .wait) else .digits
  eo os := (opAt os 1).normalOp.map fun b => (opAt os 0).e - b.e + 3
  sz os := (opAt os 0).sz != (opAt os 1).sz
  pick os eo j z := (opAt os 1).normalOp.bind fun b =>
    let a := opAt os 0
    if a.has (j + 3) && b.has (j + 5) then some (pickBy (quotGe (a.prefixVal (j + 3)) (b.prefixVal (j + 5))) eo j z) else none
  exact os eo j z := dyEq (opAt os 0).value (dyMul (opAt os 1).value (z, eo - j))
  passes := false

/-- √a is at least t × 2^x, a positive. -/
def rootGe (a : Int × Int) (t x : Int) : Bool := t ≤ 0 || dyGe a (t * t, 2 * x)

/-- √a: E is e′ rounded up to even. -/
def sqrtOp : NodeOp where
  inputs := 1
  cls os := unaryClass (opAt os 0) (.zero (opAt os 0).sz) (.inf false)
  eo os := (opAt os 0).normalOp.map fun a => (a.e + a.e % 2) / 2 + 1
  sz os := (opAt os 0).sz
  pick os := normalPick os 3 rootGe
  exact os eo j z := 0 ≤ z && dyEq (opAt os 0).value (z * z, 2 * (eo - j))
  passes := false

/-- 1 / √a is at least t × 2^x, a positive. -/
def rootRecipGe (a : Int × Int) (t x : Int) : Bool := t ≤ 0 || dyGe (1, 0) (dyMul (t * t, 2 * x) a)

/-- 1 / √a: E is e′ rounded down to even. -/
def rsqrtOp : NodeOp where
  inputs := 1
  cls os := unaryClass (opAt os 0) (.inf (opAt os 0).sz) (.zero false)
  eo os := (opAt os 0).normalOp.map fun a => 2 - (a.e - a.e % 2) / 2
  sz _ := false
  pick os := normalPick os 4 rootRecipGe
  exact os eo j z := 0 < z && dyEq (dyMul (z * z, 2 * (eo - j)) (opAt os 0).value) (1, 0)
  passes := false

/-! ### exp2 and log2 (06 R196): a power of two beside an exact number, exactly -/

/-- Floor of m × 2^x. -/
def dyFloor (a : Int × Int) : Int := if 0 ≤ a.2 then a.1 * 2 ^ a.2.toNat else a.1 / 2 ^ (-a.2).toNat

/-- For a number between 1 and 2, in [lo, hi] × 2^-256, whether its base-2 logarithm is above the fraction with these bits, most
significant first; none where the interval does not tell. Squaring doubles the logarithm. -/
def logAbove : List Bool → Nat → Nat → Option Bool
  | [], _, _ => some true
  | q :: r, lo, hi =>
    let lo := lo * lo / 2 ^ 256
    let hi := hi * hi / 2 ^ 256 + 1
    if 2 ^ 257 ≤ lo then (if q then logAbove r (lo / 2) (hi / 2 + 1) else some true)
    else if hi < 2 ^ 257 then (if q then some false else logAbove r lo hi)
    else none

/-- 2^(q) is at least m × 2^x, for q = c × 2^y. Where m is a power of two the logarithm is an integer, else it is irrational and
no equality arises. -/
def powGe (q : Int × Int) (m x : Int) : Bool :=
  if m ≤ 0 then true
  else
    let n := m.toNat
    let k := Nat.log2 n
    let whole := (k : Int) + x
    let fl := dyFloor q
    if n = 2 ^ k then dyGe q (whole, 0)
    else if fl ≠ whole then whole < fl
    else
      let s := (-q.2).toNat
      let frac := (q.1 % 2 ^ s).toNat
      let bits := (upto s).map fun i => bitOf frac (s - 1 - i)
      let lo := n * 2 ^ 256 / 2 ^ k
      match logAbove bits lo (lo + 1) with
      | some above => !above
      | none => n ^ 2 ^ s ≤ 2 ^ (k * 2 ^ s + frac)

/-- 2^q is m × 2^x. -/
def powEq (q : Int × Int) (m x : Int) : Bool :=
  0 < m && m = 2 ^ Nat.log2 m.toNat && dyEq q (Nat.log2 m.toNat + x, 0)

/-- 2^a: n is the floor of the prefix through index e_a + 3, plus one half. -/
def exp2Op : NodeOp where
  inputs := 1
  cls os :=
    let a := opAt os 0
    if a.tag = 3 then .nan else if a.isInf then (if a.sz then .zero false else .inf false) else .digits
  eo os :=
    let a := opAt os 0
    if a.e + 3 < 0 then some 2
    else if a.has (a.e + 3) then some (dyFloor (dyAdd (a.prefixVal (a.e + 3)) (1, -1)) + 2)
    else none
  sz _ := false
  pick os eo j z :=
    let a := opAt os 0
    if a.has (a.e + j + 3) then some (pickBy (powGe (a.prefixVal (a.e + j + 3))) eo j z) else none
  exact os eo j z := powEq (opAt os 0).value z (eo - j)
  passes := false

/-- log2 a is at least t × 2^x. -/
def logGe (a : Int × Int) (t x : Int) : Bool := !powGe (t, x) a.1 a.2 || powEq (t, x) a.1 a.2

/-- The base-2 logarithm of a. -/
def log2Op : NodeOp where
  inputs := 1
  cls os := unaryClass (opAt os 0) (.inf true) (.inf false)
  eo os := (opAt os 0).normalOp.map fun a => (bitLen (max a.e.natAbs (a.e - 2).natAbs) : Int) + 1
  sz _ := false
  pick os := normalPick os 5 logGe
  exact os eo j z := powEq (z, eo - j) (opAt os 0).value.1 (opAt os 0).value.2
  passes := false

/-! ### neg, abs, shf (06 R197) -/

/-- An opcode that passes digits on, each as f says, under the exponent ea + k. -/
def passOp (k : Int) (sz : Operand → Bool) (f : Operand → Int → Int) : NodeOp where
  inputs := 1
  cls os :=
    let a := opAt os 0
    if a.tag = 3 then .nan else if a.isInf then .inf (sz a) else if a.tag = 1 then .zero (sz a) else .digits
  eo os := some ((opAt os 0).e + k)
  sz os := sz (opAt os 0)
  pick os _ j _ := (opAt os 0).digits[j]?.map (f (opAt os 0))
  exact os _ j _ := (opAt os 0).digits.length ≤ j || ((opAt os 0).e + k - j > 511 && (opAt os 0).digits.all fun d => d = 0)
  passes := true

/-! ### min and max -/

/-- The smaller or the larger operand; an infinity that loses leaves the other. -/
def orderOp (larger : Bool) : NodeOp where
  inputs := 2
  cls os :=
    let a := opAt os 0
    let b := opAt os 1
    let wins (o : Operand) : Bool := o.isInf && o.sz != larger
    if anyNan os then .nan
    else if wins a || wins b then .inf (!larger)
    else if a.isInf && b.isInf then .inf larger
    else if a.tag = 1 && b.tag = 1 then .zero (if larger then a.sz && b.sz else a.sz || b.sz)
    else .digits
  eo os := some (emaxOf os + 1)
  sz os := if larger then (opAt os 0).sz && (opAt os 1).sz else (opAt os 0).sz || (opAt os 1).sz
  pick os eo j z :=
    let m := emaxOf os
    let a := opAt os 0
    let b := opAt os 1
    let p (o : Operand) : Int × Int := o.prefixVal (j + 1 + o.e - m)
    let ge (o : Operand) (t x : Int) : Bool := if o.isInf then !larger else dyGe (p o) (t, x)
    if os.all fun o => o.has (j + 1 + o.e - m) then
      some (pickBy (fun t x => if larger then ge a t x || ge b t x else ge a t x && ge b t x) eo j z)
    else none
  exact os eo j z :=
    let f := os.filter fun o => !o.isInf
    let r : Int × Int := (z, eo - j)
    f.any (fun o => dyEq o.value r) && f.all fun o => if larger then dyGe r o.value else dyGe o.value r
  passes := false

/-! ## The arithmetic nodes -/

/-- NODE_ADD. -/
def execNodeAdd (k : CoreId) (site lane : Nat) (s : State) : Res := s.nodeTurn k site lane 0x01 (arithTurn (addOp false))

/-- NODE_SUB. -/
def execNodeSub (k : CoreId) (site lane : Nat) (s : State) : Res := s.nodeTurn k site lane 0x02 (arithTurn (addOp true))

/-- NODE_MUL. -/
def execNodeMul (k : CoreId) (site lane : Nat) (s : State) : Res := s.nodeTurn k site lane 0x03 (arithTurn mulOp)

/-- NODE_MAD. -/
def execNodeMad (k : CoreId) (site lane : Nat) (s : State) : Res := s.nodeTurn k site lane 0x04 (arithTurn madOp)

/-- NODE_DIV. -/
def execNodeDiv (k : CoreId) (site lane : Nat) (s : State) : Res := s.nodeTurn k site lane 0x05 (arithTurn divOp)

/-- NODE_SQRT. -/
def execNodeSqrt (k : CoreId) (site lane : Nat) (s : State) : Res := s.nodeTurn k site lane 0x06 (arithTurn sqrtOp)

/-- NODE_NEG: each digit negated. -/
def execNodeNeg (k : CoreId) (site lane : Nat) (s : State) : Res :=
  s.nodeTurn k site lane 0x07 (arithTurn (passOp 0 (fun o => !o.sz) fun _ d => -d))

/-- NODE_ABS: each digit negated where the first nonzero one is -1. -/
def execNodeAbs (k : CoreId) (site lane : Nat) (s : State) : Res :=
  s.nodeTurn k site lane 0x08 (arithTurn (passOp 0 (fun _ => false) fun o d => if o.neg = some true then -d else d))

/-- The exponent step of shf: param[15:8], signed. -/
def shiftOf (w : NodeWord) : Int := signed 8 (bitsOf w.param.toNat 15 8)

/-- NODE_SHF: the digits under the exponent ea + k. -/
def execNodeShf (k : CoreId) (site lane : Nat) (s : State) : Res :=
  s.nodeTurn k site lane 0x09 fun v => arithTurn (passOp (shiftOf v.w) (fun o => o.sz) fun _ d => d) v

/-- NODE_MIN. -/
def execNodeMin (k : CoreId) (site lane : Nat) (s : State) : Res := s.nodeTurn k site lane 0x0A (arithTurn (orderOp false))

/-- NODE_MAX. -/
def execNodeMax (k : CoreId) (site lane : Nat) (s : State) : Res := s.nodeTurn k site lane 0x0B (arithTurn (orderOp true))

/-- NODE_EXP2. -/
def execNodeExp2 (k : CoreId) (site lane : Nat) (s : State) : Res := s.nodeTurn k site lane 0x0C (arithTurn exp2Op)

/-- NODE_LOG2. -/
def execNodeLog2 (k : CoreId) (site lane : Nat) (s : State) : Res := s.nodeTurn k site lane 0x0D (arithTurn log2Op)

/-- NODE_RSQRT. -/
def execNodeRsqrt (k : CoreId) (site lane : Nat) (s : State) : Res := s.nodeTurn k site lane 0x0E (arithTurn rsqrtOp)

end Sys2Proof.Machine
end

