-- ==== Sys2Proof/Machine/Routing.lean ====
section
/-!
DEFINITION. The routing nodes 0x28 to 0x2E (06 R199 to R205), the counter 0x22 (06 R206) and the controllers 0x23 to 0x25
(06 R207, R208). A number that passes through has its input, or its output, in the lane's index; stopped says that the rest
of it is discarded after a KILL.
-/
namespace Sys2Proof.Machine

/-- A token that begins an item and ends it: anything but a part of a number. -/
def Token.single : Token → Bool
  | .head _ _ _ => false
  | .digit _ => false
  | .fin => false
  | .word _ => false
  | _ => true

/-- A row token. -/
def Token.isRow (t : Token) : Bool := t = .eor || t = .eok

/-! ## merge, split (06 R199, R200) -/

/-- An item's first token passes from input i to an output; a number keeps the lane busy. -/
def LaneState.pass (l : LaneState) (t : Token) (mark : Nat) (outs : List Nat) : LaneState :=
  let isHead := match t with
    | .head _ _ _ => true
    | _ => false
  { l with busy := isHead, index := mark, stopped := false }.emit (outs.map fun x => (x, t))

/-- The rest of a number passes from input i to outputs, or is discarded. -/
def restPasses (v : View) (l : LaneState) (i : Nat) (outs : List Nat) : Turn :=
  match v.head i with
  | none => Turn.of l
  | some t =>
    if !v.fits i t then Turn.bad l 0x43 i
    else
      let l := if l.stopped then l else l.emit (outs.map fun x => (x, t))
      (Turn.of (if t = .fin then { l with busy := false, stopped := false } else l)).taking [i]

/-- merge: items of two inputs on one output. Row tokens that differ are a fault of in0 (log 102). -/
def mergeTurn (v : View) (l : LaneState) : Turn :=
  let one (i : Nat) : Turn := match v.head i with
    | some t =>
      if !v.fits i t then Turn.bad l 0x43 i
      else (Turn.of { l.pass t i [0] with turn := 1 - i, order := l.order.erase i }).taking [i]
    | none => Turn.of l
  let rowAt (i : Nat) : Bool := ((v.head i).filter Token.isRow).isSome
  if l.busy then restPasses v l l.index [0]
  else if rowAt 0 && rowAt 1 then
    if v.head 0 = v.head 1 then
      (Turn.of { l.emit ((v.head 0).toList.map fun t => (0, t)) with turn := 0, order := (l.order.erase 0).erase 1 }).taking [0, 1]
    else Turn.bad l 0x46 0
  else if v.w.var then ((l.order.find? fun i => !rowAt i).map one).getD (Turn.of l)
  else one (if rowAt l.turn then 1 - l.turn else l.turn)

/-- A kind other than PRED. -/
def Token.noPred : Token → Bool
  | .pred _ => false
  | _ => true

/-- split: items of in0 to main or aux; in1 of a split by PREDs holds nothing else. -/
def splitTurn (v : View) (l : LaneState) : Turn :=
  if v.w.var && ((v.head 1).filter Token.noPred).isSome then Turn.bad l 0x43 1
  else if l.busy then restPasses v l 0 [l.index]
  else match v.head 0 with
    | none => Turn.of l
    | some t =>
      let isBound := match t with
        | .bound _ => true
        | _ => false
      if !v.fits 0 t then Turn.bad l 0x43 0
      else if t.isRow || isBound then
        (Turn.of { l.emit [(0, t), (2, t)] with turn := if t.isRow then 0 else l.turn }).taking [0]
      else if v.w.var then match v.head 1 with
        | none => Turn.of l
        | some (.pred b) => let x := if b then 0 else 2; (Turn.of (l.pass t x [x])).taking [0, 1]
        | _ => Turn.bad l 0x43 1
      else let x := if l.turn = 0 then 0 else 2; (Turn.of { l.pass t x [x] with turn := 1 - l.turn }).taking [0]

/-- NODE_MERGE. -/
def execNodeMerge (k : CoreId) (site lane : Nat) (s : State) : Res := s.nodeTurn k site lane 0x28 mergeTurn

/-- NODE_SPLIT. -/
def execNodeSplit (k : CoreId) (site lane : Nat) (s : State) : Res := s.nodeTurn k site lane 0x29 splitTurn

/-! ## fork (06 R201): the lane's index is the mask of the branches that have killed the number -/

/-- Output numbers of a fork's branches. -/
def branches (w : NodeWord) : List Nat := (upto 4).filterMap fun d => if maskHas w.omain d then some (3 + d) else none

/-- A branch has killed the number in progress. -/
def LaneState.branchKilled (l : LaneState) (x : Nat) : Bool := bitOf l.index x

/-- fork: each token to every branch at once, when every branch has room. -/
def forkTurn (v : View) (l : LaneState) : Turn :=
  let xs := branches v.w
  match v.head 0 with
  | none => Turn.of l
  | some t =>
    if !v.fits 0 t then Turn.bad l 0x43 0
    else if xs.any fun x => !nth v.room x true then Turn.of l
    else if l.busy then
      let l := l.emit ((xs.filter fun x => !l.branchKilled x).map fun x => (x, t))
      (Turn.of (if t = .fin then { l with busy := false } else l)).taking [0]
    else (Turn.of (l.pass t 0 xs)).taking [0]

/-- NODE_FORK. -/
def execNodeFork (k : CoreId) (site lane : Nat) (s : State) : Res := s.nodeTurn k site lane 0x2A forkTurn

/-! ## join (06 R202) -/

/-- Inputs that a join uses. -/
def joinInputs (w : NodeWord) : List Nat := (upto 3).filter fun i => selectOf w i ≠ 0

/-- A round of a join begins: the first tokens of its items are taken. -/
def joinBegin (v : View) (l : LaneState) : Turn :=
  let ins := joinInputs v.w
  match ins.find? fun i => ((v.head i).filter fun t => !v.fits i t).isSome with
  | some i => Turn.bad l 0x43 i
  | none =>
    let op (i : Nat) : Option Operand := match v.head i with
      | some (.head tag sz e) => if ins.contains i then some (Operand.start tag sz e false) else none
      | _ => none
    let ts := ins.filterMap fun i => (v.head i).map fun t => (i, t)
    (Turn.of ({ l with ops := (upto 3).map op }.emit ts)).taking ins

/-- join: rounds of one item from each input, input i to output i. A round begins once the one before has left and every output
can send; the rest of each item follows as its own output allows. -/
def joinTurn (v : View) (l : LaneState) : Turn :=
  let ins := joinInputs v.w
  if l.ops.all fun o => o.isNone then
    if l.out ≠ [] || ins.any fun i => (v.head i).isNone || !nth v.room i true || !nth v.idle i true then Turn.of l
    else joinBegin v l
  else
    let passes (i : Nat) : Bool := ((nth l.ops i none).filter fun o => !o.discard).isSome
    let a := absorbAt (fun i => !passes i || (l.nextOut i).isNone) v l.ops
    match a.fault with
    | some (r, i) => Turn.bad l r i
    | none =>
      let ts := (a.takes.filter passes).filterMap fun i => (v.head i).map fun t => (i, t)
      let ops := a.ops.map fun o => o.filter fun o => !o.ended
      (Turn.of ({ l with ops := ops }.emit ts)).taking a.takes

/-- A lane of a join at the beginning of a round whose items are all there: the inputs that hold a BOUND. -/
def Core.joinBounds (c : Core) (site l : Nat) : List Nat :=
  let n := (c.nodeState site).lane l
  let v := c.view site l
  let ins := joinInputs v.w
  if n.out ≠ [] || (n.ops.any fun o => o.isSome) || ins.any fun i => ((v.head i).filter fun t => v.fits i t).isNone then []
  else ins.filter fun i => ((v.head i).filter fun t => t.kind = 0x6).isSome

/-- A round of a join that has a BOUND begins on every enabled lane at once, when each has it next and every output has room: the
BOUND's beat is of all lanes, and a round's first tokens leave together (06 R190, R202). -/
def State.joinTogether (s : State) (k : CoreId) (site : Nat) (is : List Nat) : State :=
  let c := s.core k
  let w := c.node site
  let ls := lanesOn w
  if (ls.all fun l => c.joinBounds site l = is) && (joinInputs w).all fun i => c.outRoom site w i && outIdle w (c.nodeState site) i then
    (ls.foldl (fun s l => s.applyTurn k site l (joinBegin ((s.core k).view site l) (((s.core k).nodeState site).lane l))) s).modCore k
      fun c => c.flushAll site
  else s

/-- NODE_JOIN: the first tokens of a round leave at once. -/
def execNodeJoin (k : CoreId) (site lane : Nat) (s : State) : Res :=
  let c := s.core k
  let w := c.node site
  let runs := w.op.toNat = 0x2B && laneOn w lane && lane < 4 && !c.records.contains 8
  if runs && c.joinBounds site lane ≠ [] then
    .next ((s.modCore k fun c => c.flushAll site).joinTogether k site (c.joinBounds site lane))
  else
  let started (c : Core) : Bool := ((c.nodeState site).lane lane).ops.all fun o => o.isNone
  match s.nodeTurn k site lane 0x2B joinTurn joinTurn with
  | .next t => .next (if started (s.core k) && (t.core k).records.contains 8 = false then t.modCore k fun c =>
      if (c.node site).op.toNat = 0x2B then c.flushAll site else c else t)
  | r => r

/-! ## psrc, nsrc (06 R203, R204) -/

/-- A bit of the pattern, and the place of the next one. -/
def psrcStep (w : NodeWord) (i : Nat) : Bool × Nat :=
  let p := w.param.toNat
  (bitOf p i, (i + 1) % (bitsOf p 19 16 + 1))

/-- psrc: bits of a pattern as PREDs, one for each item of in0 or, free, as main has room. -/
def psrcTurn (v : View) (l : LaneState) : Turn :=
  let r := psrcStep v.w l.index
  let sent : LaneState := { l with index := r.2 }.emit [(0, .pred r.1)]
  if bitOf v.w.param.toNat 20 then (if nth v.room 0 true then Turn.of sent else Turn.of l)
  else if l.ops.any fun o => o.isSome then
    let a := absorb v l.ops
    match a.fault with
    | some (r, i) => Turn.bad l r i
    | none => (Turn.of { l with ops := a.ops }).taking a.takes
  else match v.head 0 with
    | none => Turn.of l
    | some (.head tag sz e) =>
      { (Turn.of { sent with ops := [some (Operand.start tag sz e true), none, none] }).taking [0] with kills := [0] }
    | some t =>
      if !v.fits 0 t then Turn.bad l 0x43 0
      else if t.isRow then (Turn.of { l with index := 0 }).taking [0]
      else (Turn.of sent).taking [0]

/-- nsrc: NULLs, and one EOR after the count. -/
def nsrcTurn (v : View) (l : LaneState) : Turn :=
  let n := bitsOf v.w.param.toNat 15 0
  if l.stopped || !nth v.room 0 true then Turn.of l
  else if n = 0 || l.index < n then Turn.of ({ l with index := l.index + 1 }.emit [(0, .null)])
  else Turn.of ({ l with stopped := true }.emit (if bitOf v.w.param.toNat 16 then [(0, .eor)] else []))

/-- NODE_PSRC. -/
def execNodePsrc (k : CoreId) (site lane : Nat) (s : State) : Res := s.nodeTurn k site lane 0x2C psrcTurn

/-- NODE_NSRC. -/
def execNodeNsrc (k : CoreId) (site lane : Nat) (s : State) : Res := s.nodeTurn k site lane 0x2D nsrcTurn

/-! ## dly (06 R205) -/

/-- The first token that a dly holds leaves, once it has been held for k turns of the lane and nothing waits before it. -/
def LaneState.release (l : LaneState) (k : Nat) : LaneState :=
  if l.out = [] && k ≤ l.order.headD 0 then
    { l with held := l.held.drop 1, order := l.order.drop 1 }.emit (l.held.head?.toList.map fun t => (0, t))
  else l

/-- dly: up to 64 tokens, in order; each leaves k turns of the lane after it was taken (log 7), and is taken while others wait. -/
def dlyTurn (v : View) (l : LaneState) : Turn :=
  let l := { l with order := l.order.map (· + 1) }.release (bitsOf v.w.param.toNat 5 0 + 1)
  match v.head 0 with
  | none => Turn.of l
  | some t =>
    if !v.fits 0 t then Turn.bad l 0x43 0
    else if 64 ≤ l.held.length then Turn.of l
    else
      let isHead := match t with
        | .head _ _ _ => true
        | _ => false
      let l : LaneState := if l.stopped then l else { l with held := l.held ++ [t], order := l.order ++ [0] }
      (Turn.of { l with busy := isHead || (l.busy && t ≠ .fin), stopped := l.stopped && t ≠ .fin }).taking [0]

/-- NODE_DLY. -/
def execNodeDly (k : CoreId) (site lane : Nat) (s : State) : Res := s.nodeTurn k site lane 0x2E dlyTurn dlyTurn

/-! ## cnt (06 R206) -/

/-- A counter as a number of e binary digits. -/
def countNumber (e i : Nat) : List (Nat × Token) :=
  if e = 0 then [] else
    (0, .head 0 false e) :: (upto e).map (fun n => (0, Token.digit (bit (bitOf i (e - 1 - n))))) ++ [(0, .fin)]

/-- One tick of a counter. A fault names input 0, the unused one of a free counter too (log 102). -/
def cntTick (v : View) (l : LaneState) : Turn :=
  let p := v.w.param.toNat
  let e := bitsOf p 5 0
  let t := l.trip
  if 0 < e && 2 ^ e < t then Turn.bad l 0x45 0
  else
    let last := l.index + 1 = t
    let l := l.emit (countNumber e l.index ++ [(2, .pred last)] ++ (if last then [(0, .eor), (1, .pred true)] else []))
    if last then
      Turn.of { l with
        index := 0
        trip := l.pending.getD t
        pending := none
        stopped := bitOf p 6 && !bitOf p 7 }
    else Turn.of { l with index := l.index + 1 }

/-- A BOUND reaches a counter's lane. -/
def cntBound (l : LaneState) (n : Nat) : LaneState :=
  if l.index = 0 then { l with trip := n, stopped := false } else { l with pending := some n }

/-- cnt: an index and a trip count. -/
def cntTurn (v : View) (l : LaneState) : Turn :=
  let free := bitOf v.w.param.toNat 6
  match v.head 1, v.head 0 with
  | some (.bound n), _ => (Turn.of (cntBound l n)).taking [1]
  | some _, _ => Turn.bad l 0x43 1
  | none, some (.bound n) => (Turn.of (cntBound l n)).taking [0]
  | none, some (.pred false) => (Turn.of { l with index := 0 }).taking [0]
  | none, some (.pred true) => if l.trip = 0 then Turn.of l else (cntTick v l).taking [0]
  | none, some _ => Turn.bad l 0x43 0
  | none, none => if free && !l.stopped && l.trip ≠ 0 && nth v.room 0 true then cntTick v l else Turn.of l

/-- NODE_CNT. -/
def execNodeCnt (k : CoreId) (site lane : Nat) (s : State) : Res := s.nodeTurn k site lane 0x22 cntTurn

/-! ## Controllers (06 R207, R208) -/

/-- The iterations of a lane's next run: a BOUND's value, else the parameter. -/
def runLength (w : NodeWord) (l : LaneState) : Nat := l.pending.getD (bitsOf w.param.toNat 15 0 + 1)

/-- A run goes on: at most one permit and one done, and the done to the parent at its end. -/
def runOn (allowed : Nat → Nat → Bool) (v : View) (l : LaneState) : Turn :=
  let go := l.issued < l.trip && nth v.room 0 true && allowed l.issued l.taken
  let l : LaneState := if go then { l with issued := l.issued + 1 }.emit [(0, .pred true)] else l
  match v.head 1 with
  | some (.pred true) =>
    if l.taken = l.issued then Turn.bad l 0x45 1
    else
      let ended := l.taken + 1 = l.trip
      (Turn.of ({ l with taken := l.taken + 1, inRun := !ended }.emit (if ended then [(2, .pred true)] else []))).taking [1]
  | _ => Turn.of l

/-- A controller's lane. allowed: permits issued and dones taken, whether a permit may follow. -/
def controllerTurn (allowed : NodeWord → Nat → Nat → Bool) (v : View) (l : LaneState) : Turn :=
  let isPred (i : Nat) : Bool := match v.head i with
    | some (.pred _) => true
    | none => true
    | _ => false
  let begin_ : LaneState := { l with inRun := true, stopped := true, issued := 0, taken := 0, trip := runLength v.w l }
  match isPred 0, isPred 1, v.head 2 with
  | false, _, _ => Turn.bad l 0x43 0
  | _, false, _ => Turn.bad l 0x43 1
  | _, _, some (.bound n) => if n = 0 || 65536 < n then Turn.bad l 0x45 2 else (Turn.of { l with pending := some n }).taking [2]
  | _, _, some _ => Turn.bad l 0x43 2
  | _, _, none =>
    if v.head 0 = some (.pred false) then (Turn.of l).taking [0]
    else if v.head 1 = some (.pred false) then (Turn.of l).taking [1]
    else if l.inRun then runOn (allowed v.w) v l
    else if v.head 0 = some (.pred true) then (Turn.of begin_).taking [0]
    else if selectOf v.w 0 = 0 && !l.stopped then Turn.of begin_
    else Turn.of l

/-- NODE_SEQC: one iteration at a time. -/
def execNodeSeqc (k : CoreId) (site lane : Nat) (s : State) : Res :=
  s.nodeTurn k site lane 0x23 (controllerTurn fun _ i d => i = d)

/-- NODE_PIPC: fewer than W iterations at a time. -/
def execNodePipc (k : CoreId) (site lane : Nat) (s : State) : Res :=
  s.nodeTurn k site lane 0x24 (controllerTurn fun w i d => i - d < bitsOf w.param.toNat 23 16 + 1)

/-- NODE_STRC: all iterations. -/
def execNodeStrc (k : CoreId) (site lane : Nat) (s : State) : Res :=
  s.nodeTurn k site lane 0x25 (controllerTurn fun _ _ _ => true)

end Sys2Proof.Machine
end

