-- ==== Sys2Proof/Machine/PortCmds.lean ====
section
/-!
DEFINITION. Port loads and stores (05 R161, R162, 07 R215), the address generators (05 R159, R160), `bound` and `kick` (05 R171).
-/
namespace Sys2Proof.Machine

/-! ## Address generators (05 R159, R160) -/

/-- A generator's program: loops, outermost first, as trip count, row step and column step, and the run length. -/
structure GenProgram where
  loops : List (Nat × Int × Int)
  run : Nat
  deriving DecidableEq, Repr

/-- The program of a site. -/
def Image.program (i : Image) (site : Nat) : GenProgram :=
  let ws := (look i.programs site).getD []
  let loops := ws.filter fun w => bitsOf w 63 62 = 1
  ⟨loops.map fun w => (bitsOf w 61 46 + 1, signed 23 (bitsOf w 45 23), signed 23 w),
    ((ws.find? fun w => bitsOf w 63 62 = 2).map fun w => bitsOf w 61 50 + 1).getD 1⟩

/-- Runs of a program. -/
def GenProgram.runs (p : GenProgram) : Nat := p.loops.foldl (fun n l => n * l.1) 1

/-- The offset of run n: the sum of the loops' steps, the innermost loop counting fastest. -/
def GenProgram.offset (p : GenProgram) (n : Nat) : Int × Int :=
  (p.loops.foldr (fun l (a : (Int × Int) × Nat) =>
    let i : Int := (a.2 % l.1 : Nat)
    ((a.1.1 + i * l.2.1, a.1.2 + i * l.2.2), a.2 / l.1)) ((0, 0), n)).1

/-- The row step that an index word multiplies: the innermost loop's (log 23). -/
def GenProgram.indexStep (p : GenProgram) : Int := (p.loops.getLast?.map fun l => l.2.1).getD 0

/-- The generator-mode command that a generator works for: the one running on its port. -/
def Core.generated (c : Core) (site : Nat) : Option CmdEntry :=
  let port := (c.node site).param.toNat % 64
  c.cmds.find? fun e => e.stage = .running && (1 ≤ opOf e.word && opOf e.word ≤ 4) && (cmdOf e.word).flag 1 && portOf e = some port &&
    c.portTurn e

/-- NODE_AGAF: the generator has the positions of its next run (05 R160). Lane 0 keeps it. -/
def execNodeAgaf (k : CoreId) (site lane : Nat) (s : State) : Res :=
  let c := s.core k
  if (c.node site).op.toNat ≠ 0x32 || lane ≥ 4 || (c.generated site).isNone || c.records.contains 8 then .next s
  else .next (s.modCore k fun c => c.modLane site 0 fun l => { l with pending := some 0 })

/-- An index word: a WORD, or a number whose exact value is an integer (log 23). -/
def indexOf (o : Operand) : Option Int :=
  let v := o.value
  if 2 ≤ o.tag then none
  else if 0 ≤ v.2 then some (v.1 * 2 ^ v.2.toNat)
  else if v.1 % 2 ^ (-v.2).toNat = 0 then some (v.1 / 2 ^ (-v.2).toNat)
  else none

/-- An agin's lane: it takes an index word for the next run; row tokens, NULL and BOUND are consumed (log 23). -/
def aginTurn (v : View) (l : LaneState) : Turn :=
  let given (t : Turn) (x : Int) : Turn :=
    { t with lane := { t.lane with pending := some (unsigned 32 x), ops := [none, none, none] } }
  if l.pending.isSome then Turn.of l
  else if l.ops.any fun o => o.isSome then
    let a := absorb v l.ops
    match a.fault, nth a.ops 0 none with
    | some (r, i), _ => Turn.bad l r i
    | none, some o =>
      if !o.ended then (Turn.of { l with ops := a.ops }).taking a.takes
      else match indexOf o with
        | some x => given ((Turn.of l).taking a.takes) x
        | none => Turn.bad l 0x43 0
    | none, none => (Turn.of { l with ops := a.ops }).taking a.takes
  else match v.head 0 with
    | none => Turn.of l
    | some (.word w) => given ((Turn.of l).taking [0]) w.toInt
    | some (.head tag sz e) => (Turn.of { l with ops := [some (Operand.start tag sz e false), none, none] }).taking [0]
    | some t => if v.fits 0 t && t.kind ≠ 0x7 then (Turn.of l).taking [0] else Turn.bad l 0x43 0

/-- NODE_AGIN: the generator takes its next index word (05 R160). -/
def execNodeAgin (k : CoreId) (site lane : Nat) (s : State) : Res :=
  if ((s.core k).generated site).isNone then .next s else s.nodeTurn k site lane 0x33 aginTurn

/-- The lane of a generator that supplies run n: lane 0, or the enabled lanes in turn. -/
def genLane (w : NodeWord) (n : Nat) : Nat :=
  if w.op.toNat = 0x32 then 0 else nth (lanesOn w) (n % max 1 (lanesOn w).length) 0

/-! ## Patterns (05 R162) -/

/-- The positions of a pattern: rows of equal length, and the row and column of each element. -/
structure Pattern where
  rowLen : Nat
  rows : Nat
  pos : Nat → Int × Int

/-- The pattern of a load or store on a tensor. tile: `ld.tile` or `st.tile`; base: row and column that a generator adds for the
run of element n. -/
def patternOf (t : Tensor) (r : TRect) (tile byCols : Bool) : Pattern :=
  let w := tileWidth t.fmt
  let at_ (i j : Nat) : Int × Int := ((16 * r.row0 + i : Nat), (w * r.col0 + j : Nat))
  if tile then
    let len := r.cols * 16 * w
    ⟨len, r.rows, fun n =>
      let m := n % len
      at_ (16 * (n / len) + m % (16 * w) / w) (m / (16 * w) * w + m % w)⟩
  else if byCols then ⟨16 * r.rows, w * r.cols, fun n => at_ (n % (16 * r.rows)) (n / (16 * r.rows))⟩
  else ⟨w * r.cols, 16 * r.rows, fun n => at_ (n / (w * r.cols)) (n % (w * r.cols))⟩

/-- A generator's pattern; v: the index word of the run. -/
def genPattern (p : GenProgram) (t : Tensor) (r : TRect) (v : Int) : Pattern :=
  let w := tileWidth t.fmt
  ⟨p.run, p.runs, fun n =>
    let o := p.offset (n / p.run)
    (16 * r.row0 + o.1 + v * p.indexStep, w * r.col0 + o.2 + (n % p.run : Nat))⟩

/-- What a port command walks: a tensor's pattern, or count elements of a format in the slots of hA. -/
inductive Walk where
  | tensor (t : Tensor) (p : Pattern) (gen : Option Nat)
  | buffer (fmt count : Nat)

/-- The walk of a command at element n; none while its generator has not produced the run. -/
def State.walkOf (s : State) (c : Cmd) (tile : Bool) (n : Nat) : Option Walk :=
  let o := c.operand.toNat
  let r := TRect.of o
  if c.flag 2 then some (.buffer (bitsOf o 63 60) (o % 2 ^ 32))
  else match (s.ctx s.x).tensor r.tensor with
    | none => none
    | some t =>
      if !c.flag 1 then some (.tensor t (patternOf t r tile (c.flag 0)) none)
      else match s.cur.image, s.cur.generator c.portA.toNat with
        | some i, some site =>
          let p := i.program site
          let lane := genLane (i.node site) (n / p.run)
          match ((s.cur.nodeState site).lane lane).pending with
          | none => if p.runs * p.run ≤ n then some (.tensor t (genPattern p t r 0) (some site)) else none
          | some v => some (.tensor t (genPattern p t r (signed 32 v)) (some site))
        | _, _ => none

/-- Elements of a walk, and the length of its rows. -/
def Walk.total : Walk → Nat
  | .tensor _ p _ => p.rowLen * p.rows
  | .buffer _ n => n

/-- The element format of a walk. -/
def Walk.fmt : Walk → Nat
  | .tensor t _ _ => t.fmt
  | .buffer f _ => f

/-- The length of a walk's rows; a buffer's stream has no rows. -/
def Walk.rowLen : Walk → Nat
  | .tensor _ p _ => p.rowLen
  | .buffer _ n => n

/-- The count for the pail (05 R153). -/
def Walk.bytes (w : Walk) : Nat := ceilDiv (w.total * fmtBits w.fmt) 8

/-- A generator's run is done with. -/
def State.endGenRun (s : State) (w : Walk) (n : Nat) : State := match w with
  | .tensor _ p (some site) =>
    if n % p.rowLen = 0 then
      s.modCore s.now fun k =>
        k.modLane site (genLane (k.node site) (n / p.rowLen - 1)) fun l => { l with pending := none }
    else s
  | _ => s

/-! ## Granules of a slot (05 R151) -/

/-- Elements from n on of a handle's slots, with the byte where they begin in the slot: the slot holds per elements. -/
def Core.slotElems (c : Core) (h fmt per n m : Nat) : List Nat :=
  let off := n % per * fmtBits fmt / 8
  let bs := c.slotBytes h off (ceilDiv (m * fmtBits fmt) 8)
  (upto m).map fun i => elemOf fmt bs i

/-- Granules that bytes from a to b of a slot complete change their bit; producer: they become full. -/
def Core.passGranules (c : Core) (h a b : Nat) (producer : Bool) : Core :=
  let d := c.handle h
  let base := d.slotAt (if producer then d.prod else d.cons)
  c.setFullRange d.buffer (base + a / 16 * 16) (b / 16 * 16 - a / 16 * 16) producer

/-- The bank that a port access to a slot meets is open to the command's configuration context (05 R158). -/
def Core.slotOpen (c : Core) (h off cx : Nat) (producer : Bool) : Bool :=
  let d := c.handle h
  c.bankOpen d.buffer (d.slotAt (if producer then d.prod else d.cons) + off) cx

/-! ## Loads -/

/-- A beat from an input port: words to lanes 0, 1, 2, 3 in order (07 R215). -/
def wordBeat (ws : List Nat) : Beat :=
  ⟨0xA, BitVec.ofNat 4 (2 ^ ws.length - 1), 0#4, (ws.mapIdx fun i w => w * 2 ^ (32 * i)).sum⟩

/-- A beat of one token on all lanes. -/
def tokenBeat (t : Token) : Beat :=
  ⟨t.kind, 0xF#4, 0#4, match t with
    | .bound v => v
    | .pred b => if b then 0xF else 0
    | _ => 0⟩

/-- Where the stream of an input port goes has room for a beat. -/
def Core.portRoom (c : Core) (port : Nat) : Bool := match (c.image.map fun i => i.portDest port).getD .none with
  | .node s d => c.linkRoom s d
  | .port n => c.portFree n
  | .none => true

/-- A beat enters the fabric from an input port. -/
def Core.portSend (c : Core) (port : Nat) (b : Beat) : Core := c.sendTo ((c.image.map fun i => i.portDest port).getD .none) b

/-- The elements of the next beat of a load: up to four, none beyond the row. -/
def State.loadElems (s : State) (e : CmdEntry) (w : Walk) (n : Nat) : Except TErr (List Nat) :=
  let m := min 4 (w.rowLen - n % w.rowLen)
  match w with
  | .tensor t p _ => (upto m).mapM fun i => s.fetchElem s.x e.fid t (p.pos (n + i)).1 (p.pos (n + i)).2
  | .buffer f _ =>
    let h := (cmdOf e.word).hA.toNat
    let per := (s.cur.handle h).bytes * 8 / fmtBits f
    .ok (s.cur.slotElems h f per n (min m (per - n % per)))

/-- A consumer of a handle has taken elements n to n + m - 1 of a format from its slots. -/
def State.takeSlot (s : State) (h fmt n m total : Nat) : State :=
  let d := s.cur.handle h
  let per := d.bytes * 8 / fmtBits fmt
  let s := s.modCore s.now fun k => k.passGranules h (n % per * fmtBits fmt / 8) (ceilDiv ((n % per + m) * fmtBits fmt) 8) false
  if (n + m) % per = 0 || n + m = total then s.endDrain h else s

/-- The tile of a position of a tensor; none outside its tiles. -/
def Tensor.tileOf (t : Tensor) (pos : Int × Int) : Option (Nat × Nat) :=
  let r := pos.1.toNat / 16
  let col := pos.2.toNat / tileWidth t.fmt
  if pos.1 < 0 || pos.2 < 0 || !t.hasTile r col then none else some (r, col)

/-- The plate of a position of a tensor. -/
def Tensor.plateAt (t : Tensor) (pos : Int × Int) : Option (Nat × Nat) := (t.tileOf pos).map fun k => (t.id, t.plateOf k.1 k.2)

/-- An input port has delivered n elements of a plate (05 R149). -/
def Core.countHeat (c : Core) (port tensor plate n : Nat) : Core :=
  { c with heat := put c.heat (port, tensor, plate) ((look c.heat (port, tensor, plate)).getD 0 + n) }

/-- An input port has delivered the element at a position of a tensor. -/
def Core.heatAt (c : Core) (port : Nat) (t : Tensor) (pos : Int × Int) : Core := match t.plateAt pos with
  | none => c
  | some p => c.countHeat port p.1 p.2 1

/-- The tile lines of positions of a tensor pass through their home slices (05 R145). -/
def State.touchAt (s : State) (e : CmdEntry) (t : Tensor) (ps : List (Int × Int)) : State :=
  (ps.filterMap t.tileOf).eraseDups.foldl (fun u k => u.touchTile u.x e.fid t k.1 k.2 (cmdOf e.word).e) s

/-- The tile lines of m elements of a walk from element n on. -/
def State.touchWalk (s : State) (e : CmdEntry) (w : Walk) (n m : Nat) : State := match w with
  | .tensor t p _ => s.touchAt e t ((upto m).map fun i => p.pos (n + i))
  | .buffer _ _ => s

/-- An input port has delivered m elements of a walk from element n on. -/
def Core.heatWalk (c : Core) (port : Nat) (w : Walk) (n m : Nat) : Core := match w with
  | .tensor t p _ => (upto m).foldl (fun c i => c.heatAt port t (p.pos (n + i))) c
  | .buffer _ _ => c

/-- `ld.aff` and `ld.tile` (05 R162): pos counts elements, count counts the row tokens sent. A beat of up to four elements, an
EOR after each row, and an EOK at the end are steps of their own. -/
def State.loadTurn (s : State) (e : CmdEntry) (tile : Bool) : Res :=
  let c := cmdOf e.word
  let port := c.portA.toNat
  let n := e.pos
  if !s.cur.portTurn e || !s.cur.portRoom port || s.cur.records.contains 8 then .next s
  else match s.walkOf c tile n with
    | none => .next s
    | some w =>
      let rowsDue := if c.flag 2 then 0 else n / w.rowLen
      let send (s : State) (b : Beat) : State := s.modCore s.now fun k => k.portSend port b
      if e.count < rowsDue then .next ((send s (tokenBeat .eor)).modCmd e.id fun d => { d with count := d.count + 1 })
      else if n = w.total then
        .next ((if c.flag 3 then send s (tokenBeat .eok) else s).cmdDone e.id w.bytes)
      else
        let h := c.hA.toNat
        let per := (s.cur.handle h).bytes * 8 / fmtBits w.fmt
        if c.flag 2 && (!s.cur.mayDrain e.id h || !s.cur.slotOpen h (n % per * fmtBits w.fmt / 8) e.cx false) then .next s
        else s.tryCmd e (port % 4) (s.loadElems e w n) fun vs =>
          let s := s.touchWalk e w n vs.length
          let s := (send s (wordBeat vs)).modCore s.now fun k => k.heatWalk port w n vs.length
          let s := s.modCmd e.id fun d => { d with pos := n + vs.length }
          let s := if c.flag 2 then s.takeSlot h w.fmt n vs.length w.total else s.endGenRun w (n + vs.length)
          .next s

/-- LD_AFF. -/
def execLdAff (c : Cmd) (s : State) : Res := s.withCmd 0x01 c fun e => s.loadTurn e false

/-- LD_TILE. -/
def execLdTile (c : Cmd) (s : State) : Res := s.withCmd 0x02 c fun e => s.loadTurn e true

/-! ## Stores -/

/-- A port's next beat leaves it. -/
def Core.dropPort (c : Core) (n : Nat) : Core :=
  let l := c.fabric.port n
  { c with fabric := c.fabric.setPort n { l with fifo := l.fifo.drop 1 } }

/-- Element n of a store in buffer mode: its bits in the producer's slot; a granule becomes full with its last byte. -/
def State.putSlot (s : State) (h fmt n v total : Nat) : State :=
  let d := s.cur.handle h
  let per := d.bytes * 8 / fmtBits fmt
  let a := n % per * fmtBits fmt / 8
  let b := ceilDiv ((n % per + 1) * fmtBits fmt) 8
  let old := s.cur.bufBytes d.buffer (d.slotAt d.prod + a) (b - a)
  let new := setElem fmt old (if fmt = 8 then n % 2 else 0) v
  s.modCore s.now fun k =>
    let k := (k.putBuf d.buffer (d.slotAt d.prod + a) new).passGranules h (n % per * fmtBits fmt / 8) ((n % per + 1) * fmtBits fmt / 8) true
    if (n + 1) % per = 0 || n + 1 = total then k.endFill h else k

/-- `st.aff` and `st.tile` (05 R162): one token of the port's next beat a step, in lane order; a NULL advances without writing,
other tokens are consumed. -/
def State.storeTurn (s : State) (e : CmdEntry) (tile : Bool) : Res :=
  let c := cmdOf e.word
  let port := c.portA.toNat - 32
  let n := e.pos
  if !s.cur.portTurn e then .next s
  else match s.walkOf c tile n with
    | none => .next s
    | some w =>
      if n = w.total then .next (s.cmdDone e.id w.bytes)
      else match (s.cur.fabric.port port).fifo with
        | [] => .next s
        | b :: _ =>
          if b.kind ≠ 0xA then .next (s.modCore s.now fun k => k.dropPort port)
          else match (upto 4).find? fun l => b.mask.getLsbD l with
            | none => .next (s.modCore s.now fun k => k.dropPort port)
            | some l =>
              let h := c.hA.toNat
              let per := (s.cur.handle h).bytes * 8 / fmtBits w.fmt
              let took (s : State) : State :=
                let s := s.modCore s.now fun k => { k with fabric := k.fabric.setPort port ((k.fabric.port port).take l) }
                (s.modCmd e.id fun d => { d with pos := n + 1 }).endGenRun w (n + 1)
              if c.flag 2 && (!s.cur.mayFill e.id h || !s.cur.slotOpen h (n % per * fmtBits w.fmt / 8) e.cx true) then .next s
              else match b.token l with
                | .word v => match w with
                  | .buffer f total => .next (took (s.putSlot h f n (v.toNat % 2 ^ fmtBits f) total))
                  | .tensor t p _ =>
                    s.tryCmd e (port % 4) (s.storeElem s.x e.fid t (p.pos n).1 (p.pos n).2 (v.toNat % 2 ^ fmtBits t.fmt)) fun s =>
                      .next (took (s.touchAt e t [p.pos n]))
                | _ => match w with
                  | .buffer f total =>
                    let d := s.cur.handle h
                    let old := s.cur.bufBytes d.buffer (d.slotAt d.prod + n % per * fmtBits f / 8) 4
                    .next (took (s.putSlot h f n (elemOf f old (if f = 8 then n % 2 else 0)) total))
                  | .tensor _ _ _ => .next (took s)

/-- ST_AFF. -/
def execStAff (c : Cmd) (s : State) : Res := s.withCmd 0x03 c fun e => s.storeTurn e false

/-- ST_TILE. -/
def execStTile (c : Cmd) (s : State) : Res := s.withCmd 0x04 c fun e => s.storeTurn e true

/-! ## bound and kick (05 R171) -/

/-- One token enters on a port's stream. -/
def State.placeToken (s : State) (e : CmdEntry) (t : Token) : Res :=
  let port := (cmdOf e.word).portA.toNat
  if !s.cur.portTurn e || !s.cur.portRoom port then .next s
  else .next ((s.modCore s.now fun k => k.portSend port (tokenBeat t)).cmdDone e.id 1)

/-- BOUND: a 48-bit value. -/
def execBound (c : Cmd) (s : State) : Res := s.withCmd 0x12 c fun e => s.placeToken e (.bound (c.operand.toNat % 2 ^ 48))

/-- KICK: the token that cflags[1:0] names. -/
def execKick (c : Cmd) (s : State) : Res := s.withCmd 0x13 c fun e =>
  s.placeToken e (match c.cflags.toNat % 4 with
    | 0 => .eor
    | 1 => .eok
    | 2 => .pred false
    | _ => .pred true)

end Sys2Proof.Machine
end

