-- ==== Sys2Proof/Machine/Atlas.lean ====
section
/-!
DEFINITION. Leases and atlas changes: LEASE_GRANT (04 R123), `lease` (05 R174), `relatch` (05 R157, R175, 16 R418, R419), re-latch
tokens and firmware's changes (05 R144, R157).
-/
namespace Sys2Proof.Machine

/-! ## Leases (04 R123) -/

/-- A lease other than a firing's own holds a plate. -/
def State.plateHeld (s : State) (x fid : Nat) (p : Nat × Nat) : Bool :=
  let c := s.ctx x
  let own := c.firing fid
  (c.firings.any fun e => e.1 ≠ fid && e.2.lease.contains p) ||
    (c.launches.any fun l => (l.leased.filter fun i => !(own.kind = .point && own.tag = l.block.tag && own.idx = i)).any fun i =>
      (c.pointLease l i).contains p) ||
    s.dies.any fun d => d.2.tasks.any fun t =>
      t.x = x && t.leased && !(own.kind = .task && own.seq = t.seq) && (c.taskLease t).contains p

/-- What a lease that must wait asks for: each missing host page, and each absent plate (04 R123). -/
def Context.leaseNotices (c : Context) (ps : List (Nat × Nat)) : List Notice :=
  ps.flatMap fun p =>
    let e := c.entryNow p.1 p.2
    if e.res = 16 then
      ((upto 16).map fun i => e.frame * 65536 + 4096 * i).filterMap fun a =>
        if (pageOf c.pages a).isSome then none else some (.pageRequest c.id a)
    else if 17 ≤ e.res then [.absentPlate c.id p.1 p.2] else []

/-- Notices are given, those that stand already excepted. -/
def State.notify (s : State) (ns : List Notice) : State := { s with notices := s.notices ++ ns.filter fun n => !s.notices.contains n }

/-- Grant a lease on plates, or ask for what it waits on. -/
def State.grant (s : State) (x : Nat) (ps : List (Nat × Nat)) (k : State → State) : State :=
  let c := s.ctx x
  if ps.all c.leasable then k s else s.notify (c.leaseNotices ps)

/-- The plates that a `lease` command asks for. -/
def Context.leaseRect (c : Context) (e : CmdEntry) : List (Nat × Nat) :=
  let r := TRect.of (cmdOf e.word).operand.toNat
  match c.tensor r.tensor with
  | none => []
  | some t => r.plates t

/-- The scheduler examines the lease of a point, a task or a `lease` command: it obtains it, or asks for what is missing (04 R123,
05 R174). -/
def State.leaseTurn (s : State) (x : Nat) (w : LeaseRequest) : State :=
  let c := s.ctx x
  match w with
  | .point tag idx => match c.launch tag with
    | none => s
    | some l =>
      if l.leased.contains idx || l.block.cross ≤ idx || l.block.es ≤ nth l.heights idx 0 then s
      else s.grant x (c.pointLease l idx) fun s =>
        s.modCtx x fun c => c.modLaunch tag fun l => { l with leased := insertNat l.leased idx }
  | .task seq => match (s.dies.flatMap fun d => d.2.tasks).find? fun t => t.x = x && t.seq = seq && t.queued && !t.leased with
    | none => s
    | some t => s.grant x (c.taskLease t) fun s => s.mapDies fun _ d =>
      { d with tasks := d.tasks.map fun t => if t.x = x && t.seq = seq then { t with leased := true } else t }
  | .command k id => match (s.core k).cmdEntry id with
    | none => s
    | some e =>
      if opOf e.word ≠ 0x30 || e.stage ≠ .running || s.cxId k ≠ x then s
      else
        let ps := c.leaseRect e
        s.grant x ps fun s => s.modFiring x e.fid fun f => { f with lease := (f.lease ++ ps).eraseDups }

/-- LEASE_GRANT: the scheduler examines a lease. -/
def execLeaseGrant (x : Nat) (w : LeaseRequest) (s : State) : Res := .next (s.leaseTurn x w)

/-- Leases that wait and need a plate: of fireable points, of queued tasks, and of `lease` commands (04 R123). -/
def State.waitingLeases (s : State) (x : Nat) (p : Nat × Nat) : List LeaseRequest :=
  let c := s.ctx x
  let points := c.launches.flatMap fun l =>
    ((upto l.block.cross).filter fun i => s.fireable x l i && !l.leased.contains i && (c.pointLease l i).contains p).map fun i =>
      LeaseRequest.point l.block.tag i
  let tasks := ((s.tasksOf x).filter fun t => t.queued && !t.leased && (c.taskLease t).contains p).map fun t => LeaseRequest.task t.seq
  let cmds := (s.cores.filter fun e => s.cxId e.1 = x).flatMap fun e =>
    (e.2.cmds.filter fun d => opOf d.word = 0x30 && d.stage = .running && (c.leaseRect d).contains p).map fun d => LeaseRequest.command e.1 d.id
  points ++ tasks ++ cmds

/-- LEASE: the command is done once its firing's lease holds every plate that meets the rectangle (05 R174). The two modes lease
alike: 04 R124 checks a lease per plate, and writes are checked by the entry's wr (log 26). -/
def execLease (c : Cmd) (s : State) : Res := s.withCmd 0x30 c fun e =>
  let x := s.ctx s.x
  if (x.leaseRect e).all fun p => (x.firing e.fid).lease.contains p then .next (s.cmdDone e.id 1) else .next s

/-! ## Atlas changes (05 R144, R157) -/

/-- The fields of an atlas entry (05 R141). -/
def AtlasEntry.of (v : Nat) : AtlasEntry :=
  ⟨bitsOf v 95 64, bitsOf v 63 59, bitsOf v 58 56, bitOf v 55, bitOf v 54, bitsOf v 39 0⟩

/-- A frame as a number: its stack or host memory, and its number there. -/
def AtlasEntry.frameKey (e : AtlasEntry) : Nat := e.res * 2 ^ 40 + e.frame

/-- An entry takes a new value at the next epoch; older latches keep the old one when keep is set (05 R156). An absent one is kept
only for firings whose lease holds the plate, those that have unmapped it themselves (05 R143): for a lease that waits for the plate
the new entry holds from here (05 R144). -/
def Context.changeEntry (c : Context) (t p : Nat) (e : AtlasEntry) (keep : Bool) : Context :=
  let until_ := c.epoch + 1
  let old := c.entryNow t p
  let noted := c.oldAtlas.any fun o => o.1 = (t, p) && o.2.1 = until_
  let keep := keep && (old.res ≤ 16 || c.firings.any fun f => !f.2.retired && f.2.lease.contains (t, p))
  { c with
    atlas := put c.atlas (t, p) e
    oldAtlas :=
      if !keep then c.oldAtlas.filter fun o => o.1 ≠ (t, p)
      else if noted then c.oldAtlas else c.oldAtlas ++ [((t, p), until_, old)] }

/-- A command works through an address generator of its core for a firing that a change counts as latched on an old entry, on a
tensor with a changed plate; the generator's site (05 R157 step 3). -/
def Context.oldAccess (c : Context) (r : AtlasChange) (k : Core) (e : CmdEntry) : Option Nat :=
  let d := cmdOf e.word
  let op := opOf e.word
  let ended := match e.stage with
    | .performed => true
    | .failed _ => true
    | _ => false
  if 1 ≤ op && op ≤ 4 && d.flag 1 && !ended && r.latched (c.firing e.fid) &&
      r.plates.any (fun p => p.1 = (TRect.of d.operand.toNat).tensor) then k.generator d.portA.toNat else none

/-- The generators that a change's token has to wait in. -/
def State.tokensOf (s : State) (x : Nat) (r : AtlasChange) : List (CoreId × Nat) :=
  ((s.cores.filter fun e => s.cxId e.1 = x).flatMap fun e =>
    (e.2.cmds.filterMap fun d => (s.ctx x).oldAccess r e.2 d).map fun site => (e.1, site)).eraseDups

/-- The generators of a context's cores where no token waits have the present latch (05 R156). -/
def State.latchIdle (s : State) (x : Nat) : State :=
  let c := s.ctx x
  let waits (k : CoreId) (site : Nat) : Bool := c.changes.any fun r => r.tokens.contains (k, site)
  s.mapCores fun k d => if s.cxId k ≠ x then d else
    { d with fabric := { d.fabric with latches := d.fabric.latches.map fun l => if waits k l.1 then l else (l.1, c.epoch) } }

/-- An atlas change whose edits have just applied begins: its tokens enter the generators, and pass those with nothing to finish (05
R157). -/
def State.openChange (s : State) (x : Nat) (owner : Option (CoreId × Nat)) (fid : Nat) (ps : List (Nat × Nat)) (frames : List Nat) : State :=
  let r : AtlasChange := ⟨owner, fid, ps, (s.ctx x).epoch, frames, []⟩
  let r := { r with tokens := s.tokensOf x r }
  (s.modCtx x fun c => { c with changes := c.changes ++ [r] }).latchIdle x

/-- RELATCH_TOKEN: the tokens of changes leave a generator that has finished the accesses made for firings latched on their old
entries; with the last one its latch is the present one (05 R157 step 3). -/
def execRelatchToken (k : CoreId) (site : Nat) (s : State) : Res :=
  let x := s.cxId k
  if (look s.ctxs x).isNone then .next s
  else
    let stays (r : AtlasChange) : Bool := (s.tokensOf x r).contains (k, site)
    let pass (r : AtlasChange) : AtlasChange := if stays r then r else { r with tokens := r.tokens.erase (k, site) }
    let s := s.modCtx x fun c => { c with changes := c.changes.map pass }
    .next ((s.latchIdle x).trim x)

/-! ## relatch (05 R175) -/

/-- An edit record (05 R175). -/
structure AtlasEdit where
  tensor : Nat
  op : Nat
  zero : Nat
  plate : Nat
  value : Nat
  stensor : Nat
  high : Nat
  deriving DecidableEq, Repr

/-- The fields of 16 bytes. -/
def AtlasEdit.of (bs : List Byte) : AtlasEdit :=
  let f (o n : Nat) : Nat := leNat ((bs.drop o).take n)
  ⟨f 0 2, f 2 1, f 3 1, f 4 4, f 8 4, f 12 2, f 14 2⟩

/-- A record keeps 05 R175. -/
def Context.editHolds (c : Context) (e : AtlasEdit) : Bool :=
  match c.tensor e.tensor with
  | none => false
  | some t =>
    e.op ≤ 4 && e.zero = 0 && e.plate < t.plates && e.high = 0 && (e.op = 1 || e.op = 2 || e.value = 0) &&
      if e.op = 2 then match c.tensor e.stensor with
        | none => false
        | some u => e.value < u.plates && !(c.entryNow e.stensor e.value).wr
      else e.stensor = 0

/-- A record gives its plate another frame or none: it follows 16 R418. -/
def AtlasEdit.moves (e : AtlasEdit) : Bool := e.op = 2 || e.op = 4

/-- The entry that a record makes of its plate's. -/
def Context.edited (c : Context) (e : AtlasEdit) : AtlasEntry :=
  let o := c.entryNow e.tensor e.plate
  match e.op with
  | 1 => { o with base := e.value }
  | 2 =>
    let u := c.entryNow e.stensor e.value
    { o with frame := u.frame, res := u.res, ver := u.ver, wr := false }
  | 3 => { o with wr := false }
  | 4 => { o with res := 17 }
  | _ => o

/-- A command other than a `relatch` reaches a plate: by its rectangle, or, where it names only a tensor, by any plate of it. -/
def Context.reachesPlate (c : Context) (e : CmdEntry) (p : Nat × Nat) : Bool :=
  let op := opOf e.word
  let d := cmdOf e.word
  let r := TRect.of d.operand.toNat
  let rect := match c.tensor r.tensor with
    | some t => (r.plates t).contains p
    | none => false
  if 1 ≤ op && op ≤ 4 then !d.flag 2 && (if d.flag 1 then r.tensor = p.1 else rect)
  else if [0x05, 0x06, 0x07, 0x18, 0x32].contains op then rect
  else if op = 0x08 || op = 0x09 then r.tensor = p.1
  else if op = 0x20 then bitsOf e.attached 127 112 = p.1
  else if op = 0x0A then
    (bitsOf e.attached 161 160 = 1 && bitsOf e.attached 63 48 = p.1) || (bitsOf e.attached 163 162 = 1 && bitsOf e.attached 127 112 = p.1)
  else false

/-- 16 R418 step 1 is met for edited plates: no earlier command of the firing reaches one, no pin stands on one, and no other lease
holds one. -/
def State.movesReady (s : State) (e : CmdEntry) (ps : List (Nat × Nat)) : Bool :=
  let x := s.x
  let c := s.ctx x
  let pinned (p : Nat × Nat) : Bool := c.pins.any fun n => n.tile.1 = p.1 && match c.tensor p.1 with
    | some t => t.plateOf n.tile.2.1 n.tile.2.2 = p.2
    | none => false
  ps.all fun p =>
    !((s.cur.cmds.takeWhile fun d => d.id ≠ e.id).any fun d => d.fid = e.fid && c.reachesPlate d p) && !pinned p && !s.plateHeld x e.fid p

/-- A tile of a plate whose current version cannot go back: what reaching its frame comes to (05 R146, R155). -/
def State.backStuck (s : State) (x : Nat) (p : Nat × Nat) : Option TErr :=
  let c := s.ctx x
  (c.tiles.filter fun e => c.inPlate p e.1 && (versionAt e.2 c.epoch).isSome).findSome? fun e => match c.tensor e.1.1 with
    | none => none
    | some t => match c.frameLine (c.entryNow p.1 p.2) (t.tileNum e.1.2.1 e.1.2.2 % 64) with
      | .at _ => none
      | .none => some (.fail 0x21 p.1 p.2)
      | .nowhere a => some (.nowhere a)

/-- 16 R418 steps 2 and 3 for a list of records: sources are written back, and every line and version of the edited plates goes,
with what the issuing firing wrote there in its phase. What a rollback would make current again stands aside until the next commit
(13 R363). -/
def State.moveFrames (s : State) (x fid : Nat) (es : List AtlasEdit) : State :=
  let s := (es.filter fun e => e.op = 2).foldl (fun t e => t.writeBackPlate x (e.stensor, e.value)) s
  let ps := (es.filter AtlasEdit.moves).map fun e => (e.tensor, e.plate)
  let s := { s with l2 := s.l2.filter fun l => !(l.x = x && ps.any fun p => (s.ctx x).inPlate p l.tile) }
  s.modCtx x fun c =>
    let gone (k : TileKey) : Bool := ps.any fun p => c.inPlate p k
    ({ c with
      tiles := c.tiles.filter fun e => !gone e.1
      shelf := c.shelf ++ (c.tiles.filter fun e => gone e.1).map fun e => (c.epoch, e) } : Context).modFiring fid fun f =>
      { f with writes := f.writes.filter fun w => !gone w.1 }

/-- A `relatch` edit of an entry takes an undo entry, the first since the cut with the entry as it stands there; a later one is
noted with it (13 R364). -/
def Context.logEdit (c : Context) (e : AtlasEdit) : Context :=
  let mine (u : Undo) : Bool := match u with
    | .atlas t p _ _ => t = e.tensor && p = e.plate
    | .line _ _ => false
  let now := c.undo.drop c.undoMark
  if now.any mine then
    { c with undo := c.undo.take c.undoMark ++ now.map fun u => match u with
      | .atlas t p o ops => if mine u then .atlas t p o (ops ++ [e.op]) else u
      | .line _ _ => u }
  else { c with undo := c.undo ++ [Undo.atlas e.tensor e.plate (c.entryNow e.tensor e.plate) [e.op]] }

/-- Frames that records take from their plates (16 R419). -/
def Context.takenFrames (c : Context) (es : List AtlasEdit) : List Nat :=
  ((es.filter AtlasEdit.moves).map fun e => c.entryNow e.tensor e.plate).filterMap fun o => if o.res ≤ 16 then some o.frameKey else none

/-- The records apply in list order at one epoch, each edited entry with its undo entry (13 R364); the frames that they release stay
reserved until the next commit, whether another entry maps them or not (16 R419). -/
def Context.applyEdits (c : Context) (es : List AtlasEdit) : Context :=
  let moved (e : AtlasEdit) : Bool := es.any fun d => d.moves && d.tensor = e.tensor && d.plate = e.plate
  let was := c.takenFrames es
  let c := es.foldl (fun (c : Context) e => (c.logEdit e).changeEntry e.tensor e.plate (c.edited e) !(moved e)) c
  { c with
    epoch := c.epoch + 1
    wantDatum := c.wantDatum || 4 * c.undo.length ≥ 3 * c.undoRoom
    released := (c.released ++ was).eraseDups }

/-- The change of a `relatch` is complete: older entries of its plates serve no firing but the issuing one, which uses the new ones
from here (05 R157 step 4). -/
def Context.endRelatch (c : Context) (r : AtlasChange) : Context :=
  { c with
    changes := c.changes.filter fun q => q.owner ≠ r.owner
    oldAtlas := c.oldAtlas.filter fun o => !(r.plates.contains o.1 && o.2.1 ≤ r.epoch) }

/-- RELATCH: the list is checked, then applied once 16 R418 allows it and the undo log has room, and the command is done with its
change (05 R157, R175). -/
def execRelatch (c : Cmd) (s : State) : Res := s.withCmd 0x31 c fun e =>
  let n := c.cflags.toNat % 64 + 1
  let x := s.x
  match (s.ctx x).changes.find? fun r => r.owner = some (s.now, e.id) with
  | some r =>
    if (s.ctx x).changeOpen r then .next s
    else .next ((s.modCtx x fun c => c.endRelatch r).cmdDone e.id 1)
  | none =>
    s.tryCmd e 3 (s.engineRead x c.operand.toNat (16 * n)) fun bs =>
      let s := s.touchRange x c.operand.toNat (16 * n)
      let es := (upto n).map fun i => AtlasEdit.of ((bs.drop (16 * i)).take 16)
      let ps := (es.map fun e => (e.tensor, e.plate)).eraseDups
      if !es.all (s.ctx x).editHolds then .next (s.failCommand s.now e 0x26 none)
      else if (s.ctx x).undoRoom < (s.ctx x).undo.length + ps.length then .next s
      else if (es.any AtlasEdit.moves) && !s.movesReady e ps then .next s
      else match (es.filter fun e => e.op = 2).findSome? fun d => s.backStuck x (d.stensor, d.value) with
        | some r => s.cmdError e 3 r
        | none =>
          let s := s.moveFrames x e.fid es
          let was := (s.ctx x).takenFrames es
          let s := s.modCtx x fun c => c.applyEdits es
          .next (s.openChange x (some (s.now, e.id)) e.fid ps was)

/-! ## Firmware's changes (05 R144, R149) -/

/-- A frame is free to a plate of a context: no other entry maps it, no rollback may map it again, and no change that released it is
still under way (05 R157 step 5, 16 R419). Frames of stacks are the package's, addresses of host plates the context's own. -/
def State.frameFree (s : State) (x : Nat) (at_ : Nat × Nat) (e : AtlasEntry) : Bool :=
  16 < e.res || (s.ctxs.filter fun d => e.res ≤ 15 || d.1 = x).all fun d =>
    !(d.2.atlas.any fun a => !(d.1 = x && a.1 = at_) && a.2.res = e.res && a.2.frame = e.frame) && !d.2.released.contains e.frameKey &&
      !d.2.changes.any fun r => r.frames.contains e.frameKey && d.2.changeOpen r

/-- An entry as it may stand: its reserved bits, its residency, and a frame within its stack (05 R141, R142). -/
def AtlasEntry.sound (v : Nat) : Bool :=
  let e := AtlasEntry.of v
  bitsOf v 127 96 = 0 && bitsOf v 53 40 = 0 && e.res ≤ 17 && (15 < e.res || e.frame * 65536 + 65536 ≤ stackSize)

/-- An entry that firmware may write: a sound one, on the frame that its plate has or on a free one. -/
def State.mayMap (s : State) (x : Nat) (at_ : Nat × Nat) (v : Nat) : Bool :=
  AtlasEntry.sound v && (((s.ctx x).entryNow at_.1 at_.2).frameKey = (AtlasEntry.of v).frameKey || s.frameFree x at_ (AtlasEntry.of v))

/-- What firmware may make of an entry (05 R144, R149): mapping an absent plate gives it all its fields; of a mapped one that stays
so, base and permissions stay, and in a migration its ver too; an unmap changes its residency alone. -/
def AtlasEntry.mayBecome (old new : AtlasEntry) : Bool :=
  if 17 ≤ old.res then true
  else if 17 ≤ new.res then new.base = old.base && new.rd = old.rd && new.wr = old.wr && new.ver = old.ver && new.frame = old.frame
  else new.base = old.base && new.rd = old.rd && new.wr = old.wr && (new.frameKey = old.frameKey || new.ver = old.ver)

/-- The 64 KiB of a frame go to another. -/
def State.copyFrame (s : State) (x : Nat) (a b : AtlasEntry) : State :=
  (upto 64).foldl (fun t i => match (t.ctx x).frameLine a i, (t.ctx x).frameLine b i with
    | .at l, .at m => t.setBytes m (t.seenBytes x l 1024)
    | _, _ => t) s

/-- FIRMWARE_ATLAS_CHANGE: firmware maps, migrates or changes an entry under 05 R157; a plate that a lease holds is neither migrated
nor unmapped (04 R123), and a migration carries the frame's contents (05 R149). Leases that wait for the plate are examined again in
this step (04 R123). -/
def execFirmwareAtlasChange (x tensor plate : Nat) (e : BitVec 128) (s : State) : Res :=
  let c := s.ctx x
  let new := AtlasEntry.of e.toNat
  let old := c.entryNow tensor plate
  let moves := old.res ≤ 16 && old.frameKey ≠ new.frameKey
  match (look s.ctxs x).bind fun _ => c.tensor tensor with
  | none => .next s
  | some t =>
    if t.plates ≤ plate || !s.mayMap x (tensor, plate) e.toNat || !old.mayBecome new || (moves && s.plateHeld x 0 (tensor, plate)) then .next s
    else
      let s := if moves && new.res ≤ 16 then s.copyFrame x old new else s
      let s := s.modCtx x fun c =>
        let c := c.changeEntry tensor plate new true
        { c with epoch := c.epoch + 1 }
      let s := s.openChange x none 0 [(tensor, plate)] (if moves then [old.frameKey] else [])
      .next ((s.waitingLeases x (tensor, plate)).foldl (fun t w => t.leaseTurn x w) s)

end Sys2Proof.Machine
end

