-- ==== Sys2Proof/Machine/Crypto.lean ====
section
/-!
DEFINITION. The published algorithms that the device verifies, digests and signs with (00 R2, 13 R390, R392): SHAKE256 of FIPS 202, and
Ed448 of RFC 8032 with it. The manual names them; what they compute is theirs (log 40).
-/
namespace Sys2Proof.Machine

/-! ## SHAKE256 -/

/-- Rotation of each lane, by its place x + 5y. -/
def keccakRot : List Nat :=
  [0, 1, 62, 28, 27, 36, 44, 6, 55, 20, 3, 10, 43, 25, 39, 41, 45, 15, 21, 8, 18, 2, 61, 56, 14]

/-- The constants of the 24 rounds. -/
def keccakRound : List Word :=
  [0x0000000000000001, 0x0000000000008082, 0x800000000000808A, 0x8000000080008000, 0x000000000000808B, 0x0000000080000001,
   0x8000000080008081, 0x8000000000008009, 0x000000000000008A, 0x0000000000000088, 0x0000000080008009, 0x000000008000000A] ++
  [0x000000008000808B, 0x800000000000008B, 0x8000000000008089, 0x8000000000008003, 0x8000000000008002, 0x8000000000000080,
   0x000000000000800A, 0x800000008000000A, 0x8000000080008081, 0x8000000000008080, 0x0000000080000001, 0x8000000080008008]

/-- One round on 25 lanes, lane (x, y) at x + 5y. -/
def keccakStep (a : List Word) (rc : Word) : List Word :=
  let col (x : Nat) : Word := (upto 5).foldl (fun w y => w ^^^ nth a (x % 5 + 5 * y) 0) 0
  let cols := (upto 5).map col
  let mixed := (upto 25).map fun i => nth a i 0 ^^^ nth cols ((i % 5 + 4) % 5) 0 ^^^ (nth cols ((i % 5 + 1) % 5) 0).rotateLeft 1
  let moved := (upto 25).map fun i =>
    let from_ := (i % 5 + 3 * (i / 5)) % 5 + 5 * (i % 5)
    (nth mixed from_ 0).rotateLeft (nth keccakRot from_ 0)
  let out := (upto 25).map fun i =>
    let at_ (n : Nat) : Word := nth moved ((i % 5 + n) % 5 + i / 5 * 5) 0
    at_ 0 ^^^ (~~~(at_ 1) &&& at_ 2)
  match out with
  | [] => []
  | w :: r => (w ^^^ rc) :: r

/-- The permutation of 1,600 bits. -/
def keccak (a : List Word) : List Word := keccakRound.foldl keccakStep a

/-- The message in blocks of 136 bytes, with the suffix and the padding of SHAKE256. -/
def shakePad (bs : List Byte) : List Byte :=
  let gap := 136 - (bs.length + 1) % 136
  let gap := if gap = 136 then 0 else gap
  let full := bs ++ (0x1F : Byte) :: List.replicate gap 0
  full.dropLast ++ [full.getLastD 0 ||| 0x80]

/-- SHAKE256: the first n bytes of output, n up to 136. -/
def shake (bs : List Byte) (n : Nat) : List Byte :=
  let padded := shakePad bs
  let block (i : Nat) : List Word := (upto 25).map fun j =>
    if j < 17 then BitVec.ofNat 64 (leNat ((padded.drop (136 * i + 8 * j)).take 8)) else 0
  let a := (upto (padded.length / 136)).foldl (fun a i => keccak ((upto 25).map fun j => nth a j 0 ^^^ nth (block i) j 0)) (List.replicate 25 0)
  (a.flatMap fun w => leBytes 8 w.toNat).take n

/-- A digest of 64 bytes (13 R390, R392). -/
def shake256 (bs : List Byte) : List Byte := shake bs 64

/-! ## Ed448 -/

/-- The field's prime. -/
def edP : Nat := 2 ^ 448 - 2 ^ 224 - 1

/-- The order of the base point. -/
def edL : Nat := 2 ^ 446 - 13818066809895115352007386748515426880336692474882178609894547503885

/-- The curve's constant d, which is -39081. -/
def edD : Nat := edP - 39081

/-- b to the power e modulo m; n bounds the bits of e. -/
def powMod (m : Nat) : Nat → Nat → Nat → Nat
  | 0, _, _ => 1 % m
  | n + 1, b, e =>
    let r := powMod m n (b * b % m) (e / 2)
    if e % 2 = 1 then r * b % m else r

/-- A point in projective coordinates. -/
structure EdPoint where
  x : Nat
  y : Nat
  z : Nat
  deriving DecidableEq, Repr

/-- The neutral point. -/
def edZero : EdPoint := ⟨0, 1, 1⟩

/-- The base point. -/
def edBase : EdPoint :=
  ⟨224580040295924300187604334099896036246789641632564134246125461686950415467406032909029192869357953282578032075146446173674602635247710,
   298819210078481492676017930443930673437544040154080242095928241372331506189835876003536878655418784733982303233503462500531545062832660, 1⟩

/-- The sum of two points. -/
def EdPoint.add (p q : EdPoint) : EdPoint :=
  let a := p.z * q.z % edP
  let b := a * a % edP
  let c := p.x * q.x % edP
  let d := p.y * q.y % edP
  let e := edD * c % edP * d % edP
  let f := (b + edP - e) % edP
  let g := (b + e) % edP
  let h := (p.x + p.y) * (q.x + q.y) % edP
  ⟨a * f % edP * ((h + 2 * edP - c - d) % edP) % edP, a * g % edP * ((d + edP - c) % edP) % edP, f * g % edP⟩

/-- A multiple of a point; n bounds the bits of k. -/
def EdPoint.mul : Nat → Nat → EdPoint → EdPoint
  | 0, _, _ => edZero
  | n + 1, k, p =>
    let r := EdPoint.mul n (k / 2) (p.add p)
    if k % 2 = 1 then r.add p else r

/-- Two points are the same. -/
def EdPoint.same (p q : EdPoint) : Bool := p.x * q.z % edP = q.x * p.z % edP && p.y * q.z % edP = q.y * p.z % edP

/-- A point in 57 bytes. -/
def EdPoint.pack (p : EdPoint) : List Byte :=
  let i := powMod edP 448 p.z (edP - 2)
  leBytes 57 (p.y * i % edP + p.x * i % edP % 2 * 2 ^ 455)

/-- The point of 57 bytes, where they are one. -/
def EdPoint.unpack (bs : List Byte) : Option EdPoint :=
  let n := leNat bs
  let y := n % 2 ^ 455
  let u := (y * y + edP - 1) % edP
  let v := (edD * y % edP * y + edP - 1) % edP
  let u3v := u * u % edP * u % edP * v % edP
  let x := u3v * powMod edP 448 (u3v * u % edP * u % edP * v % edP * v % edP) ((edP - 3) / 4) % edP
  let sign := n / 2 ^ 455
  if bs.length ≠ 57 || edP ≤ y || v * x % edP * x % edP ≠ u || (x = 0 && sign = 1) then none
  else some ⟨if x % 2 = sign then x else edP - x, y, 1⟩

/-- The hash of Ed448 without a context, as a number. -/
def edHash (bs : List Byte) : Nat :=
  leNat (shake ([0x53, 0x69, 0x67, 0x45, 0x64, 0x34, 0x34, 0x38, 0, 0] ++ bs) 114)

/-- The scalar and the prefix of a secret key. -/
def edSecret (key : List Byte) : Nat × List Byte :=
  let h := shake key 114
  (leNat (h.take 55) / 4 * 4 + ((nth h 55 0).toNat % 128 + 128) * 2 ^ 440, h.drop 57)

/-- The public key of a secret one. -/
def ed448Public (key : List Byte) : List Byte := (edBase.mul 448 (edSecret key).1).pack

/-- An Ed448 signature of 114 bytes. -/
def ed448Sign (key msg : List Byte) : List Byte :=
  let s := edSecret key
  let pub := ed448Public key
  let r := edHash (s.2 ++ msg) % edL
  let big := (edBase.mul 448 r).pack
  let k := edHash (big ++ pub ++ msg) % edL
  big ++ leBytes 57 ((r + k * s.1) % edL)

/-- An Ed448 signature verifies under a public key. -/
def ed448Verify (pub sig msg : List Byte) : Bool :=
  match EdPoint.unpack pub, EdPoint.unpack (sig.take 57) with
  | some a, some r =>
    let s := leNat (sig.drop 57)
    let k := edHash (sig.take 57 ++ pub ++ msg) % edL
    sig.length = 114 && s < edL && ((edBase.mul 448 s).mul 3 4).same ((r.add (a.mul 448 k)).mul 3 4)
  | _, _ => false

end Sys2Proof.Machine
end

