-- ==== Sys2Proof/Machine/Convert.lean ====
section
/-!
DEFINITION. The converters w2d, d2w, dqg and falign and the skim nodes skc and ska (07 R213 to R232).
-/
namespace Sys2Proof.Machine

/-- A skim node counts. -/
def Turn.counting (t : Turn) (sat nan kill null : Nat) : Turn := { t with skim := ⟨sat, nan, kill, null⟩ }

/-- A node that holds a STAT unsent takes no token of a lane beyond its next EOK, one that waits to leave included (07 R229). -/
def Core.skimHeld (c : Core) (site l : Nat) : Bool :=
  let n := c.nodeState site
  n.skim.ended ≠ [] && 2 ≤ n.skim.ended.length + (nth n.skim.past l []).length + ((n.lane l).out.filter fun t => t = (0, .eok)).length

/-- The turn of a lane of a converter or skc. -/
def State.convertTurn (s : State) (k : CoreId) (site l op : Nat) (act : View → LaneState → Turn) : Res :=
  if (s.core k).skimHeld site l then .next (s.modCore k fun c => if (c.node site).op.toNat = op then c.flushAll site else c)
  else s.nodeTurn k site l op act

/-- A row token passes; the node's end-of-tile done leaves on aux with the EOK on main (07 R216, Core.sendDone). -/
def passRow (l : LaneState) (t : Token) (outs : List Nat) : Turn := (Turn.of (l.emit (outs.map fun x => (x, t)))).taking [0]

/-- Digits of a number of n bits, most significant first. -/
def bitDigits (n v : Nat) : List Int := (upto n).map fun i => bit (bitOf v (n - 1 - i))

/-- A number: HEAD, its digits, END. -/
def fullNumber (x : Nat) (sz : Bool) (e : Int) (ds : List Int) : List (Nat × Token) :=
  (x, .head 0 sz e) :: ds.map (fun d => (x, Token.digit d)) ++ [(x, .fin)]

/-- Digits without the zeros at their end. -/
def trimDigits (ds : List Int) : List Int := (ds.reverse.dropWhile fun d => d = 0).reverse

/-! ## w2d (07 R217, R218) -/

/-- The number of a word of a format, with exponent step k: its tokens, and whether it is a NaN. -/
def wordNumber (fmt : Nat) (k : Int) (trim : Bool) (limit w : Nat) : List (Nat × Token) × Bool :=
  let send (sz : Bool) (e : Int) (ds : List Int) : List (Nat × Token) :=
    fullNumber 0 sz e ((if trim then trimDigits ds else ds).take limit)
  match FloatFmt.of fmt with
  | none =>
    let n := fmtBits fmt
    let x := w % 2 ^ n
    if x = 0 then (shortNumber 1 false, false)
    else
      let neg := fmt ≠ 9 && bitOf x (n - 1)
      let ds := bitDigits n x
      (send neg (n + k) (if neg then (ds.take 1).map (fun d => -d) ++ ds.drop 1 else ds), false)
  | some f => match unpackFl f w with
    | .nan => (shortNumber 3 false, true)
    | .inf neg => (shortNumber 2 neg, false)
    | .fin neg m _ =>
      let e := bitsOf w (f.signAt - 1) f.fbits
      let signs (ds : List Int) : List Int := if neg then ds.map fun d => -d else ds
      if m = 0 then (shortNumber 1 neg, false)
      else if e = 0 then (send neg (1 - f.bias + k) (signs (bitDigits f.fbits m)), false)
      else (send neg (e - f.bias + 1 + k) (signs (bitDigits (f.fbits + 1) m)), false)

/-- w2d: words to numbers. -/
def w2dTurn (v : View) (l : LaneState) : Turn :=
  let p := v.w.param.toNat
  let fmt := bitsOf p 3 0
  match v.head 0 with
  | none => Turn.of l
  | some (.word w) =>
    if 2 ^ fmtBits fmt ≤ w.toNat then Turn.bad l 0x42 0
    else
      let r := wordNumber fmt (signed 8 (bitsOf p 17 10)) v.w.var (bitsOf p 9 4 + 1) w.toNat
      ((Turn.of (l.emit r.1)).taking [0]).counting 0 (bit r.2) 0 0
  | some .null => ((Turn.of (l.emit [(0, .null)])).taking [0]).counting 0 0 0 1
  | some t => if t.isRow then passRow l t [0] else if t.single then (Turn.of (l.emit [(0, t)])).taking [0] else Turn.bad l 0x43 0

/-- NODE_W2D. -/
def execNodeW2d (k : CoreId) (site lane : Nat) (s : State) : Res := s.convertTurn k site lane 0x18 w2dTurn

/-! ## d2w (07 R219 to R223) -/

/-- A nonzero integer in canonical form (07 R225): v times 2^x with its digits down to the last nonzero one. -/
def canonNumber (out : Nat) (neg : Bool) (m : Nat) (x : Int) : List (Nat × Token) :=
  let n := bitLen m
  let ds := trimDigits (bitDigits n m)
  fullNumber out neg (n + x) (if neg then ds.map fun d => -d else ds)

/-- A finite number rounded to a format, where it fits (07 R220): its word. -/
def roundWord (fmt : Nat) (neg : Bool) (m : Nat) (e : Int) : Option Nat :=
  match FloatFmt.of fmt with
  | some f =>
    let r := roundFmt f m e
    if fitsFmt f r then some (packFl f neg r) else none
  | none =>
    let n := if 0 ≤ e then m * 2 ^ e.toNat else rneShift m (-e).toNat
    let bits := fmtBits fmt
    let fits := if fmt = 9 then (!neg && n < 256) || n = 0 else if neg then n ≤ 2 ^ (bits - 1) else n < 2 ^ (bits - 1)
    if fits then some (unsigned bits (if neg then -(n : Int) else n)) else none

/-- The least k from n on for which the number times 2^-k rounds to one that fits. -/
def leastScale (fmt : Nat) (neg : Bool) (m : Nat) (e : Int) : Nat → Nat → Nat
  | 0, n => n
  | fuel + 1, n => if (roundWord fmt neg m (e - n)).isSome then n else leastScale fmt neg m e fuel (n + 1)

/-- The range limit of a sign, or the largest finite number. -/
def limitWord (fmt : Nat) (neg : Bool) : Nat := match FloatFmt.of fmt with
  | some f => f.maxWord neg
  | none => if fmt = 9 then (if neg then 0 else 255) else if neg then 2 ^ (fmtBits fmt - 1) else 2 ^ (fmtBits fmt - 1) - 1

/-- What d2w makes of a number: a word with its whey item and counts, or a trap. -/
inductive Worded where
  | word (w : Nat) (whey : List (Nat × Token)) (sat nan : Nat)
  | trap
  deriving DecidableEq, Repr

/-- The word of a number (07 R220, R221). mode: 0 saturate, 1 trap, 2 infinity. -/
def numberWord (fmt mode : Nat) (k : Int) (o : Operand) : Worded :=
  let none_ : List (Nat × Token) := [(1, .null)]
  let isInt := (FloatFmt.of fmt).isNone
  let zer : Nat := match FloatFmt.of fmt with
    | some f => bit o.sz * 2 ^ f.signAt
    | none => 0
  match o.tag with
  | 3 => .word (((FloatFmt.of fmt).map fun f => f.nan).getD 0) none_ 0 1
  | 2 => match FloatFmt.of fmt with
    | some f =>
      if f.ieee then .word (f.inf o.sz) none_ 0 0
      else if mode = 1 then .trap
      else .word (if mode = 2 then f.inf o.sz else f.maxWord o.sz) [(1, .head 2 o.sz 0), (1, .fin)] 1 0
    | none => if mode = 1 then .trap else .word (limitWord fmt o.sz) [(1, .head 2 o.sz 0), (1, .fin)] 1 0
  | _ =>
    let v := o.value
    if v.1 = 0 then .word zer none_ 0 0
    else
      let neg : Bool := v.1 < 0
      let m := v.1.natAbs
      let e := v.2 + k
      match roundWord fmt neg m e with
      | some w => .word w none_ 0 0
      | none =>
        if mode = 1 then .trap
        else
          let scale := leastScale fmt neg m e 2048 1
          let w := if mode = 2 && !isInt then ((FloatFmt.of fmt).map fun f => f.inf neg).getD 0 else limitWord fmt neg
          .word w (canonNumber 1 false scale 0) 1 0

/-- d2w: numbers to words; every number is read to its END. -/
def d2wTurn (v : View) (l : LaneState) : Turn :=
  let p := v.w.param.toNat
  match nth l.ops 0 none with
  | some _ =>
    let a := absorb v l.ops
    match a.fault, nth a.ops 0 none with
    | some (r, i), _ => Turn.bad l r i
    | none, some o =>
      if !o.ended then (Turn.of { l with ops := a.ops }).taking a.takes
      else match numberWord (bitsOf p 3 0) (bitsOf p 5 4) (signed 8 (bitsOf p 13 6)) o with
        | .trap => (Turn.bad l 0x47 0).counting 1 0 0 0
        | .word w whey sat nan =>
          let l := { l with ops := [none, none, none] }.emit ((0, .word (BitVec.ofNat 32 w)) :: whey)
          ((Turn.of l).taking a.takes).counting sat nan 0 0
    | none, none => (Turn.of { l with ops := a.ops }).taking a.takes
  | none => match v.head 0 with
    | none => Turn.of l
    | some (.head tag sz e) => (Turn.of { l with ops := [some (Operand.start tag sz e false), none, none] }).taking [0]
    | some .null => ((Turn.of (l.emit [(0, .null), (1, .null)])).taking [0]).counting 0 0 0 1
    | some t =>
      if t.isRow then passRow l t [0, 1] else if t.single then (Turn.of l).taking [0] else Turn.bad l 0x43 0

/-- The lane of a d2w that holds another row token than the first enabled lane, where every enabled lane holds one. -/
def Core.rowsDiffer (c : Core) (site : Nat) : Option Nat :=
  let on := lanesOn (c.node site)
  let next (l : Nat) : Option Token := ((c.nodeState site).lane l).nextOut 0
  if on.all fun l => next l = some .eor || next l = some .eok then on.find? fun l => next l ≠ on.head?.bind next else none

/-- A lane of a d2w whose word has left has still its whey item to send. -/
def Core.wheyBehind (c : Core) (site : Nat) : Bool :=
  (lanesOn (c.node site)).any fun l =>
    let n := (c.nodeState site).lane l
    (n.nextOut 1).isSome && (n.nextOut 0).isNone

/-- NODE_D2W: lanes stay in step at the output, and whey follows the order of main's beats (07 R223). -/
def execNodeD2w (k : CoreId) (site lane : Nat) (s : State) : Res :=
  let c := s.core k
  if (c.node site).op.toNat = 0x19 && !c.records.contains 8 then
    match c.rowsDiffer site with
    | some l => .next (s.fabricFault k site l 0 0x46 none)
    | none =>
      let s := s.modCore k fun c => c.flushAll site
      s.convertTurn k site lane 0x19 (if (s.core k).wheyBehind site then waitTurn else d2wTurn)
  else .next s

/-! ## dqg (07 R224, R225) -/

/-- The items that each lane has in a group. -/
def groupItems (w : NodeWord) : Nat := 8 * 2 ^ bitsOf w.param.toNat 3 2

/-- The format of a group's integers. -/
def groupFmt (w : NodeWord) : Nat := match bitsOf w.param.toNat 1 0 with
  | 0 => 8
  | 1 => 7
  | _ => 9

/-- scale × (q - z) as tokens, and whether it is a NaN. -/
def dequantise (scale : Nat) (d : Int) : List (Nat × Token) × Bool :=
  match unpackFl ((FloatFmt.of 1).getD fp32) scale with
  | .nan => (shortNumber 3 false, true)
  | .inf neg => if d = 0 then (shortNumber 3 false, true) else (shortNumber 2 (neg != decide (d < 0)), false)
  | .fin neg m e =>
    let sz := neg != decide (d < 0)
    if d = 0 then (shortNumber 1 false, false)
    else if m = 0 then (shortNumber 1 sz, false)
    else (canonNumber 0 sz (m * d.natAbs) e, false)

/-- A group's parameter at in1: the scale first, then the zero point. -/
def dqgParam (v : View) (l : LaneState) : Turn :=
  match v.head 1 with
  | some (.word w) =>
    let fmt := groupFmt v.w
    let z := signed 16 w.toNat
    let inRange : Bool := if fmt = 9 then 0 ≤ z ∧ z < 256 else z = signed (fmtBits fmt) w.toNat
    if 65536 ≤ w.toNat then Turn.bad l 0x42 1
    else if l.turn = 0 then (Turn.of { l with scale := w, turn := 1 }).taking [1]
    else if !inRange then Turn.bad l 0x45 1
    else (Turn.of { l with zero := z, turn := 2, left := groupItems v.w }).taking [1]
  | _ => Turn.of l

/-- One more item of a group has been taken; after the last one the next group's parameters are due. -/
def dqgNext (l : LaneState) : LaneState := if l.left ≤ 1 then { l with left := 0, turn := 0 } else { l with left := l.left - 1 }

/-- What stands at in1 of a dqg and is no WORD, whether a parameter is due or not: its fault (07 R224). -/
def dqgStray (v : View) : Option Nat := match v.head 1 with
  | some .null => some 0x45
  | some (.word _) => none
  | some _ => some 0x43
  | none => none

/-- dqg: dequantised integers. -/
def dqgTurn (v : View) (l : LaneState) : Turn :=
  let fmt := groupFmt v.w
  if let some r := dqgStray v then Turn.bad l r 1
  else match v.head 0 with
  | none => Turn.of l
  | some (.word w) =>
    if 2 ^ fmtBits fmt ≤ w.toNat then Turn.bad l 0x42 0
    else if l.turn ≠ 2 then dqgParam v l
    else
      let r := dequantise l.scale.toNat (unpackInt fmt w.toNat - l.zero)
      ((Turn.of ((dqgNext l).emit r.1)).taking [0]).counting 0 (bit r.2) 0 0
  | some .null =>
    if l.turn ≠ 2 then dqgParam v l else ((Turn.of ((dqgNext l).emit [(0, .null)])).taking [0]).counting 0 0 0 1
  | some t =>
    if t.isRow then passRow { l with turn := 0, left := 0 } t [0]
    else if t.single then (Turn.of (l.emit [(0, t)])).taking [0]
    else Turn.bad l 0x43 0

/-- NODE_DQG. -/
def execNodeDqg (k : CoreId) (site lane : Nat) (s : State) : Res := s.convertTurn k site lane 0x1A dqgTurn

/-! ## falign (07 R226, R227): lane 0 keeps the beats collected in its index and the row token that closed the group -/

/-- Floor(log2 |v|) + 1 of a finite nonzero word. -/
def wordExp (f : FloatFmt) (w : Nat) : Option Int := match unpackFl f w with
  | .fin _ m e => if m = 0 then none else some ((bitLen m : Int) + e)
  | _ => none

/-- The shared exponent of a group. -/
def groupExp (f : FloatFmt) (ws : List Nat) : Int := match ws.filterMap (wordExp f) with
  | [] => 0
  | e :: r => r.foldl max e

/-- The aligned number of one word: D digits under the shared exponent. -/
def alignWord (f : FloatFmt) (d : Nat) (eg : Int) (w : Nat) : List (Nat × Token) := match unpackFl f w with
  | .nan => shortNumber 3 false
  | .inf neg => shortNumber 2 neg
  | .fin neg m e =>
    let x := e + d - eg
    let q := if 0 ≤ x then m * 2 ^ x.toNat else rneShift m (-x).toNat
    fullNumber 0 neg eg ((bitDigits d q).map fun b => if neg then -b else b)

/-- The format of a falign. -/
def alignFmt (w : NodeWord) : FloatFmt := (FloatFmt.of (bitsOf w.param.toNat 3 0)).getD fp32

/-- A closed group leaves: every lane's items, then the row token that closed it. Its NaNs and NULLs count (07 R228). -/
def Core.alignSend (c : Core) (site : Nat) : Core :=
  let w := c.node site
  let f := alignFmt w
  let n := c.nodeState site
  let words := (upto 4).flatMap fun l => (n.lane l).group.filterMap fun x => x.map fun b => b.toNat
  let eg := groupExp f words
  let d := bitsOf w.param.toNat 7 4 + 1
  let row := (n.lane 0).rowEnd
  let lane (l : Nat) : LaneState :=
    let v := n.lane l
    let items := v.group.flatMap fun x => match x with
      | none => [(0, Token.null)]
      | some b => alignWord f d eg b.toNat
    { v with group := [], index := 0, rowEnd := none }.emit (items ++ row.toList.map fun t => (0, t))
  let counts (l : Nat) : SkimCounts :=
    let g := (n.lane l).group
    ⟨0, (g.filter fun x => x.any fun b => unpackFl f b.toNat = .nan).length, 0, (g.filter fun x => x.isNone).length⟩
  c.setNode site ⟨(upto 4).map lane, (upto 4).foldl (fun k l => k.count l (counts l)) n.skim⟩

/-- A falign takes a beat into the group that it collects. -/
def Core.alignTake (c : Core) (site : Nat) (b : Beat) : Core :=
  let w := c.node site
  let lanes := (upto 4).filter fun l => b.mask.getLsbD l
  let c := lanes.foldl (fun c l => c.takeAt site w l 0) c
  let c := lanes.foldl (fun c l => match b.token l with
    | .word x => c.modLane site l fun v => { v with group := v.group ++ [some x] }
    | .null => c.modLane site l fun v => { v with group := v.group ++ [none] }
    | t => if t.isRow then c.modLane site 0 fun v => { v with rowEnd := some t } else c.modLane site l fun v => v.emit [(0, t)]) c
  if b.kind = 0xA then c.modLane site 0 fun v => { v with index := v.index + 1 } else c

/-- NODE_FALIGN: a group of up to 8 beats is collected while the one before it leaves; all lanes move together. -/
def execNodeFalign (k : CoreId) (site lane : Nat) (s : State) : Res :=
  let c := s.core k
  let w := c.node site
  if w.op.toNat ≠ 0x1B || lane ≥ 4 || c.records.contains 8 then .next s
  else
    let s := s.modCore k fun c => c.flushAll site
    let c := s.core k
    let n := c.nodeState site
    let idle := n.lanes.all fun v => v.out = []
    if 8 ≤ (n.lane 0).index || (n.lane 0).rowEnd.isSome then .next (if idle then s.modCore k fun c => c.alignSend site else s)
    else if (upto 4).any fun l => c.skimHeld site l then .next s
    else match (c.fabric.link site (inputSide w 0)).fifo with
      | [] => .next s
      | b :: _ =>
        let wide := (upto 4).find? fun l => b.mask.getLsbD l && match b.token l with
          | .word x => 2 ^ fmtBits (bitsOf w.param.toNat 3 0) ≤ x.toNat
          | _ => false
        match wide with
        | some l => .next (s.fabricFault k site l 0 0x42 (some b))
        | none =>
          if b.kind = 0x7 then .next (s.fabricFault k site 0 0 0x43 (some b))
          else .next (s.modCore k fun c => c.alignTake site b)

/-! ## skc (07 R230) -/

/-- skc: every token passes, and is counted. -/
def skcTurn (v : View) (l : LaneState) : Turn :=
  match v.head 0 with
  | none => Turn.of l
  | some t =>
    if !v.fits 0 t then Turn.bad l 0x43 0
    else
      let busy := match t with
        | .head _ _ _ => true
        | .fin => false
        | _ => l.busy
      let tag := match t with
        | .head n _ _ => n
        | _ => 0
      ((Turn.of ({ l with busy := busy }.emit [(0, t)])).taking [0]).counting (bit (tag = 2)) (bit (tag = 3)) 0 (bit (t = .null))

/-- NODE_SKC. -/
def execNodeSkc (k : CoreId) (site lane : Nat) (s : State) : Res := s.convertTurn k site lane 0x30 skcTurn

/-! ## The skim network (07 R228, R229, R231) -/

/-- A site holds a skim node. -/
def skimNode (w : NodeWord) : Bool := [0x18, 0x19, 0x1A, 0x1B, 0x30, 0x31].contains w.op.toNat

/-- The first skim node on a line from a site toward a side, and the side by which the line enters it. -/
def Image.skimEnd (i : Image) : Nat → Nat → Nat → Option (Nat × Nat)
  | 0, _, _ => none
  | n + 1, site, d => match neighbour site d with
    | none => none
    | some nb => if skimNode (i.node nb) then some (nb, opposite d) else i.skimEnd n nb d

/-- The lines that end at a site, by the side they enter. -/
def Image.skimLines (i : Image) (site : Nat) : List Nat :=
  i.routes.filterMap fun r => if routeKind r = 4 then
    match i.skimEnd 16 (routeSite r) (routeSide r) with
    | some (e, d) => if e = site then some d else none
    | none => none
  else none

/-- Every line that ends at a node has a STAT there. -/
def SkimNode.ready (k : SkimNode) (lines : List Nat) : Bool := lines.all fun d => (look k.inbox d).isSome

/-- The sum of the first STAT of every line, and the node without them. -/
def SkimNode.round (k : SkimNode) (lines : List Nat) : SkimCounts × SkimNode :=
  (lines.foldl (fun a d => a.add ((look k.inbox d).getD ⟨0, 0, 0, 0⟩)) ⟨0, 0, 0, 0⟩,
    { k with inbox := lines.foldl (fun b d => b.eraseP fun e => e.1 = d) k.inbox })

/-- SKIM_STAT_SEND: a node's n-th STAT leaves on its kind-4 route once its n-th tile and every line's n-th STAT are there and the
FIFO of 8 ahead has room (07 R229). An ska at which no line ends has a round at any time (log 106). -/
def execSkimStatSend (k : CoreId) (site : Nat) (s : State) : Res :=
  let c := s.core k
  match c.image with
  | none => .next s
  | some i =>
    let w := c.node site
    let n := c.nodeState site
    let lines := i.skimLines site
    let own := if w.op.toNat = 0x31 then some ⟨0, 0, 0, 0⟩ else n.skim.ended.head?
    match own, (c.skimSide site).bind fun d => i.skimEnd 16 site d with
    | some a, some (e, d) =>
      let t := c.nodeState e
      if !skimNode w || !n.skim.ready lines || 8 ≤ (t.skim.inbox.filter fun x => x.1 = d).length || c.records.contains 8 then .next s
      else
        let r := n.skim.round lines
        let c := c.setNode site { n with skim := { r.2 with ended := r.2.ended.drop 1 } }
        let t := c.nodeState e
        .next (s.setCore k (c.setNode e { t with skim := { t.skim with inbox := t.skim.inbox ++ [(d, a.add r.1)] } }))
    | _, _ => .next s

/-- NODE_SKA: a root writes a round to its output port, a word beat of the four sums and then an EOR beat (07 R231). A node that
is no root passes its STATs on by SKIM_STAT_SEND. A root at which no line ends has no round (log 106). -/
def execNodeSka (k : CoreId) (site lane : Nat) (s : State) : Res :=
  let c := s.core k
  let w := c.node site
  let n := c.nodeState site
  match c.image with
  | none => .next s
  | some i =>
    let lines := i.skimLines site
    let dest := c.outDest site w 0
    if w.op.toNat ≠ 0x31 || lane ≥ 4 || !bitOf w.param.toNat 0 || !c.outRoom site w 0 || c.records.contains 8 then .next s
    else if (n.lane 0).pending.isSome then
      let c := c.sendTo dest ⟨0x4, 0xF#4, 0#4, 0⟩
      .next (s.setCore k (c.modLane site 0 fun v => { v with pending := none }))
    else if lines = [] || !n.skim.ready lines then .next s
    else
      let r := n.skim.round lines
      let c := c.setNode site ⟨n.lanes, r.2⟩
      let c := c.sendTo dest ⟨0xA, 0xF#4, 0#4, r.1.sat + r.1.nan * 2 ^ 32 + r.1.kill * 2 ^ 64 + r.1.null * 2 ^ 96⟩
      .next (s.setCore k (c.modLane site 0 fun v => { v with pending := some 1 }))

end Sys2Proof.Machine
end

