-- ==== Sys2Proof/Machine/Kill.lean ====
section
/-!
DEFINITION. Comparison and kill nodes 0x10 to 0x14 (08 R236 to R244).
-/
namespace Sys2Proof.Machine

/-! ## Deciding from leading digits (08 R236, R237) -/

/-- What a decision comes to: more digits are needed, the operands are unordered, or the sign of D. -/
inductive Decision where
  | wait
  | unordered
  | sign (d : Int)
  deriving DecidableEq, Repr

/-- An operand counts as ended: its END was taken, or its HEAD said zero. -/
def Operand.whole (o : Operand) : Bool := o.ended || o.tag = 1

/-- The sign of the difference of finite operands, each with its sign in D, and an exact constant. -/
def decideFinite (os : List (Bool × Operand)) (emax : Int) (t : Int × Int) : Decision :=
  let live := os.filter fun o => !o.2.whole
  let lasts := live.map fun o => (o.2.digits.length : Int) - 1 + emax - o.2.e
  let j := lasts.foldl min (lasts.headD 0)
  let part (o : Operand) : Int × Int := if o.whole then o.value else o.prefixVal (j - (emax - o.e))
  let f := os.foldl (fun a o => dyAdd a (if o.1 then (-(part o.2).1, (part o.2).2) else part o.2)) t
  let u : Int × Int := (live.length, emax - 1 - j)
  if live = [] then .sign f.1.sign
  else if j < 0 then .wait
  else if dyGe f u then .sign 1
  else if dyGe (-u.1, u.2) f then .sign (-1)
  else .wait

/-- Where an infinity stands: below or above every finite number. -/
def infRank (o : Operand) : Int := if o.isInf then (if o.sz then -1 else 1) else 0

/-- D is a - b. -/
def decidePair (a b : Operand) : Decision :=
  if a.tag = 3 || b.tag = 3 then .unordered
  else if a.isInf || b.isInf then .sign (infRank a - infRank b).sign
  else decideFinite [(false, a), (true, b)] (max a.e b.e) (0, 0)

/-- D is a - t for an exact constant. -/
def decideOne (a : Operand) (t : Int × Int) : Decision :=
  if a.tag = 3 then .unordered
  else if a.isInf then .sign (infRank a)
  else decideFinite [(false, a)] a.e (-t.1, t.2)

/-! ## The node mould (08 R239) -/

/-- The turn of a lane of a compare node over some inputs: a step that computes nothing sends NULL on main and aux. -/
def killTurn (ins : List Nat) (go : View → LaneState → Turn) : View → LaneState → Turn :=
  runStep ins [(0, .null), (2, .null)] go

/-- A compare node's lane goes on while its tokens wait: decisions stay where they are, only the tokens wait (08 R239). A new
step begins while no more than one item waits on an output, and no BOUND (log 103). -/
def ahead (act : View → LaneState → Turn) (v : View) (l : LaneState) : Turn :=
  let items (x : Nat) : Nat := (l.out.filter fun t => t.1 = x && t.2.kind ≠ 0x2 && t.2.kind ≠ 0x3).length
  let free := items 0 ≤ 1 && items 2 ≤ 1 && !l.out.any fun t => t.2.kind = 0x6
  if l.busy || (l.ops.any fun o => o.isSome) || free then act v l else Turn.of l

/-- The turn of a lane of a compare node. -/
def State.compareTurn (s : State) (k : CoreId) (site l op : Nat) (act : View → LaneState → Turn) : Res :=
  s.nodeTurn k site l op act (ahead act)

/-- Operand i of a lane. -/
def LaneState.op (l : LaneState) (i : Nat) : Operand := (nth l.ops i none).getD (Operand.start 1 false 0 false)

/-- An operand is not needed any more: it is killed unless it counts as ended (08 R237), and discarded up to its END. -/
def LaneState.dropOp (l : LaneState) (i : Nat) : Turn :=
  let o := nth l.ops i none
  let t := Turn.of { l with ops := updNth l.ops i fun o => o.bind fun o => if o.ended then none else some { o with discard := true } }
  if (o.filter fun o => !o.whole && !o.discard).isSome then { t with kills := [i] } else t

/-- A compare node's lane ends its step with tokens: every operand is discarded up to its END, and of some of them those that do
not count as ended are killed (08 R237, R240 to R243). -/
def LaneState.endStep (l : LaneState) (ks : List Nat) (ts : List (Nat × Token)) : Turn :=
  { l.finish ts with kills := ks.filter fun i => ((nth l.ops i none).filter fun o => !o.whole && !o.discard).isSome }

/-- A number passes on digit by digit from aligned index 0 (08 R242): pad leading zeros, then the operand's digits; END after the
last, or at the digit limit. A digit follows once nothing waits on main. -/
def passDigits (w : NodeWord) (l : LaneState) (i pad : Nat) : Turn :=
  let o := l.op i
  let n := l.index
  if (l.nextOut 0).isSome then Turn.of l
  else if digitLimit w ≤ n then l.finish [(0, .fin)]
  else if n < pad then Turn.of ({ l with index := n + 1 }.emit [(0, .digit 0)])
  else match o.digits[n - pad]? with
    | some d => Turn.of ({ l with index := n + 1 }.emit [(0, .digit d)])
    | none => if o.ended then l.finish [(0, .fin)] else Turn.of l

/-! ## cmp (08 R240) -/

/-- A condition on D. -/
def condHolds (cond : Nat) (d : Int) : Bool := match cond with
  | 0 => d < 0
  | 1 => d ≤ 0
  | 2 => d > 0
  | 3 => d ≥ 0
  | 4 => d = 0
  | _ => d ≠ 0

/-- A cmp's lane: one PRED on main and its opposite on aux. -/
def cmpGo (v : View) (l : LaneState) : Turn :=
  let p := v.w.param.toNat
  let send (b : Bool) : Turn := l.endStep (if bitOf p 3 then [0, 1] else []) [(0, .pred b), (2, .pred !b)]
  match if v.w.var then decideOne (l.op 0) (0, 0) else decidePair (l.op 0) (l.op 1) with
  | .wait => Turn.of l
  | .unordered => send (bitsOf p 2 0 = 5)
  | .sign d => send (condHolds (bitsOf p 2 0) d)

/-- NODE_CMP. -/
def execNodeCmp (k : CoreId) (site lane : Nat) (s : State) : Res :=
  s.compareTurn k site lane 0x10 fun v => killTurn (if v.w.var then [0] else [0, 1]) cmpGo v

/-! ## rect (08 R241) -/

/-- A rect's lane; turn 1 once the operand is known to be above zero. The limit ends it once the zero digits have been sent. -/
def rectGo (v : View) (l : LaneState) : Turn :=
  let o := l.op 0
  let drop (b : Bool) : List (Nat × Token) := [(0, .fin), (2, .pred b)]
  match l.eo, o.tag with
  | none, 0 => Turn.of ({ l with eo := some o.e, turn := 0 }.emit [(0, .head 0 false o.e)])
  | none, 1 => l.endStep [] (shortNumber 1 false ++ [(2, .pred false)])
  | none, 2 => l.endStep (if o.sz then [0] else []) (shortNumber (if o.sz then 1 else 2) false ++ [(2, .pred !o.sz)])
  | none, _ => l.endStep [] (shortNumber 3 false ++ [(2, .pred false)])
  | some _, _ =>
    if l.turn = 1 then passDigits v.w l 0 0
    else if digitLimit v.w ≤ l.index then (if (l.nextOut 0).isSome then Turn.of l else l.finish (drop false))
    else match o.digits[l.index]? with
      | none => if o.ended then l.finish (drop false) else Turn.of l
      | some 0 => Turn.of ({ l with index := l.index + 1 }.emit [(0, .digit 0)])
      | some d =>
        if d = 1 then Turn.of ({ l with index := l.index + 1, turn := 1 }.emit [(0, .digit 1), (2, .pred true)])
        else l.finish (drop false)

/-- NODE_RECT. -/
def execNodeRect (k : CoreId) (site lane : Nat) (s : State) : Res := s.compareTurn k site lane 0x11 (killTurn [0] rectGo)

/-! ## maxk (08 R242) -/

/-- A maxk's lane; once decided, turn is the winner and eo the output's exponent. -/
def maxkGo (v : View) (l : LaneState) : Turn :=
  let a := l.op 0
  let b := l.op 1
  match l.eo with
  | some e => passDigits v.w l l.turn (e - (l.op l.turn).e).toNat
  | none => match decidePair a b with
    | .wait => Turn.of l
    | .unordered => l.endStep [0, 1] (shortNumber 3 false ++ [(2, .pred false)])
    | .sign d =>
      let bWins := if v.w.var then 0 < d else d < 0
      let w := if bWins then b else a
      let sz := if d = 0 then (if v.w.var then a.sz || b.sz else a.sz && b.sz) else w.sz
      let done : List (Nat × Token) := [(2, .pred bWins)]
      if w.tag ≠ 0 then l.endStep [bit !bWins] (shortNumber w.tag sz ++ done)
      else
        let e := max a.e b.e
        { l with eo := some e, turn := bit bWins, index := 0 }.emit ((0, .head 0 sz e) :: done) |>.dropOp (bit !bWins)

/-- NODE_MAXK. -/
def execNodeMaxk (k : CoreId) (site lane : Nat) (s : State) : Res := s.compareTurn k site lane 0x12 (killTurn [0, 1] maxkGo)

/-! ## thrk (08 R243) -/

/-- A thrk's lane; a NULL stand-in goes to main and aux (08 R239, R243). -/
def thrkGo (v : View) (l : LaneState) : Turn :=
  let p := v.w.param.toNat
  let a := l.op 0
  match l.eo with
  | some _ => passDigits v.w l 0 0
  | none => match decideOne a (signed 8 (bitsOf p 13 6), signed 8 (bitsOf p 21 14)) with
    | .wait => Turn.of l
    | .unordered => l.endStep [] (shortNumber 3 false ++ [(2, .pred true)])
    | .sign d =>
      if if v.w.var then d ≤ 0 else 0 ≤ d then
        if a.tag ≠ 0 then l.endStep [] (shortNumber a.tag a.sz ++ [(2, .pred true)])
        else Turn.of ({ l with eo := some a.e, index := 0 }.emit [(0, .head 0 a.sz a.e), (2, .pred true)])
      else l.endStep [0] (if bitOf p 22 then shortNumber 2 (!v.w.var) ++ [(2, .pred false)] else [(0, .null), (2, .null)])

/-- NODE_THRK. -/
def execNodeThrk (k : CoreId) (site lane : Nat) (s : State) : Res := s.compareTurn k site lane 0x13 (killTurn [0] thrkGo)

/-! ## sel (08 R244): pending is the PRED taken, 2 for a NULL; left has a bit for each input whose item is still to come -/

/-- An input's item begins: it passes when chosen, else it is discarded. -/
def selBegin (v : View) (l : LaneState) (i : Nat) : Turn :=
  let chosen := l.pending = some (2 - i)
  let begun : LaneState := { l with left := l.left - 2 ^ i }
  match v.head i with
  | none => Turn.of l
  | some (.head tag sz e) =>
    let l : LaneState := { begun with ops := updNth begun.ops i fun _ => some (Operand.start tag sz e (!chosen)) }
    let t := (Turn.of (if chosen then l.emit [(0, .head tag sz e)] else l)).taking [i]
    if chosen then t else { t with kills := [i] }
  | some t =>
    if t.isRow then Turn.bad l 0x46 i
    else if !v.fits i t then Turn.bad l 0x43 i
    else (Turn.of (if chosen then begun.emit [(0, t)] else begun)).taking [i]

/-- Numbers of the step in progress go on: the chosen one passes. -/
def selRest (v : View) (l : LaneState) : Turn :=
  let a := absorb v l.ops
  match a.fault with
  | some (r, i) => Turn.bad l r i
  | none =>
    let ts := (a.takes.filter fun i => ((nth l.ops i none).filter fun o => !o.discard).isSome).filterMap fun i =>
      (v.head i).map fun t => (0, t)
    let l : LaneState := { l with ops := a.ops.map fun o => o.filter fun o => !o.ended }
    (Turn.of (l.emit ts)).taking a.takes

/-- A PRED stands at in1 or in2, which accept none (08 R244). -/
def selPred (v : View) : Option Nat := [1, 2].find? fun i => match v.head i with
  | some (.pred _) => true
  | _ => false

/-- A sel's lane. Where row tokens differ, the record names in0 once all have come, else the input that differs (log 102). -/
def selTurn (v : View) (l : LaneState) : Turn :=
  if let some i := selPred v then Turn.bad l 0x43 i
  else if l.pending.isSome then
    if bitOf l.left 1 && (v.head 1).isSome then selBegin v l 1
    else if bitOf l.left 2 && (v.head 2).isSome then selBegin v l 2
    else if l.ops.any fun o => o.isSome then selRest v l
    else if l.left = 0 then Turn.of { l with pending := none }
    else Turn.of l
  else match v.head 0 with
    | none => Turn.of l
    | some (.pred b) => (Turn.of { l with pending := some (bit b), left := 6 }).taking [0]
    | some .null => (Turn.of ({ l with pending := some 2, left := 6 }.emit [(0, .null)])).taking [0]
    | some (.bound n) => (Turn.of (l.emit [(0, .bound n)])).taking [0]
    | some t =>
      if !t.isRow then Turn.bad l 0x43 0
      else match v.head 1, v.head 2 with
        | some a, some b => if a = t && b = t then (Turn.of (l.emit [(0, t)])).taking [0, 1, 2] else Turn.bad l 0x46 0
        | some a, none => if a = t then Turn.of l else Turn.bad l 0x46 1
        | none, some b => if b = t then Turn.of l else Turn.bad l 0x46 2
        | none, none => Turn.of l

/-- NODE_SEL. -/
def execNodeSel (k : CoreId) (site lane : Nat) (s : State) : Res := s.nodeTurn k site lane 0x14 selTurn

end Sys2Proof.Machine
end

