-- ==== Sys2Proof/Machine/Matrix.lean ====
section
/-!
DEFINITION. The matrix array: sums (09 R258), the nodes feed and acc (09 R256, R257, R259), weight planes (09 R252 to R255), the
group table (09 R266), runs and twin runs (09 R260 to R265, R270, R271), spill and rest (09 R276).
-/
namespace Sys2Proof.Machine

/-! ## Sums (09 R258) -/

/-- An exact value or the class of one that is not finite. -/
inductive Exact where
  | nan
  | inf (neg : Bool)
  | fin (v : Int × Int)
  deriving DecidableEq, Repr

/-- A sum's value. -/
def Sum.exact : Sum → Exact
  | .nan _ => .nan
  | .inf neg _ => .inf neg
  | .finite m x _ => .fin (m, x)

/-- The window top of a sum. -/
def Sum.top : Sum → Option Int
  | .nan t => t
  | .inf _ t => t
  | .finite _ _ t => t

/-- The sum of two exact values, by class. -/
def Exact.add : Exact → Exact → Exact
  | .nan, _ => .nan
  | _, .nan => .nan
  | .inf a, .inf b => if a = b then .inf a else .nan
  | .inf a, .fin _ => .inf a
  | .fin _, .inf b => .inf b
  | .fin a, .fin b => .fin (dyAdd a b)

/-- A value cut toward zero to a multiple of 2^(t - 47). -/
def windowCut (y : Int × Int) (t : Int) : Int × Int :=
  let d := y.2 - (t - 47)
  (if 0 ≤ d then y.1 * 2 ^ d.toNat else y.1.tdiv (2 ^ (-d).toNat), t - 47)

/-- Add (09 R258). -/
def Sum.add (s : Sum) (x : Exact) : Sum :=
  match s.exact.add x with
  | .nan => .nan s.top
  | .inf neg => .inf neg s.top
  | .fin y =>
    if y.1 = 0 then .finite 0 0 s.top
    else
      let n : Int := bitLen y.1.natAbs + y.2
      let t := match s.top with
        | none => n
        | some t => max t n
      let z := windowCut y t
      .finite z.1 z.2 (some t)

/-- The empty sum. -/
def Sum.empty : Sum := .finite 0 0 none

/-! ## acc on a fabric site (09 R259) -/

/-- A nonzero exact value in canonical form cut to P digits, within the range of a HEAD (07 R225, 06 R186). -/
def releaseNumber (limit : Nat) : Exact → List (Nat × Token)
  | .nan => shortNumber 3 false
  | .inf neg => shortNumber 2 neg
  | .fin v =>
    let neg : Bool := v.1 < 0
    let m := v.1.natAbs
    let e := (bitLen m : Int) + v.2
    if m = 0 then shortNumber 1 false
    else if 511 < e then shortNumber 2 neg
    else if e < -512 then shortNumber 1 neg
    else
      let ds := (trimDigits (bitDigits (bitLen m) m)).take limit
      fullNumber 0 neg e (if neg then ds.map fun d => -d else ds)

/-- The value that an operand adds to a sum. -/
def Operand.exact (o : Operand) : Exact := match o.tag with
  | 3 => .nan
  | 2 => .inf o.sz
  | _ => .fin o.value

/-- The passes or EOKs between releases. -/
def accPeriod (w : NodeWord) : Nat := bitsOf w.param.toNat 11 6 + 1

/-- An acc's lane on a fabric site. -/
def accTurn (v : View) (l : LaneState) : Turn :=
  if l.ops.any fun o => o.isSome then
    let a := absorb v l.ops
    match a.fault with
    | some (r, i) => Turn.bad l r i
    | none => match nth a.ops 0 none with
      | some o =>
        if o.ended then (Turn.of { l with ops := [none, none, none], sum := l.sum.add o.exact }).taking a.takes
        else (Turn.of { l with ops := a.ops }).taking a.takes
      | none => (Turn.of { l with ops := a.ops }).taking a.takes
  else match v.head 0 with
    | none => Turn.of l
    | some (.head tag sz e) => (Turn.of { l with ops := [some (Operand.start tag sz e false), none, none] }).taking [0]
    | some .null => (Turn.of l).taking [0]
    | some .eor => (Turn.of l).taking [0]
    | some (.bound n) => (Turn.of (l.emit [(0, .bound n)])).taking [0]
    | some .eok =>
      if l.eoks + 1 < accPeriod v.w then (Turn.of { l with eoks := l.eoks + 1 }).taking [0]
      else
        let ts := releaseNumber (digitLimit v.w) l.sum.exact
        (Turn.of ({ l with sum := Sum.empty, eoks := 0 }.emit (ts ++ ([(0, .eok), (2, .pred true)] : List (Nat × Token))))).taking [0]
    | _ => Turn.bad l 0x43 0

/-- NODE_ACC. On a fabric site the lane adds and releases; an array accumulator sends what its column has released (09 R251,
R264). -/
def execNodeAcc (k : CoreId) (site lane : Nat) (s : State) : Res :=
  if site < 256 then s.nodeTurn k site lane 0x20 accTurn
  else if ((s.core k).node site).op.toNat ≠ 0x20 || (s.core k).records.contains 8 then .next s
  else .next (s.modCore k fun c => c.flushAll site)

/-! ## Planes (09 R252 to R255) -/

/-- A plane of a core. -/
def Core.plane (c : Core) (n : Nat) : Plane := nth c.array.planes n Plane.reset

/-- Change a plane. -/
def Core.modPlane (c : Core) (n : Nat) (f : Plane → Plane) : Core :=
  { c with array := { c.array with planes := updNth c.array.planes n f } }

/-- The weight of a row and column. -/
def Plane.weight (p : Plane) (k n : Nat) : Int := (look p.words (k, n)).getD 0

/-- A plane that a command uses: 0 or 1 by cflags[0]. -/
def planeOf (c : Cmd) : Nat := bit (c.flag 0)

/-- Commands before one that are still at work, with their fields. -/
def Core.earlierOps (c : Core) (id : Nat) : List (Nat × Cmd) := (c.earlier id).map fun e => (opOf e.word, cmdOf e.word)

/-- The elements of a tile line at their rows and columns of the plane; zeros are not listed. -/
def tileWeights (t : Tensor) (r c : Nat) (bs : List Byte) : List ((Nat × Nat) × Int) :=
  let w := tileWidth t.fmt
  (upto (16 * w)).filterMap fun n =>
    let e := elemOf t.fmt bs n
    if e = 0 then none else some ((r * 16 + n / w, c * w + n % w), (e : Int))

/-- A plane with its checksum weights: the sum of each row's words mod 2^16 (09 R252). -/
def Plane.summed (p : Plane) : Plane :=
  { p with checks := (upto 256).map fun k => unsigned 16 ((p.words.filter fun e => e.1.1 = k).map fun e => e.2).sum }

/-- The weight words of a loaded plane from its elements (09 R254): integers as their value; floating elements aligned with 11
digits in groups of 32 rows. None where an element is not finite. -/
def Plane.converted (p : Plane) (fmt : Nat) : Option Plane :=
  match FloatFmt.of fmt with
  | none => some (Plane.summed { p with stage := .loaded, words := p.words.map fun e => (e.1, unpackInt fmt e.2.toNat) })
  | some f =>
    let finite (w : Int) : Bool := match unpackFl f w.toNat with
      | .fin _ _ _ => true
      | _ => false
    if !p.words.all fun e => finite e.2 then none
    else
      let keys := (p.words.map fun e => (e.1.1 / 32, e.1.2)).eraseDups
      let exps := keys.map fun g =>
        (g, groupExp f ((p.words.filter fun e => (e.1.1 / 32, e.1.2) = g).map fun e => e.2.toNat))
      let align (e : (Nat × Nat) × Int) : (Nat × Nat) × Int :=
        let eg := (look exps (e.1.1 / 32, e.1.2)).getD 0
        match unpackFl f e.2.toNat with
        | .fin neg m x =>
          let d := x + 11 - eg
          let q : Int := if 0 ≤ d then (m * 2 ^ d.toNat : Nat) else (rneShift m (-d).toNat : Nat)
          (e.1, if neg then -q else q)
        | _ => (e.1, 0)
      some (Plane.summed { p with stage := .loaded, words := p.words.map align, floating := true, exps := exps })

/-- A plane as an empty one. -/
def Core.emptyPlane (c : Core) (n : Nat) : Core := c.modPlane n fun _ => Plane.reset

/-- The source reference of a plane: its `wld`, the version of its first plate, the latch of the firing that loads it and the
entries of the plates under that latch (09 R252). -/
def Plane.sourced (p : Plane) (c : Context) (word : QWord) (latch : Nat) (t : Tensor) : Plane :=
  let r := TRect.of (cmdOf word).operand.toNat
  { p with
    source := word
    version := (c.entryAt t.id (t.plateOf r.row0 r.col0) latch).ver
    latch := latch
    entries := (r.plates t).map fun k => (k.2, c.entryAt t.id k.2 latch) }

/-- A tile line of a plane's source as its reference names it: the version that the latch saw, rotated under the entry of then (09
R275). -/
def State.sourceTile (s : State) (x : Nat) (p : Plane) (t : Tensor) (row col : Nat) : Except TErr (List Byte) :=
  if !t.hasTile row col then .ok (List.replicate 1024 0)
  else
    let n := t.plateOf row col
    let e := (look p.entries n).getD AtlasEntry.reset
    let bs : Except TErr (List Byte) := match versionAt ((look (s.ctx x).tiles (t.id, row, col)).getD []) p.latch with
      | some v => .ok v.data
      | none => s.frameBytes x e t.id n (t.tileNum row col % 64)
    bs.map fun b => t.mask row col (t.rotate e.base row col b)

/-- A loaded plane read anew from its reference; none where that cannot be read (09 R275). -/
def State.reloadPlane (s : State) (x : Nat) (p : Plane) : Option Plane :=
  let r := TRect.of (cmdOf p.source).operand.toNat
  (s.ctx x).tensor r.tensor |>.bind fun t =>
    let lines := (upto r.count).mapM fun n =>
      let at_ := r.walk n
      (s.sourceTile x p t at_.1 at_.2).map fun bs => tileWeights t (at_.1 - r.row0) (at_.2 - r.col0) bs
    match lines with
    | .ok ws => ({ p with words := ws.flatten, floating := false, exps := [] } : Plane).converted t.fmt
    | .error _ => none

/-- WLD: one tile line of the rectangle a step, from the slots of hA or from memory through port 1; after the last one the
weights are converted (09 R253 to R255). -/
def execWld (c : Cmd) (s : State) : Res := s.withCmd 0x18 c fun e =>
  let r := TRect.of c.operand.toNat
  let n := planeOf c
  let busy := (s.cur.earlierOps e.id).any fun d => (0x18 ≤ d.1 && d.1 ≤ 0x1A) && planeOf d.2 = n
  match (s.ctx s.x).tensor r.tensor with
  | none => .next (s.failCommand s.now e 0x21 none)
  | some t =>
    if busy then .next s
    else if e.pos = r.count then match (s.cur.plane n).converted t.fmt with
      | none => .next ((s.modCore s.now fun k => k.emptyPlane n).failCommand s.now e 0x27 none)
      | some p =>
        let latch := ((s.ctx s.x).firing e.fid).latch
        .next ((s.modCore s.now fun k => k.modPlane n fun _ => p.sourced (s.ctx s.x) e.word latch t).cmdDone e.id e.count)
    else
      let s := if e.pos = 0 then s.modCore s.now fun k => k.modPlane n fun _ => { Plane.reset with stage := .loading } else s
      let at_ := r.walk e.pos
      let add (s : State) (bs : List Byte) : State :=
        (s.modCore s.now fun k => k.modPlane n fun p =>
          { p with words := p.words ++ tileWeights t (at_.1 - r.row0) (at_.2 - r.col0) bs }).cmdMoves e.id 1024
      if c.flag 1 then s.tryCmd e 1 (s.fetchTile s.x e.fid t at_.1 at_.2) fun bs =>
        .next (add (s.touchTile s.x e.fid t at_.1 at_.2 c.e) bs)
      else
        let h := c.hA.toNat
        let per := (s.cur.handle h).bytes / 1024
        if !s.cur.mayDrain e.id h then .next s
        else
          let off := e.pos % per * 1024
          let bs := s.cur.slotBytes h off 1024
          let t := add (s.modCore s.now fun k => k.drainSlot h off 1024) bs
          .next (if e.pos % per + 1 = per || e.pos + 1 = r.count then t.endDrain h else t)

/-! ## Group table (09 R266) -/

/-- The first r rows of the group table from their bytes. -/
def MArray.tableFrom (a : MArray) (r : Nat) (bs : List Byte) : MArray :=
  { a with table := (upto (8 * r)).foldl (fun t i => put t (i / 8, i % 8) (BitVec.ofNat 32 (leNat ((bs.drop (4 * i)).take 4)))) a.table }

/-- The group table read anew from its source, where one was loaded and can be read (09 R275). -/
def State.reloadTable (s : State) (x : Nat) (a : MArray) : MArray :=
  if a.tableRows = 0 then a
  else match s.engineRead x a.tableSource.toNat (32 * a.tableRows) with
    | .ok bs => a.tableFrom a.tableRows bs
    | .error _ => a

/-- SZLD: rows of the group table from memory, after every earlier quantised run. -/
def execSzld (c : Cmd) (s : State) : Res := s.withCmd 0x1B c fun e =>
  let r := c.cflags.toNat % 64 + 1
  if (s.cur.earlierOps e.id).any fun d => (d.1 = 0x19 || d.1 = 0x1A) && d.2.flag 2 then .next s
  else s.tryCmd e 0 (s.engineRead s.x c.operand.toNat (32 * r)) fun bs =>
    let t := (s.touchRange s.x c.operand.toNat (32 * r)).modCore s.now fun k =>
      { k with array := { k.array.tableFrom r bs with tableSource := c.operand, tableRows := r } }
    .next (t.cmdDone e.id (32 * r))

/-! ## Row tags (09 R261, R262) -/

/-- Digits of an activation format. -/
def digitCount (afmt : Nat) : Nat := match afmt with
  | 8 => 4
  | 1 => 12
  | 2 => 12
  | _ => 8

/-- The fields of a run. -/
def Run.fields (r : Run) : Cmd := cmdOf r.word

/-- The activation format. -/
def Run.afmt (r : Run) : Nat := bitsOf r.fields.operand.toNat 63 60

/-- K. -/
def Run.depth (r : Run) : Nat := bitsOf r.fields.operand.toNat 55 48 + 1

/-- N. -/
def Run.width (r : Run) : Nat := runWidth r.fields

/-- Bytes of an activation record and of a result record. -/
def Run.strides (r : Run) : Nat × Nat :=
  (strideOf r.depth r.afmt, strideOf r.width (bitsOf r.fields.operand.toNat 59 56))

/-- The quantisation group of a row. -/
def Run.groupOf (r : Run) (row : Nat) : Nat := row / 32 * 32 / (32 * 2 ^ bitsOf r.fields.cflags.toNat 4 3)

/-- Rows below K whose feeder lane is enabled (09 R250, R256). -/
def Core.feedRows (c : Core) (depth : Nat) : List Nat := (upto depth).filter fun row =>
  let w := c.node (256 + row / 4)
  w.op.toNat = 0x1C && w.lanes.getLsbD (row % 4)

/-- The digits of one element that its feeder sends: at most P of them; a floating element is aligned to its group's exponent. -/
def elemDigits (afmt w limit : Nat) (eg : Int) : List Int :=
  let n := digitCount afmt
  let ds : List Int := match FloatFmt.of afmt with
    | none =>
      let b := bitDigits n w
      if afmt = 9 then b else (b.take 1).map (fun d => -d) ++ b.drop 1
    | some f => match unpackFl f w with
      | .fin neg m e =>
        let x := e + n - eg
        let q := if 0 ≤ x then m * 2 ^ x.toNat else rneShift m (-x).toNat
        (bitDigits n q).map fun d => if neg then -d else d
      | _ => []
  ds.take limit

/-- The class of an element: 0 finite, 1 NaN, 2 +∞, 3 -∞. -/
def elemClass (afmt w : Nat) : Nat := match FloatFmt.of afmt with
  | none => 0
  | some f => match unpackFl f w with
    | .nan => 1
    | .inf neg => if neg then 3 else 2
    | _ => 0

/-- Dr: the digits that a row tag of a run takes (09 R263). -/
def Core.tagDigits (c : Core) (r : Run) : Nat :=
  let da := digitCount r.afmt
  let n := ((c.feedRows r.depth).map fun row => min (bitsOf (c.node (256 + row / 4)).param.toNat 3 0 + 1) da).foldl max 0
  if n = 0 then da else n

/-- A row tag from its record's elements. -/
def Core.rowTag (c : Core) (r : Run) (elems : List Nat) : RowTag :=
  let f := (FloatFmt.of r.afmt).getD fp32
  let exps := (upto (ceilDiv r.depth 32)).map fun g => groupExp f ((elems.drop (32 * g)).take 32)
  let on := c.feedRows r.depth
  let row (i w : Nat) : List Int :=
    if on.contains i then elemDigits r.afmt w (bitsOf (c.node (256 + i / 4)).param.toNat 3 0 + 1) (nth exps (i / 32) 0) else []
  { m := r.entered
    digits := elems.mapIdx row
    classes := elems.mapIdx fun i w => if on.contains i then elemClass r.afmt w else 0
    exps := if (FloatFmt.of r.afmt).isSome then exps else []
    scales := if r.fields.flag 2 then (upto 8).map fun h => (look c.array.table (r.entered % 64, h)).getD 0 else []
    size := c.tagDigits r
    got := 0
    fed := []
    full := false
    gates := [] }

/-! ## The value of a column (09 R262) -/

/-- The activation integer of a row from its digits through index i. -/
def RowTag.act (t : RowTag) (da row i : Nat) : Int :=
  (((nth t.digits row []).take (i + 1)).mapIdx fun j d => d * 2 ^ (da - 1 - j)).sum

/-- The rows of group g below K. -/
def groupRows (depth g : Nat) : List Nat := (upto 32).filterMap fun i => if 32 * g + i < depth then some (32 * g + i) else none

/-- The zero point of a group, 0 unless quantised. -/
def RowTag.zeroOf (t : RowTag) (r : Run) (g : Nat) : Int := match t.scales[r.groupOf (32 * g)]? with
  | some w => signed 16 (bitsOf w.toNat 31 16)
  | none => 0

/-- The scale of a group, where quantised. -/
def RowTag.scaleOf (t : RowTag) (r : Run) (g : Nat) : Option Fl :=
  (t.scales[r.groupOf (32 * g)]?).map fun w => unpackFl ((FloatFmt.of 1).getD fp32) (w.toNat % 65536)

/-- The pass factor of a group and column; 0 where the scale is not finite. -/
def passFactor (r : Run) (p : Plane) (t : RowTag) (g n : Nat) : Int × Int :=
  let alpha : Int × Int := match t.scaleOf r g with
    | some x => x.exact.getD (0, 0)
    | none => (1, if t.exps = [] then 0 else nth t.exps g 0 - digitCount r.afmt)
  let beta : Int × Int := (1, if p.floating then (look p.exps (g, n)).getD 0 - 11 else 0)
  dyMul alpha beta

/-- The groups of a run. -/
def Run.groups (r : Run) : List Nat := upto (ceilDiv r.depth 32)

/-- The finite value of column n after digit i: the sum over groups of the pass factor times the products less the zero point
times the group's weights. -/
def columnFin (r : Run) (p : Plane) (t : RowTag) (n i : Nat) : Int × Int :=
  let da := digitCount r.afmt
  r.groups.foldl (fun a g =>
    let rows := groupRows r.depth g
    let dot := (rows.map fun k => t.act da k i * p.weight k n).sum
    let cg := (rows.map fun k => p.weight k n).sum
    dyAdd a (dyMul (passFactor r p t g n) (dot - t.zeroOf r g * cg, 0))) (0, 0)

/-- The activation of a row by class, its sign kept for an infinity: for a quantised run the dequantised value. -/
def rowClass (r : Run) (t : RowTag) (row : Nat) : Exact :=
  let inf (neg : Bool) : Exact := .inf neg
  match t.scaleOf r (row / 32) with
  | none => match nth t.classes row 0 with
    | 1 => .nan
    | 2 => inf false
    | 3 => inf true
    | _ => .fin (0, 0)
  | some s =>
    let da := digitCount r.afmt
    let d := t.act da row da - t.zeroOf r (row / 32)
    match s with
    | .nan => .nan
    | .inf neg => if d = 0 then .nan else inf (neg != decide (d < 0))
    | .fin _ _ _ => .fin (0, 0)

/-- V(m, n), by the classes of its products. -/
def columnValue (r : Run) (p : Plane) (t : RowTag) (n : Nat) : Exact :=
  let cls := (upto r.depth).foldl (fun a k =>
    let w := p.weight k n
    a.add (match rowClass r t k with
      | .nan => .nan
      | .inf neg => if w = 0 then .nan else .inf (neg != decide (w < 0))
      | .fin _ => .fin (0, 0))) (Exact.fin (0, 0))
  match cls with
  | .fin _ => .fin (columnFin r p t n (digitCount r.afmt))
  | x => x

/-! ## Releases (09 R264) -/

/-- The magnitude of an exact number. -/
def dyAbs (a : Int × Int) : Int × Int := (a.1.natAbs, a.2)

/-- The bound B of a column and, for each digit i, U. -/
def tapBounds (r : Run) (p : Plane) (t : RowTag) (n : Nat) (s : Int × Int) : (Int × Int) × (Nat → Int × Int) :=
  let da := digitCount r.afmt
  let absSum (g : Nat) : Int := ((groupRows r.depth g).map fun k => ((p.weight k n).natAbs : Int)).sum
  let cSum (g : Nat) : Int := ((groupRows r.depth g).map fun k => p.weight k n).sum
  let factor (g : Nat) : Int × Int := dyAbs (passFactor r p t g n)
  let b := r.groups.foldl (fun a g =>
    dyAdd a (dyMul (factor g) (2 ^ da * absSum g + (t.zeroOf r g).natAbs * (cSum g).natAbs, 0))) (dyAbs s)
  (b, fun i => r.groups.foldl (fun a g => dyAdd a (dyMul (factor g) (absSum g, (da : Int) - 1 - i))) (0, 0))

/-- The least e with 2^e at least a positive exact number. -/
def expAbove (a : Int × Int) : Int :=
  let m := a.1.toNat
  a.2 + (if m = 2 ^ Nat.log2 m then Nat.log2 m else bitLen m : Nat)

/-- A release in progress: its result digits chosen, those sent, their value, and whether its HEAD and its END have been sent. -/
structure Tap where
  j : Nat
  sent : Nat
  z : Int
  begun : Bool
  shut : Bool
  deriving DecidableEq, Repr

/-- One M-cycle of a release (06 R185, R186, R193): x is the value held, whole says that nothing more comes, and u bounds what is
still to come. It sends HEAD, then at most one digit, or END. -/
def Tap.step (limit : Nat) (eo : Int) (x : Int × Int) (whole : Bool) (u : Int × Int) (p : Tap) : Tap × List (Nat × Token) :=
  let cur := eo - p.j
  let done (ts : List (Nat × Token)) : Tap × List (Nat × Token) := ({ p with shut := true }, ts)
  let d := pickBy (fun t y => dyGe x (t, y)) eo p.j p.z
  if p.shut then (p, [])
  else if !p.begun && cur < -512 then done (shortNumber 1 false)
  else if !p.begun && cur ≤ 511 then ({ p with begun := true }, [(0, .head 0 false cur)])
  else if p.begun && limit ≤ p.sent then done [(0, .fin)]
  else if whole && !p.begun && x.1 = 0 then done (shortNumber 1 false)
  else if whole && p.begun && 0 < p.sent && dyEq x (p.z, eo - p.j) then done [(0, .fin)]
  else if !whole && !dyGe (1, eo - 2 - p.j) u then (p, [])
  else if p.begun then ({ p with j := p.j + 1, sent := p.sent + 1, z := 2 * p.z + d }, [(0, .digit d)])
  else if d = 0 then ({ p with j := p.j + 1 }, [])
  else done (shortNumber 2 (d < 0))

/-- What an accumulator releases to its tap for a row tag in the first n M-cycles from the arrival of digit 0 on (09 R264): S + V
online, F being the exact value of what has been received. -/
def tapTokens (r : Run) (p : Plane) (t : RowTag) (n limit cycles : Nat) (s : Sum) : List (Nat × Token) :=
  match s.exact.add (columnValue r p t n), s.exact with
  | .nan, _ => if cycles = 0 then [] else shortNumber 3 false
  | .inf neg, _ => if cycles = 0 then [] else shortNumber 2 neg
  | .fin _, .fin v =>
    let b := tapBounds r p t n v
    if b.1.1 = 0 then (if cycles = 0 then [] else shortNumber 1 false)
    else
      let eo := expAbove b.1
      let cycle (a : Tap × List (Nat × Token)) (q : Nat) : Tap × List (Nat × Token) :=
        let i := min q (t.size - 1)
        let x := a.1.step limit eo (dyAdd v (columnFin r p t n i)) (i + 1 = t.size) (b.2 i)
        (x.1, a.2 ++ x.2)
      ((upto cycles).foldl cycle (⟨0, 0, 0, false, false⟩, [])).2
  | .fin _, _ => []

/-- M-cycles after which a release has ended: the digits of the row tag, those of the result, its HEAD and END, and those
dropped. -/
def tapCycles (r : Run) (p : Plane) (t : RowTag) (n limit : Nat) (s : Sum) : Nat := match s.exact with
  | .fin v => t.size + limit + 4 + (expAbove (tapBounds r p t n v).1 - 511).toNat
  | _ => 1

/-- A word written to C (09 R264): 2^sc × v rounded, saturating. -/
def sumWord (cfmt : Nat) (sc : Int) : Exact → Nat
  | .nan => ((FloatFmt.of cfmt).map fun f => f.nan).getD 0
  | .inf neg => ((FloatFmt.of cfmt).map fun f => f.inf neg).getD (limitWord cfmt neg)
  | .fin v =>
    if v.1 = 0 then 0
    else (roundWord cfmt (v.1 < 0) v.1.natAbs (v.2 + sc)).getD (limitWord cfmt (v.1 < 0))

/-! ## Runs (09 R260 to R265) -/

/-- The core of the other half of a twin (01 R21). -/
def twinOf (k : CoreId) : CoreId := if k % 2 = 0 then k + 1 else k - 1

/-- Change a core's run. -/
def Core.modRun (c : Core) (f : Run → Run) : Core := { c with array := { c.array with run := c.array.run.map f } }

/-- A run's command fails; the run stays in the array, which completes the row tags that have entered and stops at its cut (09 R272,
R274). -/
def State.failRun (s : State) (k : CoreId) (id reason : Nat) : State :=
  match (s.core k).cmdEntry id with
  | none => s
  | some e => s.failCommand k e reason none

/-- The iterations that a BOUND at the run's port gives: none while it has not come, else M or a failure. -/
def Core.runBound (c : Core) (d : Cmd) : Option (Option Nat) :=
  if !d.flag 1 then some (some (bitsOf d.operand.toNat 39 24))
  else ((c.fabric.port (d.portA.toNat - 32)).fifo.head?).map fun b =>
    if b.kind ≠ 0x6 then none
    else
      let v := b.payload % 2 ^ 48
      if 65535 < v || (64 < v && (c.usedCols (runWidth d)).any fun u => 1 < u.2.2) then none else some v

/-- An array run starts (09 R255, R263, R271). -/
def State.startRun (s : State) (e : CmdEntry) (twin : Bool) : Res :=
  let d := cmdOf e.word
  let c := s.cur
  let right := twin && d.flag 5
  let before := c.earlierOps e.id
  let waits := before.any fun o =>
    o.1 = 0x19 || o.1 = 0x1A || o.1 = 0x1B || o.1 = 0x1C || o.1 = 0x1D || (o.1 = 0x18 && planeOf o.2 = planeOf d)
  if waits || (d.flag 1 && !c.portTurn e) then .next s
  else if (c.plane (planeOf d)).stage ≠ .loaded then .next (s.failCommand s.now e 0x28 none)
  else match c.runBound d with
    | none => .next s
    | some none => .next (s.failCommand s.now e 0x29 none)
    | some (some m) =>
      if !right && 0 < m && !c.mayDrain e.id d.hA.toNat then .next s
      else
        let port := d.portA.toNat - 32
        let l := c.fabric.port port
        let c := if d.flag 1 then { c with fabric := c.fabric.setPort port { l with fifo := l.fifo.drop 1 } } else c
        let r : Run := ⟨e.id, e.word, twin, right, m, c.array.passes + 1, 0, 0, [], 0, 0, !twin⟩
        .next (s.setCore s.now { c with array := { c.array with
          run := some r, passes := if m = 0 && !twin then c.array.passes + 1 else c.array.passes } })

/-- Sites of the accumulators that release to taps in a run. -/
def Core.tapSites (c : Core) (r : Run) : List Nat :=
  ((c.usedCols r.width).filterMap fun u => if u.2.1 = 2 then some (320 + u.1 / 4) else none).eraseDups

/-- The columns whose sums a pass releases. -/
def Core.releases (c : Core) (r : Run) : List (Nat × Nat) :=
  (c.usedCols r.width).filterMap fun u => if u.2.2 = r.pass then some (u.1, u.2.1) else none

/-- Nothing that the run has released to a tap is still to be sent. -/
def Core.tapsIdle (c : Core) (r : Run) : Bool :=
  (c.tapSites r).all fun site => (c.nodeState site).lanes.all fun l => l.out = []

/-- A run completes once every row tag has (09 R264, R265): the last C slot is filled, a release pass leaves every slot empty. -/
def State.endRun (s : State) (r : Run) : State :=
  let h := r.fields.hB.toNat
  let release := s.cur.releases r ≠ []
  let s := s.modCore s.now fun c => if 0 < r.bRec then c.endFill h else c
  let s := s.modCore s.now fun c => { c with array := { c.array with
    run := none
    passes := if release then 0 else c.array.passes
    sums := if release then [] else c.array.sums } }
  s.cmdDone r.cmd (ceilDiv (r.m * r.depth * fmtBits r.afmt) 8)

/-- A run's own turn: it starts, or it completes. -/
def State.runTurn (s : State) (e : CmdEntry) (twin : Bool) : Res :=
  match s.cur.array.run with
  | none => s.startRun e twin
  | some r =>
    if r.cmd = e.id && r.met && r.completed = r.m && s.cur.tapsIdle r then .next (s.endRun r) else .next s

/-- MRUN. -/
def execMrun (c : Cmd) (s : State) : Res := s.withCmd 0x19 c fun e => s.runTurn e false

/-- TRUN. -/
def execTrun (c : Cmd) (s : State) : Res := s.withCmd 0x1A c fun e => s.runTurn e true

/-- TWIN_RENDEZVOUS: the halves of a twin run meet, which is its start: a run without row tags counts its pass then (09 R264). Where
their fields differ both fail (09 R270, R271). An array that has failed or that a halt has stopped meets nothing (13 R346, R349). -/
def execTwinRendezvous (k : CoreId) (s : State) : Res :=
  let l := k / 2 * 2
  let done (c : Core) : Bool := c.records.contains 9 || c.arrayFault.isSome
  let stopped := done (s.core l) || done (s.core (l + 1))
  match (s.core l).array.run, (s.core (l + 1)).array.run with
  | some a, some b =>
    if stopped || !a.twin || !b.twin || a.met || b.met then .next s
    else
      let key (r : Run) : Nat × Nat × Nat × Nat :=
        let o := r.fields.operand.toNat
        (bitsOf o 63 60, bitsOf o 55 48, bitsOf o 39 24, bitsOf r.fields.cflags.toNat 4 2)
      if key a ≠ key b then .next ((s.failRun l a.cmd 0x29).failRun (l + 1) b.cmd 0x29)
      else
        let meet (c : Core) : Core := ({ c with array := { c.array with
          passes := if a.m = 0 then c.array.passes + 1 else c.array.passes } } : Core).modRun fun r => { r with met := true, m := a.m }
        .next ((s.modCore l meet).modCore (l + 1) meet)
  | _, _ => .next s

/-- The C slot of the row tag that enters next is free, where the run writes to C in this pass (09 R263). -/
def Core.resultRoom (c : Core) (r : Run) : Bool :=
  let h := r.fields.hB.toNat
  let per := (c.handle h).bytes / r.strides.2
  !((c.releases r).any fun u => u.2 = 1) ||
    (c.handleTurn r.cmd h true && (r.bRec + r.inflight.length) / per < (c.handle h).free)

/-- The last digit of a row tag has entered (09 R261, R264): its record is done with, its slot is released after its last record,
and the run's last row tag counts the pass, in both halves of a twin. -/
def State.tagEntered (s : State) (k : CoreId) (r : Run) (t : RowTag) : State :=
  let h := r.fields.hA.toNat
  let per := ((s.core k).handle h).bytes / r.strides.1
  let last := t.m + 1 = r.m
  let slotDone := r.aRec + 1 = per || last
  let counted (c : Core) : Core := { c with array := { c.array with passes := if last then c.array.passes + 1 else c.array.passes } }
  let s : State := { s with now := k }
  let s := (if slotDone then s.endDrain h else s).modCore k fun c =>
    (counted c).modRun fun r => { r with aRec := if slotDone then 0 else r.aRec + 1 }
  if r.twin then s.modCore (twinOf k) counted else s

/-- The row tag whose digits enter a core: the last of those in the array. -/
def Core.entering (c : Core) : Option RowTag := c.array.run.bind fun r => r.inflight.getLast?.filter fun t => !t.full

/-- Change the row tag whose digits enter. -/
def Core.modTag (c : Core) (f : RowTag → RowTag) : Core := match c.entering with
  | none => c
  | some t => c.modRun fun r => { r with inflight := r.inflight.dropLast ++ [f t] }

/-- What a used column sends to its tap in the M-cycle of a digit, the n-th: nothing once gated; with the last digit all that is
left, then the row tokens (09 R251, R264). -/
def Core.tapSends (c : Core) (r : Run) (t : RowTag) (col n : Nat) (last : Bool) : List (Nat × Token) :=
  let p := c.plane (planeOf r.fields)
  let s := (look c.array.sums (t.m % 64, col)).getD Sum.empty
  let limit := digitLimit (c.node (320 + col / 4))
  let upTo (n : Nat) : List (Nat × Token) := tapTokens r p t col limit n s
  let all := upTo (if last then max n (tapCycles r p t col limit s) else n)
  (if (look t.gates col).isSome then [] else all.drop (upTo (n - 1)).length) ++
    if last then [(0, .eor)] ++ (if t.m + 1 = r.m then [(0, .eok)] else []) else []

/-- A digit of the entering row tag is in the cells of a core: its accumulators take it, and those that release to a tap send what
they can. -/
def Core.takeDigit (c : Core) (last : Bool) : Core := match c.array.run, c.entering with
  | some r, some t =>
    let n := t.got + 1
    let d := c.modTag fun t => { t with got := n, fed := [], full := last }
    (c.releases r).foldl (fun d u =>
      if u.2 = 2 then d.modLane (320 + u.1 / 4) (u.1 % 4) fun l => l.emit (c.tapSends r t u.1 n last) else d) (d.event 0x05 1 false)
  | _, _ => c

/-- Every used column of a core takes no digit of the entering row tag beyond the first n (08 R247, 09 R267). late: digits that
still enter before the gating is known. -/
def Core.allGated (c : Core) (n late : Nat) : Bool := match c.array.run, c.entering with
  | some r, some t => (c.usedCols r.width).all fun u => (look t.gates u.1).any fun g => g + late ≤ n
  | _, _ => true

/-- The feeders of a run count one kill each: they end the row tag early (08 R247). Their KILLs end at the activation reader, which
they change in nothing (09 R250). -/
def Core.feedersKill (c : Core) (r : Run) : Core :=
  (((c.feedRows r.depth).map fun row => 256 + row / 4).eraseDups).foldl (fun c site =>
    let n := c.nodeState site
    c.setNode site { n with skim := n.skim.count 0 ⟨0, 0, 1, 0⟩ }) c

/-- The next digit of the entering row tag has entered all rows, in both halves of a twin (09 R263, R271). The row tag has taken its
last digit with the last one of its elements, or once every used column is gated; the gating of the right half is known at the left
two M-cycles later. -/
def State.digitEntered (s : State) (k : CoreId) : State := match (s.core k).array.run, (s.core k).entering with
  | some r, some t =>
    let n := t.got + 1
    let used := (s.core k).usedCols r.width ≠ [] || (r.twin && match (s.core (twinOf k)).array.run with
      | some q => (s.core (twinOf k)).usedCols q.width ≠ []
      | none => false)
    let early := used && (s.core k).allGated n 0 && (!r.twin || (s.core (twinOf k)).allGated n 2)
    let last := n = t.size || early
    let s := s.modCore k fun c => c.takeDigit last
    let s := if r.twin then s.modCore (twinOf k) fun c => c.takeDigit last else s
    let s := if n < t.size && early then s.modCore k fun c => c.feedersKill r else s
    if last then s.tagEntered k r t else s
  | _, _ => s

/-- ROW_TAG_ENTRY: the next row tag's record is filled and its result slot is free, so it is read, which empties its granules (05
R151), and its digits begin to enter, unless the halt or a quota drain has come (09 R263, R266, R272, 14 R409); the digits enter by
NODE_FEED. -/
def execRowTagEntry (k : CoreId) (s : State) : Res :=
  match (s.core k).array.run with
  | none => .next s
  | some r =>
    let c := s.core k
    let h := r.fields.hA.toNat
    let busy := c.entering.isSome
    let other := match (s.core (twinOf k)).array.run with
      | some q => !r.twin || (s.core (twinOf k)).resultRoom q
      | none => !r.twin
    if !r.met || r.right || r.m ≤ r.entered || busy || !c.mayDrain r.cmd h || !c.resultRoom r || !other || c.records.contains 9 ||
        s.halted k || (s.ctx (s.cxId k)).drained ≠ [] then .next s
    else
      let bs := c.slotBytes h (r.aRec * r.strides.1) r.strides.1
      let t := c.rowTag r ((upto r.depth).map fun i => elemOf r.afmt bs i)
      let fits (w : BitVec 32) : Bool :=
        let z := signed 16 (bitsOf w.toNat 31 16)
        if r.afmt = 9 then 0 ≤ z ∧ z < 256 else z = signed (fmtBits r.afmt) (unsigned 16 z)
      let used := (upto (r.groupOf (r.depth - 1) + 1)).filterMap fun g => t.scales[g]?
      if !used.all fits then .next (s.failRun k r.cmd 0x29)
      else
        let enter (c : Core) : Core := c.modRun fun q => { q with entered := r.entered + 1, inflight := q.inflight ++ [t] }
        let s := s.modCore k fun c => enter (c.drainSlot h (r.aRec * r.strides.1) r.strides.1)
        let s := if r.twin then s.modCore (twinOf k) enter else s
        .next (if c.feedRows r.depth = [] then (upto t.size).foldl (fun s _ => s.digitEntered k) s else s)

/-- NODE_FEED: a feeder lane sends the next digit of its element of the row tag that is entering, none beyond its last; once every
row has, the digit has entered (09 R256, R263). -/
def execNodeFeed (k : CoreId) (site lane : Nat) (s : State) : Res :=
  let c := s.core k
  let row := 4 * (site - 256) + lane
  match c.array.run, c.entering with
  | some r, some t =>
    let rows := c.feedRows r.depth
    if site < 256 || 4 ≤ lane || r.right || !rows.contains row || t.fed.contains row then .next s
    else
      let fed := row :: t.fed
      let s := s.modCore k fun c => c.modTag fun t => { t with fed := fed }
      .next (if rows.all fun i => fed.contains i then s.digitEntered k else s)
  | _, _ => .next s

/-! ## What a cut spills (09 R273, R276) -/

/-- The 8 bytes of a slot's column in a spill area. -/
def sumRecord : Sum → Nat
  | .nan t => 2 ^ 63 + 2 ^ 61 + unsigned 13 (t.getD 0) * 2 ^ 48
  | .inf neg t => 2 ^ 63 + (if neg then 3 else 2) * 2 ^ 61 + unsigned 13 (t.getD 0) * 2 ^ 48
  | .finite m x (some t) => 2 ^ 63 + unsigned 13 t * 2 ^ 48 + unsigned 48 (windowCut (m, x) t).1
  | .finite _ _ none => 0

/-- The records of the first n slots. -/
def MArray.spillBytes (a : MArray) (n : Nat) : List Byte :=
  (upto (256 * n)).flatMap fun i => leBytes 8 (sumRecord ((look a.sums (i / 256, i % 256)).getD Sum.empty))

/-- The held sums go to C 0x60000 to 0x7FFFF, without the header (09 R273). -/
def Core.spillSums (c : Core) : Core := if c.array.sums = [] then c else c.putBuf .c 0x60000 (c.array.spillBytes 64)

/-! ## ROW_TAG_COMPLETION (09 R264, R268) -/

/-- The checksum of a row tag holds: for each digit index that entered before the first gating, the sum of the 256 columns' sums is
that of the checksum column, mod 2^16 (09 R268). -/
def RowTag.checksum (t : RowTag) (p : Plane) : Bool :=
  (upto (t.gates.foldl (fun n g => min n g.2) t.got)).all fun i =>
    let digit (k : Nat) : Int := nth (nth t.digits k []) i 0
    let cols := (p.words.map fun e => digit e.1.1 * e.2).sum
    let check := (upto t.digits.length).foldl (fun a k => a + digit k * (nth p.checks k 0 : Nat)) (0 : Int)
    (cols - check) % 65536 = 0

/-- A row tag that holds its checksum: its values go to the held sums and to C (09 R264). In a pass that releases some columns only,
the others' words of its record are 0 (log 99). The last one before the cut of a quota drain spills the held sums (14 R409). -/
def Core.completeTag (c : Core) (r : Run) (t : RowTag) (rest : List RowTag) (drained : Bool) : Core :=
  let p := c.plane (planeOf r.fields)
  let o := r.fields.operand.toNat
  let cfmt := bitsOf o 59 56
  let rel := c.releases r
  let held (n : Nat) : Sum := (look c.array.sums (t.m % 64, n)).getD Sum.empty
  let adds := (c.usedCols r.width).filter fun u => u.2.2 ≠ r.pass
  let sums := adds.foldl (fun a u => put a (t.m % 64, u.1) ((held u.1).add (columnValue r p t u.1))) c.array.sums
  let word (n : Nat) : Nat :=
    if rel.contains (n, 1) then sumWord cfmt (signed 8 (bitsOf o 23 16)) ((held n).exact.add (columnValue r p t n)) else 0
  let rec_ := (upto r.width).flatMap fun n => leBytes (fmtBits cfmt / 8) (word n)
  let pad := rec_ ++ List.replicate (r.strides.2 - rec_.length) 0
  let h := r.fields.hB.toNat
  let per := (c.handle h).bytes / r.strides.2
  let writes := rel.any fun u => u.2 = 1
  let c := { c with array := { c.array with sums := sums } }
  let c := if writes then c.fillSlot h (r.bRec * r.strides.2) pad else c
  let c := if writes && r.bRec + 1 = per then c.endFill h else c
  let bRec := if !writes then 0 else if r.bRec + 1 = per then 0 else r.bRec + 1
  let c := c.modRun fun r => { r with completed := r.completed + 1, inflight := rest, bRec := bRec }
  if rest = [] && drained then c.spillSums else c

/-- A row tag that does not hold its checksum leaves the array with none of its words written; its record in C is passed (09
R268). -/
def Core.dropTag (c : Core) (r : Run) (rest : List RowTag) : Core :=
  let h := r.fields.hB.toNat
  let per := (c.handle h).bytes / r.strides.2
  let writes := (c.releases r).any fun u => u.2 = 1
  let ends := r.bRec + 1 = per
  let c := if writes && ends then c.endFill h else c
  c.modRun fun r => { r with completed := r.completed + 1, inflight := rest, bRec := if !writes || ends then 0 else r.bRec + 1 }

/-- The checksum of the oldest row tag of a run does not hold: the array halts with reason 0x51 and counts a soft error (09 R268).
No command fails, and the row tags behind it complete before the cut (09 R272). -/
def State.checksumFault (s : State) (k : CoreId) (r : Run) : State :=
  if (s.core k).records.contains 9 then s
  else (s.arrayFault k 0x51 r.word).modCore k fun c => (c.dropTag r (r.inflight.drop 1)).countError 3

/-- ROW_TAG_COMPLETION: the oldest row tag that has taken its last digit is compared, and completes (09 R263, R264, R268). -/
def execRowTagCompletion (k : CoreId) (s : State) : Res :=
  let c := s.core k
  match c.array.run with
  | none => .next s
  | some r => match r.inflight with
    | [] => .next s
    | t :: rest =>
      if !t.full then .next s
      else if !t.checksum (c.plane (planeOf r.fields)) then .next (s.checksumFault k r)
      else .next (s.modCore k fun c => c.completeTag r t rest ((s.ctx (s.cxId k)).drained ≠ []))

/-! ## spill and rest (09 R276, R277) -/

/-- A sum from its record; none where the record breaks 09 R276. -/
def sumOfRecord (v : Nat) : Option Sum :=
  let s := signed 48 v
  let t := signed 13 (bitsOf v 60 48)
  if !bitOf v 63 then (if v = 0 then some Sum.empty else none)
  else if s = -(2 ^ 47) || (bitsOf v 62 61 ≠ 0 && s ≠ 0) then none
  else match bitsOf v 62 61 with
    | 0 => some (.finite s (t - 47) (some t))
    | 1 => some (.nan (some t))
    | 2 => some (.inf false (some t))
    | _ => some (.inf true (some t))

/-- No run or other spill before a command is at work. -/
def Core.arrayFree (c : Core) (id : Nat) : Bool := (c.earlierOps id).all fun d => !(0x19 ≤ d.1 && d.1 ≤ 0x1D && d.1 ≠ 0x1B)

/-- The first n slots from their records, where none breaks 09 R276. -/
def MArray.sumsFrom (a : MArray) (n : Nat) (bs : List Byte) : Option MArray :=
  let recs := (upto (256 * n)).map fun i => sumOfRecord (leNat ((bs.drop (8 * i)).take 8))
  if recs.any fun r => r.isNone then none
  else
    let new := recs.mapIdx fun i r => ((i / 256, i % 256), r.getD Sum.empty)
    some { a with sums := (a.sums.filter fun e => n ≤ e.1.1) ++ new.filter fun e => e.2 ≠ Sum.empty }

/-- SPILL: the held sums and the pass count to C; cflags[6] clears them. -/
def execSpill (c : Cmd) (s : State) : Res := s.withCmd 0x1C c fun e =>
  let n := c.cflags.toNat % 64 + 1
  let a := s.cur.array
  if !s.cur.arrayFree e.id then .next s
  else
    let bs := [BitVec.ofNat 8 a.passes, BitVec.ofNat 8 n] ++ List.replicate 62 0 ++ a.spillBytes n
    let t := s.modCore s.now fun k =>
      ({ k with array := if c.flag 6 then { a with sums := a.sums.filter fun e => n ≤ e.1.1, passes := 0 } else a } : Core).putBuf .c
        c.operand.toNat bs
    .next (t.cmdDone e.id (64 + 2048 * n))

/-- REST: held sums and the pass count from C; a record that breaks 09 R276 is reason 0x2A and changes nothing. -/
def execRest (c : Cmd) (s : State) : Res := s.withCmd 0x1D c fun e =>
  let n := c.cflags.toNat % 64 + 1
  if !s.cur.arrayFree e.id then .next s
  else
    let bs := s.cur.bufBytes .c c.operand.toNat (64 + 2048 * n)
    let passes := (nth bs 0 0).toNat
    match s.cur.array.sumsFrom n (bs.drop 64) with
    | none => .next (s.failCommand s.now e 0x2A none)
    | some a =>
      if 64 ≤ passes then .next (s.failCommand s.now e 0x2A none)
      else .next ((s.modCore s.now fun k => { k with array := { a with passes := passes } }).cmdDone e.id (64 + 2048 * n))

/-! ## Resume (09 R275) -/

/-- The array of a core takes up its work again after a halt: each loaded plane and the group table are read anew from their
references, where they can be, and the held sums that the cut spilled come back from C; the pass count stands. -/
def State.reloadArray (s : State) (x : Nat) (k : CoreId) : State := s.modCore k fun c =>
  let a := c.array
  let plane (p : Plane) : Plane := if p.stage = .loaded then (s.reloadPlane x p).getD p else p
  let a := s.reloadTable x { a with planes := a.planes.map plane }
  { c with array := if a.sums = [] then a else (a.sumsFrom 64 (c.bufBytes .c 0x60000 (2048 * 64))).getD a }

/-- What a save holds of the array: the held sums with the pass count, and the references of planes and table (13 R360, R372). -/
def MArray.saved (a : MArray) : MArray :=
  { a with
    planes := a.planes.map fun (p : Plane) => if p.stage = .loaded then { p with words := [], exps := [], checks := [] } else Plane.reset
    table := [], run := none, cut := none }

/-- The array of a core that a context returns to: planes and table come from their references; a plane that cannot be read is empty
(09 R252, 13 R372). -/
def State.restoreArray (s : State) (x : Nat) (a : MArray) : MArray :=
  s.reloadTable x { a with planes := a.planes.map fun (p : Plane) =>
    if p.stage = .loaded then (s.reloadPlane x p).getD Plane.reset else p }

end Sys2Proof.Machine
end

