-- ==== Sys2Proof/Machine/Configure.lean ====
section
/-!
DEFINITION. Configuration: the checks of 02 R49 with the rules they name, `cfg.ld` and `cfg.sw` (05 R169, R170), `barr` (05 R172)
and `bank` (05 R173).
-/
namespace Sys2Proof.Machine

/-! ## CRC-32C -/

/-- One bit of the reflected Castagnoli remainder. -/
def crcBit (c : Nat) : Nat := if c % 2 = 1 then (c / 2) ^^^ 0x82F63B78 else c / 2

/-- CRC-32C of bytes. -/
def crc32c (bs : List Byte) : Nat :=
  (bs.foldl (fun c b => (upto 8).foldl (fun c _ => crcBit c) (c ^^^ b.toNat)) 0xFFFFFFFF) ^^^ 0xFFFFFFFF

/-! ## Node words (02 R45, R49 code 7, and the chapter of each opcode) -/

/-- An opcode is assigned (02 R46). -/
def opcodeKnown (op : Nat) : Bool :=
  op ≤ 0x0E || (0x10 ≤ op && op ≤ 0x14) || (0x18 ≤ op && op ≤ 0x1C) || (0x20 ≤ op && op ≤ 0x25) || (0x28 ≤ op && op ≤ 0x2E) ||
    (0x30 ≤ op && op ≤ 0x33)

/-- An opcode may stand on a site (02 R45). -/
def siteAllows (site op : Nat) : Bool :=
  let routing := 0x28 ≤ op && op ≤ 0x2E
  if op = 0 then true
  else if site < 160 then routing || op ≤ 0x0E
  else if site < 192 then routing || (0x10 ≤ op && op ≤ 0x14)
  else if site < 216 then routing || (0x18 ≤ op && op ≤ 0x1B) || op = 0x30
  else if site < 232 then routing || op = 0x20 || op = 0x21 || op = 0x31
  else if site < 248 then routing || (0x22 ≤ op && op ≤ 0x25)
  else if site < 256 then op = 0x32 || op = 0x33
  else if site < 320 then op = 0x1C
  else op = 0x20

/-- How an opcode uses a direction mask: never, on exactly one direction, on some direction (more than one is a breach of 02
R48, code 8), or as code 8 allows. -/
inductive Mask where
  | zero | one | some | free
  deriving DecidableEq, Repr

/-- Directions of a mask. -/
def maskSize (m : BitVec 4) : Nat := ((upto 4).filter fun d => maskHas m d).length

/-- A direction mask obeys its use. -/
def Mask.holds (u : Mask) (m : BitVec 4) : Bool := match u with
  | .zero => m = 0
  | .one => maskSize m = 1
  | .some => m ≠ 0
  | .free => true

/-- The fields an opcode uses: required and optional inputs, whether pin, sense and var may be set, the masks, the parameter
bits, and its own limits. Masks that a rule leaves to code 8 are free here. -/
structure NodeRule where
  need : List Nat
  may : List Nat
  pin : Bool
  var : Bool
  main : Mask
  whey : Mask
  aux : Mask
  param : Nat
  limits : Bool

/-- The rule of a node word's opcode. Breaches to which no rule gives a code are under code 7 here: an empty omain of acc, skc and a
root ska, a join whose oaux does not match in2, and an index width above 48 of a cnt (log 56). -/
def nodeRule (site : Nat) (w : NodeWord) : NodeRule :=
  let p := w.param.toNat
  let arith (n : Nat) (mask : Nat) : NodeRule := ⟨upto n, [], true, false, .one, .zero, .zero, mask, true⟩
  let route (need may : List Nat) (var : Bool) (mask : Nat) (ok : Bool) : NodeRule :=
    ⟨need, may, false, var, .free, .free, .free, mask, ok⟩
  match w.op.toNat with
  | 0x04 => arith 3 0x3F
  | 0x09 => arith 1 0xFF3F
  | 0x10 => ⟨if w.var then [0] else [0, 1], [], true, true, .one, .zero, .free, 0xF, bitsOf p 2 0 < 6⟩
  | 0x11 => ⟨[0], [], true, false, .one, .zero, .free, 0x3F, true⟩
  | 0x12 => ⟨[0, 1], [], true, true, .one, .zero, .free, 0x3F, true⟩
  | 0x13 => ⟨[0], [], true, true, .one, .zero, .free, 0x7FFFFF, true⟩
  | 0x14 => ⟨[0, 1, 2], [], false, false, .one, .zero, .zero, 0, true⟩
  | 0x18 => ⟨[0], [], false, true, .one, .zero, .free, 0x3FFFF, bitsOf p 3 0 ≤ 9⟩
  | 0x19 => ⟨[0], [], false, false, .one, .free, .free, 0x3FFF,
      bitsOf p 3 0 ≤ 9 && bitsOf p 5 4 ≠ 3 && !(bitsOf p 5 4 = 2 && (FloatFmt.of (bitsOf p 3 0)).isNone)⟩
  | 0x1A => ⟨[0, 1], [], false, false, .one, .zero, .free, 0xF, bitsOf p 1 0 ≠ 3 && bitsOf p 3 2 ≠ 3⟩
  | 0x1B => ⟨[0], [], false, false, .one, .zero, .free, 0xFF,
      w.lanes = 0xF && 1 ≤ bitsOf p 3 0 && bitsOf p 3 0 ≤ 4 && ((FloatFmt.of (bitsOf p 3 0)).map fun f => f.prec).getD 99 ≤ bitsOf p 7 4 + 1⟩
  | 0x1C => ⟨[], [0, 1, 2], false, false, .free, .free, .free, 0xF, true⟩
  | 0x20 =>
    if 320 ≤ site then ⟨[], [0, 1, 2], false, false, .free, .free, .free, 0x3FFF, bitsOf p 5 0 < 48 && bitsOf p 13 12 ≠ 3⟩
    else ⟨[0], [], false, false, .some, .zero, .free, 0xFFF, bitsOf p 5 0 < 48⟩
  | 0x21 => ⟨[0, 1], [], false, false, .one, .free, .one, 0x3FFFF, bitsOf p 5 0 < 48⟩
  | 0x22 => route (if bitOf p 6 then [] else [0]) [1] false 0xFF (bitsOf p 5 0 ≤ 48)
  | 0x23 => ⟨[1], [0, 2], false, false, .free, .zero, .free, 0xFFFF, true⟩
  | 0x24 => ⟨[1], [0, 2], false, false, .free, .zero, .free, 0xFFFFFF, true⟩
  | 0x25 => ⟨[1], [0, 2], false, false, .free, .zero, .free, 0xFFFF, true⟩
  | 0x28 => route [0, 1] [] true 0 true
  | 0x29 => route (if w.var then [0, 1] else [0]) [] true 0 true
  | 0x2A => route [0] [] false 0 (!maskHas w.omain (selectOf w 0 - 1) || selectOf w 0 = 5)
  | 0x2B => route [0, 1] [2] false 0 ((selectOf w 2 = 0) = (w.oaux = 0))
  | 0x2C => route (if bitOf p 20 then [] else [0]) [] false 0x1FFFFF true
  | 0x2D => route [] [] false 0x1FFFF true
  | 0x2E => route [0] [] false 0x3F true
  | 0x30 => ⟨[0], [], false, false, .some, .zero, .zero, 0, true⟩
  | 0x31 => ⟨[], [], false, false, if bitOf p 0 then .some else .zero, .zero, .zero, 1, true⟩
  | 0x32 => ⟨[], [], false, false, .zero, .zero, .zero, 0x3F, true⟩
  | 0x33 => ⟨[0], [], false, false, .zero, .zero, .zero, 0x3F, true⟩
  | op => arith (if op = 0x06 || op = 0x07 || op = 0x08 || op = 0x0C || op = 0x0D || op = 0x0E then 1 else 2) 0x3F

/-- A node word obeys its opcode's rule (02 R49 code 7). -/
def nodeHolds (site : Nat) (w : NodeWord) (word : Nat) : Bool :=
  if w.op = 0 then word = 0
  else
    let r := nodeRule site w
    let pinned : Option Nat := if w.pin = 0 then none else some (w.pin.toNat - 1)
    let used (i : Nat) : Bool := r.need.contains i || r.may.contains i || (r.pin && pinned = some i)
    (upto 3).all (fun i => selectOf w i ≤ 5 && (!r.need.contains i || selectOf w i ≠ 0) && (used i || selectOf w i = 0)) &&
      (match pinned with
      | some i => r.pin && selectOf w i ≠ 0
      | none => r.pin || !w.sense) &&
      (r.var || !w.var) && r.main.holds w.omain && r.whey.holds w.owhey && r.aux.holds w.oaux &&
      w.param.toNat &&& r.param = w.param.toNat && r.limits

/-! ## Links (02 R48, 07 R213, 09 R251: code 8) -/

/-- Opcodes whose second output has a meaning. -/
def hasWhey (op : Nat) : Bool := [0x19, 0x21, 0x22, 0x2B].contains op

/-- Opcodes whose third output has a meaning. -/
def hasAux (op : Nat) : Bool :=
  [0x10, 0x11, 0x12, 0x13, 0x18, 0x19, 0x1A, 0x1B, 0x20, 0x21, 0x22, 0x23, 0x24, 0x25, 0x29, 0x2B].contains op

/-- Outputs of a node that drive a side. -/
def outputsToward (w : NodeWord) (d : Nat) : Nat := bit (maskHas w.omain d) + bit (maskHas w.owhey d) + bit (maskHas w.oaux d)

/-- A node drives no more than its opcode allows (02 R48). -/
def outputsHold (w : NodeWord) : Bool :=
  let op := w.op.toNat
  (op = 0x2A || maskSize w.omain ≤ 1) && maskSize w.owhey ≤ 1 && maskSize w.oaux ≤ 1 && (hasWhey op || w.owhey = 0) && (hasAux op || w.oaux = 0)

/-- Routes of a kind at a site with a side in a field. -/
def Image.count (i : Image) (kind site : Nat) (side : Nat) (field : Nat → Nat) : Nat :=
  (i.routes.filter fun r => routeKind r = kind && routeSite r = site && field r = side).length

/-- Inputs of a node that select a link. -/
def inputsFrom (w : NodeWord) (sel : Nat) : Nat := ((upto 3).filter fun n => selectOf w n = sel).length

/-- Accumulators that release to a group's tap. -/
def Image.taps (i : Image) (t : Nat) : Nat :=
  ((upto 4).filter fun n => (i.node (320 + 4 * t + n)).op.toNat = 0x20 && bitsOf (i.node (320 + 4 * t + n)).param.toNat 13 12 = 2).length

/-- The link that enters a site from a side, and the one that leaves the grid there: one producer and one consumer, or neither. -/
def Image.linkHolds (i : Image) (site d : Nat) : Bool :=
  let w := i.node site
  let consumers := inputsFrom w (d + 1) + i.count 3 site d routeSide
  let ports := i.count 1 site d routeSide
  let leaving := outputsToward w d + i.count 3 site d routeExit
  let ok (p c : Nat) : Bool := (p = 0 && c = 0) || (p = 1 && c = 1)
  match neighbour site d with
  | some nb =>
    let o := opposite d
    ok (outputsToward (i.node nb) o + i.count 3 nb o routeExit + ports) (consumers + i.count 2 nb o routeSide)
  | none =>
    let tap := if 240 ≤ site && d = 2 then i.taps (site - 240) else 0
    ok (ports + tap) consumers && ok leaving (i.count 2 site d routeSide)

/-- A source sends words. -/
def Image.sendsWords (i : Image) : Source → Bool
  | .port _ => true
  | .node s x => wordOutput (i.node s) x && ((i.node s).op.toNat ≠ 0x31 || bitOf (i.node s).param.toNat 0)
  | .none => false

/-- What drives the stream that a site drives toward a side. -/
def Image.leavingDriver (i : Image) (site d : Nat) : Source :=
  match i.routes.find? fun r => routeKind r = 3 && routeSite r = site && routeExit r = d with
  | some r => i.driver 1024 site (routeSide r)
  | none => match outputToward (i.node site) d with
    | some x => .node site x
    | none => .none

/-- A source is the main output of a root ska, which runs to an output port and nowhere else (07 R231). -/
def Image.skimRoot (i : Image) : Source → Bool
  | .node s 0 => (i.node s).op.toNat = 0x31 && bitOf (i.node s).param.toNat 0
  | _ => false

/-- Word links go from and to where they may, and nowhere else (07 R213, R231). -/
def Image.wordsHold (i : Image) : Bool :=
  (upto 256).all (fun site =>
    let w := i.node site
    (upto 3).all fun n =>
      let sel := selectOf w n
      let from_ := if sel = 5 then .node site 0 else i.driver 1024 site (sel - 1)
      sel = 0 || (i.sendsWords from_ = wordInput w.op.toNat n && !i.skimRoot from_)) &&
    i.routes.all fun r => routeKind r ≠ 2 || i.sendsWords (i.leavingDriver (routeSite r) (routeSide r))

/-- Code 8 finds nothing. -/
def Image.linksHold (i : Image) : Bool :=
  (i.nodes.all fun e => if e.1 < 256 then outputsHold e.2 else
    selectOf e.2 0 = 0 && selectOf e.2 1 = 0 && selectOf e.2 2 = 0 && e.2.omain = 0 && e.2.owhey = 0 && e.2.oaux = 0) &&
    (upto 256).all (fun site => (upto 4).all fun d => i.linkHolds site d) && (upto 16).all (fun t => i.taps t ≤ 1) && i.wordsHold

/-! ## Routes (02 R47, 05 R159, 07 R229: code 9) -/

/-- A route word's kind and reserved fields. -/
def routeWordHolds (r : Nat) : Bool :=
  routeSite r < 256 && match routeKind r with
    | 1 => bitsOf r 43 0 = 0
    | 2 => bitsOf r 43 0 = 0
    | 3 => routePort r = 0 && bitsOf r 40 0 = 0 && routeSide r ≠ routeExit r
    | 4 => routePort r = 0 && bitsOf r 43 0 = 0
    | _ => false

/-- Following skim lines from a site never comes back: the number of steps bounds the sites. -/
def Image.skimEnds (i : Image) : Nat → Nat → Bool
  | 0, _ => false
  | n + 1, site => match i.routes.find? fun r => routeKind r = 4 && routeSite r = site with
    | none => true
    | some r => match i.skimEnd 16 site (routeSide r) with
      | none => false
      | some (e, _) => i.skimEnds n e

/-- The skim routes hold (07 R229). -/
def Image.skimHolds (i : Image) : Bool :=
  let from4 (site : Nat) : Bool := i.routes.any fun r => routeKind r = 4 && routeSite r = site
  let root (w : NodeWord) : Bool := w.op.toNat = 0x31 && bitOf w.param.toNat 0
  (i.routes.all fun r => routeKind r ≠ 4 ||
    (skimNode (i.node (routeSite r)) && !root (i.node (routeSite r)) && i.skimEnds 257 (routeSite r) &&
      match i.skimEnd 16 (routeSite r) (routeSide r) with
      | none => false
      | some (e, _) => from4 e || root (i.node e))) &&
    i.nodes.all fun e => e.2.op.toNat ≠ 0x31 || root e.2 || from4 e.1

/-- Code 9 finds nothing. -/
def Image.routesHold (i : Image) : Bool :=
  let keyed (k : Nat) : List Nat := i.routes.filter fun r => routeKind r = k
  let nodup (l : List Nat) : Bool := l.eraseDups.length = l.length
  i.routes.all routeWordHolds && nodup ((keyed 3).map fun r => routeSite r * 2 + bitsOf r 41 41) && i.skimHolds &&
    nodup ((keyed 1).map routePort) && nodup ((keyed 2).map routePort) &&
    nodup ((i.nodes.filter fun e => e.2.op.toNat = 0x32 || e.2.op.toNat = 0x33).map fun e => e.2.param.toNat % 64)

/-! ## Counters and programs (02 R47, 05 R160: code 10) -/

/-- Program words after a header, split into programs; none where lengths or fields break. -/
def splitPrograms : Nat → List Nat → Option (List (Nat × List Nat))
  | _, [] => some []
  | 0, _ => none
  | fuel + 1, h :: r =>
    let n := bitsOf h 54 48
    let site := bitsOf h 63 55
    let ws := r.take n
    let shape := 2 ≤ n && n ≤ 5 && (ws.take (n - 1)).all (fun w => bitsOf w 63 62 = 1) &&
      (ws.getLast?.map fun w => bitsOf w 63 62 = 2 && bitsOf w 49 0 = 0).getD false
    if r.length < n || site < 248 || 256 ≤ site || bitsOf h 47 0 ≠ 0 || !shape then none
    else (splitPrograms fuel (r.drop n)).map fun p => (site, ws) :: p

/-! ## cfg.ld (02 R49, 05 R169) -/

/-- The image of bytes, or the code of the first check that fails. -/
def Image.check (bs : List Byte) (l : Loc) (va : Word) : Except Nat Image :=
  let f (o n : Nat) : Nat := leNat ((bs.drop o).take n)
  let len := f 6 2
  let routes := f 8 2
  let counters := f 10 2
  let ag := f 12 2
  let words (o n : Nat) : List Nat := (upto n).map fun j => f (o + 8 * j) 8
  let nodeWords := words 0x40 384
  let nodes := (nodeWords.mapIdx fun i w => (i, decodeNode w)).filter fun e => e.2 ≠ decodeNode 0
  let rs := words 0xC40 routes
  let cs := words (0xC40 + 8 * routes) counters
  let ps := splitPrograms ag (words (0xC40 + 8 * routes + 8 * counters) ag)
  let bound (k : Nat) : Nat := ((rs.filter fun r => routeKind r = k).map routePort).foldl (fun m p => m ||| 2 ^ p) 0
  let i : Image := ⟨l, va, len, nodes, rs, cs.map fun c => (bitsOf c 63 55, bitsOf c 47 0), ps.getD [], f 0x10 4, f 0x14 4⟩
  if f 0 4 ≠ 0x4B57D21E || f 4 2 ≠ 1 then .error 1
  else if len % 8 ≠ 0 || 0x4000 < len || len ≠ 0xC40 + 8 * (routes + counters + ag) then .error 2
  else if crc32c ((bs.take len).drop 0x40) ≠ f 0x18 4 then .error 3
  else if f 0x0E 2 ≠ 0 || f 0x1C 36 ≠ 0 || i.ipmask ≠ bound 1 || i.opmask ≠ bound 2 then .error 4
  else if !nodes.all (fun e => opcodeKnown e.2.op.toNat) then .error 5
  else if !nodes.all (fun e => siteAllows e.1 e.2.op.toNat) then .error 6
  else if !nodes.all (fun e => nodeHolds e.1 e.2 (nth nodeWords e.1 0)) then .error 7
  else if !i.linksHold then .error 8
  else if !i.routesHold then .error 9
  else if ps.isNone || !cs.all (fun c => bitsOf c 54 48 = 0 && 232 ≤ bitsOf c 63 55 && bitsOf c 63 55 < 248) then .error 10
  else .ok i

/-- CFG_LD: the image at the operand is checked and replaces the target's contents; a failing one is refused whole. All its bytes
are read before the first check, so a failed read of its tail is reason 0x21 (log 105). -/
def execCfgLd (c : Cmd) (s : State) : Res := s.withCmd 0x10 c fun e =>
  let va := c.operand.toNat
  s.tryCmd e 0 (s.engineRead s.x va 64) fun head =>
    let len := leNat ((head.drop 6).take 2)
    let n := if len ≤ 0x4000 then max len 64 else 64
    s.tryCmd e 0 (s.engineRead s.x va n) fun bs =>
      let s := s.touchRange s.x va n
      let l : Loc := match s.engineTranslate s.x va .load with
        | .ok l => l
        | _ => ⟨false, 0⟩
      match Image.check bs l c.operand with
      | .error r => .next (s.failCommand s.now e r none)
      | .ok i => .next ((s.modCore s.now fun k => { k with images := put k.images (c.cflags.toNat % 8) i }).cmdDone e.id len)

/-! ## cfg.sw (05 R170), barr (05 R172) -/

/-- Banks of C that a hash binding holds return zeroed, with empty granules, to an owner (10 R295). -/
def Core.freeBanks (c : Core) (first n : Nat) (owner : Option Nat) : Core :=
  (upto n).foldl (fun c i =>
    let b := first + i
    let c := (c.putBuf .c (b * 4096) (List.replicate 4096 0)).setFullRange .c (b * 4096) 4096 false
    { c with ownC := match owner with
      | some o => put c.ownC b o
      | none => unput c.ownC b }) c

/-- Every hash binding is released and its banks are open. -/
def Core.freeHashes (c : Core) : Core :=
  let c := c.fabric.hashes.foldl (fun c h => c.freeBanks h.2.2.1 h.2.2.2 none) c
  { c with fabric := { c.fabric with hashes := [] } }

/-- The generators of an image latch at an epoch (05 R156). -/
def Image.latchesAt (i : Image) (epoch : Nat) : List (Nat × Nat) :=
  (i.nodes.filter fun e => e.2.op.toNat = 0x32 || e.2.op.toNat = 0x33).map fun e => (e.1, epoch)

/-- The array with planes and table empty and no held sums (09 R252, R266, R275). -/
def MArray.cleared (a : MArray) : MArray := { MArray.reset with run := a.run }

/-- A configuration context becomes the core's current one: node state, bindings, planes, table and held sums go, the
generators latch, and selection turns to its entries (05 R170, 09 R275, 04 R114). -/
def Core.switchTo (c : Core) (t epoch : Nat) : Core :=
  let c := c.freeHashes
  let latches := ((look c.images t).map fun i => i.latchesAt epoch).getD []
  { c with cx := t, fabric := { Fabric.reset with latches := latches }, array := c.array.cleared, eligible := [] }

/-- Every earlier command of the core's queue has completed (05 R170, R172). -/
def Core.firstCmd (c : Core) (id : Nat) : Bool := (c.cmds.head?.map fun e => e.id) = some id

/-- CFG_SW: once it may, the switch; no token of an atlas change has anything to wait for on the core then (05 R157). A target that
has lost its image is reason 0x1A. -/
def execCfgSw (c : Cmd) (s : State) : Res := s.withCmd 0x11 c fun e =>
  let t := c.cflags.toNat % 8
  let old := (s.ctx s.x).firings.any fun f => f.2.k = s.now && f.2.cx = s.cur.cx && !f.2.ended && f.2.cause.isNone
  if !s.cur.firstCmd e.id || old || !s.cur.fabricEmpty then .next s
  else if (look s.cur.images t).isNone then .next (s.failCommand s.now e 0x1A none)
  else
    let s := s.modCtx s.x fun x => { x with changes := x.changes.map fun r => { r with tokens := r.tokens.filter fun k => k.1 ≠ s.now } }
    .next ((s.modCore s.now fun k => k.switchTo t (s.ctx s.x).epoch).cmdDone e.id 1)

/-- BARR: earlier commands have completed and the fabric is empty. -/
def execBarr (c : Cmd) (s : State) : Res := s.withCmd 0x14 c fun e =>
  if s.cur.firstCmd e.id && s.cur.fabricEmpty then .next (s.cmdDone e.id 1) else .next s

/-! ## bank (05 R173) -/

/-- Bytes of A that an `fopen` reaches (10 R287): its indices, and the elements that they name where it streams from A, as far as
they stand in full granules. -/
def Core.openRanges (k : Core) (v : Nat) : List (Buf × Nat × Nat) :=
  let ibase := bitsOf v 111 93
  let n := bitsOf v 92 77 + 1
  let fmt := bitsOf v 76 73
  let vbase := bitsOf v 72 54
  let run := bitsOf v 53 42 + 1
  (.a, ibase, 4 * n) ::
    if bitsOf v 127 112 ≠ 0 then []
    else (upto n).filterMap fun i =>
      let a := ibase + 4 * i
      let x := leNat (k.bufBytes .a a 4)
      if !k.full .a (a / 16) then some (.a, vbase, 0x80000 - vbase)
      else if 2 ^ 31 ≤ x then none
      else some (.a, vbase + x * run * fmtBits fmt / 8, ceilDiv (run * fmtBits fmt) 8 + 1)

/-- Bytes of A that an `isect` reaches (10 R290): the arrays of its descriptor; all of A until it has read that. -/
def Core.isectRanges (k : Core) (e : CmdEntry) : List (Buf × Nat × Nat) :=
  if e.attached < 2 ^ 512 then [(.a, 0, 0x80000)]
  else
    let f (o : Nat) : Nat := bitsOf e.attached (8 * o + 31) (8 * o)
    let word (a : Nat) : Nat := leNat (k.bufBytes .a a 4)
    let rows := f 0
    let right := if bitOf e.attached 320 then 1 else rows
    let cap := f 0x24
    [(.a, f 0x04, 4 * (rows + 1)), (.a, f 0x08, 4 * word (f 0x04 + 4 * rows)), (.a, f 0x0C, 4 * (right + 1)),
      (.a, f 0x10, 4 * word (f 0x0C + 4 * right)), (.a, f 0x14, 4 * (rows + 1)), (.a, f 0x18, 4 * cap), (.a, f 0x1C, 4 * cap), (.a, f 0x20, 4 * cap)]

/-- Bytes of A or C that a command reaches besides its handles' slots: buffer, first byte, bytes. -/
def Core.ownRanges (k : Core) (e : CmdEntry) : List (Buf × Nat × Nat) :=
  let c := cmdOf e.word
  let o := c.operand.toNat
  let area := 64 + 2048 * (c.cflags.toNat % 64 + 1)
  match opOf e.word with
  | 0x0B => [((Buf.of (bitsOf o 31 30)).getD .a, o % 2 ^ 20, (bitsOf o 29 20 + 1) * 64)]
  | 0x1C => [(.c, o % 2 ^ 19, area)]
  | 0x1D => [(.c, o % 2 ^ 19, area)]
  | 0x20 => k.openRanges e.attached
  | 0x22 => k.isectRanges e
  | 0x23 => [(.a, o % 2 ^ 19, 4 * (bitsOf o 63 48 + 2)), (.a, bitsOf o 37 19, 4 * (bitsOf o 47 40 + 2))]
  | 0x24 => [(.c, bitsOf o 22 16 * 4096, (bitsOf o 14 8 + 1) * 4096)]
  | 0x28 => [(if bitOf o 53 then .c else .a, bitsOf o 52 40 * 64, (bitsOf o 63 54 + 1) * 64)]
  | 0x29 =>
    let n := (bitsOf o 57 48 + 1) * 64
    let all := if bitsOf o 63 61 = 3 then n * 2 ^ (bitsOf o 10 8 + bitsOf o 7 5) else n
    [(acBuf (bitOf o 47), bitsOf o 46 34 * 64, n), (acBuf (bitOf o 47), bitsOf o 33 21 * 64, all)]
  | 0x15 => [((Buf.of (bitsOf o 31 30)).getD .a, bitsOf o 22 16 * 4096, (bitsOf o 14 8 + 1) * 4096)]
  | _ => []

/-- A command reaches bytes of a buffer. -/
def Core.reaches (c : Core) (e : CmdEntry) (b : Buf) (a n : Nat) : Bool :=
  ((c.ownRanges e).any fun r => r.1 = b && overlap r.2.1 r.2.2 a n) ||
    (c.roles e).any fun r =>
      let h := c.handle r.1
      h.v && h.buffer = b && overlap (h.base * 64) (h.count * h.bytes) a n

/-- BANK: the banks have a new owner once every earlier command that reaches them has completed. -/
def execBank (c : Cmd) (s : State) : Res := s.withCmd 0x15 c fun e =>
  let o := c.operand.toNat
  let b := (Buf.of (bitsOf o 31 30)).getD .a
  let first := bitsOf o 22 16
  let n := bitsOf o 14 8 + 1
  let own := o % 16
  let before := s.cur.cmds.takeWhile fun d => d.id ≠ e.id
  if before.any fun d => s.cur.reaches d b (first * 4096) (n * 4096) then .next s
  else
    let set (l : List (Nat × Nat)) : List (Nat × Nat) :=
      (upto n).foldl (fun l i => if own = 0xF then unput l (first + i) else put l (first + i) own) l
    .next ((s.modCore s.now fun k => match b with
      | .c => { k with ownC := set k.ownC }
      | _ => { k with ownA := set k.ownA }).cmdDone e.id 1)

end Sys2Proof.Machine
end

