-- ==== Sys2Proof/Machine/Rings.lean ====
section
/-!
DEFINITION. The core rings: folded rings and routes (12 R321 to R323, R330), channels and free slots (12 R326 to R328), flits (12
R324), delivery, and messages with their grants (12 R331).
-/
namespace Sys2Proof.Machine

/-! ## Folded rings (12 R322) -/

/-- The stop of a position of a segment of w cores. -/
def stopOf (w p : Nat) : Nat := if p % 2 = 0 then p / 2 else w - 1 - (p - 1) / 2

/-- The position of a stop. -/
def posOf (w s : Nat) : Nat := if 2 * s < w then 2 * s else 2 * (w - 1 - s) + 1

/-- The stop after a stop, clockwise or not. -/
def nextStop (w s : Nat) (cw : Bool) : Nat := if cw then (s + 1) % w else (s + w - 1) % w

/-- Hops from a stop to another, clockwise. -/
def hopsCw (w s t : Nat) : Nat := (t + w - s) % w

/-- The direction of a leg: the packet's, else the one with fewer hops, clockwise on a tie (12 R330). -/
def goesCw (dir w s t : Nat) : Bool := dir = 1 || (dir ≠ 2 && hopsCw w s t ≤ w - hopsCw w s t)

/-- The core at a position of a ring's line. -/
def ringCore (l : RingLink) (pos : Nat) : CoreId := if l.meridian then pos * 32 + l.line else l.line * 32 + pos

/-- The link that a packet takes next from a core; none at its destination (12 R330). -/
def Packet.next (p : Packet) (k : CoreId) : Option RingLink :=
  let link (meridian : Bool) (line lo w me last : Nat) : RingLink :=
    let s := stopOf w (me - lo)
    let cw := goesCw p.dir w s (stopOf w (last - lo))
    ⟨meridian, cw, line, me, lo + posOf w (nextStop w s cw)⟩
  if k % 32 ≠ p.dst % 32 then some (link false (k / 32) p.seg.x p.seg.w (k % 32) (p.dst % 32))
  else if k / 32 ≠ p.dst / 32 then some (link true (k % 32) p.seg.y p.seg.h (k / 32) (p.dst / 32))
  else none

/-- A link is the dateline of a packet's ring: from the last stop to stop 0 clockwise, or the other way (12 R327). -/
def Packet.dateline (p : Packet) (l : RingLink) : Bool :=
  let lo := if l.meridian then p.seg.y else p.seg.x
  let w := if l.meridian then p.seg.h else p.seg.w
  let s := stopOf w (l.src - lo)
  if l.clockwise then s + 1 = w else s = 0

/-! ## Stop inputs (12 R326) -/

/-- An input that nothing has reached. -/
def StopInput.blank : StopInput := ⟨[], 8, 8, 0, 0, 0⟩

/-- The input at the end of a link. -/
def Core.stopIn (c : Core) (l : RingLink) : StopInput := (look c.stops l).getD StopInput.blank

/-- Change the input at the end of a link. -/
def State.modStop (s : State) (l : RingLink) (f : StopInput → StopInput) : State :=
  s.modCore (ringCore l l.dst) fun c => { c with stops := put c.stops l (f (c.stopIn l)) }

/-- The input at the end of a link. -/
def State.stopIn (s : State) (l : RingLink) : StopInput := (s.core (ringCore l l.dst)).stopIn l

/-- Slots of a channel to be returned. -/
def StopInput.owe (i : StopInput) (escape : Bool) (n : Nat) : StopInput :=
  if escape then { i with escapeOwed := i.escapeOwed + n } else { i with poolOwed := i.poolOwed + n }

/-- SLOT_RETURN: a slot of a channel returns to the sending stop's count (12 R326). The time of the return, 2 + θ N-cycles after the
flit left, is not modelled. -/
def execSlotReturn (l : RingLink) (escape : Bool) (s : State) : Res :=
  let i := s.stopIn l
  if escape then
    if i.escapeOwed = 0 then .next s
    else .next (s.modStop l fun i => { i with escapeOwed := i.escapeOwed - 1, escapeFree := i.escapeFree + 1 })
  else if i.poolOwed = 0 then .next s
  else .next (s.modStop l fun i => { i with poolOwed := i.poolOwed - 1, poolFree := i.poolFree + 1 })

/-! ## What a core injects -/

/-- The rectangle of a core's partition. -/
def State.partRect (s : State) (k : CoreId) : Rect := ((s.partOf k).map fun p => p.rect).getD ⟨k % 32, k / 32, 1, 1⟩

/-- A control packet of one flit. -/
def controlPacket (src dst : CoreId) (seg : Rect) (chan n cmd note : Nat) : Packet :=
  ⟨.control, 1, src, dst, 0, seg, chan, n, [], cmd, note⟩

/-- Words as bytes. -/
def wordBytes (ws : List Word) : List Byte := ws.flatMap fun w => leBytes 8 w.toNat

/-- The packet of a message (12 R325). -/
def messagePacket (m : Message) (src dst : CoreId) (seg : Rect) (note : Nat) : Packet :=
  ⟨.message, ceilDiv (8 * m.words.length) 64, src, dst, 0, seg, m.chan, if note = 4 then m.package * 1024 + m.dst else 0, wordBytes m.words, 0, note⟩

/-- The request for room of a message that has not asked (12 R331). -/
def State.request (s : State) (k : CoreId) (m : Message) : Packet :=
  controlPacket k m.dst (s.partRect k) m.chan m.words.length 0 1

/-- Packets that a core has to inject: those that wait and requests for room. -/
def State.injectable (s : State) (k : CoreId) : List Packet :=
  let c := s.core k
  c.inject ++ (c.outbound.filter fun m => !m.asked && m.dst ≠ k).map fun m => s.request k m

/-- A packet has been injected whole: a waiting one leaves the list, and a request marks its message. -/
def State.injected (s : State) (k : CoreId) (p : Packet) : State :=
  s.modCore k fun c =>
    if c.inject.contains p then { c with inject := c.inject.erase p }
    else
      let rec mark : List Message → List Message
        | [] => []
        | m :: r => if !m.asked && s.request k m = p then { m with asked := true } :: r else m :: mark r
      { c with outbound := mark c.outbound }

/-- The command of a packet has E set (14 R413). -/
def State.tagged (s : State) (p : Packet) : Bool := match p.cls with
  | .bulk => match (s.core p.src).cmdEntry p.cmd with
    | some e => (cmdOf e.word).e
    | none => false
  | .collective => p.note = 1
  | _ => false

/-- The collective of a packet: log2 width, log2 height and number (12 R342). -/
def Packet.coll (p : Packet) : Nat × Nat × Nat := (p.chan / 8 % 8, p.chan % 8, p.chan / 64)

/-- The first core of a die within a rectangle that has some there: messages meet the die's port there (12 R335; log 91). -/
def portCore (d : Nat) (r : Rect) : CoreId := max (d / 8 * 8) r.y * 32 + max (d % 8 * 4) r.x

/-! ## PACKET_ARBITRATION (12 R326 to R328, R333) -/

/-- A packet that may start on an output: the input it waits in (none: its own core), its transit, and its kind of 12 R328. -/
structure Starter where
  from_ : Option RingLink
  pkt : Packet
  vc1 : Bool
  kind : Nat
  serial : Nat

/-- Packets in the inputs of a core's stops that go on by a link. -/
def Core.passing (c : Core) (k : CoreId) (l : RingLink) : List Starter :=
  c.stops.flatMap fun e => (e.2.held.filter fun t =>
    0 < t.arrived && !t.started && t.pkt.next k = some l).map fun t =>
      let turns := e.1.meridian ≠ l.meridian
      ⟨some e.1, t.pkt, !turns && t.vc1, if t.escape then 1 else if turns then 4 else if t.vc1 then 2 else 3, t.serial⟩

/-- The packet that the stop takes among those that have their reservation: by kind, then the oldest head; after four of kinds 1 to
4 one of its own core. -/
def pickStarter (l : List Starter) (streak : Nat) : Option Starter :=
  let better (a b : Starter) : Bool := a.kind < b.kind || (a.kind = b.kind && a.serial < b.serial)
  let best (l : List Starter) : Option Starter := l.foldl (fun b x => match b with
    | none => some x
    | some y => if better x y then some x else b) none
  match (if 4 ≤ streak then l.find? fun x => x.kind = 5 else none) with
  | some x => some x
  | none => best l

/-- PACKET_ARBITRATION: the stop at the beginning of a link starts its next packet there once its room downstream is reserved: in
the pool, or else in the escape channel (12 R326, R328). A halted partition's stops inject nothing (12 R333). -/
def execPacketArbitration (l : RingLink) (s : State) : Res :=
  let k := ringCore l l.src
  let i := s.stopIn l
  if i.held.any fun t => t.arrived < t.pkt.flits then .next s
  else
    let own : List Starter := if s.halted k then [] else
      ((s.injectable k).filter fun p => p.next k = some l).mapIdx fun n p => ⟨none, p, false, 5, n⟩
    let fits (p : Packet) : Bool := p.flits ≤ i.poolFree || p.flits ≤ i.escapeFree
    match pickStarter (((s.core k).passing k l ++ own).filter fun x => fits x.pkt) i.streak with
    | none => .next s
    | some x =>
      let n := x.pkt.flits
      let escape := i.poolFree < n
      let t : Transit := ⟨x.pkt, escape, x.vc1 || x.pkt.dateline l, 0, 0, false, x.from_, 0⟩
      let s := s.modStop l fun i => { i with
        held := i.held ++ [t]
        poolFree := if escape then i.poolFree else i.poolFree - n
        escapeFree := if escape then i.escapeFree - n else i.escapeFree
        streak := if x.kind = 5 then 0 else i.streak + 1 }
      let s := if escape then s.modCore k fun c => c.event 0x10 1 (s.tagged x.pkt) else s
      .next (match x.from_ with
        | none => s.injected k x.pkt
        | some u => s.modStop u fun i => { i with held := i.held.map fun t =>
            if t.pkt = x.pkt && t.serial = x.serial then { t with started := true } else t })

/-! ## Delivery -/

/-- The buffer and first byte of a flit of a bulk packet at its destination. -/
def Packet.row (p : Packet) (n : Nat) : Buf × Nat := (if p.chan = 1 then .c else .a, p.addr + 64 * n)

/-- A flit may leave its destination stop: a row of a bulk piece waits while its bank is owned by another configuration context
(12 R338). -/
def Core.takesFlit (c : Core) (p : Packet) (n : Nat) : Bool :=
  p.cls ≠ .bulk || c.bankOpen (p.row n).1 (p.row n).2 c.cx

/-- A row reaches its buffer, and its granules are set full. -/
def Core.putRow (c : Core) (p : Packet) (n : Nat) : Core :=
  let r := p.row n
  let bs := (p.bytes.drop (64 * n)).take 64
  (c.putBuf r.1 r.2 bs).setFullRange r.1 r.2 64 true

/-- A packet waits to be injected. -/
def State.toInject (s : State) (k : CoreId) (p : Packet) : State := s.modCore k fun c => { c with inject := c.inject ++ [p] }

/-- A flit of a contribution has arrived, unless its sender's command has been reissued since it was sent (12 R343). -/
def State.collArrives (s : State) (k : CoreId) (p : Packet) : State :=
  if ((look (s.core p.src).collParts p.coll).map fun c => c.1) ≠ some p.cmd then s
  else s.modCore k fun c => { c with collIn := put c.collIn (p.coll, p.src) ((look c.collIn (p.coll, p.src)).getD 0 + 64) }

/-- Flit n of a packet arrives at its destination core: a row is written, with the acknowledgement once the whole range is, an
acknowledgement completes its command, and a contribution is counted. Messages and grants wait for their own events. -/
def State.landFlit (s : State) (k : CoreId) (p : Packet) (n : Nat) : State := match p.cls with
  | .bulk =>
    let s := s.modCore k fun c => c.putRow p n
    let s := s.modCore p.src fun c => c.modCmd p.cmd fun e => { e with count := e.count + 64 }
    match (s.core p.src).cmdEntry p.cmd with
    | some e =>
      if e.count = (bitsOf (cmdOf e.word).operand.toNat 63 54 + 1) * 64 then s.toInject k (controlPacket k p.src p.seg 0 0 p.cmd 3) else s
    | none => s
  | .control =>
    if p.note = 3 then s.modCore k fun c => c.modCmd p.cmd fun e => { e with stage := .performed } else s
  | .collective => s.collArrives k p
  | .message => s

/-- The oldest packet at its destination stop whose next flit may leave, with that flit's number. -/
def State.leaving (s : State) (k : CoreId) (l : RingLink) : Option Transit :=
  (s.stopIn l).held.find? fun t => (t.pkt.next k).isNone && t.gone < t.arrived && (s.core k).takesFlit t.pkt t.gone

/-- Change the first transit of an input that is a given one. -/
def StopInput.modTransit (i : StopInput) (t : Transit) (f : Transit → Transit) : StopInput :=
  let rec go : List Transit → List Transit
    | [] => []
    | x :: r => if x = t then f x :: r else x :: go r
  { i with held := go i.held }

/-- One flit leaves a destination stop through its ejection port (12 R328). A packet of messages or grants stays until its event
takes it; others leave with their last flit. -/
def State.eject (s : State) (l : RingLink) : State :=
  let k := ringCore l l.dst
  match s.leaving k l with
  | none => s
  | some t =>
    let done := t.gone + 1 = t.pkt.flits
    let stays := t.pkt.cls = .message || (t.pkt.cls = .control && t.pkt.note ≠ 3)
    let s := s.modStop l fun i => (i.modTransit t fun t => { t with gone := t.gone + 1 }).owe t.escape 1
    let s := if done && !stays then
      s.modStop l fun i => { i with held := i.held.erase { t with gone := t.gone + 1 } } else s
    s.landFlit k t.pkt t.gone

/-! ## FLIT_HOP (12 R324, R332) -/

/-- The bytes of a ring stop's record for a packet: the command that it belongs to, its place, and its source core (12 R332, 13
R352; log 91). -/
def State.packetBody (s : State) (p : Packet) : List Byte :=
  let w := if p.cls = .bulk || p.cls = .collective then ((s.core p.src).cmdEntry p.cmd).elim 0 fun e => e.word.toNat else 0
  leBytes 16 w ++ leBytes 4 0 ++ leBytes 2 (p.src % 1024) ++ leBytes 26 0

/-- The upstream input, with a flit of its packet on its way on a link, is one flit emptier; its packet leaves it with the last. -/
def State.drainInput (s : State) (u : RingLink) (p : Packet) : State :=
  match (s.stopIn u).held.find? fun v => v.started && v.pkt = p with
  | none => s
  | some v =>
    let w := { v with gone := v.gone + 1 }
    s.modStop u fun i =>
      let i := (i.modTransit v fun _ => w).owe v.escape 1
      if w.gone = p.flits then { i with held := i.held.erase w } else i

/-- The flit that comes next on a link is there to be sent: its own core's, or one that its input holds. -/
def State.flitReady (s : State) (t : Transit) : Bool := match t.from_ with
  | none => true
  | some u => match (s.stopIn u).held.find? fun v => v.started && v.pkt = t.pkt with
    | some v => v.gone < v.arrived
    | none => false

/-- A guard stands on a link that leaves its stop's partition (12 R332). -/
def State.guarded (s : State) (l : RingLink) : Bool :=
  ((s.partOf (ringCore l l.src)).map fun p => p.id) ≠ ((s.partOf (ringCore l l.dst)).map fun p => p.id)

/-- A guard absorbs a flit: its slot returns at once, it is counted, and the sending partition halts with reason 0x56. -/
def State.absorb (s : State) (l : RingLink) (t : Transit) : State :=
  let k := ringCore l l.src
  let s := s.modStop l fun i =>
    let i := if t.escape then { i with escapeFree := i.escapeFree + 1 } else { i with poolFree := i.poolFree + 1 }
    let gone : Transit := { t with arrived := t.arrived + 1, gone := t.arrived + 1, started := true }
    let i := i.modTransit { t with arrived := t.arrived + 1 } fun _ => gone
    if gone.gone = t.pkt.flits then { i with held := i.held.erase gone } else i
  let s := s.modCore k fun c => { c with guard := (c.guard + 1) % 2 ^ 32 }
  s.unitFault k 13 0x56 0 (s.packetBody t.pkt)

/-- FLIT_HOP: the next flit of the packet on a link reaches the stop at its end, and a flit for that stop's core leaves by the
ejection port (12 R324, R328). An injected flit counts event 0x0F (14 R413). -/
def execFlitHop (l : RingLink) (s : State) : Res :=
  let k := ringCore l l.src
  let d := ringCore l l.dst
  match (s.stopIn l).held.find? fun t => t.arrived < t.pkt.flits with
  | none => .next (s.eject l)
  | some t =>
    if !s.flitReady t then .next (s.eject l)
    else
      let n := (s.core d).ringSerial
      let first := t.arrived = 0
      let s := s.modStop l fun i => i.modTransit t fun t => { t with arrived := t.arrived + 1, serial := if first then n else t.serial }
      let s := if first then s.modCore d fun c => { c with ringSerial := n + 1 } else s
      let t := if first then { t with serial := n } else t
      let s := match t.from_ with
        | none => s.modCore k fun c => c.event 0x0F 1 (s.tagged t.pkt)
        | some u => s.drainInput u t.pkt
      .next (if s.guarded l then s.absorb l t else s.eject l)

/-! ## Messages (12 R331) -/

/-- The arrived packets that wait at a core for their event, with their links. -/
def Core.landed (c : Core) (k : CoreId) (p : Packet → Bool) : Option (RingLink × Transit) :=
  (c.stops.flatMap fun e => (e.2.held.filter fun t => t.gone = t.pkt.flits && (t.pkt.next k).isNone && p t.pkt).map fun t => (e.1, t)).head?

/-- A landed packet is taken. -/
def State.takeLanded (s : State) (x : RingLink × Transit) : State :=
  s.modStop x.1 fun i => { i with held := i.held.erase x.2 }

/-- ROOM_REQUEST: a control packet that asks for room has arrived; with room in the channel's queue the destination reserves it and
answers with a grant. -/
def execRoomRequest (k : CoreId) (s : State) : Res :=
  let c := s.core k
  match c.landed k fun p => p.cls = .control && p.note = 1 && p.addr ≤ c.chanRoom p.chan with
  | none => .next s
  | some x =>
    let p := x.2.pkt
    let s := (s.takeLanded x).modCore k fun c => { c with reserved := put c.reserved p.chan ((look c.reserved p.chan).getD 0 + p.addr) }
    .next (s.toInject k (controlPacket k p.src p.seg p.chan p.addr 0 2))

/-- ROOM_GRANT: a grant from dst for a channel has arrived, and the message that waits for it is injected. A grant whose message is
gone gives its room back. -/
def execRoomGrant (k dst : CoreId) (ch : Nat) (s : State) : Res :=
  match (s.core k).landed k fun p => p.cls = .control && p.note = 2 && p.src = dst && p.chan = ch with
  | none => .next s
  | some x =>
    let n := x.2.pkt.addr
    let s := s.takeLanded x
    match (s.core k).outbound.find? fun m => m.asked && m.dst = dst && m.chan = ch && m.words.length = n with
    | none => .next (s.modCore dst fun c => { c with reserved := put c.reserved ch ((look c.reserved ch).getD 0 - n) })
    | some m =>
      let s := s.modCore k fun c => { c with outbound := c.outbound.erase m }
      .next (s.toInject k (messagePacket m k dst x.2.pkt.seg 0))

/-- Words of bytes. -/
def bytesWords (bs : List Byte) : List Word := (upto (bs.length / 8)).map fun i => BitVec.ofNat 64 (leNat ((bs.drop (8 * i)).take 8))

/-- What a context x sends leaves for a core of another package, by the port of that core's die, as the next frame of the pair of
ports (12 R335). -/
def State.sendFrame (s : State) (x package : Nat) (dst : CoreId) (ch : Nat) (ws : List Word) (kind : FrameKind) : State :=
  s.modDie (dieOf dst) fun d =>
    let n := (look d.sentNum package).getD 0
    { d with sentNum := put d.sentNum package (n + 1), unacked := d.unacked ++ [(⟨package, n, dst, ch, ws, kind, s.etherType⟩, 1, x)] }

/-- A packet toward the port has arrived at its die. -/
def State.toPort (s : State) (k : CoreId) (p : Packet) : State :=
  s.sendFrame (s.cxId k) (p.addr / 1024) (p.addr % 1024) p.chan (bytesWords p.bytes) .message

/-- MESSAGE_ARRIVAL: all flits of a message have arrived, and its words join its queue in one step (12 R331); a message to its own
core, which enters no ring, does so once its queue has room; one to another package reaches its die's port (12 R335), which under a
halt makes no new frame of it: there it waits (13 R346). -/
def execMessageArrival (k : CoreId) (s : State) : Res :=
  let c := s.core k
  let port := !s.halted k
  match c.landed k fun p => p.cls = .message && (p.note ≠ 4 || port) with
  | some x =>
    let p := x.2.pkt
    let s := s.takeLanded x
    if p.note = 4 then .next (s.toPort k p)
    else
      let ws := bytesWords p.bytes
      .next (s.modCore k fun c =>
        ({ c with reserved := put c.reserved p.chan ((look c.reserved p.chan).getD 0 - ws.length) } : Core).addWords p.chan ws)
  | none =>
    match c.outbound.find? fun m => m.dst = k && m.words.length ≤ c.chanRoom m.chan with
    | some m => .next (s.modCore k fun c => ({ c with outbound := c.outbound.erase m } : Core).addWords m.chan m.words)
    | none => match c.inject.find? fun p => p.cls = .message && p.note = 4 && p.dst = k && port with
      | some p => .next ((s.modCore k fun c => { c with inject := c.inject.erase p }).toPort k p)
      | none => .next s

/-! ## Scale-out (12 R335) -/

/-- A message that has entered by a die's port goes on to its core: on the die's rings from the core where it enters, or, for that
core itself, straight to its queue (12 R335; log 91). -/
def State.fromPort (s : State) (die : Nat) (dst : CoreId) (ch : Nat) (ws : List Word) : State :=
  let k := portCore die (s.partRect dst)
  s.modCore k fun c => { c with outbound := c.outbound ++ [⟨dst, 0, false, ch, ws, k, false⟩] }

/-- SCALE_OUT_FRAME_ACK: an acknowledged frame is done with. -/
def execScaleOutFrameAck (die peer num : Nat) (s : State) : Res :=
  .next (s.modDie die fun d => { d with unacked := d.unacked.filter fun u => !(u.1.peer = peer && u.1.num = num) })

/-- A die's unit detects a fault: the halt line of a context's partition rises, and the die's record r holds the reason, unless the
unit has stopped and written it (13 R349, R350, R352; log 25). -/
def State.dieFault (s : State) (x die r code : Nat) : State := match s.ctxPart x with
  | none => s
  | some p =>
    let s := s.raiseHalt (p.rect.y * 32 + p.rect.x)
    if (s.die die).records.contains (p.id, r) then s
    else s.modDie die fun d => { d with origins := put d.origins (p.id, r) code }

/-- SCALE_OUT_RETRANSMIT: a frame that is not acknowledged is sent again; after the sixteenth sending the halt line of its context
rises with reason 0x57. -/
def execScaleOutRetransmit (die peer num : Nat) (s : State) : Res :=
  match (s.die die).unacked.find? fun u => u.1.peer = peer && u.1.num = num with
  | none => .next s
  | some (f, n, x) =>
    if n < 16 then
      .next (s.modDie die fun d => { d with unacked := d.unacked.map fun u => if u = (f, n, x) then (f, n + 1, x) else u })
    else
      let s := s.modDie die fun d => { d with unacked := d.unacked.erase (f, n, x) }
      .next (s.dieFault x die 0 0x57)

end Sys2Proof.Machine
end

