-- ==== Sys2Proof/Machine/Clock.lean ====
section
/-!
DEFINITION. The clock arbiter (14 R393 to R400, R427), transitions (14 R401, R402), grant notices (14 R404), throttling (14 R407) and
event samples (14 R412).
-/
namespace Sys2Proof.Machine

/-! ## Requests (14 R396) -/

/-- A rectangle meets a cluster. -/
def meetsCluster (r : Rect) (cl : Nat) : Bool :=
  r.x < cl % 8 * 4 + 4 && cl % 8 * 4 < r.x + r.w && r.y < cl / 8 * 2 + 2 && cl / 8 * 2 < r.y + r.h

/-- Live launches whose sheets meet a cluster, of the context that runs there. -/
def State.launchesOn (s : State) (cl : Nat) : List Launch :=
  let k := cl / 8 * 2 * 32 + cl % 8 * 4
  match (s.partOf k).bind fun p => p.ctx with
  | none => []
  | some x => (s.ctx x).launches.filter fun l => meetsCluster l.block.sheet cl

/-- The request of a cluster, in the layout of 14 R393: the largest value that a live launch gives a domain, else sy.clkdef's. -/
def State.clockRequest (s : State) (cl : Nat) : Nat :=
  let ls := s.launchesOn cl
  let field (d v : Nat) : Nat := v / 256 ^ d % 256
  ((upto 4).map fun d =>
    let m := (ls.map fun l => field d l.block.clock).foldl max 0
    (if m = 0 then field d (s.cluster cl).clkdef else m) * 256 ^ d).sum

/-- A change of a context's launches, and the clusters whose request it changes (14 R396, R397). -/
def State.withRequests (s : State) (sheet : Rect) (f : State → State) : State :=
  let t := f s
  (((rectCores sheet).map clusterOf).eraseDups).foldl (fun u cl =>
    if s.clockRequest cl = t.clockRequest cl then u else u.modCluster cl Cluster.mark) t

/-! ## The choice of a set (14 R397, R399) -/

/-- Every set of 14 R393. -/
def allSets : List RatioSet :=
  (upto 17).flatMap fun m => (upto 21).flatMap fun v => (upto 17).flatMap fun n => (upto 13).map fun d => ⟨m + 4, v + 4, n + 4, d + 4⟩

/-- The distance of two numbers. -/
def apart (a b : Nat) : Nat := max a b - min a b

/-- Dist of 14 R397. -/
def RatioSet.dist (s q : RatioSet) : Nat := 4 * apart s.m q.m + 2 * apart s.v q.v + apart s.n q.n + apart s.d q.d

/-- The first list comes before the second: the first numbers that differ decide. -/
def lexLess : List Int → List Int → Bool
  | a :: r, b :: t => if a = b then lexLess r t else decide (a < b)
  | _, _ => false

/-- The set of least key. -/
def leastSet (l : List RatioSet) (key : RatioSet → List Int) : Option RatioSet :=
  l.foldl (fun b x => match b with
    | none => some x
    | some y => if lexLess (key x) (key y) then some x else some y) none

/-- Higher frequencies come first: M, V, N, D. -/
def RatioSet.highFirst (s : RatioSet) : List Int := [-(s.m : Int), -(s.v : Int), -(s.n : Int), -(s.d : Int)]

/-- The hint's preference (14 R399). -/
def RatioSet.hintKey (s : RatioSet) : Option Hint → List Int
  | some .compute => [-(s.m : Int), -(s.v : Int)]
  | some .memory => [-(s.d : Int), -(s.n : Int)]
  | _ => [0, 0]

/-- The current hint of a cluster: the latest of the firings that still run there (14 R415). -/
def State.clusterHint (s : State) (cl : Nat) : Option Hint :=
  let fs := (s.cores.filter fun e => clusterOf e.1 = cl).flatMap fun e => e.2.fcs.toList.filter fun f => f.status ≠ .free && f.hint.isSome
  (fs.foldl (fun (b : Option FiringCtx) f => match b with
    | none => some f
    | some g => if g.hintSerial < f.hintSerial then some f else b) none).bind fun f => f.hint

/-- The outcome of a search: the set, and the reason. share in mW; hint as applied. -/
def chooseSet (pcoef : Word) (floor share : Nat) (q : RatioSet) (hint : Option Hint) : Option (RatioSet × Nat) :=
  let above := allSets.filter fun s => floor ≤ s.volts
  let est (s : RatioSet) : Int := (estOf pcoef s : Nat)
  match leastSet (above.filter fun s => estOf pcoef s ≤ share * 10000000) fun s =>
      ((s.dist q : Nat) : Int) :: (s.hintKey hint ++ est s :: s.highFirst) with
  | some g => some (g, 0)
  | none => (leastSet above fun s => est s :: s.highFirst).map fun g => (g, 2)

/-- The share of a cluster of a partition in mW (14 R395). -/
def Partition.share (p : Partition) : Nat := 1000 * (p.pshare.toNat % 65536) / (p.rect.w / 4 * (p.rect.h / 2))

/-! ## Notices (14 R404) -/

/-- The cores of a cluster. -/
def clusterCores (cl : Nat) : List CoreId :=
  (upto 8).map fun i => (cl / 8 * 2 + i / 4) * 32 + cl % 8 * 4 + i % 4

/-- A word reaches ch30 of a core: one that finds the queue full replaces the newest (04 R113). -/
def Core.putNotice (c : Core) (w : Word) : Core :=
  let ws := (look c.chans 30).getD []
  ({ c with chans := put c.chans 30 ((if 64 ≤ ws.length then ws.dropLast else ws) ++ [w]) } : Core).endIdle none

/-- A notice goes to every core of a cluster. -/
def State.clockNotice (s : State) (cl kind reason mv set : Nat) : State :=
  let w := BitVec.ofNat 64 (kind * 2 ^ 60 + reason * 2 ^ 52 + (s.cluster cl).seq % 256 * 2 ^ 44 + mv * 2 ^ 32 + set)
  (clusterCores cl).foldl (fun t k => t.modCore k fun c => c.putNotice w) s

/-- The power slot takes an outcome of reason 0x02 (14 R398): est in units of 10^-7 mW. -/
def PowerSlot.report (p : PowerSlot) (request granted est : Nat) : PowerSlot :=
  if p.valid then { p with overflow := true } else ⟨request, granted, ceilDiv est 10000000, 2, true, false⟩

/-! ## ARBITER_EVALUATION (14 R397, R427) -/

/-- The tick at which a change is evaluated: the first multiple of 50 after it. -/
def dueTick (t : Nat) : Nat := (t / 50 + 1) * 50

/-- The set runs and the rail stands at what it needs. -/
def Cluster.arrived (c : Cluster) (g : RatioSet) : Bool := c.set = g && c.mv = g.volts

/-- A set is granted: a transition begins, or waits for the one under way (14 R401, R402). -/
def Cluster.grantSet (c : Cluster) (g : RatioSet) (why due : Nat) : Cluster :=
  match c.target with
  | some t => { c with next := if t = g then none else some (g, why) }
  | none => if c.arrived g then { c with firstGrant := true } else { c with target := some g, grantWhy := why, phaseAt := due }

/-- ARBITER_EVALUATION: a cluster whose registers are loaded, with a change to consider, once its tick has come. -/
def execArbiterEvaluation (cl : Nat) (s : State) : Res :=
  let c := s.cluster cl
  match c.changedAt, s.partOf (cl / 8 * 2 * 32 + cl % 8 * 4) with
  | some t, some p =>
    if c.loaded ≠ 15 || c.timer < dueTick t then .next s
    else
      let q := s.clockRequest cl
      let set := RatioSet.ofWord q
      let s := s.modCluster cl fun c => { c with changedAt := none, req := q }
      if set.volts < c.vfloor then
        .next ((s.modCluster cl fun c => { c with reason := 1 }).clockNotice cl 2 1 set.volts q)
      else
        let (r, s) := s.free
        match chooseSet c.pcoef c.vfloor p.share set (if r % 2 = 0 then none else s.clusterHint cl) with
        | none => .next s
        | some (g, why) =>
          .next (s.modCluster cl fun c =>
            let c := { c with reason := why }
            let c := if why = 2 then { c with power := c.power.report q g.pack (estOf c.pcoef g) } else c
            c.grantSet g why (dueTick t))
  | _, _ => .next s

/-! ## Transitions (14 R401, R402) -/

/-- One step of 100 MHz toward a frequency. -/
def toward (a b : Nat) : Nat := if a < b then a + 1 else if b < a then a - 1 else a

/-- A step of a transition: the rail rises first, then the frequencies move, then the rail falls (14 R401). -/
def Cluster.stepTo (c : Cluster) (g : RatioSet) : Cluster :=
  if c.mv < g.volts then { c with mv := min (c.mv + 5) g.volts }
  else if c.set ≠ g then { c with set := ⟨toward c.set.m g.m, toward c.set.v g.v, toward c.set.n g.n, toward c.set.d g.d⟩ }
  else { c with mv := max (c.mv - 5) g.volts }

/-- TRANSITION_STEP: every 20 ticks a transition moves by a step; at its end come the notice and the next target (14 R402, R404),
and event 0x12 on every core of the cluster. The first transition raises no seq and sends no notice (14 R427). -/
def execTransitionStep (cl : Nat) (s : State) : Res :=
  let c := s.cluster cl
  match c.target with
  | none => .next s
  | some g =>
    if c.timer < c.phaseAt + 20 then .next s
    else
      let d := { c.stepTo g with phaseAt := c.phaseAt + 20 }
      if !d.arrived g then .next (s.modCluster cl fun _ => d)
      else
        let s := s.modCluster cl fun _ => { d with
          target := none, next := none, firstGrant := true, seq := if c.firstGrant then (c.seq + 1) % 256 else c.seq }
        let s := s.mapCores fun k c => if clusterOf k = cl then c.event 0x12 1 false else c
        let s := if c.firstGrant then s.clockNotice cl 1 c.grantWhy d.mv g.pack else s
        .next (match c.next with
          | none => s
          | some (n, why) => s.modCluster cl fun c => c.grantSet n why c.phaseAt)

/-! ## Throttling (14 R407) -/

/-- THROTTLE_START: the rail current has crossed a nonzero threshold. What it delays is time alone. -/
def execThrottleStart (cl : Nat) (s : State) : Res :=
  if (s.cluster cl).throttleAmp = 0 then .next s else .next (s.modCluster cl fun c => { c with throttled := true })

/-- THROTTLE_END: the delays end. -/
def execThrottleEnd (cl : Nat) (s : State) : Res := .next (s.modCluster cl fun c => { c with throttled := false })

/-! ## Samples (14 R412) -/

/-- A counter's increase since the last sample is latched. -/
def EventCounter.sample (e : EventCounter) : EventCounter :=
  { e with smp := (e.count + 2 ^ 48 - e.sampled) % 2 ^ 48, sampled := e.count }

/-- EVENT_SAMPLE: at a tick that is a multiple of the sample interval, all four counters of every core of the cluster. -/
def execEventSample (cl : Nat) (s : State) : Res :=
  let c := s.cluster cl
  if c.sample = 0 || c.timer % c.sample ≠ 0 || c.sampledAt = c.timer then .next s
  else
    let s := s.modCluster cl fun c => { c with sampledAt := c.timer }
    .next (s.mapCores fun k c => if clusterOf k = cl then { c with counters := c.counters.map EventCounter.sample } else c)

end Sys2Proof.Machine
end

