-- ==== Sys2Proof/Machine/Launches.lean ====
section
/-!
DEFINITION. `lnch` and its checks (04 R96 to R100, R108, R134), the comparison of a pod launch (04 R99), and `lsync` (04 R135).
-/
namespace Sys2Proof.Machine

/-! ## The launch block (04 R96) -/

/-- Little-endian field of n bytes at an offset. -/
def fieldAt (bs : List Byte) (o n : Nat) : Nat := leNat ((bs.drop o).take n)

/-- The block of 128 bytes at an address; its footprint entries come from its table. -/
def Block.of (addr : Word) (bs : List Byte) (fps : List (List Int)) : Block where
  addr := addr
  ndim := fieldAt bs 2 1 % 8
  sweep := fieldAt bs 3 1 % 4
  nvec := fieldAt bs 4 1
  rules := fieldAt bs 5 1
  tag := fieldAt bs 6 2
  linktag := fieldAt bs 8 2
  sheet := ⟨fieldAt bs 0xA 1, fieldAt bs 0xB 1, fieldAt bs 0xC 1, fieldAt bs 0xD 1⟩
  actor := fieldAt bs 0xE 1 % 32
  cfg := fieldAt bs 0xE 1 / 32
  quota := fieldAt bs 0xF 1 % 8
  extents := (upto 4).map fun k => fieldAt bs (0x10 + 2 * k) 2
  vectors := (upto (fieldAt bs 4 1)).map fun v => (upto 4).map fun k => signed 8 (fieldAt bs (0x18 + 4 * v + k) 1)
  xplace := fieldAt bs 0x30 1
  yplace := fieldAt bs 0x31 1
  xdiv := fieldAt bs 0x32 2
  ydiv := fieldAt bs 0x34 2
  fps := fps
  resume := bitOf (fieldAt bs 0x37 1) 0
  pod := bitOf (fieldAt bs 0x37 1) 1
  clock := fieldAt bs 0x40 4
  cost := fieldAt bs 0x44 2
  datum := fieldAt bs 0x46 2
  save := BitVec.ofNat 64 (fieldAt bs 0x48 8)
  resumeAt := BitVec.ofNat 64 (fieldAt bs 0x50 8)

/-- The numbers of a footprint entry, in the order of 04 R100: tensor, mode, a0 to a3, row offset, b0 to b3, column offset, rows,
columns. -/
def fpOf (bs : List Byte) : List Int :=
  let s16 (o : Nat) : Int := signed 16 (fieldAt bs o 2)
  [(fieldAt bs 0 2 : Nat), (fieldAt bs 2 1 : Nat), s16 4, s16 6, s16 8, s16 10, signed 32 (fieldAt bs 12 4),
    s16 16, s16 18, s16 20, s16 22, signed 32 (fieldAt bs 24 4), (fieldAt bs 28 2 : Nat), (fieldAt bs 30 2 : Nat)]

/-- A footprint entry keeps 04 R100. -/
def Context.fpHolds (c : Context) (bs : List Byte) : Bool :=
  (c.tensor (fieldAt bs 0 2)).isSome && 1 ≤ fieldAt bs 2 1 && fieldAt bs 2 1 ≤ 3 && fieldAt bs 3 1 = 0 && 1 ≤ fieldAt bs 28 2 &&
    1 ≤ fieldAt bs 30 2

/-- The dimensions hold: reason 0x32 (04 R96, R97). -/
def Block.shapeHolds (b : Block) : Bool :=
  1 ≤ b.ndim && b.ndim ≤ 4 && b.sweep < b.ndim &&
    (upto 4).all (fun k => if k < b.ndim then 1 ≤ nth b.extents k 0 else nth b.extents k 0 = 0) && b.cross ≤ 65536

/-- The vectors hold: reason 0x33 (04 R96). -/
def Block.vectorsHold (b : Block) (bs : List Byte) : Bool :=
  b.nvec ≤ 6 && b.rules < 2 ^ b.nvec && fieldAt bs (0x18 + 4 * b.nvec) (24 - 4 * b.nvec) = 0 &&
    b.vectors.all fun v => 1 ≤ nth v b.sweep 0 && (upto 4).all fun k => k < b.ndim || nth v k 0 = 0

/-- A rectangle of the mesh lies within another. -/
def rectIn (a r : Rect) : Bool := 1 ≤ a.w && 1 ≤ a.h && r.x ≤ a.x && a.x + a.w ≤ r.x + r.w && r.y ≤ a.y && a.y + a.h ≤ r.y + r.h

/-- A placement field holds: reason 0x35 (04 R98). -/
def Block.placeHolds (b : Block) (place div : Nat) : Bool := 128 ≤ place || (place % 4 < b.ndim && place % 4 ≠ b.sweep && 1 ≤ div)

/-- The placement holds, with the pod rule of 04 R99; a pod launch needs a pod group (log 27). -/
def Block.placesHold (b : Block) (pods : Nat) : Bool :=
  b.placeHolds b.xplace b.xdiv && b.placeHolds b.yplace b.ydiv &&
    (128 ≤ b.xplace || 128 ≤ b.yplace || b.xplace % 4 ≠ b.yplace % 4) && (!b.pod || (b.yplace < 128 && 2 ≤ pods))

/-- A domain's request is none, or from 4 to its ceiling: reason 0x38 (04 R96). -/
def Block.clockHolds (b : Block) : Bool :=
  (upto 4).all fun d =>
    let v := b.clock / 256 ^ d % 256
    v = 0 || (4 ≤ v && v ≤ nth [20, 24, 20, 16] d 0)

/-- The tags hold in a context: reason 0x39 (04 R134). A pod launch that waits for its copies counts as live, for its tag, for the
16 and as a link (04 R99). -/
def Context.tagsHold (c : Context) (b : Block) : Bool :=
  let waiting := c.podWaits.any fun w => w.1 = b.tag
  let cross (d : Block) : List Nat := d.dims.map fun k => nth d.extents k 0
  b.tag ≠ 0 && (c.launch b.tag).isNone && !waiting && c.launches.length + c.podWaits.length < 16 && (b.linktag ≠ 0) = (b.rules ≠ 0) &&
    match c.launch b.linktag, look c.podWaits b.linktag with
    | some l, _ => cross l.block = cross b
    | none, some bs => cross (Block.of 0 bs []) = cross b
    | none, none => true

/-- A reserved field is nonzero, the cost is 0, or the quota class is not defined: reason 0x3B (04 R134). -/
def Context.restHolds (c : Context) (b : Block) (bs : List Byte) : Bool :=
  fieldAt bs 2 1 < 8 && fieldAt bs 3 1 < 4 && fieldAt bs 0xF 1 < 8 && bitsOf b.xplace 6 2 = 0 && bitsOf b.yplace 6 2 = 0 &&
    fieldAt bs 0x37 1 < 4 && fieldAt bs 0x58 40 = 0 && b.cost ≠ 0 && bitOf (nth c.quotas b.quota 0).toNat 63

/-! ## Contour images (04 R108) -/

/-- Adjacent equal heights as runs of length and height. -/
def runsOf : List Nat → List (Nat × Nat)
  | [] => []
  | h :: r => match runsOf r with
    | (n, g) :: t => if g = h then (n + 1, g) :: t else (1, h) :: (n, g) :: t
    | [] => [(1, h)]

/-- The image of a contour. -/
def Launch.image (l : Launch) : List Byte :=
  let base := l.floor
  let runs := runsOf l.heights
  leBytes 4 0xC0D70001 ++ leBytes 2 l.block.tag ++ leBytes 2 base ++ leBytes 4 l.heights.length ++ leBytes 4 runs.length ++
    runs.flatMap fun r => leBytes 4 ((r.1 - 1) * 65536 + (r.2 - base))

/-- The heights of an image for a block; none where 04 R108 refuses it. bs: the header and the runs. -/
def Block.heightsOf (b : Block) (bs : List Byte) : Option (List Nat) :=
  let n := fieldAt bs 12 4
  let base := fieldAt bs 6 2
  let runs := (upto n).map fun i => (fieldAt bs (16 + 4 * i + 2) 2 + 1, base + fieldAt bs (16 + 4 * i) 2)
  let total := (runs.map fun r => r.1).sum
  if fieldAt bs 0 4 = 0xC0D70001 && fieldAt bs 4 2 = b.tag && fieldAt bs 8 4 = b.cross && total = b.cross && runs.all fun r => r.2 ≤ b.es
  then some (runs.flatMap fun r => List.replicate r.1 r.2) else none

/-! ## Reading for the checks -/

/-- A check, or a read for it, has failed with a reason, or met an address without memory. -/
def checkFailed (refused : Nat) : TErr → TErr
  | .fail 0x21 t p => .fail 0x21 t p
  | .fail _ _ _ => .fail refused 0 0
  | e => e

/-- Bytes that a check reads: a page that is missing is reason 0x21, one that refuses is the check's reason (log 28). -/
def State.readFor (s : State) (x va n refused : Nat) : Except TErr (List Byte) :=
  if !canonical (BitVec.ofNat 64 va) then .error (.fail refused 0 0)
  else match s.engineRead x va n with
    | .ok bs => .ok bs
    | .error e => .error (checkFailed refused e)

/-- n bytes at an address may be written. -/
def State.writableFor (s : State) (x va n refused : Nat) : Except TErr Unit :=
  let at_ := (upto ((n + 4095) / 4096)).map (fun i => va + 4096 * i) ++ [va + n - 1]
  at_.foldl (fun r a => match r with
    | .error e => .error e
    | .ok _ => match s.engineTranslate x a .store with
      | .ok _ => .ok ()
      | .perm => .error (.fail refused 0 0)
      | .nowhere a => .error (.nowhere a)
      | _ => .error (.fail 0x21 0 0)) (.ok ())

/-- A check of reason r. -/
def checkThat (b : Bool) (r : Nat) : Except TErr Unit := if b then .ok () else .error (.fail r 0 0)

/-- The footprint table of a block: reason 0x37 (04 R96, R100). -/
def State.readFps (s : State) (x : Nat) (bs : List Byte) : Except TErr (List (List Int)) :=
  let n := fieldAt bs 0x36 1
  let at_ := fieldAt bs 0x38 8
  if 16 < n || at_ % 64 ≠ 0 || (n = 0 && at_ ≠ 0) then .error (.fail 0x37 0 0)
  else if n = 0 then .ok []
  else match s.readFor x at_ (32 * n) 0x37 with
    | .error e => .error e
    | .ok t =>
      let es := (upto n).map fun i => (t.drop (32 * i)).take 32
      if es.all (s.ctx x).fpHolds then .ok (es.map fpOf) else .error (.fail 0x37 0 0)

/-- The heights that a launch begins with (04 R101), with the save area's and the image's checks: reason 0x3A. -/
def State.readHeights (s : State) (x : Nat) (b : Block) : Except TErr (List Nat) :=
  if b.save.toNat % 64 ≠ 0 || !canonical b.save || (!b.resume && b.resumeAt ≠ 0) || b.resumeAt.toNat % 64 ≠ 0 then .error (.fail 0x3A 0 0)
  else match s.writableFor x b.save.toNat (16 + 4 * b.cross) 0x3A with
    | .error e => .error e
    | .ok _ =>
      if !b.resume then .ok (List.replicate b.cross 0)
      else match s.readFor x b.resumeAt.toNat 16 0x3A with
        | .error e => .error e
        | .ok head =>
          let n := fieldAt head 12 4
          if n = 0 || b.cross < n then .error (.fail 0x3A 0 0)
          else match s.readFor x b.resumeAt.toNat (16 + 4 * n) 0x3A with
            | .error e => .error e
            | .ok bs => match b.heightsOf bs with
              | some h => .ok h
              | none => .error (.fail 0x3A 0 0)

/-- The checks of 04 R134 on a block's 128 bytes, in increasing order of reason. -/
def State.checkBytes (s : State) (x : Nat) (addr : Word) (bs : List Byte) : Except TErr (Block × List Nat) := do
  let c := s.ctx x
  let rect := ((s.ctxPart x).map fun p => p.rect).getD ⟨0, 0, 0, 0⟩
  checkThat (fieldAt bs 0 2 = 1) 0x31
  let b0 := Block.of addr bs []
  checkThat b0.shapeHolds 0x32
  checkThat (b0.vectorsHold bs) 0x33
  checkThat (b0.sheet.x ≤ 31 && b0.sheet.y ≤ 31 && rectIn b0.sheet rect) 0x34
  checkThat (b0.placesHold c.podSize) 0x35
  let h := c.handler b0.actor
  checkThat (h.valid && h.inCh = 0 && h.rate = 1) 0x36
  let fps ← s.readFps x bs
  let b := Block.of addr bs fps
  checkThat b.clockHolds 0x38
  checkThat (c.tagsHold b) 0x39
  let hs ← s.readHeights x b
  checkThat (c.restHolds b bs) 0x3B
  .ok (b, hs)

/-- The block at an address, read and checked (04 R134): its fields, its heights and its bytes. -/
def State.checkBlock (s : State) (x : Nat) (addr : Word) : Except TErr (Block × List Nat × List Byte) := do
  checkThat (addr.toNat % 128 = 0) 0x31
  let bs ← s.readFor x addr.toNat 128 0x31
  let r ← s.checkBytes x addr bs
  .ok (r.1, r.2, bs)

/-! ## Acceptance -/

/-- Dies that hold points of a launch on a package of the pod. -/
def Block.diesAt (b : Block) (c : Context) (package : Nat) : List Nat :=
  (((upto b.cross).filter fun i => !b.pod || b.packageOf (b.coords i 0) c.podSize = package).map fun i =>
    dieOf (b.coreOf (b.coords i 0) c.podSize)).eraseDups

/-- The least of a list of numbers. -/
def leastNat (l : List Nat) : Nat := match l with
  | [] => 0
  | a :: r => r.foldl min a

/-- The leader: the lowest live dispatcher that holds points, in the lowest package of the pod that has one (04 R109). The dies of
other packages count as live (log 76). -/
def State.electLeader (s : State) (x : Nat) (b : Block) : Nat × Nat :=
  let c := s.ctx x
  let live (p : Nat) : List Nat := (b.diesAt c p).filter fun d => p ≠ c.podIndex || (s.die d).alive
  let ps := if b.pod then (upto c.podSize).filter fun p => live p ≠ [] else [c.podIndex]
  (leastNat ps, leastNat (live (leastNat ps)))

/-- A launch with its leader elected anew. -/
def State.withLeader (s : State) (x : Nat) (l : Launch) : Launch :=
  { l with leaderAt := (s.electLeader x l.block).1, leader := (s.electLeader x l.block).2 }

/-- The counter holder's die of a context on this package: the lowest live one that holds cores of its partition (04 R109). -/
def State.chooseHolder (s : State) (x : Nat) : Nat := match s.ctxPart x with
  | some p => leastNat ((rectDies p.rect).filter fun d => (s.die d).alive)
  | none => 0

/-- The surviving dispatchers elect the leaders of a context's launches, and its counter holder, anew (04 R109, R110). -/
def State.electAnew (s : State) (x : Nat) : State :=
  s.modCtx x fun c => { c with launches := c.launches.map fun l => s.withLeader x l, holder := s.chooseHolder x }

/-- The datum multiple that a minimum has reached (04 R107). -/
def Block.multiple (b : Block) (floor : Nat) : Nat := if b.datum = 0 then 0 else floor / b.datum

/-- What ends the waits of `lsync` or `lsync.d` commands on launches, by their numbers, at a context's cores (04 R135). pos of such
a command is the number of the launch that its tag had at issue. -/
def State.endSyncs (s : State) (x : Nat) (serials : List Nat) (datum : Bool) : State :=
  s.mapCores fun k c => if s.cxId k ≠ x then c else
    { c with cmds := c.cmds.map fun e =>
        if opOf e.word = 0x39 && (cmdOf e.word).flag 0 = datum && e.attached = 1 && serials.contains e.pos then { e with attached := 2 } else e }

/-- Launches have committed a datum. -/
def State.endDatumSyncs (s : State) (x : Nat) (serials : List Nat) : State := s.endSyncs x serials true

/-- A launch has retired once every height is es and no task spawned under it is left (04 R101): that wants a datum (13 R361), and
ends the waits of `lsync` (04 R135). -/
def State.launchEnds (s : State) (x tag : Nat) : State := match (s.ctx x).launch tag with
  | none => s
  | some l =>
    if l.heights.all (fun h => h = l.block.es) && !(s.tasksOf x).any fun t => t.tag = tag then
      let s := s.withRequests l.block.sheet fun s => s.modCtx x fun c => { c with
        launches := c.launches.filter fun m => m.block.tag ≠ tag
        retiring := c.retiring ++ c.launches.filter fun m => m.block.tag = tag
        wantDatum := true }
      s.endSyncs x [l.serial] false
    else s

/-- An accepted launch, live from here; the copies of its heights start anew (04 R101, R104). One whose image leaves no point has
retired. -/
def State.install (s : State) (x : Nat) (b : Block) (hs : List Nat) : State :=
  let l : Launch := s.withLeader x ⟨b, hs, [], [], 0, b.multiple (leastNat hs), 0, 0, hs, (s.ctx x).nextLaunch⟩
  let s := s.withRequests b.sheet fun s =>
    (s.modCtx x fun c => { c with launches := c.launches ++ [l], nextLaunch := c.nextLaunch + 1 }).mapDies fun _ d =>
      { d with copies := d.copies.filter fun e => !(e.1.1 = x && e.1.2.1 = b.tag) }
  s.launchEnds x b.tag

/-- LNCH: the block is read and checked, and its launch is accepted; a pod launch waits for the comparison of its copies (04 R99,
R134). -/
def execLnch (c : Cmd) (s : State) : Res := s.withCmd 0x38 c fun e =>
  if e.pos ≠ 0 then .next s
  else s.tryCmd e 0 (s.checkBlock s.x c.operand) fun r =>
    let (b, hs, bs) := r
    if b.pod then
      .next ((s.modCtx s.x fun c => { c with podWaits := c.podWaits ++ [(b.tag, bs)] }).modCmd e.id fun d => { d with pos := 1, attached := b.tag })
    else .next ((s.install s.x b hs).cmdDone e.id 1)

/-- Commands `lnch` of a context's cores that wait for the comparison of a tag. -/
def State.podWaiters (s : State) (x tag : Nat) : List (CoreId × CmdEntry) :=
  s.cores.flatMap fun k => if s.cxId k.1 ≠ x then [] else
    (k.2.cmds.filter fun e => opOf e.word = 0x38 && e.stage = .running && e.pos = 1 && e.attached = tag).map fun e => (k.1, e)

/-- POD_LAUNCH_COMPARE: the leader's package has compared the copies of the other packages with its own: all equal accepts the
launch, one that differs fails it, and a missing one waits (04 R99). Under a halt nothing is accepted or fails (13 R346). -/
def execPodLaunchCompare (x tag : Nat) (copies : List (List Byte)) (s : State) : Res :=
  match (if (s.ctxPart x).any fun p => p.halt then none else look (s.ctx x).podWaits tag) with
  | none => .next s
  | some bs =>
    let drop (s : State) : State := s.modCtx x fun c => { c with podWaits := unput c.podWaits tag }
    let ws := s.podWaiters x tag
    if copies.any fun d => d ≠ bs then
      .next (ws.foldl (fun t w => t.failCommand w.1 w.2 0x35 none) (drop s))
    else if copies.length + 1 < (s.ctx x).podSize then .next s
    else
      let t := drop s
      match t.checkBytes x (match ws with
        | (_, e) :: _ => (cmdOf e.word).operand
        | [] => 0) bs with
      | .ok (b, hs) => .next (ws.foldl (fun u w => u.modCore w.1 fun k => k.modCmd w.2.id fun d =>
          { d with stage := .performed, count := 1 }) (t.install x b hs))
      | .error (.fail r _ _) => .next (ws.foldl (fun u w => u.failCommand w.1 w.2 r none) t)
      | .error (.nowhere a) => .fault (.noSuchMemory a)
      | .error _ => .next s

/-! ## lsync (04 R135) -/

/-- A synchronising command goes on: attached says whether its launch was live at issue (1) and whether it has ended since (2). -/
def State.lsyncTurn (s : State) (e : CmdEntry) : Res := if e.attached = 1 then .next s else .next (s.cmdDone e.id 1)

/-- LSYNC: done once the launch of its tag has retired, or at once where none was live at issue. -/
def execLsync (c : Cmd) (s : State) : Res :=
  if c.flag 0 then .next s else s.withCmd 0x39 c fun e => s.lsyncTurn e

/-- LSYNC.D: done once the launch of its tag commits a datum, or at once where none was live at issue. -/
def execLsyncD (c : Cmd) (s : State) : Res :=
  if c.flag 0 then s.withCmd 0x39 c fun e => s.lsyncTurn e else .next s

end Sys2Proof.Machine
end

