-- ==== Sys2Proof/Machine/Points.lean ====
section
/-!
DEFINITION. The contour unit and the task schedulers: delivery and retirement of points (04 R101 to R107), copies of heights (04
R104), placement and retirement of tasks (04 R118 to R122, 11 R301), and the heat table (05 R149).
-/
namespace Sys2Proof.Machine

/-- The dispatchers and schedulers of a context work: it runs on a partition whose halt line is low (13 R346). -/
def State.dispatching (s : State) (x : Nat) : Bool := match s.ctxPart x with
  | some p => !p.halt
  | none => false

/-! ## POINT_DELIVERY (04 R105) -/

/-- Words or records that wait in a ch0 or ch1 queue: of an entry under a configuration context (04 R113). -/
def Core.waiting0 (c : Core) (cx entry : Nat) : List QueueItem := c.points.filter fun i => i.cx = cx && i.entry = entry

/-- A point's turn on its core: none of its launch with a lower index is fireable and leased there (04 R105). -/
def State.pointTurn (s : State) (x : Nat) (l : Launch) (idx : Nat) : Bool :=
  let pods := (s.ctx x).podSize
  let k (i : Nat) : CoreId := l.block.coreOf (l.block.coords i 0) pods
  !(l.leased.any fun i => i < idx && k i = k idx && s.fireable x l i)

/-- POINT_DELIVERY, which a pre-emption holds (13 R371): a fireable point whose lease is granted joins its actor's ch0 queue, with a
sequence number (04 R105, R109). -/
def execPointDelivery (x tag idx : Nat) (s : State) : Res :=
  match (s.ctx x).launch tag with
  | none => .next s
  | some l =>
    let b := l.block
    let k := b.coreOf (b.coords idx 0) (s.ctx x).podSize
    let ready := s.dispatching x && !(s.ctx x).preempted && l.leased.contains idx && s.fireable x l idx && !s.masked k b.cfg b.actor &&
      s.pointTurn x l idx && ((s.core k).waiting0 b.cfg b.actor).length < 64
    if !ready then .next s
    else
      let (seq, s) := s.nextSeq x (dieOf k)
      let item : QueueItem := ⟨b.cfg, b.actor, [packCoords (b.coords idx (nth l.heights idx 0))], tag, idx, seq, false⟩
      let s := s.modCore k fun c => ({ c with points := c.points ++ [item] } : Core).endIdle none
      .next (s.modCtx x fun c => c.modLaunch tag fun l => { l with delivered := insertNat l.delivered idx })

/-! ## Retirement (04 R101, R103, R107) -/

/-- A firing has done everything: `done`, its commands, and the tasks it spawned (04 R103, R122). -/
def State.firingDone (s : State) (x fid : Nat) : Bool :=
  let f := (s.ctx x).firing fid
  f.ended && f.cause.isNone && !f.retired && (s.core f.k).cmdsOf fid = [] && !(s.core f.k).queuedAtomic fid &&
    !s.dies.any fun d => d.2.tasks.any fun t => t.x = x && t.parent = fid

/-- A firing retires: its lease and its pins end (04 R123, 05 R147). -/
def Context.retireFiring (c : Context) (fid : Nat) : Context :=
  let f := c.firing fid
  let c := c.modFiring fid fun f => { f with retired := true, lease := [] }
  { c with
    pins := c.pins.filter fun p => p.fid ≠ fid
    widened := c.widened.filter fun w => w.1 ≠ .point f.tag f.idx && w.1 ≠ .task f.seq }

/-- After heights of a launch have risen: a new multiple of its interval wants a datum, and so does its retirement (04 R101, R107,
13 R361). -/
def State.heightsRose (s : State) (x tag : Nat) : State := match (s.ctx x).launch tag with
  | none => s
  | some l =>
    let m := l.block.multiple l.floor
    let s := if l.datums < m then
        s.modCtx x fun c => { c.modLaunch tag fun l => { l with datums := m } with wantDatum := true }
      else s
    s.launchEnds x tag

/-! ## Heights of a pod's other packages (04 R104, 12 R334) -/

/-- The points of a launch that name the entry at coordinates as a predecessor, by a vector of the rules wanted, on other packages
of the pod: package and core. -/
def Context.followers (c : Context) (b : Block) (co : List Nat) (linked : Bool) : List (Nat × CoreId) :=
  if !b.pod then []
  else ((upto b.nvec).flatMap fun n =>
    if linked && !bitOf b.rules n then [] else
      match b.indexOf fun k => ((nth co k 0 : Nat) : Int) + nth (nth b.vectors n []) k 0 with
      | none => []
      | some j =>
        let at_ := b.coords j 0
        if c.placedHere b at_ then [] else [(b.packageOf at_ c.podSize, b.coreOf at_ c.podSize)]).eraseDups

/-- A rise of a height leaves for the dispatchers of other packages that hold a copy of it: as an update, or, for a linked launch,
as a boundary token (12 R334; log 91). -/
def State.tellPods (s : State) (x : Nat) (l : Launch) (idx : Nat) : State :=
  let c := s.ctx x
  let co := l.block.coords idx 0
  let ws := [BitVec.ofNat 64 l.block.tag, BitVec.ofNat 64 idx, BitVec.ofNat 64 (nth l.heights idx 0)]
  let s := (c.followers l.block co false).foldl (fun t d => t.sendFrame x d.1 d.2 0 ws .update) s
  ((c.launches.filter fun m => m.block.linktag = l.block.tag && m.block.tag ≠ l.block.tag).flatMap fun m =>
    c.followers m.block co true).eraseDups.foldl (fun t d => t.sendFrame x d.1 d.2 0 ws .boundary) s

/-- A die's copy of an entry that another package holds rises to a height, and with it what the package knows of the entry. -/
def State.learnHeight (s : State) (x tag die idx h : Nat) : State := match (s.ctx x).launch tag with
  | none => s
  | some l =>
    let s := s.modDie die fun d => { d with copies := put d.copies (x, tag, idx) h }
    if nth l.heights idx 0 < h then
      (s.modCtx x fun c => c.modLaunch tag fun l => { l with heights := updNth l.heights idx fun _ => h }).heightsRose x tag
    else s

/-- A token or update of another package: a height that goes beyond what the die knows of that package's entry. -/
def State.hearHeight (s : State) (x die : Nat) (ws : List Word) : State :=
  let at_ (i : Nat) : Nat := (nth ws i 0).toNat
  match (s.ctx x).launch (at_ 0) with
  | none => s
  | some l =>
    let foreign := at_ 1 < l.block.cross && !(s.ctx x).placedHere l.block (l.block.coords (at_ 1) 0)
    if foreign && s.heightAt x die (at_ 1) l < at_ 2 && at_ 2 ≤ l.block.es then s.learnHeight x (at_ 0) die (at_ 1) (at_ 2) else s

/-- SCALE_OUT_FRAME_RECEIVE: the next frame of a peer is taken, and what it carries goes on to its core or dispatcher on the die;
one that has been taken is acknowledged again and changes nothing (12 R334, R335). -/
def execScaleOutFrameReceive (die : Nat) (f : Frame) (s : State) : Res :=
  if f.ether ≠ s.etherType || f.num ≠ (look (s.die die).recvNum f.peer).getD 0 || dieOf f.dst ≠ die then .next s
  else
    let s := s.modDie die fun d => { d with recvNum := put d.recvNum f.peer (f.num + 1) }
    match f.kind with
    | .message => .next (s.fromPort die f.dst f.channel f.words)
    | .boundary => .next (s.hearHeight (s.cxId f.dst) die f.words)
    | .update => .next (s.hearHeight (s.cxId f.dst) die f.words)

/-! ## POINT_RETIREMENT (04 R103) -/

/-- POINT_RETIREMENT: the point's phase ends, and its height rises by one (04 R103). -/
def execPointRetirement (x fid : Nat) (s : State) : Res :=
  let f := (s.ctx x).firing fid
  if !s.dispatching x || f.kind ≠ .point || !s.firingDone x fid then .next s
  else
    let s := s.modCtx x fun c =>
      let c := (c.endPhase fid).retireFiring fid
      c.modLaunch f.tag fun l => { l with
        heights := updNth l.heights f.idx (· + 1)
        delivered := l.delivered.erase f.idx
        leased := l.leased.erase f.idx
        retiredSince := l.retiredSince + 1 }
    let s := match (s.ctx x).launch f.tag with
      | some l => s.tellPods x l f.idx
      | none => s
    .next ((s.heightsRose x f.tag).trim x)

/-! ## HEIGHT_COPY_UPDATE (04 R104) -/

/-- HEIGHT_COPY_UPDATE: a height reaches another die's copy. Of an entry that another package holds, a message of that package tells
the die the next rise; a rise that another die here knows already is the same one (log 29). -/
def execHeightCopyUpdate (x tag die idx : Nat) (s : State) : Res :=
  match (s.ctx x).launch tag with
  | none => .next s
  | some l =>
    let b := l.block
    let c := s.ctx x
    let now := nth l.heights idx 0
    if b.cross ≤ idx || !s.dispatching x || 32 ≤ die then .next s
    else
      let h := if c.placedHere b (b.coords idx 0) then now else min (s.heightAt x die idx l + 1) b.es
      .next (s.learnHeight x tag die idx h)

/-! ## Tasks (04 R118 to R122) -/

/-- Task A writes what task B reads (04 R120). -/
def feeds (a b : TaskRec) : Bool := (taskFields a.bytes).writes.any fun w => (taskFields b.bytes).reads.any fun r => w.meets r

/-- A configuration context is resident on a core: it holds an image, or is the current one (log 30). -/
def Core.resident (c : Core) (cx : Nat) : Bool := (look c.images cx).isSome || c.cx = cx

/-- A tile that a task declares as written has no room for another version (04 R120, 05 R146). -/
def Context.ninthVersion (c : Context) (t : TaskFields) : Bool :=
  t.writes.any fun r => match c.tensor r.tensor with
    | none => false
    | some u => (r.tiles u).any fun k => 8 ≤ c.liveCount (r.tensor, k.1, k.2)

/-- A task is at the head of the queue of its priority on its die: every task ahead of it in that queue has started (04 R120; log
77). A saved context's tasks stand in no queue. -/
def State.taskHead (s : State) (x seq : Nat) : Option TaskRec :=
  s.dies.findSome? fun d =>
    match d.2.tasks.find? fun t => t.x = x && t.seq = seq && t.queued with
    | none => none
    | some t =>
      let first := d.2.tasks.find? fun u => !u.started && (s.ctxPart u.x).isSome && (taskFields u.bytes).pri = (taskFields t.bytes).pri
      if first = some t then some t else none

/-- TASK_PLACEMENT: the task at the head of its queue goes to a core of its inset with a free firing context and room, once its
lease is granted and the tasks that it reads from have retired (04 R118, R120, R123). -/
def execTaskPlacement (x seq : Nat) (k : CoreId) (s : State) : Res :=
  match s.taskHead x seq with
  | none => .next s
  | some t =>
    let f := taskFields t.bytes
    let c := s.ctx x
    let sheet := ((c.launch t.tag).map fun l => l.block.sheet).getD ⟨0, 0, 0, 0⟩
    let inset : Rect := ⟨sheet.x + f.ix, sheet.y + f.iy, 2 ^ f.lw, 2 ^ f.lh⟩
    let core := s.core k
    let ready := s.dispatching x && t.leased && rectHas inset k && core.resident f.cx && !core.freeFcs.isEmpty &&
      !(s.tasksOf x).any (fun a => a.seq < seq && feeds a t) && !c.ninthVersion f &&
      (core.waiting0 f.cx f.entry).length < 8
    if !ready then .next s
    else
      let item : QueueItem := ⟨f.cx, f.entry, bytesWords t.bytes, t.tag, t.idx, seq, true⟩
      let s := s.modCore k fun c => ({ c with points := c.points ++ [item] } : Core).endIdle none
      .next (s.mapDies fun _ d => { d with tasks := d.tasks.map fun u => if u.x = x && u.seq = seq then { u with queued := false } else u })

/-- A tile that task seq has written waits for a task of lower number that declares it written too (11 R301). -/
def State.heldTile (s : State) (x seq : Nat) (own : TaskFields) (k : TileKey) : Bool :=
  let has (t : TaskFields) : Bool := t.writes.any fun r => r.meets ⟨k.1, 1, 1, k.2.1, k.2.2⟩
  has own && (s.tasksOf x).any fun a => a.seq < seq && has (taskFields a.bytes)

/-- The record that a task's firing has consumed. -/
def Firing.record (f : Firing) : List Byte := f.words.flatMap fun w => leBytes 8 w.toNat

/-- Writes of a retired task that no lower-numbered writer holds any more become current (11 R301). -/
def State.showHeld (s : State) (x fid : Nat) : State :=
  let f := (s.ctx x).firing fid
  let own := taskFields f.record
  let free := f.writes.filter fun w => !s.heldTile x f.seq own w.1
  if free = [] then s
  else s.modCtx x fun c => (c.makeCurrent fid free).modFiring fid fun g => { g with writes := g.writes.filter fun w => !free.contains w }

/-- Retired tasks of a context with held writes, in sequence order. -/
def Context.heldTasks (c : Context) : List Nat :=
  let fs := c.firings.filter fun e => e.2.kind = .task && e.2.retired && e.2.writes ≠ []
  (fs.mergeSort fun a b => a.2.seq ≤ b.2.seq).map fun e => e.1

/-- TASK_RETIREMENT: the task's versions become current, those that a lower-numbered writer holds excepted; versions that waited on
this task follow at once (04 R122, 11 R301). Its parent is touched (13 R351). -/
def execTaskRetirement (x fid : Nat) (s : State) : Res :=
  let f := (s.ctx x).firing fid
  if !s.dispatching x || f.kind ≠ .task || !s.firingDone x fid then .next s
  else
    let parent := ((s.tasksOf x).find? fun t => t.seq = f.seq).map fun t => t.parent
    let s := s.mapDies fun _ d => { d with tasks := d.tasks.filter fun t => !(t.x = x && t.seq = f.seq) }
    let s := s.showHeld x fid
    let s := s.modCtx x fun c => c.retireFiring fid
    let s := (s.ctx x).heldTasks.foldl (fun t g => t.showHeld x g) s
    let s := match parent with
      | some p => s.modFiring x p fun g => { g with touched := true }
      | none => s
    .next ((s.launchEnds x f.tag).trim x)

/-! ## HEAT_WINDOW (05 R149) -/

/-- A plate's counts rise in a heat table of 256 plates; which plate a new one replaces in a full table is free. -/
def Die.addHeat (d : Die) (key : Nat × Nat) (elems waits pick : Nat) : Die :=
  match look d.heat key with
  | some (e, w) => { d with heat := put d.heat key (e + elems, w + waits) }
  | none =>
    let kept := if d.heat.length < 256 then d.heat else d.heat.eraseIdx (pick % 256)
    { d with heat := kept ++ [(key, (elems, waits))] }

/-- The plate of a port's oldest outstanding access: that of the next element of the load that runs on it. -/
def State.waitedPlate (s : State) (port : Nat) : Option (Nat × Nat) :=
  match s.cur.cmds.find? fun e => e.stage = .running && 1 ≤ opOf e.word && opOf e.word ≤ 2 && portOf e = some port && s.cur.portTurn e with
  | none => none
  | some e => match s.walkOf (cmdOf e.word) (opOf e.word = 2) e.pos with
    | some (.tensor t p _) => if e.pos < p.rowLen * p.rows then t.plateAt (p.pos e.pos) else none
    | _ => none

/-- HEAT_WINDOW: a port's counts of the window go to its die's heat table, those of a plate only waited for among them (05 R149).
The V-cycles in which a consumer waited are free, up to the window's length. -/
def execHeatWindow (k : CoreId) (port : Nat) (s : State) : Res :=
  let counted := (s.core k).heat.filter fun e => e.1.1 = port
  let mine := match State.waitedPlate { s with now := k } port with
    | some p => if counted.any fun e => e.1.2 = p then counted else counted ++ [((port, p), 0)]
    | none => counted
  let s := mine.foldl (fun t e =>
    let (w, t) := t.free
    let (p, t) := t.free
    t.modDie (dieOf k) fun d => d.addHeat (e.1.2.1, e.1.2.2) e.2 (w % 65537) p) s
  .next (s.modCore k fun c => { c with heat := c.heat.filter fun e => e.1.1 ≠ port })

end Sys2Proof.Machine
end

