-- ==== Sys2Proof/Machine/Halts.lean ====
section
/-!
DEFINITION. What follows a raised halt line: each unit's stop and record (13 R346, R350 to R352), the spill of held sums (09 R272,
R273), the mailbox reports (13 R353), management messages (13 R354), and the raisers outside the units (04 R110, 13 R345).
-/
namespace Sys2Proof.Machine

/-! ## Records of units that the halt has stopped -/

/-- The flag bits of a record (13 R351). -/
def stopFlags (idle resumable : Bool) : Nat := bit idle * 2 + bit (resumable && !idle) * 4

/-- The oldest command at work of a unit. -/
def Core.unitCmd (c : Core) (r : Nat) : Option CmdEntry := c.cmds.find? fun e => e.stage = .running && unitOf (opOf e.word) = r

/-- A record whose unit has nothing in flight is zero beyond its header (13 R352). -/
def bodyOr (idle : Bool) (body : List Byte) : List Byte := if idle then leBytes 48 0 else body

/-- A run's tap output belongs to fabric state that is not saved, so that it is not resumable (09 R272). -/
def Core.tapRun (c : Core) : Bool := match c.array.run with
  | none => false
  | some r => (c.usedCols r.width).any fun u => u.2.1 = 2

/-- Flags and body of record r from 8 on of a core whose unit the halt has stopped. -/
def Core.haltRecord (c : Core) (r : Nat) : Nat × List Byte :=
  let cmd := c.unitCmd r
  let idle := cmd.isNone
  match r with
  | 8 => (stopFlags c.fabricEmpty true, bodyOr c.fabricEmpty (fabricBody 0 0 0 0 c.cx 0 0))
  | 9 =>
    let idle := c.array.run.isNone && idle && c.arrayFault.isNone
    let twin := c.arrayFault.isNone && c.array.run.any fun q => !q.met
    (stopFlags idle (!c.tapRun) + bit twin * 16 + bit (c.array.sums ≠ []) * 128,
      bodyOr idle (c.arrayBody ((c.array.run.map fun q => c.queuePos q.cmd).getD 0)))
  | 10 =>
    let word : Option QWord := match c.arrayFault with
      | some w => some w
      | none => c.array.run.map fun (q : Run) => q.word
    (stopFlags word.isNone (!c.tapRun), bodyOr word.isNone (leBytes 16 ((word.map fun w => w.toNat).getD 0) ++ leBytes 32 0))
  | 13 => (stopFlags idle (!(c.cmds.any fun e => e.stage = .running && opOf e.word = 0x29)), match cmd with
      | some e => c.ringBody e
      | none => leBytes 48 0)
  | 14 => (stopFlags (c.cmds = []) true, bodyOr (c.cmds = []) (c.pathBody (leBytes 16 0)))
  | 15 => (stopFlags (idle && c.portFault.isNone) true, match c.portFault with
      | some (t, p, port, reason) => portBody (some (t, p, port)) reason
      | none => leBytes 48 0)
  | _ => (stopFlags idle true, match cmd with
      | some e => c.engineBody e
      | none => leBytes 48 0)

/-- The array stops at its cut: the row tags that have entered are complete (09 R272). -/
def Core.arrayAtCut (c : Core) : Bool := match c.array.run with
  | none => true
  | some r => r.inflight = []

/-- The code of record r when it is written at its unit's stop: what the array has detected, with the origin flag, what a port met
for another unit, without it (13 R426), and else 0. -/
def Core.haltCode (c : Core) (r : Nat) : Nat × Nat := match r with
  | 9 => match look c.origins 9 with
    | some code => (1, code)
    | none => (0, 0)
  | 10 => (0, if c.arrayFault.isSome then (look c.origins 9).getD 0 else 0)
  | 15 => (0, (c.portFault.map fun f => f.2.2.2).getD 0)
  | _ => (0, 0)

/-- A unit of a core stops: a firing context at an instruction boundary, the array at its cut (13 R346). -/
def Core.stopUnit (c : Core) (r : Nat) : Core :=
  if h : r < 8 then c.setFc ⟨r, h⟩ { c.fc ⟨r, h⟩ with stopped := true, half := none }
  else if r = 9 then
    let c := c.spillSums
    { c with array := { c.array with cut := c.array.run.map fun q => q.completed } }
  else c

/-- Core 0 of a die (01 R16). -/
def dieCore (d : Nat) : CoreId := d / 8 * 8 * 32 + d % 8 * 4

/-- Partitions under a halt that hold cores of a die, with their contexts. -/
def State.haltedOn (s : State) (d : Nat) : List (Partition × Nat) :=
  s.parts.filterMap fun p => if p.halt && (rectCores p.rect).any fun k => dieOf k = d then p.ctx.map fun x => (p, x) else none

/-- Fields of the dispatcher's record, or of the task scheduler's (13 R352). -/
def State.dieBody (s : State) (x d r : Nat) : List Byte :=
  let c := s.ctx x
  let mine (k : CoreId) : Bool := dieOf k = d
  if r = 0 then
    let seq := match look (s.die d).seqs x with
      | some b => b.1
      | none => c.counter
    let flying := (c.firings.filter fun f => f.2.kind = .point && !f.2.retired && mine f.2.k).length
    leBytes 2 c.launches.length ++ leBytes 6 0 ++ leBytes 8 seq ++ leBytes 4 flying ++ leBytes 28 0
  else
    let ts := (s.die d).tasks.filter fun t => t.x = x
    leBytes 2 ts.length ++ leBytes 2 (ts.filter fun t => t.queued).length ++ leBytes 4 0 ++ leBytes 8 (leastNat (ts.map fun t => t.seq)) ++ leBytes 32 0

/-- A die's record is written in a context's stop area. -/
def State.dieRecord (s : State) (p : Partition) (x d r : Nat) : State :=
  let c := s.ctx x
  let code := (look (s.die d).origins (p.id, r)).getD 0
  let origin := (look (s.die d).origins (p.id, r)).isSome
  let idle := if r = 0 then c.launches = [] else !(s.die d).tasks.any fun t => t.x = x
  let head := s.recordHeadOf (some p) (dieCore d) (10 + r) (bit origin + stopFlags idle true) code 0
  s.setBytes ⟨false, c.stopBase + 1024 * (p.rect.w * p.rect.h) + 128 * d + 64 * r⟩ (head ++ bodyOr idle (s.dieBody x d r))

/-- UNIT_STOP: a unit that the halt has reached stops and writes its record; one that detected a fault has written it already (13
R346, R349, R350). -/
def execUnitStop (u : UnitRef) (s : State) : Res := match u with
  | .core k rec_ =>
    let r := rec_.val
    let c := s.core k
    if !s.halted k || c.records.contains r || (r = 9 && !c.arrayAtCut) then .next s
    else
      let s := s.modCore k fun c => c.stopUnit r
      .next (if r < 8 then s.writeRecord k r (s.fcRecord k (Fin.ofNat 8 r) 0 false (s.wordAtPc k (Fin.ofNat 8 r)) 0 0)
        else s.writeRecord k r (s.unitRecord k r ((c.haltCode r).1 + (c.haltRecord r).1) (c.haltCode r).2 (c.haltRecord r).2))
  | .die d rec_ =>
    let r := rec_.val
    .next (((s.haltedOn d).filter fun p => !(s.die d).records.contains (p.1.id, r)).foldl (fun t p =>
      (t.dieRecord p.1 p.2 d r).modDie d fun e => { e with records := e.records ++ [(p.1.id, r)] }) s)

/-! ## MAILBOX_REPORT (13 R353) -/

/-- A core's slot among its cluster's eight. -/
def slotOf (k : CoreId) : Nat := k / 32 % 2 * 4 + k % 4

/-- Every record of a core is written. -/
def Core.allRecords (c : Core) : Bool := (upto 16).all fun r => c.records.contains r

/-- MAILBOX_REPORT: once its sixteen records are written, a core reports to its slot; a slot still valid only takes the overflow. -/
def execMailboxReport (k : CoreId) (s : State) : Res :=
  let c := s.core k
  if !s.halted k || !c.allRecords || c.reported then .next s
  else
    let halt := ((s.partOf k).map fun p => p.haltNum).getD 0
    let mask := (c.origins.map fun o => 2 ^ o.1).sum
    let code := ((upto 16).findSome? fun r => look c.origins r).getD 0
    let part := (s.partOf k).map fun p => p.id
    let die := coreInDie k = 0 && (s.die (dieOf k)).origins.any fun o => some o.1.1 = part
    let put_ (m : Mailbox) : Mailbox := if m.valid then { m with overflow := true }
      else ⟨halt % 65536, mask, code, true, false, die, (s.recordLoc k 0).addr⟩
    let s := s.modCluster (clusterOf k) fun cl => { cl with slots := updNth cl.slots (slotOf k) put_ }
    .next (s.modCore k fun c => { c with reported := true })

/-- Firmware acknowledges an entry of a cluster's mailbox by clearing its valid bit: a core's slot, or the power slot 8 (13 R353, 14
R398). -/
def Cluster.acknowledge (c : Cluster) (n : Nat) : Cluster :=
  if n = 8 then { c with power := { c.power with valid := false } }
  else { c with slots := updNth c.slots n fun m => { m with valid := false } }

/-! ## MANAGEMENT_MESSAGE (13 R354) -/

/-- MANAGEMENT_MESSAGE: firmware sends a word of a kind that is not reserved. -/
def execManagementMessage (k : CoreId) (w : Word) (s : State) : Res :=
  let kind := w.toNat / 2 ^ 56
  if kind = 0 || (4 ≤ kind && kind ≤ 127) then .next s else .next (s.manage k w)

/-! ## Raisers outside the units (13 R345) -/

/-- The halt line of a partition rises. -/
def State.raisePart (s : State) (p : Partition) : State := s.raiseHalt (p.rect.y * 32 + p.rect.x)

/-- An uncorrectable error in a core's registers, L1 or store buffer: the firing of a context that has not stopped ends with cause
0x15 (13 R348, R387). -/
def State.uncorrectable (s : State) (k : CoreId) (n : Fin 8) : State :=
  let f := (s.core k).fc n
  let s := s.modCore k fun c => c.countError 5
  if f.status = .free || f.stopped then s else s.raiseAt k n 0x15 true 0 0

/-- An uncorrectable error in a unit of a die: dispatcher, L2 slice or directory 0, task scheduler 1. Every partition with cores
there halts with reason 0x59, which the die's record holds (13 R348, R387; log 25). -/
def State.dieError (s : State) (d r : Nat) : State :=
  let xs := s.parts.filterMap fun p =>
    if (rectDies p.rect).contains d && !(s.die d).records.contains (p.id, r % 2) then p.ctx else none
  xs.foldl (fun t x => t.dieFault x d (r % 2) 0x59) s

/-- A corrected error is counted and changes no result (13 R387). n: 0 bank, 1 core, 2 fifo, 4 l2. -/
def State.correctedError (s : State) (k : CoreId) (n : Nat) : State :=
  if [0, 1, 2, 4].contains n then s.modCore k fun c => c.countError n else s

/-- FIRMWARE_HALT_REQUEST: reason 0x61, which no unit detects and no record carries (13 R348; log 32). -/
def execFirmwareHaltRequest (part : Nat) (s : State) : Res := match s.part part with
  | none => .next s
  | some p => .next (s.raisePart p)

/-- DIE_FAILURE: the halt line of every partition with cores on the die rises with reason 0x58, which the die's dispatcher record
carries; the leaders of its launches and the counter holder are chosen anew (04 R109, R110; log 25). -/
def execDieFailure (die : Nat) (s : State) : Res :=
  if 32 ≤ die || !(s.die die).alive then .next s
  else
    let s := s.modDie die fun d => { d with alive := false }
    let xs := s.parts.filterMap fun p => if (rectCores p.rect).any fun k => dieOf k = die then p.ctx else none
    let s := xs.foldl (fun t x => t.dieFault x die 0 0x58) s
    .next (xs.foldl (fun t x => t.electAnew x) s)

end Sys2Proof.Machine
end

