-- ==== Sys2Proof/Machine/RingCmds.lean ====
section
/-!
DEFINITION. The ring commands: `rsend` (12 R337, R338) and the inset collectives `icoll` (12 R339 to R343).
-/
namespace Sys2Proof.Machine

/-- The inset of a ring command: that of its firing's sheet that holds the core. -/
def State.insetFor (s : State) (e : CmdEntry) (lw lh : Nat) : Rect :=
  let x := s.ctx s.x
  (((x.sheetOf (x.firing e.fid)).bind fun r => insetOf r s.now lw lh)).getD ⟨s.now % 32, s.now / 32, 1, 1⟩

/-! ## rsend (12 R337, R338) -/

/-- A range in parts of n bytes, with their offsets, in increasing offset. -/
def partsOf (n : Nat) (bs : List Byte) : List (Nat × List Byte) :=
  (upto (ceilDiv bs.length n)).map fun i => (n * i, (bs.drop (n * i)).take n)

/-- The pieces of a range: up to 8 flits each (12 R325). -/
def pieces (bs : List Byte) : List (Nat × List Byte) := partsOf 512 bs

/-- The rows of a range. -/
def rowsOf (bs : List Byte) : List (Nat × List Byte) := partsOf 64 bs

/-- A range for the core itself: its rows, which enter no ring, are written each once its bank is open to the current configuration
context, and the last one completes the command. -/
def State.landOwn (s : State) (id n : Nat) : State :=
  let c := s.cur
  let ready (p : Packet) : Bool := p.isOf id && c.takesFlit p 0
  let s := s.modCore s.now fun c =>
    { (c.inject.filter ready).foldl (fun d p => d.putRow p 0) c with inject := c.inject.filter fun p => !ready p }
  if s.cur.inject.any fun p => p.isOf id then s else s.cmdDone id n

/-- RSEND: the first step reads the range and hands its pieces to the stop, or, for its own core, its rows; the acknowledgement, or
the last row, completes the command. pos is 1 once they are handed over, and count is the bytes written at the destination. -/
def execRsend (c : Cmd) (s : State) : Res := s.withCmd 0x28 c fun e =>
  let o := c.operand.toNat
  let n := (bitsOf o 63 54 + 1) * 64
  let src := acBuf (bitOf o 53)
  let into := bitsOf o 38 26 * 64
  let r := s.insetFor e (bitsOf o 15 13) (bitsOf o 12 10)
  let k : CoreId := (r.y + o % 32) * 32 + r.x + bitsOf o 9 5
  let own := k = s.now
  if e.pos = 1 then .next (if own then s.landOwn e.id n else s)
  else
    let bs := s.cur.bufBytes src (bitsOf o 52 40 * 64) n
    let piece (p : Nat × List Byte) : Packet :=
      ⟨.bulk, p.2.length / 64, s.now, k, c.cflags.toNat % 4, r, bit (bitOf o 39), into + p.1, p.2, e.id, 0⟩
    let ps := if own then rowsOf bs else pieces bs
    let t := (s.modCore s.now fun c => { c with inject := c.inject ++ ps.map piece }).modCmd e.id fun f => { f with pos := 1 }
    .next (if own then t.landOwn e.id n else t)

/-! ## Combination (12 R341) -/

/-- The order of fp32 words, -0 below +0. -/
def fp32Key (w : Nat) : Int := if bitOf w 31 then -(w % 2 ^ 31 : Nat) - 1 else (w % 2 ^ 31 : Nat)

/-- An fp32 word is NaN. -/
def fp32Nan (w : Nat) : Bool := unpackFl fp32 w = .nan

/-- Two elements combined: 0 add, 1 min, 2 max, as int32 or fp32. -/
def combine (op : Nat) (float : Bool) (a b : Nat) : Nat :=
  if float then match op with
    | 0 => (faddWord a b).1
    | 1 => if fp32Nan a || fp32Nan b then 0x7FC00000 else if fp32Key a ≤ fp32Key b then a else b
    | _ => if fp32Nan a || fp32Nan b then 0x7FC00000 else if fp32Key a ≤ fp32Key b then b else a
  else match op with
    | 0 => (a + b) % 2 ^ 32
    | 1 => if signed 32 a ≤ signed 32 b then a else b
    | _ => if signed 32 a ≤ signed 32 b then b else a

/-- The members of a row or column of n in the order in which unit u is combined: from the stop after u clockwise to u. -/
def combineOrder (n u : Nat) : List Nat := (upto n).map fun i => posOf n ((u % n + 1 + i) % n)

/-- Elements combined over a row or column: at gives each member's element. -/
def combineAlong (op : Nat) (float : Bool) (n u : Nat) (at_ : Nat → Nat) : Nat :=
  match (combineOrder n u).map at_ with
  | [] => 0
  | a :: r => r.foldl (combine op float) a

/-- Element j of the combination of an inset's sources: the rows first, then along the meridian. -/
def combineElem (op : Nat) (float : Bool) (w h j : Nat) (at_ : Nat → Nat) : Nat :=
  let u := j / 16
  combineAlong op float h u fun y => combineAlong op float w u fun x => at_ (y * w + x)

/-- Element j of bytes. -/
def elem32 (bs : List Byte) (j : Nat) : Nat := leNat ((bs.drop (4 * j)).take 4)

/-- The combination of the members' sources. -/
def combineAll (op : Nat) (float : Bool) (w h n : Nat) (srcs : List (List Byte)) : List Byte :=
  (upto (n / 4)).flatMap fun j => leBytes 4 (combineElem op float w h j fun m => elem32 (nth srcs m []) j)

/-! ## Collectives (12 R340, R342, R343) -/

/-- The collective that a command belongs to: log2 width, log2 height and number. -/
def collKey (e : CmdEntry) : Nat × Nat × Nat :=
  let o := (cmdOf e.word).operand.toNat
  (bitsOf o 10 8, bitsOf o 7 5, e.attached)

/-- The fields in which the members of a collective agree: op, combine, element, length, buffer and root. -/
def collFields (o : Nat) : Nat × Nat × Nat := (bitsOf o 63 57 * 1024 + bitsOf o 57 48, bitsOf o 47 47, bitsOf o 20 11)

/-- A core still has the collective's command at work. -/
def Core.inColl (c : Core) (key : Nat × Nat × Nat) : Bool :=
  c.cmds.any fun e => opOf e.word = 0x29 && collKey e = key && match e.stage with
    | .performed => false
    | .failed _ => false
    | _ => true

/-- What a core holds of some collectives is dropped. -/
def Core.dropColls (c : Core) (gone : Nat × Nat × Nat → Bool) : Core :=
  { c with collParts := c.collParts.filter fun p => !gone p.1, collIn := c.collIn.filter fun p => !gone p.1.1 }

/-- Contributions are dropped once no member needs them. -/
def State.endColl (s : State) (members : List CoreId) (key : Nat × Nat × Nat) : State :=
  if members.any fun k => (s.core k).inColl key then s
  else members.foldl (fun s k => s.modCore k fun c => c.dropColls fun g => g = key) s

/-- The members from which a member's result comes: the root, every member, or none but itself (12 R340). -/
def collNeeds (o me : Nat) (members : List CoreId) : List CoreId :=
  let root := bitsOf o 20 11
  let others := members.eraseIdx me
  match bitsOf o 63 61 with
  | 0 => if me = root then [] else (members[root]?).toList
  | 1 => if me = root then others else []
  | _ => others

/-- The members that a member's contribution goes to. -/
def collTakers (o me : Nat) (members : List CoreId) : List CoreId :=
  let root := bitsOf o 20 11
  let others := members.eraseIdx me
  match bitsOf o 63 61 with
  | 0 => if me = root then others else []
  | 1 => if me = root then [] else (members[root]?).toList
  | _ => others

/-- A member's contribution as packets on the inset's rings (12 R325; log 59). -/
def State.collPackets (s : State) (e : CmdEntry) (r : Rect) (me : Nat) (bs : List Byte) : List Packet :=
  let d := cmdOf e.word
  let key := collKey e
  (collTakers d.operand.toNat me (rectCores r)).flatMap fun k => (pieces bs).map fun p =>
    ⟨.collective, p.2.length / 64, s.now, k, 0, r, key.2.2 * 64 + key.1 * 8 + key.2.1, p.1, p.2, e.id, bit d.e⟩

/-- What a member waits for has arrived whole. -/
def Core.collHere (c : Core) (key : Nat × Nat × Nat) (from_ : List CoreId) (n : Nat) : Bool :=
  from_.all fun k => n ≤ (look c.collIn (key, k)).getD 0

/-- A member's command is done, with its destination written where it has one; n: bytes of a contribution. -/
def State.collDone (s : State) (e : CmdEntry) (members : List CoreId) (n : Nat) (write : Option (Nat × List Byte)) : Res :=
  let o := (cmdOf e.word).operand.toNat
  let b := acBuf (bitOf o 47)
  let s := match write with
    | some (a, bs) => s.modCore s.now fun c => (c.putBuf b a bs).setFullRange b a bs.length true
    | none => s
  .next ((s.cmdDone e.id n).endColl members (collKey e))

/-- What a member writes to its destination, from the inset's width and height, its own index, the operand and the sources. -/
abbrev CollResult := Nat → Nat → Nat → Nat → List (List Byte) → Option (List Byte)

/-- A collective that waits for its members on a core (12 R342). -/
def Core.collWaits (c : Core) : List CmdEntry := c.cmds.filter fun e => opOf e.word = 0x29 && e.stage = .running && e.pos = 1

/-- Every member of a collective that has issued it fails with reason 0x2E (12 R342), those excepted whose ring stop a halt has
stopped (13 R349). -/
def State.failColl (s : State) (members : List CoreId) (key : Nat × Nat × Nat) : State :=
  let free := members.filter fun k => !(s.core k).records.contains 13
  let mine (c : Core) : List CmdEntry := c.cmds.filter fun e => opOf e.word = 0x29 && collKey e = key && match e.stage with
    | .performed => false
    | .failed _ => false
    | _ => true
  (free.foldl (fun t k => (mine (t.core k)).foldl (fun u e => u.failCommand k e 0x2E none) t) s).endColl members key

/-- A core has not issued a collective of a size: its counter has not passed its number (12 R343). -/
def Core.notIssued (c : Core) (key : Nat × Nat × Nat) : Bool := (look c.colls (key.1, key.2.1)).getD 0 ≤ key.2.2

/-- Members that disagree in inset size: a waiting collective of a core, and one of another size that waits at a member of its inset
and whose inset holds the core, where neither core has issued the other's. Every member of both fails (12 R342; log 92). -/
def State.sizesClash (s : State) (k : CoreId) (e : CmdEntry) : Option State :=
  let rectOf (j : CoreId) (d : CmdEntry) : List CoreId := rectCores (({ s with now := j } : State).insetFor d (collKey d).1 (collKey d).2.1)
  let members := rectOf k e
  let others := members.flatMap fun j => ((s.core j).collWaits.filter fun d =>
    ((collKey d).1, (collKey d).2.1) ≠ ((collKey e).1, (collKey e).2.1) && (rectOf j d).contains k && (s.core k).notIssued (collKey d) &&
      (s.core j).notIssued (collKey e)).map fun d => (rectOf j d, collKey d)
  if !(s.core k).collWaits.contains e || others = [] then none
  else some (others.foldl (fun t d => t.failColl d.1 d.2) (s.failColl members (collKey e)))

/-- A collective's turn: the member reads its source and sends it to those who need it. Members that disagree, in the size of their
inset or, once every one has come, in a field, all fail with reason 0x2E; the others take their result when what it comes from has
arrived (12 R340, R342). -/
def State.collTurn (s : State) (e : CmdEntry) (result : CollResult) : Res :=
  let o := (cmdOf e.word).operand.toNat
  let r := s.insetFor e (bitsOf o 10 8) (bitsOf o 7 5)
  let n := (bitsOf o 57 48 + 1) * 64
  let b := acBuf (bitOf o 47)
  let members := rectCores r
  let me := (s.now / 32 - r.y) * r.w + (s.now % 32 - r.x)
  let key := collKey e
  if e.pos = 0 then
    let bs := s.cur.bufBytes b (bitsOf o 46 34 * 64) n
    let ps := s.collPackets e r me bs
    .next ((s.modCore s.now fun c => { c with collParts := put c.collParts key (e.id, o, bs), inject := c.inject ++ ps }).modCmd e.id
      fun f => { f with pos := 1 })
  else
    let parts := members.map fun k => look (s.core k).collParts key
    if parts.any fun p => p.isNone then .next ((s.sizesClash s.now e).getD s)
    else
      let ps := parts.filterMap id
      if ps.any fun p => collFields p.2.1 ≠ collFields o then
        .next (s.failColl members key)
      else if !s.cur.collHere key (collNeeds o me members) n then .next s
      else s.collDone e members n ((result r.w r.h me o (ps.map fun p => p.2.2)).map fun bs => (bitsOf o 33 21 * 64, bs))

/-- The combination that an operand asks for. -/
def combined (w h o : Nat) (srcs : List (List Byte)) : List Byte :=
  combineAll (bitsOf o 60 59) (bitOf o 58) w h ((bitsOf o 57 48 + 1) * 64) srcs

/-- ICOLL_BCAST: every destination receives the root's source. -/
def execIcollBcast (c : Cmd) (s : State) : Res := if c.icollOp ≠ 0 then .next s else s.withCmd 0x29 c fun e =>
  s.collTurn e fun _ _ _ o srcs => some (nth srcs (bitsOf o 20 11) [])

/-- ICOLL_REDUCE: the root's destination receives the combination. -/
def execIcollReduce (c : Cmd) (s : State) : Res := if c.icollOp ≠ 1 then .next s else s.withCmd 0x29 c fun e =>
  s.collTurn e fun w h me o srcs => if me = bitsOf o 20 11 then some (combined w h o srcs) else none

/-- ICOLL_ALLRED: every destination receives the combination. -/
def execIcollAllred (c : Cmd) (s : State) : Res := if c.icollOp ≠ 2 then .next s else s.withCmd 0x29 c fun e =>
  s.collTurn e fun w h _ o srcs => some (combined w h o srcs)

/-- ICOLL_GATHER: every destination receives the members' sources in order. -/
def execIcollGather (c : Cmd) (s : State) : Res :=
  if c.icollOp ≠ 3 then .next s else s.withCmd 0x29 c fun e => s.collTurn e fun _ _ _ _ srcs => some srcs.flatten

end Sys2Proof.Machine
end

