-- ==== Sys2Proof/Machine/Replays.lean ====
section
/-!
DEFINITION. Discarding firings and going on after a halt: RESUME (13 R355, R356, R358, 12 R333, R343).
-/
namespace Sys2Proof.Machine

/-! ## Discarding (13 R356, R371) -/

/-- Commands of a core are dropped where they stand, with the packets and the run that are theirs. -/
def Core.dropCmds (c : Core) (gone : CmdEntry → Bool) : Core :=
  let es := c.cmds.filter gone
  let ids := es.map fun e => e.id
  { c with
    cmds := c.cmds.filter fun e => !gone e
    inject := c.inject.filter fun p => !ids.any fun id => p.isOf id
    array := if c.array.run.any fun r => ids.contains r.cmd then { c.array with run := none, cut := none } else c.array }

/-- A firing context becomes free, its firing gone with its buffer and watch (03 R61). -/
def FiringCtx.freed (f : FiringCtx) : FiringCtx :=
  { f with
    status := .free, stopped := false, sb := [], pub := [], loops := [], watch := [], waits := [], waitCmd := none, hint := none
    woken := false, expired := false, half := none, turns := [],
    checked := false, fetched := none }

/-- The context that runs a firing on its core becomes free. -/
def Core.freeFiring (c : Core) (n : Fin 8) (fid : Nat) : Core :=
  if (c.fc n).fid ≠ fid || (c.fc n).status = .free then c
  else
    let d := c.setFc n (c.fc n).freed
    if c.run = n then d.switch else d

/-- What a discarded firing came from waits again: its point is delivered anew, its task is placed anew, its words stand at the head
of their channel, which ends an `idle` there (13 R385). A task whose parent is discarded too is gone with it. -/
def State.requeue (s : State) (x : Nat) (f : Firing) (gone : List Nat) : State := match f.kind with
  | .point => s.modCtx x fun c => c.modLaunch f.tag fun l =>
      { l with delivered := l.delivered.erase f.idx, leased := l.leased.erase f.idx }
  | .task => s.mapDies fun _ d => { d with
      tasks := (d.tasks.filter fun t => !(t.x = x && t.seq = f.seq && gone.contains t.parent)).map fun t =>
        if t.x = x && t.seq = f.seq then { t with queued := true, leased := false, started := false } else t }
  | .message =>
    let ch := ((s.ctx x).handler f.entry).inCh
    s.modCore f.k fun c => ({ c with chans := put c.chans ch (f.words ++ f.taken ++ (look c.chans ch).getD []) } : Core).endIdle none

/-- A firing is discarded: what it left uncommitted goes, with its commands but for those that are kept, and what it came from waits
again (13 R356, R371). gone: the firings that are discarded together. -/
def State.discardFiring (s : State) (x : Nat) (gone : List Nat) (keep : CmdEntry → Bool) (fid : Nat) : State :=
  let f := (s.ctx x).firing fid
  let s := s.modCore f.k fun c =>
    let c := c.dropCmds fun e => e.fid = fid && !keep e
    let c := c.dropColls fun g => f.colls.contains ((g.1, g.2.1), g.2.2)
    ({ c with amons := c.amons.filter fun a => a.fid ≠ fid } : Core).freeFiring (Fin.ofNat 8 f.fc) fid
  let s := s.dropTasks x fid
  let s := s.requeue x f gone
  let s := s.modCtx x fun c =>
    let ids := (s.core f.k).cmds.map fun e => e.id
    let c := c.dropFiring fid 0
    { c with
      changes := c.changes.map fun r => if r.owner.any fun o => o.1 = f.k && !ids.contains o.2 then { r with owner := none } else r
      podWaits := c.podWaits.filter fun w => s.podWaiters x w.1 ≠ [] }
  let s := if (s.core f.k).cmdsOf fid = [] then s else s.modFiring x fid fun g => { g with lease := f.lease, writes := f.writes }
  s.settle f.k fid

/-- Several firings are discarded. -/
def State.discard (s : State) (x : Nat) (gone : List Nat) (keep : CmdEntry → Bool) : State :=
  gone.foldl (fun t fid => t.discardFiring x gone keep fid) s

/-! ## The state of a halt -/

/-- Every unit of a partition under a halt has stopped and written its record, but for units of dies that have failed (13 R346,
R350). -/
def State.allStopped (s : State) (p : Partition) : Bool :=
  p.halt && ((rectCores p.rect).all fun k => !(s.die (dieOf k)).alive || (s.core k).allRecords) &&
    (rectDies p.rect).all fun d => !(s.die d).alive || ((s.die d).records.contains (p.id, 0) && (s.die d).records.contains (p.id, 1))

/-- The origins of a halt on a core or die allow a resume (13 R355). -/
def resumeCode (o : Nat × Nat) : Bool := if o.1 < 8 then [0x05, 0x0F, 0x13].contains o.2 else [0x21, 0x2F].contains o.2

/-- A command has failed. -/
def CmdEntry.hasFailed (e : CmdEntry) : Bool := match e.stage with
  | .failed _ => true
  | _ => false

/-- Firings of a core that a resume replays: those that ended with cause 0x05 or 0x0F, and the issuers of what failed with 0x21 or
0x2F (13 R356). -/
def Core.replayed (c : Core) : List Nat :=
  let ended := (c.origins.filter fun o => o.1 < 8 && o.2 ≠ 0x13).map fun o => (c.fc (Fin.ofNat 8 o.1)).fid
  let failed := (c.cmds.filter fun e => e.hasFailed).map fun e => e.fid
  let path := c.cmds.any fun e => e.hasFailed && unitOf (opOf e.word) = 14
  let amon := if (look c.origins 14).isSome && !path then (c.amons.head?.map fun a => a.fid).toList else []
  ended ++ failed ++ amon

/-- A core's run is one half of a twin run that is under way. -/
def Core.twinRun (c : Core) : Bool := c.array.run.any fun r => r.twin && r.met

/-- The firing that issued a core's run. -/
def Core.runFiring (c : Core) : Option Nat := c.array.run.bind fun r => (c.cmdEntry r.cmd).map fun e => e.fid

/-- A core has work in flight that its records call not resumable: a run into the tap, in either half of a twin run (09 R272, 13
R358), or a collective in progress (12 R333). -/
def State.stuck (s : State) (k : CoreId) : Bool :=
  let c := s.core k
  c.tapRun || (c.twinRun && (s.core (twinOf k)).tapRun) || c.cmds.any fun e => e.stage = .running && opOf e.word = 0x29

/-- A core's half of a twin run stays though the firing of the other half is replayed: the run cannot go on (log 33). -/
def State.halved (s : State) (k : CoreId) (gone : List Nat) : Bool :=
  let other := (s.core (twinOf k)).runFiring.any fun fid => gone.contains fid
  (s.core k).twinRun && other && !(s.core k).runFiring.any fun fid => gone.contains fid

/-- Firings that a resume of a context replays. -/
def State.replays (s : State) (p : Partition) : List Nat := ((rectCores p.rect).flatMap fun k => (s.core k).replayed).eraseDups

/-- A firing may be replayed: it is not touched and has not retired (13 R356). -/
def Firing.replayable (f : Firing) : Bool := !f.touched && !(f.retired && f.cause.isNone)

/-- The inset of a collective that a firing issued. -/
def Context.collInset (c : Context) (f : Firing) (size : Nat × Nat) : List CoreId :=
  match (c.sheetOf f).bind fun r => insetOf r f.k size.1 size.2 with
  | some r => rectCores r
  | none => [f.k]

/-- Every member of each collective that replayed firings have issued is replayed too (12 R343). -/
def Context.collsAgree (c : Context) (gone : List Nat) : Bool :=
  gone.all fun fid => (c.firing fid).colls.all fun g => (c.collInset (c.firing fid) g.1).all fun k =>
    gone.any fun other => (c.firing other).k = k && (c.firing other).colls.contains g

/-- The collective counters of the cores of replayed firings return to the number of the first collective that those had issued (12
R343). -/
def State.rewindColls (s : State) (x : Nat) (gone : List Nat) : State :=
  gone.foldl (fun t fid =>
    let f := (s.ctx x).firing fid
    f.colls.foldl (fun u g => u.modCore f.k fun c => { c with colls := put c.colls g.1 (min g.2 ((look c.colls g.1).getD g.2)) }) t) s

/-- The condition of a resume (13 R355, R356). -/
def State.mayResume (s : State) (p : Partition) (x : Nat) : Bool :=
  let gone := s.replays p
  s.allStopped p && ((rectCores p.rect).all fun k => (s.core k).origins.all resumeCode) &&
    ((rectDies p.rect).all fun d => (s.die d).origins.all fun o => o.1.1 ≠ p.id) && (gone.all fun fid => ((s.ctx x).firing fid).replayable) &&
    (s.ctx x).collsAgree gone && (rectCores p.rect).all fun k => !s.stuck k && !s.halved k gone

/-! ## RESUME (13 R356) -/

/-- What a firing's replay is known by. -/
def Firing.asReplayed (f : Firing) : Replayed := match f.kind with
  | .point => .point f.tag f.idx
  | .task => .task f.seq
  | .message => .message f.k f.entry

/-- The plate of a T-layout word. -/
def Context.plateOfWord (c : Context) (w : Nat) : List (Nat × Nat) :=
  let r := TRect.of w
  match c.tensor r.tensor with
  | some t => [(r.tensor, t.plateOf r.row0 r.col0)]
  | none => []

/-- Plates that firmware adds to the leases of a core's replayed firings: for cause 0x0F that of the tile in the record, and for a
failure 0x2F the one in the memory ports' record (13 R352, R356). -/
def State.widenings (s : State) (x : Nat) (k : CoreId) : List (Replayed × (Nat × Nat)) :=
  let c := s.core k
  let field (r off n : Nat) : Nat := leNat (s.bytesAt ((s.recordLoc k r).plus off) n)
  let ends := (c.origins.filter fun o => o.1 < 8 && o.2 = 0x0F).flatMap fun o =>
    ((s.ctx x).plateOfWord (field o.1 0x28 8)).map fun p => (((s.ctx x).firing (c.fc (Fin.ofNat 8 o.1)).fid).asReplayed, p)
  let fails := (c.cmds.filter fun e => e.stage = .failed 0x2F).map fun e =>
    (((s.ctx x).firing e.fid).asReplayed, (field 15 0x10 2, field 15 0x14 4))
  ends ++ fails

/-- The pails of failed commands return to state 1 with reason 0 (13 R356). -/
def State.healPails (s : State) (x : Nat) (k : CoreId) : State :=
  ((s.core k).cmds.filter fun e => e.hasFailed && (cmdOf e.word).p).foldl (fun t e =>
    let i := (cmdOf e.word).pail.toNat
    t.setPail x i { t.pail x i with state := 1, reason := 0 }) s

/-- The next ready context issues where no context does. -/
def Core.ensureRun (c : Core) : Core := if (c.fc c.run).status = .running && !(c.fc c.run).stopped then c else c.switch

/-- The halt line falls on a core: its units go on from where they stopped, the records are done with, and the event counters of its
context count again (17 R420). -/
def Core.goOn (c : Core) (x : Option Nat) : Core :=
  { c with
    fcs := c.fcs.map fun (f : FiringCtx) => f.resumeAt f.pc
    records := [], origins := [], portFault := none, arrayFault := none, reported := false
    counters := c.counters.map fun (e : EventCounter) => { e with live := x = some e.owner }
    array := { c.array with cut := none } }.ensureRun

/-- The halt line of a partition falls. -/
def State.lowerHalt (s : State) (p : Partition) : State :=
  let s := s.modPart p.id fun q => { q with halt := false, haltClocks := [] }
  let s := s.mapCores fun k c => if rectHas p.rect k then c.goOn p.ctx else c
  s.mapDies fun _ e => e.forgetHalt p.id

/-- The origin firings of a halt are replayed and everything else goes on, the arrays from what they reload (09 R275, 13 R356). -/
def State.resumeHere (s : State) (p : Partition) (x : Nat) : State :=
  let gone := s.replays p
  let wider := (rectCores p.rect).flatMap fun k => s.widenings x k
  let s := (rectCores p.rect).foldl (fun t k => t.healPails x k) s
  let s := (s.rewindColls x gone).discard x gone fun _ => false
  let s := s.modCtx x fun c => { c with widened := (c.widened ++ wider).eraseDups }
  ((rectCores p.rect).foldl (fun t k => t.reloadArray x k) (s.lowerHalt p)).trim x

/-- RESUME, where the condition holds. -/
def execResume (x : Nat) (s : State) : Res := match s.ctxPart x with
  | none => .next s
  | some p => if s.mayResume p x then .next (s.resumeHere p x) else .next s

end Sys2Proof.Machine
end

