-- ==== Sys2Proof/Machine/Datums.lean ====
section
/-!
DEFINITION. Datums: the cut, the commit and the hold time (13 R361 to R363, R366 to R368), and the rollback (13 R365).
-/
namespace Sys2Proof.Machine

/-! ## DATUM_CUT (13 R362, R363) -/

/-- Message-channel firings of a core in flight, oldest first. -/
def Context.messageFirings (c : Context) (k : CoreId) : List Firing :=
  (c.firings.filter fun e => e.2.k = k && e.2.kind = .message && !e.2.retired && e.2.cause.isNone).map fun e => e.2

/-- Words of a channel queue at a cut: a message-channel firing in flight counts as not yet selected (13 R363). -/
def State.cutWords (s : State) (x : Nat) (k : CoreId) (ch : Nat) : List Word :=
  let c := s.ctx x
  ((c.messageFirings k).filter fun f => (c.handler f.entry).inCh = ch).flatMap (fun f => f.words ++ f.taken) ++
    (look (s.core k).chans ch).getD []

/-- A message packet as the outbound message that it was. -/
def Packet.message (p : Packet) : Message := ⟨p.dst, 0, false, p.chan, bytesWords p.bytes, p.src, false⟩

/-- Message packets on their way from a core: with it still, or in a stop of the partition, where the last input that a packet has
entered holds it. note: 0 between cores, 4 to a port (12 R335). -/
def State.underWay (s : State) (r : Rect) (k : CoreId) (note : Nat) : List Packet :=
  let mine (p : Packet) : Bool := p.cls = .message && p.note = note && p.src = k
  (s.core k).inject.filter mine ++ (rectCores r).flatMap fun j =>
    (s.core j).stops.flatMap fun e => ((e.2.held.filter fun t => !t.started).map fun t => t.pkt).filter mine

/-- The messages that stand in a core's outbound queue, those on their way among them: they ask for room anew (13 R363, R372). -/
def State.unsent (s : State) (r : Rect) (k : CoreId) : List Message :=
  (s.underWay r k 0).map Packet.message ++ (s.core k).outbound.map fun m => { m with asked := false }

/-- What a core adds to a datum (13 R363). -/
def State.coreCut (s : State) (x : Nat) (r : Rect) (k : CoreId) : CoreCut :=
  let c := s.core k
  { k := k, masks := c.masks, chans := (((upto 30).drop 2).map fun ch => (ch, s.cutWords x k ch)).filter fun e => e.2 ≠ []
    outbound := s.unsent r k
    cx := c.cx, images := c.images, nflags := c.nflags, colls := c.colls }

/-- The datum as at this moment. -/
def State.cutHere (s : State) (x : Nat) (p : Partition) : Datum :=
  let c := s.ctx x
  { epoch := c.epoch, launches := c.launches, counter := c.counter, pails := s.bytesAt ⟨false, c.pailPa⟩ 4096
    cores := (rectCores p.rect).map fun k => s.coreCut x p.rect k
    images := c.retiring, held := c.wantDatum || c.checkpoint, released := c.released, checkpoint := false }

/-- Firings whose phase a cut ends: those in flight. -/
def Context.inFlight (c : Context) : List Nat := (c.firings.filter fun e => !e.2.retired && e.2.cause.isNone).map fun e => e.1

/-- A pre-emption's checkpoint is to be cut: every touched or committed point and task has drained (13 R371). -/
def State.checkpointDue (s : State) (x : Nat) : Bool := (s.ctx x).checkpoint && (s.ctx x).inFlight = [] && s.tasksOf x = []

/-- DATUM_CUT: a datum that is wanted is cut, on a partition that runs (13 R361, R362), a checkpoint's once its context has drained.
Each phase in progress ends at the cut (log 98), and commands issued before the cut are marked, `lsync` and `lsync.d` excepted. -/
def execDatumCut (x : Nat) (s : State) : Res := match s.ctxPart x with
  | none => .next s
  | some p =>
    let c := s.ctx x
    let due := s.checkpointDue x
    if p.halt || c.pending.isSome || !(c.wantDatum || c.req || due) then .next s
    else
      let s := c.inFlight.foldl (fun t fid => t.modCtx x fun c => (c.endPhase fid).relatch fid) s
      let d := { s.cutHere x p with checkpoint := due }
      let s := s.mapCores fun k c => if !rectHas p.rect k then c else
        { c with cmds := c.cmds.map fun e => if opOf e.word = 0x39 then e else { e with beforeCut := true } }
      .next ((s.modCtx x fun c => { c with
        pending := some d, pend := true, wantDatum := false, checkpoint := c.checkpoint && !due, retiring := []
        held := c.held.map fun h => { h with cut := true }
        msgMark := c.heldMsgs.length, undoMark := c.undo.length }).trim x)

/-! ## DATUM_COMMIT (13 R362, R366) -/

/-- Bytes at a linear address that the device itself writes for a context: a place without a translation takes none. -/
def State.deviceWrite (s : State) (x va : Nat) (bs : List Byte) : State :=
  (bs.mapIdx fun i b => (va + i, b)).foldl (fun t e => match t.engineTranslate x e.1 .store with
    | .ok l => (t.setByte l e.2).noteWrite l.line none
    | _ => t) s

/-- A held message to another package leaves for the port of its destination's die: on its partition's rings to a core of that die,
or straight where the partition has none there (12 R335, 13 R366; log 91). -/
def State.releaseMessage (s : State) (m : Message) : State :=
  let r := s.partRect m.src
  let d := dieOf m.dst
  if (rectDies r).contains d then s.toInject m.src (messagePacket m m.src (portCore d r) r 4)
  else s.sendFrame (s.cxId m.src) m.package m.dst m.chan m.words .message

/-- Commands of a partition whose completion a commit waits for (13 R362). -/
def State.beforeCut (s : State) (r : Rect) : Bool := (rectCores r).any fun k => (s.core k).cmds.any fun e => e.beforeCut

/-- DATUM_COMMIT: once every command issued before the cut has completed, the datum commits in one step. It serves the triggers that
have come since its cut (13 R362), a checkpoint excepted, which is cut when its context has drained (13 R371); a checkpoint's datum
makes the launches that it images, and that were not to be killed or drained, withdrawable (15 R416). -/
def execDatumCommit (x : Nat) (s : State) : Res := match s.ctxPart x, (s.ctx x).pending with
  | some p, some d =>
    if p.halt || s.beforeCut p.rect then .next s
    else
      let c := s.ctx x
      let imaged := d.launches ++ d.images
      let s := imaged.foldl (fun t l => t.deviceWrite x l.block.save.toNat l.image) s
      let s := s.releaseHeld x fun h => h.cut
      let s := (c.heldMsgs.take c.msgMark).foldl (fun t m => t.releaseMessage m) s
      let cutCount (l : Launch) : Nat := ((d.launches.find? fun m => m.block.tag = l.block.tag).map fun m => m.retiredSince).getD 0
      let s := s.modCtx x fun c => { c with
        gen := c.gen + 1, pend := false, req := false, imm := false, datum := some d, pending := none, wantDatum := false
        shelf := c.shelf.filter fun v => d.epoch < v.1
        withdrawable := if !d.checkpoint then c.withdrawable
          else (d.launches.filter fun l => !c.barred.contains l.serial).map fun l => l.block.tag
        undo := c.undo.drop c.undoMark, undoMark := 0, undoDone := 0, staged := false, heldMsgs := c.heldMsgs.drop c.msgMark, msgMark := 0
        released := c.released.filter fun f => !d.released.contains f
        launches := c.launches.map fun l => { l with retiredSince := l.retiredSince - cutCount l } }
      .next ((s.endDatumSyncs x (imaged.map fun l => l.serial)).trim x)
  | _, _ => .next s

/-- DATUM_HOLD_EXPIRY: external output has been held for the hold time (13 R361, R380). -/
def execDatumHoldExpiry (x : Nat) (s : State) : Res :=
  let c := s.ctx x
  if (look s.ctxs x).isSome && c.hold ≠ 0 && (c.held ≠ [] || c.heldMsgs ≠ []) then
    .next (s.modCtx x fun c => { c with wantDatum := true })
  else .next s

/-! ## ROLLBACK (13 R365) -/

/-- The entry of a plate with what `relatch` edited since the cut as it stood there: its base, its wr, or its frame, residency and
ver together. What firmware has changed beside stays (05 R144). -/
def AtlasEntry.undone (now was : AtlasEntry) (ops : List Nat) : AtlasEntry :=
  let e := if ops.contains 1 then { now with base := was.base } else now
  let e := if ops.contains 2 || ops.contains 3 then { e with wr := was.wr } else e
  if ops.contains 2 || ops.contains 4 then { e with frame := was.frame, res := was.res, ver := was.ver } else e

/-- An undo entry is applied. -/
def State.undoOne (s : State) (x : Nat) : Undo → State
  | .line n bs => (s.setBytes ⟨false, n * 64⟩ bs).noteWrite ⟨false, n⟩ none
  | .atlas t p e ops => s.modCtx x fun c => { c with atlas := put c.atlas (t, p) ((c.entryNow t p).undone e ops) }

/-- An image is read again from its source; one that no longer holds is not resident. -/
def State.reloadImage (s : State) (x : Nat) (e : Nat × Image) : Option (Nat × Image) :=
  match Image.check (s.seenBytes x e.2.source e.2.length) e.2.source e.2.sourceVa with
  | .ok i => some (e.1, i)
  | .error _ => none

/-- Handles as they were bound, with every slot free (13 R365). -/
def Handle.emptied (h : Handle) : Handle := { h with fill := 0, free := h.slots + 1, prod := 0, cons := 0 }

/-- Stop inputs whose link begins outside a rectangle: what stands in the others belongs to its context. -/
def Core.foreignStops (c : Core) (r : Rect) : List (RingLink × StopInput) :=
  c.stops.filter fun e => !rectHas r (ringCore e.1 e.1.src)

/-- A core after a rollback: what the datum holds of it, everything else of the context gone (13 R363, R365), but for messages that
a commit has released to other packages. Buffer bytes stay where no granule shows them. -/
def State.coreBack (s : State) (x : Nat) (r : Rect) (d : CoreCut) (c : Core) : Core :=
  let images := d.images.filterMap fun e => s.reloadImage x e
  let epoch := (s.ctx x).epoch
  let c := c.freeHashes
  { c with
    fcs := c.fcs.map FiringCtx.freed
    fullW := [], fullA := [], fullC := [], ownA := [], ownC := []
    handles := c.handles.map fun h => (h.1, h.2.emptied)
    bcache := [], l1 := [], il1 := [], mmu := [], mmu2 := [], cmds := [], amons := []
    images := images, cx := d.cx
    fabric := { Fabric.reset with latches := ((look images d.cx).map fun i => i.latchesAt epoch).getD [] }
    array := MArray.reset, stops := c.foreignStops r, inject := [], outbound := d.outbound, reserved := [], chans := d.chans, points := []
    masks := d.masks, eligible := [], nflags := d.nflags, colls := d.colls, collParts := [], collIn := []
    records := [], origins := [], portFault := none, arrayFault := none, reported := false }

/-- Firmware starts the first launch again where no datum has held it (13 R365). -/
def State.restartFirst (s : State) (x : Nat) : State :=
  if (s.ctx x).gen ≠ 0 then s
  else match s.checkBlock x (s.ctx x).startBlock with
    | .ok (b, hs, _) => s.install x b hs
    | .error _ => s

/-- The histories of a context's tiles as far back as they go: where a tile's plate was given another frame since the last commit,
what the tile had before the first such change (13 R363). -/
def Context.oldestHistories (c : Context) : List (TileKey × List TileVersion) :=
  let aside := c.shelf.map fun v => v.2
  let first := (aside.map fun v => v.1).eraseDups.map fun k => (k, (look aside k).getD [])
  first ++ c.tiles.filter fun t => !first.any fun v => v.1 = t.1

/-- The context stands again as at a datum, and its halt line falls (13 R365). -/
def State.rollBack (s : State) (x : Nat) (p : Partition) (d : Datum) : State :=
  let s := s.modCtx x fun c => { c with
    tiles := ((c.oldestHistories.map fun t => (t.1, t.2.filter fun v => v.since ≤ d.epoch))).filter fun t => t.2 ≠ []
    shelf := [], epoch := d.epoch, oldAtlas := [], firings := [], pins := [], held := [], heldMsgs := [], retiring := [], podWaits := [], changes := []
    widened := [], pending := none, pend := false, req := false, wantDatum := false, checkpoint := false
    preempted := false, undoMark := 0, msgMark := 0, undoDone := 0, staged := false }
  let s := (s.ctx x).undo.reverse.foldl (fun t u => t.undoOne x u) { s with l2 := s.l2.filter fun l => l.x ≠ x }
  let s := s.setBytes ⟨false, (s.ctx x).pailPa⟩ d.pails
  let s := s.withRequests p.rect fun s => s.modCtx x fun c => { c with
    undo := [], released := [], counter := d.counter
    launches := d.launches.map fun l => { l with delivered := [], leased := [], retiredSince := 0, start := l.heights } }
  let out := d.cores.map fun e => s.underWay p.rect e.k 4
  let s := (d.cores.zip out).foldl (fun t e => t.modCore e.1.k fun c => { t.coreBack x p.rect e.1 c with inject := e.2 }) s
  let s := s.mapDies fun _ e => { e with
    copies := e.copies.filter fun h => h.1.1 ≠ x
    tasks := e.tasks.filter fun t => t.x ≠ x
    seqs := unput e.seqs x }
  ((s.electAnew x).lowerHalt p).restartFirst x

/-- ROLLBACK: a halt is raised first where none stands; once every unit has stopped, the context returns to its last committed
datum. An immediate external write since then bars it (13 R368). -/
def execRollback (x : Nat) (s : State) : Res := match s.ctxPart x, (s.ctx x).datum with
  | some p, some d =>
    if (s.ctx x).imm then .next s
    else if !p.halt then .next (s.raisePart p)
    else if !s.allStopped p then .next s
    else .next (s.rollBack x p d)
  | _, _ => .next s

end Sys2Proof.Machine
end

