-- ==== Sys2Proof/Machine/Saves.lean ====
section
/-!
DEFINITION. Pre-emption (13 R370, R371), the switch save and its restore (13 R372, R373, 15 R416, R417), the halt save (13 R359) and the
end of a context (13 R355).
-/
namespace Sys2Proof.Machine

/-! ## PREEMPTION (13 R370, R371) -/

/-- What a pre-emption chooses for a launch. -/
inductive Choice where
  | drain | checkpoint | kill
  deriving DecidableEq, Repr

/-- The choice for a launch against a newcomer with t tokens (13 R370). -/
def Launch.choice (l : Launch) (t : Nat) : Choice :=
  let c := l.block.cost
  if 16 * c * ceilDiv l.remaining (l.block.sheet.w * l.block.sheet.h) ≤ 1024 * 2 ^ t then .drain
  else if 65536 ≤ 16 * c * l.retiredSince then .checkpoint
  else .kill

/-- Firings whose runs over both halves of a twin are at work on a core and its partner (13 R371). -/
def State.twinFirings (s : State) (k : CoreId) : List Nat :=
  let runs (j : CoreId) : List Nat := ((s.core j).cmds.filter fun e => opOf e.word = 0x1A && e.stage ≠ .performed).map fun e => e.fid
  let partner := if k % 2 = 0 then k + 1 else k - 1
  if runs k = [] || runs partner = [] then [] else runs k ++ runs partner

/-- Of some firings that are to be discarded, those that are no half of a twin run whose other half stays (13 R371). -/
def State.notTwinHeld (s : State) (r : Rect) (gone : List Nat) : List Nat :=
  gone.filter fun fid => (rectCores r).all fun k =>
    let ts := s.twinFirings k
    !ts.contains fid || ts.all fun t => gone.contains t

/-- Firings in flight that a pre-emption discards: of launches that are not drained, neither touched nor committed, and no half of a
twin run whose other half drains (13 R371). -/
def State.killed (s : State) (x : Nat) (r : Rect) (tags : List Nat) : List Nat :=
  let c := s.ctx x
  let may (fid : Nat) : Bool :=
    let f := c.firing fid
    f.kind ≠ .message && tags.contains f.tag && !f.touched && !f.committed
  s.notTwinHeld r (c.inFlight.filter may)

/-- Points of killed launches that wait in ch0 queues leave them: they are delivered anew later. -/
def State.dropQueued (s : State) (x : Nat) (r : Rect) (tags : List Nat) : State :=
  let gone (i : QueueItem) : Bool := !i.isTask && tags.contains i.tag
  let idxs := (rectCores r).flatMap fun k => ((s.core k).points.filter gone).map fun i => (i.tag, i.idx)
  let s := s.mapCores fun k c => if rectHas r k then { c with points := c.points.filter fun i => !gone i } else c
  s.modCtx x fun c => { c with launches := c.launches.map fun l =>
    { l with delivered := l.delivered.filter fun i => !idxs.contains (l.block.tag, i) } }

/-- PREEMPTION on behalf of a newcomer: the device chooses for each live launch, and holds delivery until the switch save. It waits
for a pending datum (13 R374), and a halt excludes it. -/
def execPreemption (x newcomer : Nat) (s : State) : Res := match s.ctxPart x with
  | none => .next s
  | some p =>
    let c := s.ctx x
    if p.halt || c.pending.isSome || c.preempted || x = newcomer || (look s.ctxs newcomer).isNone || (s.ctx newcomer).part ≠ p.id then .next s
    else
      let t := (s.ctx newcomer).tok
      let tagsOf (w : Choice → Bool) : List Nat := (c.launches.filter fun l => w (l.choice t)).map fun l => l.block.tag
      let kept := c.launches.any fun l => l.choice t = .checkpoint
      let barred := (c.launches.filter fun l => l.choice t ≠ .checkpoint).map fun l => l.serial
      let gone := tagsOf fun w => w ≠ .drain
      let s := s.discard x (s.killed x p.rect gone) fun _ => false
      let s := s.dropQueued x p.rect gone
      .next (s.modCtx x fun c => { c with preempted := true, withdrawable := [], checkpoint := kept, barred := barred })

/-! ## What a save holds of a core (13 R372) -/

/-- Bytes of the full granules of a buffer. -/
def Core.fullBytes (c : Core) (b : Buf) : Memory := (c.buf b).filter fun e => c.full b (e.1 / 16)

/-- What a save holds of a core: full granules, handles, images, queues, and of the array the held sums with their pass count (13
R360, R372). Planes come back from their source references; hash bindings are released. -/
def Core.saved (c : Core) : Core :=
  let c := c.freeHashes
  { Core.reset with
    bufA := c.fullBytes .a, bufC := c.fullBytes .c, fullA := c.fullA, fullC := c.fullC, ownA := c.ownA, ownC := c.ownC, handles := c.handles
    images := c.images, cx := c.cx, array := c.array.saved, outbound := c.outbound, chans := c.chans
    points := c.points, masks := c.masks, nflags := c.nflags, msgWin := c.msgWin
    winPages := c.winPages, colls := c.colls }

/-- A core that a context has left: what belongs to the core itself stays. -/
def Core.vacated (c : Core) (r : Rect) : Core :=
  { Core.reset with
    fcs := c.fcs.map FiringCtx.freed, guard := c.guard, soft := c.soft, spare := c.spare, stops := c.foreignStops r
    ringSerial := c.ringSerial, counters := c.counters.map fun e => { e with live := false } }

/-- A partition is left by its context: its cores are vacant, and its halt line is low. -/
def State.vacate (s : State) (p : Partition) : State :=
  let s := s.withRequests p.rect fun s => s.modPart p.id fun q => { q with ctx := none }
  let s := s.lowerHalt p
  s.mapCores fun k c => if rectHas p.rect k then c.vacated p.rect else c

/-- The saves of a partition's cores. Words of a message on its way count to the sender's outbound queue, which asks for room anew,
and a message to another package that a commit has released waits to be sent (13 R359; log 66). -/
def State.coreSaves (s : State) (p : Partition) : List CoreSave :=
  (rectCores p.rect).map fun k => ⟨k, { (s.core k).saved with outbound := s.unsent p.rect k, inject := s.underWay p.rect k 4 }⟩

/-! ## SWITCH_SAVE (13 R372) -/

/-- A core holds nothing of its context in flight: no firing, command, packet or fabric token. -/
def Core.quiet (c : Core) (r : Rect) : Bool :=
  c.cmds = [] && c.amons = [] && c.inject = [] && c.array.run.isNone && c.fabricEmpty &&
    ((List.finRange 8).all fun n => (c.fc n).status = .free) &&
    c.stops.all fun e => e.2.held = [] || !rectHas r (ringCore e.1 e.1.src)

/-- Nothing of a context is in flight. -/
def State.quiet (s : State) (x : Nat) (r : Rect) : Bool :=
  (s.ctx x).inFlight = [] && s.tasksOf x = [] && (rectCores r).all fun k => (s.core k).quiet r

/-- SWITCH_SAVE: at the end of a pre-emption, once nothing is in flight and no datum is wanted or pending (13 R374). -/
def execSwitchSave (x : Nat) (s : State) : Res := match s.ctxPart x with
  | none => .next s
  | some p =>
    let c := s.ctx x
    if p.halt || !c.preempted || c.pending.isSome || c.wantDatum || c.checkpoint || c.req || !s.quiet x p.rect then .next s
    else
      let saves := s.coreSaves p
      let s := s.modCtx x fun c => { c with
        saved := saves, haltSaved := false, launches := c.launches.map fun l => { l with leased := [] } }
      .next (s.vacate p)

/-! ## HALT_SAVE (13 R359), CONTEXT_END (13 R355) -/

/-- Causes and reasons that the units of a partition detected in its halt (13 R349). -/
def State.originCodes (s : State) (p : Partition) : List Nat :=
  ((rectCores p.rect).flatMap fun k => (s.core k).origins.map fun o => o.2) ++
    (rectDies p.rect).flatMap fun d => ((s.die d).origins.filter fun o => o.1.1 = p.id).map fun o => o.2

/-- A cause or reason that calls for a rollback, after a save too (13 R355, R387). -/
def rollbackCode (c : Nat) : Bool := [0x15, 0x24, 0x51, 0x59].contains c

/-- HALT_SAVE: once every unit has stopped, the context is saved without firing contexts and fabric. Held sums stay in the save,
tiles with their versions and the undo log in the context, and the interrupted runs in the stop area (13 R360). -/
def execHaltSave (x : Nat) (s : State) : Res := match s.ctxPart x with
  | none => .next s
  | some p =>
    if !s.allStopped p then .next s
    else
      let saves := s.coreSaves p
      .next ((s.modCtx x fun c => { c with saved := saves, haltSaved := true, haltCodes := s.originCodes p }).vacate p)

/-- The bytes of a context's stop area (13 R350). -/
def State.stopArea (s : State) (x : Nat) (p : Partition) : List Byte :=
  s.bytesAt ⟨false, (s.ctx x).stopBase⟩ (1024 * (p.rect.w * p.rect.h) + 128 * 32)

/-- What a context leaves behind in the dies. -/
def Die.without (d : Die) (x : Nat) : Die :=
  { d with
    copies := d.copies.filter fun h => h.1.1 ≠ x, tasks := d.tasks.filter fun t => t.x ≠ x, seqs := unput d.seqs x
    unacked := d.unacked.filter fun u => u.2.2 ≠ x }

/-- CONTEXT_END: a halted or saved context is destroyed; the driver learns whether a rollback was barred (13 R368) and receives the
stop area. -/
def execContextEnd (x : Nat) (s : State) : Res :=
  let c := s.ctx x
  let tell (t : State) : State := { t with notices := t.notices ++ [.contextEnded x c.imm] }
  let drop (t : State) : State := { (t.mapDies fun _ d => d.without x) with ctxs := unput t.ctxs x }
  match s.ctxPart x with
  | some p =>
    if !s.allStopped p then .next s
    else
      let area := s.stopArea x p
      let t := (tell s).vacate p
      .next (drop { t with notices := t.notices ++ [.report area] })
  | none =>
    if c.saved = [] then .next s
    else
      let area := match s.part c.part with
        | some p => if c.haltSaved then [Notice.report (s.stopArea x p)] else []
        | none => []
      let t := tell s
      .next (drop { t with notices := t.notices ++ area })

/-! ## CONTEXT_RESTORE (13 R359, R373) -/

/-- A restored handle: one on W has no slot filled (13 R373). -/
def Handle.restored (h : Handle) : Handle := if h.buf = Buf.num .w then h.emptied else h

/-- A core takes a save up again; its images come from their sources. -/
def State.coreRestored (s : State) (x : Nat) (v : Core) (now : Core) : Core :=
  let images := v.images.filterMap fun e => s.reloadImage x e
  { v with
    fcs := now.fcs, guard := now.guard, soft := now.soft, spare := now.spare, stops := now.stops, ringSerial := now.ringSerial
    handles := v.handles.map fun h => (h.1, h.2.restored), images := images
    array := s.restoreArray x v.array
    fabric := { Fabric.reset with latches := ((look images v.cx).map fun i => i.latchesAt (s.ctx x).epoch).getD [] }
    counters := now.counters.map fun e => { e with live := e.owner = x } }

/-- Withdrawn launches are not restored, and firmware tells the core at the partition's origin of each (15 R416, R417). -/
def State.withdraw (s : State) (x : Nat) (p : Partition) (tags : List Nat) : State :=
  let gone := ((s.ctx x).launches.filter fun l => tags.contains l.block.tag).map fun l => l.block.tag
  let s := s.withRequests p.rect fun s => s.modCtx x fun c => { c with
    launches := c.launches.filter fun l => !tags.contains l.block.tag }
  gone.foldl (fun t g => t.manage (p.rect.y * 32 + p.rect.x) (BitVec.ofNat 64 (0x80 * 2 ^ 56 + g % 65536))) s

/-- The end of the restore of a halt save: every firing that was in flight is replayed where none is touched and no error called for
a rollback (13 R355, R387); else the context is rolled back, or, where that is barred, stands under a halt until firmware ends it
(13 R359, R368). -/
def State.restoreHalted (s : State) (x : Nat) (p : Partition) : State :=
  let c := s.ctx x
  let all := (c.firings.filter fun e => !e.2.retired).map fun e => e.1
  if (all.all fun fid => !(c.firing fid).touched) && c.collsAgree all && !c.haltCodes.any rollbackCode then
    (((s.rewindColls x all).discard x all fun _ => false).lowerHalt p).trim x
  else match c.imm, c.datum with
    | false, some d => s.rollBack x p d
    | _, _ => s.raisePart p

/-- CONTEXT_RESTORE: a saved context returns to its partition's rectangle (13 R373), unless a unit there has no spare (13 R388).
Launches may be withdrawn that the checkpoint's datum imaged (15 R416). -/
def execContextRestore (x : Nat) (withdraw : List Nat) (s : State) : Res :=
  let c := s.ctx x
  match s.part c.part with
  | none => .next s
  | some p =>
    let offered := (rectCores p.rect).all fun k => !s.notices.contains (.noSpare (clusterOf k))
    let fits := p.ctx.isNone && c.saved ≠ [] && (c.saved.map fun v => v.k) = rectCores p.rect && offered
    if !fits || !(withdraw.all fun g => c.withdrawable.contains g) || (c.haltSaved && withdraw ≠ []) then .next s
    else
      let s := s.withRequests p.rect fun s => s.modPart p.id fun q => { q with ctx := some x, halt := false }
      let s := c.saved.foldl (fun t v => t.modCore v.k fun now => t.coreRestored x v.core now) s
      let s := (s.modCtx x fun c => { c with saved := [], haltSaved := false, preempted := false, withdrawable := [] }).electAnew x
      .next (if c.haltSaved then s.restoreHalted x { p with ctx := some x } else s.withdraw x p withdraw)

end Sys2Proof.Machine
end

