-- ==== Sys2Proof/Machine/Firmware.lean ====
section
/-!
DEFINITION. What firmware does to contexts and partitions from outside: CONTEXT_CREATE (13 R391, 04 R111, R112, 05 R138), PARTITION_CHANGE
(13 R386, 01 R27), SUBSTITUTION (13 R388, 01 R18) and CLEAN (17 R421).
-/
namespace Sys2Proof.Machine

/-! ## Handler entries (04 R111) -/

/-- Output descriptors in use of a handler entry: channel and rate. -/
def outsOf (bs : List Byte) : List (Nat × Nat) :=
  ((upto 4).map fun i => (fieldAt bs (0x14 + 2 * i) 1 % 32, fieldAt bs (0x15 + 2 * i) 1)).filter fun o => o.2 ≠ 0

/-- The fields of a handler entry. -/
def Handler.of (bs : List Byte) : Handler :=
  let w := fieldAt bs 0x10 4
  ⟨BitVec.ofNat 64 (fieldAt bs 0 8), BitVec.ofNat 64 (fieldAt bs 8 8), bitOf w 31, bitOf w 30, bitsOf w 29 28, bitsOf w 20 16, w % 256, outsOf bs⟩

/-- A descriptor keeps its rules: unused with channel 0, a spawn reservation, or a send reservation. -/
def outHolds (bs : List Byte) (i : Nat) : Bool :=
  let b := fieldAt bs (0x14 + 2 * i) 1
  let rate := fieldAt bs (0x15 + 2 * i) 1
  let ch := b % 32
  bitsOf b 7 5 = 0 && if rate = 0 then ch = 0 else
    ((ch = 1 && rate ≤ 16) || (2 ≤ ch && ch ≤ 29 && rate ≤ 64)) && !(((upto i).any fun j =>
      fieldAt bs (0x15 + 2 * j) 1 ≠ 0 && fieldAt bs (0x14 + 2 * j) 1 % 32 = ch))

/-- The rules of an entry, in the order of its fields: 0 entry, 1 state, 2 the reserved bits above, 3 in, 4 the reserved bits below,
5 rate, 6 to 9 the descriptors, 10 the reserved end. Among valid entries one at most names a channel from 2 on. before: the entries
ahead of it. -/
def handlerRules (bs : List Byte) (before : List Handler) : List Bool :=
  let h := Handler.of bs
  let w := fieldAt bs 0x10 4
  [canonical h.entry && h.entry.toNat % 4 = 0, canonical h.stateBase && h.stateBase.toNat % 64 = 0, bitsOf w 27 21 = 0,
    h.inCh ≤ 1 || !h.valid || !(before.any fun g => g.valid && g.inCh = h.inCh), bitsOf w 15 8 = 0,
    if h.inCh = 0 then h.rate = 1 else if h.inCh = 1 then h.rate = 8 else 1 ≤ h.rate && h.rate ≤ 64,
    outHolds bs 0, outHolds bs 1, outHolds bs 2, outHolds bs 3, fieldAt bs 0x1C 4 = 0]

/-- The first entry that breaks a rule, valid or not, and the rule (04 R112). -/
def handlerFault (hs : List (List Byte)) : Option (Nat × Nat) :=
  (upto hs.length).findSome? fun n =>
    let bs := nth hs n []
    ((handlerRules bs ((hs.take n).map Handler.of)).findIdx? fun r => !r).map fun f => (n, f)

/-! ## Tensor descriptors (05 R138) -/

/-- The fields of a tensor descriptor; its plates follow from its shape. -/
def Tensor.of (bs : List Byte) : Tensor :=
  let flags := fieldAt bs 3 1
  let t : Tensor := ⟨fieldAt bs 0 2, fieldAt bs 2 1, flags % 4, bitOf flags 2, fieldAt bs 4 4, fieldAt bs 8 4, 0,
    (upto 64).map fun i => fieldAt bs (0x20 + 4 * i) 4, fieldAt bs 0x10 8⟩
  { t with plates := ceilDiv (t.tr * t.tc) 64 }

/-- The rules of a descriptor, in the order of its fields: 0 id, 1 fmt, 2 flags, 3 rows, 4 cols, 5 plates, 6 the reserved word, 7
theta. -/
def tensorRules (bs : List Byte) (before : List Tensor) : List Bool :=
  let t := Tensor.of bs
  let flags := fieldAt bs 3 1
  let pow2 : Bool := [1, 2, 4, 8, 16, 32, 64].contains t.tc
  [1 ≤ t.id && !(before.any fun u => u.id = t.id), t.fmt ≤ 9,
    t.layout ≤ 2 && flags / 8 = 0 && (t.layout ≠ 2 || t.tc % 8 = 0) && (!t.rotary || (t.fmt ≤ 2 && t.layout = 0 && pow2)),
    1 ≤ t.rows && t.rows ≤ 4194304, 1 ≤ t.tc && t.tc ≤ 262144, fieldAt bs 0x0C 4 = t.plates, fieldAt bs 0x18 8 = 0,
    t.rotary || t.theta.all fun v => v = 0]

/-- The first descriptor that breaks a rule, and the rule. -/
def tensorFault (ts : List (List Byte)) : Option (Nat × Nat) :=
  (upto ts.length).findSome? fun n =>
    ((tensorRules (nth ts n []) ((ts.take n).map Tensor.of)).findIdx? fun r => !r).map fun f => (n, f)

/-! ## CONTEXT_CREATE (13 R391) -/

/-- Device bytes read as zero from here on. -/
def State.zeroRange (s : State) (a n : Nat) : State := { s with hbm := s.hbm.filter fun e => !(a ≤ e.1 && e.1 < a + n) }

/-- Every frame in a stack is zeroed before it is handed to the context (13 R389). -/
def State.zeroFrames (s : State) (es : List AtlasEntry) : State :=
  es.foldl (fun t e => if e.res ≤ 15 then t.zeroRange (e.res * stackSize + e.frame * 65536) 65536 else t) s

/-- The context that firmware sets up, before datum 0. -/
def Context.created (c : ContextParams) : Context :=
  { Context.blank with
    id := c.id, part := c.part, priv := c.priv, port := c.port, tok := c.tok.toNat, pasid := c.pasid, hold := c.hold.toNat
    stopBase := bitsOf c.stopBase 56 16 * 65536, undoBase := bitsOf c.undoBase 56 16 * 65536, undoSize := c.undoSize % 65536
    pailVa := c.pailVa, pailPa := c.pailPa, versionArea := c.versionArea, podSize := c.podSize, podIndex := c.podIndex
    quotas := (upto 8).map fun n => nth c.quotas n 0
    pages := c.pages, handlers := c.handlers.map Handler.of, tensors := c.tensors.map Tensor.of
    atlas := c.atlas.map fun e => ((e.1, e.2.1), AtlasEntry.of e.2.2.toNat)
    startBlock := c.start }

/-- Where the four pages of 4 KiB of a window region lie in device memory. -/
def windowPages (ps : List PageGrant) (win : Nat) : List Nat :=
  (upto 4).map fun i => ((pageOf ps (win + 4096 * i)).map fun p => (pageLoc p (win + 4096 * i)).addr).getD 0

/-- A core of a new context: each has its own region of eight message windows (13 R379). -/
def Core.created (c : Core) (x : Nat) (r : Rect) (win : Word) (pages : List Nat) (i : Nat) : Core :=
  let c := c.vacated r
  { c with msgWin := win + BitVec.ofNat 64 (16384 * i), winPages := pages, counters := c.counters.map fun e => { e with live := e.owner = x } }

/-- Every message window of a context's n cores lies in device pages that it may read (04 R115, 13 R379). -/
def windowsMapped (ps : List PageGrant) (win n : Nat) : Bool :=
  (upto (4 * n)).all fun i => (pageOf ps (win + 4096 * i)).any fun p => p.r && !p.onHost

/-- The pail area is 4 KiB aligned, in a device page that maps its address to its place (11 R314). -/
def pailSound (ps : List PageGrant) (va : Word) (pa : Nat) : Bool :=
  va.toNat % 4096 = 0 && canonical va && pa % 4096 = 0 && (pageOf ps va.toNat).any fun p => pageLoc p va.toNat = ⟨false, pa⟩

/-- The entries of a new context's atlases are sound, and each frame of a stack is mapped once and free (16 R419). -/
def State.atlasSound (s : State) (x : Nat) (es : List (Nat × Nat × BitVec 128)) : Bool :=
  let as_ := es.map fun e => AtlasEntry.of e.2.2.toNat
  let frames := (as_.filter fun e => e.res ≤ 16).map AtlasEntry.frameKey
  (es.all fun e => AtlasEntry.sound e.2.2.toNat) && frames.eraseDups = frames && as_.all fun e => s.frameFree x (0, 0) e

/-- A context's place in a pod group: none, or one of 2 to 64 packages (12 R334). -/
def podSound (size index : Nat) : Bool := if size ≤ 1 then index = 0 else size ≤ 64 && index < size

/-- Firmware may create a context: its number is free, the package is up, its CXL port is trained, and its partition, whose clusters
have their clock registers, runs none (01 R15, 13 R345, R378, 14 R427). -/
def State.mayCreate (s : State) (c : ContextParams) (p : Partition) : Bool :=
  s.boot = .up && (if c.port then s.port1 else s.port0) && podSound c.podSize c.podIndex && 1 ≤ c.id && c.id ≤ 65535 &&
    (look s.ctxs c.id).isNone && p.ctx.isNone && !p.halt && !p.thermal && c.handlers.length ≤ 32 &&
    c.pages.all pageSound && pailSound c.pages c.pailVa c.pailPa && s.atlasSound c.id c.atlas && c.msgWin.toNat % 16384 = 0 && canonical c.msgWin &&
    windowsMapped c.pages c.msgWin.toNat (p.rect.w * p.rect.h) && ((rectCores p.rect).map clusterOf).eraseDups.all fun cl => (s.cluster cl).loaded = 15

/-- The context is installed, datum 0 commits, and the first launch starts from the block that the driver names (04 R136). -/
def State.createHere (s : State) (c : ContextParams) (p : Partition) : State :=
  let x := c.id
  let s := { s with ctxs := put s.ctxs x (Context.created c) }
  let s := (s.zeroFrames ((s.ctx x).atlas.map fun e => e.2)).zeroRange c.pailPa 4096
  let s := s.modPart p.id fun q => { q with ctx := some x }
  let s := ((rectCores p.rect).zipIdx).foldl (fun t k => t.modCore k.1 fun e => e.created x p.rect c.msgWin (windowPages c.pages (c.msgWin.toNat + 16384 * k.2)) k.2) s
  let d := { s.cutHere x p with held := false }
  let s := (s.modCtx x fun e => { e with datum := some d }).electAnew x
  match s.checkBlock x c.start with
  | .ok (b, hs, _) => s.install x b hs
  | .error (.fail r _ _) => { s with notices := s.notices ++ [.contextRefused x 2 0 r] }
  | .error _ => s

/-- CONTEXT_CREATE: a module whose handler table or descriptors break a rule is refused whole (04 R112, 05 R138). -/
def execContextCreate (c : ContextParams) (s : State) : Res := match s.part c.part with
  | none => .next s
  | some p =>
    if !s.mayCreate c p then .next s
    else match handlerFault c.handlers, tensorFault c.tensors with
      | some f, _ => .next { s with notices := s.notices ++ [.contextRefused c.id 0 f.1 f.2] }
      | none, some f => .next { s with notices := s.notices ++ [.contextRefused c.id 1 f.1 f.2] }
      | none, none => .next (s.createHere c p)

/-! ## PARTITION_CHANGE (13 R386, 01 R27) -/

/-- A rectangle of whole clusters within the package. -/
def wholeClusters (r : Rect) : Bool :=
  r.x % 4 = 0 && r.y % 2 = 0 && r.w % 4 = 0 && r.h % 2 = 0 && 0 < r.w && 0 < r.h && r.x + r.w ≤ 32 && r.y + r.h ≤ 32

/-- Two rectangles share a core. -/
def rectsMeet (a b : Rect) : Bool := a.x < b.x + b.w && b.x < a.x + a.w && a.y < b.y + b.h && b.y < a.y + a.h

/-- Clusters of a rectangle. -/
def rectClusters (r : Rect) : List Nat := ((rectCores r).map clusterOf).eraseDups

/-- PARTITION_CHANGE: once every context on it is saved, a partition takes a new rectangle, which no cluster without spares joins
(13 R388). The guard counts of the cores that it leaves or holds return to 0; its share of the cap is spread anew (14 R397). -/
def execPartitionChange (part : Nat) (r : Rect) (s : State) : Res := match s.part part with
  | none => .next s
  | some p =>
    let saved := p.ctx.isNone && s.ctxs.all fun e => e.2.part ≠ part || e.2.saved ≠ []
    let apart_ := s.parts.all fun q => q.id = part || !rectsMeet q.rect r
    let sound := (rectClusters r).all fun cl => (rectClusters p.rect).contains cl || !s.notices.contains (.noSpare cl)
    if !(saved && apart_ && sound && wholeClusters r) || p.halt then .next s
    else
      let s := s.modPart part fun q => { q with rect := r }
      let ks := (rectCores p.rect ++ rectCores r).eraseDups
      let s := ks.foldl (fun t k => t.modCore k fun c => { c with guard := 0 }) s
      .next ((rectClusters r).foldl (fun t cl => t.modCluster cl fun c => c.changed 3 true) s)

/-! ## SUBSTITUTION (13 R388, 01 R18) -/

/-- A spare of a kind is left for a core's unit, by the counts of its sy.spare, those of bring-up among them (01 R16, R21 to R23, 13
R381); how many spare rows and lanes there are is not said. -/
def State.sparesLeft (s : State) (u : SpareKind) (k : CoreId) : Bool :=
  let used (i : Nat) : Nat := (s.core k).spare.toNat / 256 ^ i % 256
  match u with
  | .column => used 0 < 4
  | .bank => used 1 < 16
  | .slice => used 2 < 16
  | .coreSite => used 3 < 4
  | .pseudoRow => true
  | .lane => true

/-- sy.spare counts one more spare of a kind in use (13 R381). -/
def countSpare (u : SpareKind) (w : Word) : Word := match u with
  | .column => w + 1
  | .bank => w + 0x100
  | .slice => w + 0x10000
  | .coreSite => w + 0x1000000
  | _ => w

/-- SUBSTITUTION: between a save and the restore a spare takes a worn unit's place; with none left the cluster is reported. -/
def execSubstitution (part : Nat) (u : SpareKind) (k : CoreId) (index : Nat) (s : State) : Res := match s.part part with
  | none => .next s
  | some p =>
    if p.ctx.isSome || !rectHas p.rect k || !(s.ctxs.any fun e => e.2.part = part && e.2.saved ≠ []) then .next s
    else if !s.sparesLeft u k then .next (s.notify [.noSpare (clusterOf k)])
    else
      let s := { s with spares := s.spares ++ [(k, u, index)] }
      let near (j : CoreId) : Bool := if u = .column || u = .bank then j = k else dieOf j = dieOf k
      .next (((upto 1024).filter near).foldl (fun t j => t.modCore j fun c => { c with spare := countSpare u c.spare }) s)

/-! ## CLEAN (17 R421) -/

/-- Nothing of any context is in flight on a partition. -/
def State.idlePart (s : State) (p : Partition) : Bool := match p.ctx with
  | none => true
  | some x => s.quiet x p.rect

/-- Caches of a core are written back and invalid. -/
def Core.cleaned (c : Core) : Core := { c with l1 := [], il1 := [], bcache := [], mmu := [], mmu2 := [] }

/-- A line of the L2 stands in a home slice of a core of a rectangle (01 R16). -/
def L2Line.homedIn (l : L2Line) (r : Rect) : Bool := (rectCores r).any fun k => homeSlice k 0 ≤ l.slice && l.slice < homeSlice k 0 + 8

/-- The home slices of a partition's cores lose every line that no pin holds and that is no live version other than the current one,
current versions going back to their frames first (17 R421). -/
def State.cleanL2 (s : State) (r : Rect) : State :=
  (s.l2.filter fun l => l.homedIn r).foldl (fun t l => if t.pinned l || t.latched l || t.unfinished l then t else t.evictTile l) s

/-- The caches of a rectangle's cores and their home slices are cleaned. -/
def State.cleanCores (s : State) (r : Rect) : State :=
  (s.mapCores fun k c => if rectHas r k then c.cleaned else c).cleanL2 r

/-- CLEAN: no value that an agent can read changes; versions, undo entries and held output stay. -/
def execClean (part : Nat) (s : State) : Res := match s.part part with
  | none => .next s
  | some p =>
    if s.idlePart p || s.allStopped p then .next (s.cleanCores p.rect) else .next s

end Sys2Proof.Machine
end

