-- ==== Sys2Proof/Machine/Rv64.lean ====
section
/-!
DEFINITION. The cluster management cores (00 R2, 01 R17): RV64IMAC with Zicsr and Zifencei in machine and user modes, as the published
RISC-V standard has them (log 94). A management core's memory is its own; by the management interface it acts through the events of the
agenda.
-/
namespace Sys2Proof.Machine

/-! ## Instructions -/

/-- Where an operand of the second source comes from: a register, or an immediate. -/
inductive RvSrc where
  | reg (n : Nat)
  | imm (v : Int)
  deriving DecidableEq, Repr

/-- An instruction of RV64IMAC, Zicsr, Zifencei and the machine level. Register numbers are 0 to 31; alt picks subtraction, or an
arithmetic shift; w picks the 32-bit form. -/
inductive RvInstr where
  | lui (rd : Nat) (v : Int)
  | auipc (rd : Nat) (v : Int)
  | jal (rd : Nat) (off : Int)
  | jalr (rd rs : Nat) (off : Int)
  | branch (cond rs rt : Nat) (off : Int)
  | load (width rd rs : Nat) (off : Int)
  | store (width rs rt : Nat) (off : Int)
  | alu (w : Bool) (f : Nat) (alt : Bool) (rd rs : Nat) (b : RvSrc)
  | muldiv (w : Bool) (f rd rs rt : Nat)
  | amo (f : Nat) (double : Bool) (rd rs rt : Nat)
  | csr (f n rd : Nat) (src : RvSrc)
  | fence
  | ecall
  | ebreak
  | mret
  | wfi
  deriving DecidableEq, Repr

/-- The immediate of a conditional branch. -/
def rvBranchOff (w : Nat) : Int :=
  signed 13 (bitsOf w 31 31 * 4096 + bitsOf w 7 7 * 2048 + bitsOf w 30 25 * 32 + bitsOf w 11 8 * 2)

/-- The immediate of a jump. -/
def rvJumpOff (w : Nat) : Int :=
  signed 21 (bitsOf w 31 31 * 2 ^ 20 + bitsOf w 19 12 * 4096 + bitsOf w 20 20 * 2048 + bitsOf w 30 21 * 2)

/-- Operations on a register and an immediate: a shift has its own checks of the upper bits. -/
def rvOpImm (w : Bool) (v f rd rs : Nat) : Option RvInstr :=
  let top := bitsOf v 31 25 / (if w then 1 else 2)
  let arith := if w then 32 else 16
  let sh : RvSrc := .imm (bitsOf v (if w then 24 else 25) 20 : Nat)
  match f with
  | 1 => if top = 0 then some (.alu w 1 false rd rs sh) else none
  | 5 => if top = 0 then some (.alu w 5 false rd rs sh) else if top = arith then some (.alu w 5 true rd rs sh) else none
  | f => if w && f ≠ 0 then none else some (.alu w f false rd rs (.imm (signed 12 (bitsOf v 31 20))))

/-- Operations on two registers. -/
def rvOp (w : Bool) (v f rd rs rt : Nat) : Option RvInstr :=
  let wide := !w || f = 0 || f = 1 || f = 5
  match bitsOf v 31 25 with
  | 0 => if wide then some (.alu w f false rd rs (.reg rt)) else none
  | 32 => if f = 0 || f = 5 then some (.alu w f true rd rs (.reg rt)) else none
  | 1 => if w && (f = 1 || f = 2 || f = 3) then none else some (.muldiv w f rd rs rt)
  | _ => none

/-- Atomics: the operation's five bits are one of those of the A extension. -/
def rvAtomic (v f rd rs rt : Nat) : Option RvInstr :=
  let o := bitsOf v 31 27
  if (f = 2 || f = 3) && [0, 1, 2, 3, 4, 8, 12, 16, 20, 24, 28].contains o && (o ≠ 2 || rt = 0) then some (.amo o (f = 3) rd rs rt) else none

/-- The system opcode. -/
def rvSystem (v f rd rs : Nat) : Option RvInstr := match f with
  | 0 =>
    if v = 0x00000073 then some .ecall
    else if v = 0x00100073 then some .ebreak
    else if v = 0x30200073 then some .mret
    else if v = 0x10500073 then some .wfi
    else none
  | 4 => none
  | f => some (.csr (f % 4) (bitsOf v 31 20) rd (if 4 ≤ f then .imm (rs : Nat) else .reg rs))

/-- The instruction of a 32-bit word. -/
def rvDecode (v : Nat) : Option RvInstr :=
  let rd := bitsOf v 11 7
  let f := bitsOf v 14 12
  let rs := bitsOf v 19 15
  let rt := bitsOf v 24 20
  let i := signed 12 (bitsOf v 31 20)
  match v % 128 with
  | 0x37 => some (.lui rd (signed 32 (v / 4096 * 4096)))
  | 0x17 => some (.auipc rd (signed 32 (v / 4096 * 4096)))
  | 0x6F => some (.jal rd (rvJumpOff v))
  | 0x67 => if f = 0 then some (.jalr rd rs i) else none
  | 0x63 => if f = 2 || f = 3 then none else some (.branch f rs rt (rvBranchOff v))
  | 0x03 => if f = 7 then none else some (.load f rd rs i)
  | 0x23 => if 4 ≤ f then none else some (.store f rs rt (signed 12 (bitsOf v 31 25 * 32 + bitsOf v 11 7)))
  | 0x13 => rvOpImm false v f rd rs
  | 0x1B => rvOpImm true v f rd rs
  | 0x33 => rvOp false v f rd rs rt
  | 0x3B => rvOp true v f rd rs rt
  | 0x2F => rvAtomic v f rd rs rt
  | 0x0F => if f = 0 || f = 1 then some .fence else none
  | 0x73 => rvSystem v f rd rs
  | _ => none

/-- The first quadrant of the 16-bit forms. -/
def rvShort0 (h : Nat) : Option RvInstr :=
  let a := 8 + bitsOf h 9 7
  let b := 8 + bitsOf h 4 2
  let word : Int := (bitsOf h 12 10 * 8 + bitsOf h 6 6 * 4 + bitsOf h 5 5 * 64 : Nat)
  let dword : Int := (bitsOf h 12 10 * 8 + bitsOf h 6 5 * 64 : Nat)
  match bitsOf h 15 13 with
  | 0 =>
    let n := bitsOf h 12 11 * 16 + bitsOf h 10 7 * 64 + bitsOf h 6 6 * 4 + bitsOf h 5 5 * 8
    if n = 0 then none else some (.alu false 0 false b 2 (.imm n))
  | 2 => some (.load 2 b a word)
  | 3 => some (.load 3 b a dword)
  | 6 => some (.store 2 a b word)
  | 7 => some (.store 3 a b dword)
  | _ => none

/-- The second quadrant's operations on the registers 8 to 15. -/
def rvShortAlu (h : Nat) : Option RvInstr :=
  let a := 8 + bitsOf h 9 7
  let b := 8 + bitsOf h 4 2
  let sh : RvSrc := .imm (bitsOf h 12 12 * 32 + bitsOf h 6 2 : Nat)
  let op (w : Bool) (f : Nat) (alt : Bool) : Option RvInstr := some (.alu w f alt a a (.reg b))
  match bitsOf h 11 10, bitsOf h 12 12, bitsOf h 6 5 with
  | 0, _, _ => some (.alu false 5 false a a sh)
  | 1, _, _ => some (.alu false 5 true a a sh)
  | 2, _, _ => some (.alu false 7 false a a (.imm (signed 6 (bitsOf h 12 12 * 32 + bitsOf h 6 2))))
  | _, 0, 0 => op false 0 true
  | _, 0, 1 => op false 4 false
  | _, 0, 2 => op false 6 false
  | _, 0, _ => op false 7 false
  | _, _, 0 => op true 0 true
  | _, _, 1 => op true 0 false
  | _, _, _ => none

/-- The second quadrant. -/
def rvShort1 (h : Nat) : Option RvInstr :=
  let rd := bitsOf h 11 7
  let i := signed 6 (bitsOf h 12 12 * 32 + bitsOf h 6 2)
  let off := signed 9 (bitsOf h 12 12 * 256 + bitsOf h 11 10 * 8 + bitsOf h 6 5 * 64 + bitsOf h 4 3 * 2 + bitsOf h 2 2 * 32)
  match bitsOf h 15 13 with
  | 0 => some (.alu false 0 false rd rd (.imm i))
  | 1 => if rd = 0 then none else some (.alu true 0 false rd rd (.imm i))
  | 2 => some (.alu false 0 false rd 0 (.imm i))
  | 3 =>
    if rd = 2 then
      let n := signed 10 (bitsOf h 12 12 * 512 + bitsOf h 6 6 * 16 + bitsOf h 5 5 * 64 + bitsOf h 4 3 * 128 + bitsOf h 2 2 * 32)
      if n = 0 then none else some (.alu false 0 false 2 2 (.imm n))
    else if i = 0 then none
    else some (.lui rd (i * 4096))
  | 4 => rvShortAlu h
  | 5 => some (.jal 0 (signed 12 (bitsOf h 12 12 * 2048 + bitsOf h 11 11 * 16 + bitsOf h 10 9 * 256 + bitsOf h 8 8 * 1024 +
      bitsOf h 7 7 * 64 + bitsOf h 6 6 * 128 + bitsOf h 5 3 * 2 + bitsOf h 2 2 * 32)))
  | 6 => some (.branch 0 (8 + bitsOf h 9 7) 0 off)
  | _ => some (.branch 1 (8 + bitsOf h 9 7) 0 off)

/-- The third quadrant. -/
def rvShort2 (h : Nat) : Option RvInstr :=
  let rd := bitsOf h 11 7
  let rs := bitsOf h 6 2
  match bitsOf h 15 13 with
  | 0 => some (.alu false 1 false rd rd (.imm (bitsOf h 12 12 * 32 + rs : Nat)))
  | 2 => if rd = 0 then none else some (.load 2 rd 2 (bitsOf h 12 12 * 32 + bitsOf h 6 4 * 4 + bitsOf h 3 2 * 64 : Nat))
  | 3 => if rd = 0 then none else some (.load 3 rd 2 (bitsOf h 12 12 * 32 + bitsOf h 6 5 * 8 + bitsOf h 4 2 * 64 : Nat))
  | 4 => match bitOf h 12, rd, rs with
    | false, 0, 0 => none
    | false, _, 0 => some (.jalr 0 rd 0)
    | false, _, _ => some (.alu false 0 false rd 0 (.reg rs))
    | true, 0, 0 => some .ebreak
    | true, _, 0 => some (.jalr 1 rd 0)
    | true, _, _ => some (.alu false 0 false rd rd (.reg rs))
  | 6 => some (.store 2 2 rs (bitsOf h 12 9 * 4 + bitsOf h 8 7 * 64 : Nat))
  | 7 => some (.store 3 2 rs (bitsOf h 12 10 * 8 + bitsOf h 9 7 * 64 : Nat))
  | _ => none

/-- The instruction of a 16-bit form. -/
def rvShort (h : Nat) : Option RvInstr := match h % 4 with
  | 0 => rvShort0 h
  | 1 => rvShort1 h
  | 2 => rvShort2 h
  | _ => none

/-! ## Arithmetic -/

/-- The low 32 bits of a word, sign-extended. -/
def sext32 (v : Word) : Word := (v.setWidth 32).signExtend 64

/-- An operation of the base set on 64 bits. -/
def rvAlu (f : Nat) (alt : Bool) (a b : Word) : Word := match f with
  | 0 => if alt then a - b else a + b
  | 1 => a <<< (b.toNat % 64)
  | 2 => BitVec.ofNat 64 (bit (a.slt b))
  | 3 => BitVec.ofNat 64 (bit (a.ult b))
  | 4 => a ^^^ b
  | 5 => if alt then a.sshiftRight (b.toNat % 64) else a >>> (b.toNat % 64)
  | 6 => a ||| b
  | _ => a &&& b

/-- Its 32-bit form. -/
def rvAluW (f : Nat) (alt : Bool) (a b : Word) : Word :=
  let n := b.toNat % 32
  let x := a.setWidth 32
  match f with
  | 1 => (x <<< n).signExtend 64
  | 5 => (if alt then x.sshiftRight n else x >>> n).signExtend 64
  | f => sext32 (rvAlu f alt a b)

/-- Division of integers that a form reads from its operands: by zero the quotient is -1 and the remainder the dividend. -/
def rvQuotRem (rem : Bool) (a b : Int) : Int :=
  if b = 0 then (if rem then a else -1) else if rem then a.tmod b else a.tdiv b

/-- An operation of the M extension on n bits. -/
def rvMulDiv (n f : Nat) (a b : Nat) : Word :=
  let sa := signed n a
  let sb := signed n b
  let ua : Int := (a % 2 ^ n : Nat)
  let ub : Int := (b % 2 ^ n : Nat)
  let r : Int := match f with
    | 0 => sa * sb
    | 1 => sa * sb / 2 ^ n
    | 2 => sa * ub / 2 ^ n
    | 3 => ua * ub / 2 ^ n
    | 4 => rvQuotRem false sa sb
    | 5 => rvQuotRem false ua ub
    | 6 => rvQuotRem true sa sb
    | _ => rvQuotRem true ua ub
  wordOfInt (signed n (unsigned n r))

/-- What an atomic of the A extension writes. -/
def rvAtomicValue (f : Nat) (a b : Word) : Word := match f with
  | 0 => a + b
  | 1 => b
  | 4 => a ^^^ b
  | 8 => a ||| b
  | 12 => a &&& b
  | 16 => if a.sle b then a else b
  | 20 => if a.sle b then b else a
  | 24 => if a.ule b then a else b
  | _ => if a.ule b then b else a

/-- The condition of a branch. -/
def rvCond (f : Nat) (a b : Word) : Bool := match f with
  | 0 => a = b
  | 1 => a ≠ b
  | 4 => a.slt b
  | 5 => !a.slt b
  | 6 => a.ult b
  | _ => !a.ult b

/-! ## The core -/

/-- A management core after reset (log 94). -/
def RvCore.reset : RvCore where
  x := Vector.replicate 32 0
  pc := 0
  machine := true
  mie := false
  mpie := false
  mpp := false
  mprv := false
  tw := false
  mtvec := 0
  mscratch := 0
  mepc := 0
  mcause := 0
  mtval := 0
  enabled := 0
  inhibit := 0
  mcycle := 0
  minstret := 0
  reserved := none
  mem := []

/-- Register n; register 0 reads as 0. -/
def RvCore.get (c : RvCore) (n : Nat) : Word := if n = 0 then 0 else c.x.toList.getD n 0

/-- Write register n; a write to register 0 is discarded. -/
def RvCore.set (c : RvCore) (n : Nat) (v : Word) : RvCore := if n = 0 then c else { c with x := c.x.setIfInBounds n v }

/-- A source's value. -/
def RvCore.src (c : RvCore) : RvSrc → Word
  | .reg n => c.get n
  | .imm v => wordOfInt v

/-- n bytes at an address, the lowest first; addresses wrap. -/
def RvCore.read (c : RvCore) (a : Word) (n : Nat) : Nat :=
  leNat ((upto n).map fun i => c.mem.get (a + BitVec.ofNat 64 i).toNat)

/-- Write n bytes. -/
def RvCore.write (c : RvCore) (a : Word) (n v : Nat) : RvCore :=
  { c with mem := (upto n).foldl (fun m i => m.put (a + BitVec.ofNat 64 i).toNat (byteOf v i)) c.mem }

/-- The pc moves on. -/
def RvCore.goto (c : RvCore) (a : Word) : RvCore := { c with pc := a }

/-- A trap: the pc and the cause are saved, interrupts are masked, and the handler runs in machine mode. -/
def RvCore.trap (c : RvCore) (cause : Nat) (tval : Word) : RvCore :=
  { c with
    mepc := c.pc, mcause := BitVec.ofNat 64 cause, mtval := tval, mpie := c.mie, mie := false, mpp := c.machine, machine := true
    pc := c.mtvec &&& ~~~3#64 }

/-- mstatus. -/
def RvCore.status (c : RvCore) : Word :=
  BitVec.ofNat 64 (2 * 2 ^ 32 + bit c.tw * 2 ^ 21 + bit c.mprv * 2 ^ 17 + bit c.mpp * 3 * 2 ^ 11 + bit c.mpie * 128 + bit c.mie * 8)

/-- A write of mstatus: mpp holds machine or user mode. -/
def RvCore.setStatus (c : RvCore) (v : Word) : RvCore :=
  let n := v.toNat
  { c with tw := bitOf n 21, mprv := bitOf n 17, mpp := if bitsOf n 12 11 = 3 then true else if bitsOf n 12 11 = 0 then false else c.mpp
           mpie := bitOf n 7, mie := bitOf n 3 }

/-- misa: RV64 with A, C, I, M and user mode. -/
def rvIsa : Word := BitVec.ofNat 64 (2 * 2 ^ 62 + 2 ^ 20 + 2 ^ 12 + 2 ^ 8 + 2 ^ 2 + 1)

/-- A control and status register, where there is one. id: the cluster. -/
def RvCore.csr (c : RvCore) (id n : Nat) : Option Word := match n with
  | 0x300 => some c.status
  | 0x301 => some rvIsa
  | 0x304 => some c.enabled
  | 0x305 => some c.mtvec
  | 0x306 => some 0
  | 0x30A => some 0
  | 0x320 => some c.inhibit
  | 0x340 => some c.mscratch
  | 0x341 => some c.mepc
  | 0x342 => some c.mcause
  | 0x343 => some c.mtval
  | 0x344 => some 0
  | 0xB00 => some c.mcycle
  | 0xB02 => some c.minstret
  | 0xF14 => some (BitVec.ofNat 64 id)
  | n => if (0xB03 ≤ n && n ≤ 0xB1F) || (0x323 ≤ n && n ≤ 0x33F) || (0xF11 ≤ n && n ≤ 0xF15) then some 0 else none

/-- A write of a control and status register. -/
def RvCore.setCsr (c : RvCore) (n : Nat) (v : Word) : RvCore := match n with
  | 0x300 => c.setStatus v
  | 0x304 => { c with enabled := v &&& 0x888#64 }
  | 0x305 => { c with mtvec := v &&& ~~~2#64 }
  | 0x320 => { c with inhibit := v &&& 5#64 }
  | 0x340 => { c with mscratch := v }
  | 0x341 => { c with mepc := v &&& ~~~1#64 }
  | 0x342 => { c with mcause := v }
  | 0x343 => { c with mtval := v }
  | 0xB00 => { c with mcycle := v }
  | 0xB02 => { c with minstret := v }
  | _ => c

/-- A load's value: its bytes, sign-extended for the widths below 4. -/
def RvCore.loaded (c : RvCore) (width : Nat) (a : Word) : Word :=
  let n := 2 ^ (width % 4)
  let v := c.read a n
  if width < 4 then wordOfInt (signed (8 * n) v) else BitVec.ofNat 64 v

/-- An atomic: LR reserves, SC stores where the reservation stands, another reads and writes. The address is aligned. -/
def RvCore.atomic (c : RvCore) (f : Nat) (double : Bool) (rd : Nat) (a b : Word) : RvCore :=
  let n := if double then 8 else 4
  let old := wordOfInt (signed (8 * n) (c.read a n))
  let arg := if double then b else sext32 b
  match f with
  | 2 => { c.set rd old with reserved := some (a.toNat, n) }
  | 3 =>
    let ok : Bool := c.reserved = some (a.toNat, n)
    let c : RvCore := { (if ok then c.write a n b.toNat else c) with reserved := none }
    c.set rd (BitVec.ofNat 64 (bit !ok))
  | f => (c.write a n (rvAtomicValue f old arg).toNat).set rd old

/-- A csr instruction writes: it replaces the value, or its source is not x0 or 0. -/
def rvWrites (f : Nat) (src : RvSrc) : Bool := f = 1 || match src with
  | .reg r => r ≠ 0
  | .imm v => v ≠ 0

/-- A csr instruction: f is 1 to write, 2 to set bits, 3 to clear them. One that writes a read-only register, or that its mode may
not reach, is illegal. -/
def RvCore.access (c : RvCore) (id f n rd : Nat) (src : RvSrc) : Option RvCore :=
  let writes := rvWrites f src
  match c.csr id n with
  | none => none
  | some old =>
    let v := c.src src
    let new := if f = 1 then v else if f = 2 then old ||| v else old &&& ~~~v
    if (bitsOf n 9 8 ≠ 0 && !c.machine) || (writes && bitsOf n 11 10 = 3) then none
    else some ((if writes then c.setCsr n new else c).set rd old)

/-- The csr that an instruction writes, 0 for none. -/
def RvInstr.sets : RvInstr → Nat
  | .csr f n _ src => if rvWrites f src then n else 0
  | _ => 0

/-- What an instruction of len bytes does, or its trap: a cause and a value. v: its bits. -/
def RvCore.run (c : RvCore) (id len v : Nat) : RvInstr → Except (Nat × Word) RvCore
  | .lui rd i => .ok ((c.set rd (wordOfInt i)).goto (c.pc + BitVec.ofNat 64 len))
  | .auipc rd i => .ok ((c.set rd (c.pc + wordOfInt i)).goto (c.pc + BitVec.ofNat 64 len))
  | .jal rd off => .ok ((c.set rd (c.pc + BitVec.ofNat 64 len)).goto (c.pc + wordOfInt off))
  | .jalr rd rs off => .ok ((c.set rd (c.pc + BitVec.ofNat 64 len)).goto ((c.get rs + wordOfInt off) &&& ~~~1#64))
  | .branch f rs rt off =>
    .ok (c.goto (if rvCond f (c.get rs) (c.get rt) then c.pc + wordOfInt off else c.pc + BitVec.ofNat 64 len))
  | .load width rd rs off => .ok ((c.set rd (c.loaded width (c.get rs + wordOfInt off))).goto (c.pc + BitVec.ofNat 64 len))
  | .store width rs rt off =>
    .ok ((c.write (c.get rs + wordOfInt off) (2 ^ width) (c.get rt).toNat).goto (c.pc + BitVec.ofNat 64 len))
  | .alu w f alt rd rs b =>
    .ok ((c.set rd ((if w then rvAluW else rvAlu) f alt (c.get rs) (c.src b))).goto (c.pc + BitVec.ofNat 64 len))
  | .muldiv w f rd rs rt =>
    .ok ((c.set rd (rvMulDiv (if w then 32 else 64) f (c.get rs).toNat (c.get rt).toNat)).goto (c.pc + BitVec.ofNat 64 len))
  | .amo f double rd rs rt =>
    let a := c.get rs
    if a.toNat % (if double then 8 else 4) ≠ 0 then .error (if f = 2 then 4 else 6, a)
    else .ok ((c.atomic f double rd a (c.get rt)).goto (c.pc + BitVec.ofNat 64 len))
  | .csr f n rd src => match c.access id f n rd src with
    | some d => .ok (d.goto (c.pc + BitVec.ofNat 64 len))
    | none => .error (2, BitVec.ofNat 64 v)
  | .fence => .ok (c.goto (c.pc + BitVec.ofNat 64 len))
  | .ecall => .error (if c.machine then 11 else 8, 0)
  | .ebreak => .error (3, 0)
  | .mret =>
    if c.machine then
      .ok { c with pc := c.mepc, machine := c.mpp, mie := c.mpie, mpie := true, mpp := false, mprv := c.mprv && c.mpp }
    else .error (2, BitVec.ofNat 64 v)
  | .wfi => if !c.machine && c.tw then .error (2, BitVec.ofNat 64 v) else .ok (c.goto (c.pc + BitVec.ofNat 64 len))

/-- The counters go on by one instruction, but for one that it writes: ticks are not told apart. -/
def RvCore.counted (c : RvCore) (written : Nat) (retired : Bool) : RvCore :=
  { c with
    mcycle := if written ≠ 0xB00 && !c.inhibit.getLsbD 0 then c.mcycle + 1 else c.mcycle
    minstret := if retired && written ≠ 0xB02 && !c.inhibit.getLsbD 2 then c.minstret + 1 else c.minstret }

/-- One instruction of a management core: fetched at the pc, in its 16-bit or its 32-bit form, and run; an illegal one traps with
its bits. -/
def RvCore.step (c : RvCore) (id : Nat) : RvCore :=
  let h := c.read c.pc 2
  let len := if h % 4 = 3 then 4 else 2
  let v := c.read c.pc len
  match if len = 4 then rvDecode v else rvShort v with
  | none => (c.trap 2 (BitVec.ofNat 64 v)).counted 0 false
  | some i => match c.run id len v i with
    | .ok d => d.counted i.sets true
    | .error e => (c.trap e.1 e.2).counted 0 false

/-- The management core of a cluster. -/
def State.manager (s : State) (cl : Nat) : RvCore := (look s.managers cl).getD RvCore.reset

/-- A management core runs one instruction, once its image has been verified and it is released (13 R390). -/
def State.manage1 (s : State) (cl : Nat) : State :=
  if (s.boot = .verified || s.boot = .up) && cl < 128 then { s with managers := put s.managers cl ((s.manager cl).step cl) } else s

/-- A management core begins with its image (13 R390; log 94). -/
def RvCore.loadedWith (bs : List Byte) : RvCore := { RvCore.reset with mem := Memory.putBytes [] 0 bs }

end Sys2Proof.Machine
end

