-- ==== Sys2Proof/Machine/Boot.lean ====
section
/-!
DEFINITION. Power-on, boot and bring-up (13 R389 to R391, 14 R427), and the SPDM responder (13 R392). What the answers carry beyond
the manual's words is presumed from SPDM 1.3 (log 41).
-/
namespace Sys2Proof.Machine

/-! ## POWER_ON_RESET (13 R389) -/

/-- What the stacks themselves hold: of a line whose latest bytes stand in a cache alone, those beneath (03 R68). -/
def State.stacks (s : State) : Memory := s.beneath.foldl (fun m e => m.putBytes (e.1 * 64) e.2) s.hbm

/-- POWER_ON_RESET, or a CXL reset: every register has its reset value, no context is left and the caches are invalid; HBM keeps its
contents. What has left the device, and what the model's agenda and free values hold, is not the device's. -/
def execPowerOnReset (s : State) : Res :=
  .next { State.reset with
    hbm := s.stacks, hostMem := s.hostMem, now := s.now, agenda := s.agenda, freeCtr := s.freeCtr, notices := s.notices }

/-! ## BOOT (13 R390) -/

/-- An image verifies: its key is the one that the fuses name, its signature is of that key, and its version is not rolled back. -/
def imageVerifies (i : FirmwareImage) : Bool :=
  shake256 i.key = Config.fusedRootDigest && ed448Verify i.key i.signature i.bytes && Config.fusedVersion ≤ i.version

/-- The units that wait for an image: the management cores of the 128 clusters and the base dies of the 16 stacks (01 R14, R17, 13
R390). -/
def bootUnits : List FirmwareUnit := (upto 128).map FirmwareUnit.management ++ (upto 16).map FirmwareUnit.baseDie

/-- The images of a boot: the first one is that of cluster 0's management core, and there is one for every unit. -/
def bootSet (imgs : List FirmwareImage) : Bool :=
  (imgs.head?.map fun i => i.target) = some (.management 0) && bootUnits.all fun u => imgs.any fun i => i.target = u

/-- The management cores that images are for, each with its image. -/
def managersOf (imgs : List FirmwareImage) : List (Nat × RvCore) := imgs.filterMap fun i => match i.target with
  | .management cl => some (cl, RvCore.loadedWith i.bytes)
  | .baseDie _ => none

/-- BOOT: the image of every unit is there and verifies, the first one first, and the management cores begin with theirs, or the
device stands in recovery. Each image that verifies before the first that does not is measured, and the first one's digest is kept
for the identity key (13 R392). -/
def execBoot (imgs : List FirmwareImage) (s : State) : Res :=
  if s.boot ≠ .off then .next s
  else
    let ok := bootSet imgs && imgs.all imageVerifies
    .next { s with
      boot := if ok then .verified else .recovery
      managers := if ok then managersOf imgs else s.managers
      measured := (imgs.takeWhile imageVerifies).map fun i => shake256 i.bytes
      firstDigest := (imgs.head?.map fun i => shake256 i.bytes).getD [] }

/-! ## BRING_UP (13 R391, 14 R427) -/

/-- A cluster's clock registers are loaded. -/
def Cluster.load (c : Cluster) (l : ClusterLoad) : Cluster :=
  ((c.writeClkdef l.clkdef.toNat).writeVfloor (l.vfloor.toNat % 4096)).writePcoef l.pcoef

/-- Partitions of bring-up, numbered from 0. -/
def partitionsOf (b : BringUp) : List Partition :=
  b.parts.mapIdx fun n p => ⟨n, p.1, none, false, 0, false, BitVec.ofNat 64 (p.2.toNat % 65536), []⟩

/-- The partitions are of whole clusters and share no core (01 R27). -/
def partsSound (b : BringUp) : Bool :=
  b.parts.all (fun p => wholeClusters p.1) &&
    (upto b.parts.length).all fun i => (upto i).all fun j => match b.parts[i]?, b.parts[j]? with
      | some p, some q => !rectsMeet p.1 q.1
      | _, _ => true

/-- The cap is one that firmware may set, and the partitions' shares together stay within it (01 R26, 14 R395). -/
def capSound (b : BringUp) : Bool :=
  2400 ≤ b.cap && b.cap ≤ 6000 && b.cap % 50 = 0 && (b.parts.map fun p => p.2.toNat % 65536).sum ≤ b.cap

/-- Spares in use are no more than there are (01 R16, R21 to R23). -/
def spareSound (w : Word) : Bool :=
  (upto 4).all (fun i => w.toNat / 256 ^ i % 256 ≤ nth [4, 16, 16, 4] i 0) && w.toNat < 2 ^ 32

/-- The spare map of a core: columns and banks are its own, slices and sites its die's (13 R381). -/
def State.loadSpares (s : State) (k : CoreId) (w : Word) : State :=
  ((upto 1024).filter fun j => dieOf j = dieOf k).foldl (fun t j => t.modCore j fun c =>
    { c with spare := if j = k then w else BitVec.ofNat 64 (w.toNat / 65536 * 65536 + c.spare.toNat % 65536) }) s

/-- No partition takes a cluster that firmware has reported for want of spares (13 R388). -/
def State.clustersOffered (s : State) (rs : List Rect) : Bool :=
  rs.all fun r => (rectClusters r).all fun cl => !s.notices.contains (.noSpare cl)

/-- BRING_UP: a verified device clears its cores, loads its clusters, its partitions with their share of the cap, the cap and the
spare maps, trains at least one CXL port, and is presented to the host. In recovery CXL is not trained. -/
def execBringUp (b : BringUp) (s : State) : Res :=
  let sound := partsSound b && capSound b && (b.spares.all fun e => spareSound e.2) && (b.port0 || b.port1)
  if s.boot ≠ .verified || !sound || !s.clustersOffered (b.parts.map fun p => p.1) then .next s
  else
    let s := { s with cores := [] }
    let s := b.clusters.foldl (fun t l => t.modCluster l.cl fun c => c.load l) s
    let s := { s with
      parts := partitionsOf b, cap := b.cap, flows := b.flows, port0 := b.port0, port1 := b.port1, etherType := b.ether, boot := .up }
    let s := (b.parts.flatMap fun p => rectClusters p.1).foldl (fun t cl => t.modCluster cl fun c => c.changed 3 true) s
    .next (b.spares.foldl (fun t e => t.loadSpares e.1 e.2) s)

/-! ## SPDM (13 R392; log 41) -/

/-- The secret of the device identity key of this boot. -/
def State.identity (s : State) : List Byte := shake (Config.fusedSecret ++ Config.bootRomDigest ++ s.firstDigest) 57

/-- Bytes with the device's signature over them. -/
def State.withSignature (s : State) (bs : List Byte) : List Byte := bs ++ ed448Sign s.identity bs

/-- The measurements: of each verified image, and of the fuse state. -/
def State.measurements (s : State) : List (List Byte) :=
  s.measured ++ [shake256 (Config.fusedRootDigest ++ leBytes 8 Config.fusedVersion)]

/-- The transport of the request at hand is there: the sideband bus from the boot on, and CXL.io once a port is trained; a device in
recovery answers on the sideband bus alone (13 R390 to R392). -/
def State.hears (s : State) : Bool := s.boot ≠ .off && (!s.viaIo || s.boot = .up)

/-- An answer leaves on MCTP, by the transport that its request came by. -/
def State.answers (s : State) (ok : Bool) (code : Nat) (body : List Byte) (f : Spdm → Spdm) : Res :=
  if !s.hears then .next s
  else if ok then .next { s with spdm := f s.spdm, notices := s.notices ++ [.spdm code body] }
  else .next { s with notices := s.notices ++ [.spdm 0x7F [0x04]] }

/-- GET_VERSION: version 1.3; the connection starts anew. -/
def execGetVersion (s : State) : Res :=
  s.answers true 0x04 [0x13] fun p => { p with version := true, algorithms := false }

/-- GET_CAPABILITIES. -/
def execGetCapabilities (s : State) : Res := s.answers s.spdm.version 0x61 [] id

/-- NEGOTIATE_ALGORITHMS: signatures are Ed448, digests SHAKE256. -/
def execNegotiateAlgorithms (ed448 shake256 : Bool) (s : State) : Res :=
  s.answers (s.spdm.version && ed448 && shake256) 0x63 [] fun p => { p with algorithms := true }

/-- GET_DIGESTS: the digest of the certificate chain. -/
def execGetDigests (s : State) : Res := s.answers s.spdm.algorithms 0x01 (shake256 Config.certificateChain) id

/-- GET_CERTIFICATE: a part of the certificate chain. -/
def execGetCertificate (offset len : Nat) (s : State) : Res :=
  s.answers s.spdm.algorithms 0x02 ((Config.certificateChain.drop offset).take len) id

/-- CHALLENGE: the chain's digest, the nonce and the digest of the measurements, signed. -/
def execChallenge (nonce : List Byte) (s : State) : Res :=
  s.answers s.spdm.algorithms 0x03
    (s.withSignature (shake256 Config.certificateChain ++ nonce ++ shake256 s.measurements.flatten)) id

/-- GET_MEASUREMENTS: the measurements and the nonce, signed. -/
def execGetMeasurements (nonce : List Byte) (s : State) : Res :=
  s.answers s.spdm.algorithms 0x60 (s.withSignature (s.measurements.flatten ++ nonce)) id

/-- KEY_EXCHANGE: a session key comes of the requester's share, and the answer is signed. -/
def execKeyExchange (share : List Byte) (s : State) : Res :=
  s.answers s.spdm.algorithms 0x64 (s.withSignature share) fun p =>
    { p with exchanging := true, session := false, key := Config.sessionKey share 0, updates := 0 }

/-- FINISH: with the right proof the session stands, and its IDE keys are programmed into the ports. -/
def execFinish (proof : List Byte) (s : State) : Res :=
  let ok := s.spdm.exchanging && proof = Config.finishProof s.spdm.key
  let t := if ok && s.hears then { s with ideKeys := Config.ideKeys s.spdm.key } else s
  t.answers ok 0x65 [] fun p => { p with exchanging := false, session := true }

/-- KEY_UPDATE. -/
def execKeyUpdate (s : State) : Res :=
  s.answers s.spdm.session 0x69 [] fun p => { p with key := Config.sessionKey p.key (p.updates + 1), updates := p.updates + 1 }

/-- END_SESSION. -/
def execEndSession (s : State) : Res := s.answers s.spdm.session 0x6C [] fun p => { p with session := false, key := [], updates := 0 }

/-- Any other SPDM request is answered with the UnsupportedRequest error. -/
def execUnsupportedSpdmRequest (code : Byte) (s : State) : Res :=
  s.answers true 0x7F [0x07, code] id

end Sys2Proof.Machine
end

