-- ==== Sys2Proof/Machine/Fetch.lean ====
section
/-!
DEFINITION. Commands that move tile lines and bytes: tfetch, subs, pull, gath, scat, copy, fill (05 R163 to R168) and pref
(05 R176).
-/
namespace Sys2Proof.Machine

/-! ## Tile lines in slots -/

/-- Tile lines that a slot of a handle holds (05 R151). -/
def Core.linesPerSlot (c : Core) (h : Nat) : Nat := (c.handle h).bytes / 1024

/-- A producer's unit of n bytes is in its slot at unit u of a command of total units: the slot is filled when it, or the data,
ends. -/
def Core.putUnit (c : Core) (h u total per : Nat) (bs : List Byte) : Core :=
  let c := c.fillSlot h (u % per * bs.length) bs
  if u % per + 1 = per || u + 1 = total then c.endFill h else c

/-- A consumer has read unit u of n bytes. -/
def State.readUnit (s : State) (h u total per n : Nat) : State :=
  let s := s.modCore s.now fun k => k.drainSlot h (u % per * n) n
  if u % per + 1 = per || u + 1 = total then s.endDrain h else s

/-- The tensor of a rectangle command, or the failure of one that its context has lost. -/
def State.withTensor (s : State) (e : CmdEntry) (id : Nat) (k : Tensor → Res) : Res :=
  match (s.ctx s.x).tensor id with
  | some t => k t
  | none => .next (s.failCommand s.now e 0x21 none)

/-- TFETCH: a tile line of the rectangle a step into the slots of hA, rotated where the tensor is, and pinned until the consumer
releases the slot (05 R147, R163). A line that would be the ninth pinned one of its set waits. -/
def execTfetch (c : Cmd) (s : State) : Res := s.withCmd 0x05 c fun e =>
  let r := TRect.of c.operand.toNat
  let h := c.hA.toNat
  s.withTensor e r.tensor fun t =>
    if e.pos = r.count then .next (s.cmdDone e.id (1024 * r.count))
    else if !s.cur.mayFill e.id h then .next s
    else
      let at_ := r.walk e.pos
      s.tryCmd e 1 (s.fetchTile s.x e.fid t at_.1 at_.2) fun bs =>
        let key : TileKey := (t.id, at_.1, at_.2)
        let inside := t.hasTile at_.1 at_.2
        if inside && !s.mayPin s.x e.fid key then .next s
        else
        let pin : Pin := ⟨key, s.now, h, (s.cur.handle h).prod, e.fid, (s.ctx s.x).pinLatch e.fid key⟩
        let s := s.touchTile s.x e.fid t at_.1 at_.2 c.e
        let s := if inside then s.modCtx s.x fun x => { x with pins := x.pins ++ [pin] } else s
        .next ((s.modCore s.now fun k => k.putUnit h e.pos r.count (k.linesPerSlot h) bs).cmdMoves e.id 1024)

/-- SUBS, the stream command: the rectangle's tile lines in walk order, repeated, a line a step (05 R164). -/
def execStreamSubs (c : Cmd) (s : State) : Res := s.withCmd 0x06 c fun e =>
  let r := TRect.of c.operand.toNat
  let h := c.hA.toNat
  let total := r.count * (c.cflags.toNat + 1)
  s.withTensor e r.tensor fun t =>
    if e.pos = total then .next (s.cmdDone e.id (1024 * total))
    else if !s.cur.mayFill e.id h then .next s
    else
      let at_ := r.walk (e.pos % r.count)
      s.tryCmd e 2 (s.fetchTile s.x e.fid t at_.1 at_.2) fun bs =>
        let s := s.touchTile s.x e.fid t at_.1 at_.2 c.e
        .next ((s.modCore s.now fun k => k.putUnit h e.pos total (k.linesPerSlot h) bs).cmdMoves e.id 1024)

/-- PULL: a tile line a step from the slots of hA into new versions of the phase (05 R165). -/
def execPull (c : Cmd) (s : State) : Res := s.withCmd 0x07 c fun e =>
  let r := TRect.of c.operand.toNat
  let h := c.hA.toNat
  s.withTensor e r.tensor fun t =>
    if e.pos = r.count then .next (s.cmdDone e.id (1024 * r.count))
    else if !s.cur.mayDrain e.id h then .next s
    else
      let at_ := r.walk e.pos
      let per := s.cur.linesPerSlot h
      let bs := s.cur.slotBytes h (e.pos % per * 1024) 1024
      s.tryCmd e 2 (s.writeTile s.x e.fid t at_.1 at_.2 fun _ => bs) fun s =>
        let s := s.touchTile s.x e.fid t at_.1 at_.2 c.e
        .next ((s.readUnit h e.pos r.count per 1024).cmdMoves e.id 1024)

/-- PREF: the lines of the rectangle in leased plates come to their home slices; nothing is pinned or delivered (05 R176). A plate
whose walk fails fails the command. -/
def execStreamPref (c : Cmd) (s : State) : Res := s.withCmd 0x32 c fun e =>
  let r := TRect.of c.operand.toNat
  s.withTensor e r.tensor fun t =>
    let f := (s.ctx s.x).firing e.fid
    let bad := (r.tiles t).findSome? fun k =>
      if (f.leaseCheck t k.1 k.2).isSome then none
      else match s.readTile s.x e.fid t k.1 k.2 with
        | .ok _ => none
        | .error x => some x
    match bad with
    | some x => s.cmdError e 3 x
    | none =>
      let near := (r.tiles t).filter fun k => (f.leaseCheck t k.1 k.2).isNone
      let s := near.foldl (fun u k => u.touchTile s.x e.fid t k.1 k.2 c.e) s
      .next (s.cmdDone e.id (1024 * r.count))

/-! ## gath and scat (05 R166) -/

/-- The operand of `gath` and `scat`: tensor, indices, tile columns, origin tile column. -/
structure Gather where
  tensor : Nat
  count : Nat
  cols : Nat
  col0 : Nat
  deriving DecidableEq, Repr

/-- The fields of an X operand. -/
def Gather.of (o : Nat) : Gather := ⟨bitsOf o 63 48, bitsOf o 47 36 + 1, bitsOf o 35 30 + 1, bitsOf o 17 0⟩

/-- Index n in the consumer slots of hB. -/
def Core.indexAt (c : Core) (h n : Nat) : Int :=
  let per := (c.handle h).bytes / 4
  signed 32 (leNat (c.slotBytes h (n % per * 4) 4))

/-- The 64 bytes of a row in a tile. -/
def tileRow (bs : List Byte) (v : Nat) : List Byte := (bs.drop (v % 16 * 64)).take 64

/-- An index has been used: its granule is done with once all four of its indices are (05 R151). -/
def State.indexUsed (s : State) (h n count : Nat) : State :=
  let per := (s.cur.handle h).bytes / 4
  let s := if n % 4 = 3 then s.modCore s.now fun k => k.drainSlot h (n % per / 4 * 16) 16 else s
  if n % per + 1 = per || n + 1 = count then s.endDrain h else s

/-- GATH: 64 bytes of a row a step, in index order; a row out of range is zeros. -/
def execGath (c : Cmd) (s : State) : Res := s.withCmd 0x08 c fun e =>
  let g := Gather.of c.operand.toNat
  let a := c.hA.toNat
  let b := c.hB.toNat
  let total := g.count * g.cols
  s.withTensor e g.tensor fun t =>
    if e.pos = total then .next (s.cmdDone e.id (64 * total))
    else if !s.cur.mayFill e.id a || !s.cur.mayDrain e.id b then .next s
    else
      let v := s.cur.indexAt b (e.pos / g.cols)
      let inside := 0 ≤ v && v < t.rows
      let col := g.col0 + e.pos % g.cols
      let put (s : State) (bs : List Byte) : Res :=
        let s := s.modCore s.now fun k => k.putUnit a e.pos total ((k.handle a).bytes / 64) bs
        let s := if e.pos % g.cols + 1 = g.cols then s.indexUsed b (e.pos / g.cols) g.count else s
        .next (s.cmdMoves e.id 64)
      if !inside then put s (List.replicate 64 0)
      else s.tryCmd e 2 (s.fetchTile s.x e.fid t (v.toNat / 16) col) fun bs =>
        put (s.touchTile s.x e.fid t (v.toNat / 16) col c.e) (tileRow bs v.toNat)

/-- SCAT: 64 bytes of a row a step into the phase's new versions; a row out of range is dropped. -/
def execScat (c : Cmd) (s : State) : Res := s.withCmd 0x09 c fun e =>
  let g := Gather.of c.operand.toNat
  let a := c.hA.toNat
  let b := c.hB.toNat
  let total := g.count * g.cols
  s.withTensor e g.tensor fun t =>
    if e.pos = total then .next (s.cmdDone e.id (64 * total))
    else if !s.cur.mayDrain e.id a || !s.cur.mayDrain e.id b then .next s
    else
      let v := s.cur.indexAt b (e.pos / g.cols)
      let per := (s.cur.handle a).bytes / 64
      let bs := s.cur.slotBytes a (e.pos % per * 64) 64
      let next (s : State) : Res :=
        let s := s.readUnit a e.pos total per 64
        let s := if e.pos % g.cols + 1 = g.cols then s.indexUsed b (e.pos / g.cols) g.count else s
        .next (s.cmdMoves e.id 64)
      if v < 0 || t.rows ≤ v.toNat then next s
      else
        let off := v.toNat % 16 * 64
        s.tryCmd e 2 (s.writeTile s.x e.fid t (v.toNat / 16) (g.col0 + e.pos % g.cols) fun old =>
          old.take off ++ bs ++ old.drop (off + 64)) fun s => next (s.touchTile s.x e.fid t (v.toNat / 16) (g.col0 + e.pos % g.cols) c.e)

/-! ## copy (05 R167) -/

/-- The 64 bytes of a copy's source at unit u. -/
def State.copyRead (s : State) (e : CmdEntry) (d : CopyDesc) (u : Nat) : Except TErr (List Byte) :=
  match d.srcKind with
  | 0 => s.engineRead s.x (d.src + 64 * u) 64
  | 1 =>
    let r := TRect.of d.src
    let at_ := r.walk (u / 16)
    match (s.ctx s.x).tensor r.tensor with
    | none => .error (.fail 0x21 0 0)
    | some t => match s.readTile s.x e.fid t at_.1 at_.2 with
      | .error x => .error x
      | .ok bs => .ok ((bs.drop (u % 16 * 64)).take 64)
  | _ =>
    let h := (cmdOf e.word).hB.toNat
    .ok (s.cur.slotBytes h (u % ((s.cur.handle h).bytes / 64) * 64) 64)

/-- 64 bytes of a copy reach its destination at unit u. -/
def State.copyWrite (s : State) (e : CmdEntry) (d : CopyDesc) (u : Nat) (bs : List Byte) : Except TErr State :=
  match d.dstKind with
  | 0 => s.engineWrite s.x e.fid (d.dst + 64 * u) bs
  | 1 =>
    let r := TRect.of d.dst
    let at_ := r.walk (u / 16)
    match (s.ctx s.x).tensor r.tensor with
    | none => .error (.fail 0x21 0 0)
    | some t => s.writeTile s.x e.fid t at_.1 at_.2 fun old => old.take (u % 16 * 64) ++ bs ++ old.drop (u % 16 * 64 + 64)
  | _ =>
    let h := (cmdOf e.word).hA.toNat
    .ok (s.modCore s.now fun k => k.putUnit h u (d.length / 64) ((k.handle h).bytes / 64) bs)

/-- A copy would write a line of linear memory before it has read it: some line of its destination lies where a later one of its
source does (05 R167). -/
def State.copyAhead (s : State) (d : CopyDesc) : Bool :=
  let n := d.length / 64
  let line (k : AccessKind) (a i : Nat) : Option Loc := match s.engineTranslate s.x (a + 64 * i) k with
    | .ok l => some l.line
    | _ => none
  d.srcKind = 0 && d.dstKind = 0 && (upto n).any fun i => (upto n).any fun j =>
    i < j && (line .store d.dst i).isSome && line .load d.src j = line .store d.dst i

/-- The lines of one side of a copy's unit pass through their home slices (05 R145). -/
def State.touchCopy (s : State) (e : CmdEntry) (kind a u : Nat) : State := match kind with
  | 0 => s.touchRange s.x (a + 64 * u) 64
  | 1 =>
    let r := TRect.of a
    match (s.ctx s.x).tensor r.tensor with
    | some t => s.touchTile s.x e.fid t (r.walk (u / 16)).1 (r.walk (u / 16)).2 (cmdOf e.word).e
    | none => s
  | _ => s

/-- COPY: 64 bytes a step, in increasing order. Where its destination lies over its source ahead of it in linear memory, the copy
reads everything before it writes, so that each byte takes the value from before. Each unit counts event 0x0C (14 R413). -/
def execCopy (c : Cmd) (s : State) : Res := s.withCmd 0x0A c fun e =>
  let d := CopyDesc.of e.attached
  let total := d.length / 64
  let u := e.pos
  let a := c.hA.toNat
  let b := c.hB.toNat
  if u = total then .next (s.cmdDone e.id d.length)
  else if e.buf.length < d.length && (e.buf ≠ [] || s.copyAhead d) then
    s.tryCmd e 0 (s.copyRead e d (e.buf.length / 64)) fun bs =>
      let s := s.touchCopy e d.srcKind d.src (e.buf.length / 64)
      .next (s.modCmd e.id fun f => { f with buf := e.buf ++ bs })
  else if (d.dstKind = 2 && !s.cur.mayFill e.id a) || (d.srcKind = 2 && !s.cur.mayDrain e.id b) then .next s
  else s.tryCmd e 0 (if e.buf = [] then s.copyRead e d u else .ok ((e.buf.drop (64 * u)).take 64)) fun bs =>
    s.tryCmd e 0 (s.copyWrite e d u bs) fun s =>
      let s := (s.touchCopy e d.srcKind d.src u).touchCopy e d.dstKind d.dst u
      let s := if d.srcKind = 2 then s.readUnit b u total ((s.cur.handle b).bytes / 64) 64 else s
      .next ((s.modCore s.now fun k => k.event 0x0C 1 c.e).cmdMoves e.id 64)

/-! ## fill (05 R168) -/

/-- FILL: a 32-bit pattern over 64-byte units of A or C, and its granules full, or empty by cflags[0]. -/
def execFill (c : Cmd) (s : State) : Res := s.withCmd 0x0B c fun e =>
  let o := c.operand.toNat
  let n := (bitsOf o 29 20 + 1) * 64
  let a := o % 2 ^ 20
  let b := (Buf.of (bitsOf o 31 30)).getD .a
  let bs := (upto n).map fun i => byteOf (bitsOf o 63 32) (i % 4)
  .next ((s.modCore s.now fun k => (k.putBuf b a bs).setFullRange b a n (!c.flag 0)).cmdDone e.id n)

end Sys2Proof.Machine
end

