-- ==== Sys2Proof/Machine/Hash.lean ====
section
/-!
DEFINITION. Hash accumulation: the node hacc and its row commit (10 R293, R294), and `hset` (10 R295).
-/
namespace Sys2Proof.Machine

/-! ## Bindings (10 R295) -/

/-- The binding of a hash site: row base, first bank and banks. -/
def Core.hashOf (c : Core) (site : Nat) : Option (Nat × Nat × Nat) := look c.fabric.hashes site

/-- A lane stages no row and has none to send. -/
def LaneState.rowless (l : LaneState) : Bool :=
  l.stage = [] && !l.overflow && l.updates = 0 && l.rowEnd.isNone && l.out = [] && l.ops.all fun o => o.isNone

/-- The owner that stands for a hash-bound bank: no configuration context (10 R295). -/
def hashOwner : Nat := 16

/-- A site's binding is released; its banks return to a configuration context, zeroed and with their granules empty. -/
def Core.releaseHash (c : Core) (site cx : Nat) : Core := match c.hashOf site with
  | none => c
  | some h =>
    let c := c.freeBanks h.2.1 h.2.2 (some cx)
    { c with fabric := { c.fabric with hashes := unput c.fabric.hashes site } }

/-- A site is bound to banks; its rows are counted from the row base. -/
def Core.bindHash (c : Core) (site rbase first n : Nat) : Core :=
  let c : Core := { c with
    fabric := { c.fabric with hashes := put c.fabric.hashes site (rbase, first, n) }
    ownC := (upto n).foldl (fun o i => put o (first + i) hashOwner) c.ownC }
  let s := c.nodeState site
  c.setNode site { s with lanes := s.lanes.map fun l => { l with rows := 0 } }

/-- A binding or a release may take effect: the node holds no row, and every earlier command that reaches the banks has
completed. -/
def Core.hashFree (c : Core) (e : CmdEntry) (site first n : Nat) : Bool :=
  (c.nodeState site).lanes.all LaneState.rowless &&
    !(c.cmds.takeWhile fun d => d.id ≠ e.id).any fun d => c.reaches d .c (first * 4096) (n * 4096)

/-- The old banks of a site are free of earlier commands too. -/
def Core.oldFree (c : Core) (e : CmdEntry) (site : Nat) : Bool := match c.hashOf site with
  | some h => c.hashFree e site h.2.1 h.2.2
  | none => (c.nodeState site).lanes.all LaneState.rowless

/-- HSET: the site's old banks are released, and the new ones are bound (10 R295). -/
def execHset (c : Cmd) (s : State) : Res := if c.flag 0 then .next s else s.withCmd 0x24 c fun e =>
  let o := c.operand.toNat
  let site := 216 + bitsOf o 31 28
  let first := bitsOf o 22 16
  let n := bitsOf o 14 8 + 1
  if !s.cur.oldFree e site || !s.cur.hashFree e site first n then .next s
  else .next ((s.modCore s.now fun k => (k.releaseHash site e.cx).bindHash site (bitsOf o 63 32) first n).cmdDone e.id 1)

/-- HSET_R: the site's banks are released (10 R295). -/
def execHsetR (c : Cmd) (s : State) : Res := if !c.flag 0 then .next s else s.withCmd 0x24 c fun e =>
  let site := 216 + bitsOf c.operand.toNat 31 28
  if !s.cur.oldFree e site then .next s
  else .next ((s.modCore s.now fun k => k.releaseHash site e.cx).cmdDone e.id 1)

/-! ## Updates (10 R294) -/

/-- The key that a number is: zero, or an integer from 0 to 2^31 - 1. -/
def keyOf (o : Operand) : Option Nat :=
  if o.tag = 1 then some 0
  else if o.tag ≠ 0 then none
  else
    let v := o.value
    let n : Option Int := if 0 ≤ v.2 then some (v.1 * 2 ^ v.2.toNat)
      else if v.1 % 2 ^ (-v.2).toNat = 0 then some (v.1 / 2 ^ (-v.2).toNat)
      else none
    n.bind fun n => if 0 ≤ n && n < 2147483648 then some n.toNat else none

/-- The keys that a row may hold. -/
def keyLimit (w : NodeWord) : Nat := bitsOf w.param.toNat 17 6 + 1

/-- An update is applied to the staged row. -/
def LaneState.update (l : LaneState) (limit key : Nat) (v : Exact) : LaneState :=
  let l : LaneState := { l with updates := l.updates + 1 }
  if l.overflow then l
  else match look l.stage key with
    | some t => { l with stage := put l.stage key (t.add v) }
    | none =>
      if limit ≤ l.stage.length then { l with overflow := true, stage := [] }
      else { l with stage := put l.stage key (Sum.empty.add v) }

/-- An item may begin an update: a number or a NULL. -/
def itemHead : Token → Bool
  | .head _ _ _ => true
  | .null => true
  | _ => false

/-- The operand that an item begins; one whose partner is NULL is discarded. -/
def updateOp (mine other : Token) : Option Operand := match mine with
  | .head tag sz e => some (Operand.start tag sz e (other = .null))
  | _ => none

/-- A hacc's lane between updates: it takes two items, a row token from both inputs, or a BOUND. -/
def haccBegin (bound : Bool) (v : View) (l : LaneState) : Turn :=
  let odd (i : Nat) : Bool := match v.head i with
    | some (.digit _) => true
    | some .fin => true
    | some (.pred _) => true
    | some (.word _) => true
    | _ => false
  if odd 0 then Turn.bad l 0x43 0
  else if odd 1 then Turn.bad l 0x43 1
  else match v.head 0, v.head 1 with
    | some (.bound n), _ => (Turn.of (l.emit [(0, .bound n)])).taking [0]
    | _, some (.bound _) => (Turn.of l).taking [1]
    | some a, some b =>
      if a = b && (a = .eor || a = .eok) then
        if l.rowEnd.isSome then Turn.of l else (Turn.of { l with rowEnd := some a }).taking [0, 1]
      else if itemHead a && itemHead b then
        if l.rowEnd.isSome then Turn.of l
        else if !bound then Turn.bad l 0x48 0
        else (Turn.of { l with ops := [updateOp a b, updateOp b a, none] }).taking [0, 1]
      else Turn.bad l 0x46 (if itemHead a then 1 else 0)
    | _, _ => Turn.of l

/-- A hacc's lane: the two numbers of an update are received, and the update is applied once both have ended. -/
def haccTurn (bound : Bool) (v : View) (l : LaneState) : Turn :=
  if l.ops.all fun o => o.isNone then haccBegin bound v l
  else
    let a := absorb v l.ops
    match a.fault with
    | some (r, i) => Turn.bad l r i
    | none => match nth a.ops 0 none, nth a.ops 1 none with
      | some key, some val =>
        if key.ended && val.ended then match keyOf key with
          | none => Turn.bad l 0x45 0
          | some n => (Turn.of (({ l with ops := [none, none, none] } : LaneState).update (keyLimit v.w) n val.exact)).taking a.takes
        else (Turn.of { l with ops := a.ops }).taking a.takes
      | _, _ => (Turn.of { l with ops := a.ops }).taking a.takes

/-- NODE_HACC: a lane acts on its heads, also while the row before is being emitted (10 R294). -/
def execNodeHacc (k : CoreId) (site lane : Nat) (s : State) : Res :=
  let w := (s.core k).node site
  if w.op.toNat ≠ 0x21 || !laneOn w lane || 4 ≤ lane || (s.core k).records.contains 8 then .next s
  else
    let s := s.modCore k fun c => c.flushAll site
    let c := s.core k
    .next (s.applyTurn k site lane (haccTurn (c.hashOf site).isSome (c.view site lane) ((c.nodeState site).lane lane)))

/-! ## The row commit (10 R294) -/

/-- Insert a key in increasing order. -/
def insertKey (e : Nat × Sum) : List (Nat × Sum) → List (Nat × Sum)
  | [] => [e]
  | d :: r => if e.1 < d.1 then e :: d :: r else d :: insertKey e r

/-- Staged keys in increasing order. -/
def sortKeys (l : List (Nat × Sum)) : List (Nat × Sum) := l.foldr insertKey []

/-- Tokens of a number on another output. -/
def onOutput (x : Nat) (ts : List (Nat × Token)) : List (Nat × Token) := ts.map fun t => (x, t.2)

/-- The canonical number of an integer. -/
def integerNumber (n : Nat) : List (Nat × Token) := releaseNumber 64 (.fin (n, 0))

/-- What a row sends: its keys and sums in key order, or the report of an overflow. id: the row identifier. -/
def rowTokens (limit id : Nat) (l : LaneState) (t : Token) : List (Nat × Token) :=
  let ends : List (Nat × Token) := [(0, t), (1, t), (2, t)]
  if l.overflow then onOutput 1 (integerNumber id) ++ onOutput 1 (integerNumber l.updates) ++ ends
  else (sortKeys l.stage).flatMap (fun e => onOutput 2 (integerNumber e.1) ++ releaseNumber limit e.2.exact) ++ ends

/-- HACC_ROW_COMMIT: a lane whose row has ended, and that has sent the row before, commits it (10 R294). -/
def execHaccRowCommit (k : CoreId) (site lane : Nat) (s : State) : Res :=
  let c := s.core k
  let w := c.node site
  let n := c.nodeState site
  let l := n.lane lane
  if w.op.toNat ≠ 0x21 || 4 ≤ lane || c.records.contains 8 || l.out ≠ [] then .next s
  else match l.rowEnd with
    | none => .next s
    | some t =>
      let base := ((c.hashOf site).map fun h => h.1).getD 0
      let id := base + (n.lanes.map fun m => m.rows).sum
      let next : LaneState := { l with stage := [], overflow := false, updates := 0, rowEnd := none, rows := l.rows + 1 }
      .next (s.modCore k fun c =>
        (c.setNode site (n.setLane lane (next.emit (rowTokens (digitLimit w) id l t)))).flushAll site)

end Sys2Proof.Machine
end

