-- ==== Sys2Proof/Machine/Indirect.lean ====
section
/-!
DEFINITION. Indirect streams on input ports (10 R284, R286 to R289), intersection (10 R290, R291) and the equal-share partition
(10 R292).
-/
namespace Sys2Proof.Machine

/-! ## The fields of a j register (10 R284) -/

/-- The pattern that a j register describes. -/
structure Stream where
  tensor : Nat
  ibase : Nat
  indices : Nat
  fmt : Nat
  vbase : Nat
  run : Nat
  col0 : Nat
  deriving DecidableEq, Repr

/-- The pattern of a value attached to an `fopen`. -/
def Stream.of (v : Nat) : Stream :=
  ⟨bitsOf v 127 112, bitsOf v 111 93, bitsOf v 92 77 + 1, bitsOf v 76 73, bitsOf v 72 54, bitsOf v 53 42 + 1, bitsOf v 24 0⟩

/-- The attached j value; words sent so far stand above it. -/
def streamOf (e : CmdEntry) : Stream := Stream.of (e.attached % 2 ^ 128)

/-- WORDs that an `fopen` has sent. -/
def wordsSent (e : CmdEntry) : Nat := e.attached / 2 ^ 128

/-! ## fopen (10 R287) -/

/-- What comes of one element: wait for its index or its bank, an error, or what is sent for it. -/
inductive Picked where
  | wait
  | fail (e : TErr)
  | item (t : Token)

/-- The format of a stream's elements. -/
def State.streamFmt (s : State) (p : Stream) : Nat :=
  if p.tensor = 0 then p.fmt else ((s.ctx s.x).tensor p.tensor).elim 0 fun t => t.fmt

/-- The word or NULL of an element: NULL where the skip test finds +0 (10 R288). -/
def elementToken (skip : Bool) (v : Nat) : Token := if skip && v = 0 then .null else .word (BitVec.ofNat 32 v)

/-- The index word of element n of a stream: the one in hand (was) unless the element begins a run, which reads it once its granule
is full (10 R287); none while it waits. -/
def State.indexFor (s : State) (e : CmdEntry) (p : Stream) (n : Nat) (was : List Byte) : Option (List Byte) :=
  let ia := p.ibase + 4 * (n / p.run)
  if n % p.run ≠ 0 then some was
  else if !s.cur.full .a (ia / 16) || !s.cur.bankOpen .a ia e.cx then none
  else some (s.cur.bufBytes .a ia 4)

/-- Element n of a stream, of the index word in hand (10 R284, R287). -/
def State.pick (s : State) (e : CmdEntry) (p : Stream) (n : Nat) (index : List Byte) : Picked :=
  let skip := (cmdOf e.word).flag 4
  let v := signed 32 (leNat index)
  let m := n % p.run
  if v < 0 then .item .null
  else if p.tensor ≠ 0 then match (s.ctx s.x).tensor p.tensor with
    | none => .fail (.fail 0x21 0 0)
    | some t => match s.fetchElem s.x e.fid t v ((p.col0 + m : Nat) : Int) with
      | .error x => .fail x
      | .ok w => .item (elementToken skip w)
  else
    let k := v.toNat * p.run + m
    let bits := fmtBits p.fmt
    let a := p.vbase + k * bits / 8
    let n := max 1 (bits / 8)
    if Buf.size .a < a + n then .fail (.fail 0x2B 0 0)
    else if !s.cur.bankOpen .a a e.cx then .wait
    else .item (elementToken skip (elemOf p.fmt (s.cur.bufBytes .a a n) (if bits < 8 then k % 2 else 0)))

/-- What a beat of a stream carries: its items, the positions of those that came from a tensor, and the index word in hand after
them. -/
structure Picking where
  items : List Token
  at_ : List (Int × Int)
  index : List Byte
  deriving DecidableEq, Repr

/-- The next beat: up to m elements from n on, fewer where one fails after others; or a wait, or the failure. -/
def State.pickBeat (s : State) (e : CmdEntry) (p : Stream) : Nat → Nat → Picking → Except (Option TErr) Picking
  | 0, _, acc => .ok acc
  | m + 1, n, acc => match s.indexFor e p n acc.index with
    | none => .error none
    | some index => match s.pick e p n index with
      | .wait => .error none
      | .fail x => if acc.items = [] then .error (some x) else .ok acc
      | .item t => s.pickBeat e p m (n + 1) ⟨acc.items ++ [t], acc.at_ ++ [(signed 32 (leNat index), ((p.col0 + n % p.run : Nat) : Int))], index⟩

/-- Elements of an `fopen`: all of them, or once an `fclose` has asked, those that it then had begun (10 R289). -/
def openTotal (e : CmdEntry) (p : Stream) : Nat := if e.closing then e.stopAt else p.indices * p.run

/-- Elements that an `fopen` has drawn for a beat that waits on a later index: a beat crosses runs where no EOR stands between them
(10 R287, cflags[5]). -/
def State.drawn (s : State) (e : CmdEntry) (p : Stream) : Nat :=
  let m := min 4 (p.indices * p.run - e.pos)
  let has (i : Nat) : Bool := match s.pickBeat e p (i + 1) e.pos ⟨[], [], e.buf⟩ with
    | .ok b => b.items.length = i + 1
    | .error _ => false
  let n := ((upto m).filter has).length
  if (cmdOf e.word).flag 5 && n < m then n else 0

/-- Where an `fopen` ends that an `fclose` finds at work: after the run that it is sending, or has drawn for its beat (10 R289). -/
def State.closeAt (s : State) (e : CmdEntry) : Nat :=
  let p := streamOf e
  ceilDiv (e.pos + s.drawn e p) p.run * p.run

/-- The mark on the count of row tokens that the last EOR of a closed `fopen` leaves. -/
def closedMark : Nat := 2 ^ 32

/-- An `fopen` ends with its last token; its count is the bytes of the WORDs sent. -/
def State.endOpen (s : State) (e : CmdEntry) (p : Stream) : Res :=
  let c := cmdOf e.word
  let s := if c.flag 3 then s.modCore s.now fun k => k.portSend c.portA.toNat (tokenBeat .eok) else s
  .next (s.cmdDone e.id (ceilDiv (wordsSent e * fmtBits (s.streamFmt p)) 8))

/-- FOPEN: a beat of up to four elements, an EOR, or the end, a step. pos counts elements and count the row tokens sent. -/
def execFopen (c : Cmd) (s : State) : Res := s.withCmd 0x20 c fun e =>
  let port := c.portA.toNat
  let p := streamOf e
  let n := e.pos
  let whole := c.flag 5
  let natural := n = p.indices * p.run
  let total := openTotal e p
  let row := if whole then p.indices * p.run else p.run
  let due := if whole then bit natural else n / p.run
  let eor (s : State) (count : Nat) : Res :=
    .next ((s.modCore s.now fun k => k.portSend port (tokenBeat .eor)).modCmd e.id fun d => { d with count := count })
  if !s.cur.portTurn e || !s.cur.portRoom port || s.cur.records.contains 8 then .next s
  else if n < total then
    if e.count < due then eor s (e.count + 1)
    else match s.pickBeat e p (min 4 (min (row - n % row) (total - n))) n ⟨[], [], e.buf⟩ with
      | .error none => .next s
      | .error (some x) => s.cmdError e (port % 4) x
      | .ok b =>
        let ts := b.items
        let words := (ts.filter fun t => t.inWord).length
        let t := match (s.ctx s.x).tensor p.tensor with
          | some x => (s.touchAt e x b.at_).modCore s.now fun k => b.at_.foldl (fun k i => k.heatAt port x i) k
          | none => s
        let t := t.modCore s.now fun k => k.portSend port (beatOf (ts.mapIdx fun i t => (i, t)) true)
        .next (t.modCmd e.id fun d => { d with pos := n + ts.length, attached := d.attached + words * 2 ^ 128, buf := b.index })
  else if natural then (if e.count < due then eor s (e.count + 1) else s.endOpen e p)
  else if e.count < closedMark then eor s closedMark
  else s.endOpen e p

/-! ## fclose (10 R289) -/

/-- The latest command on a port before a command. -/
def Core.lastOnPort (c : Core) (id port : Nat) : Option CmdEntry :=
  ((c.cmds.takeWhile fun d => d.id ≠ id).filter fun d => portOf d = some port).getLast?

/-- A command is still to complete. -/
def CmdEntry.live (e : CmdEntry) : Bool := match e.stage with
  | .failed _ => false
  | _ => true

/-- FCLOSE: the `fopen` before it on the port finishes, and then it completes; with none it completes at once. attached holds the
number of that `fopen` after the first step. -/
def execFclose (c : Cmd) (s : State) : Res := s.withCmd 0x21 c fun e =>
  if e.pos = 0 then match s.cur.lastOnPort e.id c.portA.toNat with
    | none => .next (s.cmdDone e.id 1)
    | some d =>
      if opOf d.word ≠ 0x20 || !d.live then .next (s.cmdDone e.id 1)
      else .next ((s.modCmd d.id fun d => { d with closing := true, stopAt := s.closeAt d }).modCmd e.id fun f => { f with pos := 1, attached := d.id })
  else match s.cur.cmdEntry e.attached with
    | none => .next (s.cmdDone e.id 1)
    | some d => if d.live then .next s else .next (s.cmdDone e.id 1)

/-! ## isect (10 R290, R291) -/

/-- The descriptor of `isect`. -/
structure Isect where
  rows : Nat
  aptr : Nat
  acrd : Nat
  bptr : Nat
  bcrd : Nat
  optr : Nat
  ocrd : Nat
  oposa : Nat
  oposb : Nat
  cap : Nat
  shared : Bool
  /-- the bits that must be zero -/
  rest : Nat
  deriving DecidableEq, Repr

/-- The fields of 64 bytes as a number. -/
def Isect.of (v : Nat) : Isect :=
  let f (o : Nat) : Nat := bitsOf v (8 * o + 31) (8 * o)
  ⟨f 0x00, f 0x04, f 0x08, f 0x0C, f 0x10, f 0x14, f 0x18, f 0x1C, f 0x20, f 0x24, bitOf v 320, bitsOf v 511 321⟩

/-- A 32-bit word of A. -/
def Core.a32 (c : Core) (a : Nat) : Nat := leNat (c.bufBytes .a a 4)

/-- A word of A is written and its granule set full. -/
def Core.putA32 (c : Core) (a v : Nat) : Core := (c.putBuf .a a (leBytes 4 v)).setFullRange .a a 4 true

/-- Arrays read, with their bytes. -/
def Isect.reads (d : Isect) (c : Core) : List (Nat × Nat) :=
  let bn := if d.shared then 1 else d.rows
  [(d.aptr, 4 * (d.rows + 1)), (d.bptr, 4 * (bn + 1)), (d.acrd, 4 * c.a32 (d.aptr + 4 * d.rows)), (d.bcrd, 4 * c.a32 (d.bptr + 4 * bn))]

/-- Arrays written, with their bytes. -/
def Isect.writes (d : Isect) : List (Nat × Nat) :=
  [(d.optr, 4 * (d.rows + 1)), (d.ocrd, 4 * d.cap), (d.oposa, 4 * d.cap), (d.oposb, 4 * d.cap)]

/-- Two arrays share a byte. -/
def sharesByte (a b : Nat × Nat) : Bool := 0 < a.2 && 0 < b.2 && overlap a.1 a.2 b.1 b.2

/-- Some array of a list overlaps a later one. -/
def anyShared : List (Nat × Nat) → Bool
  | [] => false
  | a :: r => r.any (sharesByte a) || anyShared r

/-- The descriptor breaks 10 R290. -/
def Isect.bad (d : Isect) (c : Core) (cx : Nat) : Bool :=
  let out (a : Nat × Nat) : Bool := 0x80000 < a.1 + a.2 || a.1 % 4 ≠ 0
  let bn := if d.shared then 1 else d.rows
  d.rows = 0 || 65536 < d.rows || d.cap = 0 || 131072 < d.cap || d.rest ≠ 0 || out (d.aptr, 4 * (d.rows + 1)) || out (d.bptr, 4 * (bn + 1)) ||
    (d.reads c).any out || d.writes.any out || anyShared d.writes || (d.writes.any fun w => (d.reads c).any (sharesByte w)) ||
    !(d.reads c ++ d.writes).all fun a => a.2 = 0 || c.banksOpen .a a.1 a.2 cx

/-- What the walk of one row gives: its matches with their positions, or a reason. -/
abbrev RowWalk := Except Nat (List (Nat × Nat × Nat))

/-- The steps of one row's walk (10 R291) from positions i and j: each reads two coordinates, and one not above its predecessor
ends the walk. left: matches that the capacity still allows. -/
def Core.walkRow (c : Core) (d : Isect) (aEnd bEnd : Nat) : Nat → Nat → Nat → Option Nat → Option Nat → Nat → List (Nat × Nat × Nat) → RowWalk
  | 0, _, _, _, _, _, acc => .ok acc
  | fuel + 1, i, j, pa, pb, left, acc =>
    if aEnd ≤ i || bEnd ≤ j then .ok acc
    else
      let x := c.a32 (d.acrd + 4 * i)
      let y := c.a32 (d.bcrd + 4 * j)
      if (pa.any fun p => x ≤ p) || (pb.any fun p => y ≤ p) then .error 0x2C
      else if x < y then c.walkRow d aEnd bEnd fuel (i + 1) j (some x) none left acc
      else if y < x then c.walkRow d aEnd bEnd fuel i (j + 1) none (some y) left acc
      else match left with
        | 0 => .error 0x2D
        | n + 1 => c.walkRow d aEnd bEnd fuel (i + 1) (j + 1) (some x) (some y) n (acc ++ [(x, i, j)])

/-- The row's fibres: first and last positions on the left and on the right. -/
def Core.rowEnds (c : Core) (d : Isect) (row : Nat) : (Nat × Nat) × (Nat × Nat) :=
  let r := if d.shared then 0 else row
  ((c.a32 (d.aptr + 4 * row), c.a32 (d.aptr + 4 * row + 4)), (c.a32 (d.bptr + 4 * r), c.a32 (d.bptr + 4 * r + 4)))

/-- Row i of an intersection, m matches before it: the core with the row's matches and pointer written, or a reason. -/
def Core.isectRow (c : Core) (d : Isect) (row m : Nat) : Except Nat (Core × Nat) :=
  let f := c.rowEnds d row
  if f.1.2 < f.1.1 || f.2.2 < f.2.1 then .error 0x2C
  else match c.walkRow d f.1.2 f.2.2 (f.1.2 - f.1.1 + (f.2.2 - f.2.1) + 1) f.1.1 f.2.1 none none (d.cap - m) [] with
    | .error r => .error r
    | .ok ms =>
      let c := (ms.mapIdx fun i t => (m + i, t)).foldl (fun (c : Core) t =>
        ((c.putA32 (d.ocrd + 4 * t.1) t.2.1).putA32 (d.oposa + 4 * t.1) t.2.2.1).putA32 (d.oposb + 4 * t.1) t.2.2.2) c
      .ok (c.putA32 (d.optr + 4 * (row + 1)) (m + ms.length), m + ms.length)

/-- ISECT: the first step reads and checks the descriptor and writes optr[0]; then a row a step. pos counts steps, count matches,
and attached holds the descriptor. -/
def execIsect (c : Cmd) (s : State) : Res := s.withCmd 0x22 c fun e =>
  if e.pos = 0 then
    s.tryCmd e 0 (s.engineRead s.x c.operand.toNat 64) fun bs =>
      let v := leNat bs
      let d := Isect.of v
      if d.bad s.cur e.cx then .next (s.failCommand s.now e 0x2B none)
      else .next ((s.modCore s.now fun k => k.putA32 d.optr 0).modCmd e.id fun f => { f with pos := 1, attached := v + 2 ^ 512 })
  else
    let d := Isect.of (e.attached % 2 ^ 512)
    if e.pos = d.rows + 1 then .next (s.cmdDone e.id (4 * (d.rows + 1) + 12 * e.count))
    else match s.cur.isectRow d (e.pos - 1) e.count with
      | .error r => .next (s.failCommand s.now e r none)
      | .ok (k, m) => .next ((s.setCore s.now k).modCmd e.id fun f => { f with pos := e.pos + 1, count := m })

/-! ## eqpart (10 R292) -/

/-- The i from 0 on, among the weights before each row, that comes nearest to a target; the lower on a tie. -/
def nearest (parts target : Nat) (pre : List Nat) : Nat :=
  let gap (p : Nat) : Nat := ((parts * p : Nat) - (target : Int)).natAbs
  ((pre.mapIdx fun i p => (i, gap p)).foldl (fun (b : Option (Nat × Nat)) x => match b with
    | some y => if x.2 < y.2 then some x else b
    | none => some x) none).elim 0 fun b => b.1

/-- The sums of weights before rows 0 to rows; none where a pointer falls below its predecessor. -/
def prefixWeights : Nat → List Nat → Option (List Nat)
  | w, a :: b :: r => if b < a then none else (prefixWeights (w + 1 + (b - a)) (b :: r)).map fun l => w :: l
  | w, _ => some [w]

/-- EQPART: the boundaries of the parts, or reason 0x2C with nothing written. -/
def execEqpart (c : Cmd) (s : State) : Res := s.withCmd 0x23 c fun e =>
  let o := c.operand.toNat
  let rows := bitsOf o 63 48 + 1
  let parts := bitsOf o 47 40 + 1
  let ptr := o % 2 ^ 19
  let out := bitsOf o 37 19
  match prefixWeights 0 ((upto (rows + 1)).map fun i => s.cur.a32 (ptr + 4 * i)) with
  | none => .next (s.failCommand s.now e 0x2C none)
  | some pre =>
    let total := pre.getLast?.getD 0
    let b (j : Nat) : Nat := if j = 0 then 0 else if j = parts then rows else nearest parts (j * total) pre
    .next ((s.modCore s.now fun k => (upto (parts + 1)).foldl (fun k j => k.putA32 (out + 4 * j) (b j)) k).cmdDone e.id (4 * (parts + 1)))

end Sys2Proof.Machine
end

