-- ==== Sys2Proof/Machine/Failure.lean ====
section
/-!
DEFINITION. COMMAND_FAILURE (05 R155, 13 R387, 09 R268) and ATLAS_WALK (05 R143): what a command's next unit of work fails with, and what
an error in the hardware fails it with.
-/
namespace Sys2Proof.Machine

/-- The next unit of work of a stream command on the acting core. -/
def State.commandStep (i : Instr) (s : State) : Res := match i with
  | .ldAff c => execLdAff c s
  | .ldTile c => execLdTile c s
  | .stAff c => execStAff c s
  | .stTile c => execStTile c s
  | .tfetch c => execTfetch c s
  | .streamSubs c => execStreamSubs c s
  | .pull c => execPull c s
  | .gath c => execGath c s
  | .scat c => execScat c s
  | .copy c => execCopy c s
  | .fill c => execFill c s
  | .cfgLd c => execCfgLd c s
  | .cfgSw c => execCfgSw c s
  | .bound c => execBound c s
  | .kick c => execKick c s
  | .barr c => execBarr c s
  | .bank c => execBank c s
  | .lease c => execLease c s
  | .relatch c => execRelatch c s
  | .streamPref c => execStreamPref c s
  | .wld c => execWld c s
  | .mrun c => execMrun c s
  | .trun c => execTrun c s
  | .szld c => execSzld c s
  | .spill c => execSpill c s
  | .rest c => execRest c s
  | .fopen c => execFopen c s
  | .fclose c => execFclose c s
  | .isect c => execIsect c s
  | .eqpart c => execEqpart c s
  | .hset c => execHset c s
  | .hsetR c => execHsetR c s
  | .rsend c => execRsend c s
  | .icollBcast c => execIcollBcast c s
  | .icollReduce c => execIcollReduce c s
  | .icollAllred c => execIcollAllred c s
  | .icollGather c => execIcollGather c s
  | .lnch c => execLnch c s
  | .lsync c => execLsync c s
  | .lsyncD c => execLsyncD c s
  | _ => .next s

/-- The state after a command's next unit of work, where that fails it with a reason. -/
def State.failsWith (s : State) (k : CoreId) (e : CmdEntry) (reason : Nat) : Option State :=
  match (cmdInstr e.word).map fun i => State.commandStep i { s with now := k } with
  | some (.next t) =>
    if ((t.core k).cmdEntry e.id).any fun d => d.stage = .failed reason then some { t with now := s.now } else none
  | _ => none

/-- COMMAND_FAILURE: a command at work fails as its next unit of work does; with reason 0x24 its data have an uncorrectable error
(13 R387), with 0x51 a soft error in the array shows in its row tag's checksum (09 R268). -/
def execCommandFailure (k : CoreId) (id : Nat) (reason : Nat) (s : State) : Res :=
  match (s.core k).cmdEntry id with
  | none => .next s
  | some e =>
    let run := (s.core k).array.run.filter fun r => r.cmd = id && r.inflight.head?.any fun t => t.full
    if (e.stage ≠ .scoreboard && e.stage ≠ .running) || (s.core k).unitStopped (opOf e.word) then .next s
    else if reason = 0x24 then .next ((s.failCommand k e 0x24 none).modCore k fun c => c.countError 5)
    else if reason = 0x51 && run.isSome then .next (run.elim s fun r => s.checksumFault k r)
    else if e.stage ≠ .running then .next s
    else .next ((s.failsWith k e reason).getD s)

/-- Cores of a die. -/
def coresOf (d : Nat) : List CoreId := (upto 1024).filter fun k => dieOf k = d

/-- The plate that a core's memory ports record names, or is to name (13 R352, R426). -/
def State.portPlate (s : State) (k : CoreId) : Nat × Nat := match (s.core k).portFault with
  | some f => (f.1, f.2.1)
  | none => (leNat (s.bytesAt ((s.recordLoc k 15).plus 0x10) 2), leNat (s.bytesAt ((s.recordLoc k 15).plus 0x14) 4))

/-- ATLAS_WALK: misses for one plate from any port of a die join one walk. Where the walk fails, every command at work there that
needs the plate next fails with reason 0x23; where it succeeds, the port goes on as with a hit. -/
def execAtlasWalk (die : Nat) (tensor plate : Nat) (s : State) : Res :=
  .next ((coresOf die).foldl (fun t k =>
    ((t.core k).cmds.filter fun e => e.stage = .running).foldl (fun u e =>
      match u.failsWith k e 0x23 with
      | some v => if v.portPlate k = (tensor, plate) then v else u
      | none => u) t) s)

end Sys2Proof.Machine
end

