-- ==== Sys2Proof/Machine/HostSide.lean ====
section
/-!
DEFINITION. What the host does to the device: AtomicOps (11 R309, R320), accesses to device memory and to its own (11 R320), snoops (11
R298), ATS invalidations (11 R319) and PRI answers (04 R123); and the events of power and heat (14 R408, R409, 01 R30).
-/
namespace Sys2Proof.Machine

/-! ## Host accesses (11 R309, R320) -/

/-- The home slice of a line for a core: among those of its partition's cores, or its own first one where it has none (01 R23, 05
R145). -/
def State.lineHome (s : State) (k : CoreId) (l : Loc) : Nat := match s.partOf k with
  | some p => homeOf p.rect (0, l.addr / 16, 0)
  | none => homeSlice k 0

/-- The directory of a home slice: the cores whose L1s hold a line that is at home there, and whether each owns it alone (01 R23, 11
R298, R309). -/
def State.directory (s : State) (slice : Nat) (l : Loc) : List (CoreId × Bool) :=
  s.cores.filterMap fun e => if s.lineHome e.1 l = slice then (look e.2.l1 l).map fun a => (e.1, a) else none

/-- The home slice of a line lists a core. -/
def State.listed (s : State) (k : CoreId) (l : Loc) : Bool := (s.directory (s.lineHome k l) l).any fun e => e.1 = k

/-- The copies of a line that its home slices list are recalled; a wait that watches it may return (11 R309, R313). -/
def State.recall (s : State) (l : Loc) : State := s.mapCores fun k c =>
  if s.listed k l then { c with l1 := unput c.l1 l, fcs := c.fcs.map fun f => f.noteWrite l } else c

/-- A line of device memory that stands in home slices is used there: it becomes the most recently used (01 R23, 05 R145). -/
def State.atHome (s : State) (l : Loc) : State :=
  let here (e : L2Line) : Bool := e.tile = (0, l.addr / 16, 0) && e.rows.contains (l.addr % 16)
  if l.onHost then s else { s with l2 := s.l2.filter here ++ s.l2.filter fun e => !here e }

/-- Lines that n bytes from an address meet. -/
def linesOf (onHost : Bool) (a n : Nat) : List Loc := (upto ((a + n + 63) / 64 - a / 64)).map fun i => ⟨onHost, a / 64 + i⟩

/-- The host writes bytes; its writes take no undo entry (13 R364). -/
def State.hostWrite (s : State) (l : Loc) (bs : List Byte) : State :=
  let ls := linesOf l.onHost l.addr bs.length
  let s := ls.foldl (fun t n => ((t.shade n).recall n).atHome n) s
  ls.foldl (fun t n => t.noteWrite n none) (s.setBytes l bs)

/-- The device is presented to the host: brought up, with a trained port (13 R390, R391). -/
def State.presented (s : State) : Bool := s.boot = .up && (s.port0 || s.port1)

/-- HOST_ATOMICOP at the line's home slice, which recalls what its directory lists: FetchAdd, Swap or CAS on a naturally aligned
word of 4 or 8 bytes of device memory; any other is answered Unsupported Request. The old value is the answer. -/
def execHostAtomicop (r : AtomicOpReq) (s : State) : Res :=
  let known := r.op ≤ 2 && (r.bytes = 4 || r.bytes = 8) && r.addr % r.bytes = 0 && r.addr + r.bytes ≤ hbmSize
  if !s.presented then .next s
  else if !known then .next { s with notices := s.notices ++ [.unsupportedRequest] }
  else
    let l : Loc := ⟨false, r.addr⟩
    let old := leNat (s.bytesAt l r.bytes)
    let v := r.operand.toNat % 2 ^ (8 * r.bytes)
    let new := if r.op = 0 then (old + v) % 2 ^ (8 * r.bytes) else if r.op = 1 then v
      else if old = r.compare.toNat % 2 ^ (8 * r.bytes) then v else old
    let miss := r.op = 2 && old ≠ r.compare.toNat % 2 ^ (8 * r.bytes)
    let s := (s.recall l.line).atHome l.line
    let s := if miss then s else s.hostWrite l (leBytes r.bytes new)
    .next { s with notices := s.notices ++ [.hostData (leBytes r.bytes old)] }

/-- Bytes of a host access. -/
def hostSize (r : HostAccess) : Nat := if r.bytes = [] then r.len else r.bytes.length

/-- Bytes of the piece of an access that begins i bytes in: up to the next multiple of 8, as far as the access goes (11 R320). -/
def hostPieceLen (r : HostAccess) (i : Nat) : Nat := min (8 - (r.addr + i) % 8) (hostSize r - i)

/-- A piece of an access of device memory is performed, indivisibly: the bytes done with, and the state after it. -/
def State.hostPieceOf (s : State) (r : HostAccess) (d : List Byte) : List Byte × State :=
  let l : Loc := ⟨r.onHost, r.addr + d.length⟩
  let n := hostPieceLen r d.length
  if r.bytes = [] then (d ++ s.bytesAt l n, s) else (d ++ (r.bytes.drop d.length).take n, s.hostWrite l ((r.bytes.drop d.length).take n))

/-- An access with d bytes done with is finished, a read with its answer, or waits for its next piece behind those in progress. -/
def State.hostGoesOn (s : State) (r : HostAccess) (d : List Byte) : State :=
  if d.length < hostSize r then { s with hostWork := s.hostWork ++ [(r, d)] }
  else if r.bytes = [] then { s with notices := s.notices ++ [.hostData d] }
  else s

/-- The next piece of the oldest access in progress: between two pieces any agent may act (11 R320). -/
def State.hostPiece (s : State) : State := match s.hostWork with
  | [] => s
  | (r, d) :: w =>
    let t := State.hostPieceOf { s with hostWork := w } r d
    t.2.hostGoesOn r t.1

/-- HOST_MEMORY_ACCESS: the host reads or writes bytes. One of device memory that is wider than 8 bytes or not aligned is performed
in aligned pieces of 8 bytes, the first now and each other in a step of its own (11 R320; log 35). A device that is not presented to
the host performs none (13 R390). -/
def execHostMemoryAccess (r : HostAccess) (s : State) : Res :=
  if !r.onHost && !s.presented then .next s
  else if !r.onHost && hbmSize < r.addr + hostSize r then .next { s with notices := s.notices ++ [.unsupportedRequest] }
  else if r.onHost then
    .next (if r.bytes = [] then { s with notices := s.notices ++ [.hostData (s.bytesAt ⟨true, r.addr⟩ r.len)] }
      else s.hostWrite ⟨true, r.addr⟩ r.bytes)
  else
    let t := s.hostPieceOf r []
    .next (t.2.hostGoesOn r t.1)

/-- HOST_SNOOP: a snoop of a line of host memory takes the device's copies, or leaves them shared. -/
def execHostSnoop (line : Nat) (own : Bool) (s : State) : Res :=
  let l : Loc := ⟨true, line⟩
  let held := s.cores.any fun e => (look e.2.l1 l).isSome
  let s := if own then s.recall l else s.mapCores fun _ c => if (look c.l1 l).isSome then { c with l1 := put c.l1 l false } else c
  .next <| if !s.presented then s else { s with notices := s.notices ++ [.snoopAnswer line held] }

/-! ## Translations (11 R319, 04 R123) -/

/-- Two ranges share an address. -/
def pageMeets (p : PageGrant) (a n : Nat) : Bool := p.va < a + n && a < p.va + p.size

/-- A store that translated through a page still waits in a buffer or a publication. -/
def Core.storesIn (c : Core) (p : PageGrant) : Bool :=
  c.fcs.toList.any fun f => (f.sb ++ f.pub).any fun n => n.onHost = p.onHost && p.pa / 64 ≤ n.num && n.num * 64 < p.pa + p.size

/-- ATS_INVALIDATION of size pages of 4 KiB from page vpn: it completes once every access that used the translations has been
performed, and the MMUs have dropped them. -/
def execAtsInvalidation (x : Nat) (vpn size : Nat) (s : State) : Res :=
  let gone (p : PageGrant) : Bool := pageMeets p (vpn * 4096) (size * 4096)
  let waits := s.cores.any fun e => s.cxId e.1 = x && ((s.ctx x).pages.filter gone).any fun p => e.2.storesIn p
  if (look s.ctxs x).isNone || waits then .next s
  else
    let s := s.modCtx x fun c => { c with pages := c.pages.filter fun p => !gone p }
    .next (s.mapCores fun k c => if s.cxId k = x then { c with mmu := c.mmu.filter fun p => !gone p, mmu2 := c.mmu2.filter fun p => !gone p } else c)

/-- PRI_RESPONSE: the host gives a page, and requests for it are answered; waiting leases are examined again by LEASE_GRANT. -/
def execPriResponse (x : Nat) (p : PageGrant) (s : State) : Res :=
  if (look s.ctxs x).isNone || !pageSound p then .next s
  else
    let s := s.modCtx x fun c => { c with pages := (c.pages.filter fun q => !pageMeets q p.va p.size) ++ [p] }
    .next { s with notices := s.notices.filter fun n => match n with
      | .pageRequest y va => !(y = x && p.va ≤ va && va < p.va + p.size)
      | _ => true }

/-! ## QUOTA_CHARGE (14 R408, R409) -/

/-- Commands of discarded firings that a drain lets complete, or cuts and keeps. -/
def drainKeeps (e : CmdEntry) : Bool := [0x03, 0x04, 0x07, 0x0A, 0x19, 0x1A, 0x28].contains (opOf e.word)

/-- A drain begins: firings neither touched nor committed are discarded as under kill, where the two firings of a twin run stay
together (13 R371), and runs stop at their cut with their sums spilled. -/
def State.drain (s : State) (x : Nat) (p : Partition) : State :=
  let c := s.ctx x
  let gone := s.notTwinHeld p.rect (c.inFlight.filter fun fid => !(c.firing fid).touched && !(c.firing fid).committed)
  let s := s.discard x gone drainKeeps
  let s := s.mapCores fun k c => if rectHas p.rect k && c.array.run.isSome && c.arrayAtCut then c.spillSums else c
  s.modCtx x fun c => { c with draining := true }

/-- The drains that have to begin: of contexts with a class that is used up, under no halt (14 R409). -/
def State.drains (s : State) : State :=
  s.parts.foldl (fun t p => match p.ctx with
    | some x => if !p.halt && (look t.ctxs x).isSome && (t.ctx x).drained ≠ [] && !(t.ctx x).draining then t.drain x p else t
    | none => t) s

/-- Energy of a class goes down by n µJ; the classes that are used up. -/
def Context.charge (c : Context) (classes : List Nat) (n : Nat) : Context :=
  let take (q : Word) : Word := BitVec.ofNat 64 (bit (bitOf q.toNat 63) * 2 ^ 63 + unsigned 48 (quotaRem q - n))
  let qs := classes.foldl (fun q i => updNth q i take) c.quotas
  let spent := classes.filter fun i => quotaRem (nth qs i 0) ≤ 0
  { c with quotas := qs, drained := (c.drained ++ spent).eraseDups }

/-- QUOTA_CHARGE, at every 1,000th tick of a cluster: the running context's classes share the energy; what is left below a µJ each
carries over. A class that is used up begins a drain, which the step carries out where no halt stands (State.drains). -/
def execQuotaCharge (cl : Nat) (s : State) : Res :=
  let c := s.cluster cl
  if c.timer % 1000 ≠ 0 then .next s
  else match s.partOf (cl / 8 * 2 * 32 + cl % 8 * 4) with
    | none => .next (s.modCluster cl fun c => { c with quotaRest := 0 })
    | some p => match p.ctx with
      | none => .next (s.modCluster cl fun c => { c with quotaRest := 0 })
      | some x =>
        let used := ((s.launchesOn cl).map fun l => l.block.quota).eraseDups
        let classes := if used = [] then [0] else used
        let unit := 1000000000000 * classes.length
        let s := s.modCluster cl fun c => { c with quotaRest := c.quotaRest % unit }
        .next (s.modCtx x fun d => d.charge classes (c.quotaRest / unit))

/-! ## Heat (01 R30) -/

/-- The junction sensors of the clusters read these temperatures. -/
def State.sense (s : State) (celsius : List Nat) : State :=
  (celsius.zipIdx).foldl (fun t e => t.modCluster e.2 fun c => { c with celsius := e.1 }) s

/-- The cap goes down by 200 W, to no less than 0 (01 R30; log 93), and firmware lowers the shares that would pass it, in proportion
(14 R395; log 62). -/
def State.lowerCap (s : State) : State :=
  let cap := s.cap - 200
  let watts (p : Partition) : Nat := p.pshare.toNat % 65536
  let total := (s.parts.map watts).sum
  if total ≤ cap then { s with cap := cap }
  else
    let low := s.parts.foldl (fun t p => t.modPart p.id fun q => { q with pshare := BitVec.ofNat 64 (watts p * cap / total) }) { s with cap := cap }
    s.parts.foldl (fun t p => (rectClusters p.rect).foldl (fun u cl => u.modCluster cl fun c => c.changed 3 (watts p * cap / total ≠ watts p)) t) low

/-- JUNCTION_95, once a second: from 95 degrees at a junction until every one reads below 92, the cap goes down by 200 W. -/
def execJunction95 (celsius : List Nat) (s : State) : Res :=
  let s := s.sense celsius
  let hot := celsius.any (fun t => 95 ≤ t) || (s.hot && celsius.any fun t => 92 ≤ t)
  let t := { s with hot := hot }
  .next (if hot then t.lowerCap else t)

/-- The minimum flow for the cap in force, in 0.1 L/min (01 R29, R30): on HXD4-M48 6.0 L/min above 4.0 kW and else 4.0 L/min; on
HXD4-P48 what the builder's cold plate needs. -/
def State.minFlow (s : State) : Nat := match s.flows with
  | none => if 4000 < s.cap then 60 else 40
  | some t => ((t.filter fun e => e.1 ≤ s.cap).getLast?.map fun e => e.2).getD 0

/-- THERMAL_STOP: at 105 degrees, or with the flow, in 0.1 L/min, below its minimum, every halt line rises and THERM_OFF asserts. -/
def execThermalStop (celsius : List Nat) (flow : Nat) (s : State) : Res :=
  let s := s.sense celsius
  if !(celsius.any fun t => 105 ≤ t) && s.minFlow ≤ flow then .next s
  else
    let t := s.parts.foldl (fun t p => (t.raisePart p).modPart p.id fun q => { q with thermal := true }) s
    .next { t with notices := t.notices ++ [.thermalStop, .thermOff] }

end Sys2Proof.Machine
end

