-- ==== Sys2Proof/Machine/Killed.lean ====
section
/-!
DEFINITION. KILL_RECEIVE: where a KILL goes (06 R189, R199 to R205, 07 R218, R230, 08 R245 to R248, 09 R251, R267).
-/
namespace Sys2Proof.Machine

/-- Tokens to send with the rest of the number open on output x cut: its END comes next. -/
def cutNumber (x : Nat) : List (Nat × Token) → List (Nat × Token)
  | [] => [(x, .fin)]
  | (y, t) :: r =>
    if y ≠ x then (y, t) :: cutNumber x r
    else match t with
      | .digit _ => cutNumber x r
      | .fin => (x, .fin) :: r
      | _ => (x, .fin) :: (y, t) :: r

/-- A lane sends END next on an output. -/
def LaneState.cut (l : LaneState) (x : Nat) : LaneState := { l with out := cutNumber x l.out }

/-- The input of a number that a lane is passing is discarded up to its END, and killed unless that has come. -/
def Core.killPassing (c : Core) (site l i : Nat) : Core :=
  (c.modLane site l fun n => { n with stopped := true }).killAt site (c.node site) l i

/-- The number that input i delivers to a lane is killed, unless its END has come, and discarded up to it (08 R244, R245). -/
def Core.killItem (c : Core) (site l i : Nat) : Core :=
  (c.modLane site l fun n => { n with ops := updNth n.ops i fun o => o.map fun o => { o with discard := true } }).killAt site (c.node site) l i

/-- A lane of a skim node counts a KILL (07 R228). -/
def Core.countKill (c : Core) (site l : Nat) : Core :=
  let n := c.nodeState site
  c.setNode site { n with skim := n.skim.count l ⟨0, 0, 1, 0⟩ }

/-- A skc forwards a KILL, and counts it where it does (07 R228, R230). -/
def Core.killForward (c : Core) (site l : Nat) : Core :=
  let w := c.node site
  let d := c.killAt site w l 0
  let kills (c : Core) : Nat := (c.fabric.link site (inputSide w 0)).kills.length
  if kills c < kills d then d.countKill site l else d

/-- A dly cuts its number on main: the tokens of it that it holds go, through its END where it has come; else the rest is killed
and discarded up to its END (06 R205). -/
def Core.killHeld (c : Core) (site l : Nat) : Core :=
  let n := (c.nodeState site).lane l
  let own := (n.held.takeWhile fun t => t ≠ .fin).length + 1
  let c := c.modLane site l fun n => n.cut 0
  if n.out.contains (0, .fin) then c
  else
    let c := c.modLane site l fun n => { n with held := n.held.drop own, order := n.order.drop own }
    if n.held.contains .fin then c else c.killPassing site l 0

/-- Items of a lane that came after the number it is sending: those still to send and those collected (08 R248). -/
def LaneState.later (l : LaneState) : Nat :=
  (l.out.filter fun t => t.1 = 0 && (t.2.kind = 0x1 || t.2.kind = 0x8)).length + l.group.length

/-- A lane that computes its number ends it; a rect that has not decided says so on aux (08 R241). The number of a compare lane
whose END waits is complete, though the lane may be in its next step (08 R239). -/
def Core.killComputed (c : Core) (site l : Nat) : Core :=
  let n := (c.nodeState site).lane l
  let w := c.node site
  if n.busy && n.eo.isSome && !(0x10 ≤ w.op.toNat && n.out.contains (0, .fin)) then
    let t := (n.cut 0).finish (if w.op.toNat = 0x11 && n.turn = 0 then [(2, .pred false)] else [])
    t.kills.foldl (fun c i => c.killAt site w l i) (c.modLane site l fun _ => t.lane)
  else c.modLane site l fun n => n.cut 0

/-- A KILL reaches a lane of an array accumulator (08 R247, 09 R267): END comes next. Where the number is that of the row tag whose
digits still enter, its column is gated: its cells take no digit from the second M-cycle boundary on. -/
def Core.killColumn (c : Core) (site l : Nat) : Core :=
  let col := 4 * (site - 320) + l
  let older := ((c.nodeState site).lane l).out.any fun t => t.1 = 0 && t.2.kind = 0x1
  let releasing := c.array.run.any fun r => (c.releases r).contains (col, 2)
  let cut := c.modLane site l fun n => n.cut 0
  if older || !releasing then cut
  else cut.modTag fun t => if t.got = 0 || (look t.gates col).isSome then t else { t with gates := t.gates ++ [(col, t.got + 1)] }

/-- A KILL reaches a lane of the producer of a number, on output x (08 R245). -/
def Core.killLane (c : Core) (site l x : Nat) : Core :=
  let w := c.node site
  let op := w.op.toNat
  let n := (c.nodeState site).lane l
  let cutHere := c.modLane site l fun n => n.cut x
  if (0x01 ≤ op && op ≤ 0x0E) || (0x11 ≤ op && op ≤ 0x13) then c.killComputed site l
  else match op with
    | 0x20 => if 320 ≤ site then c.killColumn site l else cutHere
    | 0x14 =>
      let i := 2 - n.pending.getD 0
      if ((nth n.ops i none).filter fun o => !o.discard).isSome then cutHere.killItem site l i else cutHere
    | 0x18 => (cutHere.countKill site l).killAgo site w l 0 0
    | 0x1A => (cutHere.countKill site l).killAgo site w l 0 0
    | 0x1B => (cutHere.countKill site l).killAgo site w l 0 n.later
    | 0x28 => if n.busy && !n.stopped then cutHere.killPassing site l n.index else cutHere
    | 0x29 => if n.busy && !n.stopped then cutHere.killPassing site l 0 else cutHere
    | 0x2A =>
      if !n.busy then cutHere
      else
        let mask := n.index ||| 2 ^ x
        let c := cutHere.modLane site l fun n => { n with index := mask }
        if (branches w).all fun y => bitOf mask y then c.killAt site w l 0 else c
    | 0x2B => if ((nth n.ops x none).filter fun o => !o.discard).isSome then cutHere.killItem site l x else cutHere
    | 0x2E => c.killHeld site l
    | 0x30 => if n.busy then c.killForward site l else c
    | _ => cutHere

/-- The number that a lane is sending on an output has this ordinal (06 R181, R182). -/
def Core.sending (c : Core) (site l x ordinal : Nat) : Bool :=
  let o := nth ((c.nodeState site).lane l).outs x ⟨0, false⟩
  o.isOpen && (o.heads + 7) % 8 = ordinal

/-- KILL_RECEIVE: the oldest KILL word on the reverse wire of an input's link reaches what drives the link. At an input port it
ends (08 R246), and a KILL for a number whose END has been sent is ignored (06 R182). A node counts event 0x11 (14 R413). -/
def execKillReceive (k : CoreId) (site inp : Nat) (s : State) : Res :=
  let c := s.core k
  let w := c.node site
  let side := inputSide w inp
  let l := c.fabric.link site side
  match l.kills with
  | [] => .next s
  | kw :: r =>
    if c.records.contains 8 || 3 ≤ inp || selectOf w inp = 0 then .next s
    else
      let c := { c with fabric := c.fabric.setLink site side { l with kills := r } }
      let from_ : Source := if side = 4 then .node site 0 else (c.image.map fun i => i.driver 1024 site side).getD .none
      .next (s.setCore k (match from_ with
        | .node p x =>
          (upto 4).foldl (fun c n =>
            if kw.getLsbD n && c.sending p n x (bitsOf kw.toNat (6 + 3 * n) (4 + 3 * n)) then c.killLane p n x else c) (c.event 0x11 1 false)
        | _ => c))

end Sys2Proof.Machine
end

