-- ==== Sys2Proof/Machine/Measured.lean ====
section
/-!
DEFINITION. The measured-replay service (17 R422 to R425): MEASURED_REPLAY_REQUEST begins a request, and goes on with the one in progress by
one stage wherever that may go on.
-/
namespace Sys2Proof.Machine

/-! ## The request (17 R422) -/

/-- The request's fields. Stage 0 waits for datum D, and attempt then holds the count of commits before it. -/
def Replay.of (bs : List Byte) : Replay where
  ctx := fieldAt bs 0 2
  k := fieldAt bs 3 1 * 32 + fieldAt bs 2 1
  passes := fieldAt bs 4 1
  retries := fieldAt bs 5 1
  block := BitVec.ofNat 64 (fieldAt bs 8 8)
  report := BitVec.ofNat 64 (fieldAt bs 0x10 8)
  sel := (upto 16).map fun i => fieldAt bs (0x18 + 2 * i) 2
  pass := 0
  attempt := 0
  stage := 0
  counts := List.replicate 4 []
  sets := List.replicate 4 ([], [])
  mis := List.replicate 4 false
  codes := List.replicate 4 0
  attempts := List.replicate 4 0

/-- A request that keeps its rules, of a context that runs on a partition with the core. -/
def Replay.valid (r : Replay) (bs : List Byte) (p : Partition) : Bool :=
  bs.length = 64 && fieldAt bs 2 1 < 32 && rectHas p.rect r.k && 1 ≤ r.passes && r.passes ≤ 4 && r.retries ≤ 3 && fieldAt bs 6 2 = 0 &&
    r.report.toNat % 64 = 0 && (r.sel.all fun v => v / 512 = 0) && fieldAt bs 0x38 8 = 0

/-! ## The report (17 R425) -/

/-- Host locations in a write set stand above every device address. -/
def hostKey : Nat := 2 ^ 64

/-- The entry of a pass. -/
def Replay.entry (r : Replay) (p : Nat) : List Byte :=
  let w := nth r.sets p ([], [])
  (upto 4).flatMap (fun i => leBytes 8 (nth (nth r.counts p []) i 0)) ++ leBytes 4 (w.1.filter fun e => e.1 < hostKey).length ++
    leBytes 4 w.2.length ++ leBytes 1 (nth r.attempts p 0) ++ leBytes 1 (nth r.codes p 0) ++ leBytes 22 0

/-- The report of a request that ends; run: passes run. -/
def Replay.bytes (r : Replay) (status reason run gen : Nat) : List Byte :=
  let mask := ((upto 4).map fun p => bit (nth r.mis p false) * 2 ^ p).sum
  leBytes 1 status ++ leBytes 1 run ++ leBytes 1 mask ++ leBytes 1 reason ++ leBytes 4 0 ++ leBytes 2 gen ++ leBytes 54 0 ++
    (upto 4).flatMap (fun p => if p < run then r.entry p else leBytes 64 0) ++ leBytes 64 0

/-- A request ends with its report in host memory. -/
def State.endReplay (s : State) (r : Replay) (status reason run : Nat) : State :=
  let s := s.setBytes ⟨true, r.report.toNat⟩ (r.bytes status reason run (s.ctx r.ctx).gen)
  { s with replay := none }

/-! ## Write sets (17 R424) -/

/-- The newest version of a tile, with those that firings have not made current ahead of it (log 34). -/
def Context.newestTile (c : Context) (k : TileKey) : Option (List Byte) :=
  match (c.firings.filterMap fun e => look e.2.writes k).getLast? with
  | some w => some w.2
  | none => (versionAt ((look c.tiles k).getD []) c.epoch).map fun v => v.data

/-- The bytes of a held host store, which is one store of a line's bytes (03 R69), each after its place in the line. -/
def heldBytes (l : Line) : List Byte :=
  (upto 64).flatMap fun i => ((look l.bytes i).map fun b => [BitVec.ofNat 8 i, b]).getD []

/-- The write set since the cut of the last committed datum. -/
def State.writeSet (s : State) (x : Nat) : List (Nat × List Byte) × List (TileKey × List Byte) :=
  let c := s.ctx x
  let since := (c.datum.map fun d => d.epoch).getD 0
  let lines := (c.undo.filterMap fun u => match u with
    | .line n _ => some n
    | .atlas _ _ _ _ => none).eraseDups
  let hosts := c.held.map fun h => (hostKey + h.line.num * 64, heldBytes h.line)
  let mine := c.firings.flatMap fun e => e.2.writes.map fun w => w.1
  let tiles := ((c.tiles.filter fun t => t.2.any fun v => since < v.since).map fun t => t.1) ++ mine
  (lines.map (fun n => (n * 64, s.bytesAt ⟨false, n * 64⟩ 64)) ++ hosts,
    tiles.eraseDups.filterMap fun k => (c.newestTile k).map fun bs => (k, bs))

/-- Two lists hold the same members. -/
def sameMembers {α : Type} [DecidableEq α] (a b : List α) : Bool := a.all (fun e => b.contains e) && b.all fun e => a.contains e

/-! ## The stages (17 R423) -/

/-- The counters of the measured core are set up for a pass: disabled, then enabled where an event is named. -/
def State.setCounters (s : State) (r : Replay) : State :=
  let halted := (s.partOf r.k).any fun p => p.halt
  let entryOf (i : Nat) : Nat := nth r.sel (4 * r.pass + i) 0
  let v (i en : Nat) : Nat := entryOf i % 256 + en * 256 + bitsOf (entryOf i) 8 8 * 512
  let select (i : Nat) (e : EventCounter) : EventCounter :=
    if entryOf i % 256 = 0 then e.select r.ctx (v i 0) halted else (e.select r.ctx (v i 0) halted).select r.ctx (v i 1) halted
  s.modCore r.k fun c => { c with counters := c.counters.mapIdx select }

/-- The values of the measured core's counters. -/
def State.readCounters (s : State) (r : Replay) : List Nat := (s.core r.k).counters.toList.map fun e => e.count

/-- The entry of the pass in progress is that of its last attempt (17 R425). -/
def Replay.fresh (r : Replay) : Replay := { r with
  counts := updNth r.counts r.pass fun _ => [], sets := updNth r.sets r.pass fun _ => ([], [])
  codes := updNth r.codes r.pass fun _ => 0, attempts := updNth r.attempts r.pass fun _ => r.attempt + 1 }

/-- A pass starts: the partition is cleaned, the counters are set, and the launch starts. A refusal leaves the entries of the
attempts made. -/
def State.startPass (s : State) (r : Replay) (p : Partition) : State :=
  let s := s.cleanCores p.rect
  let s := s.setCounters r
  let run := r.pass + bit (0 < r.attempt)
  match s.checkBlock r.ctx r.block with
  | .ok (b, hs, _) => { s.install r.ctx b hs with replay := some { r.fresh with stage := 2 } }
  | .error (.fail code _ _) => s.endReplay r 6 code run
  | .error _ => s.endReplay r 6 0 run

/-- A pass ends at a halt: its report code is that of an origin record, one other than cause 0x13 where there is one, 0 where the
halt has none. Where the conditions of a resume do not hold, the halt stands (13 R355, log 108). -/
def State.endPass (s : State) (r : Replay) (p : Partition) : State :=
  let x := r.ctx
  let codes := s.originCodes p
  let n := r.pass
  let code := (codes.find? fun c => c ≠ 0x13).getD (codes.headD 0)
  let ws := s.writeSet x
  let a := r.attempt + 1
  let first := nth r.sets 0 ([], [])
  let mis := 0 < n && !(sameMembers ws.1 first.1 && sameMembers ws.2 first.2)
  let noted : Replay := { r with
    codes := updNth r.codes n fun _ => code, attempts := updNth r.attempts n fun _ => a
    counts := updNth r.counts n fun _ => s.readCounters r, sets := updNth r.sets n fun _ => ws }
  let back (t : State) : State := match (t.ctx x).datum with
    | some d => t.rollBack x p d
    | none => t
  let on : State := if s.mayResume p x then s.resumeHere p x else s
  if codes.any fun c => c ≠ 0x13 then s.endReplay { r with codes := noted.codes } 3 0 (n + 1)
  else if 65536 < (ws.1.filter fun e => e.1 < hostKey).length || 4096 < ws.2.length then (back s).endReplay noted 4 0 (n + 1)
  else if (s.ctx x).imm then on.endReplay noted 5 0 (n + 1)
  else
    let again := mis && a ≤ r.retries
    let next : Replay := { noted with mis := updNth r.mis n fun _ => mis, attempt := if again then a else 0 }
    if n + 1 < r.passes || again then
      { back s with replay := some { next with stage := 1, pass := if again then n else n + 1 } }
    else { on with replay := some { next with stage := 3 } }

/-- A request begins, or is refused (17 R423). -/
def State.beginReplay (s : State) (bs : List Byte) : State :=
  let r := Replay.of bs
  let c := s.ctx r.ctx
  match s.ctxPart r.ctx with
  | none => s.endReplay r 1 0 0
  | some p =>
    if !r.valid bs p || c.launches ≠ [] || c.imm || !s.quiet r.ctx p.rect then s.endReplay r 1 0 0
    else
      let s := s.modCtx r.ctx fun c => { c with req := true }
      { s with replay := some { r with attempt := c.gen } }

/-- The launch that a request measures is live. -/
def State.measuring (s : State) (r : Replay) : Bool := (s.ctx r.ctx).launches.any fun l => l.block.addr = r.block

/-- MEASURED_REPLAY_REQUEST: the request's next step. Stage 0 waits for datum D, 1 for the partition to be clean and without a halt,
2 for a halt or the launch's retirement, 3 and 4 for the retirement and the datum it takes, after which the report of status 0 or 2
is written. -/
def execMeasuredReplayRequest (req : List Byte) (s : State) : Res := match s.replay with
  | none => .next (s.beginReplay req)
  | some r =>
    let c := s.ctx r.ctx
    match s.ctxPart r.ctx with
    | none => .next (s.endReplay r 3 0 r.pass)
    | some p => match r.stage with
      | 0 =>
        if c.gen ≠ r.attempt then .next { s with replay := some { r with stage := 1, attempt := 0 } }
        else if c.req then .next s
        else .next (s.modCtx r.ctx fun c => { c with req := true })
      | 1 => if !p.halt && s.quiet r.ctx p.rect then .next (s.startPass r p) else .next s
      | 2 =>
        if !s.measuring r then
          .next { s with replay := some { r with counts := updNth r.counts r.pass fun _ => s.readCounters r, stage := 4 } }
        else if s.allStopped p then .next (s.endPass r p)
        else .next s
      | n =>
        if s.measuring r || c.retiring ≠ [] || c.pending.isSome || c.wantDatum then .next s
        else if n = 4 then .next (s.endReplay r 2 0 (r.pass + 1))
        else .next (s.endReplay r 0 0 r.passes)

end Sys2Proof.Machine
end

