-- ==== Sys2Proof/Machine/Dispatch.lean ====
section
/-!
DEFINITION. One arm per constructor of Instr: each calls the meaning of its instruction or event.
-/
namespace Sys2Proof.Machine

def exec (i : Instr) (s : State) : Host.Outcome State Fault Refusal :=
  match i with
  | .add d a b => Sys2Proof.Machine.execAdd d a b s
  | .sub d a b => Sys2Proof.Machine.execSub d a b s
  | .and d a b => Sys2Proof.Machine.execAnd d a b s
  | .or d a b => Sys2Proof.Machine.execOr d a b s
  | .xor d a b => Sys2Proof.Machine.execXor d a b s
  | .andn d a b => Sys2Proof.Machine.execAndn d a b s
  | .shl d a b => Sys2Proof.Machine.execShl d a b s
  | .shr d a b => Sys2Proof.Machine.execShr d a b s
  | .sra d a b => Sys2Proof.Machine.execSra d a b s
  | .mul d a b => Sys2Proof.Machine.execMul d a b s
  | .mulh d a b => Sys2Proof.Machine.execMulh d a b s
  | .mulhu d a b => Sys2Proof.Machine.execMulhu d a b s
  | .div d a b => Sys2Proof.Machine.execDiv d a b s
  | .divu d a b => Sys2Proof.Machine.execDivu d a b s
  | .rem d a b => Sys2Proof.Machine.execRem d a b s
  | .remu d a b => Sys2Proof.Machine.execRemu d a b s
  | .min d a b => Sys2Proof.Machine.execMin d a b s
  | .max d a b => Sys2Proof.Machine.execMax d a b s
  | .minu d a b => Sys2Proof.Machine.execMinu d a b s
  | .maxu d a b => Sys2Proof.Machine.execMaxu d a b s
  | .adds d a b => Sys2Proof.Machine.execAdds d a b s
  | .subs d a b => Sys2Proof.Machine.execSubs d a b s
  | .clz d a => Sys2Proof.Machine.execClz d a s
  | .ctz d a => Sys2Proof.Machine.execCtz d a s
  | .popc d a => Sys2Proof.Machine.execPopc d a s
  | .sxtB d a => Sys2Proof.Machine.execSxtB d a s
  | .sxtH d a => Sys2Proof.Machine.execSxtH d a s
  | .sxtW d a => Sys2Proof.Machine.execSxtW d a s
  | .zxtB d a => Sys2Proof.Machine.execZxtB d a s
  | .zxtH d a => Sys2Proof.Machine.execZxtH d a s
  | .zxtW d a => Sys2Proof.Machine.execZxtW d a s
  | .addi d a v => Sys2Proof.Machine.execAddi d a v s
  | .andi d a v => Sys2Proof.Machine.execAndi d a v s
  | .ori d a v => Sys2Proof.Machine.execOri d a v s
  | .xori d a v => Sys2Proof.Machine.execXori d a v s
  | .shlImmediate d a n => Sys2Proof.Machine.execShlImmediate d a n s
  | .shrImmediate d a n => Sys2Proof.Machine.execShrImmediate d a n s
  | .sraImmediate d a n => Sys2Proof.Machine.execSraImmediate d a n s
  | .lhi d v => Sys2Proof.Machine.execLhi d v s
  | .lea d a b z => Sys2Proof.Machine.execLea d a b z s
  | .lin d a b => Sys2Proof.Machine.execLin d a b s
  | .pk d a b v => Sys2Proof.Machine.execPk d a b v s
  | .xk d a v => Sys2Proof.Machine.execXk d a v s
  | .cmpEq p a b => Sys2Proof.Machine.execCmpEq p a b s
  | .cmpNe p a b => Sys2Proof.Machine.execCmpNe p a b s
  | .cmpLt p a b => Sys2Proof.Machine.execCmpLt p a b s
  | .cmpGe p a b => Sys2Proof.Machine.execCmpGe p a b s
  | .cmpLtu p a b => Sys2Proof.Machine.execCmpLtu p a b s
  | .cmpGeu p a b => Sys2Proof.Machine.execCmpGeu p a b s
  | .cmpiEq a p v => Sys2Proof.Machine.execCmpiEq a p v s
  | .cmpiNe a p v => Sys2Proof.Machine.execCmpiNe a p v s
  | .cmpiLt a p v => Sys2Proof.Machine.execCmpiLt a p v s
  | .cmpiGe a p v => Sys2Proof.Machine.execCmpiGe a p v s
  | .cmpiLtu a p v => Sys2Proof.Machine.execCmpiLtu a p v s
  | .cmpiGeu a p v => Sys2Proof.Machine.execCmpiGeu a p v s
  | .sel d a b k => Sys2Proof.Machine.execSel d a b k s
  | .selN d a b k => Sys2Proof.Machine.execSelN d a b k s
  | .pand d a b => Sys2Proof.Machine.execPand d a b s
  | .por d a b => Sys2Proof.Machine.execPor d a b s
  | .pxor d a b => Sys2Proof.Machine.execPxor d a b s
  | .pandn d a b => Sys2Proof.Machine.execPandn d a b s
  | .porn d a b => Sys2Proof.Machine.execPorn d a b s
  | .ptog d => Sys2Proof.Machine.execPtog d s
  | .gtop a => Sys2Proof.Machine.execGtop a s
  | .brt p o => Sys2Proof.Machine.execBrt p o s
  | .brn p o => Sys2Proof.Machine.execBrn p o s
  | .br o => Sys2Proof.Machine.execBr o s
  | .callt p o => Sys2Proof.Machine.execCallt p o s
  | .calln p o => Sys2Proof.Machine.execCalln p o s
  | .call o => Sys2Proof.Machine.execCall o s
  | .jr a => Sys2Proof.Machine.execJr a s
  | .jrl d a => Sys2Proof.Machine.execJrl d a s
  | .loop a l => Sys2Proof.Machine.execLoop a l s
  | .done => Sys2Proof.Machine.execDone s
  | .yield => Sys2Proof.Machine.execYield s
  | .isync => Sys2Proof.Machine.execIsync s
  | .ldB d a v => Sys2Proof.Machine.execLdB d a v s
  | .ldBz d a v => Sys2Proof.Machine.execLdBz d a v s
  | .ldH d a v => Sys2Proof.Machine.execLdH d a v s
  | .ldHz d a v => Sys2Proof.Machine.execLdHz d a v s
  | .ldW d a v => Sys2Proof.Machine.execLdW d a v s
  | .ldWz d a v => Sys2Proof.Machine.execLdWz d a v s
  | .ldD d a v => Sys2Proof.Machine.execLdD d a v s
  | .ldx d a b z z1 => Sys2Proof.Machine.execLdx d a b z z1 s
  | .stB d a v => Sys2Proof.Machine.execStB d a v s
  | .stH d a v => Sys2Proof.Machine.execStH d a v s
  | .stW d a v => Sys2Proof.Machine.execStW d a v s
  | .stD d a v => Sys2Proof.Machine.execStD d a v s
  | .stx d a b z z1 => Sys2Proof.Machine.execStx d a b z z1 s
  | .pref a v => Sys2Proof.Machine.execPref a v s
  | .ldb d a x o => Sys2Proof.Machine.execLdb d a x o s
  | .ldbFe d a x o => Sys2Proof.Machine.execLdbFe d a x o s
  | .ldbPk d a x o => Sys2Proof.Machine.execLdbPk d a x o s
  | .ldbNb d a x o => Sys2Proof.Machine.execLdbNb d a x o s
  | .stb d a x o => Sys2Proof.Machine.execStb d a x o s
  | .stbFe d a x o => Sys2Proof.Machine.execStbFe d a x o s
  | .bpf a x o => Sys2Proof.Machine.execBpf a x o s
  | .ldbx d a b x => Sys2Proof.Machine.execLdbx d a b x s
  | .ldbxFe d a b x => Sys2Proof.Machine.execLdbxFe d a b x s
  | .ldbxPk d a b x => Sys2Proof.Machine.execLdbxPk d a b x s
  | .ldbxNb d a b x => Sys2Proof.Machine.execLdbxNb d a b x s
  | .stbx d a b x => Sys2Proof.Machine.execStbx d a b x s
  | .stbxFe d a b x => Sys2Proof.Machine.execStbxFe d a b x s
  | .fibOpen d a b => Sys2Proof.Machine.execFibOpen d a b s
  | .fibSet d a b => Sys2Proof.Machine.execFibSet d a b s
  | .fibAdv d => Sys2Proof.Machine.execFibAdv d s
  | .fibSeek d a => Sys2Proof.Machine.execFibSeek d a s
  | .fibEnd d a => Sys2Proof.Machine.execFibEnd d a s
  | .fibGet d a b => Sys2Proof.Machine.execFibGet d a b s
  | .fibClose d => Sys2Proof.Machine.execFibClose d s
  | .jsxSet d a b => Sys2Proof.Machine.execJsxSet d a b s
  | .jsxGet d a b => Sys2Proof.Machine.execJsxGet d a b s
  | .amoAdd d a b z => Sys2Proof.Machine.execAmoAdd d a b z s
  | .amoAnd d a b z => Sys2Proof.Machine.execAmoAnd d a b z s
  | .amoOr d a b z => Sys2Proof.Machine.execAmoOr d a b z s
  | .amoXor d a b z => Sys2Proof.Machine.execAmoXor d a b z s
  | .amoMin d a b z => Sys2Proof.Machine.execAmoMin d a b z s
  | .amoMax d a b z => Sys2Proof.Machine.execAmoMax d a b z s
  | .amoMinu d a b z => Sys2Proof.Machine.execAmoMinu d a b z s
  | .amoMaxu d a b z => Sys2Proof.Machine.execAmoMaxu d a b z s
  | .amoSwap d a b z => Sys2Proof.Machine.execAmoSwap d a b z s
  | .amoFadd d a b => Sys2Proof.Machine.execAmoFadd d a b s
  | .amonAdd a b z => Sys2Proof.Machine.execAmonAdd a b z s
  | .amonAnd a b z => Sys2Proof.Machine.execAmonAnd a b z s
  | .amonOr a b z => Sys2Proof.Machine.execAmonOr a b z s
  | .amonXor a b z => Sys2Proof.Machine.execAmonXor a b z s
  | .amonMin a b z => Sys2Proof.Machine.execAmonMin a b z s
  | .amonMax a b z => Sys2Proof.Machine.execAmonMax a b z s
  | .amonMinu a b z => Sys2Proof.Machine.execAmonMinu a b z s
  | .amonMaxu a b z => Sys2Proof.Machine.execAmonMaxu a b z s
  | .amonSwap a b z => Sys2Proof.Machine.execAmonSwap a b z s
  | .amonFadd a b => Sys2Proof.Machine.execAmonFadd a b s
  | .amonPerform k => Sys2Proof.Machine.execAmonPerform k s
  | .cas d a b z => Sys2Proof.Machine.execCas d a b z s
  | .phase => Sys2Proof.Machine.execPhase s
  | .fence => Sys2Proof.Machine.execFence s
  | .fenceC => Sys2Proof.Machine.execFenceC s
  | .fenceX => Sys2Proof.Machine.execFenceX s
  | .wait d a n => Sys2Proof.Machine.execWait d a n s
  | .waitLimited d a b n => Sys2Proof.Machine.execWaitLimited d a b n s
  | .waitLimitExpiry k c => Sys2Proof.Machine.execWaitLimitExpiry k c s
  | .pailArm a v => Sys2Proof.Machine.execPailArm a v s
  | .pailWait d a v => Sys2Proof.Machine.execPailWait d a v s
  | .pailRd d v => Sys2Proof.Machine.execPailRd d v s
  | .send c a b => Sys2Proof.Machine.execSend c a b s
  | .recv d c => Sys2Proof.Machine.execRecv d c s
  | .pointSeq d => Sys2Proof.Machine.execPointSeq d s
  | .pointHt d a => Sys2Proof.Machine.execPointHt d a s
  | .spawn d a => Sys2Proof.Machine.execSpawn d a s
  | .mask a => Sys2Proof.Machine.execMask a s
  | .unmask a => Sys2Proof.Machine.execUnmask a s
  | .cmd q => Sys2Proof.Machine.execCmd q s
  | .cmdw q => Sys2Proof.Machine.execCmdw q s
  | .qld q g o => Sys2Proof.Machine.execQld q g o s
  | .qst q g o => Sys2Proof.Machine.execQst q g o s
  | .qins q g l w => Sys2Proof.Machine.execQins q g l w s
  | .advC h n => Sys2Proof.Machine.execAdvC h n s
  | .advP h n => Sys2Proof.Machine.execAdvP h n s
  | .hwaitC h n => Sys2Proof.Machine.execHwaitC h n s
  | .hwaitP h n => Sys2Proof.Machine.execHwaitP h n s
  | .mfsy d z => Sys2Proof.Machine.execMfsy d z s
  | .mtsy a z => Sys2Proof.Machine.execMtsy a z s
  | .trap c => Sys2Proof.Machine.execTrap c s
  | .ebrk => Sys2Proof.Machine.execEbrk s
  | .idle => Sys2Proof.Machine.execIdle s
  | .idleTimeout k c => Sys2Proof.Machine.execIdleTimeout k c s
  | .hintCompute => Sys2Proof.Machine.execHintCompute s
  | .hintMemory => Sys2Proof.Machine.execHintMemory s
  | .hintWait => Sys2Proof.Machine.execHintWait s
  | .syHdWrite h v => Sys2Proof.Machine.execSyHdWrite h v s
  | .syDatumReqWrite x => Sys2Proof.Machine.execSyDatumReqWrite x s
  | .syQuotaWrite x n v => Sys2Proof.Machine.execSyQuotaWrite x n v s
  | .syEvselWrite k n v => Sys2Proof.Machine.execSyEvselWrite k n v s
  | .syClkdefWrite cl v => Sys2Proof.Machine.execSyClkdefWrite cl v s
  | .firingContextWake k c => Sys2Proof.Machine.execFiringContextWake k c s
  | .quantumExpiry k => Sys2Proof.Machine.execQuantumExpiry k s
  | .firingSelection k => Sys2Proof.Machine.execFiringSelection k s
  | .unitStop u => Sys2Proof.Machine.execUnitStop u s
  | .illegalInstruction w => Sys2Proof.Machine.execIllegalInstruction w s
  | .instructionFetchFault cause => Sys2Proof.Machine.execInstructionFetchFault cause s
  | .ldAff c => Sys2Proof.Machine.execLdAff c s
  | .ldTile c => Sys2Proof.Machine.execLdTile c s
  | .stAff c => Sys2Proof.Machine.execStAff c s
  | .stTile c => Sys2Proof.Machine.execStTile c s
  | .tfetch c => Sys2Proof.Machine.execTfetch c s
  | .streamSubs c => Sys2Proof.Machine.execStreamSubs c s
  | .pull c => Sys2Proof.Machine.execPull c s
  | .gath c => Sys2Proof.Machine.execGath c s
  | .scat c => Sys2Proof.Machine.execScat c s
  | .copy c => Sys2Proof.Machine.execCopy c s
  | .fill c => Sys2Proof.Machine.execFill c s
  | .cfgLd c => Sys2Proof.Machine.execCfgLd c s
  | .cfgSw c => Sys2Proof.Machine.execCfgSw c s
  | .bound c => Sys2Proof.Machine.execBound c s
  | .kick c => Sys2Proof.Machine.execKick c s
  | .barr c => Sys2Proof.Machine.execBarr c s
  | .bank c => Sys2Proof.Machine.execBank c s
  | .lease c => Sys2Proof.Machine.execLease c s
  | .relatch c => Sys2Proof.Machine.execRelatch c s
  | .streamPref c => Sys2Proof.Machine.execStreamPref c s
  | .wld c => Sys2Proof.Machine.execWld c s
  | .mrun c => Sys2Proof.Machine.execMrun c s
  | .trun c => Sys2Proof.Machine.execTrun c s
  | .twinRendezvous k => Sys2Proof.Machine.execTwinRendezvous k s
  | .szld c => Sys2Proof.Machine.execSzld c s
  | .spill c => Sys2Proof.Machine.execSpill c s
  | .rest c => Sys2Proof.Machine.execRest c s
  | .fopen c => Sys2Proof.Machine.execFopen c s
  | .fclose c => Sys2Proof.Machine.execFclose c s
  | .isect c => Sys2Proof.Machine.execIsect c s
  | .eqpart c => Sys2Proof.Machine.execEqpart c s
  | .hset c => Sys2Proof.Machine.execHset c s
  | .hsetR c => Sys2Proof.Machine.execHsetR c s
  | .rsend c => Sys2Proof.Machine.execRsend c s
  | .icollBcast c => Sys2Proof.Machine.execIcollBcast c s
  | .icollReduce c => Sys2Proof.Machine.execIcollReduce c s
  | .icollAllred c => Sys2Proof.Machine.execIcollAllred c s
  | .icollGather c => Sys2Proof.Machine.execIcollGather c s
  | .lnch c => Sys2Proof.Machine.execLnch c s
  | .podLaunchCompare x tag copies => Sys2Proof.Machine.execPodLaunchCompare x tag copies s
  | .lsync c => Sys2Proof.Machine.execLsync c s
  | .lsyncD c => Sys2Proof.Machine.execLsyncD c s
  | .commandStart k id => Sys2Proof.Machine.execCommandStart k id s
  | .commandComplete k id => Sys2Proof.Machine.execCommandComplete k id s
  | .commandFailure k id reason => Sys2Proof.Machine.execCommandFailure k id reason s
  | .atlasWalk die tensor plate => Sys2Proof.Machine.execAtlasWalk die tensor plate s
  | .relatchToken k site => Sys2Proof.Machine.execRelatchToken k site s
  | .firmwareAtlasChange x tensor plate e => Sys2Proof.Machine.execFirmwareAtlasChange x tensor plate e s
  | .heatWindow k port => Sys2Proof.Machine.execHeatWindow k port s
  | .pointDelivery x tag idx => Sys2Proof.Machine.execPointDelivery x tag idx s
  | .pointRetirement x fid => Sys2Proof.Machine.execPointRetirement x fid s
  | .heightCopyUpdate x tag die idx => Sys2Proof.Machine.execHeightCopyUpdate x tag die idx s
  | .taskPlacement x seq k => Sys2Proof.Machine.execTaskPlacement x seq k s
  | .taskRetirement x fid => Sys2Proof.Machine.execTaskRetirement x fid s
  | .leaseGrant x w => Sys2Proof.Machine.execLeaseGrant x w s
  | .roomRequest k => Sys2Proof.Machine.execRoomRequest k s
  | .roomGrant k dst ch => Sys2Proof.Machine.execRoomGrant k dst ch s
  | .messageArrival k => Sys2Proof.Machine.execMessageArrival k s
  | .flitHop l => Sys2Proof.Machine.execFlitHop l s
  | .packetArbitration l => Sys2Proof.Machine.execPacketArbitration l s
  | .slotReturn l escape => Sys2Proof.Machine.execSlotReturn l escape s
  | .scaleOutFrameReceive die f => Sys2Proof.Machine.execScaleOutFrameReceive die f s
  | .scaleOutFrameAck die peer num => Sys2Proof.Machine.execScaleOutFrameAck die peer num s
  | .scaleOutRetransmit die peer num => Sys2Proof.Machine.execScaleOutRetransmit die peer num s
  | .beatArrival k site inp => Sys2Proof.Machine.execBeatArrival k site inp s
  | .killReceive k site inp => Sys2Proof.Machine.execKillReceive k site inp s
  | .nodeAdd k site lane => Sys2Proof.Machine.execNodeAdd k site lane s
  | .nodeSub k site lane => Sys2Proof.Machine.execNodeSub k site lane s
  | .nodeMul k site lane => Sys2Proof.Machine.execNodeMul k site lane s
  | .nodeMad k site lane => Sys2Proof.Machine.execNodeMad k site lane s
  | .nodeDiv k site lane => Sys2Proof.Machine.execNodeDiv k site lane s
  | .nodeSqrt k site lane => Sys2Proof.Machine.execNodeSqrt k site lane s
  | .nodeNeg k site lane => Sys2Proof.Machine.execNodeNeg k site lane s
  | .nodeAbs k site lane => Sys2Proof.Machine.execNodeAbs k site lane s
  | .nodeShf k site lane => Sys2Proof.Machine.execNodeShf k site lane s
  | .nodeMin k site lane => Sys2Proof.Machine.execNodeMin k site lane s
  | .nodeMax k site lane => Sys2Proof.Machine.execNodeMax k site lane s
  | .nodeExp2 k site lane => Sys2Proof.Machine.execNodeExp2 k site lane s
  | .nodeLog2 k site lane => Sys2Proof.Machine.execNodeLog2 k site lane s
  | .nodeRsqrt k site lane => Sys2Proof.Machine.execNodeRsqrt k site lane s
  | .nodeMerge k site lane => Sys2Proof.Machine.execNodeMerge k site lane s
  | .nodeSplit k site lane => Sys2Proof.Machine.execNodeSplit k site lane s
  | .nodeFork k site lane => Sys2Proof.Machine.execNodeFork k site lane s
  | .nodeJoin k site lane => Sys2Proof.Machine.execNodeJoin k site lane s
  | .nodePsrc k site lane => Sys2Proof.Machine.execNodePsrc k site lane s
  | .nodeNsrc k site lane => Sys2Proof.Machine.execNodeNsrc k site lane s
  | .nodeDly k site lane => Sys2Proof.Machine.execNodeDly k site lane s
  | .nodeCnt k site lane => Sys2Proof.Machine.execNodeCnt k site lane s
  | .nodeSeqc k site lane => Sys2Proof.Machine.execNodeSeqc k site lane s
  | .nodePipc k site lane => Sys2Proof.Machine.execNodePipc k site lane s
  | .nodeStrc k site lane => Sys2Proof.Machine.execNodeStrc k site lane s
  | .nodeCmp k site lane => Sys2Proof.Machine.execNodeCmp k site lane s
  | .nodeRect k site lane => Sys2Proof.Machine.execNodeRect k site lane s
  | .nodeMaxk k site lane => Sys2Proof.Machine.execNodeMaxk k site lane s
  | .nodeThrk k site lane => Sys2Proof.Machine.execNodeThrk k site lane s
  | .nodeSel k site lane => Sys2Proof.Machine.execNodeSel k site lane s
  | .nodeW2d k site lane => Sys2Proof.Machine.execNodeW2d k site lane s
  | .nodeD2w k site lane => Sys2Proof.Machine.execNodeD2w k site lane s
  | .nodeDqg k site lane => Sys2Proof.Machine.execNodeDqg k site lane s
  | .nodeFalign k site lane => Sys2Proof.Machine.execNodeFalign k site lane s
  | .nodeFeed k site lane => Sys2Proof.Machine.execNodeFeed k site lane s
  | .nodeAcc k site lane => Sys2Proof.Machine.execNodeAcc k site lane s
  | .nodeHacc k site lane => Sys2Proof.Machine.execNodeHacc k site lane s
  | .haccRowCommit k site lane => Sys2Proof.Machine.execHaccRowCommit k site lane s
  | .nodeSkc k site lane => Sys2Proof.Machine.execNodeSkc k site lane s
  | .nodeSka k site lane => Sys2Proof.Machine.execNodeSka k site lane s
  | .skimStatSend k site => Sys2Proof.Machine.execSkimStatSend k site s
  | .nodeAgaf k site lane => Sys2Proof.Machine.execNodeAgaf k site lane s
  | .nodeAgin k site lane => Sys2Proof.Machine.execNodeAgin k site lane s
  | .rowTagEntry k => Sys2Proof.Machine.execRowTagEntry k s
  | .rowTagCompletion k => Sys2Proof.Machine.execRowTagCompletion k s
  | .mailboxReport k => Sys2Proof.Machine.execMailboxReport k s
  | .dieFailure die => Sys2Proof.Machine.execDieFailure die s
  | .firmwareHaltRequest part => Sys2Proof.Machine.execFirmwareHaltRequest part s
  | .resume x => Sys2Proof.Machine.execResume x s
  | .rollback x => Sys2Proof.Machine.execRollback x s
  | .haltSave x => Sys2Proof.Machine.execHaltSave x s
  | .contextEnd x => Sys2Proof.Machine.execContextEnd x s
  | .datumCut x => Sys2Proof.Machine.execDatumCut x s
  | .datumCommit x => Sys2Proof.Machine.execDatumCommit x s
  | .datumHoldExpiry x => Sys2Proof.Machine.execDatumHoldExpiry x s
  | .managementMessage k w => Sys2Proof.Machine.execManagementMessage k w s
  | .preemption x newcomer => Sys2Proof.Machine.execPreemption x newcomer s
  | .switchSave x => Sys2Proof.Machine.execSwitchSave x s
  | .contextRestore x withdraw => Sys2Proof.Machine.execContextRestore x withdraw s
  | .contextCreate c => Sys2Proof.Machine.execContextCreate c s
  | .partitionChange part r => Sys2Proof.Machine.execPartitionChange part r s
  | .substitution part u k index => Sys2Proof.Machine.execSubstitution part u k index s
  | .clean part => Sys2Proof.Machine.execClean part s
  | .measuredReplayRequest req => Sys2Proof.Machine.execMeasuredReplayRequest req s
  | .powerOnReset => Sys2Proof.Machine.execPowerOnReset s
  | .boot imgs => Sys2Proof.Machine.execBoot imgs s
  | .bringUp b => Sys2Proof.Machine.execBringUp b s
  | .getVersion => Sys2Proof.Machine.execGetVersion s
  | .getCapabilities => Sys2Proof.Machine.execGetCapabilities s
  | .negotiateAlgorithms ed448 shake256 => Sys2Proof.Machine.execNegotiateAlgorithms ed448 shake256 s
  | .getDigests => Sys2Proof.Machine.execGetDigests s
  | .getCertificate offset len => Sys2Proof.Machine.execGetCertificate offset len s
  | .challenge nonce => Sys2Proof.Machine.execChallenge nonce s
  | .getMeasurements nonce => Sys2Proof.Machine.execGetMeasurements nonce s
  | .keyExchange share => Sys2Proof.Machine.execKeyExchange share s
  | .finish proof => Sys2Proof.Machine.execFinish proof s
  | .keyUpdate => Sys2Proof.Machine.execKeyUpdate s
  | .endSession => Sys2Proof.Machine.execEndSession s
  | .unsupportedSpdmRequest code => Sys2Proof.Machine.execUnsupportedSpdmRequest code s
  | .hostAtomicop r => Sys2Proof.Machine.execHostAtomicop r s
  | .hostMemoryAccess r => Sys2Proof.Machine.execHostMemoryAccess r s
  | .hostSnoop line own => Sys2Proof.Machine.execHostSnoop line own s
  | .atsInvalidation x vpn size => Sys2Proof.Machine.execAtsInvalidation x vpn size s
  | .priResponse x p => Sys2Proof.Machine.execPriResponse x p s
  | .arbiterEvaluation cl => Sys2Proof.Machine.execArbiterEvaluation cl s
  | .transitionStep cl => Sys2Proof.Machine.execTransitionStep cl s
  | .throttleStart cl => Sys2Proof.Machine.execThrottleStart cl s
  | .throttleEnd cl => Sys2Proof.Machine.execThrottleEnd cl s
  | .quotaCharge cl => Sys2Proof.Machine.execQuotaCharge cl s
  | .eventSample cl => Sys2Proof.Machine.execEventSample cl s
  | .junction95 celsius => Sys2Proof.Machine.execJunction95 celsius s
  | .thermalStop celsius flow => Sys2Proof.Machine.execThermalStop celsius flow s

end Sys2Proof.Machine
end

