-- ==== Sys2Proof/Machine/Ticks.lean ====
section
/-!
DEFINITION. The passing of ticks with what is due at each (14 R397, R401, R408, R412), and what follows every step: drains that begin (14
R409), the undo log's memory (13 R362, R364), write-backs (03 R68) and what selection sees (04 R114).
-/
namespace Sys2Proof.Machine

/-! ## Ticks -/

/-- The next state of a meaning, where there is one. -/
def State.after (s : State) (r : Res) : State := match r with
  | .next t => t
  | _ => s

/-- What is due at a tick of a cluster: a step of its transition, its evaluation, its charge and its sample, in this order (log
97). -/
def State.due (s : State) (cl : Nat) : State :=
  let s := s.after (execTransitionStep cl s)
  let s := s.after (execArbiterEvaluation cl s)
  let s := s.after (execQuotaCharge cl s)
  s.after (execEventSample cl s)

/-- n ticks of a cluster pass, one by one. -/
def State.ticks (s : State) (cl : Nat) : Nat → State
  | 0 => s
  | n + 1 => ((s.tick cl 1).due cl).ticks cl n

/-- Ticks of several clusters pass. -/
def State.elapse (s : State) (e : List (Nat × Nat)) : State := e.foldl (fun t x => t.ticks x.1 x.2) s

/-! ## The undo log in memory (13 R362, R364) -/

/-- An undo entry's 128 bytes: the line's address and its 64 bytes, or, of an atlas entry, its place and its fields as at the cut
(log 43). -/
def Undo.bytes : Undo → List Byte
  | .line n bs => (leBytes 8 (n * 64) ++ bs ++ leBytes 56 0).take 128
  | .atlas t p e _ => leBytes 8 (t + p * 65536) ++
      leBytes 16 (e.frame + bit e.wr * 2 ^ 54 + bit e.rd * 2 ^ 55 + e.ver % 8 * 2 ^ 56 + e.res * 2 ^ 59 + e.base * 2 ^ 64) ++ leBytes 104 0

/-- A datum's contents as the staging area holds them: its counter, the contour images, the pails and each core's part (log 43). -/
def Datum.bytes (d : Datum) : List Byte :=
  leBytes 8 d.counter ++ (d.launches ++ d.images).flatMap Launch.image ++ d.pails ++ d.cores.flatMap fun c =>
    leBytes 2 c.k ++ leBytes 1 c.cx ++ leBytes 1 (bit c.nflags.nv + bit c.nflags.ov * 2 + bit c.nflags.uf * 4 + bit c.nflags.nx * 8) ++
      (c.masks.flatMap fun m => leBytes 1 m.1.1 ++ leBytes 1 m.1.2 ++ leBytes 1 (bit m.2)) ++
      (c.chans.flatMap fun q => leBytes 1 q.1 ++ q.2.flatMap fun w => leBytes 8 w.toNat) ++
      (c.outbound.flatMap fun m => leBytes 2 m.dst ++ leBytes 1 m.chan ++ m.words.flatMap fun w => leBytes 8 w.toNat) ++
      (c.images.flatMap fun i => leBytes 1 i.1 ++ leBytes 8 i.2.sourceVa.toNat) ++
      c.colls.flatMap fun g => leBytes 1 g.1.1 ++ leBytes 1 g.1.2 ++ leBytes 4 g.2

/-- A context's undo entries stand in its log one after the other, and the contents of a pending datum at its end (13 R362, R364;
log 43). -/
def State.writeUndo (s : State) (x : Nat) : State :=
  let c := s.ctx x
  let from_ := min c.undoDone c.undo.length
  let s := ((c.undo.drop from_).zipIdx from_).foldl (fun t e => t.setBytes ⟨false, c.undoBase + 128 * e.2⟩ e.1.bytes) s
  let s := match c.pending with
    | some d => if c.staged then s else
        s.setBytes ⟨false, c.undoBase + 65536 * (c.undoSize + 1) - d.bytes.length⟩ d.bytes
    | none => s
  s.modCtx x fun c => { c with undoDone := c.undo.length, staged := c.pending.isSome }

/-- The undo logs that have changed are written. -/
def State.writeUndos (s : State) : State :=
  s.ctxs.foldl (fun t e =>
    if e.2.undoDone = e.2.undo.length && e.2.staged = e.2.pending.isSome then t else t.writeUndo e.1) s

/-! ## After a step -/

/-- What follows every step of the package. -/
def State.refresh (s : State) : State := (s.drains.writeUndos.writtenBack).reselect

end Sys2Proof.Machine
end

