-- ==== Sys2Proof/Machine/Step.lean ====
section
/-!
DEFINITION. One step of the package (log 2): the next entry of the agenda, or the acting core's own next step.
-/
namespace Sys2Proof.Machine

/-- Go on with a next state. -/
def Res.map (r : Res) (f : State → State) : Res := match r with
  | .next t => .next (f t)
  | .fault x => .fault x
  | .refused x => .refused x

/-- The word at the running context's pc issues and has its effect. -/
def State.issueWord (s : State) (w : BitVec 32) : Res :=
  match decodeScalar w.toNat with
  | some i => exec i s.issue
  | none => exec (.illegalInstruction w) s.issue

/-- A chore of the acting core. -/
def State.doChore (s : State) : Chore → Res
  | .drain n => .next (s.drainLine s.now n 0)
  | .wake n => exec (.firingContextWake s.now n.val) s
  | .atomic => exec (.amonPerform s.now) s
  | .select => exec (.firingSelection s.now) s
  | .host => .next s.hostPiece
  | .none => .next s

/-- The acting core's own step: its running context stops at a halt, gives way, or issues its word. -/
def State.coreStep (s : State) : Res :=
  if s.fc.status = .running && !s.fc.stopped then
    if s.halted s.now then exec (.unitStop (.core s.now (Fin.ofNat 16 s.cur.run.val))) s
    else if s.quantumOver then exec (.quantumExpiry s.now) s
    else match s.fetch with
      | .word w => s.issueWord w
      | .page => .next (s.block (.translation s.pc.toNat))
      | .code l => .next (s.block (.code l))
      | .refused c => exec (.instructionFetchFault c) s
      | .nowhere a => .fault (.noSuchMemory a)
  else s.doChore (s.chore s.now)

/-- What an agent does in its turn. -/
def State.act (s : State) : Act → Res
  | .issue k => State.coreStep { s with now := k }
  | .event k i => if ofItself i then exec i { s with now := k } else .next s
  | .drain k c n => .next (s.drainLine k (Fin.ofNat 8 c) n)
  | .evict k l => .next (s.evict k l)
  | .evictCode k l => .next (s.evictCode k l)
  | .evictPage k va => .next (s.evictPage k va)
  | .halfLoad k => .next (State.halfLoad { s with now := k })
  | .uncorrectable k c => .next (s.uncorrectable k (Fin.ofNat 8 c))
  | .dieError d r => .next (s.dieError d r)
  | .corrected k n => .next (s.correctedError k n)
  | .hostPiece => .next s.hostPiece
  | .writeBack x k => .next (s.writeBack x k)
  | .acknowledge cl n => .next (s.modCluster cl fun c => c.acknowledge n)
  | .mctp io i => if ofItself i then exec i { s with viaIo := io } else .next s
  | .privWrite k n v => .next (State.privWrite { s with now := k } n v)
  | .privRead k n => .next (State.privRead { s with now := k } n)
  | .manage cl => .next (s.manage1 cl)

/-- One step: the ticks of the agenda's first entry pass and its agent acts; without an agenda the acting core goes on. What
selection sees is kept up to date (04 R114). -/
def step (s : State) : Host.Outcome State Fault Refusal :=
  Res.map (match s.agenda with
    | [] => s.coreStep
    | a :: r => (State.elapse { s with agenda := r } a.elapsed).act a.act) State.refresh

/-- A state that runs an instruction of nbits bits as its next step (log 21): a firing runs on the acting core, and the word
stands where it fetches. -/
def State.withFetchWord (s : State) (nbits w : Nat) : State :=
  (State.running { s with agenda := [] }).placeCode (leBytes (nbits / 8) w)

end Sys2Proof.Machine
end

