-- ==== Sys2Proof/Safety.lean ====
section
/-!
DEFINITION. What counts as a safe run, and the words that claims are made of: what a step leaves as it was, and where the
pc goes.
-/
namespace Sys2Proof.Safety

open Sys2Proof.Machine

/-- The state after n steps, if no step stops. -/
def after : Nat → State → Option State
  | 0, s => some s
  | n + 1, s => match step s with
    | .next t => after n t
    | .fault _ => none
    | .refused _ => none

/-- A run of n steps never stops. -/
def safe (n : Nat) (s : State) : Prop := (after n s).isSome

/-- Every byte of memory reads as it did: the stacks, host memory, and what the context's agents see of it. -/
def SameBytes (s t : State) : Prop := (∀ l, t.byte l = s.byte l) ∧ ∀ x l, t.seenByte x l = s.seenByte x l

/-- t differs from s in nothing but the acting core. -/
structure OnlyCore (s t : State) : Prop where
  package : { t with cores := s.cores } = s
  others : ∀ k, k ≠ s.now → t.core k = s.core k
  bytes : SameBytes s t

/-- t differs from s in nothing but the running firing context of the acting core: the core's buffers, channels, handles,
commands, special registers and counters are as they were, and so are its seven other contexts. -/
structure OnlyContext (s t : State) : Prop extends OnlyCore s t where
  core : { t.cur with fcs := s.cur.fcs } = s.cur
  contexts : ∀ n, n ≠ s.cur.run → t.cur.fc n = s.cur.fc n

/-- Of the running context, nothing but registers, pc, loop stack, the marks of a resumed word and the half that a `qld` has
read ahead may differ: the store buffer, the watched lines, sy.aflags, the firing and the hint are as they were. -/
structure OnlyRegs (s t : State) : Prop extends OnlyContext s t where
  context : { t.fc with
    g := s.fc.g, p := s.fc.p, q := s.fc.q, f := s.fc.f, j := s.fc.j, pc := s.fc.pc, loops := s.fc.loops
    woken := s.fc.woken, expired := s.fc.expired, half := s.fc.half, turns := s.fc.turns, checked := s.fc.checked
    fetched := s.fc.fetched } = s.fc

/-- t differs from s in nothing but registers of the running context and the acting core's typed buffers, full-empty bits and
caches: its channels, handles, commands, special registers, counters and other contexts are as they were. -/
structure OnlyBuffers (s t : State) : Prop extends OnlyCore s t where
  core : { t.cur with
    fcs := s.cur.fcs, bufW := s.cur.bufW, bufA := s.cur.bufA, bufC := s.cur.bufC, fullW := s.cur.fullW, fullA := s.cur.fullA
    fullC := s.cur.fullC, bcache := s.cur.bcache, l1 := s.cur.l1, il1 := s.cur.il1 } = s.cur
  contexts : ∀ n, n ≠ s.cur.run → t.cur.fc n = s.cur.fc n
  context : { t.fc with
    g := s.fc.g, p := s.fc.p, q := s.fc.q, f := s.fc.f, j := s.fc.j, pc := s.fc.pc, loops := s.fc.loops
    woken := s.fc.woken, expired := s.fc.expired, half := s.fc.half, turns := s.fc.turns, checked := s.fc.checked
    fetched := s.fc.fetched } = s.fc

/-- t differs from s in nothing but caches: the lines that the L1s hold, with what contexts that watch them note of a line that
leaves one (11 R313), the lines of the L2, and the pc of the running context. -/
structure OnlyCaches (s t : State) : Prop where
  package : { t with cores := s.cores, l2 := s.l2, freeCtr := s.freeCtr } = s
  others : ∀ k, k ≠ s.now → { t.core k with l1 := (s.core k).l1 } = s.core k
  core : { t.cur with fcs := s.cur.fcs, l1 := s.cur.l1 } = s.cur
  contexts : ∀ n, n ≠ s.cur.run → { t.cur.fc n with watch := (s.cur.fc n).watch, waits := (s.cur.fc n).waits } = s.cur.fc n
  context : { t.fc with
    pc := s.fc.pc, loops := s.fc.loops, woken := s.fc.woken, expired := s.fc.expired, half := s.fc.half, turns := s.fc.turns
    checked := s.fc.checked, fetched := s.fc.fetched, watch := s.fc.watch
    waits := s.fc.waits } = s.fc
  bytes : SameBytes s t

/-- General registers other than d read as they did, and g0 reads zero. -/
def KeepsG (s t : State) (d : Fin 32) : Prop := t.g 0 = 0 ∧ ∀ r, r ≠ d → t.g r = s.g r

/-- Predicates other than d read as they did, and p0 reads true. -/
def KeepsP (s t : State) (d : Fin 8) : Prop := t.p 0 = true ∧ ∀ r, r ≠ d → t.p r = s.p r

/-- The command, fibre and indirect-stream registers are as they were. -/
def KeepsQFJ (s t : State) : Prop := t.fc.q = s.fc.q ∧ t.fc.f = s.fc.f ∧ t.fc.j = s.fc.j

/-- The next word follows, where no loop has its last word here; where the innermost loop has, it begins again while its
count is above 1 (03 R82). -/
def FallsThrough (s t : State) : Prop :=
  ((∀ l ∈ s.fc.loops, s.pc ≠ l.past - 4) → t.pc = s.pc + 4 ∧ t.fc.loops = s.fc.loops) ∧
  ∀ l r, s.fc.loops = l :: r → s.pc = l.past - 4 → 1 < l.n → t.pc = l.first ∧ t.fc.loops = { l with n := l.n - 1 } :: r

/-- The instruction i completes with v in g[d], in every state: nothing but g[d] and the pc of the running context changes, g0
stays zero, and the next word follows. -/
def WritesG (i : Instr) (d : Fin 32) (v : State → Word) : Prop :=
  ∀ s, ∃ t, exec i s = .next t ∧ (d ≠ 0 → t.g d = v s) ∧ KeepsG s t d ∧ (∀ r, t.p r = s.p r) ∧ KeepsQFJ s t ∧
    OnlyRegs s t ∧ FallsThrough s t

/-- The instruction i completes with v in p[d], in every state, and changes nothing else but the pc. -/
def WritesP (i : Instr) (d : Fin 8) (v : State → Bool) : Prop :=
  ∀ s, ∃ t, exec i s = .next t ∧ (d ≠ 0 → t.p d = v s) ∧ KeepsP s t d ∧ (∀ r, t.g r = s.g r) ∧ KeepsQFJ s t ∧
    OnlyRegs s t ∧ FallsThrough s t

/-- No register but the pc differs. -/
def KeepsRegs (s t : State) : Prop := (∀ r, t.g r = s.g r) ∧ (∀ r, t.p r = s.p r) ∧ KeepsQFJ s t

end Sys2Proof.Safety
end

