-- ==== Sys2Proof/Certificates/Slice0/Obligations.lean ====
section
/-!
DEFINITION. The statements for the provers: rules of the spec as properties of the model.
-/
section
open Sys2Proof Sys2Proof.Machine Sys2Proof.Safety

/-! ## Encoding -/

/-- 02 R32 to R37, 13 R382: for every well-formed scalar instruction, with every operand at every value that its encoding admits,
the decoder reads from its word that instruction, and the word has 32 bits. -/
def Obligations.ScalarDecodesWhatWasEncoded : Prop :=
  ∀ (i : Instr) (w : Nat), i.wf = true → encodeScalar i = some w → w < 2 ^ 32 ∧ decodeScalar w = some i

/-- 02 R34: a word that the decoder accepts is the one encoding of a well-formed instruction; every other word, with a reserved
opcode, function or register number or with a must-be-zero field that is not zero, is refused. -/
def Obligations.AcceptedWordsAreEncodings : Prop :=
  ∀ (i : Instr) (w : Nat), w < 2 ^ 32 → decodeScalar w = some i → i.wf = true ∧ encodeScalar i = some w

/-- 02 R39, R42: for every well-formed stream command the decoder reads from its 128 bits that command with all its fields. -/
def Sys2Proof.Safety.CommandDecodesWhatWasEncoded : Prop :=
  ∀ (i : Instr) (w : Nat), i.wf = true → encodeCommand i = some w → w < 2 ^ 128 ∧ decodeCommand w = some i

/-- 02 R43: the 64 bits of a node word and its fields determine each other. -/
def Sys2Proof.Safety.NodeWordFieldsRoundTrip : Prop :=
  (∀ n : NodeWord, encodeNode n < 2 ^ 64 ∧ decodeNode (encodeNode n) = n) ∧
    ∀ w, w < 2 ^ 64 → encodeNode (decodeNode w) = w

/-- 00 R6, 02 R32: from the bytes of an instruction, with any bytes after them, the decoder reads the instruction and leaves the
rest; fewer than four bytes are refused. -/
def Sys2Proof.Safety.BytesDecodeToTheInstruction : Prop :=
  (∀ (i : Instr) (w : Nat) (rest : List Byte), i.wf = true → encodeScalar i = some w →
    decode (leBytes 4 w ++ rest) = .ok (i, rest)) ∧
  (∀ (i : Instr) (w : Nat), i.wf = true → encodeCommand i = some w → decodeCmdBytes (leBytes 16 w) = .ok i) ∧
  ∀ bs : List Byte, bs.length < 4 → decode bs = .error .tooShort

/-- Words that the spec writes out, and what they stand for (03 R84 and the example after R95, 11 R307, 13 R382). -/
def Obligations.SpecWordsDecode : Prop :=
  decodeScalar 0x08A00004 = some (.addi 5 0 4) ∧ decodeScalar 0x4C050006 = some (.loop 5 6) ∧
  decodeScalar 0xA1266000 = some (.ldbPk 9 6 1 0) ∧ decodeScalar 0xA1465001 = some (.ldbFe 10 6 1 1) ∧
  decodeScalar 0x05295000 = some (.add 9 9 10) ∧ decodeScalar 0xA5278000 = some (.stb 9 7 2 0) ∧
  decodeScalar 0x50000000 = some .done ∧ decodeScalar 0xCC000001 = some .fence ∧
  decodeScalar 0xF8800000 = some (.mfsy 4 0x000) ∧ decodeScalar 0xF8051031 = some (.mtsy 5 0x103) ∧
  decodeScalar 0xF80002A2 = some (.trap 42) ∧ decodeScalar 0xF8000003 = some .ebrk ∧ decodeScalar 0 = none

/-- A step runs the decoded instruction: where the acting core's running context may issue and its fetch finds a word that
decodes to i, the step is the effect of i on the state in which the word has issued, and the refresh of what selection sees. -/
def Obligations.StepRunsTheDecodedInstruction : Prop :=
  ∀ (s : State) (w : BitVec 32) (i : Instr), s.agenda = [] → s.fc.status = .running → s.fc.stopped = false →
    s.halted s.now = false → s.quantumOver = false → s.fetch = .word w → decodeScalar w.toNat = some i →
    step s = match exec i s.issue with
      | .next t => .next t.refresh
      | .fault x => .fault x
      | .refused x => .refused x

/-! ## Invariants -/

/-- 04 R114: what selection sees of a core is each eligible entry once. -/
def Sys2Proof.Safety.SelectionSees (s : State) : Prop :=
  ∀ e ∈ s.cores, s.core e.1 = e.2 → e.2.eligible.Nodup ∧
    ∀ n, n ∈ e.2.eligible ↔ (n < (s.ctx (s.cxId e.1)).handlers.length ∧ s.eligibleNow e.1 n = true)

/-- 04 R114: every step of the package keeps it, whichever agent acts and whatever it does: an instruction, a command, a node of
the fabric, a ring stop, a port, firmware, the host or a clock. -/
def Obligations.EveryStepKeepsWhatSelectionSees : Prop :=
  ∀ s t : State, SelectionSees s → step s = .next t → SelectionSees t

/-- Every step keeps the memories of the package in canonical form, so that equal memories are equal data. -/
def Obligations.EveryStepKeepsMemoryCanonical : Prop :=
  ∀ s t : State, s.hbm.wf = true → s.hostMem.wf = true → step s = .next t → t.hbm.wf = true ∧ t.hostMem.wf = true

/-- 13 R389, 14 R427: after reset the invariants hold, no context exists, no core runs a firing, every cluster has the boot
set (4, 4, 4, 4) at 700 mV with no transition, memory lists nothing, and g0 reads zero and p0 true (02 R35). The register
values are the model's choice (log 1), and so is that memory reads 0 where nothing has been written (log 5). -/
def Obligations.ResetState : Prop :=
  SelectionSees State.reset ∧ State.reset.hbm.wf = true ∧ State.reset.hostMem.wf = true ∧ State.reset.ctxs = [] ∧
  (∀ k n, ((State.reset.core k).fc n).status = .free) ∧
  (∀ c, (State.reset.cluster c).set = ⟨4, 4, 4, 4⟩ ∧ (State.reset.cluster c).mv = 700 ∧
    (State.reset.cluster c).target = none ∧ (State.reset.cluster c).sample = 1000) ∧
  (∀ l, State.reset.byte l = 0) ∧ State.reset.g 0 = 0 ∧ State.reset.p 0 = true

/-! ## Integer arithmetic and predicates -/

/-- 03 R73: the results of major opcode 0x01 but for the divisions, each with its frame. -/
def Sys2Proof.Safety.IntegerResults : Prop :=
  ∀ d a b : Fin 32,
    WritesG (.add d a b) d (fun s => BitVec.ofNat 64 ((s.g a).toNat + (s.g b).toNat)) ∧
    WritesG (.sub d a b) d (fun s => BitVec.ofInt 64 ((s.g a).toInt - (s.g b).toInt)) ∧
    WritesG (.and d a b) d (fun s => s.g a &&& s.g b) ∧
    WritesG (.or d a b) d (fun s => s.g a ||| s.g b) ∧
    WritesG (.xor d a b) d (fun s => s.g a ^^^ s.g b) ∧
    WritesG (.andn d a b) d (fun s => s.g a &&& ~~~(s.g b)) ∧
    WritesG (.shl d a b) d (fun s => BitVec.ofNat 64 ((s.g a).toNat * 2 ^ ((s.g b).toNat % 64))) ∧
    WritesG (.shr d a b) d (fun s => BitVec.ofNat 64 ((s.g a).toNat / 2 ^ ((s.g b).toNat % 64))) ∧
    WritesG (.sra d a b) d (fun s => BitVec.ofInt 64 ((s.g a).toInt / 2 ^ ((s.g b).toNat % 64))) ∧
    WritesG (.mul d a b) d (fun s => BitVec.ofInt 64 ((s.g a).toInt * (s.g b).toInt)) ∧
    WritesG (.mulh d a b) d (fun s => BitVec.ofInt 64 ((s.g a).toInt * (s.g b).toInt / 2 ^ 64)) ∧
    WritesG (.mulhu d a b) d (fun s => BitVec.ofNat 64 ((s.g a).toNat * (s.g b).toNat / 2 ^ 64)) ∧
    WritesG (.min d a b) d (fun s => BitVec.ofInt 64 (min (s.g a).toInt (s.g b).toInt)) ∧
    WritesG (.max d a b) d (fun s => BitVec.ofInt 64 (max (s.g a).toInt (s.g b).toInt)) ∧
    WritesG (.minu d a b) d (fun s => BitVec.ofNat 64 (min (s.g a).toNat (s.g b).toNat)) ∧
    WritesG (.maxu d a b) d (fun s => BitVec.ofNat 64 (max (s.g a).toNat (s.g b).toNat)) ∧
    WritesG (.adds d a b) d (fun s => BitVec.ofInt 64 (max (-2 ^ 63) (min (2 ^ 63 - 1) ((s.g a).toInt + (s.g b).toInt)))) ∧
    WritesG (.subs d a b) d (fun s => BitVec.ofInt 64 (max (-2 ^ 63) (min (2 ^ 63 - 1) ((s.g a).toInt - (s.g b).toInt)))) ∧
    WritesG (.clz d a) d (fun s => BitVec.ofNat 64 (64 - Nat.size (s.g a).toNat)) ∧
    WritesG (.ctz d a) d (fun s => BitVec.ofNat 64 ((List.range 64).findIdx fun i => (s.g a).getLsbD i)) ∧
    WritesG (.popc d a) d (fun s => BitVec.ofNat 64 ((List.range 64).countP fun i => (s.g a).getLsbD i)) ∧
    WritesG (.sxtB d a) d (fun s => BitVec.ofInt 64 (BitVec.ofNat 8 (s.g a).toNat).toInt) ∧
    WritesG (.sxtH d a) d (fun s => BitVec.ofInt 64 (BitVec.ofNat 16 (s.g a).toNat).toInt) ∧
    WritesG (.sxtW d a) d (fun s => BitVec.ofInt 64 (BitVec.ofNat 32 (s.g a).toNat).toInt) ∧
    WritesG (.zxtB d a) d (fun s => BitVec.ofNat 64 ((s.g a).toNat % 2 ^ 8)) ∧
    WritesG (.zxtH d a) d (fun s => BitVec.ofNat 64 ((s.g a).toNat % 2 ^ 16)) ∧
    WritesG (.zxtW d a) d (fun s => BitVec.ofNat 64 ((s.g a).toNat % 2 ^ 32))

/-- 03 R73, R74: quotients and remainders, with the fixed results for division by zero and signed overflow. -/
def Sys2Proof.Safety.DivisionResults : Prop :=
  ∀ d a b : Fin 32,
    WritesG (.div d a b) d (fun s =>
      if s.g b = 0 then 0xFFFFFFFFFFFFFFFF
      else if s.g a = 0x8000000000000000 ∧ s.g b = 0xFFFFFFFFFFFFFFFF then 0x8000000000000000
      else BitVec.ofInt 64 ((s.g a).toInt.tdiv (s.g b).toInt)) ∧
    WritesG (.divu d a b) d (fun s =>
      if s.g b = 0 then 0xFFFFFFFFFFFFFFFF else BitVec.ofNat 64 ((s.g a).toNat / (s.g b).toNat)) ∧
    WritesG (.rem d a b) d (fun s =>
      if s.g b = 0 then s.g a
      else if s.g a = 0x8000000000000000 ∧ s.g b = 0xFFFFFFFFFFFFFFFF then 0
      else BitVec.ofInt 64 ((s.g a).toInt - (s.g b).toInt * (s.g a).toInt.tdiv (s.g b).toInt)) ∧
    WritesG (.remu d a b) d (fun s =>
      if s.g b = 0 then s.g a
      else BitVec.ofNat 64 ((s.g a).toNat - (s.g b).toNat * ((s.g a).toNat / (s.g b).toNat)))

/-- 03 R75: the immediate forms. -/
def Sys2Proof.Safety.ImmediateResults : Prop :=
  ∀ (d a : Fin 32) (i : BitVec 16) (n : BitVec 6),
    WritesG (.addi d a i) d (fun s => BitVec.ofInt 64 ((s.g a).toInt + i.toInt)) ∧
    WritesG (.andi d a i) d (fun s => s.g a &&& BitVec.ofNat 64 i.toNat) ∧
    WritesG (.ori d a i) d (fun s => s.g a ||| BitVec.ofNat 64 i.toNat) ∧
    WritesG (.xori d a i) d (fun s => s.g a ^^^ BitVec.ofNat 64 i.toNat) ∧
    WritesG (.shlImmediate d a n) d (fun s => BitVec.ofNat 64 ((s.g a).toNat * 2 ^ n.toNat)) ∧
    WritesG (.shrImmediate d a n) d (fun s => BitVec.ofNat 64 ((s.g a).toNat / 2 ^ n.toNat)) ∧
    WritesG (.sraImmediate d a n) d (fun s => BitVec.ofInt 64 ((s.g a).toInt / 2 ^ n.toNat)) ∧
    WritesG (.lhi d i) d (fun _ => BitVec.ofInt 64 (i.toInt * 65536))

/-- Field k of a packed coordinate or extent word (03 R76). -/
def Sys2Proof.Safety.field16 (v : Word) (k : Nat) : Nat := (v.toNat >>> (16 * k)) % 65536

/-- 03 R76: scaled addresses, the linear index, and the packing and extraction of coordinates. -/
def Sys2Proof.Safety.AddressAndCoordinateResults : Prop :=
  ∀ (d a b : Fin 32) (sc : BitVec 3) (i : BitVec 2),
    WritesG (.lea d a b sc) d (fun s => BitVec.ofNat 64 ((s.g a).toNat + (s.g b).toNat * 2 ^ sc.toNat)) ∧
    WritesG (.lin d a b) d (fun s =>
      let c := field16 (s.g a)
      let e (k : Nat) : Nat := if field16 (s.g b) k = 0 then 1 else field16 (s.g b) k
      BitVec.ofNat 64 (c 0 + e 0 * (c 1 + e 1 * (c 2 + e 2 * c 3)))) ∧
    WritesG (.pk d a b i) d (fun s =>
      BitVec.ofNat 64 (((List.range 4).map fun k =>
        (if k = i.toNat then field16 (s.g b) 0 else field16 (s.g a) k) * 2 ^ (16 * k)).sum)) ∧
    WritesG (.xk d a i) d (fun s => BitVec.ofNat 64 (field16 (s.g a) i.toNat))

/-- 03 R77: the six conditions, between registers and with a signed 13-bit immediate; a destination of p0 discards the result. -/
def Sys2Proof.Safety.CompareResults : Prop :=
  ∀ (p : Fin 8) (a b : Fin 32) (i : BitVec 13),
    WritesP (.cmpEq p a b) p (fun s => decide ((s.g a).toNat = (s.g b).toNat)) ∧
    WritesP (.cmpNe p a b) p (fun s => decide ((s.g a).toNat ≠ (s.g b).toNat)) ∧
    WritesP (.cmpLt p a b) p (fun s => decide ((s.g a).toInt < (s.g b).toInt)) ∧
    WritesP (.cmpGe p a b) p (fun s => decide ((s.g a).toInt ≥ (s.g b).toInt)) ∧
    WritesP (.cmpLtu p a b) p (fun s => decide ((s.g a).toNat < (s.g b).toNat)) ∧
    WritesP (.cmpGeu p a b) p (fun s => decide ((s.g a).toNat ≥ (s.g b).toNat)) ∧
    WritesP (.cmpiEq a p i) p (fun s => decide ((s.g a).toInt = i.toInt)) ∧
    WritesP (.cmpiNe a p i) p (fun s => decide ((s.g a).toInt ≠ i.toInt)) ∧
    WritesP (.cmpiLt a p i) p (fun s => decide ((s.g a).toInt < i.toInt)) ∧
    WritesP (.cmpiGe a p i) p (fun s => decide ((s.g a).toInt ≥ i.toInt)) ∧
    WritesP (.cmpiLtu a p i) p (fun s => decide ((s.g a).toNat < (i.signExtend 64).toNat)) ∧
    WritesP (.cmpiGeu a p i) p (fun s => decide ((s.g a).toNat ≥ (i.signExtend 64).toNat))

/-- 03 R78, R79: selection, predicate logic, and the moves between predicates and a general register. -/
def Sys2Proof.Safety.SelectionAndPredicateResults : Prop :=
  (∀ (d a b : Fin 32) (k : Fin 8),
    WritesG (.sel d a b k) d (fun s => if s.p k = true then s.g a else s.g b) ∧
    WritesG (.selN d a b k) d (fun s => if s.p k = false then s.g a else s.g b) ∧
    WritesG (.ptog d) d (fun s => BitVec.ofNat 64 (((List.finRange 8).map fun r => if s.p r then 2 ^ r.val else 0).sum))) ∧
  (∀ d a b : Fin 8,
    WritesP (.pand d a b) d (fun s => s.p a && s.p b) ∧
    WritesP (.por d a b) d (fun s => s.p a || s.p b) ∧
    WritesP (.pxor d a b) d (fun s => xor (s.p a) (s.p b)) ∧
    WritesP (.pandn d a b) d (fun s => s.p a && !s.p b) ∧
    WritesP (.porn d a b) d (fun s => s.p a || !s.p b)) ∧
  ∀ (a : Fin 32) (s : State), ∃ t, exec (.gtop a) s = .next t ∧ t.p 0 = true ∧
    (∀ r : Fin 8, r ≠ 0 → t.p r = (s.g a).getLsbD r.val) ∧ (∀ r, t.g r = s.g r) ∧ KeepsQFJ s t ∧ OnlyRegs s t ∧
    FallsThrough s t

/-! ## Control flow -/

/-- A taken branch from s to target leaves this loop (03 R82). -/
def Sys2Proof.Safety.Leaves (l : LoopEntry) (s : State) (target : Word) : Prop :=
  (l.first ≤ s.pc ∧ s.pc < l.past) ∧ ¬(l.first ≤ target ∧ target < l.past)

/-- A taken `br` or `jr`: the pc is the target, and the loops that it leaves, innermost first, are popped (03 R82). -/
def Sys2Proof.Safety.Branches (s t : State) (target : Word) : Prop :=
  t.pc = target ∧ (s.fc.loops = [] → t.fc.loops = []) ∧
    ∀ l r, s.fc.loops = l :: r → (¬Leaves l s target → t.fc.loops = l :: r) ∧ (Leaves l s target → t.fc.loops <:+ r)

/-- A taken call: g31 (or the link register) holds PC + 4, the pc is the target, and no loop is popped (03 R80 to R82). -/
def Sys2Proof.Safety.Calls (s t : State) (link : Fin 32) (target : Word) : Prop :=
  t.pc = target ∧ t.fc.loops = s.fc.loops ∧ (link ≠ 0 → t.g link = s.pc + 4) ∧ KeepsG s t link ∧ (∀ r, t.p r = s.p r) ∧
    KeepsQFJ s t ∧ OnlyRegs s t

/-- A word that changes nothing but the pc: the next word follows. -/
def Sys2Proof.Safety.NoEffect (s t : State) : Prop := KeepsRegs s t ∧ OnlyRegs s t ∧ FallsThrough s t

/-- 02 R35, R38, 03 R80, R82: branches and calls go to PC plus four times the signed offset when taken, and have no effect when not;
g0 reads zero and p0 true, a write of g0 or p0 changes nothing, and a branch or call on p0 with sense 1 is always taken. -/
def Sys2Proof.Safety.BranchesAndCalls : Prop :=
  ∀ (s : State) (p : Fin 8) (o : BitVec 22),
    let target : Word := s.pc + BitVec.ofInt 64 (4 * o.toInt)
    (s.g 0 = 0 ∧ s.p 0 = true ∧ (∀ v, s.setG 0 v = s) ∧ (∀ b, s.setP 0 b = s) ∧
      (∃ t, exec (.brt 0 o) s = .next t ∧ Branches s t target) ∧ ∃ t, exec (.callt 0 o) s = .next t ∧ Calls s t 31 target) ∧
    (∃ t, exec (.brt p o) s = .next t ∧ KeepsRegs s t ∧ OnlyRegs s t ∧
      (s.p p = true → Branches s t target) ∧ (s.p p = false → NoEffect s t)) ∧
    (∃ t, exec (.brn p o) s = .next t ∧ KeepsRegs s t ∧ OnlyRegs s t ∧
      (s.p p = false → Branches s t target) ∧ (s.p p = true → NoEffect s t)) ∧
    (∃ t, exec (.br o) s = .next t ∧ KeepsRegs s t ∧ OnlyRegs s t ∧ Branches s t target) ∧
    (∃ t, exec (.callt p o) s = .next t ∧ (s.p p = true → Calls s t 31 target) ∧ (s.p p = false → NoEffect s t)) ∧
    (∃ t, exec (.calln p o) s = .next t ∧ (s.p p = false → Calls s t 31 target) ∧ (s.p p = true → NoEffect s t)) ∧
    ∃ t, exec (.call o) s = .next t ∧ Calls s t 31 target

/-- Bits [63:57] all equal bit 56 (03 R66). -/
def Sys2Proof.Safety.Canon (a : Word) : Prop := ∀ i, 57 ≤ i → i < 64 → a.getLsbD i = a.getLsbD 56

/-- 03 R66, R81: `jr` and `jrl` jump to a canonical, aligned register; cause 0x04 comes before cause 0x03, and either leaves the
link register and the pc as they were. -/
def Sys2Proof.Safety.RegisterJumps : Prop :=
  ∀ (s : State) (d a : Fin 32),
    (Canon (s.g a) → (s.g a).toNat % 4 = 0 →
      (∃ t, exec (.jr a) s = .next t ∧ KeepsRegs s t ∧ OnlyRegs s t ∧ Branches s t (s.g a)) ∧
      ∃ t, exec (.jrl d a) s = .next t ∧ Calls s t d (s.g a)) ∧
    (¬Canon (s.g a) → exec (.jr a) s = .next (s.raise 0x04 (s.g a) 0) ∧
      exec (.jrl d a) s = .next (s.raise 0x04 (s.g a) 0)) ∧
    (Canon (s.g a) → (s.g a).toNat % 4 ≠ 0 → exec (.jr a) s = .next (s.raise 0x03 (s.g a) 0) ∧
      exec (.jrl d a) s = .next (s.raise 0x03 (s.g a) 0))

/-- 03 R82: `loop` pushes its start, end and count and goes on at its body; a zero count skips the body, and a third loop raises
cause 0x09. Where the rules leave a choice, the clause is the model's own (log 8). -/
def Sys2Proof.Safety.HardwareLoop : Prop :=
  ∀ (s : State) (a : Fin 32) (l : BitVec 16),
    let start : Word := s.pc + 4
    let past : Word := s.pc + 4 + BitVec.ofNat 64 (4 * l.toNat)
    (s.g a ≠ 0 → s.fc.loops.length < 2 → ∃ t, exec (.loop a l) s = .next t ∧ KeepsRegs s t ∧ OnlyRegs s t ∧ t.pc = start ∧
      t.fc.loops = ⟨start, past, (s.g a).toNat⟩ :: s.fc.loops) ∧
    (s.g a = 0 → ∃ t, exec (.loop a l) s = .next t ∧ KeepsRegs s t ∧ OnlyRegs s t ∧
      ((∀ e ∈ s.fc.loops, s.pc ≠ e.past - 4) → t.pc = past ∧ t.fc.loops = s.fc.loops)) ∧
    (s.g a ≠ 0 → 2 ≤ s.fc.loops.length → exec (.loop a l) s = .next (s.raise 0x09 0 0))

/-! ## Exceptions -/

/-- What taking an exception leaves (03 R72, R65; 13 R345 to R352): the context stops at its word with its registers as they were
and its store buffer discarded, its firing has ended with the cause, the partition is halted, and 64 bytes of stop record and no
other byte of memory are written. -/
structure Sys2Proof.Safety.TookException (s t : State) (cause : Nat) (addr : Word) (detail : Nat) : Prop where
  stopped : (t.cur.fc s.cur.run).stopped = true
  pc : (t.cur.fc s.cur.run).pc = s.pc
  regs : (t.cur.fc s.cur.run).g = s.fc.g ∧ (t.cur.fc s.cur.run).p = s.fc.p ∧ (t.cur.fc s.cur.run).q = s.fc.q ∧
    (t.cur.fc s.cur.run).f = s.fc.f ∧ (t.cur.fc s.cur.run).j = s.fc.j ∧ (t.cur.fc s.cur.run).loops = s.fc.loops
  discarded : (t.cur.fc s.cur.run).sb = [] ∧ (t.cur.fc s.cur.run).pub = []
  firing : ∀ f, look (s.ctx s.x).firings s.fid = some f → (look s.ctxs s.x).isSome →
    ((t.ctx s.x).firing s.fid).ended = true ∧ ((t.ctx s.x).firing s.fid).cause = some cause
  halted : t.halted s.now = true
  /-- the record: kind 1, the cause, the firing context's number, the pc, the address, which causes 0x02 to 0x08 and the tile word
  of cause 0x0F have and every other leaves zero, and the detail -/
  record : t.bytesAt (t.recordLoc s.now s.cur.run.val) 1 = leBytes 1 1 ∧
    t.bytesAt ((t.recordLoc s.now s.cur.run.val).plus 2) 2 = leBytes 2 cause ∧
    t.bytesAt ((t.recordLoc s.now s.cur.run.val).plus 6) 1 = leBytes 1 s.cur.run.val ∧
    t.bytesAt ((t.recordLoc s.now s.cur.run.val).plus 24) 8 = leBytes 8 s.pc.toNat ∧
    t.bytesAt ((t.recordLoc s.now s.cur.run.val).plus 40) 8 =
      leBytes 8 (if (2 ≤ cause ∧ cause ≤ 8) ∨ cause = 0x0F then addr.toNat else 0) ∧
    t.bytesAt ((t.recordLoc s.now s.cur.run.val).plus 56) 4 = leBytes 4 detail
  bytes : ∀ l, (l.onHost = true ∨ l.addr < (t.recordLoc s.now s.cur.run.val).addr ∨
    (t.recordLoc s.now s.cur.run.val).addr + 64 ≤ l.addr) → t.byte l = s.byte l
  buffers : ∀ b, t.cur.buf b = s.cur.buf b ∧ t.cur.fullOf b = s.cur.fullOf b

/-- 03 R72, 13 R345, R349 to R352: raising a cause is TAKING AN EXCEPTION, as `TookException` says, for every cause, address and
detail, where the core's partition has a firing's context on it and the cause and the detail fit their fields. -/
def Obligations.TakingAnException : Prop :=
  ∀ (s : State) (p : Partition) (x cause detail : Nat) (addr : Word), cause < 2 ^ 16 → detail < 2 ^ 32 →
    s.hbm.wf = true → s.hostMem.wf = true → s.partOf s.now = some p → p.ctx = some x → s.fc.status = .running →
    s.fc.stopped = false → TookException s (s.raise cause addr detail) cause addr detail

/-- 02 R34, 03 R67, R72, 13 R383: a word that is no instruction raises cause 0x01, a failed fetch cause 0x05, with a page request to
the host, or 0x06, with the pc as its address, and `trap` cause 0x12 with its code; the exception's entry is that of
TakingAnException. -/
def Sys2Proof.Safety.InstructionsThatTrap : Prop :=
  ∀ (s : State) (w : BitVec 32) (c : BitVec 12),
    exec (.illegalInstruction w) s = .next (s.raise 0x01 0 0) ∧
    exec (.instructionFetchFault 0x05) s =
      .next (({ s with notices := s.notices ++ [Notice.pageRequest s.x s.pc.toNat] } : State).raise 0x05 s.pc 0) ∧
    exec (.instructionFetchFault 0x06) s = .next (s.raise 0x06 s.pc 0) ∧
    exec (.trap c) s = .next (s.raise 0x12 0 c.toNat) ∧
    ∀ (p : Partition) (x : Nat), s.hbm.wf = true → s.hostMem.wf = true → s.partOf s.now = some p → p.ctx = some x →
      s.fc.status = .running → s.fc.stopped = false →
      ∃ t, exec (.trap c) s = .next t ∧ TookException s t 0x12 0 c.toNat

/-- 13 R384, R385: `ebrk` completes, every register kept and the pc at the next word, which a loop's end may move back (03 R82), and
then the halt rises with its context stopped and a record with cause 0x13 written; `idle` whose condition has come completes, and
blocks before that. -/
def Sys2Proof.Safety.BreakAndIdle : Prop :=
  (∀ (s : State) (p : Partition) (x : Nat), s.hbm.wf = true → s.hostMem.wf = true → s.partOf s.now = some p → p.ctx = some x →
    s.fc.status = .running → s.fc.stopped = false →
    ∃ t, exec .ebrk s = .next t ∧ (t.cur.fc s.cur.run).stopped = true ∧
      ((∀ l ∈ s.fc.loops, s.pc ≠ l.past - 4) → (t.cur.fc s.cur.run).pc = s.pc + 4 ∧ (t.cur.fc s.cur.run).loops = s.fc.loops) ∧
      (∀ l r, s.fc.loops = l :: r → s.pc = l.past - 4 → 1 < l.n →
        (t.cur.fc s.cur.run).pc = l.first ∧ (t.cur.fc s.cur.run).loops = { l with n := l.n - 1 } :: r) ∧
      (t.cur.fc s.cur.run).g = s.fc.g ∧ (t.cur.fc s.cur.run).p = s.fc.p ∧ (t.cur.fc s.cur.run).q = s.fc.q ∧
      (t.cur.fc s.cur.run).f = s.fc.f ∧ (t.cur.fc s.cur.run).j = s.fc.j ∧ (t.cur.fc s.cur.run).sb = s.fc.sb ∧
      t.halted s.now = true ∧
      t.bytesAt ((t.recordLoc s.now s.cur.run.val).plus 2) 2 = leBytes 2 0x13 ∧
      t.bytesAt ((t.recordLoc s.now s.cur.run.val).plus 24) 8 = leBytes 8 s.pc.toNat) ∧
  (∀ s : State, s.fc.expired = true → ∃ t, exec .idle s = .next t ∧ NoEffect s t) ∧
  (∀ s : State, s.fc.expired = false → exec .idle s = .next (s.block .idle)) ∧
  ∀ (s : State) (k : CoreId) (n : Fin 8), ((s.core k).fc n).status = .blocked .idle → ((s.core k).fc n).stopped = false →
    ∃ t, exec (.idleTimeout k n.val) s = .next t ∧ ((t.core k).fc n) = { (s.core k).fc n with expired := true } ∧
      (∀ m, m ≠ n → (t.core k).fc m = (s.core k).fc m) ∧ ∀ j, j ≠ k → t.core j = s.core j

/-! ## Linear memory -/

/-- The checks of an address in the order of 03 R85: cause 0x04, cause 0x02, and what translation finds: a miss blocks with nothing
performed, no translation is cause 0x05, and a refusal cause 0x06. -/
def Sys2Proof.Safety.AddressChecks (i : Instr) (ea : State → Word) (n : Nat) (kind : AccessKind) : Prop :=
  ∀ s : State,
    (¬Canon (ea s) → exec i s = .next (s.raise 0x04 (ea s) 0)) ∧
    (Canon (ea s) → (ea s).toNat % n ≠ 0 → exec i s = .next (s.raise 0x02 (ea s) 0)) ∧
    (Canon (ea s) → (ea s).toNat % n = 0 →
      (s.translate (ea s).toNat kind = .miss → exec i s = .next (s.block (.translation (ea s).toNat))) ∧
      (s.translate (ea s).toNat kind = .stop → exec i s =
        .next (({ s with notices := s.notices ++ [Notice.pageRequest s.x (ea s).toNat] } : State).raise 0x05 (ea s) 0)) ∧
      (s.translate (ea s).toNat kind = .perm → exec i s = .next (s.raise 0x06 (ea s) 0)))

/-- A load of n bytes completes with val of them in g[d]: the line is in the data L1 and no queued atomic of the firing on it is
before it. Nothing changes but g[d], the pc and the mark that the firing has read the line (11 R313). -/
def Sys2Proof.Safety.Loads (i : Instr) (d : Fin 32) (ea : State → Word) (n : Nat) (val : Nat → Word) : Prop :=
  AddressChecks i ea n .load ∧
  ∀ (s : State) (l : Loc), Canon (ea s) → (ea s).toNat % n = 0 → s.translate (ea s).toNat .load = .ok l →
    s.atomicOn s.now s.fid l.line = false → (s.cur.l1.any fun e => e.1 = l.line) = true →
    ∃ t, exec i s = .next t ∧ (d ≠ 0 → t.g d = val (leNat (s.loadBytes l n))) ∧ KeepsG s t d ∧ (∀ r, t.p r = s.p r) ∧
      KeepsQFJ s t ∧ OnlyContext s t ∧ t.fc.sb = s.fc.sb ∧ t.fc.pub = s.fc.pub ∧ t.fc.aflags = s.fc.aflags ∧ FallsThrough s t

/-- Sign extension of a number of n bytes (00 R3). -/
def Sys2Proof.Safety.sext (n v : Nat) : Word := BitVec.ofInt 64 (BitVec.ofNat (8 * n) v).toInt

/-- Zero extension. -/
def Sys2Proof.Safety.zext (v : Nat) : Word := BitVec.ofNat 64 v

/-- 03 R84, R85: the linear loads. Where the rules leave a choice, the clause is the model's own (log 71). -/
def Sys2Proof.Safety.LinearLoads : Prop :=
  ∀ (d a b : Fin 32) (i : BitVec 16) (sc : BitVec 3),
    let ea (s : State) : Word := s.g a + BitVec.ofInt 64 i.toInt
    let ex (s : State) : Word := s.g a + s.g b * BitVec.ofNat 64 (2 ^ sc.toNat)
    Loads (.ldB d a i) d ea 1 (sext 1) ∧ Loads (.ldBz d a i) d ea 1 zext ∧
    Loads (.ldH d a i) d ea 2 (sext 2) ∧ Loads (.ldHz d a i) d ea 2 zext ∧
    Loads (.ldW d a i) d ea 4 (sext 4) ∧ Loads (.ldWz d a i) d ea 4 zext ∧
    Loads (.ldD d a i) d ea 8 zext ∧
    Loads (.ldx d a b sc 0) d ex 1 (sext 1) ∧ Loads (.ldx d a b sc 1) d ex 1 zext ∧
    Loads (.ldx d a b sc 2) d ex 2 (sext 2) ∧ Loads (.ldx d a b sc 3) d ex 2 zext ∧
    Loads (.ldx d a b sc 4) d ex 4 (sext 4) ∧ Loads (.ldx d a b sc 5) d ex 4 zext ∧ Loads (.ldx d a b sc 6) d ex 8 zext

/-- A store of the low n bytes of v enters the store buffer: later loads of the firing read them, and every other byte that it
reads, all of memory and every register are as they were. With no room for a 17th line the buffer is published first, and the
word has done nothing else (03 R69). -/
def Sys2Proof.Safety.StoreEffect (i : Instr) (ea : State → Word) (n : Nat) (v : State → Nat) : Prop :=
  ∀ (s : State) (l : Loc), Canon (ea s) → (ea s).toNat % n = 0 → s.translate (ea s).toNat .store = .ok l → l.addr % n = 0 →
    (sbFull s.fc.sb l = false → ∃ t, exec i s = .next t ∧
      (∀ y, t.loadByte y = if y.onHost = l.onHost ∧ l.addr ≤ y.addr ∧ y.addr < l.addr + n
        then BitVec.ofNat 8 (v s / 256 ^ (y.addr - l.addr)) else s.loadByte y) ∧
      KeepsRegs s t ∧ OnlyContext s t ∧ t.fc.pub = s.fc.pub ∧ t.fc.watch = s.fc.watch ∧ t.fc.aflags = s.fc.aflags ∧
      t.fc.sb.length ≤ max 16 s.fc.sb.length ∧ FallsThrough s t) ∧
    (sbFull s.fc.sb l = true →
      exec i s = .next ((s.setFc { s.fc with sb := [], pub := s.fc.pub ++ s.fc.sb }).block .publication))

/-- A store with the checks of its address. -/
def Sys2Proof.Safety.Stores (i : Instr) (ea : State → Word) (n : Nat) (v : State → Nat) : Prop :=
  AddressChecks i ea n .store ∧ StoreEffect i ea n v

/-- 03 R69, R85: the linear stores. -/
def Sys2Proof.Safety.LinearStores : Prop :=
  ∀ (d a b : Fin 32) (i : BitVec 16) (sc : BitVec 3),
    let ea (s : State) : Word := s.g a + BitVec.ofInt 64 i.toInt
    let ex (s : State) : Word := s.g a + s.g b * BitVec.ofNat 64 (2 ^ sc.toNat)
    let v (s : State) : Nat := (s.g d).toNat
    Stores (.stB d a i) ea 1 v ∧ Stores (.stH d a i) ea 2 v ∧ Stores (.stW d a i) ea 4 v ∧ Stores (.stD d a i) ea 8 v ∧
    Stores (.stx d a b sc 0) ex 1 v ∧ Stores (.stx d a b sc 1) ex 2 v ∧ Stores (.stx d a b sc 2) ex 4 v ∧
    Stores (.stx d a b sc 3) ex 8 v

/-- The checks of the address of a `qld` or `qst`: 03 R92 fixes no order, so that the lowest cause comes first (03 R72). -/
def Sys2Proof.Safety.QuadChecks (i : Instr) (ea : State → Word) (kind : AccessKind) : Prop :=
  ∀ s : State,
    ((ea s).toNat % 16 ≠ 0 → exec i s = .next (s.raise 0x02 (ea s) 0)) ∧
    ((ea s).toNat % 16 = 0 → ¬Canon (ea s) → exec i s = .next (s.raise 0x04 (ea s) 0)) ∧
    (Canon (ea s) → (ea s).toNat % 16 = 0 →
      (s.translate (ea s).toNat kind = .miss → exec i s = .next (s.block (.translation (ea s).toNat))) ∧
      (s.translate (ea s).toNat kind = .stop → exec i s =
        .next (({ s with notices := s.notices ++ [Notice.pageRequest s.x (ea s).toNat] } : State).raise 0x05 (ea s) 0)) ∧
      (s.translate (ea s).toNat kind = .perm → exec i s = .next (s.raise 0x06 (ea s) 0)))

/-- 03 R71, R72, R92: `qld` and `qst` move 16 bytes at 16 times the offset, aligned to 16, the lower 8 bytes of a `qld` as they
stood where it read them ahead, and `qins` replaces a bit field of a command register; a field past bit 127 is cause 0x01. Where the
rules leave a choice, the clause is the model's own (log 71, 72). -/
def Sys2Proof.Safety.CommandRegisters : Prop :=
  ∀ (q : Fin 16) (a : Fin 32) (o : BitVec 16),
    let ea (s : State) : Word := s.g a + BitVec.ofInt 64 (16 * o.toInt)
    QuadChecks (.qld q a o) ea .load ∧
    (∀ (s : State) (l : Loc) (low : List Byte), Canon (ea s) → (ea s).toNat % 16 = 0 → s.translate (ea s).toNat .load = .ok l →
      s.atomicOn s.now s.fid l.line = false → (s.cur.l1.any fun e => e.1 = l.line) = true →
      (s.fc.half = some (l, low) ∨ (∀ bs, s.fc.half ≠ some (l, bs)) ∧ low = s.loadBytes l 8) →
      ∃ t, exec (.qld q a o) s = .next t ∧ t.q q = BitVec.ofNat 128 (leNat (low ++ s.loadBytes (l.plus 8) 8)) ∧
        (∀ r, r ≠ q → t.q r = s.q r) ∧ (∀ r, t.g r = s.g r) ∧ (∀ r, t.p r = s.p r) ∧ t.fc.f = s.fc.f ∧ t.fc.j = s.fc.j ∧
        OnlyContext s t ∧ t.fc.sb = s.fc.sb ∧ FallsThrough s t) ∧
    QuadChecks (.qst q a o) ea .store ∧ StoreEffect (.qst q a o) ea 16 (fun s => (s.q q).toNat) ∧
    ∀ (s : State) (l : BitVec 7) (w : BitVec 6),
      (l.toNat + (w.toNat + 1) ≤ 128 → ∃ t, exec (.qins q a l w) s = .next t ∧
        (∀ n, (t.q q).getLsbD n = if l.toNat ≤ n ∧ n < l.toNat + (w.toNat + 1) then (s.g a).getLsbD (n - l.toNat)
          else (s.q q).getLsbD n) ∧
        (∀ r, r ≠ q → t.q r = s.q r) ∧ (∀ r, t.g r = s.g r) ∧ (∀ r, t.p r = s.p r) ∧ t.fc.f = s.fc.f ∧ t.fc.j = s.fc.j ∧
        OnlyRegs s t ∧ FallsThrough s t) ∧
      (128 < l.toNat + (w.toNat + 1) → exec (.qins q a l w) s = .next (s.raise 0x01 0 0))

/-- A line's home slice needs to drop no other line for it: a host line has none, and in the set of a device line there is a way to
spare (05 R145, 01 R23). Line addresses count 64 bytes. -/
def Sys2Proof.Safety.SliceHasRoom (s : State) (x : Nat) (l : Loc) : Prop :=
  l.onHost = true ∨ ∀ p, s.ctxPart x = some p →
    (s.l2.filter fun e => (⟨homeOf p.rect (0, l.addr / 16, 0), x, (0, l.addr / 16, 0), 0, [l.addr % 16]⟩ : L2Line).mates e).length < 12

/-- 03 R86, R90, R83: `pref`, `bpf` and `isync` never trap, never block and change no register and no buffer: `pref` brings the
line of a readable address to the data L1, and changes no byte where the L2 has room for it, `bpf` brings the group of an address
in range to a read cache of four, and `isync` empties the instruction L1 and that cache. -/
def Sys2Proof.Safety.CachingHints : Prop :=
  (∀ (s : State) (a : Fin 32) (i : BitVec 16), ∃ t, exec (.pref a i) s = .next t ∧
    let ea : Word := s.g a + BitVec.ofInt 64 i.toInt
    KeepsRegs s t ∧ FallsThrough s t ∧
    ((∀ p, pageOf (s.ctx s.x).pages ea.toNat = some p → SliceHasRoom s s.x (pageLoc p ea.toNat).line) → OnlyCaches s t ∧
      ∀ p, Canon ea → pageOf (s.ctx s.x).pages ea.toNat = some p → p.r = true → (pageLoc p ea.toNat).here = true →
        (t.cur.l1.any fun e => e.1 = (pageLoc p ea.toNat).line) = true)) ∧
  (∀ (s : State) (a : Fin 32) (x : BitVec 2) (o : BitVec 12), ∃ t, exec (.bpf a x o) s = .next t ∧ KeepsRegs s t ∧ OnlyBuffers s t ∧
    (∀ b, t.cur.buf b = s.cur.buf b ∧ t.cur.fullOf b = s.cur.fullOf b) ∧ FallsThrough s t ∧
    ∀ b, Buf.of x.toNat = some b → ((s.g a).toNat + 8 * o.toNat) % 8 = 0 → (s.g a).toNat + 8 * o.toNat < b.size →
      (b.num, ((s.g a).toNat + 8 * o.toNat) / 64) ∈ t.cur.bcache ∧ t.cur.bcache.length ≤ 4) ∧
  ∀ s : State, ∃ t, exec .isync s = .next t ∧ KeepsRegs s t ∧ OnlyBuffers s t ∧ t.cur.il1 = [] ∧ t.cur.bcache = [] ∧
    (∀ b, t.cur.buf b = s.cur.buf b ∧ t.cur.fullOf b = s.cur.fullOf b) ∧ FallsThrough s t

/-! ## Typed buffers -/

/-- An address of a typed-buffer access that may go on: aligned to 8, below the size, in a bank that is open (03 R87, 05 R158). -/
def Sys2Proof.Safety.BufOk (s : State) (x : BitVec 2) (ea : Nat) (b : Buf) : Prop :=
  Buf.of x.toNat = some b ∧ ea % 8 = 0 ∧ ea < b.size ∧ s.cur.bankOpen b ea s.cur.cx = true

/-- A read of half a granule (03 R87, R88). wait: it waits for the granule to be full; nb: it returns the bit in p7; take: it
empties the granule. A misaligned address is cause 0x02, one out of range, or in a bank that is not open (05 R158), cause 0x07. -/
def Sys2Proof.Safety.BufReads (i : Instr) (d : Fin 32) (x : BitVec 2) (ea : State → Nat) (wait nb take : Bool) : Prop :=
  (∀ (s : State) (b : Buf), BufOk s x (ea s) b → (wait = true → s.mayRead b (ea s / 16) = true) →
    ∃ t, exec i s = .next t ∧ (d ≠ 0 → t.g d = BitVec.ofNat 64 (leNat (s.cur.bufBytes b (ea s) 8))) ∧ KeepsG s t d ∧
      t.p 7 = (if nb then s.cur.full b (ea s / 16) else s.p 7) ∧ (∀ r, r ≠ 7 → t.p r = s.p r) ∧ KeepsQFJ s t ∧
      OnlyBuffers s t ∧ (∀ y, t.cur.buf y = s.cur.buf y) ∧
      (∀ y g, t.cur.full y g = if take = true ∧ y = b ∧ g = ea s / 16 then false else s.cur.full y g) ∧
      FallsThrough s t) ∧
  (∀ (s : State) (b : Buf), BufOk s x (ea s) b → wait = true → s.mayRead b (ea s / 16) = false →
    exec i s = .next (s.block (.full b.num (ea s / 16) take i))) ∧
  ∀ s : State, (ea s % 8 ≠ 0 → exec i s = .next (s.raise 0x02 (BitVec.ofNat 64 (ea s)) 0)) ∧
    (ea s % 8 = 0 → (∀ b, Buf.of x.toNat = some b → b.size ≤ ea s ∨ s.cur.bankOpen b (ea s) s.cur.cx = false) →
      exec i s = .next (s.raise 0x07 (BitVec.ofNat 64 (ea s)) 0))

/-- 03 R87, R88: the eight reads. Where the rules leave a choice, the clause is the model's own (log 73). -/
def Sys2Proof.Safety.TypedBufferReads : Prop :=
  ∀ (d a b : Fin 32) (x : BitVec 2) (o : BitVec 12),
    let ea (s : State) : Nat := (s.g a).toNat + 8 * o.toNat
    let ex (s : State) : Nat := (s.g a).toNat + (s.g b).toNat
    BufReads (.ldb d a x o) d x ea false false false ∧ BufReads (.ldbFe d a x o) d x ea true false true ∧
    BufReads (.ldbPk d a x o) d x ea true false false ∧ BufReads (.ldbNb d a x o) d x ea false true false ∧
    BufReads (.ldbx d a b x) d x ex false false false ∧ BufReads (.ldbxFe d a b x) d x ex true false true ∧
    BufReads (.ldbxPk d a b x) d x ex true false false ∧ BufReads (.ldbxNb d a b x) d x ex false true false

/-- A write of half a granule of A or C (03 R88, R91): the eight bytes and the bit, and nothing else but the pc. wait: a full
granule blocks. An address of W, one out of range, or in a bank that is not open (05 R158), is cause 0x07. -/
def Sys2Proof.Safety.BufWrites (i : Instr) (d : Fin 32) (x : BitVec 2) (ea : State → Nat) (wait : Bool) : Prop :=
  (∀ (s : State) (b : Buf), BufOk s x (ea s) b → b ≠ .w → (s.cur.buf b).wf = true →
    (wait = true → s.cur.full b (ea s / 16) = false) →
    ∃ t, exec i s = .next t ∧ KeepsRegs s t ∧ OnlyBuffers s t ∧
      (∀ y, (t.cur.buf b).get y = if ea s ≤ y ∧ y < ea s + 8
        then BitVec.ofNat 8 ((s.g d).toNat / 256 ^ (y - ea s)) else (s.cur.buf b).get y) ∧
      (∀ y, y ≠ b → t.cur.buf y = s.cur.buf y) ∧
      (∀ y g, t.cur.full y g = if y = b ∧ g = ea s / 16 then true else s.cur.full y g) ∧ FallsThrough s t) ∧
  (∀ (s : State) (b : Buf), BufOk s x (ea s) b → b ≠ .w → wait = true → s.cur.full b (ea s / 16) = true →
    exec i s = .next (s.block (.empty b.num (ea s / 16)))) ∧
  ∀ s : State, (ea s % 8 ≠ 0 → exec i s = .next (s.raise 0x02 (BitVec.ofNat 64 (ea s)) 0)) ∧
    (ea s % 8 = 0 → (∀ b, Buf.of x.toNat = some b → b = .w ∨ b.size ≤ ea s ∨ s.cur.bankOpen b (ea s) s.cur.cx = false) →
      exec i s = .next (s.raise 0x07 (BitVec.ofNat 64 (ea s)) 0))

/-- 03 R87, R88, R91: the four writes. Where the rules leave a choice, the clause is the model's own (log 73). -/
def Sys2Proof.Safety.TypedBufferWrites : Prop :=
  ∀ (d a b : Fin 32) (x : BitVec 2) (o : BitVec 12),
    let ea (s : State) : Nat := (s.g a).toNat + 8 * o.toNat
    let ex (s : State) : Nat := (s.g a).toNat + (s.g b).toNat
    BufWrites (.stb d a x o) d x ea false ∧ BufWrites (.stbFe d a x o) d x ea true ∧
    BufWrites (.stbx d a b x) d x ex false ∧ BufWrites (.stbxFe d a b x) d x ex true

/-! ## Fibres -/

/-- A fib form's register changes and nothing else but the pc. -/
def Sys2Proof.Safety.OnlyFibre (s t : State) (d : Fin 16) : Prop :=
  (∀ r, r ≠ d → t.f r = s.f r) ∧ (∀ r, t.g r = s.g r) ∧ (∀ r, t.p r = s.p r) ∧ t.fc.q = s.fc.q ∧ t.fc.j = s.fc.j ∧
    OnlyRegs s t ∧ FallsThrough s t

/-- A 32-bit word of A that a fib form may read at once (10 R281). -/
def Sys2Proof.Safety.Readable (s : State) (a : Nat) : Prop :=
  a < 0x80000 ∧ s.cur.bankOpen .a a s.cur.cx = true ∧ s.mayRead .a (a / 16) = true

/-- The 32-bit word of A at an address. -/
def Sys2Proof.Safety.wordOfA (s : State) (a : Nat) : Nat := leNat (s.cur.bufBytes .a a 4)

/-- What opening a fibre on base cb from lo to hi leaves (10 R283). -/
def Sys2Proof.Safety.Opened (s t : State) (d : Fin 16) (cb lo hi : Nat) : Prop :=
  OnlyFibre s t d ∧ (t.f d).base.toNat = cb ∧ (t.f d).pos.toNat = lo ∧ (t.f d).last.toNat = hi ∧
    (t.f d).cur = if lo = hi then 0xFFFFFFFF else BitVec.ofNat 32 (wordOfA s (cb + 4 * lo))

/-- 10 R280 to R283: `fib.open` and `fib.set`, with their causes in the order 0x02, 0x07, 0x10. -/
def Sys2Proof.Safety.FibreOpening : Prop :=
  ∀ (s : State) (d : Fin 16) (a b : Fin 32),
    let cb := (s.g a).toNat
    let pe := (s.g b).toNat
    let lo := wordOfA s pe
    let hi := wordOfA s (pe + 4)
    let lo' := (s.g b).toNat % 2 ^ 32
    let hi' := (s.g b).toNat / 2 ^ 32
    (cb % 4 = 0 → pe % 4 = 0 → cb < 0x80000 → pe + 8 ≤ 0x80000 → Readable s pe → Readable s (pe + 4) →
      (lo ≤ hi → cb + 4 * hi ≤ 0x80000 → (lo ≠ hi → Readable s (cb + 4 * lo)) →
        ∃ t, exec (.fibOpen d a b) s = .next t ∧ Opened s t d cb lo hi) ∧
      (hi < lo ∨ 0x80000 < cb + 4 * hi → exec (.fibOpen d a b) s = .next (s.raise 0x10 0 0))) ∧
    (cb % 4 ≠ 0 → exec (.fibOpen d a b) s = .next (s.raise 0x02 (s.g a) 0) ∧
      exec (.fibSet d a b) s = .next (s.raise 0x02 (s.g a) 0)) ∧
    (cb % 4 = 0 → pe % 4 = 0 → 0x80000 ≤ cb → exec (.fibOpen d a b) s = .next (s.raise 0x07 (s.g a) 0)) ∧
    (cb % 4 = 0 → cb < 0x80000 →
      (lo' ≤ hi' → cb + 4 * hi' ≤ 0x80000 → (lo' ≠ hi' → Readable s (cb + 4 * lo')) →
        ∃ t, exec (.fibSet d a b) s = .next t ∧ Opened s t d cb lo' hi') ∧
      (hi' < lo' ∨ 0x80000 < cb + 4 * hi' → exec (.fibSet d a b) s = .next (s.raise 0x10 0 0)))

/-- 10 R283: an advance and a seek move to the next entry, or to the first one not below the target; an ended fibre is left as it
is; the other forms read, test and close a fibre. -/
def Sys2Proof.Safety.FibreSteps : Prop :=
  ∀ (s : State) (d : Fin 16) (a b : Fin 32) (g : Fin 32) (p : Fin 8),
    let f := s.f d
    let at_ (i : Nat) : Nat := f.base.toNat + 4 * i
    ((f.last.toNat ≤ f.pos.toNat ∨ f.pos.toNat + 1 = f.last.toNat ∨ Readable s (at_ (f.pos.toNat + 1))) →
      ∃ t, exec (.fibAdv d) s = .next t ∧ OnlyFibre s t d ∧
        (f.last.toNat ≤ f.pos.toNat → t.f d = f) ∧
        (f.pos.toNat < f.last.toNat → (t.f d).pos.toNat = f.pos.toNat + 1 ∧ (t.f d).last = f.last ∧ (t.f d).base = f.base ∧
          (t.f d).cur = if f.pos.toNat + 1 = f.last.toNat then 0xFFFFFFFF
            else BitVec.ofNat 32 (wordOfA s (at_ (f.pos.toNat + 1))))) ∧
    ((s.g a).toNat < 2 ^ 32 → (∀ i, f.pos.toNat < i → i < f.last.toNat → Readable s (at_ i)) →
      ∃ t, exec (.fibSeek d a) s = .next t ∧ OnlyFibre s t d ∧ (t.f d).last = f.last ∧ (t.f d).base = f.base ∧
        (f.last.toNat ≤ f.pos.toNat ∨ (s.g a).toNat ≤ f.cur.toNat → t.f d = f) ∧
        (f.pos.toNat < f.last.toNat → f.cur.toNat < (s.g a).toNat →
          f.pos.toNat < (t.f d).pos.toNat ∧ (t.f d).pos.toNat ≤ f.last.toNat ∧
          (∀ i, f.pos.toNat < i → i < (t.f d).pos.toNat → wordOfA s (at_ i) < (s.g a).toNat) ∧
          ((t.f d).pos = f.last → (t.f d).cur = 0xFFFFFFFF) ∧
          ((t.f d).pos ≠ f.last → (t.f d).cur.toNat = wordOfA s (at_ (t.f d).pos.toNat) ∧
            (s.g a).toNat ≤ (t.f d).cur.toNat))) ∧
    (2 ^ 32 ≤ (s.g a).toNat → exec (.fibSeek d a) s = .next (s.raise 0x01 0 0)) ∧
    (∃ t, exec (.fibClose d) s = .next t ∧ OnlyFibre s t d ∧ t.f d = ⟨0xFFFFFFFF, 0, 0, 0⟩) ∧
    WritesP (.fibEnd p d) p (fun s => decide ((s.f d).pos = (s.f d).last)) ∧
    WritesG (.fibGet g d 0) g (fun s => BitVec.ofNat 64 (s.f d).cur.toNat) ∧
    WritesG (.fibGet g d 1) g (fun s => BitVec.ofNat 64 (s.f d).pos.toNat) ∧
    WritesG (.fibGet g d 2) g (fun s => BitVec.ofNat 64 (s.f d).last.toNat) ∧
    (2 < b.val → exec (.fibGet g d b) s = .next (s.raise 0x01 0 0))

/-- 10 R285: `jsx.set` writes both halves of an indirect-stream register and `jsx.get` reads one. -/
def Sys2Proof.Safety.IndirectStreamRegisters : Prop :=
  (∀ (s : State) (d : Fin 8) (a b : Fin 32), ∃ t, exec (.jsxSet d a b) s = .next t ∧
    (t.j d).toNat = (s.g a).toNat * 2 ^ 64 + (s.g b).toNat ∧ (∀ r, r ≠ d → t.j r = s.j r) ∧ (∀ r, t.g r = s.g r) ∧
    (∀ r, t.p r = s.p r) ∧ t.fc.q = s.fc.q ∧ t.fc.f = s.fc.f ∧ OnlyRegs s t ∧ FallsThrough s t) ∧
  (∀ (g : Fin 32) (d : Fin 8),
    WritesG (.jsxGet g d 0) g (fun s => BitVec.ofNat 64 ((s.j d).toNat % 2 ^ 64)) ∧
    WritesG (.jsxGet g d 1) g (fun s => BitVec.ofNat 64 ((s.j d).toNat / 2 ^ 64))) ∧
  ∀ (s : State) (g : Fin 32) (d : Fin 8) (b : Fin 32), 1 < b.val → exec (.jsxGet g d b) s = .next (s.raise 0x01 0 0)

/-! ## Atomics and publication -/

/-- Registers, pc, loop stack, store buffer and status of a firing context are as they were. -/
def Sys2Proof.Safety.SameContext (f g : FiringCtx) : Prop :=
  g.g = f.g ∧ g.p = f.p ∧ g.q = f.q ∧ g.f = f.f ∧ g.j = f.j ∧ g.pc = f.pc ∧ g.loops = f.loops ∧ g.sb = f.sb ∧ g.pub = f.pub ∧
    g.status = f.status ∧ g.stopped = f.stopped

/-- Every other firing context of the package, and the acting core's buffers, handles, channels, points, masks and commands, are
as they were. -/
def Sys2Proof.Safety.OthersStand (s t : State) : Prop :=
  (∀ k n, (k ≠ s.now ∨ n ≠ s.cur.run) → SameContext ((s.core k).fc n) ((t.core k).fc n)) ∧
  (∀ b, t.cur.buf b = s.cur.buf b ∧ t.cur.fullOf b = s.cur.fullOf b) ∧ t.cur.handles = s.cur.handles ∧
  t.cur.chans = s.cur.chans ∧ t.cur.points = s.cur.points ∧ t.cur.masks = s.cur.masks ∧ t.cur.cmds = s.cur.cmds ∧
  t.parts = s.parts ∧ t.clusters = s.clusters ∧ t.dies = s.dies

/-- Everything that the firing stored is visible, and its queued atomics are performed (03 R69, 11 R303, R310). -/
def Sys2Proof.Safety.Published (s : State) : Prop := s.fc.sb = [] ∧ s.fc.pub = [] ∧ s.cur.queuedAtomic s.fid = false

/-- Bytes of memory from l on hold the number v; every other byte is as it was. -/
def Sys2Proof.Safety.StoresBytes (s t : State) (l : Loc) (n v : Nat) : Prop :=
  ∀ y : Loc, t.byte y = if y.onHost = l.onHost ∧ l.addr ≤ y.addr ∧ y.addr < l.addr + n
    then BitVec.ofNat 8 (v / 256 ^ (y.addr - l.addr)) else s.byte y

/-- What a returning atomic needs: the address may be stored to, the firing has published, the undo log has room, and the data L1
owns the line alone (11 R308). -/
structure Sys2Proof.Safety.Owned (s : State) (ea : Word) (n : Nat) (l : Loc) : Prop where
  wf : s.hbm.wf = true ∧ s.hostMem.wf = true
  canon : Canon ea
  aligned : ea.toNat % n = 0
  translated : s.translate ea.toNat .store = .ok l
  placed : l.addr % n = 0
  published : Published s
  room : (s.ctx s.x).undoFull l.line = false
  owned : (s.cur.l1.any fun e => e.1 = l.line && e.2) = true

/-- A returning atomic of n bytes (11 R307, R308): with m the memory's number and v the low bytes of g[b], memory takes new m v and
g[d] takes ext m; no other byte and no other register changes. -/
def Sys2Proof.Safety.Atomic (i : Instr) (d a b : Fin 32) (n : Nat) (new : Nat → Nat → Nat) (ext : Nat → Word) : Prop :=
  AddressChecks i (fun s => s.g a) n .store ∧
  ∀ (s : State) (l : Loc), Owned s (s.g a) n l →
    let m := leNat (s.seenBytes s.x l n)
    ∃ t, exec i s = .next t ∧ StoresBytes s t l n (new m ((s.g b).toNat % 2 ^ (8 * n))) ∧ (d ≠ 0 → t.g d = ext m) ∧ KeepsG s t d ∧
      (∀ r, t.p r = s.p r) ∧ KeepsQFJ s t ∧ OthersStand s t ∧ FallsThrough s t

/-- The ten operations of 11 R307 on n bits, but for the floating sum. -/
def Sys2Proof.Safety.atomicValue (op n m v : Nat) : Nat :=
  match op with
  | 0 => (m + v) % 2 ^ n
  | 1 => m &&& v
  | 2 => m ||| v
  | 3 => m ^^^ v
  | 4 => if (BitVec.ofNat n m).toInt ≤ (BitVec.ofNat n v).toInt then m else v
  | 5 => if (BitVec.ofNat n m).toInt ≤ (BitVec.ofNat n v).toInt then v else m
  | 6 => min m v
  | 7 => max m v
  | _ => v

/-- 11 R307, R308: the returning atomics on words of 4 bytes, whose results are sign-extended, and of 8 bytes. Where the rules leave
a choice, the clause is the model's own (log 13). -/
def Sys2Proof.Safety.ReturningAtomics : Prop :=
  ∀ d a b : Fin 32, ∀ z : Bool,
    let n := if z then 8 else 4
    let form (i : Instr) (op : Nat) : Prop := Atomic i d a b n (atomicValue op (8 * n)) (sext n)
    form (.amoAdd d a b z) 0 ∧ form (.amoAnd d a b z) 1 ∧ form (.amoOr d a b z) 2 ∧ form (.amoXor d a b z) 3 ∧
    form (.amoMin d a b z) 4 ∧ form (.amoMax d a b z) 5 ∧ form (.amoMinu d a b z) 6 ∧ form (.amoMaxu d a b z) 7 ∧
    form (.amoSwap d a b z) 8 ∧
    Atomic (.amoFadd d a b) d a b 4 (fun m v => (faddWord m v).1) zext ∧
    ∀ (s : State) (l : Loc), Owned s (s.g a) 4 l → ∃ t, exec (.amoFadd d a b) s = .next t ∧
      t.fc.aflags = s.fc.aflags.or (faddWord (leNat (s.seenBytes s.x l 4)) ((s.g b).toNat % 2 ^ 32)).2

/-- An fp32 word is a NaN, or an infinity of a sign (11 R311). -/
def Sys2Proof.Safety.isNan32 (w : Nat) : Prop := w % 2 ^ 31 > 0x7F800000

/-- 11 R311: the special cases of the fp32 atomic sum, and the rows of the examples of 11 R312. -/
def Sys2Proof.Safety.FloatingAtomicSum : Prop :=
  (∀ m v, m < 2 ^ 32 → v < 2 ^ 32 → isNan32 m ∨ isNan32 v → faddWord m v = (0x7FC00000, ⟨true, false, false, false⟩)) ∧
  faddWord 0x7F800000 0xFF800000 = (0x7FC00000, ⟨true, false, false, false⟩) ∧
  faddWord 0xFF800000 0x7F800000 = (0x7FC00000, ⟨true, false, false, false⟩) ∧
  (∀ v, v % 2 ^ 31 < 0x7F800000 → v < 2 ^ 32 →
    faddWord 0x7F800000 v = (0x7F800000, ⟨false, false, false, false⟩) ∧
    faddWord 0xFF800000 v = (0xFF800000, ⟨false, false, false, false⟩)) ∧
  (∀ m v, m < 2 ^ 32 → v < 2 ^ 32 → (faddWord m v).2.uf = false ∧ (faddWord m v).1 < 2 ^ 32) ∧
  faddWord 0x80000000 0x80000000 = (0x80000000, ⟨false, false, false, false⟩) ∧
  faddWord 0x80000000 0 = (0, ⟨false, false, false, false⟩) ∧
  faddWord 0x7F7FFFFF 0x73800000 = (0x7F800000, ⟨false, true, false, true⟩) ∧
  faddWord 0x00800000 0x80000001 = (0x007FFFFF, ⟨false, false, false, false⟩) ∧
  faddWord 0x3F800000 0x33800000 = (0x3F800000, ⟨false, false, false, true⟩)

/-- 11 R308: `cas` writes g[b] where memory equals the low bytes of g[d], p7 says whether it did, and g[d] takes what memory
held. -/
def Sys2Proof.Safety.CompareAndSwap : Prop :=
  ∀ d a b : Fin 32, ∀ z : Bool,
    let n := if z then 8 else 4
    AddressChecks (.cas d a b z) (fun s => s.g a) n .store ∧
    ∀ (s : State) (l : Loc), Owned s (s.g a) n l →
      let m := leNat (s.seenBytes s.x l n)
      let hit := m = (s.g d).toNat % 2 ^ (8 * n)
      ∃ t, exec (.cas d a b z) s = .next t ∧ (hit → StoresBytes s t l n (s.g b).toNat) ∧ (¬hit → ∀ y, t.byte y = s.byte y) ∧
        (t.p 7 = true ↔ hit) ∧ (∀ r, r ≠ 7 → t.p r = s.p r) ∧ (d ≠ 0 → t.g d = sext n m) ∧ KeepsG s t d ∧ KeepsQFJ s t ∧
        OthersStand s t ∧ FallsThrough s t

/-- A queued atomic (11 R310): after its publication it is queued at the L1, with its address and operand, and the firing goes
on. -/
def Sys2Proof.Safety.Queues (i : Instr) (a b : Fin 32) (n op : Nat) (double : Bool) : Prop :=
  AddressChecks i (fun s => s.g a) n .store ∧
  ∀ (s : State) (l : Loc), Canon (s.g a) → (s.g a).toNat % n = 0 → s.translate (s.g a).toNat .store = .ok l → Published s →
    ∃ t w, exec i s = .next t ∧ t.cur.amons = s.cur.amons ++ [⟨s.fid, s.cur.run.val, s.g a, s.g b, op, double, w⟩] ∧
      encodeScalar i = some w.toNat ∧ KeepsRegs s t ∧ OnlyCore s t ∧ OthersStand s t ∧ FallsThrough s t

/-- 11 R310: the non-returning atomics. -/
def Sys2Proof.Safety.QueuedAtomics : Prop :=
  ∀ a b : Fin 32, ∀ z : Bool,
    let n := if z then 8 else 4
    Queues (.amonAdd a b z) a b n 0 z ∧ Queues (.amonAnd a b z) a b n 1 z ∧ Queues (.amonOr a b z) a b n 2 z ∧
    Queues (.amonXor a b z) a b n 3 z ∧ Queues (.amonMin a b z) a b n 4 z ∧ Queues (.amonMax a b z) a b n 5 z ∧
    Queues (.amonMinu a b z) a b n 6 z ∧ Queues (.amonMaxu a b z) a b n 7 z ∧ Queues (.amonSwap a b z) a b n 8 z ∧
    Queues (.amonFadd a b) a b 4 9 false

/-- 11 R310, R312: the oldest queued atomic of a core is performed at its L1: memory takes the value of its operation, fp32 flags go
to sy.nflags and to no firing, and the firings of the package keep their registers. Where the rules leave a choice, the clause is
the model's own (log 13). -/
def Sys2Proof.Safety.QueuedAtomicIsPerformed : Prop :=
  ∀ (s : State) (k : CoreId) (a : AmonReq) (r : List AmonReq) (l : Loc),
    let n := if a.double then 8 else 4
    let m := leNat (s.seenBytes (s.cxId k) l n)
    let v := a.operand.toNat % 2 ^ (8 * n)
    s.hbm.wf = true → s.hostMem.wf = true → (s.core k).records.contains 14 = false → (s.core k).amons = a :: r →
    s.engineTranslate (s.cxId k) a.va.toNat .store = .ok l → l.addr % n = 0 →
    (s.ctx (s.cxId k)).undoFull l.line = false → a.op ≤ 9 →
    ∃ t, exec (.amonPerform k) s = .next t ∧ (t.core k).amons = r ∧
      StoresBytes s t l n (if a.op = 9 then (faddWord m v).1 else atomicValue a.op (8 * n) m v) ∧
      (t.core k).nflags = (if a.op = 9 then (s.core k).nflags.or (faddWord m v).2 else (s.core k).nflags) ∧
      ∀ j n, SameContext ((s.core j).fc n) ((t.core j).fc n) ∧ ((t.core j).fc n).aflags = ((s.core j).fc n).aflags

/-- A publication point with something to publish publishes it and blocks, having done nothing else (03 R69, 11 R303). -/
def Sys2Proof.Safety.PublishesFirst (i : Instr) (s : State) : Prop :=
  ¬Published s → exec i s = .next ((s.setFc { s.fc with sb := [], pub := s.fc.pub ++ s.fc.sb }).block .publication)

/-- 11 R303, R305, R306: `fence` completes once the firing has published; `fence.c` also waits for its commands, and a failed one is
cause 0x0B; `fence.x` releases the firing's held stores, newest last, to host memory and no other byte, and the context has then
made an immediate external write (13 R368). Where the rules leave a choice, the clause is the model's own (log 31). -/
def Sys2Proof.Safety.Fences : Prop :=
  ∀ s : State,
    PublishesFirst .fence s ∧ PublishesFirst .fenceC s ∧ PublishesFirst .fenceX s ∧ PublishesFirst .phase s ∧
    (Published s →
      (∃ t, exec .fence s = .next t ∧ NoEffect s t) ∧
      (s.cur.cmdsOf s.fid = [] → ∃ t, exec .fenceC s = .next t ∧ NoEffect s t) ∧
      (∀ r, s.cur.failedCmd s.fid = some r → exec .fenceC s = .next (s.raiseQuiet 0x0B r) ∧
        exec .phase s = .next (s.raiseQuiet 0x0B r)) ∧
      (s.cur.failedCmd s.fid = none → s.cur.cmdsOf s.fid ≠ [] → exec .fenceC s = .next (s.block .commands) ∧
        exec .phase s = .next (s.block .commands)) ∧
      ((∀ h ∈ (s.ctx s.x).held, h.fid ≠ s.fid) → ∃ t, exec .fenceX s = .next t ∧ NoEffect s t) ∧
      (s.hostMem.wf = true →
        (∀ h ∈ (s.ctx s.x).held, h.line.onHost = true ∧ (h.line.bytes.map Prod.fst).Nodup ∧ ∀ b ∈ h.line.bytes, b.1 < 64) →
        (∃ h ∈ (s.ctx s.x).held, h.fid = s.fid) →
        ∃ t, exec .fenceX s = .next t ∧ KeepsRegs s t ∧ FallsThrough s t ∧ (∀ h ∈ (t.ctx s.x).held, h.fid ≠ s.fid) ∧
          (∀ h ∈ (s.ctx s.x).held, h.fid ≠ s.fid → h ∈ (t.ctx s.x).held) ∧ (t.ctx s.x).imm = true ∧ t.hbm = s.hbm ∧
          ∀ a, t.byte ⟨true, a⟩ =
            (lineByte (((s.ctx s.x).held.filter fun h => h.fid = s.fid).map fun h => h.line) ⟨true, a⟩).getD (s.byte ⟨true, a⟩)))

/-- 11 R300, R302, R306: a `phase` with nothing left to wait for makes every tile version of the firing current in one step, each
under the number that it took when it was first written, and the firing latches afresh with an empty set of writes; without writes
the epoch stays. -/
def Sys2Proof.Safety.PhaseMakesVersionsCurrent : Prop :=
  ∀ (s : State) (f : Firing), Published s → s.cur.cmdsOf s.fid = [] → (look s.ctxs s.x).isSome →
    look (s.ctx s.x).firings s.fid = some f → (f.writes.map Prod.fst).Nodup →
    (∀ k h, look (s.ctx s.x).tiles k = some h → ∀ v ∈ h, v.since ≤ (s.ctx s.x).epoch) →
    ∃ t, exec .phase s = .next t ∧ KeepsRegs s t ∧ FallsThrough s t ∧ (∀ l, t.byte l = s.byte l) ∧
      (t.ctx s.x).epoch = (if f.writes = [] then (s.ctx s.x).epoch else (s.ctx s.x).epoch + 1) ∧
      ((t.ctx s.x).firing s.fid).writes = [] ∧ ((t.ctx s.x).firing s.fid).latch = (t.ctx s.x).epoch ∧
      ∀ w ∈ f.writes, versionAt ((look (t.ctx s.x).tiles w.1).getD []) (t.ctx s.x).epoch =
        some ⟨(t.ctx s.x).epoch, w.2.1, w.2.2, false⟩

/-! ## Waiting, pails -/

/-- The lines of a wait: every address is canonical and its line translates (11 R313). -/
def Sys2Proof.Safety.WaitLines (s : State) (a : Fin 32) (n : Nat) (l : Nat → Loc) : Prop :=
  a ≠ 0 ∧ a.val + n ≤ 31 ∧ ∀ i, i ≤ n → Canon (s.g (a + Fin.ofNat 32 i)) ∧
    s.translate (s.g (a + Fin.ofNat 32 i)).toNat .load = .ok (l i)

/-- A wait that returns v (11 R313). -/
def Sys2Proof.Safety.WaitReturns (i : Instr) (s : State) (d : Fin 32) (v : Nat) : Prop :=
  ∃ t, exec i s = .next t ∧ (d ≠ 0 → t.g d = BitVec.ofNat 64 v) ∧ KeepsG s t d ∧ (∀ r, t.p r = s.p r) ∧ KeepsQFJ s t ∧
    OnlyContext s t ∧ t.fc.waits = [] ∧ t.fc.watch = s.fc.watch ∧ FallsThrough s t

/-- 11 R313: a wait returns the lowest of its lines that has been written since its firing last loaded it, or else since its start,
or 4 at once for a limit of 0 with none written; without either it blocks, and returns 4 where its limit has passed first. An a of
0, or registers past g31, are cause 0x01. The limit passes while it is blocked with none of its lines written. -/
def Obligations.WaitingOnAddresses : Prop :=
  (∀ (s : State) (d a b : Fin 32) (n : BitVec 2) (l : Nat → Loc), WaitLines s a n.toNat l → Published s → s.fc.expired = false →
    (∀ j, j ≤ n.toNat → s.fc.seen (l j).line = true → (∀ i, i < j → s.fc.seen (l i).line = false) →
      WaitReturns (.wait d a n) s d j ∧ WaitReturns (.waitLimited d a b n) s d j) ∧
    ((∀ i, i ≤ n.toNat → s.fc.seen (l i).line = false) →
      (s.g b = 0 → WaitReturns (.waitLimited d a b n) s d 4) ∧
      let ls : List Loc := (List.range (n.toNat + 1)).map fun i => (l i).line
      (∃ u : State, exec (.wait d a n) s = .next (u.block (.watched false ls)) ∧ u.fc.g = s.fc.g ∧ u.pc = s.pc) ∧
      (s.g b ≠ 0 → ∃ u : State, exec (.waitLimited d a b n) s = .next (u.block (.watched true ls)) ∧ u.fc.g = s.fc.g ∧
        u.pc = s.pc))) ∧
  (∀ (s : State) (d a b : Fin 32) (n : BitVec 2) (l : Nat → Loc), WaitLines s a n.toNat l → Published s → s.fc.expired = true →
    WaitReturns (.waitLimited d a b n) s d 4) ∧
  (∀ (s : State) (d a b : Fin 32) (n : BitVec 2), a = 0 ∨ 31 < a.val + n.toNat →
    exec (.wait d a n) s = .next (s.raise 0x01 0 0) ∧ exec (.waitLimited d a b n) s = .next (s.raise 0x01 0 0)) ∧
  ∀ (s : State) (k : CoreId) (n : Fin 8) (ls : List Loc), ((s.core k).fc n).status = .blocked (.watched true ls) →
    ((s.core k).fc n).stopped = false → (∀ l ∈ ls, ((s.core k).fc n).seen l = false) →
    ∃ t, exec (.waitLimitExpiry k n.val) s = .next t ∧ (t.core k).fc n = { (s.core k).fc n with expired := true } ∧
      (∀ m, m ≠ n → (t.core k).fc m = (s.core k).fc m) ∧ ∀ j, j ≠ k → t.core j = s.core j

/-- The number that n bytes at an offset of pail i of the acting core's context hold (11 R314). -/
def Sys2Proof.Safety.pailField (s : State) (i off n : Nat) : Nat :=
  leNat (s.bytesAt ⟨false, (s.ctx s.x).pailPa + 16 * i + off⟩ n)

/-- 11 R314, R316: `pail.arm` sets a pail's target, clears its count, failure and reason and keeps its gen, and no other byte of
memory changes; `pail.rd` reads gen, count and failure; `pail.wait` returns gen once it differs, blocks while it does not, and
ends with cause 0x11 where the pail has failed. Where the rules leave a choice, the clause is the model's own (log 14, 31). -/
def Sys2Proof.Safety.Pails : Prop :=
  ∀ (s : State) (d a : Fin 32) (i : BitVec 8),
    (PublishesFirst (.pailArm a i) s) ∧
    (Published s → s.hbm.wf = true → s.hostMem.wf = true →
      ∃ t, exec (.pailArm a i) s = .next t ∧ pailField t i.toNat 4 4 = (s.g a).toNat % 2 ^ 32 ∧ pailField t i.toNat 0 4 = 0 ∧
        pailField t i.toNat 8 4 = pailField s i.toNat 8 4 ∧ pailField t i.toNat 12 1 = 1 ∧ pailField t i.toNat 13 1 = 0 ∧
        (∀ l : Loc, (l.onHost = true ∨ l.addr < (s.ctx s.x).pailPa + 16 * i.toNat ∨
          (s.ctx s.x).pailPa + 16 * i.toNat + 14 ≤ l.addr) → t.byte l = s.byte l) ∧
        KeepsRegs s t ∧ OthersStand s t ∧ FallsThrough s t) ∧
    (∃ t, exec (.pailRd d i) s = .next t ∧
      (d ≠ 0 → t.g d = BitVec.ofNat 64 (pailField s i.toNat 8 4 * 2 ^ 32 + pailField s i.toNat 0 4)) ∧ KeepsG s t d ∧
      (t.p 7 = true ↔ pailField s i.toNat 12 1 = 2) ∧ (∀ r, r ≠ 7 → t.p r = s.p r) ∧ KeepsQFJ s t ∧ OnlyRegs s t ∧
      FallsThrough s t) ∧
    (pailField s i.toNat 12 1 = 2 → exec (.pailWait d a i) s = .next (s.raiseQuiet 0x11 i.toNat)) ∧
    (pailField s i.toNat 12 1 ≠ 2 → pailField s i.toNat 8 4 = (s.g a).toNat % 2 ^ 32 →
      exec (.pailWait d a i) s = .next (s.block (.pail i.toNat ((s.g a).toNat % 2 ^ 32)))) ∧
    (pailField s i.toNat 12 1 ≠ 2 → pailField s i.toNat 8 4 ≠ (s.g a).toNat % 2 ^ 32 →
      ∃ t, exec (.pailWait d a i) s = .next t ∧ (d ≠ 0 → t.g d = BitVec.ofNat 64 (pailField s i.toNat 8 4)) ∧ KeepsG s t d ∧
        (∀ r, t.p r = s.p r) ∧ KeepsQFJ s t ∧ OnlyRegs s t ∧ FallsThrough s t)

/-- 11 R315: an add flips a pail once for each target reached, and is lost on a failed pail. -/
def Sys2Proof.Safety.PailAdd : Prop :=
  ∀ (p : Pail) (c : Nat),
    (p.state = 2 → p.add c = p) ∧
    (p.state ≠ 2 → p.target = 0 → p.add c = { p with count := (p.count + c) % 2 ^ 32 }) ∧
    (p.state ≠ 2 → 0 < p.target → p.target < 2 ^ 32 →
      ∃ flips, p.count + c = flips * p.target + (p.add c).count ∧ (p.add c).count < p.target ∧
        (p.add c).gen = (p.gen + flips) % 2 ^ 32 ∧ (p.add c).target = p.target ∧ (p.add c).state = p.state)

/-! ## Messages, points, tasks -/

/-- 04 R127, R128: `send` appends its word to the firing's message for the destination channel and spends one reserved word; the
causes are tested in the order channel, destination, reservation. -/
def Sys2Proof.Safety.SendAppendsAWord : Prop :=
  ∀ (s : State) (c a b : Fin 32),
    (c.val < 2 ∨ 29 < c.val → exec (.send c a b) s = .next (s.raise 0x0D 0 0)) ∧
    (2 ≤ c.val → c.val ≤ 29 → s.destValid (s.g a).toNat = false → exec (.send c a b) s = .next (s.raise 0x0D 0 0)) ∧
    (2 ≤ c.val → c.val ≤ 29 → s.destValid (s.g a).toNat = true → s.firing.reserved c.val = 0 →
      exec (.send c a b) s = .next (s.raise 0x0C 0 0)) ∧
    (2 ≤ c.val → c.val ≤ 29 → s.destValid (s.g a).toNat = true → 0 < s.firing.reserved c.val → PublishesFirst (.send c a b) s) ∧
    (2 ≤ c.val → c.val ≤ 29 → s.destValid (s.g a).toNat = true → 0 < s.firing.reserved c.val → Published s →
      (look s.ctxs s.x).isSome → (look (s.ctx s.x).firings s.fid).isSome →
      ∃ t, exec (.send c a b) s = .next t ∧ t.firing.reserved c.val = s.firing.reserved c.val - 1 ∧
        t.firing.msgs = appendWord s.firing.msgs s.now (s.g a).toNat c.val (s.g b) ∧
        ((s.firing.msgs.map fun m => m.words.length).sum + 1 ≤ (t.firing.msgs.map fun m => m.words.length).sum) ∧
        KeepsRegs s t ∧ (∀ l, t.byte l = s.byte l) ∧ OthersStand s t ∧ FallsThrough s t)

/-- 04 R130: `recv` takes one further word of its firing's input channel, and says in p7 whether there was one; another channel is
cause 0x0D. Where the rules leave a choice, the clause is the model's own (log 48). -/
def Sys2Proof.Safety.RecvTakesAWord : Prop :=
  ∀ (s : State) (d c : Fin 32),
    let ch := ((s.ctx s.x).handler s.firing.entry).inCh
    (c.val ≠ ch → exec (.recv d c) s = .next (s.raise 0x0D 0 0)) ∧
    (c.val = ch → 2 ≤ ch → ∀ w r, look s.cur.chans ch = some (w :: r) →
      ∃ t, exec (.recv d c) s = .next t ∧ (d ≠ 0 → t.g d = w) ∧ KeepsG s t d ∧ t.p 7 = true ∧ (∀ q, q ≠ 7 → t.p q = s.p q) ∧
        KeepsQFJ s t ∧ look t.cur.chans ch = some r ∧ (∀ j, j ≠ ch → look t.cur.chans j = look s.cur.chans j) ∧
        (∀ l, t.byte l = s.byte l) ∧ FallsThrough s t) ∧
    (c.val = ch → 2 ≤ ch → (look s.cur.chans ch).getD [] = [] →
      ∃ t, exec (.recv d c) s = .next t ∧ (d ≠ 0 → t.g d = 0) ∧ KeepsG s t d ∧ t.p 7 = false ∧ (∀ q, q ≠ 7 → t.p q = s.p q) ∧
        KeepsQFJ s t ∧ OnlyRegs s t ∧ FallsThrough s t) ∧
    (c.val = ch → ch < 2 → ∀ w r, takeWord s.cur.points s.firing.cx s.firing.entry = some (w, r) →
      ∃ t, exec (.recv d c) s = .next t ∧ (d ≠ 0 → t.g d = w) ∧ KeepsG s t d ∧ t.p 7 = true ∧ t.cur.points = r ∧
        (∀ l, t.byte l = s.byte l) ∧ FallsThrough s t) ∧
    (c.val = ch → ch < 2 → takeWord s.cur.points s.firing.cx s.firing.entry = none →
      ∃ t, exec (.recv d c) s = .next t ∧ (d ≠ 0 → t.g d = 0) ∧ KeepsG s t d ∧ t.p 7 = false ∧ OnlyRegs s t ∧ FallsThrough s t)

/-- 04 R131: `point.seq` writes the firing's number, 0 for a message firing; `point.ht` writes a height from the one at the firing's
start to the current one, and all ones where the firing has no launch or the coordinates lie outside. Which height is free. Where
the rules leave a choice, the clause is the model's own (log 6). -/
def Sys2Proof.Safety.PointReads : Prop :=
  (∀ d : Fin 32, WritesG (.pointSeq d) d (fun s => if s.firing.kind = .message then 0 else BitVec.ofNat 64 s.firing.seq)) ∧
  ∀ (s : State) (d a : Fin 32),
    ((s.firing.kind = .message ∨ (s.ctx s.x).launch s.firing.tag = none) →
      ∃ t, exec (.pointHt d a) s = .next t ∧ (d ≠ 0 → t.g d = 0xFFFFFFFFFFFFFFFF) ∧ KeepsG s t d ∧ OnlyRegs s t ∧ FallsThrough s t) ∧
    ∀ l, s.firing.kind ≠ .message → (s.ctx s.x).launch s.firing.tag = some l →
      (l.block.indexOf (fun k => (coord (s.g a) k : Int)) = none →
        ∃ t, exec (.pointHt d a) s = .next t ∧ (d ≠ 0 → t.g d = 0xFFFFFFFFFFFFFFFF) ∧ KeepsG s t d ∧ OnlyRegs s t ∧ FallsThrough s t) ∧
      ∀ i, l.block.indexOf (fun k => (coord (s.g a) k : Int)) = some i → l.heights.getD i 0 < 2 ^ 63 →
        s.firing.startHeights.getD i 0 ≤ l.heights.getD i 0 →
        ∃ t, exec (.pointHt d a) s = .next t ∧ (d ≠ 0 → s.firing.startHeights.getD i 0 ≤ (t.g d).toNat ∧
          (t.g d).toNat ≤ l.heights.getD i 0) ∧ KeepsG s t d ∧ (∀ r, t.p r = s.p r) ∧ KeepsQFJ s t ∧ FallsThrough s t

/-- 04 R132, R119: `spawn` of a valid record with an entry reserved copies the record to the die of its inset's origin core, spends
the reservation and returns the task's number; a record that breaks R119 or a firing with no launch is cause 0x0E, and no
reservation is cause 0x0C. Where the rules leave a choice, the clause is the model's own (log 71). -/
def Sys2Proof.Safety.SpawnQueuesATask : Prop :=
  ∀ (s : State) (d a : Fin 32) (l : Loc), AddressChecks (.spawn d a) (fun s => s.g a) 64 .load ∧
    (Canon (s.g a) → (s.g a).toNat % 64 = 0 → s.translate (s.g a).toNat .load = .ok l → s.atomicOn s.now s.fid l.line = false →
      (s.cur.l1.any fun e => e.1 = l.line) = true →
      let bs := s.loadBytes l 64
      let u := s.setFc (s.fc.watchLine l.line)
      ((s.firing.kind = .message ∨ (s.ctx s.x).launch s.firing.tag = none) → exec (.spawn d a) s = .next (u.raise 0x0E 0 0)) ∧
      ∀ m, s.firing.kind ≠ .message → (s.ctx s.x).launch s.firing.tag = some m →
        ((s.ctx s.x).recordValid m.block.sheet bs = false → exec (.spawn d a) s = .next (u.raise 0x0E 0 0)) ∧
        ((s.ctx s.x).recordValid m.block.sheet bs = true → s.firing.reserved 1 = 0 →
          exec (.spawn d a) s = .next (u.raise 0x0C 0 0)) ∧
        ((s.ctx s.x).recordValid m.block.sheet bs = true → 0 < s.firing.reserved 1 → Published s →
          (look s.ctxs s.x).isSome → (look (s.ctx s.x).firings s.fid).isSome →
          ∃ t r, exec (.spawn d a) s = .next t ∧ r.bytes = bs ∧ r.parent = s.fid ∧ r.x = s.x ∧ r.queued = true ∧
            (t.die (dieOf ((m.block.sheet.y + (taskFields bs).iy) * 32 + m.block.sheet.x + (taskFields bs).ix))).tasks =
              (s.die (dieOf ((m.block.sheet.y + (taskFields bs).iy) * 32 + m.block.sheet.x + (taskFields bs).ix))).tasks ++ [r] ∧
            (d ≠ 0 → t.g d = BitVec.ofNat 64 r.seq) ∧ KeepsG s t d ∧ t.firing.reserved 1 = s.firing.reserved 1 - 1 ∧
            (∀ y, t.byte y = s.byte y) ∧ FallsThrough s t))

/-- 04 R133: `mask` and `unmask` set and clear the mask bit of the entry and configuration context that g[a] names, on the issuing
core only; a selector with other bits or an entry that is not valid is cause 0x0D. -/
def Sys2Proof.Safety.MaskBits : Prop :=
  ∀ (s : State) (a e cx : Fin 32),
    (cx.val < 8 → (s.g a).toNat = e.val + 256 * cx.val → ((s.ctx s.x).handler e.val).valid = true →
      (∃ t, exec (.mask a) s = .next t ∧ t.masked s.now cx.val e.val = true ∧ KeepsRegs s t ∧ FallsThrough s t ∧
        (∀ j, j ≠ s.now → t.core j = s.core j) ∧
        (∀ c n, (c, n) ≠ (cx.val, e.val) → t.masked s.now c n = s.masked s.now c n) ∧ (∀ l, t.byte l = s.byte l)) ∧
      ∃ t, exec (.unmask a) s = .next t ∧ t.masked s.now cx.val e.val = false ∧ KeepsRegs s t ∧ FallsThrough s t ∧
        (∀ j, j ≠ s.now → t.core j = s.core j) ∧
        (∀ c n, (c, n) ≠ (cx.val, e.val) → t.masked s.now c n = s.masked s.now c n) ∧ (∀ l, t.byte l = s.byte l)) ∧
    (((s.g a).toNat / 2048 ≠ 0 ∨ (s.g a).toNat / 32 % 8 ≠ 0 ∨
        ((s.ctx s.x).handler ((s.g a).toNat % 32)).valid = false) →
      exec (.mask a) s = .next (s.raise 0x0D 0 0) ∧ exec (.unmask a) s = .next (s.raise 0x0D 0 0))

/-! ## Issue of commands, handles -/

/-- 03 R93, R62: `cmd` and `cmdw` refuse a command that breaks 02 R41 with cause 0x0A and its reason, tested once, publish, block
while the queue holds 32, and enter a copy of the command at the queue's end; `cmd` then goes on, and `cmdw` blocks until its
command is complete. A command that failed ends a `cmdw` with cause 0x0B. Where the rules leave a choice, the clause is the model's
own (log 15, 31). -/
def Sys2Proof.Safety.CommandIssue : Prop :=
  ∀ (s : State) (q : Fin 16),
    let w := s.q q
    let live := (s.ctx s.x).launch ((cmdOf w).operand.toNat % 65536)
    let jv : QWord := if opOf w = 0x39 then BitVec.ofNat 128 ((live.map fun l => 1 + l.serial * 2 ^ 64).getD 0)
      else s.fc.j.get (Fin.ofNat 8 (cmdOf w).cflags.toNat)
    let passes (cmdw : Bool) : Prop := s.fc.checked = true ∨ s.cmdFault w cmdw jv = none
    let past := s.setFc { s.fc with checked := true }
    (∀ r, s.fc.checked = false → s.cmdFault w false jv = some r → exec (.cmd q) s = .next (s.raise 0x0A 0 r)) ∧
    (∀ r, s.fc.waitCmd = none → s.fc.checked = false → s.cmdFault w true jv = some r → exec (.cmdw q) s = .next (s.raise 0x0A 0 r)) ∧
    (passes false → ¬Published s →
      exec (.cmd q) s = .next ((s.setFc { s.fc with checked := true, sb := [], pub := s.fc.pub ++ s.fc.sb }).block .publication)) ∧
    (passes false → Published s → 32 ≤ s.cur.queued.length → exec (.cmd q) s = .next (past.block .queueRoom)) ∧
    (s.fc.waitCmd = none → passes true → Published s → 32 ≤ s.cur.queued.length → exec (.cmdw q) s = .next (past.block .queueRoom)) ∧
    (passes false → Published s → s.cur.queued.length < 32 →
      ∃ t e, exec (.cmd q) s = .next t ∧ t.cur.cmds = s.cur.cmds ++ [e] ∧ e.word = w ∧ e.id = s.cur.nextCmd ∧ e.fid = s.fid ∧
        e.stage = .queued ∧ t.cur.nextCmd = s.cur.nextCmd + 1 ∧ KeepsRegs s t ∧ (∀ l, t.byte l = s.byte l) ∧ FallsThrough s t) ∧
    (s.fc.waitCmd = none → passes true → Published s → s.cur.queued.length < 32 →
      ∃ (u : State) (e : CmdEntry), exec (.cmdw q) s = .next (u.block (.command s.cur.nextCmd)) ∧ u.cur.cmds = s.cur.cmds ++ [e] ∧ e.word = w ∧
        e.id = s.cur.nextCmd ∧ e.stage = .queued ∧ u.fc.waitCmd = some s.cur.nextCmd ∧ u.pc = s.pc ∧ u.fc.g = s.fc.g) ∧
    (∀ id, s.fc.waitCmd = some id →
      ((∀ e ∈ s.cur.cmds, e.id ≠ id) → ∃ t, exec (.cmdw q) s = .next t ∧ KeepsRegs s t ∧ OnlyContext s t ∧
        t.fc.waitCmd = none ∧ FallsThrough s t) ∧
      ∀ e r, (s.cur.cmds.find? fun c => c.id = id) = some e → e.stage = .failed r →
        exec (.cmdw q) s = .next (s.raiseQuiet 0x0B r))

/-- 03 R95, 05 R147: `adv` moves n slots between the free and the filled count of a bound handle, the pins on slots that a consumer
releases ending with it, and `hwait` waits for a count without changing any; an unbound handle, a count above S and an advance past
the count are cause 0x08 with nothing changed. -/
def Sys2Proof.Safety.HandleCounts : Prop :=
  ∀ (s : State) (h : Fin 64) (n : BitVec 8),
    let d := s.cur.handle h.val
    (d.v = false ∨ d.slots + 1 < n.toNat → exec (.advC h n) s = .next (s.raise 0x08 0 0) ∧
      exec (.advP h n) s = .next (s.raise 0x08 0 0) ∧ exec (.hwaitC h n) s = .next (s.raise 0x08 0 0) ∧
      exec (.hwaitP h n) s = .next (s.raise 0x08 0 0)) ∧
    (d.v = true → n.toNat ≤ d.slots + 1 →
      (d.fill < n.toNat → exec (.advC h n) s = .next (s.raise 0x08 0 0) ∧
        exec (.hwaitC h n) s = .next (s.block (.handle h.val false n.toNat))) ∧
      (d.free < n.toNat → exec (.advP h n) s = .next (s.raise 0x08 0 0) ∧
        exec (.hwaitP h n) s = .next (s.block (.handle h.val true n.toNat))) ∧
      (n.toNat ≤ d.fill →
        (∃ t, exec (.hwaitC h n) s = .next t ∧ NoEffect s t) ∧
        ∃ t, exec (.advC h n) s = .next t ∧ (t.cur.handle h.val).fill = d.fill - n.toNat ∧
          (t.cur.handle h.val).free = d.free + n.toNat ∧ (∀ j, j ≠ h.val → t.cur.handle j = s.cur.handle j) ∧
          (∀ b, t.cur.buf b = s.cur.buf b ∧ t.cur.fullOf b = s.cur.fullOf b) ∧ KeepsRegs s t ∧ FallsThrough s t ∧
          { t with cores := s.cores, ctxs := s.ctxs } = s ∧ (∀ k, k ≠ s.now → t.core k = s.core k) ∧
          (∀ x, { t.ctx x with pins := (s.ctx x).pins } = s.ctx x ∧ (x ≠ s.x → t.ctx x = s.ctx x)) ∧
          ∀ p, p ∈ (t.ctx s.x).pins ↔ p ∈ (s.ctx s.x).pins ∧
            ¬(p.k = s.now ∧ p.h = h.val ∧ ∃ i, i < n.toNat ∧ p.slot = (d.cons + i) % (d.slots + 1))) ∧
      (n.toNat ≤ d.free →
        (∃ t, exec (.hwaitP h n) s = .next t ∧ NoEffect s t) ∧
        ∃ t, exec (.advP h n) s = .next t ∧ (t.cur.handle h.val).fill = d.fill + n.toNat ∧
          (t.cur.handle h.val).free = d.free - n.toNat ∧ (∀ j, j ≠ h.val → t.cur.handle j = s.cur.handle j) ∧
          (∀ b, t.cur.buf b = s.cur.buf b ∧ t.cur.fullOf b = s.cur.fullOf b) ∧ KeepsRegs s t ∧ OnlyCore s t ∧ FallsThrough s t))

/-! ## System registers -/

/-- System registers that the unprivileged view does not read: those with P fields (13 R376, R380, R381, 14 R405). -/
def Sys2Proof.Safety.privateToRead (n : Nat) : Bool := n ∈ [0x020, 0x022, 0x023, 0x024, 0x044, 0x045, 0x046]

/-- System registers that the unprivileged view does not write: those with a P or PW field (13 R376). -/
def Sys2Proof.Safety.privateToWrite (n : Nat) : Bool :=
  privateToRead n || n ∈ [0x001, 0x00A, 0x021, 0x042, 0x043, 0x048, 0x04C, 0x04D, 0x04E, 0x04F, 0x058, 0x059, 0x05A, 0x05B, 0x05C,
    0x05D, 0x05E, 0x05F]

/-- 13 R375 to R380, R382, 11 R312: `mfsy` of a register that the view may read writes its value to g[d] and changes nothing else; a
register of the privileged view is cause 0x14 to another firing, and a number that names none is cause 0x01. The values of sy.coord,
sy.ctx, sy.fire (of a firing of one of the 32 entries in one of the 8 configuration contexts), sy.aflags, sy.nflags and sy.datum
have their fields where the spec places them. -/
def Obligations.SystemRegisterReads : Prop :=
  ∀ (s : State) (d : Fin 32) (r : BitVec 12),
    (sysnoNamed r.toNat = true → (privateToRead r.toNat = false ∨ (s.ctx s.x).priv = true) →
      ∃ t v, s.sysRead r.toNat = some v ∧ exec (.mfsy d r) s = .next t ∧ (d ≠ 0 → t.g d = BitVec.ofNat 64 v) ∧ KeepsG s t d ∧
        (∀ q, t.p q = s.p q) ∧ KeepsQFJ s t ∧ OnlyRegs s t ∧ FallsThrough s t) ∧
    (privateToRead r.toNat = true → (s.ctx s.x).priv = false → exec (.mfsy d r) s = .next (s.raise 0x14 0 0)) ∧
    (sysnoNamed r.toNat = false → exec (.mfsy d r) s = .next (s.raise 0x01 0 0)) ∧
    (s.now < 1024 → ∃ v, s.sysRead 0x000 = some v ∧ v % 2 ^ 5 = s.now % 32 ∧ v / 2 ^ 5 % 2 ^ 5 = s.now / 32) ∧
    (∀ p, s.partOf s.now = some p → (s.ctx s.x).id < 2 ^ 16 → 0 < p.rect.w → p.rect.w ≤ 32 → 0 < p.rect.h → p.rect.h ≤ 32 →
      p.rect.x < 32 → p.rect.y < 32 →
      ∃ v, s.sysRead 0x001 = some v ∧ v % 2 ^ 16 = (s.ctx s.x).id ∧ (v / 2 ^ 16 % 2 = 1 ↔ (s.ctx s.x).priv = true) ∧
        v / 2 ^ 32 % 2 ^ 5 = p.rect.x ∧ v / 2 ^ 37 % 2 ^ 5 = p.rect.y ∧ v / 2 ^ 42 % 2 ^ 5 = p.rect.w - 1 ∧
        v / 2 ^ 47 % 2 ^ 5 = p.rect.h - 1) ∧
    (∃ v, s.sysRead 0x008 = some v ∧ (v / 8 % 2 = 1 ↔ s.fc.aflags.nv = true) ∧ (v / 4 % 2 = 1 ↔ s.fc.aflags.ov = true) ∧
      (v / 2 % 2 = 1 ↔ s.fc.aflags.uf = true) ∧ (v % 2 = 1 ↔ s.fc.aflags.nx = true) ∧ v < 16) ∧
    (∃ v, s.sysRead 0x009 = some v ∧ (v / 8 % 2 = 1 ↔ s.cur.nflags.nv = true) ∧ (v / 4 % 2 = 1 ↔ s.cur.nflags.ov = true) ∧
      (v / 2 % 2 = 1 ↔ s.cur.nflags.uf = true) ∧ (v % 2 = 1 ↔ s.cur.nflags.nx = true) ∧ v < 16) ∧
    (s.firing.entry < 32 → s.firing.cx < 8 → s.firing.tag < 2 ^ 16 →
      ∃ v, s.sysRead 0x002 = some v ∧ v % 2 ^ 16 = s.cur.run.val ∧ v / 2 ^ 16 % 2 ^ 8 = s.firing.entry ∧ v / 2 ^ 24 % 2 ^ 6 = s.firing.cx ∧
        (s.firing.kind = .point → v / 2 ^ 30 % 2 ^ 18 = 0 ∧ v / 2 ^ 48 = s.firing.tag) ∧
        (s.firing.kind = .task → v / 2 ^ 30 % 2 ^ 18 = 1 ∧ v / 2 ^ 48 = s.firing.tag) ∧
        (s.firing.kind = .message → v / 2 ^ 30 % 2 ^ 18 = 2 ∧ v / 2 ^ 48 = 0)) ∧
    ∃ v, s.sysRead 0x021 = some v ∧ v / 2 ^ 16 % 2 ^ 16 = (s.ctx s.x).gen % 2 ^ 16 ∧
      (v / 2 ^ 7 % 2 = 1 ↔ (s.ctx s.x).pend = true) ∧ (v / 2 ^ 6 % 2 = 1 ↔ (s.ctx s.x).req = true)

/-- 13 R375, R376, R382, 05 R150: `mtsy` by a view that may write completes and changes no general register, predicate or byte of
memory; an unprivileged write of a register with a P or PW field is cause 0x14 whatever the value, with the register unchanged; a
number that names none is cause 0x01, and a handle write that 05 R150 refuses cause 0x08. -/
def Sys2Proof.Safety.SystemRegisterWrites : Prop :=
  ∀ (s : State) (a : Fin 32) (r : BitVec 12),
    (sysnoNamed r.toNat = true → r.toNat < 0x100 → (privateToWrite r.toNat = false ∨ (s.ctx s.x).priv = true) →
      ∃ t, exec (.mtsy a r) s = .next t ∧ KeepsRegs s t ∧ (∀ l, t.byte l = s.byte l) ∧ FallsThrough s t ∧
        (∀ b, t.cur.buf b = s.cur.buf b ∧ t.cur.fullOf b = s.cur.fullOf b) ∧ t.dies = s.dies) ∧
    (privateToWrite r.toNat = true → (s.ctx s.x).priv = false → exec (.mtsy a r) s = .next (s.raise 0x14 0 0)) ∧
    (sysnoNamed r.toNat = false → exec (.mtsy a r) s = .next (s.raise 0x01 0 0)) ∧
    (0x100 ≤ r.toNat → r.toNat < 0x140 → s.handleBusy (r.toNat - 0x100) = true →
      exec (.mtsy a r) s = .next (s.raise 0x08 0 0)) ∧
    (0x100 ≤ r.toNat → r.toNat < 0x140 → s.handleBusy (r.toNat - 0x100) = false → (s.g a).toNat / 2 ^ 63 = 0 →
      ∃ t, exec (.mtsy a r) s = .next t ∧ (t.cur.handle (r.toNat - 0x100)).v = false ∧ KeepsRegs s t ∧ OnlyCore s t ∧
        FallsThrough s t)

/-- 11 R312, 13 R380, 14 R405, R406: what a privileged `mtsy` leaves in registers that later reads see: a flag register keeps only
flags written 1, sy.datum takes the hold time and a request, sy.clkdef takes a legal set and no other, sy.vfloor a value from 580 to
980, and sy.pcoef, sy.throttle and sy.guard what is written to their fields. Where the rules leave a choice, the clause is the
model's own (log 9, 17). -/
def Sys2Proof.Safety.SystemRegisterValues : Prop :=
  ∀ (s : State) (a : Fin 32), (s.ctx s.x).priv = true → (look s.ctxs s.x).isSome →
    let v := (s.g a).toNat
    let cl (t : State) : Cluster := t.cluster (clusterOf s.now)
    (∃ t, exec (.mtsy a 0x008) s = .next t ∧ t.fc.aflags.nv = (s.fc.aflags.nv && v.testBit 3) ∧
      t.fc.aflags.ov = (s.fc.aflags.ov && v.testBit 2) ∧ t.fc.aflags.uf = (s.fc.aflags.uf && v.testBit 1) ∧
      t.fc.aflags.nx = (s.fc.aflags.nx && v.testBit 0)) ∧
    (∃ t, exec (.mtsy a 0x009) s = .next t ∧ t.cur.nflags.nv = (s.cur.nflags.nv && v.testBit 3) ∧
      t.cur.nflags.nx = (s.cur.nflags.nx && v.testBit 0)) ∧
    (∃ t, exec (.mtsy a 0x021) s = .next t ∧ (t.ctx s.x).hold = v / 2 ^ 48 % 2 ^ 16 ∧
      (t.ctx s.x).req = ((s.ctx s.x).req || v.testBit 6) ∧ (t.ctx s.x).gen = (s.ctx s.x).gen) ∧
    (∃ t, exec (.mtsy a 0x042) s = .next t ∧
      (4 ≤ v % 256 ∧ v % 256 ≤ 20 ∧ 4 ≤ v / 2 ^ 8 % 256 ∧ v / 2 ^ 8 % 256 ≤ 24 ∧ 4 ≤ v / 2 ^ 16 % 256 ∧ v / 2 ^ 16 % 256 ≤ 20 ∧
        4 ≤ v / 2 ^ 24 % 256 ∧ v / 2 ^ 24 % 256 ≤ 16 → (cl t).clkdef = v % 2 ^ 32) ∧
      (v % 256 < 4 ∨ 20 < v % 256 ∨ v / 2 ^ 8 % 256 < 4 ∨ 24 < v / 2 ^ 8 % 256 ∨ v / 2 ^ 16 % 256 < 4 ∨ 20 < v / 2 ^ 16 % 256 ∨
        v / 2 ^ 24 % 256 < 4 ∨ 16 < v / 2 ^ 24 % 256 → cl t = cl s)) ∧
    (∃ t, exec (.mtsy a 0x043) s = .next t ∧ (580 ≤ v % 4096 ∧ v % 4096 ≤ 980 → (cl t).vfloor = v % 4096) ∧
      (v % 4096 < 580 ∨ 980 < v % 4096 → cl t = cl s)) ∧
    (∃ t, exec (.mtsy a 0x045) s = .next t ∧ (cl t).pcoef = s.g a) ∧
    (∃ t, exec (.mtsy a 0x046) s = .next t ∧ (cl t).throttleAmp = v / 2 ^ 16 % 2 ^ 16 ∧ (cl t).throttleTheta = v % 16) ∧
    ∃ t, exec (.mtsy a 0x023) s = .next t ∧ t.cur.guard = v % 2 ^ 32

/-- 05 R150, 13 R380, 14 R396, R406, R410: the writes of registers as events of their own: a handle descriptor is bound with all
slots free and its pointers at 0 or unbound, a datum is requested, a legal default set is taken, an event counter that is enabled
starts at 0, and a drain ends once every drained class has a positive rem. -/
def Sys2Proof.Safety.RegisterWriteEvents : Prop :=
  (∀ (s : State) (h : Fin 64) (v : Word) (d : Handle), s.bindHandle h.val v.toNat = some d →
    ∃ t, exec (.syHdWrite h v) s = .next t ∧ t.cur.handle h.val = d ∧ d.fill = 0 ∧ d.prod = 0 ∧ d.cons = 0 ∧
      (d.v = true ↔ v.toNat / 2 ^ 63 = 1) ∧ (d.v = true → d.free = v.toNat / 2 ^ 48 % 256 + 1) ∧
      ∀ j, j ≠ h.val → t.cur.handle j = s.cur.handle j) ∧
  (∀ (s : State) (x : Nat), (look s.ctxs x).isSome → ∃ t, exec (.syDatumReqWrite x) s = .next t ∧ (t.ctx x).req = true ∧
    (t.ctx x).gen = (s.ctx x).gen ∧ ∀ y, y ≠ x → t.ctx y = s.ctx y) ∧
  (∀ (s : State) (x : Nat) (n : Fin 8) (v : Word), (look s.ctxs x).isSome → (s.ctx x).quotas.length = 8 →
    ∃ t, exec (.syQuotaWrite x n v) s = .next t ∧ ((t.ctx x).quotas.getD n.val 0).toNat % 2 ^ 48 = v.toNat % 2 ^ 48 ∧
      (∀ m, m ≠ n.val → (t.ctx x).quotas.getD m 0 = (s.ctx x).quotas.getD m 0) ∧
      ((s.ctx x).drained = [n.val] → 0 < v.toNat % 2 ^ 48 → v.toNat % 2 ^ 48 < 2 ^ 47 → (t.ctx x).drained = []) ∧
      ((s.ctx x).drained = [n.val] → v.toNat % 2 ^ 48 = 0 → (t.ctx x).drained = [n.val])) ∧
  (∀ (s : State) (k : CoreId) (n : Fin 4) (v : Word),
    ∃ t, exec (.syEvselWrite k n v) s = .next t ∧ ((t.core k).counters.get n).en = v.toNat.testBit 8 ∧
      ((t.core k).counters.get n).tag = v.toNat.testBit 9 ∧
      (1 ≤ v.toNat % 256 → v.toNat % 256 ≤ 0x15 → ((t.core k).counters.get n).ev = v.toNat % 256) ∧
      (v.toNat.testBit 8 = true → ((s.core k).counters.get n).en = false → ((t.core k).counters.get n).count = 0) ∧
      (((s.core k).counters.get n).en = true → ((t.core k).counters.get n).count = ((s.core k).counters.get n).count) ∧
      ∀ m, m ≠ n → (t.core k).counters.get m = (s.core k).counters.get m) ∧
  ∀ (s : State) (cl : Nat) (m v n d : Nat), 4 ≤ m → m ≤ 20 → 4 ≤ v → v ≤ 24 → 4 ≤ n → n ≤ 20 → 4 ≤ d → d ≤ 16 →
    ∃ t, exec (.syClkdefWrite cl (BitVec.ofNat 64 (m + 256 * v + 65536 * n + 16777216 * d))) s = .next t ∧
      (t.cluster cl).clkdef = m + 256 * v + 65536 * n + 16777216 * d ∧ (t.cluster cl).set = (s.cluster cl).set ∧
      ∀ c, c ≠ cl → t.cluster c = s.cluster c

/-- 14 R413, R415: each `hint` sets its firing's hint and counts event 0x13 once on its core, and changes no register and no
byte. -/
def Sys2Proof.Safety.Hints : Prop :=
  ∀ (s : State) (i : Instr) (h : Hint), (i, h) ∈ [(.hintCompute, .compute), (.hintMemory, .memory), (.hintWait, .wait)] →
    ∃ t, exec i s = .next t ∧ t.fc.hint = some h ∧ KeepsRegs s t ∧ (∀ l, t.byte l = s.byte l) ∧ FallsThrough s t ∧
      (∀ n, ((s.cur.counters.get n).en && (s.cur.counters.get n).live && !(s.cur.counters.get n).tag &&
        (s.cur.counters.get n).ev = 0x13) = true →
        (t.cur.counters.get n).count = ((s.cur.counters.get n).count + 1) % 2 ^ 48) ∧
      ∀ k, k ≠ s.now → t.core k = s.core k

/-! ## Firing contexts: the end of a firing, turns, waking, selection -/

/-- Registers, pc, loop stack and stored lines of a firing context are as they were. -/
def Sys2Proof.Safety.SameRegs (f g : FiringCtx) : Prop :=
  g.g = f.g ∧ g.p = f.p ∧ g.q = f.q ∧ g.f = f.f ∧ g.j = f.j ∧ g.pc = f.pc ∧ g.loops = f.loops ∧ g.sb = f.sb ∧ g.pub = f.pub

/-- Every firing context of the package keeps its registers. -/
def Sys2Proof.Safety.AllRegs (s t : State) : Prop := ∀ k n, SameRegs ((s.core k).fc n) ((t.core k).fc n)

/-- Every byte of the package's stacks and of host memory is as it was. -/
def Sys2Proof.Safety.Bytes (s t : State) : Prop := ∀ l, t.byte l = s.byte l

/-- From s to t the running context of core k goes behind the next ready one, if there is another (03 R63). -/
def Sys2Proof.Safety.GivesWay (k : CoreId) (s t : State) : Prop :=
  let c := s.core k
  let d := t.core k
  (∀ m, c.nextReady c.run = some m → m ≠ c.run → d.run = m ∧ d.fc m = { c.fc m with status := .running, issued := 0 } ∧
    d.fc c.run = { c.fc c.run with status := .ready, issued := 0, half := none } ∧ ∀ n, n ≠ m → n ≠ c.run → d.fc n = c.fc n) ∧
  ((∀ m, m ≠ c.run → (c.fc m).isReady = false) → d = c) ∧ (∀ j, j ≠ k → t.core j = s.core j) ∧ { t with cores := s.cores } = s

/-- 03 R83, R63, 04 R117, R129: `done` publishes, releases the firing's messages, ends the firing and frees its context; `yield`
completes and the context goes behind the ready ones; and so does, between two words, a context that has issued 256 while others
were ready. Where the rules leave a choice, the clause is the model's own (log 10). -/
def Obligations.FiringsEndAndGiveWay : Prop :=
  (∀ s : State, PublishesFirst .done s) ∧
  (∀ s : State, Published s → (look s.ctxs s.x).isSome → (look (s.ctx s.x).firings s.fid).isSome →
    ∃ t, exec .done s = .next t ∧ (t.cur.fc s.cur.run).status = .free ∧ ((t.ctx s.x).firing s.fid).ended = true ∧
      ((t.ctx s.x).firing s.fid).msgs = [] ∧ ((t.ctx s.x).firing s.fid).resv = [] ∧
      t.cur.outbound = s.cur.outbound ++ (s.firing.msgs.filter fun m => m.remote = false) ∧
      (t.ctx s.x).heldMsgs = (s.ctx s.x).heldMsgs ++ (s.firing.msgs.filter fun m => m.remote = true) ∧ Bytes s t ∧
      ∀ k n, (k ≠ s.now ∨ n ≠ s.cur.run) → SameRegs ((s.core k).fc n) ((t.core k).fc n)) ∧
  (∀ s : State, ∃ u t : State, exec .yield s = .next t ∧ FallsThrough s u ∧ KeepsRegs s u ∧ OnlyRegs s u ∧ GivesWay s.now u t) ∧
  ∀ (s : State) (k : CoreId), ((s.core k).fc (s.core k).run).status = .running → 256 ≤ ((s.core k).fc (s.core k).run).issued →
    ∃ t, exec (.quantumExpiry k) s = .next t ∧ GivesWay k s t

/-- 03 R62, R94: a blocked context whose condition is met is ready again, or runs where no other context of its core does, at its
blocking word and with its registers; one whose pail has failed ends with cause 0x11, and stops where it stands. 03 R88, R89: a
context that waits to read a granule which is full, none having waited there longer, performs its load in the same step. 04 R114,
R115, R116: a selection starts a firing in a free context of the core, at the entry's address, with its window in g1 and its
coordinates in g2, an empty loop stack and clear flags, and the entry's reservations; selections take the longest eligible entry and
the one of highest priority by turns. Where the rules leave a choice, the clause is the model's own (log 14, 18, 19, 20, 31). -/
def Obligations.WakingAndSelecting : Prop :=
  (∀ (s : State) (k : CoreId) (n : Fin 8) (w : WaitFor), ((s.core k).fc n).status = .blocked w → ((s.core k).fc n).stopped = false →
    s.wakes k n w = true → (∀ b g q i, w ≠ .full b g q i) → (∀ i g, w = .pail i g → (s.pail (s.cxId k) i).state ≠ 2) →
    ∃ t, exec (.firingContextWake k n.val) s = .next t ∧ AllRegs s t ∧
      ((∀ l b, w = .line l b ∨ w = .code l → SliceHasRoom s (s.cxId k) l) → Bytes s t) ∧
      (((t.core k).fc n).status = .ready ∨ ((t.core k).fc n).status = .running ∧ (t.core k).run = n)) ∧
  (∀ (s : State) (k : CoreId) (n : Fin 8) (i g : Nat), ((s.core k).fc n).status = .blocked (.pail i g) →
    ((s.core k).fc n).stopped = false → (s.pail (s.cxId k) i).state = 2 →
    exec (.firingContextWake k n.val) s = .next (s.quietAt k n 0x11 i)) ∧
  (∀ (s : State) (k : CoreId) (n : Fin 8) (d a : Fin 32) (x : BitVec 2) (o : BitVec 12) (b : Buf) (take : Bool),
    let c := s.core k
    let f := c.fc n
    let ea := (if a = 0 then 0 else f.g.get a).toNat + 8 * o.toNat
    let i : Instr := if take then .ldbFe d a x o else .ldbPk d a x o
    f.status = .blocked (.full b.num (ea / 16) take i) → f.stopped = false → Buf.of x.toNat = some b → ea % 8 = 0 → ea < b.size →
    c.bankOpen b ea c.cx = true → c.full b (ea / 16) = true → f.loops = [] →
    (∀ m h q j, m ≠ n → (c.fc m).status ≠ .blocked (.full b.num h q j)) →
    ∃ t, exec (.firingContextWake k n.val) s = .next t ∧ Bytes s t ∧
      (((t.core k).fc n).status = .ready ∨ ((t.core k).fc n).status = .running ∧ (t.core k).run = n) ∧
      ((t.core k).fc n).pc = f.pc + 4 ∧ (d ≠ 0 → ((t.core k).fc n).g.get d = BitVec.ofNat 64 (leNat (c.bufBytes b ea 8))) ∧
      (∀ r, r ≠ d → ((t.core k).fc n).g.get r = f.g.get r) ∧ ((t.core k).fc n).p = f.p ∧
      (t.core k).full b (ea / 16) = !take ∧ (∀ y, (t.core k).buf y = c.buf y) ∧
      ∀ j m, (j ≠ k ∨ m ≠ n) → SameRegs ((s.core j).fc m) ((t.core j).fc m)) ∧
  (∀ (s : State) (k : CoreId) (n : Nat), s.selected k = some n → (s.core k).freeFcs ≠ [] → s.selecting k = true →
    (∀ e ∈ (s.ctx (s.cxId k)).firings, e.1 < (s.ctx (s.cxId k)).nextFid) →
    let x := s.cxId k
    let h := (s.ctx x).handler n
    ∃ t m, exec (.firingSelection k) s = .next t ∧ m ∈ (s.core k).freeFcs ∧
      (((t.core k).fc m).status = .ready ∨ ((t.core k).fc m).status = .running ∧ (t.core k).run = m) ∧
      ((t.core k).fc m).pc = h.entry ∧ ((t.core k).fc m).g.get 1 = (s.core k).window m ∧ ((t.core k).fc m).loops = [] ∧
      ((t.core k).fc m).sb = [] ∧ ((t.core k).fc m).aflags = ⟨false, false, false, false⟩ ∧
      ((t.core k).fc m).fid = (s.ctx x).nextFid ∧
      (let r := (t.ctx x).firing (s.ctx x).nextFid;
        r.entry = n ∧ r.resv = h.outs ∧ r.words = (s.consumeWords k n).1 ∧ r.k = k ∧ r.fc = m.val ∧ r.ended = false ∧
        ((t.core k).fc m).g.get 2 = if r.kind = .message then 0 else r.coords) ∧
      (t.core k).selections = (s.core k).selections + 1 ∧
      (2 ≤ h.inCh → ∀ ws, look (s.core k).chans h.inCh = some ws →
        (s.consumeWords k n).1 = ws.take h.rate ∧ look (t.core k).chans h.inCh = some (ws.drop h.rate)) ∧
      ∀ j q, (j ≠ k ∨ q ≠ m) → SameRegs ((s.core j).fc q) ((t.core j).fc q)) ∧
  ∀ (s : State) (k : CoreId), (s.core k).eligible ≠ [] →
    ((s.core k).selections % 2 = 0 → s.selected k = (s.core k).eligible.head?) ∧
    ((s.core k).selections % 2 = 1 → ∃ n, s.selected k = some n ∧ n ∈ (s.core k).eligible ∧
      ∀ m ∈ (s.core k).eligible, ((s.ctx (s.cxId k)).handler m).pri ≤ ((s.ctx (s.cxId k)).handler n).pri)

/-! ## Points, heights, tasks, leases -/

/-- 04 R105, R103, R104, R107, 05 R149: a fireable point whose lease is granted joins its actor's queue with its coordinates, once;
its retirement makes its versions current, ends its lease and raises its height by one, and the launch retires when every height
stands at the sweep's extent and no task of it is left; a height reaches the copy of another die; and a port's counts of a window
leave it for its die's heat table. Where the rules leave a choice, the clause is the model's own (log 29). -/
def Obligations.PointsAndHeights : Prop :=
  (∀ (s : State) (x tag idx : Nat) (l : Launch),
    let b := l.block
    let k := b.coreOf (b.coords idx 0) (s.ctx x).podSize
    (s.ctx x).launch tag = some l → s.dispatching x = true → (s.ctx x).preempted = false → idx ∈ l.leased →
    s.fireable x l idx = true → s.masked k b.cfg b.actor = false → s.pointTurn x l idx = true →
    ((s.core k).waiting0 b.cfg b.actor).length < 64 →
    ∃ t seq, exec (.pointDelivery x tag idx) s = .next t ∧ AllRegs s t ∧ Bytes s t ∧
      (t.core k).points = (s.core k).points ++ [⟨b.cfg, b.actor, [packCoords (b.coords idx (nth l.heights idx 0))], tag, idx, seq, false⟩] ∧
      ∃ m, (t.ctx x).launch tag = some m ∧ m.heights = l.heights ∧ t.fireable x m idx = false) ∧
  (∀ (s : State) (x fid : Nat) (l : Launch),
    let f := (s.ctx x).firing fid
    f.kind = .point → s.dispatching x = true → s.firingDone x fid = true → (s.ctx x).launch f.tag = some l →
    ∃ t, exec (.pointRetirement x fid) s = .next t ∧ AllRegs s t ∧ Bytes s t ∧
      (let g := (t.ctx x).firing fid;
        g.retired = true ∧ g.writes = [] ∧ g.lease = []) ∧ (∀ p ∈ (t.ctx x).pins, p.fid ≠ fid) ∧
      (let hs := updNth l.heights f.idx (· + 1);
        if (∀ h ∈ hs, h = l.block.es) ∧ ∀ a ∈ s.tasksOf x, a.tag ≠ f.tag then (t.ctx x).launch f.tag = none ∧ (t.ctx x).wantDatum = true
        else ∃ m, (t.ctx x).launch f.tag = some m ∧ m.heights = hs)) ∧
  (∀ (s : State) (x tag die idx : Nat) (l : Launch), (s.ctx x).launch tag = some l → s.dispatching x = true → die < 32 →
    idx < l.block.cross → (s.ctx x).placedHere l.block (l.block.coords idx 0) = true →
    ∃ t, exec (.heightCopyUpdate x tag die idx) s = .next t ∧ look (t.die die).copies (x, tag, idx) = some (nth l.heights idx 0) ∧
      AllRegs s t ∧ Bytes s t ∧ ∀ d, d ≠ die → t.die d = s.die d) ∧
  ∀ (s : State) (k : CoreId) (port : Nat), ∃ t, exec (.heatWindow k port) s = .next t ∧ AllRegs s t ∧ Bytes s t ∧
    (∀ e ∈ (t.core k).heat, e.1.1 ≠ port) ∧ (∀ e ∈ (s.core k).heat, e.1.1 ≠ port → e ∈ (t.core k).heat) ∧
    ∀ e, (s.core k).heat.filter (fun e => e.1.1 = port) = [e] → (∀ h ∈ (s.die (dieOf k)).heat, h.1 ≠ (e.1.2.1, e.1.2.2)) →
      (s.die (dieOf k)).heat.length < 255 → ∃ w, w ≤ 65536 ∧ look (t.die (dieOf k)).heat (e.1.2.1, e.1.2.2) = some (e.2, w)

/-- 04 R118, R120, R122, R123, 11 R301: a task at the head of its queue, with its lease and after the tasks that it reads from,
joins its entry's queue on a core of its inset; its retirement takes it out of the schedulers and touches its parent; a lease whose
plates are all resident is granted to a point, a task or a `lease` command. Where the rules leave a choice, the clause is the
model's own (log 26, 30). -/
def Obligations.TasksAndLeases : Prop :=
  (∀ (s : State) (x seq : Nat) (k : CoreId) (r : TaskRec) (l : Launch),
    let f := taskFields r.bytes
    s.taskHead x seq = some r → (s.ctx x).launch r.tag = some l → s.dispatching x = true → r.leased = true →
    rectHas ⟨l.block.sheet.x + f.ix, l.block.sheet.y + f.iy, 2 ^ f.lw, 2 ^ f.lh⟩ k = true → (s.core k).resident f.cx = true →
    (s.core k).freeFcs ≠ [] → (∀ a ∈ s.tasksOf x, a.seq < seq → feeds a r = false) → (s.ctx x).ninthVersion f = false →
    ((s.core k).waiting0 f.cx f.entry).length < 8 →
    ∃ t, exec (.taskPlacement x seq k) s = .next t ∧ AllRegs s t ∧ Bytes s t ∧
      (t.core k).points = (s.core k).points ++ [⟨f.cx, f.entry, bytesWords r.bytes, r.tag, r.idx, seq, true⟩] ∧
      ∀ a ∈ t.tasksOf x, a.seq = seq → a.queued = false) ∧
  (∀ (s : State) (x fid : Nat), ((s.ctx x).firing fid).kind = .task → s.dispatching x = true → s.firingDone x fid = true →
    ∃ t, exec (.taskRetirement x fid) s = .next t ∧ AllRegs s t ∧ Bytes s t ∧ ((t.ctx x).firing fid).retired = true ∧
      (∀ a ∈ t.tasksOf x, a.seq ≠ ((s.ctx x).firing fid).seq) ∧
      ∀ a ∈ s.tasksOf x, a.seq ≠ ((s.ctx x).firing fid).seq → a ∈ t.tasksOf x) ∧
  (∀ (s : State) (x tag idx : Nat) (l : Launch), (s.ctx x).launch tag = some l → idx ∉ l.leased → idx < l.block.cross →
    nth l.heights idx 0 < l.block.es →
    (∀ p ∈ (s.ctx x).pointPlates l.block (l.block.coords idx (nth l.heights idx 0)) ++ (s.ctx x).extraPlates (.point tag idx),
      (s.ctx x).leasable p = true) →
    ∃ t m, exec (.leaseGrant x (.point tag idx)) s = .next t ∧ (t.ctx x).launch tag = some m ∧ idx ∈ m.leased ∧
      m.heights = l.heights ∧ t.cores = s.cores ∧ Bytes s t) ∧
  (∀ (s : State) (x : Nat) (r : TaskRec), r ∈ s.tasksOf x → (∀ a ∈ s.tasksOf x, a.seq = r.seq → a = r) → r.queued = true →
    r.leased = false → (∀ p ∈ (s.ctx x).taskPlates r.bytes ++ (s.ctx x).extraPlates (.task r.seq), (s.ctx x).leasable p = true) →
    ∃ t, exec (.leaseGrant x (.task r.seq)) s = .next t ∧ { r with leased := true } ∈ t.tasksOf x ∧
      (∀ a ∈ s.tasksOf x, a.seq ≠ r.seq → a ∈ t.tasksOf x) ∧ t.cores = s.cores ∧ t.ctxs = s.ctxs ∧ Bytes s t) ∧
  ∀ (s : State) (x id : Nat) (k : CoreId) (e : CmdEntry), (s.core k).cmdEntry id = some e → opOf e.word = 0x30 → e.stage = .running →
    s.cxId k = x → (look s.ctxs x).isSome → (look (s.ctx x).firings e.fid).isSome →
    (∀ p ∈ (s.ctx x).leaseRect e, (s.ctx x).leasable p = true) →
    ∃ t, exec (.leaseGrant x (.command k id)) s = .next t ∧ t.cores = s.cores ∧ Bytes s t ∧
      ∀ p, p ∈ ((t.ctx x).firing e.fid).lease ↔ p ∈ ((s.ctx x).firing e.fid).lease ∨ p ∈ (s.ctx x).leaseRect e

/-! ## Halts -/

/-- Bytes of the stacks outside n bytes from a on, and host memory, are as they were. -/
def Sys2Proof.Safety.BytesBut (s t : State) (a n : Nat) : Prop :=
  ∀ l : Loc, (l.onHost = true ∨ l.addr < a ∨ a + n ≤ l.addr) → t.byte l = s.byte l

/-- 13 R345, R346, R350 to R354, 04 R110: a unit under a halt stops where it is and writes the 64 bytes of its record and no others;
with all sixteen written a core reports once to its slot, where a report not yet taken gains the overflow mark alone; firmware
raises a partition's halt line, which takes the next number and the clocks as they stand; a failing die is dead from then on; and a
management word joins ch31 where an entry takes it, and waits while its queue is full. Where the rules leave a choice, the clause is
the model's own (log 25, 32, 46, 49). -/
def Obligations.HaltAndItsRecords : Prop :=
  (∀ (s : State) (k : CoreId) (r : Fin 8), s.halted k = true → r.val ∉ (s.core k).records →
    ∃ t, exec (.unitStop (.core k ⟨r.val, by omega⟩)) s = .next t ∧ ((t.core k).fc r).stopped = true ∧ r.val ∈ (t.core k).records ∧
      AllRegs s t ∧ BytesBut s t (s.recordLoc k r.val).addr 64 ∧
      (s.hbm.wf = true → ((s.core k).fc r).status ≠ .free →
        leNat (t.bytesAt ((s.recordLoc k r.val).plus 0x18) 8) = ((s.core k).fc r).pc.toNat ∧
        leNat (t.bytesAt ((s.recordLoc k r.val).plus 2) 2) = 0 ∧ t.byte (s.recordLoc k r.val) = 1)) ∧
  (∀ (s : State) (k : CoreId) (r : Fin 16), 8 ≤ r.val → s.halted k = true → r.val ∉ (s.core k).records →
    (r.val = 9 → (s.core k).arrayAtCut = true) →
    ∃ t, exec (.unitStop (.core k r)) s = .next t ∧ r.val ∈ (t.core k).records ∧ AllRegs s t ∧
      BytesBut s t (s.recordLoc k r.val).addr 64) ∧
  (∀ (s : State) (d : Nat) (r : Fin 2), s.haltedOn d ≠ [] →
    ∃ t, exec (.unitStop (.die d r)) s = .next t ∧ t.cores = s.cores ∧ ∀ p ∈ s.haltedOn d, (p.1.id, r.val) ∈ (t.die d).records) ∧
  (∀ (s : State) (k : CoreId) (m : Mailbox), s.halted k = true → (∀ r, r < 16 → r ∈ (s.core k).records) → (s.core k).reported = false →
    (s.cluster (clusterOf k)).slots[slotOf k]? = some m →
    ∃ t n, exec (.mailboxReport k) s = .next t ∧ (t.core k).reported = true ∧ AllRegs s t ∧ Bytes s t ∧
      (t.cluster (clusterOf k)).slots[slotOf k]? = some n ∧
      (m.valid = true → n = { m with overflow := true }) ∧
      (m.valid = false → n.valid = true ∧ n.overflow = false ∧ n.addr = (s.recordLoc k 0).addr ∧
        n.mask = ((s.core k).origins.map fun o => 2 ^ o.1).sum)) ∧
  (∀ (s : State) (n : Nat) (p : Partition), s.part n = some p → s.partOf (p.rect.y * 32 + p.rect.x) = some p → p.halt = false →
    ∃ t clocks, exec (.firmwareHaltRequest n) s = .next t ∧
      t.part n = some { p with halt := true, haltNum := p.haltNum + 1, haltClocks := clocks } ∧
      (∀ c ∈ clocks, ∃ e ∈ s.clusters, c = (e.1, e.2.set, e.2.target.isSome)) ∧ AllRegs s t ∧ Bytes s t) ∧
  (∀ (s : State) (d : Nat), d < 32 → (s.die d).alive = true →
    ∃ t, exec (.dieFailure d) s = .next t ∧ (t.die d).alive = false ∧ AllRegs s t ∧ Bytes s t ∧
      ∀ e, e ≠ d → (t.die e).alive = (s.die e).alive) ∧
  ∀ (s : State) (k : CoreId) (w : Word), (w.toNat / 2 ^ 56 ∈ [1, 2, 3] ∨ 128 ≤ w.toNat / 2 ^ 56) →
    (s.ctx (s.cxId k)).entryOn 31 = true → s.mgmt = [] →
    ((s.core k).chanRoom 31 = 0 → exec (.managementMessage k w) s = .next { s with mgmt := [(k, w)] }) ∧
    (0 < (s.core k).chanRoom 31 → ∃ t, exec (.managementMessage k w) s = .next t ∧ look (t.core k).chans 31 = some ((look (s.core k).chans 31).getD [] ++ [w]) ∧
      AllRegs s t ∧ Bytes s t ∧ (∀ ch, ch ≠ 31 → look (t.core k).chans ch = look (s.core k).chans ch) ∧
      t.mgmt = [] ∧ ∀ j, j ≠ k → t.core j = s.core j)

/-- 13 R355, R356, R365, R368: a resume, where it is allowed, lowers the halt line and lets every context go on; where no firing is
replayed each goes on with its registers at its pc. A rollback of a halted context returns launches, counter, undone lines and pails
to the datum, ends every firing, and lowers the halt line; without a halt it raises one; an immediate external write bars it. Where
the rules leave a choice, the clause is the model's own (log 33, 65, 67). -/
def Obligations.ResumeAndRollback : Prop :=
  (∀ (s : State) (x : Nat) (p : Partition), s.ctxPart x = some p → s.mayResume p x = true →
    ∃ t, exec (.resume x) s = .next t ∧ (∀ q ∈ t.parts, q.id = p.id → q.halt = false) ∧
      (∀ k n, rectHas p.rect k = true → ((t.core k).fc n).stopped = false) ∧
      (∀ k, rectHas p.rect k = true → (t.core k).records = [] ∧ (t.core k).origins = []) ∧
      (s.replays p = [] → AllRegs s t ∧ Bytes s t)) ∧
  (∀ (s : State) (x : Nat) (p : Partition), s.ctxPart x = some p → s.mayResume p x = false → exec (.resume x) s = .next s) ∧
  ∀ (s : State) (x : Nat) (p : Partition) (d : Datum), s.ctxPart x = some p → (s.ctx x).datum = some d →
    ((s.ctx x).imm = true → exec (.rollback x) s = .next s) ∧
    ((s.ctx x).imm = false → p.halt = false → exec (.rollback x) s = .next (s.raisePart p)) ∧
    ((s.ctx x).imm = false → p.halt = true → s.allStopped p = true → (s.ctx x).gen ≠ 0 →
      ∃ t, exec (.rollback x) s = .next t ∧ (∀ q ∈ t.parts, q.id = p.id → q.halt = false) ∧
        ((t.ctx x).launches.map fun l => (l.block, l.heights)) = (d.launches.map fun l => (l.block, l.heights)) ∧
        (t.ctx x).counter = d.counter ∧ (t.ctx x).firings = [] ∧ (t.ctx x).undo = [] ∧ (t.ctx x).held = [] ∧
        (t.ctx x).heldMsgs = [] ∧ t.tasksOf x = [] ∧ (∀ e ∈ d.cores, ∀ n, ((t.core e.k).fc n).status = .free) ∧
        (s.hbm.wf = true → d.pails.length = 4096 → t.bytesAt ⟨false, (s.ctx x).pailPa⟩ 4096 = d.pails) ∧
        (s.hbm.wf = true → (∀ m bs, Undo.line m bs ∈ (s.ctx x).undo → bs.length = 64) →
          ∀ n bs, Undo.line n bs ∈ (s.ctx x).undo → (∀ bs', Undo.line n bs' ∈ (s.ctx x).undo → bs' = bs) →
            (n * 64 + 64 ≤ (s.ctx x).pailPa ∨ (s.ctx x).pailPa + d.pails.length ≤ n * 64) → t.bytesAt ⟨false, n * 64⟩ 64 = bs))

/-! ## Datums and saves -/

/-- 13 R361, R362, R363, R366, R371: a wanted datum, or a checkpoint's once its context has drained, is cut on a running partition,
with the heights, counter and pails of that moment, and ends every phase; it commits once the commands issued before it have
completed, and then what was held before the cut is external; external output held for the hold time wants one. Where the rules
leave a choice, the clause is the model's own (log 43, 67, 98). -/
def Obligations.DatumsAreCutAndCommitted : Prop :=
  (∀ (s : State) (x : Nat) (p : Partition), s.ctxPart x = some p → p.halt = false → (s.ctx x).pending = none →
    ((s.ctx x).wantDatum = true ∨ (s.ctx x).req = true ∨
      (s.ctx x).checkpoint = true ∧ (s.ctx x).inFlight = [] ∧ s.tasksOf x = []) →
    ∃ t d, exec (.datumCut x) s = .next t ∧ AllRegs s t ∧ Bytes s t ∧ (t.ctx x).pending = some d ∧ (t.ctx x).pend = true ∧
      (t.ctx x).wantDatum = false ∧ d.launches = (s.ctx x).launches ∧ d.counter = (s.ctx x).counter ∧ d.epoch = (t.ctx x).epoch ∧
      d.pails = s.bytesAt ⟨false, (s.ctx x).pailPa⟩ 4096 ∧ (∀ h ∈ (t.ctx x).held, h.cut = true) ∧
      (t.ctx x).undoMark = (t.ctx x).undo.length ∧ (t.ctx x).msgMark = (t.ctx x).heldMsgs.length ∧
      (∀ f ∈ (s.ctx x).inFlight, ((t.ctx x).firing f).writes = []) ∧
      ∀ k, rectHas p.rect k = true → ∀ e ∈ (t.core k).cmds, opOf e.word ≠ 0x39 → e.beforeCut = true) ∧
  (∀ (s : State) (x : Nat) (p : Partition) (d : Datum), s.ctxPart x = some p → (s.ctx x).pending = some d → p.halt = false →
    s.beforeCut p.rect = false →
    ∃ t, exec (.datumCommit x) s = .next t ∧ AllRegs s t ∧ (t.ctx x).datum = some d ∧ (t.ctx x).pending = none ∧
      (t.ctx x).wantDatum = false ∧ (t.ctx x).req = false ∧ (t.ctx x).gen = (s.ctx x).gen + 1 ∧ (t.ctx x).pend = false ∧ (t.ctx x).imm = false ∧ (∀ h ∈ (t.ctx x).held, h.cut = false) ∧
      (∀ h ∈ (s.ctx x).held, h.cut = false → h ∈ (t.ctx x).held) ∧ (t.ctx x).undo = (s.ctx x).undo.drop (s.ctx x).undoMark ∧
      (t.ctx x).heldMsgs = (s.ctx x).heldMsgs.drop (s.ctx x).msgMark ∧
      (t.ctx x).launches.map (fun l => (l.block, l.heights)) = (s.ctx x).launches.map (fun l => (l.block, l.heights)) ∧
      (d.launches = [] → d.images = [] → (∀ h ∈ (s.ctx x).held, h.cut = false) → Bytes s t)) ∧
  ∀ (s : State) (x : Nat), (look s.ctxs x).isSome → (s.ctx x).hold ≠ 0 → ((s.ctx x).held ≠ [] ∨ (s.ctx x).heldMsgs ≠ []) →
    ∃ t, exec (.datumHoldExpiry x) s = .next t ∧ t.ctx x = { s.ctx x with wantDatum := true } ∧ t.cores = s.cores ∧ Bytes s t ∧
      ∀ y, y ≠ x → t.ctx y = s.ctx y

/-- 13 R355, R359, R370 to R373: a pre-emption holds delivery and asks for a datum where a launch is checkpointed; a context with
nothing in flight, or under a halt with every unit stopped, is saved core by core and leaves its partition; a context that ends is
gone; and a restore, where each cluster has its spares, returns each core's saved handles, W's emptied, channels and masks to the
same rectangle; after a halt save with every firing in flight to be replayed, with an error or a touched one among them a rollback,
or a halt where one is barred. Where the rules leave a choice, the clause is the model's own (log 65, 66, 68). -/
def Obligations.ContextsAreSavedAndRestored : Prop :=
  (∀ (s : State) (x y : Nat) (p : Partition), s.ctxPart x = some p → p.halt = false → (s.ctx x).pending = none →
    (s.ctx x).preempted = false → x ≠ y → (look s.ctxs y).isSome → (s.ctx y).part = p.id →
    ∃ t, exec (.preemption x y) s = .next t ∧ (t.ctx x).preempted = true ∧
      ((∃ l ∈ (s.ctx x).launches, l.choice (s.ctx y).tok = .checkpoint) → (t.ctx x).checkpoint = true) ∧ Bytes s t ∧
      ((∀ l ∈ (s.ctx x).launches, l.choice (s.ctx y).tok = .drain) → AllRegs s t)) ∧
  (∀ (s : State) (x : Nat) (p : Partition), s.ctxPart x = some p → p.halt = false → (s.ctx x).preempted = true →
    (s.ctx x).pending = none → (s.ctx x).wantDatum = false → (s.ctx x).checkpoint = false → (s.ctx x).req = false → s.quiet x p.rect = true →
    ∃ t, exec (.switchSave x) s = .next t ∧ (t.ctx x).saved = s.coreSaves p ∧ (t.ctx x).haltSaved = false ∧
      (∀ q ∈ t.parts, q.id = p.id → q.ctx = none ∧ q.halt = false) ∧ Bytes s t) ∧
  (∀ (s : State) (x : Nat) (p : Partition), s.ctxPart x = some p → s.allStopped p = true →
    ∃ t, exec (.haltSave x) s = .next t ∧ (t.ctx x).saved = s.coreSaves p ∧ (t.ctx x).haltSaved = true ∧
      (t.ctx x).haltCodes = s.originCodes p ∧
      (∀ q ∈ t.parts, q.id = p.id → q.ctx = none ∧ q.halt = false) ∧ Bytes s t) ∧
  (∀ (s : State) (x : Nat), ((∃ p, s.ctxPart x = some p ∧ s.allStopped p = true) ∨ s.ctxPart x = none ∧ (s.ctx x).saved ≠ []) →
    ∃ t, exec (.contextEnd x) s = .next t ∧ look t.ctxs x = none ∧ (∀ y, y ≠ x → look t.ctxs y = look s.ctxs y) ∧
      t.tasksOf x = [] ∧ Notice.contextEnded x (s.ctx x).imm ∈ t.notices ∧ Bytes s t) ∧
  ∀ (s : State) (x : Nat) (p : Partition), s.part (s.ctx x).part = some p → p.ctx = none → (s.ctx x).saved ≠ [] →
    ((s.ctx x).saved.map fun v => v.k) = rectCores p.rect → (rectCores p.rect).Nodup →
    (∀ k ∈ rectCores p.rect, Notice.noSpare (clusterOf k) ∉ s.notices) →
    let flying := ((s.ctx x).firings.filter fun e => !e.2.retired).map fun e => e.1
    let replayable := (∀ f ∈ flying, ((s.ctx x).firing f).touched = false) ∧ (s.ctx x).collsAgree flying = true ∧
      ∀ c ∈ (s.ctx x).haltCodes, c ∉ [0x15, 0x24, 0x51, 0x59]
    ((s.ctx x).haltSaved = false →
      ∃ t, exec (.contextRestore x []) s = .next t ∧ t.part (s.ctx x).part = some { p with ctx := some x, halt := false } ∧
        (t.ctx x).saved = [] ∧ Bytes s t ∧
        ∀ v ∈ (s.ctx x).saved, (t.core v.k).chans = v.core.chans ∧ (t.core v.k).masks = v.core.masks ∧
          (t.core v.k).handles = (v.core.handles.map fun h =>
            (h.1, if h.2.buf = 0 then { h.2 with fill := 0, free := h.2.slots + 1, prod := 0, cons := 0 } else h.2)) ∧
          (t.core v.k).outbound = v.core.outbound ∧ (t.core v.k).points = v.core.points ∧ (t.core v.k).cx = v.core.cx ∧
          ∀ n, SameRegs ((s.core v.k).fc n) ((t.core v.k).fc n)) ∧
    ((s.ctx x).haltSaved = true → replayable → ∃ t, exec (.contextRestore x []) s = .next t ∧
      t.part (s.ctx x).part = some { p with ctx := some x, halt := false, haltClocks := [] } ∧ (t.ctx x).saved = [] ∧ Bytes s t ∧
      ∀ f ∈ flying, ((t.ctx x).firing f).ended = true ∧ ((t.ctx x).firing f).cause = some 0) ∧
    ((s.ctx x).haltSaved = true → ¬replayable → (s.ctx x).imm = true ∨ (s.ctx x).datum = none →
      ∃ t q, exec (.contextRestore x []) s = .next t ∧ t.part (s.ctx x).part = some q ∧ q.ctx = some x ∧ (t.ctx x).saved = [] ∧
        (s.partOf (p.rect.y * 32 + p.rect.x) = some p → q.halt = true)) ∧
    ∀ d, (s.ctx x).haltSaved = true → ¬replayable → (s.ctx x).imm = false → (s.ctx x).datum = some d → (s.ctx x).gen ≠ 0 →
      ∃ t q, exec (.contextRestore x []) s = .next t ∧ t.part (s.ctx x).part = some q ∧ q.ctx = some x ∧ q.halt = false ∧
        ((t.ctx x).launches.map fun l => (l.block, l.heights)) = (d.launches.map fun l => (l.block, l.heights)) ∧
        (t.ctx x).counter = d.counter ∧ (t.ctx x).firings = []

/-! ## Stream commands at work -/

/-- e is the acting core's oldest running command with this opcode and these fields, its unit has not stopped, and numbers of
commands differ. -/
structure Sys2Proof.Safety.AtWork (s : State) (op : Nat) (c : Cmd) (e : CmdEntry) : Prop where
  found : s.cur.cmds.find? (fun d => d.stage = .running && d.word.toNat = cmdWord op c) = some e
  unit : s.cur.unitStopped op = false
  ids : (s.cur.cmds.map fun d => d.id).Nodup

/-- From s to t a command becomes d, memory is as it was, and every firing context keeps its registers. -/
def Sys2Proof.Safety.Becomes (s t : State) (d : CmdEntry) : Prop := t.cur.cmdEntry d.id = some d ∧ Bytes s t ∧ AllRegs s t

/-- From s to t a command becomes d, and every firing context keeps its registers; of memory, only what lines that leave the L2 for
the command's own lines write back changes (05 R146): u is the state after those lines have passed through their home slices. -/
def Sys2Proof.Safety.BecomesBy (u s t : State) (d : CmdEntry) : Prop := t.cur.cmdEntry d.id = some d ∧ Bytes u t ∧ AllRegs s t

/-- The command completes its work, counting n for its pail. -/
def Sys2Proof.Safety.Finishes (i : Instr) (s : State) (e : CmdEntry) (n : Nat) : Prop :=
  ∃ t, exec i s = .next t ∧ Becomes s t { e with stage := .performed, count := n }

/-- The command has done one more unit of work of n bytes. -/
def Sys2Proof.Safety.Moved (e : CmdEntry) (n : Nat) : CmdEntry := { e with pos := e.pos + 1, count := e.count + n }

/-- Unit u of total units of bs's size stands in the producer's slot of handle h, which is filled with its last unit (05 R151). -/
def Sys2Proof.Safety.Fills (s t : State) (h u total per : Nat) (bs : List Byte) : Prop :=
  let d := s.cur.handle h
  ((s.cur.buf d.buffer).wf = true →
    t.cur.bufBytes d.buffer (d.slotAt d.prod + u % per * bs.length) bs.length = bs) ∧
  t.cur.handle h = if u % per + 1 = per ∨ u + 1 = total then d.produce 1 else d

/-- Unit u of total units has left the consumer's slot of handle h, which is released with its last unit (05 R151). -/
def Sys2Proof.Safety.Drains (s t : State) (h u total per : Nat) : Prop :=
  t.cur.handle h = if u % per + 1 = per ∨ u + 1 = total then (s.cur.handle h).consume 1 else s.cur.handle h

/-- 05 R145, R147, R151, R163 to R166, R176: a tile line, or 64 bytes of a row, moves with each step: `tfetch` pins what it fetches
and `subs` repeats its rectangle, into producer slots; `pull` and `scat` take consumer slots into new versions; and with the last
unit the command has moved every byte of its rectangle. A line that comes into the L2 changes nothing else where its set has
room. -/
def Obligations.TileLineCommands : Prop :=
  (∀ (s : State) (x : Nat) (k : TileKey) (ver : Nat) (rows : List Nat) (p : Partition), s.ctxPart x = some p →
    (s.l2.filter fun e => (⟨homeOf p.rect k, x, k, ver, rows⟩ : L2Line).mates e).length < 12 →
    { s.touchL2 x k ver rows with l2 := s.l2 } = s ∧
      ((s.touchL2 x k ver rows).l2.any fun e => e.slice = homeOf p.rect k && e.x = x && e.tile = k && e.ver = ver) = true) ∧
  (∀ (s : State) (c : Cmd) (e : CmdEntry) (t : Tensor),
    let r := TRect.of c.operand.toNat
    let h := c.hA.toNat
    let d := s.cur.handle h
    let per := s.cur.linesPerSlot h
    (s.ctx s.x).tensor r.tensor = some t →
    (AtWork s 0x05 c e →
      (e.pos = r.count → Finishes (.tfetch c) s e (1024 * r.count)) ∧
      (∀ bs, e.pos ≠ r.count → s.cur.mayFill e.id h = true →
        s.fetchTile s.x e.fid t (r.walk e.pos).1 (r.walk e.pos).2 = .ok bs →
        let key : TileKey := (t.id, (r.walk e.pos).1, (r.walk e.pos).2)
        (t.hasTile (r.walk e.pos).1 (r.walk e.pos).2 = true → s.mayPin s.x e.fid key = true) →
        ∃ u, exec (.tfetch c) s = .next u ∧
          BecomesBy (s.touchTile s.x e.fid t (r.walk e.pos).1 (r.walk e.pos).2 c.e) s u (Moved e 1024) ∧ Fills s u h e.pos r.count per bs ∧
          (t.hasTile (r.walk e.pos).1 (r.walk e.pos).2 = true →
            (⟨key, s.now, h, d.prod, e.fid, (s.ctx s.x).pinLatch e.fid key⟩ : Pin) ∈ (u.ctx s.x).pins))) ∧
    (AtWork s 0x06 c e →
      let total := r.count * (c.cflags.toNat + 1)
      (e.pos = total → Finishes (.streamSubs c) s e (1024 * total)) ∧
      ∀ bs, e.pos ≠ total → s.cur.mayFill e.id h = true →
        s.fetchTile s.x e.fid t (r.walk (e.pos % r.count)).1 (r.walk (e.pos % r.count)).2 = .ok bs →
        let near := s.touchTile s.x e.fid t (r.walk (e.pos % r.count)).1 (r.walk (e.pos % r.count)).2 c.e
        ∃ u, exec (.streamSubs c) s = .next u ∧ BecomesBy near s u (Moved e 1024) ∧ Fills s u h e.pos total per bs ∧
          u.ctxs = near.ctxs) ∧
    (AtWork s 0x07 c e →
      (e.pos = r.count → Finishes (.pull c) s e (1024 * r.count)) ∧
      ∀ u, e.pos ≠ r.count → s.cur.mayDrain e.id h = true →
        s.writeTile s.x e.fid t (r.walk e.pos).1 (r.walk e.pos).2 (fun _ => s.cur.slotBytes h (e.pos % per * 1024) 1024) = .ok u →
        ∃ v, exec (.pull c) s = .next v ∧
          BecomesBy (u.touchTile s.x e.fid t (r.walk e.pos).1 (r.walk e.pos).2 c.e) s v (Moved e 1024) ∧ Drains s v h e.pos r.count per ∧
          (v.ctx s.x).firing e.fid = (u.ctx s.x).firing e.fid) ∧
    (AtWork s 0x32 c e →
      (∀ k ∈ r.tiles t, (((s.ctx s.x).firing e.fid).leaseCheck t k.1 k.2).isSome ∨ ∃ bs, s.readTile s.x e.fid t k.1 k.2 = .ok bs) →
      let near := (r.tiles t).filter fun k => (((s.ctx s.x).firing e.fid).leaseCheck t k.1 k.2).isNone
      ∃ u, exec (.streamPref c) s = .next u ∧
        BecomesBy (near.foldl (fun u k => u.touchTile s.x e.fid t k.1 k.2 c.e) s) s u
          { e with stage := .performed, count := 1024 * r.count })) ∧
  ∀ (s : State) (c : Cmd) (e : CmdEntry) (t : Tensor),
    let g := Gather.of c.operand.toNat
    let a := c.hA.toNat
    let b := c.hB.toNat
    let total := g.count * g.cols
    let v := s.cur.indexAt b (e.pos / g.cols)
    let inside : Prop := 0 ≤ v ∧ v < t.rows
    (s.ctx s.x).tensor g.tensor = some t → a ≠ b →
    (AtWork s 0x08 c e →
      (e.pos = total → Finishes (.gath c) s e (64 * total)) ∧
      (e.pos ≠ total → s.cur.mayFill e.id a = true → s.cur.mayDrain e.id b = true →
        (¬inside → ∃ u, exec (.gath c) s = .next u ∧ Becomes s u (Moved e 64) ∧
          Fills s u a e.pos total ((s.cur.handle a).bytes / 64) (List.replicate 64 0)) ∧
        ∀ bs, inside → s.fetchTile s.x e.fid t (v.toNat / 16) (g.col0 + e.pos % g.cols) = .ok bs → bs.length = 1024 →
          ∃ u, exec (.gath c) s = .next u ∧
            BecomesBy (s.touchTile s.x e.fid t (v.toNat / 16) (g.col0 + e.pos % g.cols) c.e) s u (Moved e 64) ∧
            Fills s u a e.pos total ((s.cur.handle a).bytes / 64) (tileRow bs v.toNat))) ∧
    (AtWork s 0x09 c e →
      (e.pos = total → Finishes (.scat c) s e (64 * total)) ∧
      (e.pos ≠ total → s.cur.mayDrain e.id a = true → s.cur.mayDrain e.id b = true →
        (¬inside → ∃ u, exec (.scat c) s = .next u ∧ Becomes s u (Moved e 64) ∧
          Drains s u a e.pos total ((s.cur.handle a).bytes / 64) ∧ (u.ctx s.x).firings = (s.ctx s.x).firings) ∧
        ∀ w, inside → s.writeTile s.x e.fid t (v.toNat / 16) (g.col0 + e.pos % g.cols) (fun old =>
            old.take (v.toNat % 16 * 64) ++ s.cur.slotBytes a (e.pos % ((s.cur.handle a).bytes / 64) * 64) 64 ++
              old.drop (v.toNat % 16 * 64 + 64)) = .ok w →
          ∃ u, exec (.scat c) s = .next u ∧
            BecomesBy (w.touchTile s.x e.fid t (v.toNat / 16) (g.col0 + e.pos % g.cols) c.e) s u (Moved e 64) ∧
            Drains s u a e.pos total ((s.cur.handle a).bytes / 64) ∧ (u.ctx s.x).firing e.fid = (w.ctx s.x).firing e.fid))

/-- A beat has gone onto the wire of the link on which an input port's stream ends, and onto no other. -/
def Sys2Proof.Safety.Sends (s t : State) (port : Nat) (b : Beat) : Prop :=
  ∀ site side, (s.cur.image.map fun i => i.portDest port) = some (.node site side) →
    (t.cur.fabric.link site side).wire = (s.cur.fabric.link site side).wire ++ [b] ∧
    ∀ p q, (p, q) ≠ (site, side) → t.cur.fabric.link p q = s.cur.fabric.link p q

/-- 05 R161, R162, R171, 07 R215: a load sends a row token where one is due, else the next elements of its walk, and ends with the
walk; a store takes a word of its port's next beat into the element at its position, a NULL advances without writing, and other
beats are consumed; `bound` and `kick` place one token. 05 R160: a generator has the positions of its next run from its counts, or
from a word. Where the rules leave a choice, the clause is the model's own (log 23). -/
def Obligations.PortStreamCommands : Prop :=
  (∀ (s : State) (c : Cmd) (e : CmdEntry) (tile : Bool) (w : Walk),
    let i : Instr := if tile then .ldTile c else .ldAff c
    let port := c.portA.toNat
    let due := if c.flag 2 then 0 else e.pos / w.rowLen
    AtWork s (if tile then 0x02 else 0x01) c e → s.cur.portTurn e = true → s.cur.portRoom port = true → 8 ∉ s.cur.records →
    cmdOf e.word = c → s.walkOf c tile e.pos = some w →
    (e.count < due → ∃ t, exec i s = .next t ∧ Becomes s t { e with count := e.count + 1 } ∧ Sends s t port (tokenBeat .eor)) ∧
    (due ≤ e.count → e.pos = w.total → Finishes i s e w.bytes) ∧
    (∀ vs, due ≤ e.count → e.pos ≠ w.total →
      (c.flag 2 = true → s.cur.mayDrain e.id c.hA.toNat = true ∧
        s.cur.slotOpen c.hA.toNat (e.pos % ((s.cur.handle c.hA.toNat).bytes * 8 / fmtBits w.fmt) * fmtBits w.fmt / 8) e.cx false = true) →
      s.loadElems e w e.pos = .ok vs →
      ∃ t, exec i s = .next t ∧ BecomesBy (s.touchWalk e w e.pos vs.length) s t { e with pos := e.pos + vs.length } ∧
        Sends s t port (wordBeat vs))) ∧
  (∀ (s : State) (c : Cmd) (e : CmdEntry) (tile : Bool) (w : Walk),
    let i : Instr := if tile then .stTile c else .stAff c
    let port := c.portA.toNat - 32
    AtWork s (if tile then 0x04 else 0x03) c e → s.cur.portTurn e = true → cmdOf e.word = c → s.walkOf c tile e.pos = some w →
    (e.pos = w.total → Finishes i s e w.bytes) ∧
    (∀ b r, e.pos ≠ w.total → (s.cur.fabric.port port).fifo = b :: r → b.kind ≠ 0xA →
      ∃ t, exec i s = .next t ∧ Becomes s t e ∧ (t.cur.fabric.port port).fifo = r) ∧
    (∀ b r l x p g, e.pos ≠ w.total → (s.cur.fabric.port port).fifo = b :: r → b.kind = 0xA → l < 4 → b.mask.getLsbD l = true →
      (∀ m, m < l → b.mask.getLsbD m = false) → w = .tensor x p g → c.flag 2 = false →
      (b.token l = .null → ∃ t, exec i s = .next t ∧ Becomes s t { e with pos := e.pos + 1 } ∧ t.ctxs = s.ctxs) ∧
      ∀ v u, b.token l = .word v → s.storeElem s.x e.fid x (p.pos e.pos).1 (p.pos e.pos).2 (v.toNat % 2 ^ fmtBits x.fmt) = .ok u →
        let near := u.touchAt e x [p.pos e.pos]
        ∃ t, exec i s = .next t ∧ BecomesBy near s t { e with pos := e.pos + 1 } ∧ t.ctxs = near.ctxs)) ∧
  (∀ (s : State) (c : Cmd) (e : CmdEntry),
    let port := c.portA.toNat
    s.cur.portTurn e = true → s.cur.portRoom port = true → cmdOf e.word = c →
    (AtWork s 0x12 c e → Finishes (.bound c) s e 1 ∧
      ∃ t, exec (.bound c) s = .next t ∧ Sends s t port ⟨0x6, 0xF, 0, c.operand.toNat % 2 ^ 48⟩) ∧
    (AtWork s 0x13 c e → Finishes (.kick c) s e 1 ∧
      ∃ t, exec (.kick c) s = .next t ∧ Sends s t port (match c.cflags.toNat % 4 with
        | 0 => ⟨0x4, 0xF, 0, 0⟩
        | 1 => ⟨0x5, 0xF, 0, 0⟩
        | 2 => ⟨0x7, 0xF, 0, 0⟩
        | _ => ⟨0x7, 0xF, 0, 0xF⟩))) ∧
  ∀ (s : State) (k : CoreId) (site lane : Nat), lane < 4 → ((s.core k).generated site).isSome → 8 ∉ (s.core k).records →
    (((s.core k).node site).op.toNat = 0x32 → (((s.core k).nodeState site).lanes).length = 4 →
      ∃ t, exec (.nodeAgaf k site lane) s = .next t ∧ (((t.core k).nodeState site).lane 0).pending = some 0 ∧ Bytes s t ∧ AllRegs s t) ∧
    (∀ w, ((s.core k).node site).op.toNat = 0x33 → laneOn ((s.core k).node site) lane = true →
      (((s.core k).nodeState site).lanes).length = 4 →
      (∀ l < 4, (((s.core k).nodeState site).lane l).out = []) → (((s.core k).nodeState site).lane lane).pending = none →
      (((s.core k).nodeState site).lane lane).ops = [none, none, none] →
      (s.core k).headAt site ((s.core k).node site) 0 lane = some (.word w) →
      ∃ t, exec (.nodeAgin k site lane) s = .next t ∧ (((t.core k).nodeState site).lane lane).pending = some w.toNat ∧
        Bytes s t ∧ AllRegs s t)

/-- 05 R167, R168: a `copy` moves 64 bytes a step, upward, and reads everything first where its destination lies ahead of what it
has still to read; a `fill` writes its pattern and its granules' bits. 05 R169, R170, R172, R173: an image that passes every check
becomes its context's; a switch makes it the current one; `barr` waits for what is before it; `bank` gives banks their owner. 05
R174, R175: a `lease` completes once held, and a `relatch` applies its edits at one new epoch. Where the rules leave a choice, the
clause is the model's own (log 16, 26, 56). -/
def Obligations.CopyAndConfiguration : Prop :=
  ∀ (s : State) (c : Cmd) (e : CmdEntry), cmdOf e.word = c →
    (AtWork s 0x0A c e →
      let d := CopyDesc.of e.attached
      let total := d.length / 64
      let u := e.pos
      let a := c.hA.toNat
      let b := c.hB.toNat
      (e.pos = total → Finishes (.copy c) s e d.length) ∧
      (∀ bs, e.pos ≠ total → e.buf.length < d.length → (e.buf ≠ [] ∨ s.copyAhead d = true) →
        s.copyRead e d (e.buf.length / 64) = .ok bs →
        ∃ t, exec (.copy c) s = .next t ∧
          BecomesBy (s.touchCopy e d.srcKind d.src (e.buf.length / 64)) s t { e with buf := e.buf ++ bs }) ∧
      (∀ bs w, e.pos ≠ total → (e.buf = [] → s.copyAhead d = false ∧ s.copyRead e d u = .ok bs) →
        (e.buf ≠ [] → d.length ≤ e.buf.length ∧ bs = (e.buf.drop (64 * u)).take 64) →
        (d.srcKind = 2 → s.cur.mayDrain e.id b = true) → (d.dstKind = 2 → s.cur.mayFill e.id a = true) → s.copyWrite e d u bs = .ok w →
        (∃ t, exec (.copy c) s = .next t ∧
          BecomesBy ((w.touchCopy e d.srcKind d.src u).touchCopy e d.dstKind d.dst u) s t (Moved e 64) ∧
          (d.dstKind = 2 → d.srcKind ≤ 1 → Fills s t a u total ((s.cur.handle a).bytes / 64) bs) ∧
          (d.srcKind = 2 → d.dstKind ≤ 1 → Drains s t b u total ((s.cur.handle b).bytes / 64))) ∧
        (∀ l, d.dstKind = 0 → s.engineTranslate s.x (d.dst + 64 * u) .store = .ok l → l.onHost = false → l.addr % 64 = 0 →
          s.hbm.wf = true → bs.length = 64 → w.bytesAt l 64 = bs ∧ BytesBut s w l.addr 64))) ∧
    (AtWork s 0x0B c e →
      let n := (bitsOf c.operand.toNat 29 20 + 1) * 64
      let a := c.operand.toNat % 2 ^ 20
      let b := (Buf.of (bitsOf c.operand.toNat 31 30)).getD .a
      Finishes (.fill c) s e n ∧ ∃ t, exec (.fill c) s = .next t ∧ ((s.cur.buf b).wf = true → ∀ i, i < n →
        (t.cur.buf b).get (a + i) = byteOf (bitsOf c.operand.toNat 63 32) (i % 4) ∧ t.cur.full b ((a + i) / 16) = !c.flag 0)) ∧
    (AtWork s 0x10 c e → ∀ head bs l i,
      let len := leNat ((head.drop 6).take 2)
      s.engineRead s.x c.operand.toNat 64 = .ok head → 64 ≤ len → len ≤ 0x4000 → s.engineRead s.x c.operand.toNat len = .ok bs →
      s.engineTranslate s.x c.operand.toNat .load = .ok l → Image.check bs l c.operand = .ok i →
      ∃ t, exec (.cfgLd c) s = .next t ∧ BecomesBy (s.touchRange s.x c.operand.toNat len) s t { e with stage := .performed, count := len } ∧
        look t.cur.images (c.cflags.toNat % 8) = some i) ∧
    (AtWork s 0x11 c e → s.cur.firstCmd e.id = true → s.cur.fabricEmpty = true → (look s.cur.images (c.cflags.toNat % 8)).isSome →
      (∀ f ∈ (s.ctx s.x).firings, f.2.k = s.now → f.2.cx = s.cur.cx → f.2.ended = true ∨ f.2.cause.isSome) →
      Finishes (.cfgSw c) s e 1 ∧ ∃ t, exec (.cfgSw c) s = .next t ∧ t.cur.cx = c.cflags.toNat % 8 ∧ t.cur.fabric.nodes = [] ∧
        t.cur.fabric.links = [] ∧ t.cur.array.sums = [] ∧ t.cur.array.planes = [Plane.reset, Plane.reset] ∧
        ∀ r ∈ (t.ctx s.x).changes, ∀ g ∈ r.tokens, g.1 ≠ s.now) ∧
    (AtWork s 0x14 c e → s.cur.firstCmd e.id = true → s.cur.fabricEmpty = true → Finishes (.barr c) s e 1) ∧
    (AtWork s 0x15 c e →
      let b := (Buf.of (bitsOf c.operand.toNat 31 30)).getD .a
      let first := bitsOf c.operand.toNat 22 16
      let n := bitsOf c.operand.toNat 14 8 + 1
      let own := c.operand.toNat % 16
      (∀ d ∈ s.cur.cmds.takeWhile (fun d => d.id ≠ e.id), s.cur.reaches d b (first * 4096) (n * 4096) = false) → b ≠ .w →
      Finishes (.bank c) s e 1 ∧ ∃ t, exec (.bank c) s = .next t ∧ ∀ i,
        t.cur.owner b (i * 4096) = if first ≤ i ∧ i < first + n then (if own = 15 then none else some own) else s.cur.owner b (i * 4096)) ∧
    (AtWork s 0x30 c e → (∀ p ∈ (s.ctx s.x).leaseRect e, p ∈ ((s.ctx s.x).firing e.fid).lease) → Finishes (.lease c) s e 1) ∧
    (AtWork s 0x31 c e →
      (∀ r, (s.ctx s.x).changes.find? (fun r => r.owner = some (s.now, e.id)) = some r → (s.ctx s.x).changeOpen r = false →
        Finishes (.relatch c) s e 1) ∧
      (∀ bs,
        let n := c.cflags.toNat % 64 + 1
        let es := (upto n).map fun i => AtlasEdit.of ((bs.drop (16 * i)).take 16)
        let ps := (es.map fun d => (d.tensor, d.plate)).eraseDups
        (s.ctx s.x).changes.find? (fun r => r.owner = some (s.now, e.id)) = none →
        s.engineRead s.x c.operand.toNat (16 * n) = .ok bs → (∀ d ∈ es, (s.ctx s.x).editHolds d = true) →
        (s.ctx s.x).undo.length + ps.length ≤ (s.ctx s.x).undoRoom → (∀ d ∈ es, d.moves = false) →
        ∃ t r, exec (.relatch c) s = .next t ∧ BecomesBy (s.touchRange s.x c.operand.toNat (16 * n)) s t e ∧
          (t.ctx s.x).epoch = (s.ctx s.x).epoch + 1 ∧ (t.ctx s.x).changes.find? (fun r => r.owner = some (s.now, e.id)) = some r ∧
          r.fid = e.fid ∧ r.plates = ps ∧ r.epoch = (s.ctx s.x).epoch + 1))

/-- 10 R284, R287 to R292, R295: `fopen` sends the next elements of its indexed rows, an EOR where a row ends, and ends with its
stream; `fclose` asks the `fopen` before it to finish; `isect` walks a row a step; `eqpart` writes its boundaries; `hset` binds and
releases the banks of a hash site. Where the rules leave a choice, the clause is the model's own (log 58). -/
def Obligations.FibreCommands : Prop :=
  ∀ (s : State) (c : Cmd) (e : CmdEntry), cmdOf e.word = c →
    (AtWork s 0x20 c e → s.cur.portTurn e = true → s.cur.portRoom c.portA.toNat = true → 8 ∉ s.cur.records → c.flag 5 = false →
      e.closing = false →
      let p := streamOf e
      let n := e.pos
      let bytes := ceilDiv (wordsSent e * fmtBits (s.streamFmt p)) 8
      (n ≤ p.indices * p.run → e.count < n / p.run → ∃ t, exec (.fopen c) s = .next t ∧ Becomes s t { e with count := e.count + 1 } ∧
        Sends s t c.portA.toNat (tokenBeat .eor)) ∧
      (n = p.indices * p.run → n / p.run ≤ e.count → Finishes (.fopen c) s e bytes) ∧
      (∀ b, n < p.indices * p.run → n / p.run ≤ e.count →
        s.pickBeat e p (min 4 (min (p.run - n % p.run) (p.indices * p.run - n))) n ⟨[], [], e.buf⟩ = .ok b →
        let near := match (s.ctx s.x).tensor p.tensor with
          | some x => s.touchAt e x b.at_
          | none => s
        ∃ t, exec (.fopen c) s = .next t ∧ Sends s t c.portA.toNat (beatOf (b.items.mapIdx fun i t => (i, t)) true) ∧
          BecomesBy near s t { e with
            pos := n + b.items.length, attached := e.attached + (b.items.filter fun t => t.inWord).length * 2 ^ 128, buf := b.index })) ∧
    (AtWork s 0x21 c e →
      (e.pos = 0 → s.cur.lastOnPort e.id c.portA.toNat = none → Finishes (.fclose c) s e 1) ∧
      (∀ d, e.pos = 0 → s.cur.lastOnPort e.id c.portA.toNat = some d → opOf d.word = 0x20 → d.live = true → d.id ≠ e.id →
        ∃ t, exec (.fclose c) s = .next t ∧ Becomes s t { e with pos := 1, attached := d.id } ∧
          t.cur.cmdEntry d.id = some { d with closing := true, stopAt := s.closeAt d }) ∧
      (e.pos ≠ 0 → s.cur.cmdEntry e.attached = none → Finishes (.fclose c) s e 1)) ∧
    (AtWork s 0x22 c e →
      (∀ bs, e.pos = 0 → s.engineRead s.x c.operand.toNat 64 = .ok bs → (Isect.of (leNat bs)).bad s.cur e.cx = false →
        ∃ t, exec (.isect c) s = .next t ∧ Becomes s t { e with pos := 1, attached := leNat bs + 2 ^ 512 } ∧
          (s.cur.bufA.wf = true → t.cur.a32 (Isect.of (leNat bs)).optr = 0)) ∧
      (let d := Isect.of (e.attached % 2 ^ 512);
        (e.pos = d.rows + 1 → Finishes (.isect c) s e (4 * (d.rows + 1) + 12 * e.count)) ∧
        ∀ k m, e.pos ≠ 0 → e.pos ≠ d.rows + 1 → s.cur.isectRow d (e.pos - 1) e.count = .ok (k, m) →
          ∃ t, exec (.isect c) s = .next t ∧ Becomes s t { e with pos := e.pos + 1, count := m } ∧ t.cur.bufA = k.bufA ∧
            t.cur.fullA = k.fullA)) ∧
    (AtWork s 0x23 c e → ∀ pre,
      let o := c.operand.toNat
      let rows := bitsOf o 63 48 + 1
      let parts := bitsOf o 47 40 + 1
      prefixWeights 0 ((upto (rows + 1)).map fun i => s.cur.a32 (o % 2 ^ 19 + 4 * i)) = some pre →
      Finishes (.eqpart c) s e (4 * (parts + 1)) ∧
      ∃ t, exec (.eqpart c) s = .next t ∧ (s.cur.bufA.wf = true →
        t.cur.a32 (bitsOf o 37 19) = 0 ∧ t.cur.a32 (bitsOf o 37 19 + 4 * parts) = rows ∧
        ∀ j, 0 < j → j < parts → ∃ i, t.cur.a32 (bitsOf o 37 19 + 4 * j) = i ∧ i ≤ rows ∧
          ∀ i', i' ≤ rows →
            ((parts * nth pre i 0 : Nat) - (j * pre.getLast?.getD 0 : Nat) : Int).natAbs ≤
              ((parts * nth pre i' 0 : Nat) - (j * pre.getLast?.getD 0 : Nat) : Int).natAbs)) ∧
    (AtWork s 0x24 c e →
      let site := 216 + bitsOf c.operand.toNat 31 28
      let first := bitsOf c.operand.toNat 22 16
      let n := bitsOf c.operand.toNat 14 8 + 1
      (c.flag 0 = false → s.cur.oldFree e site = true → s.cur.hashFree e site first n = true →
        Finishes (.hset c) s e 1 ∧ ∃ t, exec (.hset c) s = .next t ∧
          t.cur.hashOf site = some (bitsOf c.operand.toNat 63 32, first, n) ∧
          ∀ i, first ≤ i → i < first + n → look t.cur.ownC i = some hashOwner) ∧
      (c.flag 0 = true → s.cur.oldFree e site = true →
        Finishes (.hsetR c) s e 1 ∧ ∃ t, exec (.hsetR c) s = .next t ∧ t.cur.hashOf site = none))

/-! ## The matrix array -/

/-- 09 R252 to R255, R260, R263, R265, R266, R276: `wld` collects a tile line a step, from memory or from the slots of hA, and then
holds the converted plane with its source; `szld` sets rows of the group table; a run starts on a loaded plane once nothing before
it is in the way, and completes when its row tags have; and `spill` and `rest` carry held sums and the pass count. -/
def Obligations.ArrayCommands : Prop :=
  ∀ (s : State) (c : Cmd) (e : CmdEntry), cmdOf e.word = c → s.cur.array.planes.length = 2 →
    (∀ t, (s.ctx s.x).tensor (TRect.of c.operand.toNat).tensor = some t → AtWork s 0x18 c e →
      (∀ d ∈ s.cur.earlierOps e.id, ¬(0x18 ≤ d.1 ∧ d.1 ≤ 0x1A ∧ planeOf d.2 = planeOf c)) →
      let r := TRect.of c.operand.toNat
      (∀ p, e.pos = r.count → (s.cur.plane (planeOf c)).converted t.fmt = some p →
        Finishes (.wld c) s e e.count ∧ ∃ u, exec (.wld c) s = .next u ∧ (u.cur.plane (planeOf c)).stage = .loaded ∧
          (u.cur.plane (planeOf c)).words = p.words ∧ (u.cur.plane (planeOf c)).source = e.word ∧
          u.cur.plane (1 - planeOf c) = s.cur.plane (1 - planeOf c)) ∧
      (∀ bs, e.pos ≠ r.count → c.flag 1 = true → s.fetchTile s.x e.fid t (r.walk e.pos).1 (r.walk e.pos).2 = .ok bs →
        let s0 := if e.pos = 0 then s.modCore s.now fun k => k.modPlane (planeOf c) fun _ => { Plane.reset with stage := .loading } else s
        ∃ u, exec (.wld c) s = .next u ∧
          BecomesBy (s0.touchTile s.x e.fid t (r.walk e.pos).1 (r.walk e.pos).2 c.e) s u (Moved e 1024) ∧
          (u.cur.plane (planeOf c)).words = (if e.pos = 0 then [] else (s.cur.plane (planeOf c)).words) ++
            tileWeights t ((r.walk e.pos).1 - r.row0) ((r.walk e.pos).2 - r.col0) bs) ∧
      (e.pos ≠ r.count → c.flag 1 = false → s.cur.mayDrain e.id c.hA.toNat = true →
        let per := (s.cur.handle c.hA.toNat).bytes / 1024
        ∃ u, exec (.wld c) s = .next u ∧ Becomes s u (Moved e 1024) ∧ Drains s u c.hA.toNat e.pos r.count per ∧
          (u.cur.plane (planeOf c)).words = (if e.pos = 0 then [] else (s.cur.plane (planeOf c)).words) ++
            tileWeights t ((r.walk e.pos).1 - r.row0) ((r.walk e.pos).2 - r.col0)
              (s.cur.slotBytes c.hA.toNat (e.pos % per * 1024) 1024))) ∧
    (AtWork s 0x1B c e → (∀ d ∈ s.cur.earlierOps e.id, ¬((d.1 = 0x19 ∨ d.1 = 0x1A) ∧ d.2.flag 2 = true)) → ∀ bs,
      let r := c.cflags.toNat % 64 + 1
      s.engineRead s.x c.operand.toNat (32 * r) = .ok bs →
      ∃ t, exec (.szld c) s = .next t ∧
        BecomesBy (s.touchRange s.x c.operand.toNat (32 * r)) s t { e with stage := .performed, count := 32 * r } ∧
        t.cur.array.tableSource = c.operand ∧ t.cur.array.tableRows = r ∧ ∀ i, i < 8 * r →
        look t.cur.array.table (i / 8, i % 8) = some (BitVec.ofNat 32 (leNat ((bs.drop (4 * i)).take 4)))) ∧
    (∀ (twin : Bool) (i : Instr), i = (if twin then .trun c else .mrun c) → AtWork s (if twin then 0x1A else 0x19) c e →
      (s.cur.array.run = none → s.cur.earlierOps e.id = [] → c.flag 1 = false → (s.cur.plane (planeOf c)).stage = .loaded →
        s.cur.mayDrain e.id c.hA.toNat = true →
        ∃ t r, exec i s = .next t ∧ Becomes s t e ∧ t.cur.array.run = some r ∧ r.cmd = e.id ∧ r.word = e.word ∧ r.twin = twin ∧
          r.right = (twin && c.flag 5) ∧ r.m = bitsOf c.operand.toNat 39 24 ∧ r.pass = s.cur.array.passes + 1 ∧ r.entered = 0 ∧
          r.completed = 0 ∧ r.inflight = [] ∧ r.met = !twin) ∧
      (s.cur.array.run = none → s.cur.earlierOps e.id = [] → c.flag 1 = false → (s.cur.plane (planeOf c)).stage ≠ .loaded →
        exec i s = .next (s.failCommand s.now e 0x28 none)) ∧
      (∀ r, s.cur.array.run = some r → r.cmd = e.id → r.met = true → r.completed = r.m → s.cur.tapsIdle r = true →
        Finishes i s e (ceilDiv (r.m * r.depth * fmtBits r.afmt) 8) ∧ ∃ t, exec i s = .next t ∧ t.cur.array.run = none ∧
          (s.cur.releases r ≠ [] → t.cur.array.sums = [] ∧ t.cur.array.passes = 0) ∧
          (s.cur.releases r = [] → t.cur.array.sums = s.cur.array.sums))) ∧
    (s.cur.arrayFree e.id = true →
      let n := c.cflags.toNat % 64 + 1
      (AtWork s 0x1C c e → Finishes (.spill c) s e (64 + 2048 * n) ∧ ∃ t, exec (.spill c) s = .next t ∧
        (s.cur.bufC.wf = true → (t.cur.bufBytes .c c.operand.toNat 64).head? = some (BitVec.ofNat 8 s.cur.array.passes) ∧
          t.cur.bufBytes .c (c.operand.toNat + 64) (2048 * n) = s.cur.array.spillBytes n) ∧
        (c.flag 6 = true → t.cur.array.passes = 0 ∧ ∀ x ∈ t.cur.array.sums, n ≤ x.1.1)) ∧
      (AtWork s 0x1D c e →
        let bs := s.cur.bufBytes .c c.operand.toNat (64 + 2048 * n)
        let rec_ (i : Nat) := sumOfRecord (leNat ((bs.drop (64 + 8 * i)).take 8))
        (nth bs 0 0).toNat < 64 → (∀ i, i < 256 * n → (rec_ i).isSome) →
        Finishes (.rest c) s e (64 + 2048 * n) ∧ ∃ t, exec (.rest c) s = .next t ∧ t.cur.array.passes = (nth bs 0 0).toNat ∧
          ∀ i, i < 256 * n → (look t.cur.array.sums (i / 256, i % 256)).getD Sum.empty = (rec_ i).getD Sum.empty))

/-- 09 R256, R258, R261 to R264, R270: the halves of a twin meet where neither array has failed or stopped; a row tag enters with
the digits of its record; a feeder lane sends a digit of its row's element at a time, and the digit has entered once every row has
sent it; a row tag that has taken its last digit and holds its checksum completes, adding its columns' values to the held sums; and,
for integer operands that are not quantised, a column's value is the exact sum of products. Where the rules leave a choice, the
clause is the model's own (log 55). -/
def Obligations.RowTags : Prop :=
  (∀ (s : State) (k : CoreId) (a b : Run), (s.core (k / 2 * 2)).array.run = some a → (s.core (k / 2 * 2 + 1)).array.run = some b →
    (s.core (k / 2 * 2)).arrayFault = none → (s.core (k / 2 * 2 + 1)).arrayFault = none →
    9 ∉ (s.core (k / 2 * 2)).records → 9 ∉ (s.core (k / 2 * 2 + 1)).records →
    a.twin = true → b.twin = true → a.met = false → b.met = false → bitsOf a.fields.operand.toNat 63 60 = bitsOf b.fields.operand.toNat 63 60 →
    bitsOf a.fields.operand.toNat 55 48 = bitsOf b.fields.operand.toNat 55 48 →
    bitsOf a.fields.operand.toNat 39 24 = bitsOf b.fields.operand.toNat 39 24 →
    bitsOf a.fields.cflags.toNat 4 2 = bitsOf b.fields.cflags.toNat 4 2 →
    ∃ t, exec (.twinRendezvous k) s = .next t ∧ (t.core (k / 2 * 2)).array.run = some { a with met := true } ∧
      (t.core (k / 2 * 2 + 1)).array.run = some { b with met := true, m := a.m } ∧ AllRegs s t ∧ Bytes s t) ∧
  (∀ (s : State) (k : CoreId) (r : Run),
    let c := s.core k
    let bs := c.slotBytes r.fields.hA.toNat (r.aRec * r.strides.1) r.strides.1
    c.array.run = some r → r.met = true → r.right = false → r.twin = false → r.entered < r.m → c.entering = none →
    c.mayDrain r.cmd r.fields.hA.toNat = true → c.resultRoom r = true → 9 ∉ c.records → s.halted k = false →
    (s.ctx (s.cxId k)).drained = [] → r.fields.flag 2 = false → c.feedRows r.depth ≠ [] →
    ∃ t, exec (.rowTagEntry k) s = .next t ∧ AllRegs s t ∧ Bytes s t ∧
      (t.core k).array.run = some { r with
        entered := r.entered + 1, inflight := r.inflight ++ [c.rowTag r ((upto r.depth).map fun i => elemOf r.afmt bs i)] }) ∧
  (∀ (s : State) (k : CoreId) (site lane : Nat) (r : Run) (q : List RowTag) (x : RowTag),
    let row := 4 * (site - 256) + lane
    (s.core k).array.run = some r → r.inflight = q ++ [x] → 256 ≤ site → lane < 4 → r.right = false → r.twin = false →
    x.full = false → x.gates = [] → row ∈ (s.core k).feedRows r.depth → row ∉ x.fed →
    ∃ t u, exec (.nodeFeed k site lane) s = .next t ∧ AllRegs s t ∧ Bytes s t ∧ (t.core k).array.run = some u ∧
      u.inflight = q ++ [if ∀ i ∈ (s.core k).feedRows r.depth, i ∈ row :: x.fed
        then { x with fed := [], got := x.got + 1, full := x.got + 1 = x.size } else { x with fed := row :: x.fed }]) ∧
  (∀ (s : State) (k : CoreId) (r : Run) (x : RowTag) (q : List RowTag),
    let c := s.core k
    c.array.run = some r → r.inflight = x :: q → x.full = true → x.checksum (c.plane (planeOf r.fields)) = true → c.releases r = [] →
    ∃ t u, exec (.rowTagCompletion k) s = .next t ∧ AllRegs s t ∧ Bytes s t ∧ (t.core k).array.run = some u ∧
      u.completed = r.completed + 1 ∧ u.inflight = q ∧
      ∀ n d g, c.usedCols r.width = [(n, d, g)] →
        look (t.core k).array.sums (x.m % 64, n) =
          some (((look c.array.sums (x.m % 64, n)).getD Sum.empty).add (columnValue r (c.plane (planeOf r.fields)) x n))) ∧
  ∀ (r : Run) (p : Plane) (x : RowTag) (n : Nat), (FloatFmt.of r.afmt).isNone → p.floating = false → x.scales = [] → x.exps = [] →
    (∀ w ∈ x.classes, w = 0) →
    ∃ v, columnValue r p x n = .fin v ∧
      dyEq v (((upto r.depth).map fun k => x.act (digitCount r.afmt) k (digitCount r.afmt) * p.weight k n).sum, 0) = true

/-! ## Rings -/

/-- The core that a packet is at after n links from k. -/
def Sys2Proof.Safety.hops (p : Packet) : Nat → CoreId → CoreId
  | 0, k => k
  | n + 1, k => match p.next k with
    | none => k
    | some l => hops p n (ringCore l l.dst)

/-- 12 R322, R330: within its segments a packet reaches its destination, in fewer links than the segments have cores. -/
def Sys2Proof.Safety.PacketsReachTheirCore : Prop :=
  ∀ (p : Packet) (k : CoreId), p.seg.x + p.seg.w ≤ 32 → p.seg.y + p.seg.h ≤ 32 → rectHas p.seg k = true → rectHas p.seg p.dst = true →
    ∃ n, n ≤ (p.seg.w - 1) + (p.seg.h - 1) ∧ hops p n k = p.dst ∧ p.next p.dst = none

/-- 12 R337 to R343: `rsend` hands the pieces of its range to the stop in order, or writes its own core's buffer; a member of a
collective contributes its source, and once all have with the same fields and what it needs has arrived takes the root's source, the
combination of all, or all in order. Where the rules leave a choice, the clause is the model's own (log 59). -/
def Obligations.RingCommands : Prop :=
  ∀ (s : State) (c : Cmd) (e : CmdEntry), cmdOf e.word = c →
    (AtWork s 0x28 c e → e.pos ≠ 1 →
      let o := c.operand.toNat
      let n := (bitsOf o 63 54 + 1) * 64
      let r := s.insetFor e (bitsOf o 15 13) (bitsOf o 12 10)
      let k : CoreId := (r.y + o % 32) * 32 + r.x + bitsOf o 9 5
      let bs := s.cur.bufBytes (acBuf (bitOf o 53)) (bitsOf o 52 40 * 64) n
      (k ≠ s.now → ∃ t ps, exec (.rsend c) s = .next t ∧ Becomes s t { e with pos := 1 } ∧ t.cur.inject = s.cur.inject ++ ps ∧
        (ps.flatMap fun p => p.bytes) = bs ∧ ∀ p ∈ ps, p.dst = k ∧ p.src = s.now ∧ p.cls = .bulk ∧ p.cmd = e.id ∧ 1 ≤ p.flits ∧ p.flits ≤ 8) ∧
      (k = s.now → (∀ i, i < n / 64 → s.cur.bankOpen (acBuf (bitOf o 39)) (bitsOf o 38 26 * 64 + 64 * i) s.cur.cx = true) →
        (∀ p ∈ s.cur.inject, p.isOf e.id = false) →
        ∃ t, exec (.rsend c) s = .next t ∧ Becomes s t { e with pos := 1, stage := .performed, count := n } ∧ ((s.cur.buf (acBuf (bitOf o 39))).wf = true →
          t.cur.bufBytes (acBuf (bitOf o 39)) (bitsOf o 38 26 * 64) n = bs))) ∧
    ∀ i : Instr, (c.icollOp = 0 ∧ i = .icollBcast c ∨ c.icollOp = 1 ∧ i = .icollReduce c ∨ c.icollOp = 2 ∧ i = .icollAllred c ∨
        c.icollOp = 3 ∧ i = .icollGather c) → AtWork s 0x29 c e →
      let o := c.operand.toNat
      let r := s.insetFor e (bitsOf o 10 8) (bitsOf o 7 5)
      let n := (bitsOf o 57 48 + 1) * 64
      let b := acBuf (bitOf o 47)
      let me := (s.now / 32 - r.y) * r.w + (s.now % 32 - r.x)
      (e.pos = 0 → ∃ t, exec i s = .next t ∧ Becomes s t { e with pos := 1 } ∧
        look t.cur.collParts (collKey e) = some (e.id, o, s.cur.bufBytes b (bitsOf o 46 34 * 64) n)) ∧
      ∀ ps : List (Nat × Nat × List Byte), e.pos ≠ 0 → ((rectCores r).map fun k => look (s.core k).collParts (collKey e)) = ps.map some →
        (∀ p ∈ ps, collFields p.2.1 = collFields o) → s.cur.collHere (collKey e) (collNeeds o me (rectCores r)) n = true →
        Finishes i s e n ∧ ∃ t, exec i s = .next t ∧
          let srcs := ps.map fun p => p.2.2
          let out : Option (List Byte) := match c.icollOp with
            | 0 => some (nth srcs (bitsOf o 20 11) [])
            | 1 => if me = bitsOf o 20 11 then some (combined r.w r.h o srcs) else none
            | 2 => some (combined r.w r.h o srcs)
            | _ => some srcs.flatten
          ∀ bs, out = some bs → (s.cur.buf b).wf = true → t.cur.bufBytes b (bitsOf o 33 21 * 64) bs.length = bs

/-- 12 R324, R326, R328, R331, R335: a packet starts on a link once the pool downstream has room for all of it, and a returned slot
gives room back; a flit hops to the next stop, and at its destination a row reaches its buffer; a message asks for room, is granted
it, is injected, and joins its queue in one step; a frame is taken once and in order, acknowledged, and sent again up to sixteen
times. Where the rules leave a choice, the clause is the model's own (log 25, 91). -/
def Sys2Proof.Safety.RingEvents : Prop :=
  (∀ (s : State) (l : RingLink), (0 < (s.stopIn l).poolOwed → ∃ t, exec (.slotReturn l false) s = .next t ∧
      t.stopIn l = { s.stopIn l with poolOwed := (s.stopIn l).poolOwed - 1, poolFree := (s.stopIn l).poolFree + 1 } ∧ AllRegs s t ∧ Bytes s t) ∧
    (0 < (s.stopIn l).escapeOwed → ∃ t, exec (.slotReturn l true) s = .next t ∧
      t.stopIn l = { s.stopIn l with escapeOwed := (s.stopIn l).escapeOwed - 1, escapeFree := (s.stopIn l).escapeFree + 1 } ∧
      AllRegs s t ∧ Bytes s t)) ∧
  (∀ (s : State) (l : RingLink) (p : Packet) (rest : List Packet),
    let k := ringCore l l.src
    (s.stopIn l).held = [] → s.halted k = false → (s.core k).passing k l = [] →
    ((s.injectable k).filter fun q => q.next k = some l) = p :: rest → p ∈ (s.core k).inject → p.flits ≤ (s.stopIn l).poolFree →
    ∃ t, exec (.packetArbitration l) s = .next t ∧ AllRegs s t ∧ Bytes s t ∧
      (t.stopIn l).held = [⟨p, false, p.dateline l, 0, 0, false, none, 0⟩] ∧
      (t.stopIn l).poolFree = (s.stopIn l).poolFree - p.flits ∧ (t.core k).inject = (s.core k).inject.erase p) ∧
  (∀ (s : State) (l : RingLink) (x : Transit), (s.stopIn l).held = [x] →
    (x.arrived < x.pkt.flits → x.from_ = none → s.guarded l = false → (x.pkt.next (ringCore l l.dst)).isSome →
      ∃ t n, exec (.flitHop l) s = .next t ∧ AllRegs s t ∧ Bytes s t ∧
        (t.stopIn l).held = [{ x with arrived := x.arrived + 1, serial := n }]) ∧
    (x.arrived = x.pkt.flits → x.gone < x.pkt.flits → x.pkt.next (ringCore l l.dst) = none → x.pkt.cls = .bulk →
      (s.core (ringCore l l.dst)).takesFlit x.pkt x.gone = true → ((x.pkt.bytes.drop (64 * x.gone)).take 64).length = 64 →
      ((s.core (ringCore l l.dst)).buf (x.pkt.row x.gone).1).wf = true →
      ∃ t, exec (.flitHop l) s = .next t ∧ AllRegs s t ∧ Bytes s t ∧
        (t.core (ringCore l l.dst)).bufBytes (x.pkt.row x.gone).1 (x.pkt.row x.gone).2 64 = (x.pkt.bytes.drop (64 * x.gone)).take 64)) ∧
  (∀ (s : State) (k : CoreId) (x : RingLink × Transit),
    let p := x.2.pkt
    (s.core k).landed k (fun p => p.cls = .control && p.note = 1 && p.addr ≤ (s.core k).chanRoom p.chan) = some x →
    ∃ t, exec (.roomRequest k) s = .next t ∧ AllRegs s t ∧ Bytes s t ∧
      look (t.core k).reserved p.chan = some ((look (s.core k).reserved p.chan).getD 0 + p.addr) ∧
      (t.core k).inject = (s.core k).inject ++ [controlPacket k p.src p.seg p.chan p.addr 0 2]) ∧
  (∀ (s : State) (k dst : CoreId) (ch : Nat) (x : RingLink × Transit) (m : Message),
    (s.core k).landed k (fun p => p.cls = .control && p.note = 2 && p.src = dst && p.chan = ch) = some x →
    (s.core k).outbound.find? (fun m => m.asked && m.dst = dst && m.chan = ch && m.words.length = x.2.pkt.addr) = some m →
    ∃ t, exec (.roomGrant k dst ch) s = .next t ∧ AllRegs s t ∧ Bytes s t ∧ (t.core k).outbound = (s.core k).outbound.erase m ∧
      (t.core k).inject = (s.core k).inject ++ [messagePacket m k dst x.2.pkt.seg 0]) ∧
  (∀ (s : State) (k : CoreId),
    (∀ x, (s.core k).landed k (fun p => p.cls = .message) = some x → x.2.pkt.note ≠ 4 →
      ∃ t, exec (.messageArrival k) s = .next t ∧ AllRegs s t ∧ Bytes s t ∧
        look (t.core k).chans x.2.pkt.chan = some ((look (s.core k).chans x.2.pkt.chan).getD [] ++ bytesWords x.2.pkt.bytes)) ∧
    (∀ m, (s.core k).landed k (fun p => p.cls = .message) = none →
      (s.core k).outbound.find? (fun m => m.dst = k && m.words.length ≤ (s.core k).chanRoom m.chan) = some m →
      ∃ t, exec (.messageArrival k) s = .next t ∧ AllRegs s t ∧ Bytes s t ∧ (t.core k).outbound = (s.core k).outbound.erase m ∧
        look (t.core k).chans m.chan = some ((look (s.core k).chans m.chan).getD [] ++ m.words))) ∧
  (∀ (s : State) (die : Nat) (f : Frame), dieOf f.dst = die → f.ether = s.etherType →
    (f.num = (look (s.die die).recvNum f.peer).getD 0 → ∃ t, exec (.scaleOutFrameReceive die f) s = .next t ∧
      (f.kind = .message → look (t.die die).recvNum f.peer = some (f.num + 1) ∧ AllRegs s t ∧ Bytes s t ∧
        let k := portCore die (s.partRect f.dst)
        (t.core k).outbound = (s.core k).outbound ++ [⟨f.dst, 0, false, f.channel, f.words, k, false⟩])) ∧
    (f.num ≠ (look (s.die die).recvNum f.peer).getD 0 → exec (.scaleOutFrameReceive die f) s = .next s)) ∧
  ∀ (s : State) (die peer num : Nat),
    (∃ t, exec (.scaleOutFrameAck die peer num) s = .next t ∧ t.cores = s.cores ∧ Bytes s t ∧
      ∀ u, u ∈ (t.die die).unacked ↔ u ∈ (s.die die).unacked ∧ ¬(u.1.peer = peer ∧ u.1.num = num)) ∧
    ∀ f n x, (s.die die).unacked.find? (fun u => u.1.peer = peer && u.1.num = num) = some (f, n, x) →
      (n < 16 → ∃ t, exec (.scaleOutRetransmit die peer num) s = .next t ∧ (f, n + 1, x) ∈ (t.die die).unacked ∧ t.cores = s.cores ∧
        Bytes s t) ∧
      (16 ≤ n → ∀ p, s.ctxPart x = some p → s.partOf (p.rect.y * 32 + p.rect.x) = some p → p.halt = false → s.part p.id = some p →
        ∃ t, exec (.scaleOutRetransmit die peer num) s = .next t ∧ (t.part p.id).map (fun q => q.halt) = some true ∧
          look (t.die die).origins (p.id, 0) = some 0x57)

/-! ## Launches and the command path -/

/-- 04 R96, R99, R101, R134, R135: a block that passes every check becomes a live launch with its heights, or waits for its pod's
comparison; one with no point left has retired; one that fails is refused with the first reason; without a halt a comparison without
a difference accepts the launch; and `lsync` completes once its launch has retired, or committed a datum, or was not live. Where the
rules leave a choice, the clause is the model's own (log 27, 28, 60). -/
def Obligations.LaunchCommands : Prop :=
  (∀ (s : State) (c : Cmd) (e : CmdEntry), cmdOf e.word = c → AtWork s 0x38 c e → e.pos = 0 →
    (∀ b hs bs, s.checkBlock s.x c.operand = .ok (b, hs, bs) → b.pod = false → hs.all (fun h => h = b.es) = true →
      (∀ q ∈ s.tasksOf s.x, q.tag ≠ b.tag) →
      Finishes (.lnch c) s e 1 ∧ ∃ t, exec (.lnch c) s = .next t ∧ (t.ctx s.x).launches = (s.ctx s.x).launches ∧
        (t.ctx s.x).wantDatum = true) ∧
    (∀ b hs bs, s.checkBlock s.x c.operand = .ok (b, hs, bs) → b.pod = false → hs.all (fun h => h = b.es) = false →
      Finishes (.lnch c) s e 1 ∧ ∃ t l, exec (.lnch c) s = .next t ∧ (t.ctx s.x).launches = (s.ctx s.x).launches ++ [l] ∧ l.block = b ∧
        l.heights = hs ∧ l.delivered = [] ∧ l.leased = [] ∧ l.retiredSince = 0) ∧
    (∀ b hs bs, s.checkBlock s.x c.operand = .ok (b, hs, bs) → b.pod = true →
      ∃ t, exec (.lnch c) s = .next t ∧ Becomes s t { e with pos := 1, attached := b.tag } ∧
        (t.ctx s.x).podWaits = (s.ctx s.x).podWaits ++ [(b.tag, bs)]) ∧
    (∀ r, s.checkBlock s.x c.operand = .error (.fail r 0 0) → exec (.lnch c) s = .next (s.failCommand s.now e r none))) ∧
  (∀ (s : State) (c : Cmd) (e : CmdEntry), AtWork s 0x39 c e →
    (e.attached ≠ 1 → (c.flag 0 = false → Finishes (.lsync c) s e 1) ∧ (c.flag 0 = true → Finishes (.lsyncD c) s e 1)) ∧
    (e.attached = 1 → (c.flag 0 = false → exec (.lsync c) s = .next s) ∧ (c.flag 0 = true → exec (.lsyncD c) s = .next s))) ∧
  (∀ (s : State) (addr : Word) (bs : List Byte) (x : Nat) (b : Block) (hs : List Nat), s.checkBytes x addr bs = .ok (b, hs) →
    fieldAt bs 0 2 = 1 ∧ 1 ≤ b.ndim ∧ b.ndim ≤ 4 ∧ b.sweep < b.ndim ∧ b.cross ≤ 65536 ∧ b.nvec ≤ 6 ∧ b.tag ≠ 0 ∧
      (s.ctx x).launch b.tag = none ∧ (s.ctx x).launches.length < 16 ∧ ((s.ctx x).handler b.actor).valid = true ∧ b.cost ≠ 0) ∧
  ∀ (s : State) (x tag : Nat) (bs : List Byte) (copies : List (List Byte)) (b : Block) (hs : List Nat),
    look (s.ctx x).podWaits tag = some bs → (∀ p, s.ctxPart x = some p → p.halt = false) → (∀ d ∈ copies, d = bs) → (s.ctx x).podSize ≤ copies.length + 1 →
    (s.modCtx x fun c => { c with podWaits := unput c.podWaits tag }).checkBytes x (match s.podWaiters x tag with
      | (_, e) :: _ => (cmdOf e.word).operand
      | [] => 0) bs = .ok (b, hs) → hs.all (fun h => h = b.es) = false →
    ∃ t l, exec (.podLaunchCompare x tag copies) s = .next t ∧ AllRegs s t ∧ Bytes s t ∧
      (t.ctx x).launches = (s.ctx x).launches ++ [l] ∧ l.block = b ∧ l.heights = hs ∧ look (t.ctx x).podWaits tag = none

/-- 05 R143, R144, R152, R153, R155 to R157, R168, 13 R387: the queue's oldest command enters a scoreboard of sixteen, and starts
once its waits are met; a completed one leaves, and its count goes to its pail; one whose data has an uncorrectable error fails with
reason 0x24; a walk that fails no command changes nothing; a generator's token moves its latch on; and a change of an atlas entry is
current at the next epoch while older latches keep what they saw; and a plate that was absent, and that no lease holds, is as mapped
to every latch. Where the rules leave a choice, the clause is the model's own (log 57, 63). -/
def Obligations.CommandPath : Prop :=
  (∀ (s : State) (k : CoreId) (id : Nat) (e : CmdEntry), (s.core k).cmdEntry id = some e → 14 ∉ (s.core k).records →
    (e.stage = .queued → ((s.core k).queued.head?.map fun q => q.id) = some id → (s.core k).scoreboard.length < 16 → opOf e.word ≠ 0x0A →
      ∃ t, exec (.commandStart k id) s = .next t ∧ (t.core k).cmdEntry id = some { e with stage := .scoreboard } ∧ AllRegs s t ∧ Bytes s t) ∧
    (e.stage = .queued → 16 ≤ (s.core k).scoreboard.length → exec (.commandStart k id) s = .next s) ∧
    (e.stage = .scoreboard → (s.core k).waitsMet e = true → (s.core k).fenced id = false →
      ∃ t, exec (.commandStart k id) s = .next t ∧ (t.core k).cmdEntry id = some { e with stage := .running } ∧ AllRegs s t ∧ Bytes s t)) ∧
  (∀ (s : State) (k : CoreId) (id : Nat) (e : CmdEntry), (s.core k).cmdEntry id = some e → e.stage = .performed →
    (s.core k).unitStopped (opOf e.word) = true → exec (.commandComplete k id) s = .next s) ∧
  (∀ (s : State) (k : CoreId) (id : Nat) (e : CmdEntry), (s.core k).cmdEntry id = some e → e.stage = .performed →
    (s.core k).unitStopped (opOf e.word) = false →
    ∃ t, exec (.commandComplete k id) s = .next t ∧ (t.core k).cmdEntry id = none ∧ AllRegs s t ∧
      ((cmdOf e.word).p = false → Bytes s t) ∧
      ((cmdOf e.word).p = true → (look s.ctxs (s.cxId k)).isSome → s.hbm.wf = true →
        t.pail (s.cxId k) (cmdOf e.word).pail.toNat = (s.pail (s.cxId k) (cmdOf e.word).pail.toNat).add e.count)) ∧
  (∀ (s : State) (k : CoreId) (id : Nat) (e : CmdEntry), (s.core k).cmdEntry id = some e → (e.stage = .scoreboard ∨ e.stage = .running) →
    (s.core k).unitStopped (opOf e.word) = false →
    ∃ t, exec (.commandFailure k id 0x24) s = .next t ∧ (t.core k).cmdEntry id = some { e with stage := .failed 0x24 } ∧
      look (t.core k).soft 5 = some (min 255 ((look (s.core k).soft 5).getD 0 + 1)) ∧ AllRegs s t) ∧
  (∀ (s : State) (die tensor plate : Nat), (∀ k, dieOf k = die → ∀ e ∈ (s.core k).cmds, e.stage = .running → s.failsWith k e 0x23 = none) →
    exec (.atlasWalk die tensor plate) s = .next s) ∧
  (∀ (s : State) (k : CoreId) (site l : Nat),
    let c := s.ctx (s.cxId k)
    look (s.core k).fabric.latches site = some l → (look s.ctxs (s.cxId k)).isSome →
    (∀ r ∈ c.changes, r.tokens.Nodup ∧ (k, site) ∉ s.tokensOf (s.cxId k) r) →
    ∃ t, exec (.relatchToken k site) s = .next t ∧ look (t.core k).fabric.latches site = some c.epoch ∧ AllRegs s t ∧ Bytes s t ∧
      ∀ r ∈ c.changes, ∀ n, n ≠ site → (k, n) ∈ r.tokens → look (t.core k).fabric.latches n = look (s.core k).fabric.latches n) ∧
  ∀ (s : State) (x tensor plate : Nat) (e : BitVec 128) (d : Tensor),
    let new := AtlasEntry.of e.toNat
    let old := (s.ctx x).entryNow tensor plate
    (look s.ctxs x).isSome → (s.ctx x).tensor tensor = some d → plate < d.plates → s.mayMap x (tensor, plate) e.toNat = true →
    old.mayBecome new = true → old.frameKey = new.frameKey ∨ 16 < old.res →
    ∃ t, exec (.firmwareAtlasChange x tensor plate e) s = .next t ∧ AllRegs s t ∧ Bytes s t ∧
      (t.ctx x).epoch = (s.ctx x).epoch + 1 ∧ (t.ctx x).entryNow tensor plate = new ∧
      (old.res ≤ 16 → (∀ o ∈ (s.ctx x).oldAtlas, o.2.1 ≤ (s.ctx x).epoch) → (t.ctx x).entryAt tensor plate (s.ctx x).epoch = old ∧
        (t.ctx x).entryAt tensor plate ((s.ctx x).epoch + 1) = new) ∧
      (16 < old.res → (∀ f ∈ (s.ctx x).firings, f.2.retired = false → (tensor, plate) ∉ f.2.lease) →
        ∀ n, (t.ctx x).entryAt tensor plate n = new)

/-! ## Clocks, energy and heat -/

/-- 14 R397, R399: the chosen set is within the share and above the floor with the least distance to the request; with none within
the share it is one of least estimate above the floor. -/
def Obligations.ChosenSets : Prop :=
  ∀ (pcoef : Word) (floor share : Nat) (q : RatioSet) (hint : Option Hint),
    (∀ g, chooseSet pcoef floor share q hint = some (g, 0) → g ∈ allSets ∧ floor ≤ g.volts ∧ estOf pcoef g ≤ share * 10000000 ∧
      ∀ s ∈ allSets, floor ≤ s.volts → estOf pcoef s ≤ share * 10000000 → g.dist q ≤ s.dist q) ∧
    (∀ g, chooseSet pcoef floor share q hint = some (g, 2) → g ∈ allSets ∧ floor ≤ g.volts ∧ share * 10000000 < estOf pcoef g ∧
      ∀ s ∈ allSets, floor ≤ s.volts → estOf pcoef g ≤ estOf pcoef s) ∧
    (floor ≤ 980 → ∃ g why, chooseSet pcoef floor share q hint = some (g, why) ∧ (why = 0 ∨ why = 2))

/-- 14 R397 to R402, R404, R407 to R409, R412, R427: an evaluation grants a chosen set, and refuses a request below the floor; every
20 ticks a transition raises its rail, moves its frequencies by 100 MHz or lowers its rail, and ends at its target; a sample latches
each counter's increase; energy is charged every 1,000 ticks; at 95 degrees the cap falls by 200 W, and at 105 every halt line
rises. Where the rules leave a choice, the clause is the model's own (log 61, 62, 64, 93, 96). -/
def Obligations.ClocksEnergyAndHeat : Prop :=
  (∀ (s : State) (cl n : Nat) (p : Partition),
    let c := s.cluster cl
    let set := RatioSet.ofWord (s.clockRequest cl)
    c.changedAt = some n → s.partOf (cl / 8 * 2 * 32 + cl % 8 * 4) = some p → c.loaded = 15 → dueTick n ≤ c.timer →
    (set.volts < c.vfloor → ∃ t, exec (.arbiterEvaluation cl) s = .next t ∧ (t.cluster cl).reason = 1 ∧ (t.cluster cl).set = c.set ∧
      (t.cluster cl).target = c.target ∧ (t.cluster cl).changedAt = none ∧ AllRegs s t ∧ Bytes s t) ∧
    (c.vfloor ≤ set.volts → c.vfloor ≤ 980 → c.target = none →
      ∃ t h g why, exec (.arbiterEvaluation cl) s = .next t ∧ (h = none ∨ h = s.clusterHint cl) ∧
        chooseSet c.pcoef c.vfloor p.share set h = some (g, why) ∧ (t.cluster cl).reason = why ∧ (t.cluster cl).changedAt = none ∧
        (t.cluster cl).target = (if c.set = g ∧ c.mv = g.volts then none else some g) ∧ (t.cluster cl).set = c.set ∧ AllRegs s t ∧ Bytes s t)) ∧
  (∀ (s : State) (cl : Nat) (g : RatioSet),
    let c := s.cluster cl
    c.target = some g → c.phaseAt + 20 ≤ c.timer →
    ∃ t, exec (.transitionStep cl) s = .next t ∧ AllRegs s t ∧ Bytes s t ∧
      (c.mv < g.volts → (t.cluster cl).mv = min (c.mv + 5) g.volts ∧ (t.cluster cl).set = c.set) ∧
      (g.volts ≤ c.mv → c.set ≠ g → (t.cluster cl).mv = c.mv ∧ (t.cluster cl).set.m = toward c.set.m g.m ∧
        (t.cluster cl).set.v = toward c.set.v g.v ∧ (t.cluster cl).set.n = toward c.set.n g.n ∧ (t.cluster cl).set.d = toward c.set.d g.d) ∧
      (g.volts ≤ c.mv → c.set = g → (t.cluster cl).mv = max (c.mv - 5) g.volts ∧ (t.cluster cl).set = g) ∧
      (c.next = none → ((t.cluster cl).target = none ↔ (t.cluster cl).set = g ∧ (t.cluster cl).mv = g.volts)) ∧
      (c.next = none → c.firstGrant = true → (t.cluster cl).target = none → (t.cluster cl).seq = (c.seq + 1) % 256)) ∧
  (∀ (s : State) (cl : Nat),
    ((s.cluster cl).throttleAmp ≠ 0 → ∃ t, exec (.throttleStart cl) s = .next t ∧ (t.cluster cl).throttled = true ∧ t.cores = s.cores ∧
      Bytes s t) ∧
    ∃ t, exec (.throttleEnd cl) s = .next t ∧ (t.cluster cl).throttled = false ∧ t.cores = s.cores ∧ Bytes s t) ∧
  (∀ (s : State) (cl : Nat), (s.cluster cl).sample ≠ 0 → (s.cluster cl).timer % (s.cluster cl).sample = 0 →
    (s.cluster cl).sampledAt ≠ (s.cluster cl).timer →
    ∃ t, exec (.eventSample cl) s = .next t ∧ AllRegs s t ∧ Bytes s t ∧ ∀ k (i : Fin 4), clusterOf k = cl → (look s.cores k).isSome →
      ((t.core k).counters.get i).sampled = ((s.core k).counters.get i).count ∧
      ((t.core k).counters.get i).smp = (((s.core k).counters.get i).count + 2 ^ 48 - ((s.core k).counters.get i).sampled) % 2 ^ 48) ∧
  (∀ (s : State) (cl x : Nat) (p : Partition), (s.cluster cl).timer % 1000 = 0 →
    s.partOf (cl / 8 * 2 * 32 + cl % 8 * 4) = some p → p.ctx = some x → s.launchesOn cl = [] → (s.ctx x).quotas.length = 8 →
    let n := (s.cluster cl).quotaRest / 1000000000000
    let left := quotaRem (nth (s.ctx x).quotas 0 0) - n
    0 ≤ left + 2 ^ 47 →
    ∃ t, exec (.quotaCharge cl) s = .next t ∧ Bytes s t ∧ (t.cluster cl).quotaRest = (s.cluster cl).quotaRest % 1000000000000 ∧
      quotaRem (nth (t.ctx x).quotas 0 0) = left ∧ (left ≤ 0 → 0 ∈ (t.ctx x).drained) ∧
      (0 < left → (t.ctx x).drained = (s.ctx x).drained.eraseDups)) ∧
  (∀ (s : State) (cs : List Nat), ∃ t, exec (.junction95 cs) s = .next t ∧ AllRegs s t ∧ Bytes s t ∧
    ((∃ c ∈ cs, 95 ≤ c) → t.cap = s.cap - 200 ∧ t.hot = true) ∧ ((∀ c ∈ cs, c < 92) → t.cap = s.cap ∧ t.hot = false) ∧
    ((∀ c ∈ cs, c < 95) → s.hot = false → t.cap = s.cap)) ∧
  ∀ (s : State) (cs : List Nat) (flow : Nat),
    (((∃ c ∈ cs, 105 ≤ c) ∨ flow < s.minFlow) → (s.parts.map fun p => p.id).Nodup →
      (∀ p ∈ s.parts, s.partOf (p.rect.y * 32 + p.rect.x) = some p) →
      ∃ t, exec (.thermalStop cs flow) s = .next t ∧ AllRegs s t ∧ Bytes s t ∧ (∀ p ∈ t.parts, p.halt = true ∧ p.thermal = true) ∧
        t.notices = s.notices ++ [.thermalStop, .thermOff]) ∧
    ((∀ c ∈ cs, c < 105) → s.minFlow ≤ flow → ∃ t, exec (.thermalStop cs flow) s = .next t ∧ t.parts = s.parts ∧ AllRegs s t ∧ Bytes s t)

/-! ## Boot, security and the host -/

/-- The device answers with a code and a body, and nothing else changes but the session (13 R392). -/
def Sys2Proof.Safety.Answers (i : Instr) (s : State) (code : Nat) (body : List Byte) : Prop :=
  ∃ t, exec i s = .next t ∧ t.notices = s.notices ++ [.spdm code body] ∧
    { t with spdm := s.spdm, notices := s.notices, ideKeys := s.ideKeys } = s

/-- 13 R389 to R392, 14 R427, 00 R2: a reset returns everything but what the stacks hold to its reset value, a line whose latest
bytes stood in a cache alone among them; a boot with an image for every unit, all of which verify, measures them and starts each
management core with its own, and any other stands in recovery; bring-up clears the cores, makes the partitions and presents the
device; each SPDM request is answered once its order allows, over CXL.io once the device is up, and otherwise with an error; a
session ends with its key gone. Where the rules leave a choice, the clause is the model's own (log 40, 41, 69, 94). -/
def Obligations.BootAndAttestation : Prop :=
  (∀ s : State, ∃ t, exec .powerOnReset s = .next t ∧ t.hbm = s.stacks ∧ (s.beneath = [] → t.hbm = s.hbm) ∧
    t.beneath = [] ∧ t.managers = [] ∧ t.cores = [] ∧ t.clusters = [] ∧ t.ctxs = [] ∧ t.parts = [] ∧
    t.boot = .off ∧ t.spdm.session = false) ∧
  (∀ (s : State) (imgs : List FirmwareImage), s.boot = .off →
    let all : Prop := (imgs.head?.map fun i => i.target) = some (.management 0) ∧
      (∀ n, n < 128 → ∃ i ∈ imgs, i.target = .management n) ∧ (∀ n, n < 16 → ∃ i ∈ imgs, i.target = .baseDie n) ∧
      ∀ i ∈ imgs, imageVerifies i = true
    ∃ t, exec (.boot imgs) s = .next t ∧ t.cores = s.cores ∧ Bytes s t ∧ (all → t.boot = .verified ∧
      t.measured = (imgs.map fun i => shake256 i.bytes) ∧
      ∀ n, n < 128 → ∃ i ∈ imgs, i.target = .management n ∧ look t.managers n = some (RvCore.loadedWith i.bytes)) ∧
      (¬all → t.boot = .recovery ∧ t.managers = s.managers)) ∧
  (∀ (s : State) (b : BringUp), s.boot = .verified → partsSound b = true → capSound b = true →
    (∀ e ∈ b.spares, spareSound e.2 = true) → (b.port0 = true ∨ b.port1 = true) →
    (∀ p ∈ b.parts, ∀ k ∈ rectCores p.1, Notice.noSpare (clusterOf k) ∉ s.notices) → ∃ t, exec (.bringUp b) s = .next t ∧ t.boot = .up ∧
    t.parts = partitionsOf b ∧ t.cap = b.cap ∧ (∀ k, { t.core k with spare := Core.reset.spare } = Core.reset) ∧ Bytes s t) ∧
  (∀ s : State, s.boot ≠ .off → s.viaIo = true → s.boot ≠ .up → ∀ i : Instr, i = .getVersion ∨ i = .getCapabilities ∨ i = .getDigests ∨
    i = .keyUpdate ∨ i = .endSession → exec i s = .next s) ∧
  (∀ s : State, s.boot ≠ .off → (s.viaIo = true → s.boot = .up) →
    Answers .getVersion s 0x04 [0x13] ∧
    (s.spdm.version = true → Answers .getCapabilities s 0x61 [] ∧ Answers (.negotiateAlgorithms true true) s 0x63 []) ∧
    (s.spdm.version = false → Answers .getCapabilities s 0x7F [0x04] ∧ Answers (.negotiateAlgorithms true true) s 0x7F [0x04]) ∧
    (s.spdm.algorithms = true → ∀ (nonce share : List Byte) (o n : Nat),
      Answers .getDigests s 0x01 (shake256 Config.certificateChain) ∧
      Answers (.getCertificate o n) s 0x02 ((Config.certificateChain.drop o).take n) ∧
      (∃ sig, Answers (.challenge nonce) s 0x03
        (shake256 Config.certificateChain ++ nonce ++ shake256 s.measurements.flatten ++ sig)) ∧
      (∃ sig, Answers (.getMeasurements nonce) s 0x60 (s.measurements.flatten ++ nonce ++ sig)) ∧
      (∃ sig, Answers (.keyExchange share) s 0x64 (share ++ sig)) ∧
      ∃ t, exec (.keyExchange share) s = .next t ∧ t.spdm.exchanging = true ∧ t.spdm.session = false) ∧
    (s.spdm.exchanging = true → Answers (.finish (Config.finishProof s.spdm.key)) s 0x65 [] ∧
      ∃ t, exec (.finish (Config.finishProof s.spdm.key)) s = .next t ∧ t.spdm.session = true ∧ t.ideKeys = Config.ideKeys s.spdm.key) ∧
    (∀ proof, proof ≠ Config.finishProof s.spdm.key → Answers (.finish proof) s 0x7F [0x04]) ∧
    (s.spdm.session = true → Answers .keyUpdate s 0x69 [] ∧ Answers .endSession s 0x6C [] ∧
      ∃ t, exec .endSession s = .next t ∧ t.spdm.session = false ∧ t.spdm.key = []) ∧
    ∀ code, Answers (.unsupportedSpdmRequest code) s 0x7F [0x07, code])

/-- 11 R298, R309, R313, R319, R320, 04 R123, 13 R390, R391: once the device is presented, a host AtomicOp on an aligned word
answers the old value and leaves the new one, and any other is unsupported; host reads and writes of its own memory reach it whole,
and those of the device's in pieces of 8 bytes at most, one a step, taking the line from every L1; a snoop answers whether the
device held its line; an invalidation drops pages, and an answer gives one. Where the rules leave a choice, the clause is the
model's own (log 35). -/
def Obligations.HostAccesses : Prop :=
  (∀ (s : State) (r : AtomicOpReq),
    let n := r.bytes
    let old := leNat (s.bytesAt ⟨false, r.addr⟩ n)
    let v := r.operand.toNat % 2 ^ (8 * n)
    s.boot = .up → (s.port0 = true ∨ s.port1 = true) → (r.op ≤ 2 → (n = 4 ∨ n = 8) → r.addr % n = 0 → r.addr + n ≤ hbmSize → s.hbm.wf = true → s.hostMem.wf = true →
      ∃ t, exec (.hostAtomicop r) s = .next t ∧ t.notices = s.notices ++ [.hostData (leBytes n old)] ∧ AllRegs s t ∧
        StoresBytes s t ⟨false, r.addr⟩ n (if r.op = 0 then (old + v) % 2 ^ (8 * n) else if r.op = 1 then v
          else if old = r.compare.toNat % 2 ^ (8 * n) then v else old)) ∧
    (2 < r.op ∨ (n ≠ 4 ∧ n ≠ 8) ∨ r.addr % n ≠ 0 ∨ hbmSize < r.addr + n →
      ∃ t, exec (.hostAtomicop r) s = .next t ∧ t.notices = s.notices ++ [.unsupportedRequest] ∧ t.cores = s.cores ∧ Bytes s t)) ∧
  (∀ (s : State) (r : HostAccess),
    let n := if r.onHost = true then hostSize r else hostPieceLen r 0
    r.onHost = true ∨ s.boot = .up ∧ (s.port0 = true ∨ s.port1 = true) ∧ r.addr + hostSize r ≤ hbmSize →
    (r.bytes = [] → ∃ t, exec (.hostMemoryAccess r) s = .next t ∧ t.cores = s.cores ∧ Bytes s t ∧
      (n = hostSize r → t.notices = s.notices ++ [.hostData (s.bytesAt ⟨r.onHost, r.addr⟩ r.len)] ∧ t.hostWork = s.hostWork) ∧
      (n < hostSize r → t.notices = s.notices ∧ t.hostWork = s.hostWork ++ [(r, s.bytesAt ⟨r.onHost, r.addr⟩ n)])) ∧
    (r.bytes ≠ [] → s.hbm.wf = true → s.hostMem.wf = true →
      ∃ t, exec (.hostMemoryAccess r) s = .next t ∧ AllRegs s t ∧ t.bytesAt ⟨r.onHost, r.addr⟩ n = r.bytes.take n ∧
        (∀ l : Loc, (l.onHost ≠ r.onHost ∨ l.addr < r.addr ∨ r.addr + n ≤ l.addr) → t.byte l = s.byte l) ∧
        (n = hostSize r → t.hostWork = s.hostWork) ∧ (n < hostSize r → t.hostWork = s.hostWork ++ [(r, r.bytes.take n)]) ∧
        ∀ k, ∀ e ∈ (t.core k).l1, e.1 ≠ (⟨r.onHost, r.addr⟩ : Loc).line)) ∧
  (∀ (s : State) (r : HostAccess) (d : List Byte) (w : List (HostAccess × List Byte)),
    let l : Loc := ⟨r.onHost, r.addr + d.length⟩
    let n := hostPieceLen r d.length
    s.hostWork = (r, d) :: w → d.length < hostSize r →
    AllRegs s s.hostPiece ∧ n ≤ 8 ∧ 0 < n ∧
    (r.bytes = [] → Bytes s s.hostPiece ∧ (d.length + n = hostSize r → s.hostPiece.notices = s.notices ++ [.hostData (d ++ s.bytesAt l n)])) ∧
    (r.bytes ≠ [] → s.hbm.wf = true → s.hostMem.wf = true → s.hostPiece.bytesAt l n = (r.bytes.drop d.length).take n ∧
      ∀ m : Loc, (m.onHost ≠ r.onHost ∨ m.addr < l.addr ∨ l.addr + n ≤ m.addr) → s.hostPiece.byte m = s.byte m) ∧
    (d.length + n = hostSize r → s.hostPiece.hostWork = w)) ∧
  (∀ (s : State) (line : Nat) (own : Bool), s.boot = .up → (s.port0 = true ∨ s.port1 = true) → ∃ t held, exec (.hostSnoop line own) s = .next t ∧ AllRegs s t ∧ Bytes s t ∧
    t.notices = s.notices ++ [.snoopAnswer line held] ∧ (held = true ↔ ∃ e ∈ s.cores, (look e.2.l1 ⟨true, line⟩).isSome) ∧
    ∀ k, (own = true → look (t.core k).l1 ⟨true, line⟩ = none) ∧ look (t.core k).l1 ⟨true, line⟩ ≠ some true) ∧
  (∀ (s : State) (x vpn n : Nat), (look s.ctxs x).isSome →
    (∀ e ∈ s.cores, s.cxId e.1 = x → ∀ p ∈ (s.ctx x).pages, pageMeets p (vpn * 4096) (n * 4096) = true → e.2.storesIn p = false) →
    ∃ t, exec (.atsInvalidation x vpn n) s = .next t ∧ AllRegs s t ∧ Bytes s t ∧
      (∀ p, p ∈ (t.ctx x).pages ↔ p ∈ (s.ctx x).pages ∧ pageMeets p (vpn * 4096) (n * 4096) = false) ∧
      ∀ k, s.cxId k = x → ∀ p ∈ (t.core k).mmu ++ (t.core k).mmu2, pageMeets p (vpn * 4096) (n * 4096) = false) ∧
  ∀ (s : State) (x : Nat) (p : PageGrant), (look s.ctxs x).isSome → pageSound p = true →
    ∃ t, exec (.priResponse x p) s = .next t ∧ t.cores = s.cores ∧ Bytes s t ∧ p ∈ (t.ctx x).pages ∧
      ∀ va, p.va ≤ va → va < p.va + p.size → Notice.pageRequest x va ∉ t.notices

/-- 13 R386, R388, R391, 17 R421 to R425, 04 R112, 05 R138: firmware creates a context whose tables keep their rules, with datum 0
and its pails clear, and refuses any other whole; a partition whose contexts are saved takes a rectangle of whole clusters that no
other meets; a spare takes a worn unit's place and is counted; a clean empties the caches and writes current versions back, and
changes nothing else; and a measured replay that may not begin is reported refused. Where the rules leave a choice, the clause is
the model's own (log 34, 68, 108). -/
def Obligations.FirmwareServices : Prop :=
  (∀ (s : State) (c : ContextParams) (p : Partition), s.part c.part = some p → s.mayCreate c p = true →
    (handlerFault c.handlers = none → tensorFault c.tensors = none → c.atlas = [] →
      ∃ t d, exec (.contextCreate c) s = .next t ∧ (look t.ctxs c.id).isSome ∧ (t.ctx c.id).handlers = c.handlers.map Handler.of ∧
        (t.ctx c.id).datum = some d ∧ d.counter = 0 ∧ d.launches = [] ∧ (t.part c.part).map (fun q => q.ctx) = some (some c.id) ∧
        (∀ i, i < 4096 → s.hbm.wf = true → t.byte ⟨false, c.pailPa + i⟩ = 0) ∧
        ∀ k n, rectHas p.rect k = true → ((t.core k).fc n).status = .free) ∧
    (∀ f, handlerFault c.handlers = some f → ∃ t, exec (.contextCreate c) s = .next t ∧ t.ctxs = s.ctxs ∧ t.cores = s.cores ∧
      t.notices = s.notices ++ [.contextRefused c.id 0 f.1 f.2] ∧ Bytes s t)) ∧
  (∀ (s : State) (n : Nat) (p : Partition) (r : Rect), s.part n = some p → p.ctx = none → p.halt = false →
    (∀ e ∈ s.ctxs, e.2.part = n → e.2.saved ≠ []) → (∀ q ∈ s.parts, q.id ≠ n → rectsMeet q.rect r = false) → wholeClusters r = true →
    (∀ cl, Notice.noSpare cl ∉ s.notices) →
    ∃ t, exec (.partitionChange n r) s = .next t ∧ t.part n = some { p with rect := r } ∧ AllRegs s t ∧ Bytes s t ∧
      ∀ k, rectHas r k = true → (t.core k).guard = 0) ∧
  (∀ (s : State) (n i : Nat) (u : SpareKind) (k : CoreId) (p : Partition), s.part n = some p → p.ctx = none → rectHas p.rect k = true →
    (∃ e ∈ s.ctxs, e.2.part = n ∧ e.2.saved ≠ []) → k < 1024 →
    (s.sparesLeft u k = true → ∃ t, exec (.substitution n u k i) s = .next t ∧ t.spares = s.spares ++ [(k, u, i)] ∧ AllRegs s t ∧ Bytes s t ∧
      (t.core k).spare = countSpare u (s.core k).spare) ∧
    (s.sparesLeft u k = false → ∃ t, exec (.substitution n u k i) s = .next t ∧ t.spares = s.spares ∧ Notice.noSpare (clusterOf k) ∈ t.notices)) ∧
  (∀ (s : State) (n : Nat) (p : Partition), s.part n = some p → (s.idlePart p = true ∨ s.allStopped p = true) →
    ∃ t, exec (.clean n) s = .next t ∧ AllRegs s t ∧
      ((∀ l ∈ s.l2, l.homedIn p.rect = true → l.tile.1 = 0 ∨ s.pinned l = true ∨ s.latched l = true ∨ s.unfinished l = true) →
        Bytes s t ∧ t.ctxs = s.ctxs ∧ ∀ x l, t.seenByte x l = s.seenByte x l) ∧
      ∀ k, rectHas p.rect k = true → (t.core k).l1 = [] ∧ (t.core k).il1 = [] ∧ (t.core k).mmu = [] ∧ (t.core k).mmu2 = [] ∧
        ∀ b, (t.core k).buf b = (s.core k).buf b) ∧
  (∀ (s : State) (bs : List Byte), s.replay = none →
    (s.ctxPart (Replay.of bs).ctx = none → s.hostMem.wf = true → ∃ t, exec (.measuredReplayRequest bs) s = .next t ∧ t.replay = none ∧
      t.byte ⟨true, (Replay.of bs).report.toNat⟩ = 1 ∧ t.cores = s.cores ∧ t.hbm = s.hbm) ∧
    ∀ p, s.ctxPart (Replay.of bs).ctx = some p → (Replay.of bs).valid bs p = true → (s.ctx (Replay.of bs).ctx).launches = [] →
      (s.ctx (Replay.of bs).ctx).imm = false → s.quiet (Replay.of bs).ctx p.rect = true →
      ∃ t, exec (.measuredReplayRequest bs) s = .next t ∧ t.replay.isSome ∧ (t.ctx (Replay.of bs).ctx).req = true ∧ t.cores = s.cores ∧
        Bytes s t)

/-! ## The fabric's nodes -/

/-- A lane of a node of an opcode is about to act: it is enabled, the fabric has not stopped (06 R183), no two inputs share a link
(02 R48), no token of the node waits to be sent, and the tokens hs stand at its inputs. -/
structure Sys2Proof.Safety.AtNode (s : State) (k : CoreId) (site lane op : Nat) (hs : List (Option Token)) : Prop where
  code : ((s.core k).node site).op.toNat = op
  enabled : lane < 4 ∧ laneOn ((s.core k).node site) lane = true
  runs : 8 ∉ (s.core k).records
  links : ∀ i j, i < j → j < 3 → selectOf ((s.core k).node site) i = selectOf ((s.core k).node site) j →
    selectOf ((s.core k).node site) i = 0
  lanes : ((s.core k).nodeState site).lanes.length = 4
  sent : ∀ v ∈ ((s.core k).nodeState site).lanes, v.out = []
  heads : ∀ i, i < 3 → (s.core k).headAt site ((s.core k).node site) i lane = nth hs i none

/-- The event takes the tokens at the inputs takes, sends a KILL up the inputs kills (but where the END stands next, 08 R248), and
leaves the lane as v; no register, no byte, no other lane and no other core changes. -/
def Sys2Proof.Safety.Turns (i : Instr) (s : State) (k : CoreId) (site lane : Nat) (takes kills : List Nat) (v : LaneState) : Prop :=
  ∃ t, exec i s = .next t ∧ ((t.core k).nodeState site).lane lane = v ∧ AllRegs s t ∧ Bytes s t ∧
    (∀ j, j ≠ k → t.core j = s.core j) ∧
    (∀ n m, (n ≠ site ∨ m ≠ lane) → ((t.core k).nodeState n).lane m = ((s.core k).nodeState n).lane m) ∧
    ∀ j, j < 3 → selectOf ((s.core k).node site) j ≠ 0 →
      let l := (s.core k).fabric.link site (inputSide ((s.core k).node site) j)
      let m := if j ∈ takes then l.take lane else l
      (t.core k).fabric.link site (inputSide ((s.core k).node site) j) =
        if j ∈ kills ∧ m.head lane ≠ some .fin then m.kill lane 0 else m

/-- The event raises a fault of the fabric: the halt, with the code in the fabric's record; no token moves (06 R183). -/
def Sys2Proof.Safety.Breaks (i : Instr) (s : State) (k : CoreId) (code : Nat) : Prop :=
  ∃ t, exec i s = .next t ∧ 8 ∈ (t.core k).records ∧ look (t.core k).origins 8 = some code ∧
    (t.core k).fabric = (s.core k).fabric ∧ AllRegs s t

/-- The operand that an item begins: none for a NULL. -/
def Sys2Proof.Safety.began (off : Bool) : Token → Option Operand
  | .head tag sz e => some ⟨tag, sz, e, [], false, off⟩
  | _ => none

/-- A token that begins a number. -/
def Sys2Proof.Safety.isHead : Token → Bool
  | .head _ _ _ => true
  | _ => false

/-- A lane has ended its number with tokens: operands that have not ended are discarded from here (06 R189, R195). -/
def Sys2Proof.Safety.ended (l : LaneState) (ts : List (Nat × Token)) : LaneState :=
  { l with
    ops := l.ops.map fun o => o.bind fun o => if o.ended then none else some { o with discard := true }
    busy := false, eo := none, sent := [], index := 0, out := ts }

/-- A token at input i of a lane is in the grammar of 06 R181, given the number that the lane is receiving there. -/
def Sys2Proof.Safety.Fits (s : State) (k : CoreId) (site lane i : Nat) (t : Token) : Prop := ((s.core k).view site lane).fits i t = true

/-- Of some inputs, those whose number does not count as ended: neither its END nor a HEAD that says zero was taken (08 R237). -/
def Sys2Proof.Safety.needless (l : LaneState) (is : List Nat) : List Nat :=
  is.filter fun i => ((nth l.ops i none).filter fun o => !(o.ended || o.tag = 1) && !o.discard).isSome

/-- Inputs whose number a lane has not received to its END. -/
def Sys2Proof.Safety.unended (l : LaneState) : List Nat :=
  (upto 3).filter fun i => ((nth l.ops i none).filter fun o => !o.ended && !o.discard).isSome

/-- The arithmetic nodes: event, opcode and what the opcode computes (06 R191). -/
def Sys2Proof.Safety.ArithNode (w : NodeWord) (k : CoreId) (site lane : Nat) (e : Instr × Nat × NodeOp) : Prop :=
  e ∈ ([(.nodeAdd k site lane, 0x01, addOp false), (.nodeSub k site lane, 0x02, addOp true), (.nodeMul k site lane, 0x03, mulOp),
   (.nodeMad k site lane, 0x04, madOp), (.nodeDiv k site lane, 0x05, divOp), (.nodeSqrt k site lane, 0x06, sqrtOp),
   (.nodeNeg k site lane, 0x07, passOp 0 (fun o => !o.sz) fun _ d => -d),
   (.nodeAbs k site lane, 0x08, passOp 0 (fun _ => false) fun o d => if o.neg = some true then -d else d),
   (.nodeShf k site lane, 0x09, passOp (signed 8 (bitsOf w.param.toNat 15 8)) (fun o => o.sz) fun _ d => d),
   (.nodeMin k site lane, 0x0A, orderOp false), (.nodeMax k site lane, 0x0B, orderOp true), (.nodeExp2 k site lane, 0x0C, exp2Op),
   (.nodeLog2 k site lane, 0x0D, log2Op), (.nodeRsqrt k site lane, 0x0E, rsqrtOp)] : List (Instr × Nat × NodeOp))

/-- A step of n operands begins (06 R188): items stand at every operand input, and the predicate, if the node has one at another
input, has been taken. With it false, or with a NULL among the items, the lane sends nulls, kills the numbers and discards them. -/
def Sys2Proof.Safety.Begins (i : Instr) (s : State) (k : CoreId) (site lane op n : Nat) (nulls : List (Nat × Token)) : Prop :=
  let w := (s.core k).node site
  let l := ((s.core k).nodeState site).lane lane
  (l.busy = false → (∀ o ∈ l.ops, o = none) →
    (∀ ts : List Token, AtNode s k site lane op (ts.map some) → ts.length = n → (∀ t ∈ ts, t = .null ∨ isHead t = true) →
      (w.pin = 0 ∨ n < w.pin.toNat ∧ ∃ b, l.pending = some (bit b)) →
      let off : Bool := (w.pin ≠ 0 && l.pending ≠ some (bit w.sense)) || ts.contains .null
      Turns i s k site lane (upto n) (if off then (upto n).filter fun j => ts[j]? ≠ some .null else [])
        { l with
          ops := (upto 3).map fun j => (ts[j]?).bind (began off)
          busy := !off, pending := none, eo := none, sent := [], index := 0, out := if off then nulls else [] }) ∧
    (∀ (ts : List Token) (b : Bool), ts.length = n → (∀ t ∈ ts, t = .null ∨ isHead t = true) → n < w.pin.toNat → l.pending = none →
      AtNode s k site lane op (ts.map some ++ List.replicate (w.pin.toNat - 1 - n) none ++ [some (.pred b)]) →
      Turns i s k site lane [w.pin.toNat - 1] [] { l with pending := some (bit b) }) ∧
    (∀ t, AtNode s k site lane op (List.replicate n (some t)) → t.isRow = true → l.pending = none →
      Turns i s k site lane (upto n) [] { l with out := [(0, t)] }) ∧
    (∀ t u, n = 2 → AtNode s k site lane op [some t, some u] → t.isRow = true → t ≠ u → (u.isRow = true ∨ u = .null ∨ isHead u = true) →
      Breaks i s k 0x46) ∧
    ∀ d, AtNode s k site lane op [some (.digit d)] → Breaks i s k 0x43) ∧
  (∀ o : Operand, l.busy = false → l.ops = [some o, none, none] → o.discard = true → o.ended = false → o.tag = 0 → o.digits.length < 64 →
    (∀ d, AtNode s k site lane op [some (.digit d)] →
      Turns i s k site lane [0] [] { l with ops := [some { o with digits := o.digits ++ [d] }, none, none] }) ∧
    (AtNode s k site lane op [some .fin] → Turns i s k site lane [0] [] { l with ops := [none, none, none] }))

/-- 06 R185 to R189, R191, R195: every arithmetic node begins its steps as R188 says; it sends a result without digits at once, or
HEAD once its exponent is at most 511 and known, then one digit after another up to its digit limit, and END; leading zeros lower an
exponent above 511, and a digit that is not zero there makes the result infinite. Where the rules leave a choice, the clause is the
model's own (log 50, 51). -/
def Obligations.ArithmeticNodes : Prop :=
  ∀ (s : State) (k : CoreId) (site lane : Nat),
    let w := (s.core k).node site
    let l := ((s.core k).nodeState site).lane lane
    let os := l.ops.filterMap id
    ∀ e, ArithNode w k site lane e →
      Begins e.1 s k site lane e.2.1 e.2.2.inputs [(0, .null)] ∧
      (AtNode s k site lane e.2.1 [] → l.busy = true → l.ops.length = 3 →
        (l.eo = none →
          (e.2.2.cls os = .nan → Turns e.1 s k site lane [] (unended l) (ended l [(0, .head 3 false 0), (0, .fin)])) ∧
          (∀ n, e.2.2.cls os = .inf n → Turns e.1 s k site lane [] (unended l) (ended l [(0, .head 2 n 0), (0, .fin)])) ∧
          (∀ n, e.2.2.cls os = .zero n → Turns e.1 s k site lane [] (unended l) (ended l [(0, .head 1 n 0), (0, .fin)])) ∧
          (∀ x, e.2.2.cls os = .digits → e.2.2.eo os = some x →
            (-512 ≤ x - l.index → x - l.index ≤ 511 →
              Turns e.1 s k site lane [] [] { l with eo := some x, out := [(0, .head 0 (e.2.2.sz os) (x - l.index))] }) ∧
            (x - l.index < -512 → Turns e.1 s k site lane [] (unended l) (ended l [(0, .head 1 (e.2.2.sz os) 0), (0, .fin)])) ∧
            (511 < x - l.index → (∃ o ∈ os, o.ended = false) →
              (e.2.2.pick os x l.index 0 = some 0 → Turns e.1 s k site lane [] [] { l with index := l.index + 1 }) ∧
              ∀ d, d ≠ 0 → e.2.2.pick os x l.index 0 = some d →
                Turns e.1 s k site lane [] (unended l) (ended l [(0, .head 2 (decide (d < 0)) 0), (0, .fin)])))) ∧
        (∀ x, l.eo = some x →
          (bitsOf w.param.toNat 5 0 + 1 ≤ l.sent.length → Turns e.1 s k site lane [] (unended l) (ended l [(0, .fin)])) ∧
          (l.sent.length < bitsOf w.param.toNat 5 0 + 1 → (∃ o ∈ os, o.ended = false) →
            ∀ d, e.2.2.pick os x l.index (digitsInt l.sent) = some d →
              Turns e.1 s k site lane [] [] { l with index := l.index + 1, sent := l.sent ++ [d], out := [(0, .digit d)] })))

/-- Digits are -1, 0 and 1 (06 R179), the number is finite and its END was taken. -/
def Sys2Proof.Safety.Received (o : Operand) : Prop := o.tag = 0 ∧ o.ended = true ∧ ∀ d ∈ o.digits, -1 ≤ d ∧ d ≤ 1

/-- An exact number r lies within 2^x of z × 2^x. -/
def Sys2Proof.Safety.within (r : Int × Int) (z x : Int) : Prop := dyGe (z + 1, x) r = true ∧ dyGe r (z - 1, x) = true

/-- The digits that an opcode selects for operands whose exact result is r: after any number of them, what they stand for is within
the weight of the last of r (06 R185, R193). -/
def Sys2Proof.Safety.Converges (o : NodeOp) (os : List Operand) (r : Int × Int) : Prop :=
  ∃ eo, o.eo os = some eo ∧ within r 0 eo ∧
    ∀ (j : Nat) (z : Int), within r z (eo - j) → ∃ d, o.pick os eo j z = some d ∧ -1 ≤ d ∧ d ≤ 1 ∧ within r (2 * z + d) (eo - (j + 1))

/-- 06 R192, R193, R195, R197: carry-free addition gives digits -1 to 1 that stand for the exact sum or difference; the digits of a
product, of a product and sum, and of the smaller or larger number stay within the last digit's weight of the exact result; neg, abs
and shf pass digits on; and the classes of results are as R195's table has them. -/
def Obligations.ArithmeticResults : Prop :=
  (∀ (a b : Operand) (sub : Bool) (n : Nat), Received a → Received b → (∀ o ∈ [a, b], (o.digits.length : Int) + (max a.e b.e - o.e) ≤ n) →
    let d (j : Nat) : Int := ((addOp sub).pick [a, b] (max a.e b.e + 1) j 0).getD 2
    (addOp sub).eo [a, b] = some (max a.e b.e + 1) ∧ (∀ j, -1 ≤ d j ∧ d j ≤ 1) ∧
      dyEq (digitsInt ((upto (n + 1)).map d), max a.e b.e - n) (dyAdd a.value (if sub then -b.value.1 else b.value.1, b.value.2)) = true) ∧
  (∀ a b c : Operand, Received a → Received b → Received c →
    Converges mulOp [a, b] (dyMul a.value b.value) ∧ Converges madOp [a, b, c] (dyAdd (dyMul a.value b.value) c.value) ∧
    (∀ r, (r = a.value ∨ r = b.value) → dyGe r a.value = true → dyGe r b.value = true → Converges (orderOp true) [a, b] r) ∧
    (∀ r, (r = a.value ∨ r = b.value) → dyGe a.value r = true → dyGe b.value r = true → Converges (orderOp false) [a, b] r)) ∧
  (∀ (a : Operand) (k : Int) (sz : Operand → Bool) (f : Operand → Int → Int) (j : Nat) (d : Int) (eo z : Int), a.digits[j]? = some d →
    (passOp k sz f).pick [a] eo j z = some (f a d) ∧ (passOp k sz f).eo [a] = some (a.e + k)) ∧
  (∀ a b c : Operand,
    (a.tag = 3 ∨ b.tag = 3 → (addOp false).cls [a, b] = .nan ∧ (addOp true).cls [a, b] = .nan ∧ mulOp.cls [a, b] = .nan ∧
      madOp.cls [a, b, c] = .nan ∧ divOp.cls [a, b] = .nan ∧ (orderOp true).cls [a, b] = .nan ∧ (orderOp false).cls [a, b] = .nan) ∧
    (a.tag = 3 → sqrtOp.cls [a] = .nan ∧ rsqrtOp.cls [a] = .nan ∧ exp2Op.cls [a] = .nan ∧ log2Op.cls [a] = .nan) ∧
    (a.tag = 2 → b.tag = 2 → (addOp false).cls [a, b] = (if a.sz = b.sz then .inf a.sz else .nan) ∧
      (addOp true).cls [a, b] = (if a.sz = b.sz then .nan else .inf a.sz) ∧ divOp.cls [a, b] = .nan) ∧
    (a.tag = 2 → b.zero = some true → mulOp.cls [a, b] = .nan ∧ mulOp.cls [b, a] = .nan) ∧
    (∀ p, a.tag = 2 → b.zero = some false → b.neg = some p → b.tag = 0 → mulOp.cls [a, b] = .inf (a.sz != p) ∧
      divOp.cls [a, b] = .inf (a.sz != p) ∧ divOp.cls [b, a] = .zero (b.sz != a.sz)) ∧
    (a.zero = some true → b.zero = some true → divOp.cls [a, b] = .nan) ∧
    (∀ p, a.zero = some false → a.neg = some p → a.tag = 0 → b.zero = some true → divOp.cls [a, b] = .inf (p != b.sz)) ∧
    (a.zero = some true → a.tag ≤ 1 → sqrtOp.cls [a] = .zero a.sz ∧ rsqrtOp.cls [a] = .inf a.sz ∧ log2Op.cls [a] = .inf true) ∧
    (a.zero = some false → a.neg = some true → a.tag = 0 → sqrtOp.cls [a] = .nan ∧ rsqrtOp.cls [a] = .nan ∧ log2Op.cls [a] = .nan) ∧
    (a.tag = 2 → exp2Op.cls [a] = (if a.sz then .zero false else .inf false) ∧
      sqrtOp.cls [a] = (if a.sz then .nan else .inf false) ∧ rsqrtOp.cls [a] = (if a.sz then .nan else .zero false)) ∧
    (a.tag = 2 → b.tag ≠ 3 → a.sz = false → (orderOp true).cls [a, b] = .inf false) ∧
    (a.tag = 2 → b.tag ≠ 3 → a.sz = true → (orderOp false).cls [a, b] = .inf true))

/-- 06 R199 to R205: merge takes items by turns and passes a number whole; split sends them to main and aux by turns, or as PREDs
say; fork copies each token to every branch that has not killed the number, once all have room; join passes one item of each input
at once; a round with a BOUND begins on every enabled lane at once; psrc and nsrc send their patterns; and dly sends each token k of
its turns after it was taken, in order. A row token passes where it stands at every input. Where the rules leave a choice, the
clause is the model's own (log 7, 52, 86, 102). -/
def Obligations.RoutingNodes : Prop :=
  ∀ (s : State) (k : CoreId) (site lane : Nat),
    let c := s.core k
    let w := c.node site
    let l := (c.nodeState site).lane lane
    let p := w.param.toNat
    let room (x : Nat) : Prop := c.outRoom site w x = true
    (∀ i t, l.busy = false → w.var = false → i < 2 → l.turn = i → Fits s k site lane i t → t.isRow = false →
      AtNode s k site lane 0x28 (if i = 0 then [some t] else [none, some t]) →
      Turns (.nodeMerge k site lane) s k site lane [i] []
        { l with busy := isHead t, index := i, stopped := false, turn := 1 - i, order := l.order.erase i, out := [(0, t)] }) ∧
    (∀ t, l.busy = false → t.isRow = true → AtNode s k site lane 0x28 [some t, some t] →
      Turns (.nodeMerge k site lane) s k site lane [0, 1] [] { l with turn := 0, order := (l.order.erase 0).erase 1, out := [(0, t)] }) ∧
    (l.busy = false → AtNode s k site lane 0x28 [some .eor, some .eok] → Breaks (.nodeMerge k site lane) s k 0x46) ∧
    (∀ i t, l.busy = true → i < 2 → l.index = i → Fits s k site lane i t →
      AtNode s k site lane 0x28 (if i = 0 then [some t] else [none, some t]) →
      Turns (.nodeMerge k site lane) s k site lane [i] []
        { l with busy := decide (t ≠ .fin), stopped := l.stopped && decide (t ≠ .fin), out := if l.stopped then [] else [(0, t)] }) ∧
    (∀ t, l.busy = false → Fits s k site lane 0 t → t.isRow = false → t.kind ≠ 6 →
      (w.var = false → AtNode s k site lane 0x29 [some t] →
        Turns (.nodeSplit k site lane) s k site lane [0] [] { l with
          busy := isHead t, index := if l.turn = 0 then 0 else 2, stopped := false, turn := 1 - l.turn
          out := [(if l.turn = 0 then 0 else 2, t)] }) ∧
      ∀ b, w.var = true → AtNode s k site lane 0x29 [some t, some (.pred b)] →
        Turns (.nodeSplit k site lane) s k site lane [0, 1] [] { l with
          busy := isHead t, index := if b then 0 else 2, stopped := false, out := [(if b then 0 else 2, t)] }) ∧
    (∀ t, l.busy = false → Fits s k site lane 0 t → (t.isRow = true ∨ t.kind = 6) → AtNode s k site lane 0x29 [some t] →
      Turns (.nodeSplit k site lane) s k site lane [0] [] { l with turn := if t.isRow then 0 else l.turn, out := [(0, t), (2, t)] }) ∧
    (∀ hs u, w.var = true → AtNode s k site lane 0x29 hs → nth hs 1 none = some u → u.kind ≠ 7 → Breaks (.nodeSplit k site lane) s k 0x43) ∧
    (∀ t, Fits s k site lane 0 t → AtNode s k site lane 0x2A [some t] →
      ((∀ x ∈ branches w, room x) →
        (l.busy = false → Turns (.nodeFork k site lane) s k site lane [0] []
          { l with busy := isHead t, index := 0, stopped := false, out := (branches w).map fun x => (x, t) }) ∧
        (l.busy = true → Turns (.nodeFork k site lane) s k site lane [0] []
          { l with busy := decide (t ≠ .fin), out := ((branches w).filter fun x => !bitOf l.index x).map fun x => (x, t) })) ∧
      (∀ x ∈ branches w, ¬room x → Turns (.nodeFork k site lane) s k site lane [] [] l)) ∧
    (∀ ts : List Token, (∀ o ∈ l.ops, o = none) → 0 < ts.length → ts.length ≤ 3 → (∀ i, i < 3 → (selectOf w i ≠ 0 ↔ i < ts.length)) →
      (∀ i t, ts[i]? = some t → Fits s k site lane i t ∧ t.kind ≠ 6 ∧ room i) → AtNode s k site lane 0x2B (ts.map some) →
      (∀ i j, i < j → j < ts.length → c.outDest site w i ≠ c.outDest site w j ∨ c.outDest site w i = .none) →
      ∃ u, exec (.nodeJoin k site lane) s = .next u ∧ AllRegs s u ∧ Bytes s u ∧
        ((u.core k).nodeState site |>.lane lane).ops = (upto 3).map (fun i => (ts[i]?).bind (began false)) ∧
        ((u.core k).nodeState site |>.lane lane).out = [] ∧
        ∀ i t, ts[i]? = some t →
          ((u.core k).fabric.link site (inputSide w i)).fifo = ((c.fabric.link site (inputSide w i)).take lane).fifo ∧
          ∀ q d, c.outDest site w i = .node q d → beatOf [(lane, t)] false ∈ ((u.core k).fabric.link q d).wire) ∧
    (∀ hs, AtNode s k site lane 0x2B hs → c.joinBounds site lane ≠ [] →
      (∀ m ∈ lanesOn w, c.joinBounds site m ≠ c.joinBounds site lane → Turns (.nodeJoin k site lane) s k site lane [] [] l) ∧
      ∀ i n q d, (∀ m ∈ lanesOn w, c.joinBounds site m = c.joinBounds site lane ∧ c.headAt site w i m = some (.bound n)) →
        i ∈ c.joinBounds site lane → (∀ j, selectOf w j ≠ 0 → j < 3 → room j) → c.outDest site w i = .node q d →
        (∀ j, j < 3 → j ≠ i → c.outDest site w j ≠ .node q d) →
        ∃ u, exec (.nodeJoin k site lane) s = .next u ∧ AllRegs s u ∧ Bytes s u ∧ ⟨6, 0xF#4, 0#4, n⟩ ∈ ((u.core k).fabric.link q d).wire) ∧
    (let next := (l.index + 1) % (bitsOf p 19 16 + 1);
      let one : List (Nat × Token) := [(0, .pred (bitOf p l.index))];
      (∀ t, bitOf p 20 = false → (∀ o ∈ l.ops, o = none) → AtNode s k site lane 0x2C [some t] → Fits s k site lane 0 t →
        (t.isRow = true → Turns (.nodePsrc k site lane) s k site lane [0] [] { l with index := 0 }) ∧
        (t.isRow = false → Turns (.nodePsrc k site lane) s k site lane [0] (if isHead t then [0] else [])
          { l with index := next, ops := if isHead t then [began true t, none, none] else l.ops, out := one })) ∧
      (bitOf p 20 = true → AtNode s k site lane 0x2C [] →
        (room 0 → Turns (.nodePsrc k site lane) s k site lane [] [] { l with index := next, out := one }) ∧
        (¬room 0 → Turns (.nodePsrc k site lane) s k site lane [] [] l))) ∧
    (let n := bitsOf p 15 0;
      AtNode s k site lane 0x2D [] →
        (l.stopped = false → room 0 → (n = 0 ∨ l.index < n) →
          Turns (.nodeNsrc k site lane) s k site lane [] [] { l with index := l.index + 1, out := [(0, .null)] }) ∧
        (l.stopped = false → room 0 → n ≠ 0 → n ≤ l.index →
          Turns (.nodeNsrc k site lane) s k site lane [] [] { l with stopped := true, out := if bitOf p 16 then [(0, .eor)] else [] }) ∧
        (l.stopped = true ∨ ¬room 0 → Turns (.nodeNsrc k site lane) s k site lane [] [] l)) ∧
    (let ages := l.order.map (· + 1);
      let aged : LaneState :=
        if bitsOf p 5 0 + 1 ≤ ages.headD 0 then
          { l with held := l.held.drop 1, order := ages.drop 1, out := l.held.head?.toList.map fun u => (0, u) }
        else { l with order := ages };
      (∀ t, Fits s k site lane 0 t → AtNode s k site lane 0x2E [some t] →
        (l.stopped = false → aged.held.length < 64 → Turns (.nodeDly k site lane) s k site lane [0] [] { aged with
          held := aged.held ++ [t], order := aged.order ++ [0], busy := isHead t || (l.busy && decide (t ≠ .fin)) }) ∧
        (64 ≤ aged.held.length → Turns (.nodeDly k site lane) s k site lane [] [] aged)) ∧
      (AtNode s k site lane 0x2E [] → Turns (.nodeDly k site lane) s k site lane [] [] aged))

/-- 06 R206 to R208: a counter sends its index as a number and whether it is the last, and an EOR after the last; BOUND sets its
trip count, at once between rows and else from the next one. A controller issues permits to its run as its kind allows: one at a
time, fewer than W, or all; it counts dones, and sends one to its parent after the last. Where the rules leave a choice, the clause
is the model's own (log 53, 102). -/
def Obligations.CountersAndControllers : Prop :=
  (∀ e i : Nat, 0 < e → i < 2 ^ e → ∃ ds : List Int, ds.length = e ∧ digitsInt ds = i ∧
    countNumber e i = (0, .head 0 false e) :: ds.map (fun d => (0, Token.digit d)) ++ [(0, .fin)]) ∧
  ∀ (s : State) (k : CoreId) (site lane : Nat),
    let c := s.core k
    let w := c.node site
    let l := (c.nodeState site).lane lane
    let p := w.param.toNat
    let e := bitsOf p 5 0
    let ticked : LaneState :=
      if l.index + 1 = l.trip then { l with
        index := 0, trip := l.pending.getD l.trip, pending := none, stopped := bitOf p 6 && !bitOf p 7
        out := countNumber e l.index ++ [(2, .pred true), (0, .eor), (1, .pred true)] }
      else { l with index := l.index + 1, out := countNumber e l.index ++ [(2, .pred false)] }
    (l.trip ≠ 0 →
      ((e = 0 ∨ l.trip ≤ 2 ^ e) →
        (AtNode s k site lane 0x22 [some (.pred true)] → Turns (.nodeCnt k site lane) s k site lane [0] [] ticked) ∧
        (AtNode s k site lane 0x22 [] → bitOf p 6 = true → l.stopped = false → c.outRoom site w 0 = true →
          Turns (.nodeCnt k site lane) s k site lane [] [] ticked)) ∧
      (0 < e → 2 ^ e < l.trip → AtNode s k site lane 0x22 [some (.pred true)] → Breaks (.nodeCnt k site lane) s k 0x45)) ∧
    (AtNode s k site lane 0x22 [some (.pred false)] → Turns (.nodeCnt k site lane) s k site lane [0] [] { l with index := 0 }) ∧
    (∀ n, AtNode s k site lane 0x22 [none, some (.bound n)] →
      (l.index = 0 → Turns (.nodeCnt k site lane) s k site lane [1] [] { l with trip := n, stopped := false }) ∧
      (l.index ≠ 0 → Turns (.nodeCnt k site lane) s k site lane [1] [] { l with pending := some n })) ∧
    ∀ q ∈ ([(.nodeSeqc k site lane, 0x23, fun i d => i = d), (.nodePipc k site lane, 0x24, fun i d => i - d < bitsOf p 23 16 + 1),
        (.nodeStrc k site lane, 0x25, fun _ _ => true)] : List (Instr × Nat × (Nat → Nat → Bool))),
      (∀ n, AtNode s k site lane q.2.1 [none, none, some (.bound n)] →
        (1 ≤ n → n ≤ 65536 → Turns q.1 s k site lane [2] [] { l with pending := some n }) ∧ (n = 0 ∨ 65536 < n → Breaks q.1 s k 0x45)) ∧
      (AtNode s k site lane q.2.1 [some (.pred true)] → l.inRun = false →
        Turns q.1 s k site lane [0] [] { l with
          inRun := true, stopped := true, issued := 0, taken := 0, trip := l.pending.getD (bitsOf p 15 0 + 1) }) ∧
      (AtNode s k site lane q.2.1 [] → l.inRun = true →
        (l.issued < l.trip → c.outRoom site w 0 = true → q.2.2 l.issued l.taken = true →
          Turns q.1 s k site lane [] [] { l with issued := l.issued + 1, out := [(0, .pred true)] }) ∧
        (l.issued = l.trip ∨ q.2.2 l.issued l.taken = false → Turns q.1 s k site lane [] [] l)) ∧
      (AtNode s k site lane q.2.1 [none, some (.pred true)] → l.inRun = true → l.issued = l.trip →
        (l.taken < l.issued → Turns q.1 s k site lane [1] [] { l with
          taken := l.taken + 1, inRun := decide (l.taken + 1 ≠ l.trip), out := if l.taken + 1 = l.trip then [(2, .pred true)] else [] }) ∧
        (l.taken = l.issued → Breaks q.1 s k 0x45))

/-- What an operand can still become: the same number received to its END. -/
def Sys2Proof.Safety.Completes (a b : Operand) : Prop :=
  a.tag ≤ 1 ∧ b.tag = a.tag ∧ b.e = a.e ∧ a.digits <+: b.digits ∧ (∀ d ∈ b.digits, -1 ≤ d ∧ d ≤ 1) ∧ (a.whole = true → b.digits = a.digits)

/-- 08 R236 to R244: a decision from leading digits is the sign of the exact difference, whatever digits follow; cmp, rect, maxk and
thrk begin their steps as arithmetic nodes do, decide so, and then send their PREDs and numbers and kill the number that is not
needed; and sel passes the item that its PRED names and kills the other. Where the rules leave a choice, the clause is the model's
own (log 103, 104). -/
def Obligations.ComparisonNodes : Prop :=
  (∀ (a b a' b' : Operand) (d : Int), Completes a a' → Completes b b' → decidePair a b = .sign d →
    d = (dyAdd a'.value (-b'.value.1, b'.value.2)).1.sign) ∧
  (∀ (a a' : Operand) (t : Int × Int) (d : Int), Completes a a' → decideOne a t = .sign d → d = (dyAdd a'.value (-t.1, t.2)).1.sign) ∧
  ∀ (s : State) (k : CoreId) (site lane : Nat),
    let c := s.core k
    let w := c.node site
    let l := (c.nodeState site).lane lane
    let p := w.param.toNat
    (∀ q ∈ ([(.nodeCmp k site lane, 0x10, if w.var then 1 else 2), (.nodeRect k site lane, 0x11, 1), (.nodeMaxk k site lane, 0x12, 2),
        (.nodeThrk k site lane, 0x13, 1)] : List (Instr × Nat × Nat)),
      Begins q.1 s k site lane q.2.1 q.2.2 [(0, .null), (2, .null)]) ∧
    (∀ (a : Operand) (b : Option Operand), l.busy = true → l.ops = [some a, b, none] → b.isSome = !w.var → AtNode s k site lane 0x10 [] →
      let dec := match b with
        | some b => decidePair a b
        | none => decideOne a (0, 0)
      ∀ r, (dec = .unordered ∧ r = decide (bitsOf p 2 0 = 5) ∨ ∃ d, dec = .sign d ∧ r = condHolds (bitsOf p 2 0) d) →
        Turns (.nodeCmp k site lane) s k site lane [] (if bitOf p 3 then needless l [0, 1] else []) (ended l [(0, .pred r), (2, .pred !r)])) ∧
    (∀ a b : Operand, l.busy = true → l.ops = [some a, some b, none] → AtNode s k site lane 0x12 [] → l.eo = none →
      (decidePair a b = .unordered → Turns (.nodeMaxk k site lane) s k site lane [] (needless l [0, 1])
        (ended l [(0, .head 3 false 0), (0, .fin), (2, .pred false)])) ∧
      ∀ d, decidePair a b = .sign d →
        let bWins : Bool := if w.var then decide (0 < d) else decide (d < 0)
        let win := if bWins then b else a
        let sz := if d = 0 then (if w.var then a.sz || b.sz else a.sz && b.sz) else win.sz
        (win.tag = 0 → Turns (.nodeMaxk k site lane) s k site lane [] (needless l [bit !bWins])
          { l with
            eo := some (max a.e b.e), turn := bit bWins, index := 0, out := [(0, .head 0 sz (max a.e b.e)), (2, .pred bWins)]
            ops := updNth l.ops (bit !bWins) fun o => o.bind fun o => if o.ended then none else some { o with discard := true } }) ∧
        (win.tag ≠ 0 → Turns (.nodeMaxk k site lane) s k site lane [] (needless l [bit !bWins])
          (ended l [(0, .head win.tag sz 0), (0, .fin), (2, .pred bWins)]))) ∧
    (∀ a : Operand, l.busy = true → l.ops = [some a, none, none] →
      (AtNode s k site lane 0x11 [] →
        (l.eo = none → a.tag = 0 → Turns (.nodeRect k site lane) s k site lane [] [] { l with eo := some a.e, turn := 0, out := [(0, .head 0 false a.e)] }) ∧
        (∀ e d, l.eo = some e → l.turn = 0 → l.index < bitsOf p 5 0 + 1 → a.digits[l.index]? = some d →
          (d = 0 → Turns (.nodeRect k site lane) s k site lane [] [] { l with index := l.index + 1, out := [(0, .digit 0)] }) ∧
          (d = 1 → Turns (.nodeRect k site lane) s k site lane [] [] { l with
            index := l.index + 1, turn := 1, out := [(0, .digit 1), (2, .pred true)] }) ∧
          (d = -1 → Turns (.nodeRect k site lane) s k site lane [] (unended l) (ended l [(0, .fin), (2, .pred false)])))) ∧
      (AtNode s k site lane 0x13 [] → l.eo = none → ∀ d, decideOne a (signed 8 (bitsOf p 13 6), signed 8 (bitsOf p 21 14)) = .sign d →
        let passes : Prop := if w.var then d ≤ 0 else 0 ≤ d
        (passes → a.tag = 0 → Turns (.nodeThrk k site lane) s k site lane [] [] { l with
          eo := some a.e, index := 0, out := [(0, .head 0 a.sz a.e), (2, .pred true)] }) ∧
        (¬passes → Turns (.nodeThrk k site lane) s k site lane [] (needless l [0])
          (ended l (if bitOf p 22 then [(0, .head 2 (!w.var) 0), (0, .fin), (2, .pred false)] else [(0, .null), (2, .null)]))))) ∧
    (∀ hs i b, (i = 1 ∨ i = 2) → nth hs i none = some (.pred b) → AtNode s k site lane 0x14 hs → Breaks (.nodeSel k site lane) s k 0x43) ∧
    (∀ b, AtNode s k site lane 0x14 [some (.pred b)] → l.pending = none →
      Turns (.nodeSel k site lane) s k site lane [0] [] { l with pending := some (bit b), left := 6 }) ∧
    (∀ b i tag sz e, (i = 1 ∨ i = 2) → l.pending = some (bit b) → bitOf l.left i = true →
      AtNode s k site lane 0x14 (if i = 1 then [none, some (.head tag sz e)] else [none, none, some (.head tag sz e)]) →
      Turns (.nodeSel k site lane) s k site lane [i] (if i = 2 - bit b then [] else [i]) { l with
        left := l.left - 2 ^ i, ops := updNth l.ops i fun _ => some ⟨tag, sz, e, [], false, decide (i ≠ 2 - bit b)⟩
        out := if i = 2 - bit b then [(0, .head tag sz e)] else [] }) ∧
    (∀ t, t.isRow = true → l.pending = none → AtNode s k site lane 0x14 [some t, some t, some t] →
      Turns (.nodeSel k site lane) s k site lane [0, 1, 2] [] { l with out := [(0, t)] })

/-- 07 R216, R217, R219, R220, R224 to R227, R229 to R231, 09 R259: w2d makes numbers of words, d2w words of numbers, dqg scaled
integers, and falign collects a beat into its group and sends a closed group aligned, each element rounded to its digits under the
shared exponent; acc adds the numbers of its row groups and sends their sum; skc passes every token; row tokens pass, and an EOK
leaves main with a done on aux where both have room; and the counts of ended tiles travel to the skim network's root, which sends
their sums to its port. Where the rules leave a choice, the clause is the model's own (log 54, 101, 106). -/
def Obligations.ConverterNodes : Prop :=
  (∀ fmt x, (FloatFmt.of fmt).isNone → x % 2 ^ fmtBits fmt ≠ 0 → ∃ neg ds, ds.length = fmtBits fmt ∧ digitsInt ds = unpackInt fmt x ∧
    wordNumber fmt 0 false 64 x = ((0, .head 0 neg (fmtBits fmt)) :: ds.map (fun d => (0, Token.digit d)) ++ [(0, .fin)], false)) ∧
  (∀ (fmt : Nat) (f : FloatFmt) (ws : List Nat) (x d : Nat) (neg : Bool) (m : Nat) (e : Int), 1 ≤ fmt → fmt ≤ 4 → FloatFmt.of fmt = some f →
    f.fbits + 1 ≤ d → x ∈ ws → unpackFl f x = .fin neg m e →
    let eg := groupExp f ws
    ∃ ds : List Int, ds.length = d ∧ alignWord f d eg x = (0, .head 0 neg eg) :: ds.map (fun d => (0, Token.digit d)) ++ [(0, .fin)] ∧
      (let off := dyAdd (digitsInt ds, 0) (if neg then (m : Int) else -(m : Int), e + d - eg);
        dyGe (1, -1) off = true ∧ dyGe off (-1, -1) = true)) ∧
  (∀ (s : State) (k : CoreId) (site lane : Nat),
    let c := s.core k
    let w := c.node site
    let l := (c.nodeState site).lane lane
    let p := w.param.toNat
    (c.skimHeld site lane = false →
      (∀ x : BitVec 32, AtNode s k site lane 0x18 [some (.word x)] →
        (x.toNat < 2 ^ fmtBits (bitsOf p 3 0) → Turns (.nodeW2d k site lane) s k site lane [0] [] { l with
          out := (wordNumber (bitsOf p 3 0) (signed 8 (bitsOf p 17 10)) w.var (bitsOf p 9 4 + 1) x.toNat).1 }) ∧
        (2 ^ fmtBits (bitsOf p 3 0) ≤ x.toNat → Breaks (.nodeW2d k site lane) s k 0x42)) ∧
      (∀ t, t.isRow = true →
        (AtNode s k site lane 0x18 [some t] → Turns (.nodeW2d k site lane) s k site lane [0] [] { l with out := [(0, t)] }) ∧
        (AtNode s k site lane 0x19 [some t] → l.ops = [none, none, none] →
          Turns (.nodeD2w k site lane) s k site lane [0] [] { l with out := [(0, t), (1, t)] }) ∧
        (AtNode s k site lane 0x1A [some t] →
          Turns (.nodeDqg k site lane) s k site lane [0] [] { l with turn := 0, left := 0, out := [(0, t)] })) ∧
      (∀ e ∈ ([(.nodeW2d k site lane, 0x18), (.nodeDqg k site lane, 0x1A)] : List (Instr × Nat)), ∀ q d q' d',
        w.op.toNat = e.2 → lane < 4 → laneOn w lane = true → 8 ∉ c.records → (c.nodeState site).lanes.length = 4 →
        l.out = [(0, .eok)] → (∀ n, n < 4 → n ≠ lane → ((c.nodeState site).lane n).out = []) →
        c.outDest site w 0 = .node q d → c.outDest site w 2 = .node q' d' → (q, d) ≠ (q', d') → c.outRoom site w 0 = true →
        (c.outRoom site w 2 = true → (∀ i, i < 3 → c.headAt site w i lane = none) →
          ∃ t, exec e.1 s = .next t ∧ AllRegs s t ∧ Bytes s t ∧ (((t.core k).nodeState site).lane lane).out = [] ∧
            ((t.core k).fabric.link q d).wire = (c.fabric.link q d).wire ++ [beatOf [(lane, .eok)] false] ∧
            ((t.core k).fabric.link q' d').wire = (c.fabric.link q' d').wire ++ [beatOf [(lane, .pred true)] false]) ∧
        (c.outRoom site w 2 = false → ∃ t, exec e.1 s = .next t ∧ AllRegs s t ∧ Bytes s t ∧
          ((t.core k).nodeState site).lane lane = l ∧ (t.core k).fabric.links = c.fabric.links)) ∧
      (∀ tag sz e, AtNode s k site lane 0x19 [some (.head tag sz e)] → l.ops = [none, none, none] →
        Turns (.nodeD2w k site lane) s k site lane [0] [] { l with ops := [some ⟨tag, sz, e, [], false, false⟩, none, none] }) ∧
      (∀ o : Operand, AtNode s k site lane 0x19 [some .fin] → l.ops = [some o, none, none] → o.ended = false → o.discard = false →
        (∀ x whey sat nan, numberWord (bitsOf p 3 0) (bitsOf p 5 4) (signed 8 (bitsOf p 13 6)) { o with ended := true } = .word x whey sat nan →
          Turns (.nodeD2w k site lane) s k site lane [0] [] { l with
            ops := [none, none, none], out := (0, .word (BitVec.ofNat 32 x)) :: whey }) ∧
        (numberWord (bitsOf p 3 0) (bitsOf p 5 4) (signed 8 (bitsOf p 13 6)) { o with ended := true } = .trap →
          lane < (c.nodeState site).skim.now.length →
          ∃ t, exec (.nodeD2w k site lane) s = .next t ∧ 8 ∈ (t.core k).records ∧ look (t.core k).origins 8 = some 0x47 ∧ AllRegs s t ∧
            (t.core k).fabric.links = c.fabric.links ∧ (∀ n m, ((t.core k).nodeState n).lane m = (c.nodeState n).lane m) ∧
            ((t.core k).nodeState site).skim.now[lane]? = ((c.nodeState site).skim.now[lane]?).map fun a => a.add ⟨1, 0, 0, 0⟩)) ∧
      (∀ x : BitVec 32, l.turn = 2 → 1 < l.left → x.toNat < 2 ^ fmtBits (groupFmt w) → AtNode s k site lane 0x1A [some (.word x)] →
        Turns (.nodeDqg k site lane) s k site lane [0] [] { l with
          left := l.left - 1, out := (dequantise l.scale.toNat (unpackInt (groupFmt w) x.toNat - l.zero)).1 }) ∧
      (∀ x y : BitVec 32, l.turn = 0 → x.toNat < 2 ^ fmtBits (groupFmt w) → y.toNat < 65536 →
        AtNode s k site lane 0x1A [some (.word x), some (.word y)] →
        Turns (.nodeDqg k site lane) s k site lane [1] [] { l with scale := y, turn := 1 }) ∧
      (∀ t, Fits s k site lane 0 t → AtNode s k site lane 0x30 [some t] →
        Turns (.nodeSkc k site lane) s k site lane [0] [] { l with
          busy := isHead t || (l.busy && decide (t ≠ .fin)), out := [(0, t)] })) ∧
    (site < 256 →
      (∀ o : Operand, AtNode s k site lane 0x20 [some .fin] → l.ops = [some o, none, none] → o.ended = false → o.discard = false →
        Turns (.nodeAcc k site lane) s k site lane [0] [] { l with
          ops := [none, none, none], sum := l.sum.add (Operand.exact { o with ended := true }) }) ∧
      (AtNode s k site lane 0x20 [some .eok] → l.ops = [none, none, none] →
        (l.eoks + 1 < bitsOf p 11 6 + 1 → Turns (.nodeAcc k site lane) s k site lane [0] [] { l with eoks := l.eoks + 1 }) ∧
        (bitsOf p 11 6 + 1 ≤ l.eoks + 1 → Turns (.nodeAcc k site lane) s k site lane [0] [] { l with
          sum := .finite 0 0 none, eoks := 0
          out := releaseNumber (bitsOf p 5 0 + 1) l.sum.exact ++ [(0, .eok), (2, .pred true)] }))) ∧
    (∀ b r, w.op.toNat = 0x1B → lane < 4 → 8 ∉ c.records → (c.nodeState site).lanes.length = 4 → (∀ v ∈ (c.nodeState site).lanes, v.out = []) →
      ((c.nodeState site).lane 0).index < 8 → ((c.nodeState site).lane 0).rowEnd = none → (∀ m, m < 4 → c.skimHeld site m = false) →
      (c.fabric.link site (inputSide w 0)).fifo = b :: r → b.kind = 0xA →
      (∀ n x, n < 4 → b.mask.getLsbD n = true → b.token n = .word x → x.toNat < 2 ^ fmtBits (bitsOf p 3 0)) →
      ∃ t, exec (.nodeFalign k site lane) s = .next t ∧ AllRegs s t ∧ Bytes s t ∧
        (((t.core k).nodeState site).lane 0).index = ((c.nodeState site).lane 0).index + 1 ∧
        ∀ n, n < 4 → (((t.core k).nodeState site).lane n).group = ((c.nodeState site).lane n).group ++
          (if b.mask.getLsbD n then [match b.token n with
            | .word x => some x
            | _ => none] else [])) ∧
    (let lanes := (c.nodeState site).lanes;
      let row := ((c.nodeState site).lane 0).rowEnd;
      let words := ((upto 4).flatMap fun n => ((c.nodeState site).lane n).group).filterMap fun x => x.map fun b => b.toNat;
      w.op.toNat = 0x1B → lane < 4 → 8 ∉ c.records → lanes.length = 4 → (∀ v ∈ lanes, v.out = []) →
      (8 ≤ ((c.nodeState site).lane 0).index ∨ row.isSome) →
      ∃ t, exec (.nodeFalign k site lane) s = .next t ∧ AllRegs s t ∧ Bytes s t ∧ (t.core k).fabric.links = c.fabric.links ∧
        ∀ n, n < 4 → ((t.core k).nodeState site).lane n = { (c.nodeState site).lane n with
          group := [], index := 0, rowEnd := none
          out := (((c.nodeState site).lane n).group.flatMap fun x => match x with
            | none => [(0, .null)]
            | some b => alignWord (alignFmt w) (bitsOf p 7 4 + 1) (groupExp (alignFmt w) words) b.toNat) ++ row.toList.map fun t => (0, t) })) ∧
  (∀ (s : State) (k : CoreId) (site lane : Nat) (i : Image),
    let c := s.core k
    let w := c.node site
    let n := c.nodeState site
    let sums := (i.skimLines site).foldl (fun a d => a.add ((look n.skim.inbox d).getD ⟨0, 0, 0, 0⟩)) (⟨0, 0, 0, 0⟩ : SkimCounts)
    c.image = some i → 8 ∉ c.records → (∀ d ∈ i.skimLines site, (look n.skim.inbox d).isSome) →
    (∀ q, w.op.toNat = 0x31 → lane < 4 → bitOf w.param.toNat 0 = true → c.outRoom site w 0 = true → i.skimLines site ≠ [] → n.lanes.length = 4 →
      (n.lane 0).pending = none → c.outDest site w 0 = .port q →
      ∃ t, exec (.nodeSka k site lane) s = .next t ∧ AllRegs s t ∧ Bytes s t ∧ (((t.core k).nodeState site).lane 0).pending = some 1 ∧
        ((t.core k).fabric.port q).fifo =
          (c.fabric.port q).fifo ++ [⟨0xA, 0xF#4, 0#4, sums.sat + sums.nan * 2 ^ 32 + sums.kill * 2 ^ 64 + sums.null * 2 ^ 96⟩]) ∧
    (∀ a r e d, skimNode w = true → w.op.toNat ≠ 0x31 → n.skim.ended = a :: r → ((c.skimSide site).bind fun d => i.skimEnd 16 site d) = some (e, d) →
      e ≠ site → ((c.nodeState e).skim.inbox.filter fun x => x.1 = d).length < 8 →
      ∃ t, exec (.skimStatSend k site) s = .next t ∧ AllRegs s t ∧ Bytes s t ∧ ((t.core k).nodeState site).skim.ended = r ∧
        ((t.core k).nodeState e).skim.inbox = (c.nodeState e).skim.inbox ++ [(d, a.add sums)]))

/-- 10 R293, R294: a hash node takes a key and a value, adds the value to its key's sum in the staged row, and remembers the row's
end; the row commits once the one before it has been sent, and counts. 09 R251: an array accumulator sends what its column has
released. -/
def Obligations.AccumulatorNodes : Prop :=
  (∀ (s : State) (k : CoreId) (site lane : Nat),
    let c := s.core k
    let w := c.node site
    let l := (c.nodeState site).lane lane
    (∀ a b, AtNode s k site lane 0x21 [some a, some b] → (∀ o ∈ l.ops, o = none) → l.rowEnd = none → itemHead a = true → itemHead b = true →
      ((c.hashOf site).isSome → Turns (.nodeHacc k site lane) s k site lane [0, 1] [] { l with
        ops := [began (decide (b = .null)) a, began (decide (a = .null)) b, none] }) ∧
      (c.hashOf site = none → Breaks (.nodeHacc k site lane) s k 0x48)) ∧
    (∀ t, AtNode s k site lane 0x21 [some t, some t] → (∀ o ∈ l.ops, o = none) → l.rowEnd = none → t.isRow = true →
      Turns (.nodeHacc k site lane) s k site lane [0, 1] [] { l with rowEnd := some t }) ∧
    (∀ key val : Operand, AtNode s k site lane 0x21 [some .fin, some .fin] → l.ops = [some key, some val, none] → key.ended = false →
      val.ended = false → key.discard = false → val.discard = false →
      (∀ n, keyOf { key with ended := true } = some n → l.overflow = false → l.stage.length < bitsOf w.param.toNat 17 6 + 1 →
        Turns (.nodeHacc k site lane) s k site lane [0, 1] [] { l with
          ops := [none, none, none], updates := l.updates + 1
          stage := put l.stage n (((look l.stage n).getD (.finite 0 0 none)).add (Operand.exact { val with ended := true })) }) ∧
      (keyOf { key with ended := true } = none → Breaks (.nodeHacc k site lane) s k 0x45)) ∧
    (∀ t, w.op.toNat = 0x21 → lane < 4 → 8 ∉ c.records → (c.nodeState site).lanes.length = 4 → l.out = [] → l.rowEnd = some t →
      ∃ u, exec (.haccRowCommit k site lane) s = .next u ∧ AllRegs s u ∧ Bytes s u ∧
        (let v := ((u.core k).nodeState site).lane lane;
          v.stage = [] ∧ v.overflow = false ∧ v.updates = 0 ∧ v.rowEnd = none ∧ v.rows = l.rows + 1)) ∧
    (256 ≤ site → w.op.toNat = 0x20 → 8 ∉ c.records →
      ∃ u, exec (.nodeAcc k site lane) s = .next u ∧ u.core k = c.flushAll site ∧ AllRegs s u ∧ Bytes s u)) ∧
  (∀ (o : Operand) (n : Nat), Received o → o.e = o.digits.length → digitsInt o.digits = n → n < 2 ^ 31 → keyOf o = some n) ∧
  ∀ l : List (Nat × Sum), (∀ e, e ∈ sortKeys l ↔ e ∈ l) ∧ (sortKeys l).Pairwise fun a b => a.1 ≤ b.1

/-- 06 R178, R181 to R183, 08 R245, R246: a beat that keeps the rules enters its FIFO in order, and one that breaks them stops the
fabric with the rule's code; a KILL that reaches an input port ends there, and one for the number that an arithmetic lane is sending
ends the number. Where the rules leave a choice, the clause is the model's own (log 100, 102). -/
def Obligations.BeatsAndKills : Prop :=
  (∀ (s : State) (k : CoreId) (site inp : Nat) (b : Beat) (r : List Beat),
    let c := s.core k
    let w := c.node site
    let l := c.fabric.link site (inputSide w inp)
    8 ∉ c.records → inp < 3 → selectOf w inp ≠ 0 → l.fifo.length < 8 → l.wire = b :: r →
    let words := wordInput w.op.toNat inp
    (b.broken w words = none → ∃ t, exec (.beatArrival k site inp) s = .next t ∧ AllRegs s t ∧ Bytes s t ∧
      (t.core k).fabric.link site (inputSide w inp) =
        { l with wire := r, fifo := l.fifo ++ [if b.kind = 6 then { b with mask := w.lanes } else b] }) ∧
    (∀ code lane, b.broken w words = some (code, lane) → Breaks (.beatArrival k site inp) s k code) ∧
    (∀ n, n < 4 → words = false → b.mask.getLsbD n = true → b.kind = 2 → b.payload / 2 ^ (2 * n) % 4 = 3 → Breaks (.beatArrival k site inp) s k 0x41)) ∧
  ∀ (s : State) (k : CoreId) (site inp : Nat) (kw : BitVec 16) (r : List (BitVec 16)) (i : Image),
    let c := s.core k
    let w := c.node site
    let side := inputSide w inp
    c.image = some i → (c.fabric.link site side).kills = kw :: r → 8 ∉ c.records → inp < 3 → selectOf w inp ≠ 0 → side ≠ 4 →
    (∀ q, i.driver 1024 site side = .port q → ∃ t, exec (.killReceive k site inp) s = .next t ∧ AllRegs s t ∧ Bytes s t ∧
      (t.core k).fabric.link site side = { c.fabric.link site side with kills := r } ∧
      ∀ n m, ((t.core k).nodeState n).lane m = (c.nodeState n).lane m) ∧
    (∀ q n o, i.driver 1024 site side = .node q 0 → q ≠ site → n < 4 → (∀ m, m < 4 → kw.getLsbD m = decide (m = n)) →
      bitsOf kw.toNat (6 + 3 * n) (4 + 3 * n) = o → c.sending q n 0 o = true → (c.nodeState q).lanes.length = 4 →
      1 ≤ (c.node q).op.toNat → (c.node q).op.toNat ≤ 0x0E →
      let l := (c.nodeState q).lane n
      l.busy = true → l.eo.isSome →
      ∃ t, exec (.killReceive k site inp) s = .next t ∧ AllRegs s t ∧ Bytes s t ∧
        ((t.core k).nodeState q).lane n = ended l (cutNumber 0 l.out))

/-! ## Forms that complete -/

/-- 09 R256, R263, R264, R271: when each event of the matrix array has its effect. The halves of a twin whose fields agree meet; a
row tag enters a run with room for it; a feeder lane sends its row's digit; and a row tag that has all its digits and holds its
checksum completes. Where the rules leave a choice, the clause is the model's own (log 55). -/
def Sys2Proof.Safety.ArrayEventsComplete : Prop :=
  (∀ (s : State) (k : CoreId) (a b : Run),
    let of (r : Run) := (bitsOf r.fields.operand.toNat 63 60, bitsOf r.fields.operand.toNat 55 48, bitsOf r.fields.operand.toNat 39 24,
      bitsOf r.fields.cflags.toNat 4 2)
    (s.core (k / 2 * 2)).arrayFault = none → (s.core (k / 2 * 2 + 1)).arrayFault = none →
    9 ∉ (s.core (k / 2 * 2)).records → 9 ∉ (s.core (k / 2 * 2 + 1)).records →
    (s.core (k / 2 * 2)).array.run = some a → (s.core (k / 2 * 2 + 1)).array.run = some b → a.twin = true → b.twin = true →
    a.met = false → b.met = false → of a = of b →
    ∃ t u v, exec (.twinRendezvous k) s = .next t ∧ (t.core (k / 2 * 2)).array.run = some u ∧ (t.core (k / 2 * 2 + 1)).array.run = some v ∧
      u.met = true ∧ v.met = true ∧ u.m = a.m ∧ v.m = a.m) ∧
  (∀ (s : State) (k : CoreId) (r : Run),
    let c := s.core k
    c.array.run = some r → r.met = true → r.right = false → r.twin = false → r.entered < r.m → c.entering = none →
    c.mayDrain r.cmd r.fields.hA.toNat = true → c.resultRoom r = true → 9 ∉ c.records → s.halted k = false →
    (s.ctx (s.cxId k)).drained = [] → r.fields.flag 2 = false → c.feedRows r.depth ≠ [] →
    ∃ t u x, exec (.rowTagEntry k) s = .next t ∧ (t.core k).array.run = some u ∧ u.entered = r.entered + 1 ∧
      u.inflight = r.inflight ++ [x] ∧ x.m = r.entered ∧ x.got = 0) ∧
  (∀ (s : State) (k : CoreId) (site lane : Nat) (r : Run) (q : List RowTag) (x : RowTag),
    let row := 4 * (site - 256) + lane
    (s.core k).array.run = some r → r.inflight = q ++ [x] → 256 ≤ site → lane < 4 → r.right = false → r.twin = false →
    x.full = false → x.gates = [] → row ∈ (s.core k).feedRows r.depth → row ∉ x.fed →
    ∃ t u y, exec (.nodeFeed k site lane) s = .next t ∧ (t.core k).array.run = some u ∧ u.inflight = q ++ [y] ∧ y.digits = x.digits ∧
      ((∀ i ∈ (s.core k).feedRows r.depth, i ∈ row :: x.fed) → y.got = x.got + 1) ∧
      ((∃ i ∈ (s.core k).feedRows r.depth, i ∉ row :: x.fed) → y.got = x.got ∧ row ∈ y.fed)) ∧
  ∀ (s : State) (k : CoreId) (r : Run) (x : RowTag) (q : List RowTag),
    let c := s.core k
    c.array.run = some r → r.inflight = x :: q → x.full = true → x.checksum (c.plane (planeOf r.fields)) = true →
    ∃ t u, exec (.rowTagCompletion k) s = .next t ∧ (t.core k).array.run = some u ∧ u.completed = r.completed + 1 ∧ u.inflight = q

/-- 10 R287, R289 to R292, R295: when each command of the fibres and hash sites has its effect. `fopen` sends an element of a run of
one, an EOR and its end; `fclose` ends once its `fopen` has; `isect` completes a row of rising coordinates within its capacity, and
ends after the last; `eqpart` completes on pointers that do not fall; `hset` binds and releases once nothing before it is in the
way. Where the rules leave a choice, the clause is the model's own (log 58). -/
def Sys2Proof.Safety.FibreCommandsComplete : Prop :=
  ∀ (s : State) (c : Cmd) (e : CmdEntry), cmdOf e.word = c →
    (AtWork s 0x20 c e → s.cur.portTurn e = true → s.cur.portRoom c.portA.toNat = true → 8 ∉ s.cur.records → c.flag 5 = false →
      e.closing = false →
      let p := streamOf e
      let total := p.indices * p.run
      let ia := p.ibase + 4 * e.pos
      let v := signed 32 (leNat (s.cur.bufBytes .a ia 4))
      let bits := fmtBits p.fmt
      let va := p.vbase + v.toNat * bits / 8
      let n := max 1 (bits / 8)
      let x := BitVec.ofNat 32 (elemOf p.fmt (s.cur.bufBytes .a va n) (if bits < 8 then v.toNat % 2 else 0))
      (p.tensor = 0 → p.run = 1 → e.pos < total → e.pos ≤ e.count → s.cur.full .a (ia / 16) = true → s.cur.bankOpen .a ia e.cx = true →
        (v < 0 → ∃ t, exec (.fopen c) s = .next t ∧ Sends s t c.portA.toNat (beatOf [(0, .null)] true)) ∧
        (0 ≤ v → va + n ≤ Buf.size .a → s.cur.bankOpen .a va e.cx = true → c.flag 4 = false →
          ∃ t, exec (.fopen c) s = .next t ∧ Sends s t c.portA.toNat (beatOf [(0, .word x)] true))) ∧
      (e.pos ≤ total → e.count < e.pos / p.run →
        ∃ t, exec (.fopen c) s = .next t ∧ Sends s t c.portA.toNat (tokenBeat .eor)) ∧
      (e.pos = total → e.pos / p.run ≤ e.count → ∃ t d, exec (.fopen c) s = .next t ∧ t.cur.cmdEntry e.id = some d ∧ d.stage = .performed)) ∧
    (AtWork s 0x21 c e → (e.pos = 0 → s.cur.lastOnPort e.id c.portA.toNat = none) → (e.pos ≠ 0 → s.cur.cmdEntry e.attached = none) →
      ∃ t, exec (.fclose c) s = .next t ∧ t.cur.cmdEntry e.id = some { e with stage := .performed, count := 1 }) ∧
    (AtWork s 0x22 c e →
      let d := Isect.of (e.attached % 2 ^ 512)
      let at_ (base i : Nat) := s.cur.a32 (base + 4 * i)
      let row := e.pos - 1
      let b := if d.shared then 0 else row
      (e.pos = d.rows + 1 → ∃ t f, exec (.isect c) s = .next t ∧ t.cur.cmdEntry e.id = some f ∧ f.stage = .performed) ∧
      (1 ≤ e.pos → e.pos ≤ d.rows → at_ d.aptr row ≤ at_ d.aptr (row + 1) → at_ d.bptr b ≤ at_ d.bptr (b + 1) →
        (∀ i j, at_ d.aptr row ≤ i → i < j → j < at_ d.aptr (row + 1) → at_ d.acrd i < at_ d.acrd j) →
        (∀ i j, at_ d.bptr b ≤ i → i < j → j < at_ d.bptr (b + 1) → at_ d.bcrd i < at_ d.bcrd j) →
        let most := min (at_ d.aptr (row + 1) - at_ d.aptr row) (at_ d.bptr (b + 1) - at_ d.bptr b)
        e.count + most ≤ d.cap →
        ∃ t f, exec (.isect c) s = .next t ∧ t.cur.cmdEntry e.id = some f ∧ f.pos = e.pos + 1 ∧ e.count ≤ f.count ∧ f.count ≤ e.count + most)) ∧
    (AtWork s 0x23 c e →
      let o := c.operand.toNat
      let rows := bitsOf o 63 48 + 1
      (∀ i, i < rows → s.cur.a32 (o % 2 ^ 19 + 4 * i) ≤ s.cur.a32 (o % 2 ^ 19 + 4 * (i + 1))) →
      ∃ t f, exec (.eqpart c) s = .next t ∧ t.cur.cmdEntry e.id = some f ∧ f.stage = .performed ∧
        (s.cur.bufA.wf = true → t.cur.a32 (bitsOf o 37 19) = 0 ∧ t.cur.a32 (bitsOf o 37 19 + 4 * (bitsOf o 47 40 + 1)) = rows)) ∧
    (AtWork s 0x24 c e →
      let site := 216 + bitsOf c.operand.toNat 31 28
      let first := bitsOf c.operand.toNat 22 16
      let n := bitsOf c.operand.toNat 14 8 + 1
      (c.flag 0 = false → s.cur.oldFree e site = true → s.cur.hashFree e site first n = true →
        ∃ t, exec (.hset c) s = .next t ∧ t.cur.hashOf site = some (bitsOf c.operand.toNat 63 32, first, n)) ∧
      (c.flag 0 = true → s.cur.oldFree e site = true → ∃ t, exec (.hsetR c) s = .next t ∧ t.cur.hashOf site = none))

/-- 10 R294: when each event of a hash node has its effect. Two numbers begin an update at a bound site; the ENDs of a key and a
value make it; the end of a row is taken; and a row that has ended commits. -/
def Sys2Proof.Safety.HashEventsComplete : Prop :=
  ∀ (s : State) (k : CoreId) (site lane : Nat),
    let c := s.core k
    let l := (c.nodeState site).lane lane
    let after (t : State) : LaneState := ((t.core k).nodeState site).lane lane
    (∀ x y : Int, AtNode s k site lane 0x21 [some (.head 0 false x), some (.head 0 false y)] → (∀ o ∈ l.ops, o = none) → l.rowEnd = none →
      (c.hashOf site).isSome →
      ∃ t, exec (.nodeHacc k site lane) s = .next t ∧
        (after t).ops = [some ⟨0, false, x, [], false, false⟩, some ⟨0, false, y, [], false, false⟩, none]) ∧
    (∀ (key val : Operand) (n : Nat), AtNode s k site lane 0x21 [some .fin, some .fin] → l.ops = [some key, some val, none] →
      key.ended = false → val.ended = false → key.discard = false → val.discard = false → keyOf { key with ended := true } = some n →
      ∃ t, exec (.nodeHacc k site lane) s = .next t ∧ (after t).ops = [none, none, none] ∧ (after t).updates = l.updates + 1) ∧
    (∀ x, AtNode s k site lane 0x21 [some x, some x] → (∀ o ∈ l.ops, o = none) → l.rowEnd = none → x.isRow = true →
      ∃ t, exec (.nodeHacc k site lane) s = .next t ∧ (after t).rowEnd = some x) ∧
    (∀ x, (c.node site).op.toNat = 0x21 → lane < 4 → 8 ∉ c.records → (c.nodeState site).lanes.length = 4 → l.out = [] → l.rowEnd = some x →
      ∃ t, exec (.haccRowCommit k site lane) s = .next t ∧ (after t).stage = [] ∧ (after t).rowEnd = none ∧ (after t).rows = l.rows + 1)

/-! ## Statements of several parts -/

/-- 02 R39, R42, R43, R32, 00 R6: the other encodings read back: the words of stream commands, node words, and the bytes of each
instruction. -/
def Obligations.CommandsNodeWordsAndBytesDecode : Prop := CommandDecodesWhatWasEncoded ∧ NodeWordFieldsRoundTrip ∧ BytesDecodeToTheInstruction

/-- 03 R73, R74: the integer operations of two registers, division among them. -/
def Obligations.IntegerArithmetic : Prop := IntegerResults ∧ DivisionResults

/-- 03 R75, R76: immediates, scaled addresses, indices and coordinates. -/
def Obligations.ImmediatesAndAddresses : Prop := ImmediateResults ∧ AddressAndCoordinateResults

/-- 03 R77 to R79: compares, selections and predicates. -/
def Obligations.ComparesAndSelections : Prop := CompareResults ∧ SelectionAndPredicateResults

/-- 02 R38, 03 R66, R80 to R82: branches, calls, jumps and hardware loops. -/
def Obligations.ControlFlow : Prop := BranchesAndCalls ∧ RegisterJumps ∧ HardwareLoop

/-- 02 R34, 03 R67, R72, 13 R383 to R385: words that trap, `ebrk`, `trap` and `idle`. -/
def Obligations.TrapsAndIdle : Prop := InstructionsThatTrap ∧ BreakAndIdle

/-- 03 R69, R84, R85: the linear loads and stores. -/
def Obligations.LinearAccesses : Prop := LinearLoads ∧ LinearStores

/-- 03 R87, R88, R91: loads from and stores to the typed buffers. -/
def Obligations.TypedBufferAccesses : Prop := TypedBufferReads ∧ TypedBufferWrites

/-- 10 R280 to R285: fibre registers and indirect-stream registers. -/
def Obligations.FibresAndIndirectStreams : Prop := FibreOpening ∧ FibreSteps ∧ IndirectStreamRegisters

/-- 03 R71, R92, R93, R95: the registers of commands, their issue, and handle counts. -/
def Obligations.CommandsAndHandles : Prop := CommandRegisters ∧ CommandIssue ∧ HandleCounts

/-- 03 R83, R86, R90, 14 R413, R415: hints, of the caches and of the clock. -/
def Obligations.HintsChangeNothingElse : Prop := CachingHints ∧ Hints

/-- 11 R307, R308, R311, R312: the returning atomics, floating sums and compare-and-swap. -/
def Obligations.AtomicsWithResults : Prop := ReturningAtomics ∧ FloatingAtomicSum ∧ CompareAndSwap

/-- 11 R310, R312: queued atomics, issued and performed. -/
def Obligations.AtomicsWithoutResults : Prop := QueuedAtomics ∧ QueuedAtomicIsPerformed

/-- 11 R300, R302, R303, R305, R306: fences and the end of a phase. -/
def Obligations.FencesAndPhases : Prop := Fences ∧ PhaseMakesVersionsCurrent

/-- 11 R314 to R316: pails armed, read, waited on and counted into. -/
def Obligations.PailsCount : Prop := Pails ∧ PailAdd

/-- 04 R127, R128, R130: words sent and received. -/
def Obligations.MessageWords : Prop := SendAppendsAWord ∧ RecvTakesAWord

/-- 04 R119, R131 to R133: words that read points, queue tasks and set masks. -/
def Obligations.PointsTasksAndMasks : Prop := PointReads ∧ SpawnQueuesATask ∧ MaskBits

/-- 13 R375, R376, R380, R382, 05 R150, 11 R312, 14 R396, R405, R406, R410: writes of system registers, and what they do. -/
def Obligations.SystemRegistersWritten : Prop := SystemRegisterWrites ∧ SystemRegisterValues ∧ RegisterWriteEvents

/-- 09 R256, R263, R264, R271, 10 R287, R289 to R292, R294, R295: under conditions on the state and the operands alone, each of
these events and commands answers a next state with its own effect. -/
def Obligations.ArrayFibreAndHashFormsComplete : Prop := ArrayEventsComplete ∧ FibreCommandsComplete ∧ HashEventsComplete

/-- 12 R322, R324, R326, R328, R330, R331, R335: routes, pools, flits, messages and frames. Where the rules leave a choice, the
clause is the model's own (log 59). -/
def Obligations.PacketsAndRings : Prop := PacketsReachTheirCore ∧ RingEvents

end
end

