-- ==== Sys2Proof/Laws/State.lean ====
section
/-!
SUPPORT. One lemma per field per update of the state, and reading back what an update wrote.
-/
namespace Sys2Proof.Machine

/-! ## Sparse tables -/

@[simp] theorem look_put_same {κ α : Type} [DecidableEq κ] (l : List (κ × α)) (x : κ) (v : α) : look (put l x v) x = some v := by
  induction l with
  | nil => simp [put, look]
  | cons e r ih =>
    obtain ⟨k, w⟩ := e
    by_cases h : k = x <;> simp [put, look, h, ih]

theorem look_put_ne {κ α : Type} [DecidableEq κ] (l : List (κ × α)) {x y : κ} (v : α) (h : x ≠ y) :
    look (put l x v) y = look l y := by
  induction l with
  | nil => simp [put, look, h]
  | cons e r ih =>
    obtain ⟨k, w⟩ := e
    by_cases hk : k = x
    · subst hk; simp [put, look, h]
    · by_cases hy : k = y
      · subst hy; simp [put, look, hk]
      · simp [put, look, hk, hy, ih]

theorem look_map_value {κ α : Type} [DecidableEq κ] (l : List (κ × α)) (f : κ → α → α) (x : κ) :
    look (l.map fun e => (e.1, f e.1 e.2)) x = (look l x).map (f x) := by
  induction l with
  | nil => rfl
  | cons e r ih =>
    obtain ⟨k, w⟩ := e
    by_cases h : k = x
    · subst h; simp [look]
    · simp [look, h, ih]

/-! ## One lemma per field per update -/

@[simp] theorem State.setCore_now (s : State) (k : CoreId) (c : Core) : (s.setCore k c).now = s.now := rfl
@[simp] theorem State.setCore_agenda (s : State) (k : CoreId) (c : Core) : (s.setCore k c).agenda = s.agenda := rfl
@[simp] theorem State.setCore_freeCtr (s : State) (k : CoreId) (c : Core) : (s.setCore k c).freeCtr = s.freeCtr := rfl
@[simp] theorem State.setCore_clusters (s : State) (k : CoreId) (c : Core) : (s.setCore k c).clusters = s.clusters := rfl
@[simp] theorem State.setCore_dies (s : State) (k : CoreId) (c : Core) : (s.setCore k c).dies = s.dies := rfl
@[simp] theorem State.setCore_parts (s : State) (k : CoreId) (c : Core) : (s.setCore k c).parts = s.parts := rfl
@[simp] theorem State.setCore_ctxs (s : State) (k : CoreId) (c : Core) : (s.setCore k c).ctxs = s.ctxs := rfl
@[simp] theorem State.setCore_hbm (s : State) (k : CoreId) (c : Core) : (s.setCore k c).hbm = s.hbm := rfl
@[simp] theorem State.setCore_hostMem (s : State) (k : CoreId) (c : Core) : (s.setCore k c).hostMem = s.hostMem := rfl
@[simp] theorem State.setCore_cap (s : State) (k : CoreId) (c : Core) : (s.setCore k c).cap = s.cap := rfl
@[simp] theorem State.setCore_hot (s : State) (k : CoreId) (c : Core) : (s.setCore k c).hot = s.hot := rfl
@[simp] theorem State.setCore_flows (s : State) (k : CoreId) (c : Core) : (s.setCore k c).flows = s.flows := rfl
@[simp] theorem State.setCore_port0 (s : State) (k : CoreId) (c : Core) : (s.setCore k c).port0 = s.port0 := rfl
@[simp] theorem State.setCore_port1 (s : State) (k : CoreId) (c : Core) : (s.setCore k c).port1 = s.port1 := rfl
@[simp] theorem State.setCore_etherType (s : State) (k : CoreId) (c : Core) : (s.setCore k c).etherType = s.etherType := rfl
@[simp] theorem State.setCore_boot (s : State) (k : CoreId) (c : Core) : (s.setCore k c).boot = s.boot := rfl
@[simp] theorem State.setCore_measured (s : State) (k : CoreId) (c : Core) : (s.setCore k c).measured = s.measured := rfl
@[simp] theorem State.setCore_spdm (s : State) (k : CoreId) (c : Core) : (s.setCore k c).spdm = s.spdm := rfl
@[simp] theorem State.setCore_ideKeys (s : State) (k : CoreId) (c : Core) : (s.setCore k c).ideKeys = s.ideKeys := rfl
@[simp] theorem State.setCore_notices (s : State) (k : CoreId) (c : Core) : (s.setCore k c).notices = s.notices := rfl
@[simp] theorem State.setCore_replay (s : State) (k : CoreId) (c : Core) : (s.setCore k c).replay = s.replay := rfl
@[simp] theorem State.setCore_spares (s : State) (k : CoreId) (c : Core) : (s.setCore k c).spares = s.spares := rfl
@[simp] theorem State.setCore_mgmt (s : State) (k : CoreId) (c : Core) : (s.setCore k c).mgmt = s.mgmt := rfl
@[simp] theorem State.setCore_hostWork (s : State) (k : CoreId) (c : Core) : (s.setCore k c).hostWork = s.hostWork := rfl
@[simp] theorem State.setCore_l2 (s : State) (k : CoreId) (c : Core) : (s.setCore k c).l2 = s.l2 := rfl
@[simp] theorem State.setCore_firstDigest (s : State) (k : CoreId) (c : Core) : (s.setCore k c).firstDigest = s.firstDigest := rfl
@[simp] theorem State.setCore_viaIo (s : State) (k : CoreId) (c : Core) : (s.setCore k c).viaIo = s.viaIo := rfl
@[simp] theorem State.setCore_beneath (s : State) (k : CoreId) (c : Core) : (s.setCore k c).beneath = s.beneath := rfl
@[simp] theorem State.setCore_managers (s : State) (k : CoreId) (c : Core) : (s.setCore k c).managers = s.managers := rfl

@[simp] theorem State.modCore_now (s : State) (k : CoreId) (f : Core → Core) : (s.modCore k f).now = s.now := rfl
@[simp] theorem State.modCore_agenda (s : State) (k : CoreId) (f : Core → Core) : (s.modCore k f).agenda = s.agenda := rfl
@[simp] theorem State.modCore_freeCtr (s : State) (k : CoreId) (f : Core → Core) : (s.modCore k f).freeCtr = s.freeCtr := rfl
@[simp] theorem State.modCore_clusters (s : State) (k : CoreId) (f : Core → Core) : (s.modCore k f).clusters = s.clusters := rfl
@[simp] theorem State.modCore_dies (s : State) (k : CoreId) (f : Core → Core) : (s.modCore k f).dies = s.dies := rfl
@[simp] theorem State.modCore_parts (s : State) (k : CoreId) (f : Core → Core) : (s.modCore k f).parts = s.parts := rfl
@[simp] theorem State.modCore_ctxs (s : State) (k : CoreId) (f : Core → Core) : (s.modCore k f).ctxs = s.ctxs := rfl
@[simp] theorem State.modCore_hbm (s : State) (k : CoreId) (f : Core → Core) : (s.modCore k f).hbm = s.hbm := rfl
@[simp] theorem State.modCore_hostMem (s : State) (k : CoreId) (f : Core → Core) : (s.modCore k f).hostMem = s.hostMem := rfl
@[simp] theorem State.modCore_cap (s : State) (k : CoreId) (f : Core → Core) : (s.modCore k f).cap = s.cap := rfl
@[simp] theorem State.modCore_hot (s : State) (k : CoreId) (f : Core → Core) : (s.modCore k f).hot = s.hot := rfl
@[simp] theorem State.modCore_flows (s : State) (k : CoreId) (f : Core → Core) : (s.modCore k f).flows = s.flows := rfl
@[simp] theorem State.modCore_port0 (s : State) (k : CoreId) (f : Core → Core) : (s.modCore k f).port0 = s.port0 := rfl
@[simp] theorem State.modCore_port1 (s : State) (k : CoreId) (f : Core → Core) : (s.modCore k f).port1 = s.port1 := rfl
@[simp] theorem State.modCore_etherType (s : State) (k : CoreId) (f : Core → Core) : (s.modCore k f).etherType = s.etherType := rfl
@[simp] theorem State.modCore_boot (s : State) (k : CoreId) (f : Core → Core) : (s.modCore k f).boot = s.boot := rfl
@[simp] theorem State.modCore_measured (s : State) (k : CoreId) (f : Core → Core) : (s.modCore k f).measured = s.measured := rfl
@[simp] theorem State.modCore_spdm (s : State) (k : CoreId) (f : Core → Core) : (s.modCore k f).spdm = s.spdm := rfl
@[simp] theorem State.modCore_ideKeys (s : State) (k : CoreId) (f : Core → Core) : (s.modCore k f).ideKeys = s.ideKeys := rfl
@[simp] theorem State.modCore_notices (s : State) (k : CoreId) (f : Core → Core) : (s.modCore k f).notices = s.notices := rfl
@[simp] theorem State.modCore_replay (s : State) (k : CoreId) (f : Core → Core) : (s.modCore k f).replay = s.replay := rfl
@[simp] theorem State.modCore_spares (s : State) (k : CoreId) (f : Core → Core) : (s.modCore k f).spares = s.spares := rfl
@[simp] theorem State.modCore_mgmt (s : State) (k : CoreId) (f : Core → Core) : (s.modCore k f).mgmt = s.mgmt := rfl
@[simp] theorem State.modCore_hostWork (s : State) (k : CoreId) (f : Core → Core) : (s.modCore k f).hostWork = s.hostWork := rfl
@[simp] theorem State.modCore_l2 (s : State) (k : CoreId) (f : Core → Core) : (s.modCore k f).l2 = s.l2 := rfl
@[simp] theorem State.modCore_firstDigest (s : State) (k : CoreId) (f : Core → Core) : (s.modCore k f).firstDigest = s.firstDigest := rfl
@[simp] theorem State.modCore_viaIo (s : State) (k : CoreId) (f : Core → Core) : (s.modCore k f).viaIo = s.viaIo := rfl
@[simp] theorem State.modCore_beneath (s : State) (k : CoreId) (f : Core → Core) : (s.modCore k f).beneath = s.beneath := rfl
@[simp] theorem State.modCore_managers (s : State) (k : CoreId) (f : Core → Core) : (s.modCore k f).managers = s.managers := rfl

@[simp] theorem State.mapCores_now (s : State) (f : CoreId → Core → Core) : (s.mapCores f).now = s.now := rfl
@[simp] theorem State.mapCores_agenda (s : State) (f : CoreId → Core → Core) : (s.mapCores f).agenda = s.agenda := rfl
@[simp] theorem State.mapCores_freeCtr (s : State) (f : CoreId → Core → Core) : (s.mapCores f).freeCtr = s.freeCtr := rfl
@[simp] theorem State.mapCores_clusters (s : State) (f : CoreId → Core → Core) : (s.mapCores f).clusters = s.clusters := rfl
@[simp] theorem State.mapCores_dies (s : State) (f : CoreId → Core → Core) : (s.mapCores f).dies = s.dies := rfl
@[simp] theorem State.mapCores_parts (s : State) (f : CoreId → Core → Core) : (s.mapCores f).parts = s.parts := rfl
@[simp] theorem State.mapCores_ctxs (s : State) (f : CoreId → Core → Core) : (s.mapCores f).ctxs = s.ctxs := rfl
@[simp] theorem State.mapCores_hbm (s : State) (f : CoreId → Core → Core) : (s.mapCores f).hbm = s.hbm := rfl
@[simp] theorem State.mapCores_hostMem (s : State) (f : CoreId → Core → Core) : (s.mapCores f).hostMem = s.hostMem := rfl
@[simp] theorem State.mapCores_cap (s : State) (f : CoreId → Core → Core) : (s.mapCores f).cap = s.cap := rfl
@[simp] theorem State.mapCores_hot (s : State) (f : CoreId → Core → Core) : (s.mapCores f).hot = s.hot := rfl
@[simp] theorem State.mapCores_flows (s : State) (f : CoreId → Core → Core) : (s.mapCores f).flows = s.flows := rfl
@[simp] theorem State.mapCores_port0 (s : State) (f : CoreId → Core → Core) : (s.mapCores f).port0 = s.port0 := rfl
@[simp] theorem State.mapCores_port1 (s : State) (f : CoreId → Core → Core) : (s.mapCores f).port1 = s.port1 := rfl
@[simp] theorem State.mapCores_etherType (s : State) (f : CoreId → Core → Core) : (s.mapCores f).etherType = s.etherType := rfl
@[simp] theorem State.mapCores_boot (s : State) (f : CoreId → Core → Core) : (s.mapCores f).boot = s.boot := rfl
@[simp] theorem State.mapCores_measured (s : State) (f : CoreId → Core → Core) : (s.mapCores f).measured = s.measured := rfl
@[simp] theorem State.mapCores_spdm (s : State) (f : CoreId → Core → Core) : (s.mapCores f).spdm = s.spdm := rfl
@[simp] theorem State.mapCores_ideKeys (s : State) (f : CoreId → Core → Core) : (s.mapCores f).ideKeys = s.ideKeys := rfl
@[simp] theorem State.mapCores_notices (s : State) (f : CoreId → Core → Core) : (s.mapCores f).notices = s.notices := rfl
@[simp] theorem State.mapCores_replay (s : State) (f : CoreId → Core → Core) : (s.mapCores f).replay = s.replay := rfl
@[simp] theorem State.mapCores_spares (s : State) (f : CoreId → Core → Core) : (s.mapCores f).spares = s.spares := rfl
@[simp] theorem State.mapCores_mgmt (s : State) (f : CoreId → Core → Core) : (s.mapCores f).mgmt = s.mgmt := rfl
@[simp] theorem State.mapCores_hostWork (s : State) (f : CoreId → Core → Core) : (s.mapCores f).hostWork = s.hostWork := rfl
@[simp] theorem State.mapCores_l2 (s : State) (f : CoreId → Core → Core) : (s.mapCores f).l2 = s.l2 := rfl
@[simp] theorem State.mapCores_firstDigest (s : State) (f : CoreId → Core → Core) : (s.mapCores f).firstDigest = s.firstDigest := rfl
@[simp] theorem State.mapCores_viaIo (s : State) (f : CoreId → Core → Core) : (s.mapCores f).viaIo = s.viaIo := rfl
@[simp] theorem State.mapCores_beneath (s : State) (f : CoreId → Core → Core) : (s.mapCores f).beneath = s.beneath := rfl
@[simp] theorem State.mapCores_managers (s : State) (f : CoreId → Core → Core) : (s.mapCores f).managers = s.managers := rfl

@[simp] theorem State.mapDies_now (s : State) (f : Nat → Die → Die) : (s.mapDies f).now = s.now := rfl
@[simp] theorem State.mapDies_agenda (s : State) (f : Nat → Die → Die) : (s.mapDies f).agenda = s.agenda := rfl
@[simp] theorem State.mapDies_freeCtr (s : State) (f : Nat → Die → Die) : (s.mapDies f).freeCtr = s.freeCtr := rfl
@[simp] theorem State.mapDies_cores (s : State) (f : Nat → Die → Die) : (s.mapDies f).cores = s.cores := rfl
@[simp] theorem State.mapDies_clusters (s : State) (f : Nat → Die → Die) : (s.mapDies f).clusters = s.clusters := rfl
@[simp] theorem State.mapDies_parts (s : State) (f : Nat → Die → Die) : (s.mapDies f).parts = s.parts := rfl
@[simp] theorem State.mapDies_ctxs (s : State) (f : Nat → Die → Die) : (s.mapDies f).ctxs = s.ctxs := rfl
@[simp] theorem State.mapDies_hbm (s : State) (f : Nat → Die → Die) : (s.mapDies f).hbm = s.hbm := rfl
@[simp] theorem State.mapDies_hostMem (s : State) (f : Nat → Die → Die) : (s.mapDies f).hostMem = s.hostMem := rfl
@[simp] theorem State.mapDies_cap (s : State) (f : Nat → Die → Die) : (s.mapDies f).cap = s.cap := rfl
@[simp] theorem State.mapDies_hot (s : State) (f : Nat → Die → Die) : (s.mapDies f).hot = s.hot := rfl
@[simp] theorem State.mapDies_flows (s : State) (f : Nat → Die → Die) : (s.mapDies f).flows = s.flows := rfl
@[simp] theorem State.mapDies_port0 (s : State) (f : Nat → Die → Die) : (s.mapDies f).port0 = s.port0 := rfl
@[simp] theorem State.mapDies_port1 (s : State) (f : Nat → Die → Die) : (s.mapDies f).port1 = s.port1 := rfl
@[simp] theorem State.mapDies_etherType (s : State) (f : Nat → Die → Die) : (s.mapDies f).etherType = s.etherType := rfl
@[simp] theorem State.mapDies_boot (s : State) (f : Nat → Die → Die) : (s.mapDies f).boot = s.boot := rfl
@[simp] theorem State.mapDies_measured (s : State) (f : Nat → Die → Die) : (s.mapDies f).measured = s.measured := rfl
@[simp] theorem State.mapDies_spdm (s : State) (f : Nat → Die → Die) : (s.mapDies f).spdm = s.spdm := rfl
@[simp] theorem State.mapDies_ideKeys (s : State) (f : Nat → Die → Die) : (s.mapDies f).ideKeys = s.ideKeys := rfl
@[simp] theorem State.mapDies_notices (s : State) (f : Nat → Die → Die) : (s.mapDies f).notices = s.notices := rfl
@[simp] theorem State.mapDies_replay (s : State) (f : Nat → Die → Die) : (s.mapDies f).replay = s.replay := rfl
@[simp] theorem State.mapDies_spares (s : State) (f : Nat → Die → Die) : (s.mapDies f).spares = s.spares := rfl
@[simp] theorem State.mapDies_mgmt (s : State) (f : Nat → Die → Die) : (s.mapDies f).mgmt = s.mgmt := rfl
@[simp] theorem State.mapDies_hostWork (s : State) (f : Nat → Die → Die) : (s.mapDies f).hostWork = s.hostWork := rfl
@[simp] theorem State.mapDies_l2 (s : State) (f : Nat → Die → Die) : (s.mapDies f).l2 = s.l2 := rfl
@[simp] theorem State.mapDies_firstDigest (s : State) (f : Nat → Die → Die) : (s.mapDies f).firstDigest = s.firstDigest := rfl
@[simp] theorem State.mapDies_viaIo (s : State) (f : Nat → Die → Die) : (s.mapDies f).viaIo = s.viaIo := rfl
@[simp] theorem State.mapDies_beneath (s : State) (f : Nat → Die → Die) : (s.mapDies f).beneath = s.beneath := rfl
@[simp] theorem State.mapDies_managers (s : State) (f : Nat → Die → Die) : (s.mapDies f).managers = s.managers := rfl

@[simp] theorem State.modCluster_now (s : State) (n : Nat) (f : Cluster → Cluster) : (s.modCluster n f).now = s.now := rfl
@[simp] theorem State.modCluster_agenda (s : State) (n : Nat) (f : Cluster → Cluster) : (s.modCluster n f).agenda = s.agenda := rfl
@[simp] theorem State.modCluster_freeCtr (s : State) (n : Nat) (f : Cluster → Cluster) : (s.modCluster n f).freeCtr = s.freeCtr := rfl
@[simp] theorem State.modCluster_cores (s : State) (n : Nat) (f : Cluster → Cluster) : (s.modCluster n f).cores = s.cores := rfl
@[simp] theorem State.modCluster_dies (s : State) (n : Nat) (f : Cluster → Cluster) : (s.modCluster n f).dies = s.dies := rfl
@[simp] theorem State.modCluster_parts (s : State) (n : Nat) (f : Cluster → Cluster) : (s.modCluster n f).parts = s.parts := rfl
@[simp] theorem State.modCluster_ctxs (s : State) (n : Nat) (f : Cluster → Cluster) : (s.modCluster n f).ctxs = s.ctxs := rfl
@[simp] theorem State.modCluster_hbm (s : State) (n : Nat) (f : Cluster → Cluster) : (s.modCluster n f).hbm = s.hbm := rfl
@[simp] theorem State.modCluster_hostMem (s : State) (n : Nat) (f : Cluster → Cluster) : (s.modCluster n f).hostMem = s.hostMem := rfl
@[simp] theorem State.modCluster_cap (s : State) (n : Nat) (f : Cluster → Cluster) : (s.modCluster n f).cap = s.cap := rfl
@[simp] theorem State.modCluster_hot (s : State) (n : Nat) (f : Cluster → Cluster) : (s.modCluster n f).hot = s.hot := rfl
@[simp] theorem State.modCluster_flows (s : State) (n : Nat) (f : Cluster → Cluster) : (s.modCluster n f).flows = s.flows := rfl
@[simp] theorem State.modCluster_port0 (s : State) (n : Nat) (f : Cluster → Cluster) : (s.modCluster n f).port0 = s.port0 := rfl
@[simp] theorem State.modCluster_port1 (s : State) (n : Nat) (f : Cluster → Cluster) : (s.modCluster n f).port1 = s.port1 := rfl
@[simp] theorem State.modCluster_etherType (s : State) (n : Nat) (f : Cluster → Cluster) : (s.modCluster n f).etherType = s.etherType := rfl
@[simp] theorem State.modCluster_boot (s : State) (n : Nat) (f : Cluster → Cluster) : (s.modCluster n f).boot = s.boot := rfl
@[simp] theorem State.modCluster_measured (s : State) (n : Nat) (f : Cluster → Cluster) : (s.modCluster n f).measured = s.measured := rfl
@[simp] theorem State.modCluster_spdm (s : State) (n : Nat) (f : Cluster → Cluster) : (s.modCluster n f).spdm = s.spdm := rfl
@[simp] theorem State.modCluster_ideKeys (s : State) (n : Nat) (f : Cluster → Cluster) : (s.modCluster n f).ideKeys = s.ideKeys := rfl
@[simp] theorem State.modCluster_notices (s : State) (n : Nat) (f : Cluster → Cluster) : (s.modCluster n f).notices = s.notices := rfl
@[simp] theorem State.modCluster_replay (s : State) (n : Nat) (f : Cluster → Cluster) : (s.modCluster n f).replay = s.replay := rfl
@[simp] theorem State.modCluster_spares (s : State) (n : Nat) (f : Cluster → Cluster) : (s.modCluster n f).spares = s.spares := rfl
@[simp] theorem State.modCluster_mgmt (s : State) (n : Nat) (f : Cluster → Cluster) : (s.modCluster n f).mgmt = s.mgmt := rfl
@[simp] theorem State.modCluster_hostWork (s : State) (n : Nat) (f : Cluster → Cluster) : (s.modCluster n f).hostWork = s.hostWork := rfl
@[simp] theorem State.modCluster_l2 (s : State) (n : Nat) (f : Cluster → Cluster) : (s.modCluster n f).l2 = s.l2 := rfl
@[simp] theorem State.modCluster_firstDigest (s : State) (n : Nat) (f : Cluster → Cluster) : (s.modCluster n f).firstDigest = s.firstDigest := rfl
@[simp] theorem State.modCluster_viaIo (s : State) (n : Nat) (f : Cluster → Cluster) : (s.modCluster n f).viaIo = s.viaIo := rfl
@[simp] theorem State.modCluster_beneath (s : State) (n : Nat) (f : Cluster → Cluster) : (s.modCluster n f).beneath = s.beneath := rfl
@[simp] theorem State.modCluster_managers (s : State) (n : Nat) (f : Cluster → Cluster) : (s.modCluster n f).managers = s.managers := rfl

@[simp] theorem State.modDie_now (s : State) (n : Nat) (f : Die → Die) : (s.modDie n f).now = s.now := rfl
@[simp] theorem State.modDie_agenda (s : State) (n : Nat) (f : Die → Die) : (s.modDie n f).agenda = s.agenda := rfl
@[simp] theorem State.modDie_freeCtr (s : State) (n : Nat) (f : Die → Die) : (s.modDie n f).freeCtr = s.freeCtr := rfl
@[simp] theorem State.modDie_cores (s : State) (n : Nat) (f : Die → Die) : (s.modDie n f).cores = s.cores := rfl
@[simp] theorem State.modDie_clusters (s : State) (n : Nat) (f : Die → Die) : (s.modDie n f).clusters = s.clusters := rfl
@[simp] theorem State.modDie_parts (s : State) (n : Nat) (f : Die → Die) : (s.modDie n f).parts = s.parts := rfl
@[simp] theorem State.modDie_ctxs (s : State) (n : Nat) (f : Die → Die) : (s.modDie n f).ctxs = s.ctxs := rfl
@[simp] theorem State.modDie_hbm (s : State) (n : Nat) (f : Die → Die) : (s.modDie n f).hbm = s.hbm := rfl
@[simp] theorem State.modDie_hostMem (s : State) (n : Nat) (f : Die → Die) : (s.modDie n f).hostMem = s.hostMem := rfl
@[simp] theorem State.modDie_cap (s : State) (n : Nat) (f : Die → Die) : (s.modDie n f).cap = s.cap := rfl
@[simp] theorem State.modDie_hot (s : State) (n : Nat) (f : Die → Die) : (s.modDie n f).hot = s.hot := rfl
@[simp] theorem State.modDie_flows (s : State) (n : Nat) (f : Die → Die) : (s.modDie n f).flows = s.flows := rfl
@[simp] theorem State.modDie_port0 (s : State) (n : Nat) (f : Die → Die) : (s.modDie n f).port0 = s.port0 := rfl
@[simp] theorem State.modDie_port1 (s : State) (n : Nat) (f : Die → Die) : (s.modDie n f).port1 = s.port1 := rfl
@[simp] theorem State.modDie_etherType (s : State) (n : Nat) (f : Die → Die) : (s.modDie n f).etherType = s.etherType := rfl
@[simp] theorem State.modDie_boot (s : State) (n : Nat) (f : Die → Die) : (s.modDie n f).boot = s.boot := rfl
@[simp] theorem State.modDie_measured (s : State) (n : Nat) (f : Die → Die) : (s.modDie n f).measured = s.measured := rfl
@[simp] theorem State.modDie_spdm (s : State) (n : Nat) (f : Die → Die) : (s.modDie n f).spdm = s.spdm := rfl
@[simp] theorem State.modDie_ideKeys (s : State) (n : Nat) (f : Die → Die) : (s.modDie n f).ideKeys = s.ideKeys := rfl
@[simp] theorem State.modDie_notices (s : State) (n : Nat) (f : Die → Die) : (s.modDie n f).notices = s.notices := rfl
@[simp] theorem State.modDie_replay (s : State) (n : Nat) (f : Die → Die) : (s.modDie n f).replay = s.replay := rfl
@[simp] theorem State.modDie_spares (s : State) (n : Nat) (f : Die → Die) : (s.modDie n f).spares = s.spares := rfl
@[simp] theorem State.modDie_mgmt (s : State) (n : Nat) (f : Die → Die) : (s.modDie n f).mgmt = s.mgmt := rfl
@[simp] theorem State.modDie_hostWork (s : State) (n : Nat) (f : Die → Die) : (s.modDie n f).hostWork = s.hostWork := rfl
@[simp] theorem State.modDie_l2 (s : State) (n : Nat) (f : Die → Die) : (s.modDie n f).l2 = s.l2 := rfl
@[simp] theorem State.modDie_firstDigest (s : State) (n : Nat) (f : Die → Die) : (s.modDie n f).firstDigest = s.firstDigest := rfl
@[simp] theorem State.modDie_viaIo (s : State) (n : Nat) (f : Die → Die) : (s.modDie n f).viaIo = s.viaIo := rfl
@[simp] theorem State.modDie_beneath (s : State) (n : Nat) (f : Die → Die) : (s.modDie n f).beneath = s.beneath := rfl
@[simp] theorem State.modDie_managers (s : State) (n : Nat) (f : Die → Die) : (s.modDie n f).managers = s.managers := rfl

@[simp] theorem State.modCtx_now (s : State) (x : Nat) (f : Context → Context) : (s.modCtx x f).now = s.now := rfl
@[simp] theorem State.modCtx_agenda (s : State) (x : Nat) (f : Context → Context) : (s.modCtx x f).agenda = s.agenda := rfl
@[simp] theorem State.modCtx_freeCtr (s : State) (x : Nat) (f : Context → Context) : (s.modCtx x f).freeCtr = s.freeCtr := rfl
@[simp] theorem State.modCtx_cores (s : State) (x : Nat) (f : Context → Context) : (s.modCtx x f).cores = s.cores := rfl
@[simp] theorem State.modCtx_clusters (s : State) (x : Nat) (f : Context → Context) : (s.modCtx x f).clusters = s.clusters := rfl
@[simp] theorem State.modCtx_dies (s : State) (x : Nat) (f : Context → Context) : (s.modCtx x f).dies = s.dies := rfl
@[simp] theorem State.modCtx_parts (s : State) (x : Nat) (f : Context → Context) : (s.modCtx x f).parts = s.parts := rfl
@[simp] theorem State.modCtx_hbm (s : State) (x : Nat) (f : Context → Context) : (s.modCtx x f).hbm = s.hbm := rfl
@[simp] theorem State.modCtx_hostMem (s : State) (x : Nat) (f : Context → Context) : (s.modCtx x f).hostMem = s.hostMem := rfl
@[simp] theorem State.modCtx_cap (s : State) (x : Nat) (f : Context → Context) : (s.modCtx x f).cap = s.cap := rfl
@[simp] theorem State.modCtx_hot (s : State) (x : Nat) (f : Context → Context) : (s.modCtx x f).hot = s.hot := rfl
@[simp] theorem State.modCtx_flows (s : State) (x : Nat) (f : Context → Context) : (s.modCtx x f).flows = s.flows := rfl
@[simp] theorem State.modCtx_port0 (s : State) (x : Nat) (f : Context → Context) : (s.modCtx x f).port0 = s.port0 := rfl
@[simp] theorem State.modCtx_port1 (s : State) (x : Nat) (f : Context → Context) : (s.modCtx x f).port1 = s.port1 := rfl
@[simp] theorem State.modCtx_etherType (s : State) (x : Nat) (f : Context → Context) : (s.modCtx x f).etherType = s.etherType := rfl
@[simp] theorem State.modCtx_boot (s : State) (x : Nat) (f : Context → Context) : (s.modCtx x f).boot = s.boot := rfl
@[simp] theorem State.modCtx_measured (s : State) (x : Nat) (f : Context → Context) : (s.modCtx x f).measured = s.measured := rfl
@[simp] theorem State.modCtx_spdm (s : State) (x : Nat) (f : Context → Context) : (s.modCtx x f).spdm = s.spdm := rfl
@[simp] theorem State.modCtx_ideKeys (s : State) (x : Nat) (f : Context → Context) : (s.modCtx x f).ideKeys = s.ideKeys := rfl
@[simp] theorem State.modCtx_notices (s : State) (x : Nat) (f : Context → Context) : (s.modCtx x f).notices = s.notices := rfl
@[simp] theorem State.modCtx_replay (s : State) (x : Nat) (f : Context → Context) : (s.modCtx x f).replay = s.replay := rfl
@[simp] theorem State.modCtx_spares (s : State) (x : Nat) (f : Context → Context) : (s.modCtx x f).spares = s.spares := rfl
@[simp] theorem State.modCtx_mgmt (s : State) (x : Nat) (f : Context → Context) : (s.modCtx x f).mgmt = s.mgmt := rfl
@[simp] theorem State.modCtx_hostWork (s : State) (x : Nat) (f : Context → Context) : (s.modCtx x f).hostWork = s.hostWork := rfl
@[simp] theorem State.modCtx_l2 (s : State) (x : Nat) (f : Context → Context) : (s.modCtx x f).l2 = s.l2 := rfl
@[simp] theorem State.modCtx_firstDigest (s : State) (x : Nat) (f : Context → Context) : (s.modCtx x f).firstDigest = s.firstDigest := rfl
@[simp] theorem State.modCtx_viaIo (s : State) (x : Nat) (f : Context → Context) : (s.modCtx x f).viaIo = s.viaIo := rfl
@[simp] theorem State.modCtx_beneath (s : State) (x : Nat) (f : Context → Context) : (s.modCtx x f).beneath = s.beneath := rfl
@[simp] theorem State.modCtx_managers (s : State) (x : Nat) (f : Context → Context) : (s.modCtx x f).managers = s.managers := rfl

@[simp] theorem State.modPart_now (s : State) (n : Nat) (f : Partition → Partition) : (s.modPart n f).now = s.now := rfl
@[simp] theorem State.modPart_agenda (s : State) (n : Nat) (f : Partition → Partition) : (s.modPart n f).agenda = s.agenda := rfl
@[simp] theorem State.modPart_freeCtr (s : State) (n : Nat) (f : Partition → Partition) : (s.modPart n f).freeCtr = s.freeCtr := rfl
@[simp] theorem State.modPart_cores (s : State) (n : Nat) (f : Partition → Partition) : (s.modPart n f).cores = s.cores := rfl
@[simp] theorem State.modPart_clusters (s : State) (n : Nat) (f : Partition → Partition) : (s.modPart n f).clusters = s.clusters := rfl
@[simp] theorem State.modPart_dies (s : State) (n : Nat) (f : Partition → Partition) : (s.modPart n f).dies = s.dies := rfl
@[simp] theorem State.modPart_ctxs (s : State) (n : Nat) (f : Partition → Partition) : (s.modPart n f).ctxs = s.ctxs := rfl
@[simp] theorem State.modPart_hbm (s : State) (n : Nat) (f : Partition → Partition) : (s.modPart n f).hbm = s.hbm := rfl
@[simp] theorem State.modPart_hostMem (s : State) (n : Nat) (f : Partition → Partition) : (s.modPart n f).hostMem = s.hostMem := rfl
@[simp] theorem State.modPart_cap (s : State) (n : Nat) (f : Partition → Partition) : (s.modPart n f).cap = s.cap := rfl
@[simp] theorem State.modPart_hot (s : State) (n : Nat) (f : Partition → Partition) : (s.modPart n f).hot = s.hot := rfl
@[simp] theorem State.modPart_flows (s : State) (n : Nat) (f : Partition → Partition) : (s.modPart n f).flows = s.flows := rfl
@[simp] theorem State.modPart_port0 (s : State) (n : Nat) (f : Partition → Partition) : (s.modPart n f).port0 = s.port0 := rfl
@[simp] theorem State.modPart_port1 (s : State) (n : Nat) (f : Partition → Partition) : (s.modPart n f).port1 = s.port1 := rfl
@[simp] theorem State.modPart_etherType (s : State) (n : Nat) (f : Partition → Partition) : (s.modPart n f).etherType = s.etherType := rfl
@[simp] theorem State.modPart_boot (s : State) (n : Nat) (f : Partition → Partition) : (s.modPart n f).boot = s.boot := rfl
@[simp] theorem State.modPart_measured (s : State) (n : Nat) (f : Partition → Partition) : (s.modPart n f).measured = s.measured := rfl
@[simp] theorem State.modPart_spdm (s : State) (n : Nat) (f : Partition → Partition) : (s.modPart n f).spdm = s.spdm := rfl
@[simp] theorem State.modPart_ideKeys (s : State) (n : Nat) (f : Partition → Partition) : (s.modPart n f).ideKeys = s.ideKeys := rfl
@[simp] theorem State.modPart_notices (s : State) (n : Nat) (f : Partition → Partition) : (s.modPart n f).notices = s.notices := rfl
@[simp] theorem State.modPart_replay (s : State) (n : Nat) (f : Partition → Partition) : (s.modPart n f).replay = s.replay := rfl
@[simp] theorem State.modPart_spares (s : State) (n : Nat) (f : Partition → Partition) : (s.modPart n f).spares = s.spares := rfl
@[simp] theorem State.modPart_mgmt (s : State) (n : Nat) (f : Partition → Partition) : (s.modPart n f).mgmt = s.mgmt := rfl
@[simp] theorem State.modPart_hostWork (s : State) (n : Nat) (f : Partition → Partition) : (s.modPart n f).hostWork = s.hostWork := rfl
@[simp] theorem State.modPart_l2 (s : State) (n : Nat) (f : Partition → Partition) : (s.modPart n f).l2 = s.l2 := rfl
@[simp] theorem State.modPart_firstDigest (s : State) (n : Nat) (f : Partition → Partition) : (s.modPart n f).firstDigest = s.firstDigest := rfl
@[simp] theorem State.modPart_viaIo (s : State) (n : Nat) (f : Partition → Partition) : (s.modPart n f).viaIo = s.viaIo := rfl
@[simp] theorem State.modPart_beneath (s : State) (n : Nat) (f : Partition → Partition) : (s.modPart n f).beneath = s.beneath := rfl
@[simp] theorem State.modPart_managers (s : State) (n : Nat) (f : Partition → Partition) : (s.modPart n f).managers = s.managers := rfl

@[simp] theorem State.setFc_now (s : State) (f : FiringCtx) : (s.setFc f).now = s.now := rfl
@[simp] theorem State.setFc_agenda (s : State) (f : FiringCtx) : (s.setFc f).agenda = s.agenda := rfl
@[simp] theorem State.setFc_freeCtr (s : State) (f : FiringCtx) : (s.setFc f).freeCtr = s.freeCtr := rfl
@[simp] theorem State.setFc_clusters (s : State) (f : FiringCtx) : (s.setFc f).clusters = s.clusters := rfl
@[simp] theorem State.setFc_dies (s : State) (f : FiringCtx) : (s.setFc f).dies = s.dies := rfl
@[simp] theorem State.setFc_parts (s : State) (f : FiringCtx) : (s.setFc f).parts = s.parts := rfl
@[simp] theorem State.setFc_ctxs (s : State) (f : FiringCtx) : (s.setFc f).ctxs = s.ctxs := rfl
@[simp] theorem State.setFc_hbm (s : State) (f : FiringCtx) : (s.setFc f).hbm = s.hbm := rfl
@[simp] theorem State.setFc_hostMem (s : State) (f : FiringCtx) : (s.setFc f).hostMem = s.hostMem := rfl
@[simp] theorem State.setFc_cap (s : State) (f : FiringCtx) : (s.setFc f).cap = s.cap := rfl
@[simp] theorem State.setFc_hot (s : State) (f : FiringCtx) : (s.setFc f).hot = s.hot := rfl
@[simp] theorem State.setFc_flows (s : State) (f : FiringCtx) : (s.setFc f).flows = s.flows := rfl
@[simp] theorem State.setFc_port0 (s : State) (f : FiringCtx) : (s.setFc f).port0 = s.port0 := rfl
@[simp] theorem State.setFc_port1 (s : State) (f : FiringCtx) : (s.setFc f).port1 = s.port1 := rfl
@[simp] theorem State.setFc_etherType (s : State) (f : FiringCtx) : (s.setFc f).etherType = s.etherType := rfl
@[simp] theorem State.setFc_boot (s : State) (f : FiringCtx) : (s.setFc f).boot = s.boot := rfl
@[simp] theorem State.setFc_measured (s : State) (f : FiringCtx) : (s.setFc f).measured = s.measured := rfl
@[simp] theorem State.setFc_spdm (s : State) (f : FiringCtx) : (s.setFc f).spdm = s.spdm := rfl
@[simp] theorem State.setFc_ideKeys (s : State) (f : FiringCtx) : (s.setFc f).ideKeys = s.ideKeys := rfl
@[simp] theorem State.setFc_notices (s : State) (f : FiringCtx) : (s.setFc f).notices = s.notices := rfl
@[simp] theorem State.setFc_replay (s : State) (f : FiringCtx) : (s.setFc f).replay = s.replay := rfl
@[simp] theorem State.setFc_spares (s : State) (f : FiringCtx) : (s.setFc f).spares = s.spares := rfl
@[simp] theorem State.setFc_mgmt (s : State) (f : FiringCtx) : (s.setFc f).mgmt = s.mgmt := rfl
@[simp] theorem State.setFc_hostWork (s : State) (f : FiringCtx) : (s.setFc f).hostWork = s.hostWork := rfl
@[simp] theorem State.setFc_l2 (s : State) (f : FiringCtx) : (s.setFc f).l2 = s.l2 := rfl
@[simp] theorem State.setFc_firstDigest (s : State) (f : FiringCtx) : (s.setFc f).firstDigest = s.firstDigest := rfl
@[simp] theorem State.setFc_viaIo (s : State) (f : FiringCtx) : (s.setFc f).viaIo = s.viaIo := rfl
@[simp] theorem State.setFc_beneath (s : State) (f : FiringCtx) : (s.setFc f).beneath = s.beneath := rfl
@[simp] theorem State.setFc_managers (s : State) (f : FiringCtx) : (s.setFc f).managers = s.managers := rfl

/-! ## Reading back -/

@[simp] theorem State.core_setCore_same (s : State) (k : CoreId) (c : Core) : (s.setCore k c).core k = c := by
  simp [State.core, State.setCore]

theorem State.core_setCore_ne (s : State) {k j : CoreId} (c : Core) (h : k ≠ j) : (s.setCore k c).core j = s.core j := by
  simp [State.core, State.setCore, look_put_ne _ _ h]

@[simp] theorem State.cur_setCore (s : State) (c : Core) : (s.setCore s.now c).cur = c := by simp [State.cur]

@[simp] theorem State.ctx_modCtx_same (s : State) (x : Nat) (f : Context → Context) : (s.modCtx x f).ctx x = f (s.ctx x) := by
  simp [State.ctx, State.modCtx]

theorem State.ctx_modCtx_ne (s : State) {x y : Nat} (f : Context → Context) (h : x ≠ y) : (s.modCtx x f).ctx y = s.ctx y := by
  simp [State.ctx, State.modCtx, look_put_ne _ _ h]

@[simp] theorem State.cluster_modCluster_same (s : State) (n : Nat) (f : Cluster → Cluster) :
    (s.modCluster n f).cluster n = f (s.cluster n) := by
  simp [State.cluster, State.modCluster]

theorem State.cluster_modCluster_ne (s : State) {n m : Nat} (f : Cluster → Cluster) (h : n ≠ m) :
    (s.modCluster n f).cluster m = s.cluster m := by
  simp [State.cluster, State.modCluster, look_put_ne _ _ h]

@[simp] theorem Core.fc_setFc_same (c : Core) (n : Fin 8) (f : FiringCtx) : (c.setFc n f).fc n = f := by
  simp [Core.fc, Core.setFc, Vector.get_eq_getElem]

theorem Core.fc_setFc_ne (c : Core) {n m : Fin 8} (f : FiringCtx) (h : n ≠ m) : (c.setFc n f).fc m = c.fc m := by
  have : n.val ≠ m.val := fun e => h (Fin.ext e)
  simp [Core.fc, Core.setFc, Vector.get_eq_getElem, Vector.getElem_set_ne, this]

@[simp] theorem Core.setFc_run (c : Core) (n : Fin 8) (f : FiringCtx) : (c.setFc n f).run = c.run := rfl

@[simp] theorem Core.setFc_setFc (c : Core) (n : Fin 8) (f g : FiringCtx) : (c.setFc n f).setFc n g = c.setFc n g := by
  simp [Core.setFc]

@[simp] theorem State.cur_setFc (s : State) (f : FiringCtx) : (s.setFc f).cur = s.cur.setFc s.cur.run f := by
  simp [State.cur, State.setFc]

@[simp] theorem State.fc_setFc (s : State) (f : FiringCtx) : (s.setFc f).fc = f := by simp [State.fc]

theorem State.core_setFc_ne (s : State) (f : FiringCtx) {k : CoreId} (h : s.now ≠ k) : (s.setFc f).core k = s.core k :=
  State.core_setCore_ne s _ h

@[simp] theorem State.setFc_setFc (s : State) (f g : FiringCtx) : (s.setFc f).setFc g = s.setFc g := by
  have put_put : ∀ (l : List (Nat × Core)) (x : Nat) (a b : Core), put (put l x a) x b = put l x b := by
    intro l x a b
    induction l with
    | nil => simp [put]
    | cons e r ih =>
      by_cases h : e.1 = x <;> simp [put, h, ih]
  simp [State.setFc, State.setCore, State.cur, State.core, put_put]

end Sys2Proof.Machine
end

