-- ==== Sys2Proof/Laws/Memory.lean ====
section
/-!
SUPPORT. Memory: reading what was written, and the canonical form that every operation keeps.
-/
namespace Sys2Proof.Machine

theorem Memory.wfFrom_mono {lo lo' : Nat} (h : lo' ≤ lo) : ∀ {m : Memory}, Memory.wfFrom lo m = true → Memory.wfFrom lo' m = true
  | [], _ => rfl
  | (a, v) :: m, hm => by
    simp only [Memory.wfFrom, Bool.and_eq_true, decide_eq_true_eq] at hm ⊢
    exact ⟨⟨by omega, hm.1.2⟩, hm.2⟩

/-- An address below every entry reads as what nothing has written. -/
theorem Memory.get_of_below {lo a : Nat} (h : a < lo) : ∀ {m : Memory}, Memory.wfFrom lo m = true → m.get a = Memory.unlisted
  | [], _ => rfl
  | (b, v) :: m, hm => by
    simp only [Memory.wfFrom, Bool.and_eq_true, decide_eq_true_eq] at hm
    have hb : b ≠ a := by omega
    simp only [Memory.get, if_neg hb]
    exact Memory.get_of_below (by omega : a < b + 1) hm.2

theorem Memory.wfFrom_put {lo a : Nat} (v : Byte) (h : lo ≤ a) :
    ∀ {m : Memory}, Memory.wfFrom lo m = true → Memory.wfFrom lo (m.put a v) = true
  | [], _ => by by_cases hv : v = Memory.unlisted <;> simp [Memory.put, Memory.wfFrom, hv, h]
  | (b, w) :: m, hm => by
    have hm' := hm
    simp only [Memory.wfFrom, Bool.and_eq_true, decide_eq_true_eq] at hm
    obtain ⟨⟨hlo, hw⟩, ht⟩ := hm
    simp only [Memory.put]
    split
    · split
      · exact hm'
      · simp only [Memory.wfFrom, Bool.and_eq_true, decide_eq_true_eq]
        exact ⟨⟨h, ‹_›⟩, ⟨by omega, hw⟩, ht⟩
    · split
      · split
        · exact Memory.wfFrom_mono (by omega) ht
        · subst_vars
          simp only [Memory.wfFrom, Bool.and_eq_true, decide_eq_true_eq]
          exact ⟨⟨h, ‹_›⟩, ht⟩
      · simp only [Memory.wfFrom, Bool.and_eq_true, decide_eq_true_eq]
        exact ⟨⟨hlo, hw⟩, Memory.wfFrom_put v (by omega) ht⟩

/-- Writing a byte keeps the canonical form. -/
theorem Memory.wf_put {m : Memory} (a : Nat) (v : Byte) (h : m.wf = true) : (m.put a v).wf = true :=
  Memory.wfFrom_put v (Nat.zero_le a) h

/-- Writing bytes keeps the canonical form. -/
theorem Memory.wf_putBytes : ∀ (bs : List Byte) {m : Memory} (a : Nat), m.wf = true → (m.putBytes a bs).wf = true
  | [], _, _, h => h
  | b :: bs, _, a, h => Memory.wf_putBytes bs (a + 1) (Memory.wf_put a b h)

/-- Dropping entries keeps the canonical form. -/
theorem Memory.wfFrom_filter (q : Host.Cell → Bool) :
    ∀ {lo : Nat} {m : Memory}, Memory.wfFrom lo m = true → Memory.wfFrom lo (m.filter q) = true
  | _, [], _ => rfl
  | lo, (a, v) :: m, hm => by
    simp only [Memory.wfFrom, Bool.and_eq_true, decide_eq_true_eq] at hm
    have ih := Memory.wfFrom_filter q hm.2
    by_cases hq : q (a, v)
    · simp only [List.filter_cons, hq, if_true, Memory.wfFrom, Bool.and_eq_true, decide_eq_true_eq]
      exact ⟨hm.1, ih⟩
    · simp only [List.filter_cons, hq, Bool.false_eq_true, if_false]
      exact Memory.wfFrom_mono (by omega) ih

theorem Memory.wf_filter (q : Host.Cell → Bool) {m : Memory} (h : m.wf = true) : Memory.wf (m.filter q) = true :=
  Memory.wfFrom_filter q h

theorem Memory.get_put_from {lo : Nat} (a : Nat) (v : Byte) (x : Nat) :
    ∀ {m : Memory}, Memory.wfFrom lo m = true → (m.put a v).get x = if x = a then v else m.get x
  | [], _ => by
    by_cases hv : v = Memory.unlisted <;> by_cases hx : x = a <;> simp [Memory.put, Memory.get, hv, hx, eq_comm]
    intro h; exact absurd h.symm hx
  | (b, w) :: m, hm => by
    simp only [Memory.wfFrom, Bool.and_eq_true, decide_eq_true_eq] at hm
    obtain ⟨⟨hlo, hw⟩, ht⟩ := hm
    have ih := Memory.get_put_from a v x ht
    simp only [Memory.put]
    split
    · rename_i hab
      split
      · by_cases hx : x = a
        · subst hx
          have hb : b ≠ x := by omega
          simp [Memory.get, Memory.get_of_below (by omega : x < b + 1) ht, *]
        · simp [hx]
      · by_cases hx : x = a
        · subst hx; simp [Memory.get]
        · have : a ≠ x := fun e => hx e.symm
          simp [Memory.get, hx, this]
    · split
      · subst_vars
        split
        · by_cases hx : x = b
          · subst hx; simp [Memory.get_of_below (by omega : x < x + 1) ht, *]
          · have : b ≠ x := fun e => hx e.symm
            simp [Memory.get, hx, this]
        · by_cases hx : x = b
          · subst hx; simp [Memory.get]
          · have : b ≠ x := fun e => hx e.symm
            simp [Memory.get, hx, this]
      · by_cases hbx : b = x
        · subst hbx
          have : b ≠ a := by omega
          simp [Memory.get, this]
        · simp [Memory.get, hbx, ih]

/-- Reading after a write: the byte written, and every other byte as it was. -/
theorem Memory.get_put {m : Memory} (h : m.wf = true) (a : Nat) (v : Byte) (x : Nat) :
    (m.put a v).get x = if x = a then v else m.get x := Memory.get_put_from a v x h

/-- Bytes outside those written read as they did. -/
theorem Memory.get_putBytes_outside : ∀ (bs : List Byte) {m : Memory} (a x : Nat), m.wf = true →
    (x < a ∨ a + bs.length ≤ x) → (m.putBytes a bs).get x = m.get x
  | [], _, _, _, _, _ => rfl
  | b :: bs, m, a, x, h, ho => by
    have hne : x ≠ a := by simp only [List.length_cons] at ho; omega
    rw [Memory.putBytes, Memory.get_putBytes_outside bs (a + 1) x (Memory.wf_put a b h)
      (by simp only [List.length_cons] at ho; omega), Memory.get_put h, if_neg hne]

/-- Bytes written read as written. -/
theorem Memory.get_putBytes_inside : ∀ (bs : List Byte) {m : Memory} (a i : Nat) (hi : i < bs.length), m.wf = true →
    (m.putBytes a bs).get (a + i) = bs[i]
  | b :: bs, m, a, 0, _, h => by
    rw [Memory.putBytes, Memory.get_putBytes_outside bs (a + 1) (a + 0) (Memory.wf_put a b h) (by omega), Memory.get_put h]
    simp
  | b :: bs, m, a, i + 1, hi, h => by
    have := Memory.get_putBytes_inside bs (a + 1) i (by simpa using hi) (Memory.wf_put a b h)
    rw [Memory.putBytes, show a + (i + 1) = a + 1 + i by omega, this]
    simp

/-! ## Memory of the package -/

/-- The two memories of the package are in canonical form. -/
def State.memWf (s : State) : Bool := s.hbm.wf && s.hostMem.wf

theorem State.setByte_memWf {s : State} (l : Loc) (v : Byte) (h : s.memWf = true) : (s.setByte l v).memWf = true := by
  simp only [State.memWf, Bool.and_eq_true] at h ⊢
  unfold State.setByte
  split
  · exact ⟨h.1, Memory.wf_put l.addr v h.2⟩
  · exact ⟨Memory.wf_put l.addr v h.1, h.2⟩

theorem State.setBytes_memWf : ∀ (bs : List Byte) {s : State} (l : Loc), s.memWf = true → (s.setBytes l bs).memWf = true
  | [], _, _, h => h
  | b :: bs, _, l, h => State.setBytes_memWf bs (l.plus 1) (State.setByte_memWf l b h)

/-- A byte after the write of one byte. -/
theorem State.byte_setByte {s : State} (h : s.memWf = true) (l x : Loc) (v : Byte) :
    (s.setByte l v).byte x = if x = l then v else s.byte x := by
  simp only [State.memWf, Bool.and_eq_true] at h
  obtain ⟨lo, la⟩ := l
  obtain ⟨xo, xa⟩ := x
  unfold State.setByte State.byte
  cases lo <;> cases xo <;> simp [Memory.get_put h.1, Memory.get_put h.2]

/-- Bytes outside those written read as they did. -/
theorem State.byte_setBytes_outside : ∀ (bs : List Byte) {s : State} (l x : Loc), s.memWf = true →
    (x.onHost ≠ l.onHost ∨ x.addr < l.addr ∨ l.addr + bs.length ≤ x.addr) → (s.setBytes l bs).byte x = s.byte x
  | [], _, _, _, _, _ => rfl
  | b :: bs, s, l, x, h, ho => by
    have hne : x ≠ l := by
      rintro rfl
      simp only [List.length_cons] at ho
      rcases ho with ho | ho
      · exact ho rfl
      · omega
    have ho' : x.onHost ≠ (l.plus 1).onHost ∨ x.addr < (l.plus 1).addr ∨ (l.plus 1).addr + bs.length ≤ x.addr := by
      simp only [List.length_cons, Loc.plus] at ho ⊢
      rcases ho with ho | ho
      · exact .inl ho
      · exact .inr (by omega)
    rw [State.setBytes, State.byte_setBytes_outside bs (l.plus 1) x (State.setByte_memWf l b h) ho', State.byte_setByte h,
      if_neg hne]

end Sys2Proof.Machine
end

