-- ==== Sys2Proof/Laws/Ops.lean ====
section
/-!
SUPPORT. The shared operations, one lemma for all each can do: registers read back, the pc's advance, the exception entry,
the publication and the one access; and that each keeps the canonical form of memory. A proof cites these and does not unfold.
-/
namespace Sys2Proof.Machine

/-! ## Registers of the running context (02 R35) -/

@[simp] theorem State.g_zero (s : State) : s.g 0 = 0 := rfl
@[simp] theorem State.p_zero (s : State) : s.p 0 = true := rfl
@[simp] theorem State.setG_zero (s : State) (v : Word) : s.setG 0 v = s := rfl
@[simp] theorem State.setP_zero (s : State) (v : Bool) : s.setP 0 v = s := rfl

theorem State.setG_of_ne (s : State) {r : Fin 32} (v : Word) (h : r ≠ 0) :
    s.setG r v = s.setFc { s.fc with g := s.fc.g.set r v } := if_neg h

theorem State.setP_of_ne (s : State) {r : Fin 8} (v : Bool) (h : r ≠ 0) :
    s.setP r v = s.setFc { s.fc with p := s.fc.p.set r v } := if_neg h

theorem vector_get_set_same {α : Type} {n : Nat} (w : Vector α n) (r : Fin n) (v : α) : (w.set r v).get r = v := by
  simp [Vector.get_eq_getElem]

theorem vector_get_set_ne {α : Type} {n : Nat} (w : Vector α n) {r t : Fin n} (v : α) (h : r ≠ t) :
    (w.set r v).get t = w.get t := by
  have : r.val ≠ t.val := fun e => h (Fin.ext e)
  simp [Vector.get_eq_getElem, Vector.getElem_set_ne, this]

theorem State.g_setG_same (s : State) {r : Fin 32} (v : Word) (h : r ≠ 0) : (s.setG r v).g r = v := by
  rw [State.setG_of_ne s v h, State.g, if_neg h, State.fc_setFc]; exact vector_get_set_same _ r v

theorem State.g_setG_ne (s : State) {r t : Fin 32} (v : Word) (h : r ≠ t) : (s.setG r v).g t = s.g t := by
  by_cases hr : r = 0
  · subst hr; rfl
  by_cases ht : t = 0
  · subst ht; rfl
  rw [State.setG_of_ne s v hr, State.g, State.g, if_neg ht, if_neg ht, State.fc_setFc]; exact vector_get_set_ne _ v h

theorem State.p_setP_same (s : State) {r : Fin 8} (v : Bool) (h : r ≠ 0) : (s.setP r v).p r = v := by
  rw [State.setP_of_ne s v h, State.p, if_neg h, State.fc_setFc]; exact vector_get_set_same _ r v

theorem State.p_setP_ne (s : State) {r t : Fin 8} (v : Bool) (h : r ≠ t) : (s.setP r v).p t = s.p t := by
  by_cases hr : r = 0
  · subst hr; rfl
  by_cases ht : t = 0
  · subst ht; rfl
  rw [State.setP_of_ne s v hr, State.p, State.p, if_neg ht, if_neg ht, State.fc_setFc]; exact vector_get_set_ne _ v h

@[simp] theorem State.q_setQ_same (s : State) (r : Fin 16) (v : QWord) : (s.setQ r v).q r = v := by
  rw [State.setQ, State.q, State.fc_setFc]; exact vector_get_set_same _ r v

theorem State.q_setQ_ne (s : State) {r t : Fin 16} (v : QWord) (h : r ≠ t) : (s.setQ r v).q t = s.q t := by
  rw [State.setQ, State.q, State.q, State.fc_setFc]; exact vector_get_set_ne _ v h

theorem State.g_setP (s : State) (r : Fin 8) (v : Bool) (t : Fin 32) : (s.setP r v).g t = s.g t := by
  by_cases hr : r = 0
  · subst hr; rfl
  rw [State.setP_of_ne s v hr, State.g, State.g, State.fc_setFc]

theorem State.p_setG (s : State) (r : Fin 32) (v : Word) (t : Fin 8) : (s.setG r v).p t = s.p t := by
  by_cases hr : r = 0
  · subst hr; rfl
  rw [State.setG_of_ne s v hr, State.p, State.p, State.fc_setFc]

@[simp] theorem State.pc_setG (s : State) (r : Fin 32) (v : Word) : (s.setG r v).pc = s.pc := by
  by_cases hr : r = 0
  · subst hr; rfl
  rw [State.setG_of_ne s v hr, State.pc, State.pc, State.fc_setFc]

@[simp] theorem State.pc_setP (s : State) (r : Fin 8) (v : Bool) : (s.setP r v).pc = s.pc := by
  by_cases hr : r = 0
  · subst hr; rfl
  rw [State.setP_of_ne s v hr, State.pc, State.pc, State.fc_setFc]

@[simp] theorem State.setG_now (s : State) (r : Fin 32) (v : Word) : (s.setG r v).now = s.now := by
  unfold State.setG; split <;> rfl

@[simp] theorem State.setG_hbm (s : State) (r : Fin 32) (v : Word) : (s.setG r v).hbm = s.hbm := by
  unfold State.setG; split <;> rfl

@[simp] theorem State.setG_hostMem (s : State) (r : Fin 32) (v : Word) : (s.setG r v).hostMem = s.hostMem := by
  unfold State.setG; split <;> rfl

@[simp] theorem State.setP_now (s : State) (r : Fin 8) (v : Bool) : (s.setP r v).now = s.now := by
  unfold State.setP; split <;> rfl

@[simp] theorem State.setP_hbm (s : State) (r : Fin 8) (v : Bool) : (s.setP r v).hbm = s.hbm := by
  unfold State.setP; split <;> rfl

@[simp] theorem State.setP_hostMem (s : State) (r : Fin 8) (v : Bool) : (s.setP r v).hostMem = s.hostMem := by
  unfold State.setP; split <;> rfl

/-! ## Advance (03 R82) -/

@[simp] theorem FiringCtx.go_g (f : FiringCtx) (x : List LoopEntry × Word) : (f.go x).g = f.g := rfl
@[simp] theorem FiringCtx.go_p (f : FiringCtx) (x : List LoopEntry × Word) : (f.go x).p = f.p := rfl
@[simp] theorem FiringCtx.go_q (f : FiringCtx) (x : List LoopEntry × Word) : (f.go x).q = f.q := rfl
@[simp] theorem FiringCtx.go_sb (f : FiringCtx) (x : List LoopEntry × Word) : (f.go x).sb = f.sb := rfl
@[simp] theorem FiringCtx.go_pub (f : FiringCtx) (x : List LoopEntry × Word) : (f.go x).pub = f.pub := rfl
@[simp] theorem FiringCtx.go_pc (f : FiringCtx) (x : List LoopEntry × Word) : (f.go x).pc = x.2 := rfl
@[simp] theorem FiringCtx.go_loops (f : FiringCtx) (x : List LoopEntry × Word) : (f.go x).loops = x.1 := rfl
@[simp] theorem FiringCtx.go_fid (f : FiringCtx) (x : List LoopEntry × Word) : (f.go x).fid = f.fid := rfl
@[simp] theorem FiringCtx.go_status (f : FiringCtx) (x : List LoopEntry × Word) : (f.go x).status = f.status := rfl

@[simp] theorem State.g_advance (s : State) (r : Fin 32) : s.advance.g r = s.g r := by simp [State.advance, State.g]
@[simp] theorem State.p_advance (s : State) (r : Fin 8) : s.advance.p r = s.p r := by simp [State.advance, State.p]
@[simp] theorem State.q_advance (s : State) (r : Fin 16) : s.advance.q r = s.q r := by simp [State.advance, State.q]
@[simp] theorem State.g_branch (s : State) (t : Word) (r : Fin 32) : (s.branch t).g r = s.g r := by simp [State.branch, State.g]
@[simp] theorem State.p_branch (s : State) (t : Word) (r : Fin 8) : (s.branch t).p r = s.p r := by simp [State.branch, State.p]
@[simp] theorem State.g_linkTo (s : State) (t : Word) (r : Fin 32) : (s.linkTo t).g r = s.g r := by simp [State.linkTo, State.g]
@[simp] theorem State.p_linkTo (s : State) (t : Word) (r : Fin 8) : (s.linkTo t).p r = s.p r := by simp [State.linkTo, State.p]
@[simp] theorem State.pc_linkTo (s : State) (t : Word) : (s.linkTo t).pc = t := by simp [State.linkTo, State.pc]

/-- With no loop running the word after this one follows. -/
theorem State.pc_advance_of_no_loop (s : State) (h : s.fc.loops = []) : s.advance.pc = s.pc + 4 := by
  rw [State.advance, State.pc, State.fc_setFc, h]; rfl

/-- With no loop running a branch goes to its target. -/
theorem State.pc_branch_of_no_loop (s : State) (t : Word) (h : s.fc.loops = []) : (s.branch t).pc = t := by
  rw [State.branch, State.pc, State.fc_setFc, h]; rfl

@[simp] theorem State.advance_now (s : State) : s.advance.now = s.now := rfl
@[simp] theorem State.advance_hbm (s : State) : s.advance.hbm = s.hbm := rfl
@[simp] theorem State.advance_hostMem (s : State) : s.advance.hostMem = s.hostMem := rfl
@[simp] theorem State.branch_now (s : State) (t : Word) : (s.branch t).now = s.now := rfl
@[simp] theorem State.branch_hbm (s : State) (t : Word) : (s.branch t).hbm = s.hbm := rfl
@[simp] theorem State.branch_hostMem (s : State) (t : Word) : (s.branch t).hostMem = s.hostMem := rfl
@[simp] theorem State.linkTo_now (s : State) (t : Word) : (s.linkTo t).now = s.now := rfl
@[simp] theorem State.linkTo_hbm (s : State) (t : Word) : (s.linkTo t).hbm = s.hbm := rfl
@[simp] theorem State.linkTo_hostMem (s : State) (t : Word) : (s.linkTo t).hostMem = s.hostMem := rfl

/-! ## The canonical form of memory -/

/-- Two states with equal memories are in the canonical form together. -/
theorem State.memWf_congr {s t : State} (h : t.hbm = s.hbm) (h' : t.hostMem = s.hostMem) : t.memWf = s.memWf := by
  simp [State.memWf, h, h']

@[simp] theorem State.memWf_setCore (s : State) (k : CoreId) (c : Core) : (s.setCore k c).memWf = s.memWf := rfl
@[simp] theorem State.memWf_modCore (s : State) (k : CoreId) (f : Core → Core) : (s.modCore k f).memWf = s.memWf := rfl
@[simp] theorem State.memWf_mapCores (s : State) (f : CoreId → Core → Core) : (s.mapCores f).memWf = s.memWf := rfl
@[simp] theorem State.memWf_mapDies (s : State) (f : Nat → Die → Die) : (s.mapDies f).memWf = s.memWf := rfl
@[simp] theorem State.memWf_modCluster (s : State) (n : Nat) (f : Cluster → Cluster) : (s.modCluster n f).memWf = s.memWf := rfl
@[simp] theorem State.memWf_modDie (s : State) (n : Nat) (f : Die → Die) : (s.modDie n f).memWf = s.memWf := rfl
@[simp] theorem State.memWf_modCtx (s : State) (x : Nat) (f : Context → Context) : (s.modCtx x f).memWf = s.memWf := rfl
@[simp] theorem State.memWf_modPart (s : State) (n : Nat) (f : Partition → Partition) : (s.modPart n f).memWf = s.memWf := rfl
@[simp] theorem State.memWf_setFc (s : State) (f : FiringCtx) : (s.setFc f).memWf = s.memWf := rfl
@[simp] theorem State.memWf_advance (s : State) : s.advance.memWf = s.memWf := rfl
@[simp] theorem State.memWf_branch (s : State) (t : Word) : (s.branch t).memWf = s.memWf := rfl
@[simp] theorem State.memWf_linkTo (s : State) (t : Word) : (s.linkTo t).memWf = s.memWf := rfl
@[simp] theorem State.memWf_block (s : State) (w : WaitFor) : (s.block w).memWf = s.memWf := rfl
@[simp] theorem State.memWf_noteWrite (s : State) (l : Loc) (w : Option (CoreId × Fin 8)) : (s.noteWrite l w).memWf = s.memWf := rfl

@[simp] theorem State.memWf_setG (s : State) (r : Fin 32) (v : Word) : (s.setG r v).memWf = s.memWf :=
  State.memWf_congr (by simp) (by simp)

@[simp] theorem State.memWf_setP (s : State) (r : Fin 8) (v : Bool) : (s.setP r v).memWf = s.memWf :=
  State.memWf_congr (by simp) (by simp)

@[simp] theorem State.memWf_modFiring (s : State) (x f : Nat) (u : Firing → Firing) : (s.modFiring x f u).memWf = s.memWf := by
  unfold State.modFiring; split <;> rfl

@[simp] theorem State.memWf_raiseHalt (s : State) (k : CoreId) : (s.raiseHalt k).memWf = s.memWf := by
  unfold State.raiseHalt
  split
  · rfl
  split
  · rfl
  simp only [State.memWf_mapDies, State.memWf_mapCores]
  split
  · split <;> rfl
  · rfl

@[simp] theorem State.memWf_dropTasks (s : State) (x f : Nat) : (s.dropTasks x f).memWf = s.memWf := rfl

theorem State.memWf_writeRecord (s : State) (k : CoreId) (r : Nat) (bs : List Byte) (h : s.memWf = true) :
    (s.writeRecord k r bs).memWf = true := by
  rw [State.writeRecord, State.memWf_modCore]; exact State.setBytes_memWf _ _ h

/-- Taking an exception writes one record and keeps the canonical form. -/
theorem State.memWf_raiseAt (s : State) (k : CoreId) (n : Fin 8) (cause : Nat) (origin : Bool) (addr : Word) (detail : Nat)
    (h : s.memWf = true) : (s.raiseAt k n cause origin addr detail).memWf = true := by
  unfold State.raiseAt
  extract_lets s1 s2 x fid s3 s4
  have h2 : s2.memWf = true := State.memWf_writeRecord _ _ _ _ ((State.memWf_raiseHalt s k).trans h)
  have h3 : s3.memWf = true := (State.memWf_modCore s2 k _).trans h2
  have h4 : s4.memWf = true := by
    by_cases hx : (look s3.ctxs x).isSome = true
    · exact (congrArg State.memWf (if_pos hx)).trans ((State.memWf_modCtx s3 x _).trans h3)
    · exact (congrArg State.memWf (if_neg hx)).trans h3
  exact (State.memWf_dropTasks s4 x fid).trans h4

theorem State.memWf_raise (s : State) (cause : Nat) (addr : Word) (detail : Nat) (h : s.memWf = true) :
    (s.raise cause addr detail).memWf = true := State.memWf_raiseAt s _ _ _ _ _ _ h

/-- Ending a word on another unit's failed command writes one record and keeps the canonical form. -/
theorem State.memWf_quietAt (s : State) (k : CoreId) (n : Fin 8) (cause detail : Nat) (h : s.memWf = true) :
    (s.quietAt k n cause detail).memWf = true := by
  simp only [State.quietAt, State.memWf_modCore]
  exact State.memWf_writeRecord _ _ _ _ ((State.memWf_raiseHalt s k).trans h)

theorem State.memWf_raiseQuiet (s : State) (cause detail : Nat) (h : s.memWf = true) :
    (s.raiseQuiet cause detail).memWf = true := State.memWf_quietAt s _ _ _ _ h

/-! ## What each shared operation answers -/

/-- A publication point performs its effect, or blocks with its buffer in the publication (03 R69). -/
theorem State.publishThen_cases (s : State) (k : State → Res) :
    (s.fc.sb = [] ∧ s.fc.pub = [] ∧ s.cur.queuedAtomic s.fid = false ∧ s.publishThen k = k s) ∨
    s.publishThen k = .next ((s.setFc { s.fc with sb := [], pub := s.fc.pub ++ s.fc.sb }).block .publication) := by
  unfold State.publishThen
  split
  · rename_i h
    simp only [Bool.and_eq_true, decide_eq_true_eq, Bool.not_eq_true'] at h
    exact .inl ⟨h.1.1, h.1.2, h.2, rfl⟩
  · exact .inr rfl

/-- With nothing stored and no atomic queued a publication point performs its effect at once. -/
theorem State.publishThen_of_clean (s : State) (k : State → Res) (h : s.fc.sb = []) (h' : s.fc.pub = [])
    (ha : s.cur.queuedAtomic s.fid = false) : s.publishThen k = k s := by
  simp [State.publishThen, h, h', ha]

/-- An access goes on with its location, waits for its translation, raises 0x04, 0x02, 0x05 or 0x06, or leaves the package
(03 R85). -/
theorem State.access_cases (s : State) (va : Word) (align : Nat) (kind : AccessKind) (k : Loc → Res) :
    (canonical va = false ∧ s.access va align kind k = .next (s.raise 0x04 va 0)) ∨
    (va.toNat % align ≠ 0 ∧ s.access va align kind k = .next (s.raise 0x02 va 0)) ∨
    (canonical va = true ∧ va.toNat % align = 0 ∧
      ((∃ l, s.translate va.toNat kind = .ok l ∧ s.access va align kind k = k l) ∨
       (s.translate va.toNat kind = .miss ∧ s.access va align kind k = .next (s.block (.translation va.toNat))) ∨
       (s.translate va.toNat kind = .stop ∧ s.access va align kind k =
         .next ({ s with notices := s.notices ++ [Notice.pageRequest s.x va.toNat] }.raise 0x05 va 0)) ∨
       (s.translate va.toNat kind = .perm ∧ s.access va align kind k = .next (s.raise 0x06 va 0)) ∨
       (∃ a, s.translate va.toNat kind = .nowhere a ∧ s.access va align kind k = .fault (.noSuchMemory a)))) := by
  unfold State.access State.withLoc
  cases hc : canonical va
  · simp
  · by_cases ha : va.toNat % align = 0
    · cases ht : s.translate va.toNat kind <;> simp [ha]
    · exact .inr (.inl ⟨ha, by simp [ha]⟩)

/-- An access keeps the canonical form where what follows it does. -/
theorem State.memWf_access {s t : State} {va : Word} {align : Nat} {kind : AccessKind} {k : Loc → Res} (h : s.memWf = true)
    (hk : ∀ l u, k l = .next u → u.memWf = true) (ht : s.access va align kind k = .next t) : t.memWf = true := by
  rcases s.access_cases va align kind k with ⟨-, e⟩ | ⟨-, e⟩ | ⟨-, -, ⟨l, -, e⟩ | ⟨-, e⟩ | ⟨-, e⟩ | ⟨-, e⟩ | ⟨a, -, e⟩⟩ <;>
    rw [e] at ht
  · cases ht; exact State.memWf_raise _ _ _ _ h
  · cases ht; exact State.memWf_raise _ _ _ _ h
  · exact hk l t ht
  · cases ht; exact (State.memWf_block s _).trans h
  · cases ht; exact State.memWf_raise _ _ _ _ h
  · cases ht; exact State.memWf_raise _ _ _ _ h
  · cases ht

/-- A publication point keeps the canonical form where its effect does. -/
theorem State.memWf_publishThen {s t : State} {k : State → Res} (h : s.memWf = true)
    (hk : ∀ u, k s = .next u → u.memWf = true) (ht : s.publishThen k = .next t) : t.memWf = true := by
  rcases s.publishThen_cases k with ⟨-, -, -, e⟩ | e <;> rw [e] at ht
  · exact hk t ht
  · cases ht; exact (State.memWf_block _ _).trans h

/-- A load at a location waits for the firing's atomics on its line, reads its L1 copy, or waits for the line (03 R68, 11 R310). -/
theorem State.loadAt_cases (s : State) (l : Loc) (k : State → Res) :
    (s.atomicOn s.now s.fid l.line = true ∧ s.loadAt l k = .next (s.block (.atomics l.line))) ∨
    (s.atomicOn s.now s.fid l.line = false ∧ (s.cur.l1.any fun e => e.1 = l.line) = true ∧
      s.loadAt l k = k (s.setFc (s.fc.watchLine l.line))) ∨
    (s.atomicOn s.now s.fid l.line = false ∧ (s.cur.l1.any fun e => e.1 = l.line) = false ∧
      s.loadAt l k = .next ((s.modCore s.now fun c => c.event 0x09 1 false).block (.line l.line false))) := by
  unfold State.loadAt
  cases s.atomicOn s.now s.fid l.line <;> cases (s.cur.l1.any fun e => e.1 = l.line) <;> simp

/-- A store at a location enters the store buffer, or waits while the full buffer is published (03 R69). -/
theorem State.storeAt_cases (s : State) (l : Loc) (bs : List Byte) (k : State → Res) :
    (sbFull s.fc.sb l = true ∧
      s.storeAt l bs k = .next ((s.setFc { s.fc with sb := [], pub := s.fc.pub ++ s.fc.sb }).block .publication)) ∨
    (sbFull s.fc.sb l = false ∧ s.storeAt l bs k = k (s.setFc { s.fc with sb := sbPut s.fc.sb l bs })) := by
  unfold State.storeAt
  cases sbFull s.fc.sb l <;> simp

/-- A load at a location keeps the canonical form where what follows it does. -/
theorem State.memWf_loadAt {s t : State} {l : Loc} {k : State → Res} (h : s.memWf = true)
    (hk : ∀ v u, v.memWf = true → k v = .next u → u.memWf = true) (ht : s.loadAt l k = .next t) : t.memWf = true := by
  rcases s.loadAt_cases l k with ⟨-, e⟩ | ⟨-, -, e⟩ | ⟨-, -, e⟩ <;> rw [e] at ht
  · cases ht; exact (State.memWf_block s _).trans h
  · exact hk _ t ((State.memWf_setFc s _).trans h) ht
  · cases ht; exact ((State.memWf_block _ _).trans (State.memWf_modCore s _ _)).trans h

/-- A store at a location keeps the canonical form where what follows it does. -/
theorem State.memWf_storeAt {s t : State} {l : Loc} {bs : List Byte} {k : State → Res} (h : s.memWf = true)
    (hk : ∀ v u, v.memWf = true → k v = .next u → u.memWf = true) (ht : s.storeAt l bs k = .next t) : t.memWf = true := by
  rcases s.storeAt_cases l bs k with ⟨-, e⟩ | ⟨-, e⟩ <;> rw [e] at ht
  · cases ht; exact ((State.memWf_block _ _).trans (State.memWf_setFc s _)).trans h
  · exact hk _ t ((State.memWf_setFc s _).trans h) ht

/-- A load keeps the canonical form where what follows it does. -/
theorem State.memWf_loadThen {s t : State} {va : Word} {align n : Nat} {k : State → List Byte → Res} (h : s.memWf = true)
    (hk : ∀ v bs u, v.memWf = true → k v bs = .next u → u.memWf = true) (ht : s.loadThen va align n k = .next t) :
    t.memWf = true :=
  State.memWf_access h (fun l _ hu => State.memWf_loadAt h (fun v u hv he => hk v (s.loadBytes l n) u hv he) hu) ht

/-- A store keeps the canonical form where what follows it does. -/
theorem State.memWf_storeThen {s t : State} {va : Word} {align : Nat} {bs : List Byte} {k : State → Res} (h : s.memWf = true)
    (hk : ∀ v u, v.memWf = true → k v = .next u → u.memWf = true) (ht : s.storeThen va align bs k = .next t) :
    t.memWf = true :=
  State.memWf_access h (fun _ _ hu => State.memWf_storeAt h hk hu) ht

/-- An aligned canonical access to a mapped page goes on with its location. -/
theorem State.access_of_ok (s : State) (va : Word) (align : Nat) (kind : AccessKind) (k : Loc → Res) {l : Loc}
    (hc : canonical va = true) (ha : va.toNat % align = 0) (ht : s.translate va.toNat kind = .ok l) :
    s.access va align kind k = k l := by
  simp [State.access, State.withLoc, hc, ha, ht]

/-- A load that its line's L1 copy serves. -/
theorem State.loadThen_of_ok (s : State) (va : Word) (align n : Nat) (k : State → List Byte → Res) {l : Loc}
    (hc : canonical va = true) (ha : va.toNat % align = 0) (ht : s.translate va.toNat .load = .ok l)
    (hq : s.atomicOn s.now s.fid l.line = false) (hl : (s.cur.l1.any fun e => e.1 = l.line) = true) :
    s.loadThen va align n k = k (s.setFc (s.fc.watchLine l.line)) (s.loadBytes l n) := by
  rw [State.loadThen, State.access_of_ok s va align .load _ hc ha ht, State.loadAt, hq, hl]; rfl

/-- A store that the store buffer has room for. -/
theorem State.storeThen_of_ok (s : State) (va : Word) (align : Nat) (bs : List Byte) (k : State → Res) {l : Loc}
    (hc : canonical va = true) (ha : va.toNat % align = 0) (ht : s.translate va.toNat .store = .ok l)
    (hf : sbFull s.fc.sb l = false) :
    s.storeThen va align bs k = k (s.setFc { s.fc with sb := sbPut s.fc.sb l bs }) := by
  rw [State.storeThen, State.access_of_ok s va align .store _ hc ha ht, State.storeAt, hf]; rfl

end Sys2Proof.Machine
end

