-- ==== Sys2Proof/Laws/Words.lean ====
section
/-!
SUPPORT. What the shared operations of scalar words do: registers read back, the advance of the pc, and the frame of a word
that changes nothing but its context's registers.
-/
namespace Sys2Proof.Machine

open Sys2Proof.Safety

/-! ## Changing the running context -/

@[simp] theorem State.pc_setFc (s : State) (f : FiringCtx) : (s.setFc f).pc = f.pc := by simp [State.pc]

theorem State.g_setFc (s : State) (f : FiringCtx) (r : Fin 32) : (s.setFc f).g r = if r = 0 then 0 else f.g.get r := by
  simp [State.g]

theorem State.p_setFc (s : State) (f : FiringCtx) (r : Fin 8) : (s.setFc f).p r = if r = 0 then true else f.p.get r := by
  simp [State.p]

@[simp] theorem State.byte_setFc (s : State) (f : FiringCtx) (l : Loc) : (s.setFc f).byte l = s.byte l := rfl

@[simp] theorem State.seenByte_setFc (s : State) (f : FiringCtx) (x : Nat) (l : Loc) :
    (s.setFc f).seenByte x l = s.seenByte x l := rfl

/-- A change of the running context changes nothing else. -/
theorem State.setFc_onlyContext (s : State) (f : FiringCtx) : OnlyContext s (s.setFc f) where
  package := rfl
  others k h := State.core_setFc_ne s f (Ne.symm h)
  bytes := ⟨fun _ => rfl, fun _ _ => rfl⟩
  core := by simp [Core.setFc]
  contexts n h := by simp [Core.fc_setFc_ne _ _ (Ne.symm h)]

/-- A change of the running context that keeps all but registers, pc and loops. -/
theorem State.setFc_onlyRegs (s : State) (f : FiringCtx)
    (h : { f with
      g := s.fc.g, p := s.fc.p, q := s.fc.q, f := s.fc.f, j := s.fc.j, pc := s.fc.pc, loops := s.fc.loops
      woken := s.fc.woken, expired := s.fc.expired, half := s.fc.half, turns := s.fc.turns, checked := s.fc.checked
      fetched := s.fc.fetched } = s.fc) : OnlyRegs s (s.setFc f) where
  toOnlyContext := State.setFc_onlyContext s f
  context := by simpa using h

/-! ## The advance (03 R82) -/

/-- A word that no loop's end stands at goes on. -/
theorem loopTest_none (addr pc : Word) : ∀ (ls : List LoopEntry), (∀ l ∈ ls, addr ≠ l.past - 4) →
    loopTest addr none ls pc = (ls, pc)
  | [], _ => rfl
  | l :: r, h => by
    have h1 : addr ≠ l.past - 4 := h l List.mem_cons_self
    simp only [loopTest, if_neg h1]

/-- The last word of the innermost loop goes back while its count is above 1. -/
theorem loopTest_again (addr pc : Word) (l : LoopEntry) (r : List LoopEntry) (h : addr = l.past - 4) (hn : 1 < l.n) :
    loopTest addr none (l :: r) pc = ({ l with n := l.n - 1 } :: r, l.first) := by simp [loopTest, h, hn]

theorem State.advance_eq (s : State) : s.advance = s.setFc (s.fc.go (loopTest s.pc none s.fc.loops (s.pc + 4))) := rfl

/-- What `advance` does after a change of the running context that kept its pc and loops. -/
theorem State.advance_setFc (s : State) (f : FiringCtx) (hp : f.pc = s.fc.pc) (hl : f.loops = s.fc.loops) :
    (s.setFc f).advance = s.setFc (f.go (loopTest s.pc none s.fc.loops (s.pc + 4))) := by
  simp [State.advance, State.pc, hp, hl]

/-- The pc and the loops after such a word. -/
theorem State.fallsThrough_go (s : State) (f : FiringCtx) :
    FallsThrough s (s.setFc (f.go (loopTest s.pc none s.fc.loops (s.pc + 4)))) := by
  refine ⟨fun h => ?_, fun l r hl hp hn => ?_⟩
  · simp [loopTest_none _ _ _ h, FiringCtx.go]
  · simp [hl, loopTest_again _ _ _ _ hp hn, FiringCtx.go]

/-! ## Results -/

/-- A word whose result goes to g[d] (02 R35). -/
theorem State.result_eq (s : State) (d : Fin 32) (v : Word) :
    s.result d v = s.setFc (({ s.fc with g := if d = 0 then s.fc.g else s.fc.g.set d v } : FiringCtx).go
      (loopTest s.pc none s.fc.loops (s.pc + 4))) := by
  unfold State.result State.setG
  by_cases h : d = 0
  · simp [h, State.advance]
  · simp only [h, if_false]
    rw [State.advance_setFc _ _ (by rfl) (by rfl)]

/-- A word whose result goes to p[d] (02 R35). -/
theorem State.resultP_eq (s : State) (d : Fin 8) (v : Bool) :
    s.resultP d v = s.setFc (({ s.fc with p := if d = 0 then s.fc.p else s.fc.p.set d v } : FiringCtx).go
      (loopTest s.pc none s.fc.loops (s.pc + 4))) := by
  unfold State.resultP State.setP
  by_cases h : d = 0
  · simp [h, State.advance]
  · simp only [h, if_false]
    rw [State.advance_setFc _ _ (by rfl) (by rfl)]

/-- All that a word with a result in g[d] does. -/
theorem State.result_spec (s : State) (d : Fin 32) (v : Word) :
    (d ≠ 0 → (s.result d v).g d = v) ∧ KeepsG s (s.result d v) d ∧ (∀ r, (s.result d v).p r = s.p r) ∧
      KeepsQFJ s (s.result d v) ∧ OnlyRegs s (s.result d v) ∧ FallsThrough s (s.result d v) := by
  rw [State.result_eq]
  refine ⟨fun h => ?_, ⟨?_, fun r h => ?_⟩, fun r => ?_, ⟨?_, ?_, ?_⟩, State.setFc_onlyRegs _ _ (by simp [FiringCtx.go]),
    State.fallsThrough_go _ _⟩
  · simp [State.g_setFc, FiringCtx.go, h, Vector.get_eq_getElem]
  · simp [State.g_setFc]
  · have : d.val ≠ r.val := fun e => h (Fin.ext e.symm)
    by_cases hd : d = 0
    · simp [FiringCtx.go, hd, State.g]
    · simp [FiringCtx.go, hd, State.g, Vector.get_eq_getElem, Vector.getElem_set_ne, this]
  · simp [State.p, FiringCtx.go]
  all_goals simp [FiringCtx.go]

/-- All that a word with a result in p[d] does. -/
theorem State.resultP_spec (s : State) (d : Fin 8) (v : Bool) :
    (d ≠ 0 → (s.resultP d v).p d = v) ∧ KeepsP s (s.resultP d v) d ∧ (∀ r, (s.resultP d v).g r = s.g r) ∧
      KeepsQFJ s (s.resultP d v) ∧ OnlyRegs s (s.resultP d v) ∧ FallsThrough s (s.resultP d v) := by
  rw [State.resultP_eq]
  refine ⟨fun h => ?_, ⟨?_, fun r h => ?_⟩, fun r => ?_, ⟨?_, ?_, ?_⟩, State.setFc_onlyRegs _ _ (by simp [FiringCtx.go]),
    State.fallsThrough_go _ _⟩
  · simp [State.p_setFc, FiringCtx.go, h, Vector.get_eq_getElem]
  · simp [State.p_setFc]
  · have : d.val ≠ r.val := fun e => h (Fin.ext e.symm)
    by_cases hd : d = 0
    · simp [FiringCtx.go, hd, State.p]
    · simp [FiringCtx.go, hd, State.p, Vector.get_eq_getElem, Vector.getElem_set_ne, this]
  · simp [State.g, FiringCtx.go]
  all_goals simp [FiringCtx.go]

/-- All that a word without a result does that only goes on. -/
theorem State.advance_spec (s : State) : KeepsRegs s s.advance ∧ OnlyRegs s s.advance ∧ FallsThrough s s.advance := by
  refine ⟨⟨fun r => ?_, fun r => ?_, ?_, ?_, ?_⟩, State.setFc_onlyRegs _ _ (by simp [FiringCtx.go]), State.fallsThrough_go s s.fc⟩
  · simp [State.advance, State.g, FiringCtx.go]
  · simp [State.advance, State.p, FiringCtx.go]
  all_goals simp [State.advance, FiringCtx.go]

end Sys2Proof.Machine
end

