-- ==== Sys2Proof/Tests/Slice0.lean ====
section
/-!
SUPPORT. Small tests of one step each, with results taken from the spec, and for every statement with hypotheses states that
meet them.
-/
namespace Sys2Proof.Tests

open Sys2Proof.Machine Sys2Proof.Safety

set_option Elab.async false

/-! ## Small states -/

/-- A page of 1 MiB at 0 that allows every access. -/
def page : PageGrant := ⟨0, 1048576, false, 0, true, true, true⟩

/-- Pages at 1 MiB that only allow loads, and at 2 MiB that only allow stores. -/
def pageR : PageGrant := ⟨1048576, 4096, false, 1048576, true, false, false⟩
def pageW : PageGrant := ⟨2097152, 4096, false, 2097152, false, true, false⟩

/-- A page of host memory at 3 MiB. -/
def pageH : PageGrant := ⟨3145728, 4096, true, 4096, true, true, false⟩

/-- A point's firing on core 0. -/
def fir : Firing := { Firing.blank with id := 1, kind := .point, tag := 7, seq := 5, coords := 0x0002000100040003 }

/-- A context on partition 1, with its pail area, stop area and undo area. -/
def cx1 : Context := { Context.blank with
  id := 1, part := 1, nextFid := 2, pages := [page, pageR, pageW, pageH], firings := [(1, fir)], pailVa := 0x20000, pailPa := 0x20000
  stopBase := 0x200000, undoBase := 0x400000, undoSize := 0 }

/-- A firing context that runs firing 1 at 0x1000. -/
def fc1 : FiringCtx := { FiringCtx.reset with status := .running, fid := 1, pc := 0x1000 }

/-- A core whose context 0 runs it. -/
def core0 : Core := { Core.reset.setFc 0 fc1 with mmu := [page, pageR, pageW, pageH], msgWin := 0x30000 }

/-- A package with one partition of 8 by 8 cores and a firing on core 0. -/
def s0 : State := { State.reset with
  cores := [(0, core0)], parts := [⟨1, ⟨0, 0, 8, 8⟩, some 1, false, 0, false, 0, []⟩], ctxs := [(1, cx1)] }

/-- s0 with general registers set. -/
def regs (l : List (Fin 32 × Word)) : State := l.foldl (fun s e => s.setG e.1 e.2) s0

/-- s0 with another running context. -/
def withFc (f : FiringCtx → FiringCtx) : State := s0.setFc (f s0.fc)

/-- A state with core 0 changed. -/
def onCore (s : State) (f : Core → Core) : State := s.modCore 0 f

/-- A state with context 1 changed. -/
def onCtx (s : State) (f : Context → Context) : State := s.modCtx 1 f

/-- An instruction answers a next state that a test holds of. -/
def answers (r : Res) (f : State → Bool) : Bool := match r with
  | .next t => f t
  | .fault _ => false
  | .refused _ => false

/-- g[d] after an instruction of s0 with registers set. -/
def gives (i : Instr) (l : List (Fin 32 × Word)) (d : Fin 32) (v : Word) : Bool :=
  answers (exec i (regs l)) fun t => t.g d = v && t.pc = 0x1004 && t.g 0 = 0

/-- p[d] after an instruction. -/
def sets (i : Instr) (l : List (Fin 32 × Word)) (d : Fin 8) (v : Bool) : Bool :=
  answers (exec i (regs l)) fun t => t.p d = v && t.pc = 0x1004 && t.p 0

/-- The cause of the firing after an instruction, with the pc where it was and the halt line raised. -/
def traps (i : Instr) (s : State) (cause : Nat) : Bool :=
  answers (exec i s) fun t => ((t.ctx 1).firing 1).cause = some cause && (t.core 0).fcs[0].pc = s.pc && t.halted 0

/-- The canonical addresses, bit by bit. -/
theorem canon_of_bits (a : Word) (h : ∀ i : Fin 64, 57 ≤ i.val → a.getLsbD i.val = a.getLsbD 56) : Canon a :=
  fun i h1 h2 => h ⟨i, h2⟩ h1

/-! ## Examples of encodings that the spec writes out, and words and operands that it refuses -/

/-- The examples of 02 R38, 02 R92 and the programs: `addi g5, g3, -2` and `brn p2`, three words back. -/
theorem test_decode_examples_of_R38 :
    decodeScalar 0x08A3FFFE = some (.addi 5 3 0xFFFE) ∧ decodeScalar 0x413FFFFD = some (.brn 2 0x3FFFFD) := by decide

/-- The rows of 11, 04, 10 and 13 that write a word out. -/
theorem test_decode_examples_of_chapters :
    decodeScalar 0xC0863810 = some (.amoAdd 4 6 7 true) ∧ decodeScalar 0xC4063809 = some (.amonFadd 6 7) ∧
    decodeScalar 0xC8863801 = some (.cas 4 6 7 true) ∧ decodeScalar 0xD1240002 = some (.wait 9 4 2) ∧
    decodeScalar 0xD4060038 = some (.pailArm 6 7) ∧ decodeScalar 0xD4A60039 = some (.pailWait 5 6 7) ∧
    decodeScalar 0xB4642800 = some (.fibOpen 3 4 5) ∧ decodeScalar 0xB4690003 = some (.fibSeek 3 9) ∧
    decodeScalar 0xB4430004 = some (.fibEnd 2 3) ∧ decodeScalar 0xB4C30805 = some (.fibGet 6 3 1) ∧
    decodeScalar 0xB8263800 = some (.jsxSet 1 6 7) ∧ decodeScalar 0xD8A32000 = some (.send 5 3 4) ∧
    decodeScalar 0xD8830001 = some (.recv 4 3) ∧ decodeScalar 0xD8E80004 = some (.spawn 7 8) ∧
    decodeScalar 0xF8000004 = some .idle ∧ decodeScalar 0xF8000015 = some .hintMemory := by decide

/-- Reserved words: opcode 0 and 0x3F, a kind of shi, conditions 6, a must-be-zero field, sfn 6, hint kind 3, `brn p0` (02 R34,
R36, R37, 03 R80). -/
theorem test_decode_refuses :
    decodeScalar 0 = none ∧ decodeScalar 0xFFFFFFFF = none ∧ decodeScalar 0x180000C0 = none ∧ decodeScalar 0x24000006 = none ∧
    decodeScalar 0x2B000000 = none ∧ decodeScalar 0x04000816 = none ∧ decodeScalar 0x04000020 = none ∧
    decodeScalar 0xF8000006 = none ∧ decodeScalar 0xF8000035 = none ∧ decodeScalar 0x40000000 = none ∧
    decodeScalar 0x4C000000 = none ∧ decodeScalar 0xA000C000 = none ∧ decodeScalar 0xA4000000 = none ∧
    decodeScalar 0xF000FFF8 = none ∧ decodeScalar 0xF4008000 = none := by decide

/-- An ill-formed operand for each check of WellFormed. -/
theorem test_ill_formed_control :
    Instr.wf (.brt 0 1) = false ∧ Instr.wf (.brn 0 1) = false ∧ Instr.wf (.callt 0 1) = false ∧ Instr.wf (.calln 0 1) = false ∧
    Instr.wf (.loop 1 0) = false ∧ Instr.wf (.qins 1 2 127 1) = false ∧ Instr.wf (.mfsy 1 0x004) = false ∧
    Instr.wf (.mtsy 1 0x060) = false ∧ Instr.wf (.advC 1 0) = false ∧ Instr.wf (.advP 1 0) = false ∧
    Instr.wf (.hwaitC 1 0) = false ∧ Instr.wf (.hwaitP 1 0) = false := by decide

theorem test_ill_formed_memory :
    Instr.wf (.ldb 1 2 3 0) = false ∧ Instr.wf (.ldbFe 1 2 3 0) = false ∧ Instr.wf (.ldbPk 1 2 3 0) = false ∧
    Instr.wf (.ldbNb 1 2 3 0) = false ∧ Instr.wf (.stb 1 2 0 0) = false ∧ Instr.wf (.stbFe 1 2 3 0) = false ∧
    Instr.wf (.bpf 2 3 0) = false ∧ Instr.wf (.ldbx 1 2 3 3) = false ∧ Instr.wf (.ldbxFe 1 2 3 3) = false ∧
    Instr.wf (.ldbxPk 1 2 3 3) = false ∧ Instr.wf (.ldbxNb 1 2 3 3) = false ∧ Instr.wf (.stbx 1 2 3 0) = false ∧
    Instr.wf (.stbxFe 1 2 3 3) = false ∧ Instr.wf (.ldx 1 2 3 0 7) = false ∧ Instr.wf (.fibGet 1 2 3) = false ∧
    Instr.wf (.jsxGet 1 2 2) = false ∧ Instr.wf (.wait 1 0 0) = false ∧ Instr.wf (.wait 1 30 2) = false ∧
    Instr.wf (.waitLimited 1 0 3 0) = false := by decide

theorem test_ill_formed_commands :
    Instr.wf (.hset { (default : Cmd) with cflags := 1 }) = false ∧ Instr.wf (.hsetR default) = false ∧
    Instr.wf (.lsync { (default : Cmd) with cflags := 1 }) = false ∧ Instr.wf (.lsyncD default) = false ∧
    Instr.wf (.icollBcast { (default : Cmd) with operand := 1 <<< 61 }) = false ∧ Instr.wf (.icollReduce default) = false ∧
    Instr.wf (.icollAllred default) = false ∧ Instr.wf (.icollGather default) = false := by decide

/-- The example of 02 R42: `tfetch` of tensor 9 into h4, with pail 7 and a wait for one slot. -/
theorem test_decode_command_example :
    decodeCommand 0x16000100_10000007_00090000_00080002 =
      some (.tfetch ⟨true, false, 0, 1, 0, 4, 0, 0, 0, 7, 0x0009000000080002⟩) := by decide

/-- The example of 04 R134: `lnch` of the block at 0x40000080 with pail 2. -/
theorem test_decode_lnch_example :
    decodeCommand 0xE2000000_00000002_00000000_40000080 =
      some (.lnch ⟨true, false, 0, 0, 0, 0, 0, 0, 0, 2, 0x40000080⟩) := by decide

/-- The bytes of the example of 02 R42. -/
theorem test_command_bytes :
    decodeCmdBytes [2, 0, 8, 0, 0, 0, 9, 0, 7, 0, 0, 0x10, 0, 1, 0, 0x16] =
      .ok (.tfetch ⟨true, false, 0, 1, 0, 4, 0, 0, 0, 7, 0x0009000000080002⟩) := by decide

/-- Every field of a command in its place (02 R39): 0x01 with E, cflags 0x81, waits 2 and 3, handles 33 and 34, ports 9 and 42. -/
theorem test_command_fields :
    decodeCommand 0b000001_0_1_10000001_00000010_00000011_100001_100010_001001_101010_00000000_0000000000000001000000000000000000000000000000000000000000000000 =
      some (.ldAff ⟨false, true, 0x81, 2, 3, 33, 34, 9, 42, 0, 0x0001000000000000⟩) := by decide

/-- The opcodes of 02 R42, by row of its map. -/
theorem test_command_opcodes :
    let c : Cmd := default
    let at_ (op : Nat) : Option Instr := decodeCommand (op * 2 ^ 122)
    at_ 0x00 = none ∧ at_ 0x01 = some (.ldAff c) ∧ at_ 0x02 = some (.ldTile c) ∧ at_ 0x03 = some (.stAff c) ∧
    at_ 0x04 = some (.stTile c) ∧ at_ 0x05 = some (.tfetch c) ∧ at_ 0x06 = some (.streamSubs c) ∧ at_ 0x07 = some (.pull c) ∧
    at_ 0x08 = some (.gath c) ∧ at_ 0x09 = some (.scat c) ∧ at_ 0x0A = some (.copy c) ∧ at_ 0x0B = some (.fill c) ∧
    at_ 0x10 = some (.cfgLd c) ∧ at_ 0x11 = some (.cfgSw c) ∧ at_ 0x12 = some (.bound c) ∧ at_ 0x13 = some (.kick c) ∧
    at_ 0x14 = some (.barr c) ∧ at_ 0x15 = some (.bank c) ∧ at_ 0x18 = some (.wld c) ∧ at_ 0x19 = some (.mrun c) ∧
    at_ 0x1A = some (.trun c) ∧ at_ 0x1B = some (.szld c) ∧ at_ 0x1C = some (.spill c) ∧ at_ 0x1D = some (.rest c) ∧
    at_ 0x20 = some (.fopen c) ∧ at_ 0x21 = some (.fclose c) ∧ at_ 0x22 = some (.isect c) ∧ at_ 0x23 = some (.eqpart c) ∧
    at_ 0x24 = some (.hset c) ∧ at_ 0x28 = some (.rsend c) ∧ at_ 0x29 = some (.icollBcast c) ∧ at_ 0x30 = some (.lease c) ∧
    at_ 0x31 = some (.relatch c) ∧ at_ 0x32 = some (.streamPref c) ∧ at_ 0x38 = some (.lnch c) ∧ at_ 0x39 = some (.lsync c) ∧
    at_ 0x0C = none ∧ at_ 0x16 = none ∧ at_ 0x25 = none ∧ at_ 0x2A = none ∧ at_ 0x33 = none ∧ at_ 0x3F = none := by decide +kernel

/-- Bits that tell two rows of one opcode apart: cflags[0] of hset and lsync, and the op of icoll (10 R295, 04 R135, 12 R339). -/
theorem test_command_variants :
    decodeCommand (0x24 * 2 ^ 122 + 2 ^ 112) = some (.hsetR { (default : Cmd) with cflags := 1 }) ∧
    decodeCommand (0x39 * 2 ^ 122 + 2 ^ 112) = some (.lsyncD { (default : Cmd) with cflags := 1 }) ∧
    decodeCommand (0x29 * 2 ^ 122 + 2 ^ 61) = some (.icollReduce { (default : Cmd) with operand := 1 <<< 61 }) ∧
    decodeCommand (0x29 * 2 ^ 122 + 2 ^ 62) = some (.icollAllred { (default : Cmd) with operand := 1 <<< 62 }) ∧
    decodeCommand (0x29 * 2 ^ 122 + 3 * 2 ^ 61) = some (.icollGather { (default : Cmd) with operand := 3 <<< 61 }) := by decide +kernel

/-- Every table row's word runs as the next step: here an `add` of a firing that runs (log 21). -/
theorem test_fetch_word :
    decodeTableWord 32 0x05295000 = some (.add 9 9 10) ∧
    answers (step (State.reset.withFetchWord 32 0x04200002)) (fun t => t.pc = 4) = true := by decide +kernel

/-! ## Integer instructions (03 R73 to R79) -/

theorem test_add_wraps : gives (.add 3 3 4) [(3, 0xFFFFFFFFFFFFFFFF), (4, 2)] 3 1 = true := by decide +kernel
theorem test_add_g0 : gives (.add 0 3 4) [(3, 9), (4, 2)] 0 0 = true := by decide +kernel
theorem test_sub_order : gives (.sub 4 3 4) [(3, 5), (4, 7)] 4 0xFFFFFFFFFFFFFFFE = true := by decide +kernel
theorem test_logic :
    gives (.and 5 3 4) [(3, 12), (4, 10)] 5 8 = true ∧ gives (.or 5 3 4) [(3, 12), (4, 10)] 5 14 = true ∧
    gives (.xor 5 3 4) [(3, 12), (4, 10)] 5 6 = true ∧ gives (.andn 5 3 4) [(3, 12), (4, 10)] 5 4 = true := by decide +kernel
theorem test_shifts :
    gives (.shl 5 3 4) [(3, 3), (4, 65)] 5 6 = true ∧ gives (.shr 5 3 4) [(3, 0x8000000000000000), (4, 63)] 5 1 = true ∧
    gives (.sra 5 3 4) [(3, 0x8000000000000000), (4, 127)] 5 0xFFFFFFFFFFFFFFFF = true := by decide +kernel
theorem test_products :
    gives (.mul 5 3 4) [(3, 0xFFFFFFFFFFFFFFFF), (4, 3)] 5 0xFFFFFFFFFFFFFFFD = true ∧
    gives (.mulh 5 3 4) [(3, 0xFFFFFFFFFFFFFFFF), (4, 3)] 5 0xFFFFFFFFFFFFFFFF = true ∧
    gives (.mulhu 5 3 4) [(3, 0xFFFFFFFFFFFFFFFF), (4, 3)] 5 2 = true := by decide +kernel
theorem test_quotients :
    gives (.div 5 3 4) [(3, 0xFFFFFFFFFFFFFFF9), (4, 2)] 5 0xFFFFFFFFFFFFFFFD = true ∧
    gives (.rem 5 3 4) [(3, 0xFFFFFFFFFFFFFFF9), (4, 2)] 5 0xFFFFFFFFFFFFFFFF = true ∧
    gives (.divu 5 3 4) [(3, 0xFFFFFFFFFFFFFFF9), (4, 2)] 5 0x7FFFFFFFFFFFFFFC = true ∧
    gives (.remu 5 3 4) [(3, 0xFFFFFFFFFFFFFFF9), (4, 2)] 5 1 = true := by decide +kernel
/-- The table of 03 R74. -/
theorem test_division_corners :
    gives (.div 5 3 4) [(3, 9)] 5 0xFFFFFFFFFFFFFFFF = true ∧ gives (.divu 5 3 4) [(3, 9)] 5 0xFFFFFFFFFFFFFFFF = true ∧
    gives (.rem 5 3 4) [(3, 9)] 5 9 = true ∧ gives (.remu 5 3 4) [(3, 9)] 5 9 = true ∧
    gives (.div 5 3 4) [(3, 0x8000000000000000), (4, 0xFFFFFFFFFFFFFFFF)] 5 0x8000000000000000 = true ∧
    gives (.rem 5 3 4) [(3, 0x8000000000000000), (4, 0xFFFFFFFFFFFFFFFF)] 5 0 = true := by decide +kernel
theorem test_extremes :
    gives (.min 5 3 4) [(3, 0xFFFFFFFFFFFFFFFF), (4, 1)] 5 0xFFFFFFFFFFFFFFFF = true ∧
    gives (.max 5 3 4) [(3, 0xFFFFFFFFFFFFFFFF), (4, 1)] 5 1 = true ∧
    gives (.minu 5 3 4) [(3, 0xFFFFFFFFFFFFFFFF), (4, 1)] 5 1 = true ∧
    gives (.maxu 5 3 4) [(3, 0xFFFFFFFFFFFFFFFF), (4, 1)] 5 0xFFFFFFFFFFFFFFFF = true := by decide +kernel
theorem test_saturation :
    gives (.adds 5 3 4) [(3, 0x7FFFFFFFFFFFFFFF), (4, 1)] 5 0x7FFFFFFFFFFFFFFF = true ∧
    gives (.subs 5 3 4) [(3, 0x8000000000000000), (4, 1)] 5 0x8000000000000000 = true := by decide +kernel
theorem test_counts :
    gives (.clz 5 3) [(3, 1)] 5 63 = true ∧ gives (.clz 5 0) [] 5 64 = true ∧ gives (.ctz 5 3) [(3, 8)] 5 3 = true ∧
    gives (.ctz 5 0) [] 5 64 = true ∧ gives (.popc 5 3) [(3, 0xF0F)] 5 8 = true := by decide +kernel
theorem test_extensions :
    gives (.sxtB 5 3) [(3, 0x180)] 5 0xFFFFFFFFFFFFFF80 = true ∧ gives (.sxtH 5 3) [(3, 0x18000)] 5 0xFFFFFFFFFFFF8000 = true ∧
    gives (.sxtW 5 3) [(3, 0x180000000)] 5 0xFFFFFFFF80000000 = true ∧ gives (.zxtB 5 3) [(3, 0x180)] 5 0x80 = true ∧
    gives (.zxtH 5 3) [(3, 0x18000)] 5 0x8000 = true ∧ gives (.zxtW 5 3) [(3, 0x180000000)] 5 0x80000000 = true := by decide +kernel
theorem test_immediates :
    gives (.addi 5 3 0xFFFE) [(3, 1)] 5 0xFFFFFFFFFFFFFFFF = true ∧ gives (.andi 5 3 0xFFFE) [(3, 0x1FFFF)] 5 0xFFFE = true ∧
    gives (.ori 5 3 0x8000) [(3, 1)] 5 0x8001 = true ∧ gives (.xori 5 3 0xFFFF) [(3, 0x10001)] 5 0x1FFFE = true ∧
    gives (.lhi 5 0x8000) [] 5 0xFFFFFFFF80000000 = true := by decide +kernel
theorem test_shift_immediates :
    gives (.shlImmediate 5 3 63) [(3, 3)] 5 0x8000000000000000 = true ∧ gives (.shrImmediate 5 3 4) [(3, 0xF0)] 5 15 = true ∧
    gives (.sraImmediate 5 3 4) [(3, 0xFFFFFFFFFFFFFF00)] 5 0xFFFFFFFFFFFFFFF0 = true := by decide +kernel
/-- The example of 03 R76. -/
theorem test_addresses :
    gives (.lin 4 2 9) [(2, 0x0000000200030005), (9, 0x0000000400080010)] 4 309 = true ∧
    gives (.xk 5 2 1) [(2, 0x0000000200030005)] 5 3 = true ∧
    gives (.pk 6 2 0 0) [(2, 0x0000000200030005)] 6 0x0000000200030000 = true ∧
    gives (.lea 6 2 3 3) [(2, 16), (3, 5)] 6 56 = true := by decide +kernel
theorem test_compares :
    sets (.cmpEq 1 2 3) [(2, 4), (3, 4)] 1 true = true ∧ sets (.cmpNe 1 2 3) [(2, 4), (3, 4)] 1 false = true ∧
    sets (.cmpLt 1 2 3) [(2, 0xFFFFFFFFFFFFFFFF)] 1 true = true ∧ sets (.cmpGe 1 2 3) [(2, 0xFFFFFFFFFFFFFFFF)] 1 false = true ∧
    sets (.cmpLtu 1 2 3) [(2, 0xFFFFFFFFFFFFFFFF)] 1 false = true ∧ sets (.cmpGeu 1 2 3) [] 1 true = true := by decide +kernel
theorem test_compare_immediates :
    sets (.cmpiEq 2 1 0x1FFF) [(2, 0xFFFFFFFFFFFFFFFF)] 1 true = true ∧ sets (.cmpiNe 2 1 5) [(2, 5)] 1 false = true ∧
    sets (.cmpiLt 2 1 0x1FFF) [(2, 0xFFFFFFFFFFFFFFFE)] 1 true = true ∧ sets (.cmpiGe 2 1 0x0FFF) [(2, 4095)] 1 true = true ∧
    sets (.cmpiLtu 2 1 0x1FFF) [(2, 5)] 1 true = true ∧ sets (.cmpiGeu 2 0 0) [] 0 true = true := by decide +kernel
theorem test_select :
    gives (.sel 5 3 4 0) [(3, 1), (4, 2)] 5 1 = true ∧ gives (.selN 5 3 4 0) [(3, 1), (4, 2)] 5 2 = true := by decide +kernel
theorem test_predicates :
    sets (.pand 1 0 2) [] 1 false = true ∧ sets (.por 1 2 0) [] 1 true = true ∧ sets (.pxor 1 0 0) [] 1 false = true ∧
    sets (.pandn 1 0 2) [] 1 true = true ∧ sets (.porn 1 2 3) [] 1 true = true := by decide +kernel
theorem test_predicate_moves :
    gives (.ptog 5) [] 5 1 = true ∧ sets (.gtop 3) [(3, 0x80)] 7 true = true ∧ sets (.gtop 3) [(3, 0x80)] 6 false = true := by decide +kernel

/-! ## Control flow (03 R80 to R83) -/

theorem test_branches :
    answers (exec (.brt 0 0x3FFFFD) s0) (fun t => t.pc = 0xFF4) = true ∧ answers (exec (.brt 1 5) s0) (fun t => t.pc = 0x1004) = true ∧
    answers (exec (.brn 1 5) s0) (fun t => t.pc = 0x1014) = true ∧ answers (exec (.br 0x200000) s0) (fun t => t.pc = 0xFFFFFFFFFF801000) = true := by
  decide +kernel
theorem test_calls :
    answers (exec (.call 5) s0) (fun t => t.pc = 0x1014 && t.g 31 = 0x1004) = true ∧
    answers (exec (.callt 1 5) s0) (fun t => t.pc = 0x1004 && t.g 31 = 0) = true ∧
    answers (exec (.calln 1 5) s0) (fun t => t.pc = 0x1014 && t.g 31 = 0x1004) = true := by decide +kernel
theorem test_jumps :
    answers (exec (.jr 3) (regs [(3, 0x2000)])) (fun t => t.pc = 0x2000) = true ∧
    answers (exec (.jrl 3 3) (regs [(3, 0x2000)])) (fun t => t.pc = 0x2000 && t.g 3 = 0x1004) = true ∧
    traps (.jr 3) (regs [(3, 0x2002)]) 0x03 = true ∧ traps (.jrl 3 3) (regs [(3, 0x0100000000000001)]) 0x04 = true := by decide +kernel
/-- A loop of two words goes back at its last word while its count is above 1, and ends after (03 R82). -/
theorem test_loop :
    answers (exec (.loop 3 2) (regs [(3, 2)])) (fun t => t.pc = 0x1004 && t.fc.loops = [⟨0x1004, 0x100C, 2⟩]) = true ∧
    answers (exec (.loop 3 2) s0) (fun t => t.pc = 0x100C && t.fc.loops = []) = true ∧
    answers (exec (.add 1 0 0) (withFc fun f => { f with pc := 0x1008, loops := [⟨0x1004, 0x100C, 2⟩] }))
      (fun t => t.pc = 0x1004 && t.fc.loops = [⟨0x1004, 0x100C, 1⟩]) = true ∧
    answers (exec (.add 1 0 0) (withFc fun f => { f with pc := 0x1008, loops := [⟨0x1004, 0x100C, 1⟩] }))
      (fun t => t.pc = 0x100C && t.fc.loops = []) = true := by decide +kernel
theorem test_loop_third :
    traps (.loop 3 2) ((withFc fun f => { f with loops := [⟨0x1004, 0x100C, 2⟩, ⟨0x1000, 0x2000, 2⟩] }).setG 3 1) 0x09 = true := by decide +kernel
/-- A taken branch out of the body pops the loop, and a call does not (03 R82). -/
theorem test_branch_leaves_loop :
    answers (exec (.br 16) (withFc fun f => { f with pc := 0x1004, loops := [⟨0x1004, 0x100C, 2⟩] })) (fun t => t.fc.loops = []) = true ∧
    answers (exec (.call 16) (withFc fun f => { f with pc := 0x1004, loops := [⟨0x1004, 0x100C, 2⟩] }))
      (fun t => t.fc.loops = [⟨0x1004, 0x100C, 2⟩]) = true := by decide +kernel
theorem test_done :
    answers (exec .done s0) (fun t => (t.core 0).fcs[0].status = .free && ((t.ctx 1).firing 1).ended) = true := by decide +kernel
theorem test_yield :
    answers (exec .yield (onCore s0 fun c => c.setFc 3 { FiringCtx.reset with status := .ready }))
      (fun t => t.cur.run = 3 && (t.cur.fc 0).status = .ready && (t.cur.fc 0).pc = 0x1004) = true := by decide +kernel
theorem test_isync :
    answers (exec .isync (onCore s0 fun c => { c with il1 := [(⟨false, 3⟩, [])], bcache := [(1, 2)] }))
      (fun t => t.cur.il1 = [] && t.cur.bcache = [] && t.pc = 0x1004) = true := by decide +kernel

/-! ## Words of every scalar instruction -/

/-- Words of the integer operations, with the fields where 02 R36 to R38 and the rules of each form place them. -/
theorem test_decode_the_integer_operations_1 :
    decodeScalar 0b000001_10101_01001_0111000000000000 = some (.add 21 9 14) ∧
    decodeScalar 0b000001_10101_01001_0111000000000001 = some (.sub 21 9 14) ∧
    decodeScalar 0b000001_10101_01001_0111000000000010 = some (.and 21 9 14) ∧
    decodeScalar 0b000001_10101_01001_0111000000000011 = some (.or 21 9 14) ∧
    decodeScalar 0b000001_10101_01001_0111000000000100 = some (.xor 21 9 14) ∧
    decodeScalar 0b000001_10101_01001_0111000000000101 = some (.andn 21 9 14) ∧
    decodeScalar 0b000001_10101_01001_0111000000000110 = some (.shl 21 9 14) ∧
    decodeScalar 0b000001_10101_01001_0111000000000111 = some (.shr 21 9 14) ∧
    decodeScalar 0b000001_10101_01001_0111000000001000 = some (.sra 21 9 14) ∧
    decodeScalar 0b000001_10101_01001_0111000000001001 = some (.mul 21 9 14) ∧
    decodeScalar 0b000001_10101_01001_0111000000001010 = some (.mulh 21 9 14) ∧
    decodeScalar 0b000001_10101_01001_0111000000001011 = some (.mulhu 21 9 14) := by decide

/-- Words of the integer operations, with the fields where 02 R36 to R38 and the rules of each form place them. -/
theorem test_decode_the_integer_operations_2 :
    decodeScalar 0b000001_10101_01001_0111000000001100 = some (.div 21 9 14) ∧
    decodeScalar 0b000001_10101_01001_0111000000001101 = some (.divu 21 9 14) ∧
    decodeScalar 0b000001_10101_01001_0111000000001110 = some (.rem 21 9 14) ∧
    decodeScalar 0b000001_10101_01001_0111000000001111 = some (.remu 21 9 14) ∧
    decodeScalar 0b000001_10101_01001_0111000000010000 = some (.min 21 9 14) ∧
    decodeScalar 0b000001_10101_01001_0111000000010001 = some (.max 21 9 14) ∧
    decodeScalar 0b000001_10101_01001_0111000000010010 = some (.minu 21 9 14) ∧
    decodeScalar 0b000001_10101_01001_0111000000010011 = some (.maxu 21 9 14) ∧
    decodeScalar 0b000001_10101_01001_0111000000010100 = some (.adds 21 9 14) ∧
    decodeScalar 0b000001_10101_01001_0111000000010101 = some (.subs 21 9 14) ∧
    decodeScalar 0b000001_10101_01001_0000000000010110 = some (.clz 21 9) ∧
    decodeScalar 0b000001_10101_01001_0000000000010111 = some (.ctz 21 9) := by decide

/-- Words of the integer operations, with the fields where 02 R36 to R38 and the rules of each form place them. -/
theorem test_decode_the_integer_operations_3 :
    decodeScalar 0b000001_10101_01001_0000000000011000 = some (.popc 21 9) ∧
    decodeScalar 0b000001_10101_01001_0000000000011001 = some (.sxtB 21 9) ∧
    decodeScalar 0b000001_10101_01001_0000000000011010 = some (.sxtH 21 9) ∧
    decodeScalar 0b000001_10101_01001_0000000000011011 = some (.sxtW 21 9) ∧
    decodeScalar 0b000001_10101_01001_0000000000011100 = some (.zxtB 21 9) ∧
    decodeScalar 0b000001_10101_01001_0000000000011101 = some (.zxtH 21 9) ∧
    decodeScalar 0b000001_10101_01001_0000000000011110 = some (.zxtW 21 9) := by decide

/-- Words of the immediates, with the fields where 02 R36 to R38 and the rules of each form place them. -/
theorem test_decode_the_immediates :
    decodeScalar 0b000010_10101_01001_1000000000000101 = some (.addi 21 9 0x8005) ∧
    decodeScalar 0b000011_10101_01001_1000000000000101 = some (.andi 21 9 0x8005) ∧
    decodeScalar 0b000100_10101_01001_1000000000000101 = some (.ori 21 9 0x8005) ∧
    decodeScalar 0b000101_10101_01001_1000000000000101 = some (.xori 21 9 0x8005) ∧
    decodeScalar 0b000110_10101_01001_0000000000100101 = some (.shlImmediate 21 9 37) ∧
    decodeScalar 0b000110_10101_01001_0000000001100101 = some (.shrImmediate 21 9 37) ∧
    decodeScalar 0b000110_10101_01001_0000000010100101 = some (.sraImmediate 21 9 37) ∧
    decodeScalar 0b000111_10101_00000_1000000000000101 = some (.lhi 21 0x8005) := by decide

/-- Words of addresses and coordinates, with the fields where 02 R36 to R38 and the rules of each form place them. -/
theorem test_decode_addresses_and_coordinates :
    decodeScalar 0b001000_10101_01001_0111000000000101 = some (.lea 21 9 14 5) ∧
    decodeScalar 0b001000_10101_01001_0111000100000000 = some (.lin 21 9 14) ∧
    decodeScalar 0b001000_10101_01001_0111001000000010 = some (.pk 21 9 14 2) ∧
    decodeScalar 0b001000_10101_01001_0000001100000010 = some (.xk 21 9 2) := by decide

/-- Words of compares, selection and predicates, with the fields where 02 R36 to R38 and the rules of each form place them. -/
theorem test_decode_compares_selection_and_predicates_1 :
    decodeScalar 0b001001_00101_01001_0111000000000000 = some (.cmpEq 5 9 14) ∧
    decodeScalar 0b001001_00101_01001_0111000000000001 = some (.cmpNe 5 9 14) ∧
    decodeScalar 0b001001_00101_01001_0111000000000010 = some (.cmpLt 5 9 14) ∧
    decodeScalar 0b001001_00101_01001_0111000000000011 = some (.cmpGe 5 9 14) ∧
    decodeScalar 0b001001_00101_01001_0111000000000100 = some (.cmpLtu 5 9 14) ∧
    decodeScalar 0b001001_00101_01001_0111000000000101 = some (.cmpGeu 5 9 14) ∧
    decodeScalar 0b001010_00000_01001_1011111111111011 = some (.cmpiEq 9 5 0x1ffb) ∧
    decodeScalar 0b001010_00100_01001_1011111111111011 = some (.cmpiNe 9 5 0x1ffb) ∧
    decodeScalar 0b001010_01000_01001_1011111111111011 = some (.cmpiLt 9 5 0x1ffb) ∧
    decodeScalar 0b001010_01100_01001_1011111111111011 = some (.cmpiGe 9 5 0x1ffb) ∧
    decodeScalar 0b001010_10000_01001_1011111111111011 = some (.cmpiLtu 9 5 0x1ffb) ∧
    decodeScalar 0b001010_10100_01001_1011111111111011 = some (.cmpiGeu 9 5 0x1ffb) := by decide

/-- Words of compares, selection and predicates, with the fields where 02 R36 to R38 and the rules of each form place them. -/
theorem test_decode_compares_selection_and_predicates_2 :
    decodeScalar 0b001011_10101_01001_0111000000001110 = some (.sel 21 9 14 6) ∧
    decodeScalar 0b001011_10101_01001_0111000000000110 = some (.selN 21 9 14 6) ∧
    decodeScalar 0b001100_00101_00001_0011000000000000 = some (.pand 5 1 6) ∧
    decodeScalar 0b001100_00101_00001_0011000000000001 = some (.por 5 1 6) ∧
    decodeScalar 0b001100_00101_00001_0011000000000010 = some (.pxor 5 1 6) ∧
    decodeScalar 0b001100_00101_00001_0011000000000011 = some (.pandn 5 1 6) ∧
    decodeScalar 0b001100_00101_00001_0011000000000100 = some (.porn 5 1 6) ∧
    decodeScalar 0b001100_10101_00000_0000000000000110 = some (.ptog 21) ∧
    decodeScalar 0b001100_00000_01001_0000000000000111 = some (.gtop 9) := by decide

/-- Words of branches, calls, jumps and control, with the fields where 02 R36 to R38 and the rules of each form place them. -/
theorem test_decode_branches_calls_jumps_and_control :
    decodeScalar 0b010000_10111_11111_1111111111111101 = some (.brt 5 0x3ffffd) ∧
    decodeScalar 0b010000_10101_11111_1111111111111101 = some (.brn 5 0x3ffffd) ∧
    decodeScalar 0b010000_00011_11111_1111111111111101 = some (.br 0x3ffffd) ∧
    decodeScalar 0b010001_10111_11111_1111111111111101 = some (.callt 5 0x3ffffd) ∧
    decodeScalar 0b010001_10101_11111_1111111111111101 = some (.calln 5 0x3ffffd) ∧
    decodeScalar 0b010001_00011_11111_1111111111111101 = some (.call 0x3ffffd) ∧
    decodeScalar 0b010010_00000_01001_0000000000000000 = some (.jr 9) ∧
    decodeScalar 0b010010_10101_01001_0000000000000001 = some (.jrl 21 9) ∧
    decodeScalar 0b010011_00000_01001_0000000001001101 = some (.loop 9 77) ∧
    decodeScalar 0b010100_00000_00000_0000000000000000 = some .done ∧
    decodeScalar 0b010100_00000_00000_0000000000000001 = some .yield ∧
    decodeScalar 0b010100_00000_00000_0000000000000010 = some .isync := by decide

/-- Words of linear loads, with the fields where 02 R36 to R38 and the rules of each form place them. -/
theorem test_decode_linear_loads :
    decodeScalar 0b011000_10101_01001_1000000000000101 = some (.ldB 21 9 0x8005) ∧
    decodeScalar 0b011001_10101_01001_1000000000000101 = some (.ldBz 21 9 0x8005) ∧
    decodeScalar 0b011010_10101_01001_1000000000000101 = some (.ldH 21 9 0x8005) ∧
    decodeScalar 0b011011_10101_01001_1000000000000101 = some (.ldHz 21 9 0x8005) ∧
    decodeScalar 0b011100_10101_01001_1000000000000101 = some (.ldW 21 9 0x8005) ∧
    decodeScalar 0b011101_10101_01001_1000000000000101 = some (.ldWz 21 9 0x8005) ∧
    decodeScalar 0b011110_10101_01001_1000000000000101 = some (.ldD 21 9 0x8005) ∧
    decodeScalar 0b011111_10101_01001_0111000000101010 = some (.ldx 21 9 14 5 2) := by decide

/-- Words of linear stores, with the fields where 02 R36 to R38 and the rules of each form place them. -/
theorem test_decode_linear_stores :
    decodeScalar 0b100000_10101_01001_1000000000000101 = some (.stB 21 9 0x8005) ∧
    decodeScalar 0b100001_10101_01001_1000000000000101 = some (.stH 21 9 0x8005) ∧
    decodeScalar 0b100010_10101_01001_1000000000000101 = some (.stW 21 9 0x8005) ∧
    decodeScalar 0b100011_10101_01001_1000000000000101 = some (.stD 21 9 0x8005) ∧
    decodeScalar 0b100100_10101_01001_0111000000010110 = some (.stx 21 9 14 5 2) ∧
    decodeScalar 0b100101_00000_01001_1000000000000101 = some (.pref 9 0x8005) := by decide

/-- Words of typed buffers, with the fields where 02 R36 to R38 and the rules of each form place them. -/
theorem test_decode_typed_buffers_1 :
    decodeScalar 0b101000_10101_01001_0100101010111100 = some (.ldb 21 9 1 0xabc) ∧
    decodeScalar 0b101000_10101_01001_0101101010111100 = some (.ldbFe 21 9 1 0xabc) ∧
    decodeScalar 0b101000_10101_01001_0110101010111100 = some (.ldbPk 21 9 1 0xabc) ∧
    decodeScalar 0b101000_10101_01001_0111101010111100 = some (.ldbNb 21 9 1 0xabc) ∧
    decodeScalar 0b101001_10101_01001_0100101010111100 = some (.stb 21 9 1 0xabc) ∧
    decodeScalar 0b101001_10101_01001_0101101010111100 = some (.stbFe 21 9 1 0xabc) ∧
    decodeScalar 0b101010_00000_01001_0100101010111100 = some (.bpf 9 1 0xabc) ∧
    decodeScalar 0b101011_10101_01001_0111000000000001 = some (.ldbx 21 9 14 1) ∧
    decodeScalar 0b101011_10101_01001_0111000000000101 = some (.ldbxFe 21 9 14 1) ∧
    decodeScalar 0b101011_10101_01001_0111000000001001 = some (.ldbxPk 21 9 14 1) ∧
    decodeScalar 0b101011_10101_01001_0111000000001101 = some (.ldbxNb 21 9 14 1) ∧
    decodeScalar 0b101100_10101_01001_0111000000000001 = some (.stbx 21 9 14 1) := by decide

/-- Words of typed buffers, with the fields where 02 R36 to R38 and the rules of each form place them. -/
theorem test_decode_typed_buffers_2 :
    decodeScalar 0b101100_10101_01001_0111000000000101 = some (.stbxFe 21 9 14 1) := by decide

/-- Words of fibres and indirect streams, with the fields where 02 R36 to R38 and the rules of each form place them. -/
theorem test_decode_fibres_and_indirect_streams :
    decodeScalar 0b101101_00101_01001_0111000000000000 = some (.fibOpen 5 9 14) ∧
    decodeScalar 0b101101_00101_01001_0111000000000001 = some (.fibSet 5 9 14) ∧
    decodeScalar 0b101101_00101_00000_0000000000000010 = some (.fibAdv 5) ∧
    decodeScalar 0b101101_00101_01001_0000000000000011 = some (.fibSeek 5 9) ∧
    decodeScalar 0b101101_00101_01001_0000000000000100 = some (.fibEnd 5 9) ∧
    decodeScalar 0b101101_10101_01001_0001000000000101 = some (.fibGet 21 9 2) ∧
    decodeScalar 0b101101_00101_00000_0000000000000110 = some (.fibClose 5) ∧
    decodeScalar 0b101110_00101_01001_0111000000000000 = some (.jsxSet 5 9 14) ∧
    decodeScalar 0b101110_10101_00001_0000100000000001 = some (.jsxGet 21 1 1) := by decide

/-- Words of returning atomics, with the fields where 02 R36 to R38 and the rules of each form place them. -/
theorem test_decode_returning_atomics :
    decodeScalar 0b110000_10101_01001_0111000000010000 = some (.amoAdd 21 9 14 true) ∧
    decodeScalar 0b110000_10101_01001_0111000000010001 = some (.amoAnd 21 9 14 true) ∧
    decodeScalar 0b110000_10101_01001_0111000000010010 = some (.amoOr 21 9 14 true) ∧
    decodeScalar 0b110000_10101_01001_0111000000010011 = some (.amoXor 21 9 14 true) ∧
    decodeScalar 0b110000_10101_01001_0111000000010100 = some (.amoMin 21 9 14 true) ∧
    decodeScalar 0b110000_10101_01001_0111000000010101 = some (.amoMax 21 9 14 true) ∧
    decodeScalar 0b110000_10101_01001_0111000000010110 = some (.amoMinu 21 9 14 true) ∧
    decodeScalar 0b110000_10101_01001_0111000000010111 = some (.amoMaxu 21 9 14 true) ∧
    decodeScalar 0b110000_10101_01001_0111000000011000 = some (.amoSwap 21 9 14 true) ∧
    decodeScalar 0b110000_10101_01001_0111000000001001 = some (.amoFadd 21 9 14) := by decide

/-- Words of queued atomics, with the fields where 02 R36 to R38 and the rules of each form place them. -/
theorem test_decode_queued_atomics :
    decodeScalar 0b110001_00000_01001_0111000000010000 = some (.amonAdd 9 14 true) ∧
    decodeScalar 0b110001_00000_01001_0111000000010001 = some (.amonAnd 9 14 true) ∧
    decodeScalar 0b110001_00000_01001_0111000000010010 = some (.amonOr 9 14 true) ∧
    decodeScalar 0b110001_00000_01001_0111000000010011 = some (.amonXor 9 14 true) ∧
    decodeScalar 0b110001_00000_01001_0111000000010100 = some (.amonMin 9 14 true) ∧
    decodeScalar 0b110001_00000_01001_0111000000010101 = some (.amonMax 9 14 true) ∧
    decodeScalar 0b110001_00000_01001_0111000000010110 = some (.amonMinu 9 14 true) ∧
    decodeScalar 0b110001_00000_01001_0111000000010111 = some (.amonMaxu 9 14 true) ∧
    decodeScalar 0b110001_00000_01001_0111000000011000 = some (.amonSwap 9 14 true) ∧
    decodeScalar 0b110001_00000_01001_0111000000001001 = some (.amonFadd 9 14) ∧
    decodeScalar 0b110010_10101_01001_0111000000000001 = some (.cas 21 9 14 true) := by decide

/-- Words of fences, waits and pails, with the fields where 02 R36 to R38 and the rules of each form place them. -/
theorem test_decode_fences_waits_and_pails :
    decodeScalar 0b110011_00000_00000_0000000000000000 = some .phase ∧
    decodeScalar 0b110011_00000_00000_0000000000000001 = some .fence ∧
    decodeScalar 0b110011_00000_00000_0000000000000010 = some .fenceC ∧
    decodeScalar 0b110011_00000_00000_0000000000000011 = some .fenceX ∧
    decodeScalar 0b110100_10101_01001_0000000000000011 = some (.wait 21 9 3) ∧
    decodeScalar 0b110100_10101_01001_0111000000000111 = some (.waitLimited 21 9 14 3) ∧
    decodeScalar 0b110101_00000_01001_0000011001000000 = some (.pailArm 9 200) ∧
    decodeScalar 0b110101_10101_01001_0000011001000001 = some (.pailWait 21 9 200) ∧
    decodeScalar 0b110101_10101_00000_0000011001000010 = some (.pailRd 21 200) := by decide

/-- Words of messages, points, tasks and masks, with the fields where 02 R36 to R38 and the rules of each form place them. -/
theorem test_decode_messages_points_tasks_and_masks :
    decodeScalar 0b110110_01010_01001_0111000000000000 = some (.send 10 9 14) ∧
    decodeScalar 0b110110_10101_01010_0000000000000001 = some (.recv 21 10) ∧
    decodeScalar 0b110110_10101_00000_0000000000000010 = some (.pointSeq 21) ∧
    decodeScalar 0b110110_10101_01001_0000000000000011 = some (.pointHt 21 9) ∧
    decodeScalar 0b110110_10101_01001_0000000000000100 = some (.spawn 21 9) ∧
    decodeScalar 0b110110_00000_01001_0000000000000101 = some (.mask 9) ∧
    decodeScalar 0b110110_00000_01001_0000000000000110 = some (.unmask 9) := by decide

/-- Words of commands and handles, with the fields where 02 R36 to R38 and the rules of each form place them. -/
theorem test_decode_commands_and_handles :
    decodeScalar 0b111000_10110_00000_0000000000000000 = some (.cmd 11) ∧
    decodeScalar 0b111001_10110_00000_0000000000000000 = some (.cmdw 11) ∧
    decodeScalar 0b111010_10110_10010_1111111111111110 = some (.qld 11 18 0xfffe) ∧
    decodeScalar 0b111011_10110_10010_1111111111111110 = some (.qst 11 18 0xfffe) ∧
    decodeScalar 0b111100_10110_10010_1001101101001000 = some (.qins 11 18 77 41) ∧
    decodeScalar 0b111101_00001_00101_0000000010000001 = some (.advC 37 129) ∧
    decodeScalar 0b111101_00001_00101_0100000010000001 = some (.advP 37 129) ∧
    decodeScalar 0b111101_00001_00101_1000000010000001 = some (.hwaitC 37 129) ∧
    decodeScalar 0b111101_00001_00101_1100000010000001 = some (.hwaitP 37 129) := by decide

/-- Words of system instructions, with the fields where 02 R36 to R38 and the rules of each form place them. -/
theorem test_decode_system_instructions :
    decodeScalar 0b111110_10101_00000_0001000000110000 = some (.mfsy 21 259) ∧
    decodeScalar 0b111110_00000_01001_0001000000110001 = some (.mtsy 9 259) ∧
    decodeScalar 0b111110_00000_00000_1010010111000010 = some (.trap 0xa5c) ∧
    decodeScalar 0b111110_00000_00000_0000000000000011 = some .ebrk ∧
    decodeScalar 0b111110_00000_00000_0000000000000100 = some .idle ∧
    decodeScalar 0b111110_00000_00000_0000000000000101 = some .hintCompute ∧
    decodeScalar 0b111110_00000_00000_0000000000010101 = some .hintMemory ∧
    decodeScalar 0b111110_00000_00000_0000000000100101 = some .hintWait := by decide

/-! ## Witnesses: states that meet the hypotheses of the statements, for each clause -/

/-- Registers at the edges of 03 R66: the largest canonical address of the lower half that is a multiple of 4, the same and 2, the
smallest that is not canonical, and the smallest of the upper half. -/
theorem witness_canonical :
    Canon 0x00FFFFFFFFFFFFFC ∧ Canon 0x00FFFFFFFFFFFFFE ∧ ¬Canon 0x0100000000000000 ∧ Canon 0xFF00000000000000 ∧ Canon 0 :=
  ⟨canon_of_bits _ (by decide), canon_of_bits _ (by decide),
    fun h => absurd (h 57 (by decide) (by decide)) (by decide), canon_of_bits _ (by decide), canon_of_bits _ (by decide)⟩

theorem witness_ScalarDecodesWhatWasEncoded :
    (Instr.add 9 9 10).wf = true ∧ encodeScalar (.add 9 9 10) = some 0x05295000 := by decide
theorem witness_AcceptedWordsAreEncodings : 0x05295000 < 2 ^ 32 ∧ decodeScalar 0x05295000 = some (.add 9 9 10) := by decide
theorem witness_CommandDecodesWhatWasEncoded :
    (Instr.tfetch default).wf = true ∧ encodeCommand (.tfetch default) = some (5 * 2 ^ 122) := by decide
theorem witness_BytesDecodeToTheInstruction :
    (Instr.add 9 9 10).wf = true ∧ encodeScalar (.add 9 9 10) = some 0x05295000 ∧ ([1, 2, 3] : List Byte).length < 4 := by decide

/-- A firing whose next word stands in the instruction L1. -/
def codeState (w : Nat) : State := State.reset.withFetchWord 32 w

theorem witness_StepRunsTheDecodedInstruction :
    let s := codeState 0x05295000
    s.agenda = [] ∧ s.fc.status = .running ∧ s.fc.stopped = false ∧ s.halted s.now = false ∧ s.quantumOver = false ∧
      s.fetch = .word 0x05295000 ∧ decodeScalar (0x05295000 : BitVec 32).toNat = some (.add 9 9 10) := by decide +kernel

/-- A core with an entry that 3 words on channel 4 make eligible. -/
def selState : State :=
  onCtx (onCore s0 fun c => { c with chans := [(4, [1, 2, 3])], eligible := [0], il1 := [(⟨false, 64⟩, leBytes 64 0x05295000)] })
    fun c => { c with handlers := [⟨0x2000, 0, true, false, 3, 4, 3, []⟩] }

theorem witness_EveryStepKeepsWhatSelectionSees :
    SelectionSees selState ∧ ∃ t, step selState = .next t ∧ (t.core 0).eligible = [0] ∧ t.g 9 = 0 := by
  refine ⟨?_, ?_⟩
  · intro e he _
    have h : e = (0, selState.core 0) := by
      have h1 : selState.cores = [(0, selState.core 0)] := by decide +kernel
      rw [h1] at he
      exact List.mem_singleton.mp he
    subst h
    have h2 : (selState.core 0).eligible = [0] := by decide +kernel
    have h3 : (selState.ctx (selState.cxId 0)).handlers.length = 1 := by decide +kernel
    have h4 : selState.eligibleNow 0 0 = true := by decide +kernel
    refine ⟨by decide +kernel, fun n => ?_⟩
    simp only [h2, h3, List.mem_singleton]
    exact ⟨fun h => by subst h; exact ⟨by decide, h4⟩, fun h => by omega⟩
  · have h : answers (step selState) (fun t => (t.core 0).eligible = [0] && t.g 9 = 0) = true := by decide +kernel
    unfold answers at h
    split at h
    · rename_i t ht
      simp only [Bool.and_eq_true, decide_eq_true_eq] at h
      exact ⟨t, ht, h.1, h.2⟩
    · cases h
    · cases h

theorem witness_EveryStepKeepsMemoryCanonical :
    let s := codeState 0x05295000
    s.hbm.wf = true ∧ s.hostMem.wf = true ∧ s.hbm ≠ [] ∧ answers (step s) (fun t => t.pc = 4) = true := by decide +kernel

/-- 03 R80: a predicate that is true, and one that is false, outside and inside a loop that the target leaves. -/
theorem witness_BranchesAndCalls :
    s0.p 0 = true ∧ s0.p 1 = false ∧ s0.fc.loops = [] ∧
    (let s := withFc fun f => { f with pc := 0x1004, loops := [⟨0x1004, 0x100C, 2⟩] };
      s.p 0 = true ∧ s.fc.loops = ⟨0x1004, 0x100C, 2⟩ :: [] ∧ Leaves ⟨0x1004, 0x100C, 2⟩ s 0x100C ∧
        ¬Leaves ⟨0x1004, 0x100C, 2⟩ s 0x1008) := by
  refine ⟨by decide +kernel, by decide +kernel, by decide +kernel, by decide +kernel, by decide +kernel, ?_, ?_⟩ <;>
    (unfold Leaves; decide +kernel)

theorem witness_RegisterJumps :
    (Canon ((regs [(3, 0x00FFFFFFFFFFFFFC)]).g 3) ∧ ((regs [(3, 0x00FFFFFFFFFFFFFC)]).g 3).toNat % 4 = 0) ∧
    ¬Canon ((regs [(3, 0x0100000000000000)]).g 3) ∧
    (Canon ((regs [(3, 0x00FFFFFFFFFFFFFE)]).g 3) ∧ ((regs [(3, 0x00FFFFFFFFFFFFFE)]).g 3).toNat % 4 ≠ 0) := by
  have h1 : (regs [(3, 0x00FFFFFFFFFFFFFC)]).g 3 = 0x00FFFFFFFFFFFFFC := by decide +kernel
  have h2 : (regs [(3, 0x0100000000000000)]).g 3 = 0x0100000000000000 := by decide +kernel
  have h3 : (regs [(3, 0x00FFFFFFFFFFFFFE)]).g 3 = 0x00FFFFFFFFFFFFFE := by decide +kernel
  rw [h1, h2, h3]
  exact ⟨⟨witness_canonical.1, by decide⟩, witness_canonical.2.2.1, witness_canonical.2.1, by decide⟩

theorem witness_HardwareLoop :
    (regs [(3, 1)]).g 3 ≠ 0 ∧ (regs [(3, 1)]).fc.loops.length < 2 ∧ s0.g 3 = 0 ∧ (∀ e ∈ s0.fc.loops, s0.pc ≠ e.past - 4) ∧
    (let s := (withFc fun f => { f with loops := [⟨0x1004, 0x100C, 2⟩, ⟨0x1000, 0x2000, 2⟩] }).setG 3 1;
      s.g 3 ≠ 0 ∧ 2 ≤ s.fc.loops.length) := by decide +kernel

/-- What taking an exception asks for: a running firing of a context on the core's partition. -/
theorem witness_TakingAnException :
    s0.hbm.wf = true ∧ s0.hostMem.wf = true ∧ s0.partOf s0.now = some ⟨1, ⟨0, 0, 8, 8⟩, some 1, false, 0, false, 0, []⟩ ∧
    s0.fc.status = .running ∧ s0.fc.stopped = false ∧ s0.fc.loops = [] ∧
    look (s0.ctx s0.x).firings s0.fid = some fir ∧ (look s0.ctxs s0.x).isSome = true := by decide +kernel

theorem test_exception_entry :
    answers (exec (.trap 42) s0) (fun t => t.halted 0 && (t.core 0).fcs[0].stopped && (t.core 0).fcs[0].pc = 0x1000 &&
      t.bytesAt ⟨false, 0x200000⟩ 8 = [1, 1, 0x12, 0, 0, 0, 0, 1] && t.bytesAt ⟨false, 0x200018⟩ 8 = leBytes 8 0x1000 &&
      t.bytesAt ⟨false, 0x200038⟩ 8 = leBytes 8 42) = true := by decide +kernel
theorem test_ebrk :
    answers (exec .ebrk s0) (fun t => t.halted 0 && (t.core 0).fcs[0].pc = 0x1004 && ((t.ctx 1).firing 1).ended = false) = true := by decide +kernel
theorem test_illegal : traps (.illegalInstruction 0) s0 0x01 = true ∧ traps (.instructionFetchFault 0x05) s0 0x05 = true := by decide +kernel

/-- A firing that waits in an `idle`, and one whose `idle` has ended. -/
def idleState : State := withFc fun f => { f with status := .blocked .idle }

theorem witness_BreakAndIdle :
    (withFc fun f => { f with expired := true }).fc.expired = true ∧ s0.fc.expired = false ∧
    ((idleState.core 0).fc 0).status = .blocked .idle ∧ ((idleState.core 0).fc 0).stopped = false := by decide +kernel

theorem test_idle :
    answers (exec .idle s0) (fun t => (t.core 0).fcs[0].status = .blocked .idle && (t.core 0).fcs[0].pc = 0x1000) = true ∧
    answers (exec (.idleTimeout 0 0) idleState) (fun t => (t.core 0).fcs[0].expired) = true := by decide +kernel

/-! ### Linear memory -/

/-- The line of 0x8000 in the data L1 and bytes there, with g3 at its last doubleword. -/
def memState : State :=
  ((onCore s0 fun c => { c with l1 := [(⟨false, 0x200⟩, false)] }).setBytes ⟨false, 0x8038⟩ [0x80, 0xFF, 3, 4, 5, 6, 7, 0x88]).setG 3 0x8038

/-- An address of 03 R85 for each of its checks: not canonical, misaligned, without a cached page, without any page after the MMU
has asked, and on a page that refuses. -/
theorem witness_AddressChecks :
    ¬Canon 0x0100000000000000 ∧
    (Canon 0x8039 ∧ (0x8039 : Word).toNat % 8 ≠ 0) ∧
    (Canon 0x8038 ∧ (0x8038 : Word).toNat % 8 = 0 ∧ (onCore s0 fun c => { c with mmu := [] }).translate 0x8038 .load = .miss ∧
      (withFc fun f => { f with woken := true }).translate 0x800000 .load = .stop ∧
      (withFc fun f => { f with woken := true }).translate 0x800000 .store = .stop ∧
      s0.translate 2097152 .load = .perm ∧ s0.translate 1048576 .store = .perm ∧ s0.translate 0x20000 .store = .perm) :=
  ⟨witness_canonical.2.2.1, ⟨canon_of_bits _ (by decide), by decide⟩, canon_of_bits _ (by decide), by decide +kernel⟩

theorem witness_LinearLoads :
    memState.translate (memState.g 3).toNat .load = .ok ⟨false, 0x8038⟩ ∧ memState.atomicOn memState.now memState.fid (⟨false, 0x8038⟩ : Loc).line = false ∧
    (memState.cur.l1.any fun e => e.1 = (⟨false, 0x8038⟩ : Loc).line) = true := by decide +kernel

theorem test_loads :
    answers (exec (.ldB 5 3 0) memState) (fun t => t.g 5 = 0xFFFFFFFFFFFFFF80) = true ∧
    answers (exec (.ldBz 5 3 0) memState) (fun t => t.g 5 = 0x80) = true ∧
    answers (exec (.ldH 5 3 0) memState) (fun t => t.g 5 = 0xFFFFFFFFFFFFFF80) = true ∧
    answers (exec (.ldHz 5 3 0) memState) (fun t => t.g 5 = 0xFF80) = true ∧
    answers (exec (.ldW 5 3 4) memState) (fun t => t.g 5 = 0xFFFFFFFF88070605) = true ∧
    answers (exec (.ldWz 5 3 4) memState) (fun t => t.g 5 = 0x88070605) = true ∧
    answers (exec (.ldD 3 3 0) memState) (fun t => t.g 3 = 0x880706050403FF80) = true := by decide +kernel
theorem test_ldx :
    answers (exec (.ldx 5 3 4 3 0) (memState.setG 4 0xFFFFFFFFFFFFFFFF)) (fun t => t.g 5 = 0) = true ∧
    answers (exec (.ldx 5 3 4 0 5) (memState.setG 4 4)) (fun t => t.g 5 = 0x88070605) = true ∧
    traps (.ldD 5 3 1) memState 0x02 = true := by decide +kernel

/-- A store buffer of sixteen lines. -/
def fullSb : List Line := (List.range 16).map fun n => ⟨false, n, []⟩

theorem witness_LinearStores :
    memState.translate (memState.g 3).toNat .store = .ok ⟨false, 0x8038⟩ ∧ 0x8038 % 8 = 0 ∧
    sbFull memState.fc.sb ⟨false, 0x8038⟩ = false ∧ sbFull (withFc fun f => { f with sb := fullSb }).fc.sb ⟨false, 0x8038⟩ = true := by
  decide +kernel

theorem test_stores :
    answers (exec (.stB 3 3 1) memState) (fun t => t.loadBytes ⟨false, 0x8038⟩ 3 = [0x80, 0x38, 3] && t.byte ⟨false, 0x8039⟩ = 0xFF) = true ∧
    answers (exec (.stH 3 3 0) memState) (fun t => t.loadBytes ⟨false, 0x8038⟩ 3 = [0x38, 0x80, 3]) = true ∧
    answers (exec (.stW 3 3 0) memState) (fun t => t.loadBytes ⟨false, 0x8038⟩ 5 = [0x38, 0x80, 0, 0, 5]) = true ∧
    answers (exec (.stD 3 3 0xFFF8) memState) (fun t => t.loadBytes ⟨false, 0x8030⟩ 9 = [0x38, 0x80, 0, 0, 0, 0, 0, 0, 0x80]) = true ∧
    answers (exec (.stx 3 3 4 2 1) (memState.setG 4 1)) (fun t => t.loadBytes ⟨false, 0x803C⟩ 3 = [0x38, 0x80, 7]) = true := by decide +kernel

theorem witness_CommandRegisters :
    (let s := memState.setG 3 0x8030;
      s.translate (s.g 3).toNat .load = .ok ⟨false, 0x8030⟩ ∧ (s.g 3).toNat % 16 = 0 ∧
      (s.cur.l1.any fun e => e.1 = (⟨false, 0x8030⟩ : Loc).line) = true) ∧
    (64 : BitVec 7).toNat + ((63 : BitVec 6).toNat + 1) ≤ 128 ∧ 128 < (65 : BitVec 7).toNat + ((63 : BitVec 6).toNat + 1) := by decide +kernel

/-- 03 R71, R92: the checks of a 16-byte access in the order of their causes; and a lower half that was read ahead, and none. -/
theorem witness_CommandRegisterChecks :
    (0x0100000000000008 : Word).toNat % 16 ≠ 0 ∧ ((0x0100000000000000 : Word).toNat % 16 = 0 ∧ ¬Canon 0x0100000000000000) ∧
    (let s := memState.setG 3 0x8030;
      s.atomicOn s.now s.fid (⟨false, 0x8030⟩ : Loc).line = false ∧ s.fc.half = none ∧
        (s.setFc { s.fc with half := some (⟨false, 0x8030⟩, List.replicate 8 7) }).fc.half = some (⟨false, 0x8030⟩, List.replicate 8 7)) :=
  ⟨by decide, ⟨by decide, witness_canonical.2.2.1⟩, by decide +kernel⟩

/-- A home slice with room, and a line of host memory, which no slice holds. -/
theorem witness_SliceHasRoom : SliceHasRoom memState memState.x ⟨false, 0x200⟩ ∧ SliceHasRoom memState memState.x ⟨true, 2⟩ := by
  refine ⟨Or.inr fun p _ => ?_, Or.inl rfl⟩
  have h : memState.l2 = [] := by decide +kernel
  simp [h]

theorem test_quad_halves :
    answers (exec (.qld 2 3 0) (let s := memState.setG 3 0x8030; s.setFc { s.fc with half := some (⟨false, 0x8030⟩, List.replicate 8 7) }))
      (fun t => t.q 2 = 0x880706050403FF800707070707070707) = true ∧
    traps (.qld 2 3 0) (regs [(3, 0x0100000000000008)]) 0x02 = true ∧ traps (.qld 2 3 0) (regs [(3, 0x0100000000000000)]) 0x04 = true := by decide +kernel

theorem test_command_registers :
    answers (exec (.qld 2 3 0) (memState.setG 3 0x8030)) (fun t => t.q 2 = 0x880706050403FF800000000000000000) = true ∧
    answers (exec (.qst 2 3 0xFFFF) ((memState.setQ 2 0x0102).setG 3 0x8030)) (fun t => t.loadBytes ⟨false, 0x8020⟩ 3 = [2, 1, 0]) = true ∧
    answers (exec (.qins 2 3 120 7) ((memState.setQ 2 0x0102).setG 3 0x1AB)) (fun t => t.q 2 = 0xAB000000000000000000000000000102) = true ∧
    traps (.qins 2 3 127 1) s0 0x01 = true := by decide +kernel

theorem witness_CachingHints :
    pageOf (s0.ctx s0.x).pages (memState.g 3).toNat = some page ∧ page.r = true ∧ (pageLoc page 0x8038).here = true ∧
    Buf.of (1 : BitVec 2).toNat = some .a ∧ (regs [(3, 0x7FFF8)]).g 3 = 0x7FFF8 ∧ 0x7FFF8 < Buf.size .a := by decide +kernel

theorem test_caching_hints :
    answers (exec (.pref 3 0) (regs [(3, 0x8038)])) (fun t => (t.cur.l1.any fun e => e.1 = ⟨false, 0x200⟩) && t.pc = 0x1004) = true ∧
    answers (exec (.bpf 3 1 1) (regs [(3, 0x40)])) (fun t => t.cur.bcache = [(1, 1)] && t.pc = 0x1004) = true := by decide +kernel

/-! ### Typed buffers -/

/-- The last granule of A full, with bytes, and g3 there. -/
def bufState : State :=
  (onCore s0 fun c => { c with bufA := [(0x7FFF8, 0x11), (0x7FFFF, 0x88)], fullA := [0x7FFF] }).setG 3 0x7FFF8

theorem witness_TypedBuffers :
    (Buf.of (1 : BitVec 2).toNat = some .a ∧ (bufState.g 3).toNat % 8 = 0 ∧ (bufState.g 3).toNat < Buf.size .a ∧
      bufState.cur.bankOpen .a (bufState.g 3).toNat bufState.cur.cx = true) ∧
    bufState.mayRead .a 0x7FFF = true ∧ bufState.mayRead .a 0x7FFE = false ∧ (bufState.cur.buf .a).wf = true ∧
    bufState.cur.full .a 0x7FFF = true ∧ bufState.cur.full .a 0x7FFE = false ∧ Buf.size .a = 0x80000 := by decide +kernel

theorem test_buffer_reads :
    answers (exec (.ldb 5 3 1 0) bufState) (fun t => t.g 5 = 0x8800000000000011 && t.cur.fullA = [0x7FFF]) = true ∧
    answers (exec (.ldbFe 5 3 1 0) bufState) (fun t => t.g 5 = 0x8800000000000011 && t.cur.fullA = []) = true ∧
    answers (exec (.ldbPk 5 3 1 0) bufState) (fun t => t.g 5 = 0x8800000000000011 && t.cur.fullA = [0x7FFF]) = true ∧
    answers (exec (.ldbNb 5 3 1 0) bufState) (fun t => t.g 5 = 0x8800000000000011 && t.p 7) = true ∧
    traps (.ldb 5 3 1 1) bufState 0x07 = true := by decide +kernel
theorem test_buffer_reads_indexed :
    answers (exec (.ldbx 5 3 4 1) (bufState.setG 4 0xFFFFFFFFFFFFFFF8)) (fun t => t.g 5 = 0) = true ∧
    answers (exec (.ldbxFe 5 3 0 1) bufState) (fun t => t.cur.fullA = []) = true ∧
    answers (exec (.ldbxPk 5 0 0 1) bufState) (fun t => (t.core 0).fcs[0].status = .blocked (.full 1 0 false (.ldbxPk 5 0 0 1))) = true ∧
    answers (exec (.ldbxNb 5 0 0 1) bufState) (fun t => t.p 7 = false) = true := by decide +kernel
theorem test_buffer_writes :
    answers (exec (.stb 3 4 1 0) bufState) (fun t => t.cur.bufBytes .a 0 3 = [0xF8, 0xFF, 7] && t.cur.full .a 0) = true ∧
    answers (exec (.stbFe 3 3 1 0) bufState) (fun t => (t.core 0).fcs[0].status = .blocked (.empty 1 0x7FFF)) = true ∧
    answers (exec (.stbx 3 3 0 1) bufState) (fun t => t.cur.bufBytes .a 0x7FFF8 8 = [0xF8, 0xFF, 7, 0, 0, 0, 0, 0]) = true ∧
    answers (exec (.stbxFe 3 0 0 2) bufState) (fun t => t.cur.bufBytes .c 0 3 = [0xF8, 0xFF, 7] && t.cur.full .c 0) = true := by decide +kernel

/-! ### Fibres -/

/-- A pointer array [1, 3] at 0x100 and coordinates 0, 4, 9, 12 at 0x200 in A. -/
def fibState : State :=
  ((onCore s0 fun c => { c with
    bufA := [(0x100, 1), (0x104, 3), (0x204, 4), (0x208, 9), (0x20C, 12)], fullA := [0x10, 0x20] }).setG 4 0x200).setG 5 0x100

/-- fibState with f3 on its first entry. -/
def fibOpened : State := fibState.setFc { fibState.fc with f := fibState.fc.f.set 3 ⟨4, 1, 3, 0x200⟩ }

theorem witness_FibreOpening :
    ((fibState.g 4).toNat % 4 = 0 ∧ (fibState.g 5).toNat % 4 = 0 ∧ (fibState.g 4).toNat < 0x80000 ∧ (fibState.g 5).toNat + 8 ≤ 0x80000 ∧
      Readable fibState 0x100 ∧ Readable fibState 0x104 ∧ wordOfA fibState 0x100 ≤ wordOfA fibState 0x104 ∧
      0x200 + 4 * wordOfA fibState 0x104 ≤ 0x80000 ∧ Readable fibState (0x200 + 4 * wordOfA fibState 0x100)) ∧
    wordOfA fibState 0x108 < wordOfA fibState 0x104 ∧
    (regs [(4, 0x201)]).g 4 = 0x201 ∧ (regs [(4, 0x80000)]).g 4 = 0x80000 ∧
    (let s := fibState.setG 5 0x0000000300000001;
      (s.g 5).toNat % 2 ^ 32 = 1 ∧ (s.g 5).toNat / 2 ^ 32 = 3 ∧ Readable s (0x200 + 4 * 1)) ∧
    (fibState.setG 5 0x0000000000000001).g 5 = 1 := by
  simp only [Readable, wordOfA]
  decide +kernel

theorem test_fibre_open :
    answers (exec (.fibOpen 3 4 5) fibState) (fun t => t.f 3 = ⟨4, 1, 3, 0x200⟩) = true ∧
    answers (exec (.fibSet 3 4 5) (fibState.setG 5 0x0000000300000002)) (fun t => t.f 3 = ⟨9, 2, 3, 0x200⟩) = true ∧
    traps (.fibOpen 3 4 5) (fibState.setG 4 0x201) 0x02 = true ∧ traps (.fibSet 3 4 5) (fibState.setG 5 1) 0x10 = true := by decide +kernel

theorem witness_FibreSteps :
    (fibOpened.f 3).pos.toNat < (fibOpened.f 3).last.toNat ∧ Readable fibOpened (0x200 + 4 * 2) ∧
    (fibOpened.setG 6 8).g 6 = 8 ∧ (fibOpened.f 3).cur.toNat < 8 ∧
    (∀ i, (fibOpened.f 3).pos.toNat < i → i < (fibOpened.f 3).last.toNat → Readable fibOpened (0x200 + 4 * i)) ∧
    2 ^ 32 ≤ ((fibOpened.setG 6 0x100000000).g 6).toNat ∧ 2 < (3 : Fin 32).val := by
  have h : ∀ i, i < 3 → 1 < i → Readable fibOpened (0x200 + 4 * i) := by
    simp only [Readable]
    decide +kernel
  refine ⟨by decide +kernel, h 2 (by decide) (by decide), by decide +kernel, by decide +kernel, ?_, by decide +kernel, by decide⟩
  intro i h1 h2
  have h3 : (fibOpened.f 3).pos.toNat = 1 := by decide +kernel
  have h4 : (fibOpened.f 3).last.toNat = 3 := by decide +kernel
  exact h i (by omega) (by omega)

theorem test_fibre_steps :
    answers (exec (.fibAdv 3) fibOpened) (fun t => t.f 3 = ⟨9, 2, 3, 0x200⟩) = true ∧
    answers (exec (.fibSeek 3 6) (fibOpened.setG 6 9)) (fun t => t.f 3 = ⟨9, 2, 3, 0x200⟩) = true ∧
    answers (exec (.fibSeek 3 6) (fibOpened.setG 6 10)) (fun t => t.f 3 = ⟨0xFFFFFFFF, 3, 3, 0x200⟩) = true ∧
    answers (exec (.fibEnd 2 3) fibOpened) (fun t => t.p 2 = false) = true ∧
    answers (exec (.fibGet 6 3 1) fibOpened) (fun t => t.g 6 = 1) = true ∧
    answers (exec (.fibClose 3) fibOpened) (fun t => t.f 3 = ⟨0xFFFFFFFF, 0, 0, 0⟩) = true := by decide +kernel

theorem witness_IndirectStreamRegisters : 1 < (2 : Fin 32).val := by decide

theorem test_indirect_stream_registers :
    answers (exec (.jsxSet 1 6 7) (regs [(6, 1), (7, 2)])) (fun t => t.j 1 = 0x10000000000000002) = true ∧
    answers (exec (.jsxGet 6 1 1) (withFc fun f => { f with j := f.j.set 1 0x10000000000000002 })) (fun t => t.g 6 = 1) = true := by decide +kernel

/-! ### Atomics, fences, waits and pails -/

/-- memState whose data L1 owns the line. -/
def ownState : State := onCore memState fun c => { c with l1 := [(⟨false, 0x200⟩, true)] }

theorem witness_Owned : Owned (ownState.setG 4 7) ((ownState.setG 4 7).g 3) 8 ⟨false, 0x8038⟩ := by
  have h : (ownState.setG 4 7).g 3 = 0x8038 := by decide +kernel
  rw [h]
  exact ⟨by decide +kernel, canon_of_bits _ (by decide), by decide, by decide +kernel, by decide, by unfold Published; decide +kernel,
    by decide +kernel, by decide +kernel⟩

/-- An atomic of ownState with 7 in g4: g5, and the 8 bytes of memory after. -/
def atomicGives (i : Instr) (r : Word) (m : List Byte) : Bool :=
  answers (exec i (ownState.setG 4 7)) fun t => t.g 5 = r && t.bytesAt ⟨false, 0x8038⟩ 8 = m

theorem test_atomics_double :
    atomicGives (.amoAdd 5 3 4 true) 0x880706050403FF80 [0x87, 0xFF, 3, 4, 5, 6, 7, 0x88] = true ∧
    atomicGives (.amoMin 5 3 4 true) 0x880706050403FF80 [0x80, 0xFF, 3, 4, 5, 6, 7, 0x88] = true ∧
    atomicGives (.amoMax 5 3 4 true) 0x880706050403FF80 [7, 0, 0, 0, 0, 0, 0, 0] = true ∧
    atomicGives (.amoMinu 5 3 4 true) 0x880706050403FF80 [7, 0, 0, 0, 0, 0, 0, 0] = true ∧
    atomicGives (.amoMaxu 5 3 4 true) 0x880706050403FF80 [0x80, 0xFF, 3, 4, 5, 6, 7, 0x88] = true := by decide +kernel
theorem test_atomics_word :
    atomicGives (.amoAnd 5 3 4 false) 0x403FF80 [0, 0, 0, 0, 5, 6, 7, 0x88] = true ∧
    atomicGives (.amoOr 5 3 4 false) 0x403FF80 [0x87, 0xFF, 3, 4, 5, 6, 7, 0x88] = true ∧
    atomicGives (.amoXor 5 3 4 false) 0x403FF80 [0x87, 0xFF, 3, 4, 5, 6, 7, 0x88] = true ∧
    atomicGives (.amoSwap 5 3 4 false) 0x403FF80 [7, 0, 0, 0, 5, 6, 7, 0x88] = true := by decide +kernel

/-- The rows of 11 R311 and R312. -/
theorem test_fadd_rows :
    faddWord 0x7F7FFFFF 0x73800000 = (0x7F800000, ⟨false, true, false, true⟩) ∧
    faddWord 0x00800000 0x80000001 = (0x007FFFFF, ⟨false, false, false, false⟩) ∧
    faddWord 0x3F800000 0x33800000 = (0x3F800000, ⟨false, false, false, true⟩) ∧
    faddWord 0x3F800000 0x40000000 = (0x40400000, ⟨false, false, false, false⟩) := by decide +kernel
theorem test_amo_fadd :
    answers (exec (.amoFadd 5 3 4) ((ownState.setBytes ⟨false, 0x8038⟩ [0, 0, 0x80, 0x3F]).setG 4 0x33800000))
      (fun t => t.g 5 = 0x3F800000 && t.fc.aflags.nx && t.bytesAt ⟨false, 0x8038⟩ 4 = [0, 0, 0x80, 0x3F]) = true := by decide +kernel

theorem witness_FloatingAtomicSum :
    isNan32 0x7F800001 ∧ isNan32 0xFFFFFFFF ∧ ¬isNan32 0x7F800000 ∧ 0x7F7FFFFF % 2 ^ 31 < 0x7F800000 := by
  unfold isNan32
  decide

theorem witness_CompareAndSwap :
    (let s := (ownState.setG 4 7).setG 5 0x880706050403FF80;
      leNat (s.seenBytes s.x ⟨false, 0x8038⟩ 8) = (s.g 5).toNat % 2 ^ 64) ∧
    leNat (ownState.seenBytes ownState.x ⟨false, 0x8038⟩ 8) ≠ (ownState.g 5).toNat % 2 ^ 64 := by decide +kernel

theorem test_cas :
    answers (exec (.cas 5 3 4 false) ((ownState.setG 4 7).setG 5 0xFFFFFFFF0403FF80))
      (fun t => t.p 7 && t.g 5 = 0x403FF80 && t.bytesAt ⟨false, 0x8038⟩ 5 = [7, 0, 0, 0, 5]) = true ∧
    answers (exec (.cas 5 3 4 true) ((ownState.setG 4 7).setG 5 1))
      (fun t => !t.p 7 && t.g 5 = 0x880706050403FF80 && t.byte ⟨false, 0x8038⟩ = 0x80) = true := by decide +kernel

theorem witness_QueuedAtomics :
    Published memState ∧ memState.translate (memState.g 3).toNat .store = .ok ⟨false, 0x8038⟩ := by
  unfold Published
  decide +kernel

/-- A queued fp32 sum of 1 and 2^-24. -/
def amonState : State :=
  (onCore s0 fun c => { c with amons := [⟨1, 0, 0x8038, 0x33800000, 9, false, 0⟩] }).setBytes ⟨false, 0x8038⟩ [0, 0, 0x80, 0x3F]

theorem witness_QueuedAtomicIsPerformed :
    amonState.hbm.wf = true ∧ amonState.hostMem.wf = true ∧ (amonState.core 0).records.contains 14 = false ∧
    (amonState.core 0).amons = ⟨1, 0, 0x8038, 0x33800000, 9, false, 0⟩ :: [] ∧
    amonState.engineTranslate (amonState.cxId 0) (0x8038 : Word).toNat .store = .ok ⟨false, 0x8038⟩ ∧
    (amonState.ctx (amonState.cxId 0)).undoFull (⟨false, 0x8038⟩ : Loc).line = false ∧ (⟨false, 0x8038⟩ : Loc).addr % 4 = 0 := by decide +kernel

theorem test_amon :
    answers (exec (.amonSwap 3 4 true) (memState.setG 4 7))
      (fun t => (t.cur.amons.map fun a => (a.va, a.operand, a.op, a.double)) = [(0x8038, 7, 8, true)] && t.pc = 0x1004 && t.byte ⟨false, 0x8038⟩ = 0x80) = true ∧
    answers (exec (.amonPerform 0) amonState)
      (fun t => (t.core 0).amons = [] && (t.core 0).nflags.nx && t.bytesAt ⟨false, 0x8038⟩ 4 = [0, 0, 0x80, 0x3F]) = true := by decide +kernel

/-- A command of firing 1 that waits in the queue, or has failed. -/
def entry (st : CmdStage) : CmdEntry := ⟨0, 0x14 * 2 ^ 122, 1, 0, 0, st, 0, 0, false, false, 0, []⟩
def cmdsState (st : CmdStage) : State := onCore s0 fun c => { c with cmds := [entry st], nextCmd := 1 }

/-- Held stores of firing 1 and of another to the same host line. -/
def heldState : State :=
  onCtx s0 fun c => { c with held := [⟨⟨true, 2, [(0, 5), (63, 6)]⟩, 1, false⟩, ⟨⟨true, 2, [(0, 7)]⟩, 2, false⟩, ⟨⟨true, 2, [(0, 8)]⟩, 1, false⟩] }

theorem witness_Fences :
    (¬Published (withFc fun f => { f with sb := fullSb })) ∧ Published s0 ∧ s0.cur.cmdsOf s0.fid = [] ∧
    (cmdsState (.failed 0x24)).cur.failedCmd 1 = some 0x24 ∧ (cmdsState .queued).cur.failedCmd 1 = none ∧
    (cmdsState .queued).cur.cmdsOf 1 ≠ [] ∧ (∀ h ∈ (s0.ctx s0.x).held, h.fid ≠ s0.fid) ∧ heldState.hostMem.wf = true ∧
    (∀ h ∈ (heldState.ctx heldState.x).held, h.line.onHost = true ∧ (h.line.bytes.map Prod.fst).Nodup ∧ ∀ b ∈ h.line.bytes, b.1 < 64) ∧
    (∃ h ∈ (heldState.ctx heldState.x).held, h.fid = heldState.fid) := by
  unfold Published
  decide +kernel

theorem test_fences :
    answers (exec .fence (withFc fun f => { f with sb := fullSb })) (fun t => (t.core 0).fcs[0].status = .blocked .publication && (t.core 0).fcs[0].pub = fullSb) = true ∧
    answers (exec .fence s0) (fun t => t.pc = 0x1004) = true ∧
    answers (exec .fenceC (cmdsState .queued)) (fun t => (t.core 0).fcs[0].status = .blocked .commands) = true ∧
    answers (exec .fenceX heldState) (fun t => t.byte ⟨true, 128⟩ = 8 && t.byte ⟨true, 191⟩ = 6 && (t.ctx 1).imm && (t.ctx 1).held.length = 1) = true := by
  decide +kernel

/-- A firing with one version written, of a tile that has one. -/
def phaseState : State :=
  onCtx s0 fun c => { c with
    epoch := 3, tiles := [((9, 0, 0), [⟨2, 7, [1], false⟩])], firings := [(1, { fir with writes := [((9, 0, 0), 0, [2])] })] }

theorem witness_PhaseMakesVersionsCurrent :
    Published phaseState ∧ phaseState.cur.cmdsOf phaseState.fid = [] ∧ (look phaseState.ctxs phaseState.x).isSome = true ∧
    look (phaseState.ctx phaseState.x).firings phaseState.fid = some { fir with writes := [((9, 0, 0), 0, [2])] } ∧
    (([((9, 0, 0), 0, [2])] : List (TileKey × Nat × List Byte)).map Prod.fst).Nodup ∧
    (∀ k h, look (phaseState.ctx phaseState.x).tiles k = some h → ∀ v ∈ h, v.since ≤ (phaseState.ctx phaseState.x).epoch) := by
  refine ⟨by unfold Published; decide +kernel, by decide +kernel, by decide +kernel, by decide +kernel, by decide, ?_⟩
  intro k h hk v hv
  have h1 : (phaseState.ctx phaseState.x).tiles = [((9, 0, 0), [⟨2, 7, [1], false⟩])] := by decide +kernel
  have h2 : (phaseState.ctx phaseState.x).epoch = 3 := by decide +kernel
  rw [h1] at hk
  rw [h2]
  simp only [look] at hk
  split at hk
  · cases hk
    rw [List.mem_singleton] at hv
    subst hv
    decide
  · cases hk

/-- A phase gives its version the next 3-bit number, which wraps (11 R300). -/
theorem test_phase :
    answers (exec .phase phaseState) (fun t => (t.ctx 1).epoch = 4 && ((t.ctx 1).firing 1).writes = [] &&
      versionAt ((look (t.ctx 1).tiles (9, 0, 0)).getD []) 4 = some ⟨4, 0, [2], false⟩) = true := by decide +kernel

/-- A firing that has loaded the lines of 0x8000 and 0x8040, the second written since. -/
def waitState : State := ((withFc fun f => { f with watch := [(⟨false, 0x200⟩, false), (⟨false, 0x201⟩, true)] }).setG 3 0x8000).setG 4 0x8040

theorem witness_WaitingOnAddresses :
    WaitLines waitState 3 (1 : BitVec 2).toNat (fun i => ⟨false, 0x8000 + 64 * i⟩) ∧ Published waitState ∧ waitState.fc.expired = false ∧
    waitState.fc.seen (⟨false, 0x8040⟩ : Loc).line = true ∧ waitState.fc.seen (⟨false, 0x8000⟩ : Loc).line = false ∧
    (∀ i, i ≤ (0 : BitVec 2).toNat → waitState.fc.seen (⟨false, 0x8000 + 64 * i⟩ : Loc).line = false) ∧ waitState.g 9 = 0 ∧ waitState.g 3 ≠ 0 ∧
    31 < (31 : Fin 32).val + (1 : BitVec 2).toNat ∧
    (let s := withFc fun f => { f with status := .blocked (.watched true [⟨false, 1⟩]) };
      ((s.core 0).fc 0).status = .blocked (.watched true [⟨false, 1⟩]) ∧ ((s.core 0).fc 0).stopped = false ∧
        (∀ l ∈ ([⟨false, 1⟩] : List Loc), ((s.core 0).fc 0).seen l = false)) := by
  refine ⟨⟨by decide, by decide, fun i hi => ?_⟩, by unfold Published; decide +kernel, by decide +kernel, by decide +kernel, by decide +kernel,
    fun i hi => ?_, by decide +kernel, by decide +kernel, by decide, by decide +kernel⟩
  · have h3 : waitState.g 3 = 0x8000 := by decide +kernel
    have h4 : waitState.g 4 = 0x8040 := by decide +kernel
    have hi' : i = 0 ∨ i = 1 := by
      have : (1 : BitVec 2).toNat = 1 := by decide
      omega
    rcases hi' with rfl | rfl
    · have : (3 : Fin 32) + Fin.ofNat 32 0 = 3 := by decide
      rw [this, h3]
      exact ⟨canon_of_bits _ (by decide), by decide +kernel⟩
    · have : (3 : Fin 32) + Fin.ofNat 32 1 = 4 := by decide
      rw [this, h4]
      exact ⟨canon_of_bits _ (by decide), by decide +kernel⟩
  · have hi' : i = 0 := by
      have : (0 : BitVec 2).toNat = 0 := by decide
      omega
    subst hi'
    decide +kernel

theorem test_wait :
    answers (exec (.wait 5 3 1) waitState) (fun t => t.g 5 = 1 && t.pc = 0x1004) = true ∧
    answers (exec (.waitLimited 5 3 9 0) waitState) (fun t => t.g 5 = 4 && t.pc = 0x1004) = true ∧
    answers (exec (.wait 5 3 0) waitState) (fun t => (t.core 0).fcs[0].status = .blocked (.watched false [⟨false, 0x200⟩])) = true := by decide +kernel

/-- Pail 7 at the context's pail area: count 5, target 8, gen 2, armed; and pail 8 failed with reason 0x24. -/
def pailState : State :=
  (s0.setBytes ⟨false, 0x20070⟩ (leBytes 4 5 ++ leBytes 4 8 ++ leBytes 4 2 ++ [1, 0])).setBytes ⟨false, 0x20080⟩
    (leBytes 4 5 ++ leBytes 4 8 ++ leBytes 4 2 ++ [2, 0x24])

theorem witness_Pails :
    Published pailState ∧ pailState.hbm.wf = true ∧ pailState.hostMem.wf = true ∧ pailField pailState 8 12 1 = 2 ∧
    pailField pailState 7 12 1 ≠ 2 ∧ pailField pailState 7 8 4 = ((pailState.setG 6 2).g 6).toNat % 2 ^ 32 ∧
    pailField pailState 7 8 4 ≠ (pailState.g 6).toNat % 2 ^ 32 := by
  unfold Published pailField
  decide +kernel

theorem test_pails :
    answers (exec (.pailArm 6 7) (pailState.setG 6 9)) (fun t => t.bytesAt ⟨false, 0x20070⟩ 14 = leBytes 4 0 ++ leBytes 4 9 ++ leBytes 4 2 ++ [1, 0]) = true ∧
    answers (exec (.pailRd 5 7) pailState) (fun t => t.g 5 = 0x200000005 && !t.p 7) = true ∧
    answers (exec (.pailWait 5 6 7) pailState) (fun t => t.g 5 = 2) = true ∧
    answers (exec (.pailWait 5 6 7) (pailState.setG 6 2)) (fun t => (t.core 0).fcs[0].status = .blocked (.pail 7 2)) = true := by decide +kernel
theorem test_pail_failed : answers (exec (.pailWait 5 6 8) pailState) (fun t => t.halted 0 && (t.core 0).fcs[0].stopped && t.bytesAt ⟨false, 0x200002⟩ 2 = [0x11, 0]) = true := by
  decide +kernel

theorem witness_PailAdd :
    (⟨5, 8, 2, 2, 0x24⟩ : Pail).state = 2 ∧ (⟨5, 0, 2, 1, 0⟩ : Pail).state ≠ 2 ∧ (⟨5, 0, 2, 1, 0⟩ : Pail).target = 0 ∧
    0 < (⟨5, 2 ^ 32 - 1, 2, 1, 0⟩ : Pail).target ∧ (⟨5, 2 ^ 32 - 1, 2, 1, 0⟩ : Pail).target < 2 ^ 32 := by decide
theorem test_pail_add : (⟨5, 8, 0xFFFFFFFF, 1, 0⟩ : Pail).add 19 = ⟨0, 8, 2, 1, 0⟩ := by decide

/-! ### Messages, points, tasks and masks -/

/-- A launch of tag 7 over 4 by 4 points, sweep 0, on the partition, with heights. -/
def blk : Block :=
  ⟨0x5000, 2, 0, 1, 0, 7, 0, ⟨0, 0, 8, 8⟩, 1, 0, 0, [4, 4, 0, 0], [[1, 0, 0, 0]], 1, 128, 1, 1, [], false, false, 0, 1, 0, 0x6000, 0⟩
def lau : Launch := ⟨blk, [2, 1, 0, 0], [], [], 0, 0, 0, 0, [], 1⟩

/-- Entries 0 on ch4 with a rate of 2, 1 on ch0, and 2 on ch1 with a rate of 8; two words wait on ch4 and one for entry 1. -/
def workState : State :=
  onCtx (onCore s0 fun c => { c with chans := [(4, [11, 12])], points := [⟨0, 1, [21], 7, 0, 0, false⟩], l1 := [(⟨false, 0x200⟩, false)] })
    fun c => { c with
      handlers := [⟨0x2000, 0, true, false, 3, 4, 2, [(9, 4)]⟩, ⟨0x2100, 0, true, false, 3, 0, 1, []⟩, ⟨0x2200, 0, true, false, 3, 1, 8, []⟩]
      launches := [lau], firings := [(1, { fir with resv := [(9, 1), (1, 1)], startHeights := [0, 1, 0, 0] })] }

/-- workState whose firing is one of entry n. -/
def ofEntry (n : Nat) : State := onCtx workState fun c => c.modFiring 1 fun f => { f with entry := n }

/-- workState whose firing has no reservation left. -/
def spentState : State := onCtx workState fun c => c.modFiring 1 fun f => { f with resv := [] }

/-- workState whose firing is a message's. -/
def messageState : State := onCtx workState fun c => c.modFiring 1 fun f => { f with kind := .message }

theorem witness_SendAppendsAWord :
    (1 : Fin 32).val < 2 ∧ 29 < (30 : Fin 32).val ∧ 2 ≤ (2 : Fin 32).val ∧ (29 : Fin 32).val ≤ 29 ∧
    (workState.setG 3 8).destValid ((workState.setG 3 8).g 3).toNat = false ∧ (workState.setG 3 0xE7).destValid ((workState.setG 3 0xE7).g 3).toNat = true ∧
    spentState.firing.reserved 9 = 0 ∧ 0 < (workState.setG 3 0xE7).firing.reserved 9 ∧ Published (workState.setG 3 0xE7) ∧
    (look (workState.setG 3 0xE7).ctxs (workState.setG 3 0xE7).x).isSome = true ∧
    (look ((workState.setG 3 0xE7).ctx (workState.setG 3 0xE7).x).firings (workState.setG 3 0xE7).fid).isSome = true := by
  unfold Published
  decide +kernel

theorem test_send :
    answers (exec (.send 9 3 4) ((workState.setG 3 0xE7).setG 4 99))
      (fun t => t.firing.reserved 9 = 0 && t.firing.msgs = [⟨0xE7, 0, false, 9, [99], 0, false⟩]) = true ∧
    traps (.send 1 3 4) workState 0x0D = true ∧ traps (.send 9 3 4) spentState 0x0C = true := by decide +kernel

theorem witness_RecvTakesAWord :
    (3 : Fin 32).val ≠ ((workState.ctx workState.x).handler workState.firing.entry).inCh ∧
    (4 : Fin 32).val = ((workState.ctx workState.x).handler workState.firing.entry).inCh ∧ look workState.cur.chans 4 = some (11 :: [12]) ∧
    (look (onCore workState fun c => { c with chans := [] }).cur.chans 4).getD [] = [] ∧
    (0 : Fin 32).val = (((ofEntry 1).ctx (ofEntry 1).x).handler (ofEntry 1).firing.entry).inCh ∧
    takeWord (ofEntry 1).cur.points (ofEntry 1).firing.cx (ofEntry 1).firing.entry = some (21, []) ∧
    takeWord (onCore (ofEntry 1) fun c => { c with points := [] }).cur.points 0 1 = none := by decide +kernel

theorem test_recv :
    answers (exec (.recv 5 4) workState) (fun t => t.g 5 = 11 && t.p 7 && look t.cur.chans 4 = some [12]) = true ∧
    answers (exec (.recv 5 0) (ofEntry 1)) (fun t => t.g 5 = 21 && t.p 7 && t.cur.points = []) = true ∧
    answers (exec (.recv 5 4) ((onCore workState fun c => { c with chans := [] }).setG 5 9)) (fun t => t.g 5 = 0 && !t.p 7) = true ∧
    traps (.recv 5 3) workState 0x0D = true := by decide +kernel

theorem witness_PointReads :
    messageState.firing.kind = .message ∧ (workState.ctx workState.x).launch 8 = none ∧ workState.firing.kind ≠ .message ∧
    (workState.ctx workState.x).launch workState.firing.tag = some lau ∧
    lau.block.indexOf (fun k => (coord ((workState.setG 3 0x40000).g 3) k : Int)) = none ∧
    lau.block.indexOf (fun k => (coord ((workState.setG 3 0x10002).g 3) k : Int)) = some 1 ∧ lau.heights.getD 1 0 < 2 ^ 63 ∧
    workState.firing.startHeights.getD 1 0 ≤ lau.heights.getD 1 0 := by decide +kernel

theorem test_point_reads :
    answers (exec (.pointSeq 5) workState) (fun t => t.g 5 = 5) = true ∧ answers (exec (.pointSeq 5) messageState) (fun t => t.g 5 = 0) = true ∧
    answers (exec (.pointHt 5 3) (workState.setG 3 0x40000)) (fun t => t.g 5 = 0xFFFFFFFFFFFFFFFF) = true := by decide +kernel

/-- A task record for entry 2 on an inset of one core, at 0x8000. -/
def taskState : State := (workState.setBytes ⟨false, 0x8000⟩ [2]).setG 3 0x8000

/-- taskState with a record of an entry that is not valid, and without a reservation. -/
def badTask : State := taskState.setBytes ⟨false, 0x8000⟩ [3]
def taskSpent : State := onCtx taskState fun c => c.modFiring 1 fun f => { f with resv := [] }

theorem witness_SpawnQueuesATask :
    Canon 0x8000 ∧ (taskState.g 3 = 0x8000 ∧ taskState.translate 0x8000 .load = .ok ⟨false, 0x8000⟩ ∧
    taskState.atomicOn taskState.now taskState.fid (⟨false, 0x8000⟩ : Loc).line = false ∧ (taskState.cur.l1.any fun e => e.1 = (⟨false, 0x8000⟩ : Loc).line) = true ∧
    taskState.firing.kind ≠ .message ∧ (taskState.ctx taskState.x).launch taskState.firing.tag = some lau ∧
    (taskState.ctx taskState.x).recordValid blk.sheet (taskState.loadBytes ⟨false, 0x8000⟩ 64) = true ∧
    (badTask.ctx badTask.x).recordValid blk.sheet (badTask.loadBytes ⟨false, 0x8000⟩ 64) = false ∧
    taskSpent.firing.reserved 1 = 0 ∧ 0 < taskState.firing.reserved 1 ∧ Published taskState) :=
  ⟨canon_of_bits _ (by decide), by unfold Published; decide +kernel⟩

theorem test_spawn :
    answers (exec (.spawn 5 3) taskState) (fun t => ((t.die 0).tasks.map fun r => (r.seq, r.parent, r.queued)) = [((t.g 5).toNat, 1, true)] &&
      t.firing.reserved 1 = 0) = true ∧
    traps (.spawn 5 3) badTask 0x0E = true ∧ traps (.spawn 5 3) taskSpent 0x0C = true := by decide +kernel

theorem witness_MaskBits :
    (7 : Fin 32).val < 8 ∧ ((workState.setG 3 0x702).g 3).toNat = (2 : Fin 32).val + 256 * (7 : Fin 32).val ∧
    ((workState.ctx workState.x).handler (2 : Fin 32).val).valid = true ∧ ((workState.setG 3 0x802).g 3).toNat / 2048 ≠ 0 ∧
    ((workState.setG 3 0x22).g 3).toNat / 32 % 8 ≠ 0 ∧ ((workState.ctx workState.x).handler (((workState.setG 3 0x703).g 3).toNat % 32)).valid = false := by
  decide +kernel

theorem test_masks :
    answers (exec (.mask 3) (workState.setG 3 0x702)) (fun t => t.masked 0 7 2 && !t.masked 0 0 2) = true ∧
    answers (exec (.unmask 3) ((onCore workState fun c => { c with masks := [((7, 2), true)] }).setG 3 0x702)) (fun t => !t.masked 0 7 2) = true ∧
    traps (.mask 3) (workState.setG 3 0x703) 0x0D = true := by decide +kernel

/-! ### Commands, handles and system registers -/

/-- A `barr` in q2; and an all-zero command. -/
def barrState : State := s0.setQ 2 (0x14 * 2 ^ 122)

theorem witness_CommandIssue :
    s0.cmdFault (s0.q 2) false 0 = some 0x11 ∧ barrState.cmdFault (barrState.q 2) false (barrState.fc.j.get (Fin.ofNat 8 (cmdOf (barrState.q 2)).cflags.toNat)) = none ∧
    s0.fc.checked = false ∧ s0.cmdFault (s0.q 2) true 0 = some 0x11 ∧
    (withFc fun f => { f with checked := true, sb := fullSb }).fc.checked = true ∧ ¬Published (withFc fun f => { f with checked := true, sb := fullSb }) ∧
    barrState.cmdFault (barrState.q 2) true 0 = none ∧ Published barrState ∧ barrState.cur.queued.length < 32 ∧
    32 ≤ (onCore barrState fun c => { c with cmds := List.replicate 32 (entry .queued) }).cur.queued.length ∧ barrState.fc.waitCmd = none ∧
    (∀ e ∈ barrState.cur.cmds, e.id ≠ 0) ∧
    ((cmdsState (.failed 0x24)).cur.cmds.find? fun c => c.id = 0) = some (entry (.failed 0x24)) := by
  unfold Published
  decide +kernel

theorem test_command_issue :
    answers (exec (.cmd 2) barrState) (fun t => (t.cur.cmds.map fun e => (e.id, e.word, e.fid, e.stage)) = [(0, 0x14 * 2 ^ 122, 1, .queued)] && t.pc = 0x1004) = true ∧
    answers (exec (.cmdw 2) barrState) (fun t => (t.core 0).fcs[0].status = .blocked (.command 0) && (t.core 0).fcs[0].pc = 0x1000) = true ∧
    traps (.cmd 2) s0 0x0A = true := by decide +kernel

/-- Handle 4 over A: three slots, one filled. -/
def handleState : State := onCore s0 fun c => { c with handles := [(4, ⟨true, 1, 2, 0, 0, 1, 2, 1, 0⟩)] }

theorem witness_HandleCounts :
    (handleState.cur.handle 5).v = false ∧ (handleState.cur.handle 4).slots + 1 < (4 : BitVec 8).toNat ∧ (handleState.cur.handle 4).v = true ∧
    (3 : BitVec 8).toNat ≤ (handleState.cur.handle 4).slots + 1 ∧ (handleState.cur.handle 4).fill < (2 : BitVec 8).toNat ∧
    (handleState.cur.handle 4).free < (3 : BitVec 8).toNat ∧ (1 : BitVec 8).toNat ≤ (handleState.cur.handle 4).fill ∧
    (2 : BitVec 8).toNat ≤ (handleState.cur.handle 4).free := by decide +kernel

theorem test_handles :
    answers (exec (.advC 4 1) handleState) (fun t => (t.cur.handle 4).fill = 0 && (t.cur.handle 4).free = 3) = true ∧
    answers (exec (.advP 4 2) handleState) (fun t => (t.cur.handle 4).fill = 3 && (t.cur.handle 4).free = 0) = true ∧
    answers (exec (.hwaitC 4 2) handleState) (fun t => (t.core 0).fcs[0].status = .blocked (.handle 4 false 2)) = true ∧
    answers (exec (.hwaitP 4 2) handleState) (fun t => t.pc = 0x1004) = true ∧ traps (.advC 4 2) handleState 0x08 = true := by decide +kernel

/-- A privileged context. -/
def privState : State := onCtx s0 fun c => { c with priv := true, quotas := List.replicate 8 0 }

theorem witness_SystemRegisterReads :
    sysnoNamed 0x000 = true ∧ privateToRead 0x000 = false ∧ sysnoNamed 0x020 = true ∧ (privState.ctx privState.x).priv = true ∧
    privateToRead 0x020 = true ∧ (s0.ctx s0.x).priv = false ∧ sysnoNamed 0x004 = false ∧ s0.now < 1024 ∧
    s0.partOf s0.now = some ⟨1, ⟨0, 0, 8, 8⟩, some 1, false, 0, false, 0, []⟩ ∧ (s0.ctx s0.x).id < 2 ^ 16 ∧
    s0.firing.entry < 32 ∧ s0.firing.cx < 8 ∧ s0.firing.tag < 2 ^ 16 ∧ s0.firing.kind = .point ∧ messageState.firing.kind = .message ∧
    (onCtx workState fun c => c.modFiring 1 fun f => { f with kind := .task }).firing.kind = .task := by decide +kernel

theorem witness_SystemRegisterWrites :
    privateToWrite 0x008 = false ∧ privateToWrite 0x021 = true ∧ sysnoNamed 0x13F = true ∧ sysnoNamed 0x140 = false ∧
    s0.handleBusy 63 = false ∧ (s0.g 5).toNat / 2 ^ 63 = 0 ∧
    (onCore s0 fun c => { c with handles := [(4, ⟨true, 1, 2, 63, 0, 0, 3, 0, 0⟩)], cmds := [{ entry .running with word := 0x05 * 2 ^ 122 + 4 * 2 ^ 90 }] }).handleBusy 4 = true := by
  decide +kernel

theorem test_system_registers :
    answers (exec (.mfsy 5 0x000) s0) (fun t => t.g 5 = 0) = true ∧ traps (.mfsy 5 0x020) s0 0x14 = true ∧ traps (.mfsy 5 0x004) s0 0x01 = true ∧
    answers (exec (.mtsy 5 0x103) (s0.setG 5 0xA002000000000000)) (fun t => (t.cur.handle 3).v && (t.cur.handle 3).free = 3 && (t.cur.handle 3).fill = 0) = true := by
  decide +kernel

theorem witness_SystemRegisterValues :
    (privState.ctx privState.x).priv = true ∧ (look privState.ctxs privState.x).isSome = true ∧
    (580 ≤ 0x244 % 4096 ∧ 0x3D4 % 4096 ≤ 980) ∧ 0x243 % 4096 < 580 ∧ 980 < 0x3D5 % 4096 := by decide +kernel

theorem test_system_register_values :
    answers (exec (.mtsy 5 0x043) (privState.setG 5 580)) (fun t => (t.cluster 0).vfloor = 580) = true ∧
    answers (exec (.mtsy 5 0x043) (privState.setG 5 981)) (fun t => (t.cluster 0).vfloor = 0) = true ∧
    answers (exec (.mtsy 5 0x042) (privState.setG 5 0x10141814)) (fun t => (t.cluster 0).clkdef = 0x10141814) = true ∧
    answers (exec (.mtsy 5 0x042) (privState.setG 5 0x11141814)) (fun t => (t.cluster 0).clkdef = 0) = true := by decide +kernel

theorem witness_RegisterWriteEvents :
    s0.bindHandle 3 0xA002000000000000 = some ⟨true, 1, 2, 0, 0, 0, 3, 0, 0⟩ ∧ s0.bindHandle 3 0 = some ⟨false, 0, 0, 0, 0, 0, 0, 0, 0⟩ ∧
    (look s0.ctxs 1).isSome = true ∧ (privState.ctx 1).quotas.length = 8 ∧ ((onCtx privState fun c => { c with drained := [3] }).ctx 1).drained = [3] ∧
    (256 : Word).toNat.testBit 8 = true ∧ ((s0.core 0).counters.get 0).en = false ∧ 1 ≤ (0x115 : Word).toNat % 256 := by decide +kernel

theorem test_register_write_events :
    answers (exec (.syHdWrite 3 0xA002000000000000) s0) (fun t => (t.cur.handle 3).free = 3) = true ∧
    answers (exec (.syDatumReqWrite 1) s0) (fun t => (t.ctx 1).req) = true ∧
    answers (exec (.syQuotaWrite 1 3 5) (onCtx privState fun c => { c with drained := [3] })) (fun t => (t.ctx 1).drained = []) = true ∧
    answers (exec (.syEvselWrite 0 2 0x113) s0) (fun t => ((t.core 0).counters.get 2).en && ((t.core 0).counters.get 2).ev = 0x13) = true ∧
    answers (exec (.syClkdefWrite 3 0x04040404) s0) (fun t => (t.cluster 3).clkdef = 0x04040404) = true := by decide +kernel

theorem witness_Hints :
    let s := onCore s0 fun c => { c with counters := c.counters.set 0 ⟨false, true, 0x13, 2 ^ 48 - 1, 0, 0, 1, true⟩ }
    ((s.cur.counters.get 0).en && (s.cur.counters.get 0).live && !(s.cur.counters.get 0).tag && (s.cur.counters.get 0).ev = 0x13) = true := by
  decide +kernel

theorem test_hints :
    answers (exec .hintCompute s0) (fun t => t.fc.hint = some .compute) = true ∧ answers (exec .hintMemory s0) (fun t => t.fc.hint = some .memory) = true ∧
    answers (exec .hintWait s0) (fun t => t.fc.hint = some .wait && t.pc = 0x1004) = true := by decide +kernel

/-! ### Ends, turns, waking and selection -/

/-- Firing 1 with a message for a core of the package and one for another package. -/
def doneState : State := onCtx s0 fun c => c.modFiring 1 fun f => { f with
  msgs := [⟨5, 0, false, 9, [1], 0, false⟩, ⟨5, 1, true, 9, [2], 0, false⟩] }

/-- A core with a second, ready context, whose running one has issued 256. -/
def turnState : State := onCore (withFc fun f => { f with issued := 256 }) fun c => c.setFc 3 { FiringCtx.reset with status := .ready }

theorem witness_FiringsEndAndGiveWay :
    Published doneState ∧ (look doneState.ctxs doneState.x).isSome = true ∧ (look (doneState.ctx doneState.x).firings doneState.fid).isSome = true ∧
    ((turnState.core 0).fc (turnState.core 0).run).status = .running ∧ 256 ≤ ((turnState.core 0).fc (turnState.core 0).run).issued ∧
    (turnState.core 0).nextReady (turnState.core 0).run = some 3 ∧ (3 : Fin 8) ≠ (turnState.core 0).run ∧
    (∀ m, m ≠ (s0.core 0).run → ((s0.core 0).fc m).isReady = false) := by
  unfold Published
  decide +kernel

theorem test_done_releases :
    answers (exec .done doneState) (fun t => (t.cur.outbound.map fun m => m.words) = [[1]] && ((t.ctx 1).heldMsgs.map fun m => m.words) = [[2]]) = true ∧
    answers (exec (.quantumExpiry 0) turnState) (fun t => t.cur.run = 3 && (t.cur.fc 0).status = .ready && (t.cur.fc 0).issued = 0) = true := by
  decide +kernel

/-- A context that waits for a page, on a core whose context 0 runs; and alone on its core. -/
def missState : State := onCore s0 fun c => c.setFc 3 { FiringCtx.reset with status := .blocked (.translation 5), pc := 0x3000 }
def missAlone : State := onCore missState fun c => c.setFc 0 FiringCtx.reset

/-- selState with a second entry of higher priority, at the other turn. -/
def selOther : State :=
  onCtx (onCore selState fun c => { c with selections := 1, eligible := [0, 1], points := [⟨0, 1, [21], 7, 0, 0, false⟩] })
    fun c => { c with handlers := [⟨0x2000, 0, true, false, 3, 4, 3, []⟩, ⟨0x2100, 0, true, false, 5, 0, 1, [(9, 2)]⟩] }

theorem witness_WakingAndSelecting :
    ((missState.core 0).fc 3).status = .blocked (.translation 5) ∧ ((missState.core 0).fc 3).stopped = false ∧
    missState.wakes 0 3 (.translation 5) = true ∧ (∀ b g q i, WaitFor.translation 5 ≠ .full b g q i) ∧
    (∀ i g, WaitFor.translation 5 = .pail i g → (missState.pail (missState.cxId 0) i).state ≠ 2) ∧
    selState.selected 0 = some 0 ∧ (selState.core 0).freeFcs ≠ [] ∧
    (∀ e ∈ (selState.ctx (selState.cxId 0)).firings, e.1 < (selState.ctx (selState.cxId 0)).nextFid) ∧
    2 ≤ ((selState.ctx (selState.cxId 0)).handler 0).inCh ∧ look (selState.core 0).chans 4 = some [1, 2, 3] ∧
    selOther.selected 0 = some 1 ∧ (selState.core 0).selections % 2 = 0 ∧ (selOther.core 0).selections % 2 = 1 ∧
    (selOther.core 0).eligible ≠ [] := by
  refine ⟨by decide +kernel, by decide +kernel, by decide +kernel, fun b g q i h => WaitFor.noConfusion h,
    fun i g h => WaitFor.noConfusion h, by decide +kernel,
    by decide +kernel, by decide +kernel, by decide +kernel, by decide +kernel, by decide +kernel, by decide +kernel, by decide +kernel, by decide +kernel⟩

/-- A context whose `ldb.fe` waits for granule 0 of A, which has been filled (03 R88, R89). -/
def fullWait : State := onCore s0 fun c => { c.setFc 3 { FiringCtx.reset with status := .blocked (.full 1 0 true (.ldbFe 5 0 1 0)), pc := 0x3000 } with
  bufA := [(0, 7)], fullA := [0] }
theorem witness_FullWake :
    ((fullWait.core 0).fc 3).status = .blocked (.full Buf.a.num 0 true (.ldbFe 5 0 1 0)) ∧ ((fullWait.core 0).fc 3).stopped = false ∧
    Buf.of (1 : BitVec 2).toNat = some .a ∧ (fullWait.core 0).bankOpen .a 0 (fullWait.core 0).cx = true ∧ (fullWait.core 0).full .a 0 = true ∧
    ((fullWait.core 0).fc 3).loops = [] ∧ ∀ m h q j, m ≠ 3 → ((fullWait.core 0).fc m).status ≠ .blocked (.full Buf.a.num h q j) := by
  refine ⟨by decide +kernel, by decide +kernel, by decide +kernel, by decide +kernel, by decide +kernel, by decide +kernel, fun m h q j hm he => ?_⟩
  have hs : ∀ m : Fin 8, m ≠ 3 → ((fullWait.core 0).fc m).status = .running ∨ ((fullWait.core 0).fc m).status = .free := by decide +kernel
  rcases hs m hm with h | h <;> rw [h] at he <;> cases he
theorem test_full_wake :
    answers (exec (.firingContextWake 0 3) fullWait) (fun t => ((t.core 0).fc 3).status = .ready && ((t.core 0).fc 3).g.get 5 = 7 &&
      ((t.core 0).fc 3).pc = 0x3004 && !(t.core 0).full .a 0) = true := by decide +kernel

/-- A context that waits on a pail that has failed (03 R94). -/
def failedWait : State := pailState.setFc { pailState.fc with status := .blocked (.pail 8 2) }

theorem witness_FailedPail :
    ((failedWait.core 0).fc 0).status = .blocked (.pail 8 2) ∧ ((failedWait.core 0).fc 0).stopped = false ∧
    (failedWait.pail (failedWait.cxId 0) 8).state = 2 ∧ selState.selecting 0 = true := by decide +kernel

theorem test_failed_pail_wait :
    answers (exec (.firingContextWake 0 0) failedWait) (fun t => t.halted 0 && ((t.core 0).fc 0).stopped &&
      t.bytesAt ⟨false, 0x200002⟩ 2 = [0x11, 0]) = true := by decide +kernel

theorem test_wake :
    answers (exec (.firingContextWake 0 3) missState) (fun t => ((t.core 0).fc 3).status = .ready && ((t.core 0).fc 3).pc = 0x3000 && (t.core 0).run = 0) = true ∧
    answers (exec (.firingContextWake 0 3) missAlone) (fun t => ((t.core 0).fc 3).status = .running && (t.core 0).run = 3) = true := by decide +kernel
/-- What a selection takes; which free context it takes is free, so the whole step is no test of fixed values. -/
theorem test_selection :
    (selState.consumeWords 0 0).1 = [1, 2, 3] ∧ look (selState.consumeWords 0 0).2.2.chans 4 = some [] ∧
    (selOther.consumeWords 0 1).1 = [21] ∧ (selOther.consumeWords 0 1).2.2.points = [] := by decide +kernel

/-! ### Points, tasks, leases -/

/-- The launch of tag 7 with its point 3 leased; and with its point 1 done by firing 1. -/
def deliverState : State := onCtx workState fun c => { c with launches := [{ lau with leased := [3] }] }
def retireState (hs : List Nat) (i : Nat) : State := onCtx s0 fun c => { c with
  launches := [{ lau with heights := hs, delivered := [i], leased := [i] }], firings := [(1, { fir with ended := true, idx := i, writes := [((9, 0, 0), 1, [2])] })] }

theorem witness_PointsAndHeights :
    (deliverState.ctx 1).launch 7 = some { lau with leased := [3] } ∧ deliverState.dispatching 1 = true ∧ (deliverState.ctx 1).preempted = false ∧
    deliverState.fireable 1 { lau with leased := [3] } 3 = true ∧
    deliverState.masked (blk.coreOf (blk.coords 3 0) 1) 0 1 = false ∧ deliverState.pointTurn 1 { lau with leased := [3] } 3 = true ∧
    ((deliverState.core (blk.coreOf (blk.coords 3 0) 1)).waiting0 0 1).length < 64 ∧
    ((retireState [2, 1, 0, 0] 1).ctx 1).firing 1 = { fir with ended := true, idx := 1, writes := [((9, 0, 0), 1, [2])] } ∧
    (retireState [2, 1, 0, 0] 1).firingDone 1 1 = true ∧ (retireState [4, 4, 4, 3] 3).firingDone 1 1 = true ∧
    (∀ h ∈ updNth [4, 4, 4, 3] 3 (· + 1), h = lau.block.es) ∧ ¬(∀ h ∈ updNth [2, 1, 0, 0] 1 (· + 1), h = lau.block.es) ∧
    3 < lau.block.cross ∧ (deliverState.ctx 1).placedHere lau.block (lau.block.coords 3 0) = true ∧
    (∀ i < 2, ∀ a ∈ (retireState [2, 1, 0, 0] i).tasksOf 1, a.tag ≠ 7) ∧
    (let s := onCore s0 fun c => { c with heat := [((2, 9, 0), 5)] };
      (s.core 0).heat.filter (fun e => e.1.1 = 2) = [((2, 9, 0), 5)] ∧ (s.die (dieOf 0)).heat.length < 255) := by decide +kernel

theorem test_points :
    answers (exec (.pointDelivery 1 7 3) deliverState) (fun t => ((t.core 3).points.map fun i => (i.words, i.tag, i.idx)) = [([0x30000], 7, 3)]) = true ∧
    answers (exec (.pointRetirement 1 1) (retireState [2, 1, 0, 0] 1)) (fun t => ((t.ctx 1).launch 7).map (fun l => l.heights) = some [2, 2, 0, 0] &&
      ((t.ctx 1).firing 1).retired && ((t.ctx 1).firing 1).writes = []) = true ∧
    answers (exec (.pointRetirement 1 1) (retireState [4, 4, 4, 3] 3)) (fun t => (t.ctx 1).launch 7 = none && (t.ctx 1).wantDatum) = true ∧
    answers (exec (.heightCopyUpdate 1 7 31 1) deliverState) (fun t => look (t.die 31).copies (1, 7, 1) = some 1) = true ∧
    answers (exec (.heatWindow 0 2) (onCore s0 fun c => { c with heat := [((2, 9, 0), 5), ((3, 9, 0), 6)] }))
      (fun t => (t.core 0).heat = [((3, 9, 0), 6)] && ((t.die 0).heat.map fun h => (h.1, h.2.1)) = [((9, 0), 5)]) = true := by decide +kernel

/-- A queued task with its lease for entry 2 on core 0, from point 1. -/
def tsk : TaskRec := ⟨1, 4, [2] ++ List.replicate 63 0, 7, 1, 0, 0, true, true, false⟩
def queuedState : State := workState.modDie 0 fun d => { d with tasks := [tsk] }

/-- The task before its lease. -/
def taskWait : State := workState.modDie 0 fun d => { d with tasks := [{ tsk with leased := false }] }

/-- A task's firing that has ended, and a `lease` command of tensor 9 that runs. -/
def taskDone : State := (onCtx s0 fun c => { c with firings := [(1, { fir with kind := .task, seq := 4, ended := true }), (2, fir)], launches := [lau] }).modDie 0
  fun d => { d with tasks := [{ tsk with parent := 2, queued := false, started := true }] }
def leaseState : State := onCtx (onCore s0 fun c => { c with cmds := [{ entry .running with word := 0x30 * 2 ^ 122 + 9 * 2 ^ 48 }] })
  fun c => { c with tensors := [⟨9, 0, 0, false, 16, 64, 1, [], 0⟩], atlas := [((9, 0), ⟨0, 0, 0, true, true, 0⟩)], launches := [lau] }

theorem witness_TasksAndLeases :
    queuedState.taskHead 1 4 = some tsk ∧ (queuedState.ctx 1).launch tsk.tag = some lau ∧ queuedState.dispatching 1 = true ∧
    rectHas ⟨blk.sheet.x + (taskFields tsk.bytes).ix, blk.sheet.y + (taskFields tsk.bytes).iy, 2 ^ (taskFields tsk.bytes).lw,
      2 ^ (taskFields tsk.bytes).lh⟩ 0 = true ∧
    (queuedState.core 0).resident (taskFields tsk.bytes).cx = true ∧ (queuedState.core 0).freeFcs ≠ [] ∧
    (∀ a ∈ queuedState.tasksOf 1, a.seq < 4 → feeds a tsk = false) ∧ (queuedState.ctx 1).ninthVersion (taskFields tsk.bytes) = false ∧
    ((queuedState.core 0).waiting0 0 2).length < 8 ∧
    ((taskDone.ctx 1).firing 1).kind = .task ∧ taskDone.dispatching 1 = true ∧ taskDone.firingDone 1 1 = true ∧
    (leaseState.ctx 1).launch 7 = some lau ∧ 3 ∉ lau.leased ∧ nth lau.heights 3 0 < lau.block.es ∧
    (∀ p ∈ (leaseState.ctx 1).pointPlates lau.block (lau.block.coords 3 0) ++ (leaseState.ctx 1).extraPlates (.point 7 3),
      (leaseState.ctx 1).leasable p = true) ∧
    ((leaseState.core 0).cmdEntry 0).map (fun e => (opOf e.word, e.stage)) = some (0x30, .running) ∧ leaseState.cxId 0 = 1 ∧
    (look leaseState.ctxs 1).isSome = true ∧ (look (leaseState.ctx 1).firings 1).isSome = true ∧
    (∀ p ∈ (leaseState.ctx 1).leaseRect { entry .running with word := 0x30 * 2 ^ 122 + 9 * 2 ^ 48 }, (leaseState.ctx 1).leasable p = true) ∧
    { tsk with leased := false } ∈ taskWait.tasksOf 1 ∧ (∀ a ∈ taskWait.tasksOf 1, a.seq = 4 → a = { tsk with leased := false }) ∧ tsk.queued = true ∧
    (∀ p ∈ (taskWait.ctx 1).taskPlates tsk.bytes ++ (taskWait.ctx 1).extraPlates (.task 4), (taskWait.ctx 1).leasable p = true) := by
  decide +kernel

theorem test_tasks :
    answers (exec (.taskPlacement 1 4 0) queuedState) (fun t => ((t.core 0).points.map fun i => (i.entry, i.seq, i.isTask)) = [(1, 0, false), (2, 4, true)]) = true ∧
    answers (exec (.taskRetirement 1 1) taskDone) (fun t => t.tasksOf 1 = [] && ((t.ctx 1).firing 1).retired) = true ∧
    answers (exec (.leaseGrant 1 (.task 4)) taskWait) (fun t => t.tasksOf 1 = [tsk]) = true ∧
    answers (exec (.leaseGrant 1 (.point 7 3)) leaseState) (fun t => ((t.ctx 1).launch 7).map (fun l => l.leased) = some [3]) = true ∧
    answers (exec (.leaseGrant 1 (.command 0 0)) leaseState) (fun t => ((t.ctx 1).firing 1).lease = [(9, 0)]) = true := by decide +kernel

/-! ### Halts, datums and saves -/

/-- A partition of one cluster. -/
def smallPart : Partition := ⟨1, ⟨0, 0, 4, 2⟩, some 1, false, 6, false, 0, []⟩
def small : State := { s0 with parts := [smallPart] }
def haltedState : State := { small with parts := [{ smallPart with halt := true }] }

/-- The same with every record written. -/
def fullRecords (c : Core) : Core := { c with records := List.range 16, origins := [] }
def stoppedState : State :=
  ((rectCores ⟨0, 0, 4, 2⟩).foldl (fun s k => s.modCore k fun c =>
    { fullRecords c with fcs := c.fcs.map fun f => { f with stopped := true } }) haltedState).modDie 0 fun d => { d with records := [(1, 0), (1, 1)] }

theorem witness_HaltAndItsRecords :
    haltedState.halted 0 = true ∧ (0 : Nat) ∉ (haltedState.core 0).records ∧ (15 : Nat) ∉ (haltedState.core 7).records ∧
    (haltedState.core 0).arrayAtCut = true ∧ haltedState.hbm.wf = true ∧ ((haltedState.core 0).fc 0).status ≠ .free ∧
    haltedState.haltedOn 0 ≠ [] ∧ (∀ r, r < 16 → r ∈ (stoppedState.core 0).records) ∧
    (stoppedState.core 0).reported = false ∧ (stoppedState.cluster (clusterOf 0)).slots[slotOf 0]? = some ⟨0, 0, 0, false, false, false, 0⟩ ∧
    small.part 1 = some smallPart ∧ small.partOf (smallPart.rect.y * 32 + smallPart.rect.x) = some smallPart ∧ (small.die 31).alive = true ∧
    (0x0300000000000007 : Word).toNat / 2 ^ 56 ∈ [1, 2, 3] ∧ 128 ≤ (0x8000000000000005 : Word).toNat / 2 ^ 56 ∧
    (let s := onCtx s0 fun c => { c with handlers := [⟨0x2000, 0, true, false, 3, 31, 1, []⟩] };
      (s.ctx (s.cxId 0)).entryOn 31 = true ∧ 0 < (s.core 0).chanRoom 31 ∧ s.mgmt = [] ∧ (onCore s fun c => { c with chans := [(31, List.replicate 64 1)] }).cur.chanRoom 31 = 0) := by decide +kernel

theorem test_halts :
    answers (exec (.unitStop (.core 0 0)) haltedState) (fun t => ((t.core 0).fc 0).stopped && t.bytesAt ⟨false, 0x200000⟩ 8 = [1, 4, 0, 0, 0, 0, 0, 6] &&
      t.bytesAt ⟨false, 0x200018⟩ 8 = leBytes 8 0x1000) = true ∧
    answers (exec (.firmwareHaltRequest 1) small) (fun t => (t.part 1).map (fun p => (p.halt, p.haltNum)) = some (true, 7)) = true ∧
    answers (exec (.dieFailure 3) small) (fun t => !(t.die 3).alive) = true ∧
    answers (exec (.mailboxReport 0) stoppedState) (fun t => (t.core 0).reported && ((t.cluster 0).slots.getD 0 default).valid &&
      ((t.cluster 0).slots.getD 0 default).addr = 0x200000) = true ∧
    answers (exec (.managementMessage 0 0x8000000000000005) (onCtx s0 fun c => { c with handlers := [⟨0x2000, 0, true, false, 3, 31, 1, []⟩] }))
      (fun t => look (t.core 0).chans 31 = some [0x8000000000000005]) = true := by decide +kernel

/-- A datum of the context of stoppedState, and an undone line. -/
def dat : Datum := ⟨0, [{ lau with heights := [1, 1, 0, 0] }], 3, [], [⟨0, [], [], [], 0, [], ⟨false, false, false, false⟩, []⟩], [], false, [], false⟩
def rollState : State :=
  onCtx stoppedState fun c => { c with datum := some dat, gen := 2, launches := [lau], counter := 9, undo := [.line 0x200 (List.replicate 64 7)] }

theorem witness_ResumeAndRollback :
    stoppedState.ctxPart 1 = some { smallPart with halt := true } ∧ stoppedState.mayResume { smallPart with halt := true } 1 = true ∧
    stoppedState.replays { smallPart with halt := true } = [] ∧ haltedState.mayResume { smallPart with halt := true } 1 = false ∧
    (rollState.ctx 1).datum = some dat ∧ (rollState.ctx 1).imm = false ∧ rollState.allStopped { smallPart with halt := true } = true ∧
    (rollState.ctx 1).gen ≠ 0 ∧ rollState.hbm.wf = true ∧
    ((onCtx small fun c => { c with datum := some dat, imm := true }).ctx 1).imm = true ∧
    Undo.line 0x200 (List.replicate 64 7) ∈ (rollState.ctx 1).undo ∧
    (0x200 * 64 + 64 ≤ (rollState.ctx 1).pailPa ∨ (rollState.ctx 1).pailPa + dat.pails.length ≤ 0x200 * 64) := by decide +kernel

theorem test_resume :
    answers (exec (.resume 1) stoppedState) (fun t => !t.halted 0 && !((t.core 0).fc 0).stopped && (t.core 0).records = [] && ((t.core 0).fc 0).pc = 0x1000) = true := by
  decide +kernel
theorem test_rollback :
    answers (exec (.rollback 1) rollState) (fun t => !t.halted 0 && ((t.ctx 1).launches.map fun l => l.heights) = [[1, 1, 0, 0]] && (t.ctx 1).counter = 3 &&
      (t.ctx 1).firings = [] && t.bytesAt ⟨false, 0x8000⟩ 2 = [7, 7] && ((t.core 0).fc 0).status = .free) = true := by decide +kernel

/-- An idle context that is being pre-empted. -/
def quietState : State := onCtx (onCore small fun c => { c with fcs := Vector.replicate 8 FiringCtx.reset, chans := [(4, [1])] }) fun c =>
  { c with preempted := true, firings := [] }

/-- A context that wants a datum, with a version in flight, a held store and a command; and its datum cut, with the command done. -/
def cutState : State :=
  onCtx (onCore small fun c => { c with cmds := [entry .running] }) fun c => { c with
    wantDatum := true, counter := 4, epoch := 3, held := [⟨⟨true, 2, [(0, 5)]⟩, 1, false⟩], firings := [(1, { fir with writes := [((9, 0, 0), 1, [2])] })] }
def pendState : State := onCtx small fun c => { c with pending := some dat, pend := true, gen := 2, held := [⟨⟨true, 2, [(0, 5)]⟩, 1, true⟩, ⟨⟨true, 3, [(0, 6)]⟩, 1, false⟩] }

theorem witness_DatumsAreCutAndCommitted :
    cutState.ctxPart 1 = some smallPart ∧ smallPart.halt = false ∧ (cutState.ctx 1).pending = none ∧ (cutState.ctx 1).wantDatum = true ∧
    pendState.ctxPart 1 = some smallPart ∧ (pendState.ctx 1).pending = some dat ∧ pendState.beforeCut smallPart.rect = false ∧
    (let s := onCtx quietState fun c => { c with checkpoint := true };
      (s.ctx 1).checkpoint = true ∧ (s.ctx 1).inFlight = [] ∧ s.tasksOf 1 = [] ∧ (s.ctx 1).pending = none) ∧
    (let s := onCtx cutState fun c => { c with hold := 1 };
      (look s.ctxs 1).isSome = true ∧ (s.ctx 1).hold ≠ 0 ∧ (s.ctx 1).held ≠ []) := by decide +kernel

theorem test_commit :
    answers (exec (.datumCommit 1) pendState) (fun t => (t.ctx 1).datum = some dat && (t.ctx 1).pending = none && (t.ctx 1).gen = 3 && t.byte ⟨true, 128⟩ = 5 &&
      t.byte ⟨true, 192⟩ = 0 && (t.ctx 1).held.length = 1) = true ∧
    answers (exec (.datumHoldExpiry 1) (onCtx small fun c => { c with hold := 1, held := [⟨⟨true, 2, [(0, 5)]⟩, 1, false⟩] })) (fun t => (t.ctx 1).wantDatum) = true := by
  decide +kernel
theorem test_cut :
    answers (exec (.datumCut 1) cutState) (fun t => (t.ctx 1).pend && !(t.ctx 1).wantDatum && ((t.ctx 1).pending.map fun d => (d.counter, d.epoch)) = some (4, 4) &&
      ((t.ctx 1).held.all fun h => h.cut) && ((t.core 0).cmds.all fun e => e.beforeCut)) = true := by decide +kernel

/-- A second context with higher priority, and a saved one. -/
def twoState : State := { small with ctxs := small.ctxs ++ [(2, { Context.blank with id := 2, part := 1, tok := 9 })] }
def savedState : State :=
  onCtx { small with parts := [{ smallPart with ctx := none }] } fun c => { c with
    firings := [], saved := (rectCores ⟨0, 0, 4, 2⟩).map fun k => ⟨k, { Core.reset with chans := [(4, [BitVec.ofNat 64 k])] }⟩ }

/-- The same after a halt, with a firing in flight that is touched or not. -/
def haltedSave (f : Bool) : State := onCtx savedState fun c => { c with haltSaved := true, firings := [(1, { fir with touched := f })] }

theorem witness_ContextsAreSavedAndRestored :
    twoState.ctxPart 1 = some smallPart ∧ (twoState.ctx 1).pending = none ∧ (twoState.ctx 1).preempted = false ∧ (look twoState.ctxs 2).isSome = true ∧
    (twoState.ctx 2).part = smallPart.id ∧ (∀ l ∈ (twoState.ctx 1).launches, l.choice (twoState.ctx 2).tok = .drain) ∧
    ({ lau with retiredSince := 65536 } : Launch).choice 0 = .drain ∧
    quietState.ctxPart 1 = some smallPart ∧ (quietState.ctx 1).preempted = true ∧ (quietState.ctx 1).wantDatum = false ∧ (quietState.ctx 1).req = false ∧
    quietState.quiet 1 smallPart.rect = true ∧ stoppedState.allStopped { smallPart with halt := true } = true ∧
    savedState.ctxPart 1 = none ∧ (savedState.ctx 1).saved ≠ [] ∧ savedState.part (savedState.ctx 1).part = some { smallPart with ctx := none } ∧
    ((savedState.ctx 1).saved.map fun v => v.k) = rectCores smallPart.rect ∧ (rectCores smallPart.rect).Nodup ∧ (savedState.ctx 1).haltSaved = false ∧
    (quietState.ctx 1).checkpoint = false ∧ (∀ k ∈ rectCores smallPart.rect, Notice.noSpare (clusterOf k) ∉ savedState.notices) ∧
    (∀ f ∈ [false, true], ((haltedSave f).ctx 1).haltSaved = true ∧ ((((haltedSave f).ctx 1).firings.filter fun e => !e.2.retired).map fun e => e.1) = [1] ∧
      (((haltedSave f).ctx 1).firing 1).touched = f ∧ ((haltedSave f).ctx 1).collsAgree [1] = true ∧ ((haltedSave f).ctx 1).haltCodes = [] ∧
      ((haltedSave f).ctx 1).imm = false ∧ ((haltedSave f).ctx 1).datum = none ∧
      (haltedSave f).partOf (smallPart.rect.y * 32 + smallPart.rect.x) = some { smallPart with ctx := none }) ∧
    ((onCtx (haltedSave true) fun c => { c with datum := some dat, gen := 2 }).ctx 1).datum = some dat := by
  decide +kernel

/-- A launch that is checkpointed against a newcomer: work remains, and enough has retired (13 R370). -/
theorem witness_checkpoint :
    ({ lau with block := { blk with cost := 65535 }, retiredSince := 1 } : Launch).choice 0 = .checkpoint ∧
    ({ lau with block := { blk with cost := 65535 } } : Launch).choice 0 = .kill := by decide +kernel

theorem test_preemption :
    answers (exec (.preemption 1 2) twoState) (fun t => (t.ctx 1).preempted) = true ∧
    answers (exec (.switchSave 1) quietState) (fun t => (t.ctx 1).saved.length = 8 && (t.part 1).map (fun p => p.ctx) = some none) = true ∧
    answers (exec (.haltSave 1) stoppedState) (fun t => (t.ctx 1).haltSaved && (t.part 1).map (fun p => p.ctx) = some none) = true := by decide +kernel
theorem test_restore :
    answers (exec (.contextRestore 1 []) savedState) (fun t => (t.part 1).map (fun p => p.ctx) = some (some 1) && (t.ctx 1).saved = [] &&
      look (t.core 33).chans 4 = some [33]) = true ∧
    answers (exec (.contextEnd 1) savedState) (fun t => look t.ctxs 1 = none && t.notices = [.contextEnded 1 false]) = true := by decide +kernel

/-! ### Stream commands at work -/

/-- A running command of firing 1. -/
def work (op : Nat) (c : Cmd) : CmdEntry := { entry .running with word := BitVec.ofNat 128 (cmdWord op c) }

/-- A tensor of 32 by 64 INT8 elements, two tiles, whose plate is present and leased. -/
def t9 : Tensor := ⟨9, 7, 0, false, 32, 64, 1, [], 0⟩

/-- An image: input port 0 to site 5 from the north, output port 0 from site 5, generators of counts at 256 for port 1 and of words
at 257 for port 2, with a program of two runs of four. -/
def img : Image :=
  { source := ⟨false, 0⟩, sourceVa := 0, length := 0, ipmask := 7, opmask := 7, counters := []
    nodes := [(256, { decodeNode 0 with op := 0x32, lanes := 0xF, param := 1 }), (257, { decodeNode 0 with op := 0x33, lanes := 0xF, in0 := 1, param := 2 })]
    routes := [1 * 2 ^ 60 + 0 * 2 ^ 55 + 5 * 2 ^ 46, 2 * 2 ^ 60 + 0 * 2 ^ 55 + 5 * 2 ^ 46 + 2 ^ 44]
    programs := [(256, [2 ^ 62 + 2 ^ 46 + 2 ^ 23, 2 ^ 63 + 3 * 2 ^ 50]), (257, [2 ^ 62 + 2 ^ 46 + 2 ^ 23, 2 ^ 63 + 3 * 2 ^ 50])] }

/-- The acting core with commands, a producer on h4, a consumer on h5 with the index 17 in C, and the image. -/
def workOn (es : List CmdEntry) : State :=
  onCtx (onCore s0 fun c => { c with
    cmds := es, nextCmd := 9, images := [(0, img)], bufC := [(0, 17)], fullC := [0]
    handles := [(4, ⟨true, 1, 1, 15, 0, 0, 2, 0, 0⟩), (5, ⟨true, 2, 0, 0, 0, 1, 0, 0, 0⟩), (6, ⟨true, 1, 1, 15, 64, 2, 0, 0, 0⟩)] })
    fun x => { x with
      tensors := [t9], atlas := [((9, 0), ⟨0, 0, 6, true, true, 1⟩)]
      firings := [(1, { fir with lease := [(9, 0)] })] }

/-- One tile of tensor 9; all tiles, with handle h in hA. -/
def tileCmd (h : BitVec 6) : Cmd := { (default : Cmd) with hA := h, operand := 0x0009000000000001 - 1 }
def bothCmd (h : BitVec 6) : Cmd := { tileCmd h with operand := 0x0009040000000000 }

theorem witness_AtWork : AtWork (workOn [work 0x05 (tileCmd 4)]) 0x05 (tileCmd 4) (work 0x05 (tileCmd 4)) :=
  ⟨by decide +kernel, by decide +kernel, by decide +kernel⟩

theorem witness_AtWork_words :
    (work 0x05 (tileCmd 4)).word.toNat = cmdWord 0x05 (tileCmd 4) ∧ (work 0x3F { (default : Cmd) with p := true, operand := 0xFFFFFFFFFFFFFFFF }).word.toNat =
      cmdWord 0x3F { (default : Cmd) with p := true, operand := 0xFFFFFFFFFFFFFFFF } := by decide +kernel

theorem witness_TileLineCommands :
    let s := workOn [work 0x05 (bothCmd 4)]
    let e := work 0x05 (bothCmd 4)
    let r := TRect.of (bothCmd 4).operand.toNat
    (s.ctx s.x).tensor r.tensor = some t9 ∧ e.pos ≠ r.count ∧ s.cur.mayFill e.id 4 = true ∧
      s.mayPin s.x e.fid (9, (r.walk e.pos).1, (r.walk e.pos).2) = true ∧
      (s.fetchTile s.x e.fid t9 (r.walk e.pos).1 (r.walk e.pos).2).isOk = true ∧ t9.hasTile (r.walk e.pos).1 (r.walk e.pos).2 = true ∧
      ({ e with pos := 2 } : CmdEntry).pos = r.count ∧ s.cur.mayDrain e.id 6 = true ∧
      (s.writeTile s.x e.fid t9 (r.walk e.pos).1 (r.walk e.pos).2 (fun _ => s.cur.slotBytes 6 0 1024)).isOk = true ∧
      (∀ k ∈ r.tiles t9, (((s.ctx s.x).firing e.fid).leaseCheck t9 k.1 k.2).isSome = false) ∧ r.tiles t9 = [(0, 0), (1, 0)] := by decide +kernel

/-- A tile line of a home slice with room: nothing stands in the L2 yet (05 R145). -/
theorem witness_TouchedLine :
    let s := workOn []
    ∃ p, s.ctxPart 1 = some p ∧ (s.l2.filter fun e => (⟨homeOf p.rect (9, 1, 0), 1, (9, 1, 0), 0, []⟩ : L2Line).mates e).length < 12 :=
  ⟨⟨1, ⟨0, 0, 8, 8⟩, some 1, false, 0, false, 0, []⟩, by decide +kernel, by decide +kernel⟩

theorem test_touched_line :
    (((workOn []).touchL2 1 (9, 1, 0) 5 []).l2.map fun l => (l.x, l.tile, l.ver)) = [(1, (9, 1, 0), 5)] := by decide +kernel

/-- `gath` and `scat` of one index, 17, over tensor 9 from h5; the same with an index beyond it. -/
def gathCmd (a : BitVec 6) : Cmd := { (default : Cmd) with hA := a, hB := 5, operand := 0x0009000000000000 }

theorem witness_GathScat :
    let s := workOn [work 0x08 (gathCmd 4)]
    let e := work 0x08 (gathCmd 4)
    let g := Gather.of (gathCmd 4).operand.toNat
    (s.ctx s.x).tensor g.tensor = some t9 ∧ (4 : BitVec 6).toNat ≠ (5 : BitVec 6).toNat ∧ e.pos ≠ g.count * g.cols ∧
      s.cur.mayFill e.id 4 = true ∧ s.cur.mayDrain e.id 5 = true ∧ s.cur.mayDrain e.id 6 = true ∧
      s.cur.indexAt 5 0 = 17 ∧ (0 : Int) ≤ 17 ∧ (17 : Int) < t9.rows ∧
      (s.fetchTile s.x e.fid t9 1 0).isOk = true ∧
      (onCore s fun c => { c with bufC := [(0, 32)] }).cur.indexAt 5 0 = 32 ∧ ¬((32 : Int) < t9.rows) := by decide +kernel

/-- Bytes 7 at the end of the plate's second line; bytes 3 in the slot of h6. -/
def tileBytes (s : State) : State := s.setBytes ⟨false, 65536 + 1024 + 64⟩ [7, 8]

theorem test_tfetch :
    answers (exec (.tfetch (bothCmd 4)) (workOn [{ work 0x05 (bothCmd 4) with pos := 1 }])) (fun t => (t.ctx 1).pins = [⟨(9, 1, 0), 0, 4, 0, 1, some 0⟩]) = true := by
  decide +kernel
theorem test_gath :
    answers (exec (.gath (gathCmd 4)) (tileBytes (workOn [work 0x08 (gathCmd 4)])))
      (fun t => t.cur.bufBytes .a 0 2 = [7, 8] && (t.cur.handle 5).fill = 0 && ((t.cur.cmdEntry 0).map fun e => e.count) = some 64) = true ∧
    answers (exec (.streamSubs { tileCmd 4 with cflags := 1 }) (workOn [{ work 0x06 { tileCmd 4 with cflags := 1 } with pos := 2 }]))
      (fun t => ((t.cur.cmdEntry 0).map fun e => (e.stage, e.count)) = some (.performed, 2048)) = true := by decide +kernel
theorem test_pull :
    answers (exec (.pull (tileCmd 6)) (onCore (workOn [work 0x07 (tileCmd 6)]) fun c => { c with bufA := [(4096, 3)] }))
      (fun t => (t.cur.handle 6).fill = 1 && ((look ((t.ctx 1).firing 1).writes (9, 0, 0)).map fun b => b.2.take 2) = some [3, 0]) = true ∧
    answers (exec (.scat (gathCmd 6)) (onCore (workOn [work 0x09 (gathCmd 6)]) fun c => { c with bufA := [(4096, 3)] }))
      (fun t => ((look ((t.ctx 1).firing 1).writes (9, 1, 0)).map fun b => (b.2.drop 63).take 3) = some [0, 3, 0]) = true ∧
    answers (exec (.streamPref (tileCmd 0)) (workOn [work 0x32 (tileCmd 0)]))
      (fun t => ((t.cur.cmdEntry 0).map fun e => (e.stage, e.count)) = some (.performed, 1024)) = true := by decide +kernel

/-- A load of tensor 9 on port 0, and a store to it on output port 0 with beats there. -/
def ldCmd : Cmd := { (default : Cmd) with portA := 0, operand := 0x0009000000000000 }
def stCmd : Cmd := { ldCmd with portA := 32 }
def stState (b : Beat) : State :=
  onCore (workOn [work 0x03 stCmd]) fun c => { c with fabric := { c.fabric with ports := [(0, { (default : Link) with fifo := [b] })] } }

theorem witness_PortLoads :
    let s := workOn [work 0x01 ldCmd]
    let e := work 0x01 ldCmd
    s.cur.portTurn e = true ∧ s.cur.portRoom 0 = true ∧ 8 ∉ s.cur.records ∧ cmdOf e.word = ldCmd ∧
      (s.walkOf ldCmd false 0).map Walk.total = some 1024 ∧ (s.walkOf ldCmd false 0).map Walk.rowLen = some 64 ∧
      ({ e with pos := 64 } : CmdEntry).count < 64 / 64 ∧ 0 ≤ e.count ∧ (s.cur.image.map fun i => i.portDest 0) = some (.node 5 0) ∧
      ((s.walkOf ldCmd false 0).map fun w => (s.loadElems e w 0).isOk) = some true ∧
      ((s.walkOf ldCmd true 0).map Walk.rowLen) = some 1024 := by decide +kernel

/-- A load in buffer mode from h6. -/
def bufCmd : Cmd := { ldCmd with cflags := 4, hA := 6, operand := 0x7000000000000008 }
theorem witness_BufferLoad :
    let s := workOn [work 0x01 bufCmd]
    let e := work 0x01 bufCmd
    bufCmd.flag 2 = true ∧ s.cur.mayDrain e.id 6 = true ∧ s.cur.slotOpen 6 (0 % ((s.cur.handle 6).bytes * 8 / fmtBits 7) * fmtBits 7 / 8) e.cx false = true ∧
      (s.walkOf bufCmd false 0).map Walk.total = some 8 := by decide +kernel

theorem witness_PortStores :
    let s := stState ⟨0xA, 2, 0, 0x700000000⟩
    let e := work 0x03 stCmd
    s.cur.portTurn e = true ∧ cmdOf e.word = stCmd ∧ (s.walkOf stCmd false 0).map Walk.total = some 1024 ∧
      (s.cur.fabric.port 0).fifo = [⟨0xA, 2, 0, 0x700000000⟩] ∧ (2 : BitVec 4).getLsbD 1 = true ∧ (∀ m, m < 1 → (2 : BitVec 4).getLsbD m = false) ∧
      (⟨0xA, 2, 0, 0x700000000⟩ : Beat).token 1 = .word 7 ∧ (⟨0xA, 2, 2, 0⟩ : Beat).token 1 = .null ∧ stCmd.flag 2 = false ∧
      (s.storeElem s.x e.fid t9 0 0 7).isOk = true ∧ (⟨0x4, 0xF, 0, 0⟩ : Beat).kind ≠ 0xA ∧ ({ e with pos := 1024 } : CmdEntry).pos = 1024 := by
  decide +kernel

theorem test_port_loads :
    answers (exec (.ldAff ldCmd) ((workOn [work 0x01 ldCmd]).setBytes ⟨false, 65536⟩ [1, 2, 3, 4, 5]))
      (fun t => (t.cur.fabric.link 5 0).wire = [⟨0xA, 0xF, 0, 1 + 2 * 2 ^ 32 + 3 * 2 ^ 64 + 4 * 2 ^ 96⟩] && ((t.cur.cmdEntry 0).map fun e => e.pos) = some 4) = true ∧
    answers (exec (.ldAff ldCmd) (workOn [{ work 0x01 ldCmd with pos := 64 }])) (fun t => ((t.cur.fabric.link 5 0).wire.map fun b => b.kind) = [4]) = true := by
  decide +kernel
theorem test_port_loads_tiles :
    answers (exec (.ldTile ldCmd) (workOn [{ work 0x02 ldCmd with pos := 1024, count := 1 }]))
      (fun t => ((t.cur.cmdEntry 0).map fun e => (e.stage, e.count)) = some (.performed, 1024)) = true := by decide +kernel
theorem test_port_stores :
    answers (exec (.stAff stCmd) (stState ⟨0xA, 2, 0, 0x700000000⟩))
      (fun t => ((look ((t.ctx 1).firing 1).writes (9, 0, 0)).map fun b => b.2.take 2) = some [7, 0] && (t.cur.fabric.port 0).fifo = []) = true ∧
    answers (exec (.stTile stCmd) (onCore (stState ⟨0xA, 2, 2, 0⟩) fun c => { c with cmds := [work 0x04 stCmd] }))
      (fun t => ((t.ctx 1).firing 1).writes = [] && ((t.cur.cmdEntry 0).map fun e => e.pos) = some 1) = true := by decide +kernel

theorem witness_BoundKick :
    let s := workOn [work 0x12 { ldCmd with operand := 5 }]
    let e := work 0x12 { ldCmd with operand := 5 }
    s.cur.portTurn e = true ∧ s.cur.portRoom 0 = true ∧ cmdOf e.word = { ldCmd with operand := 5 } := by decide +kernel
theorem test_bound_kick :
    answers (exec (.bound { ldCmd with operand := 5 }) (workOn [work 0x12 { ldCmd with operand := 5 }]))
      (fun t => (t.cur.fabric.link 5 0).wire = [⟨0x6, 0xF, 0, 5⟩]) = true ∧
    answers (exec (.kick { ldCmd with operand := 0, cflags := 3 }) (workOn [work 0x13 { ldCmd with operand := 0, cflags := 3 }]))
      (fun t => (t.cur.fabric.link 5 0).wire = [⟨0x7, 0xF, 0, 0xF⟩]) = true := by decide +kernel

/-- Generator-mode loads on ports 1 and 2; a word waits at the second's input. -/
def genCmd (p : BitVec 6) : Cmd := { ldCmd with portA := p, cflags := 2 }
def genState : State :=
  onCore (workOn [work 0x01 (genCmd 1), { work 0x01 (genCmd 2) with id := 1 }]) fun c => { c with
    fabric := { c.fabric with links := [((257, 0), { (default : Link) with fifo := [⟨0xA, 1, 0, 1⟩] })] } }

theorem witness_Generators :
    ((genState.core 0).generated 256).isSome = true ∧ ((genState.core 0).generated 257).isSome = true ∧ 8 ∉ (genState.core 0).records ∧
    ((genState.core 0).node 256).op.toNat = 0x32 ∧ ((genState.core 0).node 257).op.toNat = 0x33 ∧ laneOn ((genState.core 0).node 257) 0 = true ∧
    ((genState.core 0).nodeState 257).lanes.length = 4 ∧ (∀ l < 4, (((genState.core 0).nodeState 257).lane l).out = []) ∧
    (((genState.core 0).nodeState 257).lane 0).pending = none ∧ (((genState.core 0).nodeState 257).lane 0).ops = [none, none, none] ∧
    (genState.core 0).headAt 257 ((genState.core 0).node 257) 0 0 = some (.word 1) := by decide +kernel
theorem test_generators :
    answers (exec (.nodeAgaf 0 256 0) genState) (fun t => (((t.core 0).nodeState 256).lane 0).pending = some 0) = true ∧
    answers (exec (.nodeAgin 0 257 0) genState) (fun t => (((t.core 0).nodeState 257).lane 0).pending = some 1 && (t.cur.fabric.link 257 0).fifo = []) = true := by
  decide +kernel

/-- A copy of 128 bytes from 0x8000 up by 64 bytes, and one into the slots of h4. -/
def copyDesc (dst kind : Nat) : Nat := 0x8000 + dst * 2 ^ 64 + 128 * 2 ^ 128 + kind * 2 ^ 162
def copyState (d : Nat) (c : Cmd) : State := workOn [{ work 0x0A c with attached := d }]

theorem witness_Copy :
    (let s := copyState (copyDesc 0x8040 0) default;
      let d := CopyDesc.of (copyDesc 0x8040 0);
      cmdOf (work 0x0A default).word = default ∧ d.srcKind = 0 ∧ d.dstKind = 0 ∧ d.src < d.dst ∧ d.dst < d.src + d.length ∧ 0 ≠ d.length / 64 ∧
        (work 0x0A default).buf.length < d.length ∧ s.copyAhead d = true ∧ s.copyAhead (CopyDesc.of (copyDesc 0x9000 0)) = false ∧
        (s.copyRead (work 0x0A default) d 0).isOk = true ∧ (s.copyWrite (work 0x0A default) d 1 (List.replicate 64 5)).isOk = true ∧
        d.length ≤ ({ work 0x0A default with buf := List.replicate 128 5 } : CmdEntry).buf.length ∧ s.engineTranslate s.x (d.dst + 64 * 1) .store = .ok ⟨false, 0x8080⟩ ∧
        (s.ctx s.x).undoFull (⟨false, 0x8080⟩ : Loc).line = false ∧ s.hbm.wf = true) ∧
    (let s := copyState (copyDesc 0 2) { (default : Cmd) with hA := 4 };
      let d := CopyDesc.of (copyDesc 0 2);
      d.dstKind = 2 ∧ s.cur.mayFill 0 4 = true ∧ (s.copyRead (work 0x0A { (default : Cmd) with hA := 4 }) d 0).isOk = true) := by decide +kernel
theorem test_copy :
    answers (exec (.copy default) ((copyState (copyDesc 0x8040 0) default).setBytes ⟨false, 0x8000⟩ [5]))
      (fun t => t.byte ⟨false, 0x8040⟩ = 0 && ((t.cur.cmdEntry 0).map fun e => (e.pos, e.buf.length, e.buf.headD 0)) = some (0, 64, 5)) = true ∧
    answers (exec (.copy default) (workOn [{ work 0x0A default with attached := copyDesc 0x8040 0, buf := List.replicate 64 5 ++ List.replicate 64 6, pos := 1, count := 64 }]))
      (fun t => t.byte ⟨false, 0x8080⟩ = 6 && t.byte ⟨false, 0x8040⟩ = 0 && ((t.cur.cmdEntry 0).map fun e => (e.pos, e.count)) = some (2, 128)) = true ∧
    answers (exec (.copy { (default : Cmd) with hA := 4 }) ((copyState (copyDesc 0 2) { (default : Cmd) with hA := 4 }).setBytes ⟨false, 0x8000⟩ [5]))
      (fun t => t.cur.bufBytes .a 0 1 = [5]) = true := by decide +kernel

/-- A `fill` of 64 bytes of C from 0x40 with 0x01020304, a `bank` of bank 3 of A to configuration context 2. -/
def fillCmd : Cmd := { (default : Cmd) with operand := 0x0102030480000040 }
def bankCmd : Cmd := { (default : Cmd) with operand := 0x40030002 }
theorem witness_FillBank :
    cmdOf (work 0x0B fillCmd).word = fillCmd ∧ (Buf.of (bitsOf fillCmd.operand.toNat 31 30)).getD .a = .c ∧
    ((workOn [work 0x0B fillCmd]).cur.buf .c).wf = true ∧ cmdOf (work 0x15 bankCmd).word = bankCmd ∧
    (Buf.of (bitsOf bankCmd.operand.toNat 31 30)).getD .a = .a ∧
    (∀ d ∈ (workOn [work 0x15 bankCmd]).cur.cmds.takeWhile (fun d => d.id ≠ (work 0x15 bankCmd).id),
      (workOn [work 0x15 bankCmd]).cur.reaches d .a (3 * 4096) (1 * 4096) = false) := by decide +kernel
theorem test_fill_bank :
    answers (exec (.fill fillCmd) (workOn [work 0x0B fillCmd])) (fun t => t.cur.bufBytes .c 0x7C 5 = [4, 3, 2, 1, 0] && t.cur.full .c 7 && !t.cur.full .c 8) = true ∧
    answers (exec (.bank bankCmd) (workOn [work 0x15 bankCmd])) (fun t => t.cur.owner .a 0x3FFF = some 2 && t.cur.owner .a 0x4000 = none) = true := by decide +kernel

/-- A switch to configuration context 3, which holds an image, after the firing has ended; a `barr` and a `lease`. -/
def swCmd : Cmd := { (default : Cmd) with cflags := 3 }
def swState : State := onCtx (onCore (workOn [work 0x11 swCmd]) fun c => { c with images := [(0, img), (3, img)] }) fun x =>
  x.modFiring 1 fun f => { f with ended := true }
theorem witness_SwitchBarrierLease :
    swState.cur.firstCmd (work 0x11 swCmd).id = true ∧ swState.cur.fabricEmpty = true ∧ (look swState.cur.images (swCmd.cflags.toNat % 8)).isSome = true ∧
    (∀ f ∈ (swState.ctx swState.x).firings, f.2.k = swState.now → f.2.cx = swState.cur.cx → f.2.ended = true ∨ f.2.cause.isSome = true) ∧
    (workOn [work 0x14 default]).cur.firstCmd 0 = true ∧ (workOn [work 0x14 default]).cur.fabricEmpty = true ∧
    (let s := workOn [work 0x30 (tileCmd 0)];
      ∀ p ∈ (s.ctx s.x).leaseRect (work 0x30 (tileCmd 0)), p ∈ ((s.ctx s.x).firing 1).lease) := by decide +kernel
theorem test_switch_barrier_lease :
    answers (exec (.cfgSw swCmd) swState) (fun t => t.cur.cx = 3 && ((t.cur.cmdEntry 0).map fun e => e.stage) = some .performed) = true ∧
    answers (exec (.barr default) (workOn [work 0x14 default])) (fun t => ((t.cur.cmdEntry 0).map fun e => e.stage) = some .performed) = true ∧
    answers (exec (.lease (tileCmd 0)) (workOn [work 0x30 (tileCmd 0)])) (fun t => ((t.cur.cmdEntry 0).map fun e => e.stage) = some .performed) = true := by
  decide +kernel

/-- A `relatch` of one record at 0x8000: the base of plate 0 of tensor 9 becomes 5 (op 1). -/
def relCmd : Cmd := { (default : Cmd) with operand := 0x8000 }
def relState : State := (workOn [work 0x31 relCmd]).setBytes ⟨false, 0x8000⟩ [9, 0, 1, 0, 0, 0, 0, 0, 5]
def relWaits : State := onCtx relState fun x => { x with epoch := 1, changes := [⟨some (0, 0), 1, [(9, 0)], 1, [], []⟩], firings := [(1, { fir with latch := 1 })] }
theorem witness_Relatch :
    (relState.ctx relState.x).changes.find? (fun r => r.owner = some (relState.now, 0)) = none ∧
    (match relState.engineRead relState.x relCmd.operand.toNat 16 with
      | .ok bs => bs = [9, 0, 1, 0, 0, 0, 0, 0, 5, 0, 0, 0, 0, 0, 0, 0] ∧ (relState.ctx relState.x).editHolds (AtlasEdit.of bs) = true ∧ (AtlasEdit.of bs).moves = false
      | .error _ => False) ∧
    (relState.ctx relState.x).undo.length + 1 ≤ (relState.ctx relState.x).undoRoom ∧
    (relWaits.ctx relWaits.x).changes.find? (fun r => r.owner = some (relWaits.now, 0)) = some ⟨some (0, 0), 1, [(9, 0)], 1, [], []⟩ ∧
    (relWaits.ctx relWaits.x).changeOpen ⟨some (0, 0), 1, [(9, 0)], 1, [], []⟩ = false := by
  refine ⟨by decide +kernel, ?_, by decide +kernel, by decide +kernel, by decide +kernel⟩
  have h : relState.engineRead relState.x relCmd.operand.toNat 16 = .ok [9, 0, 1, 0, 0, 0, 0, 0, 5, 0, 0, 0, 0, 0, 0, 0] := by rfl
  rw [h]
  decide +kernel
theorem test_relatch :
    answers (exec (.relatch relCmd) relState) (fun t => (t.ctx 1).epoch = 1 && ((t.ctx 1).entryNow 9 0).base = 5 && ((t.ctx 1).entryAt 9 0 0).base = 0) = true ∧
    answers (exec (.relatch relCmd) relWaits) (fun t => ((t.cur.cmdEntry 0).map fun e => e.stage) = some .performed) = true := by decide +kernel

/-- An `fopen` of two indices 1 and 0 over 32-bit elements of A at 0x300, runs of one. -/
def fopenCmd : Cmd := { (default : Cmd) with portA := 0 }
def jval : Nat := 0x200 * 2 ^ 93 + 1 * 2 ^ 77 + 5 * 2 ^ 73 + 0x300 * 2 ^ 54
def fopenState (u : CmdEntry → CmdEntry) : State :=
  onCore (workOn [u { work 0x20 fopenCmd with attached := jval }]) fun c => { c with bufA := [(0x200, 1), (0x300, 21), (0x304, 22)], fullA := [0x20] }
theorem witness_Fopen :
    let e := { work 0x20 fopenCmd with attached := jval }
    let s := fopenState id
    s.cur.portTurn e = true ∧ s.cur.portRoom 0 = true ∧ 8 ∉ s.cur.records ∧ fopenCmd.flag 5 = false ∧ e.closing = false ∧ cmdOf e.word = fopenCmd ∧
      streamOf e = ⟨0, 0x200, 2, 5, 0x300, 1, 0⟩ ∧ ((s.pickBeat e (streamOf e) 1 0 ⟨[], [], e.buf⟩).toOption.map fun b => b.items) = some [.word 22] := by decide +kernel
theorem test_fopen :
    answers (exec (.fopen fopenCmd) (fopenState id)) (fun t => (t.cur.fabric.link 5 0).wire = [⟨0xA, 1, 0, 22⟩]) = true ∧
    answers (exec (.fopen fopenCmd) (fopenState fun e => { e with pos := 1 })) (fun t => ((t.cur.fabric.link 5 0).wire.map fun b => b.kind) = [4]) = true ∧
    answers (exec (.fopen fopenCmd) (fopenState fun e => { e with pos := 2, count := 2, attached := jval + 2 * 2 ^ 128 }))
      (fun t => ((t.cur.cmdEntry 0).map fun e => (e.stage, e.count)) = some (.performed, 8)) = true := by decide +kernel

/-- An `fclose` alone, and after an `fopen` on its port. -/
def fcloseState : State := workOn [work 0x20 fopenCmd, { work 0x21 fopenCmd with id := 1 }]
theorem witness_Fclose :
    (workOn [work 0x21 fopenCmd]).cur.lastOnPort 0 0 = none ∧ fcloseState.cur.lastOnPort 1 0 = some (work 0x20 fopenCmd) ∧
    opOf (work 0x20 fopenCmd).word = 0x20 ∧ (work 0x20 fopenCmd).live = true ∧ (workOn [{ work 0x21 fopenCmd with pos := 1, attached := 5 }]).cur.cmdEntry 5 = none := by
  decide +kernel
theorem test_fclose :
    answers (exec (.fclose fopenCmd) fcloseState) (fun t => ((t.cur.cmdEntry 0).map fun e => e.closing) = some true) = true := by decide +kernel

/-- An intersection of one row, [2, 5, 7] with [5, 7, 9]: its descriptor at 0x8000. -/
def isectDesc : List Byte :=
  leBytes 4 1 ++ leBytes 4 0x100 ++ leBytes 4 0x200 ++ leBytes 4 0x110 ++ leBytes 4 0x300 ++ leBytes 4 0x400 ++ leBytes 4 0x500 ++ leBytes 4 0x600 ++
    leBytes 4 0x700 ++ leBytes 4 8 ++ List.replicate 24 0
def isectCmd : Cmd := { (default : Cmd) with operand := 0x8000 }
def isectState (u : CmdEntry → CmdEntry) : State :=
  (onCore (workOn [u (work 0x22 isectCmd)]) fun c => { c with
    bufA := [(0x104, 3), (0x114, 3), (0x200, 2), (0x204, 5), (0x208, 7), (0x300, 5), (0x304, 7), (0x308, 9)] }).setBytes ⟨false, 0x8000⟩ isectDesc
def isectOn (e : CmdEntry) : CmdEntry := { e with pos := 1, attached := leNat isectDesc + 2 ^ 512 }
theorem witness_Isect :
    (isectState id).engineRead (isectState id).x isectCmd.operand.toNat 64 = .ok isectDesc ∧
    (Isect.of (leNat isectDesc)).bad (isectState id).cur 0 = false ∧ (isectState id).cur.bufA.wf = true ∧
    Isect.of ((isectOn (work 0x22 isectCmd)).attached % 2 ^ 512) = ⟨1, 0x100, 0x200, 0x110, 0x300, 0x400, 0x500, 0x600, 0x700, 8, false, 0⟩ ∧
    ((isectState isectOn).cur.isectRow ⟨1, 0x100, 0x200, 0x110, 0x300, 0x400, 0x500, 0x600, 0x700, 8, false, 0⟩ 0 0).isOk = true := by
  refine ⟨by rfl, by decide +kernel, by decide +kernel, by decide +kernel, by decide +kernel⟩
theorem test_isect :
    answers (exec (.isect isectCmd) (isectState isectOn)) (fun t => t.cur.a32 0x404 = 2 && t.cur.a32 0x500 = 5 && t.cur.a32 0x504 = 7 && t.cur.a32 0x600 = 1 &&
      t.cur.a32 0x604 = 2 && t.cur.a32 0x700 = 0 && t.cur.a32 0x704 = 1 && ((t.cur.cmdEntry 0).map fun e => (e.pos, e.count)) = some (2, 2)) = true := by
  decide +kernel

/-- `eqpart` of four rows of lengths 3, 0, 0, 1 into two parts. -/
def eqCmd : Cmd := { (default : Cmd) with operand := BitVec.ofNat 64 (3 * 2 ^ 48 + 1 * 2 ^ 40 + 0x400 * 2 ^ 19 + 0x100) }
def eqState : State := onCore (workOn [work 0x23 eqCmd]) fun c => { c with bufA := [(0x104, 3), (0x108, 3), (0x10C, 3), (0x110, 4)] }
theorem witness_Eqpart :
    prefixWeights 0 ((upto 5).map fun i => eqState.cur.a32 (0x100 + 4 * i)) = some [0, 4, 5, 6, 8] ∧ eqState.cur.bufA.wf = true ∧
    cmdOf (work 0x23 eqCmd).word = eqCmd := by decide +kernel
theorem test_eqpart :
    answers (exec (.eqpart eqCmd) eqState) (fun t => t.cur.a32 0x400 = 0 && t.cur.a32 0x404 = 1 && t.cur.a32 0x408 = 4) = true := by decide +kernel

/-- Hash site 216 takes banks 4 and 5 of C with row base 7. -/
def hsetCmd : Cmd := { (default : Cmd) with operand := 0x0000000700040100 }
theorem witness_Hset :
    (workOn [work 0x24 hsetCmd]).cur.oldFree (work 0x24 hsetCmd) 216 = true ∧ (workOn [work 0x24 hsetCmd]).cur.hashFree (work 0x24 hsetCmd) 216 4 2 = true ∧
    hsetCmd.flag 0 = false ∧ ({ hsetCmd with cflags := 1 } : Cmd).flag 0 = true := by decide +kernel
theorem test_hset :
    answers (exec (.hset hsetCmd) (workOn [work 0x24 hsetCmd])) (fun t => t.cur.hashOf 216 = some (7, 4, 2) && t.cur.owner .c 0x4000 = some 16 && t.cur.owner .c 0x6000 = none) = true ∧
    answers (exec (.hsetR { hsetCmd with cflags := 1 }) (onCore (workOn [work 0x24 { hsetCmd with cflags := 1 }]) fun c => c.bindHash 216 7 4 2))
      (fun t => t.cur.hashOf 216 = none && t.cur.owner .c 0x4000 ≠ some 16) = true := by decide +kernel

/-! ### The matrix array -/

/-- An `mrun` over INT8 rows of one element, one column, two row tags from h6; its twin, right half. -/
def mrunCmd : Cmd := { (default : Cmd) with hA := 6, operand := BitVec.ofNat 64 (7 * 2 ^ 60 + 5 * 2 ^ 56 + 2 * 2 ^ 24) }
def trunCmd : Cmd := { mrunCmd with cflags := 32 }

/-- A plane that holds the weight 3 at (0, 0). -/
def loaded : Plane := { Plane.reset with stage := .loaded, words := [((0, 0), 3)], checks := [3] }

/-- The image with feeder row 0 and an accumulator for column 0: dest 1 (C), at every k-th pass. -/
def arrImg (k : Nat) : Image := { img with
  nodes := [(256, { decodeNode 0 with op := 0x1C, lanes := 1, param := 7 }), (320, { decodeNode 0 with op := 0x20, lanes := 1, param := BitVec.ofNat 24 (4096 + 64 * (k - 1)) })] }

/-- The acting core with commands, the array's image, a filled consumer h6 and a producer h7. -/
def arrOn (es : List CmdEntry) (k : Nat) (a : MArray → MArray) : State := onCore (workOn es) fun c => { c with
  images := [(0, arrImg k)], bufA := [(4096, 5)]
  handles := [(6, ⟨true, 1, 1, 15, 64, 2, 0, 0, 0⟩), (7, ⟨true, 2, 1, 15, 0, 0, 2, 0, 0⟩)], array := a { c.array with planes := [loaded, Plane.reset] } }

/-- The run of `mrunCmd` at some place. -/
def runAt (entered completed : Nat) (q : List RowTag) : Run :=
  { cmd := 0, word := (work 0x19 mrunCmd).word, twin := false, right := false, m := 2, pass := 1, entered := entered, completed := completed
    inflight := q, aRec := 0, bRec := 0, met := true }

/-- A row tag of the element 5, of 8 digits, with digits that have entered; and of it once it has taken its last one. -/
def tag5 (got : Nat) : RowTag := ⟨0, [[0, 0, 0, 0, 0, 1, 0, 1]], [0], [], [], 8, got, [], false, []⟩
def tagFull : RowTag := { tag5 8 with full := true }

def wldCmd : Cmd := { tileCmd 6 with cflags := 2 }
def wldState : State := arrOn [{ work 0x18 wldCmd with pos := 1 }] 1 fun a => { a with planes := [{ loaded with stage := .loading, words := [((0, 0), 0xFD)] }, Plane.reset] }
theorem witness_Wld :
    let r := TRect.of wldCmd.operand.toNat
    wldState.cur.array.planes.length = 2 ∧ (wldState.ctx wldState.x).tensor r.tensor = some t9 ∧ (wldState.cur.earlierOps 0) = [] ∧ r.count = 1 ∧
      ((wldState.cur.plane (planeOf wldCmd)).converted t9.fmt).isSome = true ∧ wldCmd.flag 1 = true ∧
      (wldState.fetchTile wldState.x 1 t9 (r.walk 0).1 (r.walk 0).2).isOk = true ∧ (tileCmd 6).flag 1 = false ∧
      (arrOn [work 0x18 (tileCmd 6)] 1 id).cur.mayDrain 0 6 = true ∧ (work 0x18 (tileCmd 6)).pos ≠ r.count := by decide +kernel
theorem test_wld :
    answers (exec (.wld wldCmd) wldState) (fun t => (t.cur.plane 0).words = [((0, 0), -3)] && (t.cur.plane 0).stage = .loaded) = true := by decide +kernel

/-- `szld` of a row from 0x8000. -/
def szldCmd : Cmd := { (default : Cmd) with operand := 0x8000 }
def szldState : State := (workOn [work 0x1B szldCmd]).setBytes ⟨false, 0x8000⟩ [1, 2, 3, 4, 5]
theorem witness_Szld : szldState.cur.earlierOps 0 = [] ∧ (szldState.engineRead szldState.x szldCmd.operand.toNat 32).isOk = true := by decide +kernel
theorem test_szld :
    answers (exec (.szld szldCmd) szldState) (fun t => look t.cur.array.table (0, 0) = some 0x04030201 && look t.cur.array.table (0, 1) = some 5) = true := by
  decide +kernel

theorem witness_Runs :
    (let s := arrOn [work 0x19 mrunCmd] 1 id;
      cmdOf (work 0x19 mrunCmd).word = mrunCmd ∧ s.cur.array.run = none ∧ s.cur.earlierOps 0 = [] ∧ mrunCmd.flag 1 = false ∧
      (s.cur.plane (planeOf mrunCmd)).stage = .loaded ∧ s.cur.mayDrain 0 6 = true ∧ (s.cur.plane (planeOf { mrunCmd with cflags := 1 })).stage ≠ .loaded) ∧
    (∀ k < 3, 0 < k →
      let s := arrOn [work 0x19 mrunCmd] k fun a => { a with run := some (runAt 2 2 []) };
      (runAt 2 2 []).completed = (runAt 2 2 []).m ∧ s.cur.tapsIdle (runAt 2 2 []) = true ∧ ((s.cur.releases (runAt 2 2 []) = []) ↔ k = 2)) ∧
    cmdOf (work 0x1A trunCmd).word = trunCmd ∧ (arrOn [work 0x1A trunCmd] 1 id).cur.mayDrain 0 6 = true := by decide +kernel
theorem test_runs :
    answers (exec (.mrun mrunCmd) (arrOn [work 0x19 mrunCmd] 1 id)) (fun t => t.cur.array.run = some (runAt 0 0 [])) = true ∧
    answers (exec (.trun trunCmd) (arrOn [work 0x1A trunCmd] 1 id)) (fun t => (t.cur.array.run.map fun r => (r.twin, r.right, r.met)) = some (true, true, false)) = true ∧
    answers (exec (.mrun mrunCmd) (arrOn [work 0x19 mrunCmd] 1 fun a => { a with run := some (runAt 2 2 []), sums := [((0, 0), .finite 1 0 (some 1))] }))
      (fun t => t.cur.array.run = none && t.cur.array.sums = [] && ((t.cur.cmdEntry 0).map fun e => (e.stage, e.count)) = some (.performed, 2)) = true := by
  decide +kernel

/-- `spill` and `rest` of one slot at 0x60000, the C buffer with what a spill of one sum leaves. -/
def spillCmd : Cmd := { (default : Cmd) with operand := 0x60000, cflags := 0x40 }
def spillState : State := arrOn [work 0x1C spillCmd] 1 fun a => { a with passes := 3, sums := [((0, 0), .finite (5 * 2 ^ 44) (-44) (some 3)), ((1, 0), .nan (some 3))] }
def restState : State := onCore (arrOn [work 0x1D spillCmd] 1 id) fun c => { c with bufC := [(0x60000, 3), (0x60045, 0x50), (0x60046, 3), (0x60047, 0x80)] }
theorem witness_SpillRest :
    spillState.cur.arrayFree 0 = true ∧ spillState.cur.bufC.wf = true ∧ spillCmd.flag 6 = true ∧ restState.cur.arrayFree 0 = true ∧
    (nth (restState.cur.bufBytes .c spillCmd.operand.toNat 64) 0 0).toNat < 64 := by decide +kernel
theorem witness_Rest_records : ∀ i, i < 256 → (sumOfRecord (leNat (((restState.cur.bufBytes .c spillCmd.operand.toNat (64 + 2048)).drop (64 + 8 * i)).take 8))).isSome = true := by
  decide +kernel

/-- The record of a sum of 5 with t = 3 is 0x8003_5000_0000_0000 (09 R276), and is read back. -/
theorem test_sum_record :
    sumRecord (.finite (5 * 2 ^ 44) (-44) (some 3)) = 0x8003500000000000 ∧ sumOfRecord 0x8003500000000000 = some (.finite (5 * 2 ^ 44) (-44) (some 3)) ∧
    sumOfRecord 0 = some Sum.empty ∧ sumOfRecord 1 = none ∧ sumOfRecord 0xA003000000000000 = some (.nan (some 3)) ∧
    sumRecord (.nan (some 3)) = 0xA003000000000000 := by decide +kernel
theorem test_spill :
    answers (exec (.spill spillCmd) spillState) (fun t => t.cur.array.passes = 0 && t.cur.array.sums = [((1, 0), .nan (some 3))]) = true := by
  decide +kernel

/-- Twins on cores 0 and 1 that have not met. -/
def half (right : Bool) (m : Nat) : Run := { runAt 0 0 [] with word := (work 0x1A (if right then trunCmd else mrunCmd)).word, twin := true, right := right, m := m, met := false }
def twinState : State := (arrOn [] 1 fun a => { a with run := some (half false 2) }).setCore 1 { Core.reset with array := { MArray.reset with run := some (half true 2) } }
theorem witness_Twin :
    (twinState.core (1 / 2 * 2)).array.run = some (half false 2) ∧ (twinState.core (1 / 2 * 2 + 1)).array.run = some (half true 2) ∧
    bitsOf (half false 2).fields.operand.toNat 63 60 = bitsOf (half true 2).fields.operand.toNat 63 60 ∧
    bitsOf (half false 2).fields.operand.toNat 55 48 = bitsOf (half true 2).fields.operand.toNat 55 48 ∧
    bitsOf (half false 2).fields.operand.toNat 39 24 = bitsOf (half true 2).fields.operand.toNat 39 24 ∧
    bitsOf (half false 2).fields.cflags.toNat 4 2 = bitsOf (half true 2).fields.cflags.toNat 4 2 ∧
    (∀ k < 2, (twinState.core k).arrayFault = none ∧ 9 ∉ (twinState.core k).records) := by decide +kernel
theorem test_twin :
    answers (exec (.twinRendezvous 1) twinState) (fun t => ((t.core 0).array.run.map fun r => r.met) = some true && ((t.core 1).array.run.map fun r => r.met) = some true) = true := by
  decide +kernel

/-- A run whose next row tag may enter, that enters, that waits to complete; accumulating every second pass. -/
def tagState (k : Nat) (r : Run) : State := arrOn [work 0x19 mrunCmd] k fun a => { a with run := some r }
theorem witness_RowTags :
    (let c := (tagState 2 (runAt 0 0 [])).core 0;
      c.entering = none ∧ c.mayDrain 0 6 = true ∧ c.resultRoom (runAt 0 0 []) = true ∧ 9 ∉ c.records ∧ (tagState 2 (runAt 0 0 [])).halted 0 = false ∧
        ((tagState 2 (runAt 0 0 [])).ctx ((tagState 2 (runAt 0 0 [])).cxId 0)).drained = [] ∧ (runAt 0 0 []).fields.flag 2 = false ∧
        c.feedRows (runAt 0 0 []).depth = [0] ∧ (runAt 0 0 []).fields.hA.toNat = 6) ∧
    (let c := (tagState 2 (runAt 1 0 [tag5 0])).core 0;
      4 * (256 - 256) + 0 ∈ c.feedRows (runAt 1 0 [tag5 0]).depth ∧ 0 ∉ (tag5 0).fed ∧ (tag5 0).full = false ∧ (tag5 0).gates = [] ∧
        (∀ i ∈ c.feedRows (runAt 1 0 [tag5 0]).depth, i ∈ 0 :: (tag5 0).fed)) ∧
    (let c := (tagState 2 (runAt 1 0 [tagFull])).core 0; let r := runAt 1 0 [tagFull];
      tagFull.full = true ∧ tagFull.checksum (c.plane (planeOf r.fields)) = true ∧ ({ tagFull with gates := [(0, 3)] } : RowTag).checksum loaded = true ∧
      c.releases r = [] ∧ c.usedCols r.width = [(0, 1, 2)]) ∧
    (FloatFmt.of (runAt 0 0 []).afmt).isNone = true ∧ loaded.floating = false ∧ (∀ w ∈ (tag5 0).classes, w = 0) := by decide +kernel
/-- 09 R268: with the checksum weight one off, digit 5, which is 1, shows a mismatch. -/
theorem test_checksum :
    (let bad : MArray → MArray := fun a => { a with run := some (runAt 1 0 [tagFull]), planes := [{ loaded with checks := [4] }, Plane.reset] };
      answers (exec (.rowTagCompletion 0) (arrOn [work 0x19 mrunCmd] 2 bad))
        (fun t => t.halted 0 && look (t.core 0).origins 9 = some 0x51 && (t.core 0).array.sums = [])) = true := by decide +kernel
theorem test_row_tags :
    answers (exec (.rowTagEntry 0) (tagState 2 (runAt 0 0 []))) (fun t => (t.core 0).array.run = some (runAt 1 0 [tag5 0])) = true ∧
    answers (exec (.nodeFeed 0 256 0) (tagState 2 (runAt 1 0 [tag5 7]))) (fun t => ((t.core 0).array.run.map fun r => r.inflight) = some [tagFull]) = true ∧
    answers (exec (.rowTagCompletion 0) (tagState 2 (runAt 1 0 [tagFull])))
      (fun t => (t.core 0).array.sums = [((0, 0), .finite (15 * 2 ^ 43) (-43) (some 4))] && ((t.core 0).array.run.map fun r => r.completed) = some 1) = true := by
  decide +kernel

/-! ### Rings -/

/-- The folded ring of eight of 12 R322: stops in the order 0, 2, 4, 6, 7, 5, 3, 1. -/
theorem test_folded_ring : (upto 8).map (posOf 8) = [0, 2, 4, 6, 7, 5, 3, 1] ∧ (upto 8).map (fun p => posOf 8 (stopOf 8 p)) = upto 8 := by decide +kernel

/-- A bulk packet of one row from core 0 to core 2 of the 8 by 8 segment, and a control packet. -/
def pkt : Packet := ⟨.bulk, 1, 0, 2, 0, ⟨0, 0, 8, 8⟩, 0, 0x80, [9] ++ List.replicate 63 0, 0, 0⟩
def lnk : RingLink := ⟨false, true, 0, 0, 2⟩
theorem witness_Packets : (⟨0, 0, 8, 8⟩ : Rect).x + 8 ≤ 32 ∧ rectHas pkt.seg 0 = true ∧ rectHas pkt.seg pkt.dst = true ∧ pkt.next 0 = some lnk ∧
    hops pkt 1 0 = pkt.dst ∧ pkt.next pkt.dst = none := by decide +kernel

/-- `rsend` of 64 bytes of A from 0x40 to column 2 of row 0 of the inset, A 0x80; the same to its own core. -/
def rsendCmd (col : Nat) : Cmd := { (default : Cmd) with operand := BitVec.ofNat 64 (1 * 2 ^ 40 + 2 * 2 ^ 26 + 3 * 2 ^ 13 + 3 * 2 ^ 10 + col * 2 ^ 5) }
def ringOn (es : List CmdEntry) : State := onCtx (onCore (workOn es) fun c => { c with bufA := [(64, 9)] }) fun x => { x with launches := [lau] }
theorem witness_Rsend :
    (let s := ringOn [work 0x28 (rsendCmd 2)];
      let r := s.insetFor (work 0x28 (rsendCmd 2)) 3 3;
      s.cur.bufBytes .a 64 2 = [9, 0] ∧ s.now = 0 ∧ r = ⟨0, 0, 8, 8⟩) ∧
    (ringOn [work 0x28 (rsendCmd 0)]).cur.banksOpen .a 128 64 (ringOn []).cur.cx = true ∧ (ringOn []).cur.bufA.wf = true := by decide +kernel
theorem test_rsend :
    answers (exec (.rsend (rsendCmd 2)) (ringOn [work 0x28 (rsendCmd 2)])) (fun t => t.cur.inject = [pkt]) = true ∧
    answers (exec (.rsend (rsendCmd 0)) (ringOn [work 0x28 (rsendCmd 0)]))
      (fun t => t.cur.bufBytes .a 128 2 = [9, 0] && ((t.cur.cmdEntry 0).map fun e => e.stage) = some .performed) = true := by decide +kernel

/-- A collective of an inset of 2 by 1 (lw 1, lh 0) over 64 bytes of A from 0 to 0x40: op, the combination and the root. -/
def collCmd (op root : Nat) : Cmd := { (default : Cmd) with operand := BitVec.ofNat 64 (op * 2 ^ 61 + 1 * 2 ^ 21 + root * 2 ^ 11 + 1 * 2 ^ 8) }
def collState (op root : Nat) : State :=
  let p : List Byte := [1, 2, 0, 0] ++ List.replicate 60 0
  let q : List Byte := [5, 1, 0, 0] ++ List.replicate 60 0
  let o := (collCmd op root).operand.toNat
  ((ringOn [{ work 0x29 (collCmd op root) with pos := 1 }]).modCore 0 fun c => { c with collParts := [((1, 0, 0), (0, o, p))], collIn := [(((1, 0, 0), 1), 64)] }).modCore 1 fun c =>
    { c with collParts := [((1, 0, 0), (0, o, q))] }
theorem witness_Collectives :
    ∀ op < 4, (collCmd op 0).icollOp = op ∧ cmdOf (work 0x29 (collCmd op 0)).word = collCmd op 0 ∧ collKey (work 0x29 (collCmd op 0)) = (1, 0, 0) ∧
      rectCores ((collState op 0).insetFor (work 0x29 (collCmd op 0)) 1 0) = [0, 1] ∧
      ∃ p q, (rectCores ((collState op 0).insetFor (work 0x29 (collCmd op 0)) 1 0)).map (fun k => look ((collState op 0).core k).collParts (1, 0, 0)) =
        [some (0, (collCmd op 0).operand.toNat, p), some (0, (collCmd op 0).operand.toNat, q)] ∧
        (let o := (collCmd op 0).operand.toNat;
          ((collState op 0).core 0).collHere (1, 0, 0) (collNeeds o 0 [0, 1]) 64 = true) := by
  intro op h
  refine ⟨?_, ?_, ?_, ?_, [1, 2, 0, 0] ++ List.replicate 60 0, [5, 1, 0, 0] ++ List.replicate 60 0, ?_, ?_⟩ <;> (rcases op with _ | _ | _ | _ | op <;> first | omega | decide +kernel)
theorem test_collectives :
    answers (exec (.icollBcast (collCmd 0 1)) (collState 0 1)) (fun t => t.cur.bufBytes .a 64 3 = [5, 1, 0]) = true ∧
    answers (exec (.icollReduce (collCmd 1 0)) (collState 1 0)) (fun t => t.cur.bufBytes .a 64 3 = [6, 3, 0]) = true ∧
    answers (exec (.icollAllred (collCmd 2 1)) (collState 2 1)) (fun t => t.cur.bufBytes .a 64 3 = [6, 3, 0]) = true ∧
    answers (exec (.icollGather (collCmd 3 0)) (collState 3 0)) (fun t => t.cur.bufBytes .a 64 1 = [1] && t.cur.bufBytes .a 128 2 = [5, 1]) = true ∧
    answers (exec (.icollGather (collCmd 3 0)) (ringOn [work 0x29 (collCmd 3 0)]))
      (fun t => ((look t.cur.collParts (1, 0, 0)).map fun p => (p.2.1, p.2.2.length)) = some ((collCmd 3 0).operand.toNat, 64)) = true := by decide +kernel

/-- A stop input of core 2 with a packet, with slots to be returned. -/
def stopState (i : StopInput) : State := onCore s0 id |>.setCore 2 { Core.reset with stops := [(lnk, i)] }
def trn (p : Packet) (a g : Nat) : Transit := ⟨p, false, false, a, g, false, none, 0⟩
def msgPkt (note n : Nat) : Packet := { pkt with cls := .control, chan := 3, addr := n, bytes := [], note := note }
def msg2 : Message := ⟨2, 0, false, 3, [7, 8], 0, true⟩
def grantState : State := (onCore s0 fun c => { c with outbound := [msg2], stops := [(⟨false, false, 0, 2, 0⟩, { StopInput.blank with held := [trn { msgPkt 2 2 with src := 2, dst := 0 } 1 1] })] })
def frm : Frame := ⟨5, 0, 2, 3, [7], .message, State.reset.etherType⟩

theorem witness_RingEvents :
    (let i : StopInput := ⟨[], 7, 8, 1, 1, 0⟩; 0 < ((stopState i).stopIn lnk).poolOwed ∧ 0 < ((stopState i).stopIn lnk).escapeOwed) ∧
    (let s := onCore (stopState StopInput.blank) fun c => { c with inject := [pkt] };
      ringCore lnk lnk.src = 0 ∧ (s.stopIn lnk).held = [] ∧ s.halted 0 = false ∧ (s.core 0).passing 0 lnk = [] ∧
        (s.injectable 0).filter (fun q => q.next 0 = some lnk) = [pkt] ∧ pkt ∈ (s.core 0).inject ∧ pkt.flits ≤ (s.stopIn lnk).poolFree) ∧
    (let p : Packet := { pkt with dst := 4 };
      let s := stopState { StopInput.blank with held := [trn p 0 0] };
      (s.stopIn lnk).held = [trn p 0 0] ∧ (trn p 0 0).arrived < p.flits ∧ s.guarded lnk = false ∧ (p.next 2).isSome = true) ∧
    (let s := stopState { StopInput.blank with held := [trn pkt 1 0] };
      ringCore lnk lnk.dst = 2 ∧ (s.core 2).takesFlit pkt 0 = true ∧ ((pkt.bytes.drop 0).take 64).length = 64 ∧ ((s.core 2).buf (pkt.row 0).1).wf = true ∧
        pkt.next 2 = none) ∧
    ((stopState { StopInput.blank with held := [trn (msgPkt 1 2) 1 1] }).core 2).landed 2
      (fun p => p.cls = .control && p.note = 1 && p.addr ≤ ((stopState { StopInput.blank with held := [trn (msgPkt 1 2) 1 1] }).core 2).chanRoom p.chan) =
        some (lnk, trn (msgPkt 1 2) 1 1) ∧
    ((grantState.core 0).landed 0 fun p => p.cls = .control && p.note = 2 && p.src = 2 && p.chan = 3).isSome = true ∧
    (grantState.core 0).outbound.find? (fun m => m.asked && m.dst = 2 && m.chan = 3 && m.words.length = 2) = some msg2 := by decide +kernel
theorem witness_RingEvents_frames :
    (((stopState { StopInput.blank with held := [trn (messagePacket msg2 0 2 ⟨0, 0, 8, 8⟩ 0) 1 1] }).core 2).landed 2 fun p => p.cls = .message) =
      some (lnk, trn (messagePacket msg2 0 2 ⟨0, 0, 8, 8⟩ 0) 1 1) ∧
    ((onCore s0 fun c => { c with outbound := [{ msg2 with dst := 0 }] }).core 0).outbound.find?
      (fun m => m.dst = 0 && m.words.length ≤ ((onCore s0 fun c => { c with outbound := [{ msg2 with dst := 0 }] }).core 0).chanRoom m.chan) = some { msg2 with dst := 0 } ∧
    dieOf frm.dst = 0 ∧ frm.ether = s0.etherType ∧ frm.num = (look (s0.die 0).recvNum frm.peer).getD 0 ∧ ({ frm with num := 1 } : Frame).num ≠ (look (s0.die 0).recvNum 5).getD 0 ∧
    (∀ n ≤ 16, ((s0.modDie 0 fun d => { d with unacked := [(frm, n, 1)] }).die 0).unacked.find? (fun u => u.1.peer = 5 && u.1.num = 0) = some (frm, n, 1)) ∧
    (∃ p, s0.ctxPart 1 = some p ∧ s0.partOf (p.rect.y * 32 + p.rect.x) = some p ∧ p.halt = false ∧ s0.part p.id = some p) := by
  refine ⟨by decide +kernel, by decide +kernel, by decide +kernel, by decide +kernel, by decide +kernel, by decide +kernel, by decide +kernel, ?_⟩
  exact ⟨⟨1, ⟨0, 0, 8, 8⟩, some 1, false, 0, false, 0, []⟩, by decide +kernel⟩

theorem test_ring_slots_and_starts :
    answers (exec (.slotReturn lnk false) (stopState ⟨[], 7, 8, 1, 1, 0⟩)) (fun t => t.stopIn lnk = ⟨[], 8, 8, 0, 1, 0⟩) = true ∧
    answers (exec (.packetArbitration lnk) (onCore (stopState StopInput.blank) fun c => { c with inject := [pkt] }))
      (fun t => (t.stopIn lnk).held = [trn pkt 0 0] && (t.stopIn lnk).poolFree = 7 && (t.core 0).inject = []) = true := by decide +kernel
theorem test_flit_hop :
    answers (exec (.flitHop lnk) (stopState { StopInput.blank with held := [trn pkt 1 0] }))
      (fun t => (t.core 2).bufBytes .a 0x80 2 = [9, 0] && (t.stopIn lnk).held = [] && (t.stopIn lnk).poolOwed = 1) = true := by decide +kernel
theorem test_ring_messages :
    answers (exec (.roomRequest 2) (stopState { StopInput.blank with held := [trn (msgPkt 1 2) 1 1] }))
      (fun t => look (t.core 2).reserved 3 = some 2 && (t.core 2).inject.map (fun p => (p.dst, p.note)) = [(0, 2)]) = true ∧
    answers (exec (.roomGrant 0 2 3) grantState) (fun t => (t.core 0).outbound = [] && (t.core 0).inject.map (fun p => (p.dst, p.bytes.length)) = [(2, 16)]) = true ∧
    answers (exec (.messageArrival 2) (stopState { StopInput.blank with held := [trn (messagePacket msg2 0 2 ⟨0, 0, 8, 8⟩ 0) 1 1] }))
      (fun t => look (t.core 2).chans 3 = some [7, 8]) = true := by decide +kernel
theorem test_scale_out :
    answers (exec (.scaleOutFrameReceive 0 frm) s0) (fun t => (t.core (portCore 0 (s0.partRect 2))).outbound.map (fun m => (m.dst, m.chan, m.words)) = [(2, 3, [7])]) = true ∧
    answers (exec (.scaleOutFrameAck 0 5 0) (s0.modDie 0 fun d => { d with unacked := [(frm, 1, 1)] })) (fun t => (t.die 0).unacked = []) = true ∧
    answers (exec (.scaleOutRetransmit 0 5 0) (s0.modDie 0 fun d => { d with unacked := [(frm, 16, 1)] }))
      (fun t => t.halted 0 && look (t.die 0).origins (1, 0) = some 0x57) = true := by decide +kernel

/-! ### Launches and the command path -/

/-- The 128 bytes of a launch block of tag 8 over 4 by ny points of a sheet of 8 by 8 cores: actor 0, cost 1, save area 0x6000. -/
def blockBytes (ndim ny yplace flags : Nat) : List Byte :=
  leBytes 2 1 ++ leBytes 1 ndim ++ leBytes 1 0 ++ leBytes 2 0 ++ leBytes 2 8 ++ leBytes 2 0 ++ [0, 0, 8, 8, 0, 0] ++ leBytes 2 4 ++ leBytes 2 ny ++
    leBytes 4 0 ++ leBytes 24 0 ++ leBytes 1 128 ++ leBytes 1 yplace ++ leBytes 2 1 ++ leBytes 2 1 ++ leBytes 1 0 ++ leBytes 1 flags ++ leBytes 8 0 ++
    leBytes 4 0 ++ leBytes 2 1 ++ leBytes 2 0 ++ leBytes 8 0x6000 ++ leBytes 8 0 ++ leBytes 40 0

def lnchCmd : Cmd := { (default : Cmd) with operand := 0x8000 }
def lnchState (bs : List Byte) (pods : Nat) : State := onCtx ((workOn [work 0x38 lnchCmd]).setBytes ⟨false, 0x8000⟩ bs) fun x => { x with
  handlers := [⟨0x2000, 0, true, false, 3, 0, 1, []⟩], quotas := List.replicate 8 0x8000000000000000, podSize := pods, podWaits := [] }

/-- A block that resumes from the image at 0x9000 of one point, at the sweep's extent. -/
def resumedBytes : List Byte := (blockBytes 1 0 128 1).take 0x50 ++ leBytes 8 0x9000 ++ leBytes 40 0
def imageBytes : List Byte := leBytes 4 0xC0D70001 ++ leBytes 2 8 ++ leBytes 2 0 ++ leBytes 4 1 ++ leBytes 4 1 ++ leBytes 2 4 ++ leBytes 2 0
def resumedState : State := (lnchState resumedBytes 1).setBytes ⟨false, 0x9000⟩ imageBytes

/-- The heights of a block that passes its checks, and whether all stand at the extent. -/
def heightsFrom (s : State) : List Nat × Bool := match s.checkBlock s.x 0x8000 with
  | .ok (b, hs, _) => (hs, hs.all fun h => h = b.es)
  | .error _ => ([], false)

/-- The outcome of the checks: the block's pod bit and tag, or the reason. -/
def checkOf (s : State) : Nat × Bool × Nat := match s.checkBlock s.x 0x8000 with
  | .ok r => (0, r.1.pod, r.1.tag)
  | .error (.fail n _ _) => (n, false, 0)
  | .error _ => (1, false, 0)

theorem witness_Launches :
    cmdOf (work 0x38 lnchCmd).word = lnchCmd ∧ checkOf (lnchState (blockBytes 1 0 128 0) 1) = (0, false, 8) ∧
    checkOf (lnchState (blockBytes 2 2 1 2) 2) = (0, true, 8) ∧ checkOf (lnchState [] 1) = (0x31, false, 0) ∧
    checkOf (lnchState (blockBytes 2 2 1 2) 1) = (0x35, false, 0) ∧ checkOf resumedState = (0, false, 8) ∧ heightsFrom resumedState = ([4], true) ∧
    heightsFrom (lnchState (blockBytes 1 0 128 0) 1) = ([0], false) ∧ resumedState.tasksOf resumedState.x = [] ∧ (work 0x38 lnchCmd).pos = 0 ∧
    (let s := onCtx (lnchState [] 2) fun x => { x with podWaits := [(8, blockBytes 2 2 1 2)] };
      look (s.ctx 1).podWaits 8 = some (blockBytes 2 2 1 2) ∧ (s.ctx 1).podSize ≤ [blockBytes 2 2 1 2].length + 1 ∧ s.podWaiters 1 8 = [] ∧
      (match (s.modCtx 1 fun c => { c with podWaits := unput c.podWaits 8 }).checkBytes 1 0 (blockBytes 2 2 1 2) with
        | .ok (b, hs) => !hs.all fun h => h = b.es
        | .error _ => false) = true) := by decide +kernel
theorem test_launches :
    answers (exec (.lnch lnchCmd) (lnchState (blockBytes 1 0 128 0) 1))
      (fun t => ((t.ctx 1).launches.map fun l => (l.block.tag, l.block.extents, l.heights)) = [(8, [4, 0, 0, 0], [0])] && ((t.cur.cmdEntry 0).map fun e => e.stage) = some .performed) = true ∧
    answers (exec (.lnch lnchCmd) resumedState) (fun t => (t.ctx 1).launches = [] && (t.ctx 1).wantDatum) = true ∧
    answers (exec (.lnch lnchCmd) (lnchState (blockBytes 2 2 1 2) 2)) (fun t => ((t.ctx 1).podWaits.map fun w => w.1) = [8] && (t.ctx 1).launches = []) = true ∧
    answers (exec (.lnch lnchCmd) (lnchState [] 1)) (fun t => ((t.cur.cmdEntry 0).map fun e => e.stage) = some (.failed 0x31)) = true ∧
    answers (exec (.podLaunchCompare 1 8 [blockBytes 2 2 1 2]) (onCtx (lnchState [] 2) fun x => { x with podWaits := [(8, blockBytes 2 2 1 2)] }))
      (fun t => ((t.ctx 1).launches.map fun l => l.block.tag) = [8] && (t.ctx 1).podWaits = []) = true := by decide +kernel

def lsyncDCmd : Cmd := { (default : Cmd) with cflags := 1, operand := 8 }
theorem witness_Lsync :
    (work 0x39 default).attached ≠ 1 ∧ ({ work 0x39 default with attached := 1 } : CmdEntry).attached = 1 ∧ lsyncDCmd.flag 0 = true ∧ (default : Cmd).flag 0 = false ∧
    (workOn [work 0x39 lsyncDCmd]).cur.unitStopped 0x39 = false := by decide +kernel
theorem test_lsync :
    answers (exec (.lsync default) (workOn [work 0x39 default])) (fun t => ((t.cur.cmdEntry 0).map fun e => (e.stage, e.count)) = some (.performed, 1)) = true ∧
    answers (exec (.lsyncD lsyncDCmd) (workOn [{ work 0x39 lsyncDCmd with attached := 1 }])) (fun t => ((t.cur.cmdEntry 0).map fun e => e.stage) = some .running) = true := by
  decide +kernel

/-- A `fill` with a pail at a stage. -/
def pailFill : Cmd := { (default : Cmd) with p := true, pail := 3 }
def atStage (st : CmdStage) : State := workOn [{ work 0x0B pailFill with stage := st, count := 7 }]
def sixteen : State := workOn ((upto 16).map (fun i => { work 0x0B default with id := i + 1 }) ++ [{ work 0x0B default with stage := .queued }])
theorem witness_CommandPath :
    (∀ st : CmdStage, st = .queued ∨ st = .scoreboard ∨ st = .performed → ((atStage st).core 0).cmdEntry 0 = some { work 0x0B pailFill with stage := st, count := 7 }) ∧
    14 ∉ ((atStage .queued).core 0).records ∧ (((atStage .queued).core 0).queued.head?.map fun q => q.id) = some 0 ∧ ((atStage .queued).core 0).scoreboard.length < 16 ∧
    opOf (work 0x0B pailFill).word ≠ 0x0A ∧ 16 ≤ (sixteen.core 0).scoreboard.length ∧ ((sixteen.core 0).cmdEntry 0).isSome = true ∧
    ((atStage .scoreboard).core 0).waitsMet { work 0x0B pailFill with stage := .scoreboard, count := 7 } = true ∧ ((atStage .scoreboard).core 0).fenced 0 = false ∧
    (cmdOf (work 0x0B pailFill).word).p = true ∧ (look (atStage .performed).ctxs 1).isSome = true ∧ (atStage .performed).hbm.wf = true ∧
    ((atStage .running).core 0).unitStopped (opOf (work 0x0B pailFill).word) = false ∧
    ((atStage .performed).core 0).unitStopped (opOf (work 0x0B pailFill).word) = false ∧
    ((onCore (atStage .performed) fun c => { c with records := List.range 16 }).core 0).unitStopped (opOf (work 0x0B pailFill).word) = true ∧ s0.cxId 0 = 1 := by
  refine ⟨?_, ?_⟩
  · rintro st (rfl | rfl | rfl) <;> decide +kernel
  · decide +kernel
theorem test_command_path :
    answers (exec (.commandStart 0 0) (atStage .queued)) (fun t => (((t.core 0).cmdEntry 0).map fun e => e.stage) = some .scoreboard) = true ∧
    answers (exec (.commandStart 0 0) (atStage .scoreboard)) (fun t => (((t.core 0).cmdEntry 0).map fun e => e.stage) = some .running) = true ∧
    answers (exec (.commandStart 0 0) sixteen) (fun t => (((t.core 0).cmdEntry 0).map fun e => e.stage) = some .queued) = true ∧
    answers (exec (.commandComplete 0 0) (atStage .performed)) (fun t => ((t.core 0).cmdEntry 0).isNone && t.pail 1 3 = (s0.pail 1 3).add 7) = true ∧
    answers (exec (.commandFailure 0 0 0x24) (atStage .running)) (fun t => (((t.core 0).cmdEntry 0).map fun e => e.stage) = some (.failed 0x24) && look (t.core 0).soft 5 = some 1) = true := by
  decide +kernel

/-- A generator whose latch is behind, with a change whose tokens it and another hold; and an entry of the atlas whose new value has the
same frame and another ver. -/
def latchState : State := onCtx (onCore (workOn []) fun c => { c with fabric := { c.fabric with latches := [(256, 2), (257, 2)] } }) fun x => { x with
  epoch := 3, changes := [⟨none, 0, [(9, 0)], 3, [], [(0, 256), (0, 257)]⟩] }
def newEntry : BitVec 128 := BitVec.ofNat 128 (5 * 2 ^ 56 + 2 ^ 55 + 2 ^ 54 + 1)
theorem witness_Latches :
    look (latchState.core 0).fabric.latches 256 = some 2 ∧ 2 < (latchState.ctx (latchState.cxId 0)).epoch ∧
    (∀ r ∈ (latchState.ctx (latchState.cxId 0)).changes, r.tokens.Nodup ∧ (0, 256) ∉ latchState.tokensOf (latchState.cxId 0) r ∧ (0, 257) ∈ r.tokens) ∧
    (latchState.ctx 1).tensor 9 = some t9 ∧ 0 < t9.plates ∧ latchState.mayMap 1 (9, 0) newEntry.toNat = true ∧
    ((latchState.ctx 1).entryNow 9 0).mayBecome (AtlasEntry.of newEntry.toNat) = true ∧ ((latchState.ctx 1).entryNow 9 0).frameKey = (AtlasEntry.of newEntry.toNat).frameKey ∧ (∀ o ∈ (latchState.ctx 1).oldAtlas, o.2.1 ≤ (latchState.ctx 1).epoch) ∧
    (∀ e ∈ ((workOn []).core 0).cmds, e.stage = .running → (workOn []).failsWith 0 e 0x23 = none) ∧
    (let s := onCtx latchState fun x => { x with atlas := [((9, 0), ⟨0, 17, 6, true, true, 0⟩)], firings := [], changes := [] };
      16 < ((s.ctx 1).entryNow 9 0).res ∧ s.mayMap 1 (9, 0) newEntry.toNat = true) := by decide +kernel
theorem test_latches :
    answers (exec (.relatchToken 0 256) latchState) (fun t => (t.core 0).fabric.latches = [(256, 3), (257, 2)]) = true ∧
    answers (exec (.firmwareAtlasChange 1 9 0 newEntry) latchState)
      (fun t => (t.ctx 1).epoch = 4 && ((t.ctx 1).entryAt 9 0 3).ver = 6 && ((t.ctx 1).entryAt 9 0 4).ver = 5) = true := by decide +kernel

/-! ### Clocks, energy and heat -/

theorem leastSet_isSome (l : List RatioSet) (key : RatioSet → List Int) (h : l ≠ []) : (leastSet l key).isSome = true := by
  have step : ∀ (l : List RatioSet) (x : RatioSet), (l.foldl (fun b x => match b with
      | none => some x
      | some y => if lexLess (key x) (key y) then some x else some y) (some x)).isSome = true := by
    intro l
    induction l with
    | nil => intro x; rfl
    | cons a r ih => intro x; simp only [List.foldl]; split <;> exact ih _
  cases l with
  | nil => exact absurd rfl h
  | cons a r => exact step r a

theorem slow_set : (⟨4, 4, 4, 4⟩ : RatioSet) ∈ allSets := by
  unfold allSets upto
  simp

/-- A set within the share is found where there is one. -/
theorem chooseSet_within (c : Word) (floor share : Nat) (q : RatioSet) (h : Option Hint)
    (hs : ((allSets.filter fun s => floor ≤ s.volts).filter fun s => estOf c s ≤ share * 10000000) ≠ []) :
    ∃ g, chooseSet c floor share q h = some (g, 0) := by
  unfold chooseSet
  dsimp only
  split
  · exact ⟨_, rfl⟩
  · rename_i hn
    have hl := leastSet_isSome _ (fun s => ((s.dist q : Nat) : Int) :: (s.hintKey h ++ ((estOf c s : Nat) : Int) :: s.highFirst)) hs
    rw [hn] at hl
    cases hl

/-- The set of least estimate is found where none is within the share. -/
theorem chooseSet_beyond (c : Word) (floor share : Nat) (q : RatioSet) (h : Option Hint)
    (hs : ((allSets.filter fun s => floor ≤ s.volts).filter fun s => estOf c s ≤ share * 10000000) = [])
    (ha : (allSets.filter fun s => floor ≤ s.volts) ≠ []) : ∃ g, chooseSet c floor share q h = some (g, 2) := by
  unfold chooseSet
  dsimp only
  rw [hs]
  obtain ⟨g, hg⟩ := Option.isSome_iff_exists.mp (leastSet_isSome _ (fun s => ((estOf c s : Nat) : Int) :: s.highFirst) ha)
  exact ⟨g, by rw [hg]; rfl⟩

/-- With no coefficient every set is within any share; with one, none is within a share of zero. -/
theorem witness_ChosenSets_within (q : RatioSet) : ∃ g, chooseSet 0 580 0 q none = some (g, 0) := by
  apply chooseSet_within
  apply List.ne_nil_of_mem (a := ⟨4, 4, 4, 4⟩)
  simp only [List.mem_filter]
  exact ⟨⟨slow_set, by decide⟩, by decide⟩
theorem witness_ChosenSets_beyond (q : RatioSet) : ∃ g, chooseSet 1 580 0 q none = some (g, 2) := by
  apply chooseSet_beyond
  · rw [List.filter_eq_nil_iff]
    intro s hs
    have hm : 4 ≤ s.m := by
      have := (List.mem_filter.mp hs).1
      unfold allSets at this
      simp only [List.mem_flatMap, List.mem_map] at this
      obtain ⟨a, -, b, -, c, -, d, -, rfl⟩ := this
      simp
    have hv : 0 < s.volts ^ 2 := Nat.pow_pos (by unfold RatioSet.volts; omega)
    have : 0 < estOf 1 s := by
      unfold estOf
      refine Nat.mul_pos ?_ hv
      have : (1 : Word).toNat = 1 := rfl
      rw [this]
      omega
    simp only [decide_eq_true_eq]
    omega
  · exact List.ne_nil_of_mem (a := ⟨4, 4, 4, 4⟩) (List.mem_filter.mpr ⟨slow_set, by decide⟩)

/-- Cluster 0 at tick 50 with a change at tick 0 and its registers loaded; in a transition; with a sample due; with energy. -/
def clState (f : Cluster → Cluster) : State := s0.modCluster 0 fun c => f { c with
  timer := 50, changedAt := some 0, loaded := 15, vfloor := 600, clkdef := 0x08080808, pcoef := 0x0001000100010001 }
def clTo (mv : Nat) (set : RatioSet) : State := clState fun c => { c with target := some ⟨5, 4, 4, 4⟩, mv := mv, set := set, phaseAt := 30, firstGrant := true }
theorem witness_Clocks :
    (let c := (clState id).cluster 0;
      c.changedAt = some 0 ∧ ((clState id).partOf (0 / 8 * 2 * 32 + 0 % 8 * 4)).isSome = true ∧ c.loaded = 15 ∧ dueTick 0 ≤ c.timer ∧
      c.vfloor ≤ (RatioSet.ofWord ((clState id).clockRequest 0)).volts ∧ c.vfloor ≤ 980 ∧ c.target = none) ∧
    (let s := clState fun c => { c with vfloor := 980 }; (RatioSet.ofWord (s.clockRequest 0)).volts < (s.cluster 0).vfloor) ∧
    (∀ a : Nat × RatioSet, a = (580, ⟨4, 4, 4, 4⟩) ∨ a = (600, ⟨4, 4, 4, 4⟩) ∨ a = (605, ⟨5, 4, 4, 4⟩) →
      let c := (clTo a.1 a.2).cluster 0;
      c.target = some ⟨5, 4, 4, 4⟩ ∧ c.phaseAt + 20 ≤ c.timer ∧ c.next = none ∧ c.firstGrant = true) ∧
    580 < (⟨5, 4, 4, 4⟩ : RatioSet).volts ∧ (⟨5, 4, 4, 4⟩ : RatioSet).volts = 600 ∧
    (let c := (clState fun c => { c with sample := 25, sampledAt := 25, throttleAmp := 4 }).cluster 0; c.sample ≠ 0 ∧ c.timer % c.sample = 0 ∧ c.sampledAt ≠ c.timer ∧ c.throttleAmp ≠ 0) := by
  refine ⟨by decide +kernel, by decide +kernel, ?_, by decide +kernel, by decide +kernel, by decide +kernel⟩
  rintro a (rfl | rfl | rfl) <;> decide +kernel
theorem test_arbiter_refuses :
    answers (exec (.arbiterEvaluation 0) (clState fun c => { c with vfloor := 980 })) (fun t => (t.cluster 0).reason = 1 && (t.cluster 0).target = none &&
      look (t.core 0).chans 30 = some [0x2010029408080808]) = true := by decide +kernel
theorem test_transition_steps :
    answers (exec (.transitionStep 0) (clTo 597 ⟨4, 4, 4, 4⟩)) (fun t => (t.cluster 0).mv = 600 && (t.cluster 0).set = ⟨4, 4, 4, 4⟩) = true ∧
    answers (exec (.transitionStep 0) (clTo 600 ⟨4, 4, 4, 4⟩)) (fun t => (t.cluster 0).set = ⟨5, 4, 4, 4⟩ && (t.cluster 0).target = none && (t.cluster 0).seq = 1) = true ∧
    answers (exec (.transitionStep 0) (clTo 608 ⟨5, 4, 4, 4⟩)) (fun t => (t.cluster 0).mv = 603 && (t.cluster 0).target = some ⟨5, 4, 4, 4⟩) = true := by decide +kernel
theorem test_throttle_and_sample :
    answers (exec (.throttleStart 0) (clState fun c => { c with throttleAmp := 4 })) (fun t => (t.cluster 0).throttled) = true ∧
    answers (exec (.throttleEnd 0) (clState fun c => { c with throttled := true })) (fun t => !(t.cluster 0).throttled) = true ∧
    answers (exec (.eventSample 0) (onCore (clState fun c => { c with sample := 25 }) fun c => { c with counters := c.counters.map fun e => { e with count := 9, sampled := 2 } }))
      (fun t => ((t.core 0).counters.get 0).smp = 7 && ((t.core 0).counters.get 0).sampled = 9) = true := by decide +kernel

/-- Cluster 0 at tick 1,000 with 7 µJ and a half; class 0 of context 1 has n µJ. -/
def energyState (n : Nat) : State := onCtx (s0.modCluster 0 fun c => { c with timer := 1000, quotaRest := 7500000000000 }) fun x => { x with
  quotas := BitVec.ofNat 64 (2 ^ 63 + n) :: List.replicate 7 0 }
theorem witness_EnergyAndHeat :
    (∀ n : Nat, n = 7 ∨ n = 100 → let s := energyState n;
      (s.cluster 0).timer % 1000 = 0 ∧ (s.partOf (0 / 8 * 2 * 32 + 0 % 8 * 4)).map (fun p => p.ctx) = some (some 1) ∧ s.launchesOn 0 = [] ∧
      (s.ctx 1).quotas.length = 8 ∧ 0 ≤ quotaRem (nth (s.ctx 1).quotas 0 0) - ((s.cluster 0).quotaRest / 1000000000000 : Nat) + 2 ^ 47 ∧
      (quotaRem (nth (s.ctx 1).quotas 0 0) - ((s.cluster 0).quotaRest / 1000000000000 : Nat) ≤ 0 ↔ n = 7)) ∧
    ((s0.parts.map fun p => p.id).Nodup ∧ (∀ p ∈ s0.parts, s0.partOf (p.rect.y * 32 + p.rect.x) = some p) ∧ s0.minFlow ≤ 60 ∧ 3 < s0.minFlow) := by
  refine ⟨?_, by decide +kernel⟩
  rintro n (rfl | rfl) <;> decide +kernel
theorem test_quota_charge :
    answers (exec (.quotaCharge 0) (energyState 100)) (fun t => quotaRem (nth (t.ctx 1).quotas 0 0) = 93 && (t.cluster 0).quotaRest = 500000000000) = true ∧
    answers (exec (.quotaCharge 0) (energyState 7)) (fun t => (t.ctx 1).drained = [0]) = true := by decide +kernel
theorem test_heat :
    answers (exec (.junction95 [95]) s0) (fun t => t.cap = s0.cap - 200 && t.hot) = true ∧ answers (exec (.junction95 [91]) { s0 with hot := true }) (fun t => !t.hot) = true ∧
    answers (exec (.thermalStop [105] 9) s0) (fun t => t.halted 0 && t.notices = [.thermalStop, .thermOff]) = true := by decide +kernel

/-! ### Boot, security and the host -/

def up0 : BringUp := ⟨[], [(⟨0, 0, 4, 2⟩, 5), (⟨4, 0, 4, 2⟩, 6)], 2400, none, [], true, false, 0x88B5⟩
theorem witness_Boot :
    State.reset.boot = .off ∧ ({ s0 with boot := .verified } : State).boot = .verified ∧ partsSound up0 = true ∧ capSound up0 = true ∧
    capSound { up0 with cap := 2425 } = false ∧ (∀ e ∈ up0.spares, spareSound e.2 = true) ∧ spareSound 0x04000004 = true ∧ spareSound 5 = false ∧ up0.port0 = true ∧
    partsSound { up0 with parts := [(⟨0, 0, 4, 2⟩, 5), (⟨0, 0, 4, 2⟩, 6)] } = false ∧ ({ s0 with boot := .up } : State).boot ≠ .off ∧
    (∀ p ∈ up0.parts, ∀ k ∈ rectCores p.1, Notice.noSpare (clusterOf k) ∉ s0.notices) ∧
    bootSet (bootUnits.map fun u => ⟨u, [], [], [], 0⟩) = true ∧ bootUnits.length = 144 ∧
    ({ s0 with boot := .verified, viaIo := true } : State).boot ≠ .up := by decide +kernel
theorem witness_FinishProof (s : State) : ∃ proof, proof ≠ Config.finishProof s.spdm.key := ⟨0 :: Config.finishProof s.spdm.key, by simp⟩
def spdmState (p : Spdm) : State := { s0 with boot := .up, spdm := p }
theorem witness_Spdm :
    (spdmState ⟨true, true, true, true, [], 0⟩).boot ≠ .off ∧ (spdmState ⟨false, false, false, false, [], 0⟩).spdm.version = false := by decide +kernel
theorem test_boot :
    answers (exec .powerOnReset (s0.setBytes ⟨false, 9⟩ [1])) (fun t => t.byte ⟨false, 9⟩ = 1 && t.cores = [] && t.boot = .off) = true ∧
    answers (exec (.boot []) State.reset) (fun t => t.boot = .recovery) = true ∧
    answers (exec (.bringUp up0) { s0 with boot := .verified }) (fun t => t.parts.map (fun p => (p.rect, p.pshare)) = [(⟨0, 0, 4, 2⟩, 5), (⟨4, 0, 4, 2⟩, 6)] && t.cap = 2400) = true := by
  decide +kernel
theorem test_spdm :
    answers (exec .getVersion (spdmState ⟨false, false, false, false, [], 0⟩)) (fun t => t.spdm.version && t.notices = [.spdm 0x04 [0x13]]) = true ∧
    answers (exec (.negotiateAlgorithms true true) (spdmState ⟨false, false, false, false, [], 0⟩)) (fun t => t.notices = [.spdm 0x7F [0x04]]) = true ∧
    answers (exec .endSession (spdmState ⟨true, true, false, true, [1], 0⟩)) (fun t => !t.spdm.session && t.spdm.key = []) = true := by decide +kernel

def casReq (v : Nat) : AtomicOpReq := ⟨2, 4, 0x100, 0x55, BitVec.ofNat 64 v⟩
def hostState : State := onCore { s0.setBytes ⟨false, 0x100⟩ [7] with boot := .up, port0 := true } fun c => { c with l1 := [(⟨false, 4⟩, true), (⟨true, 2⟩, true)], mmu := [page] }
theorem witness_HostAccesses :
    hostState.boot = .up ∧ hostState.port0 = true ∧ hostState.hbm.wf = true ∧ hostState.hostMem.wf = true ∧ (casReq 7).addr + (casReq 7).bytes ≤ hbmSize ∧ hbmSize < hbmSize - 3 + 4 ∧
    (∀ e ∈ hostState.cores, hostState.cxId e.1 = 1 → ∀ p ∈ (hostState.ctx 1).pages, pageMeets p (256 * 4096) (1 * 4096) = true → e.2.storesIn p = false) ∧
    (look hostState.ctxs 1).isSome = true ∧ pageSound { pageH with va := 0x800000 } = true ∧
    hostPieceLen ⟨false, 0xFF, 0, [1, 2]⟩ 0 = 1 ∧ 1 < hostSize ⟨false, 0xFF, 0, [1, 2]⟩ ∧ hostPieceLen ⟨false, 0x100, 2, []⟩ 0 = hostSize ⟨false, 0x100, 2, []⟩ ∧
    (let r : HostAccess := ⟨false, 0xFF, 0, [1, 2]⟩;
      ({ hostState with hostWork := [(r, [1])] } : State).hostWork = (r, [1]) :: [] ∧ [(1 : Byte)].length < hostSize r ∧ [(1 : Byte)].length + hostPieceLen r 1 = hostSize r) := by decide +kernel
theorem test_host_atomics :
    answers (exec (.hostAtomicop (casReq 7)) hostState) (fun t => t.byte ⟨false, 0x100⟩ = 0x55 && t.notices = [.hostData [7, 0, 0, 0]] && look (t.core 0).l1 ⟨false, 4⟩ = none) = true ∧
    answers (exec (.hostAtomicop (casReq 8)) hostState) (fun t => t.byte ⟨false, 0x100⟩ = 7) = true ∧
    answers (exec (.hostAtomicop ⟨0, 8, 0x104, 1, 0⟩) hostState) (fun t => t.notices = [.unsupportedRequest]) = true := by decide +kernel
theorem test_host_accesses :
    answers (exec (.hostMemoryAccess ⟨false, 0xFF, 0, [1, 2]⟩) hostState) (fun t => t.bytesAt ⟨false, 0xFF⟩ 3 = [1, 7, 0] &&
      t.hostPiece.bytesAt ⟨false, 0xFF⟩ 3 = [1, 2, 0] && t.hostPiece.hostWork = []) = true ∧
    answers (exec (.hostMemoryAccess ⟨false, 0x100, 2, []⟩) hostState) (fun t => t.notices = [.hostData [7, 0]]) = true ∧
    answers (exec (.hostSnoop 2 false) hostState) (fun t => look (t.core 0).l1 ⟨true, 2⟩ = some false && t.notices = [.snoopAnswer 2 true]) = true ∧
    answers (exec (.atsInvalidation 1 256 1) hostState) (fun t => (t.ctx 1).pages = [page, pageW, pageH] && (t.core 0).mmu = [page]) = true ∧
    answers (exec (.priResponse 1 { pageH with va := 0x800000 }) { hostState with notices := [.pageRequest 1 0x800004, .pageRequest 1 4] })
      (fun t => t.notices = [.pageRequest 1 4]) = true := by decide +kernel

/-- A handler entry: ch0, rate 1, valid, its code at an address. -/
def handlerBytes (at_ : Nat) : List Byte := leBytes 8 at_ ++ leBytes 8 0 ++ leBytes 4 (2 ^ 31 + 1) ++ leBytes 12 0
def page2M : PageGrant := { page with size := 2097152 }
def params (at_ : Nat) : ContextParams :=
  ⟨2, 3, false, false, 0, 0, 0, 0x200000, 0x400000, 0, 0x20000, 0x20000, 0x30000, 0, 1, 0, List.replicate 8 0x8000000000000000, [page2M], [handlerBytes at_], [], [], 0x8000⟩
def part3 : Partition := ⟨3, ⟨0, 0, 4, 2⟩, none, false, 0, false, 0, []⟩
def freeState : State := { (State.reset.modCluster 0 fun c => { c with loaded := 15 }) with boot := .up, port0 := true, parts := [part3], ctxs := [(1, { cx1 with part := 3, saved := [⟨0, Core.reset⟩] })] }
theorem witness_FirmwareServices :
    freeState.part 3 = some part3 ∧ freeState.mayCreate (params 0x2000) part3 = true ∧ handlerFault (params 0x2000).handlers = none ∧
    tensorFault (params 0x2000).tensors = none ∧ handlerFault (params 0x2002).handlers = some (0, 0) ∧ freeState.hbm.wf = true ∧
    (∀ e ∈ freeState.ctxs, e.2.part = 3 → e.2.saved ≠ []) ∧ (∀ q ∈ freeState.parts, q.id ≠ 3 → rectsMeet q.rect ⟨4, 0, 4, 2⟩ = false) ∧
    wholeClusters ⟨4, 0, 4, 2⟩ = true ∧ freeState.notices = [] ∧ rectHas part3.rect 33 = true ∧ freeState.sparesLeft .column 33 = true ∧
    (freeState.modCore 33 fun c => { c with spare := 4 }).sparesLeft .column 33 = false ∧ (∃ e ∈ freeState.ctxs, e.2.part = 3 ∧ e.2.saved ≠ []) ∧
    (∀ l ∈ freeState.l2, l.tile.1 = 0) ∧ freeState.idlePart part3 = true ∧
    freeState.replay = none := by decide +kernel
theorem test_context_create :
    answers (exec (.contextCreate (params 0x2002)) freeState) (fun t => t.notices = [.contextRefused 2 0 0 0]) = true ∧
    answers (exec (.contextCreate (params 0x2000)) freeState) (fun t => ((t.ctx 2).handlers.map fun h => (h.entry, h.valid, h.inCh, h.rate)) = [(0x2000, true, 0, 1)] &&
      (t.ctx 2).datum.isSome && t.notices = [.contextRefused 2 2 0 0x31] && (t.core 33).msgWin = 0x30000 + 16384 * 5) = true := by decide +kernel
theorem test_partitions :
    answers (exec (.partitionChange 3 ⟨4, 0, 4, 2⟩) freeState) (fun t => t.parts.map (fun p => p.rect) = [⟨4, 0, 4, 2⟩]) = true ∧
    answers (exec (.substitution 3 .column 33 7) freeState) (fun t => t.spares = [(33, .column, 7)] && (t.core 33).spare = 1 && (t.core 32).spare = 0) = true ∧
    answers (exec (.substitution 3 .column 33 7) (freeState.modCore 33 fun c => { c with spare := 4 })) (fun t => t.notices = [.noSpare (clusterOf 33)]) = true ∧
    answers (exec (.clean 3) (freeState.modCore 33 fun c => { c with l1 := [(⟨false, 4⟩, true)], mmu := [page], bufA := [(0, 1)] }))
      (fun t => (t.core 33).l1 = [] && (t.core 33).mmu = [] && (t.core 33).bufBytes .a 0 1 = [1]) = true := by decide +kernel

/-- A request of context c on core 33, one pass, its report at 0x1000 of host memory. -/
def replayBytes (c : Nat) : List Byte := leBytes 2 c ++ [0, 0, 1, 0] ++ leBytes 2 0 ++ leBytes 8 0x8000 ++ leBytes 8 0x1000 ++ leBytes 40 0
theorem witness_MeasuredReplay :
    s0.replay = none ∧ s0.ctxPart (Replay.of (replayBytes 9)).ctx = none ∧ s0.hostMem.wf = true ∧
    (s0.ctxPart (Replay.of (replayBytes 1)).ctx).isSome = true ∧ (∀ p, s0.ctxPart 1 = some p → (Replay.of (replayBytes 1)).valid (replayBytes 1) p = true) ∧
    (Replay.of (replayBytes 1)).ctx = 1 ∧ (s0.ctx 1).launches = [] ∧ (s0.ctx 1).imm = false ∧
    (let s : State := { s0 with cores := [], ctxs := [(1, { cx1 with firings := [] })] }; s.quiet 1 ⟨0, 0, 8, 8⟩ = true ∧ (s.ctxPart 1).map (fun p => p.halt) = some false) := by
  refine ⟨by decide +kernel, by decide +kernel, by decide +kernel, by decide +kernel, ?_, by decide +kernel⟩
  intro p hp
  have : s0.ctxPart 1 = some ⟨1, ⟨0, 0, 8, 8⟩, some 1, false, 0, false, 0, []⟩ := by decide +kernel
  rw [this] at hp
  cases hp
  decide +kernel
theorem test_measured_replay :
    answers (exec (.measuredReplayRequest (replayBytes 9)) s0) (fun t => t.bytesAt ⟨true, 0x1000⟩ 4 = [1, 0, 0, 0] && t.replay.isNone) = true ∧
    answers (exec (.measuredReplayRequest (replayBytes 1)) { s0 with cores := [], ctxs := [(1, { cx1 with firings := [] })] })
      (fun t => (t.replay.map fun r => (r.k, r.stage, r.passes)) = some (32 * 0, 0, 1) && (t.ctx 1).req) = true := by decide +kernel

/-! ### Management cores: words of the RISC-V standard -/

def rvOf (ws : List Nat) : RvCore := RvCore.loadedWith (ws.flatMap (leBytes 4))
theorem test_management_words :
    rvDecode 0x00500093 = some (.alu false 0 false 1 0 (.imm 5)) ∧ rvDecode 0xF1402573 = some (.csr 2 0xF14 10 (.reg 0)) ∧
    rvDecode 0x00000073 = some .ecall ∧ rvDecode 0x02B50533 = some (.muldiv false 0 10 10 11) ∧ rvDecode 0xFE051EE3 = some (.branch 1 10 0 (-4)) ∧
    rvShort 0x0505 = some (.alu false 0 false 10 10 (.imm 1)) ∧ rvShort 0x8082 = some (.jalr 0 1 0) ∧ rvShort 0 = none := by decide +kernel
theorem test_management_core :
    (let c := (rvOf [0x00500093]).step 3; c.get 1 = 5 ∧ c.pc = 4 ∧ c.minstret = 1) ∧ ((rvOf [0xF1402573]).step 3).get 10 = 3 ∧
    (let c := { rvOf [0x00000073] with mtvec := 0x100 }.step 0; c.pc = 0x100 ∧ c.mcause = 11 ∧ c.mepc = 0 ∧ c.minstret = 0) ∧
    (({ s0 with boot := .up, managers := [(3, rvOf [0x0505])] } : State).manage1 3).manager 3 = { (rvOf [0x0505]).set 10 1 with pc := 2, mcycle := 1, minstret := 1 } ∧
    ({ s0 with boot := .off } : State).manage1 3 = { s0 with boot := .off } := by decide +kernel

/-! ### The fabric's nodes -/

/-- The parts of `AtNode`. -/
def nodeOk (s : State) (k : CoreId) (site lane op : Nat) (hs : List (Option Token)) : Bool :=
  decide (((s.core k).node site).op.toNat = op) && decide (lane < 4) && laneOn ((s.core k).node site) lane && !(s.core k).records.contains 8 &&
    ((upto 3).all fun j => (upto j).all fun i => selectOf ((s.core k).node site) i ≠ selectOf ((s.core k).node site) j || selectOf ((s.core k).node site) i = 0) &&
    decide (((s.core k).nodeState site).lanes.length = 4) && (((s.core k).nodeState site).lanes.all fun v => v.out = []) &&
    ((upto 3).all fun i => (s.core k).headAt site ((s.core k).node site) i lane = nth hs i none)

theorem at_node {s : State} {k : CoreId} {site lane op : Nat} {hs : List (Option Token)} (h : nodeOk s k site lane op hs = true) :
    AtNode s k site lane op hs := by
  simp only [nodeOk, upto, Bool.and_eq_true, decide_eq_true_eq, List.all_eq_true, List.mem_range, Bool.not_eq_true', Bool.or_eq_true] at h
  obtain ⟨⟨⟨⟨⟨⟨⟨h1, h2⟩, h3⟩, h4⟩, h5⟩, h6⟩, h7⟩, h8⟩ := h
  refine ⟨h1, ⟨h2, h3⟩, by simpa using h4, fun i j hij hj he => ?_, h6, h7, h8⟩
  rcases h5 j hj i hij with h | h
  · exact absurd he h
  · exact h

/-- A node's word at site 5: inputs from north, east and south, main to the north. -/
def nd (op p : Nat) : NodeWord := { decodeNode 0 with op := BitVec.ofNat 8 op, lanes := 1, in0 := 1, in1 := 2, in2 := 3, omain := 8, param := BitVec.ofNat 24 p }

/-- A beat of one token for lane 0. -/
def beat1 (t : Token) : Beat := beatOf [(0, t)] t.inWord

/-- Core 0 with the node at site 5 in a lane state, and tokens at its inputs; main goes to output port 0. -/
def nodeAt (w : NodeWord) (l : LaneState) (hs : List (Option Token)) : State := onCore s0 fun c => { c with
  images := [(0, { img with nodes := [(5, w)], routes := [2 * 2 ^ 60 + 5 * 2 ^ 46] })]
  fabric := { c.fabric with
    nodes := [(5, ⟨l :: List.replicate 3 LaneState.blank, SkimNode.blank⟩)]
    links := hs.zipIdx.filterMap fun h => h.1.map fun t => ((5, h.2), { Link.blank with fifo := [beat1 t] }) } }

/-- The same with the port full. -/
def fullAt (w : NodeWord) (l : LaneState) (hs : List (Option Token)) : State :=
  onCore (nodeAt w l hs) fun c => { c with fabric := { c.fabric with ports := [(0, { Link.blank with fifo := List.replicate crossDepth (beat1 .null) })] } }

/-- A lane of the node stands ready. -/
def ready (w : NodeWord) (l : LaneState) (hs : List (Option Token)) : Bool := nodeOk (nodeAt w l hs) 0 5 0 w.op.toNat hs

/-- The same with a number being received at every input. -/
def midAt (w : NodeWord) (l : LaneState) (hs : List (Option Token)) : State := onCore (nodeAt w l hs) fun c => { c with fabric := { c.fabric with
  links := c.fabric.links.map fun e => (e.1, { e.2 with current := [some (0, 0), none, none, none] }) } }

/-- A lane stands ready, and the tokens at some inputs are in the grammar. -/
def fitAt (s : State) (op : Nat) (hs : List (Option Token)) (is : List Nat) : Bool :=
  nodeOk s 0 5 0 op hs && is.all fun i => (nth hs i none).any fun t => ((s.core 0).view 5 0).fits i t

/-- The same of one lane state between items, and within a number. -/
def fresh (w : NodeWord) (l : LaneState) (hs : List (Option Token)) (is : List Nat) : Bool := fitAt (nodeAt w l hs) w.op.toNat hs is
def within (w : NodeWord) (l : LaneState) (hs : List (Option Token)) (is : List Nat) : Bool := fitAt (midAt w l hs) w.op.toNat hs is

/-- The lane after an event, tested. -/
def lane (r : Res) (f : LaneState → Bool) : Bool := answers r fun t => f (((t.core 0).nodeState 5).lane 0)

/-- What the lane sends after an event. -/
def sends (r : Res) (o : List (Nat × Token)) : Bool := lane r fun l => l.out = o

/-- The fabric's fault after an event. -/
def breaks (r : Res) (code : Nat) : Bool := answers r fun t => look (t.core 0).origins 8 = some code

def lb : LaneState := LaneState.blank
/-- Finite operands: digits, and whether the END has come. -/
def num (e : Int) (ds : List Int) (en : Bool) : Operand := ⟨0, false, e, ds, en, false⟩
/-- A step in progress on operands. -/
def busyOn (os : List Operand) : LaneState := { lb with busy := true, ops := (upto 3).map fun i => os[i]? }
def hd (e : Int) : Token := .head 0 false e

theorem witness_AtNode : AtNode (nodeAt (nd 0x01 7) lb [some (hd 0), some (hd 1)]) 0 5 0 0x01 [some (hd 0), some (hd 1)] := at_node (by decide +kernel)

/-- Every clause of `Begins`, for nodes of one, two and three operands. -/
theorem witness_Begins :
    (∀ q ∈ [(0x07, 1), (0x01, 2), (0x04, 3)], ready (nd q.1 7) lb (List.replicate q.2 (some (hd 0))) = true ∧ ready (nd q.1 7) lb (List.replicate q.2 (some .eor)) = true) ∧
    ready { nd 0x01 7 with pin := 3, sense := true } { lb with pending := some (bit true) } [some (hd 0), some .null] = true ∧
    ready { nd 0x01 7 with pin := 3, sense := true } lb [some (hd 0), some .null, some (.pred true)] = true ∧
    ready (nd 0x01 7) lb [some .eok, some .eor] = true ∧ ready (nd 0x07 7) lb [some (.digit 1)] = true ∧
    ready (nd 0x07 7) { lb with ops := [some { num 0 [] false with discard := true }, none, none] } [some (.digit 1)] = true ∧
    ready (nd 0x07 7) { lb with ops := [some { num 0 [] false with discard := true }, none, none] } [some .fin] = true := by decide +kernel
theorem test_begins :
    lane (exec (.nodeAdd 0 5 0) (nodeAt (nd 0x01 7) lb [some (hd 0), some (hd 1)])) (fun l => l.busy && l.ops = [some (num 0 [] false), some (num 1 [] false), none]) = true ∧
    sends (exec (.nodeAdd 0 5 0) (nodeAt (nd 0x01 7) lb [some (hd 0), some .null])) [(0, .null)] = true ∧
    sends (exec (.nodeAdd 0 5 0) (nodeAt (nd 0x01 7) lb [some .eok, some .eok])) [(0, .eok)] = true ∧
    breaks (exec (.nodeAdd 0 5 0) (nodeAt (nd 0x01 7) lb [some .eok, some .eor])) 0x46 = true ∧
    breaks (exec (.nodeAdd 0 5 0) (nodeAt (nd 0x01 7) lb [some (.digit 1), some .eor])) 0x43 = true := by decide +kernel

/-- A lane at work for each class of result, for each exponent range, and past the digit limit. -/
theorem witness_ArithmeticNodes :
    (∀ op ∈ [0x01, 0x07, 0x0E], ready (nd op 7) (busyOn [num 0 [1] false, num 0 [1] false, num 0 [1] false]) [] = true) ∧
    (addOp false).cls [⟨3, false, 0, [], true, false⟩, num 0 [] false] = .nan ∧ (addOp false).cls [⟨2, true, 0, [], true, false⟩, num 0 [] false] = .inf true ∧
    (addOp false).cls [⟨1, true, 0, [], true, false⟩, ⟨1, true, 0, [], true, false⟩] = .zero true ∧
    (addOp false).cls [num 0 [] false, num 0 [] false] = .digits ∧ (addOp false).eo [num 0 [] false, num 0 [] false] = some 1 ∧
    (addOp false).eo [num 511 [1, 1] false, num 0 [] true] = some 512 ∧ (addOp false).pick [num 511 [1, 1] false, num 0 [] true] 512 0 0 = some 1 ∧
    (addOp false).pick [num 511 [0, 1] false, num 0 [] true] 512 0 0 = some 0 ∧ mulOp.eo [num (-512) [1] false, num (-1) [1] false] = some (-512) ∧
    mulOp.eo [num (-512) [1] false, num (-2) [1] false] = some (-513) := by decide +kernel

/-- 06 R192: the digits of 1 0 -1 1 plus 1 1 0 -1, and the first turns of the node. -/
theorem test_add_digits :
    (upto 4).map (fun j => (addOp false).pick [num 0 [1, 0, -1, 1] true, num 0 [1, 1, 0, -1] true] 1 j 0) = [some 1, some 0, some 1, some (-1)] ∧
    sends (exec (.nodeAdd 0 5 0) (nodeAt (nd 0x01 7) (busyOn [num 0 [1, 0] false, num 0 [1, 1] false]) [])) [(0, .head 0 false 1)] = true ∧
    sends (exec (.nodeAdd 0 5 0) (nodeAt (nd 0x01 7) { busyOn [num 0 [1, 0] false, num 0 [1, 1] false] with eo := some 1 } [])) [(0, .digit 1)] = true ∧
    sends (exec (.nodeAdd 0 5 0) (nodeAt (nd 0x01 0) { busyOn [num 0 [1, 0] false, num 0 [1, 1] false] with eo := some 1, sent := [1], index := 1 } [])) [(0, .fin)] = true := by
  decide +kernel

/-- What each arithmetic node sends first for a finite operand, or a NaN. -/
theorem test_arithmetic_nodes :
    let two := busyOn [num 0 [1, 0, 0, 0, 0] true, num 0 [1, 1, 0, 0, 0] true]
    let one := busyOn [num 0 [1, 0, 0, 0, 0] true]
    let nan : LaneState := busyOn [⟨3, false, 0, [], true, false⟩]
    let neg : LaneState := { busyOn [num 0 [1] true] with eo := some 0 }
    sends (exec (.nodeSub 0 5 0) (nodeAt (nd 0x02 7) two [])) [(0, .head 0 false 1)] = true ∧
    sends (exec (.nodeMul 0 5 0) (nodeAt (nd 0x03 7) two [])) [(0, .head 0 false 1)] = true ∧
    sends (exec (.nodeMad 0 5 0) (nodeAt (nd 0x04 7) (busyOn [num 0 [1] true, num 0 [1] true, num 1 [1] true]) [])) [(0, .head 0 false 3)] = true ∧
    sends (exec (.nodeDiv 0 5 0) (nodeAt (nd 0x05 7) (busyOn [⟨3, false, 0, [], true, false⟩, num 0 [1] true]) [])) [(0, .head 3 false 0), (0, .fin)] = true ∧
    sends (exec (.nodeSqrt 0 5 0) (nodeAt (nd 0x06 7) (busyOn [num 0 [-1] true]) [])) [(0, .head 3 false 0), (0, .fin)] = true ∧
    sends (exec (.nodeNeg 0 5 0) (nodeAt (nd 0x07 7) neg [])) [(0, .digit (-1))] = true ∧
    sends (exec (.nodeAbs 0 5 0) (nodeAt (nd 0x08 7) { busyOn [num 0 [-1] true] with eo := some 0 } [])) [(0, .digit 1)] = true ∧
    sends (exec (.nodeShf 0 5 0) (nodeAt (nd 0x09 (7 + 3 * 256)) one [])) [(0, .head 0 false 3)] = true ∧
    sends (exec (.nodeMin 0 5 0) (nodeAt (nd 0x0A 7) { two with eo := some 0 } [])) [(0, .digit 1)] = true ∧
    sends (exec (.nodeMax 0 5 0) (nodeAt (nd 0x0B 7) { two with eo := some 0 } [])) [(0, .digit 1)] = true ∧
    sends (exec (.nodeExp2 0 5 0) (nodeAt (nd 0x0C 7) (busyOn [⟨2, true, 0, [], true, false⟩]) [])) [(0, .head 1 false 0), (0, .fin)] = true ∧
    sends (exec (.nodeLog2 0 5 0) (nodeAt (nd 0x0D 7) (busyOn [⟨1, false, 0, [], true, false⟩]) [])) [(0, .head 2 true 0), (0, .fin)] = true ∧
    sends (exec (.nodeRsqrt 0 5 0) (nodeAt (nd 0x0E 7) nan [])) [(0, .head 3 false 0), (0, .fin)] = true := by decide +kernel

theorem witness_ArithmeticResults :
    (let a := num 0 [1, 0, -1, 1] true; let b := num 2 [1, -1] true;
      (∀ o ∈ [a, b], o.tag = 0 ∧ o.ended = true ∧ (∀ d ∈ o.digits, -1 ≤ d ∧ d ≤ 1) ∧ (o.digits.length : Int) + (max a.e b.e - o.e) ≤ 6) ∧
      (dyGe a.value b.value = true ∨ dyGe b.value a.value = true) ∧ a.digits[2]? = some (-1)) ∧
    (∀ o : Operand, o = ⟨2, true, 0, [], true, false⟩ → o.tag = 2 ∧ o.sz = true) ∧ (⟨1, true, 0, [], true, false⟩ : Operand).zero = some true ∧
    (num 0 [0, -1] false).zero = some false ∧ (num 0 [0, -1] false).neg = some true := by
  refine ⟨by decide, ?_, by decide, by decide, by decide⟩
  rintro o rfl
  decide

/-! ### Routing, counters, controllers -/

/-- A join of inputs 0 and 1, its main to the south neighbour. -/
def joinWord : NodeWord := { nd 0x2B 0 with in2 := 0, omain := 2 }

theorem witness_RoutingNodes :
    fresh (nd 0x28 0) lb [some (hd 0)] [0] = true ∧ fresh (nd 0x28 0) { lb with turn := 1 } [none, some .null] [1] = true ∧ ready (nd 0x28 0) lb [some .eor, some .eor] = true ∧
    ready (nd 0x28 0) lb [some .eor, some .eok] = true ∧ within (nd 0x28 0) { lb with busy := true, index := 1 } [none, some .fin] [1] = true ∧
    within (nd 0x28 0) { lb with busy := true } [some (.digit 1)] [0] = true ∧ fresh (nd 0x29 0) lb [some (hd 0)] [0] = true ∧
    fresh { nd 0x29 0 with var := true } lb [some (hd 0), some (.pred false)] [0] = true ∧ fresh (nd 0x29 0) lb [some .eor] [0] = true ∧
    fresh (nd 0x29 0) lb [some (.bound 4)] [0] = true ∧ ready { nd 0x29 0 with var := true } lb [none, some .eor] = true ∧
    fresh (nd 0x2A 0) lb [some (hd 0)] [0] = true ∧ within (nd 0x2A 0) { lb with busy := true } [some .fin] [0] = true ∧
    fresh joinWord lb [some (hd 0), some .null] [0, 1] = true ∧ (let c := (nodeAt joinWord lb [some (hd 0), some .null]).core 0;
      (∀ i, i < 3 → (selectOf joinWord i ≠ 0 ↔ i < 2)) ∧ c.outRoom 5 joinWord 0 = true ∧ c.outRoom 5 joinWord 1 = true ∧
      c.outDest 5 joinWord 0 = .node 21 0 ∧ c.outDest 5 joinWord 1 = .none) ∧
    fresh (nd 0x2C (2 + 65536)) lb [some (hd 0)] [0] = true ∧ fresh (nd 0x2C 2) lb [some .eor] [0] = true ∧
    ready (nd 0x2C (2 ^ 20 + 1)) lb [] = true ∧ ready (nd 0x2D 1) lb [] = true ∧ ready (nd 0x2D (65536 + 1)) { lb with index := 1 } [] = true ∧
    ready (nd 0x2D 1) { lb with stopped := true } [] = true ∧ fresh (nd 0x2E 0) lb [some (hd 0)] [0] = true ∧ ready (nd 0x2E 0) { lb with held := [.null], order := [0] } [] = true ∧
    fresh (nd 0x2E 63) { lb with held := List.replicate 64 .null, order := List.replicate 64 0 } [some (hd 0)] [0] = true ∧
    branches (nd 0x2A 0) = [3] ∧ ((nodeAt (nd 0x2A 0) lb []).core 0).outRoom 5 (nd 0x2A 0) 3 = true ∧ ((fullAt (nd 0x2A 0) lb []).core 0).outRoom 5 (nd 0x2A 0) 3 = false ∧
    nodeOk (fullAt (nd 0x2A 0) lb [some (hd 0)]) 0 5 0 0x2A [some (hd 0)] = true ∧ fitAt (fullAt (nd 0x2A 0) lb [some (hd 0)]) 0x2A [some (hd 0)] [0] = true ∧ nodeOk (fullAt (nd 0x2C (2 ^ 20)) lb []) 0 5 0 0x2C [] = true ∧
    ((fullAt (nd 0x2C (2 ^ 20)) lb []).core 0).outRoom 5 (nd 0x2C (2 ^ 20)) 0 = false ∧ ((nodeAt (nd 0x2D 1) lb []).core 0).outRoom 5 (nd 0x2D 1) 0 = true := by
  decide +kernel
theorem test_routing_nodes :
    lane (exec (.nodeMerge 0 5 0) (nodeAt (nd 0x28 0) { lb with turn := 1 } [none, some .null])) (fun l => l.out = [(0, .null)] && l.turn = 0) = true ∧
    breaks (exec (.nodeMerge 0 5 0) (nodeAt (nd 0x28 0) lb [some .eor, some .eok])) 0x46 = true ∧
    sends (exec (.nodeSplit 0 5 0) (nodeAt { nd 0x29 0 with var := true } lb [some (hd 0), some (.pred false)])) [(2, hd 0)] = true ∧
    sends (exec (.nodeSplit 0 5 0) (nodeAt (nd 0x29 0) lb [some .eor])) [(0, .eor), (2, .eor)] = true ∧
    sends (exec (.nodeFork 0 5 0) (nodeAt { nd 0x2A 0 with omain := 12 } lb [some (hd 0)])) [(3, hd 0), (4, hd 0)] = true ∧
    sends (exec (.nodeFork 0 5 0) (fullAt (nd 0x2A 0) lb [some (hd 0)])) [] = true ∧
    breaks (exec (.nodeSplit 0 5 0) (nodeAt { nd 0x29 0 with var := true } lb [none, some .eor])) 0x43 = true ∧
    answers (exec (.nodeJoin 0 5 0) (nodeAt joinWord lb [some (hd 0), some .null])) (fun t =>
      let l := (t.cur.nodeState 5).lane 0
      l.out = [] && l.ops = [some (num 0 [] false), none, none] && (t.cur.fabric.link 21 0).wire = [beat1 (hd 0)]) = true ∧
    lane (exec (.nodePsrc 0 5 0) (nodeAt (nd 0x2C (2 + 65536)) { lb with index := 1 } [some .null])) (fun l => l.out = [(0, .pred true)] && l.index = 0) = true ∧
    sends (exec (.nodeNsrc 0 5 0) (nodeAt (nd 0x2D (65536 + 1)) { lb with index := 1 } [])) [(0, .eor)] = true ∧
    lane (exec (.nodeDly 0 5 0) (nodeAt (nd 0x2E 1) { lb with held := [.null, .eor], order := [1, 0] } [some (hd 0)]))
      (fun l => l.out = [(0, .null)] && l.held = [.eor, hd 0] && l.order = [1, 0]) = true := by
  decide +kernel

/-- A join of two inputs with a BOUND for lane 0, of one lane and of two. -/
theorem witness_JoinBounds :
    (let w := { joinWord with lanes := 3 }; let s := nodeAt w lb [some (.bound 4), some .null]; nodeOk s 0 5 0 0x2B [some (.bound 4), some .null] = true ∧
      (s.core 0).joinBounds 5 0 = [0] ∧ 1 ∈ lanesOn w ∧ (s.core 0).joinBounds 5 1 = []) ∧
    (let s := nodeAt joinWord lb [some (.bound 4), some .null]; nodeOk s 0 5 0 0x2B [some (.bound 4), some .null] = true ∧
      (∀ m ∈ lanesOn joinWord, (s.core 0).joinBounds 5 m = [0] ∧ (s.core 0).headAt 5 joinWord 0 m = some (.bound 4)) ∧
      (∀ j, j < 3 → selectOf joinWord j ≠ 0 → (s.core 0).outRoom 5 joinWord j = true) ∧ (s.core 0).outDest 5 joinWord 0 = .node 21 0 ∧
      ∀ j, j < 3 → j ≠ 0 → (s.core 0).outDest 5 joinWord j ≠ .node 21 0) := by decide +kernel
/-- A BOUND's beat has all lanes in its mask (06 R180, R190). -/
theorem test_join_bound :
    answers (exec (.nodeJoin 0 5 0) (nodeAt joinWord lb [some (.bound 4), some .null])) (fun t => (t.cur.fabric.link 21 0).wire = [⟨6, 0xF, 0, 4⟩]) = true := by
  decide +kernel

theorem witness_CountersAndControllers :
    ready (nd 0x22 3) { lb with trip := 8 } [some (.pred true)] = true ∧ ready (nd 0x22 64) { lb with trip := 1 } [] = true ∧ ready (nd 0x22 3) { lb with trip := 9 } [some (.pred true)] = true ∧
    ready (nd 0x22 3) lb [some (.pred false)] = true ∧ ready (nd 0x22 3) lb [none, some (.bound 4)] = true ∧ ready (nd 0x22 3) { lb with index := 1 } [none, some (.bound 4)] = true ∧
    (∀ op ∈ [0x23, 0x24, 0x25],
      ready (nd op 2) lb [none, none, some (.bound 4)] = true ∧ ready (nd op 2) lb [none, none, some (.bound 65537)] = true ∧ ready (nd op 2) lb [some (.pred true)] = true ∧
      ready (nd op 2) { lb with inRun := true, trip := 2 } [] = true ∧ ready (nd op 2) { lb with inRun := true, trip := 2, issued := 1 } [] = true ∧
      ready (nd op 2) { lb with inRun := true, trip := 2, issued := 2, taken := 1 } [none, some (.pred true)] = true ∧
      ready (nd op 2) { lb with inRun := true, trip := 2, issued := 2, taken := 2 } [none, some (.pred true)] = true) := by decide +kernel

/-- 06 R206's example: the last index of a count of six in three digits, then EOR and a done. -/
theorem test_cnt :
    lane (exec (.nodeCnt 0 5 0) (nodeAt (nd 0x22 3) { lb with trip := 6, index := 5 } [some (.pred true)]))
      (fun l => l.out = [(0, .head 0 false 3), (0, .digit 1), (0, .digit 0), (0, .digit 1), (0, .fin), (2, .pred true), (0, .eor), (1, .pred true)] && l.index = 0) = true ∧
    lane (exec (.nodeCnt 0 5 0) (nodeAt (nd 0x22 3) lb [none, some (.bound 4)])) (fun l => l.trip = 4) = true ∧
    breaks (exec (.nodeCnt 0 5 0) (nodeAt (nd 0x22 3) { lb with trip := 9 } [some (.pred true)])) 0x45 = true := by decide +kernel
theorem test_controllers :
    lane (exec (.nodeSeqc 0 5 0) (nodeAt (nd 0x23 2) lb [some (.pred true)])) (fun l => l.inRun && l.trip = 3) = true ∧
    sends (exec (.nodeSeqc 0 5 0) (nodeAt (nd 0x23 2) { lb with inRun := true, trip := 2, issued := 1 } [])) [] = true ∧
    sends (exec (.nodePipc 0 5 0) (nodeAt (nd 0x24 (2 + 65536)) { lb with inRun := true, trip := 2, issued := 1 } [])) [(0, .pred true)] = true ∧
    sends (exec (.nodeStrc 0 5 0) (nodeAt (nd 0x25 2) { lb with inRun := true, trip := 2, issued := 2, taken := 1 } [none, some (.pred true)])) [(2, .pred true)] = true ∧
    breaks (exec (.nodeStrc 0 5 0) (nodeAt (nd 0x25 2) { lb with inRun := true, trip := 2, issued := 2, taken := 2 } [none, some (.pred true)])) 0x45 = true := by
  decide +kernel

/-! ### Comparisons, converters, accumulators -/

theorem witness_ComparisonNodes :
    (let a := num 0 [1, 1] false; let b := num 0 [-1] false; let a' := num 0 [1, 1, 0, 1] true; let b' := num 0 [-1, 1] true;
      (a.tag ≤ 1 ∧ a'.tag = a.tag ∧ a'.e = a.e ∧ a.digits <+: a'.digits ∧ (∀ d ∈ a'.digits, -1 ≤ d ∧ d ≤ 1) ∧ (a.whole = true → a'.digits = a.digits)) ∧
      (b.tag ≤ 1 ∧ b'.tag = b.tag ∧ b'.e = b.e ∧ b.digits <+: b'.digits ∧ (∀ d ∈ b'.digits, -1 ≤ d ∧ d ≤ 1) ∧ (b.whole = true → b'.digits = b.digits)) ∧
      decidePair a (num 0 [-1, 0] false) = .sign 1 ∧ decideOne a (0, 0) = .sign 1) ∧
    ready { nd 0x10 7 with var := true } (busyOn [num 0 [1, 1] false]) [] = true ∧ decidePair ⟨3, false, 0, [], true, false⟩ (num 0 [] true) = .unordered ∧
    (∀ os ∈ [[⟨3, false, 0, [], true, false⟩, num 0 [] true], [⟨1, true, 0, [], false, false⟩, ⟨1, true, 0, [], true, false⟩]], ready (nd 0x12 7) (busyOn os) [] = true) ∧
    decidePair ⟨1, true, 0, [], false, false⟩ ⟨1, true, 0, [], true, false⟩ = .sign 0 ∧
    ready (nd 0x14 0) lb [none, some (.pred true)] = true ∧ ready (nd 0x14 0) lb [none, none, some (.pred true)] = true ∧
    (∀ op ∈ [0x10, 0x12], ready (nd op 7) (busyOn [num 0 [1, 1] false, num 0 [-1, 0] true]) [] = true ∧ ready (nd op 7) lb [some (hd 0), some .null] = true) ∧
    (∀ op ∈ [0x11, 0x13], ready (nd op 7) (busyOn [num 0 [1, 1] false]) [] = true ∧ ready (nd op 7) lb [some (hd 0)] = true) ∧
    ready (nd 0x14 0) lb [some (.pred true)] = true ∧ ready (nd 0x14 0) { lb with pending := some (bit true), left := 6 } [none, some (hd 0)] = true ∧
    ready (nd 0x14 0) { lb with pending := some (bit true), left := 4 } [none, none, some (hd 0)] = true ∧ ready (nd 0x14 0) lb [some .eor, some .eor, some .eor] = true := by
  decide +kernel
theorem test_cmp :
    sends (exec (.nodeCmp 0 5 0) (nodeAt (nd 0x10 2) (busyOn [num 0 [1, 1] false, num 0 [-1, 0] true]) [])) [(0, .pred true), (2, .pred false)] = true ∧
    sends (exec (.nodeCmp 0 5 0) (nodeAt (nd 0x10 5) (busyOn [⟨3, false, 0, [], true, false⟩, num 0 [] true]) [])) [(0, .pred true), (2, .pred false)] = true := by decide +kernel
theorem test_rect_thrk :
    sends (exec (.nodeRect 0 5 0) (nodeAt (nd 0x11 7) { busyOn [num 0 [-1] false] with eo := some 0 } [])) [(0, .fin), (2, .pred false)] = true ∧
    sends (exec (.nodeRect 0 5 0) (nodeAt (nd 0x11 7) { busyOn [num 0 [1] false] with eo := some 0 } [])) [(0, .digit 1), (2, .pred true)] = true ∧
    sends (exec (.nodeThrk 0 5 0) (nodeAt (nd 0x13 7) (busyOn [num 0 [-1, -1] false]) [])) [(0, .null), (2, .null)] = true := by decide +kernel
theorem test_maxk_sel :
    sends (exec (.nodeMaxk 0 5 0) (nodeAt (nd 0x12 7) (busyOn [num 0 [-1, 0] false, num 0 [1, 1] true]) [])) [(0, .head 0 false 0), (2, .pred true)] = true ∧
    sends (exec (.nodeSel 0 5 0) (nodeAt (nd 0x14 0) { lb with pending := some (bit true), left := 6 } [none, some (hd 0)])) [(0, hd 0)] = true ∧
    breaks (exec (.nodeSel 0 5 0) (nodeAt (nd 0x14 0) lb [none, some (.pred true)])) 0x43 = true ∧
    sends (exec (.nodeSel 0 5 0) (nodeAt (nd 0x14 0) { lb with pending := some (bit true), left := 4 } [none, none, some (hd 0)])) [] = true := by decide +kernel

theorem witness_ConverterNodes :
    (FloatFmt.of 7).isNone = true ∧ 0x85 % 2 ^ fmtBits 7 ≠ 0 ∧ ready (nd 0x18 (7 + 63 * 16)) lb [some (.word 0x85)] = true ∧
    ready (nd 0x18 7) lb [some (.word 0x100)] = true ∧ 2 ^ fmtBits 7 ≤ (0x100 : BitVec 32).toNat ∧ ((nodeAt (nd 0x18 7) lb []).core 0).skimHeld 5 0 = false ∧
    (∀ op ∈ [0x18, 0x19, 0x1A, 0x30], ready (nd op 7) lb [some .eok] = true) ∧ ready (nd 0x19 7) lb [some (hd 0)] = true ∧
    ready (nd 0x19 7) { lb with ops := [some (num 7 [1] false), none, none] } [some .fin] = true ∧ numberWord 7 0 0 (num 7 [1] true) = .word 64 [(1, .null)] 0 0 ∧
    numberWord 7 1 0 (num 9 [1] true) = .trap ∧ ready (nd 0x19 (7 + 16)) { lb with ops := [some (num 9 [1] false), none, none] } [some .fin] = true ∧
    (0 : Nat) < (((nodeAt (nd 0x19 7) lb []).core 0).nodeState 5).skim.now.length ∧ fresh (nd 0x30 0) lb [some (hd 0)] [0] = true ∧ within (nd 0x30 0) { lb with busy := true } [some .fin] [0] = true ∧ ready (nd 0x1A 1) { lb with turn := 2, left := 8, scale := 0x3C00 } [some (.word 5)] = true ∧
    ready (nd 0x1A 1) lb [some (.word 5), some (.word 0x3C00)] = true ∧ ready (nd 0x20 0) { lb with ops := [some (num 0 [1] false), none, none] } [some .fin] = true ∧
    ready (nd 0x20 0) lb [some .eok] = true ∧ ready (nd 0x20 64) lb [some .eok] = true := by decide +kernel
theorem test_w2d_d2w :
    sends (exec (.nodeW2d 0 5 0) (nodeAt (nd 0x18 (9 + 63 * 16)) lb [some (.word 0x85)]))
      ([(0, .head 0 false 8)] ++ [1, 0, 0, 0, 0, 1, 0, 1].map (fun d => (0, Token.digit d)) ++ [(0, .fin)]) = true ∧
    breaks (exec (.nodeW2d 0 5 0) (nodeAt (nd 0x18 7) lb [some (.word 0x100)])) 0x42 = true ∧
    sends (exec (.nodeD2w 0 5 0) (nodeAt (nd 0x19 7) { lb with ops := [some (num 7 [1] false), none, none] } [some .fin])) [(0, .word 64), (1, .null)] = true ∧
    breaks (exec (.nodeD2w 0 5 0) (nodeAt (nd 0x19 (7 + 16)) { lb with ops := [some (num 9 [1] false), none, none] } [some .fin])) 0x47 = true := by decide +kernel
theorem test_dqg_skc_acc :
    lane (exec (.nodeDqg 0 5 0) (nodeAt (nd 0x1A 1) lb [some (.word 5), some (.word 0x3C00)])) (fun l => l.scale = 0x3C00 && l.turn = 1) = true ∧
    sends (exec (.nodeDqg 0 5 0) (nodeAt (nd 0x1A 1) { lb with turn := 2, left := 8, scale := 0x3C00 } [some (.word 5)]))
      [(0, .head 0 false 3), (0, .digit 1), (0, .digit 0), (0, .digit 1), (0, .fin)] = true ∧
    sends (exec (.nodeSkc 0 5 0) (nodeAt (nd 0x30 0) lb [some (hd 0)])) [(0, hd 0)] = true ∧
    lane (exec (.nodeAcc 0 5 0) (nodeAt (nd 0x20 0) { lb with ops := [some (num 1 [1] false), none, none] } [some .fin])) (fun l => l.sum = .finite (2 ^ 46) (-46) (some 1)) = true ∧
    sends (exec (.nodeAcc 0 5 0) (nodeAt (nd 0x20 7) { lb with sum := .finite (2 ^ 46) (-46) (some 1) } [some .eok]))
      [(0, .head 0 false 1), (0, .digit 1), (0, .fin), (0, .eok), (2, .pred true)] = true := by decide +kernel

/-- A w2d or a dqg whose lane 0 has an EOK to send, south, with its done to the east; and with no room there. -/
def eokWord (op : Nat) : NodeWord := { nd op 7 with omain := 2, oaux := 4 }
def eokState (op : Nat) : State := nodeAt (eokWord op) { lb with out := [(0, .eok)] } []
def eokFull (op : Nat) : State := onCore (eokState op) fun c => { c with fabric := { c.fabric with links := [((6, 3), { Link.blank with fifo := List.replicate 8 (beat1 .null) })] } }
theorem witness_DoneWithEok :
    ∀ op ∈ [0x18, 0x1A], let c := (eokState op).core 0; (c.node 5).op.toNat = op ∧ laneOn (c.node 5) 0 = true ∧ 8 ∉ c.records ∧ (c.nodeState 5).lanes.length = 4 ∧
      c.skimHeld 5 0 = false ∧ (∀ n, n < 4 → n ≠ 0 → ((c.nodeState 5).lane n).out = []) ∧ c.outDest 5 (c.node 5) 0 = .node 21 0 ∧ c.outDest 5 (c.node 5) 2 = .node 6 3 ∧
      c.outRoom 5 (c.node 5) 0 = true ∧ c.outRoom 5 (c.node 5) 2 = true ∧ (∀ i, i < 3 → c.headAt 5 (c.node 5) i 0 = none) ∧
      ((eokFull op).core 0).outRoom 5 (eokWord op) 2 = false ∧ ((eokFull op).core 0).skimHeld 5 0 = false := by decide +kernel
theorem test_done_with_eok :
    answers (exec (.nodeW2d 0 5 0) (eokState 0x18)) (fun t => (t.cur.fabric.link 21 0).wire = [⟨5, 1, 0, 0⟩] && (t.cur.fabric.link 6 3).wire = [⟨7, 1, 0, 1⟩]) = true ∧
    sends (exec (.nodeW2d 0 5 0) (eokFull 0x18)) [(0, .eok)] = true := by decide +kernel

/-- A skim network: a root at site 21 below a `w2d` at 5, which has ended a tile, with its line southward. -/
def skimState (box : List (Nat × SkimCounts)) (ended : List SkimCounts) : State := onCore s0 fun c => { c with
  images := [(0, { img with
    nodes := [(5, nd 0x18 7), (21, { nd 0x31 1 with omain := 2 })], routes := [4 * 2 ^ 60 + 5 * 2 ^ 46 + 2 * 2 ^ 44, 2 * 2 ^ 60 + 3 * 2 ^ 55 + 21 * 2 ^ 46 + 2 * 2 ^ 44] })]
  fabric := { c.fabric with nodes := [(5, ⟨List.replicate 4 lb, { SkimNode.blank with ended := ended }⟩), (21, ⟨List.replicate 4 lb, { SkimNode.blank with inbox := box }⟩)] } }
theorem witness_Skim :
    (let s := skimState [(0, ⟨1, 2, 3, 4⟩)] []; let c := s.core 0;
      (c.image.map fun i => i.skimLines 21) = some [0] ∧ (look (c.nodeState 21).skim.inbox 0).isSome = true ∧ c.outRoom 21 (c.node 21) 0 = true ∧
      c.outDest 21 (c.node 21) 0 = .port 3 ∧ ((c.nodeState 21).lane 0).pending = none ∧ bitOf (c.node 21).param.toNat 0 = true) ∧
    (let s := skimState [] [⟨1, 0, 0, 0⟩]; let c := s.core 0;
      skimNode (c.node 5) = true ∧ (c.image.map fun i => ((c.skimSide 5).bind fun d => i.skimEnd 16 5 d, i.skimLines 5)) = some (some (21, 0), []) ∧
      ((c.nodeState 21).skim.inbox.filter fun x => x.1 = 0).length < 8) := by decide +kernel
theorem test_skim :
    answers (exec (.nodeSka 0 21 0) (skimState [(0, ⟨1, 2, 3, 4⟩)] [])) (fun t => (t.cur.fabric.port 3).fifo = [⟨0xA, 0xF, 0, 1 + 2 * 2 ^ 32 + 3 * 2 ^ 64 + 4 * 2 ^ 96⟩]) = true ∧
    answers (exec (.skimStatSend 0 5) (skimState [] [⟨1, 0, 0, 0⟩])) (fun t => (t.cur.nodeState 21).skim.inbox = [(0, ⟨1, 0, 0, 0⟩)] && (t.cur.nodeState 5).skim.ended = []) = true := by
  decide +kernel

/-- A `falign` of format 1 with a word beat. -/
def alignState : State := onCore (nodeAt (nd 0x1B (1 + 7 * 16)) lb []) fun c => { c with
  fabric := { c.fabric with links := [((5, 0), { Link.blank with fifo := [⟨0xA, 1, 0, 0x3F80⟩] })] } }
theorem witness_Falign :
    ((alignState.core 0).node 5).op.toNat = 0x1B ∧ 8 ∉ (alignState.core 0).records ∧ ((alignState.core 0).nodeState 5).lanes.length = 4 ∧
    (∀ v ∈ ((alignState.core 0).nodeState 5).lanes, v.out = []) ∧ (((alignState.core 0).nodeState 5).lane 0).rowEnd = none ∧
    (∀ m, m < 4 → (alignState.core 0).skimHeld 5 m = false) ∧ (((alignState.core 0).nodeState 5).lane 0).index < 8 ∧
    ((alignState.core 0).fabric.link 5 (inputSide ((alignState.core 0).node 5) 0)).fifo = [⟨0xA, 1, 0, 0x3F80⟩] ∧
    (⟨0xA, 1, 0, 0x3F80⟩ : Beat).token 0 = .word 0x3F80 ∧ (∀ n, n < 4 → n ≠ 0 → (1 : BitVec 4).getLsbD n = false) := by decide +kernel
theorem test_falign : lane (exec (.nodeFalign 0 5 0) alignState) (fun l => l.index = 1 && l.group = [some 0x3F80]) = true := by decide +kernel

/-- A closed group of one beat: 07 R227's example, e4m3 with D = 8. -/
def closedState : State := onCore (nodeAt { nd 0x1B 0x73 with lanes := 0xF } lb []) fun c => { c with fabric := { c.fabric with
  nodes := [(5, ⟨{ lb with group := [some 0x4C], index := 1, rowEnd := some .eor } :: [0xB5, 0x08, 0x14].map fun x => { lb with group := [some x] }, SkimNode.blank⟩)] } }
theorem witness_FalignSends :
    ((closedState.core 0).node 5).op.toNat = 0x1B ∧ 8 ∉ (closedState.core 0).records ∧ ((closedState.core 0).nodeState 5).lanes.length = 4 ∧
    (∀ v ∈ ((closedState.core 0).nodeState 5).lanes, v.out = []) ∧ (((closedState.core 0).nodeState 5).lane 0).rowEnd.isSome = true ∧
    (FloatFmt.of 3).isSome = true ∧ ((FloatFmt.of 3).map fun f => f.fbits) = some 3 ∧ ((FloatFmt.of 3).map fun f => unpackFl f 0x4C) = some (.fin false 12 (-1)) := by decide +kernel
theorem test_falign_example :
    answers (exec (.nodeFalign 0 5 0) closedState) (fun t =>
      let o (l : Nat) := ((t.cur.nodeState 5).lane l).out
      let n (sz : Bool) (ds : List Int) : List (Nat × Token) := (0, .head 0 sz 3) :: ds.map (fun d => (0, Token.digit d)) ++ [(0, .fin), (0, .eor)]
      o 0 = n false [1, 1, 0, 0, 0, 0, 0, 0] && o 1 = n true [0, 0, 0, -1, -1, 0, -1, 0] && o 2 = n false [0, 0, 0, 0, 0, 0, 0, 0] &&
        o 3 = n false [0, 0, 0, 0, 0, 0, 1, 0]) = true := by decide +kernel

/-- A `hacc` at site 216 is not needed: the node at 5 with the hash binding of site 5. -/
def haccAt (l : LaneState) (hs : List (Option Token)) : State := onCore (nodeAt (nd 0x21 (7 + 3 * 64)) l hs) fun c => { c with fabric := { c.fabric with hashes := [(5, (7, 4, 2))] } }
def keyVal : LaneState := { lb with ops := [some (num 3 [1, 0, 1] false), some (num 1 [1] false), none] }
theorem witness_AccumulatorNodes :
    nodeOk (haccAt lb [some (hd 0), some .null]) 0 5 0 0x21 [some (hd 0), some .null] = true ∧ ((haccAt lb []).core 0).hashOf 5 = some (7, 4, 2) ∧
    ((nodeAt (nd 0x21 7) lb [some (hd 0), some .null]).core 0).hashOf 5 = none ∧ nodeOk (haccAt lb [some .eor, some .eor]) 0 5 0 0x21 [some .eor, some .eor] = true ∧
    nodeOk (haccAt keyVal [some .fin, some .fin]) 0 5 0 0x21 [some .fin, some .fin] = true ∧ keyOf (num 3 [1, 0, 1] true) = some 5 ∧ keyOf (num 3 [-1] true) = none ∧
    (0 : Nat) < bitsOf (nd 0x21 (7 + 3 * 64)).param.toNat 17 6 + 1 ∧ 256 ≤ 320 ∧ ((arrOn [] 1 id).core 0).image.isSome = true ∧
    (((arrOn [] 1 id).core 0).node 320).op.toNat = 0x20 ∧ 8 ∉ ((arrOn [] 1 id).core 0).records := by decide +kernel
theorem test_hacc :
    lane (exec (.nodeHacc 0 5 0) (haccAt keyVal [some .fin, some .fin])) (fun l => l.stage = [(5, .finite (2 ^ 46) (-46) (some 1))] && l.updates = 1) = true ∧
    breaks (exec (.nodeHacc 0 5 0) (nodeAt (nd 0x21 7) lb [some (hd 0), some (hd 0)])) 0x48 = true ∧
    lane (exec (.nodeHacc 0 5 0) (haccAt lb [some .eor, some .eor])) (fun l => l.rowEnd = some .eor) = true ∧
    lane (exec (.haccRowCommit 0 5 0) (haccAt { lb with stage := [(5, .finite 1 0 (some 1))], rowEnd := some .eor } [])) (fun l => l.stage = [] && l.rows = 1) = true := by decide +kernel
theorem test_array_acc :
    answers (exec (.nodeAcc 0 320 0) ((arrOn [] 1 id).modCore 0 fun c => c.modLane 320 0 fun l => l.emit [(0, .eor)])) (fun t => ((t.cur.nodeState 320).lane 0).out = []) = true := by
  decide +kernel

/-- A beat on the wire to input 0 of site 5; a KILL for the number that the node at 21 sends to it. -/
def wireState (b : Beat) : State := onCore (nodeAt (nd 0x01 7) lb []) fun c => { c with fabric := { c.fabric with links := [((5, 0), { Link.blank with wire := [b] })] } }
def killState : State := onCore s0 fun c => { c with
  images := [(0, { img with nodes := [(5, { nd 0x01 7 with in0 := 3, in1 := 2, in2 := 1 }), (21, nd 0x07 7)], routes := [1 * 2 ^ 60 + 5 * 2 ^ 46 + 1 * 2 ^ 44] })]
  fabric := { c.fabric with
    nodes := [(21, ⟨{ busyOn [num 0 [1] false] with eo := some 0, outs := ⟨1, true⟩ :: List.replicate 6 ⟨0, false⟩ } :: List.replicate 3 lb, SkimNode.blank⟩)]
    links := [((5, 2), { Link.blank with kills := [1] }), ((5, 1), { Link.blank with kills := [1] })] } }
theorem witness_BeatsAndKills :
    (∀ b : Beat, b = beat1 (hd 0) ∨ b = ⟨2, 1, 0, 3⟩ → let c := (wireState b).core 0;
      8 ∉ c.records ∧ selectOf (c.node 5) 0 ≠ 0 ∧ (c.fabric.link 5 (inputSide (c.node 5) 0)).wire = [b] ∧
        (c.fabric.link 5 (inputSide (c.node 5) 0)).fifo.length < 8) ∧
    wordInput 0x01 0 = false ∧ (beat1 (hd 0)).broken (nd 0x01 7) false = none ∧ (⟨2, 1, 0, 3⟩ : Beat).broken (nd 0x01 7) false = some (0x41, 0) ∧
    (let c := killState.core 0;
      inputSide (c.node 5) 0 = 2 ∧ inputSide (c.node 5) 1 = 1 ∧ (c.fabric.link 5 2).kills = [1] ∧
      (c.image.map fun i => (i.driver 1024 5 2, i.driver 1024 5 1)) = some (.node 21 0, .port 0) ∧ (∀ m, m < 4 → (1 : BitVec 16).getLsbD m = decide (m = 0)) ∧
      c.sending 21 0 0 0 = true ∧ (c.nodeState 21).lanes.length = 4 ∧ ((c.nodeState 21).lane 0).busy = true) := by
  refine ⟨?_, by decide +kernel, by decide +kernel, by decide +kernel⟩
  rintro b (rfl | rfl) <;> decide +kernel
theorem test_beats_and_kills :
    answers (exec (.beatArrival 0 5 0) (wireState (beat1 (hd 0)))) (fun t => (t.cur.fabric.link 5 0).fifo = [beat1 (hd 0)] && (t.cur.fabric.link 5 0).wire = []) = true ∧
    breaks (exec (.beatArrival 0 5 0) (wireState ⟨2, 1, 0, 3⟩)) 0x41 = true ∧
    answers (exec (.killReceive 0 5 0) killState) (fun t => ((t.cur.nodeState 21).lane 0).out = [(0, .fin)] && !((t.cur.nodeState 21).lane 0).busy) = true := by decide +kernel

/-! ### Forms that complete -/

/-- The parts of `AtWork`. -/
def workOk (s : State) (op : Nat) (c : Cmd) (e : CmdEntry) : Bool :=
  decide (s.cur.cmds.find? (fun d => d.stage = .running && d.word.toNat = cmdWord op c) = some e) && !s.cur.unitStopped op &&
    decide ((s.cur.cmds.map fun d => d.id).Nodup) && decide (cmdOf e.word = c)

/-- States for every clause of `ArrayFibreAndHashFormsComplete` about commands; those about events are `witness_Twin`, `witness_RowTags` and
`witness_AccumulatorNodes`. -/
theorem witness_FormsComplete :
    (let e := { work 0x20 fopenCmd with attached := jval }; let s := fopenState id; let p := streamOf e;
      workOk s 0x20 fopenCmd e = true ∧ s.cur.portTurn e = true ∧ s.cur.portRoom 0 = true ∧ 8 ∉ s.cur.records ∧ p.tensor = 0 ∧ p.run = 1 ∧
        e.pos < p.indices * p.run ∧ e.pos ≤ e.count ∧ s.cur.full .a (p.ibase / 16) = true ∧ s.cur.bankOpen .a p.ibase e.cx = true ∧
        signed 32 (leNat (s.cur.bufBytes .a p.ibase 4)) = 1 ∧ fmtBits p.fmt = 32 ∧ p.vbase + 8 ≤ Buf.size .a ∧
        s.cur.bankOpen .a (p.vbase + 4) e.cx = true ∧ fopenCmd.flag 4 = false ∧ fopenCmd.flag 5 = false) ∧
    (let e := { work 0x20 fopenCmd with attached := jval, pos := 2, count := 1 };
      workOk (fopenState fun _ => e) 0x20 fopenCmd e = true ∧ e.pos = (streamOf e).indices * (streamOf e).run ∧ e.count < e.pos / (streamOf e).run) ∧
    (let e := { work 0x20 fopenCmd with attached := jval, pos := 2, count := 2 };
      workOk (fopenState fun _ => e) 0x20 fopenCmd e = true ∧ e.pos / (streamOf e).run ≤ e.count) ∧
    (let e := work 0x21 fopenCmd; let s := workOn [e]; workOk s 0x21 fopenCmd e = true ∧ s.cur.lastOnPort e.id 0 = none) ∧
    (let e := isectOn (work 0x22 isectCmd); let s := isectState isectOn; let d := Isect.of (e.attached % 2 ^ 512);
      workOk s 0x22 isectCmd e = true ∧ 1 ≤ e.pos ∧ e.pos ≤ d.rows ∧ s.cur.a32 d.aptr = 0 ∧ s.cur.a32 (d.aptr + 4) = 3 ∧ s.cur.a32 d.bptr = 0 ∧
        s.cur.a32 (d.bptr + 4) = 3 ∧ (upto 3).map (fun i => s.cur.a32 (d.acrd + 4 * i)) = [2, 5, 7] ∧
        (upto 3).map (fun i => s.cur.a32 (d.bcrd + 4 * i)) = [5, 7, 9] ∧ e.count + 3 ≤ d.cap) ∧
    (let e := work 0x23 eqCmd; let o := eqCmd.operand.toNat; workOk eqState 0x23 eqCmd e = true ∧
      ∀ i, i < bitsOf o 63 48 + 1 → eqState.cur.a32 (o % 2 ^ 19 + 4 * i) ≤ eqState.cur.a32 (o % 2 ^ 19 + 4 * (i + 1))) ∧
    (∀ f < 2, let c : Cmd := { hsetCmd with cflags := BitVec.ofNat 8 f }; let e := work 0x24 c; let s := workOn [e];
      workOk s 0x24 c e = true ∧ c.flag 0 = decide (f = 1) ∧ s.cur.oldFree e 216 = true ∧ s.cur.hashFree e 216 4 2 = true) ∧
    keyOf { num 3 [1, 0, 1] false with ended := true } = some 5 := by decide +kernel

end Sys2Proof.Tests
end

section
/-!
Encoding and decoding (00 R6, 02 R32 to R43): what each field of an encoded word reads as, and from that the round trips of scalar
words, stream commands, node words and the bytes of each.
-/
namespace Sys2Proof

/-! ## Fields of a word as a number -/

theorem fieldReg_eq_iff {n : Nat} [NeZero n] (w lo : Nat) (r : Fin n) : fieldReg n w lo = r ↔ w / 2 ^ lo % n = r.val := by
  simp only [fieldReg, Fin.ext_iff, Fin.val_ofNat]

theorem fieldBits_eq_iff {n : Nat} (w lo : Nat) (v : BitVec n) : fieldBits n w lo = v ↔ w / 2 ^ lo % 2 ^ n = v.toNat := by
  simp only [fieldBits, ← BitVec.toNat_inj, BitVec.toNat_ofNat]

theorem toNat_fieldBits (n w lo : Nat) : (fieldBits n w lo).toNat = w / 2 ^ lo % 2 ^ n := BitVec.toNat_ofNat ..

theorem decide_bit_eq_iff (w : Nat) (b : Bool) : decide (w % 2 = 1) = b ↔ w % 2 = b.toNat := by
  cases b <;> simp

theorem toNat_decide_bit (w : Nat) : (decide (w % 2 = 1)).toNat = w % 2 := ((decide_bit_eq_iff w _).1 rfl).symm

/-- A register of a file of at most 32 in a field of five bits (02 R33). -/
theorem fieldReg_of_mod_eq {n lo w : Nat} [NeZero n] (hn : n ∣ 32) (r : Fin n) (h : w / 2 ^ lo % 32 = r.val) :
    fieldReg n w lo = r := by
  rw [fieldReg_eq_iff, ← Nat.mod_mod_of_dvd _ hn, h, Nat.mod_eq_of_lt r.isLt]

/-- A field and the bits below it are the bits below the field's end. -/
theorem field_add_below (w lo n : Nat) : w / 2 ^ lo % 2 ^ n * 2 ^ lo + w % 2 ^ lo = w % 2 ^ (lo + n) := by
  rw [pow_add, Nat.mod_mul, Nat.mul_comm, Nat.add_comm]

theorem bit_add_below (w lo : Nat) : w / 2 ^ lo % 2 * 2 ^ lo + w % 2 ^ lo = w % 2 ^ (lo + 1) := field_add_below w lo 1

theorem add_div_of_lt {k v n : Nat} (h : k % n + v < n) : (k + v) / n = k / n := by
  have hn : 0 < n := by omega
  rw [← Nat.div_add_mod k n, Nat.add_assoc, Nat.mul_add_div hn, Nat.div_eq_of_lt h, Nat.mul_add_div hn, Nat.mod_div_self]

/-! ## Node words (02 R43) -/

theorem encodeNode_lt (n : NodeWord) : encodeNode n < 2 ^ 64 := by
  have hs := n.sense.toNat_le
  have hv := n.var.toNat_le
  unfold encodeNode
  omega

theorem decodeNode_encodeNode (n : NodeWord) : decodeNode (encodeNode n) = n := by
  obtain ⟨op, pin, sense, lanes, var, in0, in1, in2, omain, owhey, oaux, param⟩ := n
  have hs := sense.toNat_le
  have hv := var.toNat_le
  simp only [decodeNode, NodeWord.mk.injEq, fieldBits_eq_iff, decide_bit_eq_iff]
  simp only [encodeNode]
  refine ⟨?_, ?_, ?_, ?_, ?_, ?_, ?_, ?_, ?_, ?_, ?_, ?_⟩ <;> omega

/-- The fields lie one beside the other, so from the lowest up they add to the word. -/
theorem encodeNode_decodeNode {w : Nat} (h : w < 2 ^ 64) : encodeNode (decodeNode w) = w := by
  simp only [encodeNode, decodeNode, toNat_fieldBits, toNat_decide_bit, Nat.add_assoc, pow_zero, Nat.div_one, field_add_below,
    bit_add_below, Nat.reduceAdd]
  exact Nat.mod_eq_of_lt h

/-! ## Stream commands (02 R39, R42) -/

theorem cmdWord_opcode (op : Nat) (c : Cmd) : cmdWord op c / 2 ^ 122 = op := by
  have hp := c.p.toNat_le
  have he := c.e.toNat_le
  unfold cmdWord
  omega

theorem cmdWord_lt {op : Nat} (h : op < 64) (c : Cmd) : cmdWord op c < 2 ^ 128 := by
  have := cmdWord_opcode op c
  omega

theorem cmdFields_cmdWord (op : Nat) (c : Cmd) : cmdFields (cmdWord op c) = c := by
  obtain ⟨p, e, cflags, waitA, waitB, hA, hB, portA, portB, pail, operand⟩ := c
  have hp := p.toNat_le
  have he := e.toNat_le
  simp only [cmdFields, Cmd.mk.injEq, fieldBits_eq_iff, decide_bit_eq_iff]
  simp only [cmdWord]
  refine ⟨?_, ?_, ?_, ?_, ?_, ?_, ?_, ?_, ?_, ?_, ?_⟩ <;> omega

/-- The opcode names the command, but for the two with a form bit and the collectives, where a field of the command decides. -/
theorem decodeCommand_cmdWord {i : Instr} {op : Nat} {c : Cmd} (hwf : i.wf = true) (h : i.asCmd = some (op, c)) :
    op < 64 ∧ decodeCommand (cmdWord op c) = some i := by
  unfold decodeCommand
  rw [cmdWord_opcode, cmdFields_cmdWord]
  cases i <;> simp only [Instr.asCmd, Option.some.injEq, Prod.mk.injEq, reduceCtorEq] at h
  all_goals obtain ⟨rfl, rfl⟩ := h
  all_goals refine ⟨by decide, ?_⟩
  case hset | hsetR | lsync | lsyncD | icollBcast | icollReduce | icollAllred | icollGather => simp_all [Instr.wf]
  all_goals rfl

theorem decodeCommand_encodeCommand {i : Instr} {w : Nat} (hwf : i.wf = true) (h : encodeCommand i = some w) :
    w < 2 ^ 128 ∧ decodeCommand w = some i := by
  obtain ⟨⟨op, c⟩, hc, rfl⟩ := Option.map_eq_some_iff.1 h
  obtain ⟨hop, hd⟩ := decodeCommand_cmdWord hwf hc
  exact ⟨cmdWord_lt hop c, hd⟩

/-! ## Fields of an encoded scalar word (02 R32, R37) -/

theorem packB_eq_packA (m p o : Nat) : packB m p o = packA m (4 * p) 0 0 o := by unfold packB packA; omega

theorem packQ_eq_packA (m q h low : Nat) : packQ m q h low = packA m (2 * q) h 0 low := by unfold packQ packA; omega

theorem packA_low_add (m d a b x y : Nat) : packA m d a b (x + y) = packA (m + x) d a b y := by unfold packA; omega

/-! A field reads back where the fixed bits m and the fields beside it leave it alone, which `omega` decides for each word of the
tables; so these lemmas rewrite under `simp (disch := omega)`. Their powers are numerals as `simp` leaves them. -/

section Fields
variable {m d a b low : Nat}

theorem packA_opcode (h : m % 2 ^ 26 + 2 ^ 21 * d + 2 ^ 16 * a + 2 ^ 11 * b + low < 2 ^ 26) :
    packA m d a b low / 2 ^ 26 = m / 2 ^ 26 := by
  unfold packA; omega

@[simp] theorem dNum_packA (h : m % 2 ^ 21 + 2 ^ 16 * a + 2 ^ 11 * b + low < 2 ^ 21) (h' : m / 2 ^ 21 % 32 + d < 32) :
    dNum (packA m d a b low) = m / 2097152 % 32 + d := by
  unfold dNum packA; omega

@[simp] theorem aNum_packA (h : m % 2 ^ 21 + 2 ^ 11 * b + low < 2 ^ 16) (h' : a < 32) : aNum (packA m d a b low) = a := by
  unfold aNum packA; omega

@[simp] theorem bNum_packA (h : m % 2 ^ 16 + low < 2 ^ 11) (h' : b < 32) : bNum (packA m d a b low) = b := by
  unfold bNum packA; omega

@[simp] theorem fnOf_packA (h : m % 2 ^ 11 + low < 2 ^ 11) : fnOf (packA m d a b low) = m % 2048 + low := by
  unfold fnOf packA; omega

@[simp] theorem low16_packA (h : m % 2 ^ 16 + 2 ^ 11 * b + low < 2 ^ 16) :
    packA m d a b low % 65536 = m % 65536 + 2048 * b + low := by
  unfold packA; omega

@[simp] theorem rd_packA (r : Fin 32) (h : m % 2 ^ 26 + 2 ^ 16 * a + 2 ^ 11 * b + low < 2 ^ 21) :
    rd (packA m r a b low) = r := by
  rw [rd, fieldReg_eq_iff, packA]; omega

@[simp] theorem ra_packA (r : Fin 32) (h : m % 2 ^ 21 + 2 ^ 11 * b + low < 2 ^ 16) : ra (packA m d r b low) = r := by
  rw [ra, fieldReg_eq_iff, packA]; omega

@[simp] theorem rb_packA (r : Fin 32) (h : m % 2 ^ 16 + low < 2 ^ 11) : rb (packA m d a r low) = r := by
  rw [rb, fieldReg_eq_iff, packA]; omega

@[simp] theorem imm16_packA (v : BitVec 16) (h : m % 2 ^ 16 = 0) : imm16 (packA m d a 0 v.toNat) = v := by
  rw [imm16, fieldBits_eq_iff, packA]; omega

/-! Registers of files other than the 32, at their low bits of a field (02 R33). -/

@[simp] theorem regD_packA {n : Nat} [NeZero n] (r : Fin n) (hn : n ∣ 32) (hr : r.val < 32)
    (h : m % 2 ^ 26 + 2 ^ 16 * a + 2 ^ 11 * b + low < 2 ^ 21) : fieldReg n (packA m r a b low) 21 = r :=
  fieldReg_of_mod_eq hn r (by unfold packA; omega)

@[simp] theorem regA_packA {n : Nat} [NeZero n] (r : Fin n) (hn : n ∣ 32) (hr : r.val < 32)
    (h : m % 2 ^ 21 + 2 ^ 11 * b + low < 2 ^ 16) : fieldReg n (packA m d r b low) 16 = r :=
  fieldReg_of_mod_eq hn r (by unfold packA; omega)

@[simp] theorem regB_packA {n : Nat} [NeZero n] (r : Fin n) (hn : n ∣ 32) (hr : r.val < 32)
    (h : m % 2 ^ 16 + low < 2 ^ 11) : fieldReg n (packA m d a r low) 11 = r :=
  fieldReg_of_mod_eq hn r (by unfold packA; omega)

@[simp] theorem handle_packA (r : Fin 64) (h : m % 2 ^ 26 + low < 2 ^ 16) : fieldReg 64 (packA m 0 r 0 low) 16 = r := by
  rw [fieldReg_eq_iff, packA]; omega

@[simp] theorem regQ_packA (r : Fin 16) (h : m % 2 ^ 26 + 2 ^ 16 * a + 2 ^ 11 * b + low < 2 ^ 21) :
    fieldReg 16 (packA m (2 * r) a b low) 22 = r := by
  rw [fieldReg_eq_iff, packA]; omega

@[simp] theorem pred_packA (r : Fin 8) (h : m % 2 ^ 23 + low < 2 ^ 23) (h' : m % 2 ^ 26 / 2 ^ 23 = 0) :
    fieldReg 8 (packA m (4 * r) 0 0 low) 23 = r := by
  rw [fieldReg_eq_iff, packA]; omega

@[simp] theorem regLow_packA (r : Fin 8) (h : m % 2 ^ 3 = 0) : fieldReg 8 (packA m d a b r) 0 = r := by
  rw [fieldReg_eq_iff, packA]; omega

@[simp] theorem cmpiReg_packA (r : Fin 8) (v : BitVec 13) (h : m % 2 ^ 16 = 0) :
    fieldReg 8 (packA m d a 0 (8192 * r + v.toNat)) 13 = r := by
  rw [fieldReg_eq_iff, packA]; omega

/-! Subdivisions of what stands below the register fields (02 R37): one part, or a higher part times its weight and a lower one. -/

@[simp] theorem bitsLow_packA {n : Nat} (v : BitVec n) (h : (m + 2 ^ 21 * d + 2 ^ 16 * a + 2 ^ 11 * b) % 2 ^ n = 0) :
    fieldBits n (packA m d a b v.toNat) 0 = v := by
  have : packA m d a b v.toNat = (m + 2 ^ 21 * d + 2 ^ 16 * a + 2 ^ 11 * b) + v.toNat := rfl
  rw [fieldBits_eq_iff, pow_zero, Nat.div_one, this, Nat.add_mod, h, Nat.zero_add, Nat.mod_mod, Nat.mod_eq_of_lt v.isLt]

@[simp] theorem bitsLower_packA {n k : Nat} (x : Nat) (v : BitVec n)
    (h : (m + k * x + 2 ^ 21 * d + 2 ^ 16 * a + 2 ^ 11 * b) % 2 ^ n = 0) :
    fieldBits n (packA m d a b (k * x + v.toNat)) 0 = v := by
  rw [packA_low_add, bitsLow_packA v h]

@[simp] theorem bitsUpper_packA {n k lo : Nat} (x : BitVec n) (v : Nat) (hk : k = 2 ^ lo)
    (h : (m + 2 ^ 21 * d + 2 ^ 16 * a + 2 ^ 11 * b) / 2 ^ lo % 2 ^ n = 0)
    (h' : (m + 2 ^ 21 * d + 2 ^ 16 * a + 2 ^ 11 * b) % 2 ^ lo + v < 2 ^ lo) :
    fieldBits n (packA m d a b (k * x.toNat + v)) lo = x := by
  have : packA m d a b (k * x.toNat + v) = (m + 2 ^ 21 * d + 2 ^ 16 * a + 2 ^ 11 * b) + v + 2 ^ lo * x.toNat := by
    unfold packA; rw [hk]; omega
  generalize m + 2 ^ 21 * d + 2 ^ 16 * a + 2 ^ 11 * b = f at *
  rw [fieldBits_eq_iff, this, Nat.add_mul_div_left _ _ (Nat.two_pow_pos lo), add_div_of_lt h', Nat.add_mod, h, Nat.zero_add,
    Nat.mod_mod, Nat.mod_eq_of_lt x.isLt]

@[simp] theorem bitsTop_packA {n k lo : Nat} (x : BitVec n) (hk : k = 2 ^ lo)
    (h : (m + 2 ^ 21 * d + 2 ^ 16 * a + 2 ^ 11 * b) / 2 ^ lo % 2 ^ n = 0) :
    fieldBits n (packA m d a b (k * x.toNat)) lo = x :=
  bitsUpper_packA x 0 hk h (Nat.mod_lt _ (Nat.two_pow_pos lo))

@[simp] theorem sizeBit_packA (s : Bool) (h : m % 2 ^ 5 < 2 ^ 4) : sizeBit (packA m d a b (16 * s.toNat)) 4 = s := by
  unfold sizeBit packA
  cases s <;> simp <;> omega

@[simp] theorem sizeBitLow_packA (s : Bool) (h : m % 2 = 0) : sizeBit (packA m d a b s.toNat) 0 = s := by
  unfold sizeBit packA
  cases s <;> simp <;> omega

@[simp] theorem qualifier_packA (x : BitVec 2) (o : BitVec 12) (h : m % 2 ^ 12 = 0) :
    packA m d a 0 (16384 * x.toNat + o.toNat) / 4096 % 4 = m / 4096 % 4 := by
  unfold packA; omega

@[simp] theorem handleHigh_packA (r : Fin 64) (n : BitVec 8) (h : m % 2 ^ 26 + n.toNat < 2 ^ 16) :
    packA m 0 r 0 n.toNat / 4194304 % 16 = 0 := by
  unfold packA; omega

@[simp] theorem mod16_packA : packA m d a b (16 * low) % 16 = m % 16 := by
  unfold packA; omega

@[simp] theorem bitQ_packA (q : Fin 16) (h : m % 2 ^ 26 + 2 ^ 16 * a + low < 2 ^ 21) :
    packA m (2 * q) a 0 low / 2097152 % 2 = 0 := by
  unfold packA; omega

@[simp] theorem sense_packA (p : Fin 8) (o : BitVec 22) (h : m % 2 ^ 22 = 0) :
    packA m (4 * p) 0 0 o.toNat / 4194304 % 2 = m / 4194304 % 2 := by
  unfold packA; omega

end Fields

/-! ## What each major opcode decodes to (02 R36) -/

theorem checked_of_wf {i : Instr} (h : i.wf = true) : checked i = some i := if_pos h

section Opcodes
variable {w : Nat}

theorem decodeScalar_alu (h : w / 2 ^ 26 = 0x01) : decodeScalar w = decodeAlu w := by rw [decodeScalar, h]; rfl
theorem decodeScalar_shi (h : w / 2 ^ 26 = 0x06) : decodeScalar w = decodeShi w := by rw [decodeScalar, h]; rfl
theorem decodeScalar_addr (h : w / 2 ^ 26 = 0x08) : decodeScalar w = decodeAddr w := by rw [decodeScalar, h]; rfl
theorem decodeScalar_cmp (h : w / 2 ^ 26 = 0x09) : decodeScalar w = decodeCmp w := by rw [decodeScalar, h]; rfl
theorem decodeScalar_cmpi (h : w / 2 ^ 26 = 0x0A) : decodeScalar w = decodeCmpi w := by rw [decodeScalar, h]; rfl
theorem decodeScalar_sel (h : w / 2 ^ 26 = 0x0B) : decodeScalar w = decodeSel w := by rw [decodeScalar, h]; rfl
theorem decodeScalar_pl (h : w / 2 ^ 26 = 0x0C) : decodeScalar w = decodePl w := by rw [decodeScalar, h]; rfl
theorem decodeScalar_br (h : w / 2 ^ 26 = 0x10) : decodeScalar w = decodeBr w := by rw [decodeScalar, h]; rfl
theorem decodeScalar_call (h : w / 2 ^ 26 = 0x11) : decodeScalar w = decodeCall w := by rw [decodeScalar, h]; rfl
theorem decodeScalar_jr (h : w / 2 ^ 26 = 0x12) : decodeScalar w = decodeJr w := by rw [decodeScalar, h]; rfl
theorem decodeScalar_ldb (h : w / 2 ^ 26 = 0x28) : decodeScalar w = decodeLdb w := by rw [decodeScalar, h]; rfl
theorem decodeScalar_stb (h : w / 2 ^ 26 = 0x29) : decodeScalar w = decodeStb w := by rw [decodeScalar, h]; rfl
theorem decodeScalar_ldbx (h : w / 2 ^ 26 = 0x2B) : decodeScalar w = decodeLdbx w := by rw [decodeScalar, h]; rfl
theorem decodeScalar_stbx (h : w / 2 ^ 26 = 0x2C) : decodeScalar w = decodeStbx w := by rw [decodeScalar, h]; rfl
theorem decodeScalar_fib (h : w / 2 ^ 26 = 0x2D) : decodeScalar w = decodeFib w := by rw [decodeScalar, h]; rfl
theorem decodeScalar_jsx (h : w / 2 ^ 26 = 0x2E) : decodeScalar w = decodeJsx w := by rw [decodeScalar, h]; rfl
theorem decodeScalar_amo (h : w / 2 ^ 26 = 0x30) : decodeScalar w = decodeAmo w := by rw [decodeScalar, h]; rfl
theorem decodeScalar_amon (h : w / 2 ^ 26 = 0x31) : decodeScalar w = decodeAmon w := by rw [decodeScalar, h]; rfl
theorem decodeScalar_wait (h : w / 2 ^ 26 = 0x34) : decodeScalar w = decodeWait w := by rw [decodeScalar, h]; rfl
theorem decodeScalar_pail (h : w / 2 ^ 26 = 0x35) : decodeScalar w = decodePail w := by rw [decodeScalar, h]; rfl
theorem decodeScalar_msg (h : w / 2 ^ 26 = 0x36) : decodeScalar w = decodeMsg w := by rw [decodeScalar, h]; rfl
theorem decodeScalar_hnd (h : w / 2 ^ 26 = 0x3D) : decodeScalar w = decodeHnd w := by rw [decodeScalar, h]; rfl
theorem decodeScalar_sys (h : w / 2 ^ 26 = 0x3E) : decodeScalar w = decodeSys w := by rw [decodeScalar, h]; rfl

theorem decodeScalar_lhi (h : w / 2 ^ 26 = 0x07) :
    decodeScalar w = need (aNum w = 0) (.lhi (rd w) (imm16 w)) := by
  rw [decodeScalar, h]; rfl

theorem decodeScalar_loop (h : w / 2 ^ 26 = 0x13) :
    decodeScalar w = if dNum w = 0 then checked (.loop (ra w) (imm16 w)) else none := by
  rw [decodeScalar, h]; rfl

theorem decodeScalar_ldx (h : w / 2 ^ 26 = 0x1F) :
    decodeScalar w = if fnOf w < 64 then checked (.ldx (rd w) (ra w) (rb w) (fieldBits 3 w 3) (fieldBits 3 w 0)) else none := by
  rw [decodeScalar, h]; rfl

theorem decodeScalar_stx (h : w / 2 ^ 26 = 0x24) :
    decodeScalar w = need (fnOf w < 32) (.stx (rd w) (ra w) (rb w) (fieldBits 3 w 2) (fieldBits 2 w 0)) := by
  rw [decodeScalar, h]; rfl

theorem decodeScalar_pref (h : w / 2 ^ 26 = 0x25) :
    decodeScalar w = need (dNum w = 0) (.pref (ra w) (imm16 w)) := by
  rw [decodeScalar, h]; rfl

theorem decodeScalar_bpf (h : w / 2 ^ 26 = 0x2A) :
    decodeScalar w = if dNum w = 0 && w / 2 ^ 12 % 4 = 0 then checked (.bpf (ra w) (fieldBits 2 w 14) (fieldBits 12 w 0)) else none := by
  rw [decodeScalar, h]; rfl

theorem decodeScalar_cas (h : w / 2 ^ 26 = 0x32) :
    decodeScalar w = need (fnOf w < 2) (.cas (rd w) (ra w) (rb w) (sizeBit w 0)) := by
  rw [decodeScalar, h]; rfl

theorem decodeScalar_cmd (h : w / 2 ^ 26 = 0x38) :
    decodeScalar w = need (w % 2 ^ 22 = 0) (.cmd (fieldReg 16 w 22)) := by
  rw [decodeScalar, h]; rfl

theorem decodeScalar_cmdw (h : w / 2 ^ 26 = 0x39) :
    decodeScalar w = need (w % 2 ^ 22 = 0) (.cmdw (fieldReg 16 w 22)) := by
  rw [decodeScalar, h]; rfl

theorem decodeScalar_qld (h : w / 2 ^ 26 = 0x3A) :
    decodeScalar w = need (w / 2 ^ 21 % 2 = 0) (.qld (fieldReg 16 w 22) (ra w) (imm16 w)) := by
  rw [decodeScalar, h]; rfl

theorem decodeScalar_qst (h : w / 2 ^ 26 = 0x3B) :
    decodeScalar w = need (w / 2 ^ 21 % 2 = 0) (.qst (fieldReg 16 w 22) (ra w) (imm16 w)) := by
  rw [decodeScalar, h]; rfl

theorem decodeScalar_qins (h : w / 2 ^ 26 = 0x3C) :
    decodeScalar w = if w / 2 ^ 21 % 2 = 0 && w % 8 = 0 then checked (.qins (fieldReg 16 w 22) (ra w) (fieldBits 7 w 9) (fieldBits 6 w 3))
      else none := by
  rw [decodeScalar, h]; rfl

end Opcodes

/-! ## Words by format (02 R32) -/

/-- Format A with three registers of the 32, or with zero in place of one: it decodes by its opcode, function number and registers. -/
theorem decodeScalar_formatA {m : Nat} {d a b : Fin 32} {i : Instr} (hm : m % 2 ^ 26 < 2 ^ 11)
    (h : ∀ w, w / 2 ^ 26 = m / 2 ^ 26 → fnOf w = m % 2048 → dNum w = d → bNum w = b → rd w = d → ra w = a → rb w = b →
      decodeScalar w = some i) :
    decodeScalar (packA m d a b 0) = some i :=
  h _ (packA_opcode (by omega)) (fnOf_packA (by omega)) ((dNum_packA (by omega) (by omega)).trans (by omega))
    (bNum_packA (by omega) (by omega)) (rd_packA d (by omega)) (ra_packA a (by omega)) (rb_packA b (by omega))

/-- Format I with an undivided immediate. -/
theorem decodeScalar_formatI {m : Nat} {d a : Fin 32} {v : BitVec 16} {i : Instr} (hm : m % 2 ^ 26 = 0)
    (h : ∀ w, w / 2 ^ 26 = m / 2 ^ 26 → rd w = d → ra w = a → imm16 w = v → decodeScalar w = some i) :
    decodeScalar (packA m d a 0 v.toNat) = some i :=
  h _ (packA_opcode (by omega)) (rd_packA d (by omega)) (ra_packA a (by omega)) (imm16_packA v (by omega))

/-- The atomics: format A with a size bit above the operation (11 R307). -/
theorem decodeScalar_atomic {m : Nat} {d a b : Fin 32} {s : Bool} {i : Instr} (hm : m % 2 ^ 26 < 2 ^ 4)
    (h : ∀ w, w / 2 ^ 26 = m / 2 ^ 26 → fnOf w / 32 = 0 → fnOf w % 16 = m % 16 → dNum w = d → rd w = d → ra w = a → rb w = b →
      sizeBit w 4 = s → decodeScalar w = some i) :
    decodeScalar (packA m d a b (16 * s.toNat)) = some i := by
  have hs := s.toNat_le
  have hf : fnOf (packA m d a b (16 * s.toNat)) = m % 2048 + 16 * s.toNat := fnOf_packA (by omega)
  exact h _ (packA_opcode (by omega)) (by omega) (by omega) ((dNum_packA (by omega) (by omega)).trans (by omega))
    (rd_packA d (by omega)) (ra_packA a (by omega)) (rb_packA b (by omega)) (sizeBit_packA s (by omega))

/-! ## Scalar words -/

/-- The word of a well-formed scalar instruction decodes to it; the cases follow the major opcodes. -/
theorem decodeScalar_encodeScalar {i : Instr} {w : Nat} (hwf : i.wf = true) (h : encodeScalar i = some w) :
    decodeScalar w = some i := by
  cases i <;> cases h
  case add | sub | and | or | xor | andn | shl | shr | sra | mul | mulh | mulhu | div | divu | rem | remu | min | max | minu |
      maxu | adds | subs =>
    refine decodeScalar_formatA (by decide) fun w ho hf _ _ hd ha hb => ?_
    rw [decodeScalar_alu ho, decodeAlu, hf, hd, ha, hb]; rfl
  case clz | ctz | popc | sxtB | sxtH | sxtW | zxtB | zxtH | zxtW =>
    refine decodeScalar_formatA (b := 0) (by decide) fun w ho hf _ hn hd ha _ => ?_
    rw [decodeScalar_alu ho, decodeAlu, hf, hd, ha, hn]; rfl
  case addi | andi | ori | xori | ldB | ldBz | ldH | ldHz | ldW | ldWz | ldD | stB | stH | stW | stD =>
    refine decodeScalar_formatI rfl fun w ho hd ha hv => ?_
    rw [decodeScalar, ho, hd, ha, hv]; rfl
  case lhi =>
    rw [decodeScalar_lhi (packA_opcode (by omega))]
    simp (disch := omega) [need]
  case pref =>
    rw [decodeScalar_pref (packA_opcode (by omega))]
    simp (disch := omega) [need]
  case loop =>
    rw [decodeScalar_loop (packA_opcode (by omega))]
    simp (disch := omega) [checked_of_wf hwf]
  case shlImmediate | shrImmediate | sraImmediate =>
    rw [decodeScalar_shi (packA_opcode (by omega))]
    simp (disch := omega) [decodeShi, Nat.div_eq_of_lt, add_div_of_lt]
  case lea | lin | pk | xk =>
    rw [decodeScalar_addr (packA_opcode (by omega))]
    simp (disch := omega) [decodeAddr, need, Nat.div_eq_of_lt, add_div_of_lt] <;> omega
  case cmpEq | cmpNe | cmpLt | cmpGe | cmpLtu | cmpGeu =>
    rw [decodeScalar_cmp (packA_opcode (by omega))]
    simp (disch := omega) [decodeCmp, need]
  case cmpiEq | cmpiNe | cmpiLt | cmpiGe | cmpiLtu | cmpiGeu =>
    rw [decodeScalar_cmpi (packA_opcode (by omega))]
    simp (disch := omega) [decodeCmpi]
  case sel | selN =>
    rw [decodeScalar_sel (packA_opcode (by omega))]
    simp (disch := omega) [decodeSel, Nat.div_eq_of_lt]
  case pand | por | pxor | pandn | porn | ptog | gtop =>
    rw [decodeScalar_pl (packA_opcode (by omega))]
    simp (disch := omega) [decodePl, need]
  case brt | brn =>
    have hp := of_decide_eq_true hwf
    rw [packB_eq_packA, decodeScalar_br (packA_opcode (by omega))]
    simp (disch := omega) [decodeBr, need, hp]
  case callt | calln =>
    have hp := of_decide_eq_true hwf
    rw [packB_eq_packA, decodeScalar_call (packA_opcode (by omega))]
    simp (disch := omega) [decodeCall, need, hp]
  case br o =>
    have hp : fieldReg 8 (packA 0x40400000 0 0 0 o.toNat) 23 = 0 := pred_packA 0 (by omega) (by omega)
    have hs : packA 0x40400000 0 0 0 o.toNat / 4194304 % 2 = 1 := sense_packA 0 o rfl
    rw [decodeScalar_br (packA_opcode (by omega))]
    simp [decodeBr, hp, hs]
  case call o =>
    have hp : fieldReg 8 (packA 0x44400000 0 0 0 o.toNat) 23 = 0 := pred_packA 0 (by omega) (by omega)
    have hs : packA 0x44400000 0 0 0 o.toNat / 4194304 % 2 = 1 := sense_packA 0 o rfl
    rw [decodeScalar_call (packA_opcode (by omega))]
    simp [decodeCall, hp, hs]
  case jr | jrl =>
    rw [decodeScalar_jr (packA_opcode (by omega))]
    simp (disch := omega) [decodeJr, need]
  case done | yield | isync | phase | fence | fenceC | fenceX | ebrk | idle | hintCompute | hintMemory | hintWait => rfl
  case ldb | ldbFe | ldbPk | ldbNb =>
    rw [decodeScalar_ldb (packA_opcode (by omega))]
    simp (disch := omega) [decodeLdb, checked_of_wf hwf]
  case stb | stbFe =>
    rw [decodeScalar_stb (packA_opcode (by omega))]
    simp (disch := omega) [decodeStb, checked_of_wf hwf]
  case bpf =>
    rw [decodeScalar_bpf (packA_opcode (by omega))]
    simp (disch := omega) [checked_of_wf hwf]
  case ldbx | ldbxFe | ldbxPk | ldbxNb =>
    rw [decodeScalar_ldbx (packA_opcode (by omega))]
    simp (disch := omega) [decodeLdbx, Nat.div_eq_of_lt, add_div_of_lt, checked_of_wf hwf]
  case stbx | stbxFe =>
    rw [decodeScalar_stbx (packA_opcode (by omega))]
    simp (disch := omega) [decodeStbx, Nat.div_eq_of_lt, checked_of_wf hwf]
  case ldx =>
    rw [decodeScalar_ldx (packA_opcode (by omega)), fnOf_packA (by omega), if_pos (by omega)]
    simp (disch := omega) [checked_of_wf hwf]
  case stx =>
    rw [decodeScalar_stx (packA_opcode (by omega)), fnOf_packA (by omega)]
    simp (disch := omega) [need]
    omega
  case fibOpen | fibSet | fibAdv | fibSeek | fibEnd | fibGet | fibClose =>
    rw [decodeScalar_fib (packA_opcode (by omega))]
    simp (disch := omega) [decodeFib, need, checked_of_wf hwf]
  case jsxSet | jsxGet =>
    rw [decodeScalar_jsx (packA_opcode (by omega))]
    simp (disch := omega) [decodeJsx, need, checked_of_wf hwf]
  case amoAdd | amoAnd | amoOr | amoXor | amoMin | amoMax | amoMinu | amoMaxu | amoSwap =>
    refine decodeScalar_atomic (by decide) fun w ho hz hf _ hd ha hb hs => ?_
    rw [decodeScalar_amo ho, decodeAmo, hz, hf, hd, ha, hb, hs]; rfl
  case amoFadd =>
    refine decodeScalar_atomic (s := false) (by decide) fun w ho hz hf _ hd ha hb hs => ?_
    rw [decodeScalar_amo ho, decodeAmo, hz, hf, hd, ha, hb, hs]; rfl
  case amonAdd | amonAnd | amonOr | amonXor | amonMin | amonMax | amonMinu | amonMaxu | amonSwap =>
    refine decodeScalar_atomic (d := 0) (by decide) fun w ho hz hf hn _ ha hb hs => ?_
    rw [decodeScalar_amon ho, decodeAmon, hz, hn, hf, ha, hb, hs]; rfl
  case amonFadd =>
    refine decodeScalar_atomic (d := 0) (s := false) (by decide) fun w ho hz hf hn _ ha hb hs => ?_
    rw [decodeScalar_amon ho, decodeAmon, hz, hn, hf, ha, hb, hs]; rfl
  case cas s =>
    have hs := s.toNat_le
    rw [decodeScalar_cas (packA_opcode (by omega)), fnOf_packA (by omega)]
    simp (disch := omega) [need]
    omega
  case wait | waitLimited =>
    rw [decodeScalar_wait (packA_opcode (by omega))]
    simp (disch := omega) [decodeWait, Nat.div_eq_of_lt, checked_of_wf hwf]
  case pailArm | pailWait | pailRd =>
    rw [decodeScalar_pail (packA_opcode (by omega))]
    simp (disch := omega) [decodePail, need]
  case send | recv | pointSeq | pointHt | spawn | mask | unmask =>
    rw [decodeScalar_msg (packA_opcode (by omega))]
    simp (disch := omega) [decodeMsg, need]
  case cmd q =>
    have hz : packA 0xe0000000 (2 * q) 0 0 0 % 2 ^ 22 = 0 := by unfold packA; omega
    rw [packQ_eq_packA, decodeScalar_cmd (packA_opcode (by omega)), hz, regQ_packA q (by omega)]; rfl
  case cmdw q =>
    have hz : packA 0xe4000000 (2 * q) 0 0 0 % 2 ^ 22 = 0 := by unfold packA; omega
    rw [packQ_eq_packA, decodeScalar_cmdw (packA_opcode (by omega)), hz, regQ_packA q (by omega)]; rfl
  case qld =>
    rw [packQ_eq_packA, decodeScalar_qld (packA_opcode (by omega))]
    simp (disch := omega) [need]
  case qst =>
    rw [packQ_eq_packA, decodeScalar_qst (packA_opcode (by omega))]
    simp (disch := omega) [need]
  case qins q g l n =>
    have hz : packA 0xf0000000 (2 * q) g 0 (512 * l.toNat + 8 * n.toNat) % 8 = 0 := by unfold packA; omega
    have hn : fieldBits 6 (packA 0xf0000000 (2 * q) g 0 (512 * l.toNat + 8 * n.toNat)) 3 = n := by
      rw [fieldBits_eq_iff, packA]; omega
    rw [packQ_eq_packA, decodeScalar_qins (packA_opcode (by omega))]
    simp (disch := omega) [hz, hn, checked_of_wf hwf]
  case advC | advP | hwaitC | hwaitP =>
    rw [decodeScalar_hnd (packA_opcode (by omega))]
    simp (disch := omega) [decodeHnd, Nat.div_eq_of_lt, add_div_of_lt, checked_of_wf hwf]
  case mfsy | mtsy | trap =>
    rw [decodeScalar_sys (packA_opcode (by omega))]
    simp (disch := omega) [decodeSys, need, checked_of_wf hwf]

/-- A decoded word has a major opcode, so 32 bits hold it. -/
theorem lt_of_decodeScalar {i : Instr} {w : Nat} (h : decodeScalar w = some i) : w < 2 ^ 32 := by
  unfold decodeScalar at h
  extract_lets at h
  split at h
  on_goal -1 => cases h
  all_goals omega

/-! ## Bytes (00 R6) -/

theorem length_leBytes (n v : Nat) : (leBytes n v).length = n := by
  induction n generalizing v with
  | zero => rfl
  | succ n ih => rw [leBytes, List.length_cons, ih]

theorem leNat_leBytes (n v : Nat) : leNat (leBytes n v) = v % 256 ^ n := by
  induction n generalizing v with
  | zero => rw [pow_zero, Nat.mod_one]; rfl
  | succ n ih =>
    rw [leBytes, leNat, ih, BitVec.toNat_ofNat]
    exact (pow_succ' 256 n ▸ Nat.mod_mul).symm

theorem decode_leBytes {i : Instr} {w : Nat} (h : decodeScalar w = some i) (rest : List Byte) :
    decode (leBytes 4 w ++ rest) = .ok (i, rest) := by
  have hw : leNat (leBytes 4 w) = w := (leNat_leBytes 4 w).trans (Nat.mod_eq_of_lt (lt_of_decodeScalar h))
  have hd : decodeScalar (leNat (leBytes 4 w)) = some i := hw.symm ▸ h
  simp only [leBytes] at hd ⊢
  simp only [decode, List.cons_append, List.nil_append, hd]

theorem decodeCmdBytes_leBytes {i : Instr} {w : Nat} (hw : w < 2 ^ 128) (h : decodeCommand w = some i) :
    decodeCmdBytes (leBytes 16 w) = .ok i := by
  have hn : leNat (leBytes 16 w) = w := (leNat_leBytes 16 w).trans (Nat.mod_eq_of_lt hw)
  have hl := length_leBytes 16 w
  rw [decodeCmdBytes, if_neg (by omega), List.take_of_length_le (by omega), hn, h]

theorem decode_of_length_lt : ∀ {bs : List Byte}, bs.length < 4 → decode bs = .error .tooShort
  | [], _ | [_], _ | [_, _], _ | [_, _, _], _ => rfl
  | _ :: _ :: _ :: _ :: _, h => absurd h (by simp)

/-- Settles O41, by the round trips of commands, node words and scalar words. -/
theorem commandsNodeWordsAndBytesDecode : Obligations.CommandsNodeWordsAndBytesDecode :=
  ⟨fun _ _ hwf h => decodeCommand_encodeCommand hwf h,
   ⟨fun n => ⟨encodeNode_lt n, decodeNode_encodeNode n⟩, fun _ h => encodeNode_decodeNode h⟩,
   fun _ _ rest hwf h => decode_leBytes (decodeScalar_encodeScalar hwf h) rest,
   fun _ _ hwf h => (decodeCommand_encodeCommand hwf h).elim decodeCmdBytes_leBytes,
   fun _ h => decode_of_length_lt h⟩

end Sys2Proof
end

section
/-!
Power-on, boot, bring-up and the SPDM responder (13 R389 to R392).
-/
namespace Sys2Proof.Machine

open Sys2Proof.Safety

/-! ## Power-on (13 R389) -/

/-- With no line in a cache alone, the stacks hold what device memory reads. -/
theorem State.stacks_of_beneath_nil {s : State} (h : s.beneath = []) : s.stacks = s.hbm := by rw [State.stacks, h]; rfl

/-! ## Boot (13 R390) -/

/-- The images of a boot that verifies (13 R390): the first is that of cluster 0, there is one for every unit, and all verify. -/
def BootImages (imgs : List FirmwareImage) : Prop :=
  (imgs.head?.map fun i => i.target) = some (.management 0) ∧
    (∀ n, n < 128 → ∃ i ∈ imgs, i.target = .management n) ∧ (∀ n, n < 16 → ∃ i ∈ imgs, i.target = .baseDie n) ∧
    ∀ i ∈ imgs, imageVerifies i = true

theorem bootImages_iff (imgs : List FirmwareImage) : (bootSet imgs && imgs.all imageVerifies) = true ↔ BootImages imgs := by
  simp [bootSet, bootUnits, upto, BootImages, and_assoc]

theorem managersOf_cons (i : FirmwareImage) (imgs : List FirmwareImage) :
    managersOf (i :: imgs) = match i.target with
      | .management cl => (cl, RvCore.loadedWith i.bytes) :: managersOf imgs
      | .baseDie _ => managersOf imgs := by
  cases h : i.target <;> simp [managersOf, h]

/-- A management core that an image is for begins with the first such image. -/
theorem look_managersOf {n : Nat} : ∀ {imgs : List FirmwareImage}, (∃ i ∈ imgs, i.target = .management n) →
    ∃ i ∈ imgs, i.target = .management n ∧ look (managersOf imgs) n = some (RvCore.loadedWith i.bytes)
  | [], ⟨_, hi, _⟩ => absurd hi List.not_mem_nil
  | j :: imgs, ⟨i, hi, ht⟩ => by
    by_cases hj : j.target = .management n
    · exact ⟨j, List.mem_cons_self, hj, by rw [managersOf_cons, hj]; exact if_pos rfl⟩
    · have hmem : i ∈ imgs := (List.mem_cons.1 hi).resolve_left (by rintro rfl; exact hj ht)
      obtain ⟨a, ha, hat, hl⟩ := look_managersOf ⟨i, hmem, ht⟩
      refine ⟨a, List.mem_cons_of_mem _ ha, hat, ?_⟩
      rw [managersOf_cons, ← hl]
      split
      · next cl hcl => exact if_neg fun e => hj (hcl.trans (congrArg _ e))
      · rfl

/-- What a boot of an unbooted device does. -/
theorem exec_boot_spec (s : State) (imgs : List FirmwareImage) (hoff : s.boot = .off) :
    ∃ t, exec (.boot imgs) s = .next t ∧ t.cores = s.cores ∧ Bytes s t ∧
      (BootImages imgs → t.boot = .verified ∧ t.measured = (imgs.map fun i => shake256 i.bytes) ∧
        ∀ n, n < 128 → ∃ i ∈ imgs, i.target = .management n ∧ look t.managers n = some (RvCore.loadedWith i.bytes)) ∧
      (¬BootImages imgs → t.boot = .recovery ∧ t.managers = s.managers) := by
  refine ⟨_, if_neg (not_not.2 hoff), rfl, fun _ => rfl, fun h => ?_, fun h => ?_⟩
  · have hok := (bootImages_iff imgs).2 h
    obtain ⟨-, hman, -, hver⟩ := h
    exact ⟨if_pos hok, congrArg (List.map _) (List.takeWhile_eq_self_iff.2 hver),
      fun n hn => (congrArg (look · n) (if_pos hok)).symm ▸ look_managersOf (hman n hn)⟩
  · have hno : ¬(bootSet imgs && imgs.all imageVerifies) = true := mt (bootImages_iff imgs).1 h
    exact ⟨if_neg hno, if_neg hno⟩

/-! ## Bring-up (13 R391) -/

/-- Changing clusters one after another changes nothing but clusters. -/
theorem State.foldl_modCluster {α : Type} (n : α → Nat) (f : α → Cluster → Cluster) (l : List α) (s : State) :
    ∃ cs, l.foldl (fun t e => t.modCluster (n e) (f e)) s = { s with clusters := cs } := by
  refine List.foldlRecOn l _ (motive := fun t : State => ∃ cs, t = { s with clusters := cs }) ⟨s.clusters, rfl⟩ ?_
  rintro _ ⟨cs, rfl⟩ e -
  exact ⟨_, rfl⟩

/-- t is s but for cores, and its cores are as reset leaves them but for their spare maps (13 R381). -/
def ClearedCores (s t : State) : Prop :=
  (∃ cs, t = { s with cores := cs }) ∧ ∀ k, { t.core k with spare := Core.reset.spare } = Core.reset

theorem ClearedCores.modCore_spare {s t : State} (h : ClearedCores s t) (k : CoreId) (w : Core → Word) :
    ClearedCores s (t.modCore k fun c => { c with spare := w c }) := by
  obtain ⟨⟨cs, rfl⟩, hc⟩ := h
  refine ⟨⟨_, rfl⟩, fun j => ?_⟩
  by_cases hj : k = j
  · subst hj
    rw [State.modCore, State.core_setCore_same]
    exact hc k
  · rw [State.modCore, State.core_setCore_ne _ _ hj]
    exact hc j

theorem ClearedCores.loadSpares {s t : State} (h : ClearedCores s t) (k : CoreId) (w : Word) :
    ClearedCores s (t.loadSpares k w) :=
  List.foldlRecOn _ _ h fun _ hu j _ => hu.modCore_spare j _

theorem State.clustersOffered_of_cores {s : State} {b : BringUp}
    (h : ∀ p ∈ b.parts, ∀ k ∈ rectCores p.1, Notice.noSpare (clusterOf k) ∉ s.notices) :
    s.clustersOffered (b.parts.map fun p => p.1) = true := by
  simpa [State.clustersOffered, rectClusters] using h

/-- What a bring-up does that a verified device accepts: the clusters are loaded, the device is up with its partitions, and after
that only spare maps change. -/
theorem execBringUp_of_accepted {s : State} {b : BringUp} (hv : s.boot = .verified)
    (hsound : (partsSound b && capSound b && (b.spares.all fun e => spareSound e.2) && (b.port0 || b.port1)) = true)
    (ho : s.clustersOffered (b.parts.map fun p => p.1) = true) :
    ∃ t cs, execBringUp b s = .next t ∧ ClearedCores
      { s with clusters := cs, parts := partitionsOf b, cap := b.cap, flows := b.flows, port0 := b.port0, port1 := b.port1,
               etherType := b.ether, boot := .up } t := by
  obtain ⟨c1, h1⟩ := State.foldl_modCluster (fun l : ClusterLoad => l.cl) (fun l c => c.load l) b.clusters { s with cores := [] }
  obtain ⟨c2, h2⟩ := State.foldl_modCluster id (fun _ c => c.changed 3 true) (b.parts.flatMap fun p => rectClusters p.1)
    { s with cores := [], clusters := c1, parts := partitionsOf b, cap := b.cap, flows := b.flows, port0 := b.port0,
             port1 := b.port1, etherType := b.ether, boot := .up }
  refine ⟨_, c2, ?_, List.foldlRecOn b.spares _ ⟨⟨[], rfl⟩, fun _ => rfl⟩ fun t ht e _ => ht.loadSpares e.1 e.2⟩
  unfold execBringUp
  rw [if_neg (by simp [hv, hsound, ho])]
  simp only [h1]
  exact congrArg (fun t => Host.Outcome.next (b.spares.foldl (fun t e => t.loadSpares e.1 e.2) t)) h2

/-- What a bring-up of a verified device does that is sound, has a port and offers no cluster whose spares are exhausted. -/
theorem exec_bringUp_spec (s : State) (b : BringUp) (hv : s.boot = .verified) (hp : partsSound b = true)
    (hc : capSound b = true) (hs : ∀ e ∈ b.spares, spareSound e.2 = true) (hport : b.port0 = true ∨ b.port1 = true)
    (ho : ∀ p ∈ b.parts, ∀ k ∈ rectCores p.1, Notice.noSpare (clusterOf k) ∉ s.notices) :
    ∃ t, exec (.bringUp b) s = .next t ∧ t.boot = .up ∧ t.parts = partitionsOf b ∧ t.cap = b.cap ∧
      (∀ k, { t.core k with spare := Core.reset.spare } = Core.reset) ∧ Bytes s t := by
  have hsound : (partsSound b && capSound b && (b.spares.all fun e => spareSound e.2) && (b.port0 || b.port1)) = true := by
    simpa [hp, hc, hport] using hs
  obtain ⟨_, cs, ht, ⟨_, rfl⟩, hclear⟩ := execBringUp_of_accepted hv hsound (State.clustersOffered_of_cores ho)
  exact ⟨_, ht, rfl, rfl, rfl, hclear, fun _ => rfl⟩

/-! ## The SPDM responder (13 R392) -/

theorem State.answers_unheard {s : State} (hh : s.hears = false) (ok : Bool) (code : Nat) (body : List Byte) (f : Spdm → Spdm) :
    s.answers ok code body f = .next s := by
  rw [State.answers, hh]; rfl

theorem State.answers_ok {s : State} (hh : s.hears = true) (code : Nat) (body : List Byte) (f : Spdm → Spdm) :
    s.answers true code body f = .next { s with spdm := f s.spdm, notices := s.notices ++ [.spdm code body] } := by
  rw [State.answers, hh]; rfl

theorem State.answers_error {s : State} (hh : s.hears = true) (code : Nat) (body : List Byte) (f : Spdm → Spdm) :
    s.answers false code body f = .next { s with notices := s.notices ++ [.spdm 0x7F [0x04]] } := by
  rw [State.answers, hh]; rfl

/-- A request is heard on the sideband bus from the boot on, and over CXL.io once the device is up. -/
theorem State.hears_iff (s : State) : s.hears = true ↔ s.boot ≠ .off ∧ (s.viaIo = true → s.boot = .up) := by
  cases h : s.viaIo <;> simp [State.hears, h]

section Requests
variable {i : Instr} {s : State} {ok : Bool} {code : Nat} {body : List Byte} {f : Spdm → Spdm}

theorem exec_of_allowed (hh : s.hears = true) (h : exec i s = s.answers ok code body f) (hok : ok = true) :
    exec i s = .next { s with spdm := f s.spdm, notices := s.notices ++ [.spdm code body] } := by
  rw [h, hok, State.answers_ok hh]

/-- A request that its order allows is answered with its code and body. -/
theorem answers_of_allowed (hh : s.hears = true) (h : exec i s = s.answers ok code body f) (hok : ok = true) :
    Answers i s code body := ⟨_, exec_of_allowed hh h hok, rfl, rfl⟩

/-- A request out of its order is answered with the error. -/
theorem answers_of_refused (hh : s.hears = true) (h : exec i s = s.answers ok code body f) (hok : ok = false) :
    Answers i s 0x7F [0x04] := by
  subst hok
  exact ⟨_, h.trans (State.answers_error hh code body f), rfl, rfl⟩

end Requests

/-! Each request is an answer under its own order. -/

theorem exec_getVersion (s : State) :
    exec .getVersion s = s.answers true 0x04 [0x13] fun p => { p with version := true, algorithms := false } := rfl

theorem exec_getCapabilities (s : State) : exec .getCapabilities s = s.answers s.spdm.version 0x61 [] id := rfl

theorem exec_negotiateAlgorithms (s : State) :
    exec (.negotiateAlgorithms true true) s = s.answers s.spdm.version 0x63 [] fun p => { p with algorithms := true } := by
  change execNegotiateAlgorithms true true s = _
  rw [execNegotiateAlgorithms, Bool.and_true, Bool.and_true]

theorem exec_getDigests (s : State) :
    exec .getDigests s = s.answers s.spdm.algorithms 0x01 (shake256 Config.certificateChain) id := rfl

theorem exec_getCertificate (s : State) (o n : Nat) :
    exec (.getCertificate o n) s = s.answers s.spdm.algorithms 0x02 ((Config.certificateChain.drop o).take n) id := rfl

theorem exec_challenge (s : State) (nonce : List Byte) :
    exec (.challenge nonce) s = s.answers s.spdm.algorithms 0x03
      (s.withSignature (shake256 Config.certificateChain ++ nonce ++ shake256 s.measurements.flatten)) id := rfl

theorem exec_getMeasurements (s : State) (nonce : List Byte) :
    exec (.getMeasurements nonce) s =
      s.answers s.spdm.algorithms 0x60 (s.withSignature (s.measurements.flatten ++ nonce)) id := rfl

theorem exec_keyExchange (s : State) (share : List Byte) :
    exec (.keyExchange share) s = s.answers s.spdm.algorithms 0x64 (s.withSignature share) fun p =>
      { p with exchanging := true, session := false, key := Config.sessionKey share 0, updates := 0 } := rfl

theorem exec_keyUpdate (s : State) :
    exec .keyUpdate s = s.answers s.spdm.session 0x69 [] fun p =>
      { p with key := Config.sessionKey p.key (p.updates + 1), updates := p.updates + 1 } := rfl

theorem exec_endSession (s : State) :
    exec .endSession s = s.answers s.spdm.session 0x6C [] fun p => { p with session := false, key := [], updates := 0 } := rfl

theorem exec_unsupportedSpdmRequest (s : State) (code : Byte) :
    exec (.unsupportedSpdmRequest code) s = s.answers true 0x7F [0x07, code] id := rfl

/-- FINISH with the right proof, while a key exchange is open. -/
theorem exec_finish_ok {s : State} (hh : s.hears = true) (he : s.spdm.exchanging = true) :
    exec (.finish (Config.finishProof s.spdm.key)) s = .next { s with
      ideKeys := Config.ideKeys s.spdm.key, notices := s.notices ++ [.spdm 0x65 []]
      spdm := { s.spdm with exchanging := false, session := true } } := by
  change execFinish _ s = _
  simp only [execFinish, he, hh, decide_true, Bool.and_self, if_true]
  exact State.answers_ok (s := { s with ideKeys := Config.ideKeys s.spdm.key }) hh _ _ _

/-- FINISH with another proof is out of order. -/
theorem exec_finish_wrong (s : State) {proof : List Byte} (hp : proof ≠ Config.finishProof s.spdm.key) :
    exec (.finish proof) s = s.answers false 0x65 [] fun p => { p with exchanging := false, session := true } := by
  change execFinish proof s = _
  simp only [execFinish, hp, decide_false, Bool.and_false, Bool.false_and, Bool.false_eq_true, if_false]

/-! ## The obligation -/

/-- A request over CXL.io of a device that is not up is not heard. -/
theorem exec_unheard {s : State} (hh : s.hears = false) {i : Instr}
    (hi : i = .getVersion ∨ i = .getCapabilities ∨ i = .getDigests ∨ i = .keyUpdate ∨ i = .endSession) : exec i s = .next s := by
  rcases hi with rfl | rfl | rfl | rfl | rfl
  · rw [exec_getVersion, State.answers_unheard hh]
  · rw [exec_getCapabilities, State.answers_unheard hh]
  · rw [exec_getDigests, State.answers_unheard hh]
  · rw [exec_keyUpdate, State.answers_unheard hh]
  · rw [exec_endSession, State.answers_unheard hh]

/-- Settles O30, each clause by what its event does. -/
theorem bootAndAttestation : Obligations.BootAndAttestation := by
  refine ⟨fun s => ⟨_, rfl, rfl, State.stacks_of_beneath_nil, rfl, rfl, rfl, rfl, rfl, rfl, rfl, rfl⟩, exec_boot_spec,
    exec_bringUp_spec, fun s _ hio hup _ hi => ?_, fun s hoff hio => ?_⟩
  · exact exec_unheard (Bool.eq_false_iff.2 fun h => hup ((s.hears_iff.1 h).2 hio)) hi
  have hh : s.hears = true := s.hears_iff.2 ⟨hoff, hio⟩
  refine ⟨answers_of_allowed hh (exec_getVersion s) rfl, fun hv => ?_, fun hv => ?_, fun ha nonce share o n => ?_, fun he => ?_,
    fun _ hp => ?_, fun hs => ?_, fun code => ?_⟩
  · exact ⟨answers_of_allowed hh (exec_getCapabilities s) hv, answers_of_allowed hh (exec_negotiateAlgorithms s) hv⟩
  · exact ⟨answers_of_refused hh (exec_getCapabilities s) hv, answers_of_refused hh (exec_negotiateAlgorithms s) hv⟩
  · exact ⟨answers_of_allowed hh (exec_getDigests s) ha, answers_of_allowed hh (exec_getCertificate s o n) ha,
      ⟨_, answers_of_allowed hh (exec_challenge s nonce) ha⟩, ⟨_, answers_of_allowed hh (exec_getMeasurements s nonce) ha⟩,
      ⟨_, answers_of_allowed hh (exec_keyExchange s share) ha⟩, _, exec_of_allowed hh (exec_keyExchange s share) ha, rfl, rfl⟩
  · exact ⟨⟨_, exec_finish_ok hh he, rfl, rfl⟩, _, exec_finish_ok hh he, rfl, rfl⟩
  · exact answers_of_refused hh (exec_finish_wrong s hp) rfl
  · exact ⟨answers_of_allowed hh (exec_keyUpdate s) hs, answers_of_allowed hh (exec_endSession s) hs, _,
      exec_of_allowed hh (exec_endSession s) hs, rfl, rfl⟩
  · exact answers_of_allowed hh (exec_unsupportedSpdmRequest s code) rfl

end Sys2Proof.Machine
end

section
/-!
Words accepted by the decoder (02 R34): each is the one encoding of the instruction that it decodes to, and that instruction is
well formed.
-/
namespace Sys2Proof

/-! ## Answers of a decoder that read back -/

/-- What a decoder answers for w: no instruction, or a well-formed one whose word is w. -/
def ReadsBack (w : Nat) (o : Option Instr) : Prop := ∀ i, o = some i → i.wf = true ∧ encodeScalar i = some w

section Answers
variable {w : Nat} {c : Bool} {i : Instr}

theorem readsBack_none : ReadsBack w none := nofun

theorem readsBack_some {n : Nat} (hwf : i.wf = true) (he : encodeScalar i = some n) (hn : n = w) : ReadsBack w (some i) := by
  rintro j ⟨⟩
  exact ⟨hwf, he.trans (congrArg some hn)⟩

theorem readsBack_need {n : Nat} (hwf : c = true → i.wf = true) (he : encodeScalar i = some n) (hn : c = true → n = w) :
    ReadsBack w (need c i) := by
  cases c
  · exact readsBack_none
  · exact readsBack_some (hwf rfl) he (hn rfl)

theorem readsBack_checked {n : Nat} (he : encodeScalar i = some n) (hn : i.wf = true → n = w) : ReadsBack w (checked i) :=
  readsBack_need id he hn

theorem readsBack_unless {p : Prop} [Decidable p] {o : Option Instr} (h : ¬p → ReadsBack w o) :
    ReadsBack w (if p then none else o) := by
  split
  · exact readsBack_none
  · exact h ‹_›

theorem readsBack_when {p : Prop} [Decidable p] {o : Option Instr} (h : p → ReadsBack w o) :
    ReadsBack w (if p then o else none) := by
  split
  · exact h ‹_›
  · exact readsBack_none

end Answers

/-! ## Words rebuilt from what was read of them (02 R32) -/

theorem toNat_sizeBit (w lo : Nat) : (sizeBit w lo).toNat = w / 2 ^ lo % 2 := toNat_decide_bit _

theorem sizeBit_clear {w lo : Nat} (h : (!sizeBit w lo) = true) : w / 2 ^ lo % 2 = 0 := by
  rw [← toNat_sizeBit, (Bool.not_eq_true' _).mp h, Bool.toNat_false]

theorem toNat_fieldBits_zero (n w : Nat) : (fieldBits n w 0).toNat = w % 2 ^ n := by
  rw [toNat_fieldBits, pow_zero, Nat.div_one]

theorem toNat_imm16 (w : Nat) : (imm16 w).toNat = w % 2 ^ 16 := toNat_fieldBits_zero 16 w

theorem val_fieldReg (n : Nat) [NeZero n] (w lo : Nat) : (fieldReg n w lo).val = w / 2 ^ lo % n := rfl

theorem val_fieldReg_zero (n : Nat) [NeZero n] (w : Nat) : (fieldReg n w 0).val = w % n := by
  rw [val_fieldReg, pow_zero, Nat.div_one]

section Rebuilt
variable {m d a b low w n : Nat}

/-- A register of a file of n, where field d holds no more than its number (02 R33). -/
theorem val_regD [NeZero n] (hn : n ∣ 32) (h : dNum w < n) : dNum w = (fieldReg n w 21).val :=
  (Nat.mod_eq_of_lt h).symm.trans (Nat.mod_mod_of_dvd _ hn)

theorem val_regA [NeZero n] (hn : n ∣ 32) (h : aNum w < n) : aNum w = (fieldReg n w 16).val :=
  (Nat.mod_eq_of_lt h).symm.trans (Nat.mod_mod_of_dvd _ hn)

theorem val_regB [NeZero n] (hn : n ∣ 32) (h : bNum w < n) : bNum w = (fieldReg n w 11).val :=
  (Nat.mod_eq_of_lt h).symm.trans (Nat.mod_mod_of_dvd _ hn)

/-- Format A: the fields d, a, b, and the function number with what it holds. -/
theorem packA_eq (hd : dNum w = d) (ha : aNum w = a) (hb : bNum w = b) (h : m + low = w / 2 ^ 26 * 2 ^ 26 + w % 2 ^ 11) :
    packA m d a b low = w := by
  subst hd ha hb
  unfold packA dNum aNum bNum
  omega

/-- Format I: the fields d and a, and the low 16 bits. -/
theorem packI_eq (hd : dNum w = d) (ha : aNum w = a) (h : m + low = w / 2 ^ 26 * 2 ^ 26 + w % 2 ^ 16) :
    packA m d a 0 low = w := by
  subst hd ha
  unfold packA dNum aNum
  omega

/-- Format I with fixed bits in field d. -/
theorem packI_fixed_eq (ha : aNum w = a) (h : m + low = w / 2 ^ 26 * 2 ^ 26 + dNum w * 2 ^ 21 + w % 2 ^ 16) :
    packA m 0 a 0 low = w := by
  subst ha
  unfold dNum at h
  unfold packA aNum
  omega

/-- Format B: pred above the sense and the offset. -/
theorem packB_eq (h : m = w / 2 ^ 26 * 2 ^ 26 + w / 2 ^ 22 % 2 * 2 ^ 22) :
    packB m (fieldReg 8 w 23).val (fieldBits 22 w 0).toNat = w := by
  rw [toNat_fieldBits_zero, val_fieldReg]
  unfold packB
  omega

/-- Format Q: the command register above a bit that is zero. -/
theorem packQ_eq (hz : w / 2 ^ 21 % 2 = 0) (ha : aNum w = a) (h : m + low = w / 2 ^ 26 * 2 ^ 26 + w % 2 ^ 16) :
    packQ m (fieldReg 16 w 22).val a low = w := by
  subst ha
  rw [val_fieldReg]
  unfold packQ aNum
  omega

end Rebuilt

/-! ## Each decoder (02 R36) -/

section Decoders
variable {w : Nat}

theorem readsBack_decodeAlu (ho : w / 2 ^ 26 = 0x01) : ReadsBack w (decodeAlu w) := by
  simp only [decodeAlu, fnOf]
  split
  case h_32 => exact readsBack_none
  case h_23 | h_24 | h_25 | h_26 | h_27 | h_28 | h_29 | h_30 | h_31 =>
    exact readsBack_need (fun _ => rfl) rfl fun hb => packA_eq rfl rfl (of_decide_eq_true hb) (by omega)
  all_goals exact readsBack_some rfl rfl (packA_eq rfl rfl rfl (by omega))

theorem readsBack_decodeShi (ho : w / 2 ^ 26 = 0x06) : ReadsBack w (decodeShi w) := by
  simp only [decodeShi]
  split
  case h_4 => exact readsBack_none
  all_goals exact readsBack_some rfl rfl (packI_eq rfl rfl (by rw [toNat_fieldBits_zero]; omega))

theorem readsBack_decodeAddr (ho : w / 2 ^ 26 = 0x08) : ReadsBack w (decodeAddr w) := by
  simp only [decodeAddr, fnOf]
  split
  case h_1 | h_3 =>
    refine readsBack_need (fun _ => rfl) rfl fun hf => packA_eq rfl rfl rfl ?_
    have hf := of_decide_eq_true hf
    rw [toNat_fieldBits_zero]
    omega
  case h_2 =>
    refine readsBack_need (fun _ => rfl) rfl fun hf => packA_eq rfl rfl rfl ?_
    have hf := of_decide_eq_true hf
    omega
  case h_4 =>
    refine readsBack_need (fun _ => rfl) rfl fun h => ?_
    obtain ⟨hf, hb⟩ := (Bool.and_eq_true_iff.trans (and_congr decide_eq_true_iff decide_eq_true_iff)).1 h
    refine packA_eq rfl rfl hb ?_
    rw [toNat_fieldBits_zero]
    omega
  case h_5 => exact readsBack_none

theorem readsBack_decodeCmp (ho : w / 2 ^ 26 = 0x09) : ReadsBack w (decodeCmp w) := by
  simp only [decodeCmp, fnOf]
  split
  case h_7 => exact readsBack_none
  all_goals
    exact readsBack_need (fun _ => rfl) rfl fun hd => packA_eq (val_regD (by decide) (of_decide_eq_true hd)) rfl rfl (by omega)

theorem readsBack_decodeCmpi (ho : w / 2 ^ 26 = 0x0A) : ReadsBack w (decodeCmpi w) := by
  simp only [decodeCmpi]
  split
  case h_7 => exact readsBack_none
  all_goals exact readsBack_some rfl rfl (packI_fixed_eq rfl (by rw [toNat_fieldBits_zero, val_fieldReg]; omega))

theorem readsBack_decodeSel (ho : w / 2 ^ 26 = 0x0B) : ReadsBack w (decodeSel w) := by
  simp only [decodeSel, fnOf]
  split
  case h_3 => exact readsBack_none
  all_goals exact readsBack_some rfl rfl (packA_eq rfl rfl rfl (by rw [val_fieldReg_zero]; omega))

theorem readsBack_decodePl (ho : w / 2 ^ 26 = 0x0C) : ReadsBack w (decodePl w) := by
  simp only [decodePl, fnOf]
  split
  case h_6 =>
    refine readsBack_need (fun _ => rfl) rfl fun h => ?_
    simp only [Bool.and_eq_true, decide_eq_true_eq] at h
    exact packA_eq rfl h.1 h.2 (by omega)
  case h_7 =>
    refine readsBack_need (fun _ => rfl) rfl fun h => ?_
    simp only [Bool.and_eq_true, decide_eq_true_eq] at h
    exact packA_eq h.1 rfl h.2 (by omega)
  case h_8 => exact readsBack_none
  all_goals
    refine readsBack_need (fun _ => rfl) rfl fun h => ?_
    simp only [Bool.and_eq_true, decide_eq_true_eq] at h
    obtain ⟨⟨hd, ha⟩, hb⟩ := h
    exact packA_eq (val_regD (by decide) hd) (val_regA (by decide) ha) (val_regB (by decide) hb) (by omega)

/-- A branch or call with sense 1 on p0, which the format of `br` and `call` writes without a predicate. -/
theorem packA_of_p0 {m : Nat} (hp : fieldReg 8 w 23 = 0) (h : m = w / 2 ^ 26 * 2 ^ 26 + w / 2 ^ 22 % 2 * 2 ^ 22) :
    packA m 0 0 0 (fieldBits 22 w 0).toNat = w := by
  have hp : (fieldReg 8 w 23).val = 0 := congrArg Fin.val hp
  rw [val_fieldReg] at hp
  rw [toNat_fieldBits_zero]
  unfold packA
  omega

theorem readsBack_decodeBr (ho : w / 2 ^ 26 = 0x10) : ReadsBack w (decodeBr w) := by
  simp only [decodeBr]
  split
  · split
    · exact readsBack_some rfl rfl (packA_of_p0 ‹_› (by omega))
    · exact readsBack_some (decide_eq_true ‹_›) rfl (packB_eq (by omega))
  · exact readsBack_need id rfl fun _ => packB_eq (by omega)

theorem readsBack_decodeCall (ho : w / 2 ^ 26 = 0x11) : ReadsBack w (decodeCall w) := by
  simp only [decodeCall]
  split
  · split
    · exact readsBack_some rfl rfl (packA_of_p0 ‹_› (by omega))
    · exact readsBack_some (decide_eq_true ‹_›) rfl (packB_eq (by omega))
  · exact readsBack_need id rfl fun _ => packB_eq (by omega)

theorem readsBack_decodeJr (ho : w / 2 ^ 26 = 0x12) : ReadsBack w (decodeJr w) := by
  simp only [decodeJr, fnOf]
  split
  case h_1 =>
    refine readsBack_need (fun _ => rfl) rfl fun h => ?_
    simp only [Bool.and_eq_true, decide_eq_true_eq] at h
    exact packA_eq h.1 rfl h.2 (by omega)
  case h_2 => exact readsBack_need (fun _ => rfl) rfl fun hb => packA_eq rfl rfl (of_decide_eq_true hb) (by omega)
  case h_3 => exact readsBack_none

theorem readsBack_decodeCtl (ho : w / 2 ^ 26 = 0x14) : ReadsBack w (decodeCtl w) := by
  simp only [decodeCtl]
  split
  case h_4 => exact readsBack_none
  all_goals exact readsBack_some rfl rfl (by unfold packA; omega)

theorem readsBack_decodeSync (ho : w / 2 ^ 26 = 0x33) : ReadsBack w (decodeSync w) := by
  simp only [decodeSync]
  split
  case h_5 => exact readsBack_none
  all_goals exact readsBack_some rfl rfl (by unfold packA; omega)

theorem readsBack_decodeLdb (ho : w / 2 ^ 26 = 0x28) : ReadsBack w (decodeLdb w) := by
  simp only [decodeLdb]
  split
  case h_4 h0 h1 h2 =>
    rw [imp_false] at h0 h1 h2
    exact readsBack_checked rfl fun _ => packI_eq rfl rfl (by rw [toNat_fieldBits_zero, toNat_fieldBits]; omega)
  all_goals
    exact readsBack_checked rfl fun _ => packI_eq rfl rfl (by rw [toNat_fieldBits_zero, toNat_fieldBits]; omega)

theorem readsBack_decodeStb (ho : w / 2 ^ 26 = 0x29) : ReadsBack w (decodeStb w) := by
  simp only [decodeStb]
  split
  case h_3 => exact readsBack_none
  all_goals
    exact readsBack_checked rfl fun _ => packI_eq rfl rfl (by rw [toNat_fieldBits_zero, toNat_fieldBits]; omega)

theorem readsBack_decodeLdbx (ho : w / 2 ^ 26 = 0x2B) : ReadsBack w (decodeLdbx w) := by
  simp only [decodeLdbx, fnOf]
  split
  case h_5 => exact readsBack_none
  all_goals exact readsBack_checked rfl fun _ => packA_eq rfl rfl rfl (by rw [toNat_fieldBits_zero]; omega)

theorem readsBack_decodeStbx (ho : w / 2 ^ 26 = 0x2C) : ReadsBack w (decodeStbx w) := by
  simp only [decodeStbx, fnOf]
  split
  case h_3 => exact readsBack_none
  all_goals exact readsBack_checked rfl fun _ => packA_eq rfl rfl rfl (by rw [toNat_fieldBits_zero]; omega)

theorem readsBack_decodeFib (ho : w / 2 ^ 26 = 0x2D) : ReadsBack w (decodeFib w) := by
  simp only [decodeFib, fnOf]
  split
  case h_1 | h_2 =>
    exact readsBack_need (fun _ => rfl) rfl fun hd => packA_eq (val_regD (by decide) (of_decide_eq_true hd)) rfl rfl (by omega)
  case h_3 | h_7 =>
    refine readsBack_need (fun _ => rfl) rfl fun h => ?_
    simp only [Bool.and_eq_true, decide_eq_true_eq] at h
    obtain ⟨⟨hd, ha⟩, hb⟩ := h
    exact packA_eq (val_regD (by decide) hd) ha hb (by omega)
  case h_4 =>
    refine readsBack_need (fun _ => rfl) rfl fun h => ?_
    simp only [Bool.and_eq_true, decide_eq_true_eq] at h
    exact packA_eq (val_regD (by decide) h.1) rfl h.2 (by omega)
  case h_5 =>
    refine readsBack_need (fun _ => rfl) rfl fun h => ?_
    simp only [Bool.and_eq_true, decide_eq_true_eq] at h
    obtain ⟨⟨hd, ha⟩, hb⟩ := h
    exact packA_eq (val_regD (by decide) hd) (val_regA (by decide) ha) hb (by omega)
  case h_6 =>
    exact readsBack_when fun ha => readsBack_checked rfl fun _ => packA_eq rfl (val_regA (by decide) ha) rfl (by omega)
  case h_8 => exact readsBack_none

theorem readsBack_decodeJsx (ho : w / 2 ^ 26 = 0x2E) : ReadsBack w (decodeJsx w) := by
  simp only [decodeJsx, fnOf]
  split
  case h_1 =>
    exact readsBack_need (fun _ => rfl) rfl fun hd => packA_eq (val_regD (by decide) (of_decide_eq_true hd)) rfl rfl (by omega)
  case h_2 =>
    exact readsBack_when fun ha => readsBack_checked rfl fun _ => packA_eq rfl (val_regA (by decide) ha) rfl (by omega)
  case h_3 => exact readsBack_none

theorem readsBack_decodeAmo (ho : w / 2 ^ 26 = 0x30) : ReadsBack w (decodeAmo w) := by
  simp only [decodeAmo, fnOf]
  refine readsBack_unless fun hf => ?_
  split
  case h_10 =>
    refine readsBack_need (fun _ => rfl) rfl fun hs => packA_eq rfl rfl rfl ?_
    have hs := sizeBit_clear hs
    omega
  case h_11 => exact readsBack_none
  all_goals exact readsBack_some rfl rfl (packA_eq rfl rfl rfl (by rw [toNat_sizeBit]; omega))

theorem readsBack_decodeAmon (ho : w / 2 ^ 26 = 0x31) : ReadsBack w (decodeAmon w) := by
  simp only [decodeAmon, fnOf]
  refine readsBack_unless fun hz => ?_
  obtain ⟨hf, hd⟩ := not_or.1 fun h => hz (Bool.or_eq_true_iff.2 (h.imp decide_eq_true decide_eq_true))
  have hd := not_not.1 hd
  split
  case h_10 =>
    refine readsBack_need (fun _ => rfl) rfl fun hs => packA_eq hd rfl rfl ?_
    have hs := sizeBit_clear hs
    omega
  case h_11 => exact readsBack_none
  all_goals exact readsBack_some rfl rfl (packA_eq hd rfl rfl (by rw [toNat_sizeBit]; omega))

theorem readsBack_decodeWait (ho : w / 2 ^ 26 = 0x34) : ReadsBack w (decodeWait w) := by
  simp only [decodeWait, fnOf]
  split
  case h_1 =>
    exact readsBack_when fun hb => readsBack_checked rfl fun _ => packA_eq rfl rfl hb (by rw [toNat_fieldBits_zero]; omega)
  case h_2 => exact readsBack_checked rfl fun _ => packA_eq rfl rfl rfl (by rw [toNat_fieldBits_zero]; omega)
  case h_3 => exact readsBack_none

theorem readsBack_decodePail (ho : w / 2 ^ 26 = 0x35) : ReadsBack w (decodePail w) := by
  simp only [decodePail, fnOf]
  refine readsBack_unless fun hb => ?_
  have hb := not_not.1 hb
  split
  case h_1 =>
    exact readsBack_need (fun _ => rfl) rfl fun hd => packA_eq (of_decide_eq_true hd) rfl hb (by rw [toNat_fieldBits]; omega)
  case h_2 => exact readsBack_some rfl rfl (packA_eq rfl rfl hb (by rw [toNat_fieldBits]; omega))
  case h_3 =>
    exact readsBack_need (fun _ => rfl) rfl fun ha => packA_eq rfl (of_decide_eq_true ha) hb (by rw [toNat_fieldBits]; omega)
  case h_4 => exact readsBack_none

theorem readsBack_decodeMsg (ho : w / 2 ^ 26 = 0x36) : ReadsBack w (decodeMsg w) := by
  simp only [decodeMsg, fnOf]
  split
  case h_1 => exact readsBack_some rfl rfl (packA_eq rfl rfl rfl (by omega))
  case h_2 | h_4 | h_5 =>
    exact readsBack_need (fun _ => rfl) rfl fun hb => packA_eq rfl rfl (of_decide_eq_true hb) (by omega)
  case h_3 =>
    refine readsBack_need (fun _ => rfl) rfl fun h => ?_
    simp only [Bool.and_eq_true, decide_eq_true_eq] at h
    exact packA_eq rfl h.1 h.2 (by omega)
  case h_6 | h_7 =>
    refine readsBack_need (fun _ => rfl) rfl fun h => ?_
    simp only [Bool.and_eq_true, decide_eq_true_eq] at h
    exact packA_eq h.1 rfl h.2 (by omega)
  case h_8 => exact readsBack_none

theorem readsBack_decodeHnd (ho : w / 2 ^ 26 = 0x3D) : ReadsBack w (decodeHnd w) := by
  simp only [decodeHnd]
  refine readsBack_unless fun hh => ?_
  split
  case h_5 => exact readsBack_none
  all_goals
    refine readsBack_checked rfl fun _ => ?_
    rw [val_fieldReg, toNat_fieldBits_zero]
    unfold packA
    omega

theorem readsBack_decodeSys (ho : w / 2 ^ 26 = 0x3E) : ReadsBack w (decodeSys w) := by
  simp only [decodeSys]
  split
  case h_1 =>
    exact readsBack_when fun ha => readsBack_checked rfl fun _ => packI_eq rfl ha (by rw [toNat_fieldBits]; omega)
  case h_2 =>
    exact readsBack_when fun hd => readsBack_checked rfl fun _ => packI_eq hd rfl (by rw [toNat_fieldBits]; omega)
  case h_3 =>
    refine readsBack_need (fun _ => rfl) rfl fun h => ?_
    simp only [Bool.and_eq_true, decide_eq_true_eq] at h
    exact packI_eq h.1 h.2 (by rw [toNat_fieldBits]; omega)
  case h_4 | h_5 =>
    refine readsBack_need (fun _ => rfl) rfl fun h => ?_
    have h := of_decide_eq_true h
    unfold packA
    omega
  case h_6 =>
    split
    case h_4 => exact readsBack_none
    all_goals exact readsBack_some rfl rfl (by unfold packA; omega)
  case h_7 => exact readsBack_none

/-- Every major opcode reads back; the cases follow the opcodes in the order of 02 R36. -/
theorem readsBack_decodeScalar (w : Nat) : ReadsBack w (decodeScalar w) := by
  unfold decodeScalar
  extract_lets d a b i q
  split
  case h_1 ho => exact readsBack_decodeAlu ho
  case h_6 ho => exact readsBack_decodeShi ho
  case h_7 ho => exact readsBack_need (fun _ => rfl) rfl fun ha => packI_eq rfl (of_decide_eq_true ha) (by rw [toNat_imm16]; omega)
  case h_8 ho => exact readsBack_decodeAddr ho
  case h_9 ho => exact readsBack_decodeCmp ho
  case h_10 ho => exact readsBack_decodeCmpi ho
  case h_11 ho => exact readsBack_decodeSel ho
  case h_12 ho => exact readsBack_decodePl ho
  case h_13 ho => exact readsBack_decodeBr ho
  case h_14 ho => exact readsBack_decodeCall ho
  case h_15 ho => exact readsBack_decodeJr ho
  case h_16 ho => exact readsBack_when fun hd => readsBack_checked rfl fun _ => packI_eq hd rfl (by rw [toNat_imm16]; omega)
  case h_17 ho => exact readsBack_decodeCtl ho
  case h_25 ho =>
    refine readsBack_when fun hf => readsBack_checked rfl fun _ => packA_eq rfl rfl rfl ?_
    unfold fnOf at hf
    rw [toNat_fieldBits_zero, toNat_fieldBits]
    omega
  case h_30 ho =>
    refine readsBack_need (fun _ => rfl) rfl fun hf => packA_eq rfl rfl rfl ?_
    have hf : w % 2 ^ 11 < 32 := of_decide_eq_true hf
    rw [toNat_fieldBits_zero, toNat_fieldBits]
    omega
  case h_31 ho => exact readsBack_need (fun _ => rfl) rfl fun hd => packI_eq (of_decide_eq_true hd) rfl (by rw [toNat_imm16]; omega)
  case h_32 ho => exact readsBack_decodeLdb ho
  case h_33 ho => exact readsBack_decodeStb ho
  case h_34 ho =>
    refine readsBack_when fun h => readsBack_checked rfl fun _ => ?_
    simp only [Bool.and_eq_true, decide_eq_true_eq] at h
    refine packI_eq h.1 rfl ?_
    rw [toNat_fieldBits_zero, toNat_fieldBits]
    omega
  case h_35 ho => exact readsBack_decodeLdbx ho
  case h_36 ho => exact readsBack_decodeStbx ho
  case h_37 ho => exact readsBack_decodeFib ho
  case h_38 ho => exact readsBack_decodeJsx ho
  case h_39 ho => exact readsBack_decodeAmo ho
  case h_40 ho => exact readsBack_decodeAmon ho
  case h_41 ho =>
    refine readsBack_need (fun _ => rfl) rfl fun hf => packA_eq rfl rfl rfl ?_
    have hf : w % 2 ^ 11 < 2 := of_decide_eq_true hf
    rw [toNat_sizeBit, pow_zero, Nat.div_one]
    omega
  case h_42 ho => exact readsBack_decodeSync ho
  case h_43 ho => exact readsBack_decodeWait ho
  case h_44 ho => exact readsBack_decodePail ho
  case h_45 ho => exact readsBack_decodeMsg ho
  case h_46 ho | h_47 ho =>
    refine readsBack_need (fun _ => rfl) rfl fun hz => ?_
    have hz := of_decide_eq_true hz
    unfold packQ q
    rw [val_fieldReg]
    omega
  case h_48 ho | h_49 ho =>
    exact readsBack_need (fun _ => rfl) rfl fun hz => packQ_eq (of_decide_eq_true hz) rfl (by rw [toNat_imm16]; omega)
  case h_50 ho =>
    refine readsBack_when fun h => readsBack_checked rfl fun _ => ?_
    simp only [Bool.and_eq_true, decide_eq_true_eq] at h
    refine packQ_eq h.1 rfl ?_
    rw [toNat_fieldBits, toNat_fieldBits]
    omega
  case h_51 ho => exact readsBack_decodeHnd ho
  case h_52 ho => exact readsBack_decodeSys ho
  case h_53 => exact readsBack_none
  all_goals exact readsBack_some rfl rfl (packI_eq rfl rfl (by rw [toNat_imm16]; omega))

end Decoders

/-- Settles O1, by the round trip that the model's laws state for every format. -/
theorem scalarDecodesWhatWasEncoded : Obligations.ScalarDecodesWhatWasEncoded := fun _ _ hwf h =>
  have hd := decodeScalar_encodeScalar hwf h
  ⟨lt_of_decodeScalar hd, hd⟩

/-- Settles O2: every decoder reads back. -/
theorem acceptedWordsAreEncodings : Obligations.AcceptedWordsAreEncodings := fun i w _ h => readsBack_decodeScalar w i h

end Sys2Proof
end

section
/-!
The step of the package and the state after reset (03 R67, R72, 13 R389, 14 R427).
-/
namespace Sys2Proof.Machine

open Sys2Proof.Safety

/-! ## The step of the acting core -/

/-- A running context that no halt and no end of its quantum keeps from issuing issues the word that it fetches. -/
theorem State.coreStep_of_word {s : State} {w : BitVec 32} (hr : s.fc.status = .running) (hs : s.fc.stopped = false)
    (hh : s.halted s.now = false) (hq : s.quantumOver = false) (hf : s.fetch = .word w) : s.coreStep = s.issueWord w := by
  simp only [State.coreStep, hr, hs, hh, hq, hf, decide_true, Bool.not_false, Bool.and_self, if_true, Bool.false_eq_true, if_false]

theorem State.issueWord_of_decoded {s : State} {w : BitVec 32} {i : Instr} (h : decodeScalar w.toNat = some i) :
    s.issueWord w = exec i s.issue := by
  rw [State.issueWord, h]

theorem step_of_no_agenda {s : State} (h : s.agenda = []) : step s = Res.map s.coreStep State.refresh := by
  rw [step, h]

/-- Settles O4: the empty agenda leaves the step to the acting core, which issues the word and runs it. -/
theorem stepRunsTheDecodedInstruction : Obligations.StepRunsTheDecodedInstruction := fun s w i ha hr hs hh hq hf hd => by
  rw [step_of_no_agenda ha, State.coreStep_of_word hr hs hh hq hf, State.issueWord_of_decoded hd]
  cases exec i s.issue <;> rfl

/-! ## Reset -/

/-- Memory that lists nothing reads as what nothing has written (log 5). -/
theorem State.byte_of_memories_nil {s : State} (h : s.hbm = []) (h' : s.hostMem = []) (l : Loc) : s.byte l = 0 := by
  rw [State.byte, h, h']
  exact ite_self _

/-- Every firing context of a core after reset is as reset leaves it. -/
theorem Core.fc_reset (n : Fin 8) : Core.reset.fc n = FiringCtx.reset := by
  change (Vector.replicate 8 FiringCtx.reset).get n = _
  rw [Vector.get_eq_getElem, Vector.getElem_replicate]

/-- Settles O7: reset lists no core, no cluster, no context and no byte. -/
theorem resetState : Obligations.ResetState := by
  refine ⟨fun e he => absurd he (List.not_mem_nil (a := e)), rfl, rfl, rfl, fun k n => ?_, fun c => ⟨rfl, rfl, rfl, rfl⟩,
    State.byte_of_memories_nil rfl rfl, State.g_zero _, State.p_zero _⟩
  exact congrArg FiringCtx.status (Core.fc_reset n)

end Sys2Proof.Machine
end

section
/-!
Control flow (02 R35, R38, 03 R66, R80 to R82): taken branches, calls, register jumps and the hardware loop.
-/
namespace Sys2Proof.Machine

open Sys2Proof.Safety

/-! ## Words that end with a pc and loops, and write no register -/

/-- A word that only puts the running context at a pc with its loops keeps every register, and nothing else changes. -/
theorem State.setFc_go_spec (s : State) (x : List LoopEntry × Word) :
    KeepsRegs s (s.setFc (s.fc.go x)) ∧ OnlyRegs s (s.setFc (s.fc.go x)) := by
  refine ⟨⟨fun r => ?_, fun r => ?_, ?_⟩, State.setFc_onlyRegs _ _ rfl⟩
  · rw [State.g_setFc]; rfl
  · rw [State.p_setFc]; rfl
  · simp only [KeepsQFJ, State.fc_setFc]; exact ⟨rfl, rfl, rfl⟩

theorem State.noEffect_advance (s : State) : NoEffect s s.advance := s.advance_spec

/-! ## Taken branches and loops (03 R82) -/

/-- The pc after a taken branch is its target, whatever loops it leaves. -/
theorem loopTest_taken_pc (addr t pc : Word) : ∀ ls : List LoopEntry, (loopTest addr (some t) ls pc).2 = pc
  | [] => rfl
  | l :: r => by
    rw [loopTest]
    split
    · exact loopTest_taken_pc addr t pc r
    · rfl

/-- A taken branch pops loops from the innermost out. -/
theorem loopTest_taken_suffix (addr t pc : Word) : ∀ ls : List LoopEntry, (loopTest addr (some t) ls pc).1 <:+ ls
  | [] => List.suffix_refl _
  | l :: r => by
    rw [loopTest]
    split
    · exact (loopTest_taken_suffix addr t pc r).trans (List.suffix_cons l r)
    · exact List.suffix_refl _

theorem loopTest_taken_cons (s : State) (t pc : Word) (l : LoopEntry) (r : List LoopEntry) :
    (¬Leaves l s t → loopTest s.pc (some t) (l :: r) pc = (l :: r, pc)) ∧
      (Leaves l s t → loopTest s.pc (some t) (l :: r) pc = loopTest s.pc (some t) r pc) := by
  have h : (l.first ≤ s.pc && s.pc < l.past && !(l.first ≤ t && t < l.past)) = true ↔ Leaves l s t := by
    simp only [Leaves, Bool.and_eq_true, decide_eq_true_eq, Bool.not_eq_true', Bool.and_eq_false_iff, decide_eq_false_iff_not,
      not_and_or]
  exact ⟨fun hl => if_neg (mt h.1 hl), fun hl => if_pos (h.2 hl)⟩

/-- What a taken `br` or `jr` does. -/
theorem State.branch_spec (s : State) (t : Word) : KeepsRegs s (s.branch t) ∧ OnlyRegs s (s.branch t) ∧ Branches s (s.branch t) t := by
  obtain ⟨hk, ho⟩ := s.setFc_go_spec (loopTest s.pc (some t) s.fc.loops t)
  have hfc : (s.branch t).fc = s.fc.go (loopTest s.pc (some t) s.fc.loops t) := State.fc_setFc _ _
  refine ⟨hk, ho, ?_, fun h => ?_, fun l r h => ⟨fun hl => ?_, fun hl => ?_⟩⟩
  · rw [State.pc, hfc]; exact loopTest_taken_pc _ _ _ _
  · rw [hfc, h]; rfl
  · rw [hfc, h, (loopTest_taken_cons s t t l r).1 hl]; rfl
  · rw [hfc, h, (loopTest_taken_cons s t t l r).2 hl]; exact loopTest_taken_suffix _ _ _ _

theorem State.setG_linkTo_eq (s : State) (d : Fin 32) (v t : Word) :
    (s.setG d v).linkTo t =
      s.setFc (({ s.fc with g := if d = 0 then s.fc.g else s.fc.g.set d v } : FiringCtx).go (s.fc.loops, t)) := by
  by_cases h : d = 0
  · subst h; rfl
  · rw [State.setG_of_ne s v h, State.linkTo, State.fc_setFc, State.setFc_setFc, if_neg h]

/-- What a taken call does. -/
theorem State.call_spec (s : State) (d : Fin 32) (t : Word) : Calls s ((s.setG d (s.pc + 4)).linkTo t) d t := by
  have heq := s.setG_linkTo_eq d (s.pc + 4) t
  refine ⟨State.pc_linkTo _ _, ?_, fun hd => ?_, ⟨State.g_zero _, fun r hr => ?_⟩, fun r => ?_, ?_, ?_⟩
  · rw [heq, State.fc_setFc]; rfl
  · rw [State.g_linkTo, State.g_setG_same s _ hd]
  · rw [State.g_linkTo, State.g_setG_ne s _ hr.symm]
  · rw [State.p_linkTo, State.p_setG]
  · rw [heq, KeepsQFJ, State.fc_setFc]; exact ⟨rfl, rfl, rfl⟩
  · rw [heq]; exact State.setFc_onlyRegs _ _ rfl

/-! ## Targets -/

/-- PC + 4 × SignExtend(offset22) (02 R38). -/
theorem State.target_eq (s : State) (o : BitVec 22) : s.target o = s.pc + BitVec.ofInt 64 (4 * o.toInt) := by
  rw [State.target, BitVec.ofInt_mul, BitVec.signExtend]; rfl

/-- Bit j of an address's upper byte, its sign bit above. -/
theorem getLsbD_upper (a : Word) {j : Nat} (hj : j < 8) : (a.sshiftRight 56).getLsbD j = a.getLsbD (56 + j) := by
  rw [BitVec.getLsbD_sshiftRight, if_pos (by omega), decide_eq_false (by omega)]; rfl

/-- The sign-extended upper byte has its sign bit in every bit from 7 on. -/
theorem getLsbD_upper_sign (a : Word) {j : Nat} (hj : 8 ≤ j) (hj' : j < 64) : (a.sshiftRight 56).getLsbD j = a.getLsbD 63 := by
  rw [BitVec.getLsbD_sshiftRight, if_neg (by omega), decide_eq_false (by omega), BitVec.msb_eq_getLsbD_last]; rfl

/-- Bits [63:56] of an address all have one value where the sign-extended upper byte has that value throughout. -/
theorem getLsbD_upper_all_iff (a : Word) (b : Bool) :
    (∀ j, j < 64 → (a.sshiftRight 56).getLsbD j = b) ↔ ∀ i, 56 ≤ i → i < 64 → a.getLsbD i = b := by
  constructor
  · intro h i hi hi'
    rw [← h (i - 56) (by omega), getLsbD_upper a (by omega), Nat.add_sub_cancel' hi]
  · intro h j hj
    by_cases hj8 : j < 8
    · rw [getLsbD_upper a hj8]; exact h _ (by omega) (by omega)
    · rw [getLsbD_upper_sign a (by omega) hj]; exact h _ (by omega) (by omega)

theorem upper_eq_zero_iff (a : Word) : (a.sshiftRight 56).toNat = 0 ↔ ∀ i, 56 ≤ i → i < 64 → a.getLsbD i = false := by
  rw [← getLsbD_upper_all_iff, ← BitVec.toNat_zero (w := 64), BitVec.toNat_inj, BitVec.eq_of_getLsbD_eq_iff]
  exact forall₂_congr fun j _ => by rw [BitVec.getLsbD_zero]

theorem upper_eq_allOnes_iff (a : Word) : a.sshiftRight 56 = BitVec.allOnes 64 ↔ ∀ i, 56 ≤ i → i < 64 → a.getLsbD i = true := by
  rw [← getLsbD_upper_all_iff, BitVec.eq_of_getLsbD_eq_iff]
  exact forall₂_congr fun j hj => by rw [BitVec.getLsbD_allOnes, decide_eq_true hj]

/-- The check of the model is 03 R66. -/
theorem canonical_iff (a : Word) : canonical a = true ↔ Canon a := by
  rw [canonical, Bool.or_eq_true, decide_eq_true_eq, decide_eq_true_eq, upper_eq_zero_iff, upper_eq_allOnes_iff]
  constructor
  · rintro (h | h) i hi hi' <;> rw [h i (by omega) hi', h 56 (by omega) (by omega)]
  · intro h
    have hall : ∀ i, 56 ≤ i → i < 64 → a.getLsbD i = a.getLsbD 56 := fun i hi hi' => by
      rcases Nat.eq_or_lt_of_le hi with rfl | hlt
      · rfl
      · exact h i hlt hi'
    cases hb : a.getLsbD 56
    · exact .inl fun i hi hi' => hb ▸ hall i hi hi'
    · exact .inr fun i hi hi' => hb ▸ hall i hi hi'

theorem canonical_eq_false_iff (a : Word) : canonical a = false ↔ ¬Canon a := by
  rw [← canonical_iff, Bool.not_eq_true]

/-! ## The obligation -/

theorem State.branchIf_spec (s : State) (c : Bool) (o : BitVec 22) :
    KeepsRegs s (s.branchIf c o) ∧ OnlyRegs s (s.branchIf c o) ∧
      (c = true → Branches s (s.branchIf c o) (s.pc + BitVec.ofInt 64 (4 * o.toInt))) ∧ (c = false → NoEffect s (s.branchIf c o)) := by
  rw [← s.target_eq]
  cases c
  · exact ⟨s.noEffect_advance.1, s.noEffect_advance.2.1, nofun, fun _ => s.noEffect_advance⟩
  · obtain ⟨hk, ho, hb⟩ := s.branch_spec (s.target o)
    exact ⟨hk, ho, fun _ => hb, nofun⟩

theorem State.callIf_spec (s : State) (c : Bool) (o : BitVec 22) :
    (c = true → Calls s (s.callIf c o) 31 (s.pc + BitVec.ofInt 64 (4 * o.toInt))) ∧ (c = false → NoEffect s (s.callIf c o)) := by
  rw [← s.target_eq]
  cases c
  · exact ⟨nofun, fun _ => s.noEffect_advance⟩
  · exact ⟨fun _ => s.call_spec 31 _, nofun⟩

theorem branchesAndCalls : BranchesAndCalls := fun s p o => by
  have hbr (c : Bool) := s.branchIf_spec c o
  have hcall (c : Bool) := s.callIf_spec c o
  refine ⟨⟨s.g_zero, s.p_zero, s.setG_zero, s.setP_zero, ⟨_, rfl, (hbr true).2.2.1 rfl⟩, _, rfl, (hcall true).1 rfl⟩,
    ⟨_, rfl, hbr (s.p p)⟩, ?_, ?_, ⟨_, rfl, hcall (s.p p)⟩, ?_, _, rfl, (hcall true).1 rfl⟩
  · obtain ⟨hk, ho, ht, hn⟩ := hbr (!s.p p)
    exact ⟨_, rfl, hk, ho, fun h => ht (by rw [h]; rfl), fun h => hn (by rw [h]; rfl)⟩
  · obtain ⟨hk, ho, ht, -⟩ := hbr true
    exact ⟨_, rfl, hk, ho, ht rfl⟩
  · obtain ⟨ht, hn⟩ := hcall (!s.p p)
    exact ⟨_, rfl, fun h => ht (by rw [h]; rfl), fun h => hn (by rw [h]; rfl)⟩

theorem State.jumpThen_of_sound {s r : State} {t : Word} (hc : Canon t) (ha : t.toNat % 4 = 0) : s.jumpThen t r = r := by
  rw [State.jumpThen, (canonical_iff t).2 hc, if_neg (by decide), if_neg (not_not.2 ha)]

theorem State.jumpThen_of_not_canon {s r : State} {t : Word} (hc : ¬Canon t) : s.jumpThen t r = s.raise 0x04 t 0 := by
  rw [State.jumpThen, (canonical_eq_false_iff t).2 hc]; rfl

theorem State.jumpThen_of_misaligned {s r : State} {t : Word} (hc : Canon t) (ha : t.toNat % 4 ≠ 0) :
    s.jumpThen t r = s.raise 0x03 t 0 := by
  rw [State.jumpThen, (canonical_iff t).2 hc, if_neg (by decide), if_pos ha]

theorem registerJumps : RegisterJumps := fun s d a => by
  have hjr : exec (.jr a) s = .next (s.jumpThen (s.g a) (s.branch (s.g a))) := rfl
  have hjrl : exec (.jrl d a) s = .next (s.jumpThen (s.g a) ((s.setG d (s.pc + 4)).linkTo (s.g a))) := rfl
  refine ⟨fun hc ha => ?_, fun hc => ?_, fun hc ha => ?_⟩ <;> rw [hjr, hjrl]
  · rw [State.jumpThen_of_sound hc ha, State.jumpThen_of_sound hc ha]
    exact ⟨⟨_, rfl, s.branch_spec _⟩, _, rfl, s.call_spec d _⟩
  · rw [State.jumpThen_of_not_canon hc, State.jumpThen_of_not_canon hc]
    exact ⟨rfl, rfl⟩
  · rw [State.jumpThen_of_misaligned hc ha, State.jumpThen_of_misaligned hc ha]
    exact ⟨rfl, rfl⟩

/-- The end of the body of a `loop` of l words (03 R82). -/
theorem loop_length_eq (l : BitVec 16) : 4 * l.setWidth 64 = BitVec.ofNat 64 (4 * l.toNat) := by
  apply BitVec.eq_of_toNat_eq
  simp

theorem hardwareLoop : HardwareLoop := fun s a l => by
  have hexec : exec (.loop a l) s =
      if s.g a = 0 then .next (s.advanceTo (s.pc + 4 + BitVec.ofNat 64 (4 * l.toNat)))
      else if 2 ≤ s.fc.loops.length then .next (s.raise 0x09 0 0)
      else .next (s.setFc (s.fc.go (⟨s.pc + 4, s.pc + 4 + BitVec.ofNat 64 (4 * l.toNat), (s.g a).toNat⟩ :: s.fc.loops, s.pc + 4))) := by
    rw [← loop_length_eq]; rfl
  intro start past
  refine ⟨fun hg hlen => ?_, fun hg => ?_, fun hg hlen => ?_⟩
  · rw [hexec, if_neg hg, if_neg (by omega)]
    obtain ⟨hk, ho⟩ := s.setFc_go_spec (⟨start, past, (s.g a).toNat⟩ :: s.fc.loops, start)
    exact ⟨_, rfl, hk, ho, by rw [State.pc_setFc, FiringCtx.go_pc], by rw [State.fc_setFc, FiringCtx.go_loops]⟩
  · rw [hexec, if_pos hg]
    obtain ⟨hk, ho⟩ := s.setFc_go_spec (loopTest s.pc none s.fc.loops past)
    refine ⟨_, rfl, hk, ho, fun hend => ?_⟩
    rw [State.advanceTo, State.pc_setFc, State.fc_setFc, FiringCtx.go_pc, FiringCtx.go_loops, loopTest_none _ _ _ hend]
    exact ⟨rfl, rfl⟩
  · rw [hexec, if_neg hg, if_pos hlen]

/-- Settles O45, by its three parts. -/
theorem controlFlow : Obligations.ControlFlow := ⟨branchesAndCalls, registerJumps, hardwareLoop⟩

end Sys2Proof.Machine
end

section
/-!
Taking an exception (03 R72, 13 R345 to R352): what a halt and a stop record leave as it was, where the record lies and what it
holds, and how the context stops.
-/
namespace Sys2Proof.Machine

open Sys2Proof.Safety

/-! ## Cores -/

/-- Two cores with the same firing contexts and typed buffers. -/
structure SameWork (c d : Core) : Prop where
  fcs : d.fcs = c.fcs
  run : d.run = c.run
  buf : ∀ b, d.buf b = c.buf b ∧ d.fullOf b = c.fullOf b

theorem SameWork.refl (c : Core) : SameWork c c := ⟨rfl, rfl, fun _ => ⟨rfl, rfl⟩⟩

theorem SameWork.trans {c d e : Core} (h : SameWork c d) (h' : SameWork d e) : SameWork c e :=
  ⟨h'.fcs.trans h.fcs, h'.run.trans h.run, fun b => ⟨(h'.buf b).1.trans (h.buf b).1, (h'.buf b).2.trans (h.buf b).2⟩⟩

theorem SameWork.fc {c d : Core} (h : SameWork c d) (n : Fin 8) : d.fc n = c.fc n := by rw [Core.fc, Core.fc, h.fcs]

/-- A core that is listed changes by f; one that is not is as reset leaves it. -/
theorem State.core_mapCores (s : State) (f : CoreId → Core → Core) (j : CoreId) :
    (s.mapCores f).core j = f j (s.core j) ∨ (s.mapCores f).core j = s.core j := by
  simp only [State.core, State.mapCores, look_map_value]
  cases look s.cores j
  · exact .inr rfl
  · exact .inl rfl

theorem State.core_modCore_same (s : State) (k : CoreId) (f : Core → Core) : (s.modCore k f).core k = f (s.core k) :=
  State.core_setCore_same _ _ _

theorem State.core_modCore_ne (s : State) {k j : CoreId} (f : Core → Core) (h : k ≠ j) : (s.modCore k f).core j = s.core j :=
  State.core_setCore_ne _ _ h

/-! ## What a halt and a record leave -/

/-- Where a partition lies and whose it is. -/
def Partition.place (p : Partition) : Rect × Option Nat := (p.rect, p.ctx)

/-- The same core acts, and every partition and stop area is where it was. -/
structure SamePlaces (s t : State) : Prop where
  now : t.now = s.now
  place : ∀ j, (t.partOf j).map Partition.place = (s.partOf j).map Partition.place
  base : ∀ y, (t.ctx y).stopBase = (s.ctx y).stopBase

theorem SamePlaces.refl (s : State) : SamePlaces s s := ⟨rfl, fun _ => rfl, fun _ => rfl⟩

theorem SamePlaces.trans {s t u : State} (h : SamePlaces s t) (h' : SamePlaces t u) : SamePlaces s u :=
  ⟨h'.now.trans h.now, fun j => (h'.place j).trans (h.place j), fun y => (h'.base y).trans (h.base y)⟩

theorem SamePlaces.cxId {s t : State} (h : SamePlaces s t) (k : CoreId) : t.cxId k = s.cxId k := by
  have hc (u : State) : u.cxId k = (((u.partOf k).map Partition.place).bind Prod.snd).getD 0 := by
    rw [State.cxId]; cases u.partOf k <;> rfl
  rw [hc, hc, h.place]

/-- A record lies in the stop area of the context on the core's partition (13 R350). -/
theorem SamePlaces.recordLoc {s t : State} (h : SamePlaces s t) (k : CoreId) (r : Nat) : t.recordLoc k r = s.recordLoc k r := by
  have hp := h.place k
  rw [State.recordLoc, State.recordLoc]
  cases ht : t.partOf k <;> cases hs : s.partOf k <;> rw [ht, hs] at hp
  case some.some q p =>
    obtain ⟨hrect, hctx⟩ : q.rect = p.rect ∧ q.ctx = p.ctx := Prod.mk.inj (Option.some.inj hp)
    simp only [hrect, hctx, h.base]
  all_goals cases hp

/-- Nothing differs but memory and the marks of a halt: every core's contexts and buffers, and every context's firings, are as they
were. -/
structure OnlyHaltMarks (s t : State) : Prop extends SamePlaces s t where
  cores : ∀ j, SameWork (s.core j) (t.core j)
  firings : ∀ y, (t.ctx y).firings = (s.ctx y).firings
  listed : ∀ y, (look t.ctxs y).isSome = (look s.ctxs y).isSome

theorem OnlyHaltMarks.refl (s : State) : OnlyHaltMarks s s :=
  ⟨SamePlaces.refl s, fun _ => SameWork.refl _, fun _ => rfl, fun _ => rfl⟩

theorem OnlyHaltMarks.trans {s t u : State} (h : OnlyHaltMarks s t) (h' : OnlyHaltMarks t u) : OnlyHaltMarks s u :=
  ⟨h.toSamePlaces.trans h'.toSamePlaces, fun j => (h.cores j).trans (h'.cores j), fun y => (h'.firings y).trans (h.firings y),
    fun y => (h'.listed y).trans (h.listed y)⟩

theorem State.partOf_modPart (s : State) (n : Nat) {f : Partition → Partition} (hf : ∀ p, (f p).rect = p.rect) (j : CoreId) :
    (s.modPart n f).partOf j = (s.partOf j).map fun p => if p.id = n then f p else p := by
  rw [State.partOf, State.modPart, List.find?_map, State.partOf]
  congr 2
  funext p
  simp only [Function.comp_apply]
  split
  · rw [hf]
  · rfl

theorem State.modPart_onlyHaltMarks (s : State) (n : Nat) {f : Partition → Partition} (hf : ∀ p, (f p).place = p.place) :
    OnlyHaltMarks s (s.modPart n f) where
  now := rfl
  place j := by
    rw [s.partOf_modPart n (fun p => congrArg Prod.fst (hf p)), Option.map_map]
    congr 1
    funext p
    simp only [Function.comp_apply]
    split
    · exact hf p
    · rfl
  base _ := rfl
  cores _ := SameWork.refl _
  firings _ := rfl
  listed _ := rfl

theorem State.modCtx_onlyHaltMarks (s : State) {x : Nat} {f : Context → Context} (hx : (look s.ctxs x).isSome = true)
    (hb : ∀ c, (f c).stopBase = c.stopBase) (hf : ∀ c, (f c).firings = c.firings) : OnlyHaltMarks s (s.modCtx x f) where
  now := rfl
  place _ := rfl
  base y := by
    by_cases h : x = y
    · subst h; rw [State.ctx_modCtx_same, hb]
    · rw [State.ctx_modCtx_ne _ _ h]
  cores _ := SameWork.refl _
  firings y := by
    by_cases h : x = y
    · subst h; rw [State.ctx_modCtx_same, hf]
    · rw [State.ctx_modCtx_ne _ _ h]
  listed y := by
    by_cases h : x = y
    · subst h; rw [State.modCtx, look_put_same, hx]; rfl
    · rw [State.modCtx, look_put_ne _ _ h]

theorem State.mapCores_onlyHaltMarks (s : State) {f : CoreId → Core → Core} (hf : ∀ j c, SameWork c (f j c)) :
    OnlyHaltMarks s (s.mapCores f) where
  now := rfl
  place _ := rfl
  base _ := rfl
  cores j := by
    rcases s.core_mapCores f j with h | h <;> rw [h]
    · exact hf j _
    · exact SameWork.refl _
  firings _ := rfl
  listed _ := rfl

theorem State.modCore_onlyHaltMarks (s : State) (k : CoreId) {f : Core → Core} (hf : ∀ c, SameWork c (f c)) :
    OnlyHaltMarks s (s.modCore k f) where
  now := rfl
  place _ := rfl
  base _ := rfl
  cores j := by
    by_cases h : k = j
    · subst h; rw [State.core_modCore_same]; exact hf _
    · rw [State.core_modCore_ne _ _ h]; exact SameWork.refl _
  firings _ := rfl
  listed _ := rfl

theorem State.mapDies_onlyHaltMarks (s : State) (f : Nat → Die → Die) : OnlyHaltMarks s (s.mapDies f) :=
  ⟨⟨rfl, fun _ => rfl, fun _ => rfl⟩, fun _ => SameWork.refl _, fun _ => rfl, fun _ => rfl⟩

theorem Context.stopBase_haltHere (c : Context) : c.haltHere.stopBase = c.stopBase := by
  unfold Context.haltHere; split <;> rfl

theorem Context.firings_haltHere (c : Context) : c.haltHere.firings = c.firings := by
  unfold Context.haltHere; split <;> rfl

/-- A halt marks its partition, its cores and its context, and changes neither memory nor what contexts hold (13 R345). -/
theorem State.raiseHalt_onlyHaltMarks (s : State) (k : CoreId) : OnlyHaltMarks s (s.raiseHalt k) := by
  unfold State.raiseHalt
  split
  · exact OnlyHaltMarks.refl s
  next p hp =>
  split
  · exact OnlyHaltMarks.refl s
  extract_lets clocks u v fresh
  have hu : OnlyHaltMarks s u := s.modPart_onlyHaltMarks p.id fun _ => rfl
  have hv : OnlyHaltMarks u v := by
    unfold v
    split
    · split
      · exact u.modCtx_onlyHaltMarks ‹_› Context.stopBase_haltHere Context.firings_haltHere
      · exact OnlyHaltMarks.refl u
    · exact OnlyHaltMarks.refl u
  have hw : OnlyHaltMarks v (v.mapCores fun j c => if rectHas p.rect j then fresh c else c) :=
    v.mapCores_onlyHaltMarks fun j c => by
      split
      · exact ⟨rfl, rfl, fun b => by cases b <;> exact ⟨rfl, rfl⟩⟩
      · exact SameWork.refl c
  exact ((hu.trans hv).trans hw).trans (State.mapDies_onlyHaltMarks _ _)

theorem State.raiseHalt_hbm (s : State) (k : CoreId) : (s.raiseHalt k).hbm = s.hbm := by
  unfold State.raiseHalt
  split
  · rfl
  split
  · rfl
  dsimp only [State.mapDies_hbm, State.mapCores_hbm]
  split
  · split <;> rfl
  · rfl

theorem State.raiseHalt_hostMem (s : State) (k : CoreId) : (s.raiseHalt k).hostMem = s.hostMem := by
  unfold State.raiseHalt
  split
  · rfl
  split
  · rfl
  dsimp only [State.mapDies_hostMem, State.mapCores_hostMem]
  split
  · split <;> rfl
  · rfl

/-- The halt line of a core's partition has risen. -/
theorem State.halted_raiseHalt {s : State} {k : CoreId} {p : Partition} (hp : s.partOf k = some p) :
    (s.raiseHalt k).halted k = true := by
  unfold State.raiseHalt
  split
  case h_1 hn => exact absurd (hp.symm.trans hn) nofun
  case h_2 q hq =>
  obtain rfl : p = q := Option.some.inj (hp.symm.trans hq)
  split
  · next hh => rw [State.halted, hp]; exact hh
  extract_lets clocks u v fresh
  have hu : u.partOf k = some { p with halt := true, haltNum := p.haltNum + 1, haltClocks := clocks } := by
    have e := s.partOf_modPart p.id (f := fun q => { q with halt := true, haltNum := q.haltNum + 1, haltClocks := clocks })
      (fun _ => rfl) k
    rwa [hp, Option.map_some, if_pos rfl] at e
  have hv : v.parts = u.parts := by
    unfold v
    split
    · split <;> rfl
    · rfl
  have ht : State.partOf ((v.mapCores fun j c => if rectHas p.rect j then fresh c else c).mapDies fun _ d => d.forgetHalt p.id) k
      = u.partOf k := congrArg (List.find? _) hv
  rw [State.halted, ht, hu]

/-! ## Records -/

/-- Writing bytes changes memory alone. -/
theorem State.setBytes_eq : ∀ (bs : List Byte) (s : State) (l : Loc),
    ∃ m h, s.setBytes l bs = { s with hbm := m, hostMem := h }
  | [], s, _ => ⟨s.hbm, s.hostMem, rfl⟩
  | b :: bs, s, l => by
    obtain ⟨m, h, e⟩ := State.setBytes_eq bs (s.setByte l b) (l.plus 1)
    refine ⟨m, h, e.trans ?_⟩
    unfold State.setByte
    split <;> rfl

theorem State.writeRecord_onlyHaltMarks (s : State) (k : CoreId) (r : Nat) (bs : List Byte) :
    OnlyHaltMarks s (s.writeRecord k r bs) := by
  obtain ⟨m, h, e⟩ := State.setBytes_eq (bs.take 64) s (s.recordLoc k r)
  have hset : OnlyHaltMarks s (s.setBytes (s.recordLoc k r) (bs.take 64)) := by
    rw [e]
    exact ⟨⟨rfl, fun _ => rfl, fun _ => rfl⟩, fun _ => SameWork.refl _, fun _ => rfl, fun _ => rfl⟩
  exact hset.trans (State.modCore_onlyHaltMarks _ k fun c => ⟨rfl, rfl, fun b => by cases b <;> exact ⟨rfl, rfl⟩⟩)

theorem State.parts_writeRecord (s : State) (k : CoreId) (r : Nat) (bs : List Byte) : (s.writeRecord k r bs).parts = s.parts := by
  obtain ⟨m, h, e⟩ := State.setBytes_eq (bs.take 64) s (s.recordLoc k r)
  rw [State.writeRecord, e]; rfl

theorem Loc.plus_plus (l : Loc) (m n : Nat) : (l.plus m).plus n = l.plus (m + n) := by
  rw [Loc.plus, Loc.plus, Loc.plus, Nat.add_assoc]

/-- Bytes written read as written. -/
theorem State.byte_setBytes_inside (bs : List Byte) {s : State} (l : Loc) (i : Nat) (hi : i < bs.length) (h : s.memWf = true) :
    (s.setBytes l bs).byte (l.plus i) = bs[i] := by
  induction bs generalizing s l i with
  | nil => exact absurd hi (Nat.not_lt_zero i)
  | cons b bs ih =>
    have hb : (s.setByte l b).memWf = true := State.setByte_memWf l b h
    rw [State.setBytes]
    cases i with
    | zero =>
      have hout : (l.plus 0).addr < (l.plus 1).addr := Nat.lt_succ_self _
      rw [State.byte_setBytes_outside bs (l.plus 1) (l.plus 0) hb (.inr (.inl hout)), State.byte_setByte h]
      exact if_pos rfl
    | succ i =>
      have hi' : i < bs.length := Nat.lt_of_succ_lt_succ hi
      rw [show l.plus (i + 1) = (l.plus 1).plus i by rw [Loc.plus_plus, Nat.add_comm], ih (l.plus 1) i hi' hb,
        List.getElem_cons_succ]

/-- n bytes of a record read as written. -/
theorem State.bytesAt_writeRecord {s : State} (h : s.memWf = true) (k : CoreId) (r : Nat) {bs : List Byte} (hl : bs.length = 64)
    {off n : Nat} (ho : off + n ≤ 64) : (s.writeRecord k r bs).bytesAt ((s.recordLoc k r).plus off) n = (bs.drop off).take n := by
  refine List.ext_getElem (by simp [State.bytesAt, upto, hl]; omega) fun i hi _ => ?_
  have hin : i < n := by simpa [State.bytesAt, upto] using hi
  simp only [State.bytesAt, upto, List.getElem_map, List.getElem_range, List.getElem_take, List.getElem_drop, Loc.plus_plus]
  have := State.byte_setBytes_inside bs (s.recordLoc k r) (off + i) (by omega) h
  rw [← this, State.writeRecord, List.take_of_length_le (by omega)]
  rfl

/-- Bytes outside a record read as they did. -/
theorem State.byte_writeRecord {s : State} (h : s.memWf = true) (k : CoreId) (r : Nat) (bs : List Byte) {l : Loc}
    (hl : l.onHost = true ∨ l.addr < (s.recordLoc k r).addr ∨ (s.recordLoc k r).addr + 64 ≤ l.addr) :
    (s.writeRecord k r bs).byte l = s.byte l := by
  have hdev : (s.recordLoc k r).onHost = false := by rw [State.recordLoc]; split <;> rfl
  refine State.byte_setBytes_outside (bs.take 64) (s.recordLoc k r) l h ?_
  rw [hdev, List.length_take]
  rcases hl with hl | hl | hl
  · exact .inl (by rw [hl]; decide)
  · exact .inr (.inl hl)
  · exact .inr (.inr (by omega))

/-- What the record of a context that runs a firing holds (13 R351, R352): the header's kind, code and unit, the pc, the address of a
cause that has one, and the detail. -/
theorem State.fcRecord_fields {s : State} {k : CoreId} {n : Fin 8} (h : ((s.core k).fc n).status ≠ .free)
    (cause : Nat) (origin : Bool) (word : Nat) (addr : Word) (detail : Nat) :
    let r := s.fcRecord k n cause origin word addr detail
    r.length = 64 ∧ (r.drop 0).take 1 = leBytes 1 1 ∧ (r.drop 2).take 2 = leBytes 2 cause ∧ (r.drop 6).take 1 = leBytes 1 n.val ∧
      (r.drop 24).take 8 = leBytes 8 ((s.core k).fc n).pc.toNat ∧
      (r.drop 40).take 8 = leBytes 8 (if causeHasAddr cause then addr.toNat else 0) ∧
      (r.drop 56).take 4 = leBytes 4 detail := by
  intro r
  have hr : r = s.recordHead k 1 _ cause n.val ++ _ := congrArg (_ ++ ·) (if_neg h)
  rw [hr]
  exact ⟨rfl, rfl, rfl, rfl, rfl, rfl, rfl⟩

/-! ## The halt and the record of a firing context -/

/-- The halt that a firing context raises, with its record written: what `State.raiseAt` and `execEbrk` begin with. -/
def State.haltRecorded (s : State) (k : CoreId) (n : Fin 8) (cause : Nat) (addr : Word) (detail : Nat) : State :=
  (s.raiseHalt k).writeRecord k n.val
    ((s.raiseHalt k).fcRecord k n cause true ((s.raiseHalt k).wordAtPc k n) addr detail)

section Recorded
variable {s : State} {k : CoreId} {n : Fin 8} {cause detail : Nat} {addr : Word}

theorem State.haltRecorded_onlyHaltMarks : OnlyHaltMarks s (s.haltRecorded k n cause addr detail) :=
  (s.raiseHalt_onlyHaltMarks k).trans (State.writeRecord_onlyHaltMarks _ _ _ _)

theorem State.parts_haltRecorded : (s.haltRecorded k n cause addr detail).parts = (s.raiseHalt k).parts :=
  State.parts_writeRecord _ _ _ _

theorem State.memWf_of (h : s.hbm.wf = true) (h' : s.hostMem.wf = true) : s.memWf = true := by rw [State.memWf, h, h']; rfl

theorem State.byte_haltRecorded (hw : s.memWf = true) {l : Loc}
    (hl : l.onHost = true ∨ l.addr < (s.recordLoc k n.val).addr ∨ (s.recordLoc k n.val).addr + 64 ≤ l.addr) :
    (s.haltRecorded k n cause addr detail).byte l = s.byte l := by
  rw [← (s.raiseHalt_onlyHaltMarks k).recordLoc] at hl
  rw [State.haltRecorded, State.byte_writeRecord ((State.memWf_raiseHalt s k).trans hw) k n.val _ hl, State.byte, State.byte,
    State.raiseHalt_hbm, State.raiseHalt_hostMem]

theorem State.bytesAt_haltRecorded (hw : s.memWf = true) (hst : ((s.core k).fc n).status ≠ .free) {off m : Nat}
    (ho : off + m ≤ 64) : (s.haltRecorded k n cause addr detail).bytesAt ((s.recordLoc k n.val).plus off) m =
      (((s.raiseHalt k).fcRecord k n cause true ((s.raiseHalt k).wordAtPc k n) addr detail).drop off).take m := by
  have hm := s.raiseHalt_onlyHaltMarks k
  rw [← (hm.cores k).fc n] at hst
  rw [← hm.recordLoc]
  exact State.bytesAt_writeRecord ((State.memWf_raiseHalt s k).trans hw) k n.val (State.fcRecord_fields hst ..).1 ho

/-- What the record holds in memory (13 R351, R352). -/
theorem State.record_haltRecorded (hw : s.memWf = true) (hst : ((s.core k).fc n).status ≠ .free) :
    let t := s.haltRecorded k n cause addr detail
    let l := s.recordLoc k n.val
    t.bytesAt l 1 = leBytes 1 1 ∧ t.bytesAt (l.plus 2) 2 = leBytes 2 cause ∧ t.bytesAt (l.plus 6) 1 = leBytes 1 n.val ∧
      t.bytesAt (l.plus 24) 8 = leBytes 8 ((s.core k).fc n).pc.toNat ∧
      t.bytesAt (l.plus 40) 8 = leBytes 8 (if (2 ≤ cause ∧ cause ≤ 8) ∨ cause = 0x0F then addr.toNat else 0) ∧
      t.bytesAt (l.plus 56) 4 = leBytes 4 detail := by
  have hfc := ((s.raiseHalt_onlyHaltMarks k).cores k).fc n
  have hcause : causeHasAddr cause = true ↔ (2 ≤ cause ∧ cause ≤ 8) ∨ cause = 0x0F := by simp [causeHasAddr]
  obtain ⟨-, h0, h2, h6, h24, h40, h56⟩ := State.fcRecord_fields (s := s.raiseHalt k) (k := k) (n := n) (hfc ▸ hst) cause true
    ((s.raiseHalt k).wordAtPc k n) addr detail
  rw [hfc] at h24
  simp only [hcause] at h40
  have hat {off m : Nat} (ho : off + m ≤ 64) := State.bytesAt_haltRecorded (cause := cause) (addr := addr) (detail := detail) hw hst ho
  exact ⟨(hat (by decide)).trans h0, (hat (by decide)).trans h2, (hat (by decide)).trans h6, (hat (by decide)).trans h24,
    (hat (by decide)).trans h40, (hat (by decide)).trans h56⟩

end Recorded

/-! ## The context stops -/

/-- A switch leaves a context that is not ready, and every buffer, as they were. -/
theorem Core.fc_switch_of_not_ready {c : Core} {n : Fin 8} (h : (c.fc n).isReady = false) : c.switch.fc n = c.fc n := by
  unfold Core.switch
  split
  · rfl
  next m hm =>
    have hne : m ≠ n := by
      rintro rfl
      exact absurd (List.find?_some hm) (by rw [h]; decide)
    exact Core.fc_setFc_ne c _ hne

theorem Core.buf_switch (c : Core) (b : Buf) : c.switch.buf b = c.buf b ∧ c.switch.fullOf b = c.fullOf b := by
  unfold Core.switch
  split
  · exact ⟨rfl, rfl⟩
  · cases b <;> exact ⟨rfl, rfl⟩

/-- A firing of a context after a change of it. -/
theorem Context.firing_modFiring {c : Context} {fid : Nat} {f : Firing} (u : Firing → Firing) (h : look c.firings fid = some f) :
    (c.modFiring fid u).firing fid = u f := by
  have hmap : (c.firings.map fun e => if e.1 = fid then (e.1, u e.2) else e) =
      c.firings.map fun e => (e.1, (fun k v => if k = fid then u v else v) e.1 e.2) :=
    List.map_congr_left fun e _ => by
      by_cases he : e.1 = fid
      · simp only [he, if_true]
      · simp only [he, if_false]
  rw [Context.firing, Context.modFiring]
  simp only [hmap]
  rw [look_map_value c.firings (fun k v => if k = fid then u v else v), h, Option.map_some, if_pos rfl]
  rfl

theorem State.modCore_samePlaces (s : State) (k : CoreId) (f : Core → Core) : SamePlaces s (s.modCore k f) :=
  ⟨rfl, fun _ => rfl, fun _ => rfl⟩

theorem State.modCtx_samePlaces (s : State) (x : Nat) {f : Context → Context} (hb : ∀ c, (f c).stopBase = c.stopBase) :
    SamePlaces s (s.modCtx x f) := by
  refine ⟨rfl, fun _ => rfl, fun y => ?_⟩
  by_cases h : x = y
  · subst h; rw [State.ctx_modCtx_same, hb]
  · rw [State.ctx_modCtx_ne _ _ h]

theorem State.dropTasks_onlyHaltMarks (s : State) (x fid : Nat) : OnlyHaltMarks s (s.dropTasks x fid) := by
  unfold State.dropTasks
  extract_lets f child gone u
  refine (s.mapDies_onlyHaltMarks _).trans (State.mapCores_onlyHaltMarks _ fun j c => ?_)
  split
  · exact ⟨rfl, rfl, fun b => by cases b <;> exact ⟨rfl, rfl⟩⟩
  · exact SameWork.refl c

/-- The core of a context that stops with a cause of its own. -/
def Core.stopAt (c : Core) (n : Fin 8) (cause : Nat) : Core :=
  let c := { c with origins := put c.origins n.val cause }
  let c := c.setFc n (c.fc n).endHere
  if c.run = n then c.switch else c

theorem Core.fc_stopAt (c : Core) (n : Fin 8) (cause : Nat) : (c.stopAt n cause).fc n = (c.fc n).endHere := by
  unfold Core.stopAt
  extract_lets d e
  have he : e.fc n = (c.fc n).endHere := Core.fc_setFc_same _ _ _
  split
  · rw [Core.fc_switch_of_not_ready (by rw [he]; rfl), he]
  · exact he

theorem Core.buf_stopAt (c : Core) (n : Fin 8) (cause : Nat) (b : Buf) :
    (c.stopAt n cause).buf b = c.buf b ∧ (c.stopAt n cause).fullOf b = c.fullOf b := by
  have hset (d : Core) (f : FiringCtx) : (d.setFc n f).buf b = d.buf b ∧ (d.setFc n f).fullOf b = d.fullOf b := by
    cases b <;> exact ⟨rfl, rfl⟩
  have hor (o : List (Nat × Nat)) : ({ c with origins := o } : Core).buf b = c.buf b ∧
      ({ c with origins := o } : Core).fullOf b = c.fullOf b := by
    cases b <;> exact ⟨rfl, rfl⟩
  unfold Core.stopAt
  extract_lets d e
  have he : e.buf b = c.buf b ∧ e.fullOf b = c.fullOf b :=
    ⟨(hset d _).1.trans (hor _).1, (hset d _).2.trans (hor _).2⟩
  split
  · exact ⟨(Core.buf_switch e b).1.trans he.1, (Core.buf_switch e b).2.trans he.2⟩
  · exact he

/-- A firing that a context no longer has in progress, with what it held. -/
def State.endFiring (s : State) (x fid cause : Nat) : State :=
  if (look s.ctxs x).isSome then s.modCtx x fun c => c.dropFiring fid cause else s

/-- Raising a cause: the halt and the record, the context stops, and its firing ends. -/
theorem State.raise_eq (s : State) (cause : Nat) (addr : Word) (detail : Nat) :
    s.raise cause addr detail =
      (((s.haltRecorded s.now s.cur.run cause addr detail).modCore s.now fun c => c.stopAt s.cur.run cause).endFiring
        s.x s.fid cause).dropTasks s.x s.fid := by
  have hu : OnlyHaltMarks s (s.haltRecorded s.now s.cur.run cause addr detail) := State.haltRecorded_onlyHaltMarks
  have hfid : (((s.haltRecorded s.now s.cur.run cause addr detail).core s.now).fc s.cur.run).fid = s.fid :=
    congrArg FiringCtx.fid ((hu.cores s.now).fc s.cur.run)
  rw [← hfid, State.x, ← hu.cxId s.now]
  rfl

theorem State.endFiring_samePlaces (s : State) (x fid cause : Nat) : SamePlaces s (s.endFiring x fid cause) := by
  unfold State.endFiring
  split
  · exact s.modCtx_samePlaces x fun _ => rfl
  · exact SamePlaces.refl s

theorem State.parts_endFiring (s : State) (x fid cause : Nat) : (s.endFiring x fid cause).parts = s.parts := by
  unfold State.endFiring
  split <;> rfl

theorem State.core_endFiring (s : State) (x fid cause : Nat) (j : CoreId) : (s.endFiring x fid cause).core j = s.core j := by
  unfold State.endFiring
  split <;> rfl

theorem State.byte_endFiring (s : State) (x fid cause : Nat) (l : Loc) : (s.endFiring x fid cause).byte l = s.byte l := by
  unfold State.endFiring
  split <;> rfl

theorem State.firing_endFiring {s : State} {x fid : Nat} {f : Firing} (cause : Nat) (hx : (look s.ctxs x).isSome = true)
    (hf : look (s.ctx x).firings fid = some f) :
    (((s.endFiring x fid cause).ctx x).firing fid).ended = true ∧
      (((s.endFiring x fid cause).ctx x).firing fid).cause = some cause := by
  rw [State.endFiring, if_pos hx, State.ctx_modCtx_same]
  have h : ((s.ctx x).dropFiring fid cause).firing fid = _ := Context.firing_modFiring
    (fun f => { f with ended := true, cause := some cause, msgs := [], resv := [], lease := [], writes := [] }) hf
  rw [h]
  exact ⟨rfl, rfl⟩

/-- Raising a cause is taking an exception, for every cause, address and detail. -/
theorem State.tookException_raise {s : State} {p : Partition} (cause : Nat) (addr : Word) (detail : Nat) (hw : s.memWf = true)
    (hp : s.partOf s.now = some p) (hst : s.fc.status ≠ .free) : TookException s (s.raise cause addr detail) cause addr detail := by
  have hu : OnlyHaltMarks s (s.haltRecorded s.now s.cur.run cause addr detail) := State.haltRecorded_onlyHaltMarks
  have hrec := State.record_haltRecorded (cause := cause) (addr := addr) (detail := detail) hw hst
  have hbyte {l : Loc} := State.byte_haltRecorded (s := s) (k := s.now) (n := s.cur.run) (cause := cause) (addr := addr)
    (detail := detail) hw (l := l)
  have hparts := State.parts_haltRecorded (s := s) (k := s.now) (n := s.cur.run) (cause := cause) (addr := addr) (detail := detail)
  rw [State.raise_eq]
  generalize s.haltRecorded s.now s.cur.run cause addr detail = u at hu hrec hbyte hparts
  let v := u.modCore s.now fun c => c.stopAt s.cur.run cause
  let w := v.endFiring s.x s.fid cause
  change TookException s (w.dropTasks s.x s.fid) cause addr detail
  have hw' : OnlyHaltMarks w (w.dropTasks s.x s.fid) := w.dropTasks_onlyHaltMarks _ _
  have hplaces : SamePlaces s (w.dropTasks s.x s.fid) :=
    ((hu.toSamePlaces.trans (u.modCore_samePlaces _ _)).trans (v.endFiring_samePlaces _ _ _)).trans hw'.toSamePlaces
  have hcore : SameWork ((u.core s.now).stopAt s.cur.run cause) (w.dropTasks s.x s.fid).cur := by
    have := hw'.cores s.now
    rw [v.core_endFiring, State.core_modCore_same] at this
    have hcur : (w.dropTasks s.x s.fid).cur = (w.dropTasks s.x s.fid).core s.now := congrArg _ hplaces.now
    rwa [hcur]
  have hfc : (w.dropTasks s.x s.fid).cur.fc s.cur.run = s.fc.endHere := by
    rw [hcore.fc, Core.fc_stopAt, (hu.cores s.now).fc]; rfl
  have hsame (l : Loc) : (w.dropTasks s.x s.fid).byte l = u.byte l := v.byte_endFiring _ _ _ l
  have hrecs (l : Loc) (m : Nat) : (w.dropTasks s.x s.fid).bytesAt l m = u.bytesAt l m := by
    simp only [State.bytesAt, hsame]
  refine ⟨?_, ?_, ?_, ?_, fun f hf hx => ?_, ?_, ?_, fun l hl => ?_, fun b => ?_⟩
  · rw [hfc]; rfl
  · rw [hfc]; rfl
  · rw [hfc]; exact ⟨rfl, rfl, rfl, rfl, rfl, rfl⟩
  · rw [hfc]; exact ⟨rfl, rfl⟩
  · rw [Context.firing, hw'.firings, ← Context.firing]
    exact State.firing_endFiring cause ((hu.listed s.x).trans hx) ((hu.firings s.x).symm ▸ hf)
  · have h : (w.dropTasks s.x s.fid).parts = (s.raiseHalt s.now).parts := (v.parts_endFiring _ _ _).trans hparts
    rw [State.halted, State.partOf, h]
    exact State.halted_raiseHalt hp
  · rw [hplaces.recordLoc]
    simp only [hrecs]
    exact hrec
  · rw [hplaces.recordLoc] at hl
    rw [hsame, hbyte hl]
  · obtain ⟨hb, hfull⟩ := Core.buf_stopAt (u.core s.now) s.cur.run cause b
    obtain ⟨hb', hfull'⟩ := (hu.cores s.now).buf b
    exact ⟨(hcore.buf b).1.trans (hb.trans hb'), (hcore.buf b).2.trans (hfull.trans hfull')⟩

/-! ## `ebrk` (13 R384) -/

theorem OnlyHaltMarks.cur {s t : State} (h : OnlyHaltMarks s t) : SameWork s.cur t.cur := by
  rw [State.cur, State.cur, h.now]
  exact h.cores _

theorem OnlyHaltMarks.fc {s t : State} (h : OnlyHaltMarks s t) : t.fc = s.fc := by
  rw [State.fc, State.fc, h.cur.run, h.cur.fc]

/-- The core of a context that stops behind its `ebrk`. -/
def Core.breakAt (c : Core) (n : Fin 8) : Core :=
  let c := { c with origins := put c.origins n.val 0x13 }
  (c.setFc n { c.fc n with status := .ready, stopped := true }).switch

theorem Core.fc_breakAt (c : Core) (n : Fin 8) : (c.breakAt n).fc n = { c.fc n with status := .ready, stopped := true } := by
  unfold Core.breakAt
  extract_lets d
  rw [Core.fc_switch_of_not_ready (by rw [Core.fc_setFc_same]; rfl), Core.fc_setFc_same]
  rfl

/-- Nothing but the acting core differs after the record of an `ebrk`, whose context has gone on by a word and stopped. -/
theorem exec_ebrk_eq (s : State) :
    exec .ebrk s = .next ((s.haltRecorded s.now s.cur.run 0x13 0 0).advance.modCore s.now fun c => c.breakAt s.cur.run) := rfl

theorem exec_ebrk_spec {s : State} {p : Partition} (hw : s.memWf = true) (hp : s.partOf s.now = some p)
    (hst : s.fc.status ≠ .free) :
    ∃ t, exec .ebrk s = .next t ∧
      t.cur.fc s.cur.run =
        { s.fc.go (loopTest s.pc none s.fc.loops (s.pc + 4)) with status := .ready, stopped := true } ∧
      t.halted s.now = true ∧ t.bytesAt ((t.recordLoc s.now s.cur.run.val).plus 2) 2 = leBytes 2 0x13 ∧
      t.bytesAt ((t.recordLoc s.now s.cur.run.val).plus 24) 8 = leBytes 8 s.pc.toNat := by
  have hu : OnlyHaltMarks s (s.haltRecorded s.now s.cur.run 0x13 0 0) := State.haltRecorded_onlyHaltMarks
  obtain ⟨-, hcause, -, hpc, -, -⟩ := State.record_haltRecorded (cause := 0x13) (addr := 0) (detail := 0) hw hst
  have hparts := State.parts_haltRecorded (s := s) (k := s.now) (n := s.cur.run) (cause := 0x13) (addr := 0) (detail := 0)
  refine ⟨_, exec_ebrk_eq s, ?_, ?_, ?_, ?_⟩
  all_goals generalize s.haltRecorded s.now s.cur.run 0x13 0 0 = u at hu hcause hpc hparts ⊢
  · have hadv : (u.advance.core s.now).fc s.cur.run = s.fc.go (loopTest s.pc none s.fc.loops (s.pc + 4)) := by
      rw [← hu.now, ← hu.cur.run, State.pc, ← hu.fc]
      exact (congrArg (Core.fc · u.cur.run) (State.core_setCore_same u u.now _)).trans (Core.fc_setFc_same _ _ _)
    have hcur : (u.advance.modCore s.now fun c => c.breakAt s.cur.run).cur = (u.advance.core s.now).breakAt s.cur.run := by
      rw [State.cur, show (u.advance.modCore s.now fun c => c.breakAt s.cur.run).now = s.now from hu.now, State.core_modCore_same]
    rw [hcur, Core.fc_breakAt, hadv]
  · have h : (u.advance.modCore s.now fun c => c.breakAt s.cur.run).parts = (s.raiseHalt s.now).parts := hparts
    rw [State.halted, State.partOf, h]
    exact State.halted_raiseHalt hp
  · exact (congrArg (fun l => u.bytesAt (l.plus 2) 2) (hu.recordLoc _ _)).trans hcause
  · exact (congrArg (fun l => u.bytesAt (l.plus 24) 8) (hu.recordLoc _ _)).trans hpc

/-! ## `idle` (13 R385) -/

theorem exec_idleTimeout_blocked {s : State} {k : CoreId} {n : Fin 8} (hb : ((s.core k).fc n).status = .blocked .idle)
    (hs : ((s.core k).fc n).stopped = false) :
    exec (.idleTimeout k n.val) s = .next (s.modCore k fun d => d.setFc n { (s.core k).fc n with expired := true }) := by
  have h : exec (.idleTimeout k n.val) s = execIdleTimeout k n.val s := rfl
  rw [h, execIdleTimeout, Fin.ofNat_val_eq_self]
  simp only [hb, hs, decide_true, Bool.not_false, Bool.and_self, if_true]

/-! ## The obligation -/

theorem instructionsThatTrap : InstructionsThatTrap := fun s w c =>
  ⟨rfl, rfl, rfl, rfl, fun _ _ hm hh hp _ hr _ =>
    ⟨_, rfl, State.tookException_raise _ _ _ (State.memWf_of hm hh) hp (by rw [hr]; nofun)⟩⟩

theorem breakAndIdle : BreakAndIdle := by
  refine ⟨fun s p x hm hh hp _ hr _ => ?_, fun s he => ?_, fun s he => ?_, fun s k n hb hs => ?_⟩
  · obtain ⟨t, hexec, hfc, hhalt, hcause, hpc⟩ := exec_ebrk_spec (State.memWf_of hm hh) hp (by rw [hr]; nofun)
    refine ⟨t, hexec, ?_, fun hend => ?_, fun l r hl hpast hn => ?_, ?_, ?_, ?_, ?_, ?_, ?_, hhalt, hcause, hpc⟩ <;> rw [hfc]
    · rw [loopTest_none _ _ _ hend]; exact ⟨rfl, rfl⟩
    · rw [hl, loopTest_again _ _ _ _ hpast hn]; exact ⟨rfl, rfl⟩
    all_goals rfl
  · exact ⟨_, if_pos he, s.advance_spec⟩
  · exact if_neg (by rw [he]; decide)
  · refine ⟨_, exec_idleTimeout_blocked hb hs, ?_, fun m hm => ?_, fun j hj => ?_⟩
    · rw [State.core_modCore_same, Core.fc_setFc_same]
    · rw [State.core_modCore_same, Core.fc_setFc_ne _ _ (Ne.symm hm)]
    · rw [State.core_modCore_ne _ _ (Ne.symm hj)]

/-- Settles O46, by its two parts. -/
theorem trapsAndIdle : Obligations.TrapsAndIdle := ⟨instructionsThatTrap, breakAndIdle⟩

end Sys2Proof.Machine
end

section
/-!
Command registers (03 R69, R71, R92): the checks of the address, bytes that enter the store buffer and are read from it, and the
bit field that `qins` replaces.
-/
namespace Sys2Proof.Machine

open Sys2Proof.Safety

/-! ## Addresses (03 R92) -/

/-- The address of `qld` and `qst`. -/
theorem State.eaQ_eq (s : State) (a : Fin 32) (o : BitVec 16) : s.eaQ a o = s.g a + BitVec.ofInt 64 (16 * o.toInt) := by
  rw [State.eaQ, BitVec.ofInt_mul]; rfl

/-- An aligned canonical address goes on to its translation. -/
theorem State.accessQ_of_sound {s : State} {va : Word} {kind : AccessKind} (hc : Canon va) (ha : va.toNat % 16 = 0) (k : Loc → Res) :
    s.accessQ va kind k = s.withLoc va kind k := by
  rw [State.accessQ, if_neg (not_not.2 ha), (canonical_iff va).2 hc]; rfl

theorem State.accessQ_of_ok {s : State} {va : Word} {kind : AccessKind} {l : Loc} (hc : Canon va) (ha : va.toNat % 16 = 0)
    (ht : s.translate va.toNat kind = .ok l) (k : Loc → Res) : s.accessQ va kind k = k l := by
  rw [State.accessQ_of_sound hc ha, State.withLoc, ht]

/-- A word whose access is `accessQ` has the checks of 03 R92. -/
theorem quadChecks_of_accessQ {i : Instr} {ea : State → Word} {kind : AccessKind} {k : State → Loc → Res}
    (h : ∀ s, exec i s = s.accessQ (ea s) kind (k s)) : QuadChecks i ea kind := fun s => by
  refine ⟨fun ha => ?_, fun ha hc => ?_, fun hc ha => ?_⟩
  · rw [h, State.accessQ, if_pos ha]
  · rw [h, State.accessQ, if_neg (not_not.2 ha), (canonical_eq_false_iff _).2 hc]; rfl
  · rw [h, State.accessQ_of_sound hc ha, State.withLoc]
    exact ⟨fun ht => by rw [ht], fun ht => by rw [ht], fun ht => by rw [ht]⟩

/-! ## Words that change registers of the running context -/

theorem State.setQ_setFc (s : State) (f : FiringCtx) (q : Fin 16) (v : QWord) :
    (s.setFc f).setQ q v = s.setFc { f with q := f.q.set q v } := by
  rw [State.setQ, State.fc_setFc, State.setFc_setFc]

/-- A word that leaves f in the running context, with the pc and loops of its end. -/
theorem State.advance_of_setFc {s : State} {f : FiringCtx} (hp : f.pc = s.fc.pc) (hl : f.loops = s.fc.loops) :
    FallsThrough s (s.setFc f).advance ∧ OnlyContext s (s.setFc f).advance ∧
      ∃ x, (s.setFc f).advance = s.setFc (f.go x) := by
  rw [State.advance_setFc s f hp hl]
  exact ⟨s.fallsThrough_go f, s.setFc_onlyContext _, _, rfl⟩

theorem keepsRegs_of_fc {s t : State} (hg : t.fc.g = s.fc.g) (hp : t.fc.p = s.fc.p) (hqfj : KeepsQFJ s t) : KeepsRegs s t :=
  ⟨fun r => by rw [State.g, State.g, hg], fun r => by rw [State.p, State.p, hp], hqfj⟩

/-! ## Lines of a store buffer (03 R69) -/

theorem getElem?_leBytes (n v : Nat) {i : Nat} (hi : i < n) : (leBytes n v)[i]? = some (BitVec.ofNat 8 (v / 256 ^ i)) := by
  induction n generalizing v i with
  | zero => exact absurd hi (Nat.not_lt_zero i)
  | succ n ih =>
    cases i with
    | zero => rw [leBytes, List.getElem?_cons_zero, pow_zero, Nat.div_one]
    | succ i => rw [leBytes, List.getElem?_cons_succ, ih _ (Nat.lt_of_succ_lt_succ hi), Nat.div_div_eq_div_mul, pow_succ']

/-- A byte of a line after bytes were put into it from an offset on. -/
theorem look_foldl_put (bs : List Byte) (off k : Nat) (a : List (Nat × Byte)) (j : Nat) :
    look ((bs.zipIdx k).foldl (fun a b => put a (off + b.2) b.1) a) j =
      if off + k ≤ j ∧ j < off + k + bs.length then bs[j - (off + k)]? else look a j := by
  induction bs generalizing k a with
  | nil => rw [if_neg (by simp)]; rfl
  | cons b bs ih =>
    rw [List.zipIdx_cons, List.foldl_cons, ih (k + 1)]
    rcases Nat.lt_trichotomy j (off + k) with hj | hj | hj
    · rw [if_neg (by omega), if_neg (by omega), look_put_ne _ _ (by omega)]
    · subst hj
      rw [if_neg (by omega), if_pos (by simp), look_put_same, Nat.sub_self]; rfl
    · by_cases hin : j < off + k + (b :: bs).length
      · have hlen : (b :: bs).length = bs.length + 1 := rfl
        rw [if_pos (by omega), if_pos (by omega), show j - (off + k) = j - (off + (k + 1)) + 1 by omega, List.getElem?_cons_succ]
      · have hlen : (b :: bs).length = bs.length + 1 := rfl
        rw [if_neg (by omega), if_neg (by omega), look_put_ne _ _ (by omega)]

theorem Line.look_putBytes (n : Line) (off : Nat) (bs : List Byte) (j : Nat) :
    look (n.putBytes off bs).bytes j = if off ≤ j ∧ j < off + bs.length then bs[j - off]? else look n.bytes j :=
  look_foldl_put bs off 0 n.bytes j

/-- A line of a store buffer is that of a location. -/
def Line.holds (n : Line) (l : Loc) : Bool := n.onHost = l.onHost && n.num = l.addr / 64

theorem Line.holds_iff (n : Line) (l : Loc) : n.holds l = true ↔ n.onHost = l.onHost ∧ n.num = l.addr / 64 := by
  simp [Line.holds]

theorem Line.holds_putBytes (n : Line) (off : Nat) (bs : List Byte) (l : Loc) : (n.putBytes off bs).holds l = n.holds l := rfl

theorem lineByte_cons (n : Line) (r : List Line) (y : Loc) :
    lineByte (n :: r) y = (lineByte r y).or (if n.holds y = true then look n.bytes (y.addr % 64) else none) := by
  rw [lineByte]
  cases lineByte r y <;> rfl

theorem lineByte_append_one (sb : List Line) (n : Line) (y : Loc) :
    lineByte (sb ++ [n]) y = (if n.holds y = true then look n.bytes (y.addr % 64) else none).or (lineByte sb y) := by
  induction sb with
  | nil => rw [List.nil_append, lineByte_cons]; simp [lineByte]
  | cons m r ih => rw [List.cons_append, lineByte_cons, ih, lineByte_cons, Option.or_assoc]

/-- The buffer has no byte of a line that it does not hold. -/
theorem lineByte_of_no_line {sb : List Line} {l y : Loc} (h : hasLine sb l = false) (ho : y.onHost = l.onHost)
    (hn : y.addr / 64 = l.addr / 64) : lineByte sb y = none := by
  induction sb with
  | nil => rfl
  | cons n r ih =>
    obtain ⟨hn', hr⟩ : n.holds l = false ∧ hasLine r l = false := by simpa [hasLine, Line.holds] using h
    have hy : n.holds y = n.holds l := by rw [Line.holds, Line.holds, ho, hn]
    rw [lineByte_cons, ih hr, hy, hn']; rfl

/-- The bytes y of a store of n bytes at l (03 R69). -/
def Stored (l : Loc) (n : Nat) (y : Loc) : Prop := y.onHost = l.onHost ∧ l.addr ≤ y.addr ∧ y.addr < l.addr + n

section StoreBuffer
variable {l y : Loc} {bs : List Byte}

/-- A byte of a line that takes the bytes of a store within one line. -/
theorem Line.byte_putBytes {n : Line} (hn : n.holds l = true) (hy : n.holds y = true) :
    (Stored l bs.length y → look (n.putBytes (l.addr % 64) bs).bytes (y.addr % 64) = bs[y.addr - l.addr]?) ∧
      (¬Stored l bs.length y → look (n.putBytes (l.addr % 64) bs).bytes (y.addr % 64) = look n.bytes (y.addr % 64)) := by
  obtain ⟨hno, hnn⟩ := (n.holds_iff l).1 hn
  obtain ⟨hyo, hyn⟩ := (n.holds_iff y).1 hy
  rw [Line.look_putBytes]
  refine ⟨fun ⟨_, hlo, hhi⟩ => ?_, fun h => ?_⟩
  · rw [if_pos (by omega), show y.addr % 64 - l.addr % 64 = y.addr - l.addr by omega]
  · exact if_neg fun hin => h ⟨hyo.symm.trans hno, by omega, by omega⟩

/-- A line of the buffer after a store at l: its own line takes the bytes. -/
def Line.takes (l : Loc) (bs : List Byte) (n : Line) : Line := if n.holds l = true then n.putBytes (l.addr % 64) bs else n

theorem sbPut_eq (sb : List Line) (l : Loc) (bs : List Byte) :
    sbPut sb l bs = if hasLine sb l then sb.map (Line.takes l bs)
      else sb ++ [(⟨l.onHost, l.addr / 64, []⟩ : Line).putBytes (l.addr % 64) bs] := rfl

theorem Line.holds_takes (l : Loc) (bs : List Byte) (n : Line) (y : Loc) : (n.takes l bs).holds y = n.holds y := by
  unfold Line.takes
  split <;> rfl

theorem hasLine_map_takes (l y : Loc) (bs : List Byte) (sb : List Line) : hasLine (sb.map (Line.takes l bs)) y = hasLine sb y := by
  rw [hasLine, List.any_map]
  exact congrArg (List.any sb) (funext fun n => n.holds_takes l bs y)

/-- The buffer's own line of a store holds its bytes. -/
theorem lineByte_map_takes_stored {sb : List Line} (hfit : l.addr % 64 + bs.length ≤ 64) (hy : Stored l bs.length y)
    (h : hasLine sb l = true) : lineByte (sb.map (Line.takes l bs)) y = bs[y.addr - l.addr]? := by
  obtain ⟨ho, hlo, hhi⟩ := hy
  have hline : y.addr / 64 = l.addr / 64 := by omega
  induction sb with
  | nil => exact absurd h Bool.false_ne_true
  | cons n r ih =>
    rw [List.map_cons, lineByte_cons]
    cases hr : hasLine r l
    · have hn : n.holds l = true := by simpa [hasLine, Line.holds] using h.symm.trans (congrArg (n.holds l || ·) hr)
      have hny : n.holds y = true := by rw [← hn, Line.holds, Line.holds, ho, hline]
      rw [lineByte_of_no_line ((hasLine_map_takes l l bs r).trans hr) ho hline, Line.holds_takes, if_pos hny, Line.takes, if_pos hn]
      exact (Line.byte_putBytes hn hny).1 ⟨ho, hlo, hhi⟩
    · rw [ih hr, List.getElem?_eq_getElem (by omega)]; rfl

/-- Every other byte of the buffer stays. -/
theorem lineByte_map_takes_other {sb : List Line} (hy : ¬Stored l bs.length y) :
    lineByte (sb.map (Line.takes l bs)) y = lineByte sb y := by
  induction sb with
  | nil => rfl
  | cons n r ih =>
    rw [List.map_cons, lineByte_cons, lineByte_cons, ih, Line.holds_takes]
    by_cases hny : n.holds y = true
    · rw [if_pos hny, if_pos hny, Line.takes]
      split
      · rw [(Line.byte_putBytes ‹_› hny).2 hy]
      · rfl
    · rw [if_neg hny, if_neg hny]

/-- What the store buffer holds after a store within one line. -/
theorem lineByte_sbPut (sb : List Line) (hfit : l.addr % 64 + bs.length ≤ 64) :
    (Stored l bs.length y → lineByte (sbPut sb l bs) y = bs[y.addr - l.addr]?) ∧
      (¬Stored l bs.length y → lineByte (sbPut sb l bs) y = lineByte sb y) := by
  rw [sbPut_eq]
  cases h : hasLine sb l
  · let n : Line := ⟨l.onHost, l.addr / 64, []⟩
    have hn : n.holds l = true := (n.holds_iff l).2 ⟨rfl, rfl⟩
    change (_ → lineByte (sb ++ [n.putBytes (l.addr % 64) bs]) y = _) ∧ (_ → lineByte (sb ++ [n.putBytes (l.addr % 64) bs]) y = _)
    rw [lineByte_append_one, Line.holds_putBytes]
    refine ⟨fun hy => ?_, fun hy => ?_⟩
    · obtain ⟨ho, hlo, hhi⟩ := hy
      have hny : n.holds y = true := (n.holds_iff y).2 ⟨ho.symm, by show l.addr / 64 = _; omega⟩
      rw [if_pos hny, (Line.byte_putBytes hn hny).1 ⟨ho, hlo, hhi⟩, List.getElem?_eq_getElem (by omega)]; rfl
    · split
      · rw [(Line.byte_putBytes hn ‹_›).2 hy]; rfl
      · rfl
  · exact ⟨fun hy => lineByte_map_takes_stored hfit hy h, fun hy => lineByte_map_takes_other hy⟩

theorem length_sbPut_le {sb : List Line} (h : sbFull sb l = false) : (sbPut sb l bs).length ≤ max 16 sb.length := by
  rw [sbPut_eq]
  split
  · rw [List.length_map]; exact le_max_right _ _
  · next hl =>
    have hlt : sb.length < 16 := by simpa [sbFull, hl] using h
    rw [List.length_append, List.length_singleton]
    omega

end StoreBuffer

/-! ## Loads and stores of the running firing -/

/-- What a firing's loads return after bytes have entered its store buffer. -/
theorem State.loadByte_of_sbPut {s t : State} {l : Loc} {n v : Nat} (hfit : l.addr % 64 + n ≤ 64)
    (hsb : t.fc.sb = sbPut s.fc.sb l (leBytes n v)) (hpub : t.fc.pub = s.fc.pub) (hseen : ∀ y, t.seenByte t.x y = s.seenByte s.x y)
    (y : Loc) : t.loadByte y = if y.onHost = l.onHost ∧ l.addr ≤ y.addr ∧ y.addr < l.addr + n
      then BitVec.ofNat 8 (v / 256 ^ (y.addr - l.addr)) else s.loadByte y := by
  have hlen : (leBytes n v).length = n := length_leBytes n v
  obtain ⟨hin, hout⟩ := lineByte_sbPut (l := l) (y := y) (bs := leBytes n v) s.fc.sb (by rw [hlen]; exact hfit)
  rw [hlen] at hin hout
  rw [State.loadByte, hsb, hpub, hseen]
  by_cases hy : Stored l n y
  · obtain ⟨-, hlo, hhi⟩ := id hy
    rw [(hin hy).trans (getElem?_leBytes n v (by omega))]
    exact (if_pos hy).symm
  · rw [hout hy]
    exact (if_neg hy).symm

/-- A naturally aligned access lies in one line. -/
theorem aligned_fits_line {a n : Nat} (hn : n ∣ 64) (ha : a % n = 0) : a % 64 + n ≤ 64 := by
  obtain ⟨m, hm⟩ := hn
  obtain ⟨j, hj⟩ : n ∣ a % 64 := Nat.dvd_of_mod_eq_zero (by rw [hm, Nat.mod_mul_right_mod, ha])
  have hlt : n * j < n * m := by rw [← hj, ← hm]; exact Nat.mod_lt _ (by decide)
  calc a % 64 + n = n * (j + 1) := by rw [hj, Nat.mul_succ]
    _ ≤ n * m := Nat.mul_le_mul_left n (Nat.lt_of_mul_lt_mul_left hlt)
    _ = 64 := hm.symm

/-- A store of n bytes that `storeAt` performs (03 R69). -/
theorem storeEffect_of_storeAt {i : Instr} {ea : State → Word} {n : Nat} {v : State → Nat} (hn : n ∣ 64)
    (h : ∀ s l, Canon (ea s) → (ea s).toNat % n = 0 → s.translate (ea s).toNat .store = .ok l →
      exec i s = s.storeAt l (leBytes n (v s)) fun t => .next t.advance) : StoreEffect i ea n v := fun s l hc ha ht hl => by
  rw [h s l hc ha ht]
  refine ⟨fun hf => ?_, fun hf => ?_⟩
  · rw [State.storeAt, hf, if_neg (by decide)]
    let f : FiringCtx := { s.fc with sb := sbPut s.fc.sb l (leBytes n (v s)) }
    obtain ⟨hthrough, honly, x, hx⟩ := State.advance_of_setFc (s := s) (f := f) rfl rfl
    have hfc : (s.setFc f).advance.fc = f.go x := by rw [hx, State.fc_setFc]
    refine ⟨_, rfl, State.loadByte_of_sbPut (aligned_fits_line hn hl) (by rw [hfc]; rfl) (by rw [hfc]; rfl) fun y => ?_, ?_, honly,
      by rw [hfc]; rfl, by rw [hfc]; rfl, by rw [hfc]; rfl, by rw [hfc]; exact length_sbPut_le hf, hthrough⟩
    · rw [hx]; rfl
    · exact keepsRegs_of_fc (by rw [hfc]; rfl) (by rw [hfc]; rfl) (by rw [KeepsQFJ, hfc]; exact ⟨rfl, rfl, rfl⟩)
  · rw [State.storeAt, hf, if_pos rfl]

/-! ## `qld` and `qst` -/

/-- The lower half of a `qld` as it stood where it was read ahead, else as it stands. -/
theorem State.lowerHalf_eq {s : State} {l : Loc} {low : List Byte}
    (h : s.fc.half = some (l, low) ∨ (∀ bs, s.fc.half ≠ some (l, bs)) ∧ low = s.loadBytes l 8) : s.lowerHalf l = low := by
  rw [State.lowerHalf]
  rcases h with h | ⟨h, rfl⟩
  · rw [h]; exact if_pos rfl
  · split
    · next m bs hm => exact if_neg fun e => h bs (by rw [hm, e])
    · rfl

theorem exec_qld_eq (q : Fin 16) (a : Fin 32) (o : BitVec 16) (s : State) :
    exec (.qld q a o) s = s.accessQ (s.g a + BitVec.ofInt 64 (16 * o.toInt)) .load fun l => s.loadAt l fun t =>
      .next (t.setQ q (BitVec.ofNat 128 (leNat (s.lowerHalf l ++ s.loadBytes (l.plus 8) 8)))).advance := by
  rw [← s.eaQ_eq]; rfl

theorem exec_qst_eq (q : Fin 16) (a : Fin 32) (o : BitVec 16) (s : State) :
    exec (.qst q a o) s = s.accessQ (s.g a + BitVec.ofInt 64 (16 * o.toInt)) .store fun l =>
      s.storeAt l (leBytes 16 (s.q q).toNat) fun t => .next t.advance := by
  rw [← s.eaQ_eq]; rfl

/-- What a word leaves that writes v to q[r] and changes nothing else of the running context but f. -/
theorem State.setQ_advance_spec {s : State} {f : FiringCtx} (hp : f.pc = s.fc.pc) (hl : f.loops = s.fc.loops) (hg : f.g = s.fc.g)
    (hpr : f.p = s.fc.p) (hq : f.q = s.fc.q) (r : Fin 16) (v : QWord) :
    let t := (s.setFc { f with q := f.q.set r v }).advance
    t.q r = v ∧ (∀ n, n ≠ r → t.q n = s.q n) ∧ (∀ n, t.g n = s.g n) ∧ (∀ n, t.p n = s.p n) ∧ OnlyContext s t ∧ FallsThrough s t ∧
      ∃ x, t = s.setFc (({ f with q := f.q.set r v } : FiringCtx).go x) := by
  intro t
  obtain ⟨hthrough, honly, x, hx⟩ := State.advance_of_setFc (s := s) (f := { f with q := f.q.set r v }) hp hl
  have hfc : t.fc = ({ f with q := f.q.set r v } : FiringCtx).go x := (congrArg State.fc hx).trans (State.fc_setFc _ _)
  refine ⟨?_, fun n hn => ?_, fun n => ?_, fun n => ?_, honly, hthrough, x, hx⟩
  · rw [State.q, hfc]; exact vector_get_set_same _ r v
  · rw [State.q, hfc, State.q, ← hq]; exact vector_get_set_ne _ v hn.symm
  · rw [State.g, hfc, State.g, ← hg]; rfl
  · rw [State.p, hfc, State.p, ← hpr]; rfl

/-- What a `qld` does whose line is in the data L1. -/
theorem exec_qld_spec {s : State} {q : Fin 16} {a : Fin 32} {o : BitVec 16} {l : Loc} {low : List Byte}
    (hc : Canon (s.g a + BitVec.ofInt 64 (16 * o.toInt))) (ha : (s.g a + BitVec.ofInt 64 (16 * o.toInt)).toNat % 16 = 0)
    (ht : s.translate (s.g a + BitVec.ofInt 64 (16 * o.toInt)).toNat .load = .ok l) (hat : s.atomicOn s.now s.fid l.line = false)
    (hl : (s.cur.l1.any fun e => e.1 = l.line) = true)
    (hlow : s.fc.half = some (l, low) ∨ (∀ bs, s.fc.half ≠ some (l, bs)) ∧ low = s.loadBytes l 8) :
    ∃ t, exec (.qld q a o) s = .next t ∧ t.q q = BitVec.ofNat 128 (leNat (low ++ s.loadBytes (l.plus 8) 8)) ∧
      (∀ r, r ≠ q → t.q r = s.q r) ∧ (∀ r, t.g r = s.g r) ∧ (∀ r, t.p r = s.p r) ∧ t.fc.f = s.fc.f ∧ t.fc.j = s.fc.j ∧
      OnlyContext s t ∧ t.fc.sb = s.fc.sb ∧ FallsThrough s t := by
  rw [exec_qld_eq, State.accessQ_of_ok hc ha ht, State.loadAt, hat, hl, State.lowerHalf_eq hlow]
  obtain ⟨hq, hqs, hg, hp, honly, hthrough, x, hx⟩ := State.setQ_advance_spec (s := s) (f := s.fc.watchLine l.line) rfl rfl rfl rfl
    rfl q (BitVec.ofNat 128 (leNat (low ++ s.loadBytes (l.plus 8) 8)))
  refine ⟨_, congrArg (fun u : State => Host.Outcome.next u.advance) (s.setQ_setFc _ q _), hq, hqs, hg, hp, ?_, ?_, honly, ?_,
    hthrough⟩ <;> rw [hx, State.fc_setFc] <;> rfl

/-! ## `qins` -/

/-- A bit field of a command register, replaced. -/
theorem getLsbD_insertBits (q : QWord) (v : Word) {lo w : Nat} (h : lo + w ≤ 128) (n : Nat) :
    (insertBits q v lo w).getLsbD n = if lo ≤ n ∧ n < lo + w then v.getLsbD (n - lo) else q.getLsbD n := by
  have hmask : (BitVec.ofNat 128 ((2 ^ w - 1) * 2 ^ lo)).getLsbD n = decide (lo ≤ n ∧ n < lo + w) := by
    rw [BitVec.getLsbD_ofNat, Nat.testBit_mul_two_pow, Nat.testBit_two_pow_sub_one, Bool.eq_iff_iff]
    simp only [Bool.and_eq_true, decide_eq_true_eq]
    omega
  have hfield : (BitVec.ofNat 128 (v.toNat % 2 ^ w * 2 ^ lo)).getLsbD n =
      (decide (lo ≤ n ∧ n < lo + w) && v.getLsbD (n - lo)) := by
    rw [BitVec.getLsbD_ofNat, Nat.testBit_mul_two_pow, Nat.testBit_mod_two_pow, BitVec.testBit_toNat, ← Bool.and_assoc,
      ← Bool.and_assoc]
    congr 1
    rw [Bool.eq_iff_iff]
    simp only [Bool.and_eq_true, decide_eq_true_eq]
    omega
  rw [insertBits, BitVec.getLsbD_or, BitVec.getLsbD_and, BitVec.getLsbD_not, hmask, hfield]
  by_cases hn : lo ≤ n ∧ n < lo + w
  · rw [if_pos hn, decide_eq_true hn]; simp
  · rw [if_neg hn, decide_eq_false hn]
    by_cases h128 : n < 128
    · simp [h128]
    · simp [h128, BitVec.getLsbD_of_ge q n (Nat.le_of_not_lt h128)]

theorem exec_qins_spec (s : State) (q : Fin 16) (a : Fin 32) (l : BitVec 7) (w : BitVec 6) :
    (l.toNat + (w.toNat + 1) ≤ 128 → ∃ t, exec (.qins q a l w) s = .next t ∧
      (∀ n, (t.q q).getLsbD n = if l.toNat ≤ n ∧ n < l.toNat + (w.toNat + 1) then (s.g a).getLsbD (n - l.toNat)
        else (s.q q).getLsbD n) ∧
      (∀ r, r ≠ q → t.q r = s.q r) ∧ (∀ r, t.g r = s.g r) ∧ (∀ r, t.p r = s.p r) ∧ t.fc.f = s.fc.f ∧ t.fc.j = s.fc.j ∧
      OnlyRegs s t ∧ FallsThrough s t) ∧
    (128 < l.toNat + (w.toNat + 1) → exec (.qins q a l w) s = .next (s.raise 0x01 0 0)) := by
  refine ⟨fun h => ?_, fun h => if_neg (by omega)⟩
  have hexec : exec (.qins q a l w) s =
      .next (s.setFc { s.fc with q := s.fc.q.set q (insertBits (s.q q) (s.g a) l.toNat (w.toNat + 1)) }).advance := if_pos h
  obtain ⟨hq, hqs, hg, hp, -, hthrough, x, hx⟩ := State.setQ_advance_spec (s := s) (f := s.fc) rfl rfl rfl rfl rfl q
    (insertBits (s.q q) (s.g a) l.toNat (w.toNat + 1))
  refine ⟨_, hexec, fun n => (congrArg (BitVec.getLsbD · n) hq).trans (getLsbD_insertBits _ _ h n), hqs, hg, hp, ?_, ?_, ?_, hthrough⟩ <;> rw [hx]
  · rw [State.fc_setFc]; rfl
  · rw [State.fc_setFc]; rfl
  · exact State.setFc_onlyRegs s _ rfl

theorem commandRegisters : CommandRegisters := fun q a o =>
  ⟨quadChecks_of_accessQ (exec_qld_eq q a o),
    fun _ _ _ hc ha ht hat hl hlow => exec_qld_spec hc ha ht hat hl hlow,
    quadChecks_of_accessQ (exec_qst_eq q a o),
    storeEffect_of_storeAt (by decide) fun s l hc ha ht => (exec_qst_eq q a o s).trans (State.accessQ_of_ok hc ha ht _),
    fun s l w => exec_qins_spec s q a l w⟩

end Sys2Proof.Machine
end

section
/-!
Issue of commands and handle counts (03 R93, R95, 05 R147).
-/
namespace Sys2Proof.Machine

open Sys2Proof.Safety

/-! ## Changes of the acting core -/

/-- A word ends on a core that has changed outside its firing contexts. -/
theorem State.fallsThrough_advance_of {s u : State} (hp : u.fc.pc = s.fc.pc) (hl : u.fc.loops = s.fc.loops) :
    FallsThrough s u.advance := by
  have h := u.advance_spec.2.2
  rwa [FallsThrough, State.pc, hp, hl] at h

theorem State.keepsRegs_advance_of {s u : State} (hg : u.fc.g = s.fc.g) (hp : u.fc.p = s.fc.p) (hqfj : KeepsQFJ s u) :
    KeepsRegs s u.advance := by
  obtain ⟨hq, hf, hj⟩ := hqfj
  have hfc : u.advance.fc = u.fc.go (loopTest u.pc none u.fc.loops (u.pc + 4)) := State.fc_setFc _ _
  exact keepsRegs_of_fc ((congrArg FiringCtx.g hfc).trans hg) ((congrArg FiringCtx.p hfc).trans hp)
    ⟨(congrArg FiringCtx.q hfc).trans hq, (congrArg FiringCtx.f hfc).trans hf, (congrArg FiringCtx.j hfc).trans hj⟩

/-! ## Entering a command (03 R93) -/

/-- What an `fopen` or `lsync` has attached at issue (10 R286, 04 R135). -/
def State.attachedAt (s : State) (w : QWord) : QWord :=
  if opOf w = 0x39 then
    BitVec.ofNat 128 ((((s.ctx s.x).launch ((cmdOf w).operand.toNat % 65536)).map fun l => 1 + l.serial * 2 ^ 64).getD 0)
  else s.fc.j.get (Fin.ofNat 8 (cmdOf w).cflags.toNat)

/-- The state after a command has entered the queue. -/
def State.entered (s : State) (w jv : QWord) : State :=
  let o := (cmdOf w).operand.toNat
  let key := (bitsOf o 10 8, bitsOf o 7 5)
  let n := (look s.cur.colls key).getD 0
  (if opOf w = 0x29 then s.modFiring s.x s.fid fun f => { f with colls := f.colls ++ [(key, n)] } else s).modCore s.now
    fun c => c.enqueue s.fid s.firing.cx w jv

/-- The command of q has been found without fault, and is published, waits for room, or enters (03 R93). -/
theorem State.issueCmd_of_passes {s : State} {q : Fin 16} {cmdw : Bool}
    (h : s.fc.checked = true ∨ s.cmdFault (s.q q) cmdw (s.attachedAt (s.q q)) = none) (k : State → Nat → Res) :
    s.issueCmd q cmdw k = (s.setFc { s.fc with checked := true }).publishThen fun u =>
      if 32 ≤ u.cur.queued.length then .next (u.block .queueRoom)
      else k (u.entered (s.q q) (s.attachedAt (s.q q))) u.cur.nextCmd := by
  have hnone : (if s.fc.checked then none else s.cmdFault (s.q q) cmdw (s.attachedAt (s.q q))) = none := by
    rcases h with h | h
    · rw [h]; rfl
    · rw [h]; exact ite_self _
  unfold State.issueCmd
  extract_lets w live jv
  change (match (if s.fc.checked then none else s.cmdFault (s.q q) cmdw (s.attachedAt (s.q q))) with
    | some r => _
    | none => _) = _
  rw [hnone]
  rfl

theorem State.issueCmd_of_fault {s : State} {q : Fin 16} {cmdw : Bool} {r : Nat} (hc : s.fc.checked = false)
    (hf : s.cmdFault (s.q q) cmdw (s.attachedAt (s.q q)) = some r) (k : State → Nat → Res) :
    s.issueCmd q cmdw k = .next (s.raise 0x0A 0 r) := by
  have hsome : (if s.fc.checked then none else s.cmdFault (s.q q) cmdw (s.attachedAt (s.q q))) = some r := by
    rw [hc, hf]; rfl
  unfold State.issueCmd
  extract_lets w live jv
  change (match (if s.fc.checked then none else s.cmdFault (s.q q) cmdw (s.attachedAt (s.q q))) with
    | some r => _
    | none => _) = _
  rw [hsome]

/-! ## Publication (03 R69) -/

/-- A publication point of a firing that has something to publish blocks. -/
theorem State.publishThen_of_not_published {s : State} (h : ¬Published s) (k : State → Res) :
    s.publishThen k = .next ((s.setFc { s.fc with sb := [], pub := s.fc.pub ++ s.fc.sb }).block .publication) := by
  rcases s.publishThen_cases k with ⟨hsb, hpub, hq, -⟩ | e
  · exact absurd ⟨hsb, hpub, hq⟩ h
  · exact e

theorem State.published_setFc {s : State} {f : FiringCtx} (hsb : f.sb = s.fc.sb) (hpub : f.pub = s.fc.pub) (hfid : f.fid = s.fc.fid) :
    Published (s.setFc f) ↔ Published s := by
  rw [Published, State.fid, State.fc_setFc, State.cur_setFc, hsb, hpub, hfid]
  exact Iff.rfl

/-! ## The command in the queue -/

/-- A command that enters stands at the queue's end, with a copy of its word. -/
theorem Core.cmds_enqueue (c : Core) (fid cx : Nat) (w jv : QWord) :
    ∃ e, (c.enqueue fid cx w jv).cmds = c.cmds ++ [e] ∧ e.word = w ∧ e.id = c.nextCmd ∧ e.fid = fid ∧ e.stage = .queued :=
  ⟨_, rfl, rfl, rfl, rfl, rfl⟩

theorem Core.fc_enqueue (c : Core) (fid cx : Nat) (w jv : QWord) (n : Fin 8) : (c.enqueue fid cx w jv).fc n = c.fc n := rfl

/-- Entering a command changes the acting core and marks of firings. -/
theorem State.entered_eq (s : State) (w jv : QWord) :
    ∃ cs, s.entered w jv = ({ s with ctxs := cs } : State).modCore s.now fun c => c.enqueue s.fid s.firing.cx w jv := by
  unfold State.entered
  extract_lets o key n
  split
  · unfold State.modFiring
    split
    · exact ⟨_, rfl⟩
    · exact ⟨s.ctxs, rfl⟩
  · exact ⟨s.ctxs, rfl⟩

theorem State.cur_entered (s : State) (w jv : QWord) : (s.entered w jv).cur = s.cur.enqueue s.fid s.firing.cx w jv := by
  obtain ⟨cs, h⟩ := s.entered_eq w jv
  rw [h]
  exact State.core_setCore_same _ _ _

theorem State.fc_entered (s : State) (w jv : QWord) : (s.entered w jv).fc = s.fc := by
  rw [State.fc, State.cur_entered]; rfl

theorem State.byte_entered (s : State) (w jv : QWord) (l : Loc) : (s.entered w jv).byte l = s.byte l := by
  obtain ⟨cs, h⟩ := s.entered_eq w jv
  rw [h]; rfl

section Issue
variable {s : State} {q : Fin 16}

/-- The running context once its command has been found without fault. -/
def State.tested (s : State) : State := s.setFc { s.fc with checked := true }

theorem State.fc_tested (s : State) : s.tested.fc = { s.fc with checked := true } := State.fc_setFc _ _

theorem State.cur_tested (s : State) : s.tested.cur = s.cur.setFc s.cur.run { s.fc with checked := true } := State.cur_setFc _ _

theorem State.published_tested (s : State) : Published s.tested ↔ Published s := State.published_setFc rfl rfl rfl

variable {cmdw : Bool} (hpass : s.fc.checked = true ∨ s.cmdFault (s.q q) cmdw (s.attachedAt (s.q q)) = none)
include hpass

theorem State.issueCmd_of_not_published (hp : ¬Published s) (k : State → Nat → Res) : s.issueCmd q cmdw k =
    .next ((s.setFc { s.fc with checked := true, sb := [], pub := s.fc.pub ++ s.fc.sb }).block .publication) := by
  rw [State.issueCmd_of_passes hpass, ← State.tested, State.publishThen_of_not_published (mt s.published_tested.1 hp),
    State.fc_tested, State.tested, State.setFc_setFc]

theorem State.issueCmd_of_published (hp : Published s) (k : State → Nat → Res) : s.issueCmd q cmdw k =
    if 32 ≤ s.cur.queued.length then .next (s.tested.block .queueRoom)
    else k (s.tested.entered (s.q q) (s.attachedAt (s.q q))) s.cur.nextCmd := by
  obtain ⟨hsb, hpub, hq⟩ := s.published_tested.2 hp
  rw [State.issueCmd_of_passes hpass, ← State.tested, State.publishThen_of_clean _ _ hsb hpub hq, State.cur_tested]
  rfl

end Issue

/-- The state after a command has entered: its entry stands at the queue's end, and no register differs. -/
theorem State.entered_tested_spec (s : State) (w jv : QWord) :
    let u := s.tested.entered w jv
    (∃ e, u.cur.cmds = s.cur.cmds ++ [e] ∧ e.word = w ∧ e.id = s.cur.nextCmd ∧ e.fid = s.fid ∧ e.stage = .queued) ∧
      u.cur.nextCmd = s.cur.nextCmd + 1 ∧ u.fc = { s.fc with checked := true } ∧ ∀ l, u.byte l = s.byte l := by
  have hfid : s.tested.fid = s.fid := by rw [State.fid, State.fc_tested]; rfl
  refine ⟨?_, ?_, (s.tested.fc_entered w jv).trans s.fc_tested, s.tested.byte_entered w jv⟩
  · obtain ⟨e, hcmds, hword, hid, hefid, hstage⟩ := Core.cmds_enqueue s.tested.cur s.tested.fid s.tested.firing.cx w jv
    rw [← State.cur_entered, State.cur_tested] at hcmds
    rw [State.cur_tested] at hid
    exact ⟨e, hcmds, hword, hid, hefid.trans hfid, hstage⟩
  · rw [State.cur_entered, State.cur_tested]; rfl

theorem exec_cmd_eq (s : State) (q : Fin 16) : exec (.cmd q) s = s.issueCmd q false fun u _ => .next u.advance := rfl

/-- A `cmdw` that has not issued its command. -/
theorem exec_cmdw_eq {s : State} (q : Fin 16) (hw : s.fc.waitCmd = none) : exec (.cmdw q) s =
    s.issueCmd q true fun u id => .next ((u.setFc { u.fc with waitCmd := some id }).block (.command id)) := by
  change execCmdw q s = _
  rw [execCmdw, hw]

/-- `cmd` of a command that may enter. -/
theorem exec_cmd_enters {s : State} {q : Fin 16} (hpass : s.fc.checked = true ∨ s.cmdFault (s.q q) false (s.attachedAt (s.q q)) = none)
    (hp : Published s) (hroom : s.cur.queued.length < 32) :
    ∃ t e, exec (.cmd q) s = .next t ∧ t.cur.cmds = s.cur.cmds ++ [e] ∧ e.word = s.q q ∧ e.id = s.cur.nextCmd ∧ e.fid = s.fid ∧
      e.stage = .queued ∧ t.cur.nextCmd = s.cur.nextCmd + 1 ∧ KeepsRegs s t ∧ (∀ l, t.byte l = s.byte l) ∧ FallsThrough s t := by
  have hexec := (exec_cmd_eq s q).trans (State.issueCmd_of_published hpass hp _)
  rw [if_neg (by omega)] at hexec
  obtain ⟨⟨e, hcmds, hword, hid, hfid, hstage⟩, hnext, hfc, hbyte⟩ := s.entered_tested_spec (s.q q) (s.attachedAt (s.q q))
  generalize s.tested.entered (s.q q) (s.attachedAt (s.q q)) = u at hexec hcmds hnext hfc hbyte
  have hcur : u.advance.cur = u.cur.setFc u.cur.run _ := State.cur_setFc _ _
  refine ⟨_, e, hexec, ?_, hword, hid, hfid, hstage, ?_, ?_, hbyte, ?_⟩
  · rw [hcur]; exact hcmds
  · rw [hcur]; exact hnext
  · exact State.keepsRegs_advance_of (by rw [hfc]) (by rw [hfc]) (by rw [KeepsQFJ, hfc]; exact ⟨rfl, rfl, rfl⟩)
  · exact State.fallsThrough_advance_of (by rw [hfc]) (by rw [hfc])

/-- `cmdw` of a command that may enter. -/
theorem exec_cmdw_enters {s : State} {q : Fin 16} (hw : s.fc.waitCmd = none)
    (hpass : s.fc.checked = true ∨ s.cmdFault (s.q q) true (s.attachedAt (s.q q)) = none)
    (hp : Published s) (hroom : s.cur.queued.length < 32) :
    ∃ (u : State) (e : CmdEntry), exec (.cmdw q) s = .next (u.block (.command s.cur.nextCmd)) ∧ u.cur.cmds = s.cur.cmds ++ [e] ∧
      e.word = s.q q ∧ e.id = s.cur.nextCmd ∧ e.stage = .queued ∧ u.fc.waitCmd = some s.cur.nextCmd ∧ u.pc = s.pc ∧
      u.fc.g = s.fc.g := by
  have hexec := (exec_cmdw_eq q hw).trans (State.issueCmd_of_published hpass hp _)
  rw [if_neg (by omega)] at hexec
  obtain ⟨⟨e, hcmds, hword, hid, -, hstage⟩, -, hfc, -⟩ := s.entered_tested_spec (s.q q) (s.attachedAt (s.q q))
  generalize s.tested.entered (s.q q) (s.attachedAt (s.q q)) = u at hexec hcmds hfc
  refine ⟨_, e, hexec, ?_, hword, hid, hstage, ?_, ?_, ?_⟩
  · rw [State.cur_setFc]; exact hcmds
  · rw [State.fc_setFc]
  · rw [State.pc_setFc, hfc]; rfl
  · rw [State.fc_setFc, hfc]

/-- A `cmdw` goes on once its command is complete, and ends with cause 0x0B where it failed. -/
theorem exec_cmdw_waits {s : State} {q : Fin 16} {id : Nat} (hw : s.fc.waitCmd = some id) :
    ((∀ e ∈ s.cur.cmds, e.id ≠ id) → ∃ t, exec (.cmdw q) s = .next t ∧ KeepsRegs s t ∧ OnlyContext s t ∧
      t.fc.waitCmd = none ∧ FallsThrough s t) ∧
    ∀ e r, (s.cur.cmds.find? fun c => c.id = id) = some e → e.stage = .failed r →
      exec (.cmdw q) s = .next (s.raiseQuiet 0x0B r) := by
  have hexec : exec (.cmdw q) s = match s.cur.cmds.find? fun e => e.id = id with
      | none => .next (s.setFc { s.fc with waitCmd := none }).advance
      | some e => match e.stage with
        | .failed r => .next (s.raiseQuiet 0x0B r)
        | _ => .next (s.block (.command id)) := by
    change execCmdw q s = _
    rw [execCmdw, hw] <;> rfl
  refine ⟨fun hnone => ?_, fun e r he hr => ?_⟩
  · have hfind : (s.cur.cmds.find? fun c => c.id = id) = none := List.find?_eq_none.2 fun e he => by simpa using hnone e he
    obtain ⟨hthrough, honly, x, hx⟩ := State.advance_of_setFc (s := s) (f := { s.fc with waitCmd := none }) rfl rfl
    rw [hfind] at hexec
    refine ⟨_, hexec, ?_, honly, ?_, hthrough⟩
    · exact State.keepsRegs_advance_of (by rw [State.fc_setFc]) (by rw [State.fc_setFc])
        (by rw [KeepsQFJ, State.fc_setFc]; exact ⟨rfl, rfl, rfl⟩)
    · rw [hx, State.fc_setFc]; rfl
  · rw [hexec, he]
    simp only [hr]

theorem commandIssue : CommandIssue := fun s q => by
  intro w live jv passes past
  refine ⟨fun r hc hf => (exec_cmd_eq s q).trans (State.issueCmd_of_fault hc hf _), fun r hw hc hf => ?_, fun hpass hp => ?_, fun hpass hp hfull => ?_,
    fun hw hpass hp hfull => ?_, fun hpass hp hroom => exec_cmd_enters hpass hp hroom,
    fun hw hpass hp hroom => exec_cmdw_enters hw hpass hp hroom, fun id hw => exec_cmdw_waits hw⟩
  · exact (exec_cmdw_eq q hw).trans (State.issueCmd_of_fault hc hf _)
  · exact (exec_cmd_eq s q).trans (State.issueCmd_of_not_published hpass hp _)
  · rw [exec_cmd_eq, State.issueCmd_of_published hpass hp, if_pos hfull]; rfl
  · rw [exec_cmdw_eq q hw, State.issueCmd_of_published hpass hp, if_pos hfull]; rfl

/-! ## Handle counts (03 R95) -/

theorem State.handleThen_of_sound {s : State} {h : Fin 64} {n : BitVec 8} (hv : (s.cur.handle h.val).v = true)
    (hn : n.toNat ≤ (s.cur.handle h.val).slots + 1) (k : Handle → Res) : s.handleThen h n k = k (s.cur.handle h.val) := by
  have hc : ¬(s.cur.handle h.val).count < n.toNat := Nat.not_lt.2 hn
  simp only [State.handleThen, hv, hc, Bool.not_true, decide_false, Bool.or_self, Bool.false_eq_true, if_false]

theorem State.handleThen_of_unsound {s : State} {h : Fin 64} {n : BitVec 8}
    (hu : (s.cur.handle h.val).v = false ∨ (s.cur.handle h.val).slots + 1 < n.toNat) (k : Handle → Res) :
    s.handleThen h n k = .next (s.raise 0x08 0 0) := by
  refine if_pos ?_
  rw [Bool.or_eq_true, Bool.not_eq_true', decide_eq_true_eq]
  exact hu

/-- A change of one handle of the acting core, at a word that then goes on. -/
theorem State.setHandle_advance_spec (s : State) (h : Nat) (v : Handle) :
    let t := (s.modCore s.now fun c => c.setHandle h v).advance
    t.cur.handle h = v ∧ (∀ j, j ≠ h → t.cur.handle j = s.cur.handle j) ∧
      (∀ b, t.cur.buf b = s.cur.buf b ∧ t.cur.fullOf b = s.cur.fullOf b) ∧ KeepsRegs s t ∧ OnlyCore s t ∧ FallsThrough s t := by
  intro t
  have hu : (s.modCore s.now fun c => c.setHandle h v).cur = s.cur.setHandle h v := State.core_setCore_same _ _ _
  have hfc : (s.modCore s.now fun c => c.setHandle h v).fc = s.fc := by rw [State.fc, hu]; rfl
  have hcur : t.cur = (s.cur.setHandle h v).setFc s.cur.run _ := (State.cur_setFc _ _).trans (by rw [hu]; rfl)
  refine ⟨?_, fun j hj => ?_, fun b => ?_, ?_, ⟨rfl, fun k hk => ?_, ⟨fun _ => rfl, fun _ _ => rfl⟩⟩, ?_⟩
  · rw [hcur]
    show (look (put s.cur.handles h v) h).getD _ = v
    rw [look_put_same]; rfl
  · rw [hcur]
    show (look (put s.cur.handles h v) j).getD _ = _
    rw [look_put_ne _ _ hj.symm]; rfl
  · rw [hcur]
    cases b <;> exact ⟨rfl, rfl⟩
  · exact State.keepsRegs_advance_of (by rw [hfc]) (by rw [hfc]) (by rw [KeepsQFJ, hfc]; exact ⟨rfl, rfl, rfl⟩)
  · exact (State.core_setFc_ne (s.modCore s.now fun c => c.setHandle h v) _ (Ne.symm hk)).trans (State.core_setCore_ne s _ (Ne.symm hk))
  · exact State.fallsThrough_advance_of (by rw [hfc]) (by rw [hfc])

/-- Pins that a consumer's release of slots ends (05 R147). -/
def Context.unpin (c : Context) (k : CoreId) (h : Nat) (slots : List Nat) : Context :=
  { c with pins := c.pins.filter fun p => !(p.k = k && p.h = h && slots.contains p.slot) }

theorem Context.mem_pins_unpin (c : Context) (k : CoreId) (h : Nat) (slots : List Nat) (p : Pin) :
    p ∈ (c.unpin k h slots).pins ↔ p ∈ c.pins ∧ ¬(p.k = k ∧ p.h = h ∧ p.slot ∈ slots) := by
  rw [Context.unpin, List.mem_filter]
  simp [or_iff_not_imp_left]

theorem State.releaseSlots_spec (s : State) (h : Nat) (slots : List Nat) :
    (∃ cs, s.releaseSlots h slots = { s with ctxs := cs }) ∧ (s.releaseSlots h slots).ctx s.x = (s.ctx s.x).unpin s.now h slots ∧
      ∀ x, x ≠ s.x → (s.releaseSlots h slots).ctx x = s.ctx x := by
  unfold State.releaseSlots
  split
  · next hn =>
    have hblank : s.ctx s.x = Context.blank := by rw [State.ctx, Option.isNone_iff_eq_none.1 hn]; rfl
    exact ⟨⟨s.ctxs, rfl⟩, by rw [hblank]; rfl, fun _ _ => rfl⟩
  · exact ⟨⟨_, rfl⟩, State.ctx_modCtx_same _ _ _, fun x hx => State.ctx_modCtx_ne _ _ hx.symm⟩

/-- A consumer's advance over n slots: the counts move, and the pins on the released slots end. -/
theorem State.consume_advance_spec (s : State) (h n : Nat) :
    let d := s.cur.handle h
    let t := ((s.releaseSlots h ((upto n).map fun i => (d.cons + i) % d.count)).modCore s.now fun c =>
      c.setHandle h (d.consume n)).advance
    (t.cur.handle h).fill = d.fill - n ∧ (t.cur.handle h).free = d.free + n ∧ (∀ j, j ≠ h → t.cur.handle j = s.cur.handle j) ∧
      (∀ b, t.cur.buf b = s.cur.buf b ∧ t.cur.fullOf b = s.cur.fullOf b) ∧ KeepsRegs s t ∧ FallsThrough s t ∧
      { t with cores := s.cores, ctxs := s.ctxs } = s ∧ (∀ k, k ≠ s.now → t.core k = s.core k) ∧
      (∀ x, { t.ctx x with pins := (s.ctx x).pins } = s.ctx x ∧ (x ≠ s.x → t.ctx x = s.ctx x)) ∧
      ∀ p, p ∈ (t.ctx s.x).pins ↔ p ∈ (s.ctx s.x).pins ∧
        ¬(p.k = s.now ∧ p.h = h ∧ ∃ i, i < n ∧ p.slot = (d.cons + i) % (d.slots + 1)) := by
  intro d
  generalize hslots : ((upto n).map fun i => (d.cons + i) % d.count) = slots
  have hmem (m : Nat) : m ∈ slots ↔ ∃ i, i < n ∧ m = (d.cons + i) % (d.slots + 1) := by
    simp only [← hslots, upto, List.mem_map, List.mem_range, Handle.count, eq_comm]
  obtain ⟨⟨cs, hu⟩, hsame, hne⟩ := s.releaseSlots_spec h slots
  rw [hu] at hsame hne ⊢
  obtain ⟨hh, hj, hb, hk, ho, ht⟩ := ({ s with ctxs := cs } : State).setHandle_advance_spec h (d.consume n)
  refine ⟨congrArg Handle.fill hh, congrArg Handle.free hh, hj, hb, hk, ht, congrArg (fun t : State => { t with ctxs := s.ctxs }) ho.package,
    ho.others, fun x => ⟨?_, hne x⟩, fun p => ?_⟩
  · by_cases hx : x = s.x
    · exact hx ▸ congrArg (fun c : Context => { c with pins := (s.ctx s.x).pins }) hsame
    · exact congrArg (fun c : Context => { c with pins := (s.ctx x).pins }) (hne x hx)
  · rw [← hmem, ← Context.mem_pins_unpin, ← hsame]
    exact Iff.rfl

theorem handleCounts : HandleCounts := fun s h n => by
  intro d
  have hadvC : exec (.advC h n) s = s.handleThen h n fun d =>
      if d.fill < n.toNat then .next (s.raise 0x08 0 0)
      else .next ((s.releaseSlots h.val ((upto n.toNat).map fun i => (d.cons + i) % d.count)).modCore s.now fun c =>
        c.setHandle h.val (d.consume n.toNat)).advance := rfl
  have hadvP : exec (.advP h n) s = s.handleThen h n fun d =>
      if d.free < n.toNat then .next (s.raise 0x08 0 0)
      else .next (s.modCore s.now fun c => c.setHandle h.val (d.produce n.toNat)).advance := rfl
  have hwaitC : exec (.hwaitC h n) s = s.handleThen h n fun d =>
      if n.toNat ≤ d.fill then .next s.advance else .next (s.block (.handle h.val false n.toNat)) := rfl
  have hwaitP : exec (.hwaitP h n) s = s.handleThen h n fun d =>
      if n.toNat ≤ d.free then .next s.advance else .next (s.block (.handle h.val true n.toNat)) := rfl
  rw [hadvC, hadvP, hwaitC, hwaitP]
  refine ⟨fun hu => ⟨?_, ?_, ?_, ?_⟩, fun hv hn => ?_⟩
  iterate 4 exact State.handleThen_of_unsound hu _
  rw [State.handleThen_of_sound hv hn, State.handleThen_of_sound hv hn, State.handleThen_of_sound hv hn,
    State.handleThen_of_sound hv hn]
  refine ⟨fun hf => ⟨if_pos hf, if_neg (Nat.not_le.2 hf)⟩, fun hf => ⟨if_pos hf, if_neg (Nat.not_le.2 hf)⟩,
    fun hf => ⟨⟨_, if_pos hf, s.advance_spec⟩, _, if_neg (Nat.not_lt.2 hf), s.consume_advance_spec h.val n.toNat⟩,
    fun hf => ⟨⟨_, if_pos hf, s.advance_spec⟩, _, if_neg (Nat.not_lt.2 hf), ?_⟩⟩
  obtain ⟨hh, hj, hb, hk, ho, ht⟩ := s.setHandle_advance_spec h.val (d.produce n.toNat)
  exact ⟨congrArg Handle.fill hh, congrArg Handle.free hh, hj, hb, hk, ho, ht⟩

/-- Settles O50, by its three parts. -/
theorem commandsAndHandles : Obligations.CommandsAndHandles := ⟨commandRegisters, commandIssue, handleCounts⟩

end Sys2Proof.Machine
end

section
/-!
Words that the spec writes out (03 R84, R95, 11 R307, 13 R382), and the exception that a raised cause takes (03 R72).
-/
namespace Sys2Proof.Machine

open Sys2Proof.Safety

/-- Settles O3: the decoder, run on each word. -/
theorem specWordsDecode : Obligations.SpecWordsDecode :=
  ⟨rfl, rfl, rfl, rfl, rfl, rfl, rfl, rfl, rfl, rfl, rfl, rfl, rfl⟩

/-- Settles O8, by what raising a cause leaves. -/
theorem takingAnException : Obligations.TakingAnException := fun s p _ cause detail addr _ _ hw hw' hp _ hst _ =>
  s.tookException_raise cause addr detail (State.memWf_of hw hw') hp (by rw [hst]; decide)

end Sys2Proof.Machine
end

section
/-!
Integer results, immediates, addresses, compares and predicate logic (03 R73 to R79): what each word computes, as the model computes
it and as the spec writes it.
-/
namespace Sys2Proof.Machine

open Sys2Proof.Safety

/-! ## Words with one result -/

/-- A word that completes with w in g[d] writes there what w equals. -/
theorem writesG_of_result {i : Instr} {d : Fin 32} {v w : State → Word} (h : ∀ s, exec i s = .next (s.result d (w s)))
    (hw : ∀ s, w s = v s) : WritesG i d v := fun s => ⟨_, h s, hw s ▸ s.result_spec d (w s)⟩

/-- A word that completes with w in p[d] writes there what w equals. -/
theorem writesP_of_resultP {i : Instr} {d : Fin 8} {v w : State → Bool} (h : ∀ s, exec i s = .next (s.resultP d (w s)))
    (hw : ∀ s, w s = v s) : WritesP i d v := fun s => ⟨_, h s, hw s ▸ s.resultP_spec d (w s)⟩

/-! ## Sums, products and shifts (03 R73) -/

theorem ofNat_toNat_word (a : Word) : BitVec.ofNat 64 a.toNat = a := by rw [BitVec.ofNat_toNat, BitVec.setWidth_eq]

theorem word_add_eq (a b : Word) : a + b = BitVec.ofNat 64 (a.toNat + b.toNat) := by
  rw [BitVec.ofNat_add, ofNat_toNat_word, ofNat_toNat_word]

theorem word_sub_eq (a b : Word) : a - b = BitVec.ofInt 64 (a.toInt - b.toInt) := by
  rw [sub_eq_add_neg, sub_eq_add_neg, BitVec.ofInt_add, BitVec.ofInt_neg, BitVec.ofInt_toInt, BitVec.ofInt_toInt]

theorem word_mul_eq (a b : Word) : a * b = BitVec.ofInt 64 (a.toInt * b.toInt) := by
  rw [BitVec.ofInt_mul, BitVec.ofInt_toInt, BitVec.ofInt_toInt]

theorem word_shiftLeft_eq (a : Word) (n : Nat) : a <<< n = BitVec.ofNat 64 (a.toNat * 2 ^ n) := by
  apply BitVec.eq_of_toNat_eq
  rw [BitVec.toNat_shiftLeft, BitVec.toNat_ofNat, Nat.shiftLeft_eq]

theorem word_shiftRight_eq (a : Word) (n : Nat) : a >>> n = BitVec.ofNat 64 (a.toNat / 2 ^ n) := by
  rw [← Nat.shiftRight_eq_div_pow, ← BitVec.toNat_ushiftRight, ofNat_toNat_word]

theorem word_sshiftRight_eq (a : Word) (n : Nat) : a.sshiftRight n = BitVec.ofInt 64 (a.toInt / 2 ^ n) := by
  rw [BitVec.sshiftRight_eq, Int.shiftRight_eq_div_pow, Nat.cast_pow]
  rfl

/-! ## Smaller, larger and clamped (03 R73) -/

theorem word_min_eq (a b : Word) : (if a.toInt ≤ b.toInt then a else b) = BitVec.ofInt 64 (min a.toInt b.toInt) := by
  rw [min_def, apply_ite (BitVec.ofInt 64), BitVec.ofInt_toInt, BitVec.ofInt_toInt]

theorem word_max_eq (a b : Word) : (if a.toInt ≤ b.toInt then b else a) = BitVec.ofInt 64 (max a.toInt b.toInt) := by
  rw [max_def, apply_ite (BitVec.ofInt 64), BitVec.ofInt_toInt, BitVec.ofInt_toInt]

theorem word_minu_eq (a b : Word) : (if a.toNat ≤ b.toNat then a else b) = BitVec.ofNat 64 (min a.toNat b.toNat) := by
  rw [min_def, apply_ite (BitVec.ofNat 64), ofNat_toNat_word, ofNat_toNat_word]

theorem word_maxu_eq (a b : Word) : (if a.toNat ≤ b.toNat then b else a) = BitVec.ofNat 64 (max a.toNat b.toNat) := by
  rw [max_def, apply_ite (BitVec.ofNat 64), ofNat_toNat_word, ofNat_toNat_word]

theorem clampWord_eq (v : Int) : clampWord v = BitVec.ofInt 64 (max (-2 ^ 63) (min (2 ^ 63 - 1) v)) := by
  refine congrArg (BitVec.ofInt 64) ?_
  unfold clampInt
  omega

/-! ## Bits counted (03 R73) -/

/-- The bits that a number needs, as the model counts them. -/
theorem bitLen_eq_size (n : Nat) : bitLen n = n.size := by
  unfold bitLen
  split
  · subst n; exact Nat.size_zero.symm
  next h => exact le_antisymm (Nat.lt_size.2 (Nat.log2_self_le h)) (Nat.size_le.2 Nat.lt_log2_self)

theorem length_takeWhile_not (p : Nat → Bool) (l : List Nat) : (l.takeWhile fun i => !p i).length = l.findIdx p := by
  rw [List.takeWhile_eq_take_findIdx_not, List.length_take]
  simp only [Bool.not_not]
  exact min_eq_left List.findIdx_le_length

theorem clzWord_eq (a : Word) : clzWord a = 64 - Nat.size a.toNat := by rw [clzWord, bitLen_eq_size]

theorem ctzWord_eq (a : Word) : ctzWord a = (List.range 64).findIdx fun i => a.getLsbD i := length_takeWhile_not _ _

theorem popcWord_eq (a : Word) : popcWord a = (List.range 64).countP fun i => a.getLsbD i := List.countP_eq_length_filter.symm

/-! ## Extensions (03 R73, R75) -/

theorem signExtend_setWidth_eq (a : Word) (n : Nat) :
    (a.setWidth n).signExtend 64 = BitVec.ofInt 64 (BitVec.ofNat n a.toNat).toInt := by
  rw [BitVec.ofNat_toNat]; rfl

theorem setWidth_setWidth_eq (a : Word) (n : Nat) : (a.setWidth n).setWidth 64 = BitVec.ofNat 64 (a.toNat % 2 ^ n) := by
  rw [← BitVec.toNat_setWidth, BitVec.ofNat_toNat]

theorem word_add_sext16_eq (a : Word) (i : BitVec 16) : a + sext16 i = BitVec.ofInt 64 (a.toInt + i.toInt) := by
  rw [BitVec.ofInt_add, BitVec.ofInt_toInt]; rfl

theorem setWidth_imm16_eq (i : BitVec 16) : i.setWidth 64 = BitVec.ofNat 64 i.toNat := (BitVec.ofNat_toNat 64 i).symm

theorem sext16_shiftLeft_eq (i : BitVec 16) : sext16 i <<< 16 = BitVec.ofInt 64 (i.toInt * 65536) := by
  rw [BitVec.shiftLeft_eq_mul_twoPow, BitVec.ofInt_mul]; rfl

/-! ## Quotients and remainders (03 R74) -/

/-- Signed overflow: the quotient of -2^63 by -1 wraps to -2^63. -/
theorem divS_eq (a b : Word) : divS a b =
    if b = 0 then 0xFFFFFFFFFFFFFFFF
    else if a = 0x8000000000000000 ∧ b = 0xFFFFFFFFFFFFFFFF then 0x8000000000000000
    else BitVec.ofInt 64 (a.toInt.tdiv b.toInt) := by
  rw [divS]
  refine if_congr Iff.rfl rfl ?_
  split
  next h => rw [h.1, h.2]; decide
  · rfl

/-- Signed overflow: the remainder of -2^63 by -1 is zero. -/
theorem remS_eq (a b : Word) : remS a b =
    if b = 0 then a
    else if a = 0x8000000000000000 ∧ b = 0xFFFFFFFFFFFFFFFF then 0
    else BitVec.ofInt 64 (a.toInt - b.toInt * a.toInt.tdiv b.toInt) := by
  rw [remS]
  refine if_congr Iff.rfl rfl ?_
  split
  next h => rw [h.1, h.2]; decide
  · rfl

theorem remU_eq (a b : Word) :
    remU a b = if b = 0 then a else BitVec.ofNat 64 (a.toNat - b.toNat * (a.toNat / b.toNat)) := by
  rw [remU, Nat.mod_eq_sub_mul_div]

/-! ## Integer arithmetic -/

theorem integerResults : IntegerResults := fun _ _ _ =>
  ⟨writesG_of_result (fun _ => rfl) fun _ => word_add_eq _ _,
    writesG_of_result (fun _ => rfl) fun _ => word_sub_eq _ _,
    writesG_of_result (fun _ => rfl) fun _ => rfl,
    writesG_of_result (fun _ => rfl) fun _ => rfl,
    writesG_of_result (fun _ => rfl) fun _ => rfl,
    writesG_of_result (fun _ => rfl) fun _ => rfl,
    writesG_of_result (fun _ => rfl) fun _ => word_shiftLeft_eq _ _,
    writesG_of_result (fun _ => rfl) fun _ => word_shiftRight_eq _ _,
    writesG_of_result (fun _ => rfl) fun _ => word_sshiftRight_eq _ _,
    writesG_of_result (fun _ => rfl) fun _ => word_mul_eq _ _,
    writesG_of_result (fun _ => rfl) fun _ => rfl,
    writesG_of_result (fun _ => rfl) fun _ => rfl,
    writesG_of_result (fun _ => rfl) fun _ => word_min_eq _ _,
    writesG_of_result (fun _ => rfl) fun _ => word_max_eq _ _,
    writesG_of_result (fun _ => rfl) fun _ => word_minu_eq _ _,
    writesG_of_result (fun _ => rfl) fun _ => word_maxu_eq _ _,
    writesG_of_result (fun _ => rfl) fun _ => clampWord_eq _,
    writesG_of_result (fun _ => rfl) fun _ => clampWord_eq _,
    writesG_of_result (fun _ => rfl) fun _ => congrArg (BitVec.ofNat 64) (clzWord_eq _),
    writesG_of_result (fun _ => rfl) fun _ => congrArg (BitVec.ofNat 64) (ctzWord_eq _),
    writesG_of_result (fun _ => rfl) fun _ => congrArg (BitVec.ofNat 64) (popcWord_eq _),
    writesG_of_result (fun _ => rfl) fun _ => signExtend_setWidth_eq _ _,
    writesG_of_result (fun _ => rfl) fun _ => signExtend_setWidth_eq _ _,
    writesG_of_result (fun _ => rfl) fun _ => signExtend_setWidth_eq _ _,
    writesG_of_result (fun _ => rfl) fun _ => setWidth_setWidth_eq _ _,
    writesG_of_result (fun _ => rfl) fun _ => setWidth_setWidth_eq _ _,
    writesG_of_result (fun _ => rfl) fun _ => setWidth_setWidth_eq _ _⟩

theorem divisionResults : DivisionResults := fun _ _ _ =>
  ⟨writesG_of_result (fun _ => rfl) fun _ => divS_eq _ _,
    writesG_of_result (fun _ => rfl) fun _ => rfl,
    writesG_of_result (fun _ => rfl) fun _ => remS_eq _ _,
    writesG_of_result (fun _ => rfl) fun _ => remU_eq _ _⟩

/-- Settles O42, by the value of each operation. -/
theorem integerArithmetic : Obligations.IntegerArithmetic := ⟨integerResults, divisionResults⟩

/-! ## Immediates and addresses (03 R75, R76) -/

theorem immediateResults : ImmediateResults := fun _ _ i _ =>
  ⟨writesG_of_result (fun _ => rfl) fun _ => word_add_sext16_eq _ _,
    writesG_of_result (fun _ => rfl) fun _ => congrArg _ (setWidth_imm16_eq i),
    writesG_of_result (fun _ => rfl) fun _ => congrArg _ (setWidth_imm16_eq i),
    writesG_of_result (fun _ => rfl) fun _ => congrArg _ (setWidth_imm16_eq i),
    writesG_of_result (fun _ => rfl) fun _ => word_shiftLeft_eq _ _,
    writesG_of_result (fun _ => rfl) fun _ => word_shiftRight_eq _ _,
    writesG_of_result (fun _ => rfl) fun _ => word_sshiftRight_eq _ _,
    writesG_of_result (fun _ => rfl) fun _ => sext16_shiftLeft_eq _⟩

theorem State.eaIndex_eq (s : State) (a b : Fin 32) (sc : BitVec 3) :
    s.eaIndex a b sc = BitVec.ofNat 64 ((s.g a).toNat + (s.g b).toNat * 2 ^ sc.toNat) := by
  rw [State.eaIndex, word_shiftLeft_eq, BitVec.ofNat_add, ofNat_toNat_word]

theorem coord_eq_field16 (v : Word) (k : Nat) : coord v k = field16 v k := by
  rw [field16, coord, Nat.shiftRight_eq_div_pow]

theorem linWord_eq (c e : Word) :
    let x (k : Nat) : Nat := if field16 e k = 0 then 1 else field16 e k
    linWord c e = field16 c 0 + x 0 * (field16 c 1 + x 1 * (field16 c 2 + x 2 * field16 c 3)) := by
  simp only [linWord, extent, coord_eq_field16]

/-- The low n fields of a word, put together again. -/
theorem sum_field16 (v : Word) (n : Nat) :
    ((List.range n).map fun k => field16 v k * 2 ^ (16 * k)).sum = v.toNat % 2 ^ (16 * n) := by
  induction n with
  | zero => exact (Nat.mod_one _).symm
  | succ n ih =>
    rw [List.range_succ, List.map_append, List.sum_append, ih, List.map_singleton, List.sum_singleton, ← coord_eq_field16, coord,
      Nat.mul_succ, ← field_add_below, Nat.add_comm]
    rfl

theorem sum_map_range_replace (g : Nat → Nat) (y : Nat) {i : Nat} (hi : i < 4) :
    ((List.range 4).map g).sum - g i + y = ((List.range 4).map fun k => if k = i then y else g k).sum := by
  have hr : List.range 4 = [0, 1, 2, 3] := rfl
  rw [hr]
  obtain rfl | rfl | rfl | rfl : i = 0 ∨ i = 1 ∨ i = 2 ∨ i = 3 := by omega
  all_goals
    simp only [List.map_cons, List.map_nil, List.sum_cons, List.sum_nil, reduceIte, Nat.reduceEqDiff, OfNat.ofNat_ne_zero,
      OfNat.zero_ne_ofNat, OfNat.ofNat_ne_one, OfNat.one_ne_ofNat, one_ne_zero, zero_ne_one]
    omega

theorem pkWord_eq (a b : Word) (i : BitVec 2) : pkWord a b i.toNat =
    BitVec.ofNat 64 (((List.range 4).map fun k =>
      (if k = i.toNat then field16 b 0 else field16 a k) * 2 ^ (16 * k)).sum) := by
  have h := sum_map_range_replace (fun k => field16 a k * 2 ^ (16 * k)) (field16 b 0 * 2 ^ (16 * i.toNat)) i.isLt
  rw [(sum_field16 a 4).trans (Nat.mod_eq_of_lt a.isLt)] at h
  rw [pkWord, coord_eq_field16, coord_eq_field16, h]
  refine congrArg (fun f => BitVec.ofNat 64 ((List.range 4).map f).sum) (funext fun k => ?_)
  split
  next hk => rw [hk]
  · rfl

theorem addressAndCoordinateResults : AddressAndCoordinateResults := fun _ a b sc i =>
  ⟨writesG_of_result (fun _ => rfl) fun s => s.eaIndex_eq a b sc,
    writesG_of_result (fun _ => rfl) fun _ => congrArg (BitVec.ofNat 64) (linWord_eq _ _),
    writesG_of_result (fun _ => rfl) fun _ => pkWord_eq _ _ i,
    writesG_of_result (fun _ => rfl) fun _ => congrArg (BitVec.ofNat 64) (coord_eq_field16 _ _)⟩

/-- Settles O43, by the value of each operation. -/
theorem immediatesAndAddresses : Obligations.ImmediatesAndAddresses := ⟨immediateResults, addressAndCoordinateResults⟩

/-! ## Compares (03 R77) -/

theorem toInt_sext13 (i : BitVec 13) : (sext13 i).toInt = i.toInt := BitVec.toInt_signExtend_of_le (by decide)

theorem holds_eq_toNat (a b : Word) : Cond.eq.holds a b = decide (a.toNat = b.toNat) := decide_eq_decide.2 BitVec.toNat_inj.symm

theorem holds_ne_toNat (a b : Word) : Cond.ne.holds a b = decide (a.toNat ≠ b.toNat) :=
  decide_eq_decide.2 (not_congr BitVec.toNat_inj.symm)

theorem holds_eq_sext13 (a : Word) (i : BitVec 13) : Cond.eq.holds a (sext13 i) = decide (a.toInt = i.toInt) :=
  decide_eq_decide.2 (by rw [← toInt_sext13, BitVec.toInt_inj])

theorem holds_ne_sext13 (a : Word) (i : BitVec 13) : Cond.ne.holds a (sext13 i) = decide (a.toInt ≠ i.toInt) :=
  decide_eq_decide.2 (by rw [← toInt_sext13, Ne, Ne, BitVec.toInt_inj])

theorem holds_lt_sext13 (a : Word) (i : BitVec 13) : Cond.lt.holds a (sext13 i) = decide (a.toInt < i.toInt) := by
  rw [← toInt_sext13]; rfl

theorem holds_ge_sext13 (a : Word) (i : BitVec 13) : Cond.ge.holds a (sext13 i) = decide (a.toInt ≥ i.toInt) := by
  rw [← toInt_sext13]; rfl

theorem compareResults : CompareResults := fun _ _ _ i =>
  ⟨writesP_of_resultP (fun _ => rfl) fun _ => holds_eq_toNat _ _,
    writesP_of_resultP (fun _ => rfl) fun _ => holds_ne_toNat _ _,
    writesP_of_resultP (fun _ => rfl) fun _ => rfl,
    writesP_of_resultP (fun _ => rfl) fun _ => rfl,
    writesP_of_resultP (fun _ => rfl) fun _ => rfl,
    writesP_of_resultP (fun _ => rfl) fun _ => rfl,
    writesP_of_resultP (fun _ => rfl) fun _ => holds_eq_sext13 _ i,
    writesP_of_resultP (fun _ => rfl) fun _ => holds_ne_sext13 _ i,
    writesP_of_resultP (fun _ => rfl) fun _ => holds_lt_sext13 _ i,
    writesP_of_resultP (fun _ => rfl) fun _ => holds_ge_sext13 _ i,
    writesP_of_resultP (fun _ => rfl) fun _ => rfl,
    writesP_of_resultP (fun _ => rfl) fun _ => rfl⟩

/-! ## Selection and predicates (03 R78, R79) -/

theorem bit_mul (b : Bool) (n : Nat) : bit b * n = if b then n else 0 := by
  cases b
  · exact Nat.zero_mul n
  · exact Nat.one_mul n

theorem State.predWord_eq (s : State) : s.predWord = ((List.finRange 8).map fun r => if s.p r then 2 ^ r.val else 0).sum := by
  have hr : List.finRange 8 = [0, 1, 2, 3, 4, 5, 6, 7] := by decide
  rw [hr, State.predWord]
  simp only [bit_mul, List.map_cons, List.map_nil, List.sum_cons, List.sum_nil, ← Nat.add_assoc, Nat.add_zero]
  rfl

/-- What `gtop` leaves: p1 to p7 from the word's bits, and nothing else but the pc. -/
theorem State.setPreds_advance_spec (s : State) (v : Word) :
    let t := (s.setPreds v).advance
    t.p 0 = true ∧ (∀ r : Fin 8, r ≠ 0 → t.p r = v.getLsbD r.val) ∧ (∀ r, t.g r = s.g r) ∧ KeepsQFJ s t ∧ OnlyRegs s t ∧
      FallsThrough s t := by
  intro t
  let f : FiringCtx := { s.fc with p := s.fc.p.mapIdx fun i b => if i = 0 then b else v.getLsbD i }
  obtain ⟨hthrough, -, x, hx⟩ := State.advance_of_setFc (s := s) (f := f) rfl rfl
  have ht : t = s.setFc (f.go x) := hx
  refine ⟨State.p_zero _, fun r hr => ?_, fun r => ?_, ?_, ?_, hthrough⟩
  · have hval : r.val ≠ 0 := fun e => hr (Fin.ext e)
    rw [ht, State.p_setFc, if_neg hr, FiringCtx.go_p, Vector.get_eq_getElem, Vector.getElem_mapIdx, if_neg hval]
  · rw [ht, State.g_setFc]; rfl
  · rw [ht, KeepsQFJ, State.fc_setFc]; exact ⟨rfl, rfl, rfl⟩
  · rw [ht]; exact State.setFc_onlyRegs s _ rfl

theorem selectionAndPredicateResults : SelectionAndPredicateResults :=
  ⟨fun d a b k =>
    ⟨writesG_of_result (fun _ => rfl) fun _ => rfl,
      writesG_of_result (fun _ => rfl) fun s => by cases s.p k <;> rfl,
      writesG_of_result (fun _ => rfl) fun s => congrArg (BitVec.ofNat 64) s.predWord_eq⟩,
    fun d a b =>
    ⟨writesP_of_resultP (fun _ => rfl) fun _ => rfl,
      writesP_of_resultP (fun _ => rfl) fun _ => rfl,
      writesP_of_resultP (fun _ => rfl) fun s => by cases s.p a <;> cases s.p b <;> rfl,
      writesP_of_resultP (fun _ => rfl) fun _ => rfl,
      writesP_of_resultP (fun _ => rfl) fun _ => rfl⟩,
    fun a s => ⟨_, rfl, s.setPreds_advance_spec (s.g a)⟩⟩

/-- Settles O44, by the value of each operation. -/
theorem comparesAndSelections : Obligations.ComparesAndSelections := ⟨compareResults, selectionAndPredicateResults⟩

end Sys2Proof.Machine
end

section
/-!
Linear loads and stores (03 R69, R84, R85).
-/
namespace Sys2Proof.Machine

open Sys2Proof.Safety

/-! ## Addresses and their checks (03 R84, R85) -/

/-- g[b] × 2^sc as the spec writes it. -/
theorem State.eaIndex_eq_mul (s : State) (a b : Fin 32) (sc : BitVec 3) :
    s.eaIndex a b sc = s.g a + s.g b * BitVec.ofNat 64 (2 ^ sc.toNat) := by
  have htwo : BitVec.twoPow 64 sc.toNat = BitVec.ofNat 64 (2 ^ sc.toNat) :=
    BitVec.eq_of_toNat_eq (by rw [BitVec.toNat_twoPow, BitVec.toNat_ofNat])
  rw [State.eaIndex, BitVec.shiftLeft_eq_mul_twoPow, htwo]

/-- A word whose access is `access` has the checks of 03 R85. -/
theorem addressChecks_of_access {i : Instr} {ea : State → Word} {n : Nat} {kind : AccessKind} {k : State → Loc → Res}
    (h : ∀ s, exec i s = s.access (ea s) n kind (k s)) : AddressChecks i ea n kind := fun s => by
  refine ⟨fun hc => ?_, fun hc ha => ?_, fun hc ha => ?_⟩
  · rw [h, State.access, (canonical_eq_false_iff _).2 hc]; rfl
  · rw [h, State.access, (canonical_iff _).2 hc, if_pos ha]; rfl
  · rw [h, State.access, (canonical_iff _).2 hc, if_neg (not_not.2 ha), State.withLoc]
    exact ⟨fun ht => by rw [ht]; rfl, fun ht => by rw [ht]; rfl, fun ht => by rw [ht]; rfl⟩

/-! ## Loads -/

theorem signed_eq_toInt_ofNat {n : Nat} (hn : 0 < n) (v : Nat) : signed n v = (BitVec.ofNat n v).toInt := by
  obtain ⟨m, rfl⟩ : ∃ m, n = m + 1 := ⟨n - 1, by omega⟩
  have hpow : 2 ^ (m + 1) = 2 * 2 ^ m := Nat.pow_succ'
  have hiff : 2 * (v % 2 ^ (m + 1)) < 2 ^ (m + 1) ↔ v % 2 ^ (m + 1) < 2 ^ m := by omega
  rw [signed, BitVec.toInt, BitVec.toNat_ofNat]
  exact if_congr hiff.symm rfl rfl

theorem sextBytes_eq {n : Nat} (hn : 0 < n) {bs : List Byte} (hl : bs.length = n) : sextBytes bs = sext n (leNat bs) := by
  rw [sextBytes, hl, signed_eq_toInt_ofNat (by omega)]; rfl

theorem State.length_loadBytes (s : State) (l : Loc) (n : Nat) : (s.loadBytes l n).length = n := by
  rw [State.loadBytes, List.length_map, upto, List.length_range]

/-- What a word with a result in g[d] leaves that has also changed marks of its context: f has the registers, the pc and the loops
of the running context. -/
theorem State.result_setFc_spec {s : State} {f : FiringCtx} (hpc : f.pc = s.fc.pc) (hl : f.loops = s.fc.loops) (hg : f.g = s.fc.g)
    (hp : f.p = s.fc.p) (hqfj : f.q = s.fc.q ∧ f.f = s.fc.f ∧ f.j = s.fc.j) (d : Fin 32) (v : Word) :
    let t := (s.setFc f).result d v
    (d ≠ 0 → t.g d = v) ∧ KeepsG s t d ∧ (∀ r, t.p r = s.p r) ∧ KeepsQFJ s t ∧ OnlyContext s t ∧ t.fc.sb = f.sb ∧
      t.fc.pub = f.pub ∧ t.fc.aflags = f.aflags ∧ FallsThrough s t := by
  intro t
  obtain ⟨hv, ⟨hzero, hkeep⟩, hpred, hregs, -, hthrough⟩ := (s.setFc f).result_spec d v
  obtain ⟨x, hx⟩ : ∃ x, t = s.setFc (({ f with g := if d = 0 then f.g else f.g.set d v } : FiringCtx).go x) :=
    ⟨_, (State.result_eq _ d v).trans (by rw [State.setFc_setFc, State.fc_setFc])⟩
  have hfc : t.fc = ({ f with g := if d = 0 then f.g else f.g.set d v } : FiringCtx).go x := by rw [hx, State.fc_setFc]
  refine ⟨hv, ⟨hzero, fun r hr => (hkeep r hr).trans ?_⟩, fun r => (hpred r).trans ?_, ?_, ?_, by rw [hfc]; rfl, by rw [hfc]; rfl,
    by rw [hfc]; rfl, ?_⟩
  · rw [State.g_setFc, State.g, hg]
  · rw [State.p_setFc, State.p, hp]
  · obtain ⟨hq, hf, hj⟩ := hqfj
    rw [KeepsQFJ, hfc, ← hq, ← hf, ← hj]
    exact ⟨rfl, rfl, rfl⟩
  · rw [hx]; exact s.setFc_onlyContext _
  · rwa [FallsThrough, State.pc_setFc, State.fc_setFc, hpc, hl] at hthrough

/-- A word whose meaning is `loadTo` loads n bytes, extended as the spec extends them. -/
theorem loads_of_loadTo {i : Instr} {d : Fin 32} {ea : State → Word} {n : Nat} {ext : List Byte → Word} {val : Nat → Word}
    (h : ∀ s, exec i s = s.loadTo d (ea s) n ext) (hval : ∀ bs : List Byte, bs.length = n → ext bs = val (leNat bs)) :
    Loads i d ea n val := by
  refine ⟨addressChecks_of_access h, fun s l hc ha ht hat hl => ?_⟩
  rw [h, State.loadTo, s.loadThen_of_ok _ _ _ _ ((canonical_iff _).2 hc) ha ht hat hl, hval _ (s.length_loadBytes l n)]
  exact ⟨_, rfl, State.result_setFc_spec (f := s.fc.watchLine l.line) rfl rfl rfl rfl ⟨rfl, rfl, rfl⟩ d _⟩

theorem linearLoads : LinearLoads := fun d a b i sc => by
  intro ea ex
  have hx (z : BitVec 3) (s : State) : exec (.ldx d a b sc z) s = s.loadTo d (ex s) (ldxSize z) (ldxExt z) :=
    congrArg (s.loadTo d · (ldxSize z) (ldxExt z)) (s.eaIndex_eq_mul a b sc)
  have hs {n : Nat} (hn : 0 < n) (bs : List Byte) (hl : bs.length = n) : sextBytes bs = sext n (leNat bs) := sextBytes_eq hn hl
  have hz (n : Nat) (bs : List Byte) (_ : bs.length = n) : zextBytes bs = zext (leNat bs) := rfl
  exact ⟨loads_of_loadTo (fun _ => rfl) (hs (by decide)), loads_of_loadTo (fun _ => rfl) (hz 1),
    loads_of_loadTo (fun _ => rfl) (hs (by decide)), loads_of_loadTo (fun _ => rfl) (hz 2),
    loads_of_loadTo (fun _ => rfl) (hs (by decide)), loads_of_loadTo (fun _ => rfl) (hz 4),
    loads_of_loadTo (fun _ => rfl) (hz 8),
    loads_of_loadTo (hx 0) (hs (by decide)), loads_of_loadTo (hx 1) (hz 1),
    loads_of_loadTo (hx 2) (hs (by decide)), loads_of_loadTo (hx 3) (hz 2),
    loads_of_loadTo (hx 4) (hs (by decide)), loads_of_loadTo (hx 5) (hz 4), loads_of_loadTo (hx 6) (hz 8)⟩

/-! ## Stores -/

/-- A word whose meaning is `storeFrom` stores the low n bytes of g[d] through the store buffer. -/
theorem stores_of_storeFrom {i : Instr} {d : Fin 32} {ea : State → Word} {n : Nat} (hn : n ∣ 64)
    (h : ∀ s, exec i s = s.storeFrom d (ea s) n) : Stores i ea n fun s => (s.g d).toNat := by
  refine ⟨addressChecks_of_access h, storeEffect_of_storeAt hn fun s l hc ha ht => ?_⟩
  rw [h, State.storeFrom, State.storeThen, s.access_of_ok _ _ _ _ ((canonical_iff _).2 hc) ha ht]

theorem linearStores : LinearStores := fun d a b i sc => by
  intro ea ex v
  have hx (z : BitVec 2) (s : State) : exec (.stx d a b sc z) s = s.storeFrom d (ex s) (2 ^ z.toNat) :=
    congrArg (s.storeFrom d · (2 ^ z.toNat)) (s.eaIndex_eq_mul a b sc)
  exact ⟨stores_of_storeFrom (by decide) fun _ => rfl, stores_of_storeFrom (by decide) fun _ => rfl,
    stores_of_storeFrom (by decide) fun _ => rfl, stores_of_storeFrom (by decide) fun _ => rfl,
    stores_of_storeFrom (by decide) (hx 0), stores_of_storeFrom (by decide) (hx 1),
    stores_of_storeFrom (by decide) (hx 2), stores_of_storeFrom (by decide) (hx 3)⟩

/-- Settles O47, by its two parts. -/
theorem linearAccesses : Obligations.LinearAccesses := ⟨linearLoads, linearStores⟩

end Sys2Proof.Machine
end

section
/-!
Typed buffers (03 R87, R88, R91): their bytes and bits after a write, and words that change nothing but a core's buffers and
registers of their context.
-/
namespace Sys2Proof.Safety

open Sys2Proof.Machine

/-! ## The relations of what a word leaves as it was -/

theorem OnlyCore.now {s t : State} (h : OnlyCore s t) : t.now = s.now := by
  have e := congrArg State.now h.package
  exact e

theorem OnlyCore.trans {s t u : State} (h : OnlyCore s t) (h' : OnlyCore t u) : OnlyCore s u where
  package := by
    have e := congrArg (fun t : State => { t with cores := s.cores }) h'.package
    exact e.trans h.package
  others k hk := (h'.others k (h.now.symm ▸ hk)).trans (h.others k hk)
  bytes := ⟨fun l => (h'.bytes.1 l).trans (h.bytes.1 l), fun x l => (h'.bytes.2 x l).trans (h.bytes.2 x l)⟩

theorem OnlyBuffers.refl (s : State) : OnlyBuffers s s :=
  ⟨⟨rfl, fun _ _ => rfl, fun _ => rfl, fun _ _ => rfl⟩, rfl, fun _ _ => rfl, rfl⟩

theorem OnlyBuffers.run {s t : State} (h : OnlyBuffers s t) : t.cur.run = s.cur.run := by
  have e := congrArg Core.run h.core
  exact e

theorem OnlyBuffers.trans {s t u : State} (h : OnlyBuffers s t) (h' : OnlyBuffers t u) : OnlyBuffers s u where
  toOnlyCore := h.toOnlyCore.trans h'.toOnlyCore
  core := by
    have e := congrArg (fun c : Core => { c with
      fcs := s.cur.fcs, bufW := s.cur.bufW, bufA := s.cur.bufA, bufC := s.cur.bufC, fullW := s.cur.fullW, fullA := s.cur.fullA
      fullC := s.cur.fullC, bcache := s.cur.bcache, l1 := s.cur.l1, il1 := s.cur.il1 }) h'.core
    exact e.trans h.core
  contexts n hn := (h'.contexts n (h.run.symm ▸ hn)).trans (h.contexts n hn)
  context := by
    have e := congrArg (fun f : FiringCtx => { f with
      g := s.fc.g, p := s.fc.p, q := s.fc.q, f := s.fc.f, j := s.fc.j, pc := s.fc.pc, loops := s.fc.loops
      woken := s.fc.woken, expired := s.fc.expired, half := s.fc.half, turns := s.fc.turns, checked := s.fc.checked
      fetched := s.fc.fetched }) h'.context
    exact e.trans h.context

theorem OnlyRegs.onlyBuffers {s t : State} (h : OnlyRegs s t) : OnlyBuffers s t where
  toOnlyCore := h.toOnlyCore
  core := by
    have e := congrArg (fun c : Core => { c with
      bufW := s.cur.bufW, bufA := s.cur.bufA, bufC := s.cur.bufC, fullW := s.cur.fullW, fullA := s.cur.fullA
      fullC := s.cur.fullC, bcache := s.cur.bcache, l1 := s.cur.l1, il1 := s.cur.il1 }) h.toOnlyContext.core
    exact e
  contexts := h.contexts
  context := h.context

end Sys2Proof.Safety

namespace Sys2Proof.Machine

open Sys2Proof.Safety

/-! ## Full-empty bits (01 R22) -/

theorem mem_insertNat (l : List Nat) (x y : Nat) : y ∈ insertNat l x ↔ y = x ∨ y ∈ l := by
  induction l with
  | nil => exact List.mem_cons
  | cons z r ih =>
    rw [insertNat]
    split
    · exact List.mem_cons
    · split
      next h => rw [List.mem_cons, h, ← or_assoc, or_self]
      next => rw [List.mem_cons, ih, List.mem_cons, or_left_comm]

theorem Core.fullOf_setFullOf (c : Core) (b y : Buf) (l : List Nat) :
    (c.setFullOf b l).fullOf y = if y = b then l else c.fullOf y := by
  cases b <;> cases y <;> rfl

/-- A granule's bit after one bit was set. -/
theorem Core.full_setFull (c : Core) (b y : Buf) (g h : Nat) (v : Bool) :
    (c.setFull b g v).full y h = if y = b ∧ h = g then v else c.full y h := by
  rw [Core.full, Core.setFull, Core.fullOf_setFullOf]
  by_cases hy : y = b
  · subst hy
    rw [if_pos rfl, Bool.eq_iff_iff, List.contains_iff_mem]
    cases v
    · by_cases hh : h = g <;> simp [hh, Core.full]
    · by_cases hh : h = g <;> simp [hh, Core.full, mem_insertNat]
  · rw [if_neg hy, if_neg fun e => hy e.1]; rfl

theorem Core.buf_setFull (c : Core) (b y : Buf) (g : Nat) (v : Bool) : (c.setFull b g v).buf y = c.buf y := by
  cases b <;> cases y <;> rfl

/-! ## Bytes -/

theorem Core.buf_putBuf (c : Core) (b y : Buf) (a : Nat) (bs : List Byte) :
    (c.putBuf b a bs).buf y = if y = b then (c.buf b).putBytes a bs else c.buf y := by
  cases b <;> cases y <;> rfl

theorem Core.fullOf_putBuf (c : Core) (b y : Buf) (a : Nat) (bs : List Byte) : (c.putBuf b a bs).fullOf y = c.fullOf y := by
  cases b <;> cases y <;> rfl

/-- A byte after n bytes of a number were written. -/
theorem Memory.get_putBytes_leBytes {m : Memory} (h : m.wf = true) (a n v y : Nat) :
    (m.putBytes a (leBytes n v)).get y = if a ≤ y ∧ y < a + n then BitVec.ofNat 8 (v / 256 ^ (y - a)) else m.get y := by
  have hlen : (leBytes n v).length = n := length_leBytes n v
  split
  next hy =>
    have hi : y - a < (leBytes n v).length := by omega
    have hget := Memory.get_putBytes_inside (leBytes n v) a (y - a) hi h
    rw [Nat.add_sub_cancel' hy.1] at hget
    have helem := getElem?_leBytes n v (by omega : y - a < n)
    rw [List.getElem?_eq_getElem hi] at helem
    exact hget.trans (Option.some.inj helem)
  next hy => exact Memory.get_putBytes_outside _ a y h (by omega)

/-! ## The read cache (03 R90) -/

theorem Core.buf_touchCache (c : Core) (b y : Buf) (a : Nat) : (c.touchCache b a).buf y = c.buf y := by
  unfold Core.touchCache
  split
  · cases y <;> rfl
  · rfl

theorem Core.fullOf_touchCache (c : Core) (b y : Buf) (a : Nat) : (c.touchCache b a).fullOf y = c.fullOf y := by
  unfold Core.touchCache
  split
  · cases y <;> rfl
  · rfl

/-! ## Words that change a core's buffers -/

/-- d differs from c in nothing but typed buffers, full-empty bits and caches. -/
def SameButBuffers (c d : Core) : Prop :=
  { d with
    bufW := c.bufW, bufA := c.bufA, bufC := c.bufC, fullW := c.fullW, fullA := c.fullA, fullC := c.fullC, bcache := c.bcache
    l1 := c.l1, il1 := c.il1 } = c

theorem SameButBuffers.fcs {c d : Core} (h : SameButBuffers c d) : d.fcs = c.fcs := by
  have e := congrArg Core.fcs h
  exact e

theorem SameButBuffers.run {c d : Core} (h : SameButBuffers c d) : d.run = c.run := by
  have e := congrArg Core.run h
  exact e

theorem SameButBuffers.trans {c d e : Core} (h : SameButBuffers c d) (h' : SameButBuffers d e) : SameButBuffers c e := by
  have heq := congrArg (fun d : Core => { d with
    bufW := c.bufW, bufA := c.bufA, bufC := c.bufC, fullW := c.fullW, fullA := c.fullA, fullC := c.fullC, bcache := c.bcache
    l1 := c.l1, il1 := c.il1 }) h'
  exact heq.trans h

theorem Core.touchCache_sameButBuffers (c : Core) (b : Buf) (a : Nat) : SameButBuffers c (c.touchCache b a) := by
  unfold Core.touchCache
  split <;> rfl

theorem Core.setFull_sameButBuffers (c : Core) (b : Buf) (g : Nat) (v : Bool) : SameButBuffers c (c.setFull b g v) := by
  cases b <;> rfl

theorem Core.putBuf_sameButBuffers (c : Core) (b : Buf) (a : Nat) (bs : List Byte) : SameButBuffers c (c.putBuf b a bs) := by
  cases b <;> rfl

theorem State.cur_modCore (s : State) (f : Core → Core) : (s.modCore s.now f).cur = f s.cur := s.core_modCore_same _ _

theorem State.fc_modCore {s : State} {f : Core → Core} (h : SameButBuffers s.cur (f s.cur)) : (s.modCore s.now f).fc = s.fc := by
  rw [State.fc, State.cur_modCore, Core.fc, h.fcs, h.run]; rfl

theorem State.modCore_onlyBuffers {s : State} {f : Core → Core} (h : SameButBuffers s.cur (f s.cur)) :
    OnlyBuffers s (s.modCore s.now f) where
  package := rfl
  others k hk := s.core_modCore_ne f hk.symm
  bytes := ⟨fun _ => rfl, fun _ _ => rfl⟩
  core := by rw [State.cur_modCore]; exact congrArg (fun c : Core => { c with fcs := s.cur.fcs }) h
  contexts n _ := by rw [State.cur_modCore, Core.fc, h.fcs]; rfl
  context := by rw [State.fc_modCore h]

theorem State.fc_setG (s : State) (d : Fin 32) (v : Word) :
    (s.setG d v).fc = { s.fc with g := if d = 0 then s.fc.g else s.fc.g.set d v } := by
  by_cases h : d = 0
  · rw [h, State.setG_zero]; rfl
  · rw [s.setG_of_ne v h, State.fc_setFc, if_neg h]

theorem State.setG_onlyBuffers (s : State) (d : Fin 32) (v : Word) : OnlyBuffers s (s.setG d v) := by
  by_cases h : d = 0
  · rw [h, State.setG_zero]; exact OnlyBuffers.refl s
  · rw [s.setG_of_ne v h]; exact OnlyRegs.onlyBuffers (s.setFc_onlyRegs _ (by rfl))

theorem State.setP_onlyBuffers (s : State) (d : Fin 8) (v : Bool) : OnlyBuffers s (s.setP d v) := by
  by_cases h : d = 0
  · rw [h, State.setP_zero]; exact OnlyBuffers.refl s
  · rw [s.setP_of_ne v h]; exact OnlyRegs.onlyBuffers (s.setFc_onlyRegs _ (by rfl))

theorem State.buf_setFc (s : State) (f : FiringCtx) (b : Buf) :
    (s.setFc f).cur.buf b = s.cur.buf b ∧ (s.setFc f).cur.fullOf b = s.cur.fullOf b := by
  rw [State.cur_setFc]
  cases b <;> exact ⟨rfl, rfl⟩

theorem State.buf_setG (s : State) (d : Fin 32) (v : Word) (b : Buf) :
    (s.setG d v).cur.buf b = s.cur.buf b ∧ (s.setG d v).cur.fullOf b = s.cur.fullOf b := by
  by_cases h : d = 0
  · rw [h, State.setG_zero]; exact ⟨rfl, rfl⟩
  · rw [s.setG_of_ne v h]; exact s.buf_setFc _ b

theorem State.buf_setP (s : State) (d : Fin 8) (v : Bool) (b : Buf) :
    (s.setP d v).cur.buf b = s.cur.buf b ∧ (s.setP d v).cur.fullOf b = s.cur.fullOf b := by
  by_cases h : d = 0
  · rw [h, State.setP_zero]; exact ⟨rfl, rfl⟩
  · rw [s.setP_of_ne v h]; exact s.buf_setFc _ b

/-- What a word that has changed a core's buffers keeps at its end: registers as u has them, the buffers of u, and the pc and loops
that follow s. -/
theorem State.advance_of_onlyBuffers {s u : State} (hb : OnlyBuffers s u) (hpc : u.fc.pc = s.fc.pc) (hl : u.fc.loops = s.fc.loops) :
    OnlyBuffers s u.advance ∧ FallsThrough s u.advance ∧ (u.fc.q = s.fc.q → u.fc.f = s.fc.f → u.fc.j = s.fc.j → KeepsQFJ s u.advance) ∧
      ∀ b, u.advance.cur.buf b = u.cur.buf b ∧ u.advance.cur.fullOf b = u.cur.fullOf b := by
  obtain ⟨⟨-, -, hq, hf, hj⟩, honly, -⟩ := u.advance_spec
  exact ⟨hb.trans honly.onlyBuffers, State.fallsThrough_advance_of hpc hl,
    fun eq ef ej => ⟨hq.trans eq, hf.trans ef, hj.trans ej⟩, u.buf_setFc _⟩

end Sys2Proof.Machine
end

section
/-!
Reads and writes of half a granule (03 R87, R88, R91).
-/
namespace Sys2Proof.Machine

open Sys2Proof.Safety

/-! ## Addresses (03 R87, 05 R158) -/

theorem State.bufThen_of_ok {s : State} {x : BitVec 2} {ea : Nat} {b : Buf} (h : BufOk s x ea b) (k : Buf → Nat → Res) :
    s.bufThen x.toNat ea k = k b ea := by
  obtain ⟨hb, ha, hlt, hopen⟩ := h
  rw [State.bufThen, Core.bufAddr, if_neg (not_not.2 ha), hb]
  dsimp only
  rw [hopen, decide_eq_true hlt]; rfl

theorem State.bufThen_of_misaligned {s : State} {x ea : Nat} (h : ea % 8 ≠ 0) (k : Buf → Nat → Res) :
    s.bufThen x ea k = .next (s.raise 0x02 (BitVec.ofNat 64 ea) 0) := by
  rw [State.bufThen, Core.bufAddr, if_pos h]

/-- An aligned address of a read or write lies outside its buffer or its bank is not open, or it goes on. -/
theorem State.bufThen_cases {s : State} {x : BitVec 2} {ea : Nat} (ha : ea % 8 = 0) (k : Buf → Nat → Res) :
    s.bufThen x.toNat ea k = .next (s.raise 0x07 (BitVec.ofNat 64 ea) 0) ∨
      ∃ b, BufOk s x ea b ∧ s.bufThen x.toNat ea k = k b ea := by
  cases hb : Buf.of x.toNat with
  | none => exact .inl (by rw [State.bufThen, Core.bufAddr, if_neg (not_not.2 ha), hb])
  | some b =>
    by_cases h : ea < b.size ∧ s.cur.bankOpen b ea s.cur.cx = true
    · have hok : BufOk s x ea b := ⟨hb, ha, h.1, h.2⟩
      exact .inr ⟨b, hok, State.bufThen_of_ok hok k⟩
    · refine .inl ?_
      have hno : ¬(decide (ea < b.size) && s.cur.bankOpen b ea s.cur.cx) = true := by rwa [Bool.and_eq_true, decide_eq_true_eq]
      rw [State.bufThen, Core.bufAddr, if_neg (not_not.2 ha), hb]
      dsimp only
      rw [if_neg hno]

/-! ## Reads (03 R88) -/

/-- A read with this qualifier waits for the granule to be full. -/
def Qual.waits : Qual → Bool
  | .consume | .peek => true
  | .plain | .noBlock => false

/-- What a read of half a granule of b at a leaves before its pc advances. -/
def State.readDone (s : State) (d : Fin 32) (b : Buf) (a : Nat) (q : Qual) : State :=
  let full := s.cur.full b (a / 16)
  let t := (s.modCore s.now fun c => if q = .plain || full then c.touchCache b a else c).setG d (zextBytes (s.cur.bufBytes b a 8))
  match q with
  | .plain | .peek => t
  | .noBlock => t.setP 7 full
  | .consume => t.modCore t.now fun c => c.setFull b (a / 16) false

theorem State.readHalf_of_ok {s : State} {x : BitVec 2} {ea : Nat} {b : Buf} {q : Qual} (h : BufOk s x ea b)
    (hq : q.waits = true → s.mayRead b (ea / 16) = true) (d : Fin 32) (i : Instr) :
    s.readHalf d x.toNat ea q i = .next (s.readDone d b ea q).advance := by
  rw [State.readHalf, State.bufThen_of_ok h]
  cases q with
  | plain | noBlock => rfl
  | peek => exact if_pos (hq rfl)
  | consume =>
    dsimp only [State.readDone]
    rw [if_pos (hq rfl), State.setG_now]; rfl

theorem State.readHalf_of_not_full {s : State} {x : BitVec 2} {ea : Nat} {b : Buf} {q : Qual} (h : BufOk s x ea b)
    (hq : q.waits = true) (hm : s.mayRead b (ea / 16) = false) (d : Fin 32) (i : Instr) :
    s.readHalf d x.toNat ea q i = .next (s.block (.full b.num (ea / 16) (q = .consume) i)) := by
  have hno : ¬s.mayRead b (ea / 16) = true := by rw [hm]; exact Bool.false_ne_true
  rw [State.readHalf, State.bufThen_of_ok h]
  cases q with
  | plain | noBlock => exact absurd hq Bool.false_ne_true
  | peek | consume => exact if_neg hno

/-- A read that the cache serves changes the cache alone. -/
theorem Core.touchIf_spec (c : Core) (b : Buf) (a : Nat) (hit : Bool) :
    SameButBuffers c (if hit then c.touchCache b a else c) ∧
      ∀ y, (if hit then c.touchCache b a else c).buf y = c.buf y ∧ (if hit then c.touchCache b a else c).fullOf y = c.fullOf y := by
  cases hit
  · exact ⟨rfl, fun _ => ⟨rfl, rfl⟩⟩
  · exact ⟨c.touchCache_sameButBuffers b a, fun y => ⟨c.buf_touchCache b y a, c.fullOf_touchCache b y a⟩⟩

theorem Core.full_congr {c d : Core} {y : Buf} (h : d.fullOf y = c.fullOf y) (g : Nat) : d.full y g = c.full y g :=
  congrArg (fun l : List Nat => l.contains g) h

/-- What a read leaves before its pc advances: the half in g[d], for the form that does not block the bit in p7, and for the one
that consumes an empty granule. -/
theorem State.readDone_spec (s : State) (d : Fin 32) (b : Buf) (a : Nat) (q : Qual) :
    let w := s.readDone d b a q
    OnlyBuffers s w ∧
      w.fc = { s.fc with
        g := if d = 0 then s.fc.g else s.fc.g.set d (zextBytes (s.cur.bufBytes b a 8))
        p := if q = .noBlock then s.fc.p.set 7 (s.cur.full b (a / 16)) else s.fc.p } ∧
      (∀ y, w.cur.buf y = s.cur.buf y) ∧
      ∀ y g, w.cur.full y g = if q = .consume ∧ y = b ∧ g = a / 16 then false else s.cur.full y g := by
  intro w
  obtain ⟨hsame, htouch⟩ := s.cur.touchIf_spec b a (q = .plain || s.cur.full b (a / 16))
  let u := s.modCore s.now fun c => if q = .plain || s.cur.full b (a / 16) then c.touchCache b a else c
  have hu : OnlyBuffers s u := State.modCore_onlyBuffers hsame
  have hufc : u.fc = s.fc := State.fc_modCore hsame
  have hucur : u.cur = _ := s.cur_modCore _
  let t := u.setG d (zextBytes (s.cur.bufBytes b a 8))
  have ht : OnlyBuffers s t := hu.trans (u.setG_onlyBuffers _ _)
  have htfc : t.fc = { s.fc with g := if d = 0 then s.fc.g else s.fc.g.set d (zextBytes (s.cur.bufBytes b a 8)) } := by
    rw [u.fc_setG, hufc]
  have hbuf (y : Buf) : t.cur.buf y = s.cur.buf y := (u.buf_setG _ _ y).1.trans (hucur ▸ (htouch y).1)
  have hfull (y : Buf) (g : Nat) : t.cur.full y g = s.cur.full y g :=
    Core.full_congr ((u.buf_setG _ _ y).2.trans (hucur ▸ (htouch y).2)) g
  cases q with
  | plain | peek => exact ⟨ht, htfc, hbuf, fun y g => (hfull y g).trans (if_neg fun h => nomatch h.1).symm⟩
  | noBlock =>
    refine ⟨ht.trans (t.setP_onlyBuffers _ _), ?_, fun y => (t.buf_setP _ _ y).1.trans (hbuf y), fun y g => ?_⟩
    · change (t.setP 7 _).fc = _
      rw [t.setP_of_ne _ (by decide), State.fc_setFc, htfc]; rfl
    · exact (Core.full_congr (t.buf_setP _ _ y).2 g).trans ((hfull y g).trans (if_neg fun h => nomatch h.1).symm)
  | consume =>
    have hset : SameButBuffers t.cur (t.cur.setFull b (a / 16) false) := t.cur.setFull_sameButBuffers _ _ _
    have hcur : w.cur = t.cur.setFull b (a / 16) false := t.cur_modCore _
    have hw : OnlyBuffers t w := State.modCore_onlyBuffers (f := fun c => c.setFull b (a / 16) false) hset
    have hwfc : w.fc = t.fc := State.fc_modCore hset
    refine ⟨ht.trans hw, hwfc.trans htfc, fun y => ?_, fun y g => ?_⟩
    · rw [hcur, Core.buf_setFull, hbuf]
    · rw [hcur, Core.full_setFull, hfull]
      exact if_congr (and_iff_right rfl).symm rfl rfl

/-- A word whose meaning is `readHalf` reads half a granule with its qualifier. -/
theorem bufReads_of_readHalf {i : Instr} {d : Fin 32} {x : BitVec 2} {ea : State → Nat} {q : Qual}
    (h : ∀ s, exec i s = s.readHalf d x.toNat (ea s) q i) : BufReads i d x ea q.waits (q = .noBlock) (q = .consume) := by
  refine ⟨fun s b hok hw => ?_, fun s b hok hw hm => ?_, fun s => ⟨fun ha => ?_, fun ha hout => ?_⟩⟩
  · rw [h, State.readHalf_of_ok hok hw]
    obtain ⟨hb, hfc, hbuf, hfull⟩ := s.readDone_spec d b (ea s) q
    obtain ⟨honly, hthrough, hregs, hadv⟩ := State.advance_of_onlyBuffers hb (by rw [hfc]) (by rw [hfc])
    have hg (r : Fin 32) : (s.readDone d b (ea s) q).g r = (s.setG d (zextBytes (s.cur.bufBytes b (ea s) 8))).g r := by
      rw [State.g, State.g, State.fc_setG, hfc]
    have hp (r : Fin 8) : (s.readDone d b (ea s) q).p r =
        if q = .noBlock then (s.setP 7 (s.cur.full b (ea s / 16))).p r else s.p r := by
      by_cases hq : q = .noBlock
      · rw [if_pos hq, s.setP_of_ne _ (by decide), State.p_setFc, State.p, hfc, if_pos hq]; rfl
      · rw [if_neg hq, State.p, hfc, if_neg hq]; rfl
    refine ⟨_, rfl, fun hd => ?_, ⟨State.g_zero _, fun r hr => ?_⟩, ?_, fun r hr => ?_,
      hregs (by rw [hfc]) (by rw [hfc]) (by rw [hfc]), honly, fun y => (hadv y).1.trans (hbuf y), fun y g => ?_, hthrough⟩
    · rw [State.g_advance, hg, State.g_setG_same _ _ hd]; rfl
    · rw [State.g_advance, hg, State.g_setG_ne _ _ hr.symm]
    · rw [State.p_advance, hp, State.p_setP_same _ _ (by decide)]
      exact if_congr decide_eq_true_iff.symm rfl rfl
    · rw [State.p_advance, hp, State.p_setP_ne _ _ hr.symm, ite_self]
    · rw [Core.full_congr (hadv y).2, hfull]
      exact if_congr (and_congr_left' decide_eq_true_iff.symm) rfl rfl
  · rw [h, State.readHalf_of_not_full hok hw hm]
  · rw [h, State.readHalf, State.bufThen_of_misaligned ha]
  · rw [h, State.readHalf]
    obtain e | ⟨b, ⟨hb, -, hlt, hopen⟩, -⟩ := State.bufThen_cases (s := s) (x := x) ha _
    · exact e
    · obtain hle | hc := hout b hb
      · omega
      · exact absurd (hc.symm.trans hopen) Bool.false_ne_true

theorem typedBufferReads : TypedBufferReads := fun _ _ _ _ _ =>
  ⟨bufReads_of_readHalf (q := .plain) fun _ => rfl, bufReads_of_readHalf (q := .consume) fun _ => rfl,
    bufReads_of_readHalf (q := .peek) fun _ => rfl, bufReads_of_readHalf (q := .noBlock) fun _ => rfl,
    bufReads_of_readHalf (q := .plain) fun _ => rfl, bufReads_of_readHalf (q := .consume) fun _ => rfl,
    bufReads_of_readHalf (q := .peek) fun _ => rfl, bufReads_of_readHalf (q := .noBlock) fun _ => rfl⟩

/-! ## Writes (03 R88, R91) -/

/-- What a write of half a granule leaves before its pc advances. -/
def State.writeDone (s : State) (d : Fin 32) (b : Buf) (a : Nat) : State :=
  s.modCore s.now fun c => (c.putBuf b a (leBytes 8 (s.g d).toNat)).setFull b (a / 16) true

theorem State.writeHalf_of_ok {s : State} {x : BitVec 2} {ea : Nat} {b : Buf} (h : BufOk s x ea b) (d : Fin 32) (wait : Bool) :
    s.writeHalf d x.toNat ea wait =
      if b = .w then .next (s.raise 0x07 (BitVec.ofNat 64 ea) 0)
      else if wait && s.cur.full b (ea / 16) then .next (s.block (.empty b.num (ea / 16)))
      else .next (s.writeDone d b ea).advance := State.bufThen_of_ok h _

/-- A word whose meaning is `writeHalf` writes half a granule of A or C. -/
theorem bufWrites_of_writeHalf {i : Instr} {d : Fin 32} {x : BitVec 2} {ea : State → Nat} {wait : Bool}
    (h : ∀ s, exec i s = s.writeHalf d x.toNat (ea s) wait) : BufWrites i d x ea wait := by
  refine ⟨fun s b hok hb hwf hw => ?_, fun s b hok hb hw hf => ?_, fun s => ⟨fun ha => ?_, fun ha hout => ?_⟩⟩
  · have hgo : ¬(wait && s.cur.full b (ea s / 16)) = true := by
      rw [Bool.and_eq_true]
      exact fun e => Bool.false_ne_true ((hw e.1).symm.trans e.2)
    rw [h, State.writeHalf_of_ok hok, if_neg hb, if_neg hgo]
    have hsame : SameButBuffers s.cur ((s.cur.putBuf b (ea s) (leBytes 8 (s.g d).toNat)).setFull b (ea s / 16) true) :=
      (s.cur.putBuf_sameButBuffers _ _ _).trans (Core.setFull_sameButBuffers _ _ _ _)
    have hcur : (s.writeDone d b (ea s)).cur = _ := s.cur_modCore _
    have hfc : (s.writeDone d b (ea s)).fc = s.fc := State.fc_modCore hsame
    have hdone : OnlyBuffers s (s.writeDone d b (ea s)) := State.modCore_onlyBuffers hsame
    obtain ⟨honly, hthrough, -, hadv⟩ := State.advance_of_onlyBuffers hdone (by rw [hfc]) (by rw [hfc])
    have hbuf (y : Buf) : (s.writeDone d b (ea s)).advance.cur.buf y =
        if y = b then (s.cur.buf b).putBytes (ea s) (leBytes 8 (s.g d).toNat) else s.cur.buf y :=
      (hadv y).1.trans (by rw [hcur, Core.buf_setFull, Core.buf_putBuf])
    refine ⟨_, rfl, State.keepsRegs_advance_of (by rw [hfc]) (by rw [hfc]) (by rw [KeepsQFJ, hfc]; exact ⟨rfl, rfl, rfl⟩), honly,
      fun y => ?_, fun y hy => (hbuf y).trans (if_neg hy), fun y g => ?_, hthrough⟩
    · rw [← Memory.get_putBytes_leBytes hwf, hbuf, if_pos rfl]
    · rw [Core.full_congr (hadv y).2, hcur, Core.full_setFull, Core.full_congr (Core.fullOf_putBuf _ _ _ _ _)]
  · rw [h, State.writeHalf_of_ok hok, if_neg hb, hw, hf]; rfl
  · rw [h, State.writeHalf, State.bufThen_of_misaligned ha]
  · rw [h]
    obtain e | ⟨b, hok, -⟩ := State.bufThen_cases (s := s) (x := x) ha fun b a => if b = .w then .next (s.raise 0x07 (BitVec.ofNat 64 (ea s)) 0)
      else if wait && s.cur.full b (a / 16) then .next (s.block (.empty b.num (a / 16)))
      else .next (s.writeDone d b a).advance
    · exact e
    · obtain ⟨hb, -, hlt, hopen⟩ := id hok
      obtain hw | hle | hc := hout b hb
      · rw [State.writeHalf_of_ok hok, if_pos hw]
      · omega
      · exact absurd (hc.symm.trans hopen) Bool.false_ne_true

theorem typedBufferWrites : TypedBufferWrites := fun _ _ _ _ _ =>
  ⟨bufWrites_of_writeHalf fun _ => rfl, bufWrites_of_writeHalf fun _ => rfl, bufWrites_of_writeHalf fun _ => rfl,
    bufWrites_of_writeHalf fun _ => rfl⟩

/-- Settles O48, by its two parts. -/
theorem typedBufferAccesses : Obligations.TypedBufferAccesses := ⟨typedBufferReads, typedBufferWrites⟩

end Sys2Proof.Machine
end

section
/-!
What the caches change (03 R67, R68, 05 R145, R146): lines and pages that come and go leave every register, and note at contexts
that watch a line that it is gone (11 R313).
-/
namespace Sys2Proof.Machine

open Sys2Proof.Safety

/-! ## Contexts that note a line -/

/-- g differs from f in nothing but what it notes of the lines that it watches. -/
def OnlyWatch (f g : FiringCtx) : Prop := { g with watch := f.watch, waits := f.waits } = f

theorem OnlyWatch.refl (f : FiringCtx) : OnlyWatch f f := rfl

theorem OnlyWatch.trans {f g h : FiringCtx} (hfg : OnlyWatch f g) (hgh : OnlyWatch g h) : OnlyWatch f h := by
  have e := congrArg (fun g : FiringCtx => { g with watch := f.watch, waits := f.waits }) hgh
  exact e.trans hfg

theorem OnlyWatch.sameRegs {f g : FiringCtx} (h : OnlyWatch f g) : SameRegs f g := by
  rw [← show { g with watch := f.watch, waits := f.waits } = f from h]
  exact ⟨rfl, rfl, rfl, rfl, rfl, rfl, rfl, rfl, rfl⟩

theorem OnlyWatch.status {f g : FiringCtx} (h : OnlyWatch f g) : g.status = f.status := by
  have e := congrArg FiringCtx.status h
  exact e

theorem OnlyWatch.stopped {f g : FiringCtx} (h : OnlyWatch f g) : g.stopped = f.stopped := by
  have e := congrArg FiringCtx.stopped h
  exact e

theorem FiringCtx.noteWrite_onlyWatch (f : FiringCtx) (l : Loc) : OnlyWatch f (f.noteWrite l) := rfl

/-- The same context of a core runs, and every context differs at most in what it notes. -/
structure OnlyWatches (c d : Core) : Prop where
  run : d.run = c.run
  fcs : ∀ n, OnlyWatch (c.fc n) (d.fc n)

theorem OnlyWatches.of_fcs {c d : Core} (hr : d.run = c.run) (hf : d.fcs = c.fcs) : OnlyWatches c d :=
  ⟨hr, fun n => by rw [Core.fc, Core.fc, hf]; exact OnlyWatch.refl _⟩

theorem OnlyWatches.refl (c : Core) : OnlyWatches c c := .of_fcs rfl rfl

theorem OnlyWatches.trans {c d e : Core} (h : OnlyWatches c d) (h' : OnlyWatches d e) : OnlyWatches c e :=
  ⟨h'.run.trans h.run, fun n => (h.fcs n).trans (h'.fcs n)⟩

theorem Core.noteWrite_onlyWatches (c : Core) (l : Loc) (w : Option (Fin 8)) : OnlyWatches c (c.noteWrite l w) where
  run := rfl
  fcs n := by
    have e : (c.noteWrite l w).fc n = if w.map Fin.val = some n.val then c.fc n else (c.fc n).noteWrite l := by
      simp [Core.fc, Core.noteWrite, Vector.get_eq_getElem]
    rw [e]
    split
    · exact OnlyWatch.refl _
    · exact FiringCtx.noteWrite_onlyWatch _ _

/-! ## Changes of one core's data L1 -/

/-- d differs from c in nothing but its data L1 and what its contexts note. -/
structure OnlyL1 (c d : Core) : Prop where
  core : { d with fcs := c.fcs, l1 := c.l1 } = c
  fcs : ∀ n, OnlyWatch (c.fc n) (d.fc n)

theorem OnlyL1.onlyWatches {c d : Core} (h : OnlyL1 c d) : OnlyWatches c d where
  run := by
    have e := congrArg Core.run h.core
    exact e
  fcs := h.fcs

/-- A line that comes to a data L1 makes one that leaves it noted. -/
theorem Core.cacheLine_onlyL1 (c : Core) (l : Loc) (excl : Bool) (r : Nat) : OnlyL1 c (c.cacheLine l excl r) := by
  unfold Core.cacheLine
  extract_lets m c'
  split
  · exact ⟨rfl, fun _ => OnlyWatch.refl _⟩
  · split
    · refine ⟨rfl, fun n => ?_⟩
      simp only [Core.fc, Vector.get_eq_getElem, Vector.getElem_map]
      exact FiringCtx.noteWrite_onlyWatch _ _
    · exact ⟨rfl, fun _ => OnlyWatch.refl _⟩

theorem Core.l1_cacheLine (c : Core) (l : Loc) (excl : Bool) (r : Nat) : look (c.cacheLine l excl r).l1 l = some excl := by
  unfold Core.cacheLine
  extract_lets m c'
  split
  · exact look_put_same _ _ _
  · split <;> exact look_put_same _ _ _

theorem any_key_of_look {α : Type} : ∀ {l : List (Loc × α)} {x : Loc} {v : α}, look l x = some v → (l.any fun e => e.1 = x) = true
  | e :: r, x, v, h => by
    obtain ⟨k, w⟩ := e
    rw [look] at h
    rw [List.any_cons, Bool.or_eq_true, decide_eq_true_eq]
    split at h
    next hk => exact .inl hk
    next => exact .inr (any_key_of_look h)

/-! ## What the package keeps -/

/-- Every core of the package runs the same context, and every context differs at most in what it notes. -/
structure CacheMotion (s t : State) : Prop where
  now : t.now = s.now
  cores : ∀ k, OnlyWatches (s.core k) (t.core k)

theorem CacheMotion.of_cores {s t : State} (hn : t.now = s.now) (hc : t.cores = s.cores) : CacheMotion s t :=
  ⟨hn, fun k => by rw [State.core, State.core, hc]; exact OnlyWatches.refl _⟩

theorem CacheMotion.refl (s : State) : CacheMotion s s := .of_cores rfl rfl

theorem CacheMotion.trans {s t u : State} (h : CacheMotion s t) (h' : CacheMotion t u) : CacheMotion s u :=
  ⟨h'.now.trans h.now, fun k => (h.cores k).trans (h'.cores k)⟩

theorem CacheMotion.fc {s t : State} (h : CacheMotion s t) : OnlyWatch s.fc t.fc := by
  rw [State.fc, State.fc, State.cur, State.cur, h.now, (h.cores s.now).run]
  exact (h.cores s.now).fcs _

theorem State.mapCores_cacheMotion (s : State) {f : CoreId → Core → Core} (hf : ∀ j c, OnlyWatches c (f j c)) :
    CacheMotion s (s.mapCores f) :=
  ⟨rfl, fun k => by
    obtain h | h := s.core_mapCores f k <;> rw [h]
    · exact hf _ _
    · exact OnlyWatches.refl _⟩

theorem State.modCore_cacheMotion (s : State) (k : CoreId) {f : Core → Core} (hf : ∀ c, OnlyWatches c (f c)) :
    CacheMotion s (s.modCore k f) :=
  ⟨rfl, fun j => by
    by_cases h : k = j
    · subst h; rw [State.core_modCore_same]; exact hf _
    · rw [s.core_modCore_ne f h]; exact OnlyWatches.refl _⟩

theorem State.setBytes_cacheMotion (s : State) (l : Loc) (bs : List Byte) : CacheMotion s (s.setBytes l bs) := by
  obtain ⟨m, h, e⟩ := State.setBytes_eq bs s l
  rw [e]
  exact .of_cores rfl rfl

theorem State.noteWrite_cacheMotion (s : State) (l : Loc) (w : Option (CoreId × Fin 8)) : CacheMotion s (s.noteWrite l w) :=
  s.mapCores_cacheMotion fun _ c => c.noteWrite_onlyWatches l _

/-- A fold of changes that each keep registers keeps them. -/
theorem CacheMotion.foldl {α : Type} {f : State → α → State} (hf : ∀ s a, CacheMotion s (f s a)) (l : List α) (s : State) :
    CacheMotion s (l.foldl f s) := by
  induction l generalizing s with
  | nil => exact CacheMotion.refl s
  | cons a r ih => exact (hf s a).trans (ih _)

theorem State.writeBack_cacheMotion (s : State) (x : Nat) (k : TileKey) : CacheMotion s (s.writeBack x k) := by
  unfold State.writeBack
  extract_lets c h
  split
  · extract_lets e
    split
    · extract_lets old t u
      have ht : CacheMotion s t := .of_cores rfl rfl
      exact (ht.trans (t.setBytes_cacheMotion _ _)).trans (.foldl (fun v _ => v.noteWrite_cacheMotion _ _) _ _)
    · exact CacheMotion.refl s
  · exact CacheMotion.refl s

theorem State.evictTile_cacheMotion (s : State) (l : L2Line) : CacheMotion s (s.evictTile l) := by
  unfold State.evictTile
  extract_lets t
  have ht : CacheMotion s t := .of_cores rfl rfl
  split
  · exact ht
  · split
    · exact ht.trans (t.writeBack_cacheMotion _ _)
    · split
      · exact .of_cores rfl rfl
      · exact ht

theorem State.touchL2_cacheMotion (s : State) (x : Nat) (k : TileKey) (ver : Nat) (rows : List Nat) :
    CacheMotion s (s.touchL2 x k ver rows) := by
  unfold State.touchL2
  split
  · exact CacheMotion.refl s
  · extract_lets sl n mates
    split
    · exact .of_cores rfl rfl
    · split
      · exact .of_cores rfl rfl
      · split
        next v _ => exact (s.evictTile_cacheMotion v).trans (.of_cores rfl rfl)
        · exact CacheMotion.refl s

theorem State.touchLine_cacheMotion (s : State) (x : Nat) (l : Loc) : CacheMotion s (s.touchLine x l) := by
  unfold State.touchLine
  split
  · exact CacheMotion.refl s
  · exact s.touchL2_cacheMotion _ _ _ _

/-- A line comes to its home slice, where there is room, and the L2 alone changes (05 R145). -/
theorem State.touchLine_of_room {s : State} {x : Nat} {l : Loc} (h : SliceHasRoom s x l) :
    ∃ ls, s.touchLine x l = { s with l2 := ls } := by
  unfold State.touchLine State.touchL2
  split
  · exact ⟨s.l2, rfl⟩
  next hdev =>
    split
    · exact ⟨s.l2, rfl⟩
    next p hp =>
      extract_lets sl n mates
      split
      · exact ⟨_, rfl⟩
      · obtain hhost | hroom := h
        · exact absurd hhost hdev
        · rw [if_pos (hroom p hp)]
          exact ⟨_, rfl⟩

/-! ## Lines that come to a data L1 (11 R309) -/

/-- A line that comes to be shared: a core that owned it alone no longer does. -/
def State.unowned (s : State) (l : Loc) : State :=
  s.mapCores fun _ c => if look c.l1 l = some true then { c with l1 := put c.l1 l false } else c

theorem State.core_unowned (s : State) (l : Loc) (j : CoreId) : ∃ ls, (s.unowned l).core j = { s.core j with l1 := ls } := by
  obtain h | h := s.core_mapCores (fun _ c => if look c.l1 l = some true then { c with l1 := put c.l1 l false } else c) j
  · rw [State.unowned, h]
    split <;> exact ⟨_, rfl⟩
  · exact ⟨(s.core j).l1, h⟩

theorem State.core_shareLine (s : State) (k j : CoreId) (l : Loc) : (s.shareLine k l).core j =
    ((s.unowned l).modCore k fun c => c.cacheLine l false (Config.freeValue s.freeCtr)).core j := rfl

theorem State.core_shareLine_ne (s : State) {k j : CoreId} (l : Loc) (h : k ≠ j) :
    { (s.shareLine k l).core j with l1 := (s.core j).l1 } = s.core j := by
  obtain ⟨ls, e⟩ := s.core_unowned l j
  rw [s.core_shareLine, State.core_modCore_ne _ _ h, e]

/-- A core to whose data L1 a line comes has it there, and nothing else of it changes but what its contexts note. -/
theorem State.core_shareLine_same (s : State) (k : CoreId) (l : Loc) :
    OnlyL1 (s.core k) ((s.shareLine k l).core k) ∧ look ((s.shareLine k l).core k).l1 l = some false := by
  obtain ⟨ls, e⟩ := s.core_unowned l k
  rw [s.core_shareLine, State.core_modCore_same, e]
  obtain ⟨hcore, hfcs⟩ := ({ s.core k with l1 := ls } : Core).cacheLine_onlyL1 l false (Config.freeValue s.freeCtr)
  refine ⟨⟨?_, hfcs⟩, Core.l1_cacheLine _ _ _ _⟩
  have hc := congrArg (fun c : Core => { c with l1 := (s.core k).l1 }) hcore
  exact hc

theorem State.shareLine_cacheMotion (s : State) (k : CoreId) (l : Loc) : CacheMotion s (s.shareLine k l) :=
  ⟨rfl, fun j => by
    by_cases h : k = j
    · subst h; exact (s.core_shareLine_same k l).1.onlyWatches
    · have e := s.core_shareLine_ne l h
      refine .of_fcs ?_ ?_
      · have e' := congrArg Core.run e
        exact e'
      · have e' := congrArg Core.fcs e
        exact e'⟩

end Sys2Proof.Machine
end

section
/-!
Hints: of the caches (03 R83, R86, R90) and of the clock (14 R413, R415).
-/
namespace Sys2Proof.Safety

open Sys2Proof.Machine

theorem OnlyCaches.refl (s : State) : OnlyCaches s s :=
  ⟨rfl, fun _ _ => rfl, rfl, fun _ _ => rfl, rfl, fun _ => rfl, fun _ _ => rfl⟩

/-- The pc moves on after a change of caches alone. -/
theorem OnlyCaches.advance {s u : State} (h : OnlyCaches s u) : OnlyCaches s u.advance := by
  have hnow : u.now = s.now := by
    have e := congrArg State.now h.package
    exact e
  have hrun : u.cur.run = s.cur.run := by
    have e := congrArg Core.run h.core
    exact e
  obtain ⟨x, hx⟩ : ∃ x, u.advance = u.setFc (u.fc.go x) := ⟨_, rfl⟩
  rw [hx]
  refine ⟨h.package, fun k hk => ?_, ?_, fun n hn => ?_, ?_, h.bytes⟩
  · rw [u.core_setFc_ne _ (hnow ▸ hk.symm)]; exact h.others k hk
  · rw [State.cur_setFc]; exact h.core
  · rw [State.cur_setFc, Core.fc_setFc_ne _ _ (hrun ▸ hn.symm)]; exact h.contexts n hn
  · rw [State.fc_setFc]; exact h.context

end Sys2Proof.Safety

namespace Sys2Proof.Machine

open Sys2Proof.Safety

/-! ## A word that ends after a change of caches -/

theorem CacheMotion.advance_spec {s u : State} (h : CacheMotion s u) : KeepsRegs s u.advance ∧ FallsThrough s u.advance := by
  obtain ⟨hg, hp, hq, hf, hj, hpc, hl, -, -⟩ := h.fc.sameRegs
  exact ⟨State.keepsRegs_advance_of hg hp ⟨hq, hf, hj⟩, State.fallsThrough_advance_of hpc hl⟩

/-! ## `pref` (03 R86) -/

theorem State.fillLine_cacheMotion (s : State) (l : Loc) : CacheMotion s (s.fillLine l) := by
  unfold State.fillLine
  split
  · exact CacheMotion.refl s
  · exact (s.shareLine_cacheMotion _ _).trans (State.touchLine_cacheMotion _ _ _)

/-- A line that comes where the L2 has room for it changes caches alone, and is in the data L1 then. -/
theorem State.fillLine_of_room {s : State} {l : Loc} (h : SliceHasRoom s s.x l.line) :
    OnlyCaches s (s.fillLine l) ∧ ((s.fillLine l).cur.l1.any fun e => e.1 = l.line) = true := by
  unfold State.fillLine
  split
  next hin => exact ⟨OnlyCaches.refl s, hin⟩
  next =>
    obtain ⟨ls, e⟩ := State.touchLine_of_room (s := s.shareLine s.now l.line) h
    obtain ⟨⟨hcore, hfcs⟩, hl1⟩ := s.core_shareLine_same s.now l.line
    rw [e]
    refine ⟨⟨rfl, fun k hk => s.core_shareLine_ne l.line hk.symm, hcore, fun n _ => hfcs n, ?_, fun _ => rfl, fun _ _ => rfl⟩,
      any_key_of_look hl1⟩
    have hfc := congrArg (fun f : FiringCtx => { f with
      pc := s.fc.pc, loops := s.fc.loops, woken := s.fc.woken, expired := s.fc.expired, half := s.fc.half, turns := s.fc.turns
      checked := s.fc.checked, fetched := s.fc.fetched }) (s.shareLine_cacheMotion s.now l.line).fc
    exact hfc

/-- What `pref` fills: the line of a canonical address on a readable page. -/
def State.prefTarget (s : State) (ea : Word) : Option Loc :=
  if canonical ea then
    (pageOf (s.ctx s.x).pages ea.toNat).bind fun p =>
      if p.r && (pageLoc p ea.toNat).here then some (pageLoc p ea.toNat) else none
  else none

theorem exec_pref_eq (s : State) (a : Fin 32) (i : BitVec 16) :
    exec (.pref a i) s = .next ((s.prefTarget (s.eaImm a i)).elim s s.fillLine).advance := by
  change execPref a i s = _
  unfold execPref State.prefTarget
  dsimp only
  cases canonical (s.eaImm a i)
  · rfl
  · cases pageOf (s.ctx s.x).pages (s.eaImm a i).toNat with
    | none => rfl
    | some p =>
      rw [if_pos rfl, Option.bind_some]
      dsimp only
      cases p.r && (pageLoc p (s.eaImm a i).toNat).here <;> rfl

theorem State.prefTarget_page {s : State} {ea : Word} {l : Loc} (h : s.prefTarget ea = some l) :
    ∃ p, pageOf (s.ctx s.x).pages ea.toNat = some p ∧ pageLoc p ea.toNat = l := by
  unfold State.prefTarget at h
  split at h
  · obtain ⟨p, hp, hl⟩ := Option.bind_eq_some_iff.1 h
    split at hl
    · exact ⟨p, hp, Option.some.inj hl⟩
    · exact nomatch hl
  · exact nomatch h

theorem State.prefTarget_of_readable {s : State} {ea : Word} {p : PageGrant} (hc : Canon ea)
    (hp : pageOf (s.ctx s.x).pages ea.toNat = some p) (hr : p.r = true) (hh : (pageLoc p ea.toNat).here = true) :
    s.prefTarget ea = some (pageLoc p ea.toNat) := by
  rw [State.prefTarget, if_pos ((canonical_iff ea).2 hc), hp, Option.bind_some, hr, hh]; rfl

theorem exec_pref_spec (s : State) (a : Fin 32) (i : BitVec 16) : ∃ t, exec (.pref a i) s = .next t ∧
    KeepsRegs s t ∧ FallsThrough s t ∧
    ((∀ p, pageOf (s.ctx s.x).pages (s.eaImm a i).toNat = some p → SliceHasRoom s s.x (pageLoc p (s.eaImm a i).toNat).line) →
      OnlyCaches s t ∧ ∀ l, s.prefTarget (s.eaImm a i) = some l → (t.cur.l1.any fun e => e.1 = l.line) = true) := by
  rw [exec_pref_eq]
  cases h : s.prefTarget (s.eaImm a i) with
  | none => exact ⟨_, rfl, (CacheMotion.refl s).advance_spec.1, (CacheMotion.refl s).advance_spec.2, fun _ =>
      ⟨(OnlyCaches.refl s).advance, nofun⟩⟩
  | some l =>
    obtain ⟨hk, hf⟩ := (s.fillLine_cacheMotion l).advance_spec
    refine ⟨_, rfl, hk, hf, fun hroom => ?_⟩
    obtain ⟨p, hp, rfl⟩ := State.prefTarget_page h
    obtain ⟨honly, hin⟩ := State.fillLine_of_room (hroom p hp)
    refine ⟨honly.advance, fun m hm => ?_⟩
    cases hm
    rw [State.advance, State.cur_setFc]
    exact hin

/-! ## `bpf` and `isync` (03 R83, R90) -/

/-- A word that changes caches of its core alone. -/
theorem State.modCore_advance_spec {s : State} {f : Core → Core} (h : SameButBuffers s.cur (f s.cur)) :
    let t := (s.modCore s.now f).advance
    KeepsRegs s t ∧ OnlyBuffers s t ∧ FallsThrough s t ∧ t.cur = (f s.cur).setFc s.cur.run t.fc := by
  intro t
  have hfc : (s.modCore s.now f).fc = s.fc := State.fc_modCore h
  obtain ⟨honly, hthrough, -, -⟩ := State.advance_of_onlyBuffers (State.modCore_onlyBuffers h) (by rw [hfc]) (by rw [hfc])
  refine ⟨State.keepsRegs_advance_of (by rw [hfc]) (by rw [hfc]) (by rw [KeepsQFJ, hfc]; exact ⟨rfl, rfl, rfl⟩), honly, hthrough, ?_⟩
  rw [show t.cur = _ from State.cur_setFc _ _, show t.fc = _ from State.fc_setFc _ _, State.cur_modCore, h.run]

theorem Core.buf_of_setFc (c : Core) (n : Fin 8) (f : FiringCtx) (b : Buf) :
    (c.setFc n f).buf b = c.buf b ∧ (c.setFc n f).fullOf b = c.fullOf b := by
  cases b <;> exact ⟨rfl, rfl⟩

theorem exec_bpf_spec (s : State) (a : Fin 32) (x : BitVec 2) (o : BitVec 12) : ∃ t, exec (.bpf a x o) s = .next t ∧
    KeepsRegs s t ∧ OnlyBuffers s t ∧ (∀ b, t.cur.buf b = s.cur.buf b ∧ t.cur.fullOf b = s.cur.fullOf b) ∧ FallsThrough s t ∧
    ∀ b, Buf.of x.toNat = some b → s.eaBuf a o % 8 = 0 → s.eaBuf a o < b.size →
      (b.num, s.eaBuf a o / 64) ∈ t.cur.bcache ∧ t.cur.bcache.length ≤ 4 := by
  obtain ⟨hk, ho, hf⟩ := s.advance_spec
  have hsame (b : Buf) : s.advance.cur.buf b = s.cur.buf b ∧ s.advance.cur.fullOf b = s.cur.fullOf b := s.buf_setFc _ b
  change ∃ t, execBpf a x o s = .next t ∧ _
  unfold execBpf
  dsimp only
  split
  next hnone => exact ⟨_, rfl, hk, ho.onlyBuffers, hsame, hf, fun b hb => nomatch hnone.symm.trans hb⟩
  next b hb =>
    split
    next hout =>
      rw [Bool.or_eq_true, decide_eq_true_eq, decide_eq_true_eq] at hout
      refine ⟨_, rfl, hk, ho.onlyBuffers, hsame, hf, fun b' hb' ha hlt => ?_⟩
      obtain rfl : b = b' := Option.some.inj (hb.symm.trans hb')
      omega
    next =>
      let f (c : Core) : Core :=
        { c with bcache := ((b.num, s.eaBuf a o / 64) :: c.bcache.filter fun y => y ≠ (b.num, s.eaBuf a o / 64)).take 4 }
      obtain ⟨hk, ho, hf, hcur⟩ := State.modCore_advance_spec (s := s) (f := f) rfl
      refine ⟨_, rfl, hk, ho, fun y => ?_, hf, fun b' hb' _ _ => ?_⟩
      · rw [hcur, (Core.buf_of_setFc _ _ _ y).1, (Core.buf_of_setFc _ _ _ y).2]
        cases y <;> exact ⟨rfl, rfl⟩
      · obtain rfl : b = b' := Option.some.inj (hb.symm.trans hb')
        rw [hcur]
        exact ⟨List.mem_cons_self, List.length_take_le 4 _⟩

theorem exec_isync_spec (s : State) : ∃ t, exec .isync s = .next t ∧ KeepsRegs s t ∧ OnlyBuffers s t ∧ t.cur.il1 = [] ∧
    t.cur.bcache = [] ∧ (∀ b, t.cur.buf b = s.cur.buf b ∧ t.cur.fullOf b = s.cur.fullOf b) ∧ FallsThrough s t := by
  let f (c : Core) : Core := { c with il1 := [], bcache := [] }
  obtain ⟨hk, ho, hf, hcur⟩ := State.modCore_advance_spec (s := s) (f := f) rfl
  refine ⟨_, rfl, hk, ho, by rw [hcur]; rfl, by rw [hcur]; rfl, fun b => ?_, hf⟩
  rw [hcur, (Core.buf_of_setFc _ _ _ b).1, (Core.buf_of_setFc _ _ _ b).2]
  cases b <;> exact ⟨rfl, rfl⟩

theorem cachingHints : CachingHints := by
  refine ⟨fun s a i => ?_, fun s a x o => exec_bpf_spec s a x o, fun s => exec_isync_spec s⟩
  obtain ⟨t, ht, hk, hf, hroom⟩ := exec_pref_spec s a i
  refine ⟨t, ht, hk, hf, fun h => ⟨(hroom h).1, fun p hc hp hr hh => ?_⟩⟩
  exact (hroom h).2 _ (State.prefTarget_of_readable hc hp hr hh)

/-! ## `hint` (14 R413, R415) -/

theorem EventCounter.count_add (e : EventCounter) (ev : Nat) (h : (e.en && e.live && !e.tag && e.ev = ev) = true) :
    (e.add ev 1 false).count = (e.count + 1) % 2 ^ 48 := by
  simp only [Bool.and_eq_true, decide_eq_true_eq] at h
  obtain ⟨⟨⟨hen, hlive⟩, htag⟩, hev⟩ := h
  rw [EventCounter.add, hen, hlive, htag, hev]
  simp

theorem Core.counters_event (c : Core) (ev n : Nat) (tagged : Bool) (m : Fin 4) :
    (c.event ev n tagged).counters.get m = (c.counters.get m).add ev n tagged := by
  simp [Core.event, Vector.get_eq_getElem]

theorem State.hint_spec (s : State) (h : Hint) : ∃ t, s.hint h = .next t ∧ t.fc.hint = some h ∧ KeepsRegs s t ∧
    (∀ l, t.byte l = s.byte l) ∧ FallsThrough s t ∧
    (∀ n, ((s.cur.counters.get n).en && (s.cur.counters.get n).live && !(s.cur.counters.get n).tag &&
      (s.cur.counters.get n).ev = 0x13) = true →
      (t.cur.counters.get n).count = ((s.cur.counters.get n).count + 1) % 2 ^ 48) ∧
    ∀ k, k ≠ s.now → t.core k = s.core k := by
  let n := (s.cluster (clusterOf s.now)).hintCount + 1
  let u := (s.modCluster (clusterOf s.now) fun c => { c with hintCount := n }).modCore s.now fun c => c.event 0x13 1 false
  have hcur : u.cur = s.cur.event 0x13 1 false := State.core_modCore_same _ _ _
  have hfc : u.fc = s.fc := by rw [State.fc, hcur]; rfl
  let v := u.setFc { u.fc with hint := some h, hintSerial := n }
  have hvfc : v.fc = { s.fc with hint := some h, hintSerial := n } := by rw [State.fc_setFc, hfc]
  have hadv : v.advance.fc = v.fc.go (loopTest v.pc none v.fc.loops (v.pc + 4)) := State.fc_setFc _ _
  refine ⟨v.advance, rfl, by rw [hadv, hvfc]; rfl, State.keepsRegs_advance_of (by rw [hvfc]) (by rw [hvfc])
    (by rw [KeepsQFJ, hvfc]; exact ⟨rfl, rfl, rfl⟩), fun _ => rfl, State.fallsThrough_advance_of (by rw [hvfc]) (by rw [hvfc]),
    fun m hm => ?_, fun k hk => ?_⟩
  · have hcounters : v.advance.cur.counters = u.cur.counters := by
      rw [State.advance, State.cur_setFc, State.cur_setFc]; rfl
    rw [hcounters, hcur, Core.counters_event, EventCounter.count_add _ _ hm]
  · exact (v.core_setFc_ne _ hk.symm).trans ((u.core_setFc_ne _ hk.symm).trans (State.core_modCore_ne _ _ hk.symm))

theorem hints : Hints := fun s i h hi => by
  have hexec : exec i s = s.hint h := by
    simp only [List.mem_cons, List.not_mem_nil, or_false, Prod.mk.injEq] at hi
    obtain ⟨rfl, rfl⟩ | ⟨rfl, rfl⟩ | ⟨rfl, rfl⟩ := hi <;> rfl
  rw [hexec]
  exact s.hint_spec h

/-- Settles O51, by its two parts. -/
theorem hintsChangeNothingElse : Obligations.HintsChangeNothingElse := ⟨cachingHints, hints⟩

end Sys2Proof.Machine
end

section
/-!
Firing contexts take turns (03 R62, R63): the next ready context, the switch to it, and a context that becomes ready.
-/
namespace Sys2Proof.Safety

open Sys2Proof.Machine

theorem SameRegs.refl (f : FiringCtx) : SameRegs f f := ⟨rfl, rfl, rfl, rfl, rfl, rfl, rfl, rfl, rfl⟩

theorem SameRegs.trans {f g h : FiringCtx} (hfg : SameRegs f g) (hgh : SameRegs g h) : SameRegs f h := by
  obtain ⟨h1, h2, h3, h4, h5, h6, h7, h8, h9⟩ := hfg
  obtain ⟨k1, k2, k3, k4, k5, k6, k7, k8, k9⟩ := hgh
  exact ⟨k1.trans h1, k2.trans h2, k3.trans h3, k4.trans h4, k5.trans h5, k6.trans h6, k7.trans h7, k8.trans h8, k9.trans h9⟩

end Sys2Proof.Safety

namespace Sys2Proof.Machine

open Sys2Proof.Safety

/-! ## The order of turns -/

/-- The seven other contexts in their order after n. -/
def othersAfter (n : Fin 8) : List (Fin 8) := (List.finRange 7).map fun i => n + i.castSucc + 1

theorem mem_othersAfter : ∀ n m : Fin 8, m ∈ othersAfter n ↔ m ≠ n := by decide

theorem turnOrder_eq : ∀ n : Fin 8, ((List.finRange 8).map fun i => n + i + 1) = othersAfter n ++ [n] := by decide

/-- The next ready context is the first ready one of the others, or the one itself. -/
theorem Core.nextReady_eq (c : Core) (n : Fin 8) : c.nextReady n =
    ((othersAfter n).find? fun m => (c.fc m).isReady).or (if (c.fc n).isReady then some n else none) := by
  rw [Core.nextReady, turnOrder_eq, List.find?_append, List.find?_singleton]

theorem Core.find_other_of_nextReady {c : Core} {n m : Fin 8} (h : c.nextReady n = some m) (hm : m ≠ n) :
    ((othersAfter n).find? fun m => (c.fc m).isReady) = some m := by
  rw [c.nextReady_eq] at h
  cases ho : (othersAfter n).find? fun m => (c.fc m).isReady with
  | some a => rwa [ho, Option.some_or] at h
  | none =>
    rw [ho, Option.none_or] at h
    split at h
    · exact absurd (Option.some.inj h).symm hm
    · exact nomatch h

/-- A ready context that stands next is the next one. -/
theorem Core.nextReady_pred {c : Core} {n : Fin 8} (h : (c.fc n).isReady = true) : c.nextReady (n - 1) = some n := by
  have hord : ∀ n : Fin 8, ∃ r, ((List.finRange 8).map fun i => n - 1 + i + 1) = n :: r := fun n =>
    ⟨(othersAfter (n - 1) ++ [n - 1]).drop 1, by revert n; decide⟩
  obtain ⟨r, hr⟩ := hord n
  rw [Core.nextReady, hr, List.find?_cons, h]

/-! ## The switch (03 R62) -/

/-- g differs from f in nothing but whose turn it is. -/
def OnlyTurn (f g : FiringCtx) : Prop := { g with status := f.status, issued := f.issued } = f

theorem OnlyTurn.sameRegs {f g : FiringCtx} (h : OnlyTurn f g) : SameRegs f g := by
  rw [← show { g with status := f.status, issued := f.issued } = f from h]
  exact ⟨rfl, rfl, rfl, rfl, rfl, rfl, rfl, rfl, rfl⟩

/-- The context m runs, as a switch leaves it. -/
def Core.runNext (c : Core) (m : Fin 8) : Core :=
  { (c.setFc m { c.fc m with status := .running, issued := 0 }).event 0x08 1 false with run := m }

theorem Core.switch_of_next {c : Core} {m : Fin 8} (h : c.nextReady c.run = some m) : c.switch = c.runNext m := by
  rw [Core.switch, h]; rfl

theorem Core.fc_runNext_same (c : Core) (m : Fin 8) : (c.runNext m).fc m = { c.fc m with status := .running, issued := 0 } :=
  Core.fc_setFc_same _ _ _

theorem Core.fc_runNext_ne (c : Core) {m n : Fin 8} (h : n ≠ m) : (c.runNext m).fc n = c.fc n := Core.fc_setFc_ne _ _ h.symm

theorem Core.onlyTurn_runNext (c : Core) (m n : Fin 8) : OnlyTurn (c.fc n) ((c.runNext m).fc n) := by
  by_cases h : n = m
  · subst h; rw [Core.fc_runNext_same]; rfl
  · rw [Core.fc_runNext_ne c h]; rfl

/-- A core that differs in nothing but its contexts, whose turn it is, and its event counters. -/
def OnlyTurns (c d : Core) : Prop := { d with fcs := c.fcs, run := c.run, counters := c.counters } = c

/-- A switch changes whose turn it is, and nothing else of a core but a counter. -/
theorem Core.switch_spec (c : Core) : OnlyTurns c c.switch ∧ ∀ n, OnlyTurn (c.fc n) (c.switch.fc n) := by
  cases h : c.nextReady c.run with
  | none =>
    have e : c.switch = c := by rw [Core.switch, h]
    rw [e]; exact ⟨rfl, fun _ => rfl⟩
  | some m => rw [Core.switch_of_next h]; exact ⟨rfl, c.onlyTurn_runNext m⟩

/-- A ready context runs at once where no other context of its core does (03 R62). -/
def Core.letRun (c : Core) (n : Fin 8) : Core :=
  if (c.fc c.run).status = .running then c else ({ c with run := n - 1 } : Core).switch

theorem Core.letRun_spec {c : Core} {n : Fin 8} (hr : (c.fc n).status = .ready) (hs : (c.fc n).stopped = false) :
    OnlyTurns c (c.letRun n) ∧ (∀ m, OnlyTurn (c.fc m) ((c.letRun n).fc m)) ∧
      (((c.letRun n).fc n).status = .ready ∨ ((c.letRun n).fc n).status = .running ∧ (c.letRun n).run = n) := by
  unfold Core.letRun
  split
  · exact ⟨rfl, fun _ => rfl, .inl hr⟩
  · let b : Core := { c with run := n - 1 }
    have hready : (b.fc n).isReady = true := by
      change (decide ((c.fc n).status = .ready) && !(c.fc n).stopped) = true
      rw [hr, hs]; rfl
    obtain ⟨hcore, hfcs⟩ := b.switch_spec
    refine ⟨?_, hfcs, .inr ?_⟩
    · have e := congrArg (fun d : Core => { d with run := c.run }) hcore
      exact e
    · rw [b.switch_of_next (Core.nextReady_pred hready), Core.fc_runNext_same]
      exact ⟨rfl, rfl⟩

theorem Core.ready_eq {c : Core} {n : Fin 8} (h : (c.fc n).status ≠ .running) :
    c.ready n = (c.setFc n { c.fc n with status := .ready, woken := true }).letRun n := by
  have hrun : ((c.setFc n { c.fc n with status := .ready, woken := true }).fc c.run).status = .running ↔
      (c.fc c.run).status = .running := by
    by_cases hn : n = c.run
    · subst hn
      rw [Core.fc_setFc_same]
      exact ⟨nofun, fun e => absurd e h⟩
    · rw [Core.fc_setFc_ne _ _ hn]
  rw [Core.ready, Core.letRun]
  exact if_congr hrun.symm rfl rfl

/-! ## Giving way (03 R63) -/

/-- The running context goes behind the next ready one, and goes on where there is none. -/
theorem Core.yieldRun_spec (c : Core) :
    (∀ m, c.nextReady c.run = some m → m ≠ c.run → c.yieldRun.run = m ∧
      c.yieldRun.fc m = { c.fc m with status := .running, issued := 0 } ∧
      c.yieldRun.fc c.run = { c.fc c.run with status := .ready, issued := 0, half := none } ∧
      ∀ n, n ≠ m → n ≠ c.run → c.yieldRun.fc n = c.fc n) ∧
    ((∀ m, m ≠ c.run → (c.fc m).isReady = false) → c.yieldRun = c) := by
  let f : FiringCtx := { c.fc c.run with status := .ready, issued := 0, half := none }
  let b : Core := c.setFc c.run f
  have hyield : c.yieldRun = match b.nextReady c.run with
    | none => c
    | some m => if m = c.run then c else b.switch := rfl
  have hothers : ((othersAfter c.run).find? fun m => (b.fc m).isReady) = (othersAfter c.run).find? fun m => (c.fc m).isReady :=
    List.find?_congr fun m hm => by rw [Core.fc_setFc_ne _ _ ((mem_othersAfter _ _).1 hm).symm]
  refine ⟨fun m hm hne => ?_, fun hnone => ?_⟩
  · have hb : b.nextReady b.run = some m := by
      rw [b.nextReady_eq, show b.run = c.run from rfl, hothers, Core.find_other_of_nextReady hm hne, Option.some_or]
    have e : c.yieldRun = b.runNext m := by
      rw [hyield, show b.nextReady c.run = some m from hb]
      exact (if_neg hne).trans (Core.switch_of_next hb)
    rw [e]
    refine ⟨rfl, ?_, ?_, fun n hn hrun => ?_⟩
    · rw [Core.fc_runNext_same, Core.fc_setFc_ne _ _ hne.symm]
    · rw [Core.fc_runNext_ne _ hne.symm, Core.fc_setFc_same]
    · rw [Core.fc_runNext_ne _ hn, Core.fc_setFc_ne _ _ hrun.symm]
  · have hno : ((othersAfter c.run).find? fun m => (c.fc m).isReady) = none :=
      List.find?_eq_none.2 fun m hm => by rw [hnone m ((mem_othersAfter _ _).1 hm)]; exact Bool.false_ne_true
    rw [hyield, b.nextReady_eq, hothers, hno, Option.none_or]
    split
    · rfl
    next m hm =>
      split at hm
      · exact if_pos (Option.some.inj hm).symm
      · exact nomatch hm

theorem State.givesWay_yieldRun (s : State) (k : CoreId) : GivesWay k s (s.modCore k fun c => c.yieldRun) := by
  unfold GivesWay
  extract_lets c d
  have hd : d = c.yieldRun := s.core_modCore_same k _
  rw [hd]
  exact ⟨c.yieldRun_spec.1, c.yieldRun_spec.2, fun j hj => s.core_modCore_ne _ hj.symm, rfl⟩

end Sys2Proof.Machine
end

section
/-!
The end of a firing (03 R83, 04 R117, R129).
-/
namespace Sys2Proof.Machine

open Sys2Proof.Safety

/-! ## A firing of a context -/

theorem Context.look_modFiring (c : Context) (fid : Nat) (u : Firing → Firing) :
    look (c.modFiring fid u).firings fid = (look c.firings fid).map u := by
  change look (c.firings.map fun e => if e.1 = fid then (e.1, u e.2) else e) fid = _
  induction c.firings with
  | nil => rfl
  | cons e r ih =>
    obtain ⟨k, v⟩ := e
    by_cases h : k = fid <;> simp [look, h, ih]

/-- What the end of a firing leaves to its context: whether it has ended, its messages and reservations, and what is held. -/
structure SameOutput (fid : Nat) (c d : Context) : Prop where
  held : d.heldMsgs = c.heldMsgs
  ended : (d.firing fid).ended = (c.firing fid).ended
  msgs : (d.firing fid).msgs = (c.firing fid).msgs
  resv : (d.firing fid).resv = (c.firing fid).resv

theorem SameOutput.trans {fid : Nat} {c d e : Context} (h : SameOutput fid c d) (h' : SameOutput fid d e) : SameOutput fid c e :=
  ⟨h'.held.trans h.held, h'.ended.trans h.ended, h'.msgs.trans h.msgs, h'.resv.trans h.resv⟩

theorem SameOutput.of_firings {fid : Nat} {c d : Context} (hh : d.heldMsgs = c.heldMsgs) (hf : d.firings = c.firings) :
    SameOutput fid c d := by
  have e : d.firing fid = c.firing fid := by rw [Context.firing, Context.firing, hf]
  exact ⟨hh, by rw [e], by rw [e], by rw [e]⟩

theorem Context.modFiring_sameOutput (c : Context) (fid : Nat) {u : Firing → Firing}
    (hu : ∀ f, (u f).ended = f.ended ∧ (u f).msgs = f.msgs ∧ (u f).resv = f.resv) : SameOutput fid c (c.modFiring fid u) := by
  have e : (c.modFiring fid u).firing fid = ((look c.firings fid).map u).getD Firing.blank :=
    congrArg (fun o : Option Firing => o.getD Firing.blank) (c.look_modFiring fid u)
  have e' : c.firing fid = (look c.firings fid).getD Firing.blank := rfl
  cases h : look c.firings fid with
  | none =>
    rw [h] at e e'
    exact ⟨rfl, by rw [e, e']; rfl, by rw [e, e']; rfl, by rw [e, e']; rfl⟩
  | some f =>
    rw [h] at e e'
    obtain ⟨h1, h2, h3⟩ := hu f
    exact ⟨rfl, by rw [e, e']; exact h1, by rw [e, e']; exact h2, by rw [e, e']; exact h3⟩

theorem Context.endPhase_sameOutput (c : Context) (fid : Nat) : SameOutput fid c (c.endPhase fid) := by
  have hcur (ws : List (TileKey × Nat × List Byte)) : SameOutput fid c (c.makeCurrent fid ws) := by
    unfold Context.makeCurrent
    split <;> exact .of_firings rfl rfl
  have hmod := Context.modFiring_sameOutput (c.makeCurrent fid (c.firing fid).writes) fid
    (u := fun f => { f with writes := [], touched := f.touched || !(c.firing fid).writes.isEmpty }) fun _ => ⟨rfl, rfl, rfl⟩
  exact (hcur _).trans hmod

/-- Settling a firing changes its context alone, and keeps what its end has left. -/
theorem State.settle_spec (s : State) (k : CoreId) (fid : Nat) :
    (∃ cs, s.settle k fid = { s with ctxs := cs }) ∧ SameOutput fid (s.ctx (s.cxId k)) ((s.settle k fid).ctx (s.cxId k)) := by
  unfold State.settle
  extract_lets x f
  split
  · refine ⟨⟨_, rfl⟩, ?_⟩
    rw [State.ctx_modCtx_same]
    extract_lets c
    have hc : SameOutput fid (s.ctx x) c := .of_firings rfl rfl
    split
    · exact hc.trans (Context.modFiring_sameOutput _ _ fun _ => ⟨rfl, rfl, rfl⟩)
    · split
      · exact (hc.trans (Context.endPhase_sameOutput _ _)).trans (Context.modFiring_sameOutput _ _ fun _ => ⟨rfl, rfl, rfl⟩)
      · exact hc
  · exact ⟨⟨s.ctxs, rfl⟩, .of_firings rfl rfl⟩

/-! ## `done` -/

/-- A context as a firing's end leaves it: nothing runs on it. -/
def FiringCtx.ended (f : FiringCtx) : FiringCtx :=
  { f with
    status := .free, sb := [], pub := [], loops := [], watch := [], waits := [], waitCmd := none, hint := none, woken := false
    expired := false, turns := [], checked := false, fetched := none }

/-- A core as the end of its running firing leaves it: the messages of the package go to its outbound queue. -/
def Core.finish (c : Core) (near : List Message) : Core :=
  (({ c with outbound := c.outbound ++ near } : Core).setFc c.run (c.fc c.run).ended).switch

theorem Core.finish_spec (c : Core) (near : List Message) :
    ((c.finish near).fc c.run).status = .free ∧ (c.finish near).outbound = c.outbound ++ near ∧
      ∀ n, n ≠ c.run → SameRegs (c.fc n) ((c.finish near).fc n) := by
  let b : Core := ({ c with outbound := c.outbound ++ near } : Core).setFc c.run (c.fc c.run).ended
  obtain ⟨hcore, hfcs⟩ := b.switch_spec
  have hfree : b.fc c.run = (c.fc c.run).ended := Core.fc_setFc_same _ _ _
  refine ⟨?_, ?_, fun n hn => ?_⟩
  · have hno : (b.fc c.run).isReady = false := by rw [hfree]; rfl
    change (b.switch.fc c.run).status = _
    rw [Core.fc_switch_of_not_ready hno, hfree]; rfl
  · have e := congrArg Core.outbound hcore
    exact e
  · have hb : b.fc n = c.fc n := Core.fc_setFc_ne _ _ hn.symm
    exact hb ▸ (hfcs n).sameRegs

/-- The state once a firing's messages are released (04 R129): those to other packages are held output of its context. -/
def State.released (s : State) : State :=
  let far := s.firing.msgs.filter fun m => m.remote
  let t := s.modFiring s.x s.fid fun g =>
    { g with ended := true, msgs := [], resv := [], touched := g.touched || !s.firing.msgs.isEmpty }
  if far.isEmpty then t else t.modCtx s.x fun c => { c with heldMsgs := c.heldMsgs ++ far }

theorem State.finishFiring_eq (s : State) : s.finishFiring =
    (s.released.modCore s.now fun c => c.finish (s.firing.msgs.filter fun m => !m.remote)).settle s.now s.fid := rfl

theorem State.released_spec {s : State} (hx : (look s.ctxs s.x).isSome = true)
    (hf : (look (s.ctx s.x).firings s.fid).isSome = true) :
    (∃ cs, s.released = { s with ctxs := cs }) ∧ ((s.released.ctx s.x).firing s.fid).ended = true ∧
      ((s.released.ctx s.x).firing s.fid).msgs = [] ∧ ((s.released.ctx s.x).firing s.fid).resv = [] ∧
      (s.released.ctx s.x).heldMsgs = (s.ctx s.x).heldMsgs ++ s.firing.msgs.filter fun m => m.remote := by
  obtain ⟨f, hf⟩ := Option.isSome_iff_exists.1 hf
  unfold State.released
  extract_lets far t
  have hfiring : (t.ctx s.x).firing s.fid = { f with
      ended := true, msgs := [], resv := [], touched := f.touched || !s.firing.msgs.isEmpty } := by
    rw [show t = _ from if_pos hx, State.ctx_modCtx_same, Context.firing_modFiring _ hf]
  have hheld : (t.ctx s.x).heldMsgs = (s.ctx s.x).heldMsgs := by
    rw [show t = _ from if_pos hx, State.ctx_modCtx_same]; rfl
  have ht : ∃ cs, t = { s with ctxs := cs } := ⟨_, if_pos hx⟩
  split
  next hfar =>
    have hnil : (s.firing.msgs.filter fun m => m.remote) = [] := List.isEmpty_iff.1 hfar
    rw [hnil, List.append_nil, hfiring]
    exact ⟨ht, rfl, rfl, rfl, hheld⟩
  next =>
    obtain ⟨cs, hcs⟩ := ht
    rw [State.ctx_modCtx_same]
    refine ⟨⟨_, by rw [hcs]; rfl⟩, ?_, ?_, ?_, congrArg (· ++ far) hheld⟩
    · exact congrArg Firing.ended hfiring
    · exact congrArg Firing.msgs hfiring
    · exact congrArg Firing.resv hfiring

theorem State.finishFiring_spec {s : State} (hx : (look s.ctxs s.x).isSome = true)
    (hf : (look (s.ctx s.x).firings s.fid).isSome = true) :
    let t := s.finishFiring
    (t.cur.fc s.cur.run).status = .free ∧ ((t.ctx s.x).firing s.fid).ended = true ∧ ((t.ctx s.x).firing s.fid).msgs = [] ∧
      ((t.ctx s.x).firing s.fid).resv = [] ∧ t.cur.outbound = s.cur.outbound ++ (s.firing.msgs.filter fun m => !m.remote) ∧
      (t.ctx s.x).heldMsgs = (s.ctx s.x).heldMsgs ++ (s.firing.msgs.filter fun m => m.remote) ∧ Bytes s t ∧
      ∀ k n, (k ≠ s.now ∨ n ≠ s.cur.run) → SameRegs ((s.core k).fc n) ((t.core k).fc n) := by
  obtain ⟨⟨cs, hcs⟩, hended, hmsgs, hresv, hheld⟩ := State.released_spec hx hf
  generalize hnear : (s.firing.msgs.filter fun m => !m.remote) = near
  let u := s.released.modCore s.now fun c => c.finish near
  have hu : u = ({ s with ctxs := cs } : State).modCore s.now fun c => c.finish near := by rw [← hcs]
  have hcxId : u.cxId s.now = s.x := by rw [hu]; rfl
  have hctx : u.ctx s.x = s.released.ctx s.x := rfl
  obtain ⟨⟨ds, hds⟩, hout⟩ := u.settle_spec s.now s.fid
  rw [hcxId, hctx] at hout
  have hcore (k : CoreId) : (u.settle s.now s.fid).core k = u.core k := by rw [hds]; rfl
  have hsame : u.core s.now = s.cur.finish near := by rw [hu]; exact State.core_modCore_same _ _ _
  have hcur : (u.settle s.now s.fid).cur = s.cur.finish near := by
    have hnow : (u.settle s.now s.fid).now = s.now := by rw [hds, hu]; rfl
    rw [State.cur, hnow, hcore, hsame]
  obtain ⟨hfree, hbound, hothers⟩ := s.cur.finish_spec near
  rw [s.finishFiring_eq, hnear]
  refine ⟨?_, hout.ended.trans hended, hout.msgs.trans hmsgs, hout.resv.trans hresv, ?_, hout.held.trans hheld, fun l => ?_,
    fun k n h => ?_⟩
  · rw [hcur]; exact hfree
  · rw [hcur]; exact hbound
  · rw [hds, hu]; rfl
  · rw [hcore]
    by_cases hk : k = s.now
    · subst hk
      rw [hsame]
      exact hothers n (h.resolve_left (not_not.2 rfl))
    · rw [hu, State.core_modCore_ne _ _ (Ne.symm hk)]
      exact SameRegs.refl _

/-! ## The obligation -/

theorem execQuantumExpiry_of_over {s : State} {k : CoreId} (hr : ((s.core k).fc (s.core k).run).status = .running)
    (hi : 256 ≤ ((s.core k).fc (s.core k).run).issued) :
    exec (.quantumExpiry k) s = .next (s.modCore k fun c => c.yieldRun) := by
  refine if_pos ?_
  rw [hr, Bool.and_eq_true]
  exact ⟨rfl, decide_eq_true hi⟩

/-- Settles O11: `done` by what a firing's end leaves, `yield` and the quantum's end by the switch to the next ready context. -/
theorem firingsEndAndGiveWay : Obligations.FiringsEndAndGiveWay := by
  have hdone (s : State) : exec .done s = s.publishThen fun s => .next s.finishFiring := rfl
  refine ⟨fun s hp => ?_, fun s hp hx hf => ?_, fun s => ?_, fun s k hr hi => ?_⟩
  · rw [hdone, State.publishThen_of_not_published hp]
  · obtain ⟨hsb, hpub, hq⟩ := hp
    rw [hdone, State.publishThen_of_clean _ _ hsb hpub hq]
    obtain ⟨hfree, hended, hmsgs, hresv, hnear, hfar, hrest⟩ := State.finishFiring_spec hx hf
    refine ⟨_, rfl, hfree, hended, hmsgs, hresv, hnear.trans (congrArg _ (List.filter_congr fun m _ => ?_)),
      hfar.trans (congrArg _ (List.filter_congr fun m _ => ?_)), hrest⟩
    · cases m.remote <;> rfl
    · cases m.remote <;> rfl
  · obtain ⟨hk, ho, hf⟩ := s.advance_spec
    exact ⟨s.advance, _, rfl, hf, hk, ho, s.advance.givesWay_yieldRun s.now⟩
  · exact ⟨_, execQuantumExpiry_of_over hr hi, s.givesWay_yieldRun k⟩

end Sys2Proof.Machine
end

section
/-!
Waking (03 R62, R88, R89, R94): the answer to a miss, a context that becomes ready, and a load served in its turn on a granule.
-/
namespace Sys2Proof.Machine

open Sys2Proof.Safety

/-! ## The answer to a miss (03 R67, R68, 11 R309) -/

theorem State.ownLine_cacheMotion (s : State) (k : CoreId) (l : Loc) : CacheMotion s (s.ownLine k l) := by
  let u := s.mapCores fun j c => if j = k then c else { c with l1 := unput c.l1 l }
  have hu : CacheMotion s u := s.mapCores_cacheMotion fun j c => by
    split
    · exact OnlyWatches.refl c
    · exact .of_fcs rfl rfl
  let v := u.modCore k fun c => c.cacheLine l true (Config.freeValue u.freeCtr)
  have hv : CacheMotion u v := u.modCore_cacheMotion k fun c => (c.cacheLine_onlyL1 l true _).onlyWatches
  have hw : CacheMotion v { v with freeCtr := u.freeCtr + 1 } := .of_cores rfl rfl
  exact (hu.trans hv).trans hw

theorem State.cachePage_cacheMotion (s : State) (k : CoreId) (p : PageGrant) : CacheMotion s (s.cachePage k p) := by
  let v := s.modCore k fun c => c.cachePage p (Config.freeValue s.freeCtr)
  have hv : CacheMotion s v := s.modCore_cacheMotion k fun c => .of_fcs rfl rfl
  have hw : CacheMotion v { v with freeCtr := s.freeCtr + 1 } := .of_cores rfl rfl
  exact hv.trans hw

theorem State.cacheCode_cacheMotion (s : State) (k : CoreId) (l : Loc) : CacheMotion s (s.cacheCode k l) := by
  let bs := s.seenBytes (s.cxId k) ⟨l.onHost, l.addr * 64⟩ 64
  let v := s.modCore k fun c => c.cacheCode l bs (Config.freeValue s.freeCtr)
  have hv : CacheMotion s v := s.modCore_cacheMotion k fun c => .of_fcs rfl rfl
  have hw : CacheMotion v { v with freeCtr := s.freeCtr + 1 } := .of_cores rfl rfl
  exact hv.trans hw

/-- The answer to a miss leaves every register. -/
theorem State.answer_cacheMotion (s : State) (k : CoreId) (w : WaitFor) : CacheMotion s (s.answer k w) := by
  unfold State.answer
  split
  · split
    · exact s.cachePage_cacheMotion _ _
    · exact CacheMotion.refl s
  · exact (s.ownLine_cacheMotion _ _).trans (State.touchLine_cacheMotion _ _ _)
  · exact (s.shareLine_cacheMotion _ _).trans (State.touchLine_cacheMotion _ _ _)
  · exact (s.cacheCode_cacheMotion _ _).trans (State.touchLine_cacheMotion _ _ _)
  · exact CacheMotion.refl s

/-- A line that comes where the L2 has room for it changes no byte. -/
theorem State.byte_touchLine_of_room {s t : State} {x : Nat} {l : Loc} (h : SliceHasRoom s x l) (hb : Bytes s t)
    (hp : t.parts = s.parts) (hl : t.l2 = s.l2) : Bytes s (t.touchLine x l) := by
  have ht : SliceHasRoom t x l := by
    rwa [SliceHasRoom, State.ctxPart, hp, hl]
  obtain ⟨ls, e⟩ := State.touchLine_of_room ht
  rw [e]
  exact hb

theorem State.answer_bytes {s : State} {k : CoreId} {w : WaitFor}
    (h : ∀ l b, w = .line l b ∨ w = .code l → SliceHasRoom s (s.cxId k) l) : Bytes s (s.answer k w) := by
  unfold State.answer
  split
  · split <;> exact fun _ => rfl
  · exact State.byte_touchLine_of_room (h _ true (.inl rfl)) (fun _ => rfl) rfl rfl
  · exact State.byte_touchLine_of_room (h _ false (.inl rfl)) (fun _ => rfl) rfl rfl
  · exact State.byte_touchLine_of_room (h _ true (.inr rfl)) (fun _ => rfl) rfl rfl
  · exact fun _ => rfl

/-! ## A context becomes ready -/

/-- What a wake leaves of its core: the context is ready, not yet issued where it waited at its fetch. -/
def Core.woken (c : Core) (n : Fin 8) (fetch : Bool) : Core :=
  let d := c.ready n
  if fetch then d.setFc n { d.fc n with woken := false } else d

theorem Core.ready_spec {c : Core} {n : Fin 8} (hb : (c.fc n).status ≠ .running) (hs : (c.fc n).stopped = false) :
    OnlyTurns c (c.ready n) ∧ (∀ m, m ≠ n → OnlyTurn (c.fc m) ((c.ready n).fc m)) ∧
      OnlyTurn { c.fc n with woken := true } ((c.ready n).fc n) ∧
      (((c.ready n).fc n).status = .ready ∨ ((c.ready n).fc n).status = .running ∧ (c.ready n).run = n) := by
  let b := c.setFc n { c.fc n with status := .ready, woken := true }
  have hfc : b.fc n = { c.fc n with status := .ready, woken := true } := Core.fc_setFc_same _ _ _
  obtain ⟨hcore, hturn, hstatus⟩ := Core.letRun_spec (c := b) (n := n) (by rw [hfc]) (by rw [hfc]; exact hs)
  rw [Core.ready_eq hb]
  refine ⟨?_, fun m hm => ?_, ?_, hstatus⟩
  · have e := congrArg (fun d : Core => { d with fcs := c.fcs }) hcore
    exact e
  · have e : b.fc m = c.fc m := Core.fc_setFc_ne _ _ hm.symm
    exact e ▸ hturn m
  · have e := congrArg (fun f : FiringCtx => { f with status := (c.fc n).status }) (hfc ▸ hturn n)
    exact e

/-- A wake changes no register of its core, and its context is ready or runs. -/
theorem Core.woken_spec {c : Core} {n : Fin 8} (hb : (c.fc n).status ≠ .running) (hs : (c.fc n).stopped = false) (fetch : Bool) :
    (∀ m, SameRegs (c.fc m) ((c.woken n fetch).fc m)) ∧
      (((c.woken n fetch).fc n).status = .ready ∨ ((c.woken n fetch).fc n).status = .running ∧ (c.woken n fetch).run = n) := by
  obtain ⟨-, hothers, hself, hstatus⟩ := Core.ready_spec hb hs
  have hregs (m : Fin 8) : SameRegs (c.fc m) ((c.ready n).fc m) := by
    by_cases hm : m = n
    · subst hm; exact hself.sameRegs
    · exact (hothers m hm).sameRegs
  cases fetch
  · exact ⟨hregs, hstatus⟩
  · have hfc : (c.woken n true).fc n = { (c.ready n).fc n with woken := false } := Core.fc_setFc_same _ _ _
    refine ⟨fun m => ?_, by rw [hfc]; exact hstatus⟩
    by_cases hm : m = n
    · subst hm; rw [hfc]; exact hregs m
    · have e : (c.woken n true).fc m = (c.ready n).fc m := Core.fc_setFc_ne _ _ (Ne.symm hm)
      rw [e]; exact hregs m

/-! ## FIRING_CONTEXT_WAKE -/

theorem fin8_ofNat_val (n : Fin 8) : Fin.ofNat 8 n.val = n := Fin.ext (Nat.mod_eq_of_lt n.isLt)

/-- What the wake of a blocked context whose condition is met does, by what it waits for. -/
def State.wakeFor (s : State) (k : CoreId) (n : Fin 8) (w : WaitFor) : Res := match w with
  | .full b g _ i => s.serve k n (b, g) i
  | .pail i _ =>
    if (s.pail (s.cxId k) i).state = 2 then .next (s.quietAt k n 0x11 i) else .next (s.modCore k fun d => d.ready n)
  | w => .next ((s.answer k w).modCore k fun d => d.woken n (s.fetchWait k ((s.core k).fc n) w))

section Wake
variable {s : State} {k : CoreId} {n : Fin 8} {w : WaitFor} (hst : ((s.core k).fc n).status = .blocked w)
  (hs : ((s.core k).fc n).stopped = false) (hw : s.wakes k n w = true)
include hst hs hw

/-- A blocked context whose condition is met is served, ends, or becomes ready. -/
theorem exec_wake_eq : exec (.firingContextWake k n.val) s = s.wakeFor k n w := by
  change execFiringContextWake k n.val s = _
  unfold execFiringContextWake
  extract_lets m f
  have hm : m = n := fin8_ofNat_val n
  have hf : f = (s.core k).fc n := congrArg (s.core k).fc hm
  rw [hf, hst, hm]
  dsimp only
  rw [hs, hw]
  cases w <;> rfl

/-- One whose wait no other rule ends is ready again. -/
theorem exec_wake_of_ready (hfull : ∀ b g q i, w ≠ .full b g q i) (hpail : ∀ i g, w = .pail i g → (s.pail (s.cxId k) i).state ≠ 2) :
    exec (.firingContextWake k n.val) s =
      .next ((s.answer k w).modCore k fun d => d.woken n (s.fetchWait k ((s.core k).fc n) w)) := by
  rw [exec_wake_eq hst hs hw]
  cases w with
  | full b g q i => exact absurd rfl (hfull b g q i)
  | pail i g => exact if_neg (hpail i g rfl)
  | _ => rfl

theorem exec_wake_spec (hfull : ∀ b g q i, w ≠ .full b g q i) (hpail : ∀ i g, w = .pail i g → (s.pail (s.cxId k) i).state ≠ 2) :
    ∃ t, exec (.firingContextWake k n.val) s = .next t ∧ AllRegs s t ∧
      ((∀ l b, w = .line l b ∨ w = .code l → SliceHasRoom s (s.cxId k) l) → Bytes s t) ∧
      (((t.core k).fc n).status = .ready ∨ ((t.core k).fc n).status = .running ∧ (t.core k).run = n) := by
  obtain ⟨hnow, hcores⟩ := s.answer_cacheMotion k w
  have hn := (hcores k).fcs n
  obtain ⟨hregs, hstatus⟩ := Core.woken_spec (c := (s.answer k w).core k) (n := n) (by rw [hn.status, hst]; exact nofun)
    (hn.stopped.trans hs) (s.fetchWait k ((s.core k).fc n) w)
  refine ⟨_, exec_wake_of_ready hst hs hw hfull hpail, fun j m => ?_, fun h l => State.answer_bytes h l, ?_⟩
  · by_cases hj : k = j
    · subst hj
      rw [State.core_modCore_same]
      exact ((hcores k).fcs m).sameRegs.trans (hregs m)
    · rw [State.core_modCore_ne _ _ hj]
      exact ((hcores j).fcs m).sameRegs
  · rw [State.core_modCore_same]; exact hstatus

end Wake

end Sys2Proof.Machine
end

section
/-!
A load that waits on a granule is performed in its turn (03 R88, R89).
-/
namespace Sys2Proof.Machine

open Sys2Proof.Safety

/-! ## The service of a waiter -/

/-- The core as the word of a served context meets it: the context runs alone. -/
def Core.serving (c : Core) (n : Fin 8) (turn : Nat × Nat) : Core :=
  { c with
    run := n
    fcs := c.fcs.mapIdx fun m f => if m = n.val then { f with status := .running, turns := f.turns ++ [turn] } else f.aside }

theorem Core.fc_serving_same (c : Core) (n : Fin 8) (turn : Nat × Nat) :
    (c.serving n turn).fc n = { c.fc n with status := .running, turns := (c.fc n).turns ++ [turn] } := by
  simp [Core.fc, Core.serving, Vector.get_eq_getElem]

/-- What a served word, which has completed, leaves of its core: d is the core as the word leaves it. -/
def Core.served (c d : Core) (n : Fin 8) : Core :=
  ({ d with fcs := c.fcs.set n { d.fc n with status := .ready }, run := c.run } : Core).letRun n

/-- Service changes no register of another context, and the context served is ready or runs. -/
theorem Core.served_spec (c : Core) {d : Core} {n : Fin 8} (hs : (d.fc n).stopped = false) :
    (∀ b, (c.served d n).buf b = d.buf b ∧ (c.served d n).fullOf b = d.fullOf b) ∧
      (∀ m, m ≠ n → SameRegs (c.fc m) ((c.served d n).fc m)) ∧ SameRegs (d.fc n) ((c.served d n).fc n) ∧
      (((c.served d n).fc n).status = .ready ∨ ((c.served d n).fc n).status = .running ∧ (c.served d n).run = n) := by
  let e : Core := { d with fcs := c.fcs.set n { d.fc n with status := .ready }, run := c.run }
  have hself : e.fc n = { d.fc n with status := .ready } := c.fc_setFc_same n _
  have hother (m : Fin 8) (hm : m ≠ n) : e.fc m = c.fc m := c.fc_setFc_ne _ hm.symm
  obtain ⟨hcore, hfcs, hstatus⟩ := Core.letRun_spec (c := e) (n := n) (by rw [hself]) (by rw [hself]; exact hs)
  refine ⟨fun b => ⟨?_, ?_⟩, fun m hm => hother m hm ▸ (hfcs m).sameRegs, ?_, hstatus⟩
  · have h := congrArg (fun c : Core => c.buf b) hcore
    cases b <;> exact h
  · have h := congrArg (fun c : Core => c.fullOf b) hcore
    cases b <;> exact h
  · have h : SameRegs (e.fc n) ((e.letRun n).fc n) := (hfcs n).sameRegs
    rw [hself] at h
    exact h

/-- The state in which the word of a waiter is performed. -/
def State.serving (s : State) (k : CoreId) (n : Fin 8) (turn : Nat × Nat) : State :=
  { s.setCore k ((s.core k).serving n turn) with now := k }

theorem State.core_serving (s : State) (k : CoreId) (n : Fin 8) (turn : Nat × Nat) :
    (s.serving k n turn).core k = (s.core k).serving n turn := s.core_setCore_same k _

theorem State.fc_serving (s : State) (k : CoreId) (n : Fin 8) (turn : Nat × Nat) :
    (s.serving k n turn).fc = { (s.core k).fc n with status := .running, turns := ((s.core k).fc n).turns ++ [turn] } := by
  have hcur : (s.serving k n turn).cur = (s.core k).serving n turn := s.core_serving k n turn
  rw [State.fc, hcur]
  exact (s.core k).fc_serving_same n turn

/-- A word that completes in its service leaves its context ready, or running where no other does. -/
theorem State.serve_of_completes {s t : State} {k : CoreId} {n : Fin 8} {turn : Nat × Nat} {i : Instr}
    (h : serveWord i (s.serving k n turn) = .next t) (hr : ((t.core k).fc n).status = .running) :
    s.serve k n turn i = .next { t.setCore k ((s.core k).served (t.core k) n) with now := s.now } := by
  unfold State.serve
  extract_lets c alone was
  have h' : serveWord i { s.setCore k alone with now := k } = .next t := h
  rw [h']
  dsimp only
  rw [if_pos hr]; rfl

/-! ## A load served -/

/-- The load of half a granule that waits: one that consumes, or one that peeks. -/
def waitingLoad (take : Bool) (d a : Fin 32) (x : BitVec 2) (o : BitVec 12) : Instr := if take then .ldbFe d a x o else .ldbPk d a x o

/-- The qualifier of a load that waits. -/
def waitingQual (take : Bool) : Qual := if take then .consume else .peek

theorem serveWord_waitingLoad (take : Bool) (d a : Fin 32) (x : BitVec 2) (o : BitVec 12) (s : State) :
    serveWord (waitingLoad take d a x o) s = s.readHalf d x.toNat (s.eaBuf a o) (waitingQual take) (waitingLoad take d a x o) := by
  cases take <;> rfl

/-- What a load outside a loop leaves of its context and of the buffers. -/
theorem State.readDone_advance_spec {s : State} (d : Fin 32) (b : Buf) (ea : Nat) (take : Bool) (hl : s.fc.loops = []) :
    let t := (s.readDone d b ea (waitingQual take)).advance
    OnlyBuffers s t ∧ t.fc.pc = s.fc.pc + 4 ∧ t.fc.p = s.fc.p ∧
      t.fc.g = (if d = 0 then s.fc.g else s.fc.g.set d (zextBytes (s.cur.bufBytes b ea 8))) ∧ (∀ y, t.cur.buf y = s.cur.buf y) ∧
      t.cur.full b (ea / 16) = (!take && s.cur.full b (ea / 16)) := by
  intro t
  obtain ⟨hb, hfc, hbuf, hfull⟩ := s.readDone_spec d b ea (waitingQual take)
  obtain ⟨honly, hthrough, -, hadv⟩ := State.advance_of_onlyBuffers hb (by rw [hfc]) (by rw [hfc])
  have hno : waitingQual take ≠ .noBlock := by cases take <;> exact nofun
  have hregs : t.fc.g = (s.readDone d b ea (waitingQual take)).fc.g ∧ t.fc.p = (s.readDone d b ea (waitingQual take)).fc.p := by
    simp only [t, State.advance, State.fc_setFc]
    exact ⟨rfl, rfl⟩
  refine ⟨honly, (hthrough.1 (by rw [hl]; exact nofun)).1, ?_, ?_, fun y => (hadv y).1.trans (hbuf y), ?_⟩
  · rw [hregs.2, hfc, if_neg hno]
  · rw [hregs.1, hfc]
  · rw [Core.full_congr (hadv b).2, hfull]
    cases take
    · exact if_neg fun h => nomatch h.1
    · exact if_pos ⟨rfl, rfl, rfl⟩

theorem FiringCtx.status_of_onlyBuffers {s t : State} (h : OnlyBuffers s t) :
    t.fc.status = s.fc.status ∧ t.fc.stopped = s.fc.stopped := by
  have h1 := congrArg FiringCtx.status h.context
  have h2 := congrArg FiringCtx.stopped h.context
  exact ⟨h1, h2⟩

section ServedLoad
variable {s : State} {k : CoreId} {n : Fin 8} {d a : Fin 32} {x : BitVec 2} {o : BitVec 12} {b : Buf} {ea : Nat}
  (hea : ea = (if a = 0 then 0 else ((s.core k).fc n).g.get a).toNat + 8 * o.toNat) (hb : Buf.of x.toNat = some b)
  (ha : ea % 8 = 0) (hlt : ea < b.size) (hopen : (s.core k).bankOpen b ea (s.core k).cx = true)
  (hfull : (s.core k).full b (ea / 16) = true)
include hea hb ha hlt hopen hfull

/-- The load of a waiter goes through in its turn. -/
theorem serveWord_of_full (take : Bool) :
    serveWord (waitingLoad take d a x o) (s.serving k n (b.num, ea / 16)) =
      .next ((s.serving k n (b.num, ea / 16)).readDone d b ea (waitingQual take)).advance := by
  let u := s.serving k n (b.num, ea / 16)
  have hcur : u.cur = (s.core k).serving n (b.num, ea / 16) := s.core_serving k n _
  have hfc : u.fc = _ := s.fc_serving k n (b.num, ea / 16)
  have hu : u.eaBuf a o = ea := by rw [State.eaBuf, State.g, hfc, hea]
  have hok : BufOk u x ea b := ⟨hb, ha, hlt, by rw [hcur]; exact hopen⟩
  have hmay : u.mayRead b (ea / 16) = true := by
    have hturn : u.fc.turns.contains (b.num, ea / 16) = true := by rw [hfc]; simp
    have huf : u.cur.full b (ea / 16) = true := by rw [hcur]; exact hfull
    rw [State.mayRead, huf, hturn]; rfl
  rw [serveWord_waitingLoad]
  change u.readHalf d x.toNat (u.eaBuf a o) _ _ = _
  rw [hu]
  exact State.readHalf_of_ok hok (fun _ => hmay) _ _

theorem State.serve_waitingLoad (hs : ((s.core k).fc n).stopped = false) (hl : ((s.core k).fc n).loops = []) (take : Bool) :
    ∃ t, s.serve k n (b.num, ea / 16) (waitingLoad take d a x o) = .next t ∧ Bytes s t ∧
      (((t.core k).fc n).status = .ready ∨ ((t.core k).fc n).status = .running ∧ (t.core k).run = n) ∧
      ((t.core k).fc n).pc = ((s.core k).fc n).pc + 4 ∧
      (d ≠ 0 → ((t.core k).fc n).g.get d = BitVec.ofNat 64 (leNat ((s.core k).bufBytes b ea 8))) ∧
      (∀ r, r ≠ d → ((t.core k).fc n).g.get r = ((s.core k).fc n).g.get r) ∧ ((t.core k).fc n).p = ((s.core k).fc n).p ∧
      (t.core k).full b (ea / 16) = !take ∧ (∀ y, (t.core k).buf y = (s.core k).buf y) ∧
      ∀ j m, (j ≠ k ∨ m ≠ n) → SameRegs ((s.core j).fc m) ((t.core j).fc m) := by
  let u := s.serving k n (b.num, ea / 16)
  let v := (u.readDone d b ea (waitingQual take)).advance
  have hcur : u.cur = (s.core k).serving n (b.num, ea / 16) := s.core_serving k n _
  have hfc : u.fc = _ := s.fc_serving k n (b.num, ea / 16)
  obtain ⟨honly, hpc, hp, hg, hbuf, hbit⟩ := State.readDone_advance_spec (s := u) d b ea take (by rw [hfc]; exact hl)
  have hvcore : v.core k = v.cur := by rw [State.cur, honly.now]; rfl
  have hvfc : (v.core k).fc n = v.fc := by
    have hrun : v.cur.run = n := honly.run.trans (by rw [hcur]; rfl)
    rw [hvcore, State.fc, hrun]
  obtain ⟨hst, hstop⟩ := FiringCtx.status_of_onlyBuffers honly
  have hrunning : ((v.core k).fc n).status = .running := by rw [hvfc, hst, hfc]
  obtain ⟨hcore, hothers, hself, hstatus⟩ := (s.core k).served_spec (d := v.core k) (n := n) (by rw [hvfc, hstop, hfc]; exact hs)
  let t : State := { v.setCore k ((s.core k).served (v.core k) n) with now := s.now }
  have htcore : t.core k = (s.core k).served (v.core k) n := v.core_setCore_same k _
  obtain ⟨hsg, hsp, -, -, -, hspc, -⟩ := hvfc ▸ hself
  rw [hfc] at hpc hp hg
  refine ⟨t, State.serve_of_completes (serveWord_of_full hea hb ha hlt hopen hfull take) hrunning, fun l => ?_, ?_, ?_,
    fun hd => ?_, fun r hr => ?_, ?_, ?_, fun y => ?_, fun j m h => ?_⟩
  · exact honly.bytes.1 l
  · rw [htcore]; exact hstatus
  · rw [htcore]; exact hspc.trans hpc
  · rw [htcore, hsg, hg, if_neg hd, hcur]
    simp [Vector.get_eq_getElem, zextBytes]; rfl
  · have hne : d.val ≠ r.val := fun e => hr (Fin.ext e.symm)
    rw [htcore, hsg, hg]
    split
    · rfl
    · simp [Vector.get_eq_getElem, Vector.getElem_set_ne, hne]
  · rw [htcore]; exact hsp.trans hp
  · rw [htcore, Core.full_congr (hcore b).2, hvcore, hbit, hcur]
    change (!take && (s.core k).full b (ea / 16)) = !take
    rw [hfull, Bool.and_true]
  · rw [htcore, (hcore y).1, hvcore, hbuf, hcur]
    cases y <;> rfl
  · by_cases hj : j = k
    · subst hj
      rw [htcore]
      exact hothers m (h.resolve_left (not_not.2 rfl))
    · have htj : t.core j = s.core j := by
        have h1 : t.core j = v.core j := v.core_setCore_ne _ (Ne.symm hj)
        have h2 : v.core j = u.core j := honly.others j hj
        have h3 : u.core j = s.core j := s.core_setCore_ne _ (Ne.symm hj)
        rw [h1, h2, h3]
      rw [htj]
      exact SameRegs.refl _

end ServedLoad

/-! ## The order of waiters -/

theorem Buf.of_num (b : Buf) : Buf.of b.num = some b := by cases b <;> rfl

/-- No other context waits on the granule. -/
theorem Core.goesFirst_of_alone {c : Core} {n : Fin 8} {buf g : Nat} (take : Bool)
    (h : ∀ m h q j, m ≠ n → (c.fc m).status ≠ .blocked (.full buf h q j)) : c.goesFirst n buf g take = false := by
  rw [Core.goesFirst, List.any_eq_false]
  intro m _
  by_cases hm : m = n
  · simp [hm]
  · cases hst : (c.fc m).status with
    | blocked w =>
      cases w with
      | full b' h' q j =>
        have hb : b' ≠ buf := fun e => h m h' q j hm (by rw [hst, e])
        simp [hb]
      | _ => simp
    | _ => simp

theorem State.wakes_full {s : State} {k : CoreId} {n : Fin 8} {b : Buf} {g : Nat} {take : Bool} {i : Instr}
    (hf : (s.core k).full b g = true) (h : ∀ m h q j, m ≠ n → ((s.core k).fc m).status ≠ .blocked (.full b.num h q j)) :
    s.wakes k n (.full b.num g take i) = true := by
  have hfirst := Core.goesFirst_of_alone (g := g) take h
  simp [State.wakes, Buf.of_num, hf, hfirst]

/-! ## The wakes of a pail that failed, and of a granule that is full -/

theorem exec_wake_of_pailFailed {s : State} {k : CoreId} {n : Fin 8} {i g : Nat}
    (hst : ((s.core k).fc n).status = .blocked (.pail i g)) (hs : ((s.core k).fc n).stopped = false)
    (hf : (s.pail (s.cxId k) i).state = 2) : exec (.firingContextWake k n.val) s = .next (s.quietAt k n 0x11 i) := by
  have hw : s.wakes k n (.pail i g) = true := by simp [State.wakes, hf]
  rw [exec_wake_eq hst hs hw]
  exact if_pos hf

theorem exec_wake_of_full {s : State} {k : CoreId} {n : Fin 8} {b g : Nat} {take : Bool} {i : Instr}
    (hst : ((s.core k).fc n).status = .blocked (.full b g take i)) (hs : ((s.core k).fc n).stopped = false)
    (hw : s.wakes k n (.full b g take i) = true) : exec (.firingContextWake k n.val) s = s.serve k n (b, g) i :=
  exec_wake_eq hst hs hw

end Sys2Proof.Machine
end

section
/-!
Selection and the start of a firing (03 R61, 04 R114 to R116).
-/
namespace Sys2Proof.Machine

open Sys2Proof.Safety

/-! ## Which entry is selected (04 R114) -/

/-- The choice between the best entry so far and one more, by priority. -/
def betterOf (pri : Nat → Nat) (b : Option Nat) (n : Nat) : Option Nat := match b with
  | none => some n
  | some m => if pri m < pri n then some n else some m

/-- The best of a list, from one entry on: a member of highest priority. -/
theorem foldl_betterOf_spec (pri : Nat → Nat) : ∀ (l : List Nat) (a : Nat),
    ∃ n, l.foldl (betterOf pri) (some a) = some n ∧ n ∈ a :: l ∧ ∀ m ∈ a :: l, pri m ≤ pri n
  | [], a => ⟨a, rfl, List.mem_singleton_self a, fun m hm => by rw [List.mem_singleton.1 hm]⟩
  | b :: l, a => by
    rw [List.foldl_cons, betterOf]
    split
    next hlt =>
      obtain ⟨n, hn, hmem, hmax⟩ := foldl_betterOf_spec pri l b
      exact ⟨n, hn, List.mem_cons_of_mem a hmem, List.forall_mem_cons.2 ⟨hlt.le.trans (hmax b List.mem_cons_self), hmax⟩⟩
    next hle =>
      obtain ⟨n, hn, hmem, hmax⟩ := foldl_betterOf_spec pri l a
      obtain ⟨ha, hl⟩ := List.forall_mem_cons.1 hmax
      refine ⟨n, hn, ?_, List.forall_mem_cons.2 ⟨ha, List.forall_mem_cons.2 ⟨(not_lt.1 hle).trans ha, hl⟩⟩⟩
      obtain h | h := List.mem_cons.1 hmem
      · exact List.mem_cons.2 (.inl h)
      · exact List.mem_cons_of_mem a (List.mem_cons_of_mem b h)

theorem State.selected_eq (s : State) (k : CoreId) : s.selected k =
    if (s.core k).selections % 2 = 0 then (s.core k).eligible.head?
    else (s.core k).eligible.foldl (betterOf fun n => ((s.ctx (s.cxId k)).handler n).pri) none := rfl

theorem State.selected_spec {s : State} {k : CoreId} (h : (s.core k).eligible ≠ []) :
    ((s.core k).selections % 2 = 0 → s.selected k = (s.core k).eligible.head?) ∧
      ((s.core k).selections % 2 = 1 → ∃ n, s.selected k = some n ∧ n ∈ (s.core k).eligible ∧
        ∀ m ∈ (s.core k).eligible, ((s.ctx (s.cxId k)).handler m).pri ≤ ((s.ctx (s.cxId k)).handler n).pri) := by
  refine ⟨fun he => (s.selected_eq k).trans (if_pos he), fun ho => ?_⟩
  obtain ⟨a, l, hl⟩ := List.exists_cons_of_ne_nil h
  have hno : ¬(s.core k).selections % 2 = 0 := by omega
  rw [s.selected_eq, if_neg hno, hl, List.foldl_cons]
  exact foldl_betterOf_spec _ l a

/-! ## The message window (04 R115) -/

theorem OnlyL1.refl (c : Core) : OnlyL1 c c := ⟨rfl, fun _ => OnlyWatch.refl _⟩

theorem OnlyL1.trans {c d e : Core} (h : OnlyL1 c d) (h' : OnlyL1 d e) : OnlyL1 c e where
  core := by
    have heq := congrArg (fun d : Core => { d with fcs := c.fcs, l1 := c.l1 }) h'.core
    exact heq.trans h.core
  fcs n := (h.fcs n).trans (h'.fcs n)

theorem OnlyL1.queues {c d : Core} (h : OnlyL1 c d) :
    d.msgWin = c.msgWin ∧ d.selections = c.selections ∧ d.chans = c.chans := by
  have h1 := congrArg Core.msgWin h.core
  have h2 := congrArg Core.selections h.core
  have h3 := congrArg Core.chans h.core
  exact ⟨h1, h2, h3⟩

theorem OnlyTurns.queues {c d : Core} (h : OnlyTurns c d) : d.selections = c.selections ∧ d.chans = c.chans := by
  have h1 := congrArg Core.selections h
  have h2 := congrArg Core.chans h
  exact ⟨h1, h2⟩

theorem Core.noteWrite_onlyL1 (c : Core) (l : Loc) (w : Option (Fin 8)) : OnlyL1 c (c.noteWrite l w) :=
  ⟨rfl, (c.noteWrite_onlyWatches l w).fcs⟩

/-- t has the partitions and contexts of s, and its cores but for what they note of lines written and for data L1s. -/
structure NoteMotion (s t : State) : Prop where
  parts : t.parts = s.parts
  ctxs : t.ctxs = s.ctxs
  cores : ∀ j, OnlyL1 (s.core j) (t.core j)

theorem NoteMotion.refl (s : State) : NoteMotion s s := ⟨rfl, rfl, fun _ => OnlyL1.refl _⟩

theorem NoteMotion.trans {s t u : State} (h : NoteMotion s t) (h' : NoteMotion t u) : NoteMotion s u :=
  ⟨h'.parts.trans h.parts, h'.ctxs.trans h.ctxs, fun j => (h.cores j).trans (h'.cores j)⟩

theorem State.setBytes_noteMotion (s : State) (l : Loc) (bs : List Byte) : NoteMotion s (s.setBytes l bs) := by
  obtain ⟨m, h, e⟩ := State.setBytes_eq bs s l
  rw [e]
  exact ⟨rfl, rfl, fun _ => OnlyL1.refl _⟩

theorem State.noteWrite_noteMotion (s : State) (l : Loc) (w : Option (CoreId × Fin 8)) : NoteMotion s (s.noteWrite l w) :=
  ⟨rfl, rfl, fun j => by
    obtain h | h := s.core_mapCores (fun k c => c.noteWrite l (w.bind fun w => if w.1 = k then some w.2 else none)) j <;>
      rw [State.noteWrite, h]
    · exact Core.noteWrite_onlyL1 _ _ _
    · exact OnlyL1.refl _⟩

theorem NoteMotion.foldl {α : Type} {f : State → α → State} (hf : ∀ s a, NoteMotion s (f s a)) (l : List α) (s : State) :
    NoteMotion s (l.foldl f s) := by
  induction l generalizing s with
  | nil => exact NoteMotion.refl s
  | cons a r ih => exact (hf s a).trans (ih _)

theorem State.putWindow_noteMotion (s : State) (k : CoreId) (n : Fin 8) (ws : List Word) : NoteMotion s (s.putWindow k n ws) :=
  .foldl (fun t _ => (t.setBytes_noteMotion _ _).trans (State.noteWrite_noteMotion _ _ _)) _ _

/-! ## The start of a firing (03 R61, 04 R116) -/

/-- The context in which a firing starts, of a core whose stale registers free value r picks. -/
def Core.starting (c : Core) (n : Fin 8) (entry g2 : Word) (fid r : Nat) : FiringCtx :=
  let f := c.staleRegs (c.fc n) r
  { f with
    status := .ready, pc := entry, g := (f.g.set 1 (c.window n)).set 2 g2
    loops := [], sb := [], pub := [], issued := 0, fid := fid, watch := [], waits := [], waitCmd := none
    expired := false, woken := false, half := none, turns := [], checked := false, fetched := none
    aflags := ⟨false, false, false, false⟩, hint := none, g2start := g2, stopped := false }

theorem Core.starting_g (c : Core) (n : Fin 8) (entry g2 : Word) (fid r : Nat) :
    (c.starting n entry g2 fid r).g.get 1 = c.window n ∧ (c.starting n entry g2 fid r).g.get 2 = g2 := by
  simp [Core.starting, Vector.get_eq_getElem]

/-- A context that is started is ready or runs, and is otherwise what it was set to; no register of another changes. -/
theorem Core.woken_setFc_spec {c : Core} {n : Fin 8} {f : FiringCtx} (hr : f.status = .ready) (hs : f.stopped = false)
    (hw : f.woken = false) :
    let d := (c.setFc n f).woken n true
    OnlyTurns c d ∧ (∀ m, m ≠ n → SameRegs (c.fc m) (d.fc m)) ∧ OnlyTurn f (d.fc n) ∧
      ((d.fc n).status = .ready ∨ (d.fc n).status = .running ∧ d.run = n) := by
  intro d
  let b := c.setFc n f
  have hf : b.fc n = f := c.fc_setFc_same n f
  obtain ⟨hcore, hothers, hself, hstatus⟩ := Core.ready_spec (c := b) (n := n) (by rw [hf, hr]; exact nofun) (by rw [hf]; exact hs)
  have hfc : d.fc n = { (b.ready n).fc n with woken := false } := Core.fc_setFc_same _ _ _
  refine ⟨?_, fun m hm => ?_, ?_, by rw [hfc]; exact hstatus⟩
  · have e := congrArg (fun d : Core => { d with fcs := c.fcs }) hcore
    exact e
  · have hb : b.fc m = c.fc m := c.fc_setFc_ne f hm.symm
    have hd : d.fc m = (b.ready n).fc m := Core.fc_setFc_ne _ _ hm.symm
    rw [hd, ← hb]
    exact (hothers m hm).sameRegs
  · rw [hf] at hself
    have e := congrArg (fun g : FiringCtx => { g with woken := false }) hself
    rw [hfc]
    refine Eq.trans ?_ (e.trans ?_)
    · rfl
    · rw [← hw]

/-- The firing joins its context's firings under the next number. -/
def State.enrolled (s : State) (k : CoreId) (n : Fin 8) (r : Firing) : State :=
  let c := s.ctx (s.cxId k)
  let r := { r with id := c.nextFid, k := k, fc := n.val, latch := c.epoch, born := c.epoch }
  s.modCtx (s.cxId k) fun c => { c with firings := c.firings ++ [(c.nextFid, r)], nextFid := c.nextFid + 1 }

/-- A firing starts once its window is written and it has joined its context's firings. -/
theorem State.core_startFiring (s : State) (k : CoreId) (n : Fin 8) (entry : Word) (r : Firing) (j : CoreId) :
    let u := s.putWindow k n r.words
    (s.startFiring k n entry r).core j =
      ((u.enrolled k n r).modCore k fun c =>
        (c.setFc n (c.starting n entry (if r.kind = .message then 0 else r.coords) (u.ctx (u.cxId k)).nextFid u.freeCtr)).woken n
          true).core j := by
  unfold State.startFiring
  rfl

theorem look_append_of_fresh {α : Type} : ∀ {l : List (Nat × α)} {n : Nat} (v : α), (∀ e ∈ l, e.1 < n) →
    look (l ++ [(n, v)]) n = some v
  | [], n, v, _ => if_pos rfl
  | e :: l, n, v, h => by
    obtain ⟨he, hl⟩ := List.forall_mem_cons.1 h
    exact (if_neg he.ne).trans (look_append_of_fresh v hl)

theorem State.firing_enrolled {s : State} {k : CoreId} (n : Fin 8) (r : Firing)
    (h : ∀ e ∈ (s.ctx (s.cxId k)).firings, e.1 < (s.ctx (s.cxId k)).nextFid) :
    let c := s.ctx (s.cxId k)
    ((s.enrolled k n r).ctx (s.cxId k)).firing c.nextFid =
      { r with id := c.nextFid, k := k, fc := n.val, latch := c.epoch, born := c.epoch } := by
  intro c
  rw [State.enrolled, State.ctx_modCtx_same, Context.firing]
  dsimp only
  rw [look_append_of_fresh _ h]; rfl

theorem OnlyTurn.mode {f g : FiringCtx} (h : OnlyTurn f g) : g.aflags = f.aflags ∧ g.fid = f.fid := by
  have h1 := congrArg FiringCtx.aflags h
  have h2 := congrArg FiringCtx.fid h
  exact ⟨h1, h2⟩

/-- What a firing's start leaves of its core, of the others and of its firing. -/
theorem State.startFiring_spec {s : State} {k : CoreId} (n : Fin 8) (entry : Word) (r : Firing)
    (h : ∀ e ∈ (s.ctx (s.cxId k)).firings, e.1 < (s.ctx (s.cxId k)).nextFid) :
    let t := s.startFiring k n entry r
    let c := s.ctx (s.cxId k)
    (∃ d f, OnlyL1 (s.core k) d ∧ t.core k = (d.setFc n (d.starting n entry (if r.kind = .message then 0 else r.coords) c.nextFid f)).woken n true) ∧
      (∀ j, j ≠ k → OnlyL1 (s.core j) (t.core j)) ∧
      (t.ctx (s.cxId k)).firing c.nextFid = { r with id := c.nextFid, k := k, fc := n.val, latch := c.epoch, born := c.epoch } := by
  intro t c
  have hput := s.putWindow_noteMotion k n r.words
  let u := s.putWindow k n r.words
  have hx : u.cxId k = s.cxId k := by rw [State.cxId, State.cxId, State.partOf, State.partOf, hput.parts]
  have hc (x : Nat) : u.ctx x = s.ctx x := by rw [State.ctx, State.ctx, hput.ctxs]
  have hfid : (u.ctx (u.cxId k)).nextFid = c.nextFid := by rw [hx, hc]
  have hfiring := State.firing_enrolled (s := u) (k := k) n r (by rw [hx, hc]; exact h)
  refine ⟨⟨u.core k, u.freeCtr, hput.cores k, ?_⟩, fun j hj => ?_, ?_⟩
  · rw [← hfid]
    exact (s.core_startFiring k n entry r k).trans (State.core_modCore_same _ _ _)
  · have e : t.core j = u.core j := (s.core_startFiring k n entry r j).trans (State.core_modCore_ne _ _ (Ne.symm hj))
    rw [e]
    exact hput.cores j
  · rw [hx, hc] at hfiring
    exact hfiring

/-! ## A selection (04 R114, R115) -/

/-- The words consumed leave their queues, and the rest of the core stands. -/
theorem State.consumeWords_core (s : State) (k : CoreId) (n : Nat) :
    ∃ ps cs, (s.consumeWords k n).2.2 = { s.core k with points := ps, chans := cs } := by
  unfold State.consumeWords
  extract_lets c h
  split <;> exact ⟨_, _, rfl⟩

theorem State.consumeWords_of_channel {s : State} {k : CoreId} {n : Nat} {ws : List Word}
    (h : 2 ≤ ((s.ctx (s.cxId k)).handler n).inCh) (hw : look (s.core k).chans ((s.ctx (s.cxId k)).handler n).inCh = some ws) :
    (s.consumeWords k n).1 = ws.take ((s.ctx (s.cxId k)).handler n).rate ∧
      look (s.consumeWords k n).2.2.chans ((s.ctx (s.cxId k)).handler n).inCh = some (ws.drop ((s.ctx (s.cxId k)).handler n).rate) := by
  have hno : ¬((s.ctx (s.cxId k)).handler n).inCh ≤ 1 := by omega
  unfold State.consumeWords
  extract_lets c h'
  rw [if_neg hno]
  dsimp only
  rw [look_put_same]
  have hws : (look c.chans h'.inCh).getD [] = ws := congrArg (fun o => o.getD []) hw
  exact ⟨congrArg _ hws, congrArg (fun l => some (List.drop _ l)) hws⟩

theorem State.firingOf_spec (s : State) (k : CoreId) (n : Nat) (ws : List Word) (item : Option QueueItem) :
    (s.firingOf k n ws item).entry = n ∧ (s.firingOf k n ws item).resv = ((s.ctx (s.cxId k)).handler n).outs ∧
      (s.firingOf k n ws item).words = ws ∧ (s.firingOf k n ws item).ended = false := by
  unfold State.firingOf
  extract_lets x h base heights
  cases item with
  | none => exact ⟨rfl, rfl, rfl, rfl⟩
  | some i =>
    dsimp only
    split
    · split <;> exact ⟨rfl, rfl, rfl, rfl⟩
    · exact ⟨rfl, rfl, rfl, rfl⟩

/-- The firing that a selection of entry n starts. -/
def State.chosen (s : State) (k : CoreId) (n : Nat) : Firing := s.firingOf k n (s.consumeWords k n).1 (s.consumeWords k n).2.1

theorem State.chosen_spec (s : State) (k : CoreId) (n : Nat) :
    (s.chosen k n).entry = n ∧ (s.chosen k n).resv = ((s.ctx (s.cxId k)).handler n).outs ∧
      (s.chosen k n).words = (s.consumeWords k n).1 ∧ (s.chosen k n).ended = false := s.firingOf_spec k n _ _

/-- The core once a selection has taken its words. -/
def State.consumed (s : State) (k : CoreId) (n : Nat) : Core :=
  let c := (s.consumeWords k n).2.2
  { c with selections := c.selections + 1, eligible := c.eligible.filter fun m => m ≠ n }

theorem State.consumed_spec (s : State) (k : CoreId) (n : Nat) :
    (s.consumed k n).fcs = (s.core k).fcs ∧ (s.consumed k n).msgWin = (s.core k).msgWin ∧
      (s.consumed k n).selections = (s.core k).selections + 1 ∧ (s.consumed k n).chans = (s.consumeWords k n).2.2.chans := by
  obtain ⟨ps, cs, h⟩ := s.consumeWords_core k n
  rw [State.consumed, h]
  exact ⟨rfl, rfl, rfl, rfl⟩

/-- The state in which the firing of a selection starts. -/
def State.claimed (s : State) (k : CoreId) (n : Nat) : State :=
  let x := s.cxId k
  let t := ({ s with freeCtr := s.freeCtr + 1 } : State).setCore k (s.consumed k n)
  let t := if (s.consumeWords k n).2.1.isNone && (look t.ctxs x).isSome then
      t.modCtx x fun c => { c with widened := c.widened.filter fun w => w.1 ≠ .message k n } else t
  if (s.chosen k n).kind = .task then t.mapDies fun _ d =>
    { d with tasks := d.tasks.map fun a => if a.x = x && a.seq = (s.chosen k n).seq then { a with started := true } else a } else t

theorem State.claimed_spec (s : State) (k : CoreId) (n : Nat) :
    (s.claimed k n).cxId k = s.cxId k ∧ (s.claimed k n).core k = s.consumed k n ∧ (∀ j, j ≠ k → (s.claimed k n).core j = s.core j) ∧
      ((s.claimed k n).ctx (s.cxId k)).firings = (s.ctx (s.cxId k)).firings ∧
      ((s.claimed k n).ctx (s.cxId k)).nextFid = (s.ctx (s.cxId k)).nextFid := by
  unfold State.claimed
  extract_lets x t u
  have hu : u.parts = s.parts ∧ u.cores = t.cores ∧ (u.ctx x).firings = (s.ctx x).firings ∧ (u.ctx x).nextFid = (s.ctx x).nextFid := by
    by_cases h : ((s.consumeWords k n).2.1.isNone && (look t.ctxs x).isSome) = true
    · have e : u = _ := if_pos h
      rw [e, State.ctx_modCtx_same]
      exact ⟨rfl, rfl, rfl, rfl⟩
    · have e : u = t := if_neg h
      rw [e]
      exact ⟨rfl, rfl, rfl, rfl⟩
  obtain ⟨hparts, hcores, hfirings, hfid⟩ := hu
  have hx : u.cxId k = s.cxId k := by rw [State.cxId, State.cxId, State.partOf, State.partOf, hparts]
  have hk : u.core k = s.consumed k n := by rw [State.core, hcores]; exact State.core_setCore_same _ _ _
  have hj (j : CoreId) (h : j ≠ k) : u.core j = s.core j := by rw [State.core, hcores]; exact State.core_setCore_ne _ _ h.symm
  split <;> exact ⟨hx, hk, hj, hfirings, hfid⟩

theorem nth_mod_mem {α : Type} {l : List α} (h : l ≠ []) (r : Nat) (d : α) : nth l (r % l.length) d ∈ l := by
  have hlt : r % l.length < l.length := Nat.mod_lt _ (List.length_pos_of_ne_nil h)
  rw [nth, List.getD_eq_getElem l d hlt]
  exact List.getElem_mem hlt

/-- The firing of entry n starts in context m of its core. -/
def State.selectInto (s : State) (k : CoreId) (n : Nat) (m : Fin 8) : State :=
  (s.claimed k n).startFiring k m ((s.ctx (s.cxId k)).handler n).entry (s.chosen k n)

/-- A selection starts the firing of the entry selected in a free context. -/
theorem exec_selection_eq {s : State} {k : CoreId} {n : Nat} (hn : s.selected k = some n) (hf : (s.core k).freeFcs ≠ [])
    (hs : s.selecting k = true) : ∃ m ∈ (s.core k).freeFcs, exec (.firingSelection k) s = .next (s.selectInto k n m) := by
  obtain ⟨f0, r, hr⟩ := List.exists_cons_of_ne_nil hf
  refine ⟨nth (s.core k).freeFcs (s.free.1 % (s.core k).freeFcs.length) f0, nth_mod_mem hf _ _, ?_⟩
  change execFiringSelection k s = _
  unfold execFiringSelection
  extract_lets fs
  have hfs : fs = f0 :: r := (if_pos hs).trans hr
  rw [hn, hr, hfs]; rfl

section SelectInto
variable {s : State} {k : CoreId} (hfresh : ∀ e ∈ (s.ctx (s.cxId k)).firings, e.1 < (s.ctx (s.cxId k)).nextFid) (n : Nat) (m : Fin 8)
include hfresh

theorem State.selectInto_spec :
    let t := s.selectInto k n m
    let h := (s.ctx (s.cxId k)).handler n
    let g2 : Word := if (s.chosen k n).kind = .message then 0 else (s.chosen k n).coords
    (∃ d f, OnlyL1 (s.consumed k n) d ∧
        t.core k = (d.setFc m (d.starting m h.entry g2 (s.ctx (s.cxId k)).nextFid f)).woken m true) ∧
      (∀ j, j ≠ k → OnlyL1 (s.core j) (t.core j)) ∧
      ∃ l b, (t.ctx (s.cxId k)).firing (s.ctx (s.cxId k)).nextFid =
        { s.chosen k n with id := (s.ctx (s.cxId k)).nextFid, k := k, fc := m.val, latch := l, born := b } := by
  intro t h g2
  obtain ⟨hx, hk, hj, hfirings, hfid⟩ := s.claimed_spec k n
  obtain ⟨hcore, hothers, hfiring⟩ := State.startFiring_spec (s := s.claimed k n) (k := k) m h.entry (s.chosen k n)
    (by rw [hx, hfirings, hfid]; exact hfresh)
  rw [hx, hfid] at hcore hfiring
  rw [hk] at hcore
  exact ⟨hcore, fun j hjk => hj j hjk ▸ hothers j hjk, _, _, hfiring⟩

/-- The firing of a selection has the entry's words and reservations, and stands in its context. -/
theorem State.firing_selectInto :
    let r := ((s.selectInto k n m).ctx (s.cxId k)).firing (s.ctx (s.cxId k)).nextFid
    (r.entry = n ∧ r.resv = ((s.ctx (s.cxId k)).handler n).outs ∧ r.words = (s.consumeWords k n).1 ∧ r.k = k ∧ r.fc = m.val ∧
      r.ended = false) ∧ r.kind = (s.chosen k n).kind ∧ r.coords = (s.chosen k n).coords := by
  obtain ⟨-, -, l, b, hfiring⟩ := State.selectInto_spec hfresh n m
  obtain ⟨hentry, hresv, hwords, hended⟩ := s.chosen_spec k n
  intro r
  have hr : r = _ := hfiring
  rw [hr]
  exact ⟨⟨hentry, hresv, hwords, rfl, rfl, hended⟩, rfl, rfl⟩

/-- The context of a selection's firing is as 03 R61 has it, and is ready or runs. -/
theorem State.context_selectInto :
    let c := (s.selectInto k n m).core k
    let f := c.fc m
    (f.status = .ready ∨ f.status = .running ∧ c.run = m) ∧ f.pc = ((s.ctx (s.cxId k)).handler n).entry ∧
      f.g.get 1 = (s.core k).window m ∧ f.loops = [] ∧ f.sb = [] ∧ f.aflags = ⟨false, false, false, false⟩ ∧
      f.fid = (s.ctx (s.cxId k)).nextFid ∧
      f.g.get 2 = if (s.chosen k n).kind = .message then 0 else (s.chosen k n).coords := by
  obtain ⟨⟨d, v, hd, hcore⟩, -, -⟩ := State.selectInto_spec hfresh n m
  intro c f
  generalize hg : d.starting m _ _ _ v = g at hcore
  obtain ⟨hg1, hg2⟩ := hg ▸ d.starting_g m _ _ _ v
  obtain ⟨-, -, hself, hstatus⟩ := Core.woken_setFc_spec (c := d) (n := m) (f := g) (by rw [← hg]; rfl) (by rw [← hg]; rfl)
    (by rw [← hg]; rfl)
  rw [← hcore] at hself hstatus
  obtain ⟨hregs, -, -, -, -, hpc, hloops, hsb, -⟩ := hself.sameRegs
  obtain ⟨haflags, hfid⟩ := hself.mode
  have hwindow : d.window m = (s.core k).window m := by
    rw [Core.window, Core.window, hd.queues.1, (s.consumed_spec k n).2.1]
  refine ⟨hstatus, hpc.trans ?_, ?_, hloops.trans ?_, hsb.trans ?_, haflags.trans ?_, hfid.trans ?_, ?_⟩
  · rw [← hg]; rfl
  · rw [hregs, hg1, hwindow]
  · rw [← hg]; rfl
  · rw [← hg]; rfl
  · rw [← hg]; rfl
  · rw [← hg]; rfl
  · rw [hregs, hg2]

/-- A selection is counted, takes its words from their queue, and changes no register of another context. -/
theorem State.core_selectInto :
    let t := s.selectInto k n m
    (t.core k).selections = (s.core k).selections + 1 ∧ (t.core k).chans = (s.consumeWords k n).2.2.chans ∧
      ∀ j q, (j ≠ k ∨ q ≠ m) → SameRegs ((s.core j).fc q) ((t.core j).fc q) := by
  obtain ⟨⟨d, v, hd, hcore⟩, hothers, -⟩ := State.selectInto_spec hfresh n m
  intro t
  obtain ⟨hturns, hrest, -, -⟩ := Core.woken_setFc_spec (c := d) (n := m) (f := d.starting m _ _ _ v) rfl rfl rfl
  rw [← hcore] at hturns hrest
  obtain ⟨hfcs, -, hsel, hchans⟩ := s.consumed_spec k n
  obtain ⟨-, hdsel, hdchans⟩ := hd.queues
  obtain ⟨htsel, htchans⟩ := hturns.queues
  refine ⟨(htsel.trans hdsel).trans hsel, (htchans.trans hdchans).trans hchans, fun j q hne => ?_⟩
  by_cases hj : j = k
  · subst hj
    have hfc : (s.consumed j n).fc q = (s.core j).fc q := congrArg (fun v : Vector FiringCtx 8 => v.get q) hfcs
    exact (hfc ▸ (hd.fcs q).sameRegs).trans (hrest q (hne.resolve_left (not_not.2 rfl)))
  · exact ((hothers j hj).fcs q).sameRegs

end SelectInto

/-- Settles O12: wakes by what their wait is for, a load on a granule by its service, selections by the start of their firing. -/
theorem wakingAndSelecting : Obligations.WakingAndSelecting := by
  refine ⟨fun s k n w hst hs hw hfull hpail => exec_wake_spec hst hs hw hfull hpail,
    fun s k n i g hst hs hf => exec_wake_of_pailFailed hst hs hf, fun s k n d a x o b take => ?_,
    fun s k n hn hf hs hfresh => ?_, fun s k h => State.selected_spec h⟩
  · intro c f ea i hst hs hb ha hlt hopen hfull hl halone
    rw [exec_wake_of_full hst hs (State.wakes_full hfull halone)]
    exact State.serve_waitingLoad rfl hb ha hlt hopen hfull hs hl take
  · intro x h
    obtain ⟨m, hm, hexec⟩ := exec_selection_eq hn hf hs
    obtain ⟨hstatus, hpc, hg1, hloops, hsb, haflags, hfid, hg2⟩ := State.context_selectInto hfresh n m
    obtain ⟨⟨hentry, hresv, hwords, hrk, hrfc, hended⟩, hkind, hcoords⟩ := State.firing_selectInto hfresh n m
    obtain ⟨hsel, hchans, hothers⟩ := State.core_selectInto hfresh n m
    rw [← hkind, ← hcoords] at hg2
    refine ⟨_, m, hexec, hm, hstatus, hpc, hg1, hloops, hsb, haflags, hfid,
      ⟨hentry, hresv, hwords, hrk, hrfc, hended, hg2⟩, hsel, fun hch ws hws => ?_, hothers⟩
    rw [hchans]
    exact State.consumeWords_of_channel hch hws

end Sys2Proof.Machine
end

section
/-!
What selection sees of a core after every step (04 R114): the refresh that ends a step lists the eligible entries, and nothing that
eligibility reads depends on the list.
-/
namespace Sys2Proof.Machine

open Sys2Proof.Safety

/-! ## The list that a refresh leaves -/

theorem nodup_eraseDups {α : Type} [DecidableEq α] (l : List α) : l.eraseDups.Nodup := by
  induction hn : l.length using Nat.strong_induction_on generalizing l with
  | _ n ih =>
    cases l with
    | nil => exact List.nodup_nil
    | cons a r =>
      have hlt : (r.filter fun b => !b == a).length < n := by
        have := List.length_filter_le (fun b => !b == a) r
        simp only [List.length_cons] at hn
        omega
      rw [List.eraseDups_cons, List.nodup_cons]
      refine ⟨fun hm => ?_, ih _ hlt _ rfl⟩
      simp [List.mem_eraseDups] at hm

/-- A refresh lists each entry that is eligible, once. -/
theorem State.eligible_refreshCore (s : State) (k : CoreId) (c : Core) :
    (s.refreshCore k c).eligible.Nodup ∧
      ∀ n, n ∈ (s.refreshCore k c).eligible ↔ n < (s.ctx (s.cxId k)).handlers.length ∧ s.eligibleNow k n = true := by
  unfold State.refreshCore
  extract_lets now kept
  have hnow (n : Nat) : n ∈ now ↔ n < (s.ctx (s.cxId k)).handlers.length ∧ s.eligibleNow k n = true := by
    rw [List.mem_filter, upto, List.mem_range]
  have hkept {n : Nat} (h : n ∈ kept) : n ∈ now :=
    List.contains_iff_mem.1 (List.mem_filter.1 (List.mem_eraseDups.1 h)).2
  have hnew (n : Nat) : n ∈ now.filter (fun n => !kept.contains n) ↔ n ∈ now ∧ n ∉ kept := by
    simp only [List.mem_filter, Bool.not_eq_true', List.contains_eq_mem, decide_eq_false_iff_not]
  refine ⟨(nodup_eraseDups _).append ((List.nodup_range.filter _).filter _) fun n h h' => ((hnew n).1 h').2 h, fun n => ?_⟩
  rw [List.mem_append, hnew, ← hnow]
  exact ⟨fun h => h.elim hkept And.left, fun h => (Classical.em (n ∈ kept)).imp_right fun hk => ⟨h, hk⟩⟩

/-! ## Eligibility does not depend on the list -/

/-- d differs from c in nothing but its list of eligible entries. -/
def OnlyEligible (c d : Core) : Prop := { d with eligible := c.eligible } = c

/-- What does not read the list is the same of both. -/
theorem OnlyEligible.eq {c d : Core} (h : OnlyEligible c d) {α : Type} (f : Core → α)
    (hf : ∀ (e : Core) (l : List Nat), f { e with eligible := l } = f e) : f d = f c :=
  (hf d c.eligible).symm.trans (congrArg f h)

theorem State.refreshCore_onlyEligible (s : State) (k : CoreId) (c : Core) : OnlyEligible c (s.refreshCore k c) := rfl

section Lists
variable {s : State} {f : CoreId → Core → Core} (hf : ∀ k c, OnlyEligible c (f k c))
include hf

theorem State.core_mapCores_onlyEligible (k : CoreId) : OnlyEligible (s.core k) ((s.mapCores f).core k) := by
  rcases s.core_mapCores f k with h | h <;> rw [h]
  · exact hf k _
  · exact rfl

theorem State.fc_mapCores_of_onlyEligible (k : CoreId) (n : Fin 8) : ((s.mapCores f).core k).fc n = (s.core k).fc n :=
  (State.core_mapCores_onlyEligible hf k).eq (fun c : Core => c.fc n) fun _ _ => rfl

theorem State.firingsOn_mapCores (k : CoreId) : (s.mapCores f).firingsOn k = s.firingsOn k := by
  simp only [State.firingsOn, State.fc_mapCores_of_onlyEligible hf]
  rfl

theorem State.outRoom_mapCores (k : CoreId) (ch : Nat) : (s.mapCores f).outRoom k ch = s.outRoom k ch := by
  have hout : ((s.mapCores f).core k).outbound = (s.core k).outbound :=
    (State.core_mapCores_onlyEligible hf k).eq Core.outbound fun _ _ => rfl
  simp only [State.outRoom, State.firingsOn_mapCores hf, hout]

theorem State.taskRoom_mapCores (die : Nat) : (s.mapCores f).taskRoom die = s.taskRoom die := by
  have hcores : (s.mapCores f).cores = s.cores.map fun e => (e.1, f e.1 e.2) := rfl
  simp only [State.taskRoom, State.firingsOn_mapCores hf, hcores, List.map_map]
  rfl

theorem State.countOf_mapCores (k : CoreId) (cx n : Nat) : (s.mapCores f).countOf k cx n = s.countOf k cx n := by
  have hpoints : ((s.mapCores f).core k).points = (s.core k).points :=
    (State.core_mapCores_onlyEligible hf k).eq Core.points fun _ _ => rfl
  have hchans : ((s.mapCores f).core k).chans = (s.core k).chans :=
    (State.core_mapCores_onlyEligible hf k).eq Core.chans fun _ _ => rfl
  simp only [State.countOf, hpoints, hchans]
  rfl

theorem State.eligibleNow_mapCores (k : CoreId) (n : Nat) : (s.mapCores f).eligibleNow k n = s.eligibleNow k n := by
  have hcx : ((s.mapCores f).core k).cx = (s.core k).cx := (State.core_mapCores_onlyEligible hf k).eq Core.cx fun _ _ => rfl
  have hmasks : ((s.mapCores f).core k).masks = (s.core k).masks :=
    (State.core_mapCores_onlyEligible hf k).eq Core.masks fun _ _ => rfl
  have hfree : ((s.mapCores f).core k).freeFcs = (s.core k).freeFcs :=
    (State.core_mapCores_onlyEligible hf k).eq Core.freeFcs fun _ _ => rfl
  simp only [State.eligibleNow, State.masked, State.countOf_mapCores hf, State.taskRoom_mapCores hf, State.outRoom_mapCores hf,
    hcx, hmasks, hfree]
  rfl

end Lists

/-! ## The obligation -/

/-- The refresh that ends a step establishes what selection sees, from every state. -/
theorem State.selectionSees_reselect (s : State) : SelectionSees s.reselect := by
  intro e he hcore
  obtain ⟨⟨k, c⟩, -, rfl⟩ := List.mem_map.1 he
  obtain ⟨hnodup, hmem⟩ := s.tryMgmt.eligible_refreshCore k c
  refine ⟨hnodup, fun n => (hmem n).trans ?_⟩
  rw [State.reselect, State.eligibleNow_mapCores s.tryMgmt.refreshCore_onlyEligible]
  exact Iff.rfl

theorem Res.map_eq_next {r : Res} {f : State → State} {t : State} (h : Res.map r f = .next t) :
    ∃ u, r = .next u ∧ f u = t := by
  cases r with
  | next u => exact ⟨u, rfl, Host.Outcome.next.inj h⟩
  | fault x => cases h
  | refused x => cases h

/-- Settles O5: every step ends with the refresh of what selection sees. -/
theorem everyStepKeepsWhatSelectionSees : Obligations.EveryStepKeepsWhatSelectionSees := by
  intro s t _ h
  obtain ⟨u, -, rfl⟩ := Res.map_eq_next h
  exact State.selectionSees_reselect _

end Sys2Proof.Machine
end

section
/-!
Words that end after a change outside their firing context: what they leave to their own registers, to other units and to the running
firing (03 R73, 11 R301).
-/
namespace Sys2Proof.Safety

open Sys2Proof.Machine

/-! ## What a word that changes its context alone leaves -/

theorem OnlyContext.core_eq {s t : State} (h : OnlyContext s t) {α : Type} (f : Core → α)
    (hf : ∀ (c : Core) (v : Vector FiringCtx 8), f { c with fcs := v } = f c) : f t.cur = f s.cur :=
  (hf t.cur s.cur.fcs).symm.trans (congrArg f h.core)

theorem OnlyCore.state_eq {s t : State} (h : OnlyCore s t) {α : Type} (f : State → α)
    (hf : ∀ (u : State) (cs : List (CoreId × Core)), f { u with cores := cs } = f u) : f t = f s :=
  (hf t s.cores).symm.trans (congrArg f h.package)

theorem OnlyContext.fc_core {s t : State} (h : OnlyContext s t) {k : CoreId} {n : Fin 8} (hkn : k ≠ s.now ∨ n ≠ s.cur.run) :
    (t.core k).fc n = (s.core k).fc n := by
  by_cases hk : k = s.now
  · subst hk
    have hnow : t.cur = t.core s.now := congrArg t.core h.toOnlyCore.now
    exact (congrArg (fun c : Core => c.fc n) hnow).symm.trans (h.contexts n (hkn.resolve_left (not_not.2 rfl)))
  · rw [h.others k hk]

theorem OnlyContext.othersStand {s t : State} (h : OnlyContext s t) : OthersStand s t := by
  refine ⟨fun k n hkn => ?_, fun b => ⟨h.core_eq (fun c => c.buf b) fun c _ => ?_, h.core_eq (fun c => c.fullOf b) fun c _ => ?_⟩,
    h.core_eq Core.handles fun _ _ => rfl, h.core_eq Core.chans fun _ _ => rfl, h.core_eq Core.points fun _ _ => rfl,
    h.core_eq Core.masks fun _ _ => rfl, h.core_eq Core.cmds fun _ _ => rfl, h.toOnlyCore.state_eq State.parts fun _ _ => rfl,
    h.toOnlyCore.state_eq State.clusters fun _ _ => rfl, h.toOnlyCore.state_eq State.dies fun _ _ => rfl⟩
  · rw [h.fc_core hkn]; exact ⟨rfl, rfl, rfl, rfl, rfl, rfl, rfl, rfl, rfl, rfl, rfl⟩
  · cases b <;> rfl
  · cases b <;> rfl

/-- The firing of the running context, after a word that changes nothing but the context's registers. -/
theorem OnlyRegs.firing {s t : State} (h : OnlyRegs s t) : t.firing = s.firing := by
  have hctxs : t.ctxs = s.ctxs := h.toOnlyCore.state_eq State.ctxs fun _ _ => rfl
  have hparts : t.parts = s.parts := h.toOnlyCore.state_eq State.parts fun _ _ => rfl
  have hx : t.x = s.x := by rw [State.x, State.x, State.cxId, State.cxId, State.partOf, State.partOf, hparts, h.toOnlyCore.now]
  have hfid : t.fid = s.fid := by
    have e := congrArg FiringCtx.fid h.context
    exact e
  rw [State.firing, State.firing, hx, hfid, State.ctx, State.ctx, hctxs]

/-! ## Relations to a state with the running context of s -/

section SameFc
variable {s u t : State} (hfc : u.fc = s.fc)
include hfc

theorem KeepsG.of_fc {d : Fin 32} (h : KeepsG u t d) : KeepsG s t d :=
  ⟨h.1, fun r hr => (h.2 r hr).trans (by rw [State.g, State.g, hfc])⟩

theorem KeepsQFJ.of_fc (h : KeepsQFJ u t) : KeepsQFJ s t := by rwa [KeepsQFJ, hfc] at h

theorem FallsThrough.of_fc (h : FallsThrough u t) : FallsThrough s t := by rwa [FallsThrough, State.pc, hfc] at h

end SameFc

end Sys2Proof.Safety

namespace Sys2Proof.Machine

open Sys2Proof.Safety

/-! ## The running firing after a change -/

/-- A change of a firing changes the contexts alone. -/
theorem State.modFiring_eq (s : State) (x fid : Nat) (u : Firing → Firing) :
    ∃ cs, s.modFiring x fid u = { s with ctxs := cs } := by
  unfold State.modFiring
  split
  · exact ⟨_, rfl⟩
  · exact ⟨s.ctxs, rfl⟩

theorem State.firing_modFiring {s : State} (hx : (look s.ctxs s.x).isSome = true)
    (hf : (look (s.ctx s.x).firings s.fid).isSome = true) (u : Firing → Firing) :
    (s.modFiring s.x s.fid u).firing = u s.firing := by
  obtain ⟨f, hf⟩ := Option.isSome_iff_exists.1 hf
  have hold : s.firing = f := by rw [State.firing, Context.firing, hf]; rfl
  rw [hold, State.modFiring, if_pos hx]
  exact (congrArg (Context.firing · s.fid) (State.ctx_modCtx_same _ _ _)).trans (Context.firing_modFiring u hf)

theorem Firing.reserved_spend (f : Firing) (ch : Nat) : (f.spend ch).reserved ch = f.reserved ch - 1 :=
  congrArg (fun o : Option Nat => o.getD 0) (look_put_same _ _ _)

/-! ## Words that end on a state with the running context of s -/

section SameFc
variable {s u : State} (hfc : u.fc = s.fc)
include hfc

theorem State.advance_spec_of_fc : KeepsRegs s u.advance ∧ OnlyRegs u u.advance ∧ FallsThrough s u.advance :=
  ⟨State.keepsRegs_advance_of (by rw [hfc]) (by rw [hfc]) (by rw [KeepsQFJ, hfc]; exact ⟨rfl, rfl, rfl⟩), u.advance_spec.2.1,
    FallsThrough.of_fc hfc u.advance_spec.2.2⟩

theorem State.result_spec_of_fc (d : Fin 32) (v : Word) :
    (d ≠ 0 → (u.result d v).g d = v) ∧ KeepsG s (u.result d v) d ∧ (∀ r, (u.result d v).p r = s.p r) ∧
      KeepsQFJ s (u.result d v) ∧ OnlyRegs u (u.result d v) ∧ FallsThrough s (u.result d v) := by
  obtain ⟨hv, hg, hp, hqfj, honly, hthrough⟩ := u.result_spec d v
  exact ⟨hv, KeepsG.of_fc hfc hg, fun r => (hp r).trans (by rw [State.p, State.p, hfc]), KeepsQFJ.of_fc hfc hqfj, honly,
    FallsThrough.of_fc hfc hthrough⟩

/-- A word that ends with results in g[d] and p[q]. -/
theorem State.setG_setP_advance_spec (d : Fin 32) (v : Word) {q : Fin 8} (hq : q ≠ 0) (b : Bool) :
    let t := ((u.setG d v).setP q b).advance
    (d ≠ 0 → t.g d = v) ∧ KeepsG s t d ∧ t.p q = b ∧ (∀ r, r ≠ q → t.p r = s.p r) ∧ KeepsQFJ s t ∧ OnlyRegs u t ∧
      FallsThrough s t := by
  intro t
  have hset (f : FiringCtx) : (u.setG d v).setFc f = u.setFc f := by
    by_cases hd : d = 0
    · rw [hd, State.setG_zero]
    · rw [State.setG_of_ne _ _ hd, State.setFc_setFc]
  obtain ⟨f, hf, ht⟩ : ∃ f : FiringCtx,
      f = { u.fc with g := if d = 0 then u.fc.g else u.fc.g.set d v, p := u.fc.p.set q b } ∧
      t = u.setFc (f.go (loopTest u.pc none u.fc.loops (u.pc + 4))) := by
    refine ⟨_, rfl, ((u.setG d v).resultP_eq q b).trans ?_⟩
    rw [hset, if_neg hq, State.pc_setG, State.fc_setG]
  obtain ⟨hb, ⟨-, hp⟩, hg, -⟩ := (u.setG d v).resultP_spec q b
  refine ⟨fun hd => (hg d).trans (u.g_setG_same v hd), ⟨State.g_zero _, fun r hr => (hg r).trans ?_⟩, hb hq,
    fun r hr => (hp r hr).trans ?_, KeepsQFJ.of_fc hfc ?_, ?_, FallsThrough.of_fc hfc ?_⟩
  · rw [u.g_setG_ne v hr.symm, State.g, State.g, hfc]
  · rw [State.p_setG, State.p, State.p, hfc]
  · rw [KeepsQFJ, ht, State.fc_setFc, hf]; exact ⟨rfl, rfl, rfl⟩
  · rw [ht, hf]; exact u.setFc_onlyRegs _ rfl
  · rw [ht]; exact u.fallsThrough_go f

end SameFc

end Sys2Proof.Machine
end

section
/-!
Words sent and received (04 R127, R128, R130).
-/
namespace Sys2Proof.Machine

open Sys2Proof.Safety

/-! ## `send` (04 R128) -/

/-- A word appended makes a message a word longer, or begins one. -/
theorem length_appendWord (ms : List Message) (k : CoreId) (dst ch : Nat) (w : Word) :
    (ms.map fun m => m.words.length).sum + 1 ≤ ((appendWord ms k dst ch w).map fun m => m.words.length).sum := by
  unfold appendWord
  extract_lets goesTo
  split
  next h =>
    clear_value goesTo
    rw [List.map_map]
    induction ms with
    | nil => cases h
    | cons m r ih =>
      have hmap : (r.map fun m => m.words.length).sum ≤
          (r.map ((fun m : Message => m.words.length) ∘ fun m => if goesTo m then { m with words := m.words ++ [w] } else m)).sum := by
        refine List.sum_le_sum fun m _ => ?_
        simp only [Function.comp_apply]
        split <;> simp
      by_cases hm : goesTo m = true
      · simp only [List.map_cons, List.sum_cons, Function.comp_apply, hm, if_true, List.length_append, List.length_singleton]
        omega
      · have hr : r.any goesTo = true := by simpa [hm] using h
        have := ih hr
        simp only [List.map_cons, List.sum_cons, Function.comp_apply, hm, Bool.false_eq_true, if_false]
        omega
  next => simp

/-- What `send` does to its firing. -/
def Firing.sends (f : Firing) (k : CoreId) (dst ch : Nat) (w : Word) : Firing :=
  { f.spend ch with msgs := appendWord f.msgs k dst ch w }

theorem exec_send_eq (c a b : Fin 32) (s : State) : exec (.send c a b) s = execSend c a b s := rfl

section Send
variable {s : State} {c a b : Fin 32}

theorem exec_send_of_channel (hc : c.val < 2 ∨ 29 < c.val) : exec (.send c a b) s = .next (s.raise 0x0D 0 0) := by
  rw [exec_send_eq, execSend]
  exact if_pos (by simpa using hc)

variable (hlo : 2 ≤ c.val) (hhi : c.val ≤ 29)
include hlo hhi

theorem exec_send_of_sound_channel : exec (.send c a b) s =
    if !s.destValid (s.g a).toNat then .next (s.raise 0x0D 0 0)
    else if s.firing.reserved c.val = 0 then .next (s.raise 0x0C 0 0)
    else s.publishThen fun u => .next (u.modFiring u.x u.fid fun f => f.sends u.now (s.g a).toNat c.val (u.g b)).advance := by
  have hc : ¬(decide (c.val < 2) || decide (29 < c.val)) = true := by simp; omega
  rw [exec_send_eq, execSend]
  exact if_neg hc

end Send

theorem sendAppendsAWord : SendAppendsAWord := fun s c a b => by
  refine ⟨exec_send_of_channel, fun hlo hhi hd => ?_, fun hlo hhi hd hr => ?_, fun hlo hhi hd hr hp => ?_,
    fun hlo hhi hd hr hp hx hf => ?_⟩
  all_goals rw [exec_send_of_sound_channel hlo hhi, hd]
  · rfl
  · exact if_pos hr
  · exact (if_neg hr.ne').trans (State.publishThen_of_not_published hp _)
  · obtain ⟨hsb, hpub, hq⟩ := hp
    let send (f : Firing) : Firing := f.sends s.now (s.g a).toNat c.val (s.g b)
    obtain ⟨cs, hu⟩ := s.modFiring_eq s.x s.fid send
    have hfiring := State.firing_modFiring hx hf send
    have hfc : (s.modFiring s.x s.fid send).fc = s.fc := by rw [hu]; rfl
    have hothers : OthersStand s (s.modFiring s.x s.fid send).advance := by
      rw [hu]
      exact (({ s with ctxs := cs } : State).advance_spec.2.1).othersStand
    obtain ⟨hregs, honly, hthrough⟩ := State.advance_spec_of_fc hfc
    have hsent : (s.modFiring s.x s.fid send).advance.firing = send s.firing := honly.firing.trans hfiring
    refine ⟨_, (if_neg hr.ne').trans (s.publishThen_of_clean _ hsb hpub hq), ?_, ?_, ?_, hregs, fun l => ?_, hothers, hthrough⟩
    · exact (congrArg (Firing.reserved · c.val) hsent).trans (s.firing.reserved_spend c.val)
    · exact congrArg Firing.msgs hsent
    · exact (length_appendWord _ _ _ _ _).trans_eq (congrArg (fun f : Firing => (f.msgs.map fun m => m.words.length).sum) hsent.symm)
    · exact (honly.bytes.1 l).trans (by rw [hu]; rfl)

/-! ## `recv` (04 R130) -/

theorem exec_recv_eq (d c : Fin 32) (s : State) : exec (.recv d c) s = execRecv d c s := rfl

section Recv
variable {s : State} {d c : Fin 32} {ch : Nat} (hch : ((s.ctx s.x).handler s.firing.entry).inCh = ch)
include hch

theorem exec_recv_of_channel (h : c.val ≠ ch) : exec (.recv d c) s = .next (s.raise 0x0D 0 0) := by
  subst hch
  rw [exec_recv_eq, execRecv]
  exact if_pos h

theorem exec_recv_of_points (h : c.val = ch) (hlow : ch < 2) : exec (.recv d c) s =
    match takeWord s.cur.points s.firing.cx s.firing.entry with
    | some (w, r) => .next (((s.modCore s.now fun c => { c with points := r }).setG d w).setP 7 true).advance
    | none => .next ((s.setG d 0).setP 7 false).advance := by
  subst hch
  rw [exec_recv_eq, execRecv]
  exact (if_neg (not_not.2 h)).trans (if_pos (by omega))

theorem exec_recv_of_words (h : c.val = ch) (hhigh : 2 ≤ ch) : exec (.recv d c) s =
    match (look s.cur.chans ch).getD [] with
    | w :: r =>
      .next ((((s.modCore s.now fun c => { c with chans := put c.chans ch r }).modFiring s.x s.fid fun g =>
        { g with taken := g.taken ++ [w] }).setG d w).setP 7 true).advance
    | [] => .next ((s.setG d 0).setP 7 false).advance := by
  subst hch
  rw [exec_recv_eq, execRecv]
  exact (if_neg (not_not.2 h)).trans (if_neg (by omega))

end Recv

theorem recvTakesAWord : RecvTakesAWord := fun s d c => by
  intro ch
  have hfc (f : Core → Core) (hf : ∀ c, (f c).fcs = c.fcs ∧ (f c).run = c.run) : (s.modCore s.now f).fc = s.fc := by
    rw [State.fc, State.cur_modCore, Core.fc, (hf _).1, (hf _).2]; rfl
  refine ⟨exec_recv_of_channel rfl, fun h hhigh w r hw => ?_, fun h hhigh hw => ?_, fun h hlow w r hw => ?_, fun h hlow hw => ?_⟩
  · rw [exec_recv_of_words rfl h hhigh, hw]
    let u := s.modCore s.now fun c => { c with chans := put c.chans ch r }
    obtain ⟨cs, hv⟩ := u.modFiring_eq s.x s.fid fun g => { g with taken := g.taken ++ [w] }
    have hcur : u.cur.chans = put s.cur.chans ch r := congrArg Core.chans (State.cur_modCore s _)
    have hfcu : ({ u with ctxs := cs } : State).fc = s.fc :=
      hfc (fun c => { c with chans := put c.chans ch r }) fun _ => ⟨rfl, rfl⟩
    obtain ⟨hg, hkeep, hp, hps, hqfj, honly, hthrough⟩ := State.setG_setP_advance_spec hfcu d w (q := 7) (by decide) true
    have hchans := (honly.core_eq Core.chans fun _ _ => rfl).trans hcur
    refine ⟨_, congrArg (fun v : State => Host.Outcome.next ((v.setG d w).setP 7 true).advance) hv, hg, hkeep, hp, hps, hqfj, ?_,
      fun j hj => ?_, fun l => honly.bytes.1 l, hthrough⟩
    · rw [hchans, look_put_same]
    · rw [hchans, look_put_ne _ _ (Ne.symm hj)]
  · rw [exec_recv_of_words rfl h hhigh, hw]
    obtain ⟨hg, hkeep, hp, hps, hqfj, honly, hthrough⟩ := State.setG_setP_advance_spec (s := s) rfl d 0 (q := 7) (by decide) false
    exact ⟨_, rfl, hg, hkeep, hp, hps, hqfj, honly, hthrough⟩
  · rw [exec_recv_of_points rfl h hlow, hw]
    obtain ⟨hg, hkeep, hp, -, -, honly, hthrough⟩ := State.setG_setP_advance_spec
      (hfc (fun c => { c with points := r }) fun _ => ⟨rfl, rfl⟩) d w (q := 7) (by decide) true
    exact ⟨_, rfl, hg, hkeep, hp,
      (honly.core_eq Core.points fun _ _ => rfl).trans (congrArg Core.points (State.cur_modCore s _)), fun l => honly.bytes.1 l, hthrough⟩
  · rw [exec_recv_of_points rfl h hlow, hw]
    obtain ⟨hg, hkeep, hp, -, -, honly, hthrough⟩ := State.setG_setP_advance_spec (s := s) rfl d 0 (q := 7) (by decide) false
    exact ⟨_, rfl, hg, hkeep, hp, honly, hthrough⟩

/-- Settles O56, by its two parts. -/
theorem messageWords : Obligations.MessageWords := ⟨sendAppendsAWord, recvTakesAWord⟩

end Sys2Proof.Machine
end

section
/-!
Words that read points, queue tasks and set masks (04 R119, R131 to R133).
-/
namespace Sys2Proof.Machine

open Sys2Proof.Safety

/-! ## `point.seq` and `point.ht` (04 R131) -/

theorem exec_pointHt_eq (d a : Fin 32) (s : State) : exec (.pointHt d a) s = execPointHt d a s := rfl

section PointHt
variable {s : State} {d a : Fin 32}

/-- A firing without a launch, or coordinates outside, have no height. -/
theorem exec_pointHt_of_none
    (h : s.firing.kind = .message ∨ (s.ctx s.x).launch s.firing.tag = none ∨
      ∃ l, (s.ctx s.x).launch s.firing.tag = some l ∧ l.block.indexOf (fun k => (coord (s.g a) k : Int)) = none) :
    exec (.pointHt d a) s = .next (s.result d (BitVec.allOnes 64)) := by
  rw [exec_pointHt_eq, execPointHt]
  cases hl : (s.ctx s.x).launch s.firing.tag with
  | none => rfl
  | some l =>
    have hidx : (if s.firing.kind = .message then none else l.block.indexOf fun k => (coord (s.g a) k : Int)) = none := by
      split
      · rfl
      next hk =>
        rcases h with h | h | ⟨m, hm, h⟩
        · exact absurd h hk
        · rw [hl] at h; cases h
        · rw [hl] at hm; cases hm; exact h
    simp only [hidx]
    rfl

/-- A height that `point.ht` may write: from the one at the firing's start to the current one, as the free value r says. -/
def heightBetween (old now r : Nat) : Nat := min old now + r % (now - min old now + 1)

theorem heightBetween_bounds {old now : Nat} (h : old ≤ now) (r : Nat) :
    old ≤ heightBetween old now r ∧ heightBetween old now r ≤ now := by
  have : r % (now - old + 1) < now - old + 1 := Nat.mod_lt r (Nat.succ_pos _)
  rw [heightBetween, Nat.min_eq_left h]
  omega

theorem exec_pointHt_of_some {l : Launch} {i : Nat} (hk : s.firing.kind ≠ .message)
    (hl : (s.ctx s.x).launch s.firing.tag = some l) (hi : l.block.indexOf (fun k => (coord (s.g a) k : Int)) = some i) :
    exec (.pointHt d a) s = .next (({ s with freeCtr := s.freeCtr + 1 } : State).result d
      (BitVec.ofNat 64 (heightBetween (s.firing.startHeights.getD i 0) (l.heights.getD i 0) (Config.freeValue s.freeCtr)))) := by
  rw [exec_pointHt_eq, execPointHt]
  simp only [hl, if_neg hk, hi]
  rfl

end PointHt

theorem pointReads : PointReads := by
  refine ⟨fun d => writesG_of_result (fun _ => rfl) fun _ => rfl, fun s d a => ⟨fun h => ?_, fun l hk hl => ⟨fun hi => ?_,
    fun i hi hbound hstart => ?_⟩⟩⟩
  · obtain ⟨hv, hg, -, -, honly, hthrough⟩ := s.result_spec d (BitVec.allOnes 64)
    exact ⟨_, exec_pointHt_of_none (h.imp_right .inl), hv, hg, honly, hthrough⟩
  · obtain ⟨hv, hg, -, -, honly, hthrough⟩ := s.result_spec d (BitVec.allOnes 64)
    exact ⟨_, exec_pointHt_of_none (.inr (.inr ⟨l, hl, hi⟩)), hv, hg, honly, hthrough⟩
  · obtain ⟨hlo, hhi⟩ := heightBetween_bounds hstart (Config.freeValue s.freeCtr)
    have hfc : ({ s with freeCtr := s.freeCtr + 1 } : State).fc = s.fc := rfl
    obtain ⟨hv, hg, hp, hqfj, -, hthrough⟩ := State.result_spec_of_fc hfc d (BitVec.ofNat 64 (heightBetween
      (s.firing.startHeights.getD i 0) (l.heights.getD i 0) (Config.freeValue s.freeCtr)))
    refine ⟨_, exec_pointHt_of_some hk hl hi, fun hd => ?_, hg, hp, hqfj, hthrough⟩
    rw [hv hd, BitVec.toNat_ofNat, Nat.mod_eq_of_lt (by omega)]
    exact ⟨hlo, hhi⟩

/-! ## `mask` and `unmask` (04 R133) -/

section Mask
variable {s : State} {a : Fin 32}

theorem State.setMask_of_unsound (v : Bool) (h : (s.g a).toNat / 2048 ≠ 0 ∨ (s.g a).toNat / 32 % 8 ≠ 0 ∨
    ((s.ctx s.x).handler ((s.g a).toNat % 32)).valid = false) : s.setMask a v = .next (s.raise 0x0D 0 0) := by
  unfold State.setMask
  extract_lets n e cx
  refine if_pos ?_
  rw [Bool.or_eq_true, decide_eq_true_eq, Bool.not_eq_true']
  by_cases hv : ((s.ctx s.x).handler e).valid = false
  · exact .inr hv
  · refine .inl fun hn => ?_
    have hcx : cx < 8 := Nat.mod_lt _ (by decide)
    have he : e < 32 := Nat.mod_lt _ (by decide)
    rcases h with h | h | h
    · change n / 2048 ≠ 0 at h; omega
    · change n / 32 % 8 ≠ 0 at h; omega
    · exact hv h

theorem State.setMask_of_sound (v : Bool) {e cx : Nat} (he : e < 32) (hcx : cx < 8) (hn : (s.g a).toNat = e + 256 * cx)
    (hv : ((s.ctx s.x).handler e).valid = true) :
    s.setMask a v = .next (s.modCore s.now fun c => { c with masks := put c.masks (cx, e) v }).advance := by
  have hE : (s.g a).toNat % 32 = e := by omega
  have hC : bitsOf (s.g a).toNat 10 8 = cx := by rw [bitsOf, hn]; omega
  unfold State.setMask
  simp only [hE, hC, hv]
  exact if_neg (by simp; omega)

/-- What a word leaves that has set one mask bit of its core. -/
theorem State.putMask_advance_spec (s : State) (cx e : Nat) (v : Bool) :
    let t := (s.modCore s.now fun c => { c with masks := put c.masks (cx, e) v }).advance
    t.masked s.now cx e = v ∧ KeepsRegs s t ∧ FallsThrough s t ∧ (∀ j, j ≠ s.now → t.core j = s.core j) ∧
      (∀ c n, (c, n) ≠ (cx, e) → t.masked s.now c n = s.masked s.now c n) ∧ ∀ l, t.byte l = s.byte l := by
  intro t
  let u := s.modCore s.now fun c => { c with masks := put c.masks (cx, e) v }
  have hcur : u.cur = { s.cur with masks := put s.cur.masks (cx, e) v } := State.cur_modCore s _
  have hfc : u.fc = s.fc := by rw [State.fc, hcur]; rfl
  obtain ⟨hregs, honly, hthrough⟩ := State.advance_spec_of_fc hfc
  have hmasks : (t.core s.now).masks = put s.cur.masks (cx, e) v :=
    (honly.core_eq Core.masks fun _ _ => rfl).trans (congrArg Core.masks hcur)
  have hmasked (c n : Nat) : t.masked s.now c n = (look (put s.cur.masks (cx, e) v) (c, n)).getD
      ((s.ctx (s.cxId s.now)).handler n).masked := by
    rw [State.masked, hmasks]; rfl
  refine ⟨?_, hregs, hthrough, fun j hj => ?_, fun c n hcn => ?_, fun l => honly.bytes.1 l⟩
  · rw [hmasked, look_put_same]; rfl
  · exact (honly.others j hj).trans (s.core_modCore_ne _ (Ne.symm hj))
  · rw [hmasked, look_put_ne _ _ (Ne.symm hcn)]; rfl

end Mask

theorem maskBits : MaskBits := fun s a e cx => by
  have hmask : exec (.mask a) s = s.setMask a true := rfl
  have hunmask : exec (.unmask a) s = s.setMask a false := rfl
  rw [hmask, hunmask]
  refine ⟨fun hcx hn hv => ?_, fun h => ⟨State.setMask_of_unsound true h, State.setMask_of_unsound false h⟩⟩
  exact ⟨⟨_, State.setMask_of_sound true e.isLt hcx hn hv, s.putMask_advance_spec cx.val e.val true⟩,
    _, State.setMask_of_sound false e.isLt hcx hn hv, s.putMask_advance_spec cx.val e.val false⟩

/-! ## Sequence numbers (04 R109) -/

theorem State.die_modDie_same (s : State) (n : Nat) (f : Die → Die) : (s.modDie n f).die n = f (s.die n) :=
  congrArg (fun o : Option Die => o.getD Die.reset) (look_put_same _ _ _)

theorem State.die_modDie_ne (s : State) {n m : Nat} (f : Die → Die) (h : n ≠ m) : (s.modDie n f).die m = s.die m :=
  congrArg (fun o : Option Die => o.getD Die.reset) (look_put_ne _ _ h)

/-- What a sequence number leaves as it was: a context's counter and a die's block of numbers move, and nothing else. -/
structure OnlyNumbers (s t : State) : Prop where
  package : { t with ctxs := s.ctxs, dies := s.dies, freeCtr := s.freeCtr } = s
  firings : ∀ x, (t.ctx x).firings = (s.ctx x).firings
  tasks : ∀ d, (t.die d).tasks = (s.die d).tasks

theorem OnlyNumbers.refl (s : State) : OnlyNumbers s s := ⟨rfl, fun _ => rfl, fun _ => rfl⟩

theorem State.takeNumbers_onlyNumbers (s : State) (x n : Nat) : OnlyNumbers s (s.takeNumbers x n).2 := by
  refine ⟨rfl, fun y => ?_, fun _ => rfl⟩
  change ((s.modCtx x fun c => { c with counter := (s.takeNumbers x n).1 + n }).ctx y).firings = _
  by_cases h : x = y
  · subst h; rw [State.ctx_modCtx_same]
  · rw [State.ctx_modCtx_ne _ _ h]

theorem OnlyNumbers.modDie {s t : State} (h : OnlyNumbers s t) (die : Nat) {f : Die → Die} (hf : ∀ d, (f d).tasks = d.tasks) :
    OnlyNumbers s (t.modDie die f) where
  package := h.package
  firings := h.firings
  tasks d := by
    by_cases hd : die = d
    · subst hd; rw [State.die_modDie_same, hf, h.tasks]
    · rw [State.die_modDie_ne _ _ hd, h.tasks]

theorem State.nextSeq_onlyNumbers (s : State) (x die : Nat) : OnlyNumbers s (s.nextSeq x die).2 := by
  unfold State.nextSeq
  split
  · exact s.takeNumbers_onlyNumbers x 1
  · split
    next n left _ =>
      exact (OnlyNumbers.refl s).modDie die (f := fun d => { d with seqs := put d.seqs x (n + 1, left) }) fun _ => rfl
    next =>
      exact (s.takeNumbers_onlyNumbers x 64).modDie die
        (f := fun d => { d with seqs := put d.seqs x ((s.takeNumbers x 64).1 + 1, 63) }) fun _ => rfl

theorem OnlyNumbers.eq {s t : State} (h : OnlyNumbers s t) {α : Type} (f : State → α)
    (hf : ∀ (u : State) cs ds n, f { u with ctxs := cs, dies := ds, freeCtr := n } = f u) : f t = f s :=
  (hf t _ _ _).symm.trans (congrArg f h.package)

theorem OnlyNumbers.firing {s t : State} (h : OnlyNumbers s t) : t.firing = s.firing := by
  have hx : t.x = s.x := h.eq State.x fun _ _ _ _ => rfl
  have hfid : t.fid = s.fid := h.eq State.fid fun _ _ _ _ => rfl
  rw [State.firing, State.firing, Context.firing, Context.firing, hx, hfid, h.firings]

/-! ## `spawn` (04 R119, R132) -/

/-- The die that holds the origin core of a task's inset on a launch's sheet (04 R120). -/
def originDie (sheet : Rect) (bs : List Byte) : Nat :=
  dieOf ((sheet.y + (taskFields bs).iy) * 32 + sheet.x + (taskFields bs).ix)

/-- The state once the reservation of a task's entry is spent. -/
def State.spent (s : State) : State := s.modFiring s.x s.fid fun g => g.spend 1

/-- The number of the task that a firing spawns, and the state once it is taken. -/
def State.spawnNumber (s : State) : Nat × State := s.spent.nextSeq s.x (dieOf s.spent.now)

/-- The task that a firing spawns with a record's bytes. -/
def State.spawned (s : State) (f : Firing) (bs : List Byte) : TaskRec :=
  ⟨s.x, s.spawnNumber.1, bs, f.tag, s.fid, f.coords, f.idx, true, false, false⟩

/-- The state once the task stands in its die's queue. -/
def State.spawn (s : State) (f : Firing) (sheet : Rect) (bs : List Byte) : State :=
  s.spawnNumber.2.modDie (originDie sheet bs) fun d => { d with tasks := d.tasks ++ [s.spawned f bs] }

theorem exec_spawn_eq (d a : Fin 32) (s : State) : exec (.spawn d a) s = execSpawn d a s := rfl

/-- The firing of a context that has watched a line. -/
theorem State.firing_watchLine (s : State) (l : Loc) : (s.setFc (s.fc.watchLine l)).firing = s.firing := by
  rw [State.firing, State.fid, State.fc_setFc]; rfl

section Spawn
variable {s : State} {d a : Fin 32} {l : Loc} (hc : Canon (s.g a)) (ha : (s.g a).toNat % 64 = 0)
  (ht : s.translate (s.g a).toNat .load = .ok l) (hq : s.atomicOn s.now s.fid l.line = false)
  (hl : (s.cur.l1.any fun e => e.1 = l.line) = true)
include hc ha ht hq hl

/-- A firing with no launch spawns no task; its record's line has been read (03 R85). -/
theorem exec_spawn_of_no_launch (h : s.firing.kind = .message ∨ (s.ctx s.x).launch s.firing.tag = none) :
    exec (.spawn d a) s = .next ((s.setFc (s.fc.watchLine l.line)).raise 0x0E 0 0) := by
  have hnone : (if s.firing.kind = .message then none else (s.ctx s.x).launch s.firing.tag) = none := ite_eq_left_iff.2 fun hk =>
    h.resolve_left hk
  rw [exec_spawn_eq, execSpawn, s.loadThen_of_ok _ _ _ _ ((canonical_iff _).2 hc) ha ht hq hl, State.firing_watchLine]
  dsimp only
  rw [show (s.setFc (s.fc.watchLine l.line)).ctx (s.setFc (s.fc.watchLine l.line)).x = s.ctx s.x from rfl, hnone]

/-- A firing with a launch spawns a task from a record that keeps 04 R119, where it has an entry reserved. -/
theorem exec_spawn_of_launch {m : Launch} (hk : s.firing.kind ≠ .message) (hm : (s.ctx s.x).launch s.firing.tag = some m) :
    exec (.spawn d a) s =
      if !(s.ctx s.x).recordValid m.block.sheet (s.loadBytes l 64) then .next ((s.setFc (s.fc.watchLine l.line)).raise 0x0E 0 0)
      else if s.firing.reserved 1 = 0 then .next ((s.setFc (s.fc.watchLine l.line)).raise 0x0C 0 0)
      else (s.setFc (s.fc.watchLine l.line)).publishThen fun v =>
        .next ((v.spawn s.firing m.block.sheet (s.loadBytes l 64)).result d (BitVec.ofNat 64 v.spawnNumber.1)) := by
  have hsome : (if s.firing.kind = .message then none else (s.ctx s.x).launch s.firing.tag) = some m := (if_neg hk).trans hm
  rw [exec_spawn_eq, execSpawn, s.loadThen_of_ok _ _ _ _ ((canonical_iff _).2 hc) ha ht hq hl, State.firing_watchLine]
  dsimp only
  rw [show (s.setFc (s.fc.watchLine l.line)).ctx (s.setFc (s.fc.watchLine l.line)).x = s.ctx s.x from rfl, hsome]
  rfl

end Spawn

/-- What a word leaves that has queued a task: the record is in its die's queue, and the reservation is spent. -/
theorem State.spawn_spec {s : State} (f : Firing) (sheet : Rect) (bs : List Byte) (hx : (look s.ctxs s.x).isSome = true)
    (hf : (look (s.ctx s.x).firings s.fid).isSome = true) :
    let v := s.spawn f sheet bs
    v.fc = s.fc ∧ v.firing = s.firing.spend 1 ∧ (∀ l, v.byte l = s.byte l) ∧
      (v.die (originDie sheet bs)).tasks = (s.die (originDie sheet bs)).tasks ++ [s.spawned f bs] := by
  intro v
  obtain ⟨cs, hspent⟩ := s.modFiring_eq s.x s.fid fun g => g.spend 1
  have hnum : OnlyNumbers s.spent s.spawnNumber.2 := s.spent.nextSeq_onlyNumbers _ _
  have hfiring : s.spent.firing = s.firing.spend 1 := State.firing_modFiring hx hf _
  refine ⟨?_, hnum.firing.trans hfiring, fun l => ?_, ?_⟩
  · exact (hnum.eq State.fc fun _ _ _ _ => rfl).trans (by rw [State.spent, hspent]; rfl)
  · exact (hnum.eq (fun u => u.byte l) fun _ _ _ _ => rfl).trans (by rw [State.spent, hspent]; rfl)
  · have hdie : s.spent.die (originDie sheet bs) = s.die (originDie sheet bs) := by rw [State.spent, hspent]; rfl
    exact (congrArg Die.tasks (State.die_modDie_same _ _ _)).trans
      (congrArg (· ++ _) ((hnum.tasks _).trans (congrArg Die.tasks hdie)))

theorem spawnQueuesATask : SpawnQueuesATask := fun s d a l => by
  refine ⟨addressChecks_of_access fun _ => rfl, fun hc ha ht hq hl => ?_⟩
  intro bs u
  refine ⟨exec_spawn_of_no_launch hc ha ht hq hl, fun m hk hm => ?_⟩
  rw [exec_spawn_of_launch hc ha ht hq hl hk hm]
  refine ⟨fun hv => by rw [hv]; rfl, fun hv hr => by rw [hv]; exact if_pos hr, fun hv hr hp hx hf => ?_⟩
  rw [hv]
  have hfcu : u.fc = s.fc.watchLine l.line := State.fc_setFc _ _
  have hfid : u.fid = s.fid := by rw [State.fid, hfcu]; rfl
  have hfiringu : u.firing = s.firing := s.firing_watchLine l.line
  obtain ⟨hsb, hpub, hat⟩ : Published u := (State.published_setFc (f := s.fc.watchLine l.line) rfl rfl rfl).2 hp
  obtain ⟨hfc, hfiring, hbytes, htasks⟩ := u.spawn_spec s.firing m.block.sheet bs hx (hfid.symm ▸ hf)
  obtain ⟨hvd, ⟨hzero, hg⟩, -, -, honly, hthrough⟩ := State.result_spec_of_fc hfc d (BitVec.ofNat 64 u.spawnNumber.1)
  refine ⟨_, u.spawned s.firing bs, (if_neg hr.ne').trans (u.publishThen_of_clean _ hsb hpub hat), rfl, hfid, rfl, rfl,
    ?_, hvd, ⟨hzero, fun r hr => (hg r hr).trans ?_⟩, ?_, fun y => (honly.bytes.1 y).trans (hbytes y), ?_⟩
  · exact (congrArg (fun ds => Die.tasks ((look ds _).getD Die.reset)) (honly.state_eq State.dies fun _ _ => rfl)).trans htasks
  · rw [State.g, State.g, hfcu]; rfl
  · rw [honly.firing, hfiring, hfiringu, Firing.reserved_spend]
  · rw [FallsThrough, State.pc, hfcu] at hthrough
    exact hthrough

/-- Settles O57, by its three parts. -/
theorem pointsTasksAndMasks : Obligations.PointsTasksAndMasks := ⟨pointReads, spawnQueuesATask, maskBits⟩

end Sys2Proof.Machine
end

section
/-!
What a stop record and a raised halt line do (13 R345 to R354): memory outside what is written, whatever its form; the records of
units and dies; the halt line of a partition.
-/
namespace Sys2Proof.Machine

open Sys2Proof.Safety

/-! ## Registers of every context -/

theorem allRegs_trans {s t u : State} (h : AllRegs s t) (h' : AllRegs t u) : AllRegs s u :=
  fun j n => SameRegs.trans (h j n) (h' j n)

theorem allRegs_of_cores {s t : State} (h : t.cores = s.cores) : AllRegs s t := fun j n => by
  rw [State.core, State.core, h]
  exact SameRegs.refl _

/-! ## Memory written on the stacks -/

/-- A write reaches no other address, in canonical form or not. -/
theorem Memory.get_put_ne (v : Byte) {a x : Nat} (h : x ≠ a) : ∀ m : Memory, (m.put a v).get x = m.get x
  | [] => by
    rw [Memory.put]
    split
    · rfl
    · exact if_neg (Ne.symm h)
  | (b, w) :: m => by
    have ih := Memory.get_put_ne v h m
    rw [Memory.put]
    split
    · split
      · rfl
      · rw [Memory.get, if_neg (Ne.symm h)]
    · split
      next hab =>
        subst hab
        split
        · rw [Memory.get, if_neg (Ne.symm h)]
        · rw [Memory.get, Memory.get, if_neg (Ne.symm h), if_neg (Ne.symm h)]
      · rw [Memory.get, Memory.get, ih]

theorem Memory.get_putBytes_of_outside {x : Nat} : ∀ (bs : List Byte) (m : Memory) (a : Nat), (x < a ∨ a + bs.length ≤ x) →
    (m.putBytes a bs).get x = m.get x
  | [], _, _, _ => rfl
  | b :: bs, m, a, ho => by
    rw [List.length_cons] at ho
    rw [Memory.putBytes, Memory.get_putBytes_of_outside bs _ (a + 1) (by omega), Memory.get_put_ne b (by omega)]

/-- A part of the bytes written reads as written. -/
theorem Memory.bytes_putBytes_part {m : Memory} (h : m.wf = true) (a : Nat) {bs : List Byte} {off n : Nat}
    (hn : off + n ≤ bs.length) : (m.putBytes a bs).bytes (a + off) n = (bs.drop off).take n := by
  refine List.ext_getElem (by simp [Memory.bytes, upto]; omega) fun i hi _ => ?_
  have hin : i < n := by simpa [Memory.bytes, upto] using hi
  simp only [Memory.bytes, upto, List.getElem_map, List.getElem_range, List.getElem_take, List.getElem_drop, Nat.add_assoc]
  exact Memory.get_putBytes_inside bs a (off + i) (by omega) h

theorem State.setBytes_stacks : ∀ (bs : List Byte) (s : State) (a : Nat),
    s.setBytes ⟨false, a⟩ bs = { s with hbm := s.hbm.putBytes a bs }
  | [], _, _ => rfl
  | b :: bs, s, a => State.setBytes_stacks bs (s.setByte ⟨false, a⟩ b) (a + 1)

/-- The state after a write on the stacks has no other byte changed. -/
theorem bytesBut_of_hbm {s t : State} {a n : Nat} {bs : List Byte} (hl : bs.length ≤ n) (hb : t.hbm = s.hbm.putBytes a bs)
    (hh : t.hostMem = s.hostMem) : BytesBut s t a n := fun l hout => by
  rw [State.byte, State.byte, hb, hh]
  split
  · rfl
  next hdev => exact Memory.get_putBytes_of_outside bs s.hbm a ((hout.resolve_left hdev).imp_right (Nat.le_trans (by omega)))

theorem bytesAt_of_hbm (t : State) (a n : Nat) : t.bytesAt ⟨false, a⟩ n = t.hbm.bytes a n := rfl

/-! ## Records -/

theorem State.recordLoc_stacks (s : State) (k : CoreId) (r : Nat) : s.recordLoc k r = ⟨false, (s.recordLoc k r).addr⟩ := by
  unfold State.recordLoc
  split <;> rfl

theorem State.writeRecord_hbm (s : State) (k : CoreId) (r : Nat) (bs : List Byte) :
    (s.writeRecord k r bs).hbm = s.hbm.putBytes (s.recordLoc k r).addr (bs.take 64) ∧ (s.writeRecord k r bs).hostMem = s.hostMem := by
  rw [State.writeRecord, s.recordLoc_stacks k r, State.setBytes_stacks]
  exact ⟨rfl, rfl⟩

theorem State.mem_records_writeRecord (s : State) (k : CoreId) (r : Nat) (bs : List Byte) :
    r ∈ ((s.writeRecord k r bs).core k).records := by
  rw [State.writeRecord, State.core_modCore_same]
  exact (mem_insertNat _ _ _).2 (.inl rfl)

theorem State.writeRecord_bytesBut (s : State) (k : CoreId) (r : Nat) (bs : List Byte) :
    BytesBut s (s.writeRecord k r bs) (s.recordLoc k r).addr 64 :=
  bytesBut_of_hbm (List.length_take_le 64 bs) (s.writeRecord_hbm k r bs).1 (s.writeRecord_hbm k r bs).2

/-- A part of a record reads as written. -/
theorem State.bytesAt_record {s : State} (h : s.hbm.wf = true) (k : CoreId) (r : Nat) {bs : List Byte} (hl : bs.length = 64)
    {off n : Nat} (hn : off + n ≤ 64) :
    (s.writeRecord k r bs).bytesAt ((s.recordLoc k r).plus off) n = (bs.drop off).take n := by
  rw [s.recordLoc_stacks k r, Loc.plus, bytesAt_of_hbm, (s.writeRecord_hbm k r bs).1, List.take_of_length_le hl.le]
  exact Memory.bytes_putBytes_part h _ (hl.symm ▸ hn)

theorem OnlyHaltMarks.allRegs {s t : State} (h : OnlyHaltMarks s t) : AllRegs s t := fun j n => by
  rw [(h.cores j).fc n]
  exact SameRegs.refl _

/-- A change of one core that keeps its contexts' registers keeps every context's. -/
theorem State.modCore_allRegs (s : State) (k : CoreId) {f : Core → Core}
    (hf : ∀ n, SameRegs ((s.core k).fc n) ((f (s.core k)).fc n)) : AllRegs s (s.modCore k f) := fun j n => by
  by_cases h : k = j
  · subst h
    rw [State.core_modCore_same]
    exact hf n
  · rw [State.core_modCore_ne _ _ h]
    exact SameRegs.refl _

/-! ## A unit stops (13 R346) -/

theorem Core.stopUnit_context (c : Core) (n : Fin 8) :
    c.stopUnit n.val = c.setFc n { c.fc n with stopped := true, half := none } := dif_pos n.isLt

theorem Core.fcs_putBuf (c : Core) (b : Buf) (a : Nat) (bs : List Byte) : (c.putBuf b a bs).fcs = c.fcs := by
  cases b <;> rfl

theorem Core.fcs_spillSums (c : Core) : c.spillSums.fcs = c.fcs := by
  unfold Core.spillSums
  split
  · rfl
  · exact Core.fcs_putBuf c .c _ _

/-- A unit that is no firing context stops without a change of those. -/
theorem Core.fcs_stopUnit (c : Core) {r : Nat} (h : 8 ≤ r) : (c.stopUnit r).fcs = c.fcs := by
  rw [Core.stopUnit, dif_neg (Nat.not_lt.2 h)]
  by_cases h9 : r = 9
  · rw [if_pos h9]
    exact c.fcs_spillSums
  · rw [if_neg h9]

theorem Core.stopUnit_sameRegs (c : Core) (r : Nat) (m : Fin 8) : SameRegs (c.fc m) ((c.stopUnit r).fc m) := by
  by_cases hr : r < 8
  · rw [c.stopUnit_context ⟨r, hr⟩]
    by_cases hm : ⟨r, hr⟩ = m
    · rw [← hm, Core.fc_setFc_same]
      exact SameRegs.refl _
    · rw [Core.fc_setFc_ne _ _ hm]
      exact SameRegs.refl _
  · rw [Core.fc, Core.fc, c.fcs_stopUnit (Nat.not_lt.1 hr)]
    exact SameRegs.refl _

/-- Unit r of core k has stopped, with a record bs. -/
def State.unitStopped (s : State) (k : CoreId) (r : Nat) (bs : State → List Byte) : State :=
  (s.modCore k fun c => c.stopUnit r).writeRecord k r (bs (s.modCore k fun c => c.stopUnit r))

section UnitStopped
variable (s : State) (k : CoreId) (r : Nat) (bs : State → List Byte)

theorem State.recordLoc_stop : (s.modCore k fun c => c.stopUnit r).recordLoc k r = s.recordLoc k r :=
  (s.modCore_samePlaces k _).recordLoc k r

theorem State.unitStopped_spec : r ∈ ((s.unitStopped k r bs).core k).records ∧ AllRegs s (s.unitStopped k r bs) ∧
    BytesBut s (s.unitStopped k r bs) (s.recordLoc k r).addr 64 := by
  refine ⟨State.mem_records_writeRecord _ _ _ _, ?_, ?_⟩
  · have hstop : AllRegs s (s.modCore k fun c => c.stopUnit r) := s.modCore_allRegs k ((s.core k).stopUnit_sameRegs r)
    exact allRegs_trans hstop (State.writeRecord_onlyHaltMarks _ _ _ _).allRegs
  · rw [← s.recordLoc_stop k r]
    exact State.writeRecord_bytesBut _ _ _ _

end UnitStopped

theorem exec_unitStop_core (s : State) (k : CoreId) (r : Fin 16) (hh : s.halted k = true) (hr : r.val ∉ (s.core k).records)
    (hc : r.val = 9 → (s.core k).arrayAtCut = true) :
    exec (.unitStop (.core k r)) s = .next (if r.val < 8
      then s.unitStopped k r.val fun u => u.fcRecord k (Fin.ofNat 8 r.val) 0 false (u.wordAtPc k (Fin.ofNat 8 r.val)) 0 0
      else s.unitStopped k r.val fun u => u.unitRecord k r.val (((s.core k).haltCode r.val).1 + ((s.core k).haltRecord r.val).1)
        ((s.core k).haltCode r.val).2 ((s.core k).haltRecord r.val).2) := by
  have hgo : (!s.halted k || (s.core k).records.contains r.val || (decide (r.val = 9) && !(s.core k).arrayAtCut)) = false := by
    simpa [hh, hr] using hc
  exact if_neg (Bool.eq_false_iff.1 hgo)

/-- A firing context stops where it is. -/
theorem State.stopped_unitStopped (s : State) (k : CoreId) (n : Fin 8) (bs : State → List Byte) :
    (((s.unitStopped k n.val bs).core k).fc n).stopped = true := by
  rw [State.unitStopped, ((State.writeRecord_onlyHaltMarks _ _ _ _).cores k).fc n, State.core_modCore_same, Core.stopUnit_context,
    Core.fc_setFc_same]

/-- The record of a context that a halt stops at its pc, without a cause of its own (13 R350, R352). -/
theorem State.bytes_contextStopped (s : State) (k : CoreId) (n : Fin 8) (word : State → Nat) (hw : s.hbm.wf = true)
    (hst : ((s.core k).fc n).status ≠ .free) :
    let t := s.unitStopped k n.val fun u => u.fcRecord k n 0 false (word u) 0 0
    leNat (t.bytesAt ((s.recordLoc k n.val).plus 0x18) 8) = ((s.core k).fc n).pc.toNat ∧
      leNat (t.bytesAt ((s.recordLoc k n.val).plus 2) 2) = 0 ∧ t.byte (s.recordLoc k n.val) = 1 := by
  intro t
  have hfc : ((s.modCore k fun c => c.stopUnit n.val).core k).fc n = { (s.core k).fc n with stopped := true, half := none } := by
    rw [State.core_modCore_same, Core.stopUnit_context, Core.fc_setFc_same]
  have hst' : (((s.modCore k fun c => c.stopUnit n.val).core k).fc n).status ≠ .free := hfc ▸ hst
  obtain ⟨hlen, hkind, hcode, -, hpc, -, -⟩ := State.fcRecord_fields hst' 0 false (word (s.modCore k fun c => c.stopUnit n.val)) 0 0
  have hread {off m : Nat} (ho : off + m ≤ 64) :=
    State.bytesAt_record (s := s.modCore k fun c => c.stopUnit n.val) hw k n.val hlen ho
  rw [s.recordLoc_stop k n.val] at hread
  have h1 : t.bytesAt ((s.recordLoc k n.val).plus 0) 1 = leBytes 1 1 := (hread (by decide)).trans hkind
  refine ⟨?_, ?_, List.head_eq_of_cons_eq h1⟩
  · rw [show t.bytesAt ((s.recordLoc k n.val).plus 0x18) 8 = _ from (hread (by decide)).trans hpc, hfc, leNat_leBytes]
    exact Nat.mod_eq_of_lt ((s.core k).fc n).pc.isLt
  · rw [show t.bytesAt ((s.recordLoc k n.val).plus 2) 2 = _ from (hread (by decide)).trans hcode, leNat_leBytes]
    rfl

/-! ## A unit of a die stops -/

/-- A die's record changes the stacks alone. -/
theorem State.dieRecord_eq (s : State) (p : Partition) (x d r : Nat) : ∃ m, s.dieRecord p x d r = { s with hbm := m } :=
  ⟨_, State.setBytes_stacks _ s _⟩

/-- Unit r of die d stops and writes its record in a context's stop area. -/
def State.dieStopped (d r : Nat) (s : State) (p : Partition × Nat) : State :=
  (s.dieRecord p.1 p.2 d r).modDie d fun e => { e with records := e.records ++ [(p.1.id, r)] }

theorem State.dieStopped_spec (d r : Nat) (s : State) (p : Partition × Nat) :
    (s.dieStopped d r p).cores = s.cores ∧ ((s.dieStopped d r p).die d).records = (s.die d).records ++ [(p.1.id, r)] := by
  obtain ⟨m, hm⟩ := s.dieRecord_eq p.1 p.2 d r
  rw [State.dieStopped, State.die_modDie_same, hm]
  exact ⟨rfl, rfl⟩

theorem State.foldl_dieStopped_spec (d r : Nat) : ∀ (ps : List (Partition × Nat)) (s : State),
    (ps.foldl (State.dieStopped d r) s).cores = s.cores ∧
      ∀ e, e ∈ ((ps.foldl (State.dieStopped d r) s).die d).records ↔ e ∈ (s.die d).records ∨ ∃ p ∈ ps, e = (p.1.id, r)
  | [], _ => ⟨rfl, fun e => by simp⟩
  | p :: ps, s => by
    obtain ⟨hcores, hrec⟩ := State.foldl_dieStopped_spec d r ps (s.dieStopped d r p)
    obtain ⟨hcores1, hrec1⟩ := s.dieStopped_spec d r p
    rw [List.foldl_cons]
    refine ⟨hcores.trans hcores1, fun e => ?_⟩
    rw [hrec, hrec1]
    simp [or_assoc]

theorem unitStop_die (s : State) (d : Nat) (r : Fin 2) : ∃ t, exec (.unitStop (.die d r)) s = .next t ∧ t.cores = s.cores ∧
    ∀ p ∈ s.haltedOn d, (p.1.id, r.val) ∈ (t.die d).records := by
  obtain ⟨hcores, hrec⟩ := State.foldl_dieStopped_spec d r.val
    ((s.haltedOn d).filter fun p => !(s.die d).records.contains (p.1.id, r.val)) s
  refine ⟨_, rfl, hcores, fun p hp => (hrec _).2 ?_⟩
  by_cases h : (p.1.id, r.val) ∈ (s.die d).records
  · exact .inl h
  · exact .inr ⟨p, List.mem_filter.2 ⟨hp, by simpa using h⟩, rfl⟩

/-! ## The report of a core (13 R353) -/

/-- What a core reports with its records written. -/
def State.coreReport (s : State) (k : CoreId) : Mailbox :=
  let die := coreInDie k = 0 && (s.die (dieOf k)).origins.any fun o => some o.1.1 = (s.partOf k).map fun p => p.id
  ⟨((s.partOf k).map fun p => p.haltNum).getD 0 % 65536, ((s.core k).origins.map fun o => 2 ^ o.1).sum,
    ((upto 16).findSome? fun r => look (s.core k).origins r).getD 0, true, false, die, (s.recordLoc k 0).addr⟩

/-- What a slot holds after a report. -/
def Mailbox.take (m report : Mailbox) : Mailbox := if m.valid then { m with overflow := true } else report

/-- Core k has reported to its slot. -/
def State.reportedTo (s : State) (k : CoreId) : State :=
  (s.modCluster (clusterOf k) fun cl => { cl with slots := updNth cl.slots (slotOf k) fun m => m.take (s.coreReport k) }).modCore k
    fun c => { c with reported := true }

theorem execMailboxReport_eq (k : CoreId) (s : State) : execMailboxReport k s =
    if !s.halted k || !(s.core k).allRecords || (s.core k).reported then .next s else .next (s.reportedTo k) := rfl

theorem State.slot_reportedTo {s : State} {k : CoreId} {m : Mailbox} (hm : (s.cluster (clusterOf k)).slots[slotOf k]? = some m) :
    ((s.reportedTo k).cluster (clusterOf k)).slots[slotOf k]? = some (m.take (s.coreReport k)) := by
  have hcl : (s.reportedTo k).cluster (clusterOf k) = (s.modCluster (clusterOf k) fun cl =>
    { cl with slots := updNth cl.slots (slotOf k) fun m => m.take (s.coreReport k) }).cluster (clusterOf k) := rfl
  rw [hcl, State.cluster_modCluster_same, updNth, List.getElem?_modify_eq, hm]
  rfl

theorem mailboxReport_spec (s : State) (k : CoreId) (m : Mailbox) (hh : s.halted k = true)
    (hall : ∀ r, r < 16 → r ∈ (s.core k).records) (hrep : (s.core k).reported = false)
    (hm : (s.cluster (clusterOf k)).slots[slotOf k]? = some m) :
    ∃ t n, exec (.mailboxReport k) s = .next t ∧ (t.core k).reported = true ∧ AllRegs s t ∧ Bytes s t ∧
      (t.cluster (clusterOf k)).slots[slotOf k]? = some n ∧
      (m.valid = true → n = { m with overflow := true }) ∧
      (m.valid = false → n.valid = true ∧ n.overflow = false ∧ n.addr = (s.recordLoc k 0).addr ∧
        n.mask = ((s.core k).origins.map fun o => 2 ^ o.1).sum) := by
  have hrecs : (s.core k).allRecords = true := List.all_eq_true.2 fun r hr => by
    simpa using hall r (List.mem_range.1 hr)
  have hgo : (!s.halted k || !(s.core k).allRecords || (s.core k).reported) = false := by simp [hh, hrecs, hrep]
  have hexec : exec (.mailboxReport k) s = .next (s.reportedTo k) := by
    change execMailboxReport k s = _
    rw [execMailboxReport_eq, if_neg (Bool.eq_false_iff.1 hgo)]
  refine ⟨_, m.take (s.coreReport k), hexec, ?_, ?_, fun _ => rfl, State.slot_reportedTo hm, fun hv => ?_, fun hv => ?_⟩
  · rw [State.reportedTo, State.core_modCore_same]
  · exact State.modCore_allRegs (s.modCluster _ _) k fun n => SameRegs.refl _
  · rw [Mailbox.take, if_pos hv]
  · rw [Mailbox.take, if_neg (Bool.eq_false_iff.1 hv)]
    exact ⟨rfl, rfl, rfl, rfl⟩

/-! ## The halt line of a partition (13 R345) -/

/-- The clocks of a partition's clusters as they stand, which a halt keeps. -/
def State.clocksOf (s : State) (p : Partition) : List (Nat × RatioSet × Bool) :=
  (s.clusters.filter fun e => (rectDies p.rect).contains (dieOf (clusterCore e.1))).map fun e => (e.1, e.2.set, e.2.target.isSome)

/-- A partition whose halt line has risen. -/
def Partition.raised (q : Partition) (clocks : List (Nat × RatioSet × Bool)) : Partition :=
  { q with halt := true, haltNum := q.haltNum + 1, haltClocks := clocks }

theorem State.parts_raiseHalt {s : State} {k : CoreId} {p : Partition} (hp : s.partOf k = some p) (hh : p.halt = false) :
    (s.raiseHalt k).parts = (s.modPart p.id fun q => q.raised (s.clocksOf p)).parts := by
  unfold State.raiseHalt
  split
  case h_1 hn => exact absurd (hp.symm.trans hn) nofun
  case h_2 q hq =>
  obtain rfl : p = q := Option.some.inj (hp.symm.trans hq)
  rw [if_neg (Bool.eq_false_iff.1 hh)]
  dsimp only [State.mapDies, State.mapCores]
  split
  · split <;> rfl
  · rfl

theorem State.part_modPart_same {s : State} {n : Nat} {p : Partition} {f : Partition → Partition} (hf : ∀ q, (f q).id = q.id)
    (hp : s.part n = some p) : (s.modPart n f).part n = some (f p) := by
  have hid : p.id = n := of_decide_eq_true (List.find?_some hp :)
  have hcomp : (fun q : Partition => decide (q.id = n)) ∘ (fun q => if q.id = n then f q else q) = fun q => decide (q.id = n) := by
    funext q
    simp only [Function.comp_apply]
    split
    · rw [hf]
    · rfl
  rw [State.part, State.modPart, List.find?_map, hcomp, show s.parts.find? _ = some p from hp, Option.map_some, if_pos hid]

theorem State.raiseHalt_bytes (s : State) (k : CoreId) : Bytes s (s.raiseHalt k) := fun l => by
  rw [State.byte, State.byte, s.raiseHalt_hbm, s.raiseHalt_hostMem]

theorem firmwareHaltRequest_spec (s : State) (n : Nat) (p : Partition) (hp : s.part n = some p)
    (hat : s.partOf (p.rect.y * 32 + p.rect.x) = some p) (hh : p.halt = false) :
    ∃ t clocks, exec (.firmwareHaltRequest n) s = .next t ∧
      t.part n = some { p with halt := true, haltNum := p.haltNum + 1, haltClocks := clocks } ∧
      (∀ c ∈ clocks, ∃ e ∈ s.clusters, c = (e.1, e.2.set, e.2.target.isSome)) ∧ AllRegs s t ∧ Bytes s t := by
  have hexec : exec (.firmwareHaltRequest n) s = .next (s.raisePart p) := by
    change execFirmwareHaltRequest n s = _
    rw [execFirmwareHaltRequest, hp]
  refine ⟨_, s.clocksOf p, hexec, ?_, fun c hc => ?_, (s.raiseHalt_onlyHaltMarks _).allRegs, s.raiseHalt_bytes _⟩
  · obtain rfl : p.id = n := of_decide_eq_true (List.find?_some hp :)
    have hparts : (s.raisePart p).parts = _ := State.parts_raiseHalt hat hh
    rw [State.part, hparts]
    exact State.part_modPart_same (f := fun q => q.raised (s.clocksOf p)) (fun _ => rfl) hp
  · obtain ⟨e, he, rfl⟩ := List.mem_map.1 hc
    exact ⟨e, (List.mem_filter.1 he).1, rfl⟩

/-! ## A die fails (04 R110) -/

/-- From s to t every context keeps its registers, memory is as it was, and every die lives that lived. -/
structure KeepsLives (s t : State) : Prop where
  regs : AllRegs s t
  bytes : Bytes s t
  alive : ∀ e, (t.die e).alive = (s.die e).alive

theorem KeepsLives.refl (s : State) : KeepsLives s s := ⟨fun _ _ => SameRegs.refl _, fun _ => rfl, fun _ => rfl⟩

theorem KeepsLives.trans {s t u : State} (h : KeepsLives s t) (h' : KeepsLives t u) : KeepsLives s u :=
  ⟨allRegs_trans h.regs h'.regs, fun l => (h'.bytes l).trans (h.bytes l), fun e => (h'.alive e).trans (h.alive e)⟩

theorem KeepsLives.foldl {α : Type} {f : State → α → State} (hf : ∀ s x, KeepsLives s (f s x)) (xs : List α) (s : State) :
    KeepsLives s (xs.foldl f s) := by
  induction xs generalizing s with
  | nil => exact KeepsLives.refl s
  | cons x xs ih => exact (hf s x).trans (ih _)

theorem State.alive_mapDies (s : State) {f : Nat → Die → Die} (hf : ∀ n d, (f n d).alive = d.alive) (e : Nat) :
    ((s.mapDies f).die e).alive = (s.die e).alive := by
  rw [State.die, State.mapDies, look_map_value, State.die]
  cases look s.dies e
  · rfl
  · exact hf e _

theorem State.raiseHalt_keepsLives (s : State) (k : CoreId) : KeepsLives s (s.raiseHalt k) where
  regs := (s.raiseHalt_onlyHaltMarks k).allRegs
  bytes := s.raiseHalt_bytes k
  alive e := by
    unfold State.raiseHalt
    split
    · rfl
    split
    · rfl
    rw [State.alive_mapDies]
    · dsimp only [State.mapCores]
      split
      · split <;> rfl
      · rfl
    · exact fun _ _ => rfl

theorem State.modDie_keepsLives (s : State) (n : Nat) {f : Die → Die} (hf : ∀ d, (f d).alive = d.alive) :
    KeepsLives s (s.modDie n f) where
  regs := allRegs_of_cores rfl
  bytes _ := rfl
  alive e := by
    by_cases h : n = e
    · subst h
      rw [State.die_modDie_same, hf]
    · rw [State.die_modDie_ne _ _ h]

theorem State.dieFault_keepsLives (s : State) (x die r code : Nat) : KeepsLives s (s.dieFault x die r code) := by
  unfold State.dieFault
  split
  · exact KeepsLives.refl s
  · dsimp only
    split
    · exact s.raiseHalt_keepsLives _
    · exact (s.raiseHalt_keepsLives _).trans (State.modDie_keepsLives _ _ fun _ => rfl)

theorem State.electAnew_keepsLives (s : State) (x : Nat) : KeepsLives s (s.electAnew x) :=
  ⟨allRegs_of_cores rfl, fun _ => rfl, fun _ => rfl⟩

theorem dieFailure_spec (s : State) (d : Nat) (hd : d < 32) (ha : (s.die d).alive = true) :
    ∃ t, exec (.dieFailure d) s = .next t ∧ (t.die d).alive = false ∧ AllRegs s t ∧ Bytes s t ∧
      ∀ e, e ≠ d → (t.die e).alive = (s.die e).alive := by
  have hgo : (decide (32 ≤ d) || !(s.die d).alive) = false := by simp [ha]; exact hd
  have hexec := show exec (.dieFailure d) s = _ from if_neg (Bool.eq_false_iff.1 hgo)
  have hk := (KeepsLives.foldl (fun t x => t.dieFault_keepsLives x d 0 0x58) (s.parts.filterMap fun p =>
      if (rectCores p.rect).any fun k => dieOf k = d then p.ctx else none) (s.modDie d fun e => { e with alive := false })).trans
    (KeepsLives.foldl State.electAnew_keepsLives (s.parts.filterMap fun p =>
      if (rectCores p.rect).any fun k => dieOf k = d then p.ctx else none) _)
  refine ⟨_, hexec, ?_, hk.regs, hk.bytes, fun e he => ?_⟩
  · exact (hk.alive d).trans (by rw [State.die_modDie_same])
  · exact (hk.alive e).trans (by rw [State.die_modDie_ne _ _ (Ne.symm he)])

/-! ## A management word (13 R354) -/

theorem Core.endIdle_sameRegs (c : Core) (fid : Option Nat) (n : Fin 8) : SameRegs (c.fc n) ((c.endIdle fid).fc n) := by
  rw [Core.fc, Core.fc, Core.endIdle, Vector.get_map]
  generalize (_ && _ : Bool) = b
  cases b <;> exact SameRegs.refl _

/-- Without a word that waits, a word joins ch31 where it has room, and waits where it has none. -/
theorem State.deliverMgmt_of_none {s : State} {k : CoreId} (w : Word) (hon : (s.ctx (s.cxId k)).entryOn 31 = true)
    (hnone : s.mgmt = []) : s.deliverMgmt (k, w) =
      if (s.core k).chanRoom 31 = 0 then { s with mgmt := [(k, w)] } else s.modCore k fun c => c.addWords 31 [w] := by
  rw [State.deliverMgmt, hon, hnone]
  simp

theorem exec_managementMessage {s : State} {k : CoreId} {w : Word}
    (hw : w.toNat / 2 ^ 56 ∈ [1, 2, 3] ∨ 128 ≤ w.toNat / 2 ^ 56) (hnone : s.mgmt = []) :
    exec (.managementMessage k w) s = .next (s.deliverMgmt (k, w)) := by
  have hgo : ¬(w.toNat / 2 ^ 56 = 0 || (4 ≤ w.toNat / 2 ^ 56 && w.toNat / 2 ^ 56 ≤ 127)) = true := by
    rcases hw with h | h
    · simp only [List.mem_cons, List.not_mem_nil, or_false] at h
      rcases h with h | h | h <;> rw [h] <;> decide
    · simp; omega
  refine (if_neg hgo).trans ?_
  rw [State.manage, State.tryMgmt, hnone]
  rw [show s = { s with mgmt := [] } from hnone ▸ rfl]
  rfl

theorem managementMessage_spec (s : State) (k : CoreId) (w : Word)
    (hw : w.toNat / 2 ^ 56 ∈ [1, 2, 3] ∨ 128 ≤ w.toNat / 2 ^ 56) (hon : (s.ctx (s.cxId k)).entryOn 31 = true) (hnone : s.mgmt = []) :
    ((s.core k).chanRoom 31 = 0 → exec (.managementMessage k w) s = .next { s with mgmt := [(k, w)] }) ∧
    (0 < (s.core k).chanRoom 31 → ∃ t, exec (.managementMessage k w) s = .next t ∧
      look (t.core k).chans 31 = some ((look (s.core k).chans 31).getD [] ++ [w]) ∧
      AllRegs s t ∧ Bytes s t ∧ (∀ ch, ch ≠ 31 → look (t.core k).chans ch = look (s.core k).chans ch) ∧
      t.mgmt = [] ∧ ∀ j, j ≠ k → t.core j = s.core j) := by
  rw [exec_managementMessage hw hnone, State.deliverMgmt_of_none w hon hnone]
  refine ⟨fun hfull => by rw [if_pos hfull], fun hroom => ?_⟩
  rw [if_neg hroom.ne']
  refine ⟨_, rfl, ?_, ?_, fun _ => rfl, fun ch hch => ?_, hnone, fun j hj => State.core_modCore_ne _ _ (Ne.symm hj)⟩
  · rw [State.core_modCore_same]
    exact look_put_same _ _ _
  · exact s.modCore_allRegs k fun n => Core.endIdle_sameRegs _ none n
  · rw [State.core_modCore_same]
    exact look_put_ne _ _ (Ne.symm hch)

/-- Settles O15, by its seven parts: a context, another unit of a core, a unit of a die, the report, the halt line, the failure of a
die and a management word. -/
theorem haltAndItsRecords : Obligations.HaltAndItsRecords := by
  refine ⟨fun s k r hh hr => ?_, fun s k r h8 hh hr hcut => ?_, fun s d r _ => unitStop_die s d r, mailboxReport_spec,
    firmwareHaltRequest_spec, dieFailure_spec, managementMessage_spec⟩
  · have hexec := exec_unitStop_core s k ⟨r.val, by omega⟩ hh hr (by intro h9; simp only at h9; omega)
    rw [if_pos r.isLt, show Fin.ofNat 8 r.val = r from Fin.ext (Nat.mod_eq_of_lt r.isLt)] at hexec
    obtain ⟨hrec, hregs, hbut⟩ := s.unitStopped_spec k r.val fun u => u.fcRecord k r 0 false (u.wordAtPc k r) 0 0
    exact ⟨_, hexec, s.stopped_unitStopped k r _, hrec, hregs, hbut, s.bytes_contextStopped k r fun u => u.wordAtPc k r⟩
  · have hexec := exec_unitStop_core s k r hh hr hcut
    rw [if_neg (Nat.not_lt.2 h8)] at hexec
    exact ⟨_, hexec, s.unitStopped_spec k r.val _⟩

end Sys2Proof.Machine
end

section
/-!
Launches (04 R96 to R101, R134, R135): what the checks of a block establish, what an accepted launch changes, and how the commands
`lnch` and `lsync` end.
-/
namespace Sys2Proof.Safety

open Sys2Proof.Machine

/-! ## A command at work -/

theorem AtWork.withCmd {s : State} {op : Nat} {c : Cmd} {e : CmdEntry} (h : AtWork s op c e) (f : CmdEntry → Res) :
    s.withCmd op c f = f e := by
  rw [State.withCmd, h.found]
  dsimp only
  rw [h.unit]
  rfl

/-- The number of a command at work is its own. -/
theorem AtWork.cmdEntry {s : State} {op : Nat} {c : Cmd} {e : CmdEntry} (h : AtWork s op c e) :
    s.cur.cmdEntry e.id = some e := by
  have hmem : e ∈ s.cur.cmds := List.mem_of_find?_eq_some h.found
  obtain ⟨d, hd⟩ : ∃ d, s.cur.cmdEntry e.id = some d :=
    Option.isSome_iff_exists.1 (List.find?_isSome.2 ⟨e, hmem, decide_eq_true rfl⟩)
  have hid : d.id = e.id := of_decide_eq_true (List.find?_some hd :)
  rw [hd, List.inj_on_of_nodup_map h.ids (List.mem_of_find?_eq_some hd) hmem hid]

theorem AtWork.op_eq {s : State} {op : Nat} {c : Cmd} {e : CmdEntry} (h : AtWork s op c e) : opOf e.word = op := by
  have hf := List.find?_some h.found
  simp only [Bool.and_eq_true, decide_eq_true_eq] at hf
  rw [opOf, hf.2, cmdWord_opcode]

end Sys2Proof.Safety

namespace Sys2Proof.Machine

open Sys2Proof.Safety

/-! ## The checks of a block (04 R134) -/

theorem checkThat_eq_ok {b : Bool} {r : Nat} {u : Unit} : checkThat b r = .ok u ↔ b = true := by
  cases b
  · exact ⟨nofun, nofun⟩
  · exact ⟨fun _ => rfl, fun _ => rfl⟩

theorem except_bind_eq_ok {ε α β : Type} {r : Except ε α} {f : α → Except ε β} {v : β} :
    (r >>= f) = .ok v ↔ ∃ a, r = .ok a ∧ f a = .ok v := by
  cases r with
  | error e => exact ⟨nofun, nofun⟩
  | ok a => exact ⟨fun h => ⟨a, rfl, h⟩, fun ⟨_, ha, h⟩ => Except.ok.inj ha ▸ h⟩

/-- What a context's checks of a block's bytes establish, for the statements here. -/
structure Checked (c : Context) (bs : List Byte) (b : Block) : Prop where
  version : fieldAt bs 0 2 = 1
  shape : b.shapeHolds = true
  vectors : b.vectorsHold bs = true
  handler : (c.handler b.actor).valid = true
  tags : c.tagsHold b = true
  rest : c.restHolds b bs = true

theorem State.checked_of_checkBytes {s : State} {x : Nat} {addr : Word} {bs : List Byte} {b : Block} {hs : List Nat}
    (h : s.checkBytes x addr bs = .ok (b, hs)) : Checked (s.ctx x) bs b := by
  unfold State.checkBytes at h
  simp only [except_bind_eq_ok, checkThat_eq_ok, exists_const] at h
  obtain ⟨hversion, hshape, hvectors, -, -, hhandler, fps, -, -, htags, hs', -, hrest, hok⟩ := h
  obtain rfl : Block.of addr bs fps = b := congrArg Prod.fst (Except.ok.inj hok)
  simp only [Bool.and_eq_true] at hhandler
  exact ⟨of_decide_eq_true hversion, hshape, hvectors, hhandler.1.1, htags, hrest⟩

theorem Block.of_shapeHolds {b : Block} (h : b.shapeHolds = true) :
    1 ≤ b.ndim ∧ b.ndim ≤ 4 ∧ b.sweep < b.ndim ∧ b.cross ≤ 65536 := by
  simp only [Block.shapeHolds, Bool.and_eq_true, decide_eq_true_eq] at h
  obtain ⟨⟨⟨⟨h1, h4⟩, hsweep⟩, -⟩, hcross⟩ := h
  exact ⟨h1, h4, hsweep, hcross⟩

theorem Block.of_vectorsHold {b : Block} {bs : List Byte} (h : b.vectorsHold bs = true) : b.nvec ≤ 6 := by
  simp only [Block.vectorsHold, Bool.and_eq_true, decide_eq_true_eq] at h
  exact h.1.1.1

theorem Context.of_tagsHold {c : Context} {b : Block} (h : c.tagsHold b = true) :
    b.tag ≠ 0 ∧ c.launch b.tag = none ∧ c.launches.length < 16 := by
  simp only [Context.tagsHold, Bool.and_eq_true, decide_eq_true_eq, Option.isNone_iff_eq_none] at h
  obtain ⟨⟨⟨⟨⟨htag, hlive⟩, -⟩, hroom⟩, -⟩, -⟩ := h
  exact ⟨htag, hlive, by omega⟩

theorem Context.of_restHolds {c : Context} {b : Block} {bs : List Byte} (h : c.restHolds b bs = true) : b.cost ≠ 0 := by
  simp only [Context.restHolds, Bool.and_eq_true, decide_eq_true_eq] at h
  exact h.1.2

theorem Checked.facts {c : Context} {bs : List Byte} {b : Block} (h : Checked c bs b) :
    fieldAt bs 0 2 = 1 ∧ 1 ≤ b.ndim ∧ b.ndim ≤ 4 ∧ b.sweep < b.ndim ∧ b.cross ≤ 65536 ∧ b.nvec ≤ 6 ∧ b.tag ≠ 0 ∧
      c.launch b.tag = none ∧ c.launches.length < 16 ∧ (c.handler b.actor).valid = true ∧ b.cost ≠ 0 := by
  obtain ⟨h1, h4, hsweep, hcross⟩ := Block.of_shapeHolds h.shape
  obtain ⟨htag, hlive, hroom⟩ := Context.of_tagsHold h.tags
  exact ⟨h.version, h1, h4, hsweep, hcross, Block.of_vectorsHold h.vectors, htag, hlive, hroom, h.handler,
    Context.of_restHolds h.rest⟩

theorem Checked.launch_none {c : Context} {bs : List Byte} {b : Block} (h : Checked c bs b) : c.launch b.tag = none :=
  (Context.of_tagsHold h.tags).2.1

theorem State.checked_of_checkBlock {s : State} {x : Nat} {addr : Word} {b : Block} {hs : List Nat} {bs : List Byte}
    (h : s.checkBlock x addr = .ok (b, hs, bs)) : Checked (s.ctx x) bs b := by
  unfold State.checkBlock at h
  simp only [except_bind_eq_ok, checkThat_eq_ok, exists_const] at h
  obtain ⟨-, bs', -, ⟨b', hs'⟩, hcheck, hok⟩ := h
  obtain ⟨rfl, rfl, rfl⟩ : b' = b ∧ hs' = hs ∧ bs' = bs := by simpa using hok
  exact State.checked_of_checkBytes hcheck

/-! ## A command changes -/

theorem Core.cmdEntry_map {c d : Core} {g : CmdEntry → CmdEntry} (hc : d.cmds = c.cmds.map g) (hg : ∀ e, (g e).id = e.id)
    (id : Nat) : d.cmdEntry id = (c.cmdEntry id).map g := by
  rw [Core.cmdEntry, hc, List.find?_map, Core.cmdEntry]
  congr 2
  funext e
  rw [Function.comp_apply, hg]

theorem Core.cmdEntry_modCmd {c : Core} {e : CmdEntry} (h : c.cmdEntry e.id = some e) {f : CmdEntry → CmdEntry}
    (hf : ∀ d, (f d).id = d.id) : (c.modCmd e.id f).cmdEntry e.id = some (f e) := by
  rw [Core.cmdEntry_map (c := c) rfl fun d => by split <;> simp only [hf], h, Option.map_some, if_pos rfl]

theorem State.ctx_cmdDone (s : State) (id n x : Nat) : (s.cmdDone id n).ctx x = s.ctx x := rfl

theorem State.ctx_modCmd (s : State) (id : Nat) (f : CmdEntry → CmdEntry) (x : Nat) : (s.modCmd id f).ctx x = s.ctx x := rfl

/-- A command of the acting core changes, after a step that left it and every context's registers and memory. -/
theorem becomes_modCmd {s u : State} {e : CmdEntry} (hregs : AllRegs s u) (hbytes : Bytes s u)
    (he : u.cur.cmdEntry e.id = some e) {f : CmdEntry → CmdEntry} (hf : ∀ d, (f d).id = d.id) :
    Becomes s (u.modCmd e.id f) (f e) := by
  refine ⟨?_, hbytes, allRegs_trans hregs (u.modCore_allRegs u.now fun n => SameRegs.refl _)⟩
  have hcur : (u.modCmd e.id f).cur = u.cur.modCmd e.id f := u.core_modCore_same u.now _
  rw [hcur, hf]
  exact Core.cmdEntry_modCmd he hf

/-! ## What an accepted launch changes -/

/-- From s to t no core changes but for the waits of its `lsync` commands, and memory is as it was. -/
structure OnlySyncs (s t : State) : Prop where
  now : t.now = s.now
  regs : AllRegs s t
  bytes : Bytes s t
  entry : ∀ k id e, (s.core k).cmdEntry id = some e → opOf e.word ≠ 0x39 → (t.core k).cmdEntry id = some e

theorem OnlySyncs.of_cores {s t : State} (hn : t.now = s.now) (hc : t.cores = s.cores) (hb : Bytes s t) : OnlySyncs s t :=
  ⟨hn, allRegs_of_cores hc, hb, fun k id e he _ => by rwa [State.core, hc]⟩

theorem OnlySyncs.trans {s t u : State} (h : OnlySyncs s t) (h' : OnlySyncs t u) : OnlySyncs s u :=
  ⟨h'.now.trans h.now, allRegs_trans h.regs h'.regs, fun l => (h'.bytes l).trans (h.bytes l),
    fun k id e he hop => h'.entry k id e (h.entry k id e he hop) hop⟩

/-- The wait of one `lsync` command ends where its launch is among those that ended. -/
def endSync (serials : List Nat) (datum : Bool) (e : CmdEntry) : CmdEntry :=
  if opOf e.word = 0x39 && (cmdOf e.word).flag 0 = datum && e.attached = 1 && serials.contains e.pos then { e with attached := 2 }
  else e

theorem endSync_id (serials : List Nat) (datum : Bool) (e : CmdEntry) : (endSync serials datum e).id = e.id := by
  unfold endSync; split <;> rfl

theorem endSync_of_ne {serials : List Nat} {datum : Bool} {e : CmdEntry} (h : opOf e.word ≠ 0x39) : endSync serials datum e = e :=
  if_neg (by simp [h])

theorem State.endSyncs_eq (s : State) (x : Nat) (serials : List Nat) (datum : Bool) : s.endSyncs x serials datum =
    s.mapCores fun k c => if s.cxId k ≠ x then c else { c with cmds := c.cmds.map (endSync serials datum) } := rfl

theorem State.endSyncs_onlySyncs (s : State) (x : Nat) (serials : List Nat) (datum : Bool) :
    OnlySyncs s (s.endSyncs x serials datum) := by
  have hcore (k : CoreId) : (s.endSyncs x serials datum).core k = s.core k ∨
      (s.endSyncs x serials datum).core k = { s.core k with cmds := (s.core k).cmds.map (endSync serials datum) } := by
    rw [State.endSyncs_eq]
    rcases s.core_mapCores _ k with h | h
    · rw [h]
      split
      · exact .inl rfl
      · exact .inr rfl
    · exact .inl h
  refine ⟨rfl, fun k n => ?_, fun _ => rfl, fun k id e he hop => ?_⟩
  · rcases hcore k with h | h <;> rw [h] <;> exact SameRegs.refl _
  · rcases hcore k with h | h
    · rw [h, he]
    · rw [h, Core.cmdEntry_map (c := s.core k) rfl (endSync_id serials datum), he, Option.map_some, endSync_of_ne hop]

/-- A change of launches marks clusters, and changes nothing else besides. -/
theorem State.withRequests_eq (s : State) (sheet : Rect) (f : State → State) :
    ∃ cl, s.withRequests sheet f = { f s with clusters := cl } := by
  unfold State.withRequests
  generalize ((rectCores sheet).map clusterOf).eraseDups = l
  suffices h : ∀ u : State, (∃ cl, u = { f s with clusters := cl }) → ∃ cl, l.foldl (fun u cl =>
      if s.clockRequest cl = (f s).clockRequest cl then u else u.modCluster cl Cluster.mark) u = { f s with clusters := cl } from
    h (f s) ⟨_, rfl⟩
  induction l with
  | nil => exact fun u h => h
  | cons c l ih =>
    rintro u ⟨cl, rfl⟩
    refine ih _ ?_
    beta_reduce
    split
    · exact ⟨_, rfl⟩
    · exact ⟨_, rfl⟩

/-- A launch joins those of a context. -/
def Context.addLaunch (c : Context) (l : Launch) : Context :=
  { c with launches := c.launches ++ [l], nextLaunch := c.nextLaunch + 1 }

/-- A launch joins those of a context, and the copies of its heights start anew. -/
def State.withLaunch (s : State) (x : Nat) (l : Launch) : State :=
  (s.modCtx x fun c => c.addLaunch l).mapDies fun _ d =>
    { d with copies := d.copies.filter fun e => !(e.1.1 = x && e.1.2.1 = l.block.tag) }

/-- A launch of block b as it is accepted with heights hs. -/
def Launch.isNew (l : Launch) (b : Block) (hs : List Nat) : Prop :=
  l.block = b ∧ l.heights = hs ∧ l.delivered = [] ∧ l.leased = [] ∧ l.retiredSince = 0

theorem State.install_eq (s : State) (x : Nat) (b : Block) (hs : List Nat) :
    ∃ cl l, Launch.isNew l b hs ∧ s.install x b hs = State.launchEnds { s.withLaunch x l with clusters := cl } x b.tag := by
  obtain ⟨cl, hcl⟩ := s.withRequests_eq b.sheet fun s' => s'.withLaunch x
    (s.withLeader x ⟨b, hs, [], [], 0, b.multiple (leastNat hs), 0, 0, hs, (s.ctx x).nextLaunch⟩)
  exact ⟨cl, _, ⟨rfl, rfl, rfl, rfl, rfl⟩, congrArg (State.launchEnds · x b.tag) hcl⟩

section Installed
variable {s : State} {x : Nat} {l : Launch} {cl : List (Nat × Cluster)}

theorem State.ctx_withLaunch : State.ctx { s.withLaunch x l with clusters := cl } x = (s.ctx x).addLaunch l :=
  s.ctx_modCtx_same x fun c => c.addLaunch l

theorem State.tasksOf_withLaunch : State.tasksOf { s.withLaunch x l with clusters := cl } x = s.tasksOf x := by
  rw [State.tasksOf, State.withLaunch, State.mapDies, List.flatMap_map]
  rfl

theorem Context.find?_launches_append {c : Context} (h : c.launch l.block.tag = none) :
    (c.launches ++ [l]).find? (fun m => m.block.tag = l.block.tag) = some l := by
  rw [List.find?_append, show c.launches.find? _ = none from h, Option.none_or, List.find?_cons_of_pos (by simp)]

theorem State.launch_withLaunch (h : (s.ctx x).launch l.block.tag = none) :
    (State.ctx { s.withLaunch x l with clusters := cl } x).launch l.block.tag = some l := by
  rw [State.ctx_withLaunch]
  exact Context.find?_launches_append h

/-- The launch of a tag leaves a context, which then wants a datum. -/
def Context.endLaunch (c : Context) (tag : Nat) : Context := { c with
  launches := c.launches.filter fun m => m.block.tag ≠ tag
  retiring := c.retiring ++ c.launches.filter fun m => m.block.tag = tag
  wantDatum := true }

theorem State.launchEnds_eq {tag : Nat} (h : (s.ctx x).launch tag = some l) : s.launchEnds x tag =
    if l.heights.all (fun h => h = l.block.es) && !(s.tasksOf x).any fun q => q.tag = tag then
      (s.withRequests l.block.sheet fun u => u.modCtx x fun c => c.endLaunch tag).endSyncs x [l.serial] false
    else s := by
  rw [State.launchEnds, h]
  rfl

/-- A launch with a point left stays. -/
theorem State.launchEnds_of_points (h : (s.ctx x).launch l.block.tag = some l)
    (hleft : l.heights.all (fun h => h = l.block.es) = false) : s.launchEnds x l.block.tag = s := by
  rw [State.launchEnds_eq h, hleft]
  rfl

/-- A launch without points and tasks leaves its context, which then wants a datum. -/
theorem State.launchEnds_of_none (h : (s.ctx x).launch l.block.tag = some l)
    (hnone : l.heights.all (fun h => h = l.block.es) = true) (htasks : ∀ q ∈ s.tasksOf x, q.tag ≠ l.block.tag) :
    let t := s.launchEnds x l.block.tag
    (t.ctx x).launches = (s.ctx x).launches.filter (fun m => m.block.tag ≠ l.block.tag) ∧ (t.ctx x).wantDatum = true ∧
      OnlySyncs s t := by
  intro t
  have hgo : (l.heights.all (fun h => h = l.block.es) && !(s.tasksOf x).any fun q => q.tag = l.block.tag) = true := by
    simp only [hnone, Bool.true_and, Bool.not_eq_true', List.any_eq_false, decide_eq_true_eq]
    exact htasks
  obtain ⟨cl, hcl⟩ := s.withRequests_eq l.block.sheet fun u => u.modCtx x fun c => c.endLaunch l.block.tag
  have ht : t = State.endSyncs { s.modCtx x fun c => c.endLaunch l.block.tag with clusters := cl } x [l.serial] false := by
    rw [← hcl]
    exact (State.launchEnds_eq h).trans (if_pos hgo)
  have hctx : t.ctx x = (s.ctx x).endLaunch l.block.tag := by
    rw [ht]
    exact s.ctx_modCtx_same x fun c => c.endLaunch l.block.tag
  refine ⟨congrArg Context.launches hctx, congrArg Context.wantDatum hctx, ?_⟩
  rw [ht]
  have hleft : OnlySyncs s { s.modCtx x fun c => c.endLaunch l.block.tag with clusters := cl } :=
    OnlySyncs.of_cores rfl rfl fun _ => rfl
  exact hleft.trans (State.endSyncs_onlySyncs _ x [l.serial] false)

end Installed

theorem State.withLaunch_onlySyncs (s : State) (x : Nat) (l : Launch) (cl : List (Nat × Cluster)) :
    OnlySyncs s { s.withLaunch x l with clusters := cl } := OnlySyncs.of_cores rfl rfl fun _ => rfl

/-- An accepted launch with points left is live. -/
theorem State.install_of_points {s : State} {x : Nat} {b : Block} {hs : List Nat} (hlive : (s.ctx x).launch b.tag = none)
    (hleft : hs.all (fun h => h = b.es) = false) :
    OnlySyncs s (s.install x b hs) ∧ ∃ l, Launch.isNew l b hs ∧
      (s.install x b hs).ctx x = (s.ctx x).addLaunch l := by
  obtain ⟨cl, l, hnew, heq⟩ := s.install_eq x b hs
  obtain ⟨rfl, rfl, -⟩ := id hnew
  rw [heq, State.launchEnds_of_points (State.launch_withLaunch hlive) hleft]
  exact ⟨s.withLaunch_onlySyncs x l cl, l, hnew, State.ctx_withLaunch⟩

/-- An accepted launch with no point left has retired (04 R101). -/
theorem State.install_of_none {s : State} {x : Nat} {b : Block} {hs : List Nat} (hlive : (s.ctx x).launch b.tag = none)
    (hnone : hs.all (fun h => h = b.es) = true) (htasks : ∀ q ∈ s.tasksOf x, q.tag ≠ b.tag) :
    OnlySyncs s (s.install x b hs) ∧ ((s.install x b hs).ctx x).launches = (s.ctx x).launches ∧
      ((s.install x b hs).ctx x).wantDatum = true := by
  obtain ⟨cl, l, hnew, heq⟩ := s.install_eq x b hs
  obtain ⟨rfl, rfl, -⟩ := id hnew
  rw [heq]
  obtain ⟨hlaunches, hwant, hsync⟩ := State.launchEnds_of_none (State.launch_withLaunch (cl := cl) hlive) hnone
    (State.tasksOf_withLaunch.symm ▸ htasks)
  refine ⟨(s.withLaunch_onlySyncs x l cl).trans hsync, hlaunches.trans ?_, hwant⟩
  have hkeep : (s.ctx x).launches.filter (fun m => m.block.tag ≠ l.block.tag) = (s.ctx x).launches :=
    List.filter_eq_self.2 fun m hm => by simpa using List.find?_eq_none.1 hlive m hm
  rw [State.ctx_withLaunch, Context.addLaunch, List.filter_append, hkeep]
  simp

/-! ## `lnch` and `lsync` -/

section Lnch
variable {s : State} {c : Cmd} {e : CmdEntry} {b : Block} {hs : List Nat} {bs : List Byte}

/-- A context's pod launch waits for the comparison of its copies. -/
def Context.waitForPod (c : Context) (tag : Nat) (bs : List Byte) : Context := { c with podWaits := c.podWaits ++ [(tag, bs)] }

theorem exec_lnch (hw : AtWork s 0x38 c e) (hpos : e.pos = 0) : exec (.lnch c) s =
    s.tryCmd e 0 (s.checkBlock s.x c.operand) fun r => if r.1.pod
      then .next ((s.modCtx s.x fun c => c.waitForPod r.1.tag r.2.2).modCmd e.id fun d => { d with pos := 1, attached := r.1.tag })
      else .next ((s.install s.x r.1 r.2.1).cmdDone e.id 1) :=
  (hw.withCmd _).trans (if_neg (not_not.2 hpos))

theorem exec_lnch_of_single (hw : AtWork s 0x38 c e) (hpos : e.pos = 0) (hc : s.checkBlock s.x c.operand = .ok (b, hs, bs))
    (hp : b.pod = false) : exec (.lnch c) s = .next ((s.install s.x b hs).cmdDone e.id 1) := by
  rw [exec_lnch hw hpos, hc]
  exact if_neg (Bool.eq_false_iff.1 hp)

theorem exec_lnch_of_pod (hw : AtWork s 0x38 c e) (hpos : e.pos = 0) (hc : s.checkBlock s.x c.operand = .ok (b, hs, bs))
    (hp : b.pod = true) :
    exec (.lnch c) s = .next ((s.modCtx s.x fun c => c.waitForPod b.tag bs).modCmd e.id fun d =>
      { d with pos := 1, attached := b.tag }) := by
  rw [exec_lnch hw hpos, hc]
  exact if_pos hp

theorem exec_lnch_of_refused {r : Nat} (hw : AtWork s 0x38 c e) (hpos : e.pos = 0)
    (hc : s.checkBlock s.x c.operand = .error (.fail r 0 0)) : exec (.lnch c) s = .next (s.failCommand s.now e r none) := by
  rw [exec_lnch hw hpos, hc]
  rfl

/-- The command of an accepted launch completes. -/
theorem becomes_cmdDone_install (hw : AtWork s 0x38 c e) (hi : OnlySyncs s (s.install s.x b hs)) :
    Becomes s ((s.install s.x b hs).cmdDone e.id 1) { e with stage := .performed, count := 1 } := by
  have he := hi.entry s.now e.id e hw.cmdEntry (by rw [hw.op_eq]; decide)
  rw [← hi.now] at he
  exact becomes_modCmd hi.regs hi.bytes he fun _ => rfl

end Lnch

theorem lnch_spec (s : State) (c : Cmd) (e : CmdEntry) (hw : AtWork s 0x38 c e) (hpos : e.pos = 0) :
    (∀ b hs bs, s.checkBlock s.x c.operand = .ok (b, hs, bs) → b.pod = false → hs.all (fun h => h = b.es) = true →
      (∀ q ∈ s.tasksOf s.x, q.tag ≠ b.tag) →
      Finishes (.lnch c) s e 1 ∧ ∃ t, exec (.lnch c) s = .next t ∧ (t.ctx s.x).launches = (s.ctx s.x).launches ∧
        (t.ctx s.x).wantDatum = true) ∧
    (∀ b hs bs, s.checkBlock s.x c.operand = .ok (b, hs, bs) → b.pod = false → hs.all (fun h => h = b.es) = false →
      Finishes (.lnch c) s e 1 ∧ ∃ t l, exec (.lnch c) s = .next t ∧ (t.ctx s.x).launches = (s.ctx s.x).launches ++ [l] ∧
        l.block = b ∧ l.heights = hs ∧ l.delivered = [] ∧ l.leased = [] ∧ l.retiredSince = 0) ∧
    (∀ b hs bs, s.checkBlock s.x c.operand = .ok (b, hs, bs) → b.pod = true →
      ∃ t, exec (.lnch c) s = .next t ∧ Becomes s t { e with pos := 1, attached := b.tag } ∧
        (t.ctx s.x).podWaits = (s.ctx s.x).podWaits ++ [(b.tag, bs)]) ∧
    (∀ r, s.checkBlock s.x c.operand = .error (.fail r 0 0) → exec (.lnch c) s = .next (s.failCommand s.now e r none)) := by
  refine ⟨fun b hs bs hc hp hnone htasks => ?_, fun b hs bs hc hp hleft => ?_, fun b hs bs hc hp => ?_,
    fun r hc => exec_lnch_of_refused hw hpos hc⟩
  · have hexec := exec_lnch_of_single hw hpos hc hp
    obtain ⟨hsync, hlaunches, hwant⟩ := State.install_of_none (State.checked_of_checkBlock hc).launch_none hnone htasks
    refine ⟨⟨_, hexec, becomes_cmdDone_install hw hsync⟩, _, hexec, ?_, ?_⟩
    · rw [State.ctx_cmdDone, hlaunches]
    · rw [State.ctx_cmdDone, hwant]
  · have hexec := exec_lnch_of_single hw hpos hc hp
    obtain ⟨hsync, l, ⟨hblock, hheights, hdel, hleased, hret⟩, hctx⟩ :=
      State.install_of_points (State.checked_of_checkBlock hc).launch_none hleft
    refine ⟨⟨_, hexec, becomes_cmdDone_install hw hsync⟩, _, l, hexec, ?_, hblock, hheights, hdel, hleased, hret⟩
    rw [State.ctx_cmdDone, hctx]
    rfl
  · refine ⟨_, exec_lnch_of_pod hw hpos hc hp, becomes_modCmd (allRegs_of_cores rfl) (fun _ => rfl) hw.cmdEntry fun _ => rfl, ?_⟩
    rw [State.ctx_modCmd, State.ctx_modCtx_same]
    rfl

theorem lsync_spec (s : State) (c : Cmd) (e : CmdEntry) (hw : AtWork s 0x39 c e) :
    (e.attached ≠ 1 → (c.flag 0 = false → Finishes (.lsync c) s e 1) ∧ (c.flag 0 = true → Finishes (.lsyncD c) s e 1)) ∧
    (e.attached = 1 → (c.flag 0 = false → exec (.lsync c) s = .next s) ∧ (c.flag 0 = true → exec (.lsyncD c) s = .next s)) := by
  have hplain (hf : c.flag 0 = false) : exec (.lsync c) s = s.lsyncTurn e := (if_neg (Bool.eq_false_iff.1 hf)).trans (hw.withCmd _)
  have hdatum (hf : c.flag 0 = true) : exec (.lsyncD c) s = s.lsyncTurn e := (if_pos hf).trans (hw.withCmd _)
  refine ⟨fun ha => ?_, fun ha => ?_⟩
  · have hturn : s.lsyncTurn e = .next (s.cmdDone e.id 1) := if_neg ha
    have hdone : Becomes s (s.cmdDone e.id 1) { e with stage := .performed, count := 1 } :=
      becomes_modCmd (allRegs_of_cores rfl) (fun _ => rfl) hw.cmdEntry fun _ => rfl
    exact ⟨fun hf => ⟨_, (hplain hf).trans hturn, hdone⟩, fun hf => ⟨_, (hdatum hf).trans hturn, hdone⟩⟩
  · have hturn : s.lsyncTurn e = .next s := if_pos ha
    exact ⟨fun hf => (hplain hf).trans hturn, fun hf => (hdatum hf).trans hturn⟩

/-! ## The comparison of a pod's copies (04 R99) -/

/-- The operand of the first command that waits for a pod's comparison. -/
def podOperand (ws : List (CoreId × CmdEntry)) : Word := (ws.head?.map fun w => (cmdOf w.2.word).operand).getD 0

/-- A waiting `lnch` completes. -/
def State.podDone (u : State) (w : CoreId × CmdEntry) : State :=
  u.modCore w.1 fun k => k.modCmd w.2.id fun d => { d with stage := .performed, count := 1 }

/-- A context's pod launch of a tag waits no longer. -/
def Context.dropPodWait (c : Context) (tag : Nat) : Context := { c with podWaits := unput c.podWaits tag }

def State.dropPodWait (s : State) (x tag : Nat) : State := s.modCtx x fun c => c.dropPodWait tag

theorem State.foldl_podDone_spec : ∀ (ws : List (CoreId × CmdEntry)) (u : State),
    AllRegs u (ws.foldl State.podDone u) ∧ Bytes u (ws.foldl State.podDone u) ∧ (ws.foldl State.podDone u).ctxs = u.ctxs
  | [], u => ⟨allRegs_of_cores rfl, fun _ => rfl, rfl⟩
  | w :: ws, u => by
    obtain ⟨hregs, hbytes, hctxs⟩ := State.foldl_podDone_spec ws (u.podDone w)
    have hone : AllRegs u (u.podDone w) := u.modCore_allRegs w.1 fun n => SameRegs.refl _
    exact ⟨allRegs_trans hone hregs, hbytes, hctxs⟩

theorem look_unput_same {κ α : Type} [DecidableEq κ] (l : List (κ × α)) (x : κ) : look (unput l x) x = none := by
  induction l with
  | nil => rfl
  | cons e l ih =>
    rw [unput, List.filter_cons]
    split
    next h => exact (if_neg (of_decide_eq_true h)).trans ih
    · exact ih

section Pod
variable {s : State} {x tag : Nat} {bs : List Byte} {copies : List (List Byte)} {b : Block} {hs : List Nat}

/-- Copies that all equal the package's own, and are enough of them, accept the launch. -/
theorem exec_podLaunchCompare (hwait : look (s.ctx x).podWaits tag = some bs) (hhalt : ∀ p, s.ctxPart x = some p → p.halt = false)
    (hsame : ∀ d ∈ copies, d = bs) (hall : (s.ctx x).podSize ≤ copies.length + 1)
    (hcheck : (s.dropPodWait x tag).checkBytes x (podOperand (s.podWaiters x tag)) bs = .ok (b, hs)) :
    exec (.podLaunchCompare x tag copies) s =
      .next ((s.podWaiters x tag).foldl State.podDone ((s.dropPodWait x tag).install x b hs)) := by
  have hrun : (s.ctxPart x).any (fun p => p.halt) = false := by
    cases hp : s.ctxPart x with
    | none => rfl
    | some p => exact hhalt p hp
  have hequal : ¬(copies.any fun d => d ≠ bs) = true := by simpa using hsame
  change execPodLaunchCompare x tag copies s = _
  rw [execPodLaunchCompare, hrun, if_neg Bool.false_ne_true, hwait]
  dsimp only
  rw [if_neg hequal, if_neg (Nat.not_lt.2 hall)]
  revert hcheck
  generalize s.podWaiters x tag = ws
  intro hcheck
  cases ws with
  | nil =>
    dsimp only [State.dropPodWait, Context.dropPodWait, podOperand, List.head?, Option.map, Option.getD] at hcheck ⊢
    rw [hcheck]
    rfl
  | cons w ws =>
    dsimp only [State.dropPodWait, Context.dropPodWait, podOperand, List.head?, Option.map, Option.getD] at hcheck ⊢
    rw [hcheck]
    rfl

theorem podLaunchCompare_spec (hwait : look (s.ctx x).podWaits tag = some bs) (hhalt : ∀ p, s.ctxPart x = some p → p.halt = false)
    (hsame : ∀ d ∈ copies, d = bs) (hall : (s.ctx x).podSize ≤ copies.length + 1)
    (hcheck : (s.dropPodWait x tag).checkBytes x (podOperand (s.podWaiters x tag)) bs = .ok (b, hs))
    (hleft : hs.all (fun h => h = b.es) = false) :
    ∃ t l, exec (.podLaunchCompare x tag copies) s = .next t ∧ AllRegs s t ∧ Bytes s t ∧
      (t.ctx x).launches = (s.ctx x).launches ++ [l] ∧ l.block = b ∧ l.heights = hs ∧ look (t.ctx x).podWaits tag = none := by
  obtain ⟨hsync, l, ⟨hblock, hheights, -⟩, hctx⟩ :=
    State.install_of_points (State.checked_of_checkBytes hcheck).launch_none hleft
  obtain ⟨hregs, hbytes, hctxs⟩ := State.foldl_podDone_spec (s.podWaiters x tag) ((s.dropPodWait x tag).install x b hs)
  have hdrop : (s.dropPodWait x tag).ctx x = (s.ctx x).dropPodWait tag := s.ctx_modCtx_same x fun c => c.dropPodWait tag
  have hfinal : ((s.podWaiters x tag).foldl State.podDone ((s.dropPodWait x tag).install x b hs)).ctx x =
      ((s.ctx x).dropPodWait tag).addLaunch l := by
    rw [State.ctx, hctxs, ← hdrop, ← hctx, State.ctx]
  have hsame' : AllRegs s (s.dropPodWait x tag) := allRegs_of_cores rfl
  refine ⟨_, l, exec_podLaunchCompare hwait hhalt hsame hall hcheck, allRegs_trans (allRegs_trans hsame' hsync.regs) hregs,
    fun l' => (hbytes l').trans (hsync.bytes l'), ?_, hblock, hheights, ?_⟩
  · rw [hfinal]
    rfl
  · rw [hfinal]
    exact look_unput_same _ _

end Pod

/-- Settles O26, by its four parts: `lnch`, `lsync`, the checks and the comparison of a pod's copies. -/
theorem launchCommands : Obligations.LaunchCommands := by
  refine ⟨fun s c e _ => lnch_spec s c e, lsync_spec, fun s addr bs x b hs h => (State.checked_of_checkBytes h).facts,
    fun s x tag bs copies b hs hwait hhalt hsame hall hcheck hleft => podLaunchCompare_spec hwait hhalt hsame hall ?_ hleft⟩
  revert hcheck
  rw [podOperand]
  generalize s.podWaiters x tag = ws
  intro hcheck
  cases ws with
  | nil => exact hcheck
  | cons w ws => exact hcheck

end Sys2Proof.Machine
end

section
/-!
What the host does to the device (11 R298, R309, R319, R320, 04 R123): lines that leave the data L1s, bytes that the host writes,
and the pieces of an access.
-/
namespace Sys2Proof.Machine

open Sys2Proof.Safety

/-! ## Numbers from bytes -/

theorem leBytes_leNat : ∀ bs : List Byte, leBytes bs.length (leNat bs) = bs
  | [] => rfl
  | b :: bs => by
    have hb := b.isLt
    have hlow : BitVec.ofNat 8 (b.toNat + 256 * leNat bs) = b := BitVec.eq_of_toNat_eq (by simp [Nat.mod_eq_of_lt hb])
    have hrest : (b.toNat + 256 * leNat bs) / 256 = leNat bs := by omega
    rw [leNat, List.length_cons, leBytes, hlow, hrest, leBytes_leNat bs]

/-- The bytes of the number that stands somewhere are the bytes there. -/
theorem storesBytes_old {s t : State} (hb : Bytes s t) (l : Loc) (n : Nat) : StoresBytes s t l n (leNat (s.bytesAt l n)) := by
  intro y
  split
  next hy =>
    obtain ⟨hon, hlo, hhi⟩ := hy
    have hlen : (s.bytesAt l n).length = n := by simp [State.bytesAt, upto]
    have hget := getElem?_leBytes n (leNat (s.bytesAt l n)) (i := y.addr - l.addr) (by omega)
    have hself := leBytes_leNat (s.bytesAt l n)
    rw [hlen] at hself
    have hloc : l.plus (y.addr - l.addr) = y := by rw [Loc.plus, Nat.add_sub_cancel' hlo, ← hon]
    rw [hself] at hget
    have hread : (s.bytesAt l n)[y.addr - l.addr]? = some (s.byte y) := by
      rw [State.bytesAt, upto, List.getElem?_map, List.getElem?_range (by omega), Option.map_some, hloc]
    rw [hb]
    exact Option.some.inj (hread.symm.trans hget)
  · exact hb y

/-! ## Lines that leave the data L1s -/

theorem mem_of_look {κ α : Type} [DecidableEq κ] {x : κ} {v : α} : ∀ {l : List (κ × α)}, look l x = some v → (x, v) ∈ l
  | [], h => nomatch h
  | (y, w) :: l, h => by
    rw [look] at h
    split at h
    next hy => exact hy ▸ Option.some.inj h ▸ List.mem_cons_self
    · exact List.mem_cons_of_mem _ (mem_of_look h)

/-- A core after a change of every listed one: changed, or as reset leaves it and not listed. -/
theorem State.core_mapCores_or_reset (s : State) (f : CoreId → Core → Core) (k : CoreId) :
    (∃ c, (k, c) ∈ s.cores ∧ s.core k = c ∧ (s.mapCores f).core k = f k c) ∨
      s.core k = Core.reset ∧ (s.mapCores f).core k = Core.reset := by
  simp only [State.core, State.mapCores, look_map_value]
  cases h : look s.cores k with
  | none => exact .inr ⟨rfl, rfl⟩
  | some c => exact .inl ⟨c, mem_of_look h, rfl, rfl⟩

/-- t differs from s in caches and in what contexts note of lines. -/
structure LineMotion (s t : State) : Prop extends CacheMotion s t where
  hbm : t.hbm = s.hbm
  hostMem : t.hostMem = s.hostMem
  notices : t.notices = s.notices
  hostWork : t.hostWork = s.hostWork

theorem CacheMotion.allRegs {s t : State} (h : CacheMotion s t) : AllRegs s t := fun k n => ((h.cores k).fcs n).sameRegs

theorem LineMotion.refl (s : State) : LineMotion s s := ⟨CacheMotion.refl s, rfl, rfl, rfl, rfl⟩

theorem LineMotion.trans {s t u : State} (h : LineMotion s t) (h' : LineMotion t u) : LineMotion s u :=
  ⟨h.toCacheMotion.trans h'.toCacheMotion, h'.hbm.trans h.hbm, h'.hostMem.trans h.hostMem, h'.notices.trans h.notices,
    h'.hostWork.trans h.hostWork⟩

theorem LineMotion.foldl {α : Type} {f : State → α → State} (hf : ∀ s a, LineMotion s (f s a)) (l : List α) (s : State) :
    LineMotion s (l.foldl f s) := by
  induction l generalizing s with
  | nil => exact LineMotion.refl s
  | cons a r ih => exact (hf s a).trans (ih _)

theorem LineMotion.byte {s t : State} (h : LineMotion s t) : Bytes s t := fun l => by rw [State.byte, State.byte, h.hbm, h.hostMem]

theorem LineMotion.memWf {s t : State} (h : LineMotion s t) : t.memWf = s.memWf := by
  rw [State.memWf, State.memWf, h.hbm, h.hostMem]

theorem State.mapCores_lineMotion (s : State) {f : CoreId → Core → Core} (hf : ∀ j c, OnlyWatches c (f j c)) :
    LineMotion s (s.mapCores f) := ⟨s.mapCores_cacheMotion hf, rfl, rfl, rfl, rfl⟩

theorem State.noteWrite_lineMotion (s : State) (l : Loc) (w : Option (CoreId × Fin 8)) : LineMotion s (s.noteWrite l w) :=
  s.mapCores_lineMotion fun _ c => c.noteWrite_onlyWatches l _

/-- A core whose copy of a line is recalled. -/
def Core.recalled (c : Core) (l : Loc) : Core := { c with l1 := unput c.l1 l, fcs := c.fcs.map fun f => f.noteWrite l }

theorem Core.recalled_onlyWatches (c : Core) (l : Loc) : OnlyWatches c (c.recalled l) where
  run := rfl
  fcs n := by
    rw [Core.fc, Core.fc, Core.recalled, Vector.get_map]
    exact FiringCtx.noteWrite_onlyWatch _ l

theorem State.recall_eq (s : State) (l : Loc) : s.recall l = s.mapCores fun k c => if s.listed k l then c.recalled l else c := rfl

theorem State.recall_lineMotion (s : State) (l : Loc) : LineMotion s (s.recall l) :=
  s.mapCores_lineMotion fun _ c => by
    split
    · exact c.recalled_onlyWatches l
    · exact OnlyWatches.refl c

theorem State.atHome_lineMotion (s : State) (l : Loc) : LineMotion s (s.atHome l) := by
  unfold State.atHome
  dsimp only
  split
  · exact LineMotion.refl s
  · exact ⟨.of_cores rfl rfl, rfl, rfl, rfl, rfl⟩

theorem State.shade_lineMotion (s : State) (l : Loc) : LineMotion s (s.shade l) := by
  unfold State.shade
  split
  · exact ⟨.of_cores rfl rfl, rfl, rfl, rfl, rfl⟩
  · exact LineMotion.refl s

/-- The home slice of a line lists every core whose L1 holds it. -/
theorem State.listed_of_held {s : State} {k : CoreId} {c : Core} {l : Loc} (hk : (k, c) ∈ s.cores)
    (hl : (look c.l1 l).isSome = true) : s.listed k l = true := by
  obtain ⟨a, ha⟩ := Option.isSome_iff_exists.1 hl
  refine List.any_eq_true.2 ⟨(k, a), List.mem_filterMap.2 ⟨(k, c), hk, ?_⟩, decide_eq_true rfl⟩
  rw [if_pos rfl, ha]
  rfl

/-- A recalled line is in no L1. -/
theorem State.look_l1_recall (s : State) (l : Loc) (k : CoreId) : look ((s.recall l).core k).l1 l = none := by
  rw [State.recall_eq]
  obtain ⟨c, hk, -, h⟩ | ⟨-, h⟩ := s.core_mapCores_or_reset (fun k c => if s.listed k l then c.recalled l else c) k
  · rw [h]
    split
    · exact look_unput_same _ _
    next hlisted =>
      cases hl : look c.l1 l with
      | none => rfl
      | some a => exact absurd (State.listed_of_held hk (by rw [hl]; rfl)) hlisted
  · rw [h]
    rfl

theorem State.l1_noteWrite_none (s : State) (l : Loc) (k : CoreId) :
    ((s.noteWrite l none).core k).l1 = (s.core k).l1.filter fun e => e.1 ≠ l := by
  obtain ⟨c, -, hc, h⟩ | ⟨hc, h⟩ := s.core_mapCores_or_reset (fun _ c => c.noteWrite l none) k
  · exact (congrArg Core.l1 h).trans (by rw [hc]; rfl)
  · exact (congrArg Core.l1 h).trans (by rw [hc]; rfl)

/-- Lines that another agent than a context has written are in no L1. -/
theorem State.l1_foldl_noteWrite (k : CoreId) (ls : List Loc) (s : State) :
    ∀ e ∈ ((ls.foldl (fun t n => t.noteWrite n none) s).core k).l1, e ∈ (s.core k).l1 ∧ e.1 ∉ ls := by
  induction ls generalizing s with
  | nil => exact fun e he => ⟨he, List.not_mem_nil⟩
  | cons n ls ih =>
    intro e he
    obtain ⟨hmem, hnot⟩ := ih (s.noteWrite n none) e he
    rw [State.l1_noteWrite_none, List.mem_filter, decide_eq_true_eq] at hmem
    exact ⟨hmem.1, fun h => (List.mem_cons.1 h).elim hmem.2 hnot⟩

/-! ## Bytes that the host writes -/

/-- The lines of n bytes from l on have left the L1s, and are used at home, before the host writes them. -/
def State.takenBack (s : State) (l : Loc) (n : Nat) : State :=
  (linesOf l.onHost l.addr n).foldl (fun t m => ((t.shade m).recall m).atHome m) s

theorem State.takenBack_lineMotion (s : State) (l : Loc) (n : Nat) : LineMotion s (s.takenBack l n) :=
  .foldl (fun t m => ((t.shade_lineMotion m).trans (State.recall_lineMotion _ m)).trans (State.atHome_lineMotion _ m)) _ s

theorem State.hostWrite_eq (s : State) (l : Loc) (bs : List Byte) : s.hostWrite l bs =
    (linesOf l.onHost l.addr bs.length).foldl (fun t n => t.noteWrite n none) ((s.takenBack l bs.length).setBytes l bs) := rfl

theorem State.setBytes_keeps (s : State) (l : Loc) (bs : List Byte) :
    (s.setBytes l bs).notices = s.notices ∧ (s.setBytes l bs).hostWork = s.hostWork := by
  obtain ⟨m, h, e⟩ := State.setBytes_eq bs s l
  rw [e]
  exact ⟨rfl, rfl⟩

section HostWrite
variable (s : State) (l : Loc) (bs : List Byte)

theorem State.hostWrite_noted : LineMotion ((s.takenBack l bs.length).setBytes l bs) (s.hostWrite l bs) := by
  rw [State.hostWrite_eq]
  exact .foldl (fun t n => t.noteWrite_lineMotion n none) _ _

theorem State.hostWrite_keeps :
    AllRegs s (s.hostWrite l bs) ∧ (s.hostWrite l bs).notices = s.notices ∧ (s.hostWrite l bs).hostWork = s.hostWork := by
  have hback := s.takenBack_lineMotion l bs.length
  have hnoted := s.hostWrite_noted l bs
  obtain ⟨hnotices, hwork⟩ := (s.takenBack l bs.length).setBytes_keeps l bs
  have hset := (s.takenBack l bs.length).setBytes_cacheMotion l bs
  exact ⟨((hback.toCacheMotion.trans hset).trans hnoted.toCacheMotion).allRegs, (hnoted.notices.trans hnotices).trans hback.notices,
    (hnoted.hostWork.trans hwork).trans hback.hostWork⟩

variable {s l bs}

theorem State.byte_hostWrite_outside (hw : s.memWf = true) {m : Loc}
    (hout : m.onHost ≠ l.onHost ∨ m.addr < l.addr ∨ l.addr + bs.length ≤ m.addr) : (s.hostWrite l bs).byte m = s.byte m := by
  have hback := s.takenBack_lineMotion l bs.length
  rw [(s.hostWrite_noted l bs).byte, State.byte_setBytes_outside bs l m (hback.memWf.trans hw) hout, hback.byte]

theorem State.byte_hostWrite_inside (hw : s.memWf = true) {i : Nat} (hi : i < bs.length) :
    (s.hostWrite l bs).byte (l.plus i) = bs[i] := by
  rw [(s.hostWrite_noted l bs).byte, State.byte_setBytes_inside bs l i hi ((s.takenBack_lineMotion l bs.length).memWf.trans hw)]

theorem State.bytesAt_hostWrite (hw : s.memWf = true) : (s.hostWrite l bs).bytesAt l bs.length = bs := by
  refine List.ext_getElem (by simp [State.bytesAt, upto]) fun i _ hi => ?_
  refine Eq.trans ?_ (State.byte_hostWrite_inside (l := l) hw hi)
  simp [State.bytesAt, upto]

theorem State.storesBytes_hostWrite (hw : s.memWf = true) (n v : Nat) : StoresBytes s (s.hostWrite l (leBytes n v)) l n v := by
  intro y
  have hlen : (leBytes n v).length = n := length_leBytes n v
  split
  next hy =>
    obtain ⟨hon, hlo, hhi⟩ := hy
    have hi : y.addr - l.addr < (leBytes n v).length := by omega
    have hloc : l.plus (y.addr - l.addr) = y := by rw [Loc.plus, Nat.add_sub_cancel' hlo, ← hon]
    have hread := State.byte_hostWrite_inside (l := l) hw hi
    have hget := getElem?_leBytes n v (i := y.addr - l.addr) (by omega)
    rw [hloc] at hread
    rw [List.getElem?_eq_getElem hi] at hget
    exact hread.trans (Option.some.inj hget)
  next hy =>
    refine State.byte_hostWrite_outside hw ?_
    rw [hlen]
    by_cases hon : y.onHost = l.onHost
    · have hout : ¬(l.addr ≤ y.addr ∧ y.addr < l.addr + n) := fun h => hy ⟨hon, h⟩
      exact .inr (by omega)
    · exact .inl hon

/-- The line where the host writes is in no L1. -/
theorem State.l1_hostWrite (hne : bs ≠ []) (k : CoreId) : ∀ e ∈ ((s.hostWrite l bs).core k).l1, e.1 ≠ l.line := fun e he heq => by
  have hpos : 0 < bs.length := List.length_pos_iff.2 hne
  rw [State.hostWrite_eq] at he
  refine (State.l1_foldl_noteWrite k _ _ e he).2 ?_
  rw [heq]
  exact List.mem_map.2 ⟨0, List.mem_range.2 (by omega), rfl⟩

end HostWrite

/-! ## AtomicOps of the host (11 R309, R320) -/

theorem presented_of {s : State} (hup : s.boot = .up) (hport : s.port0 = true ∨ s.port1 = true) : s.presented = true := by
  rw [State.presented, hup]
  simpa using hport

/-- The value that an AtomicOp leaves. -/
def hostOpValue (r : AtomicOpReq) (old : Nat) : Nat :=
  let v := r.operand.toNat % 2 ^ (8 * r.bytes)
  if r.op = 0 then (old + v) % 2 ^ (8 * r.bytes) else if r.op = 1 then v
  else if old = r.compare.toNat % 2 ^ (8 * r.bytes) then v else old

/-- A compare-and-swap whose comparison fails. -/
def hostOpMisses (r : AtomicOpReq) (old : Nat) : Bool := r.op = 2 && old ≠ r.compare.toNat % 2 ^ (8 * r.bytes)

/-- A miss leaves the old value. -/
theorem hostOpValue_of_misses {r : AtomicOpReq} {old : Nat} (h : hostOpMisses r old = true) : hostOpValue r old = old := by
  simp only [hostOpMisses, Bool.and_eq_true, decide_eq_true_eq] at h
  obtain ⟨hop, hne⟩ := h
  rw [hostOpValue, if_neg (by omega), if_neg (by omega), if_neg hne]

/-- The device performs an AtomicOp: a naturally aligned word of 4 or 8 bytes of its memory. -/
def hostOpKnown (r : AtomicOpReq) : Bool :=
  r.op ≤ 2 && (r.bytes = 4 || r.bytes = 8) && r.addr % r.bytes = 0 && r.addr + r.bytes ≤ hbmSize

/-- The old value of an AtomicOp. -/
def State.hostOpOld (s : State) (r : AtomicOpReq) : Nat := leNat (s.bytesAt ⟨false, r.addr⟩ r.bytes)

/-- The state after an AtomicOp that the device performs, but for its answer. -/
def State.hostOpDone (s : State) (r : AtomicOpReq) : State :=
  let u := (s.recall (Loc.line ⟨false, r.addr⟩)).atHome (Loc.line ⟨false, r.addr⟩)
  if hostOpMisses r (s.hostOpOld r) then u else u.hostWrite ⟨false, r.addr⟩ (leBytes r.bytes (hostOpValue r (s.hostOpOld r)))

theorem execHostAtomicop_eq (r : AtomicOpReq) (s : State) : execHostAtomicop r s =
    if !s.presented then .next s
    else if !hostOpKnown r then .next { s with notices := s.notices ++ [.unsupportedRequest] }
    else .next { s.hostOpDone r with notices := (s.hostOpDone r).notices ++ [.hostData (leBytes r.bytes (s.hostOpOld r))] } := rfl

theorem State.hostOpDone_spec {s : State} (r : AtomicOpReq) (hw : s.memWf = true) :
    AllRegs s (s.hostOpDone r) ∧ (s.hostOpDone r).notices = s.notices ∧
      StoresBytes s (s.hostOpDone r) ⟨false, r.addr⟩ r.bytes (hostOpValue r (s.hostOpOld r)) := by
  have hu := (s.recall_lineMotion (Loc.line ⟨false, r.addr⟩)).trans (State.atHome_lineMotion _ (Loc.line ⟨false, r.addr⟩))
  rw [State.hostOpDone]
  split
  next hmiss =>
    rw [hostOpValue_of_misses hmiss]
    exact ⟨hu.allRegs, hu.notices, storesBytes_old hu.byte _ _⟩
  · obtain ⟨hregs, hnotices, -⟩ := State.hostWrite_keeps
      ((s.recall (Loc.line ⟨false, r.addr⟩)).atHome (Loc.line ⟨false, r.addr⟩)) ⟨false, r.addr⟩
      (leBytes r.bytes (hostOpValue r (s.hostOpOld r)))
    refine ⟨allRegs_trans hu.allRegs hregs, hnotices.trans hu.notices, fun y => ?_⟩
    rw [State.storesBytes_hostWrite (hu.memWf.trans hw) r.bytes (hostOpValue r (s.hostOpOld r)) y, hu.byte]

theorem hostAtomicop_of_known {s : State} {r : AtomicOpReq} (hp : s.presented = true) (hk : hostOpKnown r = true)
    (hw : s.memWf = true) : ∃ t, exec (.hostAtomicop r) s = .next t ∧
      t.notices = s.notices ++ [.hostData (leBytes r.bytes (s.hostOpOld r))] ∧ AllRegs s t ∧
      StoresBytes s t ⟨false, r.addr⟩ r.bytes (hostOpValue r (s.hostOpOld r)) := by
  obtain ⟨hregs, hnotices, hstores⟩ := State.hostOpDone_spec r hw
  have hexec := execHostAtomicop_eq r s
  rw [hp, hk, hnotices] at hexec
  exact ⟨_, hexec, rfl, hregs, hstores⟩

theorem hostAtomicop_of_unknown {s : State} {r : AtomicOpReq} (hp : s.presented = true) (hk : hostOpKnown r = false) :
    ∃ t, exec (.hostAtomicop r) s = .next t ∧ t.notices = s.notices ++ [.unsupportedRequest] ∧ t.cores = s.cores ∧ Bytes s t := by
  have hexec := execHostAtomicop_eq r s
  rw [hp, hk] at hexec
  exact ⟨_, hexec, rfl, rfl, fun _ => rfl⟩

theorem hostOpKnown_iff (r : AtomicOpReq) : hostOpKnown r = true ↔
    r.op ≤ 2 ∧ (r.bytes = 4 ∨ r.bytes = 8) ∧ r.addr % r.bytes = 0 ∧ r.addr + r.bytes ≤ hbmSize := by
  simp [hostOpKnown, and_assoc]

/-! ## Accesses in pieces (11 R320) -/

theorem hostPieceLen_le (r : HostAccess) (i : Nat) : hostPieceLen r i ≤ 8 ∧ hostPieceLen r i ≤ hostSize r - i := by
  unfold hostPieceLen
  omega

theorem hostPieceLen_pos {r : HostAccess} {i : Nat} (h : i < hostSize r) : 0 < hostPieceLen r i := by
  unfold hostPieceLen
  omega

/-- The next piece of an access with d bytes done with, and what becomes of the access. -/
def State.pieceStep (s : State) (r : HostAccess) (d : List Byte) : State := (s.hostPieceOf r d).2.hostGoesOn r (s.hostPieceOf r d).1

theorem State.hostGoesOn_keeps (s : State) (r : HostAccess) (d : List Byte) :
    (s.hostGoesOn r d).cores = s.cores ∧ Bytes s (s.hostGoesOn r d) := by
  unfold State.hostGoesOn
  split
  · exact ⟨rfl, fun _ => rfl⟩
  · split
    · exact ⟨rfl, fun _ => rfl⟩
    · exact ⟨rfl, fun _ => rfl⟩

section Piece
variable {s : State} {r : HostAccess} {d : List Byte}

/-- A piece of a read changes nothing but the answer and what waits. -/
theorem State.pieceStep_read (hr : r.bytes = []) :
    (s.pieceStep r d).cores = s.cores ∧ Bytes s (s.pieceStep r d) ∧
    (d.length + hostPieceLen r d.length < hostSize r → (s.pieceStep r d).notices = s.notices ∧ (s.pieceStep r d).hostWork =
      s.hostWork ++ [(r, d ++ s.bytesAt ⟨r.onHost, r.addr + d.length⟩ (hostPieceLen r d.length))]) ∧
    (d.length + hostPieceLen r d.length = hostSize r → (s.pieceStep r d).hostWork = s.hostWork ∧ (s.pieceStep r d).notices =
      s.notices ++ [.hostData (d ++ s.bytesAt ⟨r.onHost, r.addr + d.length⟩ (hostPieceLen r d.length))]) := by
  have hpiece : s.hostPieceOf r d = (d ++ s.bytesAt ⟨r.onHost, r.addr + d.length⟩ (hostPieceLen r d.length), s) := if_pos hr
  have hlen (l : Loc) (n : Nat) : (d ++ s.bytesAt l n).length = d.length + n := by simp [State.bytesAt, upto]
  rw [State.pieceStep, hpiece]
  obtain ⟨hcores, hbytes⟩ := s.hostGoesOn_keeps r (d ++ s.bytesAt ⟨r.onHost, r.addr + d.length⟩ (hostPieceLen r d.length))
  refine ⟨hcores, hbytes, fun hlt => ?_, fun heq => ?_⟩
  · rw [State.hostGoesOn, hlen, if_pos hlt]
    exact ⟨rfl, rfl⟩
  · rw [State.hostGoesOn, hlen, if_neg (by omega), if_pos hr]
    exact ⟨rfl, rfl⟩

/-- A piece of a write is written whole, and the access waits with its rest. -/
theorem State.pieceStep_write (hr : r.bytes ≠ []) :
    let u := s.hostWrite ⟨r.onHost, r.addr + d.length⟩ ((r.bytes.drop d.length).take (hostPieceLen r d.length))
    (s.pieceStep r d).cores = u.cores ∧ Bytes u (s.pieceStep r d) ∧
    (d.length + hostPieceLen r d.length < hostSize r → (s.pieceStep r d).hostWork =
      s.hostWork ++ [(r, d ++ (r.bytes.drop d.length).take (hostPieceLen r d.length))]) ∧
    (d.length + hostPieceLen r d.length = hostSize r → (s.pieceStep r d).hostWork = s.hostWork) := by
  intro u
  have hpiece : s.hostPieceOf r d = (d ++ (r.bytes.drop d.length).take (hostPieceLen r d.length), u) := if_neg hr
  have hsize : hostSize r = r.bytes.length := if_neg hr
  have hle := (hostPieceLen_le r d.length).2
  have hlen : (d ++ (r.bytes.drop d.length).take (hostPieceLen r d.length)).length = d.length + hostPieceLen r d.length := by
    rw [List.length_append, List.length_take, List.length_drop]
    omega
  have hwork : u.hostWork = s.hostWork := (s.hostWrite_keeps _ _).2.2
  rw [State.pieceStep, hpiece]
  obtain ⟨hcores, hbytes⟩ := u.hostGoesOn_keeps r (d ++ (r.bytes.drop d.length).take (hostPieceLen r d.length))
  refine ⟨hcores, hbytes, fun hlt => ?_, fun heq => ?_⟩
  · rw [State.hostGoesOn, hlen, if_pos hlt, ← hwork]
  · rw [State.hostGoesOn, hlen, if_neg (by omega), if_neg hr, hwork]

/-- The piece of a write that is performed has its length. -/
theorem length_writePiece (hr : r.bytes ≠ []) :
    ((r.bytes.drop d.length).take (hostPieceLen r d.length)).length = hostPieceLen r d.length := by
  have hsize : hostSize r = r.bytes.length := if_neg hr
  have hle := (hostPieceLen_le r d.length).2
  rw [List.length_take, List.length_drop]
  omega

/-- What a piece of a write leaves of memory and registers. -/
theorem State.pieceStep_write_memory (hr : r.bytes ≠ []) :
    AllRegs s (s.pieceStep r d) ∧ (s.memWf = true →
      (s.pieceStep r d).bytesAt ⟨r.onHost, r.addr + d.length⟩ (hostPieceLen r d.length) =
        (r.bytes.drop d.length).take (hostPieceLen r d.length) ∧
      ∀ m : Loc, (m.onHost ≠ r.onHost ∨ m.addr < r.addr + d.length ∨ r.addr + d.length + hostPieceLen r d.length ≤ m.addr) →
        (s.pieceStep r d).byte m = s.byte m) := by
  obtain ⟨hcores, hbytes, -⟩ := State.pieceStep_write (s := s) (d := d) hr
  have hlen := length_writePiece (d := d) hr
  refine ⟨allRegs_trans (s.hostWrite_keeps _ _).1 (allRegs_of_cores hcores), fun hw => ⟨?_, fun m hout => ?_⟩⟩
  · have hwritten := State.bytesAt_hostWrite (l := ⟨r.onHost, r.addr + d.length⟩)
      (bs := (r.bytes.drop d.length).take (hostPieceLen r d.length)) hw
    rw [hlen] at hwritten
    rw [← hwritten]
    exact List.map_congr_left fun i _ => (hbytes _)
  · rw [hbytes, State.byte_hostWrite_outside hw (by rwa [hlen])]

end Piece

theorem exec_hostMemoryAccess_host {s : State} {r : HostAccess} (h : r.onHost = true) : exec (.hostMemoryAccess r) s =
    .next (if r.bytes = [] then { s with notices := s.notices ++ [.hostData (s.bytesAt ⟨r.onHost, r.addr⟩ r.len)] }
      else s.hostWrite ⟨r.onHost, r.addr⟩ r.bytes) := by
  change execHostMemoryAccess r s = _
  rw [execHostMemoryAccess, h]
  rfl

theorem exec_hostMemoryAccess_device {s : State} {r : HostAccess} (h : r.onHost = false) (hp : s.presented = true)
    (hin : r.addr + hostSize r ≤ hbmSize) : exec (.hostMemoryAccess r) s = .next (s.pieceStep r []) := by
  change execHostMemoryAccess r s = _
  rw [execHostMemoryAccess, h, hp, if_neg (by decide), if_neg (by simpa using hin), if_neg Bool.false_ne_true]
  rfl

/-- What a read by the host leaves, and its answer or its first piece. -/
def HostReads (s t : State) (r : HostAccess) (n : Nat) : Prop :=
  t.cores = s.cores ∧ Bytes s t ∧
    (n = hostSize r → t.notices = s.notices ++ [.hostData (s.bytesAt ⟨r.onHost, r.addr⟩ r.len)] ∧ t.hostWork = s.hostWork) ∧
    (n < hostSize r → t.notices = s.notices ∧ t.hostWork = s.hostWork ++ [(r, s.bytesAt ⟨r.onHost, r.addr⟩ n)])

/-- What a write by the host leaves, whole or its first piece. -/
def HostWrites (s t : State) (r : HostAccess) (n : Nat) : Prop :=
  AllRegs s t ∧ t.bytesAt ⟨r.onHost, r.addr⟩ n = r.bytes.take n ∧
    (∀ l : Loc, (l.onHost ≠ r.onHost ∨ l.addr < r.addr ∨ r.addr + n ≤ l.addr) → t.byte l = s.byte l) ∧
    (n = hostSize r → t.hostWork = s.hostWork) ∧ (n < hostSize r → t.hostWork = s.hostWork ++ [(r, r.bytes.take n)]) ∧
    ∀ k, ∀ e ∈ (t.core k).l1, e.1 ≠ (⟨r.onHost, r.addr⟩ : Loc).line

section Access
variable {s : State} {r : HostAccess}

theorem hostReads_host (h : r.onHost = true) (hr : r.bytes = []) :
    ∃ t, exec (.hostMemoryAccess r) s = .next t ∧ HostReads s t r (hostSize r) := by
  rw [exec_hostMemoryAccess_host h, if_pos hr]
  exact ⟨_, rfl, rfl, fun _ => rfl, fun _ => ⟨rfl, rfl⟩, fun hlt => absurd hlt (Nat.lt_irrefl _)⟩

theorem hostWrites_host (h : r.onHost = true) (hr : r.bytes ≠ []) (hw : s.memWf = true) :
    ∃ t, exec (.hostMemoryAccess r) s = .next t ∧ HostWrites s t r (hostSize r) := by
  have hsize : hostSize r = r.bytes.length := if_neg hr
  rw [exec_hostMemoryAccess_host h, if_neg hr, hsize]
  obtain ⟨hregs, -, hwork⟩ := s.hostWrite_keeps ⟨r.onHost, r.addr⟩ r.bytes
  refine ⟨_, rfl, hregs, ?_, fun l hout => State.byte_hostWrite_outside hw hout, fun _ => hwork,
    fun hlt => absurd hlt (hsize ▸ Nat.lt_irrefl _), State.l1_hostWrite hr⟩
  rw [List.take_length]
  exact State.bytesAt_hostWrite hw

theorem hostReads_device (h : r.onHost = false) (hp : s.presented = true) (hin : r.addr + hostSize r ≤ hbmSize)
    (hr : r.bytes = []) : ∃ t, exec (.hostMemoryAccess r) s = .next t ∧ HostReads s t r (hostPieceLen r 0) := by
  obtain ⟨hcores, hbytes, hlt, heq⟩ := State.pieceStep_read (s := s) (d := []) hr
  simp only [List.length_nil, Nat.zero_add, Nat.add_zero, List.nil_append] at hlt heq
  refine ⟨_, exec_hostMemoryAccess_device h hp hin, hcores, hbytes, fun hn => ?_, hlt⟩
  have hsize : hostSize r = r.len := if_pos hr
  obtain ⟨hwork, hnotices⟩ := heq hn
  rw [hn, hsize] at hnotices
  exact ⟨hnotices, hwork⟩

theorem hostWrites_device (h : r.onHost = false) (hp : s.presented = true) (hin : r.addr + hostSize r ≤ hbmSize) (hr : r.bytes ≠ [])
    (hw : s.memWf = true) : ∃ t, exec (.hostMemoryAccess r) s = .next t ∧ HostWrites s t r (hostPieceLen r 0) := by
  obtain ⟨hregs, hmem⟩ := State.pieceStep_write_memory (s := s) (d := []) hr
  obtain ⟨hcores, -, hlt, heq⟩ := State.pieceStep_write (s := s) (d := []) hr
  obtain ⟨hwritten, hout⟩ := hmem hw
  simp only [List.length_nil, Nat.zero_add, Nat.add_zero, List.nil_append, List.drop_zero] at hwritten hout hlt heq hcores
  have hsize : hostSize r = r.bytes.length := if_neg hr
  have hbytes : 0 < r.bytes.length := List.length_pos_iff.2 hr
  have hpos : 0 < hostPieceLen r 0 := hostPieceLen_pos (hsize ▸ hbytes)
  refine ⟨_, exec_hostMemoryAccess_device h hp hin, hregs, hwritten, hout, heq, hlt, fun k e he => ?_⟩
  rw [State.core, hcores] at he
  exact State.l1_hostWrite (List.ne_nil_of_length_pos (by rw [List.length_take]; omega)) k e he

end Access

theorem hostMemoryAccess_spec (s : State) (r : HostAccess)
    (h : r.onHost = true ∨ s.boot = .up ∧ (s.port0 = true ∨ s.port1 = true) ∧ r.addr + hostSize r ≤ hbmSize) :
    let n := if r.onHost = true then hostSize r else hostPieceLen r 0
    (r.bytes = [] → ∃ t, exec (.hostMemoryAccess r) s = .next t ∧ HostReads s t r n) ∧
    (r.bytes ≠ [] → s.hbm.wf = true → s.hostMem.wf = true → ∃ t, exec (.hostMemoryAccess r) s = .next t ∧ HostWrites s t r n) := by
  intro n
  by_cases hon : r.onHost = true
  · rw [show n = hostSize r from if_pos hon]
    exact ⟨hostReads_host hon, fun hr hw hw' => hostWrites_host hon hr (State.memWf_of hw hw')⟩
  · rw [show n = hostPieceLen r 0 from if_neg hon]
    obtain ⟨hup, hport, hin⟩ := h.resolve_left hon
    have hoff := Bool.eq_false_iff.2 hon
    have hp := presented_of hup hport
    exact ⟨hostReads_device hoff hp hin, fun hr hw hw' => hostWrites_device hoff hp hin hr (State.memWf_of hw hw')⟩

theorem hostPiece_spec (s : State) (r : HostAccess) (d : List Byte) (w : List (HostAccess × List Byte))
    (hwork : s.hostWork = (r, d) :: w) (hd : d.length < hostSize r) :
    let l : Loc := ⟨r.onHost, r.addr + d.length⟩
    let n := hostPieceLen r d.length
    AllRegs s s.hostPiece ∧ n ≤ 8 ∧ 0 < n ∧
    (r.bytes = [] → Bytes s s.hostPiece ∧
      (d.length + n = hostSize r → s.hostPiece.notices = s.notices ++ [.hostData (d ++ s.bytesAt l n)])) ∧
    (r.bytes ≠ [] → s.hbm.wf = true → s.hostMem.wf = true → s.hostPiece.bytesAt l n = (r.bytes.drop d.length).take n ∧
      ∀ m : Loc, (m.onHost ≠ r.onHost ∨ m.addr < l.addr ∨ l.addr + n ≤ m.addr) → s.hostPiece.byte m = s.byte m) ∧
    (d.length + n = hostSize r → s.hostPiece.hostWork = w) := by
  intro l n
  have hstep : s.hostPiece = State.pieceStep { s with hostWork := w } r d := by
    rw [State.hostPiece, hwork]
    rfl
  have hbase : AllRegs s { s with hostWork := w } := allRegs_of_cores rfl
  rw [hstep]
  have hle : n ≤ 8 := (hostPieceLen_le r d.length).1
  have hpos : 0 < n := hostPieceLen_pos hd
  by_cases hr : r.bytes = []
  · obtain ⟨hcores, hbytes, -, heq⟩ := State.pieceStep_read (s := { s with hostWork := w }) (d := d) hr
    exact ⟨allRegs_trans hbase (allRegs_of_cores hcores), hle, hpos, fun _ => ⟨hbytes, fun h => (heq h).2⟩,
      fun hne => absurd hr hne, fun h => (heq h).1⟩
  · obtain ⟨hregs, hmem⟩ := State.pieceStep_write_memory (s := { s with hostWork := w }) (d := d) hr
    obtain ⟨-, -, -, heq⟩ := State.pieceStep_write (s := { s with hostWork := w }) (d := d) hr
    exact ⟨allRegs_trans hbase hregs, hle, hpos, fun h => absurd h hr, fun _ hw hw' => hmem (State.memWf_of hw hw'), heq⟩

/-! ## Snoops (11 R298) -/

/-- A core's copy of a line is left shared. -/
def Core.shared (c : Core) (l : Loc) : Core := if (look c.l1 l).isSome then { c with l1 := put c.l1 l false } else c

theorem Core.shared_onlyWatches (c : Core) (l : Loc) : OnlyWatches c (c.shared l) := by
  unfold Core.shared
  split
  · exact .of_fcs rfl rfl
  · exact OnlyWatches.refl c

theorem Core.look_l1_shared (c : Core) (l : Loc) : look (c.shared l).l1 l ≠ some true := by
  unfold Core.shared
  split
  · rw [look_put_same]
    decide
  next h =>
    intro ht
    rw [ht] at h
    exact h rfl

/-- The state after a snoop, but for its answer. -/
def State.snooped (s : State) (l : Loc) (own : Bool) : State := if own then s.recall l else s.mapCores fun _ c => c.shared l

theorem State.snooped_lineMotion (s : State) (l : Loc) (own : Bool) : LineMotion s (s.snooped l own) := by
  unfold State.snooped
  split
  · exact s.recall_lineMotion l
  · exact s.mapCores_lineMotion fun _ c => c.shared_onlyWatches l

theorem State.presented_snooped (s : State) (l : Loc) (own : Bool) : (s.snooped l own).presented = s.presented := by
  cases own <;> rfl

theorem execHostSnoop_eq (line : Nat) (own : Bool) (s : State) : execHostSnoop line own s =
    .next (if !(s.snooped ⟨true, line⟩ own).presented then s.snooped ⟨true, line⟩ own else
      { s.snooped ⟨true, line⟩ own with notices := (s.snooped ⟨true, line⟩ own).notices ++
        [.snoopAnswer line (s.cores.any fun e => (look e.2.l1 ⟨true, line⟩).isSome)] }) := rfl

theorem State.l1_snooped (s : State) (l : Loc) (own : Bool) (k : CoreId) :
    (own = true → look ((s.snooped l own).core k).l1 l = none) ∧ look ((s.snooped l own).core k).l1 l ≠ some true := by
  cases own with
  | true =>
    have hnone : look ((s.snooped l true).core k).l1 l = none := s.look_l1_recall l k
    exact ⟨fun _ => hnone, by rw [hnone]; nofun⟩
  | false =>
    refine ⟨nofun, ?_⟩
    change look ((s.mapCores fun _ c => c.shared l).core k).l1 l ≠ some true
    obtain ⟨c, -, -, h⟩ | ⟨-, h⟩ := s.core_mapCores_or_reset (fun _ c => c.shared l) k
    · rw [h]
      exact c.look_l1_shared l
    · rw [h]
      exact nofun

theorem hostSnoop_spec (s : State) (line : Nat) (own : Bool) (hup : s.boot = .up) (hport : s.port0 = true ∨ s.port1 = true) :
    ∃ t held, exec (.hostSnoop line own) s = .next t ∧ AllRegs s t ∧ Bytes s t ∧
      t.notices = s.notices ++ [.snoopAnswer line held] ∧ (held = true ↔ ∃ e ∈ s.cores, (look e.2.l1 ⟨true, line⟩).isSome) ∧
      ∀ k, (own = true → look (t.core k).l1 ⟨true, line⟩ = none) ∧ look (t.core k).l1 ⟨true, line⟩ ≠ some true := by
  have hmotion := s.snooped_lineMotion ⟨true, line⟩ own
  have hexec := execHostSnoop_eq line own s
  rw [State.presented_snooped, presented_of hup hport, if_neg (by decide), hmotion.notices] at hexec
  exact ⟨_, _, hexec, hmotion.allRegs, hmotion.byte, rfl, List.any_eq_true, s.l1_snooped ⟨true, line⟩ own⟩

/-! ## Translations (11 R319, 04 R123) -/

/-- A context without the pages that are gone. -/
def Context.withoutPages (c : Context) (gone : PageGrant → Bool) : Context := { c with pages := c.pages.filter fun p => !gone p }

/-- A core whose MMUs have dropped the pages that are gone. -/
def Core.withoutPages (c : Core) (gone : PageGrant → Bool) : Core :=
  { c with mmu := c.mmu.filter fun p => !gone p, mmu2 := c.mmu2.filter fun p => !gone p }

/-- A context's pages that are gone have left it and its cores. -/
def State.withoutPages (s : State) (x : Nat) (gone : PageGrant → Bool) : State :=
  (s.modCtx x fun c => c.withoutPages gone).mapCores fun k c => if s.cxId k = x then c.withoutPages gone else c

/-- A core of a context still stores through a page that is gone. -/
def State.storesThrough (s : State) (x : Nat) (gone : PageGrant → Bool) : Bool :=
  s.cores.any fun e => s.cxId e.1 = x && ((s.ctx x).pages.filter gone).any fun p => e.2.storesIn p

theorem execAtsInvalidation_eq (x vpn n : Nat) (s : State) : execAtsInvalidation x vpn n s =
    if (look s.ctxs x).isNone || s.storesThrough x (pageMeets · (vpn * 4096) (n * 4096)) then .next s
    else .next (s.withoutPages x (pageMeets · (vpn * 4096) (n * 4096))) := rfl

theorem State.storesThrough_eq_false {s : State} {x : Nat} {gone : PageGrant → Bool}
    (h : ∀ e ∈ s.cores, s.cxId e.1 = x → ∀ p ∈ (s.ctx x).pages, gone p = true → e.2.storesIn p = false) :
    s.storesThrough x gone = false := by
  rw [State.storesThrough, List.any_eq_false]
  intro e he hany
  simp only [Bool.and_eq_true, decide_eq_true_eq, List.any_eq_true, List.mem_filter] at hany
  obtain ⟨hk, p, ⟨hp, hgone⟩, hs⟩ := hany
  exact Bool.false_ne_true ((h e he hk p hp hgone).symm.trans hs)

section WithoutPages
variable (s : State) (x : Nat) (gone : PageGrant → Bool)

theorem State.withoutPages_cacheMotion : CacheMotion s (s.withoutPages x gone) := by
  have hctx : CacheMotion s (s.modCtx x fun c => c.withoutPages gone) := .of_cores rfl rfl
  refine hctx.trans (State.mapCores_cacheMotion _ fun k c => ?_)
  split
  · exact .of_fcs rfl rfl
  · exact OnlyWatches.refl c

theorem State.mem_pages_withoutPages (p : PageGrant) :
    p ∈ ((s.withoutPages x gone).ctx x).pages ↔ p ∈ (s.ctx x).pages ∧ gone p = false := by
  have hctx : (s.withoutPages x gone).ctx x = (s.ctx x).withoutPages gone := s.ctx_modCtx_same x fun c => c.withoutPages gone
  rw [hctx, Context.withoutPages, List.mem_filter, Bool.not_eq_true']

variable {s x gone}

theorem State.mmu_withoutPages {k : CoreId} (hk : s.cxId k = x) :
    ∀ p ∈ ((s.withoutPages x gone).core k).mmu ++ ((s.withoutPages x gone).core k).mmu2, gone p = false := by
  intro p hp
  obtain ⟨c, -, -, h⟩ | ⟨-, h⟩ := (s.modCtx x fun c => c.withoutPages gone).core_mapCores_or_reset
    (fun k c => if s.cxId k = x then c.withoutPages gone else c) k
  · rw [State.withoutPages, h, if_pos hk, Core.withoutPages, ← List.filter_append, List.mem_filter, Bool.not_eq_true'] at hp
    exact hp.2
  · rw [State.withoutPages, h] at hp
    exact nomatch hp

end WithoutPages

theorem atsInvalidation_spec (s : State) (x vpn n : Nat) (hx : (look s.ctxs x).isSome = true)
    (hstores : ∀ e ∈ s.cores, s.cxId e.1 = x → ∀ p ∈ (s.ctx x).pages, pageMeets p (vpn * 4096) (n * 4096) = true →
      e.2.storesIn p = false) :
    ∃ t, exec (.atsInvalidation x vpn n) s = .next t ∧ AllRegs s t ∧ Bytes s t ∧
      (∀ p, p ∈ (t.ctx x).pages ↔ p ∈ (s.ctx x).pages ∧ pageMeets p (vpn * 4096) (n * 4096) = false) ∧
      ∀ k, s.cxId k = x → ∀ p ∈ (t.core k).mmu ++ (t.core k).mmu2, pageMeets p (vpn * 4096) (n * 4096) = false := by
  have hexec := execAtsInvalidation_eq x vpn n s
  rw [Option.isNone_eq_false_iff.2 hx, State.storesThrough_eq_false hstores, if_neg (by decide)] at hexec
  exact ⟨_, hexec, (s.withoutPages_cacheMotion x _).allRegs, fun _ => rfl, s.mem_pages_withoutPages x _,
    fun k hk => State.mmu_withoutPages hk⟩

/-- A context to which the host has given a page. -/
def Context.withPage (c : Context) (p : PageGrant) : Context :=
  { c with pages := (c.pages.filter fun q => !pageMeets q p.va p.size) ++ [p] }

/-- A notice asks for a page that the host has given. -/
def Notice.asksFor (x : Nat) (p : PageGrant) : Notice → Bool
  | .pageRequest y va => y = x && p.va ≤ va && va < p.va + p.size
  | _ => false

theorem execPriResponse_eq (x : Nat) (p : PageGrant) (s : State) : execPriResponse x p s =
    if (look s.ctxs x).isNone || !pageSound p then .next s
    else .next { s.modCtx x fun c => c.withPage p with notices := s.notices.filter fun n => !n.asksFor x p } := by
  have hnotices : (s.notices.filter fun n => !n.asksFor x p) = s.notices.filter fun n => match n with
      | .pageRequest y va => !(y = x && p.va ≤ va && va < p.va + p.size)
      | _ => true := List.filter_congr fun n _ => by cases n <;> rfl
  rw [hnotices]
  rfl

theorem priResponse_spec (s : State) (x : Nat) (p : PageGrant) (hx : (look s.ctxs x).isSome = true) (hp : pageSound p = true) :
    ∃ t, exec (.priResponse x p) s = .next t ∧ t.cores = s.cores ∧ Bytes s t ∧ p ∈ (t.ctx x).pages ∧
      ∀ va, p.va ≤ va → va < p.va + p.size → Notice.pageRequest x va ∉ t.notices := by
  have hexec := execPriResponse_eq x p s
  rw [Option.isNone_eq_false_iff.2 hx, hp, if_neg (by decide)] at hexec
  refine ⟨_, hexec, rfl, fun _ => rfl, ?_, fun va hlo hhi hmem => ?_⟩
  · have hctx : (s.modCtx x fun c => c.withPage p).ctx x = (s.ctx x).withPage p := s.ctx_modCtx_same x _
    have hpages : p ∈ ((s.modCtx x fun c => c.withPage p).ctx x).pages := by
      rw [hctx]
      exact List.mem_append_right _ List.mem_cons_self
    exact hpages
  · have hasks := (List.mem_filter.1 hmem).2
    simp [Notice.asksFor, hlo, hhi] at hasks

/-- Settles O31, by its six parts: AtomicOps, accesses, their pieces, snoops, invalidations and page answers. -/
theorem hostAccesses : Obligations.HostAccesses := by
  refine ⟨fun s r => ?_, hostMemoryAccess_spec, hostPiece_spec, hostSnoop_spec, atsInvalidation_spec, priResponse_spec⟩
  intro n old v hup hport
  have hp := presented_of hup hport
  refine ⟨fun hop hn halign hin hw hw' => ?_, fun h => ?_⟩
  · exact hostAtomicop_of_known hp ((hostOpKnown_iff r).2 ⟨hop, hn, halign, hin⟩) (State.memWf_of hw hw')
  · refine hostAtomicop_of_unknown hp (Bool.eq_false_iff.2 fun hk => ?_)
    obtain ⟨hop, hn, halign, hin⟩ := (hostOpKnown_iff r).1 hk
    rcases h with h | ⟨h4, h8⟩ | h | h
    · exact absurd hop (Nat.not_le.2 h)
    · exact hn.elim h4 h8
    · exact h halign
    · exact absurd hin (Nat.not_le.2 h)

end Sys2Proof.Machine
end

section
/-!
What tile lines that pass through their home slices leave as it was (05 R145 to R147): commands, handles, buffers, fabrics, and all of
a context but the versions of its tiles.
-/
namespace Sys2Proof.Machine

open Sys2Proof.Safety

/-! ## Cores -/

/-- d differs from c in nothing but its data L1, its event counters and what its contexts note. -/
structure OnlyLines (c d : Core) : Prop where
  core : { d with fcs := c.fcs, l1 := c.l1, counters := c.counters } = c
  fcs : ∀ n, OnlyWatch (c.fc n) (d.fc n)

theorem OnlyLines.refl (c : Core) : OnlyLines c c := ⟨rfl, fun _ => OnlyWatch.refl _⟩

theorem OnlyLines.trans {c d e : Core} (h : OnlyLines c d) (h' : OnlyLines d e) : OnlyLines c e where
  core := by
    have heq := congrArg (fun d : Core => { d with fcs := c.fcs, l1 := c.l1, counters := c.counters }) h'.core
    exact heq.trans h.core
  fcs n := (h.fcs n).trans (h'.fcs n)

/-- A part of a core that lines do not reach. -/
theorem OnlyLines.part {c d : Core} (h : OnlyLines c d) {α : Type} (f : Core → α)
    (hf : ∀ (c : Core) v l n, f { c with fcs := v, l1 := l, counters := n } = f c) : f d = f c :=
  (hf d c.fcs c.l1 c.counters).symm.trans (congrArg f h.core)

theorem OnlyLines.cmds {c d : Core} (h : OnlyLines c d) : d.cmds = c.cmds := h.part Core.cmds fun _ _ _ _ => rfl

theorem OnlyLines.fabric {c d : Core} (h : OnlyLines c d) : d.fabric = c.fabric := h.part Core.fabric fun _ _ _ _ => rfl

theorem OnlyLines.image {c d : Core} (h : OnlyLines c d) : d.image = c.image := h.part Core.image fun _ _ _ _ => rfl

theorem OnlyLines.handle {c d : Core} (h : OnlyLines c d) (i : Nat) : d.handle i = c.handle i :=
  h.part (fun c => c.handle i) fun _ _ _ _ => rfl

theorem OnlyLines.buf {c d : Core} (h : OnlyLines c d) (b : Buf) : d.buf b = c.buf b :=
  h.part (fun c => c.buf b) fun _ _ _ _ => by cases b <;> rfl

theorem Core.noteWrite_onlyLines (c : Core) (l : Loc) (w : Option (Fin 8)) : OnlyLines c (c.noteWrite l w) :=
  ⟨rfl, (c.noteWrite_onlyWatches l w).fcs⟩

theorem Core.event_onlyLines (c : Core) (ev n : Nat) (tagged : Bool) : OnlyLines c (c.event ev n tagged) :=
  ⟨rfl, fun _ => OnlyWatch.refl _⟩

/-! ## The package -/

/-- d differs from c in nothing but the versions of its tiles. -/
def OnlyTiles (c d : Context) : Prop := { d with tiles := c.tiles } = c

theorem OnlyTiles.refl (c : Context) : OnlyTiles c c := rfl

theorem OnlyTiles.trans {c d e : Context} (h : OnlyTiles c d) (h' : OnlyTiles d e) : OnlyTiles c e := by
  have heq := congrArg (fun d : Context => { d with tiles := c.tiles }) h'
  exact heq.trans h

/-- A part of a context that versions of tiles do not reach. -/
theorem OnlyTiles.part {c d : Context} (h : OnlyTiles c d) {α : Type} (f : Context → α)
    (hf : ∀ (c : Context) v, f { c with tiles := v } = f c) : f d = f c := (hf d c.tiles).symm.trans (congrArg f h)

/-- From s to t lines have passed through their home slices: of cores and contexts nothing else has changed. -/
structure LinesPass (s t : State) : Prop where
  now : t.now = s.now
  parts : t.parts = s.parts
  cores : ∀ k, OnlyLines (s.core k) (t.core k)
  ctxs : ∀ x, OnlyTiles (s.ctx x) (t.ctx x)

theorem LinesPass.of_eq {s t : State} (hn : t.now = s.now) (hp : t.parts = s.parts) (hc : t.cores = s.cores) (hx : t.ctxs = s.ctxs) :
    LinesPass s t :=
  ⟨hn, hp, fun k => by rw [State.core, State.core, hc]; exact OnlyLines.refl _,
    fun x => by rw [State.ctx, State.ctx, hx]; exact OnlyTiles.refl _⟩

theorem LinesPass.refl (s : State) : LinesPass s s := .of_eq rfl rfl rfl rfl

theorem LinesPass.trans {s t u : State} (h : LinesPass s t) (h' : LinesPass t u) : LinesPass s u :=
  ⟨h'.now.trans h.now, h'.parts.trans h.parts, fun k => (h.cores k).trans (h'.cores k), fun x => (h.ctxs x).trans (h'.ctxs x)⟩

theorem LinesPass.foldl {α : Type} {f : State → α → State} (hf : ∀ s a, LinesPass s (f s a)) (l : List α) (s : State) :
    LinesPass s (l.foldl f s) := by
  induction l generalizing s with
  | nil => exact LinesPass.refl s
  | cons a r ih => exact (hf s a).trans (ih _)

theorem LinesPass.cur {s t : State} (h : LinesPass s t) : OnlyLines s.cur t.cur := by
  rw [State.cur, State.cur, h.now]
  exact h.cores s.now

theorem LinesPass.x {s t : State} (h : LinesPass s t) : t.x = s.x := by
  rw [State.x, State.x, State.cxId, State.cxId, State.partOf, State.partOf, h.parts, h.now]

theorem LinesPass.allRegs {s t : State} (h : LinesPass s t) : AllRegs s t := fun k n => ((h.cores k).fcs n).sameRegs

theorem LinesPass.firing {s t : State} (h : LinesPass s t) (x fid : Nat) : (t.ctx x).firing fid = (s.ctx x).firing fid :=
  (h.ctxs x).part (fun c => c.firing fid) fun _ _ => rfl

theorem State.modCtx_linesPass (s : State) (x : Nat) {f : Context → Context} (hf : ∀ c, OnlyTiles c (f c)) :
    LinesPass s (s.modCtx x f) :=
  ⟨rfl, rfl, fun _ => OnlyLines.refl _, fun y => by
    by_cases h : x = y
    · subst h; rw [State.ctx_modCtx_same]; exact hf _
    · rw [State.ctx_modCtx_ne _ _ h]; exact OnlyTiles.refl _⟩

theorem State.modCore_linesPass (s : State) (k : CoreId) {f : Core → Core} (hf : ∀ c, OnlyLines c (f c)) :
    LinesPass s (s.modCore k f) :=
  ⟨rfl, rfl, fun j => by
    by_cases h : k = j
    · subst h; rw [State.core_modCore_same]; exact hf _
    · rw [State.core_modCore_ne _ _ h]; exact OnlyLines.refl _, fun _ => OnlyTiles.refl _⟩

theorem State.noteWrite_linesPass (s : State) (l : Loc) (w : Option (CoreId × Fin 8)) : LinesPass s (s.noteWrite l w) :=
  ⟨rfl, rfl, fun k => by
    obtain h | h := s.core_mapCores (fun k c => c.noteWrite l (w.bind fun w => if w.1 = k then some w.2 else none)) k
    · rw [State.noteWrite, h]; exact Core.noteWrite_onlyLines _ _ _
    · rw [State.noteWrite, h]; exact OnlyLines.refl _, fun _ => OnlyTiles.refl _⟩

theorem State.setBytes_linesPass (s : State) (l : Loc) (bs : List Byte) : LinesPass s (s.setBytes l bs) := by
  obtain ⟨m, h, e⟩ := State.setBytes_eq bs s l
  rw [e]
  exact .of_eq rfl rfl rfl rfl

/-! ## Lines that leave and come -/

theorem State.writeBack_linesPass (s : State) (x : Nat) (k : TileKey) : LinesPass s (s.writeBack x k) := by
  unfold State.writeBack
  extract_lets c h
  split
  · extract_lets e
    split
    · extract_lets old t u
      have ht : LinesPass s t := s.modCtx_linesPass x fun c => by
        dsimp only
        split <;> rfl
      exact (ht.trans (t.setBytes_linesPass _ _)).trans (.foldl (fun v _ => v.noteWrite_linesPass _ _) _ _)
    · exact LinesPass.refl s
  · exact LinesPass.refl s

theorem State.evictTile_linesPass (s : State) (l : L2Line) : LinesPass s (s.evictTile l) := by
  unfold State.evictTile
  extract_lets t
  have ht : LinesPass s t := .of_eq rfl rfl rfl rfl
  split
  · exact ht
  · split
    · exact ht.trans (t.writeBack_linesPass _ _)
    · split
      · exact ht.trans (t.modCtx_linesPass _ fun _ => rfl)
      · exact ht

theorem State.touchL2_linesPass (s : State) (x : Nat) (k : TileKey) (ver : Nat) (rows : List Nat) :
    LinesPass s (s.touchL2 x k ver rows) := by
  unfold State.touchL2
  split
  · exact LinesPass.refl s
  · extract_lets sl n mates
    split
    · exact .of_eq rfl rfl rfl rfl
    · split
      · exact .of_eq rfl rfl rfl rfl
      · split
        next v _ => exact (s.evictTile_linesPass v).trans (.of_eq rfl rfl rfl rfl)
        · exact LinesPass.refl s

/-- A tile line that an access of a command reaches passes through its home slice (05 R145). -/
theorem State.touchTile_linesPass (s : State) (x fid : Nat) (t : Tensor) (row col : Nat) (tagged : Bool) :
    LinesPass s (s.touchTile x fid t row col tagged) := by
  unfold State.touchTile
  split
  · exact LinesPass.refl s
  · extract_lets c k v near fresh u
    have hu : LinesPass s u := by
      unfold u
      split
      · exact LinesPass.refl s
      · exact s.modCore_linesPass _ fun c => c.event_onlyLines _ _ _
    exact hu.trans (u.touchL2_linesPass x k v [])

/-- Where its set has room a line comes into the L2, and nothing else changes (05 R145). -/
theorem State.touchL2_of_room {s : State} {x : Nat} {k : TileKey} {ver : Nat} {p : Partition} (rows : List Nat)
    (hp : s.ctxPart x = some p) (hroom : (s.l2.filter fun e => (⟨homeOf p.rect k, x, k, ver, rows⟩ : L2Line).mates e).length < 12) :
    { s.touchL2 x k ver rows with l2 := s.l2 } = s ∧
      ((s.touchL2 x k ver rows).l2.any fun e => e.slice = homeOf p.rect k && e.x = x && e.tile = k && e.ver = ver) = true := by
  rw [State.touchL2, hp]
  dsimp only
  split
  next e he => exact ⟨rfl, List.any_eq_true.2 ⟨_, List.mem_cons_self, (List.find?_some he :)⟩⟩
  next =>
    rw [if_pos hroom]
    exact ⟨rfl, List.any_eq_true.2 ⟨_, List.mem_cons_self, by simp⟩⟩

end Sys2Proof.Machine
end

section
/-!
Units of work of commands that fill or drain slots of handles (05 R151 to R153): what a unit leaves to its command, to its handle and
to everything else.
-/
namespace Sys2Proof.Machine

open Sys2Proof.Safety

/-! ## Typed buffers and handles of a core -/

/-- d differs from c in nothing but typed buffers, full-empty bits, the read cache and handles. -/
def OnlySlots (c d : Core) : Prop :=
  { d with
    bufW := c.bufW, bufA := c.bufA, bufC := c.bufC, fullW := c.fullW, fullA := c.fullA, fullC := c.fullC, bcache := c.bcache
    handles := c.handles } = c

theorem OnlySlots.refl (c : Core) : OnlySlots c c := rfl

theorem OnlySlots.trans {c d e : Core} (h : OnlySlots c d) (h' : OnlySlots d e) : OnlySlots c e := by
  have heq := congrArg (fun d : Core => { d with
    bufW := c.bufW, bufA := c.bufA, bufC := c.bufC, fullW := c.fullW, fullA := c.fullA, fullC := c.fullC, bcache := c.bcache
    handles := c.handles }) h'
  exact heq.trans h

/-- A part of a core that slots do not reach. -/
theorem OnlySlots.part {c d : Core} (h : OnlySlots c d) {α : Type} (f : Core → α)
    (hf : ∀ (c : Core) w a b x y z r l,
      f { c with bufW := w, bufA := a, bufC := b, fullW := x, fullA := y, fullC := z, bcache := r, handles := l } = f c) : f d = f c :=
  (hf d c.bufW c.bufA c.bufC c.fullW c.fullA c.fullC c.bcache c.handles).symm.trans (congrArg f h)

theorem Core.setFullRange_spec (c : Core) (b : Buf) (a n : Nat) (v : Bool) :
    OnlySlots c (c.setFullRange b a n v) ∧ (c.setFullRange b a n v).handles = c.handles ∧
      ∀ y, (c.setFullRange b a n v).buf y = c.buf y := by
  unfold Core.setFullRange
  generalize upto _ = l
  induction l generalizing c with
  | nil => exact ⟨rfl, rfl, fun _ => rfl⟩
  | cons i r ih =>
    obtain ⟨honly, hh, hb⟩ := ih (c.setFull b (a / 16 + i) v)
    have hset : OnlySlots c (c.setFull b (a / 16 + i) v) ∧ (c.setFull b (a / 16 + i) v).handles = c.handles := by
      cases b <;> exact ⟨rfl, rfl⟩
    exact ⟨hset.1.trans honly, hh.trans hset.2, fun y => (hb y).trans (Core.buf_setFull _ _ _ _ _)⟩

theorem Core.handle_of_handles {c d : Core} (h : d.handles = c.handles) (i : Nat) : d.handle i = c.handle i := by
  rw [Core.handle, Core.handle, h]

theorem Core.handle_setHandle_same (c : Core) (h : Nat) (d : Handle) : (c.setHandle h d).handle h = d :=
  congrArg (fun o : Option Handle => o.getD Handle.unbound) (look_put_same _ _ _)

theorem Core.handle_setHandle_ne (c : Core) {h j : Nat} (d : Handle) (hj : j ≠ h) : (c.setHandle h d).handle j = c.handle j :=
  congrArg (fun o : Option Handle => o.getD Handle.unbound) (look_put_ne _ _ hj.symm)

theorem Core.buf_setHandle (c : Core) (h : Nat) (d : Handle) (b : Buf) : (c.setHandle h d).buf b = c.buf b := by
  cases b <;> rfl

/-! ## One unit in a producer's slot -/

/-- Bytes written in a buffer read as written. -/
theorem Memory.bytes_putBytes_same {m : Memory} (h : m.wf = true) (a : Nat) (bs : List Byte) :
    (m.putBytes a bs).bytes a bs.length = bs := by
  have := Memory.bytes_putBytes_part h a (bs := bs) (off := 0) (n := bs.length) (by omega)
  rwa [Nat.add_zero, List.drop_zero, List.take_length] at this

/-- What a unit of bytes in the producer's slot of handle h leaves (05 R151). -/
theorem Core.putUnit_spec (c : Core) (h u total per : Nat) (bs : List Byte) :
    let d := c.handle h
    let t := c.putUnit h u total per bs
    ((c.buf d.buffer).wf = true → t.bufBytes d.buffer (d.slotAt d.prod + u % per * bs.length) bs.length = bs) ∧
      t.handle h = (if u % per + 1 = per ∨ u + 1 = total then d.produce 1 else d) ∧ (∀ j, j ≠ h → t.handle j = c.handle j) ∧
      OnlySlots c t := by
  intro d t
  let a := d.slotAt d.prod + u % per * bs.length
  obtain ⟨hfull, hfh, hfb⟩ := (c.putBuf d.buffer a bs).setFullRange_spec d.buffer a bs.length true
  let f := c.fillSlot h (u % per * bs.length) bs
  have hput : OnlySlots c (c.putBuf d.buffer a bs) ∧ (c.putBuf d.buffer a bs).handles = c.handles := by
    cases d.buffer <;> exact ⟨rfl, rfl⟩
  have hfhandle (j : Nat) : f.handle j = c.handle j := Core.handle_of_handles (hfh.trans hput.2) j
  have hfbuf : f.buf d.buffer = (c.buf d.buffer).putBytes a bs := (hfb _).trans ((c.buf_putBuf _ _ _ _).trans (if_pos rfl))
  have hfonly : OnlySlots c f := hput.1.trans hfull
  have ht : t = if u % per + 1 = per ∨ u + 1 = total then f.endFill h else f := by
    simp only [t, Core.putUnit, Bool.or_eq_true, decide_eq_true_eq, f]
  obtain ⟨geonly, gehandles, gebuf⟩ := f.setFullRange_spec (f.handle h).buffer ((f.handle h).slotAt (f.handle h).prod) (f.handle h).bytes true
  have hend : OnlySlots c (f.endFill h) ∧ (f.endFill h).handle h = d.produce 1 ∧ (∀ j, j ≠ h → (f.endFill h).handle j = c.handle j) ∧
      (f.endFill h).buf d.buffer = (c.buf d.buffer).putBytes a bs := by
    refine ⟨(hfonly.trans geonly).trans rfl, ?_, fun j hj => ?_, ?_⟩
    · exact (Core.handle_setHandle_same _ _ _).trans (by rw [hfhandle])
    · exact (Core.handle_setHandle_ne _ _ hj).trans ((Core.handle_of_handles gehandles j).trans (hfhandle j))
    · exact (Core.buf_setHandle _ _ _ _).trans ((gebuf _).trans hfbuf)
  have hbytes {e : Core} (he : e.buf d.buffer = (c.buf d.buffer).putBytes a bs) (hw : (c.buf d.buffer).wf = true) :
      e.bufBytes d.buffer a bs.length = bs := by
    rw [Core.bufBytes, he]
    exact Memory.bytes_putBytes_same hw a bs
  rw [ht]
  split
  · exact ⟨hbytes hend.2.2.2, hend.2.1, hend.2.2.1, hend.1⟩
  · exact ⟨hbytes hfbuf, hfhandle h, fun j _ => hfhandle j, hfonly⟩

/-! ## Units that leave a consumer's slot -/

/-- From s to t only the consumer's side of handle h of the acting core has moved: granules of its slots, its counts, and the pins on
what it has released. -/
structure Consumes (s t : State) (h : Nat) : Prop where
  now : t.now = s.now
  hbm : t.hbm = s.hbm
  hostMem : t.hostMem = s.hostMem
  others : ∀ k, k ≠ s.now → t.core k = s.core k
  core : OnlySlots s.cur t.cur
  bufs : ∀ b, t.cur.buf b = s.cur.buf b
  handles : ∀ j, j ≠ h → t.cur.handle j = s.cur.handle j
  ctxs : ∀ x, { t.ctx x with pins := (s.ctx x).pins } = s.ctx x

theorem Consumes.refl (s : State) (h : Nat) : Consumes s s h :=
  ⟨rfl, rfl, rfl, fun _ _ => rfl, OnlySlots.refl _, fun _ => rfl, fun _ _ => rfl, fun _ => rfl⟩

theorem Consumes.trans {s t u : State} {h : Nat} (a : Consumes s t h) (b : Consumes t u h) : Consumes s u h where
  now := b.now.trans a.now
  hbm := b.hbm.trans a.hbm
  hostMem := b.hostMem.trans a.hostMem
  others k hk := (b.others k (a.now.symm ▸ hk)).trans (a.others k hk)
  core := a.core.trans b.core
  bufs y := (b.bufs y).trans (a.bufs y)
  handles j hj := (b.handles j hj).trans (a.handles j hj)
  ctxs x := by
    have heq := congrArg (fun c : Context => { c with pins := (s.ctx x).pins }) (b.ctxs x)
    exact heq.trans (a.ctxs x)

theorem Consumes.firings {s t : State} {h : Nat} (a : Consumes s t h) (x : Nat) : (t.ctx x).firings = (s.ctx x).firings := by
  have heq := congrArg Context.firings (a.ctxs x)
  exact heq

theorem State.modCore_consumes (s : State) (h : Nat) {f : Core → Core} (hf : OnlySlots s.cur (f s.cur))
    (hb : ∀ b, (f s.cur).buf b = s.cur.buf b) (hh : ∀ j, j ≠ h → (f s.cur).handle j = s.cur.handle j) :
    Consumes s (s.modCore s.now f) h where
  now := rfl
  hbm := rfl
  hostMem := rfl
  others k hk := s.core_modCore_ne f hk.symm
  core := by rw [s.cur_modCore]; exact hf
  bufs b := by rw [s.cur_modCore]; exact hb b
  handles j hj := by rw [s.cur_modCore]; exact hh j hj
  ctxs _ := rfl

theorem State.drainSlot_consumes (s : State) (h j off n : Nat) :
    Consumes s (s.modCore s.now fun k => k.drainSlot h off n) j ∧
      ∀ i, (s.modCore s.now fun k => k.drainSlot h off n).cur.handle i = s.cur.handle i := by
  obtain ⟨honly, hh, hb⟩ := s.cur.setFullRange_spec (s.cur.handle h).buffer ((s.cur.handle h).slotAt (s.cur.handle h).cons + off) n false
  refine ⟨s.modCore_consumes j honly hb fun i _ => Core.handle_of_handles hh i, fun i => ?_⟩
  rw [s.cur_modCore]
  exact Core.handle_of_handles hh i

theorem State.releaseSlots_consumes (s : State) (h j : Nat) (slots : List Nat) :
    Consumes s (s.releaseSlots h slots) j ∧ (s.releaseSlots h slots).cur = s.cur := by
  obtain ⟨⟨cs, heq⟩, hsame, hne⟩ := s.releaseSlots_spec h slots
  rw [heq] at hsame hne ⊢
  refine ⟨⟨rfl, rfl, rfl, fun _ _ => rfl, rfl, fun _ => rfl, fun _ _ => rfl, fun x => ?_⟩, rfl⟩
  by_cases hx : x = s.x
  · subst hx
    rw [hsame]
    rfl
  · rw [hne x hx]

/-- The consumer of handle h releases its slot (05 R151). -/
theorem State.endDrain_spec (s : State) (h : Nat) :
    Consumes s (s.endDrain h) h ∧ (s.endDrain h).cur.handle h = (s.cur.handle h).consume 1 := by
  obtain ⟨hrel, hcur⟩ := s.releaseSlots_consumes h h [(s.cur.handle h).cons]
  unfold State.endDrain
  extract_lets slot
  generalize s.releaseSlots h [(s.cur.handle h).cons] = u at hrel hcur
  obtain ⟨honly, hh, hb⟩ := s.cur.setFullRange_spec (s.cur.handle h).buffer ((s.cur.handle h).slotAt (s.cur.handle h).cons)
    (s.cur.handle h).bytes false
  rw [← hrel.now]
  refine ⟨hrel.trans (u.modCore_consumes h ?_ (fun b => ?_) fun j hj => ?_), ?_⟩
  · rw [hcur]
    exact honly.trans rfl
  · rw [hcur]
    exact (Core.buf_setHandle _ _ _ _).trans (hb b)
  · rw [hcur]
    exact (Core.handle_setHandle_ne _ _ hj).trans (Core.handle_of_handles hh j)
  · rw [u.cur_modCore, hcur]
    exact Core.handle_setHandle_same _ _ _

/-- What a unit that leaves the consumer's slot of handle h leaves (05 R151). -/
theorem State.readUnit_spec (s : State) (h u total per n : Nat) :
    Consumes s (s.readUnit h u total per n) h ∧ (s.readUnit h u total per n).cur.handle h =
      if u % per + 1 = per ∨ u + 1 = total then (s.cur.handle h).consume 1 else s.cur.handle h := by
  obtain ⟨hdrain, hh⟩ := s.drainSlot_consumes h h (u % per * n) n
  unfold State.readUnit
  simp only [Bool.or_eq_true, decide_eq_true_eq]
  generalize (s.modCore s.now fun k => k.drainSlot h (u % per * n) n) = v at hdrain hh
  split
  · obtain ⟨hend, hcons⟩ := v.endDrain_spec h
    exact ⟨hdrain.trans hend, hcons.trans (by rw [hh])⟩
  · exact ⟨hdrain, hh h⟩

theorem State.indexUsed_consumes (s : State) (h n count : Nat) : Consumes s (s.indexUsed h n count) h := by
  unfold State.indexUsed
  extract_lets per u
  have hu : Consumes s u h := by
    unfold u
    split
    · exact (s.drainSlot_consumes h h _ _).1
    · exact Consumes.refl s h
  split
  · exact hu.trans (u.endDrain_spec h).1
  · exact hu

/-! ## What a unit leaves to commands and contexts -/

/-- From s to t the acting core keeps its commands, and every context its registers. -/
structure KeepsCommands (s t : State) : Prop where
  now : t.now = s.now
  cmds : t.cur.cmds = s.cur.cmds
  regs : AllRegs s t

theorem KeepsCommands.refl (s : State) : KeepsCommands s s := ⟨rfl, rfl, fun _ _ => SameRegs.refl _⟩

theorem KeepsCommands.trans {s t u : State} (h : KeepsCommands s t) (h' : KeepsCommands t u) : KeepsCommands s u :=
  ⟨h'.now.trans h.now, h'.cmds.trans h.cmds, allRegs_trans h.regs h'.regs⟩

theorem KeepsCommands.of_cores {s t : State} (hn : t.now = s.now) (hc : t.cores = s.cores) : KeepsCommands s t :=
  ⟨hn, by rw [State.cur, State.cur, State.core, State.core, hn, hc], allRegs_of_cores hc⟩

theorem LinesPass.keepsCommands {s t : State} (h : LinesPass s t) : KeepsCommands s t := ⟨h.now, h.cur.cmds, h.allRegs⟩

theorem State.modCore_keepsCommands (s : State) {f : Core → Core} (hc : (f s.cur).cmds = s.cur.cmds) (hf : (f s.cur).fcs = s.cur.fcs) :
    KeepsCommands s (s.modCore s.now f) where
  now := rfl
  cmds := by rw [s.cur_modCore]; exact hc
  regs := s.modCore_allRegs _ fun n => by
    rw [Core.fc, Core.fc, show (f (s.core s.now)).fcs = (s.core s.now).fcs from hf]
    exact SameRegs.refl _

theorem OnlySlots.cmds {c d : Core} (h : OnlySlots c d) : d.cmds = c.cmds := h.part Core.cmds fun _ _ _ _ _ _ _ _ _ => rfl

theorem OnlySlots.fcs {c d : Core} (h : OnlySlots c d) : d.fcs = c.fcs := h.part Core.fcs fun _ _ _ _ _ _ _ _ _ => rfl

theorem OnlySlots.fabric {c d : Core} (h : OnlySlots c d) : d.fabric = c.fabric := h.part Core.fabric fun _ _ _ _ _ _ _ _ _ => rfl

theorem Consumes.keepsCommands {s t : State} {h : Nat} (a : Consumes s t h) : KeepsCommands s t where
  now := a.now
  cmds := a.core.cmds
  regs k n := by
    by_cases hk : k = s.now
    · subst hk
      have hcur : t.cur = t.core s.now := congrArg t.core a.now
      rw [Core.fc, Core.fc, ← hcur, a.core.fcs]
      exact SameRegs.refl _
    · rw [a.others k hk]
      exact SameRegs.refl _

theorem bytes_of_mem {s t : State} (h : t.hbm = s.hbm) (h' : t.hostMem = s.hostMem) : Bytes s t := fun l => by
  rw [State.byte, State.byte, h, h']

theorem Consumes.bytes {s t : State} {h : Nat} (a : Consumes s t h) : Bytes s t := bytes_of_mem a.hbm a.hostMem

/-- A command changes after a step that kept it, its core's other commands and every register; n is the state whose memory the step
has kept. -/
theorem becomesBy_modCmd {n s u : State} {e : CmdEntry} (hkeep : KeepsCommands s u) (hbytes : Bytes n u)
    (he : s.cur.cmdEntry e.id = some e) {f : CmdEntry → CmdEntry} (hf : ∀ d, (f d).id = d.id) :
    BecomesBy n s (u.modCmd e.id f) (f e) := by
  have heu : u.cur.cmdEntry e.id = some e := by rw [Core.cmdEntry, hkeep.cmds]; exact he
  obtain ⟨hentry, -, hregs⟩ := becomes_modCmd hkeep.regs (s := s) (u := { u with hbm := s.hbm, hostMem := s.hostMem })
    (bytes_of_mem rfl rfl) heu hf
  exact ⟨hentry, hbytes, hregs⟩

/-- A command that has performed everything completes. -/
theorem finishes_cmdDone {s : State} {i : Instr} {e : CmdEntry} {n : Nat} (hexec : exec i s = .next (s.cmdDone e.id n))
    (he : s.cur.cmdEntry e.id = some e) : Finishes i s e n :=
  ⟨_, hexec, becomesBy_modCmd (KeepsCommands.refl s) (fun _ => rfl) he (f := fun d => { d with stage := .performed, count := n })
    fun _ => rfl⟩

end Sys2Proof.Machine
end

section
/-!
Commands that move tile lines and rows between tensors and slots (05 R163 to R166, R176).
-/
namespace Sys2Proof.Machine

open Sys2Proof.Safety

/-! ## One unit of a command -/

theorem State.buf_modCmd (s : State) (id : Nat) (f : CmdEntry → CmdEntry) (b : Buf) : (s.modCmd id f).cur.buf b = s.cur.buf b := by
  rw [State.modCmd, State.cur_modCore]
  cases b <;> rfl

theorem State.handle_modCmd (s : State) (id : Nat) (f : CmdEntry → CmdEntry) (h : Nat) :
    (s.modCmd id f).cur.handle h = s.cur.handle h := by
  rw [State.modCmd, State.cur_modCore]
  rfl

theorem fills_of_eq {s t u : State} {h n total per : Nat} {bs : List Byte} (hf : Fills s t h n total per bs)
    (hb : ∀ b, u.cur.buf b = t.cur.buf b) (hh : u.cur.handle h = t.cur.handle h) : Fills s u h n total per bs := by
  obtain ⟨hbytes, hhandle⟩ := hf
  refine ⟨fun hw => ?_, hh.trans hhandle⟩
  rw [Core.bufBytes, hb]
  exact hbytes hw

/-- A unit of bytes enters the producer's slot of handle h, after lines have passed: n is the state whose memory has been kept. -/
theorem State.putUnit_unit {n s u : State} {e : CmdEntry} (hkeep : KeepsCommands s u) (hcur : OnlyLines s.cur u.cur) (hn : Bytes n u)
    (h total size : Nat) (bs : List Byte) :
    let w := u.modCore u.now fun k => k.putUnit h e.pos total ((k.handle h).bytes / size) bs
    KeepsCommands s w ∧ Bytes n w ∧ Fills s w h e.pos total ((s.cur.handle h).bytes / size) bs := by
  intro w
  obtain ⟨hbytes, hh, -, honly⟩ := u.cur.putUnit_spec h e.pos total ((u.cur.handle h).bytes / size) bs
  have hw : w.cur = u.cur.putUnit h e.pos total ((u.cur.handle h).bytes / size) bs := u.cur_modCore _
  rw [← hw, hcur.handle] at hbytes hh
  refine ⟨hkeep.trans (u.modCore_keepsCommands honly.cmds honly.fcs), hn, fun hwf => hbytes (by rwa [hcur.buf]), hh⟩

section Units
variable {s : State} {c : Cmd} {e : CmdEntry} {t : Tensor}

theorem State.withTensor_of_some {id : Nat} (ht : (s.ctx s.x).tensor id = some t) (k : Tensor → Res) : s.withTensor e id k = k t := by
  rw [State.withTensor, ht]

theorem State.tryCmd_ok {α : Type} (port : Nat) {r : Except TErr α} {v : α} (hr : r = .ok v) (k : α → Res) :
    s.tryCmd e port r k = k v := by
  rw [hr]
  rfl

/-! ## `tfetch` (05 R163) -/

/-- A pin joins those of the acting core's context, where its line lies in the tensor. -/
def State.withPin (s : State) (inside : Bool) (p : Pin) : State :=
  if inside then s.modCtx s.x fun x => { x with pins := x.pins ++ [p] } else s

theorem State.cores_withPin (s : State) (inside : Bool) (p : Pin) : (s.withPin inside p).cores = s.cores := by
  unfold State.withPin
  split <;> rfl

theorem State.withPin_spec (s : State) (inside : Bool) (p : Pin) : KeepsCommands s (s.withPin inside p) ∧
    (s.withPin inside p).cur = s.cur ∧ Bytes s (s.withPin inside p) ∧ (inside = true → p ∈ ((s.withPin inside p).ctx s.x).pins) := by
  cases inside
  · exact ⟨KeepsCommands.refl s, rfl, fun _ => rfl, nofun⟩
  · refine ⟨.of_cores rfl rfl, rfl, fun _ => rfl, fun _ => ?_⟩
    rw [State.withPin, if_pos rfl, State.ctx_modCtx_same]
    exact List.mem_append_right _ List.mem_cons_self

/-- A command that fetches finds its rectangle moved, or takes its next line where a slot is free. -/
theorem exec_tfetch (hw : AtWork s 0x05 c e) (ht : (s.ctx s.x).tensor (TRect.of c.operand.toNat).tensor = some t) :
    let r := TRect.of c.operand.toNat
    let h := c.hA.toNat
    (e.pos = r.count → exec (.tfetch c) s = .next (s.cmdDone e.id (1024 * r.count))) ∧
    ∀ bs, e.pos ≠ r.count → s.cur.mayFill e.id h = true →
      s.fetchTile s.x e.fid t (r.walk e.pos).1 (r.walk e.pos).2 = .ok bs →
      let key : TileKey := (t.id, (r.walk e.pos).1, (r.walk e.pos).2)
      let inside := t.hasTile (r.walk e.pos).1 (r.walk e.pos).2
      (inside = true → s.mayPin s.x e.fid key = true) →
      let near := (s.touchTile s.x e.fid t (r.walk e.pos).1 (r.walk e.pos).2 c.e).withPin inside
        ⟨key, s.now, h, (s.cur.handle h).prod, e.fid, (s.ctx s.x).pinLatch e.fid key⟩
      exec (.tfetch c) s = .next ((near.modCore near.now fun k => k.putUnit h e.pos r.count (k.linesPerSlot h) bs).cmdMoves e.id 1024) := by
  intro r h
  have hexec : exec (.tfetch c) s = _ := (hw.withCmd _).trans (State.withTensor_of_some (e := e) ht _)
  refine ⟨fun hpos => hexec.trans (if_pos hpos), fun bs hpos hfill hfetch => ?_⟩
  intro key inside hpin near
  have hgo : (inside && !s.mayPin s.x e.fid key) = false := by
    cases hin : inside
    · rfl
    · rw [hpin hin]; rfl
  refine hexec.trans ((if_neg hpos).trans ((if_neg (by simp [hfill, h])).trans ((State.tryCmd_ok 1 hfetch _).trans ?_)))
  exact if_neg (Bool.eq_false_iff.1 hgo)

theorem tfetch_spec (hw : AtWork s 0x05 c e) (ht : (s.ctx s.x).tensor (TRect.of c.operand.toNat).tensor = some t) :
    let r := TRect.of c.operand.toNat
    let h := c.hA.toNat
    let d := s.cur.handle h
    let per := s.cur.linesPerSlot h
    (e.pos = r.count → Finishes (.tfetch c) s e (1024 * r.count)) ∧
    (∀ bs, e.pos ≠ r.count → s.cur.mayFill e.id h = true →
      s.fetchTile s.x e.fid t (r.walk e.pos).1 (r.walk e.pos).2 = .ok bs →
      let key : TileKey := (t.id, (r.walk e.pos).1, (r.walk e.pos).2)
      (t.hasTile (r.walk e.pos).1 (r.walk e.pos).2 = true → s.mayPin s.x e.fid key = true) →
      ∃ u, exec (.tfetch c) s = .next u ∧
        BecomesBy (s.touchTile s.x e.fid t (r.walk e.pos).1 (r.walk e.pos).2 c.e) s u (Moved e 1024) ∧ Fills s u h e.pos r.count per bs ∧
        (t.hasTile (r.walk e.pos).1 (r.walk e.pos).2 = true →
          (⟨key, s.now, h, d.prod, e.fid, (s.ctx s.x).pinLatch e.fid key⟩ : Pin) ∈ (u.ctx s.x).pins)) := by
  intro r h d per
  obtain ⟨hdone, hunit⟩ := exec_tfetch hw ht
  refine ⟨fun hpos => finishes_cmdDone (hdone hpos) hw.cmdEntry, fun bs hpos hfill hfetch => ?_⟩
  intro key hpin
  have hexec := hunit bs hpos hfill hfetch hpin
  have hnear := s.touchTile_linesPass s.x e.fid t (r.walk e.pos).1 (r.walk e.pos).2 c.e
  have hx := hnear.x
  generalize s.touchTile s.x e.fid t (r.walk e.pos).1 (r.walk e.pos).2 c.e = near at hexec hnear hx ⊢
  obtain ⟨hkeep, hcur, hbytes, hmem⟩ := near.withPin_spec (t.hasTile (r.walk e.pos).1 (r.walk e.pos).2)
    ⟨key, s.now, h, d.prod, e.fid, (s.ctx s.x).pinLatch e.fid key⟩
  obtain ⟨hk, hb, hfills⟩ := State.putUnit_unit (e := e) (hnear.keepsCommands.trans hkeep) (by rw [hcur]; exact hnear.cur) hbytes h r.count
    1024 bs
  refine ⟨_, hexec, becomesBy_modCmd hk hb hw.cmdEntry fun _ => rfl,
    fills_of_eq hfills (State.buf_modCmd _ _ _) (State.handle_modCmd _ _ _ _), fun hin => ?_⟩
  have hpinned := hmem hin
  rw [hx] at hpinned
  exact hpinned

/-! ## `subs` (05 R164) -/

theorem subs_spec (hw : AtWork s 0x06 c e) (ht : (s.ctx s.x).tensor (TRect.of c.operand.toNat).tensor = some t) :
    let r := TRect.of c.operand.toNat
    let h := c.hA.toNat
    let per := s.cur.linesPerSlot h
    let total := r.count * (c.cflags.toNat + 1)
    (e.pos = total → Finishes (.streamSubs c) s e (1024 * total)) ∧
    ∀ bs, e.pos ≠ total → s.cur.mayFill e.id h = true →
      s.fetchTile s.x e.fid t (r.walk (e.pos % r.count)).1 (r.walk (e.pos % r.count)).2 = .ok bs →
      let near := s.touchTile s.x e.fid t (r.walk (e.pos % r.count)).1 (r.walk (e.pos % r.count)).2 c.e
      ∃ u, exec (.streamSubs c) s = .next u ∧ BecomesBy near s u (Moved e 1024) ∧ Fills s u h e.pos total per bs ∧
        u.ctxs = near.ctxs := by
  intro r h per total
  have hexec : exec (.streamSubs c) s = _ := (hw.withCmd _).trans (State.withTensor_of_some (e := e) ht _)
  refine ⟨fun hpos => finishes_cmdDone (hexec.trans (if_pos hpos)) hw.cmdEntry, fun bs hpos hfill hfetch => ?_⟩
  intro near
  have hunit := hexec.trans ((if_neg hpos).trans ((if_neg (by simp [hfill, h])).trans (State.tryCmd_ok 2 hfetch _)))
  have hnear : LinesPass s near := s.touchTile_linesPass s.x e.fid t _ _ c.e
  obtain ⟨hk, hb, hfills⟩ := State.putUnit_unit (n := near) (e := e) hnear.keepsCommands hnear.cur (fun _ => rfl) h total 1024 bs
  exact ⟨_, hunit, becomesBy_modCmd hk hb hw.cmdEntry fun _ => rfl,
    fills_of_eq hfills (State.buf_modCmd _ _ _) (State.handle_modCmd _ _ _ _), rfl⟩

/-! ## `pull` (05 R165) -/

/-- A write to a tile changes contexts alone (05 R146). -/
theorem State.writeTile_eq {u : State} {x fid row col : Nat} {f : List Byte → List Byte} (h : s.writeTile x fid t row col f = .ok u) :
    ∃ cs, u = { s with ctxs := cs } := by
  have hmod (g : Firing → Firing) (h : Except.ok (s.modFiring x fid g) = (.ok u : Except TErr State)) : ∃ cs, u = { s with ctxs := cs } := by
    obtain ⟨cs, hcs⟩ := s.modFiring_eq x fid g
    exact ⟨cs, (Except.ok.inj h).symm.trans hcs⟩
  unfold State.writeTile at h
  extract_lets cx g p e key new at h
  split at h
  · exact ⟨s.ctxs, (Except.ok.inj h).symm⟩
  split at h
  · exact nomatch h
  split at h
  · exact nomatch h
  split at h
  · exact nomatch h
  split at h
  · exact hmod _ h
  split at h
  · exact nomatch h
  split at h
  · exact hmod _ h
  · exact nomatch h

theorem pull_spec (hw : AtWork s 0x07 c e) (ht : (s.ctx s.x).tensor (TRect.of c.operand.toNat).tensor = some t) :
    let r := TRect.of c.operand.toNat
    let h := c.hA.toNat
    let per := s.cur.linesPerSlot h
    (e.pos = r.count → Finishes (.pull c) s e (1024 * r.count)) ∧
    ∀ u, e.pos ≠ r.count → s.cur.mayDrain e.id h = true →
      s.writeTile s.x e.fid t (r.walk e.pos).1 (r.walk e.pos).2 (fun _ => s.cur.slotBytes h (e.pos % per * 1024) 1024) = .ok u →
      ∃ v, exec (.pull c) s = .next v ∧
        BecomesBy (u.touchTile s.x e.fid t (r.walk e.pos).1 (r.walk e.pos).2 c.e) s v (Moved e 1024) ∧ Drains s v h e.pos r.count per ∧
        (v.ctx s.x).firing e.fid = (u.ctx s.x).firing e.fid := by
  intro r h per
  have hexec : exec (.pull c) s = _ := (hw.withCmd _).trans (State.withTensor_of_some (e := e) ht _)
  refine ⟨fun hpos => finishes_cmdDone (hexec.trans (if_pos hpos)) hw.cmdEntry, fun u hpos hdrain hwrite => ?_⟩
  have hunit := hexec.trans ((if_neg hpos).trans ((if_neg (by simp [hdrain, h])).trans (State.tryCmd_ok 2 hwrite _)))
  obtain ⟨cs, rfl⟩ := State.writeTile_eq hwrite
  let u : State := { s with ctxs := cs }
  have hu : KeepsCommands s u := .of_cores rfl rfl
  have hnear := u.touchTile_linesPass s.x e.fid t (r.walk e.pos).1 (r.walk e.pos).2 c.e
  change exec (.pull c) s = .next (State.cmdMoves (State.readUnit (u.touchTile s.x e.fid t _ _ c.e) h e.pos r.count per 1024) e.id 1024)
    at hunit
  generalize u.touchTile s.x e.fid t (r.walk e.pos).1 (r.walk e.pos).2 c.e = near at hunit hnear ⊢
  obtain ⟨hcons, hh⟩ := near.readUnit_spec h e.pos r.count per 1024
  have hhandle : near.cur.handle h = s.cur.handle h := hnear.cur.handle h
  refine ⟨_, hunit, becomesBy_modCmd ((hu.trans hnear.keepsCommands).trans hcons.keepsCommands) hcons.bytes hw.cmdEntry fun _ => rfl, ?_, ?_⟩
  · rw [Drains, State.cmdMoves, State.handle_modCmd, hh, hhandle]
  · have hf : ((State.readUnit near h e.pos r.count per 1024).ctx s.x).firing e.fid = (near.ctx s.x).firing e.fid := by
      rw [Context.firing, hcons.firings, Context.firing]
    exact hf.trans (hnear.firing s.x e.fid)

/-! ## `pref` (05 R176) -/

theorem pref_spec (hw : AtWork s 0x32 c e) (ht : (s.ctx s.x).tensor (TRect.of c.operand.toNat).tensor = some t) :
    let r := TRect.of c.operand.toNat
    (∀ k ∈ r.tiles t, (((s.ctx s.x).firing e.fid).leaseCheck t k.1 k.2).isSome ∨ ∃ bs, s.readTile s.x e.fid t k.1 k.2 = .ok bs) →
    let near := (r.tiles t).filter fun k => (((s.ctx s.x).firing e.fid).leaseCheck t k.1 k.2).isNone
    ∃ u, exec (.streamPref c) s = .next u ∧
      BecomesBy (near.foldl (fun u k => u.touchTile s.x e.fid t k.1 k.2 c.e) s) s u
        { e with stage := .performed, count := 1024 * r.count } := by
  intro r hok near
  have hexec : exec (.streamPref c) s = _ := (hw.withCmd _).trans (State.withTensor_of_some (e := e) ht _)
  have hnear : LinesPass s (near.foldl (fun u k => u.touchTile s.x e.fid t k.1 k.2 c.e) s) :=
    .foldl (fun u k => u.touchTile_linesPass s.x e.fid t k.1 k.2 c.e) near s
  dsimp only at hexec
  split at hexec
  next bad hbad =>
    obtain ⟨k, hk, hfault⟩ := List.exists_of_findSome?_eq_some hbad
    obtain hl | ⟨bs, hbs⟩ := hok k hk
    · simp [hl] at hfault
    · simp [hbs] at hfault
  next =>
    exact ⟨_, hexec, becomesBy_modCmd hnear.keepsCommands (fun _ => rfl) hw.cmdEntry
      (f := fun d => { d with stage := .performed, count := 1024 * r.count }) fun _ => rfl⟩

/-! ## `gath` and `scat` (05 R166) -/

/-- An index is used once its row has moved. -/
def State.indexUsedIf (s : State) (whole : Prop) [Decidable whole] (h n count : Nat) : State :=
  if whole then s.indexUsed h n count else s

theorem State.indexUsedIf_consumes (s : State) (whole : Prop) [Decidable whole] (h n count : Nat) :
    Consumes s (s.indexUsedIf whole h n count) h := by
  unfold State.indexUsedIf
  split
  · exact s.indexUsed_consumes h n count
  · exact Consumes.refl s h

theorem length_tileRow {bs : List Byte} (h : bs.length = 1024) (v : Nat) : (tileRow bs v).length = 64 := by
  rw [tileRow, List.length_take, List.length_drop]
  omega

/-- A row that `gath` puts in the slots of handle a, its index taken from handle b. -/
theorem State.gath_unit {n near : State} (he : s.cur.cmdEntry e.id = some e) (hkeep : KeepsCommands s near)
    (hcur : OnlyLines s.cur near.cur) (hn : Bytes n near) {a b : Nat} (hab : a ≠ b) (total : Nat) (bs : List Byte) (whole : Prop)
    [Decidable whole] (i count : Nat) :
    let u := near.modCore near.now fun k => k.putUnit a e.pos total ((k.handle a).bytes / 64) bs
    let w := (u.indexUsedIf whole b i count).cmdMoves e.id 64
    BecomesBy n s w (Moved e 64) ∧ Fills s w a e.pos total ((s.cur.handle a).bytes / 64) bs := by
  intro u w
  obtain ⟨hk, hb, hfills⟩ := State.putUnit_unit (e := e) hkeep hcur hn a total 64 bs
  have hcons : Consumes u (u.indexUsedIf whole b i count) b := u.indexUsedIf_consumes whole b i count
  refine ⟨becomesBy_modCmd (hk.trans hcons.keepsCommands) (fun l => (hcons.bytes l).trans (hb l)) he fun _ => rfl,
    fills_of_eq hfills (fun y => ?_) ?_⟩
  · exact (State.buf_modCmd _ _ _ _).trans (hcons.bufs y)
  · exact (State.handle_modCmd _ _ _ _).trans (hcons.handles a hab)

/-- A row that `scat` takes from the slots of handle a, its index taken from handle b. -/
theorem State.scat_unit {near : State} (he : s.cur.cmdEntry e.id = some e) (hkeep : KeepsCommands s near)
    (hcur : OnlyLines s.cur near.cur) {a b : Nat} (hab : a ≠ b) (total per : Nat) (whole : Prop)
    [Decidable whole] (i count : Nat) :
    let w := ((near.readUnit a e.pos total per 64).indexUsedIf whole b i count).cmdMoves e.id 64
    BecomesBy near s w (Moved e 64) ∧ Drains s w a e.pos total per ∧ (w.ctx s.x).firings = (near.ctx s.x).firings := by
  intro w
  obtain ⟨hread, hh⟩ := near.readUnit_spec a e.pos total per 64
  rw [hcur.handle] at hh
  have hcons := (near.readUnit a e.pos total per 64).indexUsedIf_consumes whole b i count
  refine ⟨becomesBy_modCmd ((hkeep.trans hread.keepsCommands).trans hcons.keepsCommands) (fun l => (hcons.bytes l).trans (hread.bytes l))
    he fun _ => rfl, ?_, (hcons.firings s.x).trans (hread.firings s.x)⟩
  exact ((State.handle_modCmd _ _ _ _).trans (hcons.handles a hab)).trans hh

theorem gath_spec (hw : AtWork s 0x08 c e) (ht : (s.ctx s.x).tensor (Gather.of c.operand.toNat).tensor = some t)
    (hab : c.hA.toNat ≠ c.hB.toNat) :
    let g := Gather.of c.operand.toNat
    let a := c.hA.toNat
    let b := c.hB.toNat
    let total := g.count * g.cols
    let v := s.cur.indexAt b (e.pos / g.cols)
    let inside : Prop := 0 ≤ v ∧ v < t.rows
    (e.pos = total → Finishes (.gath c) s e (64 * total)) ∧
    (e.pos ≠ total → s.cur.mayFill e.id a = true → s.cur.mayDrain e.id b = true →
      (¬inside → ∃ u, exec (.gath c) s = .next u ∧ Becomes s u (Moved e 64) ∧
        Fills s u a e.pos total ((s.cur.handle a).bytes / 64) (List.replicate 64 0)) ∧
      ∀ bs, inside → s.fetchTile s.x e.fid t (v.toNat / 16) (g.col0 + e.pos % g.cols) = .ok bs → bs.length = 1024 →
        ∃ u, exec (.gath c) s = .next u ∧
          BecomesBy (s.touchTile s.x e.fid t (v.toNat / 16) (g.col0 + e.pos % g.cols) c.e) s u (Moved e 64) ∧
          Fills s u a e.pos total ((s.cur.handle a).bytes / 64) (tileRow bs v.toNat)) := by
  intro g a b total v inside
  have hexec : exec (.gath c) s = _ := (hw.withCmd _).trans (State.withTensor_of_some (e := e) ht _)
  refine ⟨fun hpos => finishes_cmdDone (hexec.trans (if_pos hpos)) hw.cmdEntry, fun hpos hfill hdrain => ?_⟩
  have hrow := hexec.trans ((if_neg hpos).trans (if_neg (by simp only [a, b] at hfill hdrain; simp [hfill, hdrain])))
  refine ⟨fun hout => ?_, fun bs hin hfetch hlen => ?_⟩
  · have hcond : (!(decide (0 ≤ v) && decide (v < t.rows))) = true := by simp [inside] at hout ⊢; omega
    obtain ⟨hb, hf⟩ := State.gath_unit hw.cmdEntry (KeepsCommands.refl s) (OnlyLines.refl _) (fun _ => rfl) hab total (List.replicate 64 0)
      (e.pos % g.cols + 1 = g.cols) (e.pos / g.cols) g.count
    exact ⟨_, hrow.trans (if_pos hcond), hb, hf⟩
  · have hcond : ¬(!(decide (0 ≤ v) && decide (v < t.rows))) = true := by simpa [inside] using hin
    have hnear : LinesPass s _ := s.touchTile_linesPass s.x e.fid t (v.toNat / 16) (g.col0 + e.pos % g.cols) c.e
    obtain ⟨hb, hf⟩ := State.gath_unit hw.cmdEntry hnear.keepsCommands hnear.cur (fun _ => rfl) hab total (tileRow bs v.toNat)
      (e.pos % g.cols + 1 = g.cols) (e.pos / g.cols) g.count
    exact ⟨_, hrow.trans ((if_neg hcond).trans (State.tryCmd_ok 2 hfetch _)), hb, hf⟩

theorem scat_spec (hw : AtWork s 0x09 c e) (ht : (s.ctx s.x).tensor (Gather.of c.operand.toNat).tensor = some t)
    (hab : c.hA.toNat ≠ c.hB.toNat) :
    let g := Gather.of c.operand.toNat
    let a := c.hA.toNat
    let b := c.hB.toNat
    let total := g.count * g.cols
    let v := s.cur.indexAt b (e.pos / g.cols)
    let inside : Prop := 0 ≤ v ∧ v < t.rows
    (e.pos = total → Finishes (.scat c) s e (64 * total)) ∧
    (e.pos ≠ total → s.cur.mayDrain e.id a = true → s.cur.mayDrain e.id b = true →
      (¬inside → ∃ u, exec (.scat c) s = .next u ∧ Becomes s u (Moved e 64) ∧
        Drains s u a e.pos total ((s.cur.handle a).bytes / 64) ∧ (u.ctx s.x).firings = (s.ctx s.x).firings) ∧
      ∀ w, inside → s.writeTile s.x e.fid t (v.toNat / 16) (g.col0 + e.pos % g.cols) (fun old =>
          old.take (v.toNat % 16 * 64) ++ s.cur.slotBytes a (e.pos % ((s.cur.handle a).bytes / 64) * 64) 64 ++
            old.drop (v.toNat % 16 * 64 + 64)) = .ok w →
        ∃ u, exec (.scat c) s = .next u ∧
          BecomesBy (w.touchTile s.x e.fid t (v.toNat / 16) (g.col0 + e.pos % g.cols) c.e) s u (Moved e 64) ∧
          Drains s u a e.pos total ((s.cur.handle a).bytes / 64) ∧ (u.ctx s.x).firing e.fid = (w.ctx s.x).firing e.fid) := by
  intro g a b total v inside
  have hexec : exec (.scat c) s = _ := (hw.withCmd _).trans (State.withTensor_of_some (e := e) ht _)
  refine ⟨fun hpos => finishes_cmdDone (hexec.trans (if_pos hpos)) hw.cmdEntry, fun hpos hdrain hdrain' => ?_⟩
  have hrow := hexec.trans ((if_neg hpos).trans (if_neg (by simp only [a, b] at hdrain hdrain'; simp [hdrain, hdrain'])))
  refine ⟨fun hout => ?_, fun w hin hwrite => ?_⟩
  · have hcond : (decide (v < 0) || decide (t.rows ≤ v.toNat)) = true := by simp [inside] at hout ⊢; omega
    obtain ⟨hb, hd, hf⟩ := State.scat_unit (s := s) hw.cmdEntry (KeepsCommands.refl s) (OnlyLines.refl _) hab total
      ((s.cur.handle a).bytes / 64) (e.pos % g.cols + 1 = g.cols) (e.pos / g.cols) g.count
    exact ⟨_, hrow.trans (if_pos hcond), hb, hd, hf⟩
  · have hcond : ¬(decide (v < 0) || decide (t.rows ≤ v.toNat)) = true := by simp [inside] at hin ⊢; omega
    have hunit := hrow.trans ((if_neg hcond).trans (State.tryCmd_ok 2 hwrite _))
    obtain ⟨cs, rfl⟩ := State.writeTile_eq hwrite
    let w : State := { s with ctxs := cs }
    have hkeep : KeepsCommands s w := .of_cores rfl rfl
    have hnear : LinesPass w _ := w.touchTile_linesPass s.x e.fid t (v.toNat / 16) (g.col0 + e.pos % g.cols) c.e
    have hfiring := hnear.firing s.x e.fid
    change exec (.scat c) s = .next (State.cmdMoves (((w.touchTile s.x e.fid t (v.toNat / 16) (g.col0 + e.pos % g.cols) c.e).readUnit
      a e.pos total ((s.cur.handle a).bytes / 64) 64).indexUsedIf (e.pos % g.cols + 1 = g.cols) b (e.pos / g.cols) g.count) e.id 64)
      at hunit
    generalize w.touchTile s.x e.fid t (v.toNat / 16) (g.col0 + e.pos % g.cols) c.e = near at hunit hnear hfiring ⊢
    obtain ⟨hb, hd, hf⟩ := State.scat_unit hw.cmdEntry (hkeep.trans hnear.keepsCommands) hnear.cur hab total
      ((s.cur.handle a).bytes / 64) (e.pos % g.cols + 1 = g.cols) (e.pos / g.cols) g.count
    refine ⟨_, hunit, hb, hd, ?_⟩
    rw [Context.firing, hf]
    exact hfiring

end Units

/-- Settles O19: an equation for each command's step, of which a unit in a slot (`Core.putUnit_spec`, `State.readUnit_spec`) and lines
that pass through their home slices (`LinesPass`) give the rest. -/
theorem tileLineCommands : Obligations.TileLineCommands := by
  unfold Obligations.TileLineCommands
  refine ⟨fun s x k ver rows p hp hroom => State.touchL2_of_room rows hp hroom, fun s c e t => ?_, fun s c e t => ?_⟩
  · intro r h d per ht
    exact ⟨fun hw => tfetch_spec hw ht, fun hw => subs_spec hw ht, fun hw => pull_spec hw ht, fun hw => pref_spec hw ht⟩
  · intro g a b total v inside ht hab
    exact ⟨fun hw => gath_spec hw ht hab, fun hw => scat_spec hw ht hab⟩

end Sys2Proof.Machine
end

section
/-!
Writes of system registers (13 R375 to R382, 14 R405, R406): what each leaves alone, and what it leaves to later reads.
-/
namespace Sys2Proof.Machine

open Sys2Proof.Safety

/-! ## What a write leaves alone -/

/-- From s to t a register has been written outside general registers, typed buffers, dies and memory. -/
structure RegisterWrite (s t : State) : Prop where
  hbm : t.hbm = s.hbm
  hostMem : t.hostMem = s.hostMem
  dies : t.dies = s.dies
  context : { t.fc with aflags := s.fc.aflags } = s.fc
  bufs : ∀ b, t.cur.buf b = s.cur.buf b ∧ t.cur.fullOf b = s.cur.fullOf b

/-- A write that leaves cores alone. -/
theorem RegisterWrite.of_cores {s t : State} (hn : t.now = s.now) (hc : t.cores = s.cores) (hm : t.hbm = s.hbm)
    (hh : t.hostMem = s.hostMem) (hd : t.dies = s.dies) : RegisterWrite s t := by
  have hcur : t.cur = s.cur := by rw [State.cur, State.cur, State.core, State.core, hn, hc]
  exact ⟨hm, hh, hd, by rw [State.fc, State.fc, hcur], fun b => by rw [hcur]; exact ⟨rfl, rfl⟩⟩

theorem RegisterWrite.refl (s : State) : RegisterWrite s s := .of_cores rfl rfl rfl rfl rfl

/-- d has the typed buffers of c with their full-empty bits. -/
def SameBuffers (c d : Core) : Prop :=
  d.bufW = c.bufW ∧ d.bufA = c.bufA ∧ d.bufC = c.bufC ∧ d.fullW = c.fullW ∧ d.fullA = c.fullA ∧ d.fullC = c.fullC

theorem SameBuffers.bufs {c d : Core} (h : SameBuffers c d) (b : Buf) : d.buf b = c.buf b ∧ d.fullOf b = c.fullOf b := by
  obtain ⟨hw, ha, hc, hw', ha', hc'⟩ := h
  cases b
  · exact ⟨hw, hw'⟩
  · exact ⟨ha, ha'⟩
  · exact ⟨hc, hc'⟩

/-- A write of a core's register outside its firing contexts. -/
theorem State.modCore_registerWrite (s : State) {f : Core → Core} (hf : (f s.cur).fcs = s.cur.fcs) (hr : (f s.cur).run = s.cur.run)
    (hb : SameBuffers s.cur (f s.cur)) : RegisterWrite s (s.modCore s.now f) where
  hbm := rfl
  hostMem := rfl
  dies := rfl
  context := by rw [State.fc, State.cur_modCore, Core.fc, hf, hr]; rfl
  bufs b := by rw [State.cur_modCore]; exact hb.bufs b

theorem State.foldl_modCluster_eq (f : Nat → Cluster → Cluster) (l : List Nat) (s : State) :
    ∃ cls, l.foldl (fun t c => t.modCluster c (f c)) s = { s with clusters := cls } := by
  induction l generalizing s with
  | nil => exact ⟨_, rfl⟩
  | cons c r ih =>
    obtain ⟨cls, h⟩ := ih (s.modCluster c (f c))
    exact ⟨cls, h⟩

/-- A write of a register of the context, where there is one. -/
theorem State.ctxOp_registerWrite (s : State) (f : Context → Context) :
    RegisterWrite s (if (look s.ctxs s.x).isSome then s.modCtx s.x f else s) := by
  split
  · exact .of_cores rfl rfl rfl rfl rfl
  · exact RegisterWrite.refl s

theorem State.sysWrite_registerWrite (s : State) (n : Nat) (w : Word) : RegisterWrite s (s.sysWrite n w) := by
  have hcore {f : Core → Core} (hf : (f s.cur).fcs = s.cur.fcs) (hr : (f s.cur).run = s.cur.run) (hb : SameBuffers s.cur (f s.cur)) :
      RegisterWrite s (s.modCore s.now f) := s.modCore_registerWrite hf hr hb
  have hcl (m : Nat) (f : Cluster → Cluster) : RegisterWrite s (s.modCluster m f) := .of_cores rfl rfl rfl rfl rfl
  unfold State.sysWrite
  extract_lets v x cl ctxOp
  have hctx (f : Context → Context) : RegisterWrite s (ctxOp f) := s.ctxOp_registerWrite f
  split
  case h_1 | h_4 | h_5 | h_6 | h_7 => exact hctx _
  case h_2 =>
    refine ⟨rfl, rfl, rfl, ?_, fun b => ?_⟩
    · rw [State.fc_setFc]
    · rw [State.cur_setFc]; exact SameBuffers.bufs ⟨rfl, rfl, rfl, rfl, rfl, rfl⟩ b
  case h_3 | h_8 | h_9 => exact hcore rfl rfl ⟨rfl, rfl, rfl, rfl, rfl, rfl⟩
  case h_10 | h_11 | h_13 | h_14 | h_15 => exact hcl _ _
  case h_12 =>
    split
    · exact RegisterWrite.refl s
    · extract_lets u
      obtain ⟨cls, h⟩ := State.foldl_modCluster_eq _ _ u
      rw [h]
      exact .of_cores rfl rfl rfl rfl rfl
  case h_16 =>
    split
    · exact hcore rfl rfl ⟨rfl, rfl, rfl, rfl, rfl, rfl⟩
    · split
      · exact hctx _
      · exact RegisterWrite.refl s

/-- A word that writes a register ends as every other word does. -/
theorem RegisterWrite.advance_spec {s t : State} (h : RegisterWrite s t) :
    KeepsRegs s t.advance ∧ (∀ l, t.advance.byte l = s.byte l) ∧ FallsThrough s t.advance ∧
      (∀ b, t.advance.cur.buf b = s.cur.buf b ∧ t.advance.cur.fullOf b = s.cur.fullOf b) ∧ t.advance.dies = s.dies := by
  have hfc {α : Type} (p : FiringCtx → α) (hp : ∀ (f : FiringCtx) a, p { f with aflags := a } = p f) : p t.fc = p s.fc :=
    (hp _ _).symm.trans (congrArg p h.context)
  refine ⟨State.keepsRegs_advance_of (hfc _ fun _ _ => rfl) (hfc _ fun _ _ => rfl)
      ⟨hfc _ fun _ _ => rfl, hfc _ fun _ _ => rfl, hfc _ fun _ _ => rfl⟩, fun l => ?_,
    State.fallsThrough_advance_of (hfc _ fun _ _ => rfl) (hfc _ fun _ _ => rfl), fun b => ?_, h.dies⟩
  · exact bytes_of_mem (t := t.advance) h.hbm h.hostMem l
  · rw [← (h.bufs b).1, ← (h.bufs b).2, State.advance, State.cur_setFc]
    cases b <;> exact ⟨rfl, rfl⟩

/-! ## `mtsy` -/

theorem sysGuarded_eq_privateToWrite (n : Nat) : sysGuarded n = privateToWrite n := by
  rw [Bool.eq_iff_iff]
  simp [sysGuarded, sysHidden, privateToWrite, privateToRead]
  omega

theorem sysnoNamed_of_privateToWrite {n : Nat} (h : privateToWrite n = true) : sysnoNamed n = true := by
  simp [privateToWrite, privateToRead] at h
  simp [sysnoNamed]
  omega

section Mtsy
variable {s : State} {a : Fin 32} {r : BitVec 12}

theorem exec_mtsy_unnamed (h : sysnoNamed r.toNat = false) : exec (.mtsy a r) s = .next (s.raise 0x01 0 0) :=
  if_pos (by rw [h]; rfl)

theorem exec_mtsy_private (h : privateToWrite r.toNat = true) (hp : (s.ctx s.x).priv = false) :
    exec (.mtsy a r) s = .next (s.raise 0x14 0 0) :=
  (if_neg (by rw [sysnoNamed_of_privateToWrite h]; nofun)).trans
    (if_pos (by rw [sysGuarded_eq_privateToWrite, h, State.privileged, hp]; rfl))

theorem exec_mtsy_allowed (h : sysnoNamed r.toNat = true) (hv : privateToWrite r.toNat = false ∨ (s.ctx s.x).priv = true) :
    exec (.mtsy a r) s = if 0x100 ≤ r.toNat then
        match s.bindHandle (r.toNat - 0x100) (s.g a).toNat with
        | none => .next (s.raise 0x08 0 0)
        | some h => .next (s.modCore s.now fun c => c.setHandle (r.toNat - 0x100) h).advance
      else .next (s.sysWrite r.toNat (s.g a)).advance :=
  (if_neg (by rw [h]; nofun)).trans (if_neg (by
    rw [sysGuarded_eq_privateToWrite, State.privileged]
    obtain hv | hv := hv <;> simp [hv]))

/-- A register that is no handle takes what the view that may write it writes. -/
theorem exec_mtsy_register (h : sysnoNamed r.toNat = true) (hr : r.toNat < 0x100)
    (hv : privateToWrite r.toNat = false ∨ (s.ctx s.x).priv = true) :
    exec (.mtsy a r) s = .next (s.sysWrite r.toNat (s.g a)).advance :=
  (exec_mtsy_allowed h hv).trans (if_neg (by omega))

theorem exec_mtsy_handle (h1 : 0x100 ≤ r.toNat) (h2 : r.toNat < 0x140) :
    exec (.mtsy a r) s = match s.bindHandle (r.toNat - 0x100) (s.g a).toNat with
      | none => .next (s.raise 0x08 0 0)
      | some h => .next (s.modCore s.now fun c => c.setHandle (r.toNat - 0x100) h).advance := by
  have hnamed : sysnoNamed r.toNat = true := by simp [sysnoNamed]; omega
  have hopen : privateToWrite r.toNat = false := by
    rw [Bool.eq_false_iff]
    intro h
    simp [privateToWrite, privateToRead] at h
    omega
  exact (exec_mtsy_allowed hnamed (.inl hopen)).trans (if_pos h1)

end Mtsy

/-! ## Handle descriptors (05 R150) -/

theorem State.bindHandle_busy {s : State} {h : Nat} (hb : s.handleBusy h = true) (v : Nat) : s.bindHandle h v = none := if_pos hb

theorem bitOf_top {v : Nat} (hv : v < 2 ^ 64) : bitOf v 63 = true ↔ v / 2 ^ 63 = 1 := by
  rw [bitOf, decide_eq_true_eq]
  omega

/-- The descriptor that a write leaves: all slots free, and pointers at 0. -/
theorem State.bindHandle_spec {s : State} {h v : Nat} {d : Handle} (hd : s.bindHandle h v = some d) :
    d.fill = 0 ∧ d.prod = 0 ∧ d.cons = 0 ∧ d.v = bitOf v 63 ∧ (d.v = true → d.free = v / 2 ^ 48 % 256 + 1) := by
  unfold State.bindHandle at hd
  extract_lets slots e at hd
  have he : e.fill = 0 ∧ e.prod = 0 ∧ e.cons = 0 ∧ e.v = bitOf v 63 ∧ (e.v = true → e.free = v / 2 ^ 48 % 256 + 1) :=
    ⟨rfl, rfl, rfl, rfl, fun hv => if_pos hv⟩
  split at hd
  · exact nomatch hd
  split at hd
  · exact Option.some.inj hd ▸ he
  split at hd
  · exact nomatch hd
  split at hd
  · exact nomatch hd
  · exact Option.some.inj hd ▸ he

theorem State.bindHandle_unbound {s : State} {h v : Nat} (hb : s.handleBusy h = false) (hv : bitOf v 63 = false) :
    ∃ d, s.bindHandle h v = some d ∧ d.v = false :=
  ⟨_, (if_neg (by rw [hb]; nofun)).trans (if_pos (by rw [hv]; rfl)), hv⟩

theorem systemRegisterWrites : SystemRegisterWrites := by
  unfold SystemRegisterWrites
  intro s a r
  refine ⟨fun hn hr hv => ⟨_, exec_mtsy_register hn hr hv, ?_⟩, exec_mtsy_private, exec_mtsy_unnamed, fun h1 h2 hb => ?_,
    fun h1 h2 hb hv => ?_⟩
  · exact (s.sysWrite_registerWrite r.toNat (s.g a)).advance_spec
  · rw [exec_mtsy_handle h1 h2, State.bindHandle_busy hb]
  · have htop : bitOf (s.g a).toNat 63 = false := by
      rw [bitOf, hv]
      rfl
    obtain ⟨d, hd, hdv⟩ := State.bindHandle_unbound hb htop
    obtain ⟨hh, -, -, hregs, honly, hfalls⟩ := s.setHandle_advance_spec (r.toNat - 0x100) d
    refine ⟨_, by rw [exec_mtsy_handle h1 h2, hd], ?_, hregs, honly, hfalls⟩
    rw [hh]
    exact hdv

end Sys2Proof.Machine
end

section
/-!
What writes of system registers leave in them (11 R312, 13 R380, 14 R405, R406).
-/
namespace Sys2Proof.Machine

open Sys2Proof.Safety

theorem bitOf_eq_testBit (v n : Nat) : bitOf v n = v.testBit n := by rw [bitOf, Nat.testBit_eq_decide_div_mod_eq]

/-! ## Registers of cores and contexts -/

/-- What a privileged `mtsy` leaves is what the write of its register does. -/
theorem exec_mtsy_privileged {s : State} (hp : (s.ctx s.x).priv = true) (a : Fin 32) {r : BitVec 12} (hn : sysnoNamed r.toNat = true)
    (hr : r.toNat < 0x100) {P : State → Prop} (hP : P (s.sysWrite r.toNat (s.g a)).advance) : ∃ t, exec (.mtsy a r) s = .next t ∧ P t :=
  ⟨_, exec_mtsy_register hn hr (.inr hp), hP⟩

/-- A write of a register of the context, where there is one. -/
theorem State.sysWrite_datum {s : State} (hx : (look s.ctxs s.x).isSome) (w : Word) :
    s.sysWrite 0x021 w = s.modCtx s.x fun c => c.writeDatum w.toNat := if_pos hx

theorem State.sysWrite_aflags (s : State) (w : Word) :
    s.sysWrite 0x008 w = s.setFc { s.fc with aflags := s.fc.aflags.written w.toNat } := rfl

theorem State.sysWrite_nflags (s : State) (w : Word) :
    s.sysWrite 0x009 w = s.modCore s.now fun c => { c with nflags := c.nflags.written w.toNat } := rfl

theorem State.sysWrite_guard (s : State) (w : Word) :
    s.sysWrite 0x023 w = s.modCore s.now fun c => { c with guard := w.toNat % 2 ^ 32 } := rfl

theorem State.aflags_advance (s : State) : s.advance.fc.aflags = s.fc.aflags :=
  (congrArg FiringCtx.aflags (State.fc_setFc s _)).trans rfl

theorem State.cur_advance (s : State) {α : Type} (f : Core → α) (hf : ∀ (c : Core) v, f { c with fcs := v } = f c) :
    f s.advance.cur = f s.cur := (congrArg f (State.cur_setFc s _)).trans (hf _ _)

/-! ## Registers of clusters -/

theorem Cluster.changed_spec (c : Cluster) (n : Nat) (differs : Bool) :
    (c.changed n differs).clkdef = c.clkdef ∧ (c.changed n differs).vfloor = c.vfloor ∧ (c.changed n differs).pcoef = c.pcoef ∧
      (c.changed n differs).set = c.set := by
  unfold Cluster.changed
  split <;> exact ⟨rfl, rfl, rfl, rfl⟩

theorem RatioSet.legal_ofWord (v : Nat) : (RatioSet.ofWord v).legal = true ↔
    4 ≤ v % 256 ∧ v % 256 ≤ 20 ∧ 4 ≤ v / 2 ^ 8 % 256 ∧ v / 2 ^ 8 % 256 ≤ 24 ∧ 4 ≤ v / 2 ^ 16 % 256 ∧ v / 2 ^ 16 % 256 ≤ 20 ∧
      4 ≤ v / 2 ^ 24 % 256 ∧ v / 2 ^ 24 % 256 ≤ 16 := by
  simp only [RatioSet.legal, Bool.and_eq_true, decide_eq_true_eq, and_assoc]
  exact Iff.rfl

theorem Cluster.writeClkdef_of_legal (c : Cluster) {v : Nat} (h : (RatioSet.ofWord v).legal = true) :
    (c.writeClkdef v).clkdef = v % 2 ^ 32 ∧ (c.writeClkdef v).set = c.set := by
  rw [Cluster.writeClkdef, if_pos h]
  obtain ⟨hclk, -, -, hset⟩ := Cluster.changed_spec { c with clkdef := v % 2 ^ 32 } 0 (c.clkdef ≠ v % 2 ^ 32)
  exact ⟨hclk, hset⟩

theorem Cluster.writeClkdef_of_illegal (c : Cluster) {v : Nat} (h : ¬(RatioSet.ofWord v).legal = true) : c.writeClkdef v = c := if_neg h

theorem Cluster.writeVfloor_of_range (c : Cluster) {v : Nat} (h : 580 ≤ v ∧ v ≤ 980) : (c.writeVfloor v).vfloor = v := by
  rw [Cluster.writeVfloor, if_pos (by simpa using h)]
  exact (Cluster.changed_spec _ _ _).2.1

theorem Cluster.writeVfloor_outside (c : Cluster) {v : Nat} (h : v < 580 ∨ 980 < v) : c.writeVfloor v = c :=
  if_neg (by simp; omega)

theorem systemRegisterValues : SystemRegisterValues := by
  unfold SystemRegisterValues
  intro s a hp hx v cl
  have hcl (f : Cluster → Cluster) : cl (s.modCluster (clusterOf s.now) f).advance = f (cl s) := State.cluster_modCluster_same _ _ _
  refine ⟨?_, ?_, ?_, ?_, ?_, ?_, ?_, ?_⟩
  · refine exec_mtsy_privileged hp a rfl (by decide) ?_
    rw [State.aflags_advance, show (0x008 : BitVec 12).toNat = 0x008 from rfl, State.sysWrite_aflags, State.fc_setFc]
    simp only [FpFlags.written, bitOf_eq_testBit]
    exact ⟨rfl, rfl, rfl, rfl⟩
  · refine exec_mtsy_privileged hp a rfl (by decide) ?_
    rw [State.cur_advance _ Core.nflags fun _ _ => rfl, show (0x009 : BitVec 12).toNat = 0x009 from rfl,
      State.sysWrite_nflags, State.cur_modCore]
    simp only [FpFlags.written, bitOf_eq_testBit]
    exact ⟨rfl, rfl⟩
  · refine exec_mtsy_privileged hp a rfl (by decide) ?_
    have hwrite : (s.sysWrite (0x021 : BitVec 12).toNat (s.g a)).advance.ctx s.x = (s.ctx s.x).writeDatum v := by
      rw [show (0x021 : BitVec 12).toNat = 0x021 from rfl, State.sysWrite_datum hx]
      exact State.ctx_modCtx_same s s.x fun c => c.writeDatum v
    rw [hwrite, ← bitOf_eq_testBit]
    exact ⟨rfl, rfl, rfl⟩
  · refine exec_mtsy_privileged hp a rfl (by decide) ?_
    have hwrite : cl (s.sysWrite (0x042 : BitVec 12).toNat (s.g a)).advance = (cl s).writeClkdef v := hcl _
    rw [hwrite]
    refine ⟨fun h => ((cl s).writeClkdef_of_legal ((RatioSet.legal_ofWord v).2 h)).1, fun h => (cl s).writeClkdef_of_illegal fun hl => ?_⟩
    have := (RatioSet.legal_ofWord v).1 hl
    omega
  · refine exec_mtsy_privileged hp a rfl (by decide) ?_
    have hwrite : cl (s.sysWrite (0x043 : BitVec 12).toNat (s.g a)).advance = (cl s).writeVfloor (v % 4096) := hcl _
    rw [hwrite]
    exact ⟨(cl s).writeVfloor_of_range, (cl s).writeVfloor_outside⟩
  · refine exec_mtsy_privileged hp a rfl (by decide) ?_
    have hwrite : cl (s.sysWrite (0x045 : BitVec 12).toNat (s.g a)).advance = (cl s).writePcoef (s.g a) := hcl _
    rw [hwrite]
    exact (Cluster.changed_spec _ _ _).2.2.1
  · refine exec_mtsy_privileged hp a rfl (by decide) ?_
    have hwrite : cl (s.sysWrite (0x046 : BitVec 12).toNat (s.g a)).advance =
      { cl s with throttleAmp := bitsOf v 31 16, throttleTheta := v % 16 } := hcl _
    rw [hwrite]
    exact ⟨rfl, rfl⟩
  · refine exec_mtsy_privileged hp a rfl (by decide) ?_
    rw [State.cur_advance _ Core.guard fun _ _ => rfl, show (0x023 : BitVec 12).toNat = 0x023 from rfl,
      State.sysWrite_guard, State.cur_modCore]

/-! ## Writes as events of their own -/

/-- Quotas are stored with their defined bit and their rem. -/
theorem quotaStored_mod (v : Word) : (v &&& 0x8000FFFFFFFFFFFF#64).toNat % 2 ^ 48 = v.toNat % 2 ^ 48 := by
  have h : (v &&& 0x8000FFFFFFFFFFFF#64).setWidth 48 = v.setWidth 48 := by
    rw [BitVec.setWidth_and, show (0x8000FFFFFFFFFFFF#64).setWidth 48 = BitVec.allOnes 48 by decide, BitVec.and_allOnes]
  simpa only [BitVec.toNat_setWidth] using congrArg BitVec.toNat h

theorem quotaRem_congr {v w : Word} (h : v.toNat % 2 ^ 48 = w.toNat % 2 ^ 48) : quotaRem v = quotaRem w := by
  rw [quotaRem, quotaRem, signed, signed, h]

theorem nth_updNth_same {α : Type} (l : List α) {n : Nat} (hn : n < l.length) (f : α → α) (d : α) :
    nth (updNth l n f) n d = f (nth l n d) := by
  simp [nth, updNth, List.getElem?_eq_getElem hn]

theorem nth_updNth_ne {α : Type} (l : List α) {n m : Nat} (h : m ≠ n) (f : α → α) (d : α) : nth (updNth l n f) m d = nth l m d := by
  simp [nth, updNth, h.symm]

/-- The quota written reads as it was written, and the others as they did. -/
theorem Context.quotas_writeQuota (c : Context) {n : Nat} (hn : n < c.quotas.length) (v : Word) :
    nth (c.writeQuota n v).quotas n 0 = v &&& 0x8000FFFFFFFFFFFF#64 ∧
      ∀ m, m ≠ n → nth (c.writeQuota n v).quotas m 0 = nth c.quotas m 0 :=
  ⟨nth_updNth_same _ hn _ _, fun _ hm => nth_updNth_ne _ hm _ _⟩

/-- A context that drains for one class drains on after a write of its quota where its rem is not positive (14 R406, R410). -/
theorem Context.drained_writeQuota (c : Context) {n : Nat} (hn : n < c.quotas.length) (hd : c.drained = [n]) (v : Word) :
    (c.writeQuota n v).drained = if 0 < quotaRem v then [] else [n] := by
  have hrem : quotaRem (nth (updNth c.quotas n fun _ => v &&& 0x8000FFFFFFFFFFFF#64) n 0#64) = quotaRem v := by
    rw [nth_updNth_same _ hn]
    exact quotaRem_congr (quotaStored_mod v)
  simp [Context.writeQuota, hd, hrem]

theorem vector_get_mapIdx {α β : Type} {n : Nat} (v : Vector α n) (f : Nat → α → β) (i : Fin n) :
    (v.mapIdx f).get i = f i.val (v.get i) := by
  simp [Vector.get_eq_getElem]

/-- What a write of sy.evsel leaves in its counter (14 R406). -/
theorem EventCounter.select_spec (e : EventCounter) (x v : Nat) (halted : Bool) :
    (e.select x v halted).en = v.testBit 8 ∧ (e.select x v halted).tag = v.testBit 9 ∧
      (1 ≤ v % 256 → v % 256 ≤ 0x15 → (e.select x v halted).ev = v % 256) ∧
      (v.testBit 8 = true → e.en = false → (e.select x v halted).count = 0) ∧
      (e.en = true → (e.select x v halted).count = e.count) := by
  refine ⟨bitOf_eq_testBit _ _, bitOf_eq_testBit _ _, fun h1 h2 => if_pos (by simp [h1, h2]), fun h1 h2 => if_pos ?_,
    fun h => if_neg ?_⟩
  · rw [bitOf_eq_testBit, h1, h2]; rfl
  · rw [h]; simp

/-- A legal default set as the fields of its word. -/
theorem ratioWord_spec {m v n d : Nat} (hm : 4 ≤ m ∧ m ≤ 20) (hv : 4 ≤ v ∧ v ≤ 24) (hn : 4 ≤ n ∧ n ≤ 20) (hd : 4 ≤ d ∧ d ≤ 16) :
    let w := (BitVec.ofNat 64 (m + 256 * v + 65536 * n + 16777216 * d)).toNat
    (RatioSet.ofWord w).legal = true ∧ w % 2 ^ 32 = m + 256 * v + 65536 * n + 16777216 * d := by
  intro w
  have hw : w = m + 256 * v + 65536 * n + 16777216 * d := by
    rw [show w = _ from BitVec.toNat_ofNat _ _]
    omega
  rw [RatioSet.legal_ofWord, hw]
  omega

theorem registerWriteEvents : RegisterWriteEvents := by
  unfold RegisterWriteEvents
  refine ⟨fun s h v d hd => ?_, fun s x hx => ?_, fun s x n v hx hlen => ?_, fun s k n v => ?_,
    fun s cl m v n d hm hm' hv hv' hn hn' hd hd' => ?_⟩
  · obtain ⟨hfill, hprod, hcons, hbound, hfree⟩ := State.bindHandle_spec hd
    have hexec : exec (.syHdWrite h v) s = .next (s.modCore s.now fun c => c.setHandle h.val d) := by
      change execSyHdWrite h v s = _
      rw [execSyHdWrite, hd]
    refine ⟨_, hexec, ?_, hfill, hprod, hcons, by rw [hbound]; exact bitOf_top v.isLt, hfree, fun j hj => ?_⟩
    · rw [State.cur_modCore]
      exact Core.handle_setHandle_same _ _ _
    · rw [State.cur_modCore]
      exact Core.handle_setHandle_ne _ _ hj
  · refine ⟨s.modCtx x _, if_pos hx, ?_, ?_, fun y hy => State.ctx_modCtx_ne _ _ hy.symm⟩
    · rw [State.ctx_modCtx_same]
    · rw [State.ctx_modCtx_same]
  · have hn : n.val < (s.ctx x).quotas.length := by rw [hlen]; exact n.isLt
    have hctx : (s.modCtx x fun c => c.writeQuota n.val v).ctx x = (s.ctx x).writeQuota n.val v := State.ctx_modCtx_same _ _ _
    obtain ⟨hsame, hne⟩ := (s.ctx x).quotas_writeQuota hn v
    refine ⟨s.modCtx x _, if_pos hx, ?_, ?_, fun hd hpos hlt => ?_, fun hd hzero => ?_⟩
    · rw [hctx]
      exact (congrArg (fun q : Word => q.toNat % 2 ^ 48) hsame).trans (quotaStored_mod v)
    · rw [hctx]
      exact hne
    · rw [hctx, Context.drained_writeQuota _ hn hd, if_pos]
      rw [quotaRem, signed, if_pos hlt]
      exact_mod_cast hpos
    · rw [hctx, Context.drained_writeQuota _ hn hd, if_neg]
      rw [quotaRem, signed, hzero]
      decide
  · let select (i : Nat) (e : EventCounter) : EventCounter :=
      if i = n.val then e.select (s.cxId k) v.toNat ((s.partOf k).any fun p => p.halt) else e
    refine ⟨s.modCore k fun c => { c with counters := c.counters.mapIdx select }, rfl, ?_⟩
    rw [State.core_modCore_same]
    have hget (m : Fin 4) : ((s.core k).counters.mapIdx select).get m = select m.val ((s.core k).counters.get m) :=
      vector_get_mapIdx _ _ _
    obtain ⟨hen, htag, hev, hcount, hkeep⟩ :=
      ((s.core k).counters.get n).select_spec (s.cxId k) v.toNat ((s.partOf k).any fun p => p.halt)
    have hn : ((s.core k).counters.mapIdx select).get n = _ := (hget n).trans (if_pos rfl)
    dsimp only
    rw [hn]
    exact ⟨hen, htag, hev, hcount, hkeep, fun m hm => (hget m).trans (if_neg fun h => hm (Fin.ext h))⟩
  · obtain ⟨hlegal, hword⟩ := ratioWord_spec ⟨hm, hm'⟩ ⟨hv, hv'⟩ ⟨hn, hn'⟩ ⟨hd, hd'⟩
    refine ⟨_, rfl, ?_⟩
    rw [State.cluster_modCluster_same]
    obtain ⟨hclk, hset⟩ := (s.cluster cl).writeClkdef_of_legal hlegal
    exact ⟨hclk.trans hword, hset, fun c hc => State.cluster_modCluster_ne _ _ hc.symm⟩

/-- Settles O58: each part from the equation of its write (`exec_mtsy_register`, `exec_mtsy_handle` and those of the registers). -/
theorem systemRegistersWritten : Obligations.SystemRegistersWritten := by
  unfold Obligations.SystemRegistersWritten
  exact ⟨systemRegisterWrites, systemRegisterValues, registerWriteEvents⟩

end Sys2Proof.Machine
end

section
/-!
Streams of port commands (05 R161, R162, R171): beats on the links where an input port's stream ends, and what steps of a command leave
alone besides.
-/
namespace Sys2Proof.Machine

open Sys2Proof.Safety

/-! ## Links -/

theorem Fabric.link_setLink_same (f : Fabric) (site side : Nat) (l : Link) : (f.setLink site side l).link site side = l :=
  congrArg (fun o : Option Link => o.getD Link.blank) (look_put_same _ _ _)

theorem Fabric.link_setLink_ne (f : Fabric) {site side p q : Nat} (l : Link) (h : (p, q) ≠ (site, side)) :
    (f.setLink site side l).link p q = f.link p q :=
  congrArg (fun o : Option Link => o.getD Link.blank) (look_put_ne _ _ h.symm)

theorem Fabric.port_setPort_same (f : Fabric) (n : Nat) (l : Link) : (f.setPort n l).port n = l :=
  congrArg (fun o : Option Link => o.getD Link.blank) (look_put_same _ _ _)

theorem Core.sendTo_eq (c : Core) (d : Dest) (b : Beat) : ∃ f, c.sendTo d b = { c with fabric := f } := by
  cases d with
  | node site side => exact ⟨_, rfl⟩
  | port n => exact ⟨_, rfl⟩
  | none => exact ⟨_, rfl⟩

/-! ## Steps that send nothing -/

/-- From s to t commands, registers, memory and the links between nodes are as they were. -/
structure KeepsLinks (s t : State) : Prop extends KeepsCommands s t where
  bytes : Bytes s t
  links : t.cur.fabric.links = s.cur.fabric.links

theorem KeepsLinks.refl (s : State) : KeepsLinks s s := ⟨KeepsCommands.refl s, fun _ => rfl, rfl⟩

theorem KeepsLinks.trans {s t u : State} (h : KeepsLinks s t) (h' : KeepsLinks t u) : KeepsLinks s u :=
  ⟨h.toKeepsCommands.trans h'.toKeepsCommands, fun l => (h'.bytes l).trans (h.bytes l), h'.links.trans h.links⟩

theorem State.modCore_keepsLinks (s : State) {f : Core → Core} (hc : (f s.cur).cmds = s.cur.cmds) (hf : (f s.cur).fcs = s.cur.fcs)
    (hl : (f s.cur).fabric.links = s.cur.fabric.links) : KeepsLinks s (s.modCore s.now f) :=
  ⟨s.modCore_keepsCommands hc hf, fun _ => rfl, by rw [State.cur_modCore]; exact hl⟩

theorem Consumes.keepsLinks {s t : State} {h : Nat} (a : Consumes s t h) : KeepsLinks s t :=
  ⟨a.keepsCommands, a.bytes, congrArg Fabric.links a.core.fabric⟩

/-- A consumer has taken elements from the slots of a handle (05 R151). -/
theorem State.takeSlot_keepsLinks (s : State) (h fmt n m total : Nat) : KeepsLinks s (s.takeSlot h fmt n m total) := by
  unfold State.takeSlot
  extract_lets d per u
  have hu : Consumes s u h := by
    obtain ⟨honly, hh, hb⟩ := s.cur.setFullRange_spec (s.cur.handle h).buffer
      ((s.cur.handle h).slotAt (s.cur.handle h).cons + n % per * fmtBits fmt / 8 / 16 * 16)
      (ceilDiv ((n % per + m) * fmtBits fmt) 8 / 16 * 16 - n % per * fmtBits fmt / 8 / 16 * 16) false
    exact s.modCore_consumes h honly hb fun j _ => Core.handle_of_handles hh j
  split
  · exact (hu.trans (u.endDrain_spec h).1).keepsLinks
  · exact hu.keepsLinks

/-- A generator's run is done with (05 R160). -/
theorem State.endGenRun_keepsLinks (s : State) (w : Walk) (n : Nat) : KeepsLinks s (s.endGenRun w n) ∧ (s.endGenRun w n).ctxs = s.ctxs ∧
    (s.endGenRun w n).cur.fabric.ports = s.cur.fabric.ports := by
  unfold State.endGenRun
  split
  · split
    · exact ⟨s.modCore_keepsLinks rfl rfl rfl, rfl, by rw [State.cur_modCore]; rfl⟩
    · exact ⟨KeepsLinks.refl s, rfl, rfl⟩
  · exact ⟨KeepsLinks.refl s, rfl, rfl⟩

/-- What an input port has delivered is counted beside everything else (05 R149). -/
theorem Core.heatWalk_eq (c : Core) (port : Nat) (w : Walk) (n m : Nat) : ∃ h, c.heatWalk port w n m = { c with heat := h } := by
  have hat (c : Core) (t : Tensor) (pos : Int × Int) : ∃ h, c.heatAt port t pos = { c with heat := h } := by
    unfold Core.heatAt
    split
    · exact ⟨_, rfl⟩
    · exact ⟨_, rfl⟩
  cases w with
  | buffer f k => exact ⟨_, rfl⟩
  | tensor t p g =>
    rw [Core.heatWalk]
    generalize upto m = l
    induction l generalizing c with
    | nil => exact ⟨_, rfl⟩
    | cons i r ih =>
      obtain ⟨h, e⟩ := hat c t (p.pos (n + i))
      obtain ⟨h', e'⟩ := ih (c.heatAt port t (p.pos (n + i)))
      exact ⟨h', e'.trans (by rw [e])⟩

theorem State.heatWalk_keepsLinks (s : State) (port : Nat) (w : Walk) (n m : Nat) :
    KeepsLinks s (s.modCore s.now fun k => k.heatWalk port w n m) := by
  obtain ⟨h, e⟩ := s.cur.heatWalk_eq port w n m
  exact s.modCore_keepsLinks (by rw [e]) (by rw [e]) (by rw [e])

theorem State.links_modCmd (s : State) (id : Nat) (f : CmdEntry → CmdEntry) : (s.modCmd id f).cur.fabric = s.cur.fabric := by
  rw [State.modCmd, State.cur_modCore]
  rfl

theorem becomesBy_of_keeps {n s u v : State} {e : CmdEntry} (h : BecomesBy n s u e) (hkeep : KeepsLinks u v) : BecomesBy n s v e := by
  obtain ⟨he, hb, hr⟩ := h
  exact ⟨by rw [Core.cmdEntry, hkeep.cmds]; exact he, fun l => (hkeep.bytes l).trans (hb l), allRegs_trans hr hkeep.regs⟩

/-! ## Lines of a walk -/

theorem State.touchAt_linesPass (s : State) (e : CmdEntry) (t : Tensor) (ps : List (Int × Int)) : LinesPass s (s.touchAt e t ps) :=
  LinesPass.foldl (f := fun u (k : Nat × Nat) => u.touchTile u.x e.fid t k.1 k.2 (cmdOf e.word).e)
    (fun u k => u.touchTile_linesPass u.x e.fid t k.1 k.2 _) _ s

theorem State.touchWalk_linesPass (s : State) (e : CmdEntry) (w : Walk) (n m : Nat) : LinesPass s (s.touchWalk e w n m) := by
  cases w with
  | tensor t p g => exact s.touchAt_linesPass e t _
  | buffer f k => exact LinesPass.refl s

/-! ## A beat from an input port -/

/-- A beat enters the fabric from an input port. -/
theorem State.portSend_spec (s : State) (port : Nat) (b : Beat) :
    let t := s.modCore s.now fun k => k.portSend port b
    KeepsCommands s t ∧ Bytes s t ∧ Sends s t port b := by
  intro t
  have ht : t.cur = s.cur.portSend port b := s.cur_modCore _
  obtain ⟨f, hf⟩ := s.cur.sendTo_eq ((s.cur.image.map fun i => i.portDest port).getD .none) b
  have hsend : s.cur.portSend port b = { s.cur with fabric := f } := hf
  refine ⟨s.modCore_keepsCommands (by rw [hsend]) (by rw [hsend]), fun _ => rfl, fun site side hdest => ?_⟩
  rw [ht, Core.portSend, hdest]
  refine ⟨?_, fun p q hpq => Fabric.link_setLink_ne _ _ hpq⟩
  exact congrArg Link.wire (Fabric.link_setLink_same _ _ _ _)

/-- Steps before a beat leaves that keep image and links, and steps after it that keep links. -/
theorem sends_of_links {s n u t : State} {port : Nat} {b : Beat} (h : Sends n u port b) (himage : n.cur.image = s.cur.image)
    (hn : n.cur.fabric.links = s.cur.fabric.links) (hu : t.cur.fabric.links = u.cur.fabric.links) : Sends s t port b := by
  have hlink {a b : State} (h : a.cur.fabric.links = b.cur.fabric.links) (p q : Nat) : a.cur.fabric.link p q = b.cur.fabric.link p q := by
    rw [Fabric.link, Fabric.link, h]
  intro site side hdest
  rw [← himage] at hdest
  obtain ⟨hwire, hothers⟩ := h site side hdest
  refine ⟨?_, fun p q hpq => ?_⟩
  · rw [hlink hu, hwire, hlink hn]
  · rw [hlink hu, hothers p q hpq, hlink hn]

theorem sends_modCmd {s u : State} {port : Nat} {b : Beat} (h : Sends s u port b) (id : Nat) (f : CmdEntry → CmdEntry) :
    Sends s (u.modCmd id f) port b := sends_of_links h rfl rfl (congrArg Fabric.links (u.links_modCmd id f))

/-! ## Loads (05 R162) -/

section Loads
variable {s : State} {e : CmdEntry} {tile : Bool} {w : Walk}

/-- A load that has its turn, and room where its stream goes. -/
structure MayLoad (s : State) (e : CmdEntry) (tile : Bool) (w : Walk) : Prop where
  turn : s.cur.portTurn e = true
  room : s.cur.portRoom (cmdOf e.word).portA.toNat = true
  records : 8 ∉ s.cur.records
  walk : s.walkOf (cmdOf e.word) tile e.pos = some w

/-- Row tokens due before a load's next element. -/
def rowsDue (e : CmdEntry) (w : Walk) : Nat := if (cmdOf e.word).flag 2 then 0 else e.pos / w.rowLen

/-- A load from slots finds its next element in its consumer's slot, in a bank open to its context. -/
def SlotReady (s : State) (e : CmdEntry) (w : Walk) : Prop :=
  (cmdOf e.word).flag 2 = true → s.cur.mayDrain e.id (cmdOf e.word).hA.toNat = true ∧
    s.cur.slotOpen (cmdOf e.word).hA.toNat
      (e.pos % ((s.cur.handle (cmdOf e.word).hA.toNat).bytes * 8 / fmtBits w.fmt) * fmtBits w.fmt / 8) e.cx false = true

theorem MayLoad.loadTurn_row (h : MayLoad s e tile w) (hdue : e.count < rowsDue e w) :
    s.loadTurn e tile = .next ((s.modCore s.now fun k => k.portSend (cmdOf e.word).portA.toNat (tokenBeat .eor)).modCmd e.id fun d =>
      { d with count := d.count + 1 }) := by
  unfold State.loadTurn
  extract_lets c port n
  rw [if_neg (by simp [h.turn, h.room, h.records, port, c]), h.walk]
  exact if_pos hdue

theorem MayLoad.loadTurn_end (h : MayLoad s e tile w) (hdue : rowsDue e w ≤ e.count) (hpos : e.pos = w.total) :
    s.loadTurn e tile = .next ((if (cmdOf e.word).flag 3 then
        s.modCore s.now fun k => k.portSend (cmdOf e.word).portA.toNat (tokenBeat .eok) else s).cmdDone e.id w.bytes) := by
  unfold State.loadTurn
  extract_lets c port n
  rw [if_neg (by simp [h.turn, h.room, h.records, port, c]), h.walk]
  exact (if_neg (Nat.not_lt.2 hdue)).trans (if_pos hpos)

theorem MayLoad.loadTurn_elems (h : MayLoad s e tile w) (hdue : rowsDue e w ≤ e.count) (hpos : e.pos ≠ w.total)
    (hslot : SlotReady s e w) {vs : List Nat} (hvs : s.loadElems e w e.pos = .ok vs) :
    let port := (cmdOf e.word).portA.toNat
    let near := s.touchWalk e w e.pos vs.length
    let sent := near.modCore near.now fun k => k.portSend port (wordBeat vs)
    let counted := (sent.modCore sent.now fun k => k.heatWalk port w e.pos vs.length).modCmd e.id fun d => { d with pos := e.pos + vs.length }
    s.loadTurn e tile = .next (if (cmdOf e.word).flag 2 then counted.takeSlot (cmdOf e.word).hA.toNat w.fmt e.pos vs.length w.total
      else counted.endGenRun w (e.pos + vs.length)) := by
  intro port near sent counted
  unfold State.loadTurn
  extract_lets c port n
  rw [if_neg (by simp [h.turn, h.room, h.records, port, c]), h.walk]
  refine (if_neg (Nat.not_lt.2 hdue)).trans ((if_neg hpos).trans ((if_neg ?_).trans (State.tryCmd_ok _ hvs _)))
  intro hc
  rw [Bool.and_eq_true, Bool.or_eq_true] at hc
  obtain ⟨hflag, hno⟩ := hc
  obtain ⟨hdrain, hopen⟩ := hslot hflag
  simp only [n] at hno
  rw [hdrain, hopen] at hno
  simp at hno

/-- A row token leaves where one is due. -/
theorem MayLoad.row_spec (h : MayLoad s e tile w) (he : s.cur.cmdEntry e.id = some e) (hdue : e.count < rowsDue e w) :
    ∃ t, s.loadTurn e tile = .next t ∧ Becomes s t { e with count := e.count + 1 } ∧
      Sends s t (cmdOf e.word).portA.toNat (tokenBeat .eor) := by
  obtain ⟨hkeep, hbytes, hsends⟩ := s.portSend_spec (cmdOf e.word).portA.toNat (tokenBeat .eor)
  exact ⟨_, h.loadTurn_row hdue, becomesBy_modCmd hkeep hbytes he (f := fun d => { d with count := d.count + 1 }) fun _ => rfl,
    sends_modCmd hsends _ _⟩

/-- A load ends with its walk. -/
theorem MayLoad.end_spec (h : MayLoad s e tile w) (he : s.cur.cmdEntry e.id = some e) (hdue : rowsDue e w ≤ e.count)
    (hpos : e.pos = w.total) :
    ∃ t, s.loadTurn e tile = .next t ∧ Becomes s t { e with stage := .performed, count := w.bytes } := by
  refine ⟨_, h.loadTurn_end hdue hpos, ?_⟩
  obtain ⟨hkeep, hbytes, -⟩ := s.portSend_spec (cmdOf e.word).portA.toNat (tokenBeat .eok)
  split
  · exact becomesBy_modCmd hkeep hbytes he (f := fun d => { d with stage := .performed, count := w.bytes }) fun _ => rfl
  · exact becomesBy_modCmd (KeepsCommands.refl s) (fun _ => rfl) he (f := fun d => { d with stage := .performed, count := w.bytes })
      fun _ => rfl

/-- The next elements of a load's walk leave. -/
theorem MayLoad.elems_spec (h : MayLoad s e tile w) (he : s.cur.cmdEntry e.id = some e) (hdue : rowsDue e w ≤ e.count)
    (hpos : e.pos ≠ w.total) (hslot : SlotReady s e w) {vs : List Nat} (hvs : s.loadElems e w e.pos = .ok vs) :
    ∃ t, s.loadTurn e tile = .next t ∧ BecomesBy (s.touchWalk e w e.pos vs.length) s t { e with pos := e.pos + vs.length } ∧
      Sends s t (cmdOf e.word).portA.toNat (wordBeat vs) := by
  refine ⟨_, h.loadTurn_elems hdue hpos hslot hvs, ?_⟩
  have hnear := s.touchWalk_linesPass e w e.pos vs.length
  generalize s.touchWalk e w e.pos vs.length = near at hnear ⊢
  obtain ⟨hkeep, hbytes, hsends⟩ := near.portSend_spec (cmdOf e.word).portA.toNat (wordBeat vs)
  generalize (near.modCore near.now fun k => k.portSend (cmdOf e.word).portA.toNat (wordBeat vs)) = sent at hkeep hbytes hsends ⊢
  have hheat := sent.heatWalk_keepsLinks (cmdOf e.word).portA.toNat w e.pos vs.length
  have hsends := sends_of_links hsends hnear.cur.image (congrArg Fabric.links hnear.cur.fabric) hheat.links
  generalize (sent.modCore sent.now fun k => k.heatWalk (cmdOf e.word).portA.toNat w e.pos vs.length) = hot at hheat hsends ⊢
  have hbecomes : BecomesBy near s (hot.modCmd e.id fun d => { d with pos := e.pos + vs.length }) { e with pos := e.pos + vs.length } :=
    becomesBy_modCmd ((hnear.keepsCommands.trans hkeep).trans hheat.toKeepsCommands) (fun l => (hheat.bytes l).trans (hbytes l)) he
      fun _ => rfl
  have hsends := sends_modCmd hsends e.id fun d => { d with pos := e.pos + vs.length }
  generalize (hot.modCmd e.id fun d => { d with pos := e.pos + vs.length }) = counted at hbecomes hsends ⊢
  split
  · have hlast := counted.takeSlot_keepsLinks (cmdOf e.word).hA.toNat w.fmt e.pos vs.length w.total
    exact ⟨becomesBy_of_keeps hbecomes hlast, sends_of_links hsends rfl rfl hlast.links⟩
  · obtain ⟨hlast, -, -⟩ := counted.endGenRun_keepsLinks w (e.pos + vs.length)
    exact ⟨becomesBy_of_keeps hbecomes hlast, sends_of_links hsends rfl rfl hlast.links⟩

end Loads

end Sys2Proof.Machine
end

section
/-!
Port stores (05 R162), `bound` and `kick` (05 R171), and the address generators (05 R159, R160).
-/
namespace Sys2Proof.Machine

open Sys2Proof.Safety

/-! ## Stores (05 R162) -/

section Stores
variable {s : State} {e : CmdEntry} {tile : Bool} {w : Walk} {b : Beat} {r : List Beat}

/-- The fabric's output ports change, and nothing else of a core. -/
theorem State.setPort_keepsLinks (s : State) (port : Nat) (f : Link → Link) :
    KeepsLinks s (s.modCore s.now fun k => { k with fabric := k.fabric.setPort port (f (k.fabric.port port)) }) :=
  s.modCore_keepsLinks rfl rfl rfl

theorem State.storeTurn_end (ht : s.cur.portTurn e = true) (hw : s.walkOf (cmdOf e.word) tile e.pos = some w) (hpos : e.pos = w.total) :
    s.storeTurn e tile = .next (s.cmdDone e.id w.bytes) := by
  unfold State.storeTurn
  extract_lets c port n
  rw [if_neg (by rw [ht]; nofun), hw]
  exact if_pos hpos

/-- A beat that holds no words is consumed. -/
theorem State.storeTurn_drop (ht : s.cur.portTurn e = true) (hw : s.walkOf (cmdOf e.word) tile e.pos = some w) (hpos : e.pos ≠ w.total)
    (hb : (s.cur.fabric.port ((cmdOf e.word).portA.toNat - 32)).fifo = b :: r) (hk : b.kind ≠ 0xA) :
    s.storeTurn e tile = .next (s.modCore s.now fun k => k.dropPort ((cmdOf e.word).portA.toNat - 32)) := by
  unfold State.storeTurn
  extract_lets c port n
  rw [if_neg (by rw [ht]; nofun), hw]
  refine (if_neg hpos).trans ?_
  rw [hb]
  exact if_pos hk

/-- A store has taken the token of lane l, its element n (05 R162). -/
def State.tookToken (s : State) (e : CmdEntry) (w : Walk) (l : Nat) : State :=
  ((s.modCore s.now fun k => { k with
      fabric := k.fabric.setPort ((cmdOf e.word).portA.toNat - 32) ((k.fabric.port ((cmdOf e.word).portA.toNat - 32)).take l) }).modCmd e.id
    fun d => { d with pos := e.pos + 1 }).endGenRun w (e.pos + 1)

variable {x : Tensor} {p : Pattern} {g : Option Nat} {l : Nat}

/-- A store on a tensor finds the token of a lane in its port's next beat. -/
structure MayStore (s : State) (e : CmdEntry) (tile : Bool) (x : Tensor) (p : Pattern) (g : Option Nat) (b : Beat) (l : Nat) : Prop where
  turn : s.cur.portTurn e = true
  walk : s.walkOf (cmdOf e.word) tile e.pos = some (.tensor x p g)
  more : e.pos ≠ (Walk.tensor x p g).total
  beat : ∃ r, (s.cur.fabric.port ((cmdOf e.word).portA.toNat - 32)).fifo = b :: r
  kind : b.kind = 0xA
  lane : (upto 4).find? (fun l => b.mask.getLsbD l) = some l
  direct : (cmdOf e.word).flag 2 = false

theorem MayStore.storeTurn_null (h : MayStore s e tile x p g b l) (hn : b.token l = .null) :
    s.storeTurn e tile = .next (s.tookToken e (.tensor x p g) l) := by
  obtain ⟨r, hb⟩ := h.beat
  unfold State.storeTurn
  extract_lets c port n
  rw [if_neg (by rw [h.turn]; nofun), h.walk]
  refine (if_neg h.more).trans ?_
  rw [hb]
  refine (if_neg (not_not.2 h.kind)).trans ?_
  rw [h.lane]
  dsimp only
  rw [if_neg (by simp [c, h.direct]), hn]
  rfl

theorem MayStore.storeTurn_word (h : MayStore s e tile x p g b l) {v : BitVec 32} {u : State} (hn : b.token l = .word v)
    (hu : s.storeElem s.x e.fid x (p.pos e.pos).1 (p.pos e.pos).2 (v.toNat % 2 ^ fmtBits x.fmt) = .ok u) :
    s.storeTurn e tile = .next ((u.touchAt e x [p.pos e.pos]).tookToken e (.tensor x p g) l) := by
  obtain ⟨r, hb⟩ := h.beat
  unfold State.storeTurn
  extract_lets c port n
  rw [if_neg (by rw [h.turn]; nofun), h.walk]
  refine (if_neg h.more).trans ?_
  rw [hb]
  refine (if_neg (not_not.2 h.kind)).trans ?_
  rw [h.lane]
  dsimp only
  rw [if_neg (by simp [c, h.direct]), hn]
  exact State.tryCmd_ok _ hu _

theorem State.tookToken_spec {n u : State} (he : s.cur.cmdEntry e.id = some e) (hkeep : KeepsCommands s u) (hn : Bytes n u) (w : Walk)
    (l : Nat) : BecomesBy n s (u.tookToken e w l) { e with pos := e.pos + 1 } ∧ (u.tookToken e w l).ctxs = u.ctxs := by
  have hport := u.setPort_keepsLinks ((cmdOf e.word).portA.toNat - 32) fun k => k.take l
  have hmoved := becomesBy_modCmd (hkeep.trans hport.toKeepsCommands) (fun a => (hport.bytes a).trans (hn a)) he
    (f := fun d => { d with pos := e.pos + 1 }) fun _ => rfl
  obtain ⟨hlast, hctxs, -⟩ := State.endGenRun_keepsLinks _ w (e.pos + 1)
  exact ⟨becomesBy_of_keeps hmoved hlast, hctxs⟩

theorem State.storeElem_eq {u : State} {y fid v : Nat} {row col : Int} (h : s.storeElem y fid x row col v = .ok u) :
    ∃ cs, u = { s with ctxs := cs } := by
  unfold State.storeElem at h
  dsimp only at h
  split at h
  · exact ⟨s.ctxs, (Except.ok.inj h).symm⟩
  · exact State.writeTile_eq h

theorem dropPort_spec (he : s.cur.cmdEntry e.id = some e) {port : Nat} (hb : (s.cur.fabric.port port).fifo = b :: r) :
    Becomes s (s.modCore s.now fun k => k.dropPort port) e ∧
      ((s.modCore s.now fun k => k.dropPort port).cur.fabric.port port).fifo = r := by
  have hkeep := s.setPort_keepsLinks port fun l => { l with fifo := l.fifo.drop 1 }
  refine ⟨⟨(by rw [Core.cmdEntry]; exact hkeep.cmds ▸ he), hkeep.bytes, hkeep.regs⟩, ?_⟩
  rw [State.cur_modCore]
  refine (congrArg Link.fifo (Fabric.port_setPort_same _ _ _)).trans ?_
  rw [hb]
  rfl

/-- The lowest lane that a beat's mask names. -/
theorem find_lane {m : BitVec 4} (hl : l < 4) (hset : m.getLsbD l = true) (hlow : ∀ j, j < l → m.getLsbD j = false) :
    (upto 4).find? (fun j => m.getLsbD j) = some l := by
  rw [upto, List.find?_range_eq_some]
  exact ⟨hset, List.mem_range.2 hl, fun j hj => by rw [hlow j hj]; rfl⟩

end Stores

/-! ## `bound` and `kick` (05 R171) -/

theorem State.placeToken_spec {s : State} {e : CmdEntry} (ht : s.cur.portTurn e = true)
    (hr : s.cur.portRoom (cmdOf e.word).portA.toNat = true) (he : s.cur.cmdEntry e.id = some e) (t : Token) :
    ∃ u, s.placeToken e t = .next u ∧ Becomes s u { e with stage := .performed, count := 1 } ∧
      Sends s u (cmdOf e.word).portA.toNat (tokenBeat t) := by
  obtain ⟨hkeep, hbytes, hsends⟩ := s.portSend_spec (cmdOf e.word).portA.toNat (tokenBeat t)
  refine ⟨_, if_neg (by rw [ht, hr]; nofun),
    becomesBy_modCmd hkeep hbytes he (f := fun d => { d with stage := .performed, count := 1 }) fun _ => rfl, sends_modCmd hsends _ _⟩

/-! ## Address generators (05 R159, R160) -/

theorem Core.nodeState_setNode (c : Core) (site : Nat) (n : NodeState) : (c.setNode site n).nodeState site = n := by
  rw [Core.nodeState, show look (c.setNode site n).fabric.nodes site = some n from look_put_same _ _ _]

theorem NodeState.lane_setLane (n : NodeState) {l : Nat} (hl : l < n.lanes.length) (v : LaneState) : (n.setLane l v).lane l = v :=
  nth_updNth_same _ hl _ _

theorem Core.lane_modLane (c : Core) (site : Nat) {l : Nat} (hl : l < (c.nodeState site).lanes.length) (f : LaneState → LaneState) :
    ((c.modLane site l f).nodeState site).lane l = f ((c.nodeState site).lane l) := by
  rw [Core.modLane, Core.nodeState_setNode, NodeState.lane_setLane _ hl]

theorem State.modCore_fabric_spec (s : State) (k : CoreId) {f : Core → Core} (hf : (f (s.core k)).fcs = (s.core k).fcs) :
    Bytes s (s.modCore k f) ∧ AllRegs s (s.modCore k f) :=
  ⟨fun _ => rfl, s.modCore_allRegs k fun n => by rw [Core.fc, Core.fc, hf]; exact SameRegs.refl _⟩

theorem nodeAgaf_spec {s : State} {k : CoreId} {site lane : Nat} (hlane : lane < 4) (hgen : ((s.core k).generated site).isSome)
    (hrec : 8 ∉ (s.core k).records) (hop : ((s.core k).node site).op.toNat = 0x32) (hlen : ((s.core k).nodeState site).lanes.length = 4) :
    ∃ t, exec (.nodeAgaf k site lane) s = .next t ∧ (((t.core k).nodeState site).lane 0).pending = some 0 ∧ Bytes s t ∧ AllRegs s t := by
  obtain ⟨hbytes, hregs⟩ := s.modCore_fabric_spec k (f := fun c => c.modLane site 0 fun l => { l with pending := some 0 }) rfl
  refine ⟨_, if_neg ?_, ?_, hbytes, hregs⟩
  · obtain ⟨g, hg⟩ := Option.isSome_iff_exists.1 hgen
    simp [hop, hlane, hg, hrec]
  · rw [State.core_modCore_same, Core.lane_modLane _ _ (by rw [hlen]; decide)]

/-- No lane of a node has a token to send. -/
def NodeState.silent (n : NodeState) : Prop := ∀ l < 4, (n.lane l).out = []

theorem beatLanes_silent {w : NodeWord} {n : NodeState} (hn : n.silent) (hop : w.op.toNat ≠ 0x19) (x : Nat) : beatLanes w n x = [] := by
  have hnone : ((lanesOn w).filterMap fun l => ((n.lane l).nextOut x).map fun t => (l, t)) = [] := by
    rw [List.filterMap_eq_nil_iff]
    intro l hl
    rw [LaneState.nextOut, hn l (List.mem_range.1 (List.mem_of_mem_filter hl))]
    rfl
  rw [beatLanes, hnone]
  simp [hop]

/-- A node without tokens to send sends nothing (06 R190). -/
theorem Core.flushAll_silent {c : Core} {site : Nat} (hn : (c.nodeState site).silent) (hop : (c.node site).op.toNat ≠ 0x19)
    (hfork : (c.node site).op.toNat ≠ 0x2A) : c.flushAll site = c := by
  have hflush (x : Nat) : c.flush site x = c := by rw [Core.flush, beatLanes_silent hn hop]
  rw [Core.flushAll, if_neg hfork]
  generalize upto 7 = xs
  induction xs with
  | nil => rfl
  | cons x r ih => rw [List.foldl_cons, hflush, ih]

/-- A lane that finds an index word takes it for its next run (05 R160). -/
theorem aginTurn_word {v : View} {l : LaneState} {w : BitVec 32} (hp : l.pending = none) (ho : l.ops = [none, none, none])
    (hw : v.head 0 = some (.word w)) :
    aginTurn v l = ⟨{ l with pending := some w.toNat, ops := [none, none, none] }, [0], [], none, ⟨0, 0, 0, 0⟩⟩ := by
  have hval : unsigned 32 w.toInt = w.toNat := by
    rw [unsigned, BitVec.toInt_eq_toNat_cond]
    have := w.isLt
    split <;> omega
  unfold aginTurn
  extract_lets given
  rw [if_neg (by rw [hp]; nofun), if_neg (by rw [ho]; decide), hw]
  simp only [given, hval]
  rfl

/-- A lane of a node without tokens to send acts on its heads. -/
theorem State.nodeTurn_silent {s : State} {k : CoreId} {site l op : Nat} {act : View → LaneState → Turn}
    (hop : ((s.core k).node site).op.toNat = op) (h19 : op ≠ 0x19) (hfork : op ≠ 0x2A) (hon : laneOn ((s.core k).node site) l = true)
    (hl : l < 4) (hrec : 8 ∉ (s.core k).records) (hout : ((s.core k).nodeState site).silent) :
    s.nodeTurn k site l op act = .next ((s.modCore k fun c => c.flushAll site).applyTurn k site l
      (act ((s.core k).view site l) (((s.core k).nodeState site).lane l))) := by
  have hflush : (s.modCore k fun c => c.flushAll site).core k = s.core k := by
    rw [State.core_modCore_same, Core.flushAll_silent hout (hop ▸ h19) (hop ▸ hfork)]
  unfold State.nodeTurn
  extract_lets c w u d n
  have hd : d = s.core k := hflush
  have hn : n = ((s.core k).nodeState site).lane l := by rw [← hd]
  rw [if_neg (by simp [w, c, hop, hon, hrec]; omega), hn, hd, if_pos (hout l hl)]

/-- A turn that takes a token from input 0 into its lane. -/
theorem State.applyTurn_take {s : State} {k : CoreId} {site l : Nat} (hl : l < ((s.core k).nodeState site).lanes.length) (v : LaneState) :
    let t := s.applyTurn k site l ⟨v, [0], [], none, ⟨0, 0, 0, 0⟩⟩
    ((t.core k).nodeState site).lane l = v ∧ Bytes s t ∧ AllRegs s t := by
  let f (c : Core) : Core := (c.takeAt site (c.node site) l 0).modLane site l fun _ => v
  let u := s.modCore k fun c => c
  have hu : u.core k = s.core k := State.core_modCore_same _ _ _
  obtain ⟨hbytes, hregs⟩ := s.modCore_fabric_spec k (f := fun c => c) rfl
  obtain ⟨hbytes', hregs'⟩ := u.modCore_fabric_spec k (f := f) rfl
  refine ⟨?_, fun a => (hbytes' a).trans (hbytes a), allRegs_trans hregs hregs'⟩
  change (((u.modCore k f).core k).nodeState site).lane l = v
  rw [State.core_modCore_same, hu]
  exact Core.lane_modLane ((s.core k).takeAt site ((s.core k).node site) l 0) site hl fun _ => v

theorem nodeAgin_spec {s : State} {k : CoreId} {site lane : Nat} {w : BitVec 32} (hlane : lane < 4)
    (hgen : ((s.core k).generated site).isSome) (hrec : 8 ∉ (s.core k).records) (hop : ((s.core k).node site).op.toNat = 0x33)
    (hon : laneOn ((s.core k).node site) lane = true) (hlen : ((s.core k).nodeState site).lanes.length = 4)
    (hout : ((s.core k).nodeState site).silent) (hp : (((s.core k).nodeState site).lane lane).pending = none)
    (ho : (((s.core k).nodeState site).lane lane).ops = [none, none, none])
    (hw : (s.core k).headAt site ((s.core k).node site) 0 lane = some (.word w)) :
    ∃ t, exec (.nodeAgin k site lane) s = .next t ∧ (((t.core k).nodeState site).lane lane).pending = some w.toNat ∧
      Bytes s t ∧ AllRegs s t := by
  have hturn := aginTurn_word (v := (s.core k).view site lane) hp ho hw
  have hexec : exec (.nodeAgin k site lane) s = _ := (if_neg (by obtain ⟨g, hg⟩ := Option.isSome_iff_exists.1 hgen; simp [hg])).trans
    (State.nodeTurn_silent hop (by decide) (by decide) hon hlane hrec hout)
  rw [hturn] at hexec
  have hflush : (s.modCore k fun c => c.flushAll site).core k = s.core k := by
    rw [State.core_modCore_same, Core.flushAll_silent hout (by rw [hop]; decide) (by rw [hop]; decide)]
  obtain ⟨hbytes, hregs⟩ := s.modCore_fabric_spec k (f := fun c => c.flushAll site)
    (by rw [Core.flushAll_silent hout (by rw [hop]; decide) (by rw [hop]; decide)])
  generalize (s.modCore k fun c => c.flushAll site) = u at hexec hflush hbytes hregs
  obtain ⟨hl, hbytes', hregs'⟩ := u.applyTurn_take (k := k) (site := site) (l := lane) (by rw [hflush, hlen]; exact hlane)
    { ((s.core k).nodeState site).lane lane with pending := some w.toNat, ops := [none, none, none] }
  exact ⟨_, hexec, by rw [hl], fun a => (hbytes' a).trans (hbytes a), allRegs_trans hregs hregs'⟩

end Sys2Proof.Machine
end

section
/-!
The port stream commands together (05 R160 to R162, R171).
-/
namespace Sys2Proof.Machine

open Sys2Proof.Safety

theorem exec_load {s : State} {c : Cmd} {e : CmdEntry} {tile : Bool} (hw : AtWork s (if tile then 0x02 else 0x01) c e) :
    exec (if tile then .ldTile c else .ldAff c) s = s.loadTurn e tile := by
  cases tile
  · exact hw.withCmd _
  · exact hw.withCmd _

theorem exec_store {s : State} {c : Cmd} {e : CmdEntry} {tile : Bool} (hw : AtWork s (if tile then 0x04 else 0x03) c e) :
    exec (if tile then .stTile c else .stAff c) s = s.storeTurn e tile := by
  cases tile
  · exact hw.withCmd _
  · exact hw.withCmd _

/-- The token that a `kick` places (05 R171). -/
def kickToken (c : Cmd) : Token := match c.cflags.toNat % 4 with
  | 0 => .eor
  | 1 => .eok
  | 2 => .pred false
  | _ => .pred true

theorem tokenBeat_kickToken (c : Cmd) : tokenBeat (kickToken c) = match c.cflags.toNat % 4 with
    | 0 => ⟨0x4, 0xF, 0, 0⟩
    | 1 => ⟨0x5, 0xF, 0, 0⟩
    | 2 => ⟨0x7, 0xF, 0, 0⟩
    | _ => ⟨0x7, 0xF, 0, 0xF⟩ := by
  unfold kickToken
  split <;> rfl

/-- Settles O20: an equation for each turn of a load or a store, with what lines, slots and generators leave alone (`KeepsLinks`,
`LinesPass`); an agin's turn on a node that has nothing to send. -/
theorem portStreamCommands : Obligations.PortStreamCommands := by
  unfold Obligations.PortStreamCommands
  refine ⟨fun s c e tile w => ?_, fun s c e tile w => ?_, fun s c e => ?_, fun s k site lane hlane hgen hrec => ?_⟩
  · intro i port due hw hturn hroom hrec hc hwalk
    subst hc
    have hload : MayLoad s e tile w := ⟨hturn, hroom, hrec, hwalk⟩
    refine ⟨fun hdue => ?_, fun hdue hpos => ?_, fun vs hdue hpos hslot hvs => ?_⟩
    · rw [exec_load hw]
      exact hload.row_spec hw.cmdEntry hdue
    · rw [Finishes, exec_load hw]
      exact hload.end_spec hw.cmdEntry hdue hpos
    · rw [exec_load hw]
      exact hload.elems_spec hw.cmdEntry hdue hpos hslot hvs
  · intro i port hw hturn hc hwalk
    subst hc
    refine ⟨fun hpos => ?_, fun b r hpos hb hkind => ?_, fun b r l x p g hpos hb hkind hl hset hlow hwx hflag => ?_⟩
    · exact finishes_cmdDone ((exec_store hw).trans (State.storeTurn_end hturn hwalk hpos)) hw.cmdEntry
    · obtain ⟨hbecomes, hfifo⟩ := dropPort_spec hw.cmdEntry hb
      exact ⟨_, (exec_store hw).trans (State.storeTurn_drop hturn hwalk hpos hb hkind), hbecomes, hfifo⟩
    · subst hwx
      have hstore : MayStore s e tile x p g b l := ⟨hturn, hwalk, hpos, ⟨r, hb⟩, hkind, find_lane hl hset hlow, hflag⟩
      refine ⟨fun hnull => ?_, fun v u hword hu => ?_⟩
      · obtain ⟨hbecomes, hctxs⟩ := State.tookToken_spec hw.cmdEntry (KeepsCommands.refl s) (fun _ => rfl) (.tensor x p g) l
        exact ⟨_, (exec_store hw).trans (hstore.storeTurn_null hnull), hbecomes, hctxs⟩
      · have hexec := (exec_store hw).trans (hstore.storeTurn_word hword hu)
        obtain ⟨cs, rfl⟩ := State.storeElem_eq hu
        have hkeep : KeepsCommands s { s with ctxs := cs } := .of_cores rfl rfl
        have hnear := State.touchAt_linesPass { s with ctxs := cs } e x [p.pos e.pos]
        obtain ⟨hbecomes, hctxs⟩ := State.tookToken_spec hw.cmdEntry (hkeep.trans hnear.keepsCommands) (fun _ => rfl) (.tensor x p g) l
        exact ⟨_, hexec, hbecomes, hctxs⟩
  · intro port hturn hroom hc
    subst hc
    refine ⟨fun hw => ?_, fun hw => ?_⟩
    · obtain ⟨t, ht, hbecomes, hsends⟩ := State.placeToken_spec hturn hroom hw.cmdEntry (.bound ((cmdOf e.word).operand.toNat % 2 ^ 48))
      have hexec : exec (.bound (cmdOf e.word)) s = .next t := (hw.withCmd _).trans ht
      exact ⟨⟨t, hexec, hbecomes⟩, t, hexec, hsends⟩
    · obtain ⟨t, ht, hbecomes, hsends⟩ := State.placeToken_spec hturn hroom hw.cmdEntry (kickToken (cmdOf e.word))
      have hexec : exec (.kick (cmdOf e.word)) s = .next t := (hw.withCmd _).trans ht
      rw [tokenBeat_kickToken] at hsends
      exact ⟨⟨t, hexec, hbecomes⟩, t, hexec, hsends⟩
  · exact ⟨nodeAgaf_spec hlane hgen hrec, fun w hop hon hlen hout hp ho hw => nodeAgin_spec hlane hgen hrec hop hon hlen hout hp ho hw⟩

end Sys2Proof.Machine
end

section
/-!
The command path of a core (05 R152, R153, R155): commands enter the scoreboard and start, complete, and fail.
-/
namespace Sys2Proof.Machine

open Sys2Proof.Safety

/-! ## What halts, records and pails leave to commands -/

/-- d has the commands and error counts of c, and its firing contexts their registers. -/
structure SameQueue (c d : Core) : Prop where
  cmds : d.cmds = c.cmds
  soft : d.soft = c.soft
  regs : ∀ n, SameRegs (c.fc n) (d.fc n)

theorem SameQueue.refl (c : Core) : SameQueue c c := ⟨rfl, rfl, fun _ => SameRegs.refl _⟩

theorem SameQueue.trans {c d e : Core} (h : SameQueue c d) (h' : SameQueue d e) : SameQueue c e :=
  ⟨h'.cmds.trans h.cmds, h'.soft.trans h.soft, fun n => (h.regs n).trans (h'.regs n)⟩

theorem SameQueue.of_fcs {c d : Core} (hc : d.cmds = c.cmds) (hs : d.soft = c.soft) (hf : d.fcs = c.fcs) : SameQueue c d :=
  ⟨hc, hs, fun n => by rw [Core.fc, Core.fc, hf]; exact SameRegs.refl _⟩

/-- Every core keeps its commands, its error counts and its contexts' registers. -/
def SameQueues (s t : State) : Prop := ∀ k, SameQueue (s.core k) (t.core k)

theorem SameQueues.of_cores {s t : State} (h : t.cores = s.cores) : SameQueues s t := fun k => by
  rw [State.core, State.core, h]
  exact SameQueue.refl _

theorem SameQueues.refl (s : State) : SameQueues s s := .of_cores rfl

theorem SameQueues.trans {s t u : State} (h : SameQueues s t) (h' : SameQueues t u) : SameQueues s u := fun k => (h k).trans (h' k)

theorem SameQueues.allRegs {s t : State} (h : SameQueues s t) : AllRegs s t := fun k => (h k).regs

theorem State.modCore_sameQueues (s : State) (k : CoreId) {f : Core → Core} (hf : ∀ c, SameQueue c (f c)) :
    SameQueues s (s.modCore k f) := fun j => by
  by_cases h : k = j
  · subst h; rw [State.core_modCore_same]; exact hf _
  · rw [State.core_modCore_ne _ _ h]; exact SameQueue.refl _

theorem State.mapCores_sameQueues (s : State) {f : CoreId → Core → Core} (hf : ∀ j c, SameQueue c (f j c)) :
    SameQueues s (s.mapCores f) := fun k => by
  obtain h | h := s.core_mapCores f k <;> rw [h]
  · exact hf _ _
  · exact SameQueue.refl _

theorem State.raiseHalt_sameQueues (s : State) (k : CoreId) : SameQueues s (s.raiseHalt k) := by
  unfold State.raiseHalt
  split
  · exact SameQueues.refl s
  next p _ =>
    split
    · exact SameQueues.refl s
    · extract_lets clocks u v fresh
      have hv : SameQueues s v := by
        unfold v
        split
        · split <;> exact .of_cores rfl
        · exact .of_cores rfl
      have hw : SameQueues v (v.mapCores fun j c => if rectHas p.rect j then fresh c else c) := v.mapCores_sameQueues fun j c => by
        split
        · exact .of_fcs rfl rfl rfl
        · exact SameQueue.refl c
      exact hv.trans hw

theorem State.setBytes_sameQueues (s : State) (l : Loc) (bs : List Byte) : SameQueues s (s.setBytes l bs) := by
  obtain ⟨m, h, e⟩ := State.setBytes_eq bs s l
  rw [e]
  exact .of_cores rfl

theorem State.writeRecord_sameQueues (s : State) (k : CoreId) (r : Nat) (bs : List Byte) : SameQueues s (s.writeRecord k r bs) :=
  (s.setBytes_sameQueues _ _).trans (State.modCore_sameQueues _ k fun _ => .of_fcs rfl rfl rfl)

theorem State.unitFault_sameQueues (s : State) (k : CoreId) (r code flags : Nat) (body : List Byte) :
    SameQueues s (s.unitFault k r code flags body) := by
  have hhalt := s.raiseHalt_sameQueues k
  unfold State.unitFault
  extract_lets u
  split
  · exact hhalt
  · exact (hhalt.trans (u.writeRecord_sameQueues k r _)).trans (State.modCore_sameQueues _ k fun _ => .of_fcs rfl rfl rfl)

theorem State.arrayFault_sameQueues (s : State) (k : CoreId) (code : Nat) (word : QWord) : SameQueues s (s.arrayFault k code word) := by
  have hhalt := s.raiseHalt_sameQueues k
  unfold State.arrayFault
  extract_lets u
  split
  · exact hhalt
  · exact hhalt.trans (State.modCore_sameQueues _ k fun _ => .of_fcs rfl rfl rfl)

theorem State.recordFailure_sameQueues (s : State) (k : CoreId) (e : CmdEntry) (reason : Nat) (via : Option (Nat × Nat × Nat)) :
    SameQueues s (s.recordFailure k e reason via) := by
  unfold State.recordFailure
  extract_lets c
  split
  · exact s.arrayFault_sameQueues k _ _
  all_goals exact s.unitFault_sameQueues k _ _ _ _

theorem Core.noteWrite_sameQueue (c : Core) (l : Loc) (w : Option (Fin 8)) : SameQueue c (c.noteWrite l w) :=
  ⟨rfl, rfl, fun n => ((c.noteWrite_onlyWatches l w).fcs n).sameRegs⟩

theorem State.setPail_sameQueues (s : State) (x i : Nat) (p : Pail) : SameQueues s (s.setPail x i p) :=
  (s.setBytes_sameQueues _ _).trans (State.mapCores_sameQueues _ fun _ c => c.noteWrite_sameQueue _ _)

theorem onlyTurns_part {c d : Core} (h : OnlyTurns c d) {α : Type} (f : Core → α)
    (hf : ∀ (c : Core) v r n, f { c with fcs := v, run := r, counters := n } = f c) : f d = f c :=
  (hf d c.fcs c.run c.counters).symm.trans (congrArg f h)

theorem Core.switch_sameQueue (c : Core) : SameQueue c c.switch := by
  obtain ⟨honly, hfcs⟩ := c.switch_spec
  exact ⟨onlyTurns_part honly Core.cmds fun _ _ _ _ => rfl, onlyTurns_part honly Core.soft fun _ _ _ _ => rfl, fun n => (hfcs n).sameRegs⟩

theorem Core.setFc_sameQueue (c : Core) (n : Fin 8) {f : FiringCtx} (hf : SameRegs (c.fc n) f) : SameQueue c (c.setFc n f) :=
  ⟨rfl, rfl, fun m => by
    by_cases h : n = m
    · subst h; rw [Core.fc_setFc_same]; exact hf
    · rw [Core.fc_setFc_ne _ _ h]; exact SameRegs.refl _⟩

theorem State.quietAt_sameQueues (s : State) (k : CoreId) (n : Fin 8) (cause detail : Nat) :
    SameQueues s (s.quietAt k n cause detail) := by
  unfold State.quietAt
  extract_lets u v
  refine ((s.raiseHalt_sameQueues k).trans (u.writeRecord_sameQueues k _ _)).trans (State.modCore_sameQueues v k fun c => ?_)
  have hset : SameQueue c (c.setFc n { c.fc n with status := .ready, stopped := true }) := c.setFc_sameQueue n (SameRegs.refl _)
  dsimp only
  split
  · exact hset.trans (Core.switch_sameQueue _)
  · exact hset

theorem State.failWaiters_sameQueues (s : State) (k : CoreId) (e : CmdEntry) (reason : Nat) : SameQueues s (s.failWaiters k e reason) := by
  unfold State.failWaiters
  generalize List.finRange 8 = ns
  induction ns generalizing s with
  | nil => exact SameQueues.refl s
  | cons n r ih =>
    rw [List.foldl_cons]
    refine SameQueues.trans ?_ (ih _)
    extract_lets f meets
    split
    · exact s.quietAt_sameQueues k n _ _
    · exact SameQueues.refl s

/-! ## Failure (05 R155, 13 R387) -/

/-- A command that fails is marked so; other commands, error counts and registers are as they were. -/
theorem State.failCommand_spec {s : State} {k : CoreId} {e : CmdEntry} (he : (s.core k).cmdEntry e.id = some e) (reason : Nat) :
    ((s.failCommand k e reason none).core k).cmdEntry e.id = some { e with stage := .failed reason } ∧
      ((s.failCommand k e reason none).core k).soft = (s.core k).soft ∧ AllRegs s (s.failCommand k e reason none) := by
  unfold State.failCommand
  extract_lets cmd u v w y
  have hw : SameQueues s w := by
    have hu : SameQueues s v := s.recordFailure_sameQueues k e reason none
    unfold w
    split
    · exact hu.trans (v.setPail_sameQueues _ _ _)
    · exact hu
  have hy : y.core k = (w.core k).modCmd e.id fun d => { d with stage := .failed reason } := State.core_modCore_same _ _ _
  have hlast := y.failWaiters_sameQueues k e reason
  have hentry : (y.core k).cmdEntry e.id = some { e with stage := .failed reason } := by
    rw [hy]
    exact Core.cmdEntry_modCmd (by rw [Core.cmdEntry, (hw k).cmds]; exact he) fun _ => rfl
  refine ⟨?_, ?_, allRegs_trans hw.allRegs (allRegs_trans (w.modCore_allRegs k fun n => SameRegs.refl _) hlast.allRegs)⟩
  · rw [Core.cmdEntry, (hlast k).cmds]
    exact hentry
  · rw [(hlast k).soft, hy]
    exact (hw k).soft

theorem Core.id_of_cmdEntry {c : Core} {id : Nat} {e : CmdEntry} (h : c.cmdEntry id = some e) : e.id = id := by
  simpa using List.find?_some h

/-- A command at work whose data has an uncorrectable error fails with reason 0x24, and the error is counted (13 R387). -/
theorem commandFailure_spec {s : State} {k : CoreId} {id : Nat} {e : CmdEntry} (he : (s.core k).cmdEntry id = some e)
    (hstage : e.stage = .scoreboard ∨ e.stage = .running) (hunit : (s.core k).unitStopped (opOf e.word) = false) :
    ∃ t, exec (.commandFailure k id 0x24) s = .next t ∧ (t.core k).cmdEntry id = some { e with stage := .failed 0x24 } ∧
      look (t.core k).soft 5 = some (min 255 ((look (s.core k).soft 5).getD 0 + 1)) ∧ AllRegs s t := by
  have hexec : exec (.commandFailure k id 0x24) s = .next ((s.failCommand k e 0x24 none).modCore k fun c => c.countError 5) := by
    change execCommandFailure k id 0x24 s = _
    unfold execCommandFailure
    rw [he]
    dsimp only
    rw [if_neg, if_pos rfl]
    obtain h | h := hstage <;> simp [h, hunit]
  obtain rfl := Core.id_of_cmdEntry he
  obtain ⟨hentry, hsoft, hregs⟩ := State.failCommand_spec he 0x24
  generalize s.failCommand k e 0x24 none = u at hexec hentry hsoft hregs
  refine ⟨_, hexec, ?_, ?_, allRegs_trans hregs (u.modCore_allRegs k fun n => SameRegs.refl _)⟩
  · rw [State.core_modCore_same]
    exact hentry
  · rw [State.core_modCore_same, ← hsoft]
    exact look_put_same _ _ _

/-! ## Start (05 R152) -/

section Start
variable {s : State} {k : CoreId} {id : Nat} {e : CmdEntry}

/-- A command goes on to a stage. -/
theorem stage_spec (he : (s.core k).cmdEntry id = some e) (g : CmdStage) :
    let t := State.modCmd { s with now := k } id fun d => { d with stage := g }
    (t.core k).cmdEntry id = some { e with stage := g } ∧ AllRegs s t ∧ Bytes s t := by
  obtain rfl := Core.id_of_cmdEntry he
  obtain ⟨hentry, hbytes, hregs⟩ := becomes_modCmd (s := { s with now := k }) (u := { s with now := k })
    (fun _ _ => SameRegs.refl _) (fun _ => rfl) he (f := fun d => { d with stage := g }) fun _ => rfl
  exact ⟨hentry, hregs, hbytes⟩

theorem commandStart_enters (he : (s.core k).cmdEntry id = some e) (hrec : 14 ∉ (s.core k).records) (hstage : e.stage = .queued)
    (hfirst : ((s.core k).queued.head?.map fun q => q.id) = some id) (hroom : (s.core k).scoreboard.length < 16)
    (hop : opOf e.word ≠ 0x0A) :
    exec (.commandStart k id) s = .next (State.modCmd { s with now := k } id fun d => { d with stage := .scoreboard }) := by
  change execCommandStart k id s = _
  unfold execCommandStart
  extract_lets s0 u
  rw [show u.cur = s.core k from rfl, he]
  dsimp only
  rw [if_neg (by simpa using hrec), hstage]
  refine (if_neg ?_).trans (if_pos hop)
  simp only [ne_eq, hfirst, not_true_eq_false, false_or, Bool.or_eq_true, decide_eq_true_eq]
  omega

theorem commandStart_waits (he : (s.core k).cmdEntry id = some e) (hrec : 14 ∉ (s.core k).records) (hstage : e.stage = .queued)
    (hfull : 16 ≤ (s.core k).scoreboard.length) : exec (.commandStart k id) s = .next s := by
  change execCommandStart k id s = _
  unfold execCommandStart
  extract_lets s0 u
  rw [show u.cur = s.core k from rfl, he]
  dsimp only
  rw [if_neg (by simpa using hrec), hstage]
  exact if_pos (by simp [hfull])

theorem commandStart_runs (he : (s.core k).cmdEntry id = some e) (hrec : 14 ∉ (s.core k).records) (hstage : e.stage = .scoreboard)
    (hwaits : (s.core k).waitsMet e = true) (hfence : (s.core k).fenced id = false) :
    exec (.commandStart k id) s = .next (State.modCmd { s with now := k } id fun d => { d with stage := .running }) := by
  change execCommandStart k id s = _
  unfold execCommandStart
  extract_lets s0 u
  rw [show u.cur = s.core k from rfl, he]
  dsimp only
  rw [if_neg (by simpa using hrec), hstage]
  exact if_pos (by rw [hwaits, hfence]; rfl)

end Start

/-! ## Walks of the atlas (05 R143) -/

/-- A walk that fails no command at work changes nothing. -/
theorem atlasWalk_idle {s : State} {die tensor plate : Nat}
    (h : ∀ k, dieOf k = die → ∀ e ∈ (s.core k).cmds, e.stage = .running → s.failsWith k e 0x23 = none) :
    exec (.atlasWalk die tensor plate) s = .next s := by
  have hcmds (k : CoreId) (l : List CmdEntry) (hl : ∀ e ∈ l, s.failsWith k e 0x23 = none) :
      l.foldl (fun u e => match u.failsWith k e 0x23 with
        | some v => if v.portPlate k = (tensor, plate) then v else u
        | none => u) s = s := by
    induction l with
    | nil => rfl
    | cons e r ih =>
      rw [List.foldl_cons, hl e List.mem_cons_self]
      exact ih fun d hd => hl d (List.mem_cons_of_mem _ hd)
  have hcores (ks : List CoreId) (hks : ∀ k ∈ ks, dieOf k = die) :
      ks.foldl (fun t k => ((t.core k).cmds.filter fun e => e.stage = .running).foldl (fun u e => match u.failsWith k e 0x23 with
        | some v => if v.portPlate k = (tensor, plate) then v else u
        | none => u) t) s = s := by
    induction ks with
    | nil => rfl
    | cons k r ih =>
      rw [List.foldl_cons, hcmds k _ fun e he => ?_]
      · exact ih fun j hj => hks j (List.mem_cons_of_mem _ hj)
      · obtain ⟨hin, hrun⟩ := List.mem_filter.1 he
        exact h k (hks k List.mem_cons_self) e hin (by simpa using hrun)
  have hdie : ∀ k ∈ coresOf die, dieOf k = die := fun k hk => by simpa [coresOf] using (List.mem_filter.1 hk).2
  exact congrArg Host.Outcome.next (hcores _ hdie)

end Sys2Proof.Machine
end

section
/-!
Completion of a command (05 R153): its count in its pail (11 R315).
-/
namespace Sys2Proof.Machine

open Sys2Proof.Safety

/-! ## Pails (11 R314) -/

/-- Every field of a pail fits in its bytes. -/
structure Pail.Fits (p : Pail) : Prop where
  count : p.count < 2 ^ 32
  target : p.target < 2 ^ 32
  gen : p.gen < 2 ^ 32
  state : p.state < 2 ^ 8
  reason : p.reason < 2 ^ 8

theorem leNat_lt (bs : List Byte) : leNat bs < 256 ^ bs.length := by
  induction bs with
  | nil => decide
  | cons b r ih =>
    rw [leNat, List.length_cons, pow_succ]
    have := b.isLt
    omega

theorem State.length_bytesAt (s : State) (l : Loc) (n : Nat) : (s.bytesAt l n).length = n := by simp [State.bytesAt, upto]

theorem State.pail_fits (s : State) (x i : Nat) : (s.pail x i).Fits := by
  have h (l : Loc) (n : Nat) : leNat (s.bytesAt l n) < 256 ^ n := (leNat_lt _).trans_eq (by rw [s.length_bytesAt])
  exact ⟨h _ 4, h _ 4, h _ 4, h _ 1, h _ 1⟩

theorem Pail.add_fits {p : Pail} (h : p.Fits) (c : Nat) : (p.add c).Fits := by
  unfold Pail.add
  split
  · exact h
  · split
    · exact ⟨Nat.mod_lt _ (by decide), h.target, h.gen, h.state, h.reason⟩
    · exact ⟨Nat.mod_lt _ (by decide), h.target, Nat.mod_lt _ (by decide), h.state, h.reason⟩

/-- The bytes of a pail. -/
def Pail.bytes (p : Pail) : List Byte :=
  leBytes 4 p.count ++ leBytes 4 p.target ++ leBytes 4 p.gen ++ leBytes 1 p.state ++ leBytes 1 p.reason

theorem Pail.length_bytes (p : Pail) : p.bytes.length = 14 := by simp [Pail.bytes, length_leBytes]

theorem State.setPail_eq (s : State) (x i : Nat) (p : Pail) :
    s.setPail x i p = (s.setBytes ((s.ctx x).pailLoc i) p.bytes).noteWrite ((s.ctx x).pailLoc i).line none := rfl

theorem State.setPail_spec (s : State) (x i : Nat) (p : Pail) :
    (s.setPail x i p).hbm = s.hbm.putBytes ((s.ctx x).pailLoc i).addr p.bytes ∧ (s.setPail x i p).ctxs = s.ctxs := by
  rw [State.setPail_eq, State.noteWrite, State.mapCores, Context.pailLoc, State.setBytes_stacks]
  exact ⟨rfl, rfl⟩

/-- Fields of a pail's bytes. -/
theorem Pail.fields_bytes (p : Pail) :
    (p.bytes.drop 0).take 4 = leBytes 4 p.count ∧ (p.bytes.drop 4).take 4 = leBytes 4 p.target ∧
      (p.bytes.drop 8).take 4 = leBytes 4 p.gen ∧ (p.bytes.drop 12).take 1 = leBytes 1 p.state ∧
      (p.bytes.drop 13).take 1 = leBytes 1 p.reason := by
  simp only [Pail.bytes, leBytes]
  exact ⟨rfl, rfl, rfl, rfl, rfl⟩

/-- A pail that has been written reads as written. -/
theorem State.pail_setPail {s : State} (hw : s.hbm.wf = true) (x i : Nat) {p : Pail} (hp : p.Fits) : (s.setPail x i p).pail x i = p := by
  obtain ⟨hmem, hctxs⟩ := s.setPail_spec x i p
  generalize s.setPail x i p = t at hmem hctxs ⊢
  have hctx : t.ctx x = s.ctx x := by rw [State.ctx, State.ctx, hctxs]
  have hread {off n : Nat} (hn : off + n ≤ 14) :
      t.bytesAt (((t.ctx x).pailLoc i).plus off) n = (p.bytes.drop off).take n := by
    rw [hctx, Context.pailLoc, Loc.plus, bytesAt_of_hbm, hmem, Context.pailLoc]
    exact Memory.bytes_putBytes_part hw _ (by rw [Pail.length_bytes]; exact hn)
  have hfield {n v : Nat} (hv : v < 256 ^ n) : leNat (leBytes n v) = v := by rw [leNat_leBytes, Nat.mod_eq_of_lt hv]
  obtain ⟨hcount, htarget, hgen, hstate, hreason⟩ := hp
  obtain ⟨h0, h4, h8, h12, h13⟩ := p.fields_bytes
  simp only [State.pail]
  rw [hread (by decide), hread (by decide), hread (by decide), hread (by decide), hread (by decide), h0, h4, h8, h12, h13,
    hfield hcount, hfield htarget, hfield hgen, hfield hstate, hfield hreason]

/-! ## What follows a completion -/

theorem Context.pailLoc_modFiring (c : Context) (fid : Nat) (u : Firing → Firing) (i : Nat) : (c.modFiring fid u).pailLoc i = c.pailLoc i :=
  rfl

theorem Context.pailLoc_endPhase (c : Context) (fid i : Nat) : (c.endPhase fid).pailLoc i = c.pailLoc i := by
  rw [Context.endPhase, Context.pailLoc_modFiring, Context.makeCurrent]
  split <;> rfl

/-- What follows the last command of a firing leaves pails as they are. -/
theorem State.pail_settle (s : State) (k : CoreId) (fid x i : Nat) : (s.settle k fid).pail x i = s.pail x i := by
  have hloc : ((s.settle k fid).ctx x).pailLoc i = (s.ctx x).pailLoc i := by
    unfold State.settle
    extract_lets y f
    split
    · by_cases hx : y = x
      · subst hx
        rw [State.ctx_modCtx_same]
        dsimp only
        split
        · rfl
        · split
          · exact Context.pailLoc_endPhase _ fid i
          · rfl
      · rw [State.ctx_modCtx_ne _ _ hx]
    · rfl
  obtain ⟨⟨cs, hcs⟩, -⟩ := s.settle_spec k fid
  rw [State.pail, hloc, hcs]
  rfl

/-! ## Completion (05 R153) -/

section Complete
variable {s : State} {k : CoreId} {id : Nat} {e : CmdEntry}

/-- The state without a command that has completed. -/
def State.withoutCmd (s : State) (k : CoreId) (id : Nat) (e : CmdEntry) : State :=
  s.modCore k fun c => ({ c with cmds := c.cmds.filter fun d => d.id ≠ id } : Core).endIdle (some e.fid)

/-- A completed command's count goes to its pail. -/
def State.pailCounted (s : State) (x : Nat) (e : CmdEntry) : State :=
  if (cmdOf e.word).p && (look s.ctxs x).isSome then
    s.setPail x (cmdOf e.word).pail.toNat ((s.pail x (cmdOf e.word).pail.toNat).add e.count)
  else s

theorem exec_commandComplete (he : (s.core k).cmdEntry id = some e) (hstage : e.stage = .performed)
    (hunit : (s.core k).unitStopped (opOf e.word) = false) :
    exec (.commandComplete k id) s = .next (((s.withoutCmd k id e).pailCounted (s.cxId k) e).settle k e.fid) := by
  change execCommandComplete k id s = _
  unfold execCommandComplete
  rw [he]
  exact if_neg (by rw [hstage, hunit]; nofun)

theorem commandComplete_stopped (he : (s.core k).cmdEntry id = some e)
    (hunit : (s.core k).unitStopped (opOf e.word) = true) : exec (.commandComplete k id) s = .next s := by
  change execCommandComplete k id s = _
  unfold execCommandComplete
  rw [he]
  exact if_pos (by rw [hunit, Bool.or_true])

theorem State.withoutCmd_spec (s : State) (k : CoreId) (id : Nat) (e : CmdEntry) :
    ((s.withoutCmd k id e).core k).cmdEntry id = none ∧ AllRegs s (s.withoutCmd k id e) := by
  refine ⟨?_, s.modCore_allRegs k fun n => Core.endIdle_sameRegs _ _ n⟩
  rw [State.withoutCmd, State.core_modCore_same]
  refine List.find?_eq_none.2 fun d hd => ?_
  simpa using (List.mem_filter.1 hd).2

theorem commandComplete_spec (he : (s.core k).cmdEntry id = some e) (hstage : e.stage = .performed)
    (hunit : (s.core k).unitStopped (opOf e.word) = false) :
    ∃ t, exec (.commandComplete k id) s = .next t ∧ (t.core k).cmdEntry id = none ∧ AllRegs s t ∧
      ((cmdOf e.word).p = false → Bytes s t) ∧
      ((cmdOf e.word).p = true → (look s.ctxs (s.cxId k)).isSome → s.hbm.wf = true →
        t.pail (s.cxId k) (cmdOf e.word).pail.toNat = (s.pail (s.cxId k) (cmdOf e.word).pail.toNat).add e.count) := by
  refine ⟨_, exec_commandComplete he hstage hunit, ?_⟩
  obtain ⟨hnone, hregs⟩ := s.withoutCmd_spec k id e
  let u := s.withoutCmd k id e
  let v := u.pailCounted (s.cxId k) e
  have huv : SameQueues u v := by
    unfold v State.pailCounted
    split
    · exact u.setPail_sameQueues _ _ _
    · exact SameQueues.refl u
  obtain ⟨⟨cs, hcs⟩, -⟩ := v.settle_spec k e.fid
  refine ⟨?_, ?_, fun hp => ?_, fun hp hx hw => ?_⟩
  · rw [hcs]
    change (v.core k).cmdEntry id = none
    rw [Core.cmdEntry, (huv k).cmds]
    exact hnone
  · rw [hcs]
    exact allRegs_trans hregs (allRegs_trans huv.allRegs (allRegs_of_cores rfl))
  · have hv : v = u := if_neg (by rw [hp]; nofun)
    rw [hcs, hv]
    exact fun _ => rfl
  · have hv : v = u.setPail (s.cxId k) (cmdOf e.word).pail.toNat ((u.pail (s.cxId k) (cmdOf e.word).pail.toNat).add e.count) :=
      if_pos (by rw [hp]; exact hx)
    rw [State.pail_settle]
    change v.pail _ _ = _
    rw [hv, State.pail_setPail (s := u) hw _ _ (Pail.add_fits (u.pail_fits _ _) _)]
    rfl

end Complete

end Sys2Proof.Machine
end

section
/-!
Atlas changes (05 R144, R156, R157): tokens that leave generators, and firmware's changes of entries.
-/
namespace Sys2Proof.Machine

open Sys2Proof.Safety

/-! ## Latches of generators (05 R156) -/

/-- A token of a change waits in a generator. -/
def Context.tokenWaits (c : Context) (k : CoreId) (site : Nat) : Bool := c.changes.any fun r => r.tokens.contains (k, site)

/-- A core of a context whose generators have the context's latch where no token waits. -/
def Core.latchedAt (d : Core) (c : Context) (k : CoreId) : Core :=
  let latches := d.fabric.latches.map fun l => if c.tokenWaits k l.1 then l else (l.1, c.epoch)
  { d with fabric := { d.fabric with latches := latches } }

theorem State.latchIdle_eq (s : State) (x : Nat) :
    s.latchIdle x = s.mapCores fun k d => if s.cxId k ≠ x then d else d.latchedAt (s.ctx x) k := rfl

theorem Core.latch_latchedAt (d : Core) (c : Context) (k : CoreId) (site : Nat) : look (d.latchedAt c k).fabric.latches site =
    (look d.fabric.latches site).map fun l => if c.tokenWaits k site then l else c.epoch := by
  have hmap : (d.fabric.latches.map fun l => if c.tokenWaits k l.1 then l else (l.1, c.epoch)) =
      d.fabric.latches.map fun l => (l.1, (fun n v => if c.tokenWaits k n then v else c.epoch) l.1 l.2) :=
    List.map_congr_left fun l _ => by
      dsimp only
      split <;> rfl
  rw [Core.latchedAt, hmap]
  exact look_map_value _ (fun n v => if c.tokenWaits k n then v else c.epoch) site

/-- A generator where no token waits has the present latch, and another its own. -/
theorem State.latch_latchIdle (s : State) (k : CoreId) (site : Nat) :
    look ((s.latchIdle (s.cxId k)).core k).fabric.latches site = (look (s.core k).fabric.latches site).map fun l =>
      if (s.ctx (s.cxId k)).tokenWaits k site then l else (s.ctx (s.cxId k)).epoch := by
  rw [State.latchIdle_eq]
  obtain ⟨c, -, hc, h⟩ | ⟨hc, h⟩ := s.core_mapCores_or_reset
    (fun j d => if s.cxId j ≠ s.cxId k then d else d.latchedAt (s.ctx (s.cxId k)) j) k
  · rw [h, hc, if_neg (by simp), Core.latch_latchedAt]
  · rw [h, hc]
    rfl

theorem State.latchIdle_allRegs (s : State) (x : Nat) : AllRegs s (s.latchIdle x) := fun k n => by
  rw [State.latchIdle_eq]
  obtain h | h := s.core_mapCores (fun k d => if s.cxId k ≠ x then d else d.latchedAt (s.ctx x) k) k
  · rw [h]
    split <;> exact SameRegs.refl _
  · rw [h]
    exact SameRegs.refl _

/-! ## Tokens (05 R157) -/

/-- The tokens of a change leave a generator with nothing left to finish for it. -/
def State.passToken (s : State) (k : CoreId) (site : Nat) (r : AtlasChange) : AtlasChange :=
  if (s.tokensOf (s.cxId k) r).contains (k, site) then r else { r with tokens := r.tokens.erase (k, site) }

theorem exec_relatchToken {s : State} {k : CoreId} (site : Nat) (hx : (look s.ctxs (s.cxId k)).isSome) :
    exec (.relatchToken k site) s = .next (((s.modCtx (s.cxId k) fun c => { c with changes := c.changes.map (s.passToken k site) }).latchIdle
      (s.cxId k)).trim (s.cxId k)) :=
  if_neg (by rw [Option.isNone_iff_eq_none]; exact Option.isSome_iff_ne_none.1 hx)

/-- A generator's last token leaves it, and its latch is the present one; other generators keep theirs while tokens wait in them. -/
theorem relatchToken_spec {s : State} {k : CoreId} {site l : Nat} (hl : look (s.core k).fabric.latches site = some l)
    (hx : (look s.ctxs (s.cxId k)).isSome)
    (hpass : ∀ r ∈ (s.ctx (s.cxId k)).changes, r.tokens.Nodup ∧ (k, site) ∉ s.tokensOf (s.cxId k) r) :
    ∃ t, exec (.relatchToken k site) s = .next t ∧ look (t.core k).fabric.latches site = some (s.ctx (s.cxId k)).epoch ∧ AllRegs s t ∧
      Bytes s t ∧ ∀ r ∈ (s.ctx (s.cxId k)).changes, ∀ n, n ≠ site → (k, n) ∈ r.tokens →
        look (t.core k).fabric.latches n = look (s.core k).fabric.latches n := by
  let u := s.modCtx (s.cxId k) fun c => { c with changes := c.changes.map (s.passToken k site) }
  have hctx : u.ctx (s.cxId k) = { s.ctx (s.cxId k) with changes := (s.ctx (s.cxId k)).changes.map (s.passToken k site) } :=
    State.ctx_modCtx_same _ _ _
  have hpassed {r : AtlasChange} (hr : r ∈ (s.ctx (s.cxId k)).changes) : (s.passToken k site r).tokens = r.tokens.erase (k, site) := by
    rw [State.passToken, if_neg (by simpa using (hpass r hr).2)]
  have hlatch (n : Nat) : look ((u.latchIdle (s.cxId k)).core k).fabric.latches n = _ := u.latch_latchIdle k n
  refine ⟨_, exec_relatchToken site hx, ?_, ?_, ?_, fun r hr n hn hin => ?_⟩
  · have hgone : (u.ctx (s.cxId k)).tokenWaits k site = false := by
      rw [Context.tokenWaits, hctx, List.any_eq_false]
      intro q hq
      obtain ⟨r, hr, rfl⟩ := List.mem_map.1 hq
      rw [hpassed hr, List.contains_iff_mem]
      exact (hpass r hr).1.not_mem_erase
    have hepoch : (u.ctx (s.cxId k)).epoch = (s.ctx (s.cxId k)).epoch := by rw [hctx]
    refine (hlatch site).trans ?_
    change (look (s.core k).fabric.latches site).map (fun l => if (u.ctx (s.cxId k)).tokenWaits k site then l else
      (u.ctx (s.cxId k)).epoch) = _
    rw [hl, hgone, hepoch]
    rfl
  · exact allRegs_trans (allRegs_of_cores (t := u) rfl) (u.latchIdle_allRegs (s.cxId k))
  · exact fun _ => rfl
  · have hstays : (u.ctx (s.cxId k)).tokenWaits k n = true := by
      rw [Context.tokenWaits, hctx, List.any_eq_true]
      refine ⟨_, List.mem_map_of_mem hr, ?_⟩
      rw [hpassed hr, List.contains_iff_mem]
      exact (List.mem_erase_of_ne fun h => hn (Prod.mk.inj h).2).2 hin
    refine (hlatch n).trans ?_
    change (look (s.core k).fabric.latches n).map (fun l => if (u.ctx (s.cxId k)).tokenWaits k n then l else
      (u.ctx (s.cxId k)).epoch) = _
    simp [hstays]

/-! ## A change of an entry (05 R144, R156) -/

section Entry
variable {c : Context} {t p : Nat} {e : AtlasEntry}

/-- The entry takes its new value now. -/
theorem Context.entryNow_changeEntry (keep : Bool) : (c.changeEntry t p e keep).entryNow t p = e :=
  congrArg (fun o : Option AtlasEntry => o.getD AtlasEntry.reset) (look_put_same _ _ _)

/-- Without an older entry on record every latch sees the present one. -/
theorem Context.entryAt_of_none {n : Nat} (h : ∀ o ∈ c.oldAtlas, o.1 = (t, p) → o.2.1 ≤ n) : c.entryAt t p n = c.entryNow t p := by
  have hnone : c.oldAtlas.filter (fun o => o.1 = (t, p) && n < o.2.1) = [] := by
    refine List.filter_eq_nil_iff.2 fun o ho hc => ?_
    simp only [Bool.and_eq_true, decide_eq_true_eq] at hc
    exact absurd (h o ho hc.1) (Nat.not_le.2 hc.2)
  rw [Context.entryAt, hnone]
  rfl

/-- Latches up to now see a mapped entry as it was, and later ones as it is. -/
theorem Context.entryAt_changeEntry_mapped (hres : (c.entryNow t p).res ≤ 16) (hold : ∀ o ∈ c.oldAtlas, o.2.1 ≤ c.epoch) :
    (c.changeEntry t p e true).entryAt t p c.epoch = c.entryNow t p ∧ (c.changeEntry t p e true).entryAt t p (c.epoch + 1) = e := by
  have holdAtlas : (c.changeEntry t p e true).oldAtlas = c.oldAtlas ++ [((t, p), c.epoch + 1, c.entryNow t p)] := by
    have hnoted : (c.oldAtlas.any fun o => o.1 = (t, p) && o.2.1 = c.epoch + 1) = false := by
      refine List.any_eq_false.2 fun o ho hc => ?_
      simp only [Bool.and_eq_true, decide_eq_true_eq] at hc
      have := hold o ho
      omega
    simp [Context.changeEntry, hres, hnoted]
  constructor
  · have hlater : (c.changeEntry t p e true).oldAtlas.filter (fun o => o.1 = (t, p) && c.epoch < o.2.1) =
        [((t, p), c.epoch + 1, c.entryNow t p)] := by
      rw [holdAtlas, List.filter_append, List.filter_eq_nil_iff.2 fun o ho hc => ?_]
      · simp
      · simp only [Bool.and_eq_true, decide_eq_true_eq] at hc
        exact absurd (hold o ho) (Nat.not_le.2 hc.2)
    rw [Context.entryAt, hlater]
    rfl
  · rw [Context.entryAt_of_none fun o ho _ => ?_]
    · exact Context.entryNow_changeEntry true
    · rw [holdAtlas, List.mem_append, List.mem_singleton] at ho
      obtain ho | rfl := ho
      · exact (hold o ho).trans (Nat.le_succ _)
      · exact le_rfl

/-- A plate that was absent, and that no firing's lease holds, is to every latch as it has been mapped. -/
theorem Context.entryAt_changeEntry_absent (hres : 16 < (c.entryNow t p).res)
    (hfree : ∀ f ∈ c.firings, f.2.retired = false → (t, p) ∉ f.2.lease) (n : Nat) : (c.changeEntry t p e true).entryAt t p n = e := by
  have hkeep : (c.firings.any fun f => !f.2.retired && f.2.lease.contains (t, p)) = false := by
    refine List.any_eq_false.2 fun f hf hc => ?_
    simp only [Bool.and_eq_true, Bool.not_eq_true', List.contains_iff_mem] at hc
    exact hfree f hf hc.1 hc.2
  have holdAtlas : (c.changeEntry t p e true).oldAtlas = c.oldAtlas.filter fun o => o.1 ≠ (t, p) := by
    simp only [Context.changeEntry, hkeep, decide_eq_false (Nat.not_le.2 hres)]
    rfl
  rw [Context.entryAt_of_none fun o ho h => ?_]
  · exact Context.entryNow_changeEntry true
  · rw [holdAtlas] at ho
    exact absurd h (by simpa using (List.mem_filter.1 ho).2)

end Entry

/-! ## Leases examined again (04 R123) -/

/-- From s to t leases have been examined: cores, memory, and the atlas of every context are as they were. -/
structure LeasesExamined (s t : State) : Prop where
  cores : t.cores = s.cores
  hbm : t.hbm = s.hbm
  hostMem : t.hostMem = s.hostMem
  ctxs : ∀ y, { t.ctx y with launches := (s.ctx y).launches, firings := (s.ctx y).firings } = s.ctx y

theorem LeasesExamined.of_ctxs {s t : State} (hc : t.cores = s.cores) (hm : t.hbm = s.hbm) (hh : t.hostMem = s.hostMem)
    (hx : t.ctxs = s.ctxs) : LeasesExamined s t := ⟨hc, hm, hh, fun y => by rw [State.ctx, State.ctx, hx]⟩

theorem LeasesExamined.refl (s : State) : LeasesExamined s s := .of_ctxs rfl rfl rfl rfl

theorem LeasesExamined.trans {s t u : State} (h : LeasesExamined s t) (h' : LeasesExamined t u) : LeasesExamined s u :=
  ⟨h'.cores.trans h.cores, h'.hbm.trans h.hbm, h'.hostMem.trans h.hostMem, fun y => by
    have heq := congrArg (fun c : Context => { c with launches := (s.ctx y).launches, firings := (s.ctx y).firings }) (h'.ctxs y)
    exact heq.trans (h.ctxs y)⟩

/-- A part of a context that the examination of leases does not reach. -/
theorem LeasesExamined.part {s t : State} (h : LeasesExamined s t) (y : Nat) {α : Type} (f : Context → α)
    (hf : ∀ (c : Context) l r, f { c with launches := l, firings := r } = f c) : f (t.ctx y) = f (s.ctx y) :=
  (hf (t.ctx y) (s.ctx y).launches (s.ctx y).firings).symm.trans (congrArg f (h.ctxs y))

theorem State.modCtx_leasesExamined (s : State) (x : Nat) {f : Context → Context}
    (hf : ∀ c, { f c with launches := c.launches, firings := c.firings } = c) : LeasesExamined s (s.modCtx x f) :=
  ⟨rfl, rfl, rfl, fun y => by
    by_cases h : x = y
    · subst h; rw [State.ctx_modCtx_same]; exact hf _
    · rw [State.ctx_modCtx_ne _ _ h]⟩

theorem State.grant_leasesExamined (s : State) (x : Nat) (ps : List (Nat × Nat)) {k : State → State} (hk : LeasesExamined s (k s)) :
    LeasesExamined s (s.grant x ps k) := by
  unfold State.grant
  dsimp only
  split
  · exact hk
  · exact .of_ctxs rfl rfl rfl rfl

theorem State.leaseTurn_leasesExamined (s : State) (x : Nat) (w : LeaseRequest) : LeasesExamined s (s.leaseTurn x w) := by
  unfold State.leaseTurn
  dsimp only
  split
  · split
    · exact LeasesExamined.refl s
    · split
      · exact LeasesExamined.refl s
      · exact s.grant_leasesExamined x _ (s.modCtx_leasesExamined x fun _ => rfl)
  · split
    · exact LeasesExamined.refl s
    · exact s.grant_leasesExamined x _ (.of_ctxs rfl rfl rfl rfl)
  · split
    · exact LeasesExamined.refl s
    · split
      · exact LeasesExamined.refl s
      · refine s.grant_leasesExamined x _ ?_
        unfold State.modFiring
        split
        · exact s.modCtx_leasesExamined x fun _ => rfl
        · exact LeasesExamined.refl s

theorem State.foldl_leaseTurn (x : Nat) (l : List LeaseRequest) (s : State) :
    LeasesExamined s (l.foldl (fun t w => t.leaseTurn x w) s) := by
  induction l generalizing s with
  | nil => exact LeasesExamined.refl s
  | cons w r ih => exact (s.leaseTurn_leasesExamined x w).trans (ih _)

/-! ## Firmware's changes (05 R144, R149) -/

section Firmware
variable {s : State} {x tensor plate : Nat} {e : BitVec 128} {d : Tensor}

/-- The state after an entry's change that moves no frame, before leases are examined again. -/
def State.entryChanged (s : State) (x tensor plate : Nat) (new : AtlasEntry) : State :=
  (s.modCtx x fun c => { c.changeEntry tensor plate new true with epoch := (c.changeEntry tensor plate new true).epoch + 1 }).openChange
    x none 0 [(tensor, plate)] []

theorem exec_firmwareAtlasChange (hx : (look s.ctxs x).isSome) (hd : (s.ctx x).tensor tensor = some d) (hp : plate < d.plates)
    (hmap : s.mayMap x (tensor, plate) e.toNat = true)
    (hbecome : ((s.ctx x).entryNow tensor plate).mayBecome (AtlasEntry.of e.toNat) = true)
    (hstay : ((s.ctx x).entryNow tensor plate).frameKey = (AtlasEntry.of e.toNat).frameKey ∨ 16 < ((s.ctx x).entryNow tensor plate).res) :
    exec (.firmwareAtlasChange x tensor plate e) s = .next (((s.entryChanged x tensor plate (AtlasEntry.of e.toNat)).waitingLeases x
      (tensor, plate)).foldl (fun t w => t.leaseTurn x w) (s.entryChanged x tensor plate (AtlasEntry.of e.toNat))) := by
  change execFirmwareAtlasChange x tensor plate e s = _
  unfold execFirmwareAtlasChange
  have hmoves : (decide (((s.ctx x).entryNow tensor plate).res ≤ 16) &&
      decide (((s.ctx x).entryNow tensor plate).frameKey ≠ (AtlasEntry.of e.toNat).frameKey)) = false := by
    rw [Bool.and_eq_false_iff, decide_eq_false_iff_not, decide_eq_false_iff_not]
    exact hstay.elim (fun h => .inr (not_not.2 h)) fun h => .inl (Nat.not_le.2 h)
  obtain ⟨y, hy⟩ := Option.isSome_iff_exists.1 hx
  dsimp only
  rw [hy, Option.bind_some, hd]
  dsimp only
  rw [hmoves, hmap, hbecome, if_neg (by simpa using hp)]
  rfl

theorem State.entryChanged_spec (s : State) (x tensor plate : Nat) (new : AtlasEntry) :
    AllRegs s (s.entryChanged x tensor plate new) ∧ Bytes s (s.entryChanged x tensor plate new) ∧
      ∃ r, (s.entryChanged x tensor plate new).ctx x =
        { (s.ctx x).changeEntry tensor plate new true with
          epoch := ((s.ctx x).changeEntry tensor plate new true).epoch + 1
          changes := ((s.ctx x).changeEntry tensor plate new true).changes ++ [r] } := by
  let u := s.modCtx x fun c => { c.changeEntry tensor plate new true with epoch := (c.changeEntry tensor plate new true).epoch + 1 }
  have hu : u.ctx x = { (s.ctx x).changeEntry tensor plate new true with
      epoch := ((s.ctx x).changeEntry tensor plate new true).epoch + 1 } := State.ctx_modCtx_same _ _ _
  have hopen : ∃ r, s.entryChanged x tensor plate new = (u.modCtx x fun c => { c with changes := c.changes ++ [r] }).latchIdle x := ⟨_, rfl⟩
  obtain ⟨r, hr⟩ := hopen
  rw [hr]
  refine ⟨State.latchIdle_allRegs (u.modCtx x fun c => { c with changes := c.changes ++ [r] }) x, fun _ => rfl, r, ?_⟩
  change (u.modCtx x fun c => { c with changes := c.changes ++ [r] }).ctx x = _
  rw [State.ctx_modCtx_same, hu]

/-- An entry's change is current at the next epoch; older latches keep what they saw of a mapped plate, and an absent one that no lease
holds is as mapped to all. -/
theorem firmwareAtlasChange_spec (hx : (look s.ctxs x).isSome) (hd : (s.ctx x).tensor tensor = some d) (hp : plate < d.plates)
    (hmap : s.mayMap x (tensor, plate) e.toNat = true)
    (hbecome : ((s.ctx x).entryNow tensor plate).mayBecome (AtlasEntry.of e.toNat) = true)
    (hstay : ((s.ctx x).entryNow tensor plate).frameKey = (AtlasEntry.of e.toNat).frameKey ∨ 16 < ((s.ctx x).entryNow tensor plate).res) :
    let new := AtlasEntry.of e.toNat
    let old := (s.ctx x).entryNow tensor plate
    ∃ t, exec (.firmwareAtlasChange x tensor plate e) s = .next t ∧ AllRegs s t ∧ Bytes s t ∧
      (t.ctx x).epoch = (s.ctx x).epoch + 1 ∧ (t.ctx x).entryNow tensor plate = new ∧
      (old.res ≤ 16 → (∀ o ∈ (s.ctx x).oldAtlas, o.2.1 ≤ (s.ctx x).epoch) → (t.ctx x).entryAt tensor plate (s.ctx x).epoch = old ∧
        (t.ctx x).entryAt tensor plate ((s.ctx x).epoch + 1) = new) ∧
      (16 < old.res → (∀ f ∈ (s.ctx x).firings, f.2.retired = false → (tensor, plate) ∉ f.2.lease) →
        ∀ n, (t.ctx x).entryAt tensor plate n = new) := by
  intro new old
  obtain ⟨hregs, hbytes, r, hctx⟩ := s.entryChanged_spec x tensor plate new
  have hexec := exec_firmwareAtlasChange hx hd hp hmap hbecome hstay
  have hleases := State.foldl_leaseTurn x ((s.entryChanged x tensor plate new).waitingLeases x (tensor, plate))
    (s.entryChanged x tensor plate new)
  have hpart {α : Type} (f : Context → α) (hf : ∀ (c : Context) l r, f { c with launches := l, firings := r } = f c) :
      f (List.foldl (fun t w => t.leaseTurn x w) (s.entryChanged x tensor plate new) _ |>.ctx x) = _ :=
    (hleases.part x f hf).trans (congrArg f hctx)
  refine ⟨_, hexec, allRegs_trans hregs (allRegs_of_cores hleases.cores),
    fun l => (bytes_of_mem hleases.hbm hleases.hostMem l).trans (hbytes l), hpart Context.epoch fun _ _ _ => rfl,
    (hpart (fun c => c.entryNow tensor plate) fun _ _ _ => rfl).trans (Context.entryNow_changeEntry true), fun hres hold => ?_,
    fun hres hfree n => ?_⟩
  · obtain ⟨hnow, hnext⟩ := Context.entryAt_changeEntry_mapped (e := new) hres hold
    exact ⟨(hpart (fun c => c.entryAt tensor plate (s.ctx x).epoch) fun _ _ _ => rfl).trans hnow,
      (hpart (fun c => c.entryAt tensor plate ((s.ctx x).epoch + 1)) fun _ _ _ => rfl).trans hnext⟩
  · exact (hpart (fun c => c.entryAt tensor plate n) fun _ _ _ => rfl).trans (Context.entryAt_changeEntry_absent hres hfree n)

end Firmware

/-- Settles O27: an equation for each event, with what halts and records leave to a queue (`SameQueues`), how a pail reads that has been
written (`State.pail_setPail`), and which entries latches see (`Context.entryAt`). -/
theorem commandPath : Obligations.CommandPath := by
  unfold Obligations.CommandPath
  refine ⟨fun s k id e he hrec => ⟨fun hstage hfirst hroom hop => ?_, fun hstage hfull => commandStart_waits he hrec hstage hfull,
      fun hstage hwaits hfence => ?_⟩,
    fun s k id e he hstage hunit => commandComplete_stopped he hunit,
    fun s k id e he hstage hunit => commandComplete_spec he hstage hunit,
    fun s k id e he hstage hunit => commandFailure_spec he hstage hunit, fun s die tensor plate h => atlasWalk_idle h,
    fun s k site l => ?_, fun s x tensor plate e d => ?_⟩
  · exact ⟨_, commandStart_enters he hrec hstage hfirst hroom hop, stage_spec he .scoreboard⟩
  · exact ⟨_, commandStart_runs he hrec hstage hwaits hfence, stage_spec he .running⟩
  · intro c hl hx hpass
    exact relatchToken_spec hl hx hpass
  · intro new old hx hd hp hmap hbecome hstay
    exact firmwareAtlasChange_spec hx hd hp hmap hbecome hstay

end Sys2Proof.Machine
end

section
/-!
What a turn of a node's lane does to its core (06 R178 to R183, R190): reading links and lanes after an update, a turn that takes
and kills, and a turn that finds a fault.
-/
namespace Sys2Proof.Machine

open Sys2Proof.Safety

/-! ## Links, lanes and nodes read back -/

theorem Core.nodeState_setNode_ne (c : Core) {site m : Nat} (n : NodeState) (h : site ≠ m) :
    (c.setNode site n).nodeState m = c.nodeState m := by
  rw [Core.nodeState, Core.nodeState, show look (c.setNode site n).fabric.nodes m = look c.fabric.nodes m from look_put_ne _ _ h]
  rfl

theorem Core.lane_modLane_ne (c : Core) {site l n m : Nat} (f : LaneState → LaneState) (h : n ≠ site ∨ m ≠ l) :
    ((c.modLane site l f).nodeState n).lane m = (c.nodeState n).lane m := by
  by_cases hn : n = site
  · subst hn
    rw [Core.modLane, Core.nodeState_setNode]
    exact nth_updNth_ne _ (h.resolve_left (not_not.2 rfl)) _ _
  · rw [Core.modLane, Core.nodeState_setNode_ne _ _ (Ne.symm hn)]

/-- The node states follow from the fabric's nodes and the image. -/
theorem Core.nodeState_congr {c d : Core} (hn : d.fabric.nodes = c.fabric.nodes) (hi : d.image = c.image) (n : Nat) :
    d.nodeState n = c.nodeState n := by
  rw [Core.nodeState, Core.nodeState, hn, hi]

theorem nth_map_upto {α : Type} {x n : Nat} (hx : x < n) (f : Nat → α) (d : α) : nth ((upto n).map f) x d = f x := by
  simp [nth, upto, hx]

/-! ## What a lane sees -/

theorem Core.head_view (c : Core) (site l : Nat) {i : Nat} (hi : i < 3) :
    (c.view site l).head i = c.headAt site (c.node site) i l := nth_map_upto hi (fun i => c.headAt site (c.node site) i l) _

theorem Core.room_view (c : Core) (site l : Nat) {x : Nat} (hx : x < 7) (d : Bool) :
    nth (c.view site l).room x d = c.outRoom site (c.node site) x := nth_map_upto hx _ _

theorem Core.idle_view (c : Core) (site l : Nat) {x : Nat} (hx : x < 7) (d : Bool) :
    nth (c.view site l).idle x d = outIdle (c.node site) (c.nodeState site) x := nth_map_upto hx _ _

theorem selectOf_of_headAt {c : Core} {site i l : Nat} {w : NodeWord} {t : Token} (h : c.headAt site w i l = some t) :
    selectOf w i ≠ 0 := fun h0 => by
  rw [Core.headAt, if_pos h0] at h
  cases h

/-! ## A step of one core's fabric -/

/-- From s to t core k becomes c, whose firing contexts have their registers; other cores, registers and bytes are as they were. -/
structure FabricStep (s t : State) (k : CoreId) (c : Core) : Prop where
  core : t.core k = c
  others : ∀ j, j ≠ k → t.core j = s.core j
  regs : AllRegs s t
  bytes : Bytes s t

theorem State.modCore_fabricStep (s : State) (k : CoreId) {f : Core → Core} (hf : (f (s.core k)).fcs = (s.core k).fcs) :
    FabricStep s (s.modCore k f) k (f (s.core k)) :=
  ⟨State.core_modCore_same _ _ _, fun _ h => State.core_modCore_ne _ _ h.symm, (s.modCore_fabric_spec k hf).2,
    (s.modCore_fabric_spec k hf).1⟩

theorem FabricStep.trans {s t u : State} {k : CoreId} {c d : Core} (h : FabricStep s t k c) (h' : FabricStep t u k d) :
    FabricStep s u k d :=
  ⟨h'.core, fun j hj => (h'.others j hj).trans (h.others j hj), allRegs_trans h.regs h'.regs, fun l => (h'.bytes l).trans (h.bytes l)⟩

/-- A change of the fabric alone. -/
theorem FabricStep.modCore {s t : State} {k : CoreId} {c : Core} (h : FabricStep s t k c) {f : Core → Core} (hf : (f c).fcs = c.fcs) :
    FabricStep s (t.modCore k f) k (f c) := by
  have hstep := t.modCore_fabricStep k (f := f) (by rw [h.core, hf])
  rw [h.core] at hstep
  exact h.trans hstep

/-! ## Inputs that give up a token, and inputs that are killed -/

/-- d is c but for its links. -/
def OnlyLinks (c d : Core) : Prop := { d with fabric := { d.fabric with links := c.fabric.links } } = c

theorem OnlyLinks.refl (c : Core) : OnlyLinks c c := rfl

theorem OnlyLinks.trans {c d e : Core} (h : OnlyLinks c d) (h' : OnlyLinks d e) : OnlyLinks c e := by
  have hpart := congrArg (fun x : Core => { x with fabric := { x.fabric with links := c.fabric.links } }) (show _ = d from h')
  exact hpart.trans h

/-- A part of a core that is not its links. -/
theorem OnlyLinks.part {c d : Core} (h : OnlyLinks c d) {α : Type} (f : Core → α)
    (hf : ∀ (c : Core) ls, f { c with fabric := { c.fabric with links := ls } } = f c) : f d = f c :=
  (hf d c.fabric.links).symm.trans (congrArg f h)

theorem Core.setLink_onlyLinks (c : Core) (site side : Nat) (l : Link) : OnlyLinks c { c with fabric := c.fabric.setLink site side l } := rfl

theorem Core.takeAt_onlyLinks (c : Core) (site : Nat) (w : NodeWord) (l i : Nat) : OnlyLinks c (c.takeAt site w l i) := rfl

theorem Core.killAt_onlyLinks (c : Core) (site : Nat) (w : NodeWord) (l i : Nat) : OnlyLinks c (c.killAt site w l i) := by
  rw [Core.killAt]
  split
  · exact OnlyLinks.refl c
  · rfl

theorem onlyLinks_foldl {g : Core → Nat → Core} (hg : ∀ c i, OnlyLinks c (g c i)) (is : List Nat) (c : Core) :
    OnlyLinks c (is.foldl g c) := by
  induction is generalizing c with
  | nil => exact OnlyLinks.refl c
  | cons i r ih => exact (hg c i).trans (ih _)

/-- A link after its number is killed for a lane, unless its END stands at the head (08 R248). -/
def Link.killedUp (m : Link) (lane : Nat) : Link := if m.head lane ≠ some .fin then m.kill lane 0 else m

theorem Core.link_takeAt_same (c : Core) (site : Nat) (w : NodeWord) (l i : Nat) :
    (c.takeAt site w l i).fabric.link site (inputSide w i) = (c.fabric.link site (inputSide w i)).take l :=
  Fabric.link_setLink_same _ _ _ _

theorem Core.link_takeAt_ne (c : Core) {site n d : Nat} (w : NodeWord) (l i : Nat) (h : (n, d) ≠ (site, inputSide w i)) :
    (c.takeAt site w l i).fabric.link n d = c.fabric.link n d :=
  Fabric.link_setLink_ne _ _ h

theorem Core.link_killAt_same (c : Core) (site : Nat) (w : NodeWord) (l i : Nat) :
    (c.killAt site w l i).fabric.link site (inputSide w i) = (c.fabric.link site (inputSide w i)).killedUp l := by
  rw [Core.killAt, Link.killedUp]
  by_cases h : (c.fabric.link site (inputSide w i)).head l = some .fin
  · rw [if_pos h, if_neg (not_not.2 h)]
  · rw [if_neg h, if_pos h]
    exact Fabric.link_setLink_same _ _ _ _

theorem Core.link_killAt_ne (c : Core) {site n d : Nat} (w : NodeWord) (l i : Nat) (h : (n, d) ≠ (site, inputSide w i)) :
    (c.killAt site w l i).fabric.link n d = c.fabric.link n d := by
  rw [Core.killAt]
  split
  · rfl
  · exact Fabric.link_setLink_ne _ _ h

/-- Inputs below 3 that a word selects. -/
def Selects (w : NodeWord) (is : List Nat) : Prop := is.Nodup ∧ ∀ i ∈ is, i < 3 ∧ selectOf w i ≠ 0

/-- No two inputs share a link (02 R48). -/
def OwnLinks (w : NodeWord) : Prop := ∀ i j, i < j → j < 3 → selectOf w i = selectOf w j → selectOf w i = 0

theorem OwnLinks.inputSide_ne {w : NodeWord} (h : OwnLinks w) {i j : Nat} (hi : i < 3) (hj : j < 3) (hi0 : selectOf w i ≠ 0)
    (hj0 : selectOf w j ≠ 0) (hij : i ≠ j) : inputSide w i ≠ inputSide w j := fun he => by
  have hsel : selectOf w i = selectOf w j := by
    rw [inputSide, inputSide] at he
    omega
  rcases Nat.lt_or_gt_of_ne hij with hlt | hlt
  · exact hi0 (h i j hlt hj hsel)
  · exact hj0 (h j i hlt hi hsel.symm)

/-- Changes of the links of some inputs, each once: a link has changed where its input is among them. -/
theorem link_foldl_inputs {g : Core → Nat → Core} {f : Link → Link} {site : Nat} {w : NodeWord}
    (hsame : ∀ c i, (g c i).fabric.link site (inputSide w i) = f (c.fabric.link site (inputSide w i)))
    (hne : ∀ c i {n d}, (n, d) ≠ (site, inputSide w i) → (g c i).fabric.link n d = c.fabric.link n d)
    (hown : OwnLinks w) {is : List Nat} (his : Selects w is) {j : Nat} (hj : j < 3) (hj0 : selectOf w j ≠ 0) (c : Core) :
    (is.foldl g c).fabric.link site (inputSide w j) =
      if j ∈ is then f (c.fabric.link site (inputSide w j)) else c.fabric.link site (inputSide w j) := by
  induction is generalizing c with
  | nil => simp
  | cons i r ih =>
    obtain ⟨hnodup, hsel⟩ := his
    obtain ⟨hi, hnodup⟩ := List.nodup_cons.1 hnodup
    obtain ⟨hi3, hi0⟩ := hsel i List.mem_cons_self
    rw [List.foldl_cons, ih ⟨hnodup, fun m hm => hsel m (List.mem_cons_of_mem _ hm)⟩]
    by_cases hij : i = j
    · subst hij
      rw [if_neg hi, if_pos List.mem_cons_self, hsame]
    · rw [hne c i fun h => hown.inputSide_ne hi3 hj hi0 hj0 hij (Prod.mk.inj h).2.symm]
      simp [Ne.symm hij]

/-! ## A turn without a fault -/

/-- A core after a turn of a lane that found no fault. -/
def Core.turned (c : Core) (site l : Nat) (v : LaneState) (takes kills : List Nat) : Core :=
  (kills.foldl (fun d i => d.killAt site (c.node site) l i) (takes.foldl (fun d i => d.takeAt site (c.node site) l i) c)).modLane site l
    fun _ => v

section Turned
variable (c : Core) (site l : Nat) (v : LaneState) (takes kills : List Nat)

/-- The links after the tokens are taken and the KILLs are on their way. -/
theorem Core.turned_links : OnlyLinks c
    (kills.foldl (fun d i => d.killAt site (c.node site) l i) (takes.foldl (fun d i => d.takeAt site (c.node site) l i) c)) :=
  (onlyLinks_foldl (fun d i => d.takeAt_onlyLinks site (c.node site) l i) takes c).trans
    (onlyLinks_foldl (fun d i => d.killAt_onlyLinks site (c.node site) l i) kills _)

theorem Core.fcs_turned : (c.turned site l v takes kills).fcs = c.fcs :=
  (c.turned_links site l takes kills).part Core.fcs fun _ _ => rfl

theorem Core.lane_turned {site l : Nat} (hl : l < (c.nodeState site).lanes.length) :
    ((c.turned site l v takes kills).nodeState site).lane l = v := by
  refine Core.lane_modLane _ _ ?_ _
  rw [(c.turned_links site l takes kills).part (fun d => d.nodeState site) fun _ _ => rfl]
  exact hl

theorem Core.lane_turned_ne {n m : Nat} (h : n ≠ site ∨ m ≠ l) :
    ((c.turned site l v takes kills).nodeState n).lane m = (c.nodeState n).lane m := by
  refine (Core.lane_modLane_ne _ _ h).trans ?_
  rw [(c.turned_links site l takes kills).part (fun d => d.nodeState n) fun _ _ => rfl]

theorem Core.link_turned (hown : OwnLinks (c.node site)) {takes kills : List Nat} (ht : Selects (c.node site) takes)
    (hk : Selects (c.node site) kills) {j : Nat} (hj : j < 3) (hj0 : selectOf (c.node site) j ≠ 0) :
    let side := inputSide (c.node site) j
    let m := if j ∈ takes then (c.fabric.link site side).take l else c.fabric.link site side
    (c.turned site l v takes kills).fabric.link site side = if j ∈ kills then m.killedUp l else m := by
  intro side m
  refine (link_foldl_inputs (f := fun m => m.killedUp l) (fun d i => d.link_killAt_same site (c.node site) l i) (fun d i _ _ h => d.link_killAt_ne (c.node site) l i h)
    hown hk hj hj0 _).trans ?_
  rw [link_foldl_inputs (f := fun m => m.take l) (fun d i => d.link_takeAt_same site (c.node site) l i) (fun d i _ _ h => d.link_takeAt_ne (c.node site) l i h)
    hown ht hj hj0 c]

end Turned

/-- A turn without a fault that counts nothing changes its core's fabric alone. -/
theorem State.applyTurn_fabricStep (s : State) (k : CoreId) (site l : Nat) (v : LaneState) (takes kills : List Nat) :
    FabricStep s (s.applyTurn k site l ⟨v, takes, kills, none, ⟨0, 0, 0, 0⟩⟩) k ((s.core k).turned site l v takes kills) :=
  (s.modCore_fabricStep k (f := fun c => c) rfl).modCore (f := fun c => c.turned site l v takes kills)
    (Core.fcs_turned _ _ _ _ _ _)

/-! ## A fault of the fabric (06 R183) -/

/-- A halt leaves fabrics as they are, and clears records at most. -/
theorem State.raiseHalt_fabric (s : State) (k j : CoreId) : ((s.raiseHalt k).core j).fabric = (s.core j).fabric ∧
    ((s.raiseHalt k).core j).records ⊆ (s.core j).records := by
  unfold State.raiseHalt
  split
  · exact ⟨rfl, fun _ h => h⟩
  next p _ =>
    split
    · exact ⟨rfl, fun _ h => h⟩
    · extract_lets clocks u v fresh
      have hv : v.core j = s.core j := by
        unfold v
        split
        · split <;> rfl
        · rfl
      have hfresh (d : Core) : (fresh d).fabric = d.fabric ∧ (fresh d).records ⊆ d.records := ⟨rfl, List.nil_subset _⟩
      have hmap : ((v.mapCores fun j c => if rectHas p.rect j then fresh c else c).core j).fabric = (s.core j).fabric ∧
          ((v.mapCores fun j c => if rectHas p.rect j then fresh c else c).core j).records ⊆ (s.core j).records := by
        obtain h | h := v.core_mapCores (fun j c => if rectHas p.rect j then fresh c else c) j <;> rw [h, hv]
        · split
          · exact hfresh _
          · exact ⟨rfl, fun _ h => h⟩
        · exact ⟨rfl, fun _ h => h⟩
      exact hmap

theorem State.fabric_writeRecord (s : State) (k : CoreId) (r : Nat) (bs : List Byte) :
    ((s.writeRecord k r bs).core k).fabric = (s.core k).fabric := by
  obtain ⟨m, h, e⟩ := State.setBytes_eq (bs.take 64) s (s.recordLoc k r)
  rw [State.writeRecord, State.core_modCore_same, e]
  rfl

/-- A unit without a record that detects a fault has one then, with the code as its origin, and the fabric stands. -/
theorem State.unitFault_spec {s : State} {k : CoreId} {r : Nat} (hr : r ∉ (s.core k).records) (code flags : Nat) (body : List Byte) :
    let t := s.unitFault k r code flags body
    r ∈ (t.core k).records ∧ look (t.core k).origins r = some code ∧ (t.core k).fabric = (s.core k).fabric ∧ AllRegs s t := by
  obtain ⟨hfabric, hrecords⟩ := s.raiseHalt_fabric k k
  have hregs := (s.unitFault_sameQueues k r code flags body).allRegs
  rw [State.unitFault] at hregs ⊢
  generalize s.raiseHalt k = u at *
  have hno : ¬(u.core k).records.contains r = true := by
    rw [List.contains_iff_mem]
    exact fun h => hr (hrecords h)
  simp only [if_neg hno] at hregs ⊢
  generalize u.unitRecord k r (1 + flags) code body = bs at *
  refine ⟨?_, ?_, ?_, hregs⟩ <;> rw [State.core_modCore_same]
  · exact u.mem_records_writeRecord k r bs
  · exact look_put_same _ _ _
  · exact (u.fabric_writeRecord k r bs).trans hfabric

theorem State.fabricFault_spec {s : State} {k : CoreId} (hr : 8 ∉ (s.core k).records) (site lane i code : Nat) (b : Option Beat) :
    let t := s.fabricFault k site lane i code b
    8 ∈ (t.core k).records ∧ look (t.core k).origins 8 = some code ∧ (t.core k).fabric = (s.core k).fabric ∧ AllRegs s t :=
  State.unitFault_spec hr _ _ _

/-- A fork without tokens to send sends nothing (06 R201). -/
theorem Core.flushFork_silent {c : Core} {site : Nat} (hn : (c.nodeState site).silent) : c.flushFork site = c := by
  have hno : ((lanesOn (c.node site)).filter fun l => ((c.nodeState site).lane l).out ≠ []) = [] := by
    refine List.filter_eq_nil_iff.2 fun l hl => ?_
    rw [hn l (List.mem_range.1 (List.mem_of_mem_filter hl))]
    simp
  have hlanes : forkLanes (c.node site) (c.nodeState site) = [] := by
    rw [forkLanes, hno]
    simp only [List.filter_nil, List.length_nil]
    exact ite_self []
  simp [Core.flushFork, hlanes]

end Sys2Proof.Machine

namespace Sys2Proof.Safety

open Sys2Proof.Machine

/-! ## A node where nothing waits to be sent (06 R190) -/

theorem AtNode.lane_out {s : State} {k : CoreId} {site lane op : Nat} {hs : List (Option Token)} (h : AtNode s k site lane op hs) {m : Nat}
    (hm : m < 4) : (((s.core k).nodeState site).lane m).out = [] := by
  have hlen : m < ((s.core k).nodeState site).lanes.length := by rw [h.lanes]; exact hm
  refine h.sent _ ?_
  rw [NodeState.lane, nth, List.getD_eq_getElem _ _ hlen]
  exact List.getElem_mem hlen

theorem AtNode.silent {s : State} {k : CoreId} {site lane op : Nat} {hs : List (Option Token)} (h : AtNode s k site lane op hs) :
    ((s.core k).nodeState site).silent := fun _ hm => h.lane_out hm

theorem AtNode.flushAll {s : State} {k : CoreId} {site lane op : Nat} {hs : List (Option Token)} (h : AtNode s k site lane op hs)
    (h19 : op ≠ 0x19) : (s.core k).flushAll site = s.core k := by
  by_cases hfork : op = 0x2A
  · rw [Core.flushAll, if_pos (h.code.trans hfork)]
    exact Core.flushFork_silent h.silent
  · exact Core.flushAll_silent h.silent (h.code ▸ h19) (h.code ▸ hfork)

section Turn
variable {s : State} {k : CoreId} {site lane op : Nat} {hs : List (Option Token)} {act wait : View → LaneState → Turn}

/-- A lane of such a node acts on its heads, on a state whose cores are those of s. -/
theorem AtNode.nodeTurn (h : AtNode s k site lane op hs) (h19 : op ≠ 0x19) : ∃ u, FabricStep s u k (s.core k) ∧
    s.nodeTurn k site lane op act wait =
      .next (u.applyTurn k site lane (act ((s.core k).view site lane) (((s.core k).nodeState site).lane lane))) := by
  have hstep := s.modCore_fabricStep k (f := fun c => c.flushAll site) (by rw [h.flushAll h19])
  rw [h.flushAll h19] at hstep
  refine ⟨_, hstep, ?_⟩
  unfold State.nodeTurn
  extract_lets c w u d n
  have hd : d = s.core k := hstep.core
  have hn : n = ((s.core k).nodeState site).lane lane := by rw [← hd]
  rw [if_neg (by simp [w, c, h.code, h.enabled.2, h.runs, h.enabled.1]), hn, hd, if_pos (h.lane_out h.enabled.1)]

/-- A turn of such a lane that finds no fault. -/
theorem AtNode.turns {i : Instr} {v : LaneState} {takes kills : List Nat} (h : AtNode s k site lane op hs) (h19 : op ≠ 0x19)
    (hexec : exec i s = s.nodeTurn k site lane op act wait)
    (hact : act ((s.core k).view site lane) (((s.core k).nodeState site).lane lane) = ⟨v, takes, kills, none, ⟨0, 0, 0, 0⟩⟩)
    (ht : Selects ((s.core k).node site) takes) (hk : Selects ((s.core k).node site) kills) :
    Turns i s k site lane takes kills v := by
  obtain ⟨u, hu, hturn⟩ := h.nodeTurn (act := act) (wait := wait) h19
  rw [hact] at hturn
  have hstep := hu.trans (u.applyTurn_fabricStep k site lane v takes kills)
  rw [hu.core] at hstep
  have hlen : lane < ((s.core k).nodeState site).lanes.length := by rw [h.lanes]; exact h.enabled.1
  refine ⟨_, hexec.trans hturn, ?_, hstep.regs, hstep.bytes, hstep.others, fun n m hnm => ?_, fun j hj hj0 => ?_⟩
  · rw [hstep.core, Core.lane_turned _ _ _ _ hlen]
  · rw [hstep.core, Core.lane_turned_ne _ _ _ _ _ _ hnm]
  · rw [hstep.core, Core.link_turned _ _ _ _ h.links ht hk hj hj0]
    by_cases hjk : j ∈ kills
    · simp only [hjk, true_and, if_true]
      rfl
    · simp only [hjk, false_and, if_false]

/-- A turn of such a lane that finds a fault. -/
theorem AtNode.breaks {i : Instr} {t : Turn} {code n : Nat} (h : AtNode s k site lane op hs) (h19 : op ≠ 0x19)
    (hexec : exec i s = s.nodeTurn k site lane op act wait)
    (hact : act ((s.core k).view site lane) (((s.core k).nodeState site).lane lane) = t) (hfault : t.fault = some (code, n))
    (hskim : t.skim = ⟨0, 0, 0, 0⟩) : Breaks i s k code := by
  obtain ⟨u, hu, hturn⟩ := h.nodeTurn (act := act) (wait := wait) h19
  have hstep := hu.modCore (f := fun c => c) rfl
  have happly : ∃ b, u.applyTurn k site lane t = (u.modCore k fun c => c).fabricFault k site lane n code b := by
    rw [State.applyTurn, hfault, hskim]
    exact ⟨_, rfl⟩
  obtain ⟨b, hb⟩ := happly
  rw [hact, hb] at hturn
  obtain ⟨hrec, horigin, hfabric, hregs⟩ := State.fabricFault_spec (by rw [hstep.core]; exact h.runs) site lane n code b
  exact ⟨_, hexec.trans hturn, hrec, horigin, hfabric.trans (by rw [hstep.core]), allRegs_trans hstep.regs hregs⟩

/-! ## The tokens at a node's inputs -/

theorem AtNode.head (h : AtNode s k site lane op hs) {i : Nat} (hi : i < 3) : ((s.core k).view site lane).head i = nth hs i none :=
  (Core.head_view _ _ _ hi).trans (h.heads i hi)

theorem AtNode.out (h : AtNode s k site lane op hs) : (((s.core k).nodeState site).lane lane).out = [] := h.lane_out h.enabled.1

theorem selects_nil (w : NodeWord) : Selects w [] := ⟨List.nodup_nil, fun _ h => absurd h List.not_mem_nil⟩

/-- Inputs at which tokens stand. -/
theorem AtNode.selects (h : AtNode s k site lane op hs) {is : List Nat} (hnodup : is.Nodup)
    (his : ∀ i ∈ is, i < 3 ∧ (nth hs i none).isSome) : Selects ((s.core k).node site) is :=
  ⟨hnodup, fun i hi => by
    obtain ⟨h3, hsome⟩ := his i hi
    obtain ⟨t, ht⟩ := Option.isSome_iff_exists.1 hsome
    exact ⟨h3, selectOf_of_headAt ((h.heads i h3).trans ht)⟩⟩

theorem AtNode.selects_one (h : AtNode s k site lane op hs) {i : Nat} {t : Token} (hi : i < 3) (ht : nth hs i none = some t) :
    Selects ((s.core k).node site) [i] :=
  h.selects (List.nodup_singleton i) fun j hj => by
    rw [List.mem_singleton.1 hj, ht]
    exact ⟨hi, rfl⟩

end Turn

end Sys2Proof.Safety
end

section
/-!
Counters and controllers (06 R206 to R208): an equation for each case of a turn.
-/
namespace Sys2Proof.Machine

open Sys2Proof.Safety

/-! ## A counter's index as a number (06 R206) -/

theorem digitsInt_append (ds : List Int) (d : Int) : digitsInt (ds ++ [d]) = 2 * digitsInt ds + d := by
  simp [digitsInt]

/-- The leading n binary digits of i, of e, stand for i without its last e - n bits. -/
theorem digitsInt_bits (e i n : Nat) (hi : i < 2 ^ e) (hn : n ≤ e) :
    digitsInt ((upto n).map fun j => bit (bitOf i (e - 1 - j))) = (i / 2 ^ (e - n) : Nat) := by
  induction n with
  | zero => simp [digitsInt, upto, Nat.div_eq_of_lt hi]
  | succ n ih =>
    have hdiv : i / 2 ^ (e - n) = i / 2 ^ (e - (n + 1)) / 2 := by
      rw [Nat.div_div_eq_div_mul, ← pow_succ, show e - (n + 1) + 1 = e - n by omega]
    have hbit : bit (bitOf i (e - 1 - n)) = i / 2 ^ (e - (n + 1)) % 2 := by
      rw [show e - 1 - n = e - (n + 1) by omega, bit, bitOf]
      have := Nat.mod_two_eq_zero_or_one (i / 2 ^ (e - (n + 1)))
      rcases this with h | h <;> simp [h]
    rw [show upto (n + 1) = upto n ++ [n] from List.range_succ, List.map_append, List.map_singleton, digitsInt_append,
      ih (by omega), hbit, hdiv]
    omega

theorem countNumber_spec {e i : Nat} (he : 0 < e) (hi : i < 2 ^ e) : ∃ ds : List Int, ds.length = e ∧ digitsInt ds = i ∧
    countNumber e i = (0, .head 0 false e) :: ds.map (fun d => (0, Token.digit d)) ++ [(0, .fin)] := by
  refine ⟨(upto e).map fun j => bit (bitOf i (e - 1 - j)), by simp [upto], ?_, ?_⟩
  · rw [digitsInt_bits e i e hi le_rfl, Nat.sub_self, pow_zero, Nat.div_one]
  · rw [countNumber, if_neg (by omega), List.map_map]
    rfl

section Turns
variable {v : View} {l : LaneState}

/-! ## cnt (06 R206) -/

/-- A counter's lane after one more tick. -/
def LaneState.ticked (l : LaneState) (p : Nat) : LaneState :=
  if l.index + 1 = l.trip then { l with
    index := 0, trip := l.pending.getD l.trip, pending := none, stopped := bitOf p 6 && !bitOf p 7
    out := countNumber (bitsOf p 5 0) l.index ++ [(2, .pred true), (0, .eor), (1, .pred true)] }
  else { l with index := l.index + 1, out := countNumber (bitsOf p 5 0) l.index ++ [(2, .pred false)] }

theorem cntTick_fits (hout : l.out = []) (h : bitsOf v.w.param.toNat 5 0 = 0 ∨ l.trip ≤ 2 ^ bitsOf v.w.param.toNat 5 0) :
    cntTick v l = Turn.of (l.ticked v.w.param.toNat) := by
  have hno : (decide (0 < bitsOf v.w.param.toNat 5 0) && decide (2 ^ bitsOf v.w.param.toNat 5 0 < l.trip)) = false := by
    rw [Bool.and_eq_false_iff, decide_eq_false_iff_not, decide_eq_false_iff_not]
    omega
  unfold cntTick
  dsimp only
  rw [hno, if_neg nofun, LaneState.ticked]
  by_cases hlast : l.index + 1 = l.trip
  · simp [hlast, LaneState.emit, hout]
  · simp [hlast, LaneState.emit, hout]

theorem cntTick_bad (he : 0 < bitsOf v.w.param.toNat 5 0) (h : 2 ^ bitsOf v.w.param.toNat 5 0 < l.trip) :
    cntTick v l = Turn.bad l 0x45 0 := by
  unfold cntTick
  dsimp only
  rw [if_pos (by simp [he, h])]

theorem cntTurn_tick (h1 : v.head 1 = none) (h0 : v.head 0 = some (.pred true)) (htrip : l.trip ≠ 0) :
    cntTurn v l = (cntTick v l).taking [0] := by
  unfold cntTurn
  dsimp only
  rw [h1, h0]
  exact if_neg htrip

theorem cntTurn_free (h1 : v.head 1 = none) (h0 : v.head 0 = none) (hfree : bitOf v.w.param.toNat 6 = true) (hgo : l.stopped = false)
    (htrip : l.trip ≠ 0) (hroom : nth v.room 0 true = true) : cntTurn v l = cntTick v l := by
  unfold cntTurn
  dsimp only
  rw [h1, h0]
  exact if_pos (by simp [hfree, hgo, htrip, hroom])

theorem cntTurn_reset (h1 : v.head 1 = none) (h0 : v.head 0 = some (.pred false)) :
    cntTurn v l = ⟨{ l with index := 0 }, [0], [], none, ⟨0, 0, 0, 0⟩⟩ := by
  unfold cntTurn
  dsimp only
  rw [h1, h0]
  rfl

theorem cntTurn_bound {n : Nat} (h1 : v.head 1 = some (.bound n)) : cntTurn v l = ⟨cntBound l n, [1], [], none, ⟨0, 0, 0, 0⟩⟩ := by
  unfold cntTurn
  dsimp only
  rw [h1]
  rfl

/-! ## Controllers (06 R207, R208) -/

variable {allowed : NodeWord → Nat → Nat → Bool}

/-- A controller with PREDs or nothing at its inputs 0 and 1 looks at input 2. -/
theorem controllerTurn_bound {n : Nat} (h0 : v.head 0 = none) (h1 : v.head 1 = none) (h2 : v.head 2 = some (.bound n)) :
    controllerTurn allowed v l =
      if n = 0 || decide (65536 < n) then Turn.bad l 0x45 2 else ⟨{ l with pending := some n }, [2], [], none, ⟨0, 0, 0, 0⟩⟩ := by
  unfold controllerTurn
  extract_lets isPred begin_
  have hp0 : isPred 0 = true := by simp only [isPred, h0]
  have hp1 : isPred 1 = true := by simp only [isPred, h1]
  rw [hp0, hp1, h2]
  rfl

theorem controllerTurn_begin (h0 : v.head 0 = some (.pred true)) (h1 : v.head 1 = none) (h2 : v.head 2 = none)
    (hrun : l.inRun = false) : controllerTurn allowed v l = ⟨{ l with
      inRun := true, stopped := true, issued := 0, taken := 0, trip := l.pending.getD (bitsOf v.w.param.toNat 15 0 + 1) },
      [0], [], none, ⟨0, 0, 0, 0⟩⟩ := by
  unfold controllerTurn
  extract_lets isPred begin_
  have hp0 : isPred 0 = true := by simp only [isPred, h0]
  have hp1 : isPred 1 = true := by simp only [isPred, h1]
  rw [hp0, hp1, h2]
  dsimp only
  rw [h0, h1, if_neg nofun, if_neg nofun, hrun, if_neg nofun, if_pos rfl]
  rfl

theorem controllerTurn_run (h0 : v.head 0 = none) (h1 : v.head 1 = none ∨ v.head 1 = some (.pred true)) (h2 : v.head 2 = none)
    (hrun : l.inRun = true) : controllerTurn allowed v l = runOn (allowed v.w) v l := by
  unfold controllerTurn
  extract_lets isPred begin_
  have hp0 : isPred 0 = true := by simp only [isPred, h0]
  have hp1 : isPred 1 = true := by obtain h1 | h1 := h1 <;> simp only [isPred, h1]
  have hno : ¬v.head 1 = some (.pred false) := by obtain h1 | h1 := h1 <;> simp [h1]
  rw [hp0, hp1, h2]
  dsimp only
  rw [h0, if_neg nofun, if_neg hno, if_pos hrun]

variable {may : Nat → Nat → Bool}

theorem runOn_none (h1 : v.head 1 = none) : runOn may v l = Turn.of
    (if l.issued < l.trip && nth v.room 0 true && may l.issued l.taken
      then { l with issued := l.issued + 1, out := l.out ++ [(0, .pred true)] } else l) := by
  unfold runOn
  dsimp only
  rw [h1]
  rfl

theorem runOn_permit (h1 : v.head 1 = none) (hleft : l.issued < l.trip) (hroom : nth v.room 0 true = true)
    (hmay : may l.issued l.taken = true) :
    runOn may v l = Turn.of { l with issued := l.issued + 1, out := l.out ++ [(0, .pred true)] } := by
  rw [runOn_none h1, if_pos (by simp [hleft, hroom, hmay])]

theorem runOn_waits (h1 : v.head 1 = none) (h : l.issued = l.trip ∨ may l.issued l.taken = false) : runOn may v l = Turn.of l := by
  rw [runOn_none h1, if_neg]
  obtain h | h := h <;> simp [h]

/-- Once all permits are out a done is counted, and the last one ends the run. -/
theorem runOn_done (h1 : v.head 1 = some (.pred true)) (hall : l.issued = l.trip) (hout : l.out = []) :
    runOn may v l = if l.taken = l.issued then Turn.bad l 0x45 1 else ⟨{ l with
      taken := l.taken + 1, inRun := decide (l.taken + 1 ≠ l.trip), out := if l.taken + 1 = l.trip then [(2, .pred true)] else [] },
      [1], [], none, ⟨0, 0, 0, 0⟩⟩ := by
  have hgo : (decide (l.issued < l.trip) && nth v.room 0 true && may l.issued l.taken) = false := by simp [hall]
  unfold runOn
  dsimp only
  rw [h1]
  simp only [hgo, Bool.false_eq_true, if_false]
  by_cases hlast : l.taken + 1 = l.trip <;> simp [hlast, LaneState.emit, hout, Turn.of, Turn.taking]

end Turns

/-! ## Turns of the nodes -/

section Node
variable {s : State} {k : CoreId} {site lane : Nat}

theorem cnt_turns (hticks : (((s.core k).nodeState site).lane lane).trip ≠ 0)
    (hfits : bitsOf ((s.core k).node site).param.toNat 5 0 = 0 ∨
      (((s.core k).nodeState site).lane lane).trip ≤ 2 ^ bitsOf ((s.core k).node site).param.toNat 5 0) :
    (AtNode s k site lane 0x22 [some (.pred true)] → Turns (.nodeCnt k site lane) s k site lane [0] []
      ((((s.core k).nodeState site).lane lane).ticked ((s.core k).node site).param.toNat)) ∧
    (AtNode s k site lane 0x22 [] → bitOf ((s.core k).node site).param.toNat 6 = true →
      (((s.core k).nodeState site).lane lane).stopped = false → (s.core k).outRoom site ((s.core k).node site) 0 = true →
      Turns (.nodeCnt k site lane) s k site lane [] []
        ((((s.core k).nodeState site).lane lane).ticked ((s.core k).node site).param.toNat)) := by
  refine ⟨fun h => ?_, fun h hfree hgo hroom => ?_⟩
  · refine h.turns (act := cntTurn) (wait := waitTurn) (by decide) rfl ?_ (h.selects_one (by decide) rfl) (selects_nil _)
    rw [cntTurn_tick (h.head (by decide)) (h.head (by decide)) hticks, cntTick_fits h.out hfits]
    rfl
  · refine h.turns (act := cntTurn) (wait := waitTurn) (by decide) rfl ?_ (selects_nil _) (selects_nil _)
    rw [cntTurn_free (h.head (by decide)) (h.head (by decide)) hfree hgo hticks ((Core.room_view _ _ _ (by decide) _).trans hroom),
      cntTick_fits h.out hfits]
    rfl

theorem cnt_breaks (hticks : (((s.core k).nodeState site).lane lane).trip ≠ 0)
    (he : 0 < bitsOf ((s.core k).node site).param.toNat 5 0)
    (hlong : 2 ^ bitsOf ((s.core k).node site).param.toNat 5 0 < (((s.core k).nodeState site).lane lane).trip)
    (h : AtNode s k site lane 0x22 [some (.pred true)]) : Breaks (.nodeCnt k site lane) s k 0x45 := by
  refine h.breaks (act := cntTurn) (wait := waitTurn) 
    (t := (Turn.bad (((s.core k).nodeState site).lane lane) 0x45 0).taking [0]) (by decide) rfl ?_ rfl rfl
  rw [cntTurn_tick (h.head (by decide)) (h.head (by decide)) hticks,
    cntTick_bad (v := (s.core k).view site lane) he hlong]

theorem cnt_bound {n : Nat} (h : AtNode s k site lane 0x22 [none, some (.bound n)]) :
    Turns (.nodeCnt k site lane) s k site lane [1] [] (cntBound (((s.core k).nodeState site).lane lane) n) :=
  h.turns (act := cntTurn) (wait := waitTurn) (by decide) rfl (cntTurn_bound (h.head (by decide))) (h.selects_one (by decide) rfl)
    (selects_nil _)

variable {i : Instr} {op : Nat} {allowed : NodeWord → Nat → Nat → Bool}

/-- What each of the three controllers does (06 R207, R208). -/
theorem controller_turns (h19 : op ≠ 0x19) (hexec : exec i s = s.nodeTurn k site lane op (controllerTurn allowed)) :
    let w := (s.core k).node site
    let l := ((s.core k).nodeState site).lane lane
    let may := allowed w
    (∀ n, AtNode s k site lane op [none, none, some (.bound n)] →
      (1 ≤ n → n ≤ 65536 → Turns i s k site lane [2] [] { l with pending := some n }) ∧ (n = 0 ∨ 65536 < n → Breaks i s k 0x45)) ∧
    (AtNode s k site lane op [some (.pred true)] → l.inRun = false →
      Turns i s k site lane [0] [] { l with
        inRun := true, stopped := true, issued := 0, taken := 0, trip := l.pending.getD (bitsOf w.param.toNat 15 0 + 1) }) ∧
    (AtNode s k site lane op [] → l.inRun = true →
      (l.issued < l.trip → (s.core k).outRoom site w 0 = true → may l.issued l.taken = true →
        Turns i s k site lane [] [] { l with issued := l.issued + 1, out := [(0, .pred true)] }) ∧
      (l.issued = l.trip ∨ may l.issued l.taken = false → Turns i s k site lane [] [] l)) ∧
    (AtNode s k site lane op [none, some (.pred true)] → l.inRun = true → l.issued = l.trip →
      (l.taken < l.issued → Turns i s k site lane [1] [] { l with
        taken := l.taken + 1, inRun := decide (l.taken + 1 ≠ l.trip), out := if l.taken + 1 = l.trip then [(2, .pred true)] else [] }) ∧
      (l.taken = l.issued → Breaks i s k 0x45)) := by
  intro w l may
  refine ⟨fun n h => ?_, fun h hrun => ?_, fun h hrun => ⟨fun hleft hroom hmay => ?_, fun hwait => ?_⟩, fun h hrun hall => ?_⟩
  · have hturn := controllerTurn_bound (l := l) (allowed := allowed) (h.head (i := 0) (by decide)) (h.head (i := 1) (by decide))
      (h.head (i := 2) (by decide))
    refine ⟨fun hlow hhigh => ?_, fun hbad => ?_⟩
    · rw [if_neg (by simp; omega)] at hturn
      exact h.turns h19 hexec hturn (h.selects_one (by decide) rfl) (selects_nil _)
    · rw [if_pos (by simpa using hbad)] at hturn
      exact h.breaks h19 hexec hturn rfl rfl
  · exact h.turns h19 hexec (controllerTurn_begin (h.head (by decide)) (h.head (by decide)) (h.head (by decide)) hrun)
      (h.selects_one (by decide) rfl) (selects_nil _)
  · refine h.turns h19 hexec ?_ (selects_nil _) (selects_nil _)
    rw [controllerTurn_run (h.head (by decide)) (.inl (h.head (by decide))) (h.head (by decide)) hrun]
    refine (runOn_permit (may := may) (h.head (by decide)) hleft ((Core.room_view _ _ _ (by decide) _).trans hroom) hmay).trans ?_
    rw [h.out]
    rfl
  · refine h.turns h19 hexec ?_ (selects_nil _) (selects_nil _)
    rw [controllerTurn_run (h.head (by decide)) (.inl (h.head (by decide))) (h.head (by decide)) hrun]
    exact runOn_waits (may := may) (h.head (by decide)) hwait
  · have hturn := controllerTurn_run (l := l) (allowed := allowed) (h.head (i := 0) (by decide)) (.inr (h.head (i := 1) (by decide)))
      (h.head (i := 2) (by decide)) hrun
    rw [runOn_done (h.head (by decide)) hall h.out] at hturn
    refine ⟨fun hleft => ?_, fun hnone => ?_⟩
    · rw [if_neg hleft.ne] at hturn
      exact h.turns h19 hexec hturn (h.selects_one (by decide) rfl) (selects_nil _)
    · rw [if_pos hnone] at hturn
      exact h.breaks h19 hexec hturn rfl rfl

end Node

/-- Settles O36: an equation for each case of a counter's and a controller's turn, and what a turn does to its core
(`AtNode.turns`, `AtNode.breaks`). -/
theorem countersAndControllers : Obligations.CountersAndControllers := by
  unfold Obligations.CountersAndControllers
  refine ⟨fun e i he hi => countNumber_spec he hi, fun s k site lane => ?_⟩
  intro c w l p e ticked
  refine ⟨fun hticks => ⟨fun hfits => cnt_turns hticks hfits, fun he hlong h => cnt_breaks hticks he hlong h⟩, fun h => ?_, fun n h => ?_,
    fun q hq => ?_⟩
  · exact h.turns (act := cntTurn) (wait := waitTurn) (by decide) rfl (cntTurn_reset (h.head (by decide)) (h.head (by decide)))
      (h.selects_one (by decide) rfl) (selects_nil _)
  · have hturn := cnt_bound h
    refine ⟨fun h0 => ?_, fun h0 => ?_⟩
    · rwa [cntBound, if_pos h0] at hturn
    · rwa [cntBound, if_neg h0] at hturn
  · simp only [List.mem_cons, List.not_mem_nil, or_false] at hq
    obtain rfl | rfl | rfl := hq
    · exact controller_turns (op := 0x23) (allowed := fun _ i d => i = d) (by decide) rfl
    · exact controller_turns (op := 0x24) (allowed := fun w i d => i - d < bitsOf w.param.toNat 23 16 + 1) (by decide) rfl
    · exact controller_turns (op := 0x25) (allowed := fun _ _ _ => true) (by decide) rfl

end Sys2Proof.Machine
end

section
/-!
Beats that arrive and KILLs that reach what drives a link (06 R178, R181 to R183, 08 R245, R246).
-/
namespace Sys2Proof.Machine

open Sys2Proof.Safety

/-! ## BEAT_ARRIVAL (06 R178, R183) -/

section Arrival
variable {s : State} {k : CoreId} {site inp : Nat} {b : Beat} {r : List Beat}

/-- A merge that notes an order changes its lanes alone. -/
theorem Core.noteOrder_links (c : Core) (site inp : Nat) (mask : BitVec 4) :
    (c.noteOrder site inp mask).fabric.links = c.fabric.links ∧ (c.noteOrder site inp mask).fcs = c.fcs := by
  unfold Core.noteOrder
  generalize upto 4 = ls
  induction ls generalizing c with
  | nil => exact ⟨rfl, rfl⟩
  | cons l r ih =>
    obtain ⟨hlinks, hfcs⟩ := ih (if mask.getLsbD l then c.modLane site l fun n => { n with order := n.order ++ [inp] } else c)
    rw [List.foldl_cons, hlinks, hfcs]
    split <;> exact ⟨rfl, rfl⟩

/-- A core where a beat has left the wire to an input for its FIFO. -/
def Core.arrived (c : Core) (site inp : Nat) (b : Beat) (r : List Beat) : Core :=
  let w := c.node site
  let side := inputSide w inp
  let b := if b.kind = 0x6 then { b with mask := w.lanes } else b
  let l := { c.fabric.link site side with wire := r, fifo := (c.fabric.link site side).fifo ++ [b] }
  let d := { c with fabric := c.fabric.setLink site side l }
  if w.op.toNat = 0x28 && w.var && b.kind ≠ 0x2 && b.kind ≠ 0x3 then d.noteOrder site inp b.mask else d

theorem Core.arrived_spec (c : Core) (site inp : Nat) (b : Beat) (r : List Beat) : (c.arrived site inp b r).fcs = c.fcs ∧
    (c.arrived site inp b r).fabric.link site (inputSide (c.node site) inp) =
      { c.fabric.link site (inputSide (c.node site) inp) with
        wire := r
        fifo := (c.fabric.link site (inputSide (c.node site) inp)).fifo ++
          [if b.kind = 6 then { b with mask := (c.node site).lanes } else b] } := by
  unfold Core.arrived
  extract_lets w side b' m l d
  have hkept {e : Core} (he : e.fabric.links = d.fabric.links ∧ e.fcs = d.fcs) : e.fcs = c.fcs ∧ e.fabric.link site side = l := by
    refine ⟨he.2, ?_⟩
    rw [Fabric.link, he.1]
    exact Fabric.link_setLink_same _ _ _ _
  split
  · exact hkept (d.noteOrder_links site inp b'.mask)
  · exact hkept ⟨rfl, rfl⟩

section OnWire
variable (hrec : 8 ∉ (s.core k).records) (hinp : inp < 3) (hsel : selectOf ((s.core k).node site) inp ≠ 0)
  (hroom : ((s.core k).fabric.link site (inputSide ((s.core k).node site) inp)).fifo.length < 8)
  (hwire : ((s.core k).fabric.link site (inputSide ((s.core k).node site) inp)).wire = b :: r)
include hrec hinp hsel hroom hwire

/-- What a beat on the wire does, at an input with a free slot of a fabric that runs. -/
theorem exec_beatArrival :
    (b.broken ((s.core k).node site) (wordInput ((s.core k).node site).op.toNat inp) = none →
      exec (.beatArrival k site inp) s = .next (s.setCore k ((s.core k).arrived site inp b r))) ∧
    ∀ code lane, b.broken ((s.core k).node site) (wordInput ((s.core k).node site).op.toNat inp) = some (code, lane) →
      exec (.beatArrival k site inp) s = .next (s.fabricFault k site lane inp code (some b)) := by
  have hgo : ((s.core k).records.contains 8 || decide (3 ≤ inp) || decide (selectOf ((s.core k).node site) inp = 0) ||
      decide (8 ≤ ((s.core k).fabric.link site (inputSide ((s.core k).node site) inp)).fifo.length)) = false := by
    simp only [Bool.or_eq_false_iff, decide_eq_false_iff_not]
    exact ⟨⟨⟨by simpa using hrec, by omega⟩, hsel⟩, Nat.not_le.2 hroom⟩
  change (_ → execBeatArrival k site inp s = _) ∧ ∀ code lane, _ → execBeatArrival k site inp s = _
  unfold execBeatArrival
  dsimp only
  rw [hgo, if_neg nofun, hwire]
  dsimp only
  refine ⟨fun hkeeps => ?_, fun code lane hbroken => ?_⟩
  · rw [hkeeps, Core.arrived]
  · rw [hbroken]

theorem beatArrival_enters (hkeeps : b.broken ((s.core k).node site) (wordInput ((s.core k).node site).op.toNat inp) = none) :
    let w := (s.core k).node site
    let l := (s.core k).fabric.link site (inputSide w inp)
    ∃ t, exec (.beatArrival k site inp) s = .next t ∧ AllRegs s t ∧ Bytes s t ∧
      (t.core k).fabric.link site (inputSide w inp) =
        { l with wire := r, fifo := l.fifo ++ [if b.kind = 6 then { b with mask := w.lanes } else b] } := by
  intro w l
  obtain ⟨hfcs, hlink⟩ := (s.core k).arrived_spec site inp b r
  have hstep : FabricStep s (s.setCore k ((s.core k).arrived site inp b r)) k _ :=
    s.modCore_fabricStep k (f := fun c => c.arrived site inp b r) hfcs
  refine ⟨_, (exec_beatArrival hrec hinp hsel hroom hwire).1 hkeeps, hstep.regs, hstep.bytes, ?_⟩
  rw [hstep.core]
  exact hlink

theorem beatArrival_breaks {code lane : Nat}
    (hbroken : b.broken ((s.core k).node site) (wordInput ((s.core k).node site).op.toNat inp) = some (code, lane)) :
    Breaks (.beatArrival k site inp) s k code :=
  ⟨_, (exec_beatArrival hrec hinp hsel hroom hwire).2 code lane hbroken, State.fabricFault_spec hrec site lane inp code (some b)⟩

end OnWire

/-- A digit that no digit is stands before all else that a beat breaks. -/
theorem Beat.broken_digit {w : NodeWord} {n : Nat} (hn : n < 4) (hmask : b.mask.getLsbD n = true) (hkind : b.kind = 2)
    (hdigit : b.payload / 2 ^ (2 * n) % 4 = 3) : ∃ lane, b.broken w false = some (0x41, lane) := by
  have hfield : b.field n = 3 := by
    rw [Beat.field, hkind]
    exact hdigit
  have hsome : (b.lanes.find? fun l => !false && decide (b.kind = 0x2) && decide (b.field l = 3)).isSome := by
    rw [List.find?_isSome]
    exact ⟨n, List.mem_filter.2 ⟨List.mem_range.2 hn, hmask⟩, by simp [hkind, hfield]⟩
  obtain ⟨lane, hlane⟩ := Option.isSome_iff_exists.1 hsome
  refine ⟨lane, ?_⟩
  unfold Beat.broken
  extract_lets bad tag off
  have hbad : bad = some lane := hlane
  rw [hbad]

end Arrival

/-! ## KILL_RECEIVE (06 R182, 08 R245, R246) -/

theorem foldl_fixed {α β : Type} {g : β → α → β} {l : List α} (h : ∀ a ∈ l, ∀ b, g b a = b) (b : β) : l.foldl g b = b := by
  induction l generalizing b with
  | nil => rfl
  | cons a r ih => rw [List.foldl_cons, h a List.mem_cons_self, ih fun x hx => h x (List.mem_cons_of_mem _ hx)]

/-- A fold where one element alone changes anything. -/
theorem foldl_one {α β : Type} {g : β → α → β} {l : List α} {a : α} (hl : l.Nodup) (ha : a ∈ l) (h : ∀ x ∈ l, x ≠ a → ∀ b, g b x = b)
    (b : β) : l.foldl g b = g b a := by
  obtain ⟨pre, post, rfl⟩ := List.append_of_mem ha
  obtain ⟨-, hpost, hdisj⟩ := List.nodup_append.1 hl
  have hnot : a ∉ post := (List.nodup_cons.1 hpost).1
  rw [List.foldl_append, List.foldl_cons,
    foldl_fixed fun x hx => h x (List.mem_append_left _ hx) fun he => hdisj x hx a List.mem_cons_self he,
    foldl_fixed fun x hx => h x (List.mem_append_right _ (List.mem_cons_of_mem _ hx)) fun he => hnot (he ▸ hx)]

/-- The lane of a computing node whose number ends here (06 R189). -/
theorem LaneState.finish_cut (l : LaneState) : (l.cut 0).finish [] =
    { (l.cut 0).finish [] with lane := ended l (cutNumber 0 l.out) } := by
  have hlane : ((l.cut 0).finish []).lane = ended l (cutNumber 0 l.out) :=
    congrArg (fun o => { ended l (cutNumber 0 l.out) with out := o }) (List.append_nil (cutNumber 0 l.out))
  rw [← hlane]

section Killed
variable {c : Core} {q n : Nat}

/-- A KILL for the number that an arithmetic lane sends ends it, and sends KILLs up the inputs. -/
theorem Core.killLane_arith (hlow : 1 ≤ (c.node q).op.toNat) (hhigh : (c.node q).op.toNat ≤ 0x0E)
    (hbusy : ((c.nodeState q).lane n).busy = true) (heo : ((c.nodeState q).lane n).eo.isSome)
    (hlen : n < (c.nodeState q).lanes.length) :
    let l := (c.nodeState q).lane n
    (((c.killLane q n 0).nodeState q).lane n) = ended l (cutNumber 0 l.out) ∧ (c.killLane q n 0).fcs = c.fcs := by
  intro l
  have hkill : c.killLane q n 0 = c.killComputed q n := if_pos (by simp [hlow, hhigh])
  have hturn : ∃ is : List Nat, c.killComputed q n =
      is.foldl (fun d i => d.killAt q (c.node q) n i) (c.modLane q n fun _ => ended l (cutNumber 0 l.out)) := by
    rw [Core.killComputed]
    dsimp only
    rw [if_pos (by simp [hbusy, heo]; omega), if_neg (by simp; omega), LaneState.finish_cut]
    exact ⟨_, rfl⟩
  obtain ⟨is, his⟩ := hturn
  have hlinks := onlyLinks_foldl (fun d i => d.killAt_onlyLinks q (c.node q) n i) is
    (c.modLane q n fun _ => ended l (cutNumber 0 l.out))
  rw [hkill, his]
  refine ⟨?_, hlinks.part Core.fcs fun _ _ => rfl⟩
  rw [hlinks.part (fun d => d.nodeState q) fun _ _ => rfl]
  exact Core.lane_modLane _ _ hlen _

end Killed

section Receive
variable {s : State} {k : CoreId} {site inp : Nat} {kw : BitVec 16} {r : List (BitVec 16)} {i : Image}

/-- A core where the KILL words on the wire of an input's link are ks. -/
def Core.killTaken (c : Core) (site inp : Nat) (ks : List (BitVec 16)) : Core :=
  let side := inputSide (c.node site) inp
  { c with fabric := c.fabric.setLink site side { c.fabric.link site side with kills := ks } }

/-- A core where a KILL word has reached output x of a node. -/
def Core.killedAt (c : Core) (kw : BitVec 16) (p x : Nat) : Core :=
  (upto 4).foldl (fun c n => if kw.getLsbD n && c.sending p n x (bitsOf kw.toNat (6 + 3 * n) (4 + 3 * n)) then c.killLane p n x else c) c

variable (himage : (s.core k).image = some i)
  (hkills : ((s.core k).fabric.link site (inputSide ((s.core k).node site) inp)).kills = kw :: r)
  (hrec : 8 ∉ (s.core k).records) (hinp : inp < 3) (hsel : selectOf ((s.core k).node site) inp ≠ 0)
  (hside : inputSide ((s.core k).node site) inp ≠ 4)
include himage hkills hrec hinp hsel hside

/-- What a KILL word does that reaches what drives a link inside the fabric. -/
theorem exec_killReceive :
    (∀ q, i.driver 1024 site (inputSide ((s.core k).node site) inp) = .port q →
      exec (.killReceive k site inp) s = .next (s.setCore k ((s.core k).killTaken site inp r))) ∧
    ∀ p x, i.driver 1024 site (inputSide ((s.core k).node site) inp) = .node p x → exec (.killReceive k site inp) s =
      .next (s.setCore k ((((s.core k).killTaken site inp r).event 0x11 1 false).killedAt kw p x)) := by
  change (∀ q, _ → execKillReceive k site inp s = _) ∧ ∀ p x, _ → execKillReceive k site inp s = _
  unfold execKillReceive
  extract_lets c w side l
  have hgo : (c.records.contains 8 || decide (3 ≤ inp) || decide (selectOf w inp = 0)) = false := by
    simp only [Bool.or_eq_false_iff, decide_eq_false_iff_not]
    exact ⟨⟨by simpa [c] using hrec, by omega⟩, hsel⟩
  rw [show l.kills = kw :: r from hkills]
  dsimp only
  have himg (f : Fabric) : ({ c with fabric := f } : Core).image = some i := himage
  rw [hgo, if_neg nofun, if_neg hside, himg, Option.map_some, Option.getD_some]
  refine ⟨fun q hport => ?_, fun p x hnode => ?_⟩
  · rw [show i.driver 1024 site side = .port q from hport]
    rfl
  · rw [show i.driver 1024 site side = .node p x from hnode]
    rfl

/-- A KILL that reaches an input port ends there. -/
theorem killReceive_port {q : Nat} (hport : i.driver 1024 site (inputSide ((s.core k).node site) inp) = .port q) :
    let c := s.core k
    let side := inputSide (c.node site) inp
    ∃ t, exec (.killReceive k site inp) s = .next t ∧ AllRegs s t ∧ Bytes s t ∧
      (t.core k).fabric.link site side = { c.fabric.link site side with kills := r } ∧
      ∀ n m, ((t.core k).nodeState n).lane m = (c.nodeState n).lane m := by
  intro c side
  have hstep := s.modCore_fabricStep k (f := fun c => c.killTaken site inp r) rfl
  refine ⟨_, (exec_killReceive himage hkills hrec hinp hsel hside).1 q hport, hstep.regs, hstep.bytes, ?_, fun n m => ?_⟩
  · exact (congrArg (fun d : Core => d.fabric.link site side) hstep.core).trans (Fabric.link_setLink_same _ _ _ _)
  · exact (congrArg (fun d : Core => (d.nodeState n).lane m) hstep.core).trans rfl

/-- A KILL for the number that an arithmetic lane sends ends the number. -/
theorem killReceive_arith {q n : Nat} (hnode : i.driver 1024 site (inputSide ((s.core k).node site) inp) = .node q 0) (hn : n < 4)
    (hbits : ∀ m, m < 4 → kw.getLsbD m = decide (m = n))
    (hsending : (s.core k).sending q n 0 (bitsOf kw.toNat (6 + 3 * n) (4 + 3 * n)) = true)
    (hlen : ((s.core k).nodeState q).lanes.length = 4) (hlow : 1 ≤ ((s.core k).node q).op.toNat)
    (hhigh : ((s.core k).node q).op.toNat ≤ 0x0E) (hbusy : (((s.core k).nodeState q).lane n).busy = true)
    (heo : (((s.core k).nodeState q).lane n).eo.isSome) :
    let l := ((s.core k).nodeState q).lane n
    ∃ t, exec (.killReceive k site inp) s = .next t ∧ AllRegs s t ∧ Bytes s t ∧
      ((t.core k).nodeState q).lane n = ended l (cutNumber 0 l.out) := by
  intro l
  let d := ((s.core k).killTaken site inp r).event 0x11 1 false
  have hkilled : d.killedAt kw q 0 = d.killLane q n 0 := by
    rw [Core.killedAt, foldl_one (l := upto 4) List.nodup_range (List.mem_range.2 hn) fun m hm hmn c => ?_]
    · have hd : d.sending q n 0 (bitsOf kw.toNat (6 + 3 * n) (4 + 3 * n)) = true := hsending
      rw [hbits n hn, hd, decide_eq_true rfl, Bool.and_true, if_pos rfl]
    · rw [hbits m (List.mem_range.1 hm), decide_eq_false hmn, Bool.false_and, if_neg nofun]
  have hexec := (exec_killReceive himage hkills hrec hinp hsel hside).2 q 0 hnode
  rw [hkilled] at hexec
  obtain ⟨hlane, hfcs⟩ := Core.killLane_arith (c := d) (q := q) (n := n) hlow hhigh hbusy heo (hlen ▸ hn)
  have hstep := s.modCore_fabricStep k (f := fun _ => d.killLane q n 0) hfcs
  exact ⟨_, hexec, hstep.regs, hstep.bytes, (congrArg (fun e : Core => (e.nodeState q).lane n) hstep.core).trans hlane⟩

end Receive

/-- Settles O40: the equation of each event at an input of a fabric that runs (`exec_beatArrival`, `exec_killReceive`), and what a
fault of the fabric leaves (`State.fabricFault_spec`). -/
theorem beatsAndKills : Obligations.BeatsAndKills := by
  unfold Obligations.BeatsAndKills
  refine ⟨fun s k site inp b r => ?_, fun s k site inp kw r i => ?_⟩
  · intro c w l hrec hinp hsel hroom hwire words
    refine ⟨fun hkeeps => beatArrival_enters hrec hinp hsel hroom hwire hkeeps,
      fun code lane hbroken => beatArrival_breaks hrec hinp hsel hroom hwire hbroken, fun n hn hwords hmask hkind hdigit => ?_⟩
    obtain ⟨lane, hbroken⟩ := Beat.broken_digit (w := w) hn hmask hkind hdigit
    rw [← hwords] at hbroken
    exact beatArrival_breaks hrec hinp hsel hroom hwire hbroken
  · intro c w side himage hkills hrec hinp hsel hside
    refine ⟨fun q hport => killReceive_port himage hkills hrec hinp hsel hside hport, fun q n o hnode _ hn hbits ho hsending hlen hlow hhigh => ?_⟩
    intro l hbusy heo
    subst ho
    exact killReceive_arith himage hkills hrec hinp hsel hside hnode hn hbits hsending hlen hlow hhigh hbusy heo

end Sys2Proof.Machine
end

section
/-!
The turns of the routing nodes but join (06 R199 to R201, R203 to R205): an equation for each case of a turn.
-/
namespace Sys2Proof.Machine

open Sys2Proof.Safety

section Turns
variable {v : View} {l : LaneState} {t : Token}

/-! ## Tokens -/

theorem Token.not_isRow_of_isHead (h : isHead t = true) : t.isRow = false := by
  cases t with
  | head => rfl
  | _ => cases h

theorem LaneState.pass_eq (l : LaneState) (t : Token) (mark : Nat) (outs : List Nat) : l.pass t mark outs =
    { l with busy := isHead t, index := mark, stopped := false, out := l.out ++ outs.map fun x => (x, t) } := by
  cases t <;> rfl

/-- The rest of a number passes, or is discarded after a KILL. -/
theorem restPasses_eq {i : Nat} (hhead : v.head i = some t) (hfits : v.fits i t = true) (hbusy : l.busy = true) (outs : List Nat) :
    restPasses v l i outs = ⟨{ l with
      busy := decide (t ≠ .fin), stopped := l.stopped && decide (t ≠ .fin)
      out := if l.stopped then l.out else l.out ++ outs.map fun x => (x, t) }, [i], [], none, ⟨0, 0, 0, 0⟩⟩ := by
  have hemit : (if l.stopped then l else l.emit (outs.map fun x => (x, t))) =
      { l with out := if l.stopped then l.out else l.out ++ outs.map fun x => (x, t) } := by
    split <;> rfl
  unfold restPasses
  rw [hhead]
  dsimp only
  rw [hfits, if_neg nofun, hemit]
  by_cases hfin : t = .fin
  · rw [if_pos hfin, decide_eq_false (not_not.2 hfin), Bool.and_false]
    rfl
  · rw [if_neg hfin, decide_eq_true hfin, Bool.and_true, ← hbusy]
    rfl

/-! ## merge (06 R199) -/

theorem mergeTurn_busy (hbusy : l.busy = true) : mergeTurn v l = restPasses v l l.index [0] := by
  unfold mergeTurn
  extract_lets one rowAt
  rw [if_pos hbusy]

theorem mergeTurn_item {i : Nat} (hbusy : l.busy = false) (hvar : v.w.var = false) (hi : i < 2) (hturn : l.turn = i)
    (hhead : v.head i = some t) (hother : v.head (1 - i) = none) (hfits : v.fits i t = true) (hrow : t.isRow = false) :
    mergeTurn v l = ⟨{ l with
      busy := isHead t, index := i, stopped := false, turn := 1 - i, order := l.order.erase i, out := l.out ++ [(0, t)] },
      [i], [], none, ⟨0, 0, 0, 0⟩⟩ := by
  unfold mergeTurn
  extract_lets one rowAt
  have hno : rowAt i = false := by simp [rowAt, hhead, hrow]
  have hno' : rowAt (1 - i) = false := by simp [rowAt, hother]
  have hrows : (rowAt 0 && rowAt 1) = false := by
    obtain rfl | rfl : i = 0 ∨ i = 1 := by omega
    · rw [hno, Bool.false_and]
    · rw [hno, Bool.and_false]
  have hone : one i = (Turn.of { l.pass t i [0] with turn := 1 - i, order := l.order.erase i }).taking [i] := by
    simp only [one, hhead, hfits]
    rfl
  rw [hbusy, hrows, hvar, hturn, hno, if_neg nofun, if_neg nofun, if_neg nofun, if_neg nofun, hone, LaneState.pass_eq]
  rfl

theorem mergeTurn_rows (hbusy : l.busy = false) (h0 : v.head 0 = some t) (h1 : v.head 1 = some t) (hrow : t.isRow = true) :
    mergeTurn v l = ⟨{ l with turn := 0, order := (l.order.erase 0).erase 1, out := l.out ++ [(0, t)] },
      [0, 1], [], none, ⟨0, 0, 0, 0⟩⟩ := by
  unfold mergeTurn
  extract_lets one rowAt both
  have hrows : (rowAt 0 && rowAt 1) = true := by simp [rowAt, h0, h1, hrow]
  have hboth : both = l.emit [(0, t)] := by
    simp only [both, h0]
    rfl
  rw [if_neg (by rw [hbusy]; nofun), hrows, h0, h1, if_pos rfl, if_pos rfl, hboth]
  rfl

theorem mergeTurn_differ (hbusy : l.busy = false) (h0 : v.head 0 = some .eor) (h1 : v.head 1 = some .eok) :
    mergeTurn v l = Turn.bad l 0x46 0 := by
  unfold mergeTurn
  extract_lets one rowAt
  have hrows : (rowAt 0 && rowAt 1) = true := by
    simp only [rowAt, h0, h1]
    rfl
  rw [hbusy, hrows, h0, h1, if_neg nofun, if_pos rfl, if_neg nofun]

/-! ## split (06 R200) -/

theorem Token.noPred_iff : t.noPred = true ↔ t.kind ≠ 7 := by
  cases t <;> simp [Token.noPred, Token.kind]

theorem splitTurn_noPred {u : Token} (hvar : v.w.var = true) (hhead : v.head 1 = some u) (hu : u.kind ≠ 7) :
    splitTurn v l = Turn.bad l 0x43 1 := by
  unfold splitTurn
  rw [if_pos]
  simp [hvar, hhead, Token.noPred_iff.2 hu]

/-- Past the test of the PREDs, a split between items takes the token at in0. -/
theorem splitTurn_head (hpred : (v.w.var && ((v.head 1).filter Token.noPred).isSome) = false) (hbusy : l.busy = false)
    (hhead : v.head 0 = some t) (hfits : v.fits 0 t = true) : splitTurn v l =
      if t.isRow || decide (t.kind = 6) then (Turn.of { l.emit [(0, t), (2, t)] with turn := if t.isRow then 0 else l.turn }).taking [0]
      else if v.w.var then match v.head 1 with
        | none => Turn.of l
        | some (.pred b) => (Turn.of (l.pass t (if b then 0 else 2) [if b then 0 else 2])).taking [0, 1]
        | _ => Turn.bad l 0x43 1
      else (Turn.of { l.pass t (if l.turn = 0 then 0 else 2) [if l.turn = 0 then 0 else 2] with turn := 1 - l.turn }).taking [0] := by
  unfold splitTurn
  rw [hpred, hbusy, hhead, if_neg nofun, if_neg nofun]
  dsimp only
  rw [hfits, if_neg nofun]
  cases t <;> rfl

theorem splitTurn_turns (hvar : v.w.var = false) (hbusy : l.busy = false) (hhead : v.head 0 = some t) (hfits : v.fits 0 t = true)
    (hrow : t.isRow = false) (hbound : t.kind ≠ 6) : splitTurn v l = ⟨{ l with
      busy := isHead t, index := if l.turn = 0 then 0 else 2, stopped := false, turn := 1 - l.turn
      out := l.out ++ [(if l.turn = 0 then 0 else 2, t)] }, [0], [], none, ⟨0, 0, 0, 0⟩⟩ := by
  rw [splitTurn_head (by rw [hvar, Bool.false_and]) hbusy hhead hfits, hrow, if_neg (by simp [hbound]), hvar, if_neg nofun,
    LaneState.pass_eq]
  rfl

theorem splitTurn_pred {b : Bool} (hvar : v.w.var = true) (hbusy : l.busy = false) (hhead : v.head 0 = some t)
    (hpred : v.head 1 = some (.pred b)) (hfits : v.fits 0 t = true) (hrow : t.isRow = false) (hbound : t.kind ≠ 6) :
    splitTurn v l = ⟨{ l with
      busy := isHead t, index := if b then 0 else 2, stopped := false, out := l.out ++ [(if b then 0 else 2, t)] },
      [0, 1], [], none, ⟨0, 0, 0, 0⟩⟩ := by
  rw [splitTurn_head (by rw [hpred]; exact Bool.and_false _) hbusy hhead hfits, hrow, if_neg (by simp [hbound]), hvar, if_pos rfl, hpred]
  dsimp only
  rw [LaneState.pass_eq]
  rfl

theorem splitTurn_both (hpred : v.head 1 = none) (hbusy : l.busy = false) (hhead : v.head 0 = some t) (hfits : v.fits 0 t = true)
    (hboth : t.isRow = true ∨ t.kind = 6) : splitTurn v l =
      ⟨{ l with turn := if t.isRow then 0 else l.turn, out := l.out ++ [(0, t), (2, t)] }, [0], [], none, ⟨0, 0, 0, 0⟩⟩ := by
  rw [splitTurn_head (by rw [hpred]; exact Bool.and_false _) hbusy hhead hfits, if_pos (by simpa using hboth)]
  rfl

/-! ## fork (06 R201) -/

theorem forkTurn_noRoom {x : Nat} (hhead : v.head 0 = some t) (hfits : v.fits 0 t = true) (hx : x ∈ branches v.w)
    (hroom : nth v.room x true = false) : forkTurn v l = Turn.of l := by
  unfold forkTurn
  rw [hhead]
  dsimp only
  rw [hfits, if_neg nofun, if_pos (List.any_eq_true.2 ⟨x, hx, by rw [hroom]; rfl⟩)]

theorem forkTurn_room (hhead : v.head 0 = some t) (hfits : v.fits 0 t = true) (hroom : ∀ x ∈ branches v.w, nth v.room x true = true) :
    forkTurn v l = if l.busy
      then ⟨{ l with
        busy := decide (t ≠ .fin), out := l.out ++ ((branches v.w).filter fun x => !bitOf l.index x).map fun x => (x, t) },
        [0], [], none, ⟨0, 0, 0, 0⟩⟩
      else ⟨{ l with busy := isHead t, index := 0, stopped := false, out := l.out ++ (branches v.w).map fun x => (x, t) },
        [0], [], none, ⟨0, 0, 0, 0⟩⟩ := by
  unfold forkTurn
  have hany : ((branches v.w).any fun x => !nth v.room x true) = false := List.any_eq_false.2 fun x hx => by simp [hroom x hx]
  rw [hhead]
  dsimp only
  rw [hfits, hany, if_neg nofun, if_neg nofun]
  by_cases hbusy : l.busy = true
  · rw [if_pos hbusy, if_pos hbusy]
    by_cases hfin : t = .fin
    · rw [if_pos hfin, decide_eq_false (not_not.2 hfin)]
      rfl
    · rw [if_neg hfin, decide_eq_true hfin, ← hbusy]
      rfl
  · rw [if_neg hbusy, if_neg hbusy, LaneState.pass_eq]
    rfl

/-! ## psrc, nsrc (06 R203, R204) -/

/-- The lane of a psrc that has sent a bit of its pattern. -/
def LaneState.patterned (l : LaneState) (p : Nat) : LaneState :=
  { l with index := (l.index + 1) % (bitsOf p 19 16 + 1), out := l.out ++ [(0, .pred (bitOf p l.index))] }

theorem psrcTurn_free (hfree : bitOf v.w.param.toNat 20 = true) :
    psrcTurn v l = if nth v.room 0 true then Turn.of (l.patterned v.w.param.toNat) else Turn.of l := by
  unfold psrcTurn
  extract_lets r sent
  rw [if_pos hfree]
  rfl

theorem psrcTurn_head (hbit : bitOf v.w.param.toNat 20 = false) (hops : ∀ o ∈ l.ops, o = none) (hhead : v.head 0 = some t)
    (hfits : v.fits 0 t = true) : psrcTurn v l =
      if t.isRow then ⟨{ l with index := 0 }, [0], [], none, ⟨0, 0, 0, 0⟩⟩
      else ⟨{ l.patterned v.w.param.toNat with ops := if isHead t then [began true t, none, none] else l.ops },
        [0], if isHead t then [0] else [], none, ⟨0, 0, 0, 0⟩⟩ := by
  have hno : (l.ops.any fun o => o.isSome) = false := List.any_eq_false.2 fun o ho => by simp [hops o ho]
  unfold psrcTurn
  extract_lets r sent
  rw [hbit, hno, hhead, if_neg nofun, if_neg nofun]
  cases t <;> dsimp only <;> first | rfl | rw [hfits]; rfl

theorem nsrcTurn_stays (h : l.stopped = true ∨ nth v.room 0 true = false) : nsrcTurn v l = Turn.of l := by
  unfold nsrcTurn
  extract_lets n
  rw [if_pos (by simpa using h)]

theorem nsrcTurn_null (hgo : l.stopped = false) (hroom : nth v.room 0 true = true)
    (h : bitsOf v.w.param.toNat 15 0 = 0 ∨ l.index < bitsOf v.w.param.toNat 15 0) :
    nsrcTurn v l = Turn.of { l with index := l.index + 1, out := l.out ++ [(0, .null)] } := by
  unfold nsrcTurn
  extract_lets n
  rw [if_neg (by simp [hgo, hroom]), if_pos (by simpa using h)]
  rfl

theorem nsrcTurn_end (hgo : l.stopped = false) (hroom : nth v.room 0 true = true) (h0 : bitsOf v.w.param.toNat 15 0 ≠ 0)
    (hlast : bitsOf v.w.param.toNat 15 0 ≤ l.index) :
    nsrcTurn v l = Turn.of { l with stopped := true, out := l.out ++ if bitOf v.w.param.toNat 16 then [(0, .eor)] else [] } := by
  unfold nsrcTurn
  extract_lets n
  rw [if_neg (by simp [hgo, hroom]), if_neg (by simp [n, h0, hlast])]
  rfl

/-! ## dly (06 R205) -/

/-- A dly's lane after one more turn: its first token leaves once it is old enough. -/
def LaneState.aged (l : LaneState) (p : Nat) : LaneState :=
  { l with order := l.order.map (· + 1) }.release (bitsOf p 5 0 + 1)

theorem LaneState.aged_eq (hout : l.out = []) (p : Nat) : l.aged p =
    if bitsOf p 5 0 + 1 ≤ (l.order.map (· + 1)).headD 0 then { l with
      held := l.held.drop 1, order := (l.order.map (· + 1)).drop 1, out := l.held.head?.toList.map fun u => (0, u) }
    else { l with order := l.order.map (· + 1) } := by
  rw [LaneState.aged, LaneState.release]
  by_cases hold : bitsOf p 5 0 + 1 ≤ (l.order.map (· + 1)).headD 0
  · rw [if_pos hold, if_pos (by simpa [hout] using hold), LaneState.emit, hout, List.nil_append]
  · rw [if_neg hold, if_neg (by simpa [hout] using hold)]

theorem LaneState.aged_stopped (p : Nat) : (l.aged p).stopped = l.stopped ∧ (l.aged p).busy = l.busy := by
  rw [LaneState.aged, LaneState.release]
  split <;> exact ⟨rfl, rfl⟩

theorem dlyTurn_none (hhead : v.head 0 = none) : dlyTurn v l = Turn.of (l.aged v.w.param.toNat) := by
  unfold dlyTurn
  rw [hhead]
  rfl

theorem dlyTurn_full (hhead : v.head 0 = some t) (hfits : v.fits 0 t = true) (hfull : 64 ≤ (l.aged v.w.param.toNat).held.length) :
    dlyTurn v l = Turn.of (l.aged v.w.param.toNat) := by
  unfold dlyTurn
  rw [hhead]
  dsimp only
  rw [hfits, if_neg nofun]
  exact if_pos hfull

theorem dlyTurn_takes (hhead : v.head 0 = some t) (hfits : v.fits 0 t = true) (hgo : l.stopped = false)
    (hroom : (l.aged v.w.param.toNat).held.length < 64) : dlyTurn v l =
      let a := l.aged v.w.param.toNat
      ⟨{ a with held := a.held ++ [t], order := a.order ++ [0], busy := isHead t || (l.busy && decide (t ≠ .fin)) },
        [0], [], none, ⟨0, 0, 0, 0⟩⟩ := by
  obtain ⟨hstop, hbusy⟩ := LaneState.aged_stopped (l := l) v.w.param.toNat
  unfold dlyTurn
  rw [hhead]
  dsimp only
  rw [← LaneState.aged, hfits, if_neg nofun, if_neg (Nat.not_le.2 hroom), hstop, hgo, if_neg nofun, hbusy]
  cases t <;> rfl

end Turns

end Sys2Proof.Machine
end

section
/-!
Sending by a node (06 R178, R190): what a beat leaves of other outputs, and that a token whose output has room leaves.
-/
namespace Sys2Proof.Machine

open Sys2Proof.Safety

/-! ## Where streams end (02 R47) -/

theorem opposite_lt (d : Nat) : opposite d < 4 := Nat.mod_lt _ (by decide)

theorem Image.follow_side_lt (i : Image) : ∀ (n site d : Nat) {p q : Nat}, i.follow n site d = .node p q → q < 4
  | 0, _, _, _, _, h => by cases h
  | n + 1, site, d, p, q, h => by
    rw [Image.follow] at h
    split at h
    · cases h
    · split at h
      · cases h
      · split at h
        · exact i.follow_side_lt n _ _ h
        · cases h
          exact opposite_lt d

theorem Image.entering_side_lt (i : Image) {site side p q : Nat} (hside : side < 4) (h : i.entering site side = .node p q) : q < 4 := by
  rw [Image.entering] at h
  split at h
  · exact i.follow_side_lt _ _ _ h
  · cases h
    exact hside

/-- No output goes to the input that takes a node's own main output. -/
theorem Core.outDest_ne_own (c : Core) (site : Nat) (w : NodeWord) (x p : Nat) : c.outDest site w x ≠ .node p 4 := fun h => by
  rw [Core.outDest] at h
  split at h
  · exact absurd (Image.follow_side_lt _ _ _ _ h) (by decide)
  · split at h
    · exact absurd (Image.entering_side_lt _ (by decide) h) (by decide)
    · cases h
  · cases h

/-! ## Room -/

/-- There is room for a beat where a stream ends. -/
def Core.destRoom (c : Core) : Dest → Bool
  | .node s d => c.linkRoom s d
  | .port n => c.portFree n
  | .none => true

theorem Core.outRoom_eq (c : Core) (site : Nat) (w : NodeWord) (x : Nat) : c.outRoom site w x =
    (c.destRoom (c.outDest site w x) && (decide (x ≠ 0) || !fedBack w || (c.fabric.link site 4).room)) := by
  rw [Core.outRoom]
  cases c.outDest site w x <;> rfl

theorem Core.outDest_congr {c d : Core} (h : d.image = c.image) (site : Nat) (w : NodeWord) (x : Nat) :
    d.outDest site w x = c.outDest site w x := by
  rw [Core.outDest, Core.outDest, h]

theorem Core.node_congr {c d : Core} (h : d.image = c.image) (site : Nat) : d.node site = c.node site := by
  rw [Core.node, Core.node, h]

theorem Core.linkRoom_congr {c d : Core} (h : d.image = c.image) {p q : Nat} (hl : d.fabric.link p q = c.fabric.link p q) :
    d.linkRoom p q = c.linkRoom p q := by
  rw [Core.linkRoom, Core.linkRoom, h, hl]

/-! ## A beat sent toward a destination -/

section SendTo
variable (c : Core) (b : Beat)

theorem Core.link_sendTo_same (p q : Nat) :
    (c.sendTo (.node p q) b).fabric.link p q = { c.fabric.link p q with wire := (c.fabric.link p q).wire ++ [b] } :=
  Fabric.link_setLink_same _ _ _ _

theorem Core.link_sendTo_ne {e : Dest} {p q : Nat} (h : e ≠ .node p q) : (c.sendTo e b).fabric.link p q = c.fabric.link p q := by
  cases e with
  | node s d => exact Fabric.link_setLink_ne _ _ fun he => h (by rw [(Prod.mk.inj he).1, (Prod.mk.inj he).2])
  | port n => rfl
  | none => rfl

theorem Core.port_sendTo_ne {e : Dest} {n : Nat} (h : e ≠ .port n) : (c.sendTo e b).fabric.port n = c.fabric.port n := by
  cases e with
  | node s d => rfl
  | port m => exact congrArg (fun o : Option Link => o.getD Link.blank) (look_put_ne _ _ fun he => h (by rw [he]))
  | none => rfl

theorem Core.image_sendTo (e : Dest) : (c.sendTo e b).image = c.image := by cases e <;> rfl

theorem Core.nodes_sendTo (e : Dest) : (c.sendTo e b).fabric.nodes = c.fabric.nodes := by cases e <;> rfl

theorem Core.fcs_sendTo (e : Dest) : (c.sendTo e b).fcs = c.fcs := by cases e <;> rfl

/-- A beat takes no room at another destination. -/
theorem Core.destRoom_sendTo {e f : Dest} (h : e ≠ f ∨ f = .none) : (c.sendTo e b).destRoom f = c.destRoom f := by
  cases f with
  | node p q => exact Core.linkRoom_congr (c.image_sendTo b e) (c.link_sendTo_ne b (h.resolve_right nofun))
  | port n => rw [Core.destRoom, Core.destRoom, Core.portFree, Core.portFree, c.port_sendTo_ne b (h.resolve_right nofun)]
  | none => rfl

end SendTo

/-! ## What sending leaves -/

/-- From c to d beats have been put on wires: FIFOs, contexts and the image are as they were. -/
structure Sending (c d : Core) : Prop where
  image : d.image = c.image
  fcs : d.fcs = c.fcs
  fifo : ∀ p q, (d.fabric.link p q).fifo = (c.fabric.link p q).fifo
  wire : ∀ p q, (c.fabric.link p q).wire <+: (d.fabric.link p q).wire

theorem Sending.refl (c : Core) : Sending c c := ⟨rfl, rfl, fun _ _ => rfl, fun _ _ => List.prefix_rfl⟩

theorem Sending.trans {c d e : Core} (h : Sending c d) (h' : Sending d e) : Sending c e :=
  ⟨h'.image.trans h.image, h'.fcs.trans h.fcs, fun p q => (h'.fifo p q).trans (h.fifo p q), fun p q => (h.wire p q).trans (h'.wire p q)⟩

theorem Core.sendTo_sending (c : Core) (e : Dest) (b : Beat) : Sending c (c.sendTo e b) where
  image := c.image_sendTo b e
  fcs := c.fcs_sendTo b e
  fifo p q := by
    by_cases h : e = .node p q
    · rw [h, Core.link_sendTo_same]
    · rw [Core.link_sendTo_ne _ _ h]
  wire p q := by
    by_cases h : e = .node p q
    · rw [h, Core.link_sendTo_same]
      exact List.prefix_append _ _
    · rw [Core.link_sendTo_ne _ _ h]

/-- The beat of an output on its way, a node's own main input included. -/
def Core.beatSent (c : Core) (site x : Nat) (b : Beat) : Core :=
  if x = 0 && fedBack (c.node site) then (c.sendTo (c.outDest site (c.node site) x) b).sendTo (.node site 4) b
  else c.sendTo (c.outDest site (c.node site) x) b

theorem Core.beatSent_sending (c : Core) (site x : Nat) (b : Beat) : Sending c (c.beatSent site x b) := by
  rw [Core.beatSent]
  split
  · exact (c.sendTo_sending _ b).trans (Core.sendTo_sending _ _ b)
  · exact c.sendTo_sending _ b

theorem Core.nodes_beatSent (c : Core) (site x : Nat) (b : Beat) : (c.beatSent site x b).fabric.nodes = c.fabric.nodes := by
  rw [Core.beatSent]
  split
  · rw [Core.nodes_sendTo, Core.nodes_sendTo]
  · rw [Core.nodes_sendTo]

/-- A beat of an output takes no room of another that goes elsewhere. -/
theorem Core.outRoom_beatSent (c : Core) {site x y : Nat} (b : Beat) (hxy : x ≠ y)
    (hdest : c.outDest site (c.node site) x ≠ c.outDest site (c.node site) y ∨ c.outDest site (c.node site) y = .none) :
    (c.beatSent site x b).outRoom site (c.node site) y = c.outRoom site (c.node site) y := by
  have hown : Dest.node site 4 ≠ c.outDest site (c.node site) y := (c.outDest_ne_own _ _ _ _).symm
  rw [Core.outRoom_eq, Core.outRoom_eq, Core.outDest_congr (c.beatSent_sending site x b).image]
  congr 1
  · rw [Core.beatSent]
    split
    · rw [Core.destRoom_sendTo _ _ (.inl hown), Core.destRoom_sendTo _ _ hdest]
    · rw [Core.destRoom_sendTo _ _ hdest]
  · by_cases hy : y = 0
    · have hx : (decide (x = 0) && fedBack (c.node site)) = false := by simp [show x ≠ 0 from hy ▸ hxy]
      rw [Core.beatSent, hx, if_neg nofun, Core.link_sendTo_ne _ _ (c.outDest_ne_own _ _ _ _)]
    · simp [hy]

/-- The beat stands on the wire of the link that its output drives. -/
theorem Core.mem_wire_beatSent (c : Core) {site x p q : Nat} (b : Beat) (h : c.outDest site (c.node site) x = .node p q) :
    b ∈ ((c.beatSent site x b).fabric.link p q).wire := by
  have hsent : b ∈ ((c.sendTo (.node p q) b).fabric.link p q).wire := by
    rw [Core.link_sendTo_same]
    exact List.mem_append_right _ List.mem_cons_self
  rw [Core.beatSent, h]
  split
  · exact ((Core.sendTo_sending _ _ b).wire p q).subset hsent
  · exact hsent

/-! ## Tokens of a lane that has sent -/

theorem find?_eraseP_other {α : Type} {p q : α → Bool} (hpq : ∀ a, p a = true → q a = false) (l : List α) :
    (l.eraseP p).find? q = l.find? q := by
  induction l with
  | nil => rfl
  | cons a r ih =>
    by_cases hp : p a = true
    · rw [List.eraseP_cons_of_pos hp, List.find?_cons_of_neg (by rw [hpq a hp]; nofun)]
    · rw [List.eraseP_cons_of_neg hp, List.find?_cons, List.find?_cons, ih]

theorem LaneState.out_sentOut (l : LaneState) (x : Nat) (words : Bool) : (l.sentOut x words).out = l.out.eraseP fun t => t.1 = x := by
  rw [LaneState.sentOut]
  split
  next h =>
    rw [LaneState.nextOut, Option.map_eq_none_iff, List.find?_eq_none] at h
    exact (List.eraseP_of_forall_not h).symm
  · rfl

theorem LaneState.nextOut_sentOut_ne (l : LaneState) {x y : Nat} (words : Bool) (h : x ≠ y) :
    (l.sentOut x words).nextOut y = l.nextOut y := by
  rw [LaneState.nextOut, LaneState.out_sentOut, find?_eraseP_other (fun a ha => by simp_all), LaneState.nextOut]

/-- A lane has at most one token for each output. -/
def LaneState.oneEach (l : LaneState) : Prop := (l.out.map fun t => t.1).Nodup

theorem LaneState.nextOut_sentOut_same {l : LaneState} (h : l.oneEach) (x : Nat) (words : Bool) : (l.sentOut x words).nextOut x = none := by
  rw [LaneState.nextOut, LaneState.out_sentOut, Option.map_eq_none_iff]
  rw [LaneState.oneEach] at h
  generalize l.out = ts at h
  induction ts with
  | nil => rfl
  | cons t r ih =>
    obtain ⟨ht, hr⟩ := List.nodup_cons.1 h
    by_cases hx : t.1 = x
    · rw [List.eraseP_cons_of_pos (by simpa using hx), List.find?_eq_none]
      exact fun u hu he => ht (List.mem_map.2 ⟨u, hu, (of_decide_eq_true he).trans hx.symm⟩)
    · rw [List.eraseP_cons_of_neg (by simpa using hx), List.find?_cons_of_neg (by simpa using hx)]
      exact ih hr

theorem LaneState.out_eq_nil {l : LaneState} (h : ∀ x, l.nextOut x = none) : l.out = [] := by
  rw [List.eq_nil_iff_forall_not_mem]
  intro t ht
  have hnone := h t.1
  rw [LaneState.nextOut, Option.map_eq_none_iff, List.find?_eq_none] at hnone
  exact hnone t ht (by simp)

/-- From l to m tokens have left: the operands are as they were. -/
structure LaneState.Sent (l m : LaneState) : Prop where
  ops : m.ops = l.ops
  out : m.out.Sublist l.out

theorem LaneState.Sent.refl (l : LaneState) : l.Sent l := ⟨rfl, List.Sublist.refl _⟩

theorem LaneState.Sent.trans {l m n : LaneState} (h : l.Sent m) (h' : m.Sent n) : l.Sent n :=
  ⟨h'.ops.trans h.ops, h'.out.trans h.out⟩

theorem LaneState.Sent.oneEach {l m : LaneState} (h : l.Sent m) (hl : l.oneEach) : m.oneEach := hl.sublist (h.out.map _)

/-- Where no token waits for an output none appears. -/
theorem LaneState.Sent.nextOut_none {l m : LaneState} (h : l.Sent m) {x : Nat} (hx : l.nextOut x = none) : m.nextOut x = none := by
  rw [LaneState.nextOut, Option.map_eq_none_iff, List.find?_eq_none] at hx ⊢
  exact fun t ht => hx t (h.out.subset ht)

theorem LaneState.sentOut_sent (l : LaneState) (x : Nat) (words : Bool) : l.Sent (l.sentOut x words) where
  ops := by
    rw [LaneState.sentOut]
    split <;> rfl
  out := by
    rw [LaneState.out_sentOut]
    exact List.eraseP_sublist

/-! ## Lanes of a node that has sent -/

/-- The lanes of some have sent on an output. -/
def NodeState.sentBy (n : NodeState) (x : Nat) (words : Bool) (ts : List (Nat × Token)) : NodeState :=
  ts.foldl (fun n t => n.setLane t.1 ((n.lane t.1).sentOut x words)) n

theorem NodeState.lane_setLane_sentOut (n : NodeState) (m j x : Nat) (words : Bool) :
    (n.setLane j ((n.lane j).sentOut x words)).lane m = n.lane m ∨
      (n.setLane j ((n.lane j).sentOut x words)).lane m = (n.lane m).sentOut x words := by
  by_cases hm : m = j
  · subst hm
    by_cases hlen : m < n.lanes.length
    · exact .inr (n.lane_setLane hlen _)
    · refine .inl ?_
      rw [NodeState.lane, NodeState.lane, NodeState.setLane, updNth, List.modify_eq_self (Nat.not_lt.1 hlen)]
  · exact .inl (nth_updNth_ne _ hm _ _)

theorem NodeState.nextOut_sentBy_ne (n : NodeState) {x y : Nat} (words : Bool) (ts : List (Nat × Token)) (h : x ≠ y) (m : Nat) :
    ((n.sentBy x words ts).lane m).nextOut y = (n.lane m).nextOut y := by
  induction ts generalizing n with
  | nil => rfl
  | cons t r ih =>
    refine (ih _).trans ?_
    obtain he | he := n.lane_setLane_sentOut m t.1 x words <;> rw [he]
    exact LaneState.nextOut_sentOut_ne _ words h

theorem NodeState.lanes_sentBy (n : NodeState) (x : Nat) (words : Bool) (ts : List (Nat × Token)) :
    (n.sentBy x words ts).lanes.length = n.lanes.length := by
  induction ts generalizing n with
  | nil => rfl
  | cons t r ih => exact (ih _).trans (List.length_modify _ _ _)

theorem NodeState.sentBy_sent (n : NodeState) (x : Nat) (words : Bool) (ts : List (Nat × Token)) (m : Nat) :
    (n.lane m).Sent ((n.sentBy x words ts).lane m) := by
  induction ts generalizing n with
  | nil => exact .refl _
  | cons t r ih =>
    refine LaneState.Sent.trans ?_ (ih _)
    obtain he | he := n.lane_setLane_sentOut m t.1 x words <;> rw [he]
    · exact .refl _
    · exact LaneState.sentOut_sent _ x words

/-- A lane that has sent on an output, and had one token for it, has none left. -/
theorem NodeState.nextOut_sentBy_same (n : NodeState) {x : Nat} (words : Bool) {ts : List (Nat × Token)} {m : Nat}
    (hm : m ∈ ts.map fun t => t.1) (hlen : m < n.lanes.length) (hone : (n.lane m).oneEach) :
    ((n.sentBy x words ts).lane m).nextOut x = none := by
  induction ts generalizing n with
  | nil => cases hm
  | cons t r ih =>
    by_cases ht : m = t.1
    · refine (NodeState.sentBy_sent _ x words r m).nextOut_none ?_
      subst ht
      rw [n.lane_setLane hlen]
      exact LaneState.nextOut_sentOut_same hone x words
    · refine ih _ ((List.mem_cons.1 hm).resolve_left ht) (by simpa [NodeState.setLane, updNth] using hlen) ?_
      rw [show (n.setLane t.1 ((n.lane t.1).sentOut x words)).lane m = n.lane m from nth_updNth_ne _ ht _ _]
      exact hone

/-! ## What a join sends on an output -/

/-- What a node sends on an output follows from its lanes' tokens for it. -/
theorem beatLanes_congr {w : NodeWord} {n n' : NodeState} {x : Nat} (hw : w.op.toNat = 0x2B)
    (h : ∀ m, (n'.lane m).nextOut x = (n.lane m).nextOut x) : beatLanes w n' x = beatLanes w n x := by
  have hheld (n : NodeState) (ts : List (Nat × Token)) : boundHeld w n ts = decide (ts.length = (lanesOn w).length) := by
    simp [boundHeld, hw]
  simp only [beatLanes, h, hheld]

theorem beatLanes_eq_nil {w : NodeWord} {n : NodeState} {x : Nat} (hw : w.op.toNat = 0x2B)
    (h : ∀ m, (n.lane m).nextOut x = none) : beatLanes w n x = [] := by
  simp [beatLanes, h, hw]

/-! ## The outputs of a node one after another -/

section Flush
variable {c : Core} {site : Nat} (hop : (c.node site).op.toNat = 0x2B)
include hop

theorem Core.sendBeat_join (x : Nat) (ts : List (Nat × Token)) : ∃ sk, c.sendBeat site x ts =
    (c.beatSent site x (beatOf ts false)).setNode site { (c.nodeState site).sentBy x false ts with skim := sk } := by
  have hwords : wordOutput (c.node site) x = false := by simp [wordOutput, hop]
  have hconv : converter (c.node site) = false := by simp [converter, hop]
  have hdone (d : Core) (hd : d.node site = c.node site) (ls : List Nat) : d.sendDone site ls = d := by
    rw [Core.sendDone, hd, hconv]
    simp
  unfold Core.sendBeat
  extract_lets w n b eoks sk sk' d e f m
  have hd : d = c.sendTo (c.outDest site w x) (beatOf ts false) := by simp only [d, b, w, hwords]
  have hb : b = beatOf ts false := by simp only [b, w, hwords]
  have he : e = c.beatSent site x (beatOf ts false) := by
    simp only [e, hd, hb]
    rfl
  have hf : f = c.beatSent site x (beatOf ts false) :=
    (congrArg (fun g : Core => g.sendDone site eoks) he).trans (hdone _ (Core.node_congr (c.beatSent_sending site x _).image site) _)
  have hm : m = n.sentBy x false ts := by
    simp only [m, w, hwords]
    rfl
  rw [hf, hm]
  exact ⟨sk', rfl⟩

/-- What an output's turn does: nothing, or a beat of what waits there. -/
theorem Core.flush_cases (x : Nat) : c.flush site x = c ∨ ∃ ts sk, ts = beatLanes (c.node site) (c.nodeState site) x ∧ ts ≠ [] ∧ c.flush site x =
    (c.beatSent site x (beatOf ts false)).setNode site { (c.nodeState site).sentBy x false ts with skim := sk } := by
  rw [Core.flush]
  split
  · exact .inl rfl
  next ts hne =>
    dsimp only
    split
    · obtain ⟨sk, hsk⟩ := Core.sendBeat_join hop x (beatLanes (c.node site) (c.nodeState site) x)
      exact .inr ⟨_, sk, rfl, hne, hsk⟩
    · exact .inl rfl

theorem Core.flush_sending (x : Nat) : Sending c (c.flush site x) := by
  obtain h | ⟨ts, sk, -, -, h⟩ := Core.flush_cases hop x <;> rw [h]
  · exact Sending.refl c
  · have hsent := c.beatSent_sending site x (beatOf ts false)
    exact ⟨hsent.image, hsent.fcs, hsent.fifo, hsent.wire⟩

theorem Core.flush_sent (x m : Nat) : ((c.nodeState site).lane m).Sent (((c.flush site x).nodeState site).lane m) := by
  obtain h | ⟨ts, sk, -, -, h⟩ := Core.flush_cases hop x <;> rw [h]
  · exact .refl _
  · rw [Core.nodeState_setNode]
    exact NodeState.sentBy_sent _ x false ts m

/-- Sending makes no lanes. -/
theorem Core.lanes_flush (x : Nat) : ((c.flush site x).nodeState site).lanes.length = (c.nodeState site).lanes.length := by
  obtain h | ⟨ts, sk, -, -, h⟩ := Core.flush_cases hop x <;> rw [h]
  rw [Core.nodeState_setNode]
  exact NodeState.lanes_sentBy _ x false ts

theorem Core.nextOut_flush_ne {x y : Nat} (hxy : x ≠ y) (m : Nat) :
    (((c.flush site x).nodeState site).lane m).nextOut y = ((c.nodeState site).lane m).nextOut y := by
  obtain h | ⟨ts, sk, -, -, h⟩ := Core.flush_cases hop x <;> rw [h]
  rw [Core.nodeState_setNode]
  exact NodeState.nextOut_sentBy_ne _ false ts hxy m

/-- An output that shares no destination with another leaves its room. -/
theorem Core.outRoom_flush {x y : Nat} (hxy : x ≠ y) (hdest : (∀ m, ((c.nodeState site).lane m).nextOut x = none) ∨
      c.outDest site (c.node site) x ≠ c.outDest site (c.node site) y ∨ c.outDest site (c.node site) y = .none) :
    (c.flush site x).outRoom site (c.node site) y = c.outRoom site (c.node site) y := by
  obtain h | ⟨ts, sk, hts, hne, h⟩ := Core.flush_cases hop x <;> rw [h]
  refine Core.outRoom_beatSent c _ hxy (hdest.resolve_left fun hnone => hne ?_)
  rw [hts]
  exact beatLanes_eq_nil hop hnone

/-- An output with room sends what waits there. -/
theorem Core.flush_sends {x : Nat} {ts : List (Nat × Token)} (hts : beatLanes (c.node site) (c.nodeState site) x = ts) (hne : ts ≠ [])
    (hroom : c.outRoom site (c.node site) x = true) : ∃ sk, c.flush site x =
      (c.beatSent site x (beatOf ts false)).setNode site { (c.nodeState site).sentBy x false ts with skim := sk } := by
  have hconv : converter (c.node site) = false := by simp [converter, hop]
  obtain ⟨sk, hsk⟩ := Core.sendBeat_join hop x ts
  refine ⟨sk, hsk ▸ ?_⟩
  rw [Core.flush, hts]
  split
  · exact absurd rfl hne
  · rw [hroom, hconv, if_pos (by simp)]

end Flush

section FlushAll
variable {site i : Nat}

theorem Core.foldl_flush_sending (xs : List Nat) : ∀ {c : Core}, (c.node site).op.toNat = 0x2B →
    Sending c (xs.foldl (fun c x => c.flush site x) c) := by
  induction xs with
  | nil => exact fun _ => Sending.refl _
  | cons x r ih =>
    intro c hop
    have hx := Core.flush_sending hop x
    exact hx.trans (ih (by rw [Core.node_congr hx.image]; exact hop))

theorem Core.foldl_flush_sent (m : Nat) (xs : List Nat) : ∀ {c : Core}, (c.node site).op.toNat = 0x2B →
    ((c.nodeState site).lane m).Sent (((xs.foldl (fun c x => c.flush site x) c).nodeState site).lane m) ∧
      ((xs.foldl (fun c x => c.flush site x) c).nodeState site).lanes.length = (c.nodeState site).lanes.length := by
  induction xs with
  | nil => exact fun _ => ⟨.refl _, rfl⟩
  | cons x r ih =>
    intro c hop
    obtain ⟨hsent, hlen⟩ := ih (c := c.flush site x) (by rw [Core.node_congr (Core.flush_sending hop x).image]; exact hop)
    exact ⟨(Core.flush_sent hop x m).trans hsent, hlen.trans (Core.lanes_flush hop x)⟩

/-- Other outputs leave an output's tokens. -/
theorem Core.nextOut_foldl_flush (m : Nat) {xs : List Nat} (hi : i ∉ xs) : ∀ {c : Core}, (c.node site).op.toNat = 0x2B →
    (((xs.foldl (fun c x => c.flush site x) c).nodeState site).lane m).nextOut i = ((c.nodeState site).lane m).nextOut i := by
  induction xs with
  | nil => exact fun _ => rfl
  | cons x r ih =>
    intro c hop
    obtain ⟨hne, hr⟩ := List.ne_and_not_mem_of_not_mem_cons hi
    exact (ih hr (by rw [Core.node_congr (Core.flush_sending hop x).image]; exact hop)).trans (Core.nextOut_flush_ne hop hne.symm m)

/-- Output x of a node sends nothing, or not where output i sends. -/
def Core.Apart (c : Core) (site i x : Nat) : Prop := (∀ m, ((c.nodeState site).lane m).nextOut x = none) ∨
  c.outDest site (c.node site) x ≠ c.outDest site (c.node site) i ∨ c.outDest site (c.node site) i = .none

/-- Other outputs leave an output's room. -/
theorem Core.outRoom_foldl_flush {xs : List Nat} (hi : i ∉ xs) : ∀ {c : Core}, (c.node site).op.toNat = 0x2B →
    (∀ x ∈ xs, c.Apart site i x) →
    (xs.foldl (fun c x => c.flush site x) c).outRoom site (c.node site) i = c.outRoom site (c.node site) i := by
  induction xs with
  | nil => exact fun _ _ => rfl
  | cons x r ih =>
    intro c hop hapart
    obtain ⟨hne, hr⟩ := List.ne_and_not_mem_of_not_mem_cons hi
    have himage := (Core.flush_sending hop x).image
    have hnode : (c.flush site x).node site = c.node site := Core.node_congr himage site
    have hrest := ih hr (c := c.flush site x) (by rw [hnode]; exact hop) fun y hy => by
      rw [Core.Apart, hnode, Core.outDest_congr himage, Core.outDest_congr himage]
      exact (hapart y (List.mem_cons_of_mem _ hy)).imp_left fun hnone m => (Core.flush_sent hop x m).nextOut_none (hnone m)
    rw [hnode] at hrest
    exact hrest.trans (Core.outRoom_flush hop hne.symm (hapart x List.mem_cons_self))

/-- What waits for an output that has room, and shares its destination with none that sends, leaves. -/
theorem Core.flushAll_sends {c : Core} {ts : List (Nat × Token)} (hop : (c.node site).op.toNat = 0x2B) (hi : i < 7)
    (hts : beatLanes (c.node site) (c.nodeState site) i = ts) (hne : ts ≠ []) (hroom : c.outRoom site (c.node site) i = true)
    (hapart : ∀ x, x < 7 → x ≠ i → c.Apart site i x) :
    (∀ p q, c.outDest site (c.node site) i = .node p q → beatOf ts false ∈ ((c.flushAll site).fabric.link p q).wire) ∧
      ∀ m ∈ ts.map fun t => t.1, m < (c.nodeState site).lanes.length → ((c.nodeState site).lane m).oneEach →
        (((c.flushAll site).nodeState site).lane m).nextOut i = none := by
  obtain ⟨pre, post, hall⟩ := List.append_of_mem (List.mem_range.2 hi)
  have hnodup : (pre ++ i :: post).Nodup := hall ▸ List.nodup_range
  obtain ⟨-, hpost, hdisj⟩ := List.nodup_append.1 hnodup
  have hpre : i ∉ pre := fun h => hdisj i h i List.mem_cons_self rfl
  have hpost : i ∉ post := (List.nodup_cons.1 hpost).1
  let d := pre.foldl (fun c x => c.flush site x) c
  have hd : Sending c d := Core.foldl_flush_sending pre hop
  have hnode : d.node site = c.node site := Core.node_congr hd.image site
  have hdop : (d.node site).op.toNat = 0x2B := by rw [hnode]; exact hop
  have hdroom : d.outRoom site (d.node site) i = true := by
    rw [hnode, ← hroom]
    refine Core.outRoom_foldl_flush hpre hop fun x hx => hapart x ?_ fun h => hpre (h ▸ hx)
    exact List.mem_range.1 (hall ▸ List.mem_append_left _ hx)
  have hnext (m : Nat) : ((d.nodeState site).lane m).nextOut i = ((c.nodeState site).lane m).nextOut i :=
    Core.nextOut_foldl_flush m hpre hop
  have hdts : beatLanes (d.node site) (d.nodeState site) i = ts := by rw [hnode, beatLanes_congr hop hnext, hts]
  obtain ⟨sk, hsent⟩ := Core.flush_sends hdop hdts hne hdroom
  have heq : c.flushAll site = post.foldl (fun c x => c.flush site x) (d.flush site i) := by
    rw [Core.flushAll, if_neg (by rw [hop]; decide), show upto 7 = pre ++ i :: post from hall, List.foldl_append, List.foldl_cons]
  have hop' : ((d.flush site i).node site).op.toNat = 0x2B := by rw [Core.node_congr (Core.flush_sending hdop i).image]; exact hdop
  refine ⟨fun p q hdest => ?_, fun m hm hlen hone => ?_⟩
  · rw [heq]
    refine ((Core.foldl_flush_sending post hop').wire p q).subset ?_
    rw [hsent]
    exact d.mem_wire_beatSent _ (by rw [hnode, Core.outDest_congr hd.image]; exact hdest)
  · rw [heq, Core.nextOut_foldl_flush m hpost hop', hsent, Core.nodeState_setNode]
    obtain ⟨hsome, hlanes⟩ := Core.foldl_flush_sent m pre hop
    exact NodeState.nextOut_sentBy_same _ false hm (by rw [hlanes]; exact hlen) (hsome.oneEach hone)

end FlushAll

end Sys2Proof.Machine
end

section
/-!
The rounds of a join (06 R190, R202): a lane that begins a round alone, and a round with a BOUND that every enabled lane begins.
-/
namespace Sys2Proof.Machine

open Sys2Proof.Safety

/-! ## A lane takes a token: what it leaves of other lanes -/

theorem getLsbD_without {m : BitVec 4} {a b : Nat} (h : b ≠ a) : (m &&& ~~~(BitVec.ofNat 4 (2 ^ a))).getLsbD b = m.getLsbD b := by
  rw [BitVec.getLsbD_and, BitVec.getLsbD_not, BitVec.getLsbD_ofNat, Nat.testBit_two_pow_of_ne h.symm]
  by_cases hb : b < 4
  · simp [hb]
  · simp [BitVec.getLsbD_of_ge m b (Nat.not_lt.1 hb)]

theorem head_takeBeat {a b : Nat} (h : b ≠ a) (bs : List Beat) :
    ((takeBeat a bs).find? fun x => x.mask.getLsbD b).map (fun x => x.token b) =
      (bs.find? fun x => x.mask.getLsbD b).map fun x => x.token b := by
  induction bs with
  | nil => rfl
  | cons x r ih =>
    rw [takeBeat]
    split
    · rw [List.find?_cons, List.find?_cons, getLsbD_without h]
      split <;> rfl
    · rw [List.find?_cons, List.find?_cons]
      split
      · rfl
      · exact ih

theorem find?_dropTaken (b : Nat) (bs : List Beat) :
    (dropTaken bs).find? (fun x => x.mask.getLsbD b) = bs.find? fun x => x.mask.getLsbD b := by
  induction bs with
  | nil => rfl
  | cons x r ih =>
    rw [dropTaken]
    split
    next h => rw [ih, List.find?_cons_of_neg (by simp [h])]
    · rfl

theorem length_takeBeat (a : Nat) (bs : List Beat) : (takeBeat a bs).length = bs.length := by
  induction bs with
  | nil => rfl
  | cons x r ih =>
    rw [takeBeat]
    split
    · rfl
    · rw [List.length_cons, ih, List.length_cons]

theorem length_dropTaken_le (bs : List Beat) : (dropTaken bs).length ≤ bs.length := by
  induction bs with
  | nil => exact le_rfl
  | cons x r ih =>
    rw [dropTaken]
    split
    · exact ih.trans (Nat.le_succ _)
    · exact le_rfl

/-- What a lane's taking leaves of a link: the wire, no more beats in the FIFO, and another lane's next token and number. -/
theorem Link.take_spec (l : Link) (a : Nat) : (l.take a).wire = l.wire ∧ (l.take a).fifo.length ≤ l.fifo.length ∧
    ∀ b, b ≠ a → (l.take a).head b = l.head b ∧ nth (l.take a).current b none = nth l.current b none := by
  unfold Link.take
  split
  · exact ⟨rfl, le_rfl, fun _ _ => ⟨rfl, rfl⟩⟩
  · refine ⟨rfl, (length_dropTaken_le _).trans (length_takeBeat a l.fifo).le, fun b hb => ⟨?_, nth_updNth_ne _ hb _ _⟩⟩
    rw [Link.head, find?_dropTaken, head_takeBeat hb, Link.head]

/-- From c to d lanes have taken tokens: wires and ports are as they were, and FIFOs hold no more. -/
structure Drains (c d : Core) : Prop where
  image : d.image = c.image
  fcs : d.fcs = c.fcs
  ports : d.fabric.ports = c.fabric.ports
  wire : ∀ p q, (d.fabric.link p q).wire = (c.fabric.link p q).wire
  fifo : ∀ p q, (d.fabric.link p q).fifo.length ≤ (c.fabric.link p q).fifo.length

theorem Drains.refl (c : Core) : Drains c c := ⟨rfl, rfl, rfl, fun _ _ => rfl, fun _ _ => le_rfl⟩

theorem Drains.trans {c d e : Core} (h : Drains c d) (h' : Drains d e) : Drains c e :=
  ⟨h'.image.trans h.image, h'.fcs.trans h.fcs, h'.ports.trans h.ports, fun p q => (h'.wire p q).trans (h.wire p q),
    fun p q => (h'.fifo p q).trans (h.fifo p q)⟩

theorem Core.takeAt_drains (c : Core) (site : Nat) (w : NodeWord) (l i : Nat) : Drains c (c.takeAt site w l i) := by
  obtain ⟨hwire, hfifo, -⟩ := (c.fabric.link site (inputSide w i)).take_spec l
  have hlink (p q : Nat) : ((c.takeAt site w l i).fabric.link p q).wire = (c.fabric.link p q).wire ∧
      ((c.takeAt site w l i).fabric.link p q).fifo.length ≤ (c.fabric.link p q).fifo.length := by
    by_cases h : (p, q) = (site, inputSide w i)
    · cases h
      rw [Core.link_takeAt_same]
      exact ⟨hwire, hfifo⟩
    · rw [Core.link_takeAt_ne _ _ _ _ h]
      exact ⟨rfl, le_rfl⟩
  exact ⟨rfl, rfl, rfl, fun p q => (hlink p q).1, fun p q => (hlink p q).2⟩

theorem Core.turned_drains (c : Core) (site l : Nat) (v : LaneState) (takes : List Nat) : Drains c (c.turned site l v takes []) := by
  have htakes : Drains c (takes.foldl (fun d i => d.takeAt site (c.node site) l i) c) := by
    generalize c.node site = w
    induction takes generalizing c with
    | nil => exact Drains.refl c
    | cons i r ih => exact (c.takeAt_drains site w l i).trans (ih _)
  exact htakes.trans ⟨rfl, rfl, rfl, fun _ _ => rfl, fun _ _ => le_rfl⟩

/-- A turn makes no lanes. -/
theorem Core.lanes_turned (c : Core) (site l : Nat) (v : LaneState) (takes kills : List Nat) :
    ((c.turned site l v takes kills).nodeState site).lanes.length = (c.nodeState site).lanes.length := by
  rw [Core.turned, Core.modLane, Core.nodeState_setNode]
  refine (List.length_modify _ _ _).trans ?_
  rw [(c.turned_links site l takes kills).part (fun d => d.nodeState site) fun _ _ => rfl]

/-- Taking tokens takes no room. -/
theorem Drains.outRoom {c d : Core} (h : Drains c d) {site : Nat} {w : NodeWord} {x : Nat} (hroom : c.outRoom site w x = true) :
    d.outRoom site w x = true := by
  have hlink {p q : Nat} (hl : (c.fabric.link p q).room = true) : (d.fabric.link p q).room = true := by
    have hwire := congrArg List.length (h.wire p q)
    have hfifo := h.fifo p q
    simp only [Link.room, decide_eq_true_eq] at hl ⊢
    omega
  rw [Core.outRoom_eq, Bool.and_eq_true] at hroom ⊢
  rw [Core.outDest_congr h.image]
  obtain ⟨hdest, hown⟩ := hroom
  refine ⟨?_, ?_⟩
  · cases hd : c.outDest site w x with
    | node p q =>
      rw [hd] at hdest
      change c.linkRoom p q = true at hdest
      change d.linkRoom p q = true
      rw [Core.linkRoom] at hdest ⊢
      rw [h.image]
      split at hdest
      next hcross => rwa [if_pos hcross, h.wire p q]
      next hcross =>
        rw [if_neg hcross]
        exact hlink hdest
    | port n =>
      rw [hd] at hdest
      change c.portFree n = true at hdest
      change d.portFree n = true
      rwa [Core.portFree, Fabric.port, h.ports]
    | none => rfl
  · simp only [Bool.or_eq_true] at hown ⊢
    exact hown.imp_right hlink

/-! ## What other lanes see after a turn -/

theorem View.head_of_le (c : Core) (site l : Nat) {i : Nat} (hi : 3 ≤ i) : (c.view site l).head i = none := by
  simp [View.head, Core.view, nth, upto, hi]

section OtherLanes
variable {c : Core} {site a b : Nat} {v : LaneState} {takes : List Nat}

theorem Core.link_turned_other (hown : OwnLinks (c.node site)) (ht : Selects (c.node site) takes) (hab : b ≠ a) {j : Nat} (hj : j < 3)
    (hj0 : selectOf (c.node site) j ≠ 0) :
    let side := inputSide (c.node site) j
    ((c.turned site a v takes []).fabric.link site side).head b = (c.fabric.link site side).head b ∧
      nth ((c.turned site a v takes []).fabric.link site side).current b none = nth (c.fabric.link site side).current b none := by
  intro side
  rw [Core.link_turned _ _ _ _ hown ht (selects_nil _) hj hj0, if_neg List.not_mem_nil]
  split
  · exact ((c.fabric.link site side).take_spec a).2.2 b hab
  · exact ⟨rfl, rfl⟩

theorem Core.head_turned_other (hown : OwnLinks (c.node site)) (ht : Selects (c.node site) takes) (hab : b ≠ a) :
    ((c.turned site a v takes []).view site b).head = (c.view site b).head := by
  funext i
  by_cases hi : i < 3
  · rw [Core.head_view _ _ _ hi, Core.head_view _ _ _ hi, Core.node_congr (c.turned_drains site a v takes).image, Core.headAt, Core.headAt]
    split
    · rfl
    next h0 => exact (Core.link_turned_other hown ht hab hi h0).1
  · rw [View.head_of_le _ _ _ (Nat.not_lt.1 hi), View.head_of_le _ _ _ (Nat.not_lt.1 hi)]

theorem Core.fits_turned_other (hown : OwnLinks (c.node site)) (ht : Selects (c.node site) takes) (hab : b ≠ a) {i : Nat} (hi : i < 3)
    (t : Token) : ((c.turned site a v takes []).view site b).fits i t = (c.view site b).fits i t := by
  have hnum (d : Core) : (d.view site b).fits i t = t.fits (if selectOf (d.node site) i = 0 then none
      else nth (d.fabric.link site (inputSide (d.node site) i)).current b none) :=
    congrArg t.fits (nth_map_upto hi (fun j => if selectOf (d.node site) j = 0 then none
      else nth (d.fabric.link site (inputSide (d.node site) j)).current b none) none)
  rw [hnum, hnum, Core.node_congr (c.turned_drains site a v takes).image]
  split
  · rfl
  next h0 => rw [(Core.link_turned_other hown ht hab hi h0).2]

end OtherLanes

/-! ## The first tokens of a round -/

/-- A join's lane that has taken the first tokens h of a round at some inputs. -/
def LaneState.joined (l : LaneState) (ins : List Nat) (h : Nat → Option Token) : LaneState :=
  { l with
    ops := (upto 3).map fun i => if i ∈ ins then (h i).bind (began false) else none
    out := l.out ++ ins.filterMap fun i => (h i).map fun t => (i, t) }

theorem mem_joinInputs {w : NodeWord} {i : Nat} : i ∈ joinInputs w ↔ i < 3 ∧ selectOf w i ≠ 0 := by
  rw [joinInputs, List.mem_filter, upto, List.mem_range, decide_eq_true_eq]

theorem selects_joinInputs (w : NodeWord) : Selects w (joinInputs w) :=
  ⟨List.nodup_range.filter _, fun _ hi => mem_joinInputs.1 hi⟩

/-- Tokens of the grammar stand at every input of a join's lane. -/
def View.ready (v : View) : Prop := ∀ i ∈ joinInputs v.w, ∃ t, v.head i = some t ∧ v.fits i t = true

theorem joinBegin_ready {v : View} (l : LaneState) (h : v.ready) :
    joinBegin v l = ⟨l.joined (joinInputs v.w) v.head, joinInputs v.w, [], none, ⟨0, 0, 0, 0⟩⟩ := by
  have hfind : (joinInputs v.w).find? (fun i => ((v.head i).filter fun t => !v.fits i t).isSome) = none := by
    rw [List.find?_eq_none]
    intro i hi
    obtain ⟨t, ht, hfits⟩ := h i hi
    simp [ht, hfits]
  unfold joinBegin
  extract_lets ins op ts
  have hop : op = fun i => if i ∈ ins then (v.head i).bind (began false) else none := by
    funext i
    unfold op
    by_cases hi : i ∈ ins
    · rw [List.contains_iff_mem.2 hi, if_pos hi]
      cases v.head i with
      | none => rfl
      | some t => cases t <;> rfl
    · have hno : ins.contains i = false := by simpa using hi
      rw [if_neg hi]
      simp only [hno]
      split <;> rfl
  rw [show ins.find? (fun i => ((v.head i).filter fun t => !v.fits i t).isSome) = none from hfind, hop]
  dsimp only
  rw [Turn.taking]
  simp only [Turn.of, List.append_nil]
  rfl

section Joined
variable {l : LaneState} {ins : List Nat} {h : Nat → Option Token}

theorem LaneState.nextOut_joined (hout : l.out = []) (x : Nat) : (l.joined ins h).nextOut x = if x ∈ ins then h x else none := by
  rw [LaneState.nextOut, LaneState.joined, hout, List.nil_append]
  dsimp only
  induction ins with
  | nil => rfl
  | cons i r ih =>
    rw [List.filterMap_cons]
    cases hi : h i with
    | none =>
      refine ih.trans ?_
      by_cases hx : x = i
      · subst hx
        simp [hi]
      · simp [hx]
    | some t =>
      simp only [Option.map_some, List.find?_cons]
      by_cases hx : i = x
      · subst hx
        simp [hi]
      · rw [decide_eq_false hx]
        refine ih.trans ?_
        simp [Ne.symm hx]

theorem LaneState.oneEach_joined (hout : l.out = []) (hins : ins.Nodup) : (l.joined ins h).oneEach := by
  have hsub : ((ins.filterMap fun i => (h i).map fun t => (i, t)).map fun t => t.1).Sublist ins := by
    clear hins
    induction ins with
    | nil => exact List.Sublist.refl _
    | cons i r ih =>
      rw [List.filterMap_cons]
      cases h i with
      | none => exact ih.cons _
      | some t => exact ih.cons_cons _
  rw [LaneState.oneEach, LaneState.joined, hout]
  exact hins.sublist hsub

end Joined

/-! ## What leaves next -/

theorem filterMap_eq_singleton {α β : Type} {f : α → Option β} {l : List α} {a : α} {b : β} (hl : l.Nodup) (ha : a ∈ l) (hb : f a = some b)
    (h : ∀ x ∈ l, x ≠ a → f x = none) : l.filterMap f = [b] := by
  obtain ⟨pre, post, rfl⟩ := List.append_of_mem ha
  obtain ⟨-, hpost, hdisj⟩ := List.nodup_append.1 hl
  have hnot : a ∉ post := (List.nodup_cons.1 hpost).1
  have hpre : pre.filterMap f = [] := List.filterMap_eq_nil_iff.2 fun x hx =>
    h x (List.mem_append_left _ hx) fun he => hdisj x hx a List.mem_cons_self he
  have hpost : post.filterMap f = [] := List.filterMap_eq_nil_iff.2 fun x hx =>
    h x (List.mem_append_right _ (List.mem_cons_of_mem _ hx)) fun he => hnot (he ▸ hx)
  rw [List.filterMap_append, hpre, List.filterMap_cons_some hb, hpost]
  rfl

theorem nodup_lanesOn (w : NodeWord) : (lanesOn w).Nodup := List.nodup_range.filter _

theorem mem_lanesOn {w : NodeWord} {m : Nat} : m ∈ lanesOn w ↔ m < 4 ∧ laneOn w m = true := by
  rw [lanesOn, List.mem_filter, upto, List.mem_range]

/-- One lane's token that is no BOUND leaves alone. -/
theorem beatLanes_one {w : NodeWord} {n : NodeState} {x m : Nat} {t : Token} (hw : w.op.toNat = 0x2B) (hm : m ∈ lanesOn w)
    (ht : (n.lane m).nextOut x = some t) (hbound : t.kind ≠ 6) (h : ∀ l, l ≠ m → (n.lane l).nextOut x = none) :
    beatLanes w n x = [(m, t)] := by
  have hts : ((lanesOn w).filterMap fun l => ((n.lane l).nextOut x).map fun t => (l, t)) = [(m, t)] :=
    filterMap_eq_singleton (nodup_lanesOn w) hm (by rw [ht]; rfl) fun l _ hl => by rw [h l hl]; rfl
  unfold beatLanes
  rw [hts]
  simp [hw, hbound, sameBeat]

/-- A BOUND that every enabled lane holds leaves for all of them. -/
theorem beatLanes_bound {w : NodeWord} {n : NodeState} {x v : Nat} (hw : w.op.toNat = 0x2B)
    (h : ∀ m ∈ lanesOn w, (n.lane m).nextOut x = some (.bound v)) :
    beatLanes w n x = (lanesOn w).map fun m => (m, .bound v) := by
  have hts : ((lanesOn w).filterMap fun l => ((n.lane l).nextOut x).map fun t => (l, t)) = (lanesOn w).map fun m => (m, .bound v) := by
    rw [← List.filterMap_eq_map]
    exact List.filterMap_congr fun m hm => by rw [h m hm]; rfl
  have hno : ((lanesOn w).map fun m => (m, Token.bound v)).filter (fun t => decide (t.2.kind ≠ 0x6)) = [] := by
    simp [List.filter_eq_nil_iff, Token.kind]
  unfold beatLanes
  rw [hts]
  simp only [hw, Nat.reduceEqDiff, decide_false, Bool.false_and, Bool.false_eq_true, if_false]
  rw [hno]
  exact if_pos (by simp [boundHeld, hw])

end Sys2Proof.Machine
end

section
/-!
The events of a join (06 R190, R202).
-/
namespace Sys2Proof.Machine

open Sys2Proof.Safety

/-! ## What a join sends -/

section FlushAll
variable {c : Core} {site : Nat} (hop : (c.node site).op.toNat = 0x2B)
include hop

theorem Core.flushAll_join : c.flushAll site = (upto 7).foldl (fun c x => c.flush site x) c := by
  rw [Core.flushAll, if_neg (by rw [hop]; decide)]

theorem Core.flushAll_sending : Sending c (c.flushAll site) := by
  rw [Core.flushAll_join hop]
  exact Core.foldl_flush_sending _ hop

theorem Core.flushAll_sent (m : Nat) : ((c.nodeState site).lane m).Sent (((c.flushAll site).nodeState site).lane m) := by
  rw [Core.flushAll_join hop]
  exact (Core.foldl_flush_sent m _ hop).1

end FlushAll

/-! ## When a round begins -/

theorem Core.joinBounds_eq_nil {c : Core} {site m : Nat}
    (h : ∀ i ∈ joinInputs (c.node site), ∀ t, (c.view site m).head i = some t → t.kind ≠ 6) : c.joinBounds site m = [] := by
  unfold Core.joinBounds
  extract_lets n v ins
  have hno : ins.filter (fun i => ((v.head i).filter fun t => t.kind = 0x6).isSome) = [] := by
    rw [List.filter_eq_nil_iff]
    intro i hi hsome
    obtain ⟨t, ht⟩ := Option.isSome_iff_exists.1 hsome
    obtain ⟨ht, hkind⟩ := Option.filter_eq_some_iff.1 ht
    exact h i hi t ht (by simpa using hkind)
  rw [hno, ite_self]

/-- Where a join's lane has a round with a BOUND next, its items are all there and the round before has left. -/
theorem Core.joinBounds_ne_nil {c : Core} {site m : Nat} (h : c.joinBounds site m ≠ []) :
    ((c.nodeState site).lane m).out = [] ∧ (c.view site m).ready ∧ ∀ i ∈ c.joinBounds site m, i ∈ joinInputs (c.node site) := by
  unfold Core.joinBounds at h ⊢
  extract_lets at h ⊢
  split at h
  · exact absurd rfl h
  next hno =>
    rw [if_neg hno]
    simp only [Bool.or_eq_true, not_or, decide_eq_true_eq, not_not, List.any_eq_true, not_exists, not_and, Option.isNone_iff_eq_none] at hno
    obtain ⟨⟨hout, -⟩, hheads⟩ := hno
    refine ⟨hout, fun i hi => ?_, fun i hi => List.mem_of_mem_filter hi⟩
    obtain ⟨t, ht⟩ := Option.ne_none_iff_exists'.1 (hheads i hi)
    obtain ⟨ht, hfits⟩ := Option.filter_eq_some_iff.1 ht
    exact ⟨t, ht, hfits⟩

theorem joinTurn_begins {v : View} {l : LaneState} (hops : ∀ o ∈ l.ops, o = none) (hout : l.out = []) (hready : v.ready)
    (hsend : ∀ i ∈ joinInputs v.w, nth v.room i true = true ∧ nth v.idle i true = true) : joinTurn v l = joinBegin v l := by
  have hall : (l.ops.all fun o => o.isNone) = true := List.all_eq_true.2 fun o ho => by rw [hops o ho]; rfl
  have hgo : (decide (l.out ≠ []) || (joinInputs v.w).any fun i => (v.head i).isNone || !nth v.room i true || !nth v.idle i true) = false := by
    rw [Bool.or_eq_false_iff, decide_eq_false (not_not.2 hout), List.any_eq_false]
    refine ⟨rfl, fun i hi => ?_⟩
    obtain ⟨t, ht, -⟩ := hready i hi
    obtain ⟨hroom, hidle⟩ := hsend i hi
    simp [ht, hroom, hidle]
  unfold joinTurn
  dsimp only
  rw [if_pos hall, hgo, if_neg nofun]

theorem outIdle_silent {w : NodeWord} {n : NodeState} (h : n.silent) (x : Nat) : outIdle w n x = true := by
  refine List.all_eq_true.2 fun l hl => ?_
  have hnone : (n.lane l).nextOut x = none := by rw [LaneState.nextOut, h l (mem_lanesOn.1 hl).1]; rfl
  rw [hnone]

/-- Lanes that a node does not have hold nothing either. -/
theorem NodeState.silent.out {n : NodeState} (h : n.silent) (hlen : n.lanes.length = 4) (m : Nat) : (n.lane m).out = [] := by
  by_cases hm : m < 4
  · exact h m hm
  · rw [NodeState.lane, nth, List.getD_eq_default _ _ (by omega)]
    rfl

theorem LaneState.nextOut_of_out {l : LaneState} (h : l.out = []) (x : Nat) : l.nextOut x = none := by
  rw [LaneState.nextOut, h]
  rfl

/-! ## A lane that begins a round alone -/

section Alone
variable {s : State} {k : CoreId} {site lane : Nat} {hs : List (Option Token)}

/-- A turn of a join's lane without a BOUND: what it takes leaves at once where it can. -/
theorem exec_nodeJoin_alone {v : LaneState} {takes : List Nat} (h : AtNode s k site lane 0x2B hs)
    (hbounds : (s.core k).joinBounds site lane = []) (hops : ∀ o ∈ (((s.core k).nodeState site).lane lane).ops, o = none)
    (hact : joinTurn ((s.core k).view site lane) (((s.core k).nodeState site).lane lane) = ⟨v, takes, [], none, ⟨0, 0, 0, 0⟩⟩) :
    ∃ t, exec (.nodeJoin k site lane) s = .next t ∧ FabricStep s t k (((s.core k).turned site lane v takes []).flushAll site) := by
  obtain ⟨u, hu, hturn⟩ := h.nodeTurn (act := joinTurn) (wait := joinTurn) (by decide)
  rw [hact] at hturn
  have hstep := hu.trans (u.applyTurn_fabricStep k site lane v takes [])
  rw [hu.core] at hstep
  generalize u.applyTurn k site lane ⟨v, takes, [], none, ⟨0, 0, 0, 0⟩⟩ = t at hturn hstep
  have hlinks : OnlyLinks (s.core k) _ := (s.core k).turned_links site lane takes []
  have hnode : ((s.core k).turned site lane v takes []).node site = (s.core k).node site :=
    Core.node_congr ((s.core k).turned_drains site lane v takes).image site
  have hrecords : ((s.core k).turned site lane v takes []).records = (s.core k).records := hlinks.part Core.records fun _ _ => rfl
  have hall : ((((s.core k).nodeState site).lane lane).ops.all fun o => o.isNone) = true :=
    List.all_eq_true.2 fun o ho => by rw [hops o ho]; rfl
  have hexec : exec (.nodeJoin k site lane) s = .next (t.modCore k fun c =>
      if (c.node site).op.toNat = 0x2B then c.flushAll site else c) := by
    change execNodeJoin k site lane s = _
    unfold execNodeJoin
    extract_lets c w runs started
    rw [if_neg (by rw [show c.joinBounds site lane = [] from hbounds]; simp), hturn]
    dsimp only
    rw [if_pos]
    simp only [started, hall, hstep.core, hrecords, Bool.true_and]
    simpa using h.runs
  refine ⟨_, hexec, ?_⟩
  have hsend := hstep.modCore (f := fun c => if (c.node site).op.toNat = 0x2B then c.flushAll site else c) ?_
  · rwa [if_pos (by rw [hnode]; exact h.code)] at hsend
  · rw [if_pos (by rw [hnode]; exact h.code)]
    exact (Core.flushAll_sending (by rw [hnode]; exact h.code)).fcs

/-- A lane of a join begins a round of items without a BOUND: each token goes to its output at once. -/
theorem nodeJoin_round {ts : List Token} (h : AtNode s k site lane 0x2B (ts.map some))
    (hops : ∀ o ∈ (((s.core k).nodeState site).lane lane).ops, o = none)
    (hins : ∀ i, i < 3 → (selectOf ((s.core k).node site) i ≠ 0 ↔ i < ts.length)) (hlen : ts.length ≤ 3)
    (hts : ∀ i t, ts[i]? = some t → Fits s k site lane i t ∧ t.kind ≠ 6 ∧ (s.core k).outRoom site ((s.core k).node site) i = true)
    (hdest : ∀ i j, i < j → j < ts.length → (s.core k).outDest site ((s.core k).node site) i ≠ (s.core k).outDest site ((s.core k).node site) j ∨
      (s.core k).outDest site ((s.core k).node site) i = .none) :
    ∃ u, exec (.nodeJoin k site lane) s = .next u ∧ AllRegs s u ∧ Bytes s u ∧
      ((u.core k).nodeState site |>.lane lane).ops = (upto 3).map (fun i => (ts[i]?).bind (began false)) ∧
      ((u.core k).nodeState site |>.lane lane).out = [] ∧
      ∀ i t, ts[i]? = some t →
        ((u.core k).fabric.link site (inputSide ((s.core k).node site) i)).fifo =
          (((s.core k).fabric.link site (inputSide ((s.core k).node site) i)).take lane).fifo ∧
        ∀ q d, (s.core k).outDest site ((s.core k).node site) i = .node q d → beatOf [(lane, t)] false ∈ ((u.core k).fabric.link q d).wire := by
  have hmem (i : Nat) : i ∈ joinInputs ((s.core k).node site) ↔ i < ts.length := by
    rw [mem_joinInputs]
    exact ⟨fun hi => (hins i hi.1).1 hi.2, fun hi => ⟨by omega, (hins i (by omega)).2 hi⟩⟩
  have hhead {i : Nat} (hi : i < 3) : ((s.core k).view site lane).head i = ts[i]? := by
    rw [h.head hi, nth, List.getD_eq_getElem?_getD, List.getElem?_map]
    cases ts[i]? <;> rfl
  have hready : ((s.core k).view site lane).ready := fun i hi => by
    have hi' : i < ts.length := (hmem i).1 hi
    refine ⟨ts[i], ?_, (hts i ts[i] (List.getElem?_eq_getElem hi')).1⟩
    rw [hhead (by omega), List.getElem?_eq_getElem hi']
  have hbounds : (s.core k).joinBounds site lane = [] := Core.joinBounds_eq_nil fun i hi t ht => by
    rw [hhead (by have := (hmem i).1 hi; omega)] at ht
    exact (hts i t ht).2.1
  have hturn : joinTurn ((s.core k).view site lane) (((s.core k).nodeState site).lane lane) = _ :=
    (joinTurn_begins hops h.out hready fun i hi => by
      have hi' : i < ts.length := (hmem i).1 hi
      rw [Core.room_view _ _ _ (by omega), Core.idle_view _ _ _ (by omega)]
      exact ⟨(hts i ts[i] (List.getElem?_eq_getElem hi')).2.2, outIdle_silent h.silent i⟩).trans (joinBegin_ready _ hready)
  obtain ⟨u, hexec, hstep⟩ := exec_nodeJoin_alone h hbounds hops hturn
  let l := ((s.core k).nodeState site).lane lane
  let l' := l.joined (joinInputs ((s.core k).node site)) ((s.core k).view site lane).head
  let d := (s.core k).turned site lane l' (joinInputs ((s.core k).node site)) []
  have hdrain : Drains (s.core k) d := Core.turned_drains _ _ _ _ _
  have hnode : d.node site = (s.core k).node site := Core.node_congr hdrain.image site
  have hop : (d.node site).op.toNat = 0x2B := by rw [hnode]; exact h.code
  have hl' : (d.nodeState site).lane lane = l' := Core.lane_turned _ _ _ _ (by rw [h.lanes]; exact h.enabled.1)
  have hother (m : Nat) (hm : m ≠ lane) (x : Nat) : ((d.nodeState site).lane m).nextOut x = none := by
    rw [Core.lane_turned_ne _ _ _ _ _ _ (.inr hm)]
    exact LaneState.nextOut_of_out (h.silent.out h.lanes m) x
  have hnext (x : Nat) : ((d.nodeState site).lane lane).nextOut x =
      if x ∈ joinInputs ((s.core k).node site) then ((s.core k).view site lane).head x else none := by
    rw [hl']
    exact LaneState.nextOut_joined h.out x
  have hnone {x : Nat} (hx : ¬x < ts.length) : ((d.nodeState site).lane lane).nextOut x = none := by
    rw [hnext, if_neg (by rwa [hmem])]
  have hone : ((d.nodeState site).lane lane).oneEach := by
    rw [hl']
    exact LaneState.oneEach_joined h.out (selects_joinInputs _).1
  have hlanes : lane < (d.nodeState site).lanes.length := by
    rw [Core.lanes_turned, h.lanes]
    exact h.enabled.1
  have hsends {i : Nat} {t : Token} (hi : ts[i]? = some t) := by
    have hi' : i < ts.length := (List.getElem?_eq_some_iff.1 hi).1
    obtain ⟨-, hkind, hroom⟩ := hts i t hi
    have hbeat : beatLanes (d.node site) (d.nodeState site) i = [(lane, t)] := by
      refine beatLanes_one hop (by rw [hnode]; exact mem_lanesOn.2 h.enabled) ?_ hkind fun m hm => hother m hm i
      rw [hnext, if_pos ((hmem i).2 hi'), hhead (by omega), hi]
    refine Core.flushAll_sends hop (by omega) hbeat (by nofun) (by rw [hnode]; exact hdrain.outRoom hroom) fun x _ hxi => ?_
    by_cases hx : x < ts.length
    · right
      rw [hnode, Core.outDest_congr hdrain.image, Core.outDest_congr hdrain.image]
      rcases Nat.lt_or_gt_of_ne hxi with hlt | hlt
      · obtain hne | hno := hdest x i hlt hi'
        · exact .inl hne
        · rw [hno]
          exact (em _).symm.imp Ne.symm id
      · exact (hdest i x hlt hx).imp Ne.symm id
    · left
      intro m
      by_cases hm : m = lane
      · rw [hm]
        exact hnone hx
      · exact hother m hm x
  have hsent := Core.flushAll_sent hop lane
  refine ⟨u, hexec, hstep.regs, hstep.bytes, ?_, ?_, fun i t hi => ⟨?_, fun q e hd => ?_⟩⟩
  · rw [hstep.core]
    refine hsent.ops.trans ?_
    rw [hl']
    refine List.map_congr_left fun i hi => ?_
    rw [hhead (List.mem_range.1 hi)]
    by_cases hi' : i < ts.length
    · rw [if_pos ((hmem i).2 hi')]
    · rw [if_neg (by rwa [hmem]), List.getElem?_eq_none (Nat.not_lt.1 hi')]
      rfl
  · rw [hstep.core]
    refine LaneState.out_eq_nil fun x => ?_
    by_cases hx : x < ts.length
    · exact (hsends (List.getElem?_eq_getElem hx)).2 lane (List.mem_singleton.2 rfl) hlanes hone
    · exact hsent.nextOut_none (hnone hx)
  · have hi' : i < ts.length := (List.getElem?_eq_some_iff.1 hi).1
    obtain ⟨h3, h0⟩ := mem_joinInputs.1 ((hmem i).2 hi')
    rw [hstep.core]
    refine ((Core.flushAll_sending hop).fifo _ _).trans ?_
    rw [Core.link_turned _ _ _ _ h.links (selects_joinInputs _) (selects_nil _) h3 h0, if_neg List.not_mem_nil, if_pos ((hmem i).2 hi')]
  · rw [hstep.core]
    exact (hsends hi).1 q e (by rw [hnode, Core.outDest_congr hdrain.image]; exact hd)

end Alone

/-! ## A round with a BOUND, on every enabled lane at once (06 R190) -/

section Together
variable {site : Nat} {c : Core}

/-- Lanes of a join take the first tokens of their rounds. -/
def Core.joinedBy (c : Core) (site : Nat) (ls : List Nat) : Core :=
  ls.foldl (fun c m => c.turned site m (((c.nodeState site).lane m).joined (joinInputs (c.node site)) (c.view site m).head)
    (joinInputs (c.node site)) []) c

/-- What one lane's taking leaves of another that is ready. -/
theorem Core.ready_turned {a b : Nat} {v : LaneState} (hown : OwnLinks (c.node site)) (hab : b ≠ a) (h : (c.view site b).ready) :
    ((c.turned site a v (joinInputs (c.node site)) []).view site b).ready := fun i hi => by
  have hnode : ((c.turned site a v (joinInputs (c.node site)) []).view site b).w = c.node site :=
    Core.node_congr (c.turned_drains site a v _).image site
  rw [hnode] at hi
  obtain ⟨t, ht, hfits⟩ := h i hi
  refine ⟨t, ?_, ?_⟩
  · rw [Core.head_turned_other hown (selects_joinInputs _) hab, ht]
  · rw [Core.fits_turned_other hown (selects_joinInputs _) hab (mem_joinInputs.1 hi).1, hfits]

/-- Lanes that are ready take their tokens one after another, each as if it were alone. -/
theorem Core.joinedBy_spec {ls : List Nat} (hls : ls.Nodup) : ∀ {c : Core}, OwnLinks (c.node site) → (∀ m ∈ ls, (c.view site m).ready) →
    (∀ m ∈ ls, m < (c.nodeState site).lanes.length) → Drains c (c.joinedBy site ls) ∧
    ∀ m, ((c.joinedBy site ls).nodeState site).lane m = if m ∈ ls
      then ((c.nodeState site).lane m).joined (joinInputs (c.node site)) (c.view site m).head else (c.nodeState site).lane m := by
  induction ls with
  | nil => exact fun _ _ _ => ⟨Drains.refl _, fun _ => (if_neg List.not_mem_nil).symm⟩
  | cons a r ih =>
    intro c hown hready hlen
    obtain ⟨ha, hr⟩ := List.nodup_cons.1 hls
    let v := ((c.nodeState site).lane a).joined (joinInputs (c.node site)) (c.view site a).head
    let d := c.turned site a v (joinInputs (c.node site)) []
    have hdrain : Drains c d := c.turned_drains site a v _
    have hnode : d.node site = c.node site := Core.node_congr hdrain.image site
    have hne {m : Nat} (hm : m ∈ r) : m ≠ a := fun he => ha (he ▸ hm)
    obtain ⟨hdrains, hlanes⟩ := ih hr (c := d) (by rw [hnode]; exact hown)
      (fun m hm => Core.ready_turned hown (hne hm) (hready m (List.mem_cons_of_mem _ hm)))
      (fun m hm => by rw [Core.lanes_turned]; exact hlen m (List.mem_cons_of_mem _ hm))
    refine ⟨hdrain.trans hdrains, fun m => (hlanes m).trans ?_⟩
    by_cases hma : m = a
    · subst hma
      rw [if_neg ha, if_pos List.mem_cons_self, Core.lane_turned _ _ _ _ (hlen m List.mem_cons_self)]
    · rw [Core.lane_turned_ne _ _ _ _ _ _ (.inr hma), hnode, Core.head_turned_other hown (selects_joinInputs _) hma]
      simp [hma]

/-- The same in a state: no lane finds a fault. -/
theorem State.joinedBy_step {s : State} {k : CoreId} {ls : List Nat} (hls : ls.Nodup) : ∀ {t : State} {c : Core}, FabricStep s t k c →
    OwnLinks (c.node site) → (∀ m ∈ ls, (c.view site m).ready) → FabricStep s
      (ls.foldl (fun t m => t.applyTurn k site m (joinBegin ((t.core k).view site m) (((t.core k).nodeState site).lane m))) t) k
      (c.joinedBy site ls) := by
  induction ls with
  | nil => exact fun h _ _ => h
  | cons a r ih =>
    intro t c h hown hready
    obtain ⟨ha, hr⟩ := List.nodup_cons.1 hls
    have hstep := h.trans (t.applyTurn_fabricStep k site a (((c.nodeState site).lane a).joined (joinInputs (c.node site)) (c.view site a).head)
      (joinInputs (c.node site)) [])
    have hturn := joinBegin_ready ((c.nodeState site).lane a) (hready a List.mem_cons_self)
    rw [List.foldl_cons, h.core, hturn]
    rw [h.core] at hstep
    refine ih hr hstep (by rw [Core.node_congr (c.turned_drains site a _ _).image]; exact hown) fun m hm => ?_
    exact Core.ready_turned hown (fun he => ha (he ▸ hm)) (hready m (List.mem_cons_of_mem _ hm))

end Together

section Bounds
variable {s : State} {k : CoreId} {site lane : Nat} {hs : List (Option Token)}

/-- A join's lane whose round has a BOUND begins it with the others. -/
theorem exec_nodeJoin_together (h : AtNode s k site lane 0x2B hs) (hbounds : (s.core k).joinBounds site lane ≠ []) :
    ∃ u, FabricStep s u k (s.core k) ∧
      exec (.nodeJoin k site lane) s = .next (u.joinTogether k site ((s.core k).joinBounds site lane)) := by
  have hstep := s.modCore_fabricStep k (f := fun c => c.flushAll site) (by rw [h.flushAll (by decide)])
  rw [h.flushAll (by decide)] at hstep
  refine ⟨_, hstep, ?_⟩
  change execNodeJoin k site lane s = _
  unfold execNodeJoin
  extract_lets c w runs
  have hruns : runs = true := by simp [runs, w, c, h.code, h.enabled.1, h.enabled.2, h.runs]
  rw [if_pos (by rw [hruns]; simpa using hbounds)]

/-- A lane of a join whose round has a BOUND waits for the others. -/
theorem nodeJoin_waits (h : AtNode s k site lane 0x2B hs) (hbounds : (s.core k).joinBounds site lane ≠ []) {m : Nat}
    (hm : m ∈ lanesOn ((s.core k).node site)) (hother : (s.core k).joinBounds site m ≠ (s.core k).joinBounds site lane) :
    Turns (.nodeJoin k site lane) s k site lane [] [] (((s.core k).nodeState site).lane lane) := by
  obtain ⟨u, hu, hexec⟩ := exec_nodeJoin_together h hbounds
  have hstay : u.joinTogether k site ((s.core k).joinBounds site lane) = u := by
    unfold State.joinTogether
    dsimp only
    rw [hu.core, if_neg]
    rw [Bool.and_eq_true, List.all_eq_true]
    exact fun hall => hother (of_decide_eq_true (hall.1 m hm))
  rw [hstay] at hexec
  refine ⟨u, hexec, ?_, hu.regs, hu.bytes, hu.others, fun n m _ => ?_, fun j _ _ => ?_⟩
  · rw [hu.core]
  · rw [hu.core]
  · rw [hu.core]
    simp

theorem beatOf_bound (ls : List Nat) (n : Nat) (hls : ls ≠ []) : beatOf (ls.map fun m => (m, .bound n)) false = ⟨6, 0xF#4, 0#4, n⟩ := by
  cases ls with
  | nil => exact absurd rfl hls
  | cons a r => rfl

/-- A round with a BOUND begins on every enabled lane, and the BOUND leaves in a beat of all lanes. -/
theorem nodeJoin_bound {i n q e : Nat} (h : AtNode s k site lane 0x2B hs)
    (hall : ∀ m ∈ lanesOn ((s.core k).node site), (s.core k).joinBounds site m = (s.core k).joinBounds site lane ∧
      (s.core k).headAt site ((s.core k).node site) i m = some (.bound n))
    (hi : i ∈ (s.core k).joinBounds site lane)
    (hroom : ∀ j, selectOf ((s.core k).node site) j ≠ 0 → j < 3 → (s.core k).outRoom site ((s.core k).node site) j = true)
    (hdest : (s.core k).outDest site ((s.core k).node site) i = .node q e)
    (hapart : ∀ j, j < 3 → j ≠ i → (s.core k).outDest site ((s.core k).node site) j ≠ .node q e) :
    ∃ u, exec (.nodeJoin k site lane) s = .next u ∧ AllRegs s u ∧ Bytes s u ∧ ⟨6, 0xF#4, 0#4, n⟩ ∈ ((u.core k).fabric.link q e).wire := by
  have hbounds : (s.core k).joinBounds site lane ≠ [] := List.ne_nil_of_mem hi
  obtain ⟨u, hu, hexec⟩ := exec_nodeJoin_together h hbounds
  have hon : lane ∈ lanesOn ((s.core k).node site) := mem_lanesOn.2 h.enabled
  have hins : i ∈ joinInputs ((s.core k).node site) := (Core.joinBounds_ne_nil hbounds).2.2 i hi
  obtain ⟨hi3, hi0⟩ := mem_joinInputs.1 hins
  have hready (m : Nat) (hm : m ∈ lanesOn ((s.core k).node site)) : ((s.core k).view site m).ready :=
    (Core.joinBounds_ne_nil (by rw [(hall m hm).1]; exact hbounds)).2.1
  let d := (s.core k).joinedBy site (lanesOn ((s.core k).node site))
  obtain ⟨hdrain, hlanes⟩ := Core.joinedBy_spec (nodup_lanesOn ((s.core k).node site)) h.links hready fun m hm => by
    rw [h.lanes]
    exact (mem_lanesOn.1 hm).1
  have hnode : d.node site = (s.core k).node site := Core.node_congr hdrain.image site
  have hop : (d.node site).op.toNat = 0x2B := by rw [hnode]; exact h.code
  have hnext (m x : Nat) : ((d.nodeState site).lane m).nextOut x =
      if m ∈ lanesOn ((s.core k).node site) ∧ x ∈ joinInputs ((s.core k).node site) then ((s.core k).view site m).head x else none := by
    have hout := h.silent.out h.lanes m
    rw [hlanes]
    by_cases hm : m ∈ lanesOn ((s.core k).node site)
    · rw [if_pos hm, LaneState.nextOut_joined hout]
      simp [hm]
    · rw [if_neg hm, LaneState.nextOut_of_out hout]
      simp [hm]
  have hbeat : beatLanes (d.node site) (d.nodeState site) i = (lanesOn ((s.core k).node site)).map fun m => (m, .bound n) := by
    rw [hnode]
    refine beatLanes_bound h.code fun m hm => ?_
    rw [hnext, if_pos ⟨hm, hins⟩, Core.head_view _ _ _ hi3, (hall m hm).2]
  have hsends := (Core.flushAll_sends hop (by omega) hbeat (by simpa using List.ne_nil_of_mem hon)
    (by rw [hnode]; exact hdrain.outRoom (hroom i hi0 hi3)) fun x _ hxi => ?_).1 q e
    (by rw [hnode, Core.outDest_congr hdrain.image]; exact hdest)
  · rw [beatOf_bound _ _ (List.ne_nil_of_mem hon)] at hsends
    have hstep := State.joinedBy_step (site := site) (nodup_lanesOn ((s.core k).node site)) hu h.links hready
    have hflush := hstep.modCore (f := fun c => c.flushAll site) (Core.flushAll_sending hop).fcs
    have hgo : u.joinTogether k site ((s.core k).joinBounds site lane) = ((lanesOn ((s.core k).node site)).foldl (fun t m =>
        t.applyTurn k site m (joinBegin ((t.core k).view site m) (((t.core k).nodeState site).lane m))) u).modCore k fun c =>
          c.flushAll site := by
      unfold State.joinTogether
      dsimp only
      rw [hu.core]
      refine if_pos ?_
      rw [Bool.and_eq_true, List.all_eq_true, List.all_eq_true]
      refine ⟨fun m hm => decide_eq_true (hall m hm).1, fun j hj => ?_⟩
      obtain ⟨hj3, hj0⟩ := mem_joinInputs.1 hj
      rw [hroom j hj0 hj3, outIdle_silent h.silent]
      rfl
    rw [hgo] at hexec
    refine ⟨_, hexec, hflush.regs, hflush.bytes, ?_⟩
    rw [hflush.core]
    exact hsends
  · by_cases hx : x < 3
    · right; left
      rw [hnode, Core.outDest_congr hdrain.image, Core.outDest_congr hdrain.image, hdest]
      exact hapart x hx hxi
    · left
      intro m
      rw [hnext, if_neg fun hm => hx (mem_joinInputs.1 hm.2).1]

end Bounds

end Sys2Proof.Machine
end

section
/-!
The routing nodes together (06 R199 to R205).
-/
namespace Sys2Proof.Machine

open Sys2Proof.Safety

section Node
variable {s : State} {k : CoreId} {site lane : Nat} {hs : List (Option Token)} {t : Token}

/-- The tokens of a node with two inputs that has one at input i alone. -/
theorem nth_item {i : Nat} (hi : i < 2) (t : Token) :
    nth (if i = 0 then [some t] else [none, some t]) i none = some t ∧ nth (if i = 0 then [some t] else [none, some t]) (1 - i) none = none := by
  obtain rfl | rfl : i = 0 ∨ i = 1 := by omega
  · exact ⟨rfl, rfl⟩
  · exact ⟨rfl, rfl⟩

/-! ## merge (06 R199) -/

theorem nodeMerge_item {i : Nat} (hbusy : (((s.core k).nodeState site).lane lane).busy = false)
    (hvar : ((s.core k).node site).var = false) (hi : i < 2) (hturn : (((s.core k).nodeState site).lane lane).turn = i)
    (hfits : Fits s k site lane i t) (hrow : t.isRow = false)
    (h : AtNode s k site lane 0x28 (if i = 0 then [some t] else [none, some t])) :
    let l := ((s.core k).nodeState site).lane lane
    Turns (.nodeMerge k site lane) s k site lane [i] []
      { l with busy := isHead t, index := i, stopped := false, turn := 1 - i, order := l.order.erase i, out := [(0, t)] } := by
  obtain ⟨hhere, hother⟩ := nth_item hi t
  have heq := mergeTurn_item (v := (s.core k).view site lane) hbusy hvar hi hturn ((h.head (by omega)).trans hhere)
    ((h.head (by omega)).trans hother) hfits hrow
  rw [h.out] at heq
  exact h.turns (act := mergeTurn) (wait := waitTurn) (by decide) rfl heq (h.selects_one (by omega) hhere) (selects_nil _)

theorem nodeMerge_rows (hbusy : (((s.core k).nodeState site).lane lane).busy = false) (hrow : t.isRow = true)
    (h : AtNode s k site lane 0x28 [some t, some t]) :
    let l := ((s.core k).nodeState site).lane lane
    Turns (.nodeMerge k site lane) s k site lane [0, 1] [] { l with turn := 0, order := (l.order.erase 0).erase 1, out := [(0, t)] } := by
  have heq := mergeTurn_rows (v := (s.core k).view site lane) hbusy (h.head (by decide)) (h.head (by decide)) hrow
  rw [h.out] at heq
  exact h.turns (act := mergeTurn) (wait := waitTurn) (by decide) rfl heq (h.selects (by decide) fun i hi => by
    simp only [List.mem_cons, List.not_mem_nil, or_false] at hi
    obtain rfl | rfl := hi <;> exact ⟨by decide, rfl⟩) (selects_nil _)

theorem nodeMerge_differ (hbusy : (((s.core k).nodeState site).lane lane).busy = false)
    (h : AtNode s k site lane 0x28 [some .eor, some .eok]) : Breaks (.nodeMerge k site lane) s k 0x46 :=
  h.breaks (act := mergeTurn) (wait := waitTurn) (by decide) rfl
    (mergeTurn_differ hbusy (h.head (by decide)) (h.head (by decide))) rfl rfl

theorem nodeMerge_rest {i : Nat} (hbusy : (((s.core k).nodeState site).lane lane).busy = true) (hi : i < 2)
    (hindex : (((s.core k).nodeState site).lane lane).index = i) (hfits : Fits s k site lane i t)
    (h : AtNode s k site lane 0x28 (if i = 0 then [some t] else [none, some t])) :
    let l := ((s.core k).nodeState site).lane lane
    Turns (.nodeMerge k site lane) s k site lane [i] [] { l with
      busy := decide (t ≠ .fin), stopped := l.stopped && decide (t ≠ .fin), out := if l.stopped then [] else [(0, t)] } := by
  obtain ⟨hhere, -⟩ := nth_item hi t
  have heq := restPasses_eq (v := (s.core k).view site lane) ((h.head (by omega)).trans hhere) hfits hbusy [0]
  rw [h.out] at heq
  subst hindex
  exact h.turns (act := mergeTurn) (wait := waitTurn) (by decide) rfl ((mergeTurn_busy hbusy).trans heq) (h.selects_one (by omega) hhere)
    (selects_nil _)

/-! ## split (06 R200) -/

theorem nodeSplit_turns (hvar : ((s.core k).node site).var = false) (hbusy : (((s.core k).nodeState site).lane lane).busy = false)
    (hfits : Fits s k site lane 0 t) (hrow : t.isRow = false) (hbound : t.kind ≠ 6) (h : AtNode s k site lane 0x29 [some t]) :
    let l := ((s.core k).nodeState site).lane lane
    Turns (.nodeSplit k site lane) s k site lane [0] [] { l with
      busy := isHead t, index := if l.turn = 0 then 0 else 2, stopped := false, turn := 1 - l.turn
      out := [(if l.turn = 0 then 0 else 2, t)] } := by
  have heq := splitTurn_turns (v := (s.core k).view site lane) hvar hbusy (h.head (by decide)) hfits hrow hbound
  rw [h.out] at heq
  exact h.turns (act := splitTurn) (wait := waitTurn) (by decide) rfl heq (h.selects_one (by decide) rfl) (selects_nil _)

theorem nodeSplit_pred {b : Bool} (hvar : ((s.core k).node site).var = true)
    (hbusy : (((s.core k).nodeState site).lane lane).busy = false) (hfits : Fits s k site lane 0 t) (hrow : t.isRow = false)
    (hbound : t.kind ≠ 6) (h : AtNode s k site lane 0x29 [some t, some (.pred b)]) :
    let l := ((s.core k).nodeState site).lane lane
    Turns (.nodeSplit k site lane) s k site lane [0, 1] [] { l with
      busy := isHead t, index := if b then 0 else 2, stopped := false, out := [(if b then 0 else 2, t)] } := by
  have heq := splitTurn_pred (v := (s.core k).view site lane) hvar hbusy (h.head (by decide)) (h.head (by decide)) hfits hrow hbound
  rw [h.out] at heq
  exact h.turns (act := splitTurn) (wait := waitTurn) (by decide) rfl heq (h.selects (by decide) fun i hi => by
    simp only [List.mem_cons, List.not_mem_nil, or_false] at hi
    obtain rfl | rfl := hi <;> exact ⟨by decide, rfl⟩) (selects_nil _)

theorem nodeSplit_both (hbusy : (((s.core k).nodeState site).lane lane).busy = false) (hfits : Fits s k site lane 0 t)
    (hboth : t.isRow = true ∨ t.kind = 6) (h : AtNode s k site lane 0x29 [some t]) :
    let l := ((s.core k).nodeState site).lane lane
    Turns (.nodeSplit k site lane) s k site lane [0] [] { l with turn := if t.isRow then 0 else l.turn, out := [(0, t), (2, t)] } := by
  have heq := splitTurn_both (v := (s.core k).view site lane) (h.head (by decide)) hbusy (h.head (by decide)) hfits hboth
  rw [h.out] at heq
  exact h.turns (act := splitTurn) (wait := waitTurn) (by decide) rfl heq (h.selects_one (by decide) rfl) (selects_nil _)

theorem nodeSplit_noPred {u : Token} (hvar : ((s.core k).node site).var = true) (h : AtNode s k site lane 0x29 hs)
    (hhead : nth hs 1 none = some u) (hu : u.kind ≠ 7) : Breaks (.nodeSplit k site lane) s k 0x43 :=
  h.breaks (act := splitTurn) (wait := waitTurn) (by decide) rfl
    (splitTurn_noPred (v := (s.core k).view site lane) hvar ((h.head (by decide)).trans hhead) hu) rfl rfl

/-! ## fork (06 R201) -/

theorem branch_lt {w : NodeWord} {x : Nat} (hx : x ∈ branches w) : x < 7 := by
  obtain ⟨d, hd, hbranch⟩ := List.mem_filterMap.1 hx
  have hd : d < 4 := List.mem_range.1 hd
  split at hbranch
  · cases hbranch
    omega
  · cases hbranch

theorem nodeFork_room (hfits : Fits s k site lane 0 t) (h : AtNode s k site lane 0x2A [some t])
    (hroom : ∀ x ∈ branches ((s.core k).node site), (s.core k).outRoom site ((s.core k).node site) x = true) :
    let w := (s.core k).node site
    let l := ((s.core k).nodeState site).lane lane
    (l.busy = false → Turns (.nodeFork k site lane) s k site lane [0] []
      { l with busy := isHead t, index := 0, stopped := false, out := (branches w).map fun x => (x, t) }) ∧
    (l.busy = true → Turns (.nodeFork k site lane) s k site lane [0] []
      { l with busy := decide (t ≠ .fin), out := ((branches w).filter fun x => !bitOf l.index x).map fun x => (x, t) }) := by
  intro w l
  have heq := forkTurn_room (v := (s.core k).view site lane) (l := l) (h.head (by decide)) hfits fun x hx =>
    (Core.room_view _ _ _ (branch_lt hx) _).trans (hroom x hx)
  rw [h.out] at heq
  refine ⟨fun hbusy => ?_, fun hbusy => ?_⟩
  · rw [if_neg (by rw [hbusy]; nofun)] at heq
    exact h.turns (act := forkTurn) (wait := waitTurn) (by decide) rfl heq (h.selects_one (by decide) rfl) (selects_nil _)
  · rw [if_pos hbusy] at heq
    exact h.turns (act := forkTurn) (wait := waitTurn) (by decide) rfl heq (h.selects_one (by decide) rfl) (selects_nil _)

theorem nodeFork_waits {x : Nat} (hfits : Fits s k site lane 0 t) (h : AtNode s k site lane 0x2A [some t])
    (hx : x ∈ branches ((s.core k).node site)) (hroom : ¬(s.core k).outRoom site ((s.core k).node site) x = true) :
    Turns (.nodeFork k site lane) s k site lane [] [] (((s.core k).nodeState site).lane lane) :=
  h.turns (act := forkTurn) (wait := waitTurn) (by decide) rfl (forkTurn_noRoom (v := (s.core k).view site lane) (h.head (by decide)) hfits hx
    ((Core.room_view _ _ _ (branch_lt hx) _).trans (Bool.not_eq_true _ ▸ hroom))) (selects_nil _) (selects_nil _)

/-! ## psrc, nsrc (06 R203, R204) -/

theorem nodePsrc_head (hbit : bitOf ((s.core k).node site).param.toNat 20 = false)
    (hops : ∀ o ∈ (((s.core k).nodeState site).lane lane).ops, o = none) (h : AtNode s k site lane 0x2C [some t])
    (hfits : Fits s k site lane 0 t) :
    let p := ((s.core k).node site).param.toNat
    let l := ((s.core k).nodeState site).lane lane
    (t.isRow = true → Turns (.nodePsrc k site lane) s k site lane [0] [] { l with index := 0 }) ∧
    (t.isRow = false → Turns (.nodePsrc k site lane) s k site lane [0] (if isHead t then [0] else [])
      { l with
        index := (l.index + 1) % (bitsOf p 19 16 + 1), ops := if isHead t then [began true t, none, none] else l.ops
        out := [(0, .pred (bitOf p l.index))] }) := by
  intro p l
  have heq := psrcTurn_head (v := (s.core k).view site lane) (l := l) hbit hops (h.head (by decide)) hfits
  have hone := h.selects_one (i := 0) (t := t) (by decide) rfl
  refine ⟨fun hrow => ?_, fun hrow => ?_⟩
  · rw [if_pos hrow] at heq
    exact h.turns (act := psrcTurn) (wait := waitTurn) (by decide) rfl heq hone (selects_nil _)
  · rw [if_neg (by rw [hrow]; nofun), LaneState.patterned, h.out] at heq
    refine h.turns (act := psrcTurn) (wait := waitTurn) (by decide) rfl heq hone ?_
    split
    · exact hone
    · exact selects_nil _

theorem nodePsrc_free (hfree : bitOf ((s.core k).node site).param.toNat 20 = true) (h : AtNode s k site lane 0x2C []) :
    let p := ((s.core k).node site).param.toNat
    let l := ((s.core k).nodeState site).lane lane
    ((s.core k).outRoom site ((s.core k).node site) 0 = true → Turns (.nodePsrc k site lane) s k site lane [] []
      { l with index := (l.index + 1) % (bitsOf p 19 16 + 1), out := [(0, .pred (bitOf p l.index))] }) ∧
    (¬(s.core k).outRoom site ((s.core k).node site) 0 = true → Turns (.nodePsrc k site lane) s k site lane [] [] l) := by
  intro p l
  have heq := psrcTurn_free (v := (s.core k).view site lane) (l := l) hfree
  rw [Core.room_view _ _ _ (by decide), LaneState.patterned, h.out] at heq
  refine ⟨fun hroom => ?_, fun hroom => ?_⟩
  · rw [if_pos hroom] at heq
    exact h.turns (act := psrcTurn) (wait := waitTurn) (by decide) rfl heq (selects_nil _) (selects_nil _)
  · rw [if_neg hroom] at heq
    exact h.turns (act := psrcTurn) (wait := waitTurn) (by decide) rfl heq (selects_nil _) (selects_nil _)

theorem nodeNsrc_turns (h : AtNode s k site lane 0x2D []) :
    let c := s.core k
    let w := c.node site
    let n := bitsOf w.param.toNat 15 0
    let l := (c.nodeState site).lane lane
    (l.stopped = false → c.outRoom site w 0 = true → (n = 0 ∨ l.index < n) →
      Turns (.nodeNsrc k site lane) s k site lane [] [] { l with index := l.index + 1, out := [(0, .null)] }) ∧
    (l.stopped = false → c.outRoom site w 0 = true → n ≠ 0 → n ≤ l.index →
      Turns (.nodeNsrc k site lane) s k site lane [] []
        { l with stopped := true, out := if bitOf w.param.toNat 16 then [(0, .eor)] else [] }) ∧
    (l.stopped = true ∨ ¬c.outRoom site w 0 = true → Turns (.nodeNsrc k site lane) s k site lane [] [] l) := by
  intro c w n l
  have hview : nth (c.view site lane).room 0 true = c.outRoom site w 0 := Core.room_view _ _ _ (by decide) _
  refine ⟨fun hgo hroom hn => ?_, fun hgo hroom h0 hlast => ?_, fun hstay => ?_⟩
  · have heq := nsrcTurn_null (v := c.view site lane) hgo (hview.trans hroom) hn
    rw [h.out] at heq
    exact h.turns (act := nsrcTurn) (wait := waitTurn) (by decide) rfl heq (selects_nil _) (selects_nil _)
  · have heq := nsrcTurn_end (v := c.view site lane) hgo (hview.trans hroom) h0 hlast
    rw [h.out] at heq
    exact h.turns (act := nsrcTurn) (wait := waitTurn) (by decide) rfl heq (selects_nil _) (selects_nil _)
  · have heq := nsrcTurn_stays (v := c.view site lane) (hstay.imp_right fun hroom => hview.trans (Bool.not_eq_true _ ▸ hroom))
    exact h.turns (act := nsrcTurn) (wait := waitTurn) (by decide) rfl heq (selects_nil _) (selects_nil _)

/-! ## dly (06 R205) -/

theorem nodeDly_takes (hfits : Fits s k site lane 0 t) (h : AtNode s k site lane 0x2E [some t]) :
    let l := ((s.core k).nodeState site).lane lane
    let aged := l.aged ((s.core k).node site).param.toNat
    (l.stopped = false → aged.held.length < 64 → Turns (.nodeDly k site lane) s k site lane [0] [] { aged with
      held := aged.held ++ [t], order := aged.order ++ [0], busy := isHead t || (l.busy && decide (t ≠ .fin)) }) ∧
    (64 ≤ aged.held.length → Turns (.nodeDly k site lane) s k site lane [] [] aged) := by
  refine ⟨fun hgo hroom => ?_, fun hfull => ?_⟩
  · exact h.turns (act := dlyTurn) (wait := dlyTurn) (by decide) rfl
      (dlyTurn_takes (v := (s.core k).view site lane) (h.head (by decide)) hfits hgo hroom) (h.selects_one (by decide) rfl) (selects_nil _)
  · exact h.turns (act := dlyTurn) (wait := dlyTurn) (by decide) rfl
      (dlyTurn_full (v := (s.core k).view site lane) (h.head (by decide)) hfits hfull) (selects_nil _) (selects_nil _)

theorem nodeDly_none (h : AtNode s k site lane 0x2E []) : Turns (.nodeDly k site lane) s k site lane [] []
    ((((s.core k).nodeState site).lane lane).aged ((s.core k).node site).param.toNat) :=
  h.turns (act := dlyTurn) (wait := dlyTurn) (by decide) rfl (dlyTurn_none (v := (s.core k).view site lane) (h.head (by decide)))
    (selects_nil _) (selects_nil _)

end Node

/-- Settles O35: an equation for each case of a node's turn (`AtNode.turns`, `AtNode.breaks`), and for a join what its lanes take and
what leaves at once (`nodeJoin_round`, `nodeJoin_bound`). -/
theorem routingNodes : Obligations.RoutingNodes := by
  unfold Obligations.RoutingNodes
  intro s k site lane c w l p room
  refine ⟨fun i t hbusy hvar hi hturn hfits hrow h => nodeMerge_item hbusy hvar hi hturn hfits hrow h,
    fun t hbusy hrow h => nodeMerge_rows hbusy hrow h, fun hbusy h => nodeMerge_differ hbusy h,
    fun i t hbusy hi hindex hfits h => nodeMerge_rest hbusy hi hindex hfits h,
    fun t hbusy hfits hrow hbound => ⟨fun hvar h => nodeSplit_turns hvar hbusy hfits hrow hbound h,
      fun b hvar h => nodeSplit_pred hvar hbusy hfits hrow hbound h⟩,
    fun t hbusy hfits hboth h => nodeSplit_both hbusy hfits hboth h,
    fun hs u hvar h hhead hu => nodeSplit_noPred hvar h hhead hu,
    fun t hfits h => ⟨fun hroom => nodeFork_room hfits h hroom, fun x hx hroom => nodeFork_waits hfits h hx hroom⟩,
    fun ts hops _ hlen hins hts h hdest => nodeJoin_round h hops hins hlen hts hdest,
    fun hs h hbounds => ⟨fun m hm hother => nodeJoin_waits h hbounds hm hother,
      fun i n q d hall hi hroom hdest hapart => nodeJoin_bound h hall hi hroom hdest hapart⟩, ?_, ?_, ?_⟩
  · exact ⟨fun t hbit hops h hfits => nodePsrc_head hbit hops h hfits, fun hfree h => nodePsrc_free hfree h⟩
  · exact fun h => nodeNsrc_turns h
  · intro ages aged
    have haged (hout : l.out = []) : l.aged p = aged := LaneState.aged_eq hout p
    refine ⟨fun t hfits h => ?_, fun h => ?_⟩
    · rw [← haged h.out]
      exact nodeDly_takes hfits h
    · rw [← haged h.out]
      exact nodeDly_none h

end Sys2Proof.Machine
end

section
/-!
Exact numbers m × 2^x as rationals, the prefixes of a received number, and the digits that the opcodes select (06 R192, R193,
R195, R197).
-/
namespace Sys2Proof.Machine

open Sys2Proof.Safety

/-! ## Exact numbers -/

/-- What m × 2^x stands for. -/
def dyVal (a : Int × Int) : ℚ := a.1 * 2 ^ a.2

theorem two_zpow_pos (x : Int) : (0 : ℚ) < 2 ^ x := zpow_pos two_pos x

theorem two_zpow_le {x y : Int} (h : x ≤ y) : (2 : ℚ) ^ x ≤ 2 ^ y := zpow_le_zpow_right₀ one_le_two h

theorem two_zpow_succ (x : Int) : (2 : ℚ) ^ (x + 1) = 2 * 2 ^ x := by
  rw [zpow_add_one₀ two_ne_zero, mul_comm]

theorem two_zpow_shift {x y : Int} (h : y ≤ x) : ((2 ^ (x - y).toNat : Int) : ℚ) * 2 ^ y = 2 ^ x := by
  rw [Int.cast_pow, Int.cast_ofNat, ← zpow_natCast, Int.toNat_of_nonneg (sub_nonneg.2 h), ← zpow_add₀ two_ne_zero, sub_add_cancel]

theorem dyVal_dyAdd (a b : Int × Int) : dyVal (dyAdd a b) = dyVal a + dyVal b := by
  unfold dyAdd dyVal
  split
  · next h => rw [← two_zpow_shift h]; push_cast; ring
  · next h => rw [← two_zpow_shift (not_le.1 h).le]; push_cast; ring

theorem dyVal_dyMul (a b : Int × Int) : dyVal (dyMul a b) = dyVal a * dyVal b := by
  simp only [dyVal, dyMul, Int.cast_mul, zpow_add₀ (two_ne_zero (α := ℚ))]
  ring

theorem dyVal_neg (a : Int × Int) : dyVal (-a.1, a.2) = -dyVal a := by
  simp [dyVal]

theorem dyVal_nonneg (a : Int × Int) : 0 ≤ dyVal a ↔ 0 ≤ a.1 := by
  rw [dyVal, mul_nonneg_iff_of_pos_right (two_zpow_pos _), Int.cast_nonneg_iff]

theorem dyVal_eq_zero (a : Int × Int) : dyVal a = 0 ↔ a.1 = 0 := by
  rw [dyVal, mul_eq_zero, or_iff_left (two_zpow_pos _).ne', Int.cast_eq_zero]

theorem dyGe_iff (a b : Int × Int) : dyGe a b = true ↔ dyVal b ≤ dyVal a := by
  rw [← sub_nonneg, sub_eq_add_neg, ← dyVal_neg, ← dyVal_dyAdd, dyVal_nonneg]
  simp [dyGe, dyLt]

theorem dyEq_iff (a b : Int × Int) : dyEq a b = true ↔ dyVal a = dyVal b := by
  rw [dyEq, decide_eq_true_iff, ← dyVal_eq_zero, dyVal_dyAdd, dyVal_neg, ← sub_eq_add_neg, sub_eq_zero]

theorem within_iff (r : Int × Int) (z x : Int) : within r z x ↔ |dyVal r - z * 2 ^ x| ≤ 2 ^ x := by
  have up : dyVal (z + 1, x) = z * 2 ^ x + 2 ^ x := by simp only [dyVal]; push_cast; ring
  have down : dyVal (z - 1, x) = z * 2 ^ x - 2 ^ x := by simp only [dyVal]; push_cast; ring
  rw [within, dyGe_iff, dyGe_iff, up, down, abs_le]
  constructor <;> rintro ⟨h, g⟩ <;> constructor <;> linarith

/-! ## Prefixes of a number (06 R185) -/

theorem digitsInt_append_list (ds es : List Int) : digitsInt (ds ++ es) = digitsInt ds * 2 ^ es.length + digitsInt es := by
  induction es using List.reverseRecOn with
  | nil => simp [digitsInt]
  | append_singleton es d ih =>
    rw [← List.append_assoc, digitsInt_append, digitsInt_append, ih, List.length_append, List.length_singleton, pow_succ]
    ring

theorem abs_digitsInt_le {ds : List Int} (h : ∀ d ∈ ds, -1 ≤ d ∧ d ≤ 1) : |digitsInt ds| ≤ 2 ^ ds.length - 1 := by
  induction ds using List.reverseRecOn with
  | nil => simp [digitsInt]
  | append_singleton ds d ih =>
    have hd := h d (by simp)
    have := abs_le.1 (ih fun x hx => h x (by simp [hx]))
    rw [digitsInt_append, List.length_append, List.length_singleton, pow_succ, abs_le]
    constructor <;> linarith

theorem abs_dyVal_digits_le {ds : List Int} (h : ∀ d ∈ ds, -1 ≤ d ∧ d ≤ 1) (e : Int) :
    |dyVal (digitsInt ds, e - ds.length)| ≤ 2 ^ e := by
  have hd : (|digitsInt ds| : ℚ) ≤ 2 ^ ds.length := by
    exact_mod_cast (abs_digitsInt_le h).trans (sub_le_self _ zero_le_one)
  calc |dyVal (digitsInt ds, e - ds.length)|
      = |(digitsInt ds : ℚ)| * 2 ^ (e - ds.length) := by rw [dyVal, abs_mul, abs_of_pos (two_zpow_pos _)]
    _ ≤ 2 ^ ds.length * 2 ^ (e - ds.length) := mul_le_mul_of_nonneg_right hd (two_zpow_pos _).le
    _ = 2 ^ e := by rw [← zpow_natCast, ← zpow_add₀ two_ne_zero, add_sub_cancel]

/-- Digits that follow others go on below their last weight. -/
theorem dyVal_digits_append (ds es : List Int) (e : Int) :
    dyVal (digitsInt (ds ++ es), e - (ds ++ es).length) =
      dyVal (digitsInt ds, e - ds.length) + dyVal (digitsInt es, e - ds.length - es.length) := by
  have shift : (2 : ℚ) ^ (e - ds.length) = 2 ^ es.length * 2 ^ (e - ds.length - es.length) := by
    rw [← zpow_natCast, ← zpow_add₀ two_ne_zero, add_sub_cancel]
  simp only [dyVal, digitsInt_append_list, List.length_append, Nat.cast_add, ← sub_sub, shift]
  push_cast
  ring

section Prefixes
variable {o : Operand}

theorem Operand.prefixVal_of_length_le {n : Int} (h : o.digits.length ≤ n + 1) : o.prefixVal n = o.value := by
  have take (m : Int) (hm : o.digits.length ≤ m + 1) : o.digits.take (m + 1).toNat = o.digits :=
    List.take_of_length_le (by omega)
  rw [Operand.value, Operand.prefixVal, Operand.prefixVal, take n h, take o.digits.length (by omega)]

/-- A prefix with one digit more is worth that digit more. -/
theorem Operand.dyVal_prefixVal_succ (o : Operand) (n : Int) :
    dyVal (o.prefixVal n) = dyVal (o.prefixVal (n - 1)) + o.digitAt n * 2 ^ (o.e - n - 1) := by
  rcases lt_or_ge n 0 with hn | hn
  · simp [Operand.prefixVal, Operand.digitAt, hn, Int.toNat_of_nonpos, show n + 1 ≤ 0 by omega, hn.le]
  obtain ⟨m, rfl⟩ := Int.eq_ofNat_of_zero_le hn
  have at_ : o.digitAt m = nth o.digits m 0 := by simp [Operand.digitAt]
  rcases lt_or_ge m o.digits.length with hm | hm
  · have take : o.digits.take (m + 1) = o.digits.take m ++ [nth o.digits m 0] := by
      rw [List.take_succ_eq_append_getElem hm]; simp [nth, hm]
    have hmin : min m o.digits.length = m := min_eq_left hm.le
    have hx : o.e - (m + 1 : Nat) = o.e - m - 1 := by push_cast; ring
    have hy := two_zpow_succ (o.e - m - 1)
    rw [sub_add_cancel] at hy
    simp only [Operand.prefixVal, at_, sub_add_cancel, Int.toNat_natCast, show ((m : Int) + 1).toNat = m + 1 from rfl, take,
      digitsInt_append, dyVal, List.length_append, List.length_take, List.length_singleton, hmin, hx, hy]
    push_cast
    ring
  · rw [prefixVal_of_length_le (by omega), prefixVal_of_length_le (by omega), at_]
    simp [nth, hm]

/-- What a prefix of a received number leaves out is at most the weight of the prefix's last digit. -/
theorem Operand.prefixVal_near (h : Received o) (n : Int) :
    |dyVal (o.prefixVal n) - dyVal o.value| ≤ 2 ^ (o.e - (n + 1)) := by
  obtain ⟨-, -, hd⟩ := h
  rcases le_or_gt (o.digits.length : Int) (n + 1) with hn | hn
  · rw [Operand.prefixVal_of_length_le hn, sub_self, abs_zero]
    exact (two_zpow_pos _).le
  set ds := o.digits.take (n + 1).toNat with hds
  set es := o.digits.drop (n + 1).toNat with hes
  have split : o.value = (digitsInt (ds ++ es), o.e - (ds ++ es).length) := by
    rw [← Operand.prefixVal_of_length_le (n := o.digits.length) (by omega), Operand.prefixVal, List.take_of_length_le (by omega),
      List.take_append_drop]
  calc |dyVal (o.prefixVal n) - dyVal o.value|
      = |dyVal (digitsInt es, o.e - ds.length - es.length)| := by
        rw [split, dyVal_digits_append, Operand.prefixVal, ← hds, sub_add_cancel_left, abs_neg]
    _ ≤ 2 ^ (o.e - ds.length) := abs_dyVal_digits_le (fun d m => hd d (List.mem_of_mem_drop m)) _
    _ ≤ 2 ^ (o.e - (n + 1)) := two_zpow_le (by rw [List.length_take]; omega)

theorem Operand.abs_value_le (h : Received o) : |dyVal o.value| ≤ 2 ^ o.e := by
  simpa [Operand.prefixVal, digitsInt, dyVal] using Operand.prefixVal_near h (-1)

theorem Operand.abs_prefixVal_le (h : Received o) (n : Int) : |dyVal (o.prefixVal n)| ≤ 2 ^ o.e := by
  obtain ⟨-, -, hd⟩ := h
  exact abs_dyVal_digits_le (fun d m => hd d (List.mem_of_mem_take m)) _

/-- The digits of an ended number are all held. -/
theorem Operand.has_of_received (h : Received o) (n : Int) : o.has n = true := by
  obtain ⟨-, hend, -⟩ := h
  simp [Operand.has, hend]

theorem Operand.isInf_of_received (h : Received o) : o.isInf = false := by
  obtain ⟨htag, -, -⟩ := h
  simp [Operand.isInf, htag]

end Prefixes

/-! ## Digits by thresholds (06 R193) -/

/-- A digit by thresholds keeps what was selected within its weight of the result, when ge decides each threshold to within half
that weight. -/
theorem pickBy_within {ge : Int → Int → Bool} {eo z : Int} {j : Nat} {r : Int × Int} (hr : within r z (eo - j))
    (above : ∀ t : Int, ge t (eo - 2 - j) = true → (t - 1) * 2 ^ (eo - 2 - j) ≤ dyVal r)
    (below : ∀ t : Int, ge t (eo - 2 - j) = false → dyVal r ≤ (t + 1) * 2 ^ (eo - 2 - j)) :
    -1 ≤ pickBy ge eo j z ∧ pickBy ge eo j z ≤ 1 ∧ within r (2 * z + pickBy ge eo j z) (eo - (j + 1)) := by
  have h2 : (2 : ℚ) ^ (eo - (j + 1)) = 2 * 2 ^ (eo - 2 - j) := by
    rw [← two_zpow_succ]; congr 1; ring
  have h4 : (2 : ℚ) ^ (eo - j) = 4 * 2 ^ (eo - 2 - j) := by
    rw [show eo - j = eo - (j + 1) + 1 by ring, two_zpow_succ, h2]; ring
  rw [within_iff, h4, abs_le] at hr
  rw [within_iff, h2]
  unfold pickBy
  split
  · next hg =>
    have := above _ hg
    push_cast at this
    refine ⟨by decide, by decide, abs_le.2 ⟨?_, ?_⟩⟩ <;> push_cast <;> linarith
  next hg =>
  have hi := below _ (Bool.eq_false_iff.2 hg)
  push_cast at hi
  split
  · next hg =>
    have := above _ hg
    push_cast at this
    refine ⟨by decide, by decide, abs_le.2 ⟨?_, ?_⟩⟩ <;> push_cast <;> linarith
  · next hg =>
    have := below _ (Bool.eq_false_iff.2 hg)
    push_cast at this
    refine ⟨by decide, by decide, abs_le.2 ⟨?_, ?_⟩⟩ <;> push_cast <;> linarith

/-- An opcode that compares an approximation f of the result with its thresholds, near enough at every digit, converges. -/
theorem converges_of_near {o : NodeOp} {os : List Operand} {r : Int × Int} {eo : Int} (f : Nat → Int × Int) (heo : o.eo os = some eo)
    (hr : |dyVal r| ≤ 2 ^ eo)
    (pick : ∀ (j : Nat) z, o.pick os eo j z = some (pickBy (fun t x => dyGe (f j) (t, x)) eo j z))
    (near : ∀ j : Nat, |dyVal (f j) - dyVal r| ≤ 2 ^ (eo - 2 - j)) : Converges o os r := by
  refine ⟨eo, heo, (within_iff _ _ _).2 (by simpa using hr), fun j z hz => ⟨_, pick j z, pickBy_within hz ?_ ?_⟩⟩
  all_goals
    intro t ht
    have := abs_le.1 (near j)
  · have : t * 2 ^ (eo - 2 - j) ≤ dyVal (f j) := (dyGe_iff _ _).1 ht
    linarith
  · have : dyVal (f j) < t * 2 ^ (eo - 2 - j) := not_le.1 (mt (dyGe_iff (f j) (t, _)).2 (Bool.eq_false_iff.1 ht))
    linarith

/-- The larger or the smaller of two exact numbers. -/
def extreme (larger : Bool) (a b : Int × Int) : Int × Int := if dyGe a b = larger then a else b

theorem dyVal_extreme (larger : Bool) (a b : Int × Int) :
    dyVal (extreme larger a b) = if larger then max (dyVal a) (dyVal b) else min (dyVal a) (dyVal b) := by
  rcases le_or_gt (dyVal b) (dyVal a) with h | h
  · have ge := (dyGe_iff a b).2 h
    cases larger <;> simp [extreme, ge, h]
  · have lt := Bool.eq_false_iff.2 (mt (dyGe_iff a b).1 (not_le.2 h))
    cases larger <;> simp [extreme, lt, h.le]

/-- The larger passes a threshold when one of the two does, the smaller when both do. -/
theorem dyGe_extreme (larger : Bool) (a b c : Int × Int) :
    dyGe (extreme larger a b) c = if larger then dyGe a c || dyGe b c else dyGe a c && dyGe b c := by
  rw [Bool.eq_iff_iff, dyGe_iff, dyVal_extreme]
  cases larger <;> simp [dyGe_iff]

section Selected
variable {a b c : Operand} (ha : Received a) (hb : Received b) (hc : Received c)

include ha hb in
/-- A product of prefixes lies as near the product as twice the sum of what each leaves out. -/
theorem prefix_product_near (n m : Int) {x : Int} (hx : a.e + b.e - (n + 1) ≤ x) (hy : a.e + b.e - (m + 1) ≤ x) :
    |dyVal (dyMul (a.prefixVal n) (b.prefixVal m)) - dyVal (dyMul a.value b.value)| ≤ 2 ^ (x + 1) := by
  rw [dyVal_dyMul, dyVal_dyMul, two_zpow_succ]
  set p := dyVal (a.prefixVal n)
  set q := dyVal (b.prefixVal m)
  have left : |p * (q - dyVal b.value)| ≤ 2 ^ x := calc
    |p * (q - dyVal b.value)| = |p| * |q - dyVal b.value| := abs_mul _ _
    _ ≤ 2 ^ a.e * 2 ^ (b.e - (m + 1)) :=
      mul_le_mul (Operand.abs_prefixVal_le ha n) (Operand.prefixVal_near hb m) (abs_nonneg _) (two_zpow_pos _).le
    _ = 2 ^ (a.e + b.e - (m + 1)) := by rw [← zpow_add₀ two_ne_zero]; congr 1; ring
    _ ≤ 2 ^ x := two_zpow_le hy
  have right : |(p - dyVal a.value) * dyVal b.value| ≤ 2 ^ x := calc
    |(p - dyVal a.value) * dyVal b.value| = |p - dyVal a.value| * |dyVal b.value| := abs_mul _ _
    _ ≤ 2 ^ (a.e - (n + 1)) * 2 ^ b.e :=
      mul_le_mul (Operand.prefixVal_near ha n) (Operand.abs_value_le hb) (abs_nonneg _) (two_zpow_pos _).le
    _ = 2 ^ (a.e + b.e - (n + 1)) := by rw [← zpow_add₀ two_ne_zero]; congr 1; ring
    _ ≤ 2 ^ x := two_zpow_le hx
  calc |p * q - dyVal a.value * dyVal b.value|
      = |p * (q - dyVal b.value) + (p - dyVal a.value) * dyVal b.value| := by congr 1; ring
    _ ≤ |p * (q - dyVal b.value)| + |(p - dyVal a.value) * dyVal b.value| := abs_add_le _ _
    _ ≤ 2 * 2 ^ x := by linarith

include ha hb in
theorem abs_product_le : |dyVal (dyMul a.value b.value)| ≤ 2 ^ (a.e + b.e) := by
  rw [dyVal_dyMul, abs_mul, zpow_add₀ two_ne_zero]
  exact mul_le_mul (Operand.abs_value_le ha) (Operand.abs_value_le hb) (abs_nonneg _) (two_zpow_pos _).le

include ha hb in
theorem mulOp_converges : Converges mulOp [a, b] (dyMul a.value b.value) := by
  refine converges_of_near (fun j => dyMul (a.prefixVal (j + 2)) (b.prefixVal (j + 2))) rfl
    ((abs_product_le ha hb).trans (two_zpow_le (by simp [opAt, nth]))) (fun j z => ?_) fun j => ?_
  · simp [mulOp, opAt, nth, Operand.has_of_received ha, Operand.has_of_received hb]
  · refine (prefix_product_near ha hb _ _ (x := a.e + b.e - (j + 2 + 1)) le_rfl le_rfl).trans (two_zpow_le ?_)
    simp only [opAt, nth, List.getD_cons_zero, List.getD_cons_succ]
    omega

include ha hb hc in
theorem madOp_converges : Converges madOp [a, b, c] (dyAdd (dyMul a.value b.value) c.value) := by
  set eo := max (a.e + b.e) c.e + 2 with heo
  refine converges_of_near
    (fun j => dyAdd (dyMul (a.prefixVal (j + 3 + a.e + b.e - eo)) (b.prefixVal (j + 3 + a.e + b.e - eo)))
      (c.prefixVal (j + 3 + c.e - eo))) (eo := eo) rfl ?_ (fun j z => ?_) fun j => ?_
  · have product := (abs_product_le ha hb).trans (two_zpow_le (le_max_left (a.e + b.e) c.e))
    have third := (Operand.abs_value_le hc).trans (two_zpow_le (le_max_right (a.e + b.e) c.e))
    have top : (2 : ℚ) ^ eo = 2 * (2 * 2 ^ max (a.e + b.e) c.e) := by
      rw [← two_zpow_succ, ← two_zpow_succ]; congr 1; ring
    rw [dyVal_dyAdd, top]
    linarith [abs_add_le (dyVal (dyMul a.value b.value)) (dyVal c.value), two_zpow_pos (max (a.e + b.e) c.e)]
  · simp [madOp, opAt, nth, Operand.has_of_received ha, Operand.has_of_received hb, Operand.has_of_received hc]
  · set p := dyMul (a.prefixVal (j + 3 + a.e + b.e - eo)) (b.prefixVal (j + 3 + a.e + b.e - eo))
    set q := c.prefixVal (j + 3 + c.e - eo)
    have product : |dyVal p - dyVal (dyMul a.value b.value)| ≤ 2 ^ (eo - j - 4 + 1) :=
      prefix_product_near ha hb _ _ (by omega) (by omega)
    have third : |dyVal q - dyVal c.value| ≤ 2 ^ (eo - j - 4) :=
      (Operand.prefixVal_near hc _).trans (two_zpow_le (by omega))
    have half : (2 : ℚ) ^ (eo - 2 - j) = 2 * (2 * 2 ^ (eo - j - 4)) := by
      rw [← two_zpow_succ, ← two_zpow_succ]; congr 1; ring
    rw [two_zpow_succ] at product
    rw [dyVal_dyAdd, dyVal_dyAdd, add_sub_add_comm, half]
    linarith [abs_add_le (dyVal p - dyVal (dyMul a.value b.value)) (dyVal q - dyVal c.value), two_zpow_pos (eo - j - 4)]

include ha hb in
theorem orderOp_converges {larger : Bool} {r : Int × Int}
    (hr : dyVal r = if larger then max (dyVal a.value) (dyVal b.value) else min (dyVal a.value) (dyVal b.value)) :
    Converges (orderOp larger) [a, b] r := by
  set m := max a.e b.e with hm
  have first (j : Nat) := (Operand.prefixVal_near ha (j + 1 + a.e - m)).trans (two_zpow_le (show _ ≤ m + 1 - 2 - j by omega))
  have second (j : Nat) := (Operand.prefixVal_near hb (j + 1 + b.e - m)).trans (two_zpow_le (show _ ≤ m + 1 - 2 - j by omega))
  have sizeA := abs_le.1 ((Operand.abs_value_le ha).trans (two_zpow_le (show a.e ≤ m + 1 by omega)))
  have sizeB := abs_le.1 ((Operand.abs_value_le hb).trans (two_zpow_le (show b.e ≤ m + 1 by omega)))
  refine converges_of_near (fun j => extreme larger (a.prefixVal (j + 1 + a.e - m)) (b.prefixVal (j + 1 + b.e - m))) (eo := m + 1) rfl
    ?_ (fun j z => ?_) fun j => ?_
  · cases larger
    · rw [hr]; simp only [Bool.false_eq_true, if_false]
      exact abs_le.2 ⟨le_min sizeA.1 sizeB.1, (min_le_left _ _).trans sizeA.2⟩
    · rw [hr, if_pos rfl]
      exact abs_le.2 ⟨sizeA.1.trans (le_max_left _ _), max_le sizeA.2 sizeB.2⟩
  · simp [orderOp, opAt, nth, emaxOf, ← hm, dyGe_extreme, Operand.has_of_received ha, Operand.has_of_received hb,
      Operand.isInf_of_received ha, Operand.isInf_of_received hb]
  · rw [hr, dyVal_extreme]
    cases larger
    · exact (abs_min_sub_min_le_max _ _ _ _).trans (max_le (first j) (second j))
    · exact (abs_max_sub_max_le_max _ _ _ _).trans (max_le (first j) (second j))

end Selected
end Sys2Proof.Machine
end

section
/-!
Carry-free addition, the classes of results, and what the arithmetic opcodes compute (06 R192, R195, R197).
-/
namespace Sys2Proof.Machine

open Sys2Proof.Safety

/-! ## Carry-free addition (06 R192) -/

/-- The carry and the sum of a pair stand for the pair. -/
theorem splitPair_value {p q : Int} (h : -2 ≤ p ∧ p ≤ 2) : 2 * (splitPair p q).1 + (splitPair p q).2 = p := by
  obtain ⟨lo, hi⟩ := h
  unfold splitPair
  split_ifs <;> omega

/-- A sum and the carry that comes to it make a digit. -/
theorem splitPair_digit (p q r : Int) : -1 ≤ (splitPair p q).2 + (splitPair q r).1 ∧ (splitPair p q).2 + (splitPair q r).1 ≤ 1 := by
  unfold splitPair
  split_ifs <;> omega

theorem splitPair_carry (p q : Int) : -1 ≤ (splitPair p q).1 ∧ (splitPair p q).1 ≤ 1 := by
  unfold splitPair
  split_ifs <;> omega

/-- The sum of pair j - 1, nothing before the first, and the carry of pair j. -/
def carryFree (pair : Int → Int) (j : Nat) : Int :=
  (if j = 0 then 0 else (splitPair (pair ((j : Int) - 1)) (pair j)).2) + (splitPair (pair j) (pair (j + 1))).1

theorem carryFree_digit (pair : Int → Int) (j : Nat) : -1 ≤ carryFree pair j ∧ carryFree pair j ≤ 1 := by
  unfold carryFree
  split
  · simpa using splitPair_carry _ _
  · exact splitPair_digit _ _ _

theorem upto_succ (n : Nat) : upto (n + 1) = upto n ++ [n] := List.range_succ

/-- n digits of a carry-free addition and the sum still due stand for n pairs. -/
theorem digitsInt_carryFree {pair : Int → Int} (h : ∀ i, -2 ≤ pair i ∧ pair i ≤ 2) (n : Nat) :
    2 * digitsInt ((upto n).map (carryFree pair)) + (if n = 0 then 0 else (splitPair (pair ((n : Int) - 1)) (pair n)).2) =
      digitsInt ((upto n).map fun i : Nat => pair i) := by
  induction n with
  | zero => simp [upto, digitsInt]
  | succ n ih =>
    have due := splitPair_value (q := pair (n + 1)) (h n)
    simp only [upto_succ, List.map_append, List.map_singleton, digitsInt_append, ← ih, carryFree, Nat.add_one_ne_zero, if_false,
      Nat.cast_add, Nat.cast_one, add_sub_cancel_right]
    linarith

/-- Once the pairs are 0 the digits stand for all of them. -/
theorem digitsInt_carryFree_last {pair : Int → Int} (h : ∀ i, -2 ≤ pair i ∧ pair i ≤ 2) {n : Nat} (hn : pair n = 0) :
    digitsInt ((upto (n + 1)).map (carryFree pair)) = digitsInt ((upto n).map fun i : Nat => pair i) := by
  rw [upto_succ, List.map_append, List.map_singleton, digitsInt_append, ← digitsInt_carryFree h n, carryFree, hn,
    show splitPair 0 (pair (n + 1)) = (0, 0) from rfl, add_zero]

/-- Pair i of an addition: the digits of the weight 2^(m - i - 1), b's negated for a subtraction. -/
def digitPair (sub : Bool) (a b : Operand) (i : Int) : Int :=
  a.digitAt (i + a.e - max a.e b.e) + (if sub then -b.digitAt (i + b.e - max a.e b.e) else b.digitAt (i + b.e - max a.e b.e))

section Sum
variable {a b : Operand} (sub : Bool) (ha : Received a) (hb : Received b)

theorem Operand.digitAt_mem (h : Received a) (i : Int) : -1 ≤ a.digitAt i ∧ a.digitAt i ≤ 1 := by
  obtain ⟨-, -, hd⟩ := h
  unfold Operand.digitAt nth
  split
  · decide
  · rcases lt_or_ge i.toNat a.digits.length with hi | hi
    · rw [List.getD_eq_getElem _ _ hi]
      exact hd _ (List.getElem_mem hi)
    · rw [List.getD_eq_default _ _ hi]
      decide

theorem Operand.digitAt_of_length_le {i : Int} (h : (a.digits.length : Int) ≤ i) : a.digitAt i = 0 := by
  rw [Operand.digitAt, if_neg (by omega), nth, List.getD_eq_default _ _ (by omega)]

include ha hb in
theorem digitPair_le (i : Int) : -2 ≤ digitPair sub a b i ∧ digitPair sub a b i ≤ 2 := by
  obtain ⟨alo, ahi⟩ := Operand.digitAt_mem ha (i + a.e - max a.e b.e)
  obtain ⟨blo, bhi⟩ := Operand.digitAt_mem hb (i + b.e - max a.e b.e)
  unfold digitPair
  split <;> omega

/-- The pairs before n stand for the prefixes of the two operands above the weight of pair n - 1. -/
theorem dyVal_digitPairs (n : Nat) :
    dyVal (digitsInt ((upto n).map fun i : Nat => digitPair sub a b i), max a.e b.e - n) =
      dyVal (a.prefixVal (n + a.e - max a.e b.e - 1)) +
        (if sub then -1 else 1) * dyVal (b.prefixVal (n + b.e - max a.e b.e - 1)) := by
  induction n with
  | zero =>
    have none (o : Operand) (m : Int) (h : o.e ≤ m) : dyVal (o.prefixVal ((0 : Nat) + o.e - m - 1)) = 0 := by
      simp [Operand.prefixVal, Int.toNat_of_nonpos (show o.e - m ≤ 0 by omega), digitsInt, dyVal]
    rw [none a _ (le_max_left _ _), none b _ (le_max_right _ _)]
    simp [upto, digitsInt, dyVal]
  | succ n ih =>
    set m := max a.e b.e
    have next (o : Operand) : dyVal (o.prefixVal ((n + 1 : Nat) + o.e - m - 1)) =
        dyVal (o.prefixVal (n + o.e - m - 1)) + o.digitAt (n + o.e - m) * 2 ^ (m - n - 1) := by
      rw [show ((n + 1 : Nat) : Int) + o.e - m - 1 = n + o.e - m by push_cast; ring, o.dyVal_prefixVal_succ]
      congr 3
      ring
    have weight : (2 : ℚ) ^ (m - n) = 2 * 2 ^ (m - n - 1) := by rw [← two_zpow_succ, sub_add_cancel]
    have last : dyVal (digitsInt ((upto (n + 1)).map fun i : Nat => digitPair sub a b i), m - (n + 1 : Nat)) =
        dyVal (digitsInt ((upto n).map fun i : Nat => digitPair sub a b i), m - n) + digitPair sub a b n * 2 ^ (m - n - 1) := by
      simp only [dyVal, upto_succ, List.map_append, List.map_singleton, digitsInt_append, weight, Nat.cast_add, Nat.cast_one, ← sub_sub]
      push_cast
      ring
    have pair : digitPair sub a b n = a.digitAt (n + a.e - m) + if sub then -b.digitAt (n + b.e - m) else b.digitAt (n + b.e - m) := rfl
    rw [last, ih, next a, next b, pair]
    cases sub
    · simp only [Bool.false_eq_true, if_false, Int.cast_add]
      ring
    · simp only [if_true, Int.cast_add, Int.cast_neg]
      ring

include ha hb in
theorem addOp_pick (eo z : Int) (j : Nat) : (addOp sub).pick [a, b] eo j z = some (carryFree (digitPair sub a b) j) := by
  simp [addOp, opAt, nth, emaxOf, Operand.has_of_received ha, Operand.has_of_received hb, carryFree, digitPair]

include ha hb in
/-- The digits of a sum stand for it once all digits of the operands are in. -/
theorem addOp_exact {n : Nat} (hn : ∀ o ∈ [a, b], (o.digits.length : Int) + (max a.e b.e - o.e) ≤ n) :
    dyEq (digitsInt ((upto (n + 1)).map (carryFree (digitPair sub a b))), max a.e b.e - n)
      (dyAdd a.value (if sub then -b.value.1 else b.value.1, b.value.2)) = true := by
  have la := hn a (by simp)
  have lb := hn b (by simp)
  have zero : digitPair sub a b n = 0 := by
    rw [digitPair, Operand.digitAt_of_length_le (by omega), Operand.digitAt_of_length_le (by omega)]
    simp
  rw [dyEq_iff, digitsInt_carryFree_last (digitPair_le sub ha hb) zero, dyVal_digitPairs, dyVal_dyAdd,
    Operand.prefixVal_of_length_le (by omega), Operand.prefixVal_of_length_le (by omega)]
  cases sub
  · simp
  · simp [dyVal_neg]

end Sum

/-! ## What the opcodes compute -/

theorem addOp_adds {a b : Operand} (sub : Bool) {n : Nat} (ha : Received a) (hb : Received b)
    (hn : ∀ o ∈ [a, b], (o.digits.length : Int) + (max a.e b.e - o.e) ≤ n) :
    let d (j : Nat) : Int := ((addOp sub).pick [a, b] (max a.e b.e + 1) j 0).getD 2
    (addOp sub).eo [a, b] = some (max a.e b.e + 1) ∧ (∀ j, -1 ≤ d j ∧ d j ≤ 1) ∧
      dyEq (digitsInt ((upto (n + 1)).map d), max a.e b.e - n) (dyAdd a.value (if sub then -b.value.1 else b.value.1, b.value.2)) = true := by
  simp only [addOp_pick sub ha hb, Option.getD_some]
  exact ⟨rfl, carryFree_digit _, addOp_exact sub ha hb hn⟩

theorem passOp_passes {a : Operand} {k : Int} {sz : Operand → Bool} {f : Operand → Int → Int} {j : Nat} {d : Int} {eo z : Int}
    (h : a.digits[j]? = some d) : (passOp k sz f).pick [a] eo j z = some (f a d) ∧ (passOp k sz f).eo [a] = some (a.e + k) := by
  simp [passOp, opAt, nth, h]

/-- The value that no other exceeds is the larger one. -/
theorem dyVal_larger {r a b : Int × Int} (h : r = a ∨ r = b) (ha : dyGe r a = true) (hb : dyGe r b = true) :
    dyVal r = max (dyVal a) (dyVal b) := by
  rw [dyGe_iff] at ha hb
  rcases h with rfl | rfl
  · rw [max_eq_left hb]
  · rw [max_eq_right ha]

/-- The value that exceeds no other is the smaller one. -/
theorem dyVal_smaller {r a b : Int × Int} (h : r = a ∨ r = b) (ha : dyGe a r = true) (hb : dyGe b r = true) :
    dyVal r = min (dyVal a) (dyVal b) := by
  rw [dyGe_iff] at ha hb
  rcases h with rfl | rfl
  · rw [min_eq_left hb]
  · rw [min_eq_right ha]

/-! ## The classes of results (06 R195) -/

section Classes
variable {a b c : Operand}

theorem cls_of_nan (h : a.tag = 3 ∨ b.tag = 3) :
    (addOp false).cls [a, b] = .nan ∧ (addOp true).cls [a, b] = .nan ∧ mulOp.cls [a, b] = .nan ∧
      madOp.cls [a, b, c] = .nan ∧ divOp.cls [a, b] = .nan ∧ (orderOp true).cls [a, b] = .nan ∧ (orderOp false).cls [a, b] = .nan := by
  rcases h with h | h <;> simp [addOp, mulOp, madOp, divOp, orderOp, productClass, anyNan, opAt, nth, h]

theorem unary_cls_of_nan (h : a.tag = 3) :
    sqrtOp.cls [a] = .nan ∧ rsqrtOp.cls [a] = .nan ∧ exp2Op.cls [a] = .nan ∧ log2Op.cls [a] = .nan := by
  simp [sqrtOp, rsqrtOp, exp2Op, log2Op, unaryClass, opAt, nth, h]

theorem cls_of_infinities (ha : a.tag = 2) (hb : b.tag = 2) :
    (addOp false).cls [a, b] = (if a.sz = b.sz then .inf a.sz else .nan) ∧
      (addOp true).cls [a, b] = (if a.sz = b.sz then .nan else .inf a.sz) ∧ divOp.cls [a, b] = .nan := by
  refine ⟨?_, ?_, ?_⟩
  · cases ga : a.sz <;> cases gb : b.sz <;> simp [addOp, anyNan, opAt, nth, Operand.isInf, ha, hb, ga, gb]
  · cases ga : a.sz <;> cases gb : b.sz <;> simp [addOp, anyNan, opAt, nth, Operand.isInf, ha, hb, ga, gb]
  · simp [divOp, anyNan, opAt, nth, Operand.isInf, ha, hb]

/-- A number known to be zero is no NaN and no infinity. -/
theorem Operand.tag_of_zero (h : b.zero = some true) : b.tag ≠ 2 ∧ b.tag ≠ 3 := by
  by_cases g : b.tag = 0
  · omega
  · have : b.tag = 1 := by simpa [Operand.zero, g] using h
    omega

theorem mulOp_cls_of_infinity_zero (ha : a.tag = 2) (hb : b.zero = some true) : mulOp.cls [a, b] = .nan ∧ mulOp.cls [b, a] = .nan := by
  obtain ⟨b2, b3⟩ := Operand.tag_of_zero hb
  simp [mulOp, productClass, opAt, nth, Operand.isInf, ha, hb, b2, b3]

theorem cls_of_infinity_finite {p : Bool} (ha : a.tag = 2) (hz : b.zero = some false) (hn : b.neg = some p) (hb : b.tag = 0) :
    mulOp.cls [a, b] = .inf (a.sz != p) ∧ divOp.cls [a, b] = .inf (a.sz != p) ∧ divOp.cls [b, a] = .zero (b.sz != a.sz) := by
  have neg : a.neg = some a.sz := by simp [Operand.neg, ha]
  simp [mulOp, divOp, productClass, anyNan, opAt, nth, Operand.isInf, ha, hb, hz, hn, neg]

theorem divOp_cls_of_zeros (ha : a.zero = some true) (hb : b.zero = some true) : divOp.cls [a, b] = .nan := by
  obtain ⟨a2, a3⟩ := Operand.tag_of_zero ha
  obtain ⟨b2, b3⟩ := Operand.tag_of_zero hb
  simp [divOp, anyNan, opAt, nth, Operand.isInf, a2, a3, b2, b3, ha, hb]

theorem divOp_cls_by_zero {p : Bool} (hz : a.zero = some false) (hn : a.neg = some p) (ha : a.tag = 0) (hb : b.zero = some true) :
    divOp.cls [a, b] = .inf (p != b.sz) := by
  obtain ⟨b2, b3⟩ := Operand.tag_of_zero hb
  simp [divOp, anyNan, opAt, nth, Operand.isInf, ha, hz, hn, b2, b3, hb]

theorem unary_cls_of_zero (hz : a.zero = some true) :
    sqrtOp.cls [a] = .zero a.sz ∧ rsqrtOp.cls [a] = .inf a.sz ∧ log2Op.cls [a] = .inf true := by
  obtain ⟨a2, a3⟩ := Operand.tag_of_zero hz
  simp [sqrtOp, rsqrtOp, log2Op, unaryClass, opAt, nth, hz, a2, a3]

theorem unary_cls_of_negative (hz : a.zero = some false) (hn : a.neg = some true) (ha : a.tag = 0) :
    sqrtOp.cls [a] = .nan ∧ rsqrtOp.cls [a] = .nan ∧ log2Op.cls [a] = .nan := by
  simp [sqrtOp, rsqrtOp, log2Op, unaryClass, opAt, nth, hz, hn, ha]

theorem unary_cls_of_infinity (ha : a.tag = 2) :
    exp2Op.cls [a] = (if a.sz then .zero false else .inf false) ∧ sqrtOp.cls [a] = (if a.sz then .nan else .inf false) ∧
      rsqrtOp.cls [a] = (if a.sz then .nan else .zero false) := by
  simp [exp2Op, sqrtOp, rsqrtOp, unaryClass, opAt, nth, Operand.isInf, ha]

/-- The infinity that every number is to one side of decides the larger or the smaller. -/
theorem orderOp_cls_of_infinity {larger : Bool} (ha : a.tag = 2) (hb : b.tag ≠ 3) (hs : a.sz = !larger) :
    (orderOp larger).cls [a, b] = .inf (!larger) := by
  cases larger <;> simp_all [orderOp, anyNan, opAt, nth, Operand.isInf]

end Classes

/-- Settles O34: carry-free digits telescope to the exact sum; a prefix lies within its last weight of the number, so what each
opcode compares with its thresholds lies within half a digit's weight of the exact result, and the classes are read off. -/
theorem arithmeticResults : Obligations.ArithmeticResults := by
  unfold Obligations.ArithmeticResults
  refine ⟨fun a b sub n ha hb hn => addOp_adds sub ha hb hn, fun a b c ha hb hc => ⟨mulOp_converges ha hb, madOp_converges ha hb hc, ?_, ?_⟩,
    fun a k sz f j d eo z h => passOp_passes h, fun a b c => ⟨cls_of_nan, unary_cls_of_nan, cls_of_infinities, mulOp_cls_of_infinity_zero,
      fun p => cls_of_infinity_finite, divOp_cls_of_zeros, fun p => divOp_cls_by_zero, fun hz _ => unary_cls_of_zero hz,
      unary_cls_of_negative, unary_cls_of_infinity, orderOp_cls_of_infinity (larger := true), orderOp_cls_of_infinity (larger := false)⟩⟩
  · exact fun r one first second => orderOp_converges ha hb (dyVal_larger one first second)
  · exact fun r one first second => orderOp_converges ha hb (dyVal_smaller one first second)

end Sys2Proof.Machine
end

section
/-!
An arithmetic lane that holds an operand at an input which its node word does not select: the KILL for that operand goes up the
link of another input (06 R189).
-/
namespace Sys2Proof.Machine

open Sys2Proof.Safety

/-! ## A lane with a stray operand -/

/-- neg at a site: lane 0 alone, input 0 from the north, the other inputs unconnected. -/
def strayWord : NodeWord := { decodeNode 0 with op := 7, lanes := 1, in0 := 1 }

/-- A step in progress whose one operand, a NaN without its END, stands at input 1. -/
def strayLane : LaneState := { LaneState.blank with busy := true, ops := [none, some ⟨3, false, 0, [], false, false⟩, none] }

/-- The link of input 0: lane 0 has begun a number, and no token waits. -/
def strayLink : Link := { Link.blank with heads := [1, 0, 0, 0] }

/-- A core with that node at site 5. -/
def strayCore : Core :=
  { Core.reset with
    images := [(0, ⟨⟨false, 0⟩, 0, 0, [(5, strayWord)], [], [], [], 0, 0⟩)]
    fabric := { Fabric.reset with
      links := [((5, 0), strayLink)]
      nodes := [(5, ⟨strayLane :: List.replicate 3 LaneState.blank, SkimNode.blank⟩)] } }

/-- The reset state with that core as core 0. -/
def strayState : State := State.reset.setCore 0 strayCore

theorem core_strayState : strayState.core 0 = strayCore := State.core_setCore_same _ _ _

theorem node_strayCore : strayCore.node 5 = strayWord := rfl

theorem nodeState_strayCore : strayCore.nodeState 5 = ⟨strayLane :: List.replicate 3 LaneState.blank, SkimNode.blank⟩ := rfl

theorem atNode_strayState : AtNode strayState 0 5 0 0x07 [] where
  code := by rw [core_strayState]; rfl
  enabled := by rw [core_strayState]; exact ⟨by decide, rfl⟩
  runs := by rw [core_strayState]; exact List.not_mem_nil
  links := fun i j hij hj same => by
    rw [core_strayState, node_strayCore] at *
    obtain rfl | rfl : j = 1 ∨ j = 2 := by omega
    · exact same
    · exact same
  lanes := by rw [core_strayState]; rfl
  sent := by rw [core_strayState, nodeState_strayCore]; decide
  heads := by rw [core_strayState, node_strayCore]; decide

/-- What neg computes. -/
def negOp : NodeOp := passOp 0 (fun o => !o.sz) fun _ d => -d

/-- The lane sends a NaN and kills the operand at input 1. -/
theorem arithTurn_stray : arithTurn negOp (strayCore.view 5 0) ((strayCore.nodeState 5).lane 0) =
    ⟨ended strayLane [(0, .head 3 false 0), (0, .fin)], [], [1], none, ⟨0, 0, 0, 0⟩⟩ := by
  rfl

/-- The KILL for input 1 waits on the link of input 0. -/
theorem kills_stray (v : LaneState) : ((strayCore.turned 5 0 v [] [1]).fabric.link 5 0).kills = [killWord 0 0] := rfl

/-- The event puts a KILL on the link of input 0. -/
theorem exec_stray : ∃ t, exec (.nodeNeg 0 5 0) strayState = .next t ∧ ((t.core 0).fabric.link 5 0).kills = [killWord 0 0] := by
  obtain ⟨u, hu, hturn⟩ := atNode_strayState.nodeTurn (act := arithTurn negOp) (wait := waitTurn) (by decide)
  rw [core_strayState] at hu hturn
  rw [arithTurn_stray] at hturn
  have step := u.applyTurn_fabricStep 0 5 0 (ended strayLane [(0, .head 3 false 0), (0, .fin)]) [] [1]
  rw [hu.core] at step
  refine ⟨_, hturn, ?_⟩
  rw [step.core]
  exact kills_stray _

theorem not_turns_stray (v : LaneState) : ¬ Turns (.nodeNeg 0 5 0) strayState 0 5 0 [] [1] v := by
  rintro ⟨t, ht, -, -, -, -, -, links⟩
  obtain ⟨u, hu, kills⟩ := exec_stray
  obtain rfl : u = t := by injection hu.symm.trans ht
  have same := links 0 (by decide) (by rw [core_strayState]; decide)
  rw [core_strayState] at same
  have none : ((u.core 0).fabric.link 5 0).kills = [] := congrArg Link.kills same
  rw [kills] at none
  cases none

/-- Refutes O33: a lane whose operand stands at an input that the node word does not select (no run brings it there) sends its NaN
and kills the operand, but the side of such an input reads as 0, so the KILL goes up the link of another input, input 0 here, of
which the statement says that it stays as it is. -/
theorem not_arithmeticNodes : ¬ Obligations.ArithmeticNodes := by
  unfold Obligations.ArithmeticNodes
  intro h
  have neg : ArithNode ((strayState.core 0).node 5) 0 5 0 (.nodeNeg 0 5 0, 0x07, negOp) := by
    simp [ArithNode, negOp]
  obtain ⟨-, goes⟩ := h strayState 0 5 0 _ neg
  have lane : ((strayState.core 0).nodeState 5).lane 0 = strayLane := by rw [core_strayState]; rfl
  simp only [lane] at goes
  obtain ⟨begins, -⟩ := goes atNode_strayState rfl rfl
  obtain ⟨nan, -⟩ := begins rfl
  exact not_turns_stray _ (nan rfl)

end Sys2Proof.Machine
end
